-- ==== Sys2Proof/Word.lean ====
section
/-! DEFINITION. The machine's words: bytes, 32-bit words, 64-bit values (R3, R4). -/

namespace Sys2Proof

/-- One byte. -/
abbrev Byte := BitVec 8

/-- One 32-bit register or memory word. -/
abbrev Word := BitVec 32

/-- One 64-bit value: a register pair, a pointer, a CLOCK count. -/
abbrev DWord := BitVec 64

end Sys2Proof
end

