-- ==== Sys2Proof/Config.lean ====
section
/-! DEFINITION. What an implementation fixes (R1, R2) and the free values: what the manual leaves open.
A free value is an opaque constant with no body; State.free numbers its uses. -/

namespace Sys2Proof.Config

/-- Threads per strand on Rillar (R1). -/
def gwidth : Nat := 64

/-- Compute dies (R12). -/
def dies : Nat := 4
/-- Clusters of a die (R12). -/
def clustersPerDie : Nat := 24
/-- Cores of a cluster (R12). -/
def coresPerCluster : Nat := 4
/-- Cores of the package, numbered 96·die + 4·cluster + core as COREMASK numbers them (R12, R315). -/
def cores : Nat := 384
/-- Strand slots of a core (R12, R27). -/
def strandSlots : Nat := 16
/-- Scratchpad bytes of a core (R27). -/
def scratchBytes : Nat := 262144
/-- Operand slots of a twin (R27). -/
def twinSlots : Nat := 48
/-- Accumulator tiles of a twin (R27). -/
def twinTiles : Nat := 16
/-- Bytes of device memory that exist: 12 stacks of 64 GiB (R2). -/
def deviceBytes : Nat := 824633720832
/-- Size of the 52-bit physical address space (R218). -/
def paSpace : Nat := 4503599627370496
/-- Lines of 64 bytes that a core's L1 holds: 64 KiB (R2). -/
def l1Lines : Nat := 1024
/-- Shared bank memory of one die, in bytes (R2). -/
def sbmBytes : Nat := 33554432
/-- Nodes that the ready pool holds (R324). -/
def readyPool : Nat := 4096
/-- MMAs that a twin holds issued and not retired (R167). -/
def mmaPlaces : Nat := 16
/-- Records that a fault area holds (R345). -/
def faultRecords : Nat := 63
/-- The feature bits that Rillar advertises: 0 to 13 (R373). -/
def advertised : BitVec 256 := 0x3FFF#256

/-- Cycles beyond the first that a cluster's clock runs during a step (R7: cycle counts are not modelled).
DESIGN CHOICE, log entry 4. -/
opaque freeCycles : Nat → Nat
/-- Nanoseconds that pass at the reference oscillator during a step (R7). DESIGN CHOICE, log entry 4. -/
opaque freeNs : Nat → Nat
/-- Which of the cached translations that have not been invalidated an access uses, or none of them (R227).
DESIGN CHOICE, log entry 9. -/
opaque freeTlb : Nat → Nat
/-- Whether a lane's unit of a store wins over earlier lanes at an address (R235): step, address, lane.
DESIGN CHOICE, log entry 10. -/
opaque freeLane : Nat → Nat → Nat → Bool
/-- Which of the two bracketing values VEXP2 returns: true for the larger magnitude one (R92).
DESIGN CHOICE, log entry 8. -/
opaque exp2Away : BitVec 32 → Bool
/-- Which of the two bracketing values VLOG2 returns (R92). DESIGN CHOICE, log entry 8. -/
opaque log2Away : BitVec 32 → Bool
/-- Which of the two bracketing values VFSIN returns (R92). DESIGN CHOICE, log entry 8. -/
opaque sinAway : BitVec 32 → Bool
/-- Which of the two bracketing values VFCOS returns (R92). DESIGN CHOICE, log entry 8. -/
opaque cosAway : BitVec 32 → Bool
/-- Bits [63:32] that a 64-bit position reads from a latch of a 32-bit result (R58 states none): a function of that
result alone, since an ALU instruction's result is fixed by its inputs (R108). DESIGN CHOICE, log entry 2. -/
opaque freeHigh : BitVec 32 → BitVec 32
/-- Cycles from acceptance by which an engine promises a status (R279). DESIGN CHOICE, log entry 11. -/
opaque freePromise : Nat → Nat
/-- Bytes whose contents the manual leaves to the implementation: a save area's sections (R337),
overlapping copies (R274). DESIGN CHOICE, log entry 12. -/
opaque freeByte : Nat → Nat → BitVec 8
/-- A choice among several that the manual leaves open: step, number of the choice. DESIGN CHOICE, log entry 13. -/
opaque freeNat : Nat → Nat → Nat
/-- The Falcon-1024 signature of a digest under the identity key, which `identityKey` verifies (R366). DESIGN
CHOICE, log entry 14. -/
opaque signature : BitVec 512 → List (BitVec 8)
/-- The Perigee port over which a group's reductions go (R289: groups are configured by system software).
DESIGN CHOICE, log entry 15. -/
opaque groupPort : Nat → Nat
/-- Keys that the moon cores derive or generate: step, number (R355, R356, R360). DESIGN CHOICE, log entry 14. -/
opaque freeKey : Nat → Nat → BitVec 256
/-- The public key of the device's identity, fixed at manufacture (R366). DESIGN CHOICE, log entry 14. -/
opaque identityKey : List (BitVec 8)
/-- The features that remain when some dies are offline (R377). DESIGN CHOICE, log entry 103. -/
opaque freeFeatures : List Nat → BitVec 256
/-- Where the implementation puts a strand's exact accumulator in its part of a save area's section (R105, R337).
DESIGN CHOICE, log entry 35. -/
opaque kaccPlace : Nat

end Sys2Proof.Config
end

