-- ==== Sys2Proof/Syntax.lean ====
section
/-! DEFINITION. The syntax: operands, the fields of every format (R56 to R70), the parameters of the
events, and the one inductive Instr with a constructor for each row of the opcode table (R71, R72). -/

namespace Sys2Proof

/-- A field of kind "op" (R57). `int c` is code 0xD0 + c: the integers 0 to 15, then -16 to -1.
`fc c` is code 0xF0 + c, an FP32 constant. `lit64` is a literal of two words under W (R59). -/
inductive Opnd where
  | v (r : BitVec 7)
  | s (r : BitVec 6)
  | l (j : BitVec 2)
  | int (c : BitVec 5)
  | fc (c : BitVec 3)
  | lit (w : Word)
  | lit64 (w : DWord)
deriving DecidableEq, Repr

/-- The ALU prefix word (R62). `c` is present for 0xF1. -/
structure AluPre where
  msel : BitVec 4
  rm : BitVec 2
  z : Bool
  sat : Bool
  ftz : Bool
  w : Bool
  c : Option Opnd
deriving DecidableEq, Repr

/-- Format A of class alu with operands A and B. The fourth operand C stands in the prefix (R62). -/
structure Alu2 where
  pre : Option AluPre
  n : Bool
  d : BitVec 7
  a : Opnd
  b : Opnd
deriving DecidableEq, Repr

/-- Format A of class alu with operand A alone. -/
structure Alu1 where
  pre : Option AluPre
  n : Bool
  d : BitVec 7
  a : Opnd
deriving DecidableEq, Repr

/-- Format A of class alu with operand A and an n8 in B. -/
structure AluX where
  pre : Option AluPre
  n : Bool
  d : BitVec 7
  a : Opnd
  x : BitVec 8
deriving DecidableEq, Repr

/-- Format A of class alu with a destination alone. -/
structure AluD where
  pre : Option AluPre
  n : Bool
  d : BitVec 7
deriving DecidableEq, Repr

/-- Format I (R65). -/
structure AluImm where
  pre : Option AluPre
  n : Bool
  d : BitVec 7
  imm : BitVec 16
deriving DecidableEq, Repr

/-- SGET: a destination and a special index. -/
structure AluSget where
  pre : Option AluPre
  n : Bool
  d : BitVec 7
  x : BitVec 8
deriving DecidableEq, Repr

/-- MAND, MOR, MXOR: mask numbers in D, A and B. -/
structure Mask2 where
  pre : Option AluPre
  n : Bool
  d : BitVec 4
  a : BitVec 4
  b : BitVec 4
deriving DecidableEq, Repr

/-- MNOT, MMOV. -/
structure Mask1 where
  pre : Option AluPre
  n : Bool
  d : BitVec 4
  a : BitVec 4
deriving DecidableEq, Repr

/-- MCNT, MSAVE: a scalar destination and a mask. -/
structure MaskS where
  pre : Option AluPre
  n : Bool
  d : BitVec 7
  a : BitVec 4
deriving DecidableEq, Repr

/-- MLOAD: a mask destination and the first scalar register of a group. -/
structure MaskL where
  pre : Option AluPre
  n : Bool
  d : BitVec 4
  a : BitVec 6
deriving DecidableEq, Repr

/-- Format E (R70). `steps` holds STEP0 in bits [43:40] down to STEP10 in bits [3:0]. -/
structure ExprF where
  pre : Option AluPre
  n : Bool
  d : BitVec 7
  in0 : Opnd
  in1 : Opnd
  in2 : Opnd
  in3 : Opnd
  ty : BitVec 2
  steps : BitVec 44
deriving DecidableEq, Repr

/-- The memory attribute prefix word (R63). `c` is present when CV is 1. -/
structure MemAtt where
  ord : BitVec 2
  scope : BitVec 3
  aop : BitVec 4
  use : BitVec 3
  nr : Bool
  sx : Bool
  c : Option Opnd
deriving DecidableEq, Repr

/-- Format M (R67) with its prefixes. -/
structure MemV where
  att : Option MemAtt
  off : Option (BitVec 24)
  sz : BitVec 3
  d : BitVec 7
  base : BitVec 6
  idx : Option (BitVec 7)
deriving DecidableEq, Repr

/-- Format MU (R68) with its prefixes. -/
structure MemU where
  att : Option MemAtt
  pre : Option (BitVec 24)
  sz : BitVec 3
  d : BitVec 6
  base : BitVec 6
  off : BitVec 9
deriving DecidableEq, Repr

/-- FENCE with its attribute prefix (R246). -/
structure FenceF where
  att : Option MemAtt
  off : Option (BitVec 24)
  kind : BitVec 8
deriving DecidableEq, Repr

/-- Format L (R69). -/
structure LdaF where
  att : Option MemAtt
  off : Option (BitVec 24)
  lsz : BitVec 2
  tag : BitVec 3
  sbase : BitVec 6
  sidx : BitVec 7
  gbase : BitVec 6
  gidx : Option (BitVec 7)
  vb : Opnd
deriving DecidableEq, Repr

/-- MMA: flags, tile and slots (R166). -/
structure MmaF where
  zc : Bool
  na : Bool
  nb : Bool
  t : BitVec 4
  a : BitVec 6
  w : BitVec 6
deriving DecidableEq, Repr

/-- A strand: its grid number (GRIDID), its block index (BLOCKID) and its strand index (R13, R25). -/
structure StrandRef where
  grid : Nat
  block : Nat
  idx : Nat
deriving DecidableEq, Repr

/-- A block: its grid number and its index (R15). -/
structure BlockRef where
  grid : Nat
  block : Nat
deriving DecidableEq, Repr

/-- An arena slot (R198). A thread slot names a core of the package, a strand slot, a lane and a bank. -/
inductive SlotId where
  | grid (n : Nat)
  | block (die n : Nat)
  | thread (core strand lane bank : Nat)
deriving DecidableEq, Repr

/-- What a resolved replayable fault belongs to (R8, R186, R230, R274, R343, R346): a waiting WAITVAL record is
named by its queue and order. -/
inductive ReplayTarget where
  | strand (r : StrandRef)
  | packet (n : Nat)
  | args (g : Nat)
  | restore (b : BlockRef)
  | record (n : Nat)
  | watch (queue order : Nat)
deriving DecidableEq, Repr

/-- Where a load is served: the home L2, the core's L1 (R238) or a holder's copy (R231). -/
inductive ServeFrom where
  | home
  | l1
  | holder
deriving DecidableEq, Repr

/-- How much of an operation or packet an event performs (R233, R294, R299, R309): all that is left; the reads,
or the writes, of the units of some lanes that lie at some places, each a lane and a place (a packet has the one
lane 0); or the acceptance of an atomic whose write comes later (R241). -/
inductive Units where
  | all
  | read (units : List (Nat × Nat))
  | write (units : List (Nat × Nat))
  | accept
deriving DecidableEq, Repr

/-- What of an operation or packet an event performs: its number, and how much of it. -/
structure PartOf where
  num : Nat
  units : Units
deriving DecidableEq, Repr

/-- Whose record orrery posts: under the tables of a key id, and whether it does so with `run`, which attaches
it, or with `post` (R118, R313). -/
structure PostAs where
  key : Nat
  run : Bool
deriving DecidableEq, Repr

/-- Where an engine finds its next packet: a comet queue of a world (key id, table index), or a COPY
record that the scheduler has handed to it (R271, R318). -/
inductive PacketSource where
  | ring (key queue : Nat)
  | handed (n : Nat)
deriving DecidableEq, Repr

/-- What the network reports for a reduction (R289): the contributions of the other members, in some grouping,
or a loss. -/
inductive NetResult where
  | combined (others : List (List Byte))
  | stale (dropped : Nat)
  | lost (flits : Nat)
deriving DecidableEq, Repr

/-- The parameters of a bound work queue (R315). -/
structure QueueBinding where
  vmid : BitVec 16
  band : BitVec 2
  weight : BitVec 8
  bound : BitVec 16
  mask : BitVec 384
  die : BitVec 2
  engine : BitVec 3
  header : DWord
  handle : BitVec 16
  port : Bool
deriving DecidableEq, Repr

/-- A link with key generations: a die-to-stack link (R360) or a Perigee port (R362). -/
inductive LinkRef where
  | stack (n : Nat)
  | perigee (n : Nat)
deriving DecidableEq, Repr

/-- The flit whose CRC failed (R374): a read of an operation, a written line, a packet's Perigee flit, or the
next read of a line that is made at once. -/
inductive FlitKind where
  | read (r : StrandRef) (n : Nat)
  | write (line : Nat)
  | packet (n : Nat)
  | fetch (line : Nat)
deriving DecidableEq, Repr

/-- An access of a host or of a peer (R311): under a world's translation, or to its own memory. -/
inductive OuterAccess where
  | read (key : Nat) (va : DWord) (len : Nat)
  | write (key : Nat) (va : DWord) (bytes : List Byte)
  | atomic (key : Nat) (va : DWord) (op : BitVec 4) (wide : Bool) (x c : DWord)
  | own (a : Nat) (bytes : List Byte)
deriving DecidableEq, Repr

/-- What training with a Perigee partner finds (R376). -/
structure Training where
  deskew : Bool
  long : Bool
  short : Bool
  identity : List Byte
  exchange : Bool
deriving DecidableEq, Repr

/-- One stage of bring-up (R377); stages 6 and 7 are COMMIT and the opening of the queues. -/
inductive BringUp where
  | firmware (ok : Bool) (digests : List (List Byte)) (versions : List Nat)
  | memory (failedStacks : List Nat)
  | fabric (failedDies : List Nat)
  | pcie (a b : Bool)
  | perigee
deriving DecidableEq, Repr

/-- What a section of a program is (R10, R312, R350, R351, R381). -/
inductive SectionKind where
  | code
  | data
  | sealed (tensor : BitVec 32)
  | host (b : Bool)
  | keyed (handle : BitVec 16)
deriving DecidableEq, Repr

/-- One section: its kind, its virtual address, the physical address of its first frame and its bytes. -/
structure Section where
  kind : SectionKind
  va : DWord
  pa : Nat
  bytes : List Byte
deriving DecidableEq, Repr

/-- A program for the loader: the handle whose world it is loaded for, its sections, the frames that
system software gives for new translation tables, the sealed table entry and the queue header it uses. -/
structure Loaded where
  handle : BitVec 16
  sections : List Section
  tables : List Nat
  entry : BitVec 8
  queue : DWord
  keys : List (BitVec 16)
deriving DecidableEq, Repr

/-- What orrery reads or writes (R189, R207). -/
inductive OrreryTarget where
  | memory (key : Nat) (va : DWord)
  | vreg (r : StrandRef) (n : BitVec 7)
  | sreg (r : StrandRef) (n : BitVec 6)
  | mreg (r : StrandRef) (n : BitVec 4)
  | kacc (r : StrandRef)
  | scratch (b : BlockRef) (off : Nat)
  | sbm (grid die off : Nat)
  | slot (b : BlockRef) (n : Nat)
  | tile (b : BlockRef) (n : Nat)
  | arena (id : SlotId)
  | keySlot (key n : Nat)
  | special (r : StrandRef) (x : BitVec 8)
  | descriptor (b : BlockRef) (n : Nat)
  | token (b : BlockRef)
deriving DecidableEq, Repr

/-- What power and thermal management does to a cluster's clock (R42). -/
inductive ClockMode where
  | running
  | slowed
  | gated
deriving DecidableEq, Repr

/-- Where a soft error strikes (R192, R374, R375). -/
inductive ErrorSite where
  | line (a : Nat)
  | l1 (core line : Nat)
  | scratch (b : BlockRef) (word : Nat)
  | sbm (grid die word : Nat)
  | slot (b : BlockRef) (n : Nat)
  | tile (b : BlockRef) (n : Nat)
  | vreg (r : StrandRef) (n : BitVec 7) (lane : BitVec 6) (bits : BitVec 32)
  | sreg (r : StrandRef) (n : BitVec 6)
  | mreg (r : StrandRef) (n : BitVec 4)
  | pcie (port : Bool)
deriving DecidableEq, Repr

/-- Every row of the opcode table: the instructions with an encoding, then the events. Each event's
parameters say which of the things it could concern it does concern. -/
inductive Instr where
  /-- NOP (0x00, R113). -/
  | nop
  /-- BRA (0x01, R113). -/
  | bra (off : BitVec 16)
  /-- BRS_Z (0x02, R113). -/
  | brsZ (c : BitVec 6) (off : BitVec 16)
  /-- BRS_NZ (0x03, R113). -/
  | brsNz (c : BitVec 6) (off : BitVec 16)
  /-- BRM_ANY (0x04, R114). -/
  | brmAny (m : BitVec 4) (off : BitVec 16)
  /-- BRM_ALL (0x05, R114). -/
  | brmAll (m : BitVec 4) (off : BitVec 16)
  /-- BRM_NONE (0x06, R114). -/
  | brmNone (m : BitVec 4) (off : BitVec 16)
  /-- JMPI (0x07, R113). -/
  | jmpi (p : BitVec 6)
  /-- CALL (0x08, R113). -/
  | call (c : BitVec 6) (off : BitVec 16)
  /-- RET (0x09, R113). -/
  | ret (p : BitVec 6)
  /-- EXIT (0x0A, R18). -/
  | exit
  /-- YIELD (0x0B, R116). -/
  | yield
  /-- SLEEP (0x0C, R117). -/
  | sleep (a : Opnd)
  /-- WAITV (0x0D, R249). -/
  | waitv (p : BitVec 6) (b : Opnd)
  /-- TRAP (0x0E, R127). -/
  | trap (x : BitVec 8)
  /-- TRET (0x0F, R128). -/
  | tret
  /-- BKPT (0x10, R118). -/
  | bkpt
  /-- ACQUIRE (0x11, R29). -/
  | acquire
  /-- BAR (0x12, R121). -/
  | bar
  /-- BARP_AND (0x13, R123). -/
  | barpAnd (d : BitVec 7) (a : Opnd)
  /-- BARP_OR (0x14, R123). -/
  | barpOr (d : BitVec 7) (a : Opnd)
  /-- BARP_ADD (0x15, R123). -/
  | barpAdd (d : BitVec 7) (a : Opnd)
  /-- BARP_MIN (0x16, R123). -/
  | barpMin (d : BitVec 7) (a : Opnd)
  /-- BARP_MAX (0x17, R123). -/
  | barpMax (d : BitVec 7) (a : Opnd)
  /-- WAITTAG (0x18, R267). -/
  | waittag (a : Opnd) (b : Opnd)
  /-- WAITP (0x19, R280). -/
  | waitp (a : Opnd)
  /-- BBWAIT (0x1A, R286). -/
  | bbwait (a : Opnd)
  /-- SADD (0x20, R129). -/
  | sadd (f : Alu2)
  /-- SADD_D (0x21, R129). -/
  | saddD (f : Alu2)
  /-- SSUB (0x22, R129). -/
  | ssub (f : Alu2)
  /-- SSUB_D (0x23, R129). -/
  | ssubD (f : Alu2)
  /-- SMUL (0x24, R129). -/
  | smul (f : Alu2)
  /-- SMUL_D (0x25, R129). -/
  | smulD (f : Alu2)
  /-- SMULH_S (0x26, R129). -/
  | smulhS (f : Alu2)
  /-- SMULH_UI (0x27, R129). -/
  | smulhUi (f : Alu2)
  /-- SAND (0x28, R129). -/
  | sand (f : Alu2)
  /-- SOR (0x29, R129). -/
  | sor (f : Alu2)
  /-- SXOR (0x2A, R129). -/
  | sxor (f : Alu2)
  /-- SSEL (0x2B, R129). -/
  | ssel (f : Alu2)
  /-- SSHL (0x2C, R130). -/
  | sshl (f : Alu2)
  /-- SSHR (0x2D, R130). -/
  | sshr (f : Alu2)
  /-- SSRA (0x2E, R130). -/
  | ssra (f : Alu2)
  /-- SSHL_D (0x2F, R130). -/
  | sshlD (f : Alu2)
  /-- SSHR_D (0x30, R130). -/
  | sshrD (f : Alu2)
  /-- SSRA_D (0x31, R130). -/
  | ssraD (f : Alu2)
  /-- SCMP_EQ (0x32, R131). -/
  | scmpEq (f : Alu2)
  /-- SCMP_NE (0x33, R131). -/
  | scmpNe (f : Alu2)
  /-- SCMP_LT (0x34, R131). -/
  | scmpLt (f : Alu2)
  /-- SCMP_LE (0x35, R131). -/
  | scmpLe (f : Alu2)
  /-- SCMP_LTU (0x36, R131). -/
  | scmpLtu (f : Alu2)
  /-- SCMP_LEU (0x37, R131). -/
  | scmpLeu (f : Alu2)
  /-- SCMP_EQ_D (0x38, R131). -/
  | scmpEqD (f : Alu2)
  /-- SCMP_NE_D (0x39, R131). -/
  | scmpNeD (f : Alu2)
  /-- SMOV (0x3A, R129). -/
  | smov (f : Alu1)
  /-- SMOV_D (0x3B, R129). -/
  | smovD (f : Alu1)
  /-- SMOVI (0x3C, R132). -/
  | smovi (f : AluImm)
  /-- SMOVI_HI (0x3D, R132). -/
  | smoviHi (f : AluImm)
  /-- SGET (0x3E, R133). -/
  | sget (f : AluSget)
  /-- SSET (0x3F, R134). -/
  | sset (f : AluX)
  /-- VADD (0x40, R135). -/
  | vadd (f : Alu2)
  /-- VADD_D (0x41, R135). -/
  | vaddD (f : Alu2)
  /-- VSUB (0x42, R135). -/
  | vsub (f : Alu2)
  /-- VSUB_D (0x43, R135). -/
  | vsubD (f : Alu2)
  /-- VMUL (0x44, R135). -/
  | vmul (f : Alu2)
  /-- VMULH_S (0x45, R135). -/
  | vmulhS (f : Alu2)
  /-- VMULH_UI (0x46, R135). -/
  | vmulhUi (f : Alu2)
  /-- VMAD (0x47, R135). -/
  | vmad (f : Alu2)
  /-- VDOT4_S8 (0x48, R137). -/
  | vdot4S8 (f : Alu2)
  /-- VDOT4_UI8 (0x49, R137). -/
  | vdot4Ui8 (f : Alu2)
  /-- VDOT4_MIX (0x4A, R137). -/
  | vdot4Mix (f : Alu2)
  /-- VAND (0x4B, R135). -/
  | vand (f : Alu2)
  /-- VOR (0x4C, R135). -/
  | vor (f : Alu2)
  /-- VXOR (0x4D, R135). -/
  | vxor (f : Alu2)
  /-- VSHL (0x4E, R135). -/
  | vshl (f : Alu2)
  /-- VSHR (0x4F, R135). -/
  | vshr (f : Alu2)
  /-- VSRA (0x50, R135). -/
  | vsra (f : Alu2)
  /-- VSHL_D (0x51, R135). -/
  | vshlD (f : Alu2)
  /-- VSHR_D (0x52, R135). -/
  | vshrD (f : Alu2)
  /-- VSRA_D (0x53, R135). -/
  | vsraD (f : Alu2)
  /-- VMIN_S (0x54, R135). -/
  | vminS (f : Alu2)
  /-- VMIN_UI (0x55, R135). -/
  | vminUi (f : Alu2)
  /-- VMAX_S (0x56, R135). -/
  | vmaxS (f : Alu2)
  /-- VMAX_UI (0x57, R135). -/
  | vmaxUi (f : Alu2)
  /-- VABS (0x58, R135). -/
  | vabs (f : Alu1)
  /-- VCMP_S32 (0x59, R138). -/
  | vcmpS32 (f : Alu2)
  /-- VCMP_UI32 (0x5A, R138). -/
  | vcmpUi32 (f : Alu2)
  /-- VCMP_S64 (0x5B, R138). -/
  | vcmpS64 (f : Alu2)
  /-- VCMP_UI64 (0x5C, R138). -/
  | vcmpUi64 (f : Alu2)
  /-- VSEL (0x5D, R135). -/
  | vsel (f : Alu2)
  /-- VBFE_S (0x5E, R139). -/
  | vbfeS (f : Alu2)
  /-- VBFE_UI (0x5F, R139). -/
  | vbfeUi (f : Alu2)
  /-- VPOPC (0x60, R135). -/
  | vpopc (f : Alu1)
  /-- VCLZ (0x61, R135). -/
  | vclz (f : Alu1)
  /-- VFADD (0x62, R140). -/
  | vfadd (f : Alu2)
  /-- VFSUB (0x63, R140). -/
  | vfsub (f : Alu2)
  /-- VFMUL (0x64, R140). -/
  | vfmul (f : Alu2)
  /-- VFMA (0x65, R140). -/
  | vfma (f : Alu2)
  /-- VHFMA_BF16 (0x66, R141). -/
  | vhfmaBf16 (f : Alu2)
  /-- VHFMA_F16 (0x67, R141). -/
  | vhfmaF16 (f : Alu2)
  /-- VFMIN (0x68, R140). -/
  | vfmin (f : Alu2)
  /-- VFMAX (0x69, R140). -/
  | vfmax (f : Alu2)
  /-- VFCMP (0x6A, R140). -/
  | vfcmp (f : Alu2)
  /-- VFRCP (0x6B, R140). -/
  | vfrcp (f : Alu1)
  /-- VFRSQ (0x6C, R140). -/
  | vfrsq (f : Alu1)
  /-- VEXP2 (0x6D, R140). -/
  | vexp2 (f : Alu1)
  /-- VLOG2 (0x6E, R140). -/
  | vlog2 (f : Alu1)
  /-- VFSIN (0x6F, R140). -/
  | vfsin (f : Alu1)
  /-- VFCOS (0x70, R140). -/
  | vfcos (f : Alu1)
  /-- VFCVT (0x71, R143). -/
  | vfcvt (f : AluX)
  /-- VSHUF_XOR (0x72, R144). -/
  | vshufXor (f : Alu2)
  /-- VSHUF_UP (0x73, R144). -/
  | vshufUp (f : Alu2)
  /-- VSHUF_DOWN (0x74, R144). -/
  | vshufDown (f : Alu2)
  /-- VSHUF_IDX (0x75, R144). -/
  | vshufIdx (f : Alu2)
  /-- VBCAST (0x76, R145). -/
  | vbcast (f : Alu2)
  /-- VRED (0x77, R148). -/
  | vred (f : AluX)
  /-- VSCAN_INCL (0x78, R149). -/
  | vscanIncl (f : AluX)
  /-- VSCAN_EXCL (0x79, R149). -/
  | vscanExcl (f : AluX)
  /-- VBAL (0x7A, R146). -/
  | vbal (f : Alu1)
  /-- VLID (0x7B, R146). -/
  | vlid (f : AluD)
  /-- MAND (0x7C, R150). -/
  | mand (f : Mask2)
  /-- MOR (0x7D, R150). -/
  | mor (f : Mask2)
  /-- MXOR (0x7E, R150). -/
  | mxor (f : Mask2)
  /-- MNOT (0x7F, R150). -/
  | mnot (f : Mask1)
  /-- MMOV (0x80, R150). -/
  | mmov (f : Mask1)
  /-- MCNT (0x81, R150). -/
  | mcnt (f : MaskS)
  /-- MSAVE (0x82, R150). -/
  | msave (f : MaskS)
  /-- MLOAD (0x83, R150). -/
  | mload (f : MaskL)
  /-- KCLR (0x84, R151). -/
  | kclr (f : AluD)
  /-- KADD_F32 (0x85, R103). -/
  | kaddF32 (f : Alu1)
  /-- KADD_F16 (0x86, R103). -/
  | kaddF16 (f : Alu1)
  /-- KADD_BF16 (0x87, R103). -/
  | kaddBf16 (f : Alu1)
  /-- KRND (0x88, R104). -/
  | krnd (f : AluD)
  /-- EXPR (0x89, R152). -/
  | expr (f : ExprF)
  /-- QMM (0x8A, R174). -/
  | qmm (f : Alu1)
  /-- QNT_I8 (0x8B, R175). -/
  | qntI8 (f : Alu2)
  /-- QNT_I4 (0x8C, R175). -/
  | qntI4 (f : Alu2)
  /-- QNT_T3 (0x8D, R176). -/
  | qntT3 (f : Alu2)
  /-- DQNT_I8 (0x8E, R177). -/
  | dqntI8 (f : Alu2)
  /-- DQNT_I4 (0x8F, R177). -/
  | dqntI4 (f : Alu2)
  /-- PK3 (0x90, R178). -/
  | pk3 (f : Alu2)
  /-- UPK3 (0x91, R179). -/
  | upk3 (f : Alu2)
  /-- PK4 (0x92, R180). -/
  | pk4 (f : Alu2)
  /-- UPK4 (0x93, R180). -/
  | upk4 (f : Alu2)
  /-- LD (0xA0, R237). -/
  | ld (f : MemV)
  /-- LD_U (0xA1, R237). -/
  | ldU (f : MemU)
  /-- ST (0xA2, R237). -/
  | st (f : MemV)
  /-- ST_U (0xA3, R237). -/
  | stU (f : MemU)
  /-- STX (0xA4, R237). -/
  | stx (f : MemV)
  /-- STX_U (0xA5, R237). -/
  | stxU (f : MemU)
  /-- ATOM (0xA6, R240). -/
  | atom (f : MemV)
  /-- ATOM_U (0xA7, R240). -/
  | atomU (f : MemU)
  /-- FENCE (0xA8, R246). -/
  | fence (f : FenceF)
  /-- PREF (0xA9, R247). -/
  | pref (f : MemV)
  /-- PREF_U (0xAA, R247). -/
  | prefU (f : MemU)
  /-- TAGLD (0xAB, R248). -/
  | tagld (f : MemV)
  /-- TAGLD_U (0xAC, R248). -/
  | tagldU (f : MemU)
  /-- TAGST (0xAD, R248). -/
  | tagst (f : MemV)
  /-- TAGST_U (0xAE, R248). -/
  | tagstU (f : MemU)
  /-- LDA (0xAF, R264). -/
  | lda (f : LdaF)
  /-- LDS (0xB0, R252). -/
  | lds (f : MemV)
  /-- LDS_U (0xB1, R252). -/
  | ldsU (f : MemU)
  /-- STS (0xB2, R253). -/
  | sts (f : MemV)
  /-- STS_U (0xB3, R253). -/
  | stsU (f : MemU)
  /-- ATOMS (0xB4, R253). -/
  | atoms (f : MemV)
  /-- ATOMS_U (0xB5, R253). -/
  | atomsU (f : MemU)
  /-- GLD (0xB6, R258). -/
  | gld (f : MemV)
  /-- GLD_U (0xB7, R258). -/
  | gldU (f : MemU)
  /-- GST (0xB8, R258). -/
  | gst (f : MemV)
  /-- GST_U (0xB9, R258). -/
  | gstU (f : MemU)
  /-- GOP (0xBA, R258). -/
  | gop (f : MemV)
  /-- GOP_U (0xBB, R258). -/
  | gopU (f : MemU)
  /-- CPOST (0xC0, R278). -/
  | cpost (d : BitVec 7) (a : Opnd)
  /-- CPOST_NB (0xC1, R278). -/
  | cpostNb (d : BitVec 7) (a : Opnd)
  /-- BBINIT (0xC2, R284). -/
  | bbinit (a : Opnd) (b : Opnd)
  /-- BBINV (0xC3, R285). -/
  | bbinv (a : Opnd)
  /-- PROMOTE (0xC4, R250). -/
  | promote (t : BitVec 2) (q : BitVec 5) (a : BitVec 6) (b : Opnd)
  /-- PROMOTE_A (0xC4, R250). -/
  | promoteA (t : BitVec 2) (q : BitVec 5) (b : Opnd)
  /-- ARENA (0xC5, R251). -/
  | arena (d : BitVec 7) (a : Opnd) (x : BitVec 8)
  /-- LAUNCH (0xC6, R341). -/
  | launch (d : BitVec 7) (a : Opnd)
  /-- TSIG (0xC7, R342). -/
  | tsig (p : BitVec 6) (b : Opnd)
  /-- OCLAIM (0xD0, R162). -/
  | oclaim (o : BitVec 6) (a : Opnd)
  /-- OREL (0xD1, R162). -/
  | orel (o : BitVec 6) (a : Opnd)
  /-- OLDA (0xD2, R163). -/
  | olda (o : BitVec 6) (a : Opnd) (x : BitVec 8)
  /-- OLDW (0xD3, R164). -/
  | oldw (o : BitVec 6) (p : BitVec 6) (x : BitVec 8)
  /-- MMA (0xD4, R166). -/
  | mma (f : MmaF)
  /-- ACLR (0xD5, R168). -/
  | aclr (t : BitVec 4)
  /-- ADRN (0xD6, R169). -/
  | adrn (t : BitVec 4) (a : Opnd)
  /-- MTOK (0xD7, R170). -/
  | mtok (a : Opnd)
  /-- MWAIT_TOK (0xD8, R171). -/
  | mwaitTok
  /-- MWAIT_ALL (0xD8, R171). -/
  | mwaitAll
  /-- CLAUSE_ISSUE (R38). -/
  | clauseIssue (r : StrandRef) (old : Bool)
  /-- REPLAY_RESOLVED (R230). -/
  | replayResolved (w : ReplayTarget) (ok : Bool)
  /-- ARENA_POOL_REFILL (R203). -/
  | arenaPoolRefill (key : Nat) (die : Nat) (big : Bool) (n : Nat)
  /-- GRID_RECORD (R319). -/
  | gridRecord (q : Nat)
  /-- NODE_RECORD (R324). -/
  | nodeRecord (q : Nat)
  /-- SIGNAL_RECORD (R318). -/
  | signalRecord (q : Nat)
  /-- WAITVAL_RECORD (R322). -/
  | waitvalRecord (q : Nat)
  /-- WAITVAL_SATISFIED (R322). -/
  | waitvalSatisfied (q : Nat)
  /-- COPY_RECORD (R318). -/
  | copyRecord (q : Nat)
  /-- READY_POOL_ENTRY (R324). -/
  | readyPoolEntry
  /-- BLOCK_DISPATCH (R326). -/
  | blockDispatch (g : Nat)
  /-- GRANT (R29). -/
  | grant (b : BlockRef)
  /-- BLOCK_RETIREMENT (R18). -/
  | blockRetirement (b : BlockRef)
  /-- GRID_RETIREMENT (R17). -/
  | gridRetirement (g : Nat)
  /-- ARENA_DESTRUCTION (R204). -/
  | arenaDestruction (id : SlotId)
  /-- SLICE_UNIT (R328). -/
  | sliceUnit
  /-- DRAIN_EXPIRY (R331). -/
  | drainExpiry (b : BlockRef)
  /-- BLOCK_SAVE (R333). -/
  | blockSave (b : BlockRef)
  /-- BLOCK_RESTORE (R334). -/
  | blockRestore (b : BlockRef)
  /-- MMA_START (R173). -/
  | mmaStart (b : BlockRef)
  /-- MMA_RETIRE (R173). -/
  | mmaRetire (b : BlockRef)
  /-- OLDA_COMPLETE (R163). -/
  | oldaComplete (b : BlockRef) (x : PartOf)
  /-- OLDW_COMPLETE (R165). -/
  | oldwComplete (b : BlockRef) (x : PartOf)
  /-- ADRN_COMPLETE (R173). -/
  | adrnComplete (b : BlockRef) (x : PartOf)
  /-- OREL_COMPLETE (R162). -/
  | orelComplete (b : BlockRef) (n : Nat)
  /-- LDA_COMPLETE (R260). -/
  | ldaComplete (r : StrandRef) (x : PartOf)
  /-- LOAD_COMPLETE (R37). -/
  | loadComplete (r : StrandRef) (x : PartOf) (src : ServeFrom)
  /-- STORE_COMPLETE (R37). -/
  | storeComplete (r : StrandRef) (x : PartOf)
  /-- SCRATCHPAD_ACCESS_PERFORMED (R254). -/
  | scratchpadAccessPerformed (r : StrandRef) (x : PartOf)
  /-- QNT_MERGE (R241). -/
  | qntMerge (n : Nat)
  /-- RDUP_COLLAPSE (R232). -/
  | rdupCollapse (r : StrandRef) (x : PartOf)
  /-- WAITV_WAKE (R249). -/
  | waitvWake (r : StrandRef)
  /-- SLEEP_EXPIRY (R117). -/
  | sleepExpiry (r : StrandRef)
  /-- WAITP_EXPIRY (R280). -/
  | waitpExpiry (r : StrandRef)
  /-- QUEUE_ROOM (R278). -/
  | queueRoom (r : StrandRef)
  /-- COPY1D (R274). -/
  | copy1d (p : PacketSource)
  /-- COPY2D (R274). -/
  | copy2d (p : PacketSource)
  /-- FILL (R274). -/
  | fill (p : PacketSource)
  /-- MCAST (R288). -/
  | mcast (p : PacketSource)
  /-- REDUCE (R289). -/
  | reduce (p : PacketSource)
  /-- SEALMOVE (R184). -/
  | sealmove (p : PacketSource)
  /-- INGEST (R290). -/
  | ingest (p : PacketSource)
  /-- SIGNAL (R274). -/
  | signal (p : PacketSource)
  /-- PACKET_COMPLETION (R276). -/
  | packetCompletion (x : PartOf) (early : Bool)
  /-- MCAST_ARRIVAL (R283). -/
  | mcastArrival (n : Nat) (target : Nat) (chunk : Nat)
  /-- REDUCE_COMPLETION (R289). -/
  | reduceCompletion (n : Nat) (net : NetResult)
  /-- TLBINV_COMPLETE (R227). -/
  | tlbinvComplete (port : Bool)
  /-- LEASE_EXPIRY (R369). -/
  | leaseExpiry
  /-- SCRUB_COMPLETE (R363). -/
  | scrubComplete (key : Nat)
  /-- NOTIFY_INTERRUPT (R372). -/
  | notifyInterrupt (port : Bool)
  /-- TLB_INVALIDATE (R227). -/
  | tlbInvalidate (port : Bool) (w : BitVec 64)
  /-- LEASE_RENEW (R369). -/
  | leaseRenew (port : Bool)
  /-- LEASE_RELEASE (R369). -/
  | leaseRelease (port : Bool)
  /-- LEASE_PERIOD (R368). -/
  | leasePeriod (port : Bool) (ms : BitVec 16)
  /-- SCRUBPROG_SELECT (R364). -/
  | scrubprogSelect (port : Bool) (key : BitVec 10)
  /-- AGGVEC_READ (R372). -/
  | aggvecRead (port : Bool) (k : BitVec 4)
  /-- FEATACC_WRITE (R373). -/
  | feataccWrite (port : Bool) (k : BitVec 3) (w : BitVec 32)
  /-- COMMIT (R373). -/
  | commit (port : Bool)
  /-- REGISTER_WRITE (R367). -/
  | registerWrite (port : Bool) (off : BitVec 16) (w : BitVec 64)
  /-- REGISTER (R355). -/
  | register (h : BitVec 16) (sealing : BitVec 256) (auth : Bool)
  /-- DEREGISTER (R355). -/
  | deregister (h : BitVec 16)
  /-- GIVE_MEMORY (R357). -/
  | giveMemory (h : BitVec 16) (vmid : BitVec 16) (save : Bool) (base : Nat) (len : Nat)
  /-- ROOTS (R357). -/
  | roots (h : BitVec 16) (stage2 : Bool) (root : Nat)
  /-- SEALED_ENTRY (R181). -/
  | sealedEntry (h : BitVec 16) (k : BitVec 8) (e : BitVec 128)
  /-- INGEST_KEY (R352). -/
  | ingestKey (h : BitVec 16) (k : BitVec 8) (long : Bool) (key : BitVec 256) (auth : Bool)
  /-- COMET_QUEUE (R268). -/
  | cometQueue (h : BitVec 16) (k : BitVec 8) (hdr : Option DWord)
  /-- BIND_QUEUE (R315). -/
  | bindQueue (q : Nat) (f : QueueBinding)
  /-- BIND_STREAM (R371). -/
  | bindStream (h : BitVec 16) (port : Bool) (k : BitVec 3)
  /-- ATTEST (R366). -/
  | attest (h : BitVec 16) (nonce : BitVec 256)
  /-- MAC_REREAD (R359). -/
  | macReread (line : Nat) (pass : Bool)
  /-- KEY_GENERATION (R360). -/
  | keyGeneration (l : LinkRef)
  /-- FLIT_RETRY (R374). -/
  | flitRetry (l : LinkRef) (f : FlitKind) (pass : Bool)
  /-- HOST_LINK_DOWN (R370). -/
  | hostLinkDown (port : Bool)
  /-- HOST_LINK_UP (R369). -/
  | hostLinkUp (port : Bool)
  /-- TDISP_STOP (R371). -/
  | tdispStop (port : Bool) (k : BitVec 3)
  /-- IDE_INTEGRITY_FAILURE (R371). -/
  | ideIntegrityFailure (port : Bool) (k : BitVec 3)
  /-- HOST_ACCESS (R184). -/
  | hostAccess (port : Bool) (x : OuterAccess)
  /-- PEER_ACCESS (R311). -/
  | peerAccess (port : BitVec 4) (x : OuterAccess)
  /-- PERIGEE_TRAINING (R376). -/
  | perigeeTraining (port : BitVec 4) (t : Training)
  /-- POWER_ON (R377). -/
  | powerOn (b : BringUp)
  /-- WARM_RESET (R365). -/
  | warmReset
  /-- PROGRAM_LOAD (R10). -/
  | programLoad (p : Loaded)
  /-- ORRERY_ATTACH (R118). -/
  | orreryAttach (key : Nat)
  /-- ORRERY_DETACH (R118). -/
  | orreryDetach (key : Nat)
  /-- ORRERY_READ (R189). -/
  | orreryRead (t : OrreryTarget) (len : Nat)
  /-- ORRERY_WRITE (R189). -/
  | orreryWrite (t : OrreryTarget) (bytes : List Byte)
  /-- ORRERY_POST (R313). -/
  | orreryPost (x : PostAs) (va : DWord)
  /-- ORRERY_SET_PLACE (R195). -/
  | orrerySetPlace (key : Nat) (core : Option Nat)
  /-- ORRERY_CONTINUE (R313). -/
  | orreryContinue (r : StrandRef)
  /-- POWER_LOSS (R365). -/
  | powerLoss
  /-- CLUSTER_CLOCK_GATING (R42). -/
  | clusterClockGating (cluster : Nat) (mode : ClockMode)
  /-- SOFT_ERROR (R374). -/
  | softError (t : ErrorSite) (fixable : Bool)
  /-- TDISP_LOCK_INTERFACE (R371). -/
  | tdispLockInterface (port : Bool) (k : BitVec 3)
  /-- TDISP_START_INTERFACE (R371). -/
  | tdispStartInterface (port : Bool) (k : BitVec 3)
deriving DecidableEq, Repr

/-- An instruction of the table by its format: the opcode and the field values. -/
inductive Form where
  | none (op : BitVec 8)
  | br (op c : BitVec 8) (off : BitVec 16)
  | ctl (op : BitVec 8) (d : BitVec 7) (a : Opnd) (b : Option Opnd)
  | n8 (op x : BitVec 8)
  | alu2 (op : BitVec 8) (f : Alu2)
  | alu1 (op : BitVec 8) (f : Alu1)
  | aluX (op : BitVec 8) (f : AluX)
  | aluD (op : BitVec 8) (f : AluD)
  | imm (op : BitVec 8) (f : AluImm)
  | sget (f : AluSget)
  | mask2 (op : BitVec 8) (f : Mask2)
  | mask1 (op : BitVec 8) (f : Mask1)
  | maskS (op : BitVec 8) (f : MaskS)
  | maskL (f : MaskL)
  | expr (f : ExprF)
  | memV (op : BitVec 8) (f : MemV)
  | memU (op : BitVec 8) (f : MemU)
  | fence (f : FenceF)
  | lda (f : LdaF)
  | promote (t : BitVec 2) (q : BitVec 5) (a : Option (BitVec 6)) (b : Opnd)
  | arena (d : BitVec 7) (a : Opnd) (x : BitVec 8)
  | slot (op : BitVec 8) (o : BitVec 6) (a : Opnd) (x : BitVec 8)
  | mma (f : MmaF)
  | aclr (t : BitVec 4)
  | adrn (t : BitVec 4) (a : Opnd)
deriving DecidableEq, Repr

/-- The shapes of instruction words; `ctlA`, `ctlAB` and `ctlDA` are Format A without prefix fields. -/
inductive Shape where
  | none | br | ctlA | ctlAB | ctlDA | n8 | alu2 | alu1 | aluX | aluD | imm | sget | mask2 | mask1
  | maskS | maskL | expr | memV | memU | fence | lda | promote | arena | slot | mma | aclr | adrn
deriving DecidableEq, Repr

/-- What D holds (R72): nothing checked, a scalar register, a scalar pair or group, a vector register, a
vector pair, a condition and a mask (without and with ord and uno). -/
inductive DKind where
  | none | s | p | v | vp | cm | cmf
deriving DecidableEq, Repr

/-- What an operand field admits (R72): `opw` is an operand in a 64-bit position, `sc` a scalar register,
`pair` an even scalar register, `pair0` an even scalar register or 0xD0. -/
inductive AKind where
  | none | op | opw | sc | pair | pair0
deriving DecidableEq, Repr

/-- One row of R72: class (0 alu, 1 memory, 2 matrix, 3 engine, 4 control), shape, the bits that must be
zero, the ALU prefix fields admitted (1 M, 2 Z, 4 R, 8 S, 16 F, 32 W, 64 C), the field kinds, and whether
the instruction is uniform. -/
structure Row where
  cls : Nat
  shape : Shape
  zero : Word
  pfx : Nat
  d : DKind
  a : AKind
  b : AKind
  uni : Bool
deriving DecidableEq, Repr

/-- What decoding depends on beside the words: the clause's class, the accepted features, the vector
allotment, and for each latch from l0 on whether it holds a uniform result. -/
structure DecCtx where
  cls : Nat
  feats : BitVec 256
  vlimit : Nat
  latches : List Bool
deriving DecidableEq, Repr

/-- The faults of decode (R55). -/
inductive DecFault where
  | illegalInstruction
  | illegalOperand
  | badClauseHeader
  | unnegotiatedFeature
deriving DecidableEq, Repr

end Sys2Proof
end

