-- ==== Sys2Proof/Machine/State.lean ====
section
/-! DEFINITION. The state: everything the manual gives the machine, as plain data, and the state after
reset. A strand, its block, its grid and its world stand in focus (st, blk, grd, wld); the others stand in
lists beside them (log entry 1). -/

namespace Sys2Proof.Machine

/-- The exact accumulator k: a two's-complement sum in units of 2^-149 and three flags (R102). -/
structure KAcc where
  sum : BitVec 320
  nan : Bool
  pinf : Bool
  ninf : Bool
deriving DecidableEq, Repr

/-- What a bypass latch holds (R47): a uniform result of 32 or 64 bits, or one value per lane as a 64-bit
position reads it. -/
inductive Latch where
  | uni (w : Word)
  | uni64 (w : DWord)
  | vec64 (x : List DWord)
deriving DecidableEq, Repr

/-- The open clause of a strand (R50, R53): its header's address, its class, its words from the next
instruction on, and the latches of its ALU instructions, the newest first (R47). -/
structure Clause where
  header : DWord
  cls : Nat
  words : List Word
  latches : List Latch
deriving DecidableEq, Repr

/-- What a fault record holds beside the identity of its strand (R347). -/
structure FaultInfo where
  code : Nat
  detail : Nat
  addr : DWord
  data : DWord
  extra : BitVec 32
  lanes : BitVec 64
deriving DecidableEq, Repr

/-- What a strand waits for at a wait point (R39), or for an earlier access of its own (R239, R246). -/
inductive Wait where
  | acquire
  | bar
  | barp (op : Nat) (x : Word) (d : Nat)
  | waitv (line : Option Nat) (wake : DWord)
  | tag
  | waitp (reg : Nat) (p : Word)
  | sleep (left : DWord)
  | bbwait
  | mwait (tok : Bool) (before : Nat)
  | queue
  | order
deriving DecidableEq, Repr

/-- Where a strand stands (R18, R39, R230, R313, R348). `parked` holds the replayable fault and the mask
of unfinished lanes. -/
inductive Status where
  | absent
  | ready
  | waiting (w : Wait)
  | parked (f : FaultInfo) (left : BitVec 64)
  | stopped
  | faulted
  | exited
deriving DecidableEq, Repr

/-- One unit of a lane's access after its checks (R294), within one page: where it stands in the lane's data,
its address, the physical address of each byte it reaches, what its page says (order kind, memory type,
RDUP, key id), the data it carries or has read, whether it has been performed, and whether what it read was poisoned.
`seen` names the loads that have taken a store's data before it was performed, and which of them were uniform (R238);
`shift` is the low bit of the stage-1 page numbers under which a plain address was translated (R227). -/
structure LaneAcc where
  lane : Nat
  off : Nat
  va : DWord
  pas : List Nat
  ord : Nat
  mtype : Nat
  rdup : Bool
  key : Nat
  data : List Byte
  cmp : DWord
  done : Bool
  bad : Bool
  seen : List (Nat × Bool)
  shift : Nat
deriving DecidableEq, Repr

/-- The kinds of outstanding operation (R37, R260, R279). -/
inductive OpWhat where
  | ld
  | st
  | atom
  | tagld
  | tagst
  | lds
  | sts
  | atoms
  | gld
  | gst
  | gop
  | lda
  | promote
  | tsig
deriving DecidableEq, Repr

/-- An operation that has issued and has not completed (R37). `collapsed` says that the holders of an RDUP line
have acknowledged (R232); of an LDA it says that every lane has passed its checks (R260), and `wrote` names the
bytes written so far by lane and offset. `serial` numbers the operations of a strand and `pc` is the
instruction's address. A release is performed after the operations and matrix loads named in `after` and
`afterM` (R239). -/
structure Op where
  serial : Nat
  pc : DWord
  after : List Nat
  afterM : List Nat
  what : OpWhat
  uni : Bool
  dst : Nat
  size : Nat
  sx : Bool
  ord : Nat
  scope : Nat
  aop : Nat
  use : Nat
  nr : Bool
  tag : Nat
  lanes : List LaneAcc
  collapsed : Bool
  wrote : List (Nat × Nat)
deriving DecidableEq, Repr

/-- A scalar pair that a CPOST owes its results (R279): register D, the packet's number, and whether the
promise and the status have arrived. -/
structure Owed where
  reg : Nat
  post : Nat
  accepted : Bool
  arrived : Bool
deriving DecidableEq, Repr

/-- A register-file word in error (R375): file 0 vector, 1 scalar, 2 mask, and the bits in error. -/
structure RfError where
  file : Nat
  reg : Nat
  lane : Nat
  bits : BitVec 32
deriving DecidableEq, Repr

/-- A strand (R13, R22, R25). Register files are lists; a register beyond a list's end reads zero. `yld` says
that the next clause takes the youngest age, `age` is the cycle at which the strand came to its next clause, and
`behind` names the clauses, by their strands and ages, that are older than one that has yielded (R38). `fetched`
holds the bytes that the instruction at hand has read so far, by their offsets, each with its poison (R250,
R278). -/
structure Strand where
  grid : Nat
  block : Nat
  idx : Nat
  slot : Nat
  present : BitVec 64
  pc : DWord
  v : List (List Word)
  s : List Word
  m : List (BitVec 64)
  k : KAcc
  clause : Option Clause
  trapvec : DWord
  trapret : DWord
  trapcause : Word
  trapmask : Bool
  cqsel : BitVec 8
  resumes : Word
  marks : BitVec 64
  owed : List Owed
  ops : List Op
  serial : Nat
  status : Status
  attempt : Option (BitVec 64)
  promo : Option (DWord × List Byte)
  yld : Bool
  age : Nat
  behind : List (StrandRef × Nat)
  bkpt : Bool
  rfErr : List RfError
  poisonTags : BitVec 8
  fetched : List (Nat × Byte × Bool)
deriving DecidableEq, Repr

/-- What the moon cores record of an operand slot (R158, R187), and its contents. Kind: 0 none, 1 act.i8,
2 act.i4, 3 weight, 4 pair-second. `state`: 0 unclaimed, 1 empty, 2 loading, 3 loaded. `poison` lists the
poisoned bytes (R192). -/
structure OSlot where
  state : Nat
  kind : Nat
  ks : Nat
  isSealed : Bool
  loadop : BitVec 8
  va : DWord
  tensor : BitVec 32
  bytes : List Byte
  poison : List Nat
  releasing : Bool
deriving DecidableEq, Repr

/-- An accumulator tile: 32 rows of 128 FP32 values, and the poisoned elements, 128·i + j (R192). -/
structure Tile where
  rows : List (List Word)
  poison : List Nat
deriving DecidableEq, Repr

/-- The kinds of matrix operation that a twin holds (R159). An MMA keeps the format and K of its activation
slot as they were at its issue (R166). -/
inductive MWhat where
  | mma (zc na nb : Bool) (t a w fmt ks : Nat)
  | olda (slot : Nat) (x : BitVec 8) (base : Nat)
  | oldw (slot : Nat) (x : BitVec 8) (va : DWord)
  | adrn (t : Nat) (base : Nat)
  | orel (slot : Nat)
deriving DecidableEq, Repr

/-- A matrix operation in block issue order (R159): who issued it and where, whether it has started, whether a
fault has cancelled it, whether its strand is parked at it, the cycle at which it may end (R173), the parts of
memory that an OLDW reads, and, of an MMA whose tile an ACLR has cleared since its issue, the tile as the MMA
may have read it. `got` holds what a load or a drain has read so far, by offset or element, with its poison, and
`put` the offsets that a drain has written (R294). -/
structure MOp where
  seq : Nat
  strand : Nat
  pc : DWord
  what : MWhat
  started : Bool
  ends : DWord
  dead : Bool
  parked : Bool
  parts : List LaneAcc
  under : Option Tile
  got : List (Nat × Word × Bool)
  put : List Nat
deriving DecidableEq, Repr

/-- A block (R13). -/
structure Block where
  live : Bool
  grid : Nat
  id : Nat
  core : Nat
  granted : Bool
  request : Option Nat
  seq : Nat
  nstrands : Nat
  strands : List Strand
  scratch : List (Nat × Byte)
  scratchPoison : List Nat
  armed : List Nat
  bbdrops : Word
  barena : DWord
  slots : List OSlot
  tiles : List Tile
  token : Option Nat
  handover : List Nat
  mops : List MOp
  mseq : Nat
  mmaEnd : DWord
  adrnEnd : DWord
  draining : Option Nat
  saving : Bool
  ranNs : Nat
deriving DecidableEq, Repr

/-- A block that stands in a save area: where the area lies and what was saved (R333, R336). -/
structure SavedBlock where
  block : Block
  area : Nat
  size : Nat
  place : Nat
  atClock : DWord
deriving DecidableEq, Repr

/-- Where a node's task control block stands: the key id of the world under whose tables its address is read
(0: the anonymous tables), the address, and the physical address of its first byte (R321). -/
structure NodeRef where
  key : Nat
  addr : DWord
  pa : Nat
deriving DecidableEq, Repr

/-- A grid (R13, R15, R17, R319). `told` names its units that have been told that they wait for a quarantined
slot (R206): the class of slot and the block; `debugged` says that orrery posted its record (R195). -/
structure Grid where
  live : Bool
  id : Nat
  key : Nat
  parent : Option Nat
  depth : Nat
  record : BitVec 512
  queue : Nat
  order : Nat
  started : Bool
  nextBlock : Nat
  flushed : List Nat
  saved : List SavedBlock
  retired : Nat
  sumNs : Nat
  args : Option (List Word)
  argsFault : Option FaultInfo
  garena : DWord
  poolCursor : Nat
  sbm : List (Nat × Byte)
  sbmPoison : List Nat
  code : List (Nat × Byte)
  ended : Option Nat
  node : Option NodeRef
  told : List (Nat × Nat)
  debugged : Bool
deriving DecidableEq, Repr

/-- An ingest key slot (R352). -/
structure KeySlot where
  loaded : Bool
  long : Bool
  accepted : Bool
  keyid : Nat
  last : DWord
  key : BitVec 256
deriving DecidableEq, Repr

/-- An entry of a world's comet queue table (R268, R269). -/
structure CometQueue where
  index : Nat
  header : DWord
  die : Nat
  engine : Nat
deriving DecidableEq, Repr

/-- A range of physical memory with a use. -/
structure Range where
  base : Nat
  len : Nat
deriving DecidableEq, Repr

/-- A page pool of a world on one die (R203). -/
structure Pool where
  die : Nat
  big : Bool
  pages : List Nat
deriving DecidableEq, Repr

/-- A key handle with its tables, and its launch world when one is live (R355, R356). `handle` 0 is an anonymous
world. `saveDrawn` holds every save area drawn since its dispatch, and `cores` the cores on which its strands
have run (R363). The keys are held and the ciphertext is not: DESIGN CHOICE, log entry 87. -/
structure World where
  key : Nat
  handle : BitVec 16
  vmid : BitVec 16
  live : Bool
  root : Nat
  epoch : Nat
  s1root : Nat
  s2root : Option Nat
  memKey : BitVec 256
  macKey : BitVec 256
  sealing : Option (BitVec 256)
  sealedTable : List (BitVec 128)
  comet : List CometQueue
  ingest : List KeySlot
  pools : List Pool
  given : List Range
  used : List Range
  save : List Range
  saveUsed : List Range
  saveDrawn : List Range
  stream : Option (Bool × Nat)
  attached : Bool
  cores : List Nat
deriving DecidableEq, Repr

/-- Who owns an arena (R211). -/
inductive Owner where
  | none
  | grid (g : Nat)
  | block (g b : Nat)
  | thread (g b strand lane : Nat)
deriving DecidableEq, Repr

/-- A slot record (R207). `pages` is the page map: page number and physical address; `dies` says from which die's
pool each page came. -/
structure SlotRec where
  id : SlotId
  gen : BitVec 10
  state : Nat
  cls : Nat
  world : Nat
  wrapEpoch : Nat
  cursor : Nat
  cap : Nat
  map : Nat
  pages : List (Nat × Nat)
  dies : List (Nat × Nat)
  owner : Owner
deriving DecidableEq, Repr

/-- A record that LAUNCH has posted and that has made no grid yet: its queue and slot number, the physical
address of its node's task control block once the node is registered, and the launching grid (R341). -/
structure Origin where
  queue : Nat
  index : Nat
  node : Option Nat
  parent : Nat
deriving DecidableEq, Repr

/-- A WAITVAL record that waits (R322), with the fault that its last read took. -/
structure Watch where
  queue : Nat
  order : Nat
  key : Nat
  addr : DWord
  value : Word
  cond : Nat
  fault : Option FaultInfo
  declined : Bool
deriving DecidableEq, Repr

/-- A work queue (R315, R328, R372). `order` numbers the records it has taken; `busy` holds the numbers of the
earlier records that have not retired and that order later ones (R323). `deficit` is in core-nanoseconds and
`raised` one more than the number of the slice unit in which it last rose (R328). `pending` counts the events
whose word is still to be written, and `sinceNs` is when the first of them occurred (R372). -/
structure Queue where
  index : Nat
  bind : QueueBinding
  deficit : Int
  raised : Nat
  order : Nat
  busyGrids : List Nat
  busyOthers : List Nat
  faults : BitVec 8
  refusals : BitVec 8
  retired : BitVec 16
  pending : Nat
  sinceNs : Nat
deriving DecidableEq, Repr

/-- Who posted a packet and so who receives its status (R276, R279, R325); a packet posted by the steps of R270
names the grid of the strand that validated it, if one did (R17). -/
inductive Poster where
  | strand (r : StrandRef) (post : Nat)
  | memory (grid : Option Nat)
  | record (q order : Nat)
  | node (n : NodeRef)
deriving DecidableEq, Repr

/-- One target of an MCAST: block index, sampled arm id, chunks still to arrive, and whether it refused
or lost a chunk (R288). -/
structure Target where
  n : Nat
  block : Nat
  armid : BitVec 16
  chunks : List Nat
  bad : Bool
deriving DecidableEq, Repr

/-- A byte that an engine carries: still to be read, under a key id at a place, or read, with its poison. -/
inductive EData where
  | at_ (key pa : Nat)
  | known (byte : Byte) (bad : Bool)
deriving DecidableEq, Repr

/-- A byte that an engine is to write: the key id of its page, its place, and what goes there. -/
structure EWrite where
  key : Nat
  pa : Nat
  data : EData
deriving DecidableEq, Repr

/-- A comet packet that an engine has started (R271). `begun` says that an MCAST, a REDUCE or an INGEST has
passed its checks and reads; `stalled` holds a replayable fault with the role of its address, `declined` that it
will not be resolved; `data` holds the bytes of a tile, a contribution or a ciphertext; `lost` counts flits;
`result` is the status word once it is decided, and `pending` the writes that are not performed yet; `early`
says that the status was delivered before them (R275), and `wrote` that the packet has written device memory
(R279). -/
structure Packet where
  num : Nat
  key : Nat
  queue : Option Nat
  image : BitVec 512
  poster : Poster
  hostPosted : Bool
  die : Nat
  grid : Nat
  begun : Bool
  targets : List Target
  refused : BitVec 16
  data : List EData
  stalled : Option (FaultInfo × Nat)
  declined : Bool
  lost : Nat
  result : Option Word
  pending : List EWrite
  early : Bool
  wrote : Bool
deriving DecidableEq, Repr

/-- A CPOST whose packet no engine has started: the ring slot it filled and the pair it owes (R278). -/
structure PostRef where
  num : Nat
  key : Nat
  queue : Nat
  index : Nat
  strand : StrandRef
  reg : Nat
deriving DecidableEq, Repr

/-- A COPY record handed to its engine (R318). -/
structure Handed where
  num : Nat
  key : Nat
  image : BitVec 512
  hostPosted : Bool
  poster : Poster
  die : Nat
  engine : Nat
deriving DecidableEq, Repr

/-- A line held in a core's L1 (R40, R238), the world that loaded it (R363), and the offsets of its poisoned
bytes (R374). -/
structure L1Line where
  core : Nat
  line : Nat
  bytes : List Byte
  world : Nat
  bad : List Nat
deriving DecidableEq, Repr

/-- A read-duplicated copy of a line in a die's L2 (R231). -/
structure DupLine where
  die : Nat
  line : Nat
  bytes : List Byte
deriving DecidableEq, Repr

/-- A unit of an atomic that the home L2 has accepted and not applied: of one declared qnt or nor (R241). It holds the
issuing strand with the instruction's address and core, and the clock of its acceptance. -/
structure QntAtom where
  num : Nat
  strand : StrandRef
  pc : DWord
  va : DWord
  pas : List Nat
  aop : Nat
  use : Nat
  scope : Nat
  size : Nat
  data : DWord
  cmp : DWord
  key : Nat
  core : Nat
  clock : DWord
deriving DecidableEq, Repr

/-- The TLBs (R220): the first level of a core, and the last level of a die, whose entries are for pages of one or two
sizes. -/
inductive TlbPlace where
  | core (n : Nat)
  | die (n : Nat)
deriving DecidableEq, Repr

/-- A cached translation (R220): the TLB that holds it, the world key id, the number of the page, the low bit of
page numbers of its size and of stage 1's page, the combined leaf entry, the page's physical address, and
whether stage 2 took part. -/
structure TlbEntry where
  place : TlbPlace
  key : Nat
  page : Nat
  shift : Nat
  shift1 : Nat
  leaf : BitVec 128
  pa : Nat
  staged : Bool
deriving DecidableEq, Repr

/-- A TDISP interface state (R371). -/
inductive Tdisp where
  | unlocked
  | locked
  | run
  | error
deriving DecidableEq, Repr

/-- A host port (R367). -/
structure Port where
  link : Bool
  role : Nat
  period : BitVec 16
  newPeriod : BitVec 16
  remain : BitVec 16
  scrubKey : BitVec 10
  tlbinv : DWord
  notifyBase : DWord
  moderate : DWord
  aggvec : List DWord
  featacc : BitVec 256
  refused : Bool
  adminBase : DWord
  adminSize : DWord
  adminWrite : DWord
  adminRead : DWord
  streams : List Tdisp
  unsignalled : Nat
  interrupts : Nat
  sinceNs : Nat
  lastRead : DWord
  dropped : Nat
deriving DecidableEq, Repr

/-- A Perigee port (R362, R376): its current key generation with its key and the one before, the packets that were
outstanding when it began, and the flits since. -/
structure Perigee where
  up : Bool
  keyed : Bool
  longFec : Bool
  identity : List Byte
  gen : Nat
  key : BitVec 256
  oldKey : BitVec 256
  outstanding : List Nat
  flits : Nat
deriving DecidableEq, Repr

/-- A die-to-stack link (R360, R361): the current generation with its key and the one before, the operations and
packets that were outstanding when it began (a strand and the operation's serial, or a packet's number), and the
flits since. -/
structure Link where
  gen : Nat
  key : BitVec 256
  oldKey : BitVec 256
  outstanding : List (StrandRef × Nat)
  packets : List Nat
  flits : Nat
deriving DecidableEq, Repr

/-- A pending range of the retained scrub journal with its progress pointer (R365). -/
structure ScrubRange where
  key : Nat
  base : Nat
  len : Nat
  done : Nat
deriving DecidableEq, Repr

/-- What the moon cores deliver to a world owner, the hypervisor or the hosts (R226, R345, R346, R357, R359, R377).
DESIGN CHOICE, log entry 81. -/
inductive Notice where
  | record (key : Nat) (r : BitVec 512)
  | unreachable (key : Nat) (r : BitVec 512)
  | security (key addr : Nat) (time : Nat) (signature : List Byte)
  | stage2 (key : Nat) (va : DWord) (level1 : Nat) (ia : Nat) (level2 : Nat) (access : Nat)
  | report (bytes : List Byte) (signature : List Byte)
  | refused (what : Nat)
  | notReady
deriving DecidableEq, Repr

/-- A write to a fault area that waits for a replayable fault (R346): the grid and world it is for, the area, and the
record or the rise of a count. `what`: 0 a record, 1 POISONED, 2 TRITREPL. -/
structure PendingRecord where
  num : Nat
  grid : Nat
  key : Nat
  area : DWord
  what : Nat
  rise : Nat
  record : BitVec 512
deriving DecidableEq, Repr

/-- A read that fails on its way: the next read that is made at once of a line of device memory, or of the memory of a
port's host, completes poisoned (R374). -/
inductive ReadFail where
  | line (n : Nat)
  | host (port : Bool)
deriving DecidableEq, Repr

/-- A program that has been loaded for anonymous worlds (R312, R356): the virtual ranges of its code, the places
of its leaf entries, its 64 KiB frames, the key id that they carry, and the live worlds that run it. -/
structure AnonProgram where
  code : List Range
  leaves : List Nat
  pages : List Nat
  key : Nat
  users : List Nat
deriving DecidableEq, Repr

/-- Memory that system software has given to anonymous worlds of a VMID (R356). -/
structure Reserve where
  vmid : BitVec 16
  given : List Range
  used : List Range
  save : List Range
  saveUsed : List Range
deriving DecidableEq, Repr

/-- The per-die counters of errors and retries (R374). -/
structure Counters where
  corrected : Nat
  uncorrected : Nat
  macRetries : Nat
  linkRetries : Nat
  rfIgnored : Nat
  dropped : Nat
  stale : Nat
  transient : Nat
deriving DecidableEq, Repr

/-- Counters at reset. -/
def Counters.zero : Counters := ⟨0, 0, 0, 0, 0, 0, 0, 0⟩

/-- The comet queue from which an engine of a die last started a packet (R271). -/
structure EngineTurn where
  die : Nat
  engine : Nat
  key : Nat
  queue : Nat
deriving DecidableEq, Repr

/-- The whole machine. `registered` holds the task control blocks that are posted, each with the queue that held
its NODE record; `kept` holds the cores whose room pre-emption has freed, each with the grid whose block it is
for (R331); `slice` counts the slice units that have begun (R329), `ms` the steps of the lease unit, `leaseMs`
the step in which a RENEW last took the lease and `lapseMs` the step in which it last ran out or lapsed (R369).
`ringWrites` names, for bytes that a strand has written where a ring slot's VALID byte may stand, the strand's
grid (R208); `posted` the records that orrery has posted with `run`, by queue and slot, and `placed` its place
settings, by key id (R118, R195); `passOn` the bands in which a scheduling pass serves its last queue (R328);
`anon` the programs loaded for anonymous worlds, newest first (R312, R356); `failing` the reads that are to
complete poisoned (R374). Poison is kept for each byte (DESIGN CHOICE, log entry 65). -/
structure State where
  st : Strand
  blk : Block
  grd : Grid
  wld : World
  blocks : List Block
  grids : List Grid
  worlds : List World
  reserves : List Reserve
  anonRoot : Nat
  anonRoot2 : Option Nat
  mem : List (Nat × Byte)
  poison : List Nat
  lineKeys : List (Nat × Nat)
  memTags : List ((Nat × Nat) × BitVec 4)
  l1 : List L1Line
  dups : List DupLine
  qnt : List QntAtom
  tlb : List TlbEntry
  inter : List (Nat × Nat)
  mixed : List Nat
  slots : List SlotRec
  queues : List Queue
  readyPool : List NodeRef
  readyWait : List NodeRef
  watches : List Watch
  origins : List Origin
  registered : List (Nat × Nat)
  kept : List (Nat × Nat)
  slice : Nat
  ms : Nat
  leaseMs : Option Nat
  lapseMs : Option Nat
  handed : List Handed
  packets : List Packet
  posts : List PostRef
  hostSlots : List Nat
  ringWrites : List (Nat × Nat)
  turns : List EngineTurn
  posted : List (Nat × Nat)
  placed : List (Nat × Nat)
  anon : List AnonProgram
  failing : List ReadFail
  clocks : List DWord
  gated : List Nat
  refNs : Nat
  portA : Port
  portB : Port
  leaseEpoch : BitVec 16
  accepted : BitVec 256
  locked : Bool
  peri : List Perigee
  links : List Link
  scrub : List ScrubRange
  scrubOn : Bool
  measured : List (BitVec 512)
  fused : List Nat
  versions : List Nat
  kem : List Byte
  stage : Nat
  offline : List Nat
  badStacks : List Nat
  halted : Bool
  counts : List Counters
  notices : List Notice
  pendingRecords : List PendingRecord
  recordCount : Nat
  orrery : List Byte
  rrLast : List Nat
  passOn : List Bool
  gridCount : Nat
  blockCount : Nat
  postCount : Nat
  packetCount : Nat
  epoch : Nat
  agenda : List Instr
  free : Nat
deriving DecidableEq, Repr

/-- Why the machine stops. -/
inductive Fault where
  /-- An access to a physical address at which no device memory exists: raised by translation's users
  (strand accesses, engines, the scheduler). Safe: the manual gives such an access no effect. -/
  | noSuchAddress (pa : Nat)
deriving DecidableEq, Repr

/-- Why the model has no next state. -/
inductive Refusal where
  /-- An instruction whose meaning is not written: raised by Dispatch alone. Safe: nothing is claimed. -/
  | notModelled (mnemonic : String)
deriving DecidableEq, Repr

/-- The number of 32-bit vector registers of a thread (R22). -/
def vregCount : Nat := 128

/-- A strand that is not there. DESIGN CHOICE, log entry 5. -/
def Strand.blank : Strand :=
  ⟨0, 0, 0, 0, 0#64, 0#64, [], [], [], ⟨0#320, false, false, false⟩, none, 0#64, 0#64, 0#32, false, 0#8, 0#32,
   0#64, [], [], 0, .absent, none, none, false, 0, [], false, [], 0#8, []⟩

/-- A block that is not there. -/
def Block.blank : Block :=
  ⟨false, 0, 0, 0, false, none, 0, 0, [], [], [], [], 0#32, 0#64, [], [], none, [], [], 0, 0#64, 0#64, none,
   false, 0⟩

/-- A grid that is not there. -/
def Grid.blank : Grid :=
  ⟨false, 0, 0, none, 0, 0#512, 0, 0, false, 0, [], [], 0, 0, none, none, 0#64, 0, [], [], [], none, none, [], false⟩

/-- A world that is not there. -/
def World.blank : World :=
  ⟨0, 0#16, 0#16, false, 0, 0, 0, none, 0#256, 0#256, none, [], [], [], [], [], [], [], [], [], none, false, []⟩

/-- A host port after reset (R367, R368): PERIOD is 1,000 and every other register reads zero. -/
def Port.reset : Port :=
  ⟨false, 0, 1000#16, 1000#16, 0#16, 0#10, 0#64, 0#64, 0#64, List.replicate 16 0#64, 0#256, false, 0#64,
   0#64, 0#64, 0#64, List.replicate 8 .unlocked, 0, 0, 0, 0#64, 0⟩

/-- A Perigee port after reset. -/
def Perigee.reset : Perigee := ⟨false, false, false, [], 0, 0#256, 0#256, [], 0⟩

/-- A die-to-stack link after reset, without keys. -/
def Link.reset : Link := ⟨0, 0#256, 0#256, [], [], 0⟩

/-- The machine right after reset, before bring-up (R377). DESIGN CHOICE, log entry 5. -/
def State.reset : State where
  st := .blank
  blk := .blank
  grd := .blank
  wld := .blank
  blocks := []
  grids := []
  worlds := []
  reserves := []
  anonRoot := 0
  anonRoot2 := none
  mem := []
  poison := []
  lineKeys := []
  memTags := []
  l1 := []
  dups := []
  qnt := []
  tlb := []
  inter := []
  mixed := []
  slots := []
  queues := []
  readyPool := []
  readyWait := []
  watches := []
  origins := []
  registered := []
  kept := []
  slice := 0
  ms := 0
  leaseMs := none
  lapseMs := none
  handed := []
  packets := []
  posts := []
  hostSlots := []
  ringWrites := []
  turns := []
  posted := []
  placed := []
  anon := []
  failing := []
  clocks := List.replicate 96 0#64
  gated := []
  refNs := 0
  portA := .reset
  portB := .reset
  leaseEpoch := 0#16
  accepted := 0#256
  locked := false
  peri := List.replicate 16 .reset
  links := List.replicate 12 .reset
  scrub := []
  scrubOn := false
  measured := List.replicate 12 0#512
  fused := List.replicate 12 0
  versions := List.replicate 12 0
  kem := []
  stage := 0
  offline := []
  badStacks := []
  halted := false
  counts := List.replicate 4 .zero
  notices := []
  pendingRecords := []
  recordCount := 0
  orrery := []
  rrLast := []
  passOn := []
  gridCount := 0
  blockCount := 0
  postCount := 0
  packetCount := 0
  epoch := 0
  agenda := []
  free := 0

end Sys2Proof.Machine
end

