-- ==== Sys2Proof/Machine/Mem.lean ====
section
/-! DEFINITION. Byte stores in canonical form, little-endian values (R4), and the small list operations
that register files and tables use. -/

namespace Sys2Proof.Machine

/-- A byte store: pairs of address and byte, addresses strictly rising, no byte zero. An address not listed
reads zero. -/
abbrev Memory := List (Nat × Byte)

/-- The byte at an address. -/
def Memory.read : Memory → Nat → Byte
  | [], _ => 0#8
  | (k, b) :: t, a => if a = k then b else if a < k then 0#8 else Memory.read t a

/-- Writes one byte and keeps the canonical form. -/
def Memory.write : Memory → Nat → Byte → Memory
  | [], a, b => if b = 0#8 then [] else [(a, b)]
  | (k, c) :: t, a, b =>
    if a < k then (if b = 0#8 then (k, c) :: t else (a, b) :: (k, c) :: t)
    else if a = k then (if b = 0#8 then t else (k, b) :: t)
    else (k, c) :: Memory.write t a b

/-- Every listed address is above `lo`, addresses rise strictly, and no listed byte is zero. -/
def Memory.above : Memory → Nat → Bool
  | [], _ => true
  | (k, b) :: t, lo => decide (lo ≤ k) && decide (b ≠ 0#8) && Memory.above t (k + 1)

/-- The canonical form. -/
def Memory.wf (m : Memory) : Bool := Memory.above m 0

/-- n bytes from an address on. -/
def Memory.readBytes (m : Memory) (a : Nat) : Nat → List Byte
  | 0 => []
  | n + 1 => Memory.read m a :: Memory.readBytes m (a + 1) n

/-- Writes bytes from an address on. -/
def Memory.writeBytes (m : Memory) (a : Nat) : List Byte → Memory
  | [] => m
  | b :: t => Memory.writeBytes (Memory.write m a b) (a + 1) t

/-- Writes each byte at the address beside it. -/
def Memory.writeAt (m : Memory) : List (Nat × Byte) → Memory
  | [] => m
  | (a, b) :: t => Memory.writeAt (Memory.write m a b) t

/-- Zeroes n bytes from an address on. -/
def Memory.clear : Memory → Nat → Nat → Memory
  | [], _, _ => []
  | (k, b) :: t, a, n => if a ≤ k ∧ k < a + n then Memory.clear t a n else (k, b) :: Memory.clear t a n

/-- The unsigned value of bytes, the lowest address least significant (R4). -/
def leNat : List Byte → Nat
  | [] => 0
  | b :: t => b.toNat + 256 * leNat t

/-- The n bytes of a value, the least significant first (R4). -/
def leBytes : Nat → Nat → List Byte
  | 0, _ => []
  | n + 1, x => BitVec.ofNat 8 x :: leBytes n (x / 256)

/-- The n bytes of a value, the most significant first. -/
def beBytes (n x : Nat) : List Byte := (leBytes n x).reverse

/-- The entry at an index, or a default past the end. -/
def nth {α : Type} (d : α) : List α → Nat → α
  | [], _ => d
  | x :: _, 0 => x
  | _ :: t, n + 1 => nth d t n

/-- Sets the entry at an index; a list too short is filled up with the default. -/
def put {α : Type} (d : α) : List α → Nat → α → List α
  | [], 0, x => [x]
  | [], n + 1, x => d :: put d [] n x
  | _ :: t, 0, x => x :: t
  | y :: t, n + 1, x => y :: put d t n x

/-- Replaces the entries that satisfy p by f of them. -/
def update {α : Type} (p : α → Bool) (f : α → α) (l : List α) : List α := l.map fun x => if p x then f x else x

/-- Takes an element without repeats. -/
def insertNew {α : Type} [DecidableEq α] (x : α) (l : List α) : List α := if x ∈ l then l else x :: l

/-- The numbers 0 to 63: the lanes of a strand on Rillar (R1). -/
def laneIds : List Nat := List.range Config.gwidth

/-- A sum over a list. -/
def sumBy {α : Type} (f : α → Nat) (l : List α) : Nat := l.foldl (fun a x => a + f x) 0

/-- The first number from `k` up, of at most `n` tried, that satisfies p. -/
def firstFrom (p : Nat → Bool) : Nat → Nat → Option Nat
  | _, 0 => none
  | k, n + 1 => if p k then some k else firstFrom p (k + 1) n

/-- Writes the field [hi:lo] given by its low bit and width into a bit vector. -/
def setField {w : Nat} (x : BitVec w) (lo n : Nat) (v : Nat) : BitVec w :=
  (x &&& ~~~(BitVec.ofNat w (2 ^ n - 1) <<< lo)) ||| (BitVec.ofNat w (v % 2 ^ n) <<< lo)

/-- Reads the field of n bits from bit lo as a number. -/
def field {w : Nat} (x : BitVec w) (lo n : Nat) : Nat := x.toNat / 2 ^ lo % 2 ^ n

/-- The ceiling of a / b. -/
def ceilDiv (a b : Nat) : Nat := (a + b - 1) / b

/-- a rounded up to a multiple of b. -/
def roundUp (a b : Nat) : Nat := ceilDiv a b * b

end Sys2Proof.Machine
end

