-- ==== Sys2Proof/Machine/Crypto.lean ====
section
/-! DEFINITION. AES (FIPS 197) with keys of 128 and 256 bits, its counter mode as sealed bytes use it (R182),
AES-GCM as INGEST verifies it (R290), and SHAKE256 (FIPS 202) as measurements and signatures use it (R366). -/

namespace Sys2Proof.Machine

/-- The substitution table of AES. -/
def sbox : List Byte :=
  [0x63#8, 0x7c#8, 0x77#8, 0x7b#8, 0xf2#8, 0x6b#8, 0x6f#8, 0xc5#8, 0x30#8, 0x01#8, 0x67#8, 0x2b#8, 0xfe#8, 0xd7#8, 0xab#8, 0x76#8] ++
  [0xca#8, 0x82#8, 0xc9#8, 0x7d#8, 0xfa#8, 0x59#8, 0x47#8, 0xf0#8, 0xad#8, 0xd4#8, 0xa2#8, 0xaf#8, 0x9c#8, 0xa4#8, 0x72#8, 0xc0#8] ++
  [0xb7#8, 0xfd#8, 0x93#8, 0x26#8, 0x36#8, 0x3f#8, 0xf7#8, 0xcc#8, 0x34#8, 0xa5#8, 0xe5#8, 0xf1#8, 0x71#8, 0xd8#8, 0x31#8, 0x15#8] ++
  [0x04#8, 0xc7#8, 0x23#8, 0xc3#8, 0x18#8, 0x96#8, 0x05#8, 0x9a#8, 0x07#8, 0x12#8, 0x80#8, 0xe2#8, 0xeb#8, 0x27#8, 0xb2#8, 0x75#8] ++
  [0x09#8, 0x83#8, 0x2c#8, 0x1a#8, 0x1b#8, 0x6e#8, 0x5a#8, 0xa0#8, 0x52#8, 0x3b#8, 0xd6#8, 0xb3#8, 0x29#8, 0xe3#8, 0x2f#8, 0x84#8] ++
  [0x53#8, 0xd1#8, 0x00#8, 0xed#8, 0x20#8, 0xfc#8, 0xb1#8, 0x5b#8, 0x6a#8, 0xcb#8, 0xbe#8, 0x39#8, 0x4a#8, 0x4c#8, 0x58#8, 0xcf#8] ++
  [0xd0#8, 0xef#8, 0xaa#8, 0xfb#8, 0x43#8, 0x4d#8, 0x33#8, 0x85#8, 0x45#8, 0xf9#8, 0x02#8, 0x7f#8, 0x50#8, 0x3c#8, 0x9f#8, 0xa8#8] ++
  [0x51#8, 0xa3#8, 0x40#8, 0x8f#8, 0x92#8, 0x9d#8, 0x38#8, 0xf5#8, 0xbc#8, 0xb6#8, 0xda#8, 0x21#8, 0x10#8, 0xff#8, 0xf3#8, 0xd2#8] ++
  [0xcd#8, 0x0c#8, 0x13#8, 0xec#8, 0x5f#8, 0x97#8, 0x44#8, 0x17#8, 0xc4#8, 0xa7#8, 0x7e#8, 0x3d#8, 0x64#8, 0x5d#8, 0x19#8, 0x73#8] ++
  [0x60#8, 0x81#8, 0x4f#8, 0xdc#8, 0x22#8, 0x2a#8, 0x90#8, 0x88#8, 0x46#8, 0xee#8, 0xb8#8, 0x14#8, 0xde#8, 0x5e#8, 0x0b#8, 0xdb#8] ++
  [0xe0#8, 0x32#8, 0x3a#8, 0x0a#8, 0x49#8, 0x06#8, 0x24#8, 0x5c#8, 0xc2#8, 0xd3#8, 0xac#8, 0x62#8, 0x91#8, 0x95#8, 0xe4#8, 0x79#8] ++
  [0xe7#8, 0xc8#8, 0x37#8, 0x6d#8, 0x8d#8, 0xd5#8, 0x4e#8, 0xa9#8, 0x6c#8, 0x56#8, 0xf4#8, 0xea#8, 0x65#8, 0x7a#8, 0xae#8, 0x08#8] ++
  [0xba#8, 0x78#8, 0x25#8, 0x2e#8, 0x1c#8, 0xa6#8, 0xb4#8, 0xc6#8, 0xe8#8, 0xdd#8, 0x74#8, 0x1f#8, 0x4b#8, 0xbd#8, 0x8b#8, 0x8a#8] ++
  [0x70#8, 0x3e#8, 0xb5#8, 0x66#8, 0x48#8, 0x03#8, 0xf6#8, 0x0e#8, 0x61#8, 0x35#8, 0x57#8, 0xb9#8, 0x86#8, 0xc1#8, 0x1d#8, 0x9e#8] ++
  [0xe1#8, 0xf8#8, 0x98#8, 0x11#8, 0x69#8, 0xd9#8, 0x8e#8, 0x94#8, 0x9b#8, 0x1e#8, 0x87#8, 0xe9#8, 0xce#8, 0x55#8, 0x28#8, 0xdf#8] ++
  [0x8c#8, 0xa1#8, 0x89#8, 0x0d#8, 0xbf#8, 0xe6#8, 0x42#8, 0x68#8, 0x41#8, 0x99#8, 0x2d#8, 0x0f#8, 0xb0#8, 0x54#8, 0xbb#8, 0x16#8]

/-- A byte substituted. -/
def subByte (b : Byte) : Byte := nth 0 sbox b.toNat

/-- Multiplication by x in the field of AES. -/
def xtime (b : Byte) : Byte := if b.msb then (b <<< 1) ^^^ 0x1b#8 else b <<< 1

/-- Bytewise exclusive or. -/
def xorBytes (a b : List Byte) : List Byte := a.zipWith (· ^^^ ·) b

/-- The words of the key schedule, the newest first: `nk` words of key, `n` words still to make, `i` the number
of the next word, `rc` the round constant. -/
def expandKey (nk : Nat) : Nat → Nat → Byte → List (List Byte) → List (List Byte)
  | 0, _, _, ws => ws
  | n + 1, i, rc, ws =>
    let last := nth [] ws 0
    let back := nth [] ws (nk - 1)
    if i % nk = 0 then
      let t := (last.drop 1 ++ last.take 1).map subByte
      let w := xorBytes back (xorBytes t [rc, 0, 0, 0])
      expandKey nk n (i + 1) (xtime rc) (w :: ws)
    else
      let t := if nk > 6 ∧ i % nk = 4 then last.map subByte else last
      expandKey nk n (i + 1) rc (xorBytes back t :: ws)

/-- The bytes of a key cut into words of four. -/
def wordsOf : List Byte → List (List Byte)
  | a :: b :: c :: d :: t => [a, b, c, d] :: wordsOf t
  | _ => []

/-- The round keys, 16 bytes each, for a key of 16 or 32 bytes. -/
def roundKeys (key : List Byte) : List (List Byte) :=
  let nk := key.length / 4
  let ws := (expandKey nk (4 * (nk + 7) - nk) nk 1 (wordsOf key).reverse).reverse
  (List.range (nk + 7)).map fun r => ((ws.drop (4 * r)).take 4).flatten

/-- ShiftRows on 16 bytes in column order. -/
def shiftRows (l : List Byte) : List Byte :=
  (List.range 16).map fun i => nth 0 l ((i + 4 * (i % 4)) % 16)

/-- MixColumns on one column. -/
def mixColumn : List Byte → List Byte
  | [a, b, c, d] =>
    let t := a ^^^ b ^^^ c ^^^ d
    [a ^^^ t ^^^ xtime (a ^^^ b), b ^^^ t ^^^ xtime (b ^^^ c), c ^^^ t ^^^ xtime (c ^^^ d), d ^^^ t ^^^ xtime (d ^^^ a)]
  | l => l

/-- MixColumns. -/
def mixColumns (l : List Byte) : List Byte := (wordsOf l).flatMap mixColumn

/-- The rounds after the first key addition; the last one mixes no columns. -/
def aesRounds : List (List Byte) → List Byte → List Byte
  | [], l => l
  | [k], l => xorBytes (shiftRows (l.map subByte)) k
  | k :: ks, l => aesRounds ks (xorBytes (mixColumns (shiftRows (l.map subByte))) k)

/-- AES of one block under round keys. -/
def aesWith (ks : List (List Byte)) (block : List Byte) : List Byte :=
  match ks with
  | [] => block
  | k :: ks => aesRounds ks (xorBytes block k)

/-- AES of one block under a key. -/
def aes (key block : List Byte) : List Byte := aesWith (roundKeys key) block

/-- The counter block of a sealed tensor's 16-byte block (R182). -/
def sealedCounter (tensor : BitVec 32) (block : Nat) : List Byte := beBytes 4 tensor.toNat ++ beBytes 12 block

/-- The keystream byte of a sealed tensor at an offset. -/
def sealedStream (ks : List (List Byte)) (tensor : BitVec 32) (off : Nat) : Byte :=
  nth 0 (aesWith ks (sealedCounter tensor (off / 16))) (off % 16)

/-- Decrypts bytes of a sealed tensor that stand at consecutive offsets, block by block. -/
def openSealed (key : List Byte) (tensor : BitVec 32) (off : Nat) (l : List Byte) : List Byte :=
  let ks := roundKeys key
  let first := off / 16
  let blocks := (List.range ((off + l.length + 15) / 16 - first)).flatMap fun i =>
    aesWith ks (sealedCounter tensor (first + i))
  xorBytes l (blocks.drop (off % 16))

/-- The value of bytes, the first one most significant. -/
def beNat (l : List Byte) : Nat := leNat l.reverse

/-- Multiplication in the field of GCM, bit 0 of the field being the most significant bit. -/
def gcmMul (x y : BitVec 128) : BitVec 128 :=
  ((List.range 128).foldl (fun (zv : BitVec 128 × BitVec 128) i =>
    let z := if x.getLsbD (127 - i) then zv.1 ^^^ zv.2 else zv.1
    let v := if zv.2.getLsbD 0 then (zv.2 >>> 1) ^^^ (0xE1#128 <<< 120) else zv.2 >>> 1
    (z, v)) (0, y)).1

/-- The blocks of 16 bytes of a string, the last one filled up with zeros. -/
def gcmBlocks (l : List Byte) : List (BitVec 128) :=
  (List.range ((l.length + 15) / 16)).map fun i =>
    let b := (l.drop (16 * i)).take 16
    BitVec.ofNat 128 (beNat (b ++ List.replicate (16 - b.length) 0))

/-- GHASH of additional data and ciphertext. -/
def ghash (h : BitVec 128) (aad cipher : List Byte) : BitVec 128 :=
  (gcmBlocks aad ++ gcmBlocks cipher ++ [BitVec.ofNat 128 (8 * aad.length * 2 ^ 64 + 8 * cipher.length)]).foldl
    (fun y b => gcmMul (y ^^^ b) h) 0

/-- AES-GCM with a nonce of 12 bytes: the plaintext and the tag of a ciphertext. -/
def gcmOpen (key nonce aad cipher : List Byte) : List Byte × List Byte :=
  let ks := roundKeys key
  let h := BitVec.ofNat 128 (beNat (aesWith ks (List.replicate 16 0)))
  let stream := (List.range ((cipher.length + 15) / 16)).flatMap fun i => aesWith ks (nonce ++ beBytes 4 (i + 2))
  let s := beBytes 16 (ghash h aad cipher).toNat
  (xorBytes cipher stream, xorBytes s (aesWith ks (nonce ++ beBytes 4 1)))

/-- The round constants of Keccak-f[1600]. -/
def keccakConstants : List DWord :=
  [0x1, 0x8082, 0x800000000000808a, 0x8000000080008000, 0x808b, 0x80000001] ++
  [0x8000000080008081, 0x8000000000008009, 0x8a, 0x88, 0x80008009, 0x8000000a] ++
  [0x8000808b, 0x800000000000008b, 0x8000000000008089, 0x8000000000008003, 0x8000000000008002, 0x8000000000000080] ++
  [0x800a, 0x800000008000000a, 0x8000000080008081, 0x8000000000008080, 0x80000001, 0x8000000080008008]

/-- The rotations of the lanes of Keccak-f[1600], lane (x, y) at place x + 5 y. -/
def keccakRotations : List Nat :=
  [0, 1, 62, 28, 27, 36, 44, 6, 55, 20, 3, 10, 43, 25, 39] ++ [41, 45, 15, 21, 8, 18, 2, 61, 56, 14]

/-- One round of Keccak-f[1600] on its 25 lanes: the column parities, the rotations and the permutation of the lanes,
the row step and the round constant. -/
def keccakRound (a : List DWord) (rc : DWord) : List DWord :=
  let c := (List.range 5).map fun x => (List.range 5).foldl (fun t y => t ^^^ nth 0 a (x + 5 * y)) 0
  let d := (List.range 5).map fun x => nth 0 c ((x + 4) % 5) ^^^ (nth 0 c ((x + 1) % 5)).rotateLeft 1
  let e := (List.range 25).map fun i => (nth 0 a i ^^^ nth 0 d (i % 5)).rotateLeft (nth 0 keccakRotations i)
  let b := (List.range 25).map fun i => nth 0 e ((i % 5 + 3 * (i / 5)) % 5 + 5 * (i % 5))
  (List.range 25).map fun i =>
    let row := 5 * (i / 5)
    let v := nth 0 b i ^^^ (~~~ nth 0 b (row + (i + 1) % 5) &&& nth 0 b (row + (i + 2) % 5))
    if i = 0 then v ^^^ rc else v

/-- The permutation Keccak-f[1600]. -/
def keccak (a : List DWord) : List DWord := keccakConstants.foldl keccakRound a

/-- Takes `n` blocks of 136 bytes into the sponge. -/
def absorb : Nat → List Byte → List DWord → List DWord
  | 0, _, a => a
  | n + 1, l, a =>
    absorb n (l.drop 136) (keccak ((List.range 25).map fun i =>
      if i < 17 then nth 0 a i ^^^ BitVec.ofNat 64 (leNat ((l.drop (8 * i)).take 8)) else nth 0 a i))

/-- The 512-bit output of SHAKE256 (R366): the message, the four suffix bits and the first bit of the padding in one
byte, zeros, and the last bit of the padding. The first byte of the output stands in bits [7:0]. -/
def shake256 (l : List Byte) : BitVec 512 :=
  let n := l.length / 136 + 1
  let fill := 136 * n - l.length - 1
  let padded := if fill = 0 then l ++ [0x9F#8] else l ++ [0x1F#8] ++ List.replicate (fill - 1) 0 ++ [0x80#8]
  let a := absorb n padded (List.replicate 25 0)
  BitVec.ofNat 512 (leNat ((a.take 8).flatMap fun w => leBytes 8 w.toNat))

/-- The signature of bytes: Falcon-1024 over their SHAKE256 digest (R366). -/
def sign (l : List Byte) : List Byte := Config.signature (shake256 l)

end Sys2Proof.Machine
end

