-- ==== Sys2Proof/Machine/Flags.lean ====
section
/-! DEFINITION. Integer arithmetic: comparisons, saturation, shifts and bit fields (R83, R130, R131, R136 to
R139). -/

namespace Sys2Proof.Machine

/-- A condition of VCMP (R72, R138): 0 eq, 1 ne, 2 lt, 3 le, 4 gt, 5 ge. -/
def intCond {w : Nat} (c : Nat) (signed : Bool) (x y : BitVec w) : Bool :=
  let lt := fun (a b : BitVec w) => if signed then a.slt b else a.ult b
  if c = 0 then x = y
  else if c = 1 then x ≠ y
  else if c = 2 then lt x y
  else if c = 3 then !lt y x
  else if c = 4 then lt y x
  else !lt x y

/-- sat(x, fmt) for a signed format of w bits (R6, R83). -/
def satS (w : Nat) (x : Int) : BitVec w :=
  let hi : Int := 2 ^ (w - 1) - 1
  let lo : Int := -(2 ^ (w - 1))
  BitVec.ofInt w (if x < lo then lo else if x > hi then hi else x)

/-- sat(x, fmt) for an unsigned format of w bits. -/
def satU (w : Nat) (x : Int) : BitVec w :=
  BitVec.ofInt w (if x < 0 then 0 else if x > 2 ^ w - 1 then 2 ^ w - 1 else x)

/-- Left shift: a count at or above the width gives 0 (R130). -/
def shiftLeft {w : Nat} (x : BitVec w) (b : Word) : BitVec w := if b.toNat ≥ w then 0 else x <<< b.toNat

/-- Right shift with zero fill. -/
def shiftRight {w : Nat} (x : BitVec w) (b : Word) : BitVec w := if b.toNat ≥ w then 0 else x >>> b.toNat

/-- Right shift with sign fill: a count at or above the width gives 0 or all ones by the sign (R130). -/
def shiftArith {w : Nat} (x : BitVec w) (b : Word) : BitVec w :=
  if b.toNat ≥ w then (if x.msb then BitVec.allOnes w else 0) else x.sshiftRight b.toNat

/-- Bits [63:32] of the signed product. -/
def mulHighS (x y : Word) : Word := BitVec.ofInt 32 (x.toInt * y.toInt / 2 ^ 32)

/-- Bits [63:32] of the unsigned product. -/
def mulHighU (x y : Word) : Word := BitVec.ofNat 32 (x.toNat * y.toNat / 2 ^ 32)

/-- |x| modulo 2^32 (R135). -/
def absWord (x : Word) : Word := if x.msb then 0 - x else x

/-- The number of 1 bits. -/
def popCount {w : Nat} (x : BitVec w) : Nat := ((List.range w).filter (fun i => x.getLsbD i)).length

/-- The number of leading 0 bits. -/
def leadingZeros (x : Word) : Word :=
  match (List.range 32).find? (fun i => x.getLsbD (31 - i)) with
  | some i => BitVec.ofNat 32 i
  | none => 32

/-- Signed addition, saturating under SAT (R136). -/
def addSat {w : Nat} (sat : Bool) (x y : BitVec w) : BitVec w :=
  if sat then satS w (x.toInt + y.toInt) else x + y

/-- Signed subtraction, saturating under SAT. -/
def subSat {w : Nat} (sat : Bool) (x y : BitVec w) : BitVec w :=
  if sat then satS w (x.toInt - y.toInt) else x - y

/-- VMAD (R135, R136). -/
def madSat (sat : Bool) (x y z : Word) : Word :=
  if sat then satS 32 (x.toInt * y.toInt + z.toInt) else x * y + z

/-- Byte e of a word. -/
def byteOf (x : Word) (e : Nat) : Byte := (x >>> (8 * e)).setWidth 8

/-- VDOT4 (R137). `sa` and `sb` say that the bytes of A and B are signed; C and the format are unsigned for
two unsigned operands. -/
def dot4 (sa sb sat : Bool) (x y z : Word) : Word :=
  let v := fun (signed : Bool) (b : Byte) => if signed then b.toInt else (b.toNat : Int)
  let c : Int := if sa then z.toInt else (z.toNat : Int)
  let r := [0, 1, 2, 3].foldl (fun acc e => acc + v sa (byteOf x e) * v sb (byteOf y e)) c
  if sat then (if sa then satS 32 r else satU 32 r) else BitVec.ofInt 32 r

/-- The offset and width that VBFE takes (R139). -/
def bfeWidth (off w : Nat) : Nat := min (if w = 0 then 32 else w) (32 - off)

/-- VBFE (R139). -/
def bitField (signed : Bool) (a b c : Word) : Word :=
  let off := b.toNat % 32
  let w := bfeWidth off (c.toNat % 32)
  let f := a.toNat / 2 ^ off % 2 ^ w
  if signed ∧ f ≥ 2 ^ (w - 1) then BitVec.ofInt 32 ((f : Int) - 2 ^ w) else BitVec.ofNat 32 f

end Sys2Proof.Machine
end

