-- ==== Sys2Proof/Machine/Fp.lean ====
section
/-! DEFINITION. Floating point (R85 to R92): a value is unpacked to an exact sign, magnitude and exponent,
computed exactly, and rounded once. The bracketing functions compute the value toward zero; a free choice
takes it or the next one away from zero (R92). -/

namespace Sys2Proof.Machine

/-- A floating-point format (R85): exponent bits and fraction bits. -/
structure Fmt where
  ebits : Nat
  fbits : Nat
deriving DecidableEq, Repr

/-- FP32. -/
def fp32 : Fmt := ⟨8, 23⟩
/-- FP16. -/
def fp16 : Fmt := ⟨5, 10⟩
/-- BF16. -/
def bf16 : Fmt := ⟨8, 7⟩

/-- The bias of a format. -/
def Fmt.bias (f : Fmt) : Nat := 2 ^ (f.ebits - 1) - 1
/-- The exponent of the smallest subnormal's unit. -/
def Fmt.emin (f : Fmt) : Int := 1 - (f.bias : Int) - (f.fbits : Int)
/-- The sign bit's weight. -/
def Fmt.signBit (f : Fmt) : Nat := 2 ^ (f.ebits + f.fbits)
/-- The bits of +∞. -/
def Fmt.inf (f : Fmt) : Nat := (2 ^ f.ebits - 1) * 2 ^ f.fbits
/-- The bits of the largest finite value. -/
def Fmt.maxFinite (f : Fmt) : Nat := f.inf - 1
/-- The canonical NaN (R85). -/
def Fmt.nan (f : Fmt) : Nat := f.inf + 2 ^ (f.fbits - 1)
/-- Puts a sign on a magnitude. -/
def Fmt.signed (f : Fmt) (neg : Bool) (x : Nat) : Nat := if neg then f.signBit + x else x

/-- An exact value: NaN, an infinity, or (-1)^neg · m · 2^e, a zero keeping its sign. -/
inductive Val where
  | nan
  | inf (neg : Bool)
  | fin (neg : Bool) (m : Nat) (e : Int)
deriving DecidableEq, Repr

/-- Unpacks a bit pattern (R85). -/
def unpack (f : Fmt) (x : Nat) : Val :=
  let neg := x / f.signBit % 2 = 1
  let ex := x / 2 ^ f.fbits % 2 ^ f.ebits
  let fr := x % 2 ^ f.fbits
  if ex = 2 ^ f.ebits - 1 then (if fr = 0 then .inf neg else .nan)
  else if ex = 0 then .fin neg fr f.emin
  else .fin neg (2 ^ f.fbits + fr) (f.emin + (ex : Int) - 1)

/-- Replaces a subnormal by a zero of its sign under FTZ (R88). -/
def flushIn (f : Fmt) (ftz : Bool) : Val → Val
  | .fin neg m e => if ftz && decide (m < 2 ^ f.fbits) then .fin neg 0 e else .fin neg m e
  | v => v

/-- The rounding modes of RM (R62). -/
def rmRNE : Nat := 0
/-- Toward zero. -/
def rmRTZ : Nat := 1
/-- Toward +∞. -/
def rmRUP : Nat := 2
/-- Toward -∞. -/
def rmRDN : Nat := 3

/-- Does rounding raise the magnitude? `c` compares the discarded part with one half (-1 below, 0 equal, 1
above), `more` says that some discarded bit is not zero. -/
def roundsUp (rm : Nat) (neg odd : Bool) (c : Int) (more : Bool) : Bool :=
  if rm = 0 then decide (c > 0) || (decide (c = 0) && odd)
  else if rm = 1 then false
  else if rm = 2 then !neg && more
  else neg && more

/-- What overflow gives (R87, R91). -/
def overflow (f : Fmt) (rm : Nat) (sat neg : Bool) : Nat :=
  if sat then f.maxFinite
  else if rm = 0 then f.inf
  else if rm = 1 then f.maxFinite
  else if rm = 2 then (if neg then f.maxFinite else f.inf)
  else (if neg then f.inf else f.maxFinite)

/-- Rounds (-1)^neg · m · 2^e, or a value just above that magnitude when `sticky`, once to a format (R87),
and flushes a result below the smallest normal under FTZ (R88). -/
def roundTo (f : Fmt) (rm : Nat) (sat ftz neg : Bool) (m : Nat) (e : Int) (sticky : Bool) : Nat :=
  if m = 0 ∧ sticky = false then f.signed neg 0
  else
    let len : Int := if m = 0 then 0 else (Nat.log2 m : Int) + 1
    let q := max f.emin (e + len - (f.fbits + 1 : Nat))
    let up : Nat := (e - q).toNat
    let dn : Nat := (q - e).toNat
    let mant := m * 2 ^ up / 2 ^ dn
    let rest := m * 2 ^ up % 2 ^ dn
    let c : Int :=
      if dn = 0 then -1
      else if 2 * rest < 2 ^ dn then -1
      else if 2 * rest = 2 ^ dn then (if sticky then 1 else 0) else 1
    let mant := if roundsUp rm neg (mant % 2 = 1) c (rest ≠ 0 || sticky) then mant + 1 else mant
    let bits := (q - f.emin).toNat * 2 ^ f.fbits + mant
    let bits := if bits ≥ f.inf then overflow f rm sat neg else bits
    f.signed neg (if ftz && decide (bits < 2 ^ f.fbits) then 0 else bits)

/-- Packs an exact value. -/
def pack (f : Fmt) (rm : Nat) (sat ftz : Bool) : Val → Nat
  | .nan => f.nan
  | .inf neg => f.signed neg (if sat then f.maxFinite else f.inf)
  | .fin neg m e => roundTo f rm sat ftz neg m e false

/-- A signed magnitude at a lower exponent. -/
def alignTo (neg : Bool) (m : Nat) (e lo : Int) : Int :=
  let x : Int := (m * 2 ^ (e - lo).toNat : Nat)
  if neg then -x else x

/-- The exact sum (R90). -/
def addVal (rm : Nat) : Val → Val → Val
  | .nan, _ => .nan
  | _, .nan => .nan
  | .inf a, .inf b => if a = b then .inf a else .nan
  | .inf a, _ => .inf a
  | _, .inf b => .inf b
  | .fin a m e, .fin b n g =>
    let lo := min e g
    let x := alignTo a m e lo + alignTo b n g lo
    if x = 0 then (if m = 0 ∧ n = 0 ∧ a = b then .fin a 0 lo else .fin (rm = 3) 0 lo)
    else .fin (x < 0) x.natAbs lo

/-- The exact product (R90). -/
def mulVal : Val → Val → Val
  | .nan, _ => .nan
  | _, .nan => .nan
  | .inf a, .inf b => .inf (a != b)
  | .inf a, .fin b n _ => if n = 0 then .nan else .inf (a != b)
  | .fin a m _, .inf b => if m = 0 then .nan else .inf (a != b)
  | .fin a m e, .fin b n g => .fin (a != b) (m * n) (e + g)

/-- The negative of a value. -/
def negVal : Val → Val
  | .nan => .nan
  | .inf a => .inf (!a)
  | .fin a m e => .fin (!a) m e

/-- Compares two values that are not NaN: negative, zero or positive as the first is below, equal or above;
zeros are equal. -/
def cmpVal : Val → Val → Int
  | .inf a, .inf b => if a = b then 0 else if a then -1 else 1
  | .inf a, _ => if a then -1 else 1
  | _, .inf b => if b then 1 else -1
  | .fin a m e, .fin b n g =>
    let lo := min e g
    alignTo a m e lo - alignTo b n g lo
  | _, _ => 0

/-- The sign of a value. -/
def valNeg : Val → Bool
  | .nan => false
  | .inf a => a
  | .fin a _ _ => a

/-- Is x below y, with -0 below +0 (R90)? -/
def belowVal (x y : Val) : Bool :=
  if cmpVal x y < 0 then true else if cmpVal x y = 0 then valNeg x && !valNeg y else false

/-- The conditions of VFCMP (R90): 0 eq, 1 ne, 2 lt, 3 le, 4 gt, 5 ge, 6 ord, 7 uno. -/
def condVal (c : Nat) (x y : Val) : Bool :=
  let nan := x = .nan ∨ y = .nan
  let d := cmpVal x y
  if c = 0 then !nan && d = 0
  else if c = 1 then nan || d ≠ 0
  else if c = 2 then !nan && d < 0
  else if c = 3 then !nan && d ≤ 0
  else if c = 4 then !nan && d > 0
  else if c = 5 then !nan && d ≥ 0
  else if c = 6 then !nan
  else nan

/-- A binary operation on bit patterns. -/
def fpBin (f : Fmt) (rm : Nat) (ftz : Bool) (op : Val → Val → Val) (x y : Nat) : Nat :=
  pack f rm false ftz (op (flushIn f ftz (unpack f x)) (flushIn f ftz (unpack f y)))

/-- x + y. -/
def fpAdd (f : Fmt) (rm : Nat) (ftz : Bool) (x y : Nat) : Nat := fpBin f rm ftz (addVal rm) x y
/-- x - y. -/
def fpSub (f : Fmt) (rm : Nat) (ftz : Bool) (x y : Nat) : Nat := fpBin f rm ftz (fun a b => addVal rm a (negVal b)) x y
/-- x · y. -/
def fpMul (f : Fmt) (rm : Nat) (ftz : Bool) (x y : Nat) : Nat := fpBin f rm ftz mulVal x y
/-- x · y + z, rounded once. -/
def fpFma (f : Fmt) (rm : Nat) (ftz : Bool) (x y z : Nat) : Nat :=
  let g := fun a => flushIn f ftz (unpack f a)
  pack f rm false ftz (addVal rm (mulVal (g x) (g y)) (g z))

/-- The bit pattern of a value after the input flush; NaN becomes canonical. -/
def canon (f : Fmt) (ftz : Bool) (x : Nat) : Nat :=
  match flushIn f ftz (unpack f x) with
  | .nan => f.nan
  | .inf _ => x
  | .fin neg m _ => if m = 0 then f.signed neg 0 else x

/-- VFMIN and VFMAX (R90). -/
def fpMin (f : Fmt) (ftz : Bool) (x y : Nat) : Nat :=
  match unpack f x, unpack f y with
  | .nan, .nan => f.nan
  | .nan, _ => canon f ftz y
  | _, .nan => canon f ftz x
  | _, _ =>
    if belowVal (flushIn f ftz (unpack f y)) (flushIn f ftz (unpack f x)) then canon f ftz y else canon f ftz x

/-- VFMAX. -/
def fpMax (f : Fmt) (ftz : Bool) (x y : Nat) : Nat :=
  match unpack f x, unpack f y with
  | .nan, .nan => f.nan
  | .nan, _ => canon f ftz y
  | _, .nan => canon f ftz x
  | _, _ =>
    if belowVal (flushIn f ftz (unpack f x)) (flushIn f ftz (unpack f y)) then canon f ftz y else canon f ftz x

/-- VFCMP on bit patterns. -/
def fpCmp (c : Nat) (ftz : Bool) (x y : Nat) : Bool :=
  condVal c (flushIn fp32 ftz (unpack fp32 x)) (flushIn fp32 ftz (unpack fp32 y))

/-! ### Roots and reciprocals -/

/-- The integer square root, found from the bit of weight 2^n down. -/
def isqrtFrom (x : Nat) : Nat → Nat → Nat
  | 0, r => if (r + 1) * (r + 1) ≤ x then r + 1 else r
  | n + 1, r =>
    let r' := r + 2 ^ (n + 1)
    isqrtFrom x n (if r' * r' ≤ x then r' else r)

/-- The integer square root. -/
def isqrt (x : Nat) : Nat := isqrtFrom x (Nat.log2 x / 2 + 1) 0

/-- A quotient m / d · 2^e rounded once. -/
def roundQuot (f : Fmt) (rm : Nat) (sat ftz neg : Bool) (m d : Nat) (e : Int) : Nat :=
  if m = 0 then f.signed neg 0
  else
    let k := Nat.log2 d + 64
    roundTo f rm sat ftz neg (m * 2 ^ k / d) (e - (k : Int)) (m * 2 ^ k % d ≠ 0)

/-- VFRCP (R142). -/
def fpRcp (rm : Nat) (ftz : Bool) (x : Nat) : Nat :=
  match flushIn fp32 ftz (unpack fp32 x) with
  | .nan => fp32.nan
  | .inf neg => fp32.signed neg 0
  | .fin neg m e => if m = 0 then fp32.signed neg fp32.inf else roundQuot fp32 rm false ftz neg 1 m (-e)

/-- VFRSQ (R142). -/
def fpRsq (rm : Nat) (ftz : Bool) (x : Nat) : Nat :=
  match flushIn fp32 ftz (unpack fp32 x) with
  | .nan => fp32.nan
  | .inf neg => if neg then fp32.nan else 0
  | .fin neg m e =>
    if m = 0 then fp32.signed neg fp32.inf
    else if neg then fp32.nan
    else
      let m' := if e % 2 = 0 then m else 2 * m
      let e' := if e % 2 = 0 then e else e - 1
      let n := 2 ^ 160 / m'
      let r := isqrt n
      roundTo fp32 rm false ftz false r (-80 - e' / 2) (r * r * m' ≠ 2 ^ 160)

/-! ### Conversions (R91, R143) -/

/-- The integer nearest to (-1)^neg · m · 2^e by the mode. -/
def roundInt (rm : Nat) (neg : Bool) (m : Nat) (e : Int) : Int :=
  let n : Nat :=
    if e ≥ 0 then m * 2 ^ e.toNat
    else
      let d := (-e).toNat
      let q := m / 2 ^ d
      let r := m % 2 ^ d
      let c : Int := if 2 * r < 2 ^ d then -1 else if 2 * r = 2 ^ d then 0 else 1
      if roundsUp rm neg (q % 2 = 1) c (r ≠ 0) then q + 1 else q
  if neg then -(n : Int) else n

/-- clamp(x, lo, hi) (R6). -/
def clamp (x lo hi : Int) : Int := if x < lo then lo else if x > hi then hi else x

/-- FP32 to an integer of a range (R91). -/
def fpToInt (rm : Nat) (ftz : Bool) (lo hi : Int) (x : Nat) : Int :=
  match flushIn fp32 ftz (unpack fp32 x) with
  | .nan => 0
  | .inf neg => if neg then lo else hi
  | .fin neg m e => clamp (roundInt rm neg m e) lo hi

/-- An integer to a format (R91). -/
def intToFp (f : Fmt) (rm : Nat) (x : Int) : Nat := roundTo f rm false false (x < 0) x.natAbs 0 false

/-- One format to another (R91). -/
def fpConvert (src dst : Fmt) (rm : Nat) (sat ftz : Bool) (x : Nat) : Nat :=
  match flushIn src ftz (unpack src x) with
  | .inf neg => dst.signed neg dst.inf
  | v => pack dst rm sat ftz v

/-- FP32 to the FP32 integer value that the mode selects (R143). A nonzero input that rounds to zero gives the zero of
its sign: DESIGN CHOICE, log entry 88. -/
def fpRoundInt (rm : Nat) (ftz : Bool) (x : Nat) : Nat :=
  match flushIn fp32 ftz (unpack fp32 x) with
  | .nan => fp32.nan
  | .inf neg => fp32.signed neg fp32.inf
  | .fin neg m e => roundTo fp32 0 false false neg (roundInt rm neg m e).natAbs 0 false

/-- The conversion that an n8 of VFCVT selects (R143). -/
def fpCvt (code rm : Nat) (sat ftz : Bool) (a : BitVec 32) : BitVec 32 :=
  let x := a.toNat
  BitVec.ofNat 32 <|
    if code = 0 then intToFp fp32 rm a.toInt
    else if code = 1 then intToFp fp32 rm (x : Int)
    else if code = 2 then (BitVec.ofInt 32 (fpToInt rm ftz (-2147483648) 2147483647 x)).toNat
    else if code = 3 then (BitVec.ofInt 32 (fpToInt rm ftz 0 4294967295 x)).toNat
    else if code = 4 then fpConvert fp16 fp32 rm false ftz (x % 65536)
    else if code = 5 then fpConvert fp16 fp32 rm false ftz (x / 65536)
    else if code = 6 then fpConvert bf16 fp32 rm false ftz (x % 65536)
    else if code = 7 then fpConvert bf16 fp32 rm false ftz (x / 65536)
    else if code = 8 then fpConvert fp32 fp16 rm sat ftz x
    else if code = 9 then fpConvert fp32 bf16 rm sat ftz x
    else fpRoundInt rm ftz x

/-! ### Bracketing functions (R92, R142) -/

/-- Takes the value toward zero or the next one away from zero, then flushes under FTZ. -/
def bracket (ftz neg away : Bool) (bits : Nat) : Nat :=
  let b := if away then bits + 1 else bits
  fp32.signed neg (if ftz && decide (b < 2 ^ 23) then 0 else b)

/-- The magnitude of a positive value rounded toward zero. -/
def towardZero (m : Nat) (e : Int) : Nat := roundTo fp32 1 false false false m e true

/-- Fraction bits of the fixed-point arithmetic below. -/
def fixBits : Nat := 256

/-- The product over the set bits of f, of n bits, of 2^(2^-i): 2^(f / 2^n) in fixed point, `root` being
2^(2^-i) for the bit at hand. -/
def exp2Loop (f : Nat) : Nat → Nat → Nat → Nat
  | 0, _, acc => acc
  | n + 1, root, acc =>
    let root := isqrt (root * 2 ^ fixBits)
    exp2Loop f n root (if f / 2 ^ n % 2 = 1 then acc * root / 2 ^ fixBits else acc)

/-- VEXP2. The exact power of two for an integer; otherwise one of the two values that bracket it. -/
def fpExp2 (ftz : Bool) (x : Nat) : Nat :=
  let a := canon fp32 ftz x
  match unpack fp32 a with
  | .nan => fp32.nan
  | .inf neg => if neg then 0 else fp32.inf
  | .fin neg m e =>
    if m = 0 then 0x3F800000
    else
      let w := alignTo neg m e (min e 0)
      let d := (-(min e 0)).toNat
      let n := w / (2 ^ d : Nat)
      if n ≥ 128 then fp32.inf
      else if w ≤ -150 * (2 ^ d : Nat) then 0
      else
        let fr := (w - n * (2 ^ d : Nat)).toNat
        if fr = 0 then roundTo fp32 0 false ftz false 1 n false
        else
          let away := Config.exp2Away (BitVec.ofNat 32 a)
          if e + 24 < -30 then
            bracket ftz false away (if neg then 0x3F7FFFFF else 0x3F800000)
          else
            let y := exp2Loop fr d (2 * 2 ^ fixBits) (2 ^ fixBits)
            bracket ftz false away (towardZero y (n - (fixBits : Int)))

/-- Bits of log2 of a number in [1, 2) by repeated squaring. -/
def log2Loop : Nat → Nat → Nat → Nat
  | 0, _, acc => acc
  | n + 1, y, acc =>
    let z := y * y / 2 ^ fixBits
    if z ≥ 2 * 2 ^ fixBits then log2Loop n (z / 2) (2 * acc + 1) else log2Loop n z (2 * acc)

/-- VLOG2. -/
def fpLog2 (ftz : Bool) (x : Nat) : Nat :=
  let a := canon fp32 ftz x
  match unpack fp32 a with
  | .nan => fp32.nan
  | .inf neg => if neg then fp32.nan else fp32.inf
  | .fin neg m e =>
    if m = 0 then fp32.signed true fp32.inf
    else if neg then fp32.nan
    else
      let k := Nat.log2 m
      let n : Int := e + k
      if m = 2 ^ k then intToFp fp32 0 n
      else
        let away := Config.log2Away (BitVec.ofNat 32 a)
        let fr := log2Loop 112 (m * 2 ^ fixBits / 2 ^ k) 0
        let v := n * (2 ^ 112 : Nat) + fr
        if v ≥ 0 then bracket ftz false away (towardZero v.toNat (-112))
        else bracket ftz true away (towardZero ((-v).toNat - 1) (-112))

/-- 2/π in units of 2^-400, rounded down. -/
def twoOverPi : Nat := 0xa2f9836e4e441529fc2757d1f534ddc0db6295993c439041fe5163abdebbc561b7246e3a424dd2e006492eea09d1921cfe1d

/-- π/2 in units of 2^-320, rounded down. -/
def halfPi : Nat := 0x1921fb54442d18469898cc51701b839a252049c1114cf98e804177d4c76273644a29410f31c6809bb

/-- The Taylor terms of sine (from term 1) or cosine (from term 0) in units of 2^-320: x2 is the square of
the argument, t the term at hand and k its order. -/
def taylor (x2 : Nat) : Nat → Nat → Nat → Int → Bool → Int
  | 0, _, _, acc, _ => acc
  | n + 1, t, k, acc, neg =>
    let acc := if neg then acc - (t : Int) else acc + (t : Int)
    taylor x2 n (t * x2 / 2 ^ 320 / ((k + 1) * (k + 2))) (k + 2) acc (!neg)

/-- sin or cos of a positive m · 2^e, in units of 2^-320, with its sign: the argument is reduced by 2/π to a
quadrant and a fraction. -/
def sinCos (cosine : Bool) (m : Nat) (e : Int) : Bool × Nat :=
  let prod := m * twoOverPi
  let q := if e ≥ 0 then prod * 2 ^ e.toNat else prod / 2 ^ (-e).toNat
  let quad := (q / 2 ^ 400 + if cosine then 1 else 0) % 4
  let r := q % 2 ^ 400 * halfPi / 2 ^ 400
  let x2 := r * r / 2 ^ 320
  let v :=
    if quad % 2 = 0 then taylor x2 40 r 1 0 false
    else taylor x2 40 (2 ^ 320) 0 0 false
  (quad ≥ 2, v.toNat)

/-- VFSIN and VFCOS of a finite value that is not zero. -/
def fpSinCos (cosine ftz neg away : Bool) (a m : Nat) (e : Int) : Nat :=
  if e + (Nat.log2 m : Int) < -13 then
    if cosine then bracket ftz false away 0x3F7FFFFF
    else bracket ftz neg away (a % 2 ^ 31 - 1)
  else
    let r := sinCos cosine m e
    bracket ftz (r.1 != (neg && !cosine)) away (towardZero r.2 (-320))

/-- VFSIN. -/
def fpSin (ftz : Bool) (x : Nat) : Nat :=
  let a := canon fp32 ftz x
  match unpack fp32 a with
  | .nan => fp32.nan
  | .inf _ => fp32.nan
  | .fin neg m e =>
    if m = 0 then a else fpSinCos false ftz neg (Config.sinAway (BitVec.ofNat 32 a)) a m e

/-- VFCOS. -/
def fpCos (ftz : Bool) (x : Nat) : Nat :=
  let a := canon fp32 ftz x
  match unpack fp32 a with
  | .nan => fp32.nan
  | .inf _ => fp32.nan
  | .fin neg m e =>
    if m = 0 then 0x3F800000 else fpSinCos true ftz neg (Config.cosAway (BitVec.ofNat 32 a)) a m e

/-! ### The exact accumulator (R102 to R104) -/

/-- k cleared. -/
def KAcc.zero : KAcc := ⟨0, false, false, false⟩

/-- Adds one value to k (R103). -/
def KAcc.add (k : KAcc) : Val → KAcc
  | .nan => { k with nan := true }
  | .inf neg => if neg then { k with ninf := true } else { k with pinf := true }
  | .fin neg m e => { k with sum := k.sum + BitVec.ofInt 320 (alignTo neg m e (-149)) }

/-- Sets the sticky infinities that a sum out of range leaves (R103). -/
def KAcc.settle (k : KAcc) : KAcc :=
  if k.sum.toInt ≥ 2 ^ 309 then { k with pinf := true }
  else if k.sum.toInt < -(2 ^ 309) then { k with ninf := true }
  else k

/-- KRND (R104). -/
def KAcc.round (k : KAcc) (rm : Nat) : Nat :=
  if k.nan || (k.pinf && k.ninf) then fp32.nan
  else if k.pinf then fp32.inf
  else if k.ninf then fp32.signed true fp32.inf
  else if k.sum = 0 then 0
  else roundTo fp32 rm false false (k.sum.toInt < 0) k.sum.toInt.natAbs (-149) false

end Sys2Proof.Machine
end

