-- ==== Sys2Proof/Decode.lean ====
section
/-! DEFINITION. Decoding and encoding. Decoding is total on any words: it gives an instruction and the
words after it, or the fault that R54 names. The encoder writes the words of an instruction from the same
field maps (R56 to R70). -/

namespace Sys2Proof

/-- The operand code of a scalar register (R57). -/
def scalarCode (c : BitVec 6) : BitVec 8 := (0b10#2 ++ c : BitVec 8)

/-- Rows of R72, part 1. -/
def rows0 : List (List Nat × Row) := [
  ([0x00, 0x0A, 0x0B, 0x0F, 0x10, 0x11, 0x12], ⟨4, .none, 0x00FFFFFF, 0, .none, .none, .none, true⟩),
  ([0x01], ⟨4, .br, 0x00FF0000, 0, .none, .none, .none, true⟩),
  ([0x02, 0x03], ⟨4, .br, 0, 0, .none, .sc, .none, true⟩),
  ([0x04, 0x05, 0x06], ⟨4, .br, 0x00F00000, 0, .none, .none, .none, true⟩),
  ([0x08], ⟨4, .br, 0, 0, .none, .pair, .none, true⟩),
  ([0x07, 0x09], ⟨4, .ctlA, 0x00FF00FF, 0, .none, .pair, .none, true⟩),
  ([0x0C, 0x1A], ⟨4, .ctlA, 0x00FF00FF, 0, .none, .op, .none, true⟩),
  ([0x0D], ⟨4, .ctlAB, 0x00FF0000, 0, .none, .pair, .op, true⟩),
  ([0x0E], ⟨4, .n8, 0x00FFFF00, 0, .none, .none, .none, true⟩),
  ([0xD8], ⟨2, .n8, 0x00FFFF00, 0, .none, .none, .none, true⟩),
  ([0x13, 0x14, 0x15, 0x16, 0x17], ⟨4, .ctlDA, 0x008000FF, 0, .s, .op, .none, true⟩),
  ([0x18], ⟨4, .ctlAB, 0x00FF0000, 0, .none, .op, .op, true⟩),
  ([0x19], ⟨4, .ctlA, 0x00FF00FF, 0, .none, .sc, .none, true⟩),
  ([0x20, 0x22, 0x24, 0x26, 0x27, 0x28, 0x29, 0x2A, 0x2C, 0x2D, 0x2E, 0x32, 0x33, 0x34, 0x35, 0x36, 0x37], ⟨0, .alu2, 0, 0, .s, .op, .op, true⟩),
  ([0x2B], ⟨0, .alu2, 0, 64, .s, .op, .op, true⟩),
  ([0x21, 0x23, 0x25], ⟨0, .alu2, 0, 32, .p, .opw, .opw, true⟩),
  ([0x2F, 0x30, 0x31], ⟨0, .alu2, 0, 32, .p, .opw, .op, true⟩),
  ([0x38, 0x39], ⟨0, .alu2, 0, 32, .s, .opw, .opw, true⟩),
  ([0x3A], ⟨0, .alu1, 0xFF, 0, .s, .op, .none, true⟩),
  ([0x3B], ⟨0, .alu1, 0xFF, 32, .p, .opw, .none, true⟩),
  ([0x3C, 0x3D], ⟨0, .imm, 0, 0, .s, .none, .none, true⟩),
  ([0x3E], ⟨0, .sget, 0xFF00, 0, .s, .none, .none, true⟩),
  ([0x3F], ⟨0, .aluX, 0, 0, .none, .op, .none, true⟩),
  ([0x40, 0x42], ⟨0, .alu2, 0, 11, .v, .op, .op, false⟩)]

/-- Rows of R72, part 2. -/
def rows1 : List (List Nat × Row) := [
  ([0x41, 0x43], ⟨0, .alu2, 0, 43, .vp, .opw, .opw, false⟩),
  ([0x47, 0x48, 0x49, 0x4A], ⟨0, .alu2, 0, 75, .v, .op, .op, false⟩),
  ([0x51, 0x52, 0x53], ⟨0, .alu2, 0, 35, .vp, .opw, .op, false⟩),
  ([0x44, 0x45, 0x46, 0x4B, 0x4C, 0x4D, 0x4E, 0x4F, 0x50, 0x54, 0x55, 0x56, 0x57, 0x72, 0x73, 0x74, 0x75, 0x76, 0x90, 0x91, 0x92, 0x93], ⟨0, .alu2, 0, 3, .v, .op, .op, false⟩),
  ([0x5D, 0x5E, 0x5F], ⟨0, .alu2, 0, 67, .v, .op, .op, false⟩),
  ([0x58, 0x60, 0x61], ⟨0, .alu1, 0xFF, 3, .v, .op, .none, false⟩),
  ([0x59, 0x5A], ⟨0, .alu2, 0, 3, .cm, .op, .op, false⟩),
  ([0x5B, 0x5C], ⟨0, .alu2, 0, 35, .cm, .opw, .opw, false⟩),
  ([0x6A], ⟨0, .alu2, 0, 19, .cmf, .op, .op, false⟩),
  ([0x62, 0x63, 0x64, 0x68, 0x69], ⟨0, .alu2, 0, 23, .v, .op, .op, false⟩),
  ([0x65, 0x66, 0x67], ⟨0, .alu2, 0, 87, .v, .op, .op, false⟩),
  ([0x6B, 0x6C, 0x6D, 0x6E, 0x6F, 0x70], ⟨0, .alu1, 0xFF, 23, .v, .op, .none, false⟩),
  ([0x71], ⟨0, .aluX, 0, 31, .v, .op, .none, false⟩),
  ([0x77], ⟨0, .aluX, 0, 21, .s, .op, .none, false⟩),
  ([0x78, 0x79], ⟨0, .aluX, 0, 23, .v, .op, .none, false⟩),
  ([0x7A], ⟨0, .alu1, 0xFF, 1, .p, .op, .none, false⟩),
  ([0x7B], ⟨0, .aluD, 0xFFFF, 3, .v, .none, .none, false⟩),
  ([0x7C, 0x7D, 0x7E], ⟨0, .mask2, 0x0070F0F0, 0, .none, .none, .none, true⟩),
  ([0x7F, 0x80], ⟨0, .mask1, 0x0070F0FF, 0, .none, .none, .none, true⟩),
  ([0x81], ⟨0, .maskS, 0xF0FF, 0, .s, .none, .none, true⟩),
  ([0x82], ⟨0, .maskS, 0xF0FF, 0, .p, .none, .none, true⟩),
  ([0x83], ⟨0, .maskL, 0x007000FF, 0, .none, .pair, .none, true⟩),
  ([0x84], ⟨0, .aluD, 0xFFFF, 0, .none, .none, .none, true⟩),
  ([0x85, 0x86, 0x87], ⟨0, .alu1, 0xFF, 1, .none, .op, .none, false⟩)]

/-- Rows of R72, part 3. -/
def rows2 : List (List Nat × Row) := [
  ([0x88], ⟨0, .aluD, 0xFFFF, 4, .s, .none, .none, true⟩),
  ([0x89], ⟨0, .expr, 0, 23, .v, .op, .op, false⟩),
  ([0x8A], ⟨0, .alu1, 0xFF, 1, .p, .op, .none, false⟩),
  ([0x8B, 0x8C, 0x8D], ⟨0, .alu2, 0, 1, .v, .op, .pair, false⟩),
  ([0x8E, 0x8F], ⟨0, .alu2, 0, 3, .v, .op, .pair, false⟩),
  ([0xA0, 0xA2, 0xA4, 0xA6, 0xA9, 0xAB, 0xAD, 0xB0, 0xB2, 0xB4, 0xB6, 0xB8, 0xBA], ⟨1, .memV, 0, 0, .none, .none, .none, false⟩),
  ([0xA1, 0xA3, 0xA5, 0xA7, 0xAA, 0xAC, 0xAE, 0xB1, 0xB3, 0xB5, 0xB7, 0xB9, 0xBB], ⟨1, .memU, 0, 0, .none, .none, .none, true⟩),
  ([0xA8], ⟨1, .fence, 0x00FFFF00, 0, .none, .none, .none, true⟩),
  ([0xAF], ⟨1, .lda, 0, 0, .none, .none, .none, false⟩),
  ([0xC0, 0xC1], ⟨3, .ctlDA, 0x008000FF, 0, .p, .op, .none, true⟩),
  ([0xC6], ⟨3, .ctlDA, 0x008000FF, 0, .s, .op, .none, true⟩),
  ([0xC2], ⟨3, .ctlAB, 0x00FF0000, 0, .none, .op, .op, true⟩),
  ([0xC3], ⟨3, .ctlA, 0x00FF00FF, 0, .none, .op, .none, true⟩),
  ([0xC4], ⟨3, .promote, 0x00800000, 0, .none, .pair0, .op, true⟩),
  ([0xC5], ⟨3, .arena, 0x00800000, 0, .p, .opw, .none, true⟩),
  ([0xC7], ⟨3, .ctlAB, 0x00FF0000, 0, .none, .pair, .op, true⟩),
  ([0xD0, 0xD1], ⟨2, .slot, 0x00C000FF, 0, .none, .op, .none, true⟩),
  ([0xD2], ⟨2, .slot, 0x00C00000, 0, .none, .op, .none, true⟩),
  ([0xD3], ⟨2, .slot, 0x00C00000, 0, .none, .pair, .none, true⟩),
  ([0xD4], ⟨2, .mma, 0x0080C0C0, 0, .none, .none, .none, true⟩),
  ([0xD5], ⟨2, .aclr, 0x00F0FFFF, 0, .none, .none, .none, true⟩),
  ([0xD6], ⟨2, .adrn, 0x00F000FF, 0, .none, .op, .none, true⟩),
  ([0xD7], ⟨2, .ctlA, 0x00FF00FF, 0, .none, .op, .none, true⟩)]

/-- The opcode table of R72. -/
def rows : List (List Nat × Row) := rows0 ++ rows1 ++ rows2

/-- Opcodes with operands A and B. -/
def alu2Ops : List (Nat × (Alu2 → Instr)) := [
  (0x20, .sadd), (0x21, .saddD), (0x22, .ssub), (0x23, .ssubD), (0x24, .smul), (0x25, .smulD),
  (0x26, .smulhS), (0x27, .smulhUi), (0x28, .sand), (0x29, .sor), (0x2A, .sxor), (0x2B, .ssel),
  (0x2C, .sshl), (0x2D, .sshr), (0x2E, .ssra), (0x2F, .sshlD), (0x30, .sshrD), (0x31, .ssraD),
  (0x32, .scmpEq), (0x33, .scmpNe), (0x34, .scmpLt), (0x35, .scmpLe), (0x36, .scmpLtu), (0x37, .scmpLeu),
  (0x38, .scmpEqD), (0x39, .scmpNeD), (0x40, .vadd), (0x41, .vaddD), (0x42, .vsub), (0x43, .vsubD),
  (0x44, .vmul), (0x45, .vmulhS), (0x46, .vmulhUi), (0x47, .vmad), (0x48, .vdot4S8), (0x49, .vdot4Ui8),
  (0x4A, .vdot4Mix), (0x4B, .vand), (0x4C, .vor), (0x4D, .vxor), (0x4E, .vshl), (0x4F, .vshr),
  (0x50, .vsra), (0x51, .vshlD), (0x52, .vshrD), (0x53, .vsraD), (0x54, .vminS), (0x55, .vminUi),
  (0x56, .vmaxS), (0x57, .vmaxUi), (0x59, .vcmpS32), (0x5A, .vcmpUi32), (0x5B, .vcmpS64), (0x5C, .vcmpUi64),
  (0x5D, .vsel), (0x5E, .vbfeS), (0x5F, .vbfeUi), (0x62, .vfadd), (0x63, .vfsub), (0x64, .vfmul),
  (0x65, .vfma), (0x66, .vhfmaBf16), (0x67, .vhfmaF16), (0x68, .vfmin), (0x69, .vfmax), (0x6A, .vfcmp),
  (0x72, .vshufXor), (0x73, .vshufUp), (0x74, .vshufDown), (0x75, .vshufIdx), (0x76, .vbcast), (0x8B, .qntI8),
  (0x8C, .qntI4), (0x8D, .qntT3), (0x8E, .dqntI8), (0x8F, .dqntI4), (0x90, .pk3), (0x91, .upk3),
  (0x92, .pk4), (0x93, .upk4)]

/-- Opcodes with operand A alone. -/
def alu1Ops : List (Nat × (Alu1 → Instr)) := [
  (0x3A, .smov), (0x3B, .smovD), (0x58, .vabs), (0x60, .vpopc), (0x61, .vclz), (0x6B, .vfrcp),
  (0x6C, .vfrsq), (0x6D, .vexp2), (0x6E, .vlog2), (0x6F, .vfsin), (0x70, .vfcos), (0x7A, .vbal),
  (0x85, .kaddF32), (0x86, .kaddF16), (0x87, .kaddBf16), (0x8A, .qmm)]

/-- Opcodes with an n8 in B. -/
def aluXOps : List (Nat × (AluX → Instr)) := [
  (0x71, .vfcvt), (0x77, .vred), (0x78, .vscanIncl), (0x79, .vscanExcl), (0x3F, .sset)]

/-- Opcodes with a destination alone. -/
def aluDOps : List (Nat × (AluD → Instr)) := [
  (0x7B, .vlid), (0x84, .kclr), (0x88, .krnd)]

/-- Format I. -/
def immOps : List (Nat × (AluImm → Instr)) := [
  (0x3C, .smovi), (0x3D, .smoviHi)]

/-- Masks of two sources. -/
def mask2Ops : List (Nat × (Mask2 → Instr)) := [
  (0x7C, .mand), (0x7D, .mor), (0x7E, .mxor)]

/-- Masks of one source. -/
def mask1Ops : List (Nat × (Mask1 → Instr)) := [
  (0x7F, .mnot), (0x80, .mmov)]

/-- Masks to scalars. -/
def maskSOps : List (Nat × (MaskS → Instr)) := [
  (0x81, .mcnt), (0x82, .msave)]

/-- Format M. -/
def memVOps : List (Nat × (MemV → Instr)) := [
  (0xA0, .ld), (0xA2, .st), (0xA4, .stx), (0xA6, .atom), (0xA9, .pref), (0xAB, .tagld),
  (0xAD, .tagst), (0xB0, .lds), (0xB2, .sts), (0xB4, .atoms), (0xB6, .gld), (0xB8, .gst),
  (0xBA, .gop)]

/-- Format MU. -/
def memUOps : List (Nat × (MemU → Instr)) := [
  (0xA1, .ldU), (0xA3, .stU), (0xA5, .stxU), (0xA7, .atomU), (0xAA, .prefU), (0xAC, .tagldU),
  (0xAE, .tagstU), (0xB1, .ldsU), (0xB3, .stsU), (0xB5, .atomsU), (0xB7, .gldU), (0xB9, .gstU),
  (0xBB, .gopU)]

/-- The format and field values of an instruction of the table; none for an event. -/
def form : Instr → Option Form
  | .nop => some (.none 0x00)
  | .bra off => some (.br 0x01 0 off)
  | .brsZ c off => some (.br 0x02 (scalarCode c) off)
  | .brsNz c off => some (.br 0x03 (scalarCode c) off)
  | .brmAny m off => some (.br 0x04 (m.setWidth 8) off)
  | .brmAll m off => some (.br 0x05 (m.setWidth 8) off)
  | .brmNone m off => some (.br 0x06 (m.setWidth 8) off)
  | .jmpi p => some (.ctl 0x07 0 (.s p) none)
  | .call c off => some (.br 0x08 (scalarCode c) off)
  | .ret p => some (.ctl 0x09 0 (.s p) none)
  | .exit => some (.none 0x0A)
  | .yield => some (.none 0x0B)
  | .sleep a => some (.ctl 0x0C 0 a none)
  | .waitv p b => some (.ctl 0x0D 0 (.s p) (some b))
  | .trap x => some (.n8 0x0E x)
  | .tret => some (.none 0x0F)
  | .bkpt => some (.none 0x10)
  | .acquire => some (.none 0x11)
  | .bar => some (.none 0x12)
  | .barpAnd d a => some (.ctl 0x13 d a none)
  | .barpOr d a => some (.ctl 0x14 d a none)
  | .barpAdd d a => some (.ctl 0x15 d a none)
  | .barpMin d a => some (.ctl 0x16 d a none)
  | .barpMax d a => some (.ctl 0x17 d a none)
  | .waittag a b => some (.ctl 0x18 0 a (some b))
  | .waitp a => some (.ctl 0x19 0 a none)
  | .bbwait a => some (.ctl 0x1A 0 a none)
  | .sadd f => some (.alu2 0x20 f)
  | .saddD f => some (.alu2 0x21 f)
  | .ssub f => some (.alu2 0x22 f)
  | .ssubD f => some (.alu2 0x23 f)
  | .smul f => some (.alu2 0x24 f)
  | .smulD f => some (.alu2 0x25 f)
  | .smulhS f => some (.alu2 0x26 f)
  | .smulhUi f => some (.alu2 0x27 f)
  | .sand f => some (.alu2 0x28 f)
  | .sor f => some (.alu2 0x29 f)
  | .sxor f => some (.alu2 0x2A f)
  | .ssel f => some (.alu2 0x2B f)
  | .sshl f => some (.alu2 0x2C f)
  | .sshr f => some (.alu2 0x2D f)
  | .ssra f => some (.alu2 0x2E f)
  | .sshlD f => some (.alu2 0x2F f)
  | .sshrD f => some (.alu2 0x30 f)
  | .ssraD f => some (.alu2 0x31 f)
  | .scmpEq f => some (.alu2 0x32 f)
  | .scmpNe f => some (.alu2 0x33 f)
  | .scmpLt f => some (.alu2 0x34 f)
  | .scmpLe f => some (.alu2 0x35 f)
  | .scmpLtu f => some (.alu2 0x36 f)
  | .scmpLeu f => some (.alu2 0x37 f)
  | .scmpEqD f => some (.alu2 0x38 f)
  | .scmpNeD f => some (.alu2 0x39 f)
  | .smov f => some (.alu1 0x3A f)
  | .smovD f => some (.alu1 0x3B f)
  | .smovi f => some (.imm 0x3C f)
  | .smoviHi f => some (.imm 0x3D f)
  | .sget f => some (.sget f)
  | .sset f => some (.aluX 0x3F f)
  | .vadd f => some (.alu2 0x40 f)
  | .vaddD f => some (.alu2 0x41 f)
  | .vsub f => some (.alu2 0x42 f)
  | .vsubD f => some (.alu2 0x43 f)
  | .vmul f => some (.alu2 0x44 f)
  | .vmulhS f => some (.alu2 0x45 f)
  | .vmulhUi f => some (.alu2 0x46 f)
  | .vmad f => some (.alu2 0x47 f)
  | .vdot4S8 f => some (.alu2 0x48 f)
  | .vdot4Ui8 f => some (.alu2 0x49 f)
  | .vdot4Mix f => some (.alu2 0x4A f)
  | .vand f => some (.alu2 0x4B f)
  | .vor f => some (.alu2 0x4C f)
  | .vxor f => some (.alu2 0x4D f)
  | .vshl f => some (.alu2 0x4E f)
  | .vshr f => some (.alu2 0x4F f)
  | .vsra f => some (.alu2 0x50 f)
  | .vshlD f => some (.alu2 0x51 f)
  | .vshrD f => some (.alu2 0x52 f)
  | .vsraD f => some (.alu2 0x53 f)
  | .vminS f => some (.alu2 0x54 f)
  | .vminUi f => some (.alu2 0x55 f)
  | .vmaxS f => some (.alu2 0x56 f)
  | .vmaxUi f => some (.alu2 0x57 f)
  | .vabs f => some (.alu1 0x58 f)
  | .vcmpS32 f => some (.alu2 0x59 f)
  | .vcmpUi32 f => some (.alu2 0x5A f)
  | .vcmpS64 f => some (.alu2 0x5B f)
  | .vcmpUi64 f => some (.alu2 0x5C f)
  | .vsel f => some (.alu2 0x5D f)
  | .vbfeS f => some (.alu2 0x5E f)
  | .vbfeUi f => some (.alu2 0x5F f)
  | .vpopc f => some (.alu1 0x60 f)
  | .vclz f => some (.alu1 0x61 f)
  | .vfadd f => some (.alu2 0x62 f)
  | .vfsub f => some (.alu2 0x63 f)
  | .vfmul f => some (.alu2 0x64 f)
  | .vfma f => some (.alu2 0x65 f)
  | .vhfmaBf16 f => some (.alu2 0x66 f)
  | .vhfmaF16 f => some (.alu2 0x67 f)
  | .vfmin f => some (.alu2 0x68 f)
  | .vfmax f => some (.alu2 0x69 f)
  | .vfcmp f => some (.alu2 0x6A f)
  | .vfrcp f => some (.alu1 0x6B f)
  | .vfrsq f => some (.alu1 0x6C f)
  | .vexp2 f => some (.alu1 0x6D f)
  | .vlog2 f => some (.alu1 0x6E f)
  | .vfsin f => some (.alu1 0x6F f)
  | .vfcos f => some (.alu1 0x70 f)
  | .vfcvt f => some (.aluX 0x71 f)
  | .vshufXor f => some (.alu2 0x72 f)
  | .vshufUp f => some (.alu2 0x73 f)
  | .vshufDown f => some (.alu2 0x74 f)
  | .vshufIdx f => some (.alu2 0x75 f)
  | .vbcast f => some (.alu2 0x76 f)
  | .vred f => some (.aluX 0x77 f)
  | .vscanIncl f => some (.aluX 0x78 f)
  | .vscanExcl f => some (.aluX 0x79 f)
  | .vbal f => some (.alu1 0x7A f)
  | .vlid f => some (.aluD 0x7B f)
  | .mand f => some (.mask2 0x7C f)
  | .mor f => some (.mask2 0x7D f)
  | .mxor f => some (.mask2 0x7E f)
  | .mnot f => some (.mask1 0x7F f)
  | .mmov f => some (.mask1 0x80 f)
  | .mcnt f => some (.maskS 0x81 f)
  | .msave f => some (.maskS 0x82 f)
  | .mload f => some (.maskL f)
  | .kclr f => some (.aluD 0x84 f)
  | .kaddF32 f => some (.alu1 0x85 f)
  | .kaddF16 f => some (.alu1 0x86 f)
  | .kaddBf16 f => some (.alu1 0x87 f)
  | .krnd f => some (.aluD 0x88 f)
  | .expr f => some (.expr f)
  | .qmm f => some (.alu1 0x8A f)
  | .qntI8 f => some (.alu2 0x8B f)
  | .qntI4 f => some (.alu2 0x8C f)
  | .qntT3 f => some (.alu2 0x8D f)
  | .dqntI8 f => some (.alu2 0x8E f)
  | .dqntI4 f => some (.alu2 0x8F f)
  | .pk3 f => some (.alu2 0x90 f)
  | .upk3 f => some (.alu2 0x91 f)
  | .pk4 f => some (.alu2 0x92 f)
  | .upk4 f => some (.alu2 0x93 f)
  | .ld f => some (.memV 0xA0 f)
  | .ldU f => some (.memU 0xA1 f)
  | .st f => some (.memV 0xA2 f)
  | .stU f => some (.memU 0xA3 f)
  | .stx f => some (.memV 0xA4 f)
  | .stxU f => some (.memU 0xA5 f)
  | .atom f => some (.memV 0xA6 f)
  | .atomU f => some (.memU 0xA7 f)
  | .fence f => some (.fence f)
  | .pref f => some (.memV 0xA9 f)
  | .prefU f => some (.memU 0xAA f)
  | .tagld f => some (.memV 0xAB f)
  | .tagldU f => some (.memU 0xAC f)
  | .tagst f => some (.memV 0xAD f)
  | .tagstU f => some (.memU 0xAE f)
  | .lda f => some (.lda f)
  | .lds f => some (.memV 0xB0 f)
  | .ldsU f => some (.memU 0xB1 f)
  | .sts f => some (.memV 0xB2 f)
  | .stsU f => some (.memU 0xB3 f)
  | .atoms f => some (.memV 0xB4 f)
  | .atomsU f => some (.memU 0xB5 f)
  | .gld f => some (.memV 0xB6 f)
  | .gldU f => some (.memU 0xB7 f)
  | .gst f => some (.memV 0xB8 f)
  | .gstU f => some (.memU 0xB9 f)
  | .gop f => some (.memV 0xBA f)
  | .gopU f => some (.memU 0xBB f)
  | .cpost d a => some (.ctl 0xC0 d a none)
  | .cpostNb d a => some (.ctl 0xC1 d a none)
  | .bbinit a b => some (.ctl 0xC2 0 a (some b))
  | .bbinv a => some (.ctl 0xC3 0 a none)
  | .promote t q a b => some (.promote t q (some a) b)
  | .promoteA t q b => some (.promote t q none b)
  | .arena d a x => some (.arena d a x)
  | .launch d a => some (.ctl 0xC6 d a none)
  | .tsig p b => some (.ctl 0xC7 0 (.s p) (some b))
  | .oclaim o a => some (.slot 0xD0 o a 0)
  | .orel o a => some (.slot 0xD1 o a 0)
  | .olda o a x => some (.slot 0xD2 o a x)
  | .oldw o p x => some (.slot 0xD3 o (.s p) x)
  | .mma f => some (.mma f)
  | .aclr t => some (.aclr t)
  | .adrn t a => some (.adrn t a)
  | .mtok a => some (.ctl 0xD7 0 a none)
  | .mwaitTok => some (.n8 0xD8 0)
  | .mwaitAll => some (.n8 0xD8 1)
  | .clauseIssue _ _ | .replayResolved _ _ | .arenaPoolRefill _ _ _ _ | .gridRecord _ | .nodeRecord _
  | .signalRecord _ | .waitvalRecord _ | .waitvalSatisfied _ | .copyRecord _ | .readyPoolEntry | .blockDispatch _
  | .grant _ | .blockRetirement _ | .gridRetirement _ | .arenaDestruction _ | .sliceUnit | .drainExpiry _
  | .blockSave _ | .blockRestore _ | .mmaStart _ | .mmaRetire _ | .oldaComplete _ _ | .oldwComplete _ _
  | .adrnComplete _ _ | .orelComplete _ _ | .ldaComplete _ _ | .loadComplete _ _ _ | .storeComplete _ _
  | .scratchpadAccessPerformed _ _ | .qntMerge _ | .rdupCollapse _ _ | .waitvWake _ | .sleepExpiry _ | .waitpExpiry _
  | .queueRoom _ | .copy1d _ | .copy2d _ | .fill _ | .mcast _ | .reduce _ | .sealmove _ | .ingest _ | .signal _
  | .packetCompletion _ _ | .mcastArrival _ _ _ | .reduceCompletion _ _ | .tlbInvalidate _ _ | .tlbinvComplete _
  | .leaseRenew _ | .leaseRelease _ | .leasePeriod _ _ | .leaseExpiry | .scrubprogSelect _ _ | .scrubComplete _
  | .aggvecRead _ _ | .feataccWrite _ _ _ | .commit _ | .registerWrite _ _ _ | .notifyInterrupt _ | .register _ _ _
  | .deregister _ | .giveMemory _ _ _ _ _ | .roots _ _ _ | .sealedEntry _ _ _ | .ingestKey _ _ _ _ _
  | .cometQueue _ _ _ | .bindQueue _ _ | .bindStream _ _ _ | .attest _ _ | .macReread _ _ | .keyGeneration _
  | .flitRetry _ _ _ | .hostLinkDown _ | .hostLinkUp _ | .tdispStop _ _ | .ideIntegrityFailure _ _ | .hostAccess _ _
  | .peerAccess _ _ | .perigeeTraining _ _ | .powerOn _ | .warmReset | .programLoad _ | .orreryAttach _
  | .orreryDetach _ | .orreryRead _ _ | .orreryWrite _ _ | .orreryPost _ _ | .orrerySetPlace _ _ | .orreryContinue _
  | .powerLoss | .clusterClockGating _ _ | .softError _ _ | .tdispLockInterface _ _ | .tdispStartInterface _ _ => none

/-- The row of an opcode; none for an unassigned value (R71, R73). -/
def rowOf (op : BitVec 8) : Option Row := (rows.find? (fun r => r.1.contains op.toNat)).map (·.2)

/-- The register, latch, integer, constant or literal that an operand code stands for; none for a reserved
code (R57). A literal's value is given. -/
def opndOf (code : BitVec 8) (literal : Opnd) : Option Opnd :=
  if code < 0x80 then some (.v (code.setWidth 7))
  else if code < 0xC0 then some (.s (code.setWidth 6))
  else if code < 0xC4 then some (.l (code.setWidth 2))
  else if code < 0xD0 then none
  else if code < 0xF0 then some (.int ((code - 0xD0).setWidth 5))
  else if code < 0xF8 then some (.fc (code.setWidth 3))
  else if code = 0xF8 then some literal
  else none

/-- The operand code of an operand (R57). -/
def Opnd.code : Opnd → BitVec 8
  | .v r => r.setWidth 8
  | .s r => 0x80 + r.setWidth 8
  | .l j => 0xC0 + j.setWidth 8
  | .int c => 0xD0 + c.setWidth 8
  | .fc c => 0xF0 + c.setWidth 8
  | .lit _ => 0xF8
  | .lit64 _ => 0xF8

/-- The literal words of an operand, the low word first (R59). -/
def Opnd.words : Opnd → List Word
  | .lit w => [w]
  | .lit64 d => [d.setWidth 32, (d >>> 32).setWidth 32]
  | _ => []

/-- Does the field count a literal word after its instruction: is it an op field of R72, one that admits no literal
included (WAITP)? DEDUCED, log entry 30. -/
def AKind.literal : AKind → Bool
  | .op => true
  | .opw => true
  | .sc => true
  | _ => false

/-- Reads one operand field: the operand, whether its code is one that R57 assigns and the kind can take,
and the words left. None when a literal word is missing. Under `wide` a literal takes two words. -/
def takeOpnd (wide : Bool) (k : AKind) (code : BitVec 8) (ws : List Word) : Option (Opnd × Bool × List Word) :=
  if code = 0xF8 ∧ k.literal = true then
    match wide, ws with
    | false, w :: t => some (.lit w, true, t)
    | true, lo :: hi :: t => some (.lit64 (hi ++ lo), true, t)
    | _, _ => none
  else
    match opndOf code (.int 0) with
    | some o => some (o, code ≠ 0xF8, ws)
    | none => some (.int 0, false, ws)

/-- The prefix words before an instruction word, each with its opcode byte (R61). -/
def splitPrefixes : List Word → List Word × List Word
  | [] => ([], [])
  | w :: t =>
    if 0xF0#32 ≤ w >>> 24 ∧ w >>> 24 ≤ 0xF3#32 then
      let r := splitPrefixes t
      (w :: r.1, r.2)
    else ([], w :: t)

/-- Bits [hi:lo] of a word, as a bit vector of n bits. -/
def bits (w : Word) (lo n : Nat) : BitVec n := (w >>> lo).setWidth n

/-- One bit of a word. -/
def bit (w : Word) (i : Nat) : Bool := w.getLsbD i

/-- The first prefix word with opcode `op`. -/
def prefixWord (ps : List Word) (op : BitVec 8) : Option Word := ps.find? (fun w => bits w 24 8 = op)

/-- The ALU prefix word of an instruction, if it has one. -/
def aluWord (ps : List Word) : Option Word :=
  ps.find? (fun w => bits w 24 8 = 0xF0 ∨ bits w 24 8 = 0xF1)

/-- Is the sequence of prefixes one that R61 admits before an instruction of class `cls`? DEDUCED, log entry 22. -/
def sequenceOk (cls : Nat) (ps : List Word) : Bool :=
  match ps.map (fun w => bits w 24 8) with
  | [] => true
  | [p] => if cls = 0 then p = 0xF0 ∨ p = 0xF1 else cls = 1 ∧ (p = 0xF2 ∨ p = 0xF3)
  | [p, q] => cls = 1 ∧ p = 0xF2 ∧ q = 0xF3
  | _ => false

/-- Are the reserved parts of the prefix words zero, and their closed fields in range (R62, R63)? -/
def prefixWordOk (w : Word) : Bool :=
  if bits w 24 8 = 0xF0 then bits w 8 6 = 0 ∧ bits w 0 8 = 0
  else if bits w 24 8 = 0xF1 then bits w 8 6 = 0
  else if bits w 24 8 = 0xF2 then
    bit w 8 = false ∧ bits w 19 3 < 5 ∧ bits w 15 4 < 14 ∧ bits w 12 3 < 5 ∧ (bit w 9 = true ∨ bits w 0 8 = 0)
  else true

/-- Does the prefix word carry a fourth operand, and which code? -/
def fourthCode (ps : List Word) : Option (BitVec 8) :=
  match prefixWord ps 0xF1 with
  | some w => some (bits w 0 8)
  | none =>
    match prefixWord ps 0xF2 with
    | some w => if bit w 9 then some (bits w 0 8) else none
    | none => none

/-- The ALU prefix of a word, with its fourth operand (R62). -/
def aluPreOf (w : Word) (c : Option Opnd) : AluPre :=
  ⟨bits w 20 4, bits w 18 2, bit w 17, bit w 16, bit w 15, bit w 14, c⟩

/-- The memory attributes of a word, with its second data operand (R63). -/
def memAttOf (w : Word) (c : Option Opnd) : MemAtt :=
  ⟨bits w 22 2, bits w 19 3, bits w 15 4, bits w 12 3, bit w 11, bit w 10, c⟩

/-- Reads the fourth operand where a prefix carries one. -/
def takeFourth (wide : Bool) (ps : List Word) (ws : List Word) : Option (Option Opnd × Bool × List Word) :=
  match fourthCode ps with
  | none => some (none, true, ws)
  | some code => (takeOpnd wide .op code ws).map (fun r => (some r.1, r.2.1, r.2.2))

/-- The field values of an instruction: its form, whether every operand code in it is one that its field can
take, and the words after it. None when its words run past the end of the clause (R51, R59). The code 0xF8 in a
prefix that the instruction does not admit counts a literal word where the instruction's class has a prefix with
a fourth operand, and none before a control, engine or matrix instruction: DESIGN CHOICE, log entry 21. -/
def parseForm (row : Row) (ps : List Word) (w : Word) (ws : List Word) : Option (Form × Bool × List Word) :=
  let op := bits w 24 8
  let n := bit w 23
  let d := bits w 16 7
  let a := bits w 8 8
  let b := bits w 0 8
  let aw := aluWord ps
  let wide := (aw.map (fun p => bit p 14)).getD false
  let att := prefixWord ps 0xF2
  let off := (prefixWord ps 0xF3).map (fun p => bits p 0 24)
  let pre := fun (c : Option Opnd) => aw.map (fun p => aluPreOf p c)
  match row.shape with
  | .none => some (.none op, true, ws)
  | .br => some (.br op (bits w 16 8) (bits w 0 16), true, ws)
  | .n8 => some (.n8 op b, true, ws)
  | .ctlA => (takeOpnd wide row.a a ws).map fun r => (.ctl op d r.1 none, r.2.1, r.2.2)
  | .ctlDA => (takeOpnd wide row.a a ws).map fun r => (.ctl op d r.1 none, r.2.1, r.2.2)
  | .ctlAB =>
    match takeOpnd wide row.a a ws with
    | none => none
    | some r => (takeOpnd wide row.b b r.2.2).map fun q => (.ctl op d r.1 (some q.1), r.2.1 && q.2.1, q.2.2)
  | .alu2 =>
    match takeOpnd wide row.a a ws with
    | none => none
    | some r =>
      match takeOpnd wide row.b b r.2.2 with
      | none => none
      | some q => (takeFourth wide ps q.2.2).map fun t =>
          (.alu2 op ⟨pre t.1, n, d, r.1, q.1⟩, r.2.1 && q.2.1 && t.2.1, t.2.2)
  | .alu1 =>
    match takeOpnd wide row.a a ws with
    | none => none
    | some r => (takeFourth wide ps r.2.2).map fun t => (.alu1 op ⟨pre t.1, n, d, r.1⟩, r.2.1 && t.2.1, t.2.2)
  | .aluX =>
    match takeOpnd wide row.a a ws with
    | none => none
    | some r => (takeFourth wide ps r.2.2).map fun t => (.aluX op ⟨pre t.1, n, d, r.1, b⟩, r.2.1 && t.2.1, t.2.2)
  | .aluD => (takeFourth wide ps ws).map fun t => (.aluD op ⟨pre t.1, n, d⟩, t.2.1, t.2.2)
  | .imm => (takeFourth wide ps ws).map fun t => (.imm op ⟨pre t.1, n, d, bits w 0 16⟩, t.2.1, t.2.2)
  | .sget => (takeFourth wide ps ws).map fun t => (.sget ⟨pre t.1, n, d, b⟩, t.2.1, t.2.2)
  | .mask2 => (takeFourth wide ps ws).map fun t =>
      (.mask2 op ⟨pre t.1, n, bits w 16 4, bits w 8 4, bits w 0 4⟩, t.2.1, t.2.2)
  | .mask1 => (takeFourth wide ps ws).map fun t => (.mask1 op ⟨pre t.1, n, bits w 16 4, bits w 8 4⟩, t.2.1, t.2.2)
  | .maskS => (takeFourth wide ps ws).map fun t => (.maskS op ⟨pre t.1, n, d, bits w 8 4⟩, t.2.1, t.2.2)
  | .maskL =>
    match takeOpnd wide .op a ws with
    | none => none
    | some r => (takeFourth wide ps r.2.2).map fun t =>
        (.maskL ⟨pre t.1, n, bits w 16 4, bits w 8 6⟩, r.2.1 && t.2.1 && bits w 14 2 == 0b10, t.2.2)
  | .expr =>
    match ws with
    | w1 :: w2 :: ws =>
      match takeOpnd wide .op a ws with
      | none => none
      | some r0 =>
        match takeOpnd wide .op b r0.2.2 with
        | none => none
        | some r1 =>
          match takeOpnd wide .op (bits w1 24 8) r1.2.2 with
          | none => none
          | some r2 =>
            match takeOpnd wide .op (bits w1 16 8) r2.2.2 with
            | none => none
            | some r3 => (takeFourth wide ps r3.2.2).map fun t =>
                (.expr ⟨pre t.1, n, d, r0.1, r1.1, r2.1, r3.1, bits w1 14 2, bits w1 0 12 ++ w2⟩,
                  r0.2.1 && r1.2.1 && r2.2.1 && r3.2.1 && t.2.1, t.2.2)
    | _ => none
  | .memV => (takeFourth wide ps ws).map fun t =>
      (.memV op ⟨att.map (fun p => memAttOf p t.1), off, bits w 21 3, bits w 14 7, bits w 8 6,
        if bit w 7 then some (bits w 0 7) else none⟩, t.2.1, t.2.2)
  | .memU => (takeFourth wide ps ws).map fun t =>
      (.memU op ⟨att.map (fun p => memAttOf p t.1), off, bits w 21 3, bits w 15 6, bits w 9 6, bits w 0 9⟩,
        t.2.1, t.2.2)
  | .fence => (takeFourth wide ps ws).map fun t =>
      (.fence ⟨att.map (fun p => memAttOf p t.1), off, b⟩, t.2.1, t.2.2)
  | .lda =>
    match ws with
    | w1 :: ws =>
      match takeOpnd wide .op (bits w1 16 8) ws with
      | none => none
      | some r => (takeFourth wide ps r.2.2).map fun t =>
          (.lda ⟨att.map (fun p => memAttOf p t.1), off, bits w 22 2, bits w 19 3, bits w 13 6, bits w 6 7,
            bits w 0 6, if bit w1 24 then some (bits w1 25 7) else none, r.1⟩, r.2.1 && t.2.1, t.2.2)
    | _ => none
  | .promote => (takeOpnd wide row.b b ws).map fun r =>
      (.promote (bits w 21 2) (bits w 16 5) (if a = 0xD0 then none else some (bits w 8 6)) r.1,
        r.2.1 && (a == 0xD0 || bits w 14 2 == 0b10), r.2.2)
  | .arena => (takeOpnd wide row.a a ws).map fun r => (.arena d r.1 b, r.2.1, r.2.2)
  | .slot => (takeOpnd wide row.a a ws).map fun r => (.slot op (bits w 16 6) r.1 b, r.2.1, r.2.2)
  | .mma => some (.mma ⟨bit w 22, bit w 21, bit w 20, bits w 16 4, bits w 8 6, bits w 0 6⟩, true, ws)
  | .aclr => some (.aclr (bits w 16 4), true, ws)
  | .adrn => (takeOpnd wide row.a a ws).map fun r => (.adrn (bits w 16 4) r.1, r.2.1, r.2.2)

/-- Bits of the extension words that must be zero (R69, R70), and IDX and GIDX where they are absent. -/
def extensionOk (row : Row) (w : Word) (ws : List Word) : Bool :=
  match row.shape, ws with
  | .expr, w1 :: _ => bits w1 12 2 = 0
  | .lda, w1 :: _ => bits w1 0 16 = 0 ∧ (bit w1 24 = true ∨ bits w1 25 7 = 0)
  | .memV, _ => bit w 7 = true ∨ bits w 0 7 = 0
  | _, _ => true

/-- The step codes of an EXPR, STEP0 first (R70). -/
def ExprF.stepList (f : ExprF) : List Nat :=
  [40, 36, 32, 28, 24, 20, 16, 12, 8, 4, 0].map (fun k => ((f.steps >>> k).setWidth 4).toNat)

/-- The check of an EXPR step list (R70): depth of the stack, operators so far, whether END has come. -/
def stepsOk : List Nat → Nat → Nat → Bool → Bool
  | [], depth, ops, _ => depth = 1 ∧ ops ≤ 7
  | x :: t, depth, ops, ended =>
    if ended then x = 0 ∧ stepsOk t depth ops true
    else if x = 0 then depth = 1 ∧ stepsOk t depth ops true
    else if x ≤ 4 then depth < 4 ∧ stepsOk t (depth + 1) ops false
    else if x = 5 then 1 ≤ depth ∧ depth < 4 ∧ stepsOk t (depth + 1) ops false
    else if x = 6 then 2 ≤ depth ∧ stepsOk t depth ops false
    else if x = 10 then 3 ≤ depth ∧ stepsOk t (depth - 2) (ops + 1) false
    else if x = 13 ∨ x = 14 then 1 ≤ depth ∧ stepsOk t depth (ops + 1) false
    else if x = 15 then false
    else 2 ≤ depth ∧ stepsOk t (depth - 1) (ops + 1) false

/-- Is the operand a literal? -/
def Opnd.isLit : Opnd → Bool
  | .lit _ => true
  | .lit64 _ => true
  | _ => false

/-- The operands of a form, in the order in which their literals follow (R59). -/
def Form.opnds : Form → List Opnd
  | .ctl _ _ a b => a :: b.toList
  | .alu2 _ f => f.a :: f.b :: (f.pre.bind (·.c)).toList
  | .alu1 _ f => f.a :: (f.pre.bind (·.c)).toList
  | .aluX _ f => f.a :: (f.pre.bind (·.c)).toList
  | .aluD _ f => (f.pre.bind (·.c)).toList
  | .imm _ f => (f.pre.bind (·.c)).toList
  | .sget f => (f.pre.bind (·.c)).toList
  | .mask2 _ f => (f.pre.bind (·.c)).toList
  | .mask1 _ f => (f.pre.bind (·.c)).toList
  | .maskS _ f => (f.pre.bind (·.c)).toList
  | .maskL f => (f.pre.bind (·.c)).toList
  | .expr f => f.in0 :: f.in1 :: f.in2 :: f.in3 :: (f.pre.bind (·.c)).toList
  | .memV _ f => (f.att.bind (·.c)).toList
  | .memU _ f => (f.att.bind (·.c)).toList
  | .fence f => (f.att.bind (·.c)).toList
  | .lda f => f.vb :: (f.att.bind (·.c)).toList
  | .promote _ _ _ b => [b]
  | .arena _ a _ => [a]
  | .slot _ _ a _ => [a]
  | .adrn _ a => [a]
  | _ => []

/-- Are the ALU prefix's fields ones that the row admits (R61), and is W used as R59 admits it? -/
def aluPreOk (row : Row) (f : Form) : Option AluPre → Bool
  | none => true
  | some p =>
    (row.pfx &&& 1 ≠ 0 || p.msel = 0) && (row.pfx &&& 2 ≠ 0 || !p.z) && (row.pfx &&& 4 ≠ 0 || p.rm = 0)
      && (row.pfx &&& 8 ≠ 0 || !p.sat) && (row.pfx &&& 16 ≠ 0 || !p.ftz)
      && (row.pfx &&& 64 ≠ 0 || p.c.isNone)
      && (!p.w || (row.pfx &&& 32 ≠ 0 && f.opnds.any Opnd.isLit))

/-- May the operation be done on a word of SZ, with CV as given (R240)? -/
def atomicOk (aop : BitVec 4) (sz : BitVec 3) (cv : Bool) : Bool :=
  (if aop = 13 then sz = 3 else if aop ≥ 10 then sz = 2 else sz = 2 ∨ sz = 3) && (cv == (aop = 9))

/-- May a relaxed atomic have the use (R241)? `even` says that D is even. -/
def useOk (a : MemAtt) (sz : BitVec 3) (even : Bool) : Bool :=
  if a.use = 0 then true
  else if a.ord ≠ 0 then false
  else if a.use = 1 then a.aop ≠ 8 && a.aop ≠ 9
  else if a.use = 2 then true
  else if a.use = 3 then a.aop ≠ 8 && a.aop ≠ 9 && a.nr
  else sz = 2 && !a.nr && even

/-- An attribute prefix with every field at its default. -/
def MemAtt.default : MemAtt := ⟨0, 0, 0, 0, false, false, none⟩

/-- Are the memory attributes ones that R234 admits for the opcode (given as its vector form), with SZ and the
data register's parity? A GLD.acq, GST.rel or ordered GOP may have SCOPE STRAND, of which R258 says nothing: it
orders the strand's accesses and keeps the L1. DESIGN CHOICE, log entry 113. -/
def attOk (op : BitVec 8) (sz : BitVec 3) (even : Bool) (a : MemAtt) : Bool :=
  let plain := a.aop = 0 && a.use = 0 && !a.nr && a.c.isNone
  if op = 0xA0 ∨ op = 0xB6 then
    plain && a.ord < 2 && (a.ord = 1 || a.scope = 0) && (!a.sx || sz < 2)
  else if op = 0xA2 ∨ op = 0xA4 ∨ op = 0xB8 then
    plain && !a.sx && (a.ord = 0 || a.ord = 2) && (a.ord = 2 || a.scope = 0)
  else if op = 0xA6 then
    !a.sx && atomicOk a.aop sz a.c.isSome && useOk a sz even
  else if op = 0xB4 then
    !a.sx && a.ord = 0 && a.scope = 0 && a.use = 0 && atomicOk a.aop sz a.c.isSome
  else if op = 0xBA then
    !a.sx && (a.ord ≠ 0 || a.scope = 0) && a.use = 0 && atomicOk a.aop sz a.c.isSome
  else if op = 0xB0 then plain && a.ord = 0 && a.scope = 0 && (!a.sx || sz < 2)
  else a = .default

/-- The sizes of a memory opcode, given as its vector form (R67, R240, R247, R248). DEDUCED, log entry 24. -/
def sizeOk (op : BitVec 8) (sz : BitVec 3) : Bool :=
  if op = 0xA6 ∨ op = 0xB4 ∨ op = 0xBA then sz = 2 ∨ sz = 3
  else if op = 0xA9 then sz < 2
  else if op = 0xAB ∨ op = 0xAD then sz = 2
  else sz < 5

/-- The special registers (R25, R125, R193, R200, R281). -/
def specialAssigned (x : BitVec 8) : Bool := x ≤ 0x13 || (0x20 ≤ x && x ≤ 0x2D)

/-- The special registers of 64 bits. -/
def specialWide (x : BitVec 8) : Bool := x = 0 || x = 0x11 || (0x28 ≤ x && x ≤ 0x2B)

/-- The special registers that SSET may write. -/
def specialWritable (x : BitVec 8) : Bool := x = 0x11 || x = 0x13 || x = 0x28 || x = 0x2D

/-- The n8 values that the instructions define (R143, R147, R163, R164, R171, R246, R251). -/
def n8Ok (op x : BitVec 8) : Bool :=
  if op = 0x71 then x < 0x0B
  else if op = 0x77 ∨ op = 0x78 ∨ op = 0x79 then x < 0x0C
  else if op = 0xC5 then x < 5
  else if op = 0xD2 then x < 8 && x &&& 3 ≠ 3
  else if op = 0xD3 then
    x < 0x80 && x &&& 3 ≠ 3 &&
      (if x &&& 4 = 0 then x &&& 0x78 = 0
       else x &&& 0x18 ≠ 0x18 && ((x >>> 5).toNat < 4 / 2 ^ (x &&& 3).toNat))
  else if op = 0xD8 ∨ op = 0xA8 then x < 2
  else true

/-- The ILLEGAL_INSTRUCTION checks on the field values (R54, checks 4 and 5). -/
def formOk (row : Row) (f : Form) : Bool :=
  match f with
  | .n8 op x => n8Ok op x
  | .alu2 _ g => aluPreOk row f g.pre && (row.d ≠ .cm || g.d >>> 4 < 6)
  | .alu1 _ g => aluPreOk row f g.pre && (row.d ≠ .none || g.n || g.d = 0)
  | .aluX op g => aluPreOk row f g.pre && n8Ok op g.x && (row.d ≠ .none || g.n || g.d = 0)
  | .aluD _ g => aluPreOk row f g.pre && (row.d ≠ .none || g.n || g.d = 0)
  | .imm _ g => aluPreOk row f g.pre
  | .sget g => aluPreOk row f g.pre
  | .mask2 _ g => aluPreOk row f g.pre
  | .mask1 _ g => aluPreOk row f g.pre
  | .maskS _ g => aluPreOk row f g.pre
  | .maskL g => aluPreOk row f g.pre
  | .expr g => aluPreOk row f g.pre && g.ty ≠ 3 && stepsOk g.stepList 0 0 false
  | .memV op g =>
    sizeOk op g.sz && attOk op g.sz (!g.d.getLsbD 0) (g.att.getD .default) && (op ≠ 0xA9 || g.d = 0)
  | .memU op g =>
    sizeOk (op - 1) g.sz && attOk (op - 1) g.sz (!g.d.getLsbD 0) (g.att.getD .default) && (op ≠ 0xAA || g.d = 0)
  | .fence g =>
    let a := g.att.getD .default
    n8Ok 0xA8 g.kind && a.ord ≠ 0 && a = ⟨a.ord, a.scope, 0, 0, false, false, none⟩ && g.off.getD 0 = 0
  | .lda g => g.att.getD .default = .default
  | .promote t _ _ _ => t ≠ 3
  | .arena _ _ x => n8Ok 0xC5 x
  | .slot op _ _ x => n8Ok op x
  | _ => true

/-- Is the latch one that holds a uniform result? One that reaches before the clause's first instruction
reads a uniform zero (R110). -/
def DecCtx.latchUniform (c : DecCtx) (j : BitVec 2) : Bool := c.latches.getD j.toNat true

/-- May the operand stand in its position (R57, R58, R110, R23)? `uni` excludes vector registers and
vector latches; `wide` is a 64-bit position. -/
def opndOk (c : DecCtx) (uni wide : Bool) : Opnd → Bool
  | .v r => !uni && r.toNat < c.vlimit && (!wide || (!r.getLsbD 0 && r.toNat + 1 < c.vlimit))
  | .s r => !wide || !r.getLsbD 0
  | .l j => c.cls = 0 && (!uni || c.latchUniform j)
  | _ => true

/-- May the operand stand in a field of the kind? -/
def kindOk (c : DecCtx) (uni : Bool) : AKind → Opnd → Bool
  | .none, _ => true
  | .op, o => opndOk c uni false o
  | .opw, o => opndOk c uni true o
  | .sc, .s _ => true
  | .pair, .s r => !r.getLsbD 0
  | .pair0, .s r => !r.getLsbD 0
  | .pair0, .int 0 => true
  | _, _ => false

/-- May the destination stand in D (R72)? -/
def destOk (c : DecCtx) (k : DKind) (n : Bool) (d : BitVec 7) : Bool :=
  match k with
  | .none => true
  | .s => n || d < 64
  | .p => n || (d < 64 && !d.getLsbD 0)
  | .v => n || d.toNat < c.vlimit
  | .vp => n || (!d.getLsbD 0 && d.toNat + 1 < c.vlimit)
  | _ => true

/-- May a data register of SZ start at vector register d (R67)? -/
def vdataOk (c : DecCtx) (sz : BitVec 3) (d : BitVec 7) : Bool :=
  if sz = 4 then !d.getLsbD 0 && d ≤ 124 && d.toNat + 3 < c.vlimit
  else if sz = 3 then !d.getLsbD 0 && d.toNat + 1 < c.vlimit
  else d.toNat < c.vlimit

/-- Does the opcode, given as its vector form, address device memory by a pointer pair? -/
def devicePair (op : BitVec 8) : Bool := op < 0xB0

/-- The operand checks (R54, check 6). -/
def operandsOk (c : DecCtx) (row : Row) (f : Form) : Bool :=
  match f with
  | .br op x _ => if op = 2 ∨ op = 3 then x >>> 6 = 0b10 else if op = 8 then x >>> 6 = 0b10 && !x.getLsbD 0 else true
  | .ctl _ d a b => destOk c row.d false d && kindOk c true row.a a && b.all (kindOk c true row.b)
  | .alu2 op g =>
    destOk c row.d g.n g.d && kindOk c row.uni row.a g.a && kindOk c (row.uni || op = 0x76) row.b g.b
      && ((g.pre.bind (·.c)).all (opndOk c row.uni false))
  | .alu1 _ g => destOk c row.d g.n g.d && kindOk c row.uni row.a g.a
  | .aluX op g =>
    if op = 0x3F then specialAssigned g.x && specialWritable g.x && opndOk c true (specialWide g.x) g.a
    else if op = 0x77 then
      destOk c (if g.x = 0x0B then .p else .s) g.n g.d && opndOk c false (g.x = 0x0B) g.a
    else if op = 0x71 then destOk c .v g.n g.d && opndOk c false false g.a
    else destOk c (if g.x = 0x0B then .vp else .v) g.n g.d && opndOk c false (g.x = 0x0B) g.a
  | .aluD _ g => destOk c row.d g.n g.d
  | .imm op g => destOk c .s (g.n && op ≠ 0x3D) g.d
  | .sget g => specialAssigned g.x && destOk c (if specialWide g.x then .p else .s) g.n g.d
  | .maskS _ g => destOk c row.d g.n g.d
  | .maskL g => !g.a.getLsbD 0
  | .expr g =>
    destOk c .v g.n g.d && opndOk c false false g.in0 && opndOk c false false g.in1 && opndOk c false false g.in2
      && opndOk c false false g.in3
  | .memV op g =>
    (!devicePair op || !g.base.getLsbD 0) && (op = 0xA9 || vdataOk c g.sz g.d)
      && g.idx.all (fun r => r.toNat < c.vlimit) && ((g.att.bind (·.c)).all (opndOk c false (g.sz = 3)))
      && ((g.att.getD .default).use ≠ 4 || g.d.toNat + 1 < c.vlimit)
  | .memU op g =>
    (!devicePair op || !g.base.getLsbD 0) && (op = 0xAA || (if g.sz = 4 then g.d &&& 3 = 0 else g.sz ≠ 3 || !g.d.getLsbD 0))
      && ((g.att.bind (·.c)).all (opndOk c true (g.sz = 3)))
  | .lda g =>
    !g.gbase.getLsbD 0 && g.sidx.toNat < c.vlimit && g.gidx.all (fun r => r.toNat < c.vlimit)
      && opndOk c false false g.vb
  | .promote _ _ a b => a.all (fun r => !r.getLsbD 0) && opndOk c true false b
  | .arena d a _ => destOk c .p false d && opndOk c true true a
  | .slot _ _ a _ => kindOk c true row.a a
  | .adrn _ a => opndOk c true false a
  | _ => true

/-- Is the opcode held for a feature that has not been accepted (R73, R74, R373)? DEDUCED, log entry 25. -/
def heldBack (feats : BitVec 256) (op : BitVec 8) (ps : List Word) : Bool :=
  (0xE0 ≤ op && op ≤ 0xE7)
    || ((op = 0xC4 || op = 0xC5) && !feats.getLsbD 1)
    || (0xAB ≤ op && op ≤ 0xAE && !feats.getLsbD 9)
    || (!feats.getLsbD 12 && ps.any (fun w => bits w 24 8 = 0xF2 && bits w 12 3 ≠ 0 && bits w 12 3 < 5))

/-- The instruction that a form stands for. -/
def ofForm : Form → Option Instr
  | .none op =>
    ([(0x00, .nop), (0x0A, .exit), (0x0B, .yield), (0x0F, .tret), (0x10, .bkpt), (0x11, .acquire),
      (0x12, .bar)] : List (Nat × Instr)).lookup op.toNat
  | .br op c off =>
    if op = 0x01 then some (.bra off)
    else if op = 0x02 then some (.brsZ (c.setWidth 6) off)
    else if op = 0x03 then some (.brsNz (c.setWidth 6) off)
    else if op = 0x04 then some (.brmAny (c.setWidth 4) off)
    else if op = 0x05 then some (.brmAll (c.setWidth 4) off)
    else if op = 0x06 then some (.brmNone (c.setWidth 4) off)
    else if op = 0x08 then some (.call (c.setWidth 6) off)
    else none
  | .ctl op d a b =>
    match a, b with
    | .s p, none =>
      if op = 0x07 then some (.jmpi p)
      else if op = 0x09 then some (.ret p)
      else ctlOne op d a
    | .s p, some b =>
      if op = 0x0D then some (.waitv p b)
      else if op = 0xC7 then some (.tsig p b)
      else ctlTwo op a b
    | _, none => ctlOne op d a
    | _, some b => ctlTwo op a b
  | .n8 op x =>
    if op = 0x0E then some (.trap x)
    else if op = 0xD8 then (if x = 0 then some .mwaitTok else if x = 1 then some .mwaitAll else none)
    else none
  | .alu2 op f => (alu2Ops.lookup op.toNat).map (fun k => k f)
  | .alu1 op f => (alu1Ops.lookup op.toNat).map (fun k => k f)
  | .aluX op f => (aluXOps.lookup op.toNat).map (fun k => k f)
  | .aluD op f => (aluDOps.lookup op.toNat).map (fun k => k f)
  | .imm op f => (immOps.lookup op.toNat).map (fun k => k f)
  | .sget f => some (.sget f)
  | .mask2 op f => (mask2Ops.lookup op.toNat).map (fun k => k f)
  | .mask1 op f => (mask1Ops.lookup op.toNat).map (fun k => k f)
  | .maskS op f => (maskSOps.lookup op.toNat).map (fun k => k f)
  | .maskL f => some (.mload f)
  | .expr f => some (.expr f)
  | .memV op f => (memVOps.lookup op.toNat).map (fun k => k f)
  | .memU op f => (memUOps.lookup op.toNat).map (fun k => k f)
  | .fence f => some (.fence f)
  | .lda f => some (.lda f)
  | .promote t q a b =>
    match a with
    | some a => some (.promote t q a b)
    | none => some (.promoteA t q b)
  | .arena d a x => some (.arena d a x)
  | .slot op o a x =>
    match a with
    | .s p =>
      if op = 0xD0 then some (.oclaim o a)
      else if op = 0xD1 then some (.orel o a)
      else if op = 0xD2 then some (.olda o a x)
      else if op = 0xD3 then some (.oldw o p x)
      else none
    | _ =>
      if op = 0xD0 then some (.oclaim o a)
      else if op = 0xD1 then some (.orel o a)
      else if op = 0xD2 then some (.olda o a x)
      else none
  | .mma f => some (.mma f)
  | .aclr t => some (.aclr t)
  | .adrn t a => some (.adrn t a)
where
  ctlOne (op : BitVec 8) (d : BitVec 7) (a : Opnd) : Option Instr :=
    ([(0x0C, .sleep a), (0x13, .barpAnd d a), (0x14, .barpOr d a), (0x15, .barpAdd d a), (0x16, .barpMin d a),
      (0x17, .barpMax d a), (0x19, .waitp a), (0x1A, .bbwait a), (0xC0, .cpost d a), (0xC1, .cpostNb d a),
      (0xC3, .bbinv a), (0xC6, .launch d a), (0xD7, .mtok a)] : List (Nat × Instr)).lookup op.toNat
  ctlTwo (op : BitVec 8) (a b : Opnd) : Option Instr :=
    if op = 0x18 then some (.waittag a b)
    else if op = 0xC2 then some (.bbinit a b)
    else none

/-- Decodes the instruction at the head of the words of a clause: the instruction and the words after it,
or the fault that the first failing check gives (R54). DEDUCED, log entry 21. -/
def decodeOne (c : DecCtx) (ws : List Word) : Except DecFault (Instr × List Word) :=
  let ps := (splitPrefixes ws).1
  match (splitPrefixes ws).2 with
  | [] => .error .badClauseHeader
  | w :: rest =>
    let op := bits w 24 8
    match rowOf op with
    | none => if heldBack c.feats op ps then .error .unnegotiatedFeature else .error .illegalInstruction
    | some row =>
      match parseForm row ps w rest with
      | none => .error .badClauseHeader
      | some (f, codes, after) =>
        if heldBack c.feats op ps then .error .unnegotiatedFeature
        else if row.cls ≠ c.cls ∨ sequenceOk c.cls ps = false ∨ ps.all prefixWordOk = false
            ∨ w &&& row.zero ≠ 0 ∨ extensionOk row w rest = false ∨ formOk row f = false then
          .error .illegalInstruction
        else if codes = false ∨ operandsOk c row f = false then .error .illegalOperand
        else
          match ofForm f with
          | some i => .ok (i, after)
          | none => .error .illegalInstruction

/-- Does an ALU instruction leave a uniform result in its latch (R47, R110)? -/
def uniformResult : Instr → Bool
  | i =>
    match form i with
    | some (.alu2 op _) => op < 0x40
    | some (.alu1 op _) => op < 0x40 || op = 0x7A || op = 0x8A || (0x85 ≤ op && op ≤ 0x87)
    | some (.aluX op _) => op = 0x3F || op = 0x77
    | some (.aluD op _) => op = 0x84 || op = 0x88
    | some (.imm _ _) => true
    | some (.sget _) => true
    | some (.maskS _ _) => true
    | _ => false

/-- The words of an ALU prefix (R62). -/
def aluPreWord (p : AluPre) : Word :=
  ((match p.c with | some _ => 0xF1#32 | none => 0xF0#32) : Word) <<< 24 ||| p.msel.setWidth 32 <<< 20
    ||| p.rm.setWidth 32 <<< 18 ||| (BitVec.ofBool p.z).setWidth 32 <<< 17
    ||| (BitVec.ofBool p.sat).setWidth 32 <<< 16 ||| (BitVec.ofBool p.ftz).setWidth 32 <<< 15
    ||| (BitVec.ofBool p.w).setWidth 32 <<< 14
    ||| (match p.c with | some c => c.code.setWidth 32 | none => 0#32)

/-- The word of a memory attribute prefix (R63). -/
def memAttWord (a : MemAtt) : Word :=
  0xF2#32 <<< 24 ||| a.ord.setWidth 32 <<< 22 ||| a.scope.setWidth 32 <<< 19 ||| a.aop.setWidth 32 <<< 15
    ||| a.use.setWidth 32 <<< 12 ||| (BitVec.ofBool a.nr).setWidth 32 <<< 11
    ||| (BitVec.ofBool a.sx).setWidth 32 <<< 10
    ||| (match a.c with | some c => 1#32 <<< 9 ||| c.code.setWidth 32 | none => 0#32)

/-- The word of a memory offset prefix (R64). -/
def offsetWord (x : BitVec 24) : Word := 0xF3#32 <<< 24 ||| x.setWidth 32

/-- The prefix words of a memory instruction. -/
def memPrefixes (a : Option MemAtt) (x : Option (BitVec 24)) : List Word :=
  (a.map memAttWord).toList ++ (x.map offsetWord).toList

/-- A word of Format A (R56). -/
def wordA (op : BitVec 8) (n : Bool) (d : BitVec 7) (a b : BitVec 8) : Word :=
  op.setWidth 32 <<< 24 ||| (BitVec.ofBool n).setWidth 32 <<< 23 ||| d.setWidth 32 <<< 16
    ||| a.setWidth 32 <<< 8 ||| b.setWidth 32

/-- The words of a form: prefixes, instruction word, extension words, literals (R51). -/
def encodeForm (f : Form) : List Word :=
  let lits := f.opnds.flatMap Opnd.words
  let alu := fun (p : Option AluPre) (w : List Word) => (p.map aluPreWord).toList ++ w ++ lits
  match f with
  | .none op => [wordA op false 0 0 0]
  | .br op c off => [op.setWidth 32 <<< 24 ||| c.setWidth 32 <<< 16 ||| off.setWidth 32]
  | .ctl op d a b => wordA op false d a.code (match b with | some b => b.code | none => 0) :: lits
  | .n8 op x => [wordA op false 0 0 x]
  | .alu2 op g => alu g.pre [wordA op g.n g.d g.a.code g.b.code]
  | .alu1 op g => alu g.pre [wordA op g.n g.d g.a.code 0]
  | .aluX op g => alu g.pre [wordA op g.n g.d g.a.code g.x]
  | .aluD op g => alu g.pre [wordA op g.n g.d 0 0]
  | .imm op g => alu g.pre [wordA op g.n g.d 0 0 ||| g.imm.setWidth 32]
  | .sget g => alu g.pre [wordA 0x3E g.n g.d 0 g.x]
  | .mask2 op g => alu g.pre [wordA op g.n (g.d.setWidth 7) (g.a.setWidth 8) (g.b.setWidth 8)]
  | .mask1 op g => alu g.pre [wordA op g.n (g.d.setWidth 7) (g.a.setWidth 8) 0]
  | .maskS op g => alu g.pre [wordA op g.n g.d (g.a.setWidth 8) 0]
  | .maskL g => alu g.pre [wordA 0x83 g.n (g.d.setWidth 7) (scalarCode g.a) 0]
  | .expr g =>
    alu g.pre [wordA 0x89 g.n g.d g.in0.code g.in1.code,
      g.in2.code.setWidth 32 <<< 24 ||| g.in3.code.setWidth 32 <<< 16 ||| g.ty.setWidth 32 <<< 14
        ||| (g.steps >>> 32).setWidth 32,
      g.steps.setWidth 32]
  | .memV op g =>
    memPrefixes g.att g.off ++ [op.setWidth 32 <<< 24 ||| g.sz.setWidth 32 <<< 21 ||| g.d.setWidth 32 <<< 14
      ||| g.base.setWidth 32 <<< 8 ||| (match g.idx with | some r => 1#32 <<< 7 ||| r.setWidth 32 | none => 0#32)]
      ++ lits
  | .memU op g =>
    memPrefixes g.att g.pre ++ [op.setWidth 32 <<< 24 ||| g.sz.setWidth 32 <<< 21 ||| g.d.setWidth 32 <<< 15
      ||| g.base.setWidth 32 <<< 9 ||| g.off.setWidth 32] ++ lits
  | .fence g => memPrefixes g.att g.off ++ [wordA 0xA8 false 0 0 g.kind] ++ lits
  | .lda g =>
    memPrefixes g.att g.off ++ [0xAF#32 <<< 24 ||| g.lsz.setWidth 32 <<< 22 ||| g.tag.setWidth 32 <<< 19
        ||| g.sbase.setWidth 32 <<< 13 ||| g.sidx.setWidth 32 <<< 6 ||| g.gbase.setWidth 32,
      (match g.gidx with | some r => r.setWidth 32 <<< 25 ||| 1#32 <<< 24 | none => 0#32)
        ||| g.vb.code.setWidth 32 <<< 16] ++ lits
  | .promote t q a b =>
    wordA 0xC4 false (t.setWidth 7 <<< 5 ||| q.setWidth 7)
      (match a with | some a => scalarCode a | none => 0xD0) b.code :: lits
  | .arena d a x => wordA 0xC5 false d a.code x :: lits
  | .slot op o a x => wordA op false (o.setWidth 7) a.code x :: lits
  | .mma g =>
    [wordA 0xD4 false ((BitVec.ofBool g.zc).setWidth 7 <<< 6 ||| (BitVec.ofBool g.na).setWidth 7 <<< 5
      ||| (BitVec.ofBool g.nb).setWidth 7 <<< 4 ||| g.t.setWidth 7) (g.a.setWidth 8) (g.w.setWidth 8)]
  | .aclr t => [wordA 0xD5 false (t.setWidth 7) 0 0]
  | .adrn t a => wordA 0xD6 false (t.setWidth 7) a.code 0 :: lits

/-- The words of an instruction; none for an event, which has no encoding. -/
def encode (i : Instr) : List Word :=
  match form i with
  | some f => encodeForm f
  | none => []

/-- The number of words of an instruction. -/
def wordCount (i : Instr) : Nat := (encode i).length

/-- A context that shuts nothing out: every advertised feature accepted and the largest allotment. -/
def openCtx (cls : Nat) : DecCtx := ⟨cls, Config.advertised, 128, []⟩

/-- The class of an opcode; 0 for an unassigned one. -/
def classOf (op : BitVec 8) : Nat := ((rowOf op).map (·.cls)).getD 0

/-- The class of the instruction at the head of some words. -/
def classAt (ws : List Word) : Nat :=
  match (splitPrefixes ws).2 with
  | w :: _ => classOf (bits w 24 8)
  | [] => 0

/-- The words that hold an instruction of `nbits` bits with value w: its own words, then zeros, up to the
15 words that a clause can hold (R50). -/
def tableWords (nbits w : Nat) : List Word :=
  (List.range 15).map fun k => if 32 * k < nbits then BitVec.ofNat 32 (w / 2 ^ (32 * k)) else 0#32

/-- What the decoder reads from an instruction of the opcode table whose bits are w. -/
def decodeTableWord (nbits w : Nat) : Option Instr :=
  let ws := tableWords nbits w
  match decodeOne (openCtx (classAt ws)) ws with
  | .ok (i, _) => some i
  | .error _ => none

end Sys2Proof
end

