-- ==== Sys2Proof/Machine/Translate.lean ====
section
/-! DEFINITION. Translation and access checks: the two-stage walk (R217 to R227), memory types and sealed
pages (R184, R221 to R223), arenas (R197 to R208), and the pages an access draws (R202, R203). -/

namespace Sys2Proof.Machine

/-- The fault codes that this layer raises (R228, R190, R55). -/
def codePageFault : Nat := 0x10
/-- PERMISSION. -/
def codePermission : Nat := 0x11
/-- TAG_MISMATCH. -/
def codeTagMismatch : Nat := 0x12
/-- STAGE2_FAULT. -/
def codeStage2 : Nat := 0x13
/-- ARENA_BOUNDS. -/
def codeArenaBounds : Nat := 0x20
/-- ARENA_EXHAUSTED. -/
def codeArenaExhausted : Nat := 0x21
/-- STALE_POINTER. -/
def codeStale : Nat := 0x22
/-- ESCAPE. -/
def codeEscape : Nat := 0x23
/-- PROMOTE_POOL_EMPTY. -/
def codePoolEmpty : Nat := 0x24
/-- SEALED_LOAD. -/
def codeSealedLoad : Nat := 0x30
/-- SEALED_STORE. -/
def codeSealedStore : Nat := 0x31
/-- SEALED_COPY. -/
def codeSealedCopy : Nat := 0x32
/-- PROLOGUE_SIDE_EFFECT. -/
def codePrologue : Nat := 0x05
/-- The model's own code of an access to a physical address that does not exist: the machine stops.
DESIGN CHOICE, log entry 17. -/
def codeAbsent : Nat := 0x100

/-- Replayable codes (R228). -/
def replayable (code : Nat) : Bool := code = codePageFault || code = codeStage2 || code = codeArenaExhausted

/-- A fault with a code and an address and nothing else. -/
def faultAt (code : Nat) (addr : DWord) : FaultInfo := ⟨code, 0, addr, 0, 0, 0⟩

/-- The physical address under which the model keeps a byte of a host's memory. -/
def hostKey (b : Bool) (a : Nat) : Nat := (if b then 2 else 1) * Config.paSpace + a

/-- The stack of a physical address under an interleave select (R223). -/
def stackOf (il pa : Nat) : Nat :=
  if il = 8 then pa / 256 % 12
  else if il = 10 then pa / 65536 % 12
  else if il = 11 then 3 * (pa / 206158430208) + pa / 256 % 3
  else pa / 4096 % 12

/-- The home die of a byte (R223): of device memory, by the interleave its region has. -/
def homeDie (s : State) (pa : Nat) : Nat := stackOf ((s.inter.lookup (pa / 2 ^ 29)).getD 9) pa / 3 % 4

/-- Is memory in service at a physical address? Device memory exists there and its home die is not offline (R2, R377);
host memory exists at every address. DESIGN CHOICE, log entry 38. -/
def State.inService (s : State) (a : Nat) : Bool :=
  Config.paSpace ≤ a || (a < Config.deviceBytes && !s.offline.contains (homeDie s a))

/-- Is a place in the memory of a host whose port's link is down (R370)? -/
def State.hostGone (s : State) (a : Nat) : Bool :=
  (Config.paSpace ≤ a && a < 2 * Config.paSpace && !s.portA.link) || (2 * Config.paSpace ≤ a && !s.portB.link)

/-- Does a read of a byte return poisoned data (R370, R374)? DEDUCED, log entry 59. -/
def State.badByte (s : State) (a : Nat) : Bool := s.poison.contains a || s.hostGone a

/-- Does a read that fails on its way reach a place (R374)? -/
def ReadFail.hits (x : ReadFail) (a : Nat) : Bool :=
  match x with
  | .line n => a / 64 = n
  | .host port => Config.paSpace ≤ a && port = decide (2 * Config.paSpace ≤ a)

/-- Does a read that is made at once return poisoned data: of a byte that is poisoned, or on its way (R374)? -/
def State.badNow (s : State) (a : Nat) : Bool := s.badByte a || s.failing.any (·.hits a)

/-- Reads of places that were made at once are over, and with them the failures on their way. -/
def readOver (l : List Nat) (s : State) : State := { s with failing := s.failing.filter fun x => !l.any x.hits }

/-- A byte of memory. A region of 512 MiB whose mappings differ in interleave reads unspecified data
(R223). -/
def State.readByte (s : State) (a : Nat) : Byte :=
  if s.mixed.contains (a / 2 ^ 29) then Config.freeByte s.free a else Memory.read s.mem a

/-- Bytes of memory from an address on. -/
def State.readBytes (s : State) (a n : Nat) : List Byte := (List.range n).map fun i => s.readByte (a + i)

/-- Fields of a table entry (R218). -/
def eValid (e : BitVec 128) : Bool := e.getLsbD 63
/-- LEAF. -/
def eLeaf (e : BitVec 128) : Bool := e.getLsbD 62
/-- ADDR. -/
def eAddr (e : BitVec 128) : Nat := field e 0 52
/-- R. -/
def eR (e : BitVec 128) : Bool := e.getLsbD 96
/-- W. -/
def eW (e : BitVec 128) : Bool := e.getLsbD 97
/-- X. -/
def eX (e : BitVec 128) : Bool := e.getLsbD 98
/-- USER. -/
def eUser (e : BitVec 128) : Bool := e.getLsbD 99
/-- MTYPE: 0 NORMAL, 1 SEALED, 2 HOST, 3 UNCACHED_IO. -/
def eMtype (e : BitVec 128) : Nat := field e 100 2
/-- ORD: 0 SO, 1 RC, 2 UN. -/
def eOrd (e : BitVec 128) : Nat := field e 102 2
/-- TAGEN. -/
def eTagen (e : BitVec 128) : Bool := e.getLsbD 104
/-- RDUP. -/
def eRdup (e : BitVec 128) : Bool := e.getLsbD 105
/-- SWZ. -/
def eSwz (e : BitVec 128) : Nat := field e 106 4
/-- SIDX. -/
def eSidx (e : BitVec 128) : Nat := field e 110 8
/-- KEYID. -/
def eKeyid (e : BitVec 128) : Nat := field e 118 10

/-- The low address bit that a level translates (R217). -/
def levelShift : Nat → Nat
  | 0 => 46
  | 1 => 35
  | 2 => 29
  | 3 => 21
  | _ => 16

/-- The index bits of a level (R217). -/
def levelBits : Nat → Nat
  | 0 => 12
  | 1 => 11
  | 2 => 6
  | 3 => 8
  | _ => 5

/-- The address of the entry for an address in a table of a level. -/
def entryAddr (table lvl a : Nat) : Nat := table + 16 * (a / 2 ^ levelShift lvl % 2 ^ levelBits lvl)

/-- A table entry is malformed when a field other than VALID, LEAF, ADDR and SW is not zero, when ADDR is
not aligned to the next table, or at level 4 (R218, R219). -/
def tableMalformed (e : BitVec 128) (lvl : Nat) : Bool :=
  lvl ≥ 4 || field e 96 32 ≠ 0 || field e 52 10 ≠ 0 || eAddr e % (16 * 2 ^ levelBits (lvl + 1)) ≠ 0

/-- A stage-1 leaf is malformed when R218, R219, R221 to R223 or a feature that is not accepted (R373)
forbid it. -/
def leafMalformed (feats : BitVec 256) (e : BitVec 128) (lvl : Nat) : Bool :=
  lvl = 0 || field e 52 10 ≠ 0 || eAddr e % 2 ^ levelShift lvl ≠ 0 || eOrd e = 3 || eSwz e ≥ 12
    || (eMtype e = 2 && eSidx e > 1) || ((eMtype e = 0 || eMtype e = 3) && eSidx e ≠ 0)
    || (eMtype e = 1 && (eRdup e || eX e))
    || (eMtype e ≥ 2 && (eSwz e ≠ 0 || eTagen e || eRdup e || eX e))
    || (!feats.getLsbD 11 && eOrd e = 2) || (!feats.getLsbD 10 && eRdup e) || (!feats.getLsbD 9 && eTagen e)
    || (!feats.getLsbD 0 && eMtype e = 1)

/-- A stage-2 leaf may set only VALID, LEAF, ADDR, SW, R, W, X and MTYPE, and MTYPE is not SEALED
(R225). -/
def leaf2Malformed (e : BitVec 128) (lvl : Nat) : Bool :=
  lvl = 0 || field e 52 10 ≠ 0 || eAddr e % 2 ^ levelShift lvl ≠ 0 || eMtype e = 1 || field e 102 26 ≠ 0
    || eUser e

/-- What the walk of stage 2 gives: the leaf, the physical address and the low bit of the page's number; the
level that faulted; or an entry at an address that does not exist. -/
inductive Walk2 where
  | ok (leaf : BitVec 128) (pa shift : Nat)
  | bad (lvl : Nat)
  | absent (pa : Nat)
deriving DecidableEq, Repr

/-- The walk of stage 2 over an intermediate address, n levels from `lvl` on (R225). -/
def walk2 (s : State) (ia : Nat) : Nat → Nat → Nat → Walk2
  | 0, _, lvl => .bad lvl
  | n + 1, table, lvl =>
    let a := entryAddr table lvl ia
    if !s.inService a then .absent a
    else
      let e := BitVec.ofNat 128 (leNat (s.readBytes a 16))
      if !eValid e then .bad lvl
      else if eLeaf e then
        (if leaf2Malformed e lvl then .bad lvl else .ok e (eAddr e + ia % 2 ^ levelShift lvl) (levelShift lvl))
      else if tableMalformed e lvl then .bad lvl
      else walk2 s ia n (eAddr e) (lvl + 1)

/-- What a translation gives: the combined leaf, the physical address, whether stage 2 took part, and the low
bits of the numbers of the page of both stages together and of the page of stage 1; a PAGE_FAULT with its entry;
a STAGE2_FAULT with the level of stage 1, the intermediate address and the level of stage 2; or an address that
does not exist. -/
inductive Walk where
  | page (leaf : BitVec 128) (pa : Nat) (staged : Bool) (shift shift1 : Nat)
  | bad (malformed : Bool) (lvl : Nat) (entry : BitVec 128)
  | stage2 (lvl1 ia lvl2 : Nat)
  | absent (pa : Nat)
deriving DecidableEq, Repr

/-- R, W and X of both stages, MTYPE of stage 2 when it is HOST or UNCACHED_IO, the rest from stage 1
(R225). -/
def combine (e1 e2 : BitVec 128) : BitVec 128 :=
  let e := setField e1 96 3 (field e1 96 3 &&& field e2 96 3)
  if eMtype e2 ≥ 2 then setField e 100 2 (eMtype e2) else e

/-- The walk of stage 1 (R217, R219), each of its addresses translated by stage 2 where the world has
one (R225, R226). -/
def walk1 (s : State) (s2root : Option Nat) (va : Nat) : Nat → Nat → Nat → Walk
  | 0, _, lvl => .bad true lvl 0
  | n + 1, table, lvl =>
    let ea := entryAddr table lvl va
    let at_ := match s2root with
      | none => Walk2.ok 0 ea 0
      | some r => walk2 s ea 5 r 0
    match at_ with
    | .bad l2 => .stage2 lvl ea l2
    | .absent a => .absent a
    | .ok _ a _ =>
      if !s.inService a then .absent a
      else
        let e := BitVec.ofNat 128 (leNat (s.readBytes a 16))
        if !eValid e then .bad false lvl e
        else if eLeaf e then
          if leafMalformed s.accepted e lvl then .bad true lvl e
          else
            let ia := eAddr e + va % 2 ^ levelShift lvl
            match s2root with
            | none => .page e ia false (levelShift lvl) (levelShift lvl)
            | some r =>
              match walk2 s ia 5 r 0 with
              | .bad l2 => .stage2 lvl ia l2
              | .absent a => .absent a
              | .ok e2 pa sh => .page (combine e e2) pa true (min sh (levelShift lvl)) (levelShift lvl)
        else if tableMalformed e lvl then .bad true lvl e
        else walk1 s s2root va n (eAddr e) (lvl + 1)

/-- Who makes an access (R221). -/
inductive Party where
  | strand
  | engine
  | moon
  | host
deriving DecidableEq, Repr

/-- The TLBs that an access looks in (R220): a strand's, the first level of its core and the last level of its
die; any other party's, the last level of the die at which it is made. DEDUCED, log entry 9. -/
def tlbsOf (s : State) (party : Party) (die : Nat) : List TlbPlace :=
  if party = .strand then [.core s.blk.core, .die die] else [.die die]

/-- Does an entry translate an address of a world? -/
def TlbEntry.covers (t : TlbEntry) (key va : Nat) : Bool := t.key = key && t.page = va / 2 ^ t.shift

/-- The cached translations of an address that an access may use. -/
def tlbHits (s : State) (places : List TlbPlace) (key va : Nat) : List TlbEntry :=
  s.tlb.filter fun t => places.contains t.place && t.covers key va

/-- Translates a virtual address of 58 bits: by the walk or by one of the cached translations, old or new, that
have not been invalidated, by a free choice (R220, R227). DESIGN CHOICE, log entry 9. -/
def translate (s : State) (w : World) (places : List TlbPlace) (va : Nat) : Walk :=
  let hits := tlbHits s places w.key va
  match hits[Config.freeTlb (s.free * 2 ^ 64 + va / 65536) % (hits.length + 1)]? with
  | some t => .page t.leaf (t.pa + va % 2 ^ t.shift) t.staged t.shift t.shift1
  | none => walk1 s w.s2root va 5 w.s1root 0

/-- How many entries of a page size a TLB holds, the sizes that share them, and whether an entry is of those
(R220). -/
def TlbPlace.room (p : TlbPlace) (shift : Nat) : Nat :=
  match p with
  | .core _ => 64
  | .die _ => if shift ≤ 21 then 4096 else if shift = 29 then 512 else 16

/-- Do two page sizes share the entries of a TLB (R220)? -/
def TlbPlace.shared (p : TlbPlace) (a b : Nat) : Bool :=
  match p with
  | .core _ => true
  | .die _ => a = b || (a ≤ 21 && b ≤ 21)

/-- A TLB takes an entry: it takes the place of an entry of the same page, and of any entry of its kind where
the TLB is full. DESIGN CHOICE, log entry 9. -/
def tlbPut (free : Nat) (l : List TlbEntry) (t : TlbEntry) : List TlbEntry :=
  let l := l.filter fun x => !(x.place = t.place && x.key = t.key && x.shift = t.shift && x.page = t.page)
  let mine := l.filter fun x => x.place = t.place && t.place.shared x.shift t.shift
  if mine.length < t.place.room t.shift then t :: l
  else
    match mine[Config.freeNat free (2 ^ 72 + t.page) % mine.length]? with
    | some v => t :: l.filter (· ≠ v)
    | none => t :: l

/-- The interleave select that a swizzle select counts as (R223). -/
def interleaveOf (swz : Nat) : Nat := if swz ≤ 7 then 9 else swz

/-- Records a translation: the cached entries and the interleave of its 512 MiB region, which every page of device
memory has (R223). -/
def noteTranslation (s : State) (w : World) (places : List TlbPlace) (va : Nat) (leaf : BitVec 128) (pa : Nat)
    (staged : Bool) (shift shift1 : Nat) : State :=
  let entry := fun (p : TlbPlace) => (⟨p, w.key, va / 2 ^ shift, shift, shift1, leaf, pa - pa % 2 ^ shift, staged⟩ : TlbEntry)
  let s := { s with tlb := places.foldl (fun l p => tlbPut s.free l (entry p)) s.tlb }
  if eMtype leaf = 2 then s
  else
    let region := pa / 2 ^ 29
    let il := interleaveOf (eSwz leaf)
    match s.inter.lookup region with
    | none => { s with inter := (region, il) :: s.inter }
    | some old => if old = il then s else { s with mixed := insertNew region s.mixed }

/-- The key of the byte of memory that a leaf gives to a virtual address: the host's memory for a HOST
page (R221), and the swizzled place within the page otherwise (R223). -/
def placeOf (leaf : BitVec 128) (va pa : Nat) : Nat :=
  if eMtype leaf = 2 then hostKey (eSidx leaf = 1) pa
  else
    let z := eSwz leaf
    if 1 ≤ z ∧ z ≤ 7 then
      let x := (va / 2 ^ (z + 9)) % 8
      let y := pa / 128 % 8
      pa - 128 * y + 128 * (x ^^^ y)
    else pa

/-- The kinds of access that the checks tell apart. -/
inductive Access where
  | load (prologue : Bool)
  | store
  | atomic (aop : Nat)
  | pref (prologue : Bool)
  | tagld
  | tagst
  | fetch
  | oldw
  | lda
  | copyRead
  | copyWrite
  | waitv
  | read
  | write
deriving DecidableEq, Repr

/-- The access kind of a report to the hypervisor (R226): 0 a read, 1 a write, 2 an atomic, 3 a fetch of code.
DESIGN CHOICE, log entry 81. -/
def Access.code : Access → Nat
  | .store => 1
  | .tagst => 1
  | .copyWrite => 1
  | .write => 1
  | .atomic _ => 2
  | .fetch => 3
  | _ => 0

/-- Does the access need read permission (R221)? -/
def Access.needsR : Access → Bool
  | .load _ => true
  | .atomic _ => true
  | .pref _ => true
  | .tagld => true
  | .oldw => true
  | .lda => true
  | .copyRead => true
  | .waitv => true
  | .read => true
  | _ => false

/-- Does the access need write permission (R221)? -/
def Access.needsW : Access → Bool
  | .store => true
  | .atomic _ => true
  | .tagst => true
  | .copyWrite => true
  | .write => true
  | _ => false

/-- The fault of an access by permission and memory type, for a part of an access of `size` bytes in all
(R221, R184, R28). -/
def typeFault (party : Party) (k : Access) (size : Nat) (leaf : BitVec 128) : Option Nat :=
  if party = .strand ∧ eUser leaf = false then some codePermission
  else if (k.needsR && !eR leaf) || (k.needsW && !eW leaf) || (k = .fetch && !eX leaf) then some codePermission
  else if eMtype leaf = 1 then
    match k with
    | .oldw => none
    | .read => none
    | .write => none
    | .fetch => some codePermission
    | .store => some codeSealedStore
    | .tagst => some codeSealedStore
    | .copyWrite => some codeSealedStore
    | _ => some codeSealedLoad
  else if eMtype leaf = 2 then
    match k with
    | .read => none
    | .write => none
    | .load _ => if size = 4 ∨ size = 8 then none else some codePermission
    | .store => if size = 4 ∨ size = 8 then none else some codePermission
    | .waitv => none
    | .copyRead => none
    | .copyWrite => none
    | .atomic aop => if (size = 4 ∨ size = 8) ∧ (aop = 0 ∨ aop = 8 ∨ aop = 9) then none else some codePermission
    | .pref _ => none
    | _ => some codePermission
  else if eMtype leaf = 3 then
    match k with
    | .oldw => some codePermission
    | .atomic _ => some codePermission
    | .load true => some codePrologue
    | .pref true => some codePrologue
    | _ => none
  else none

/-- What a page says to an access, once its checks have passed: the bytes' places in memory, order kind,
memory type, RDUP, key id, sealed-table index and the low bit of stage 1's page numbers (zero in an arena). -/
structure PagePart where
  pas : List Nat
  ord : Nat
  mtype : Nat
  rdup : Bool
  key : Nat
  sidx : Nat
  shift : Nat
deriving DecidableEq, Repr

/-- SPACE of a pointer (R197). -/
def ptrSpace (p : DWord) : Nat := field p 58 2
/-- The plain virtual address of a pointer (R197). -/
def ptrVa (p : DWord) : Nat := field p 0 58
/-- TAG of a pointer. -/
def ptrTag (p : DWord) : Nat := field p 60 4
/-- GEN of an arena pointer. -/
def ptrGen (p : DWord) : Nat := field p 48 10

/-- The slot that an arena pointer's fields name; none when they name no slot (R198). -/
def ptrSlot (p : DWord) : Option SlotId :=
  if ptrSpace p = 1 then some (.grid (field p 38 10))
  else if ptrSpace p = 2 then some (.block (field p 46 2) (field p 32 14))
  else if ptrSpace p = 3 then
    if field p 41 5 ≥ Config.clustersPerDie ∨ field p 28 7 ≥ Config.gwidth then none
    else some (.thread (96 * field p 46 2 + 4 * field p 41 5 + field p 39 2) (field p 35 4) (field p 28 7)
      (field p 24 4))
  else none

/-- OFFSET of an arena pointer (R198). -/
def ptrOffset (p : DWord) : Nat :=
  if ptrSpace p = 1 then field p 0 38 else if ptrSpace p = 2 then field p 0 32 else field p 0 24

/-- The record of a slot that nothing has used (R204, R207). -/
def SlotRec.fresh (id : SlotId) : SlotRec := ⟨id, 0, 0, 0, 0, 0, 0, 0, 0, [], [], .none⟩

/-- The record of a slot (R207). -/
def slotRec (s : State) (id : SlotId) : SlotRec := (s.slots.find? (fun r => r.id = id)).getD (.fresh id)

/-- Writes the record of a slot. -/
def setSlotRec (s : State) (r : SlotRec) : State :=
  { s with slots := r :: s.slots.filter (fun x => x.id ≠ r.id) }

/-- The page size of a slot (R201). -/
def slotPage : SlotId → Nat
  | .grid _ => 2097152
  | _ => 65536

/-- The die whose pool backs a slot (R202): its DIE field, or the accessing party's die for a grid
arena. -/
def slotDie (id : SlotId) (die : Nat) : Nat :=
  match id with
  | .grid _ => die
  | .block d _ => d
  | .thread c _ _ _ => c / 96

/-- Is the slot live for a world (R208)? -/
def slotLiveFor (r : SlotRec) (key : Nat) : Bool := r.state = 1 && r.world = key

/-- EXTRA of a STALE_POINTER record (R347). -/
def staleExtra (s : State) (key : Nat) (p : DWord) : BitVec 32 :=
  match ptrSlot p with
  | none => BitVec.ofNat 32 (ptrGen p + 2 ^ 29)
  | some id =>
    let r := slotRec s id
    if r.state ≠ 0 ∧ r.world ≠ key then BitVec.ofNat 32 (ptrGen p + 2 ^ 28)
    else BitVec.ofNat 32 (ptrGen p + 2 ^ 16 * r.gen.toNat + 2 ^ 26 * r.state)

/-- Takes a page from a world's pool of a die; the pool's world is written back by the caller (R202). -/
def takePage (w : World) (die : Nat) (big : Bool) : Option (Nat × World) :=
  match w.pools.find? (fun p => p.die = die && p.big = big) with
  | some ⟨_, _, pa :: rest⟩ =>
    some (pa, { w with pools := update (fun p => p.die = die && p.big = big) (fun p => { p with pages := rest }) w.pools })
  | _ => none

/-- What a check gives: a passed part with the state and world after any first touch, or a fault. -/
inductive Checked where
  | ok (part : PagePart) (s : State) (w : World)
  | bad (f : FaultInfo)

/-- Bytes are zeroed, as of a page drawn from a pool, which reads zeros (R202), or by the scrub: no poison, tag (R222)
or copy in a cache is left, and their lines read under any key id. -/
def zeroPage (s : State) (a n : Nat) : State :=
  let hit := fun (x : Nat) => a ≤ x && x < a + n
  { s with
    mem := Memory.clear s.mem a n
    poison := s.poison.filter (fun x => !hit x)
    lineKeys := s.lineKeys.filter (fun x => !hit (64 * x.1))
    memTags := s.memTags.filter (fun x => !hit (32 * x.1.1))
    l1 := s.l1.filter (fun x => !hit (64 * x.line))
    dups := s.dups.filter (fun x => !hit (64 * x.line)) }

/-- The checks of R208 on a part of an access that lies in one page of an arena, and the first touch of
R202. `draw` is false where a page that is not backed draws none. DEDUCED, log entry 32. -/
def checkArena (s : State) (w : World) (die : Nat) (k : Access) (draw : Bool) (p : DWord) (n : Nat) : Checked :=
  let stale : FaultInfo := ⟨codeStale, 0, p, 0, staleExtra s w.key p, 0⟩
  match ptrSlot p with
  | none => .bad stale
  | some id =>
    let r := slotRec s id
    if !slotLiveFor r w.key ∨ r.gen.toNat ≠ ptrGen p then .bad stale
    else if ptrOffset p + n > r.cap then .bad (faultAt codeArenaBounds p)
    else if k = .fetch ∨ k = .tagld ∨ k = .tagst then .bad (faultAt codePermission p)
    else
      let psize := slotPage id
      let page := ptrOffset p / psize
      let part := fun (base : Nat) => (⟨(List.range n).map (fun i => base + ptrOffset p % psize + i), 1, 0, false,
        w.key, 0, 0⟩ : PagePart)
      match r.pages.lookup page with
      | some base => .ok (part base) s w
      | none =>
        if draw then
          match takePage w (slotDie id die) (psize = 2097152) with
          | none => .bad (faultAt codeArenaExhausted p)
          | some (pa, w) =>
            .ok (part pa) (setSlotRec (zeroPage s pa psize) { r with
              pages := r.pages ++ [(page, pa)]
              dies := r.dies ++ [(page, slotDie id die)] }) w
        else .bad (faultAt codeArenaExhausted p)

/-- The fault that a failed walk raises at a pointer (R219, R226, R347). A STAGE2_FAULT carries its report until it is
told: the intermediate address, and both levels with the access kind. -/
def walkFault (k : Access) (p : DWord) : Walk → FaultInfo
  | .stage2 l1 ia l2 => ⟨codeStage2, 0, p, BitVec.ofNat 64 ia, BitVec.ofNat 32 (l1 + 8 * l2 + 64 * k.code), 0⟩
  | .bad m lvl e =>
    ⟨codePageFault, (if m then 1 else 0) + 2 * lvl, p, BitVec.ofNat 64 (field e 0 64), BitVec.ofNat 32 (field e 96 32), 0⟩
  | .absent a => ⟨codeAbsent, 0, BitVec.ofNat 64 a, 0, 0, 0⟩
  | _ => faultAt codeStage2 p

/-- The level of stage 1 whose pages have a number with a low bit (R217). -/
def levelOf (shift : Nat) : Nat := if shift = 16 then 4 else if shift = 21 then 3 else if shift = 29 then 2 else 1

/-- Is a place of memory in a page that backs an arena? No plain address reaches one (R202). -/
def backsArena (s : State) (a : Nat) : Bool :=
  s.slots.any fun r => r.pages.any fun p => p.2 ≤ a && a < p.2 + slotPage r.id

/-- The checks on a part of an access that lies in one page of plain space (R229): the walk, permission,
memory type, tags. A leaf that reaches a backing page counts as malformed. DEDUCED, log entry 91. -/
def checkPlain (s : State) (w : World) (party : Party) (die : Nat) (k : Access) (size : Nat) (p : DWord) (n : Nat) : Checked :=
  let places := tlbsOf s party die
  match translate s w places (ptrVa p) with
  | .page leaf pa staged shift shift1 =>
    let s := noteTranslation s w places (ptrVa p) leaf pa staged shift shift1
    match typeFault party k size leaf with
    | some c => .bad (faultAt c p)
    | none =>
      let pas := (List.range n).map fun i => placeOf leaf (ptrVa p + i) (pa + i)
      if pas.any (backsArena s) then .bad (walkFault k p (.bad true (levelOf shift1) leaf))
      else if eMtype leaf ≠ 2 ∧ pas.any (fun a => !s.inService a) then
        .bad ⟨codeAbsent, 0, BitVec.ofNat 64 pa, 0, 0, 0⟩
      else if k = .tagld ∨ k = .tagst then
        if eTagen leaf then .ok ⟨pas, eOrd leaf, eMtype leaf, eRdup leaf, eKeyid leaf, eSidx leaf, shift1⟩ s w
        else .bad (faultAt codePermission p)
      else if eTagen leaf ∧ (party = .strand ∨ party = .engine) ∧ k ≠ .fetch ∧ !(k matches .pref _)
          ∧ pas.any (fun a => ((s.memTags.lookup (a / 32, eKeyid leaf)).getD 0#4).toNat ≠ ptrTag p) then
        .bad (faultAt codeTagMismatch p)
      else .ok ⟨pas, eOrd leaf, eMtype leaf, eRdup leaf, eKeyid leaf, eSidx leaf, shift1⟩ s w
  | r => .bad (walkFault k p r)

/-- The checks on a part of an access that lies in one page (R229). -/
def checkPart (s : State) (w : World) (party : Party) (die : Nat) (k : Access) (draw : Bool) (size : Nat)
    (p : DWord) (n : Nat) : Checked :=
  if ptrSpace p = 0 then checkPlain s w party die k size p n else checkArena s w die k draw p n

/-- The parts of an access of n bytes, cut at 64 KiB boundaries (R299): offset, address and length. -/
def partsOf (p : DWord) (n : Nat) : Nat → Nat → List (Nat × DWord × Nat)
  | 0, _ => []
  | fuel + 1, off =>
    if off < n then
      let q := p + BitVec.ofNat 64 off
      let len := min (n - off) (65536 - field q 0 16)
      (off, q, len) :: partsOf p n fuel (off + len)
    else []

/-- What the checks of a whole access give: its parts, each with its offset and address, or the fault of the
first part that fails. -/
inductive CheckedAll where
  | ok (parts : List (Nat × DWord × PagePart)) (s : State) (w : World)
  | bad (f : FaultInfo)

/-- Checks parts in order, the lower address first (R229). DEDUCED, log entry 29. -/
def checkParts (party : Party) (die : Nat) (k : Access) (draw : Bool) (size : Nat) :
    List (Nat × DWord × Nat) → State → World → CheckedAll
  | [], s, w => .ok [] s w
  | (off, p, n) :: t, s, w =>
    match checkPart s w party die k draw size p n with
    | .bad f => .bad f
    | .ok part s w =>
      match checkParts party die k draw size t s w with
      | .bad f => .bad f
      | .ok ps s w => .ok ((off, p, part) :: ps) s w

/-- Checks an access of n bytes at a pointer (R229). -/
def checkAccess (s : State) (w : World) (party : Party) (die : Nat) (k : Access) (draw : Bool) (p : DWord) (n : Nat) :
    CheckedAll :=
  checkParts party die k draw n (partsOf p n (n / 65536 + 2) 0) s w

/-- The places of every byte of checked parts, in order. -/
def allPas (parts : List (Nat × DWord × PagePart)) : List Nat := parts.flatMap (fun x => x.2.2.pas)

end Sys2Proof.Machine
end

