-- ==== Sys2Proof/Machine/Ops.lean ====
section
/-! DEFINITION. The named operations over registers and state: focus, registers, time, the clause, fault
records and their delivery (R345 to R348), the entry of a user trap and the return from it (R126, R128). -/

namespace Sys2Proof.Machine

/-- An outcome of the machine. -/
abbrev Out := Host.Outcome State Fault Refusal

/-- Continues an outcome that is a next state. -/
def Out.andThen (o : Out) (f : State → Out) : Out :=
  match o with
  | .next s => f s
  | .fault r => .fault r
  | .refused r => .refused r

/-! ### The fields of the launch record (R319) -/

/-- A field of the grid's record. -/
def Grid.rf (g : Grid) (lo n : Nat) : Nat := field g.record lo n
/-- TOLERANT. -/
def Grid.tolerant (g : Grid) : Bool := g.record.getLsbD 28
/-- CONTINUE. -/
def Grid.continue_ (g : Grid) : Bool := g.record.getLsbD 29
/-- TWIN. -/
def Grid.twin (g : Grid) : Bool := g.record.getLsbD 27
/-- FIXED. -/
def Grid.fixed (g : Grid) : Bool := g.record.getLsbD 26
/-- GX, GY, GZ. -/
def Grid.gdim (g : Grid) (k : Nat) : Nat := g.rf (128 + 16 * k) 16
/-- BX, BY, BZ, with bit 11 from BXH, BYH, BZH. -/
def Grid.bdim (g : Grid) (k : Nat) : Nat := g.rf (176 + 11 * k) 11 + 2048 * g.rf (317 + k) 1
/-- Blocks of the grid (R15). -/
def Grid.nblocks (g : Grid) : Nat := g.gdim 0 * g.gdim 1 * g.gdim 2
/-- Threads of a block (R14). -/
def Grid.threads (g : Grid) : Nat := g.bdim 0 * g.bdim 1 * g.bdim 2
/-- Strands of a block (R14). -/
def Grid.nstrands (g : Grid) : Nat := ceilDiv g.threads Config.gwidth
/-- ENTRY. -/
def Grid.entry (g : Grid) : DWord := BitVec.ofNat 64 (g.rf 64 64)
/-- The fault area's address (FAULTS). -/
def Grid.faultArea (g : Grid) : DWord := BitVec.ofNat 64 (64 * g.rf 384 52)
/-- Vector registers per thread: prologue and full allotment. -/
def Grid.vregs (g : Grid) (granted : Bool) : Nat := 8 * (if granted || g.fixed then g.rf 223 5 else g.rf 209 5)
/-- Scratchpad bytes. -/
def Grid.scratchBytes (g : Grid) (granted : Bool) : Nat :=
  1024 * (if granted || g.fixed then g.rf 228 9 else g.rf 214 9)
/-- Operand slots; none in the prologue (R27). -/
def Grid.nslots (g : Grid) (granted : Bool) : Nat := if granted || g.fixed then g.rf 237 6 else 0
/-- Accumulator tiles; none in the prologue (R27). -/
def Grid.ntiles (g : Grid) (granted : Bool) : Nat := if granted || g.fixed then g.rf 243 5 else 0
/-- SBM bytes per die. -/
def Grid.sbmBytes (g : Grid) : Nat := 4096 * g.rf 248 14
/-- Arena caps in bytes: thread, block, grid. -/
def Grid.tcap (g : Grid) : Nat := 65536 * g.rf 262 9
/-- Block arena cap. -/
def Grid.bcap (g : Grid) : Nat := 65536 * g.rf 271 17
/-- Grid arena cap. -/
def Grid.gcap (g : Grid) : Nat := 2097152 * g.rf 288 18

/-- Is the block in its prologue (R28, R33)? -/
def State.prologue (s : State) : Bool := !s.blk.granted && !s.grd.fixed
/-- The strand's vector allotment (R23). -/
def State.vlimit (s : State) : Nat := s.grd.vregs s.blk.granted
/-- The block's scratchpad allotment in bytes. -/
def State.scratchLimit (s : State) : Nat := s.grd.scratchBytes s.blk.granted
/-- The block's slot allotment. -/
def State.slotLimit (s : State) : Nat := if s.grd.twin then s.grd.nslots s.blk.granted else 0
/-- The block's tile allotment. -/
def State.tileLimit (s : State) : Nat := if s.grd.twin then s.grd.ntiles s.blk.granted else 0

/-! ### Time (R42) -/

/-- The cluster of a core, of the 96 of the package. -/
def clusterOf (core : Nat) : Nat := core / Config.coresPerCluster
/-- The die of a core. -/
def dieOf (core : Nat) : Nat := core / 96
/-- CLOCK of a core's cluster. -/
def State.clockOf (s : State) (core : Nat) : DWord := nth 0#64 s.clocks (clusterOf core)
/-- CLOCK of the cluster on which the focus strand runs. -/
def State.clock (s : State) : DWord := s.clockOf s.blk.core

/-- PLACE of the focus strand (R25). -/
def State.place (s : State) : Word :=
  BitVec.ofNat 32 (s.st.slot + 16 * (s.blk.core % 4) + 64 * (s.blk.core / 4 % 24) + 2048 * (s.blk.core / 96))

/-! ### Focus -/

/-- The focus strand's reference. -/
def Strand.ref (t : Strand) : StrandRef := ⟨t.grid, t.block, t.idx⟩
/-- Is the strand there? -/
def Strand.here (t : Strand) : Bool := t.status ≠ .absent
/-- The focus block's strands, the focus strand among them. -/
def State.strands (s : State) : List Strand := if s.st.here then s.st :: s.blk.strands else s.blk.strands
/-- The focus block whole: with the focus strand among its strands. -/
def State.wholeBlock (s : State) : Block := { s.blk with strands := s.strands }
/-- Every block that is resident. -/
def State.allBlocks (s : State) : List Block := if s.blk.live then s.wholeBlock :: s.blocks else s.blocks
/-- Every grid. -/
def State.allGrids (s : State) : List Grid := if s.grd.live then s.grd :: s.grids else s.grids
/-- Every key handle and anonymous world. -/
def State.allWorlds (s : State) : List World := if s.wld.key ≠ 0 then s.wld :: s.worlds else s.worlds

/-- Puts the focus strand back among its block's strands. -/
def State.dropStrand (s : State) : State := { s with st := .blank, blk := s.wholeBlock }
/-- Puts the focus block back. -/
def State.dropBlock (s : State) : State :=
  let s := s.dropStrand
  { s with blk := .blank, blocks := if s.blk.live then s.blk :: s.blocks else s.blocks }
/-- Puts the focus grid back. -/
def State.dropGrid (s : State) : State := { s with grd := .blank, grids := s.allGrids }
/-- Puts the focus world back. -/
def State.dropWorld (s : State) : State := { s with wld := .blank, worlds := s.allWorlds }

/-- Brings a world into focus by its key id; the focus world is blank when there is none. -/
def State.focusWorld (s : State) (key : Nat) : State :=
  if s.wld.key = key then s
  else
    let s := s.dropWorld
    match s.worlds.find? (fun w => w.key = key) with
    | some w => { s with wld := w, worlds := s.worlds.filter (fun x => x.key ≠ key) }
    | none => s

/-- Brings a grid and its world into focus. None when no such grid lives. -/
def State.focusGrid (s : State) (id : Nat) : Option State :=
  if s.grd.live ∧ s.grd.id = id then some (s.focusWorld s.grd.key)
  else
    let s := s.dropBlock.dropGrid
    match s.grids.find? (fun g => g.id = id) with
    | some g => some ({ s with grd := g, grids := s.grids.filter (fun x => x.id ≠ id) }.focusWorld g.key)
    | none => none

/-- Brings a resident block, its grid and its world into focus. -/
def State.focusBlock (s : State) (b : BlockRef) : Option State :=
  if s.blk.live ∧ s.blk.grid = b.grid ∧ s.blk.id = b.block then s.focusGrid b.grid
  else
    let s := s.dropBlock
    match s.blocks.find? (fun x => x.grid = b.grid && x.id = b.block) with
    | some x =>
      match s.focusGrid b.grid with
      | some s => some { s with
          blk := x, blocks := s.blocks.filter (fun y => !(y.grid = b.grid && y.id = b.block)) }
      | none => none
    | none => none

/-- Brings a strand, its block, its grid and its world into focus; nothing changes when it is there. -/
def State.focus (s : State) (r : StrandRef) : Option State :=
  if s.st.here ∧ s.st.ref = r then some s
  else
    match s.focusBlock ⟨r.grid, r.block⟩ with
    | none => none
    | some s =>
      if s.st.here ∧ s.st.ref = r then some s
      else
        let s := s.dropStrand
        match s.blk.strands.find? (fun t => t.idx = r.idx) with
        | some t => some { s with
            st := t, blk := { s.blk with strands := s.blk.strands.filter (fun x => x.idx ≠ r.idx) } }
        | none => none

/-- Applies f to every strand of every resident block. -/
def State.mapStrands (f : Strand → Strand) (s : State) : State :=
  { s with
    st := if s.st.here then f s.st else s.st
    blk := { s.blk with strands := s.blk.strands.map f }
    blocks := s.blocks.map fun b => { b with strands := b.strands.map f } }

/-- Applies f to every grid. -/
def State.mapGrids (f : Grid → Grid) (s : State) : State :=
  { s with grd := if s.grd.live then f s.grd else s.grd, grids := s.grids.map f }

/-- Applies f to every world. -/
def State.mapWorlds (f : World → World) (s : State) : State :=
  { s with wld := if s.wld.key ≠ 0 then f s.wld else s.wld, worlds := s.worlds.map f }

/-- The world of a key id. -/
def State.world (s : State) (key : Nat) : Option World := s.allWorlds.find? (fun w => w.key = key)

/-- The grid of a number. -/
def State.grid (s : State) (id : Nat) : Option Grid := s.allGrids.find? (fun g => g.id = id)

/-- Writes a world back to its place. -/
def State.setWorld (s : State) (w : World) : State := s.mapWorlds fun x => if x.key = w.key then w else x

/-- Writes a grid back to its place. -/
def State.setGrid (s : State) (g : Grid) : State := s.mapGrids fun x => if x.id = g.id then g else x

/-- Writes a block that is not in focus, or the focus block without its focus strand, by a function. -/
def State.mapBlock (s : State) (b : BlockRef) (f : Block → Block) : State :=
  if s.blk.live ∧ s.blk.grid = b.grid ∧ s.blk.id = b.block then { s with blk := f s.blk }
  else { s with blocks := update (fun x => x.grid = b.grid && x.id = b.block) f s.blocks }

/-! ### Registers (R22) -/

/-- A scalar register. -/
def Strand.sget (t : Strand) (r : Nat) : Word := nth 0#32 t.s r
/-- A scalar pair: the even register holds bits [31:0] (R4). -/
def Strand.sget64 (t : Strand) (r : Nat) : DWord := t.sget (r + 1) ++ t.sget r
/-- A lane of a vector register. -/
def Strand.vget (t : Strand) (r lane : Nat) : Word := nth 0#32 (nth [] t.v r) lane
/-- A lane of a vector pair. -/
def Strand.vget64 (t : Strand) (r lane : Nat) : DWord := t.vget (r + 1) lane ++ t.vget r lane
/-- A mask register. -/
def Strand.mget (t : Strand) (r : Nat) : BitVec 64 := nth 0#64 t.m r

/-- Clears the error of a register-file word that is written whole before any read (R375). -/
def Strand.healed (t : Strand) (file reg lane : Nat) : List RfError :=
  t.rfErr.filter fun e => !(e.file = file && e.reg = reg && e.lane = lane)

/-- Writes a scalar register; the write ends its promise mark (R45). -/
def Strand.sset (t : Strand) (r : Nat) (x : Word) : Strand :=
  { t with s := put 0#32 t.s r x, marks := t.marks &&& ~~~(1#64 <<< r), rfErr := t.healed 1 r 0 }
/-- Writes a scalar pair. -/
def Strand.sset64 (t : Strand) (r : Nat) (x : DWord) : Strand :=
  (t.sset r (x.setWidth 32)).sset (r + 1) ((x >>> 32).setWidth 32)
/-- Writes one lane of a vector register. -/
def Strand.vsetLane (t : Strand) (r lane : Nat) (x : Word) : Strand :=
  { t with v := put [] t.v r (put 0#32 (nth [] t.v r) lane x), rfErr := t.healed 0 r lane }
/-- Writes a vector register whole. -/
def Strand.vset (t : Strand) (r : Nat) (x : List Word) : Strand := { t with v := put [] t.v r x }
/-- Writes a mask register: bits of absent lanes stay zero (R14). -/
def Strand.mset (t : Strand) (r : Nat) (x : BitVec 64) : Strand :=
  { t with m := put 0#64 t.m r (x &&& t.present), rfErr := t.healed 2 r 0 }

/-- Is a lane's bit set? -/
def laneOn (m : BitVec 64) (lane : Nat) : Bool := m.getLsbD lane
/-- The lanes whose bits are set, in ascending order. -/
def lanesOf (m : BitVec 64) : List Nat := laneIds.filter (laneOn m)
/-- The mask of some lanes. -/
def maskOf (l : List Nat) : BitVec 64 := l.foldl (fun m i => m ||| (1#64 <<< i)) 0#64

/-! ### The clause and the program counter (R13, R53) -/

/-- A strand that a grid's end stops is one that counts as exited (R348). -/
def Strand.gone (t : Strand) : Bool := t.status = .exited || t.status = .faulted || t.status = .absent

/-- The clause ends: the next clause stands at `target`. Orrery's stop takes effect here (R118), and the end
of the grid does (R348). `yld` marks the next clause as the youngest (R38). -/
def endClause (target : DWord) (yld : Bool) (s : State) : State :=
  { s with st := { s.st with
      pc := target
      clause := none
      attempt := none
      promo := none
      fetched := []
      yld := yld || s.st.yld
      age := s.clock.toNat
      status :=
        if s.grd.ended.isSome then .faulted
        else if s.st.bkpt && s.wld.attached then .stopped
        else .ready
      bkpt := false } }

/-- The address after the last word of the open clause (R53, R113). -/
def State.clauseEnd (s : State) : DWord :=
  match s.st.clause with
  | some c => s.st.pc + BitVec.ofNat 64 (4 * c.words.length)
  | none => s.st.pc

/-- An instruction of n words completes: the strand goes on to the next instruction of its clause, or the
clause ends after its last word (R53). -/
def advance (n : Nat) (s : State) : State :=
  match s.st.clause with
  | none => { s with st := { s.st with
      pc := s.st.pc + BitVec.ofNat 64 (4 * n), status := .ready, attempt := none, promo := none, fetched := [] } }
  | some c =>
    match c.words.drop n with
    | [] => endClause s.clauseEnd (s.st.yld) { s with st := { s.st with status := .ready } }
    | w :: ws => { s with st := { s.st with
        pc := s.st.pc + BitVec.ofNat 64 (4 * n)
        clause := some { c with words := w :: ws }
        status := .ready
        attempt := none
        promo := none
        fetched := [] } }

/-- Records the latch of an ALU instruction (R47). -/
def pushLatch (x : Latch) (s : State) : State :=
  match s.st.clause with
  | none => s
  | some c => { s with st := { s.st with clause := some { c with latches := (x :: c.latches).take 4 } } }

/-- The strand waits at its instruction (R39). Once its grid has been ended, it stops there, unless it waits
only for the order of its own accesses (R348). DEDUCED, log entry 27. -/
def waitFor (w : Wait) (s : State) : State :=
  { s with st := { s.st with status := if s.grd.ended.isSome && w ≠ .order then .faulted else .waiting w } }

/-! ### Writing memory -/

/-- Strands that sleep in WAITV on a written line wake and read again (R249). -/
def wakeLines (lines : List Nat) (s : State) : State :=
  s.mapStrands fun t =>
    match t.status with
    | .waiting (.waitv (some l) _) => if l ∈ lines then { t with status := .ready } else t
    | _ => t

/-- Counts a write that a port drops because its link is down (R370). -/
def countDropped (l : List Nat) (s : State) : State :=
  let a := l.any fun x => x < 2 * Config.paSpace
  let b := l.any fun x => 2 * Config.paSpace ≤ x
  { s with
    portA := if a then { s.portA with dropped := s.portA.dropped + 1 } else s.portA
    portB := if b then { s.portB with dropped := s.portB.dropped + 1 } else s.portB }

/-- The lines of places. -/
def linesOf (pas : List Nat) : List Nat := (pas.map (· / 64)).eraseDups

/-- The 64 places of a line. -/
def linePlaces (line : Nat) : List Nat := (List.range 64).map (64 * line + ·)

/-- Places are poisoned. -/
def poisonPlacesAt (l : List Nat) (s : State) : State :=
  { s with poison := l.foldl (fun m a => insertNew a m) s.poison }

/-- The lines among some places that were written under another key id than the one they are read under:
their MAC fails. A line that is poisoned whole is not checked against its MAC (R358). -/
def badLines (s : State) (key : Nat) (pas : List Nat) : List Nat :=
  (linesOf (pas.filter (· < Config.paSpace))).filter fun l =>
    (s.lineKeys.lookup l).any (· ≠ key) && !(linePlaces l).all s.poison.contains

/-- Copies of lines in the L2s of other dies are gone before a write is performed (R232). -/
def dupDrop (lines : List Nat) (s : State) : State :=
  { s with dups := s.dups.filter fun x => !lines.contains x.line }

/-- The places that a write leaves as they were in a line that was written under another key id: they do not
read under the new one (R358). DEDUCED, log entry 68. -/
def tornPlaces (key : Nat) (places : List Nat) (s : State) : List Nat :=
  ((linesOf places).filter fun x => (s.lineKeys.lookup x).any (· ≠ key)).flatMap fun x =>
    ((List.range 64).map (64 * x + ·)).filter fun a => !places.contains a

/-- Bytes written at their places: memory, the poison they clear (R374), the key id of their lines (R358), the copies
that RDUP holders lose (R232), where the write came from (R208), and the strands that wait on their lines (R249). -/
def putPlaces (key : Nat) (outside : Bool) (l : List (Nat × Byte)) (s : State) : State :=
  let places := l.map (·.1)
  let lines := linesOf places
  let keyed := lines.filter fun x => 64 * x < Config.paSpace
  wakeLines lines (dupDrop lines { s with
    mem := Memory.writeAt s.mem l
    poison := (tornPlaces key places s).foldl (fun m a => insertNew a m) (s.poison.filter (fun a => !places.contains a))
    lineKeys := keyed.map (fun x => (x, key)) ++ s.lineKeys.filter (fun x => !keyed.contains x.1)
    hostSlots := (if outside then places else []) ++ s.hostSlots.filter (fun a => !places.contains a)
    ringWrites := s.ringWrites.filter fun x => !places.contains x.1 })

/-- A write of the device: bytes of a host whose link is down are dropped and counted (R370). -/
def writePlaces (key : Nat) (outside : Bool) (l : List (Nat × Byte)) (s : State) : State :=
  let lost := (l.map (·.1)).filter s.hostGone
  if outside || lost.isEmpty then putPlaces key outside l s
  else putPlaces key outside (l.filter fun x => !s.hostGone x.1) (countDropped lost s)

/-! ### Counters (R374, R375) -/

/-- Changes the counters of a die. -/
def countOn (die : Nat) (f : Counters → Counters) (s : State) : State :=
  { s with counts := put Counters.zero s.counts die (f (nth Counters.zero s.counts die)) }

/-- CAP or CURSOR as a slot record shows it: 38 bits, into which the 256 GiB of a largest grid arena do not go,
and what they read then is free (R207, R251). DESIGN CHOICE, log entry 106. -/
def capField (free n : Nat) : Nat := if n < 2 ^ 38 then n else Config.freeNat free (2 ^ 76) % 2 ^ 38

/-! ### Fault records (R345 to R347) -/

/-- The record of a fault of the focus strand (R347). -/
def recordOf (s : State) (f : FaultInfo) (delivered : Bool) : BitVec 512 :=
  BitVec.ofNat 512 (f.code % 256 + 2 ^ 12 * (if delivered then 1 else 0) + 2 ^ 13 + 2 ^ 16 * s.st.idx
    + 2 ^ 20 * (f.detail % 4096) + 2 ^ 32 * s.blk.id + 2 ^ 64 * s.st.pc.toNat + 2 ^ 128 * f.addr.toNat
    + 2 ^ 192 * f.data.toNat + 2 ^ 256 * f.lanes.toNat + 2 ^ 320 * (s.grd.id % 2 ^ 32) + 2 ^ 352 * s.place.toNat
    + 2 ^ 384 * s.clock.toNat + 2 ^ 448 * f.extra.toNat)

/-- The record of a fault or event that no strand takes (R343, R347). It arises in no cluster, so what CLOCK and PLACE
hold is free. DESIGN CHOICE, log entry 92. -/
def plainRecord (free code source : Nat) (gridid : Nat) (addr data : DWord) (extra : BitVec 32) (detail : Nat) : BitVec 512 :=
  BitVec.ofNat 512 (code + 2 ^ 8 * source + 2 ^ 13 + 2 ^ 20 * detail + 2 ^ 128 * addr.toNat + 2 ^ 192 * data.toNat
    + 2 ^ 320 * (gridid % 2 ^ 32) + 2 ^ 352 * (Config.freeNat free (2 ^ 73) % 2 ^ 32)
    + 2 ^ 384 * (Config.freeNat free (2 ^ 73 + 1) % 2 ^ 64) + 2 ^ 448 * extra.toNat)

/-- The place of a fault area's bytes, for the moon cores' writes (R346): the places and their page's key id, a
replayable fault, or unreachable. -/
inductive AreaPlace where
  | at_ (pas : List Nat) (key : Nat)
  | wait (f : FaultInfo)
  | unreachable
deriving DecidableEq, Repr

/-- Where n bytes of a fault area lie (R346). -/
def areaPlace (s : State) (w : World) (a : DWord) (n : Nat) : AreaPlace :=
  match checkAccess s w .moon 0 .write false a n with
  | .ok ps _ _ => if ps.all (fun p => p.2.2.mtype = 0) then .at_ (allPas ps) ((ps.head?.map (fun p => p.2.2.key)).getD 0)
    else .unreachable
  | .bad f => if replayable f.code then .wait f else .unreachable

/-- A count of 32 bits that saturates. -/
def satAdd32 (x n : Nat) : Nat := min (x + n) 0xFFFFFFFF

/-- What became of a write to a fault area. -/
inductive Wrote where
  | done (s : State)
  | wait (f : FaultInfo)
  | unreachable (header : BitVec 512)

/-- A fault area's header as a rise of a count would have left it (R346): what can be read of the header, and else a
free value. -/
def raisedHeader (s : State) (w : World) (a : DWord) (what n : Nat) : BitVec 512 :=
  let h := match checkAccess s w .moon 0 .read false a 64 with
    | .ok ps _ _ =>
      if ps.all (fun x => (badLines s x.2.2.key x.2.2.pas).isEmpty) then
        BitVec.ofNat 512 (leNat ((allPas ps).map s.readByte) % 2 ^ 128)
      else BitVec.ofNat 512 (Config.freeNat s.free (2 ^ 69) % 2 ^ 128)
    | .bad _ => BitVec.ofNat 512 (Config.freeNat s.free (2 ^ 69) % 2 ^ 128)
  let lo := if what = 1 then 96 else 64
  setField h lo 32 (satAdd32 (field h lo 32) n)

/-- Writes a record (what 0) or raises POISONED (1) or TRITREPL (2) by n in a fault area (R345). Bits [511:128] of the
header are written zero. An area whose header is poisoned or fails its MAC is unreachable (R358). -/
def writeArea (s : State) (w : World) (a : DWord) (what n : Nat) (rec : BitVec 512) : Wrote :=
  let lost := if what = 0 then rec else raisedHeader s w a what n
  match areaPlace s w a 64 with
  | .wait f => .wait f
  | .unreachable => .unreachable lost
  | .at_ hp hk =>
    if hp.any (fun x => s.badByte x) || !(badLines s hk hp).isEmpty then .unreachable lost
    else
      let h := BitVec.ofNat 512 (leNat (hp.map s.readByte) % 2 ^ 128)
      let put4 := fun (h : BitVec 512) (s : State) => writePlaces hk false (hp.zip (leBytes 64 h.toNat)) s
      if what = 1 then .done (put4 (setField h 96 32 (satAdd32 (field h 96 32) n)) s)
      else if what = 2 then .done (put4 (setField h 64 32 (satAdd32 (field h 64 32) n)) s)
      else if field h 0 32 < Config.faultRecords then
        match areaPlace s w (a + BitVec.ofNat 64 (64 + 64 * field h 0 32)) 64 with
        | .wait f => .wait f
        | .unreachable => .unreachable rec
        | .at_ rp rk =>
          .done (put4 (setField h 0 32 (field h 0 32 + 1)) (writePlaces rk false (rp.zip (leBytes 64 rec.toNat)) s))
      else .done (put4 (setField h 32 32 (satAdd32 (field h 32 32) 1)) s)

/-- Tells the world owner or the hypervisor. -/
def tell (n : Notice) (s : State) : State := { s with notices := s.notices ++ [n] }

/-- The report of a STAGE2_FAULT to the hypervisor (R226): what the fault carries. -/
def reportStage2 (key : Nat) (f : FaultInfo) (s : State) : State :=
  if f.code = codeStage2 then
    let x := f.extra.toNat
    tell (.stage2 key f.addr (x % 8) f.data.toNat (x / 8 % 8) (x / 64)) s
  else s

/-- Strands of a grid that has been ended stop at a clause boundary, a park point or a wait point (R348).
DEDUCED, log entry 27. -/
def stopStrands (g : Nat) (s : State) : State :=
  s.mapStrands fun t =>
    if t.grid ≠ g then t
    else
      match t.status with
      | .parked _ _ => { t with status := .faulted }
      | .waiting .order => t
      | .waiting _ => { t with status := .faulted }
      | .stopped => { t with status := .faulted }
      | .ready => if t.clause.isNone then { t with status := .faulted } else t
      | _ => t

/-- The children of a grid. -/
def childrenOf (s : State) (g : Nat) : List Nat := (s.allGrids.filter (fun x => x.parent = some g)).map (·.id)

/-- An event of a queue: its notify word is to be written (R372). -/
def Queue.event (x : Queue) (ns : Nat) : Queue :=
  { x with pending := x.pending + 1, sinceNs := if x.pending = 0 then ns else x.sinceNs }

/-- Raises a work queue's FAULTS count for a grid ended by a fault (R372). -/
def countFault (q : Nat) (s : State) : State :=
  let f := fun (x : Queue) => { x with faults := x.faults + 1 }.event s.refNs
  { s with queues := update (fun x => x.index = q) f s.queues }

/-- Marks one grid as ended by a fault of a code. DEDUCED, log entry 80. -/
def markEnded (g code : Nat) (s : State) : State :=
  match s.grid g with
  | none => s
  | some x =>
    if x.ended.isSome then s else countFault x.queue (stopStrands g (s.setGrid { x with ended := some code }))

/-- Writes a record for a grid, now or, after a replayable fault, later; an unreachable fault area ends that
grid. DEDUCED, log entry 28. -/
def recordOne (g : Nat) (what n : Nat) (rec : BitVec 512) (s : State) : State :=
  match s.grid g with
  | none => s
  | some x =>
    match s.world x.key with
    | none => s
    | some w =>
      match writeArea s w x.faultArea what n rec with
      | .done s => s
      | .wait f =>
        reportStage2 x.key f { s with
          pendingRecords := s.pendingRecords ++ [⟨s.recordCount, g, x.key, x.faultArea, what, n, rec⟩]
          recordCount := s.recordCount + 1 }
      | .unreachable h => markEnded g 0 (tell (.unreachable x.key h) s)

/-- Ends the descendants of a grid, level by level, with a record of code 0x72 in each fault area
(R348). -/
def endChildren : Nat → List Nat → State → State
  | 0, _, s => s
  | _ + 1, [], s => s
  | fuel + 1, g :: gs, s =>
    let kids := (childrenOf s g).filter fun k => (s.grid k).any fun x => x.ended.isNone
    let s := kids.foldl (fun s k => markEnded k 0x72 (recordOne k 0 0 (plainRecord s.free 0x72 5 k 0 0 0 0) s)) s
    endChildren fuel (gs ++ kids) s

/-- Ends a grid and its descendants (R348). -/
def endGrid (g code : Nat) (s : State) : State :=
  endChildren (s.allGrids.length + 1) [g] (markEnded g code s)

/-- Writes a record for a grid, or raises a count, as R346 states: where the fault area is unreachable, the grid and
its descendants end whatever CONTINUE holds. -/
def recordAt (g : Nat) (what n : Nat) (rec : BitVec 512) (s : State) : State :=
  let ended := fun (s : State) => (s.grid g).any fun x => x.ended.isSome
  let s1 := recordOne g what n rec s
  if ended s1 && !ended s then endChildren (s1.allGrids.length + 1) [g] s1 else s1

/-- The record of a grid that a failed MAC ends (R359). -/
def macRecord (free g : Nat) : BitVec 512 := plainRecord free 0x50 4 g 0 0 0 0

/-- What a line that fails its MAC again on the second read does at once (R359): it is poisoned, and the event
with its key id, its address and the time goes to the owner; a line of key id 0 stops the device. DEDUCED, log
entry 68. -/
def lineFails (key line : Nat) (s : State) : State :=
  let s := poisonPlacesAt (linePlaces line) s
  if key = 0 then { s with halted := true }
  else tell (.security key (64 * line) s.refNs (sign (leBytes 8 key ++ leBytes 8 (64 * line) ++ leBytes 8 s.refNs))) s

/-- The line of a grid's fault-area header that fails its MAC, with the key id under which it is read (R358). -/
def areaFails (g : Nat) (s : State) : Option (Nat × Nat) :=
  match s.grid g with
  | none => none
  | some x =>
    match s.world x.key with
    | none => none
    | some w =>
      match areaPlace s w x.faultArea 64 with
      | .at_ hp hk => (badLines s hk hp).head?.map fun l => (hk, l)
      | _ => none

/-- Writes a record for a grid, or raises a count. Where the header of its fault area fails its MAC, the line's
world ends (R359). -/
def recordFor (g : Nat) (what n : Nat) (rec : BitVec 512) (s : State) : State :=
  match areaFails g s with
  | none => recordAt g what n rec s
  | some (key, line) =>
    let counted := countOn (homeDie s (64 * line)) (fun c => { c with macRetries := c.macRetries + 1 }) s
    let s := recordAt g what n rec (lineFails key line counted)
    (s.allGrids.filter fun x => key ≠ 0 && x.key = key).foldl
      (fun s x => endGrid x.id 0x50 (recordAt x.id 0 0 (macRecord s.free x.id) s)) s

/-- Ends every grid of a world with a record for each (R359, R226). -/
def endWorld (key code : Nat) (rec : Nat → BitVec 512) (s : State) : State :=
  (s.allGrids.filter (fun g => g.key = key)).foldl (fun s g => endGrid g.id code (recordFor g.id 0 0 (rec g.id) s)) s

/-- Ends every grid of a world. -/
def endGrids (key code : Nat) (s : State) : State :=
  (s.allGrids.filter fun x => x.key = key).foldl (fun s x => endGrid x.id code s) s

/-- The hypervisor declines a stage-2 fault: the world ends, and the record of the grid at fault holds the code,
who took the fault and the virtual address only (R226). DEDUCED, log entry 67. -/
def outerDeclined (source g key : Nat) (p : DWord) (s : State) : State :=
  endGrids key codeStage2 (recordFor g 0 0 (plainRecord s.free codeStage2 source g p 0 0 0) s)

/-- The barrier phase completes when every strand of the block that has not exited waits at it (R19, R121,
R123). Those strands go on; a BARP writes its combination of the payloads of its own opcode. -/
def barrierArrived (t : Strand) : Bool :=
  match t.status with
  | .waiting .bar => true
  | .waiting (.barp _ _ _) => true
  | _ => t.gone

/-- The combination of a BARP opcode (R123): 0x13 and, 0x14 or, 0x15 add, 0x16 min, 0x17 max. -/
def barpCombine (op : Nat) (x y : Word) : Word :=
  if op = 0x13 then x &&& y
  else if op = 0x14 then x ||| y
  else if op = 0x15 then x + y
  else if op = 0x16 then (if x.sle y then x else y)
  else (if x.sle y then y else x)

/-- The payloads that the strands waiting at a BARP opcode brought. -/
def payloads (op : Nat) (l : List Strand) : List Word :=
  l.filterMap fun t =>
    match t.status with
    | .waiting (.barp o x _) => if o = op then some x else none
    | _ => none

/-- The combination of payloads under an opcode. -/
def combined (op : Nat) : List Word → Word
  | [] => 0
  | x :: t => t.foldl (barpCombine op) x

/-- A strand leaves the barrier: its wait is over, and its instruction of one word and its literal completes
when the strand next runs. DESIGN CHOICE, log entry 18. -/
def leaveBarrier (all : List Strand) (t : Strand) : Strand :=
  match t.status with
  | .waiting .bar => { t with status := .ready, attempt := some 0 }
  | .waiting (.barp op _ d) => { (t.sset d (combined op (payloads op all))) with status := .ready, attempt := some 0 }
  | _ => t

/-- Completes the barrier phase of the focus block when every strand has arrived (R19). -/
def completeBarrier (s : State) : State :=
  let all := s.strands
  if all.all barrierArrived then
    { s with st := leaveBarrier all s.st, blk := { s.blk with strands := s.blk.strands.map (leaveBarrier all) } }
  else s

/-! ### Waits that are tested again -/

/-- Makes the strands that p picks run their waiting instruction again. -/
def poke (p : Strand → Wait → Bool) (s : State) : State :=
  s.mapStrands fun t =>
    match t.status with
    | .waiting w => if p t w then { t with status := .ready } else t
    | _ => t

/-- Strands of a block that wait for a matrix operation, a byte barrier or the order of their own accesses
test their waits again. -/
def pokeBlock (b : BlockRef) (s : State) : State :=
  poke (fun t w => t.grid = b.grid && t.block = b.block &&
    match w with
    | .mwait _ _ => true
    | .bbwait => true
    | .order => true
    | _ => false) s

/-- A strand that waits for its own accesses or a tag tests its wait again. -/
def pokeStrand (r : StrandRef) (s : State) : State :=
  poke (fun t w => t.ref = r && match w with | .order => true | .tag => true | .waitp _ _ => true | _ => false) s

/-- The core on which a strand is resident. -/
def coreOf (s : State) (r : StrandRef) : Option Nat :=
  (s.allBlocks.find? fun b => b.grid = r.grid && b.id = r.block).map (·.core)

/-- The token's next holder when its holder exits: the lowest-numbered strand that has not (R160). Waits for the token
are tested again (R171). -/
def passToken (s : State) : State :=
  match s.blk.token with
  | none => s
  | some h =>
    if s.strands.any (fun t => t.idx = h && !t.gone) then s
    else
      match firstFrom (fun k => s.strands.any (fun t => t.idx = k && !t.gone)) 0 Config.strandSlots with
      | some k => pokeBlock ⟨s.blk.grid, s.blk.id⟩ { s with blk := { s.blk with
          token := some k, handover := put 0 s.blk.handover k s.blk.mseq } }
      | none => s

/-- What follows when a strand stops counting in its block: the barrier phase and the token (R19, R160,
R348). -/
def afterStop (s : State) : State := completeBarrier (passToken s)

/-- Slots that p picks stop being live: no access passes the check any more, and ARENA_DESTRUCTION returns
their pages once the accesses that have passed it are finished (R204, R207). -/
def destroySlots (p : SlotRec → Bool) (s : State) : State :=
  { s with slots := update (fun r => r.state = 1 && p r) (fun r => { r with state := 3 }) s.slots }

/-- Is the slot a thread arena of a strand? -/
def threadSlotOf (t : Strand) (r : SlotRec) : Bool :=
  match r.owner with
  | .thread g b i _ => g = t.grid && b = t.block && i = t.idx
  | _ => false

/-- A fault of the focus strand is delivered (R348): its record is written and the strand stops. With CONTINUE = 0 the
grid ends; with CONTINUE = 1 the strand counts as exited, and its thread arenas are destroyed as at EXIT (R18). -/
def delivered (f : FaultInfo) (s : State) : State :=
  let s1 := recordFor s.grd.id 0 0 (recordOf s f true) s
  let s2 := { s1 with st := { s1.st with status := .faulted, clause := none, attempt := none, promo := none, fetched := [] } }
  afterStop (if s2.grd.continue_ then destroySlots (threadSlotOf s2.st) s2 else endGrid s2.grd.id f.code s2)

/-- Delivers a fault to the focus strand. A fault of an address that does not exist stops the machine. -/
def deliver (f : FaultInfo) (s : State) : Out :=
  if f.code = codeAbsent then .fault (.noSuchAddress f.addr.toNat) else .next (delivered f s)

/-- A replayable fault parks the strand at its instruction with its unfinished lanes (R230), and a stage-2 fault is
reported to the hypervisor (R226). Once its grid has been ended, the strand stops there (R348). -/
def park (f : FaultInfo) (left : BitVec 64) (s : State) : State :=
  let status := if s.grd.ended.isSome then Status.faulted else .parked f left
  reportStage2 s.wld.key f { s with st := { s.st with status := status, attempt := some left } }

/-- Parks on a replayable fault or delivers any other (R230). -/
def parkOrDeliver (f : FaultInfo) (left : BitVec 64) (s : State) : Out :=
  if replayable f.code then .next (park f left s) else deliver f s

/-- Takes a user trap (R126), or delivers it as a fault when TRAPVEC is 0 or ACTIVE is 1. -/
def userTrap (code detail : Nat) (resume : DWord) (s : State) : Out :=
  if s.st.trapvec = 0 ∨ s.st.trapcause.getLsbD 0 then
    deliver ⟨code, detail, 0, 0, 0, 0⟩ s
  else
    let s := { s with st := { s.st with
      trapret := resume, trapcause := BitVec.ofNat 32 (code * 2 ^ 24 + detail * 2 ^ 16 + 1) } }
    .next (endClause s.st.trapvec false s)

/-- Returns from a user trap (R128). -/
def trapReturn (s : State) : Out :=
  if s.st.trapcause.getLsbD 0 then
    let s := { s with st := { s.st with trapcause := s.st.trapcause &&& ~~~1#32 } }
    .next (endClause s.st.trapret false s)
  else deliver ⟨0x01, 0, 0, 0, 0, 0⟩ s

end Sys2Proof.Machine
end

