-- ==== Sys2Proof/Machine/Operands.lean ====
section
/-! DEFINITION. Operand values by position (R47, R57, R58, R110), the registers that an instruction reads and
writes, the scoreboard's view of them (R35, R36), the check for register-file errors (R375), and the ways an
ALU instruction writes its destination and its latch (R47, R109). -/

namespace Sys2Proof.Machine

/-- The position in which an operand code of 32 bits stands (R58). -/
inductive Pos where
  | int
  | fp
  | f16
  | bf16
deriving DecidableEq, Repr

/-- The FP32 constants of the codes 0xF0 to 0xF7 (R57). -/
def constWord (c : BitVec 3) : Word :=
  nth 0#32 [0x00000000, 0x3F000000, 0x3F800000, 0x40000000, 0x40800000, 0xBF000000, 0xBF800000, 0xC0000000] c.toNat

/-- Two packed elements of one value (R86). -/
def packTwo (x : Nat) : Word := BitVec.ofNat 32 (x % 65536 + 65536 * (x % 65536))

/-- An inline integer in a position of 32 bits (R58). -/
def inlineInt (p : Pos) (c : BitVec 5) : Word :=
  match p with
  | .int => c.signExtend 32
  | .fp => BitVec.ofNat 32 (intToFp fp32 0 c.toInt)
  | .f16 => packTwo (intToFp fp16 0 c.toInt)
  | .bf16 => packTwo (intToFp bf16 0 c.toInt)

/-- An FP32 constant in a position of 32 bits (R58). -/
def inlineConst (p : Pos) (c : BitVec 3) : Word :=
  match p with
  | .int => constWord c
  | .fp => constWord c
  | .f16 => packTwo (fpConvert fp32 fp16 0 false false (constWord c).toNat)
  | .bf16 => packTwo (fpConvert fp32 bf16 0 false false (constWord c).toNat)

/-- The latch that code 0xC0 + j reads: zero, in a position of either width, where it reaches before the clause's
first instruction (R47). -/
def State.latch (s : State) (j : Nat) : Latch :=
  match s.st.clause with
  | some c => nth (.uni64 0#64) c.latches j
  | none => .uni64 0#64

/-- A latch in a position of 32 bits (R47, R110). -/
def Latch.word (x : Latch) (lane : Nat) : Word :=
  match x with
  | .uni w => w
  | .uni64 d => d.setWidth 32
  | .vec64 l => (nth 0#64 l lane).setWidth 32

/-- What a 64-bit position reads of a 32-bit result: the manual states no bits [63:32], which are free. DESIGN CHOICE,
log entry 2. -/
def widened (w : Word) : DWord := Config.freeHigh w ++ w

/-- A latch in a position of 64 bits: the 64-bit result. -/
def Latch.dword (x : Latch) (lane : Nat) : DWord :=
  match x with
  | .uni w => widened w
  | .uni64 d => d
  | .vec64 l => nth 0#64 l lane

/-- The value of an operand in a position of 32 bits, for a lane. A uniform instruction reads any lane. -/
def opnd32 (p : Pos) (s : State) (lane : Nat) : Opnd → Word
  | .v r => s.st.vget r.toNat lane
  | .s r => s.st.sget r.toNat
  | .l j => (s.latch j.toNat).word lane
  | .int c => inlineInt p c
  | .fc c => inlineConst p c
  | .lit w => w
  | .lit64 d => d.setWidth 32

/-- The value of an operand in a position of 64 bits (R58). -/
def opnd64 (s : State) (lane : Nat) : Opnd → DWord
  | .v r => s.st.vget64 r.toNat lane
  | .s r => s.st.sget64 r.toNat
  | .l j => (s.latch j.toNat).dword lane
  | .int c => c.signExtend 64
  | .fc c => (constWord c).setWidth 64
  | .lit w => w.signExtend 64
  | .lit64 d => d

/-- A uniform integer operand. -/
def State.arg (s : State) (o : Opnd) : Word := opnd32 .int s 0 o
/-- A uniform 64-bit operand. -/
def State.arg64 (s : State) (o : Opnd) : DWord := opnd64 s 0 o

/-- The governing mask's number (R109). -/
def maskNo (p : Option AluPre) : Nat := (p.map (fun x => x.msel.toNat)).getD 0
/-- The active lanes of an ALU instruction (R109). -/
def State.active (s : State) (p : Option AluPre) : BitVec 64 := s.st.mget (maskNo p)
/-- The rounding mode (R62). -/
def rmOf (p : Option AluPre) : Nat := (p.map (fun x => x.rm.toNat)).getD 0
/-- Z (R62). -/
def zOf (p : Option AluPre) : Bool := (p.map (·.z)).getD false
/-- SAT (R62). -/
def satOf (p : Option AluPre) : Bool := (p.map (·.sat)).getD false
/-- FTZ (R62). -/
def ftzOf (p : Option AluPre) : Bool := (p.map (·.ftz)).getD false
/-- The fourth operand, integer 0 where no prefix gives one (R62). -/
def fourthOf (p : Option AluPre) : Opnd := (p.bind (·.c)).getD (.int 0)

/-! ### What an instruction reads and writes -/

/-- A read of a register: file 0 vector, 1 scalar, 2 mask; the lanes and the bits that the read uses, and the
lane that reads where it reads others than its own. -/
structure RegRead where
  file : Nat
  reg : Nat
  lanes : BitVec 64
  bits : Word
  reader : Option Nat
deriving DecidableEq, Repr

/-- A whole read. -/
def readAll (file reg : Nat) (lanes : BitVec 64) : RegRead := ⟨file, reg, lanes, BitVec.allOnes 32, none⟩

/-- A read of n consecutive registers. -/
def readSome (file reg n : Nat) (lanes : BitVec 64) : List RegRead :=
  (List.range n).map fun k => readAll file (reg + k) lanes

/-- The reads of an operand in a position of 32 or 64 bits. -/
def opndReads (wide : Bool) (lanes : BitVec 64) : Opnd → List RegRead
  | .v r => readSome 0 r.toNat (if wide then 2 else 1) lanes
  | .s r => readSome 1 r.toNat (if wide then 2 else 1) 1
  | _ => []

/-- The source lane of a shuffle; none when it is out of range and the lane takes its own value (R144). -/
def shuffleFrom (op : BitVec 8) (i : Nat) (b : Word) : Option Nat :=
  if op = 0x72 then some (i ^^^ (b.toNat % 64))
  else if op = 0x73 then (if b.toNat ≤ i then some (i - b.toNat) else none)
  else if op = 0x74 then (if i + b.toNat < 64 then some (i + b.toNat) else none)
  else some (b.toNat % 64)

/-- The source lanes of A that lane i of an instruction across lanes reads, b being its B: VSHUF (R144), PK3,
UPK3, PK4 and UPK4 (R178 to R180). -/
def sourceLanes (op : BitVec 8) (i : Nat) (b : Word) : List Nat :=
  let at_ := fun (k : Int) => if k < 0 ∨ k ≥ 64 then [] else [k.toNat]
  if op = 0x90 then (List.range 5).flatMap fun (e : Nat) => at_ (b.toInt + 5 * i + (e : Int))
  else if op = 0x91 then (if b.toInt + i < 0 then [] else at_ ((b.toInt + i) / 5))
  else if op = 0x92 then (List.range 8).flatMap fun (e : Nat) => at_ (b.toInt + 8 * i + (e : Int))
  else if op = 0x93 then (if b.toInt + i < 0 then [] else at_ ((b.toInt + i) / 8))
  else [(shuffleFrom op i b).getD i]

/-- Does an instruction read A in lanes that others than its active lanes choose? -/
def readsAcross (op : BitVec 8) : Bool := (0x72 ≤ op && op ≤ 0x76) || (0x90 ≤ op && op ≤ 0x93)

/-- The words of a data register of size SZ (R67). -/
def dataWords (sz : Nat) : Nat := if sz = 4 then 4 else if sz = 3 then 2 else 1

/-- Is the memory opcode, given as its vector form, one whose D is read? -/
def memReadsD (op : BitVec 8) : Bool :=
  op = 0xA2 || op = 0xA4 || op = 0xA6 || op = 0xAD || op = 0xB2 || op = 0xB4 || op = 0xB8 || op = 0xBA

/-- Is the memory opcode, given as its vector form, one that writes D when it returns a value? -/
def memWritesD (op : BitVec 8) : Bool :=
  op = 0xA0 || op = 0xA6 || op = 0xAB || op = 0xB0 || op = 0xB4 || op = 0xB6 || op = 0xBA

/-- Is D written: by a load, or by an atomic that returns its value (R240)? -/
def memReturns (op : BitVec 8) (a : Option MemAtt) : Bool := memWritesD op && !(a.getD .default).nr

/-- The words of D that a memory instruction writes: an spc atomic writes a second register (R241). -/
def memResultWords (sz : Nat) (a : Option MemAtt) : Nat :=
  if (a.getD .default).use = 4 then 2 else dataWords sz

/-- The low bits of its data registers that a store of size SZ uses (R236, R248): all of them from a word on, and the
four of a tag. -/
def storeBits (op : BitVec 8) (sz : Nat) : Word :=
  if op = 0xAD then 0xF#32 else if sz = 0 then 0xFF#32 else if sz = 1 then 0xFFFF#32 else BitVec.allOnes 32

/-- The low bits of A that DQNT and UPK3 use (R177, R179). -/
def narrowBits (op : BitVec 8) : Word :=
  if op = 0x8E ∨ op = 0x91 then 0xFF#32 else if op = 0x8F then 0xF#32 else BitVec.allOnes 32

/-- Reads of which some bits alone are used (R375). -/
def partly (bits : Word) (l : List RegRead) : List RegRead := l.map fun r => { r with bits := bits }

/-- The bits of B and of the fourth operand that an instruction uses in each lane: VBFE the low five, VSHUF.xor and
VSHUF.idx the low six (R139, R144). -/
def indexBits (op : BitVec 8) : Word :=
  if op = 0x5E ∨ op = 0x5F then 0x1F#32 else if op = 0x72 ∨ op = 0x75 then 0x3F#32 else BitVec.allOnes 32

/-- The reads of A across lanes: each active lane reads A in the lanes that its B names (R144, R145, R178 to
R180), of UPK4 one of the eight nibbles. -/
def acrossReads (s : State) (op : BitVec 8) (act : BitVec 64) (a b : Opnd) : List RegRead :=
  opndReads false 0 a ++ (lanesOf act).flatMap fun i =>
    let x := opnd32 .int s i b
    let src := if op = 0x76 then [(s.arg b).toNat % 64] else sourceLanes op i x
    let bits := if op = 0x93 then 0xF#32 <<< (4 * ((x.toInt + i) % 8).toNat) else narrowBits op
    (partly bits (opndReads false (maskOf src &&& s.st.present) a)).map fun r => { r with reader := some i }

/-- What an instruction reads. -/
def readsOf (s : State) : Form → List RegRead
  | .br op c _ =>
    if op = 2 ∨ op = 3 then [readAll 1 (c.toNat % 64) 1]
    else if op = 4 ∨ op = 5 ∨ op = 6 then [readAll 2 (c.toNat % 16) 1]
    else []
  | .ctl op _ a b =>
    opndReads (op = 7 || op = 9 || op = 0x0D || op = 0xC7) 1 a ++ b.toList.flatMap (opndReads false 1)
  | .alu2 op f =>
    let row := rowOf op
    let act := s.active f.pre
    let uni := (row.map (·.uni)).getD true
    (if uni then [] else [readAll 2 (maskNo f.pre) 1])
      ++ (if readsAcross op then acrossReads s op act f.a f.b
          else partly (narrowBits op) (opndReads ((row.map (fun r => r.a == .opw)).getD false) act f.a))
      ++ partly (indexBits op) ((if op = 0x8D then [] else
            opndReads ((row.map (fun r => r.b == .opw || r.b == .pair)).getD false) act f.b)
          ++ (f.pre.bind (·.c)).toList.flatMap (opndReads false act))
  | .alu1 op f =>
    let row := rowOf op
    (if (row.map (·.uni)).getD true then [] else [readAll 2 (maskNo f.pre) 1])
      ++ opndReads ((row.map (fun r => r.a == .opw)).getD false) (s.active f.pre) f.a
  | .aluX op f =>
    if op = 0x3F then opndReads (specialWide f.x) 1 f.a
    else
      let whole := opndReads (op ≠ 0x71 && f.x = 0x0B) (s.active f.pre) f.a
      readAll 2 (maskNo f.pre) 1 ::
        (if op = 0x71 ∧ (f.x = 4 ∨ f.x = 6) then partly 0x0000FFFF whole
         else if op = 0x71 ∧ (f.x = 5 ∨ f.x = 7) then partly 0xFFFF0000 whole
         else whole)
  | .aluD op f => if op = 0x7B then [readAll 2 (maskNo f.pre) 1] else []
  | .imm op f => if op = 0x3D then [readAll 1 f.d.toNat 1] else []
  | .mask2 _ f => [readAll 2 f.a.toNat 1, readAll 2 f.b.toNat 1]
  | .mask1 _ f => [readAll 2 f.a.toNat 1]
  | .maskS _ f => [readAll 2 f.a.toNat 1]
  | .maskL f => readSome 1 f.a.toNat 2 1
  | .expr f =>
    readAll 2 (maskNo f.pre) 1 :: [f.in0, f.in1, f.in2, f.in3].flatMap (opndReads false (s.active f.pre))
  | .memV op f =>
    let act := s.st.mget 0
    readAll 2 0 1 :: readSome 1 f.base.toNat (if devicePair op then 2 else 1) 1
      ++ f.idx.toList.map (fun r => readAll 0 r.toNat act)
      ++ (if memReadsD op then partly (storeBits op f.sz.toNat) (readSome 0 f.d.toNat (dataWords f.sz.toNat) act) else [])
      ++ (f.att.bind (·.c)).toList.flatMap (opndReads (f.sz = 3) act)
  | .memU op f =>
    readSome 1 f.base.toNat (if devicePair op then 2 else 1) 1
      ++ (if memReadsD (op - 1) then readSome 1 f.d.toNat (dataWords f.sz.toNat) 1 else [])
      ++ (f.att.bind (·.c)).toList.flatMap (opndReads (f.sz = 3) 1)
  | .lda f =>
    let act := s.st.mget 0
    readAll 2 0 1 :: readAll 1 f.sbase.toNat 1 :: readAll 0 f.sidx.toNat act
      :: readSome 1 f.gbase.toNat 2 1 ++ f.gidx.toList.map (fun r => readAll 0 r.toNat act)
      ++ opndReads false act f.vb
  | .promote _ _ a b =>
    (match a with | some r => readSome 1 r.toNat 2 1 | none => []) ++ opndReads false 1 b
  | .arena _ a _ => opndReads true 1 a
  | .slot op _ a _ => opndReads (op = 0xD3) 1 a
  | .adrn _ a => opndReads false 1 a
  | _ => []

/-- The registers that an instruction writes: file and number. -/
def writesOf : Form → List (Nat × Nat)
  | .br op c _ => if op = 8 then [(1, c.toNat % 64), (1, c.toNat % 64 + 1)] else []
  | .ctl op d _ _ =>
    if 0x13 ≤ op ∧ op ≤ 0x17 then [(1, d.toNat)]
    else if op = 0xC0 ∨ op = 0xC1 then [(1, d.toNat), (1, d.toNat + 1)]
    else if op = 0xC6 then [(1, d.toNat)]
    else []
  | .alu2 op f =>
    let qnt := if 0x8B ≤ op ∧ op ≤ 0x8D then
      match f.b with
      | .s r => [(1, r.toNat), (1, r.toNat + 1)]
      | _ => []
      else []
    (if f.n then [] else dest (rowOf op) f.d) ++ qnt
  | .alu1 op f => if f.n then [] else dest (rowOf op) f.d
  | .aluX op f =>
    if f.n ∨ op = 0x3F then []
    else if op = 0x77 then (if f.x = 0x0B then [(1, f.d.toNat), (1, f.d.toNat + 1)] else [(1, f.d.toNat)])
    else if op ≠ 0x71 ∧ f.x = 0x0B then [(0, f.d.toNat), (0, f.d.toNat + 1)]
    else [(0, f.d.toNat)]
  | .aluD op f => if f.n then [] else dest (rowOf op) f.d
  | .imm _ f => if f.n then [] else [(1, f.d.toNat)]
  | .sget f =>
    if f.n then [] else if specialWide f.x then [(1, f.d.toNat), (1, f.d.toNat + 1)] else [(1, f.d.toNat)]
  | .mask2 _ f => if f.n then [] else [(2, f.d.toNat)]
  | .mask1 _ f => if f.n then [] else [(2, f.d.toNat)]
  | .maskS op f => if f.n then [] else dest (rowOf op) f.d
  | .maskL f => if f.n then [] else [(2, f.d.toNat)]
  | .expr f => if f.n then [] else [(0, f.d.toNat)]
  | .memV op f =>
    if memReturns op f.att then (List.range (memResultWords f.sz.toNat f.att)).map fun k => (0, f.d.toNat + k)
    else []
  | .memU op f =>
    if memReturns (op - 1) f.att then (List.range (memResultWords f.sz.toNat f.att)).map fun k => (1, f.d.toNat + k)
    else []
  | .promote _ q _ _ => [(1, 2 * q.toNat), (1, 2 * q.toNat + 1)]
  | .arena d _ _ => [(1, d.toNat), (1, d.toNat + 1)]
  | _ => []
where
  dest (row : Option Row) (d : BitVec 7) : List (Nat × Nat) :=
    match (row.map (·.d)).getD .none with
    | .none => []
    | .s => [(1, d.toNat)]
    | .p => [(1, d.toNat), (1, d.toNat + 1)]
    | .v => [(0, d.toNat)]
    | .vp => [(0, d.toNat), (0, d.toNat + 1)]
    | _ => [(2, d.toNat % 16)]

/-! ### The scoreboard (R35, R36) -/

/-- The registers to which an outstanding operation will write; on HOST pages alone an spc atomic acts as unp
(R241). -/
def Op.pending (o : Op) : List (Nat × Nat) :=
  let returns := o.what = .ld || o.what = .tagld || o.what = .lds || o.what = .gld
    || ((o.what = .atom || o.what = .atoms || o.what = .gop) && !o.nr)
  if returns then
    (List.range (if o.use = 4 && o.lanes.any (fun a => a.mtype ≠ 2) then 2
      else dataWords (if o.size = 16 then 4 else if o.size = 8 then 3 else 2))).map
      fun k => ((if o.uni then 1 else 0), o.dst + k)
  else []

/-- The registers that an outstanding CPOST will write: the promise, then the status (R279). -/
def Owed.pending (o : Owed) : List (Nat × Nat) :=
  if o.accepted then [(1, o.reg)] else [(1, o.reg), (1, o.reg + 1)]

/-- The registers that the scoreboard holds for a strand. -/
def Strand.pendingRegs (t : Strand) : List (Nat × Nat) :=
  t.ops.flatMap Op.pending ++ (t.owed.filter (fun o => !o.arrived)).flatMap Owed.pending

/-- Does the instruction read or write a register that the scoreboard holds? WAITP reads the mark of its
register and waits itself (R280). -/
def scoreboardHolds (s : State) (f : Form) : Bool :=
  let p := s.st.pendingRegs
  if p.isEmpty then false
  else
    ((readsOf s f).map (fun r => (r.file, r.reg)) ++ writesOf f).any (fun x => p.contains x)

/-! ### Register-file errors (R375) -/

/-- Does a read find an error: in a lane and a bit of a vector register that it uses, or anywhere in scalar or mask
state? -/
def finds (r : RegRead) (e : RfError) : Bool :=
  e.file = r.file && e.reg = r.reg && (r.file ≠ 0 || (laneOn r.lanes e.lane && e.bits &&& r.bits ≠ 0))

/-- The active lanes whose read finds an error: those of the words in error, or the one that reads across lanes. -/
def errorLanes (l : List RfError) (r : RegRead) : BitVec 64 :=
  match r.reader with
  | some i => if l.any (finds r) then maskOf [i] else 0
  | none => maskOf ((l.filter (finds r)).map (·.lane))

/-- The lanes in which an instruction's reads find an error, and whether there is one. -/
def errorsOf (s : State) (f : Form) : Option (BitVec 64) :=
  if s.st.rfErr.isEmpty then none
  else
    let hits := (readsOf s f).filter fun r => s.st.rfErr.any (finds r)
    if hits.isEmpty then none
    else some ((hits.filter (fun r => r.file = 0)).foldl (fun m r => m ||| errorLanes s.st.rfErr r) 0)

/-- Runs an instruction unless a read of it finds a register-file error: then it faults RF_UNCORRECTABLE
(R375). -/
def guarded (f : Form) (s : State) (k : State → Out) : Out :=
  match errorsOf s f with
  | none => k s
  | some lanes => deliver ⟨0x51, 0, 0, 0, 0, lanes⟩ s

/-- The words of a form. -/
def formSize (f : Form) : Nat := (encodeForm f).length

/-- The instruction completes and the strand goes on. -/
def finish (f : Form) (s : State) : Out := .next (advance (formSize f) s)

/-! ### Destinations and latches (R47, R109) -/

/-- Writes a lane-wise result to a vector register: active lanes take it, inactive lanes take zero under Z and
keep their value otherwise, and absent lanes are never written (R109). -/
def Strand.vput (t : Strand) (r : Nat) (act : BitVec 64) (z : Bool) (g : Nat → Word) : Strand :=
  let old := nth [] t.v r
  let new := laneIds.map fun i =>
    if laneOn t.present i then (if laneOn act i then g i else if z then 0#32 else nth 0#32 old i)
    else nth 0#32 old i
  let written := if z then t.present else act &&& t.present
  { t with
    v := put [] t.v r new
    rfErr := t.rfErr.filter fun e => !(e.file = 0 && e.reg = r && laneOn written e.lane) }

/-- The latch of a vector result of 32 bits: the destination as it stands after the instruction, or under N
the result in active lanes and zero elsewhere; absent lanes read zero (R47). The zeros of R47 and R109 are zero in a
position of either width. -/
def vecLatch (t : Strand) (n z : Bool) (r : Nat) (act : BitVec 64) (g : Nat → Word) : Latch :=
  .vec64 (laneIds.map fun i =>
    if laneOn t.present i then
      (if laneOn act i then widened (if n then g i else t.vget r i)
        else if n || z then 0#64
        else widened (t.vget r i))
    else 0#64)

/-- As `vecLatch`, for a pair. -/
def vecLatch64 (t : Strand) (n : Bool) (r : Nat) (act : BitVec 64) (g : Nat → DWord) : Latch :=
  .vec64 (laneIds.map fun i =>
    if laneOn t.present i then
      (if n then (if laneOn act i then g i else 0#64) else t.vget64 r i)
    else 0#64)

/-- A vector instruction's result of 32 bits. -/
def vecResult (f : Form) (p : Option AluPre) (n : Bool) (d : BitVec 7) (g : Nat → Word) (s : State) : Out :=
  let act := s.active p
  let t := if n then s.st else s.st.vput d.toNat act (zOf p) g
  finish f (pushLatch (vecLatch t n (zOf p) d.toNat act g) { s with st := t })

/-- A vector instruction's result of 64 bits. -/
def vecResult64 (f : Form) (p : Option AluPre) (n : Bool) (d : BitVec 7) (g : Nat → DWord) (s : State) : Out :=
  let act := s.active p
  let t := if n then s.st else
    (s.st.vput d.toNat act (zOf p) (fun i => (g i).setWidth 32)).vput (d.toNat + 1) act (zOf p)
      (fun i => (g i >>> 32).setWidth 32)
  finish f (pushLatch (vecLatch64 t n d.toNat act g) { s with st := t })

/-- The latch of an instruction whose destination is a mask (R47): the new bit of each present lane that has one, and
zero in the others, in a position of either width. -/
def maskLatch (t : Strand) (has m : BitVec 64) : Latch :=
  .vec64 (laneIds.map fun i =>
    if laneOn t.present i && laneOn has i then widened (if laneOn m i then 1#32 else 0#32) else 0#64)

/-- A vector instruction's result in a mask (R138): D holds the mask number in its low four bits. -/
def cmpResult (f : Form) (p : Option AluPre) (n : Bool) (d : BitVec 7) (g : Nat → Bool) (s : State) : Out :=
  let act := s.active p
  let hit := maskOf ((lanesOf act).filter g)
  let r := d.toNat % 16
  let new := if zOf p then hit else hit ||| (s.st.mget r &&& ~~~act)
  if n then finish f (pushLatch (maskLatch s.st act hit) s)
  else finish f (pushLatch (maskLatch s.st (if zOf p then act else s.st.present) new) { s with st := s.st.mset r new })

/-- A uniform result of 32 bits in a scalar register. -/
def uniResult (f : Form) (n : Bool) (d : BitVec 7) (x : Word) (s : State) : Out :=
  finish f (pushLatch (.uni x) (if n then s else { s with st := s.st.sset d.toNat x }))

/-- A uniform result of 64 bits in a scalar pair. -/
def uniResult64 (f : Form) (n : Bool) (d : BitVec 7) (x : DWord) (s : State) : Out :=
  finish f (pushLatch (.uni64 x) (if n then s else { s with st := s.st.sset64 d.toNat x }))

/-- A result in a mask register of a mask instruction (R150). -/
def maskResult (f : Form) (n : Bool) (d : BitVec 4) (x : BitVec 64) (s : State) : Out :=
  finish f (pushLatch (maskLatch s.st s.st.present x)
    (if n then s else { s with st := s.st.mset d.toNat x }))

/-- An instruction that writes no general register leaves a uniform zero (R47). -/
def zeroResult (f : Form) (s : State) : Out := finish f (pushLatch (.uni64 0#64) s)

end Sys2Proof.Machine
end

