-- ==== Sys2Proof/Machine/Access.lean ====
section
/-! DEFINITION. What the memory instructions share: effective addresses (R64, R67, R68), the wait counters
(R37), the escape check (R209 to R212), attempts over lanes (R229, R230), the operations that issue, and how
loads, stores and atomics are performed (R237 to R245, R374). -/

namespace Sys2Proof.Machine

/-! ### Addresses -/

/-- A 24-bit offset prefix as a 64-bit number. -/
def offset64 (x : Option (BitVec 24)) : DWord := ((x.getD 0).signExtend 64)

/-- The device address of a lane of Format M (R67, R64). -/
def deviceAddr (s : State) (f : MemV) (lane : Nat) : DWord :=
  s.st.sget64 f.base.toNat + (match f.idx with | some r => (s.st.vget r.toNat lane).signExtend 64 | none => 0)
    + offset64 f.off

/-- The device address of Format MU (R68, R64). -/
def deviceAddrU (s : State) (f : MemU) : DWord :=
  s.st.sget64 f.base.toNat + f.off.signExtend 64 + offset64 f.pre

/-- The scratchpad or SBM address of a lane of Format M, modulo 2^32 (R252). -/
def localAddr (s : State) (f : MemV) (lane : Nat) : Word :=
  s.st.sget f.base.toNat + (match f.idx with | some r => s.st.vget r.toNat lane | none => 0)
    + (offset64 f.off).setWidth 32

/-- The scratchpad or SBM address of Format MU. -/
def localAddrU (s : State) (f : MemU) : Word :=
  s.st.sget f.base.toNat + f.off.signExtend 32 + (offset64 f.pre).setWidth 32

/-- The bytes of SZ. -/
def sizeBytes (sz : BitVec 3) : Nat := 2 ^ sz.toNat

/-- The bytes of a lane's data in n vector registers from d on (R4). -/
def laneData (s : State) (d n lane : Nat) : List Byte :=
  (List.range n).flatMap fun k => leBytes 4 (s.st.vget (d + k) lane).toNat

/-- The bytes of n scalar registers from d on. -/
def scalarData (s : State) (d n : Nat) : List Byte :=
  (List.range n).flatMap fun k => leBytes 4 (s.st.sget (d + k)).toNat

/-! ### Wait counters (R37) -/

/-- Operations of the strand that WVM counts. -/
def loadsOut (s : State) : Nat :=
  (s.st.ops.filter fun o => o.what = .ld || o.what = .tagld || (o.what = .atom && !o.nr)).length
    + (s.blk.mops.filter fun m => m.strand = s.st.idx && m.what matches .oldw _ _ _).length

/-- Operations of the strand that WST counts. -/
def storesOut (s : State) : Nat :=
  (s.st.ops.filter fun o => o.what = .st || o.what = .tagst || (o.what = .atom && o.nr) || o.what = .promote
    || o.what = .tsig).length

/-- Operations of the strand that WMX counts. -/
def matrixOut (s : State) : Nat :=
  (s.blk.mops.filter fun m => m.strand = s.st.idx && m.what matches .mma _ _ _ _ _ _ _ _).length

/-- Is the operation on the scratchpad or the SBM? -/
def OpWhat.onChip (w : OpWhat) : Bool :=
  w = .lds || w = .sts || w = .atoms || w = .gld || w = .gst || w = .gop

/-- Is the matrix operation an OLDA or an ADRN, which count as scratchpad accesses (R300)? -/
def MWhat.onScratch : MWhat → Bool
  | .olda _ _ _ => true
  | .adrn _ _ => true
  | _ => false

/-- Operations of the strand that WSC counts. -/
def scratchOut (s : State) : Nat :=
  (s.st.ops.filter fun o => o.what.onChip).length
    + (s.blk.mops.filter fun m => m.strand = s.st.idx && m.what.onScratch).length

/-- The counter of a tag (R260): LDAs whose every lane has passed its checks. -/
def tagOut (t : Strand) (tag : Nat) : Nat :=
  (t.ops.filter fun o => o.what = .lda && o.tag = tag && o.collapsed).length

/-- The serials of the operations that a release of the strand waits for (R239): its outstanding loads,
stores, atomics and on-chip accesses, but no LDA and no atomic declared nor. -/
def releaseSet (t : Strand) : List Nat :=
  (t.ops.filter fun o => o.what ≠ .lda && !(o.what = .atom && o.use = 2)).map (·.serial)

/-- The OLDAs and ADRNs that a release waits for (R300). -/
def releaseMSet (s : State) : List Nat :=
  (s.blk.mops.filter fun m => m.strand = s.st.idx && m.what.onScratch).map (·.seq)

/-- Is an acquire of the strand outstanding, which holds its later memory, engine and matrix instructions
(R239)? -/
def acquireOut (t : Strand) : Bool :=
  t.ops.any fun o => (o.ord = 1 || o.ord = 3) && (o.what = .ld || o.what = .atom || o.what = .gld || o.what = .gop)

/-! ### The escape check (R209 to R212) -/

/-- Does grid g lie within grid h: is h itself or one of its ancestors (R212)? -/
def gridWithin (s : State) : Nat → Nat → Nat → Bool
  | 0, g, h => g = h
  | fuel + 1, g, h =>
    g = h ||
      match s.grid g with
      | some x =>
        match x.parent with
        | some p => gridWithin s fuel p h
        | none => false
      | none => false

/-- Grid levels that an ancestor chain can have (R341). -/
def gridLevels : Nat := 32

/-- Does the destination's unit lie within the target's unit (R212)? `none` is plain. -/
def unitWithin (s : State) (dest target : Owner) : Bool :=
  match target, dest with
  | .thread g b t l, .thread g' b' t' l' => g = g' && b = b' && t = t' && l = l'
  | .block g b, .thread g' b' _ _ => g = g' && b = b'
  | .block g b, .block g' b' => g = g' && b = b'
  | .grid g, .thread g' _ _ _ => gridWithin s gridLevels g' g
  | .grid g, .block g' _ => gridWithin s gridLevels g' g
  | .grid g, .grid g' => gridWithin s gridLevels g' g
  | _, _ => false

/-- The unit that owns the slot a data word names, when the word is checked (R210). -/
def checkedTarget (s : State) (key : Nat) (word : DWord) : Option Owner :=
  match ptrSlot word with
  | none => none
  | some id =>
    let r := slotRec s id
    if slotLiveFor r key ∧ r.gen.toNat = ptrGen word then some r.owner else none

/-- Does a word fail the check for a destination (R212)? -/
def escapes (s : State) (key : Nat) (dest : Owner) (word : DWord) : Bool :=
  match checkedTarget s key word with
  | none => false
  | some t => !unitWithin s dest t

/-- The unit of a device address (R211); none when it names an arena slot that is not live for the world, whose
own check then faults. An address whose GEN is not the slot's has the slot's owner for unit, and its own check
faults unless an ESCAPE comes first. DESIGN CHOICE, log entry 107. -/
def destUnit (s : State) (key : Nat) (p : DWord) : Option Owner :=
  if ptrSpace p = 0 then some .none
  else
    match ptrSlot p with
    | none => none
    | some id => if slotLiveFor (slotRec s id) key then some (slotRec s id).owner else none

/-- The 8-byte words of data, each with its offset. -/
def dwordsOf : Nat → List Byte → List (Nat × DWord)
  | off, a :: b :: c :: d :: e :: f :: g :: h :: t =>
    (off, BitVec.ofNat 64 (leNat [a, b, c, d, e, f, g, h])) :: dwordsOf (off + 8) t
  | _, _ => []

/-- The escape fault of a store of data (R212): the first word that fails. -/
def escapeFault (s : State) (key : Nat) (dest : Option Owner) (addr : DWord) (data : List Byte) : Option FaultInfo :=
  match dest with
  | none => none
  | some d =>
    match (dwordsOf 0 data).find? (fun x => escapes s key d x.2) with
    | some (off, w) => some ⟨codeEscape, 0, addr + BitVec.ofNat 64 off, w, 0, 0⟩
    | none => none

/-! ### MAC and poison (R358, R359, R374) -/

/-- A line fails its MAC again on the second read (R359), and the world of the key id ends. -/
def failLine (key line : Nat) (s : State) : State :=
  let s := lineFails key line s
  if key = 0 then s else endWorld key 0x50 (macRecord s.free) s

/-- Reads of places under a key id fail the MACs of lines written under another. Each such line is read again first
(R359). -/
def macCheck (key : Nat) (pas : List Nat) (s : State) : State :=
  (badLines s key pas).foldl (fun s l =>
    failLine key l (countOn (homeDie s (64 * l)) (fun c => { c with macRetries := c.macRetries + 1 }) s)) s

/-- The places among those of a write whose lines it does not cover: such a line is read for the write. -/
def partialPlaces (pas : List Nat) : List Nat := pas.filter fun a => !(linePlaces (a / 64)).all pas.contains

/-- Is some place poisoned? -/
def poisoned (s : State) (pas : List Nat) : Bool := pas.any fun a => s.badByte a

/-- A consumed poison is counted in the fault area (R374). DEDUCED, log entry 33. -/
def countPoison (n : Nat) (s : State) : State := if n = 0 then s else recordFor s.grd.id 1 n 0 s

/-! ### Attempts (R229, R230) -/

/-- What a memory instruction asks for. `data` and `cmp` are per lane; `escape` says that its data are
checked (R209). -/
structure MemReq where
  what : OpWhat
  kind : Access
  uni : Bool
  lanes : BitVec 64
  addr : Nat → DWord
  size : Nat
  dst : Nat
  sx : Bool
  att : MemAtt
  escape : Bool
  data : Nat → List Byte
  cmp : Nat → DWord

/-- Does the access read data that poison would reach? -/
def MemReq.reads (r : MemReq) : Bool := r.what = .ld || r.what = .atom

/-- Is a byte covered by an outstanding store of the party of a lane, which its load then reads (R238)? -/
def ownCovers (s : State) (uni : Bool) (lane pa : Nat) : Bool :=
  s.st.ops.any fun x => x.what = .st && x.lanes.any fun b => !b.done && (uni || x.uni || b.lane = lane) && b.pas.contains pa

/-- Does a line of the core's L1 that may serve the access hold the byte without poison (R238)? -/
def l1Clean (s : State) (r : MemReq) (part : PagePart) (pa : Nat) : Bool :=
  part.mtype = 0 && part.ord ≠ 0 && (r.att.ord = 0 || decide (r.att.scope.toNat < 2))
    && s.l1.any fun x => x.core = s.blk.core && x.line = pa / 64 && !x.bad.contains (pa % 64)

/-- Does a lane read poison however it is served (R236, R238, R374)? -/
def boundPoison (s : State) (r : MemReq) (lane : Nat) (parts : List (Nat × DWord × PagePart)) : Bool :=
  parts.any fun x => x.2.2.pas.any fun p =>
    s.badByte p && !(r.what = .ld && (ownCovers s r.uni lane p || l1Clean s r x.2.2 p))

/-- The checks of one lane (R229): escape first, then the address; poison in a strict launch. -/
def checkLane (r : MemReq) (lane : Nat) (s : State) : CheckedAll :=
  let p := r.addr lane
  match (if r.escape then escapeFault s s.wld.key (destUnit s s.wld.key p) p (r.data lane) else none) with
  | some f => .bad f
  | none =>
    match checkAccess s s.wld .strand (dieOf s.blk.core) r.kind true p r.size with
    | .bad f => .bad f
    | .ok parts s w =>
      if r.reads ∧ s.grd.tolerant = false ∧ boundPoison s r lane parts then .bad (faultAt 0x50 p)
      else .ok parts s w

/-- The checks of an attempt: the lanes that passed with their parts, the faults of the others, and the state
after the translations and first touches of the lanes that passed. -/
def checkLanes (r : MemReq) : List Nat → State →
    List (Nat × List (Nat × DWord × PagePart)) × List (Nat × FaultInfo) × State
  | [], s => ([], [], s)
  | i :: t, s =>
    match checkLane r i s with
    | .bad f =>
      let q := checkLanes r t s
      (q.1, (i, f) :: q.2.1, q.2.2)
    | .ok parts s' w =>
      let q := checkLanes r t { s' with wld := w }
      ((i, parts) :: q.1, q.2.1, q.2.2)

/-- The bytes of the single-copy atomic units of an access of n bytes at an address (R294). -/
def unitBytes (n : Nat) (a : DWord) : Nat :=
  if a.toNat % n = 0 ∧ n = 16 then 8
  else if a.toNat % n = 0 ∧ (n = 2 ∨ n = 4 ∨ n = 8) then n
  else 1

/-- The units of a lane's part of an operation, each with the data it carries (R294, R299). A promotion copies bytes
(R250). -/
def laneUnits (r : MemReq) (lane : Nat) (x : Nat × DWord × PagePart) : List LaneAcc :=
  let n := x.2.2.pas.length
  let u := if r.what = .promote then 1 else unitBytes n x.2.1
  (List.range (ceilDiv n u)).map fun k =>
    ⟨lane, x.1 + u * k, x.2.1 + BitVec.ofNat 64 (u * k), (x.2.2.pas.drop (u * k)).take u, x.2.2.ord, x.2.2.mtype,
      x.2.2.rdup, x.2.2.key, ((r.data lane).drop (x.1 + u * k)).take u, r.cmp lane, false, false, [], x.2.2.shift⟩

/-- Two lane parts are of one thread, a uniform access counting as every thread's (R293). -/
def sameParty (u1 u2 : Bool) (a b : LaneAcc) : Bool := u1 || u2 || a.lane = b.lane

/-- The operations that are accesses to device memory, in one order with each other (R295, R298). -/
def OpWhat.ordered (w : OpWhat) : Bool := w = .ld || w = .st || w = .atom || w = .promote || w = .tsig

/-- Is an earlier SO access of the party of a unit outstanding (R298)? `before` is the serial of the unit's
operation. An LDA is a party of its own (R293, R307), which no other access waits for. -/
def soAhead (s : State) (uni : Bool) (before : Nat) (a : LaneAcc) : Bool :=
  s.st.ops.any fun o => decide (o.serial < before) && o.what.ordered
    && o.lanes.any fun b => b.ord = 0 && !b.done && sameParty uni o.uni a b

/-- The serial of the instruction at hand: a later attempt keeps that of the first. -/
def State.nextSerial (s : State) : Nat := if s.st.attempt.isSome then s.st.serial else s.st.serial + 1

/-- Must an SO access wait for an earlier SO access of its party (R298)? An access with other parts issues, and its SO
units wait to be performed. DESIGN CHOICE, log entry 85. -/
def soBlocked (s : State) (uni : Bool) (l : List LaneAcc) : Bool :=
  l.any fun a => a.ord = 0 && (l.all fun c => c.lane ≠ a.lane || c.ord = 0) && soAhead s uni s.nextSerial a

/-- Adds an operation of the strand: a first attempt takes a new serial; the lanes of a later attempt join
the operation of their instruction when it is still outstanding. -/
def addOp (o : Op) (s : State) : State :=
  let again := s.st.attempt.isSome
  let serial := s.nextSerial
  let t := { s.st with serial := serial }
  let t :=
    if o.lanes.isEmpty then t
    else if again && t.ops.any (fun x => x.serial = serial) then
      let join := fun (x : Op) => { x with lanes := x.lanes ++ o.lanes, collapsed := o.collapsed }
      { t with ops := update (fun x => x.serial = serial) join t.ops }
    else { t with ops := t.ops ++ [{ o with serial := serial }] }
  { s with st := t }

/-- The operation of a request. -/
def opOf (r : MemReq) (lanes : List LaneAcc) (s : State) : Op :=
  let rel := (r.att.ord = 2 || r.att.ord = 3) && r.what ≠ .lda
  { serial := 0, pc := s.st.pc, after := if rel then releaseSet s.st else [],
    afterM := if rel then releaseMSet s else [],
    what := r.what, uni := r.uni, dst := r.dst, size := r.size, sx := r.sx, ord := r.att.ord.toNat,
    scope := r.att.scope.toNat, aop := r.att.aop.toNat, use := r.att.use.toNat, nr := r.att.nr, tag := 0,
    lanes := lanes, collapsed := false, wrote := [] }

/-- Goes on after an attempt: the instruction completes when no lane is left, and otherwise the strand parks
with the lanes that took a replayable fault (R230). -/
def afterAttempt (f : Form) (uni : Bool) (faults : List (Nat × FaultInfo)) (s : State) : Out :=
  match faults with
  | [] => finish f s
  | (_, x) :: _ =>
    let left := maskOf (faults.map (·.1))
    .next (park { x with lanes := if uni then 0 else left } left s)

/-- The fault that an attempt delivers: that of the lowest lane with one that is not replayable, where an ESCAPE
of any lane comes first (R212), with the lanes that took a fault of its code. DEDUCED, log entry 94. -/
def fatal (uni : Bool) (faults : List (Nat × FaultInfo)) : Option FaultInfo :=
  match (faults.find? (fun x => x.2.code = codeEscape)).or (faults.find? (fun x => !replayable x.2.code)) with
  | none => none
  | some (_, x) =>
    some { x with lanes := if uni then 0 else maskOf ((faults.filter (fun y => y.2.code = x.code)).map (·.1)) }

/-- The lanes of the attempt at hand. -/
def attemptLanes (s : State) (first : BitVec 64) : List Nat := lanesOf (s.st.attempt.getD first)

/-- Issues a device-memory instruction (R229, R230, R233). -/
def memIssue (f : Form) (r : MemReq) (s : State) : Out :=
  let lanes := attemptLanes s r.lanes
  let c := checkLanes r lanes s
  match fatal r.uni c.2.1 with
  | some x => deliver x s
  | none =>
    let parts := c.1.flatMap fun x => x.2.flatMap (laneUnits r x.1)
    if soBlocked s r.uni parts then .next (waitFor .order s)
    else afterAttempt f r.uni c.2.1 (addOp (opOf r parts s) c.2.2)

/-- A device-memory instruction with a side effect: the prologue may not run it (R28). -/
def memAct (f : Form) (r : State → MemReq) (s : State) : Out :=
  guarded f s fun s => if s.prologue then deliver (faultAt codePrologue 0) s else memIssue f (r s) s

/-- A device-memory instruction that the prologue may run. -/
def memRead (f : Form) (r : State → MemReq) (s : State) : Out := guarded f s fun s => memIssue f (r s) s

/-! ### On-chip accesses (R252, R253, R257, R258) -/

/-- A local address with the bits below the size cleared (R235). -/
def alignDown (a : Word) (size : Nat) : Nat := a.toNat / size * size

/-- The die and the offset of an SBM address (R257). -/
def sbmKey (a : Word) : Nat := a.toNat / 2 ^ 30 * 2 ^ 32 + a.toNat % 2 ^ 30

/-- The units of an on-chip lane access: its places are scratchpad offsets, or die·2^32 + offset in the SBM. An
access of 16 bytes has two (R294). -/
def localUnits (r : MemReq) (sbm : Bool) (lane : Nat) : List LaneAcc :=
  let a := alignDown ((r.addr lane).setWidth 32) r.size
  let base := if sbm then sbmKey (BitVec.ofNat 32 a) else a
  let u := min r.size 8
  (List.range (r.size / u)).map fun k =>
    ⟨lane, u * k, BitVec.ofNat 64 (a + u * k), (List.range u).map (base + u * k + ·), 1, 0, false, 0,
      ((r.data lane).drop (u * k)).take u, r.cmp lane, false, false, [], 0⟩

/-- Does a lane exceed the allotment? An SBM allotment is per die. -/
def localOut (s : State) (sbm : Bool) (r : MemReq) (lane : Nat) : Bool :=
  let a := alignDown ((r.addr lane).setWidth 32) r.size
  if sbm then a % 2 ^ 30 + r.size > s.grd.sbmBytes else a + r.size > s.scratchLimit

/-- Does an access of n bytes touch an armed barrier (R282)? -/
def touchesArmed (b : Block) (a n : Nat) : Bool :=
  b.armed.any fun g => 16 * g < a + n && a < 16 * g + 16

/-- The lane-wise fault of a kind that some lanes take, for the lowest of them. -/
def laneFault (code detail : Nat) (r : MemReq) (hit : Nat → Bool) (lanes : List Nat) : Option FaultInfo :=
  match lanes.find? hit with
  | none => none
  | some i =>
    let a := alignDown ((r.addr i).setWidth 32) r.size
    some ⟨code, detail, BitVec.ofNat 64 a, 0, 0, if r.uni then 0 else maskOf (lanes.filter hit)⟩

/-- The escape fault of an on-chip instruction: for its lowest lane. -/
def localEscape (s : State) (dest : Owner) (r : MemReq) (lanes : List Nat) : Option FaultInfo :=
  let fault := fun i => escapeFault s s.wld.key (some dest)
    (BitVec.ofNat 64 (alignDown ((r.addr i).setWidth 32) r.size)) (r.data i)
  match lanes.filterMap (fun i => (fault i).map (fun x => (i, x))) with
  | [] => none
  | (i, x) :: t => some { x with lanes := if r.uni then 0 else maskOf (i :: t.map (·.1)) }

/-- Issues a scratchpad or SBM instruction after the checks of R253 and R257 on the whole of it. -/
def localIssue (f : Form) (sbm stores : Bool) (r : MemReq) (s : State) : Out :=
  let lanes := lanesOf r.lanes
  let dest : Owner := if sbm then .grid s.grd.id else .block s.grd.id s.blk.id
  match (if r.escape then localEscape s dest r lanes else none) with
  | some x => deliver x s
  | none =>
    match laneFault 0x40 (if sbm then 2 else 0) r (localOut s sbm r) lanes with
    | some x => deliver x s
    | none =>
      match (if stores && !sbm then
          laneFault 0x41 0 r (fun i => touchesArmed s.blk (alignDown ((r.addr i).setWidth 32) r.size) r.size) lanes
        else none) with
      | some x => deliver x s
      | none => finish f (addOp (opOf r (lanes.flatMap (localUnits r sbm)) s) s)

/-- An on-chip instruction with a side effect (R28). -/
def localAct (f : Form) (sbm stores : Bool) (r : State → MemReq) (s : State) : Out :=
  guarded f s fun s =>
    if s.prologue then deliver (faultAt codePrologue 0) s else localIssue f sbm stores (r s) s

/-- An on-chip load. -/
def localRead (f : Form) (sbm : Bool) (r : State → MemReq) (s : State) : Out :=
  guarded f s fun s => localIssue f sbm false (r s) s

/-! ### Atomic operations (R240, R245) -/

/-- FP32 addition at a bank or an L2 (R245). -/
def bankAdd (x y : Word) : Word := BitVec.ofNat 32 (fpAdd fp32 0 false x.toNat y.toNat)

/-- The new value of a word of 32 bits: old x, data y, compare c. -/
def atomWord (aop : Nat) (x y c : Word) : Word :=
  if aop = 0 then x + y
  else if aop = 1 then (if x.sle y then x else y)
  else if aop = 2 then (if x.sle y then y else x)
  else if aop = 3 then (if x.ule y then x else y)
  else if aop = 4 then (if x.ule y then y else x)
  else if aop = 5 then x &&& y
  else if aop = 6 then x ||| y
  else if aop = 7 then x ^^^ y
  else if aop = 8 then y
  else if aop = 9 then (if x = c then y else x)
  else if aop = 10 then bankAdd x y
  else if aop = 11 then BitVec.ofNat 32 (fpMin fp32 false x.toNat y.toNat)
  else BitVec.ofNat 32 (fpMax fp32 false x.toNat y.toNat)

/-- The new value of a word of 64 bits. -/
def atomDWord (aop : Nat) (x y c : DWord) : DWord :=
  if aop = 0 then x + y
  else if aop = 1 then (if x.sle y then x else y)
  else if aop = 2 then (if x.sle y then y else x)
  else if aop = 3 then (if x.ule y then x else y)
  else if aop = 4 then (if x.ule y then y else x)
  else if aop = 5 then x &&& y
  else if aop = 6 then x ||| y
  else if aop = 7 then x ^^^ y
  else if aop = 8 then y
  else if aop = 9 then (if x = c then y else x)
  else bankAdd ((x >>> 32).setWidth 32) ((y >>> 32).setWidth 32) ++ (x.setWidth 32 + y.setWidth 32 : Word)

/-- The new bytes of an atomic on a word of `size` bytes. -/
def atomBytes (aop size : Nat) (old data : List Byte) (cmp : DWord) : List Byte :=
  let x := BitVec.ofNat 64 (leNat old)
  let y := BitVec.ofNat 64 (leNat data)
  leBytes size (if size = 4 then (atomWord aop (x.setWidth 32) (y.setWidth 32) (cmp.setWidth 32)).toNat
    else (atomDWord aop x y cmp).toNat)

/-! ### Writing results -/

/-- The register words of loaded bytes: narrow loads are extended (R237). -/
def loadedWords (size : Nat) (sx : Bool) (l : List Byte) : List Word :=
  if size = 1 then
    let b := (BitVec.ofNat 8 (leNat l))
    [if sx then b.signExtend 32 else b.setWidth 32]
  else if size = 2 then
    let h := (BitVec.ofNat 16 (leNat l))
    [if sx then h.signExtend 32 else h.setWidth 32]
  else (List.range (size / 4)).map fun k => BitVec.ofNat 32 (leNat ((l.drop (4 * k)).take 4))

/-- Writes words to a lane of consecutive vector registers, or to scalar registers. -/
def Strand.setWords (t : Strand) (uni : Bool) (r lane : Nat) : List Word → Strand
  | [] => t
  | w :: ws => (if uni then t.sset r w else t.vsetLane r lane w).setWords uni (r + 1) lane ws

/-- The lanes of an operation, each once, in ascending order. -/
def Op.laneList (o : Op) : List Nat := laneIds.filter fun i => o.lanes.any fun a => a.lane = i

/-- The bytes of a lane, put together from its parts. -/
def joinParts (size : Nat) (l : List (Nat × List Byte)) : List Byte :=
  (List.range size).map fun i =>
    match l.find? (fun x => x.1 ≤ i && i < x.1 + x.2.length) with
    | some x => nth 0#8 x.2 (i - x.1)
    | none => 0#8

/-! ### Serving reads (R231, R238) -/

/-- The line that a core's L1 holds. -/
def l1Line (s : State) (core line : Nat) : Option (List Byte) :=
  (s.l1.find? (fun x => x.core = core && x.line = line)).map (·.bytes)

/-- A core's L1 takes a line with its poison, in the place of any other where it is full (R2). DESIGN CHOICE, log entry
95. -/
def l1Put (core line : Nat) (bytes : List Byte) (bad : List Nat) (s : State) : State :=
  let rest := s.l1.filter fun x => !(x.core = core && x.line = line)
  let mine := rest.filter (·.core = core)
  let kept := if mine.length < Config.l1Lines then rest else
    match mine[Config.freeNat s.free (2 ^ 74 + line) % mine.length]? with
    | some v => rest.filter (· ≠ v)
    | none => rest
  { s with l1 := ⟨core, line, bytes, s.wld.key, bad⟩ :: kept }

/-- Keeps a line of memory in a core's L1. -/
def l1Fill (core line : Nat) (s : State) : State :=
  l1Put core line (s.readBytes (64 * line) 64) ((List.range 64).filter fun i => s.badByte (64 * line + i)) s

/-- A core's L1 loses some lines. -/
def l1Drop (core : Nat) (lines : List Nat) (s : State) : State :=
  { s with l1 := s.l1.filter fun x => !(x.core = core && lines.contains x.line) }

/-- A core's L1 is invalidated (R239). -/
def l1Clear (core : Nat) (s : State) : State := { s with l1 := s.l1.filter fun x => x.core ≠ core }

/-- A write passes through the core's own L1. -/
def l1Write (core : Nat) (l : List (Nat × Byte)) (s : State) : State :=
  { s with l1 := s.l1.map fun x =>
      if x.core = core then
        { x with
          bytes := (List.range 64).map fun i => (l.reverse.lookup (64 * x.line + i)).getD (nth 0#8 x.bytes i)
          bad := x.bad.filter fun i => !(l.any fun y => y.1 = 64 * x.line + i) }
      else x }

/-- May an L1 serve a read (R221, R238, R298)? -/
def l1Serves (ord scope : Nat) (a : LaneAcc) : Bool := a.mtype = 0 && a.ord ≠ 0 && (ord = 0 || scope < 2)

/-- The byte of the thread's own latest earlier store to a place that is still outstanding (R238). -/
def ownStore (s : State) (o : Op) (a : LaneAcc) (pa : Nat) : Option Byte :=
  let own := s.st.ops.filter fun x => x.what = .st && x.serial < o.serial
  own.reverse.findSome? fun x =>
    x.lanes.reverse.findSome? fun b =>
      if !b.done && sameParty o.uni x.uni a b then ((b.pas.zip b.data).reverse.lookup pa) else none

/-- The line of the core's L1 that serves a read, if one does. -/
def l1Hit (s : State) (o : Op) (src : ServeFrom) (a : LaneAcc) (pa : Nat) : Option L1Line :=
  if src = .l1 ∧ l1Serves o.ord o.scope a then s.l1.find? (fun x => x.core = s.blk.core && x.line = pa / 64) else none

/-- The byte that a load of a part reads at a place: the thread's own store (R238), else from where the event serves
it. An SO access is performed at its home (R298). -/
def servedByte (s : State) (o : Op) (src : ServeFrom) (a : LaneAcc) (pa : Nat) : Byte :=
  match ownStore s o a pa, l1Hit s o src a pa with
  | some b, _ => b
  | none, some l => nth 0#8 l.bytes (pa % 64)
  | none, none =>
    if src = .holder ∧ a.rdup ∧ a.ord ≠ 0 ∧ homeDie s pa ≠ dieOf s.blk.core then
      match s.dups.find? (fun x => x.die = dieOf s.blk.core && x.line = pa / 64) with
      | some x => nth 0#8 x.bytes (pa % 64)
      | none => s.readByte pa
    else s.readByte pa

/-- Is the byte that a load reads poisoned (R374)? -/
def servedBad (s : State) (o : Op) (src : ServeFrom) (a : LaneAcc) (pa : Nat) : Bool :=
  match ownStore s o a pa, l1Hit s o src a pa with
  | some _, _ => false
  | none, some l => l.bad.contains (pa % 64)
  | none, none => s.badByte pa

/-! ### Order among the strand's own operations (R238, R295, R304) -/

/-- Does an event read a lane's bytes at a place? -/
def readsAt (u : Units) (lane place : Nat) : Bool :=
  match u with
  | .all => true
  | .read l => l.contains (lane, place)
  | _ => false

/-- Does an event write a lane's bytes at a place? -/
def writesAt (u : Units) (lane place : Nat) : Bool :=
  match u with
  | .all => true
  | .write l => l.contains (lane, place)
  | _ => false

/-- The units that an event performs: those that are left of its lanes at its places. -/
def picks (u : Units) (a : LaneAcc) : Bool :=
  match u with
  | .all => true
  | .read l => l.any fun x => x.1 = a.lane && a.pas.contains x.2
  | .write l => l.any fun x => x.1 = a.lane && a.pas.contains x.2
  | .accept => false

/-- The units of an operation that have not been performed. -/
def Op.undone (o : Op) : List LaneAcc := o.lanes.filter fun a => !a.done

/-- The units that an event performs of an operation. -/
def Op.picked (o : Op) (u : Units) : List LaneAcc := o.undone.filter (picks u)

/-- Do two units meet at a place? -/
def LaneAcc.meets (a b : LaneAcc) : Bool := a.pas.any fun p => b.pas.contains p

/-- Has a uniform load that stands before an operation of a serial taken a unit's data (R293, R302)? -/
def LaneAcc.seenBefore (b : LaneAcc) (n : Nat) : Bool := b.seen.any fun x => x.2 && decide (x.1 < n)

/-- Does a unit wait for an earlier one of the same thread at a place of it (R238, R295, R304)? A load may pass
an earlier store, whose data it then takes. A store whose data an earlier uniform load has taken is ordered
before the access of every lane (R302). -/
def heldByEarlier (s : State) (o : Op) (a : LaneAcc) : Bool :=
  s.st.ops.any fun x => decide (x.serial < o.serial) && x.what.ordered
    && x.lanes.any fun b => !b.done && a.meets b
      && ((sameParty o.uni x.uni a b && !(o.what = .ld && x.what = .st))
        || (!sameParty o.uni x.uni a b && b.seenBefore o.serial))

/-- Is a store that is not performed ordered before what follows a load, because the load has taken its data
(R302)? `p` picks the places that matter. -/
def seenOut (s : State) (p : Nat → Bool) : Bool :=
  s.st.ops.any fun x => x.what = .st && x.lanes.any fun b => !b.done && !b.seen.isEmpty && b.pas.any p

/-- Some units of a load take the data of stores that are not performed: the stores' units keep its serial. -/
def markSeen (o : Op) (l : List LaneAcc) (t : Strand) : Strand :=
  let took := fun (x : Op) (b : LaneAcc) =>
    x.what = .st && decide (x.serial < o.serial) && !b.done && l.any fun a => sameParty o.uni x.uni a b && a.meets b
  let mark := fun (x : Op) (b : LaneAcc) => if took x b then { b with seen := (o.serial, o.uni) :: b.seen } else b
  { t with ops := t.ops.map fun (x : Op) => { x with lanes := x.lanes.map (mark x) } }

/-- Does the write of a unit wait for an atomic of the strand that the L2 has accepted and not applied (R295)? -/
def heldByDeferred (s : State) (o : Op) (a : LaneAcc) : Bool :=
  o.what ≠ .ld && s.qnt.any fun q => q.strand = s.st.ref && a.pas.any (fun p => q.pas.contains p)

/-- Must a unit wait for the strand's own earlier accesses: to its place, or on SO pages (R295, R298)? -/
def heldUnit (s : State) (o : Op) (a : LaneAcc) : Bool :=
  o.what.ordered && (heldByEarlier s o a || heldByDeferred s o a || (a.ord = 0 && soAhead s o.uni o.serial a))

/-- Must a read that an instruction makes as it issues wait for the strand's own accesses to its places, or on
SO pages (R238, R295, R298, R304)? -/
def readHeld (s : State) (r : MemReq) (parts : List (Nat × DWord × PagePart)) : Bool :=
  let l := parts.flatMap (laneUnits r 0)
  let o : Op := { opOf r l s with serial := s.nextSerial, what := .atom }
  l.any fun a => heldByEarlier s o a || (a.ord = 0 && soAhead s r.uni o.serial a)

/-- Is the operation a release that must still wait (R239)? -/
def releaseHeld (s : State) (o : Op) : Bool :=
  o.after.any (fun n => s.st.ops.any (fun x => x.serial = n))
    || o.afterM.any (fun n => s.blk.mops.any (fun m => m.seq = n))

/-- Does the operation write an RDUP line whose holders have not acknowledged (R232)? -/
def rdupHeld (o : Op) : Bool :=
  o.lanes.any fun a => a.rdup && !a.done && (o.what = .st || o.what = .atom || o.what = .promote)

/-- May some units of the operation be performed? -/
def mayPerform (s : State) (o : Op) (l : List LaneAcc) : Bool := !releaseHeld s o && l.all fun a => !heldUnit s o a

/-! ### Performing stores and atomics at memory -/

/-- The lane whose unit stands where lanes overlap: the free choice says of each later lane whether it wins
(R235). -/
def winner (free unit : Nat) : List Nat → Nat → Nat
  | [], w => w
  | i :: t, w => winner free unit t (if Config.freeLane free unit i then i else w)

/-- The writes of a store's parts of `size` bytes. Where lanes overlap, a byte takes the value of one lane, the
same for every byte of an aligned unit of at most 8 bytes. -/
def storeWrites (free size : Nat) (lanes : List LaneAcc) : List (Nat × Byte) :=
  lanes.flatMap fun a => (a.pas.zip a.data).filter fun x =>
    match (lanes.filter fun b => b.pas.contains x.1).map (·.lane) with
    | [] => true
    | i :: t => winner free (x.1 / min 8 size) t i = a.lane

/-- A strand's writes where the VALID byte of a ring's slot may stand, with its grid (R17, R208, R270). -/
def noteRing (l : List (Nat × Byte)) (s : State) : State :=
  let mine := (l.filter fun x => x.1 % 64 = 0 && x.2.msb).map fun x => (x.1, s.grd.id)
  { s with ringWrites := mine ++ s.ringWrites }

/-- Performs the writes of the focus strand: memory, its core's L1. A line that is written in part is read first. -/
def performWrites (l : List (Nat × Byte)) (key : Nat) (s : State) : State :=
  let s := macCheck key (partialPlaces (l.map (·.1))) s
  noteRing l (l1Write s.blk.core l (writePlaces key false l s))

/-- The key id of a lane part's line, for the write. -/
def partKey (l : List LaneAcc) : Nat := (l.head?.map (·.key)).getD 0

/-- Performs a store's parts. -/
def performStore (size : Nat) (lanes : List LaneAcc) (s : State) : State :=
  let keys := (lanes.map (·.key)).eraseDups
  let all := storeWrites s.free size lanes
  keys.foldl (fun s k =>
    performWrites (all.filter fun x => lanes.any fun a => a.key = k && a.pas.contains x.1) k s) s

/-- Does an atomic declared spc act as one? On a HOST page it acts as unp (R241). -/
def isSpc (o : Op) (a : LaneAcc) : Bool := o.use = 4 && a.mtype ≠ 2

/-- The line of the core's L1 whose value an atomic declared spc reads, if it reads a stale one (R242). -/
def staleLine (o : Op) (a : LaneAcc) (s : State) : Option L1Line :=
  if isSpc o a && a.mtype = 0 && a.ord ≠ 0 && Config.freeNat s.free a.lane % 2 = 1 then
    s.l1.find? fun x => x.core = s.blk.core && x.line = (a.pas.head?.getD 0) / 64
  else none

/-- Is a word that a lane of an atomic reads poisoned: at its home, or in the L1 line that it reads (R236, R242)? -/
def atomBad (o : Op) (s : State) (a : LaneAcc) : Bool :=
  poisoned s a.pas || (staleLine o a s).any fun l => a.pas.any fun p => l.bad.contains (p % 64)

/-- Performs one lane of an atomic at the home L2 and writes its result (R240, R242). Under spc the value read
may be the one that the core's L1 holds. Poison reads as zero and is counted (R236). -/
def performAtomLane (o : Op) (a : LaneAcc) (s : State) : State :=
  let s := macCheck a.key a.pas s
  let cur := if poisoned s a.pas then a.pas.map (fun _ => 0#8) else a.pas.map s.readByte
  let stale := match staleLine o a s with
    | some l => if a.pas.any (fun p => l.bad.contains (p % 64)) then a.pas.map (fun _ => 0#8)
      else a.pas.map (fun p => nth 0#8 l.bytes (p % 64))
    | none => cur
  let s := countPoison (if atomBad o s a then 1 else 0) s
  let new := atomBytes o.aop o.size cur a.data a.cmp
  let s := if stale = cur then performWrites (a.pas.zip new) a.key s else s
  let s := l1Drop s.blk.core (linesOf a.pas) s
  if o.nr then s
  else
    let ws := loadedWords o.size false cur ++ (if isSpc o a then [if stale = cur then 0#32 else 1#32] else [])
    { s with st := s.st.setWords o.uni o.dst a.lane ws }

/-- Writes an operation of the focus strand back. -/
def setOp (o : Op) (s : State) : State :=
  { s with st := { s.st with ops := update (fun x => x.serial = o.serial) (fun _ => o) s.st.ops } }

/-- The operation with some units marked as performed. -/
def Op.mark (o : Op) (l : List LaneAcc) : Op :=
  { o with lanes := o.lanes.map fun a => if l.contains a then { a with done := true } else a }

/-- Has every unit been performed? -/
def Op.complete (o : Op) : Bool := o.lanes.all (·.done)

/-- The operation leaves the strand's list. -/
def dropOp (serial : Nat) (s : State) : State :=
  { s with st := { s.st with ops := s.st.ops.filter fun x => x.serial ≠ serial } }

/-- The operation of a serial. -/
def opAt (t : Strand) (serial : Nat) : Option Op := t.ops.find? fun o => o.serial = serial

/-- What a completed acquire does (R239): at DIE scope and wider, the core's L1 is invalidated. -/
def acquireDone (ord scope : Nat) (s : State) : State :=
  if (ord = 1 ∨ ord = 3) ∧ scope ≥ 2 then l1Clear s.blk.core s else s

/-- An operation has completed: waits that depend on it are tested again. -/
def opDone (serial : Nat) (s : State) : State :=
  let s := dropOp serial s
  pokeBlock ⟨s.st.grid, s.st.block⟩ (pokeStrand s.st.ref s)

/-- A strand that consumes poison in a strict launch after its load has issued stops at that load.
DESIGN CHOICE, log entry 42. -/
def deliverAt (pc : DWord) (f : FaultInfo) (s : State) : Out :=
  deliver f { s with st := { s.st with pc := pc } }

end Sys2Proof.Machine
end

