-- ==== Sys2Proof/Machine/Records.lean ====
section
/-! DEFINITION. Queue headers and rings (R269, R270, R316, R317), the checks of a GRID record (R320), status
words (R276, R277) and the counts of task nodes (R321, R324). -/

namespace Sys2Proof.Machine

/-! ### Moon-core accesses to plain memory -/

/-- The tables of a handle: handle 0 stands for the anonymous tables, key id 0. DEDUCED, log entry 66. -/
def ownerKey (s : State) (h : BitVec 16) : Option Nat :=
  if h = 0 then some 0 else (s.allWorlds.find? (fun w => w.handle = h)).map (·.key)

/-- The anonymous tables as a world without a key id. -/
def anonTables (s : State) : World := { World.blank with s1root := s.anonRoot, s2root := s.anonRoot2 }

/-- The world of a key id; 0 names the anonymous tables. DEDUCED, log entry 79. -/
def tablesOf (s : State) (key : Nat) : Option World := if key = 0 then some (anonTables s) else s.world key

/-- The places of n bytes at a plain address of a world, on NORMAL pages, for an access of the moon cores, and
the key id of their page. -/
def moonPlaces (s : State) (key : Nat) (k : Access) (a : DWord) (n : Nat) : Option (List Nat × Nat) :=
  if ptrSpace a ≠ 0 then none
  else
    match tablesOf s key with
    | none => none
    | some w =>
      match checkAccess s w .moon 0 k false a n with
      | .ok ps _ _ => 
        if ps.all (fun p => p.2.2.mtype = 0) then some (allPas ps, (ps.head?.map (fun p => p.2.2.key)).getD 0)
        else none
      | .bad _ => none

/-- What the moon cores can read of n bytes at such an address: nothing where a byte is poisoned or its line
fails its MAC (R358, R374). DESIGN CHOICE, log entry 52. -/
def moonRead (s : State) (key : Nat) (k : Access) (a : DWord) (n : Nat) : Option (List Nat × Nat) :=
  match moonPlaces s key k a n with
  | some (pas, pk) => if pas.any s.badByte || !(badLines s pk pas).isEmpty then none else some (pas, pk)
  | none => none

/-- The lines of n bytes that the moon cores read are checked against their MACs (R358, R359). -/
def moonCheck (key : Nat) (k : Access) (a : DWord) (n : Nat) (s : State) : State :=
  match moonPlaces s key k a n with
  | some (pas, pk) => macCheck pk pas s
  | none => s

/-- A value read from places. -/
def valueAt (s : State) (pas : List Nat) : Nat := leNat (pas.map s.readByte)

/-! ### Status words -/

/-- REFUSED with a detail. -/
def refusedWord (detail : Nat) : Word := BitVec.ofNat 32 (0x10000000 + 65536 * detail)

/-- A status word of a code and a detail of 12 bits. -/
def statusWord (code detail : Nat) : Word := BitVec.ofNat 32 (code * 2 ^ 28 + detail % 4096 * 2 ^ 16)

/-! ### Headers and rings -/

/-- A ring's header as it stands in memory: its places, the key id of its page, and its 512 bits. -/
structure Header where
  places : List Nat
  key : Nat
  bits : BitVec 512
deriving DecidableEq, Repr

/-- Reads a header of 64 bytes. DEDUCED, log entry 52. -/
def readHeader (s : State) (key : Nat) (a : DWord) : Option Header :=
  (moonRead s key .write a 64).map fun x => ⟨x.1, x.2, BitVec.ofNat 512 (valueAt s x.1)⟩

/-- WRITE. -/
def Header.write (h : Header) : Nat := field h.bits 0 64
/-- READ. -/
def Header.read (h : Header) : Nat := field h.bits 64 64
/-- LOG2. -/
def Header.log2 (h : Header) : Nat := field h.bits 192 5
/-- The address of slot i. -/
def Header.slot (h : Header) (i : Nat) : DWord := BitVec.ofNat 64 (field h.bits 128 64 + 64 * (i % 2 ^ h.log2))
/-- Is the ring full (R269)? -/
def Header.full (h : Header) : Bool := (h.write + 2 ^ 64 - h.read) % 2 ^ 64 ≥ 2 ^ h.log2
/-- The VALID byte of slot i (R270). -/
def Header.valid (h : Header) (i : Nat) : Byte := BitVec.ofNat 8 (0x80 + i / 2 ^ h.log2 % 128)

/-- Writes a field of bytes of a header, given by its first byte. DEDUCED, log entry 66. -/
def Header.put (h : Header) (off n v : Nat) (s : State) : State :=
  writePlaces h.key false ((h.places.drop off).zip (leBytes n v)) s

/-- The work queue of a number, when it is bound. -/
def State.queue (s : State) (q : Nat) : Option Queue := s.queues.find? fun x => x.index = q

/-- The key id of the tables of a work queue: its HANDLE's. -/
def queueKey (s : State) (q : Queue) : Option Nat := ownerKey s q.bind.handle

/-- A work queue's header with the key id of its tables. -/
def queueHeader (s : State) (q : Queue) : Option (Nat × Header) :=
  match queueKey s q with
  | none => none
  | some key => (readHeader s key q.bind.header).map fun h => (key, h)

/-- A ring takes one packet or record: WRITE rises, bytes 1 to 63 are written and then VALID (R270). The slot's
place must be reachable. -/
def postImage (key : Nat) (h : Header) (image : List Byte) (s : State) : Option State :=
  let i := h.write
  (moonPlaces s key .write (h.slot i) 64).map fun x =>
    writePlaces x.2 false (x.1.zip (h.valid i :: image.drop 1)) (h.put 0 8 (i + 1) s)

/-- The image of a slot. -/
def slotImage (s : State) (key : Nat) (h : Header) (i : Nat) : Option (List Nat × BitVec 512) :=
  (moonRead s key .read (h.slot i) 64).map fun x => (x.1, BitVec.ofNat 512 (valueAt s x.1))

/-- A ring's header is read, and its MAC checked (R358). -/
def headerCheck (key : Nat) (a : DWord) (s : State) : State := moonCheck key .write a 64 s

/-- The header at an address and the slot at READ are read, and their MACs checked (R358). -/
def ringCheck (key : Nat) (a : DWord) (s : State) : State :=
  let s := headerCheck key a s
  match readHeader s key a with
  | some h => moonCheck key .read (h.slot h.read) 64 s
  | none => s

/-- As `headerCheck`, for a work queue. -/
def queueHeaderCheck (q : Queue) (s : State) : State :=
  match queueKey s q with
  | some key => headerCheck key q.bind.header s
  | none => s

/-- As `ringCheck`, for a work queue. -/
def queueCheck (q : Queue) (s : State) : State :=
  match queueKey s q with
  | some key => ringCheck key q.bind.header s
  | none => s

/-! ### GRID records -/

/-- Is a GRID record malformed: a reserved field, a limit of R14, R15, R27, R201 or R215, slots or tiles
without TWIN, no FAULTS or ENTRY, or a feature that is not accepted (R320, R373)? -/
def gridMalformed (feats : BitVec 256) (r : BitVec 512) : Bool :=
  let f := field r
  let g : Grid := { Grid.blank with record := r }
  f 508 4 ≠ 0 || f 306 11 ≠ 0 || f 30 2 ≠ 0 || f 8 8 ≠ 0x80
    || g.bdim 0 = 0 || g.bdim 1 = 0 || g.bdim 2 = 0 || g.threads > 16 * Config.gwidth
    || g.gdim 0 = 0 || g.gdim 1 = 0 || g.gdim 2 = 0 || g.nblocks ≥ 2 ^ 32
    || f 209 5 = 0 || f 223 5 < f 209 5 || f 223 5 > 16
    || f 228 9 < f 214 9 || f 228 9 > 256
    || f 237 6 > Config.twinSlots || f 243 5 > Config.twinTiles
    || f 248 14 > 8192 || f 262 9 > 256 || f 271 17 > 65536 || f 288 18 > 131072
    || (!g.twin && (f 237 6 ≠ 0 || f 243 5 ≠ 0))
    || f 384 52 = 0 || f 64 64 = 0 || f 64 2 ≠ 0 || f 122 6 ≠ 0
    || (g.twin && !feats.getLsbD 2) || (g.tolerant && !feats.getLsbD 3)
    || ((f 262 9 ≠ 0 || f 271 17 ≠ 0 || f 288 18 ≠ 0 || f 488 20 ≠ 0) && !feats.getLsbD 1)

/-- The base of the hand-over pool. -/
def Grid.poolBase (g : Grid) : DWord := BitVec.ofNat 64 (64 * g.rf 436 52)
/-- The size of the hand-over pool in bytes. -/
def Grid.poolSize (g : Grid) : Nat := 1024 * g.rf 488 20

/-! ### Task nodes -/

/-- A task control block as bits (R321). -/
abbrev Tcb := BitVec 1024

/-- Is a task control block malformed: a reserved field, a STATE or NSUCC out of range, a RECORD of another kind? -/
def tcbMalformed (t : Tcb) : Bool :=
  field t 560 16 ≠ 0 || field t 552 8 > 5 || field t 544 8 > 6
    || !(field t 8 8 = 0x80 || field t 8 8 ≤ 7 || field t 8 8 = 0x82)

/-- The record that a task control block wraps. -/
def tcbRecord (t : Tcb) : BitVec 512 := t.setWidth 512

/-- A NODE record's reserved fields and its address (R321). -/
def nodeMalformed (r : BitVec 512) : Bool := field r 16 48 ≠ 0 || field r 128 384 ≠ 0 || field r 64 7 ≠ 0

/-- A WAITVAL record's reserved fields, COND and its address (R322). -/
def waitvalMalformed (r : BitVec 512) : Bool :=
  field r 16 48 ≠ 0 || field r 168 344 ≠ 0 || field r 160 8 > 3 || field r 64 2 ≠ 0

/-- The key id under which a line was last written, or a default. -/
def lineKey (s : State) (pa d : Nat) : Nat := (s.lineKeys.lookup (pa / 64)).getD d

/-- A node moves to STATE 2 and into the ready pool, or waits for a place in it (R324). -/
def makeReady (n : NodeRef) (s : State) : State :=
  let s := writePlaces (lineKey s (n.pa + 69) n.key) false [(n.pa + 69, 2#8)] s
  if s.readyPool.length < Config.readyPool ∧ s.readyWait = [] then { s with readyPool := s.readyPool ++ [n] }
  else { s with readyWait := s.readyWait ++ [n] }

/-- Decrements PRED of a task control block by at most n, together with a read of STATE (R324). -/
def decrement (n : NodeRef) (k : Nat) (s : State) : State :=
  let pred := leNat (s.readBytes (n.pa + 64) 4)
  let left := pred - min k pred
  let st := s.readByte (n.pa + 69)
  let s := writePlaces (lineKey s (n.pa + 64) n.key) false ((List.range 4).map (fun i => n.pa + 64 + i) |>.zip (leBytes 4 left)) s
  if left = 0 ∧ st = 1 then makeReady n s else s

/-! ### What an engine still has to read and write (R271) -/

/-- The place of a byte that is still to be read. -/
def EData.place : EData → Option Nat
  | .at_ _ pa => some pa
  | .known _ _ => none

/-- The places that a packet still has to read. -/
def Packet.sources (p : Packet) : List Nat := (p.data ++ p.pending.map (·.data)).filterMap EData.place

/-- The places that a packet has still to read or to write. -/
def Packet.places (p : Packet) : List Nat := p.sources ++ p.pending.map (·.pa)

end Sys2Proof.Machine
end

