-- ==== Sys2Proof/Machine/Completion.lean ====
section
/-! DEFINITION. The events that perform outstanding operations: loads, stores, atomics, RDUP collapses, qnt merges,
scratchpad and SBM accesses, and LDA copies (R230 to R232, R237 to R245, R254, R255, R260, R261). An event that
the state does not admit does not happen. -/

namespace Sys2Proof.Machine

/-- Inserts an element at a place. -/
def insertAt {α : Type} (x : α) : List α → Nat → List α
  | [], _ => [x]
  | y :: t, 0 => x :: y :: t
  | y :: t, n + 1 => y :: insertAt x t n

/-- Some order of a list, chosen by the free values: the manual leaves the order open. DESIGN CHOICE, log entry 13. -/
def anyOrder {α : Type} (free : Nat) : List α → List α
  | [] => []
  | x :: t => insertAt x (anyOrder free t) (Config.freeNat free t.length % (t.length + 1))

/-- Brings the strand of an operation into focus, with the operation. -/
def withOp (r : StrandRef) (n : Nat) (s : State) (k : Op → State → Out) : Out :=
  match s.focus r with
  | none => .next s
  | some s' =>
    match opAt s'.st n with
    | none => .next s
    | some o => k o s'

/-- The parts of one lane. -/
def lanePartsOf (l : List LaneAcc) (lane : Nat) : List LaneAcc := l.filter fun a => a.lane = lane

/-! ### Loads (R237, R238, R374) -/

/-- The lanes of an operation all of whose units have been performed, of those that some units belong to. -/
def Op.whole (o : Op) (l : List LaneAcc) : List Nat :=
  ((l.map (·.lane)).eraseDups).filter fun i => (lanePartsOf o.lanes i).all (·.done)

/-- The bytes that a lane has read, put together from its units; where one of them was poisoned, the whole lane
reads zero (R236, R374), which of its bytes do being open: DESIGN CHOICE, log entry 114. -/
def Op.laneBytes (o : Op) (i : Nat) : List Byte :=
  let l := lanePartsOf o.lanes i
  if l.any (·.bad) then List.replicate o.size 0#8 else joinParts o.size (l.map fun a => (a.off, a.data))

/-- The units of an operation take what they read: their data, and whether it was poisoned. -/
def Op.take (o : Op) (l : List LaneAcc) (read : LaneAcc → List Byte) (bad : LaneAcc → Bool) : Op :=
  { o with lanes := o.lanes.map fun a => if l.contains a then { a with data := read a, bad := bad a, done := true } else a }

/-- The destinations of lanes that have read all their bytes (R230, R237). -/
def Op.deliverTo (o : Op) (lanes : List Nat) (t : Strand) : Strand :=
  lanes.foldl (fun t i => t.setWords o.uni o.dst i (loadedWords o.size o.sx (o.laneBytes i))) t

/-- An operation some of whose units have been performed goes on, or has completed. -/
def opGoesOn (o : Op) (s : State) : State :=
  if o.complete then opDone o.serial (acquireDone o.ord o.scope s) else setOp o s

/-- The fault of units that consume poison in a strict launch, at their lowest lane. -/
def poisonFault (o : Op) (hit : List LaneAcc) : FaultInfo :=
  { faultAt 0x50 ((hit.head?.map (·.va)).getD 0) with lanes := if o.uni then 0 else maskOf (hit.map (·.lane)) }

/-- The line that a core's L1 takes as a load leaves it (R238): what the load was served. After a load that the
L1 may not serve it keeps no line of it, so that no later load goes back (R304). -/
def l1Take (src : ServeFrom) (o : Op) (a : LaneAcc) (s : State) : State :=
  if a.pas.all fun p => (l1Hit s o src a p).isSome then s
  else if a.mtype ≠ 0 ∨ a.ord = 0 then l1Drop s.blk.core (linesOf a.pas) s
  else
    (linesOf a.pas).foldl (fun s line =>
      let at0 : Op := { o with serial := 0 }
      let places := linePlaces line
      let bad := (List.range 64).filter fun i => servedBad s at0 src a (64 * line + i)
      l1Put s.blk.core line (places.map (servedByte s at0 src a)) bad s) s

/-- A copy of an RDUP line that its home serves to another die makes that die a holder (R231). -/
def dupTake (a : LaneAcc) (s : State) : State :=
  if a.rdup then
    (linesOf a.pas).foldl (fun s line =>
      if homeDie s (64 * line) = dieOf s.blk.core ∨ s.dups.any (fun x => x.die = dieOf s.blk.core && x.line = line) then s
      else { s with dups := ⟨dieOf s.blk.core, line, s.readBytes (64 * line) 64⟩ :: s.dups }) s
  else s

/-- Performs units of a load: each takes its bytes, and a lane's destination is written when its last unit has.
DESIGN CHOICE, log entry 42. -/
def performLoad (o : Op) (src : ServeFrom) (l : List LaneAcc) (s : State) : Out :=
  let s := l.foldl (fun s a => macCheck a.key a.pas s) s
  let poison := fun (a : LaneAcc) => a.pas.any (servedBad s o src a)
  let hit := l.filter poison
  if !hit.isEmpty ∧ s.grd.tolerant = false then deliverAt o.pc (poisonFault o hit) (opDone o.serial s)
  else
    let o' := o.take l (fun a => a.pas.map (servedByte s o src a)) poison
    let lanes := o'.whole l
    let bad := lanes.filter fun i => (lanePartsOf o'.lanes i).any (·.bad)
    let s1 := l.foldl (fun s a => dupTake a (l1Take src o a s)) s
    .next (opGoesOn o' (countPoison bad.length { s1 with st := markSeen o l (o'.deliverTo lanes s1.st) }))

/-- Performs units of a TAGLD (R248). -/
def performTagld (o : Op) (l : List LaneAcc) (s : State) : Out :=
  let tag := fun (a : LaneAcc) => ((s.memTags.lookup ((a.pas.head?.getD 0) / 32, a.key)).getD 0#4).setWidth 32
  .next (opGoesOn (o.mark l) { s with st := l.foldl (fun t a => t.setWords o.uni o.dst a.lane [tag a]) s.st })

/-- Performs lanes of an atomic, in some order, and goes on; poison is consumed first (R236). -/
def performAtoms (o : Op) (l : List LaneAcc) (s : State) (k : State → Out) : Out :=
  let s := l.foldl (fun s a => macCheck a.key a.pas s) s
  let hit := l.filter (atomBad o s)
  if !hit.isEmpty ∧ s.grd.tolerant = false then deliverAt o.pc (poisonFault o hit) (opDone o.serial s)
  else k ((anyOrder s.free l).foldl (fun s a => performAtomLane o a s) s)

/-- Performs lanes of an atomic, and with the last of them the atomic. -/
def performAtom (o : Op) (l : List LaneAcc) (s : State) : Out :=
  performAtoms o l s fun s => .next (opGoesOn (o.mark l) s)

/-- LOAD_COMPLETE: units of a load, a TAGLD or an atomic that returns its value are performed; the destination is
written, and with the last unit the operation leaves its counter (R37). -/
def execLoadComplete (r : StrandRef) (x : PartOf) (src : ServeFrom) (s : State) : Out :=
  withOp r x.num s fun o s' =>
    let l := o.picked x.units
    if !mayPerform s' o l then .next s
    else if o.what = .ld then performLoad o src l s'
    else if o.what = .tagld then performTagld o l s'
    else if o.what = .atom ∧ !o.nr ∧ !rdupHeld o then performAtom o l s'
    else .next s

/-! ### Stores (R37, R237) -/

/-- A lane of an atomic that the home L2 has accepted and applies later: one declared qnt or nor (R241). -/
def deferAtom (o : Op) (a : LaneAcc) (s : State) : State :=
  { s with
    qnt := s.qnt ++ [⟨s.packetCount, s.st.ref, o.pc, a.va, a.pas, o.aop, o.use, o.scope, o.size,
      BitVec.ofNat 64 (leNat a.data), a.cmp, a.key, s.blk.core, s.clock⟩]
    packetCount := s.packetCount + 1 }

/-- May the L2 accept an atomic's lane and apply it later? On HOST pages qnt acts as unp (R241); an SO access is
performed where it stands in its order (R298). DEDUCED, log entry 84. -/
def mayDefer (a : LaneAcc) : Bool := a.mtype ≠ 2 && a.ord ≠ 0

/-- Performs or accepts lanes of an atomic that returns no value: those declared qnt are deferred, and those
declared nor where the event says so. -/
def acceptAtom (o : Op) (u : Units) (l : List LaneAcc) (s : State) : Out :=
  let late := if o.use = 3 then l.filter mayDefer
    else if o.use = 2 ∧ u = .accept then o.undone.filter mayDefer else []
  let s := late.foldl (fun s a => deferAtom o a s) s
  performAtom (o.mark late) (l.filter fun a => !late.contains a) s

/-- Sets the tag of a granule (R248). DEDUCED, log entry 39. -/
def setTag (a : LaneAcc) (s : State) : State :=
  let g := ((a.pas.head?.getD 0) / 32, a.key)
  let tag : BitVec 4 := ((a.data.head?.getD 0).setWidth 4)
  { s with memTags := (if tag = 0 then [] else [(g, tag)]) ++ s.memTags.filter (fun x => x.1 ≠ g) }

/-- The result of a promotion is written when its last write is acknowledged (R250). -/
def promoteResult (o : Op) (s : State) : State :=
  match o.lanes.head? with
  | some a => { s with st := s.st.sset64 o.dst a.cmp }
  | none => s

/-- TSIG's decrement (R342). It is performed at the home L2, and the core's L1 keeps no line of it. -/
def tsigResult (o : Op) (s : State) : State :=
  match o.lanes.head? with
  | some a =>
    l1Drop s.blk.core (linesOf a.pas) (decrement ⟨s.wld.key, a.va, a.pas.head?.getD 0 - 64⟩ a.cmp.toNat s)
  | none => s

/-- Units of a store, TAGST or PROMOTE that are performed, and its effect as a whole with the last of them. -/
def storesOn (o : Op) (l : List LaneAcc) (s : State) : State :=
  let o' := o.mark l
  if o'.complete then opDone o.serial (if o.what = .promote then promoteResult o s else s) else setOp o' s

/-- STORE_COMPLETE: units of a store, TAGST, atomic without a return value, PROMOTE or TSIG are performed, and
with the last of them the operation is acknowledged (R37). -/
def execStoreComplete (r : StrandRef) (x : PartOf) (s : State) : Out :=
  withOp r x.num s fun o s' =>
    let l := o.picked x.units
    if !mayPerform s' o (if x.units = .accept ∨ o.what = .tsig then o.undone else l) || rdupHeld o then .next s
    else if o.what = .st then .next (storesOn o l (performStore o.size l s'))
    else if o.what = .tagst then .next (storesOn o l ((anyOrder s'.free l).foldl (fun s a => setTag a s) s'))
    else if o.what = .promote then .next (storesOn o l (performStore 1 l s'))
    else if o.what = .tsig then .next (opDone x.num (tsigResult o s'))
    else if o.what = .atom ∧ o.nr then acceptAtom o x.units l s'
    else .next s

/-! ### RDUP collapse and qnt merge (R232, R241) -/

/-- RDUP_COLLAPSE: the holders of the RDUP lines of units of a write have acknowledged, and the collapse unit performs
them. -/
def execRdupCollapse (r : StrandRef) (x : PartOf) (s : State) : Out :=
  withOp r x.num s fun o s' =>
    let l := (o.picked x.units).filter (·.rdup)
    if !mayPerform s' o l || !rdupHeld o then .next s
    else if o.what = .atom then performAtoms o l s' fun s => .next (setOp (o.mark l) s)
    else .next (setOp (o.mark l) (performStore (if o.what = .promote then 1 else o.size) l s'))

/-- The poison that a deferred atomic consumes (R236): a strict launch's strand faults at the instruction, or, when it
has stopped, a record that names the strand and the instruction is written and the grid ends as for a delivered fault.
DEDUCED, log entry 84. -/
def deferredPoison (q : QntAtom) (s : State) : State :=
  let f := faultAt 0x50 q.va
  match s.focus q.strand with
  | some s' => if s'.st.gone then stopped f s else delivered f { s' with st := { s'.st with pc := q.pc } }
  | none => stopped f s
where
  /-- The record of a strand that is not there to stop. -/
  stopped (f : FaultInfo) (s : State) : State :=
    let r := q.strand
    let rec_ := setField (setField (setField (plainRecord s.free f.code 0 r.grid f.addr 0 0 0) 64 64 q.pc.toNat) 32 32 r.block)
      16 4 r.idx
    let s := recordFor r.grid 0 0 rec_ s
    if (s.grid r.grid).any (·.continue_) then s else endGrid r.grid f.code s

/-- Is the launch of a grid tolerant? -/
def tolerantGrid (s : State) (g : Nat) : Bool := (s.grid g).any (·.tolerant)

/-- Applies a deferred atomic at the home L2 (R241). Poison reads as zero and is counted, or faults (R236). The core
that issued it keeps no line of it (R306). -/
def applyQnt (q : QntAtom) (s : State) : State :=
  let s := macCheck q.key q.pas s
  let bad := poisoned s q.pas
  if bad && !tolerantGrid s q.strand.grid then deferredPoison q s
  else
    let old := if bad then q.pas.map fun _ => 0#8 else q.pas.map s.readByte
    let s := if bad then recordFor q.strand.grid 1 1 0 s else s
    l1Drop q.core (linesOf q.pas)
      (writePlaces q.key false (q.pas.zip (atomBytes q.aop q.size old (leBytes 8 q.data.toNat) q.cmp)) s)

/-- Applies the deferred atomics that p picks, in some order, and then the strands that waited for them go on. -/
def applyDeferred (p : QntAtom → Bool) (s : State) : State :=
  let mine := s.qnt.filter p
  let s := (anyOrder s.free mine).foldl (fun s q => applyQnt q s) { s with qnt := s.qnt.filter fun q => !p q }
  mine.foldl (fun s q => pokeStrand q.strand s) s

/-- QNT_MERGE: deferred atomics on the word of one of them are applied at the home L2 (R241). DEDUCED, log entry
84. -/
def execQntMerge (n : Nat) (s : State) : Out :=
  match s.qnt.find? (fun q => q.num = n) with
  | none => .next s
  | some q => .next (applyDeferred (fun x => x.pas = q.pas) s)

/-! ### Scratchpad and SBM (R254, R255, R258) -/

/-- Is the operation on the SBM? -/
def OpWhat.onSbm (w : OpWhat) : Bool := w = .gld || w = .gst || w = .gop

/-- The bytes that an on-chip operation reaches, and their poison. -/
def chipMem (s : State) (sbm : Bool) : Memory × List Nat :=
  if sbm then (s.grd.sbm, s.grd.sbmPoison) else (s.blk.scratch, s.blk.scratchPoison)

/-- Writes bytes of the scratchpad or the SBM; the bytes written lose their poison (R374). -/
def chipWrite (sbm : Bool) (l : List (Nat × Byte)) (s : State) : State :=
  let clear := fun (p : List Nat) => p.filter fun a => !(l.any fun x => x.1 = a)
  if sbm then
    { s with grd := { s.grd with sbm := Memory.writeAt s.grd.sbm l, sbmPoison := clear s.grd.sbmPoison } }
  else
    { s with blk := { s.blk with scratch := Memory.writeAt s.blk.scratch l, scratchPoison := clear s.blk.scratchPoison } }

/-- The bytes of a lane, zero where they are poisoned. -/
def chipBytes (s : State) (sbm : Bool) (a : LaneAcc) : List Byte :=
  let m := chipMem s sbm
  if a.pas.any (fun p => m.2.contains p) then a.pas.map (fun _ => 0#8) else a.pas.map (Memory.read m.1)

/-- One lane of an ATOMS or GOP. -/
def chipAtomLane (o : Op) (a : LaneAcc) (s : State) : State :=
  let sbm := o.what.onSbm
  let old := chipBytes s sbm a
  let s := chipWrite sbm (a.pas.zip (atomBytes o.aop o.size old a.data a.cmp)) s
  if o.nr then s else { s with st := s.st.setWords o.uni o.dst a.lane (loadedWords o.size false old) }

/-- The units of an on-chip load take their bytes, and the lanes that have all of theirs write their destinations. -/
def chipLoad (o : Op) (l : List LaneAcc) (s : State) : Op × State :=
  let sbm := o.what.onSbm
  let o' := o.take l (chipBytes s sbm) (fun a => a.pas.any fun p => (chipMem s sbm).2.contains p)
  (o', { s with st := o'.deliverTo (o'.whole l) s.st })

/-- The effect of units of an on-chip operation whose checks have passed. Lanes of one word are updated in ascending
order (R255). -/
def chipEffect (o : Op) (l : List LaneAcc) (s : State) : Op × State :=
  let sbm := o.what.onSbm
  if o.what = .lds ∨ o.what = .gld then chipLoad o l s
  else if o.what = .sts ∨ o.what = .gst then (o.mark l, chipWrite sbm (storeWrites s.free o.size l) s)
  else (o.mark l, l.foldl (fun s a => chipAtomLane o a s) s)

/-- SCRATCHPAD_ACCESS_PERFORMED: units of an access are performed at their banks; a store that meets a barrier
armed since it issued faults whole (R283, R287): once some of its units are performed, no barrier that it
touches is armed. -/
def execScratchpadAccessPerformed (r : StrandRef) (x : PartOf) (s : State) : Out :=
  withOp r x.num s fun o s' =>
    if !o.what.onChip || releaseHeld s' o then .next s
    else
      let l := o.picked x.units
      let sbm := o.what.onSbm
      let armed := if o.what = .sts ∨ o.what = .atoms then
        o.undone.filter (fun a => touchesArmed s'.blk a.va.toNat a.pas.length) else []
      let bad := if o.what = .sts ∨ o.what = .gst then []
        else l.filter (fun a => a.pas.any fun p => (chipMem s' sbm).2.contains p)
      match armed, bad with
      | a :: _, _ =>
        deliverAt o.pc { faultAt 0x41 a.va with lanes := if o.uni then 0 else maskOf (armed.map (·.lane)) } (opDone x.num s')
      | [], [] => let (o', t) := chipEffect o l s'; .next (opGoesOn o' t)
      | [], _ :: _ =>
        if s'.grd.tolerant then
          let (o', t) := chipEffect o l s'
          let fresh := ((bad.map (·.lane)).eraseDups).filter fun i => !(lanePartsOf o.lanes i).any (·.bad)
          .next (opGoesOn o' (countPoison fresh.length t))
        else deliverAt o.pc (poisonFault o bad) (opDone x.num s')

/-! ### LDA (R260, R261, R265) -/

/-- Source units of an LDA are read at their home: a poisoned one reads zero and is counted for its lane (R265). -/
def ldaRead (o : Op) (l : List LaneAcc) (s : State) : Op × State :=
  let s := l.foldl (fun s a => macCheck a.key a.pas s) s
  let o' := o.take l (fun a => a.pas.map fun x => if s.badByte x then 0#8 else s.readByte x) (fun a => poisoned s a.pas)
  let hit := ((l.filter fun a => poisoned s a.pas).map (·.lane)).eraseDups.filter fun i =>
    !(lanePartsOf o.lanes i).any (·.bad)
  (o', countPoison hit.length s)

/-- The scratchpad address of a lane of an LDA. -/
def Op.target (o : Op) (i : Nat) : Nat := (((lanePartsOf o.lanes i).head?.map LaneAcc.cmp).getD 0#64).toNat

/-- The offsets of a lane's target bytes that are not written, in the units in which they are (R294), where every
source byte of the unit has been read. -/
def ldaReady (o : Op) (i : Nat) : List (List Nat) :=
  let src := lanePartsOf o.lanes i
  let u := unitBytes o.size (BitVec.ofNat 64 (o.target i))
  ((List.range (o.size / u)).map fun k => (List.range u).map (u * k + ·)).filter fun l =>
    l.all fun k => !o.wrote.contains (i, k) && src.all fun a => a.done || !(a.off ≤ k && k < a.off + a.pas.length)

/-- Writes units of a lane: copied bytes, and zero past the valid ones (R261). Bytes of armed barriers are dropped and
counted (R281). DEDUCED, log entry 47. -/
def ldaWrite (o : Op) (i : Nat) (units : List (List Nat)) (s : State) : Op × State :=
  let p := o.target i
  let bytes := joinParts o.size ((lanePartsOf o.lanes i).map fun a => (a.off, a.data))
  let offs := units.flatten
  let hit := s.blk.armed.filter fun g => offs.any fun k => (p + k) / 16 = g
  let s := chipWrite false ((offs.map fun k => (p + k, nth 0 bytes k)).filter fun x => !hit.contains (x.1 / 16)) s
  ({ o with wrote := o.wrote ++ offs.map fun k => (i, k) },
    { s with blk := { s.blk with bbdrops := BitVec.ofNat 32 (satAdd32 s.blk.bbdrops.toNat hit.length) } })

/-- Writes the units that an event picks, of every lane whose source bytes for them have been read. -/
def ldaWrites (p : Nat × Nat → Bool) (o : Op) (s : State) : Op × State :=
  (anyOrder s.free o.laneList).foldl (fun x i =>
    ldaWrite x.1 i ((ldaReady x.1 i).filter fun l => l.any fun k => p (i, x.1.target i + k)) x.2) (o, s)

/-- Have every lane's bytes been written? -/
def ldaWritten (o : Op) : Bool := o.laneList.all fun i => (List.range o.size).all fun k => o.wrote.contains (i, k)

/-- An LDA completes: its tag's counter falls, and in a strict launch the tag keeps that it has read poison, for
the first WAITTAG that waits for it (R265). -/
def ldaDone (o : Op) (s : State) : State :=
  let s := if o.lanes.any (·.bad) && !s.grd.tolerant then
    { s with st := { s.st with poisonTags := s.st.poisonTags ||| (1#8 <<< o.tag) } } else s
  opDone o.serial s

/-- LDA_COMPLETE: units of the lanes that have passed their checks are read or written, or all that is left of
them; once they are written, and every lane has passed or the strand that would try the others has stopped, the
LDA completes. -/
def execLdaComplete (r : StrandRef) (x : PartOf) (s : State) : Out :=
  withOp r x.num s fun o s' =>
    if o.what ≠ .lda then .next s
    else
      let l := o.picked x.units
      let y := match x.units with
        | .all => let y := ldaRead o l s'; ldaWrites (fun _ => true) y.1 y.2
        | .read _ => ldaRead o l s'
        | .write p => ldaWrites p.contains o s'
        | .accept => (o, s')
      .next (if (y.1.collapsed || s'.st.gone) && ldaWritten y.1 then ldaDone y.1 y.2 else setOp y.1 y.2)

end Sys2Proof.Machine
end

