-- ==== Sys2Proof/Machine/Special.lean ====
section
/-! DEFINITION. SGET and SSET: the special registers (R25, R26, R125, R133, R134, R193, R200, R281). -/

namespace Sys2Proof.Machine

/-- The pointer to offset 0 of a live slot (R193, R198, R200). -/
def slotPointer (id : SlotId) (gen : BitVec 10) : DWord :=
  let low := match id with
    | .grid n => 2 ^ 58 + 2 ^ 38 * n
    | .block d n => 2 * 2 ^ 58 + 2 ^ 46 * d + 2 ^ 32 * n
    | .thread c t l b =>
      3 * 2 ^ 58 + 2 ^ 46 * (c / 96) + 2 ^ 41 * (c / 4 % 24) + 2 ^ 39 * (c % 4) + 2 ^ 35 * t + 2 ^ 28 * l + 2 ^ 24 * b
  BitVec.ofNat 64 (low + 2 ^ 48 * gen.toNat)

/-- TARENA: the thread arena of lane 0 of the strand, or 0 (R200). -/
def State.tarena (s : State) : DWord :=
  match s.slots.find? fun r => r.state = 1 && r.owner = .thread s.st.grid s.st.block s.st.idx 0 with
  | some r => slotPointer r.id r.gen
  | none => 0

/-- The value of a special register. -/
def special (s : State) (x : Nat) : DWord :=
  let n := fun (k : Nat) => BitVec.ofNat 64 k
  let g := s.grd
  if x = 0x00 then s.clock
  else if x = 0x01 then n Config.gwidth
  else if x = 0x02 then n s.st.idx
  else if x = 0x03 then n s.blk.id
  else if x = 0x04 then n g.nblocks
  else if x = 0x05 then n g.id
  else if x = 0x06 then n (s.blk.id % g.gdim 0)
  else if x = 0x07 then n (s.blk.id / g.gdim 0 % g.gdim 1)
  else if x = 0x08 then n (s.blk.id / (g.gdim 0 * g.gdim 1))
  else if x ≤ 0x0B then n (g.gdim (x - 0x09))
  else if x ≤ 0x0E then n (g.bdim (x - 0x0C))
  else if x = 0x0F then s.place.setWidth 64
  else if x = 0x10 then s.st.resumes.setWidth 64
  else if x = 0x11 then s.st.trapvec
  else if x = 0x12 then s.st.trapcause.setWidth 64
  else if x = 0x13 then s.st.cqsel.setWidth 64
  else if x ≤ 0x27 then n (field s.accepted (32 * (x - 0x20)) 32)
  else if x = 0x28 then s.st.trapret
  else if x = 0x29 then s.blk.barena
  else if x = 0x2A then g.garena
  else if x = 0x2B then s.tarena
  else if x = 0x2C then s.blk.bbdrops.setWidth 64
  else n (if s.st.trapmask then 1 else 0)

/-- SGET (R133). -/
def execSget (f : AluSget) (s : State) : Out :=
  let v := special s f.x.toNat
  if specialWide f.x then uniResult64 (.sget f) f.n f.d v s
  else uniResult (.sget f) f.n f.d (v.setWidth 32) s

/-- SSET (R134): CQSEL takes bits [7:0] of the value and TRAPMASK bit 0 (R5). DEDUCED, log entry 23. -/
def execSset (f : AluX) (s : State) : Out :=
  guarded (.aluX 0x3F f) s fun s =>
    let t := s.st
    let t :=
      if f.x = 0x11 then { t with trapvec := s.arg64 f.a }
      else if f.x = 0x28 then { t with trapret := s.arg64 f.a }
      else if f.x = 0x13 then { t with cqsel := (s.arg f.a).setWidth 8 }
      else { t with trapmask := (s.arg f.a).getLsbD 0 }
    zeroResult (.aluX 0x3F f) { s with st := t }

end Sys2Proof.Machine
end

