-- ==== Sys2Proof/Machine/Arenas.lean ====
section
/-! DEFINITION. Arenas: creation (R201, R205), destruction and generations (R204), quarantine (R206), and the refill
of the page pools (R203, R356). -/

namespace Sys2Proof.Machine

/-! ### Memory that system software has given -/

/-- Do two ranges meet? -/
def Range.meets (a b : Range) : Bool := a.base < b.base + b.len && b.base < a.base + a.len

/-- Does a range lie within another? -/
def Range.within (a b : Range) : Bool := b.base ≤ a.base && a.base + a.len ≤ b.base + b.len

/-- Ranges that are still to be scrubbed: none of their pages is assigned (R363). -/
def scrubHeld (s : State) : List Range := s.scrub.map fun r => ⟨r.base, r.len⟩

/-- The first range of `size` bytes, aligned to `align`, in given memory that is not used. -/
def carve (given used : List Range) (size align : Nat) : Option Range :=
  let starts := (given.map (·.base) ++ used.map (fun u => u.base + u.len)).map fun b => roundUp b align
  let ok := fun (b : Nat) =>
    let r : Range := ⟨b, size⟩
    given.any (fun g => r.within g) && !used.any (fun u => r.meets u)
  ((starts.filter ok).foldl (fun (m : Option Nat) b => some (match m with | none => b | some x => min x b)) none).map
    fun b => ⟨b, size⟩

/-- Changes the reserve of a VMID (R356). -/
def mapReserve (vmid : BitVec 16) (f : Reserve → Reserve) (s : State) : State :=
  { s with reserves := update (fun x => x.vmid = vmid) f s.reserves }

/-- Takes a range of an anonymous world's reserve (R356). -/
def takeReserve (s : State) (w : World) (save : Bool) (size align : Nat) : Option (Range × State) :=
  match s.reserves.find? (fun x => x.vmid = w.vmid) with
  | none => none
  | some v =>
    (carve (if save then v.save else v.given) ((if save then v.saveUsed else v.used) ++ scrubHeld s) size align).map fun r =>
      (r, mapReserve w.vmid (fun v => if save then { v with saveUsed := r :: v.saveUsed } else { v with used := r :: v.used })
        s)

/-- Takes a range for a world's arena pools from its given memory, or from its VMID's reserve when it is anonymous. -/
def takePoolMemory (s : State) (w : World) (size align : Nat) : Option (Range × State) :=
  let mark := fun (x : Range × State) => (x.1, x.2.setWorld { w with used := x.1 :: w.used })
  if w.handle = 0 then (takeReserve s w false size align).map mark
  else ((carve w.given (w.used ++ scrubHeld s) size align).map fun r => (r, s)).map mark

/-- Takes a save area from a world's save pool (R335): for an anonymous world, from the areas that it has drawn,
or from its VMID's reserve. -/
def takeSave (s : State) (w : World) (size : Nat) : Option (Range × State) :=
  let mark := fun (x : Range × State) =>
    (x.1, x.2.setWorld { w with saveUsed := x.1 :: w.saveUsed, saveDrawn := insertRange x.1 w.saveDrawn })
  if w.handle = 0 then
    (((carve w.saveDrawn w.saveUsed size 4096).map fun r => (r, s)).or (takeReserve s w true size 4096)).map mark
  else ((carve w.save (w.saveUsed ++ scrubHeld s) size 4096).map fun r => (r, s)).map mark
where
  /-- Adds a range to those that a world has drawn. -/
  insertRange (r : Range) (l : List Range) : List Range := if l.any r.within then l else r :: l

/-- Gives a save area back to its world's pool; it is scrubbed when the world retires (R335, R363). -/
def returnSave (key : Nat) (r : Range) (s : State) : State :=
  match s.world key with
  | none => s
  | some w => s.setWorld { w with saveUsed := w.saveUsed.filter (· ≠ r) }

/-- Puts a page into a world's pool of a die. -/
def World.addPage (w : World) (die : Nat) (big : Bool) (pa : Nat) : World :=
  if w.pools.any (fun p => p.die = die && p.big = big) then
    { w with pools := update (fun p => p.die = die && p.big = big) (fun p => { p with pages := p.pages ++ [pa] }) w.pools }
  else { w with pools := w.pools ++ [⟨die, big, [pa]⟩] }

/-- The size of a pool's pages. -/
def poolPage (big : Bool) : Nat := if big then 2097152 else 65536

/-- Takes up to n pages for a pool. -/
def refill (key die : Nat) (big : Bool) : Nat → State → State
  | 0, s => s
  | n + 1, s =>
    match s.world key with
    | none => s
    | some w =>
      match takePoolMemory s w (poolPage big) (poolPage big) with
      | none => s
      | some (r, s) =>
        match s.world key with
        | none => s
        | some w => refill key die big n (s.setWorld (w.addPage die big r.base))

/-- Has the pool a page, or the world memory to give it (R203)? -/
def poolServed (s : State) (key die : Nat) (big : Bool) : Bool :=
  match s.world key with
  | none => false
  | some w => (takePage w die big).isSome || (takePoolMemory s w (poolPage big) (poolPage big)).isSome

/-- The pool that an ARENA_EXHAUSTED found empty, for a party on a die: the die that backs the page, and the
size of its pages (R202, R203). -/
def emptyPool (f : FaultInfo) (die : Nat) : Option (Nat × Bool) :=
  if f.code ≠ codeArenaExhausted then none
  else (ptrSlot f.addr).map fun id => (slotDie id die, decide (slotPage id = 2097152))

/-- ARENA_POOL_REFILL (R203). -/
def execArenaPoolRefill (key die : Nat) (big : Bool) (n : Nat) (s : State) : Out := .next (refill key die big n s)

/-! ### Creation -/

/-- Is a slot free? -/
def slotFree (s : State) (id : SlotId) : Bool := (slotRec s id).state = 0

/-- The lowest-numbered free grid slot (R205). -/
def freeGridSlot (s : State) : Option SlotId := (firstFrom (fun n => slotFree s (.grid n)) 0 1024).map .grid

/-- The lowest-numbered free block slot of a die. -/
def freeBlockSlot (s : State) (die : Nat) : Option SlotId :=
  (firstFrom (fun n => slotFree s (.block die n)) 0 16384).map (.block die)

/-- The lowest bank whose slots at a strand position are all free. -/
def freeBank (s : State) (core strand : Nat) : Option Nat :=
  firstFrom (fun b => laneIds.all fun l => slotFree s (.thread core strand l b)) 0 16

/-- An arena in a free slot: its cursor at 0, no page backed. The place of its page map is the moon cores' own. -/
def createArena (id : SlotId) (cls cap key : Nat) (owner : Owner) (s : State) : State :=
  let r := slotRec s id
  setSlotRec s { r with
    state := 1, cls := cls, world := key, cursor := 0, cap := cap, pages := [], dies := [], owner := owner,
    map := 64 * (Config.freeNat s.free (2 ^ 65 + s.slots.length) % 2 ^ 46) }

/-! ### Destruction -/

/-- Does a place lie in a page of the slot? -/
def inSlot (r : SlotRec) (pa : Nat) : Bool := r.pages.any fun p => p.2 ≤ pa && pa < p.2 + slotPage r.id

/-- Has an operation passed its checks on a page of the slot without being performed? -/
def opOnSlot (r : SlotRec) (o : Op) : Bool :=
  !o.what.onChip && o.lanes.any fun a => !a.done && a.pas.any (inSlot r)

/-- Is an access outstanding that has passed the generation check of the slot: a strand's, a matrix load's or an
engine's (R204)? -/
def slotBusy (s : State) (r : SlotRec) : Bool :=
  s.packets.any (fun p => p.places.any (inSlot r)) || s.allBlocks.any fun b =>
    b.strands.any (fun t => t.ops.any (opOnSlot r))
      || b.mops.any fun m => m.parts.any fun a => a.pas.any (inSlot r)

/-- Applies the deferred atomics on pages of a slot. -/
def flushQnt (r : SlotRec) (s : State) : State := applyDeferred (fun q => q.pas.any (inSlot r)) s

/-- Has every world that was live at the wrap retired (R206)? -/
def quarantineOver (s : State) (r : SlotRec) : Bool := s.allWorlds.all fun w => !w.live || w.epoch > r.wrapEpoch

/-- Slots whose quarantine is over are free. -/
def leaveQuarantine (s : State) : State :=
  { s with slots := update (fun r => r.state = 2 && quarantineOver s r) (fun r => { r with state := 0 }) s.slots }

/-- The page of a slot goes back, zeroed, to the pool that it came from. -/
def returnPage (r : SlotRec) (p : Nat × Nat) (s : State) : State :=
  let s := zeroPage s p.2 (slotPage r.id)
  match s.world r.world with
  | none => s
  | some w => s.setWorld (w.addPage ((r.dies.lookup p.1).getD 0) (slotPage r.id = 2097152) p.2)

/-- A slot's destruction is finished: pages return, GEN rises, and the slot is free or, when GEN wraps,
quarantined. -/
def finishSlot (r : SlotRec) (s : State) : State :=
  let s := r.pages.foldl (fun s p => returnPage r p s) (flushQnt r s)
  let r := { r with gen := r.gen + 1, pages := [], dies := [], owner := .none }
  if r.gen = 0 then leaveQuarantine (setSlotRec s { r with state := 2, wrapEpoch := s.epoch })
  else setSlotRec s { r with state := 0 }

/-- ARENA_DESTRUCTION: once the accesses that have passed the check are performed (R204). -/
def execArenaDestruction (id : SlotId) (s : State) : Out :=
  let r := slotRec s id
  if r.state ≠ 3 || slotBusy s r then .next s else .next (finishSlot r s)

/-- Slots that p picks are destroyed, and those on which no access is outstanding are finished at once. -/
def dropSlots (p : SlotRec → Bool) (s : State) : State :=
  let mine := s.slots.filter fun r => (r.state = 1 || r.state = 3) && p r
  mine.foldl (fun s r =>
    if slotBusy s r then setSlotRec s { r with state := 3 } else finishSlot r s) s

/-- Is the slot a block's or one of its threads'? -/
def ofBlock (g b : Nat) (r : SlotRec) : Bool :=
  match r.owner with
  | .block g' b' => g = g' && b = b'
  | .thread g' b' _ _ => g = g' && b = b'
  | _ => false

end Sys2Proof.Machine
end

