-- ==== Sys2Proof/Machine/Control.lean ====
section
/-! DEFINITION. Control instructions (R18, R29, R113 to R128, R249, R267, R280, R286). A wait that is over
marks `attempt`, and the instruction completes when the strand next runs. -/

namespace Sys2Proof.Machine

/-- A branch target: the word's address plus 4·OFF (R66). -/
def branchTarget (s : State) (off : BitVec 16) : DWord := s.st.pc + (off.signExtend 64 <<< 2)

/-- Control passes to a target and the clause ends (R53, R113). -/
def jump (target : DWord) (s : State) : Out := .next (endClause target false s)

/-- A conditional branch that is not taken lets its clause run on. -/
def branchIf (f : Form) (taken : Bool) (off : BitVec 16) (s : State) : Out :=
  if taken then jump (branchTarget s off) s else finish f s

/-- Is the wait of the instruction over? DESIGN CHOICE, log entry 18. -/
def State.waited (s : State) : Bool := s.st.attempt.isSome

/-- NOP. -/
def execNop (s : State) : Out := finish (.none 0x00) s

/-- BRA (R113). -/
def execBra (off : BitVec 16) (s : State) : Out := jump (branchTarget s off) s

/-- BRS.z: taken when sA = 0. -/
def execBrsZ (c : BitVec 6) (off : BitVec 16) (s : State) : Out :=
  let f : Form := .br 0x02 (scalarCode c) off
  guarded f s fun s => branchIf f (s.st.sget c.toNat = 0) off s

/-- BRS.nz: taken when sA ≠ 0. -/
def execBrsNz (c : BitVec 6) (off : BitVec 16) (s : State) : Out :=
  let f : Form := .br 0x03 (scalarCode c) off
  guarded f s fun s => branchIf f (s.st.sget c.toNat ≠ 0) off s

/-- BRM.any: taken when some bit of mN is 1 (R114). -/
def execBrmAny (m : BitVec 4) (off : BitVec 16) (s : State) : Out :=
  let f : Form := .br 0x04 (m.setWidth 8) off
  guarded f s fun s => branchIf f (s.st.mget m.toNat ≠ 0) off s

/-- BRM.all: taken when every present lane's bit of mN is 1. -/
def execBrmAll (m : BitVec 4) (off : BitVec 16) (s : State) : Out :=
  let f : Form := .br 0x05 (m.setWidth 8) off
  guarded f s fun s => branchIf f (s.st.mget m.toNat &&& s.st.present = s.st.present) off s

/-- BRM.none: taken when no bit of mN is 1. -/
def execBrmNone (m : BitVec 4) (off : BitVec 16) (s : State) : Out :=
  let f : Form := .br 0x06 (m.setWidth 8) off
  guarded f s fun s => branchIf f (s.st.mget m.toNat = 0) off s

/-- JMPI. A target that is no clause header faults at its fetch (R115). -/
def execJmpi (p : BitVec 6) (s : State) : Out :=
  guarded (.ctl 0x07 0 (.s p) none) s fun s => jump (s.st.sget64 p.toNat) s

/-- CALL: the link pair takes the address after CALL's clause, even when the target then faults (R113). -/
def execCall (c : BitVec 6) (off : BitVec 16) (s : State) : Out :=
  let target := branchTarget s off
  jump target { s with st := s.st.sset64 c.toNat s.clauseEnd }

/-- RET: as JMPI. -/
def execRet (p : BitVec 6) (s : State) : Out :=
  guarded (.ctl 0x09 0 (.s p) none) s fun s => jump (s.st.sget64 p.toNat) s

/-- EXIT (R18): the strand ends, its thread arenas are destroyed, the barrier phase and the token are settled
(R19, R160). An LDA that has read poison and that no WAITTAG has waited for faults here in a strict launch,
where EXIT therefore comes after the strand's LDAs (R265). DEDUCED, log entry 96. -/
def execExit (s : State) : Out :=
  if s.st.ops.any (fun o => o.what = .lda) ∧ s.grd.tolerant = false then .next (waitFor .order s)
  else if s.st.poisonTags ≠ 0 ∧ s.grd.tolerant = false then deliver (faultAt 0x50 0) s
  else
    .next (afterStop (destroySlots (threadSlotOf s.st)
      { s with st := { s.st with
          status := .exited, clause := none, attempt := none, promo := none, fetched := [], bkpt := false } }))

/-- YIELD: the strand's next clause takes the youngest age (R116). -/
def execYield (s : State) : Out := finish (.none 0x0B) { s with st := { s.st with yld := true } }

/-- SLEEP (R117): the strand goes on once CLOCK reaches c + u; SLEEP 0 returns at once. -/
def execSleep (a : Opnd) (s : State) : Out :=
  let f : Form := .ctl 0x0C 0 a none
  guarded f s fun s =>
    if s.waited ∨ s.arg a = 0 then finish f s
    else .next (waitFor (.sleep (s.clock + (s.arg a).setWidth 64)) s)

/-- The request of WAITV's read: as ld.w.u (R249). -/
def waitvReq (s : State) (p : BitVec 6) : MemReq :=
  { what := .ld, kind := .waitv, uni := true, lanes := 1, addr := fun _ => s.st.sget64 p.toNat &&& ~~~3#64, size := 4,
    dst := 0, sx := false, att := { MemAtt.default with ord := 1, scope := 3 }, escape := false, data := fun _ => [],
    cmp := fun _ => 0 }

/-- What WAITV does with the word's places (R249): it completes when the word differs from B, as an acquire of
DEVICE scope, and otherwise sleeps until the line is written or 4,096 cycles have passed; a HOST word wakes it
only at the interval. -/
def waitvRead (f : Form) (b : Opnd) (part : PagePart) (s : State) : Out :=
  let s := macCheck part.key part.pas s
  let bad := part.pas.any s.badNow
  let s := readOver part.pas s
  if bad ∧ s.grd.tolerant = false then deliver (faultAt 0x50 0) s
  else
    let v : Word := if bad then 0 else BitVec.ofNat 32 (leNat (part.pas.map s.readByte))
    let s := countPoison (if bad then 1 else 0) s
    let s := l1Drop s.blk.core (linesOf part.pas) s
    if v ≠ s.arg b then finish f (acquireDone 1 3 s)
    else
      let line := if part.mtype = 2 then none else (part.pas.head?.map (· / 64))
      .next (waitFor (.waitv line (s.clock + 4096)) { s with st := { s.st with attempt := none } })

/-- WAITV. The read is one access of the strand: it comes after the strand's own outstanding stores to the
word. -/
def execWaitv (p : BitVec 6) (b : Opnd) (s : State) : Out :=
  let f : Form := .ctl 0x0D 0 (.s p) (some b)
  guarded f s fun s =>
    let r := waitvReq s p
    match checkLane r 0 s with
    | .bad x => parkOrDeliver x 1 s
    | .ok parts s' w =>
      let s' := { s' with wld := w }
      if readHeld s' r parts then .next (waitFor .order s')
      else
        match parts with
        | (_, _, part) :: _ => waitvRead f b part s'
        | [] => finish f s'

/-- TRAP (R127): raises user trap 0x60 with DETAIL n; the resume address is the word after the clause. -/
def execTrap (x : BitVec 8) (s : State) : Out := userTrap 0x60 x.toNat s.clauseEnd s

/-- TRET (R128). -/
def execTret (s : State) : Out := trapReturn s

/-- BKPT (R118): while orrery is attached, the strand stops before its next clause. -/
def execBkpt (s : State) : Out :=
  finish (.none 0x10) { s with st := { s.st with bkpt := s.st.bkpt || s.wld.attached } }

/-- ACQUIRE (R29, R119): the first one in the prologue is the block's request, aged by its cycle; each waits
until the grant. -/
def execAcquire (s : State) : Out :=
  if !s.prologue then finish (.none 0x11) s
  else
    let s := { s with blk := { s.blk with request := some (s.blk.request.getD s.clock.toNat) } }
    .next (waitFor .acquire s)

/-- A strand arrives at the barrier (R19, R121): the phase completes with the last arrival. A store whose data a
load of the strand has taken is performed first: it is ordered before that load, which has completed (R122,
R302). -/
def arrive (f : Form) (w : Wait) (s : State) : Out :=
  if s.waited then finish f s
  else if seenOut s (fun _ => true) then .next (waitFor .order s)
  else .next (completeBarrier (waitFor w s))

/-- BAR (R121). -/
def execBar (s : State) : Out := arrive (.none 0x12) .bar s

/-- A BARP (R123): the payload is the value of A, and D takes the combination when the phase completes. -/
def barp (op : BitVec 8) (d : BitVec 7) (a : Opnd) (s : State) : Out :=
  let f : Form := .ctl op d a none
  guarded f s fun s => arrive f (.barp op.toNat (s.arg a) d.toNat) s

/-- BARP.and. -/
def execBarpAnd (d : BitVec 7) (a : Opnd) (s : State) : Out := barp 0x13 d a s
/-- BARP.or. -/
def execBarpOr (d : BitVec 7) (a : Opnd) (s : State) : Out := barp 0x14 d a s
/-- BARP.add. -/
def execBarpAdd (d : BitVec 7) (a : Opnd) (s : State) : Out := barp 0x15 d a s
/-- BARP.min. -/
def execBarpMin (d : BitVec 7) (a : Opnd) (s : State) : Out := barp 0x16 d a s
/-- BARP.max. -/
def execBarpMax (d : BitVec 7) (a : Opnd) (s : State) : Out := barp 0x17 d a s

/-- WAITTAG (R267): stops its clause until the tag's counter is at most n; 63 or more completes at once. In a
strict launch it faults when an LDA that it waited for had read poison (R265). -/
def execWaittag (a b : Opnd) (s : State) : Out :=
  let f : Form := .ctl 0x18 0 a (some b)
  guarded f s fun s =>
    let tag := (s.arg a).toNat % 8
    let n := (s.arg b).toNat
    if n ≥ 63 then finish f s
    else if tagOut s.st tag > n then .next (waitFor .tag s)
    else if s.st.poisonTags.getLsbD tag ∧ s.grd.tolerant = false then deliver (faultAt 0x50 0) s
    else finish f s

/-- The CPOST whose promise register is r, when its status is still outstanding (R280). -/
def promiseOf (t : Strand) (r : Nat) : Option Owed :=
  t.owed.find? fun o => o.reg + 1 = r && !o.arrived && t.marks.getLsbD r

/-- Has CLOCK reached a promise: (CLOCK[31:0] - p) as a signed number is not negative (R280)? -/
def reached (s : State) (p : Word) : Bool := !((s.clock.setWidth 32 : Word) - p).msb

/-- Does a WAITP wait for the status alone: has its promise been reached before (R280)? -/
def State.statusWait (s : State) : Bool := s.st.attempt = some 1

/-- WAITP (R280). The wait holds the register's number and p; a wait that goes on for the status alone is
marked by `attempt`, and is over when the status has arrived. -/
def execWaitp (a : Opnd) (s : State) : Out :=
  let f : Form := .ctl 0x19 0 a none
  guarded f s fun s =>
    let reg := match a with
      | .s r => r.toNat
      | _ => 0
    let p := s.arg a
    if !s.statusWait && !reached s p then .next (waitFor (.waitp reg p) s)
    else
      match promiseOf s.st reg with
      | none => finish f s
      | some _ =>
        if s.statusWait || s.st.trapmask then
          .next (waitFor (.waitp reg p) { s with st := { s.st with attempt := some 1 } })
        else userTrap 0x61 reg s.clauseEnd s

/-- The byte of the scratchpad at an offset. -/
def Block.scratchAt (b : Block) (a : Nat) : Byte := Memory.read b.scratch a

/-- A little-endian value of n bytes in the scratchpad. -/
def Block.scratchNat (b : Block) (a n : Nat) : Nat := leNat (Memory.readBytes b.scratch a n)

/-- The state of a byte barrier: 0 DISARMED, 1 OPEN, 2 COMPLETE (R282). A barrier whose armed bit is clear is
disarmed. -/
def Block.barrierState (b : Block) (a : Nat) : Nat :=
  let x := b.scratchNat (a + 14) 1
  if b.armed.contains (a / 16) && (x = 1 || x = 2) then x else 0

/-- BBWAIT (R286): stops its clause while the barrier is OPEN. DEDUCED, log entry 31. -/
def execBbwait (a : Opnd) (s : State) : Out :=
  let f : Form := .ctl 0x1A 0 a none
  guarded f s fun s =>
    let p := (s.arg a).toNat / 16 * 16
    if p + 16 > s.scratchLimit then deliver (faultAt 0x40 (BitVec.ofNat 64 p)) s
    else if s.blk.barrierState p = 1 then .next (waitFor .bbwait s)
    else finish f s

end Sys2Proof.Machine
end

