-- ==== Sys2Proof/Machine/CrossLane.lean ====
section
/-! DEFINITION. Cross-lane instructions (R144 to R149) and the trees of R106 and R107. -/

namespace Sys2Proof.Machine

/-- A lane's A as another lane reads it: zero where the lane is absent (R144). -/
def laneOrZero (s : State) (o : Opnd) (lane : Nat) : Word :=
  if laneOn s.st.present lane then opnd32 .int s lane o else 0

/-- VSHUF (R144). -/
def shuffle (op : BitVec 8) (f : Alu2) (s : State) : Out :=
  guarded (.alu2 op f) s fun s => vecResult (.alu2 op f) f.pre f.n f.d
    (fun i =>
      match shuffleFrom op i (opnd32 .int s i f.b) with
      | some k => laneOrZero s f.a k
      | none => opnd32 .int s i f.a) s

/-- VSHUF.xor. -/
def execVshufXor (f : Alu2) (s : State) : Out := shuffle 0x72 f s
/-- VSHUF.up. -/
def execVshufUp (f : Alu2) (s : State) : Out := shuffle 0x73 f s
/-- VSHUF.down. -/
def execVshufDown (f : Alu2) (s : State) : Out := shuffle 0x74 f s
/-- VSHUF.idx. -/
def execVshufIdx (f : Alu2) (s : State) : Out := shuffle 0x75 f s

/-- VBCAST (R145). -/
def execVbcast (f : Alu2) (s : State) : Out :=
  guarded (.alu2 0x76 f) s fun s => vecResult (.alu2 0x76 f) f.pre f.n f.d
    (fun _ => laneOrZero s f.a ((s.arg f.b).toNat % 64)) s

/-- An operation of VRED and VSCAN on one value of 64 bits; the 32-bit ones use bits [31:0] (R147). -/
def redOp (x rm : Nat) (ftz : Bool) (a b : DWord) : DWord :=
  let u : Word := a.setWidth 32
  let v : Word := b.setWidth 32
  if x = 0x0B then a + b
  else
    BitVec.setWidth 64 (
      if x = 0 then u + v
      else if x = 1 then (if u.sle v then u else v)
      else if x = 2 then (if u.sle v then v else u)
      else if x = 3 then (if u.ule v then u else v)
      else if x = 4 then (if u.ule v then v else u)
      else if x = 5 then u &&& v
      else if x = 6 then u ||| v
      else if x = 7 then u ^^^ v
      else if x = 8 then BitVec.ofNat 32 (fpAdd fp32 rm ftz u.toNat v.toNat)
      else if x = 9 then BitVec.ofNat 32 (fpMin fp32 ftz u.toNat v.toNat)
      else BitVec.ofNat 32 (fpMax fp32 ftz u.toNat v.toNat))

/-- The value for no active lane (R147). -/
def redEmpty (x : Nat) : DWord :=
  if x = 1 then 0x7FFFFFFF
  else if x = 2 then 0x80000000
  else if x = 3 ∨ x = 5 then 0xFFFFFFFF
  else if x = 9 ∨ x = 10 then 0x7FC00000
  else 0

/-- The value that an active lane brings into the tree: FTZ flushes it and a NaN is canonical for the FP
operations (R106, R147). -/
def redLeaf (s : State) (x : Nat) (ftz : Bool) (o : Opnd) (lane : Nat) : DWord :=
  if x = 0x0B then opnd64 s lane o
  else if 8 ≤ x then BitVec.ofNat 64 (canon fp32 ftz (opnd32 .fp s lane o).toNat)
  else (opnd32 .int s lane o).setWidth 64

/-- x (+) y, where an absent side gives the other (R106). -/
def orAbsent {α : Type} (op : α → α → α) : Option α → Option α → Option α
  | none, y => y
  | x, none => x
  | some x, some y => some (op x y)

/-- The node N(j, i) of the tree (R106). -/
def treeNode {α : Type} (op : α → α → α) (leaf : Nat → Option α) : Nat → Nat → Option α
  | 0, i => leaf i
  | j + 1, i => orAbsent op (treeNode op leaf j (2 * i)) (treeNode op leaf j (2 * i + 1))

/-- The combination of the first n lanes by the aligned blocks of n, from the block sizes below 2^j on, c
being the lanes already combined (R107). -/
def scanFrom {α : Type} (op : α → α → α) (leaf : Nat → Option α) (n : Nat) : Nat → Nat → Option α → Option α
  | 0, _, acc => acc
  | j + 1, c, acc =>
    if n / 2 ^ j % 2 = 1 then scanFrom op leaf n j (c + 2 ^ j) (orAbsent op acc (treeNode op leaf j (c / 2 ^ j)))
    else scanFrom op leaf n j c acc

/-- The leaves of a VRED or VSCAN: the active lanes' values. -/
def redLeaves (s : State) (f : AluX) (lane : Nat) : Option DWord :=
  if laneOn (s.active f.pre) lane then some (redLeaf s f.x.toNat (ftzOf f.pre) f.a lane) else none

/-- VRED (R148). -/
def execVred (f : AluX) (s : State) : Out :=
  guarded (.aluX 0x77 f) s fun s =>
    let x := f.x.toNat
    let r := (treeNode (redOp x (rmOf f.pre) (ftzOf f.pre)) (redLeaves s f) 6 0).getD (redEmpty x)
    if x = 0x0B then uniResult64 (.aluX 0x77 f) f.n f.d r s
    else uniResult (.aluX 0x77 f) f.n f.d (r.setWidth 32) s

/-- The combination of the active lanes below n (R107). -/
def scanOf (s : State) (f : AluX) (n : Nat) : DWord :=
  let x := f.x.toNat
  (scanFrom (redOp x (rmOf f.pre) (ftzOf f.pre)) (redLeaves s f) n 7 0 none).getD (redEmpty x)

/-- VSCAN (R149): lane i combines the lanes below i + k. -/
def scan (op : BitVec 8) (k : Nat) (f : AluX) (s : State) : Out :=
  guarded (.aluX op f) s fun s =>
    if f.x = 0x0B then vecResult64 (.aluX op f) f.pre f.n f.d (fun i => scanOf s f (i + k)) s
    else vecResult (.aluX op f) f.pre f.n f.d (fun i => (scanOf s f (i + k)).setWidth 32) s

/-- VSCAN.incl. -/
def execVscanIncl (f : AluX) (s : State) : Out := scan 0x78 1 f s
/-- VSCAN.excl. -/
def execVscanExcl (f : AluX) (s : State) : Out := scan 0x79 0 f s

/-- VBAL (R146). -/
def execVbal (f : Alu1) (s : State) : Out :=
  guarded (.alu1 0x7A f) s fun s =>
    uniResult64 (.alu1 0x7A f) f.n f.d
      (maskOf ((lanesOf (s.active f.pre)).filter fun i => opnd32 .int s i f.a ≠ 0)) s

/-- VLID (R146). -/
def execVlid (f : AluD) (s : State) : Out :=
  guarded (.aluD 0x7B f) s fun s =>
    vecResult (.aluD 0x7B f) f.pre f.n f.d (fun i => BitVec.ofNat 32 i) s

end Sys2Proof.Machine
end

