-- ==== Sys2Proof/Machine/Engine.lean ====
section
/-! DEFINITION. Engine instructions: CPOST, BBINIT, BBINV, PROMOTE, ARENA, LAUNCH and TSIG (R250, R251, R278,
R284, R285, R341, R342). -/

namespace Sys2Proof.Machine

/-- An engine instruction that faults in the prologue (R28). -/
def engineAct (f : Form) (s : State) (k : State → Out) : Out :=
  guarded f s fun s => if s.prologue then deliver (faultAt codePrologue 0) s else k s

/-! ### Scratchpad images -/

/-- Which of the things that an instruction has still to read it reads in a step: by a free choice, one at least.
DESIGN CHOICE, log entry 13. -/
def someOf {α : Type} (free salt : Nat) (l : List α) : List α :=
  match (l.zipIdx.filter fun x => !Config.freeLane free salt x.2).map (·.1) with
  | [] => l.take 1
  | some_ => some_

/-- The instruction at hand reads bytes, each under a number, in units that come apart (R294): a step reads some
of the units that are left, and once none is left, the instruction goes on with them, each byte with its poison.
`before` is what reading some of them does first. -/
def readApart {α : Type} (units : List (List (Nat × α))) (before : List α → State → State) (get : State → α → Byte × Bool)
    (s : State) (k : List (Byte × Bool) → State → Out) : Out :=
  let left := units.filter fun u => u.any fun x => (s.st.fetched.lookup x.1).isNone
  if left.isEmpty then k (units.flatten.map fun x => (s.st.fetched.lookup x.1).getD (0#8, false)) s
  else
    let now := someOf s.free (2 ^ 64) left
    let s := before (now.flatten.map (·.2)) s
    .next { s with st := { s.st with fetched := s.st.fetched ++ now.flatten.map fun x => (x.1, get s x.2) } }

/-- The instruction consumes the bytes that it has read: poison faults in a strict launch, and reads zero and is
counted once in a tolerant one (R236, R374). -/
def consume (f : FaultInfo) (l : List (Byte × Bool)) (s : State) (k : List Byte → State → Out) : Out :=
  if l.any (·.2) then
    if s.grd.tolerant then
      let clean := s.st.fetched.map fun x => if x.2.2 then (x.1, 0#8, false) else x
      k (l.map fun x => if x.2 then 0#8 else x.1) (countPoison 1 { s with st := { s.st with fetched := clean } })
    else deliver f s
  else k (l.map (·.1)) s

/-- Reads n bytes of the scratchpad as an LDS issued here would, byte by byte (R278, R294). -/
def scratchRead (a n : Nat) (s : State) (k : List Byte → State → Out) : Out :=
  readApart ((List.range n).map fun i => [(i, a + i)]) (fun _ s => s)
    (fun s p => (Memory.read s.blk.scratch p, s.blk.scratchPoison.contains p)) s
    fun l s => consume (faultAt 0x50 (BitVec.ofNat 64 a)) l s k

/-- The address of a 64-byte image with bits [5:0] cleared. -/
def imageAt (s : State) (a : Opnd) : Nat := (s.arg a).toNat / 64 * 64

/-- Runs k on the image when it lies within the allotment. -/
def withImage (a : Opnd) (s : State) (k : List Byte → State → Out) : Out :=
  let p := imageAt s a
  if p + 64 > s.scratchLimit then deliver (faultAt 0x40 (BitVec.ofNat 64 p)) s else scratchRead p 64 s k

/-! ### CPOST (R278) -/

/-- CPOST ends at once with a status and the clock as its promise. -/
def cpostEnds (f : Form) (d : Nat) (w : Word) (s : State) : Out :=
  finish f { s with st := (s.st.sset d w).sset (d + 1) (s.clock.setWidth 32) }

/-- The header of the comet queue that CQSEL names is checked against its MAC (R358). -/
def cometHeaderCheck (s : State) : State :=
  match s.wld.comet.find? (fun q => q.index = s.st.cqsel.toNat) with
  | some q => headerCheck s.wld.key q.header s
  | none => s

/-- The comet queue that CQSEL names, with its header. Its reserved fields are tested at its registration and
not again (R269): DESIGN CHOICE, log entry 109. -/
def cometHeader (s : State) (w : World) (index : Nat) : Option (CometQueue × Header) :=
  match w.comet.find? (fun q => q.index = index) with
  | none => none
  | some q => (readHeader s w.key q.header).map fun h => (q, h)

/-- A CPOST that has claimed its slot: its pair is owed the promise and the status (R279). -/
def owe (d key queue index : Nat) (s : State) : State :=
  let o : Owed := ⟨d, s.postCount, false, false⟩
  { s with
    posts := s.posts ++ [⟨s.postCount, key, queue, index, s.st.ref, d⟩]
    postCount := s.postCount + 1
    st := { s.st with owed := s.st.owed.filter (fun x => x.reg ≠ d) ++ [o] } }

/-- CPOST and CPOST.nb. A queue whose header or slot cannot be reached is one that is not registered: DESIGN
CHOICE, log entry 52. -/
def cpostAct (f : Form) (nb : Bool) (d : BitVec 7) (a : Opnd) (s : State) : Out :=
  engineAct f s fun s =>
    withImage a s fun image s =>
      let s := cometHeaderCheck s
      match cometHeader s s.wld s.st.cqsel.toNat with
      | none => cpostEnds f d.toNat (refusedWord 2) s
      | some (q, h) =>
        if h.full then
          if nb then cpostEnds f d.toNat 0xB0000000#32 s else .next (waitFor .queue s)
        else
          match postImage s.wld.key h image s with
          | none => cpostEnds f d.toNat (refusedWord 2) s
          | some s => finish f (owe d.toNat s.wld.key q.index h.write s)

/-- CPOST. -/
def execCpost (d : BitVec 7) (a : Opnd) (s : State) : Out := cpostAct (.ctl 0xC0 d a none) false d a s
/-- CPOST.nb. -/
def execCpostNb (d : BitVec 7) (a : Opnd) (s : State) : Out := cpostAct (.ctl 0xC1 d a none) true d a s

/-! ### Byte barriers (R282 to R285) -/

/-- Has the strand scratchpad accesses outstanding? An OLDA or ADRN counts as one (R300). -/
def scratchBusy (s : State) : Bool :=
  (s.st.ops.any fun o => o.what = .lds || o.what = .sts || o.what = .atoms)
    || s.blk.mops.any fun m => m.strand = s.st.idx && m.what.onScratch

/-- Is a store of some strand of the block, or an ATOMS, of which a part has been performed, one that touches a
barrier's bytes? To a BBINIT it is performed whole or not at all (R287). -/
def halfStored (s : State) (p : Nat) : Bool :=
  s.strands.any fun t => t.ops.any fun o =>
    (o.what = .sts || o.what = .atoms) && o.lanes.any (·.done) && o.lanes.any (!·.done)
      && o.lanes.any fun a => a.pas.any fun x => p ≤ x && x < p + 16

/-- BBINIT and BBINV: the bounds check, the wait for the strand's scratchpad accesses, and for a store that is being
performed at the barrier (R287), and the row of R283. DEDUCED, log entry 31. -/
def barrierAct (f : Form) (a : Opnd) (row : Nat → Block → Block) (s : State) : Out :=
  engineAct f s fun s =>
    let p := (s.arg a).toNat / 16 * 16
    if p + 16 > s.scratchLimit then deliver (faultAt 0x40 (BitVec.ofNat 64 p)) s
    else if scratchBusy s || halfStored s p then .next (waitFor .order s)
    else finish f (pokeBlock ⟨s.st.grid, s.st.block⟩ { s with blk := row p s.blk })

/-- Writes bytes of the scratchpad and clears their poison (R374). -/
def Block.scratchPut (b : Block) (a : Nat) (l : List Byte) : Block :=
  { b with
    scratch := Memory.writeBytes b.scratch a l
    scratchPoison := b.scratchPoison.filter fun x => !(a ≤ x && x < a + l.length) }

/-- BBINIT's row of R283 with expected count e: all 16 bytes are written. -/
def bbinitRow (e : Word) (p : Nat) (b : Block) : Block :=
  let armid := (b.scratchNat (p + 12) 2 + 1) % 65536
  let phase := b.scratchNat (p + 8) 4 + (if e = 0 then 1 else 0)
  let b := b.scratchPut p (leBytes 4 e.toNat ++ leBytes 4 0 ++ leBytes 4 phase ++ leBytes 2 armid
    ++ [if e = 0 then 2#8 else 1#8, 0#8])
  { b with armed := insertNew (p / 16) b.armed }

/-- BBINV's row: an armed barrier becomes DISARMED and keeps its other fields. -/
def bbinvRow (p : Nat) (b : Block) : Block :=
  if b.armed.contains (p / 16) then
    { b.scratchPut (p + 14) [0#8] with armed := b.armed.filter (fun g => g ≠ p / 16) }
  else b

/-- BBINIT (R284). -/
def execBbinit (a b : Opnd) (s : State) : Out :=
  barrierAct (.ctl 0xC2 0 a (some b)) a (fun p => bbinitRow (s.arg b) p) s

/-- BBINV (R285). -/
def execBbinv (a : Opnd) (s : State) : Out := barrierAct (.ctl 0xC3 0 a none) a bbinvRow s

/-! ### PROMOTE (R215, R216, R250) -/

/-- An allocation of n bytes at a target: the pointer and the state with the cursor moved; none when the target
does not exist or has no room. Target 0 is the block arena, 1 the grid arena, 2 the hand-over pool. -/
def allocate (t n : Nat) (s : State) : Option (DWord × State) :=
  let m := roundUp n 16
  if t = 2 then
    if s.grd.poolSize = 0 ∨ (m ≠ 0 ∧ s.grd.poolCursor + m > s.grd.poolSize) then none
    else some (s.grd.poolBase + BitVec.ofNat 64 s.grd.poolCursor,
      { s with grd := { s.grd with poolCursor := s.grd.poolCursor + m } })
  else
    let base := if t = 0 then s.blk.barena else s.grd.garena
    if (if t = 0 then s.grd.bcap else s.grd.gcap) = 0 then none
    else
      match ptrSlot base with
      | none => none
      | some id =>
        let r := slotRec s id
        if m ≠ 0 ∧ r.cursor + m > r.cap then none
        else some (base + BitVec.ofNat 64 r.cursor, setSlotRec s { r with cursor := r.cursor + m })

/-- The unit of a promotion's target (R211). -/
def targetUnit (t : Nat) (s : State) : Owner :=
  if t = 0 then .block s.grd.id s.blk.id else if t = 1 then .grid s.grd.id else .none

/-- The request of the copy's writes, byte by byte as the reads are (R250); `cmp` of the carrier lane holds the
result. -/
def promoteReq (p : DWord) (q : BitVec 5) (bytes : List Byte) : MemReq :=
  { what := .promote, kind := .store, uni := true, lanes := 1, addr := fun _ => p, size := bytes.length,
    dst := 2 * q.toNat, sx := false, att := .default, escape := false, data := fun _ => bytes, cmp := fun _ => p }

/-- The lane part that carries a promotion's result. -/
def promoteCarrier (p : DWord) : LaneAcc := ⟨0, 0, p, [], 1, 0, false, 0, [], p, false, false, [], 0⟩

/-- Step 3 of R216: the checks of the copy's words and pages, and the issue of its writes. -/
def promoteWrites (f : Form) (t : Nat) (q : BitVec 5) (p : DWord) (bytes : List Byte) (s : State) : Out :=
  match escapeFault s s.wld.key (some (targetUnit t s)) p bytes with
  | some x => deliver x s
  | none =>
    let s := { s with st := { s.st with promo := some (p, bytes) } }
    match checkParts .strand (dieOf s.blk.core) .store true 1 (partsOf p bytes.length 3 0) s s.wld with
    | .bad x => parkOrDeliver x 1 s
    | .ok parts s' w =>
      let s' := { s' with wld := w }
      let r := promoteReq p q bytes
      let lanes := promoteCarrier p :: parts.flatMap (laneUnits r 0)
      let s' := { s' with st := { s'.st with attempt := none } }
      finish f (addOp (opOf r lanes s') s')

/-- The line of the core's L1 that serves a relaxed load of a promotion, if one does (R238). DESIGN CHOICE, log
entry 13. -/
def l1Chosen (s : State) (part : PagePart) (line : Nat) : Option L1Line :=
  if part.mtype = 0 ∧ part.ord ≠ 0 ∧ Config.freeNat s.free (2 ^ 64 + line) % 2 = 1 then
    s.l1.find? fun x => x.core = s.blk.core && x.line = line
  else none

/-- The byte that a relaxed load of a promotion reads, with its poison, as `ld.b.u` would (R250). -/
def relaxedByte (s : State) (x : PagePart × Nat) : Byte × Bool :=
  match l1Chosen s x.1 (x.2 / 64) with
  | some l => (nth 0#8 l.bytes (x.2 % 64), l.bad.contains (x.2 % 64))
  | none => (s.readByte x.2, s.badNow x.2)

/-- What the reads of a promotion do: the MACs of their lines are checked, and the lines that are read at their
home leave the core's L1, so that no later load goes back (R304). -/
def relaxedReads (l : List (PagePart × Nat)) (s : State) : State :=
  let s := l.foldl (fun s x => macCheck x.1.key [x.2] s) s
  l1Drop s.blk.core ((linesOf ((l.filter fun x => (l1Chosen s x.1 (x.2 / 64)).isNone).map (·.2)))) s

/-- The request of the copy's reads: relaxed uniform loads of bytes (R250). -/
def promoteSource (src : DWord) (n : Nat) : MemReq :=
  { what := .promote, kind := .load false, uni := true, lanes := 1, addr := fun _ => src, size := n, dst := 0, sx := false,
    att := .default, escape := false, data := fun _ => [], cmp := fun _ => 0 }

/-- The bytes that a promotion reads, each a unit of its own, by their offsets. -/
def promoteUnits (parts : List (Nat × DWord × PagePart)) : List (List (Nat × PagePart × Nat)) :=
  parts.flatMap fun x => ((List.range x.2.2.pas.length).zip x.2.2.pas).map fun y => [(x.1 + y.1, x.2.2, y.2)]

/-- Steps 1 and 2 of R216: the source is read byte by byte, after the strand's own earlier accesses to it, then
the allocation is made. That the reads come after those accesses, as same-location order has it (R302), and so
never find the bytes from before a store that R250 lets them miss, is a DESIGN CHOICE, log entry 116. -/
def promoteCopy (f : Form) (t : Nat) (q : BitVec 5) (src : DWord) (n : Nat) (s : State) : Out :=
  match checkParts .strand (dieOf s.blk.core) (.load false) true 1 (partsOf src n 3 0) s s.wld with
  | .bad x => parkOrDeliver x 1 s
  | .ok parts s' w =>
    let s' := { s' with wld := w }
    if readHeld s' (promoteSource src n) parts then .next (waitFor .order s')
    else
      readApart (promoteUnits parts) relaxedReads relaxedByte s' fun l s' =>
        consume (faultAt 0x50 src) l (readOver (allPas parts) s') fun bytes s' =>
          match allocate t n s' with
          | none => deliver (faultAt codePoolEmpty 0) s'
          | some (p, s') => promoteWrites f t q p bytes s'

/-- A promotion that writes no byte: its result is written when it completes. -/
def promoteBare (f : Form) (q : BitVec 5) (p : DWord) (s : State) : Out :=
  finish f (addOp (opOf (promoteReq p q []) [promoteCarrier p] s) s)

/-- PROMOTE (R250). -/
def execPromote (t : BitVec 2) (q : BitVec 5) (a : BitVec 6) (b : Opnd) (s : State) : Out :=
  let f : Form := .promote t q (some a) b
  engineAct f s fun s =>
    match s.st.promo with
    | some (p, bytes) => promoteWrites f t.toNat q p bytes s
    | none =>
      let n := (s.arg b).toNat
      if n > 4096 then deliver (faultAt 0x02 0) s
      else
        match allocate t.toNat 0 s with
        | none => deliver (faultAt codePoolEmpty 0) s
        | some (p, _) =>
          if n = 0 then promoteBare f q p s else promoteCopy f t.toNat q (s.st.sget64 a.toNat) n s

/-- PROMOTE.a: step 2 alone. -/
def execPromoteA (t : BitVec 2) (q : BitVec 5) (b : Opnd) (s : State) : Out :=
  let f : Form := .promote t q none b
  engineAct f s fun s =>
    match allocate t.toNat (s.arg b).toNat s with
    | none => deliver (faultAt codePoolEmpty 0) s
    | some (p, s) => promoteBare f q p s

/-! ### ARENA (R251) -/

/-- The answer of the queries that never fault: both registers. -/
def arenaQuery (s : State) (x : Nat) (p : DWord) : DWord :=
  match ptrSlot p with
  | none => 0
  | some id =>
    let r := slotRec s id
    if r.world ≠ s.wld.key then 0
    else if x = 0 then
      let live := r.state = 1 ∧ r.gen.toNat = ptrGen p
      BitVec.ofNat 64 (r.gen.toNat + 2 ^ 10 * r.state + 2 ^ 12 * r.cls + (if live then 2 ^ 14 else 0)
        + 2 ^ 32 * r.pages.length)
    else if x = 1 then BitVec.ofNat 64 (capField s.free r.cap)
    else if x = 2 then BitVec.ofNat 64 (capField s.free r.cursor)
    else if (r.pages.lookup (ptrOffset p / slotPage id)).isSome then 1 else 0

/-- ARENA.touch: a first touch of the page (R202) after the checks of R208, as for one byte. DEDUCED, log entry 48. -/
def arenaTouch (f : Form) (d : BitVec 7) (p : DWord) (s : State) : Out :=
  if ptrSpace p = 0 then finish f { s with st := s.st.sset64 d.toNat 0 }
  else
    let backed := match ptrSlot p with
      | some id => ((slotRec s id).pages.lookup (ptrOffset p / slotPage id)).isSome
      | none => false
    match checkArena s s.wld (dieOf s.blk.core) (.load false) true p 1 with
    | .bad x => parkOrDeliver x 1 s
    | .ok _ s w => finish f { s with wld := w, st := s.st.sset64 d.toNat (if backed then 0 else 1) }

/-- ARENA. -/
def execArena (d : BitVec 7) (a : Opnd) (x : BitVec 8) (s : State) : Out :=
  let f : Form := .arena d a x
  engineAct f s fun s =>
    let p := s.arg64 a
    if x = 4 then arenaTouch f d p s
    else finish f { s with st := s.st.sset64 d.toNat (arenaQuery s x.toNat p) }

/-! ### LAUNCH (R341) -/

/-- Has the strand a load, store, atomic, scratchpad or SBM access outstanding? DEDUCED, log entry 43. -/
def accessesOut (s : State) : Bool :=
  (s.st.ops.any fun o => o.what ≠ .lda) || s.blk.mops.any fun m => m.strand = s.st.idx && m.what.onScratch

/-- Reads n bytes at an address, numbered from `base` on, as uniform loads of `size` bytes of the strand would,
at the home L2 (R294). -/
def strandRead (base : Nat) (p : DWord) (n size : Nat) (s : State) (k : List Byte → State → Out) : Out :=
  match checkParts .strand (dieOf s.blk.core) (.load false) true size (partsOf p n 3 0) s s.wld with
  | .bad x => parkOrDeliver x 1 s
  | .ok parts s' w =>
    let places := parts.flatMap fun x => x.2.2.pas.map fun a => (x.2.2.key, a)
    let u := if p.toNat % size = 0 then size else 1
    let unit := fun i => ((List.range u).map (base + u * i + ·)).zip ((places.drop (u * i)).take u)
    readApart ((List.range (n / u)).map unit) (fun l s => l.foldl (fun s x => macCheck x.1 [x.2] s) s)
      (fun s x => (s.readByte x.2, s.badNow x.2)) { s' with wld := w } fun l s' =>
        consume (faultAt 0x50 p) l (l1Drop s'.blk.core (linesOf (allPas parts)) (readOver (allPas parts) s')) k

/-- Ends LAUNCH with a value in sD. -/
def launchEnds (f : Form) (d : BitVec 7) (w : Word) (s : State) : Out :=
  finish f { s with st := s.st.sset d.toNat w }

/-- LAUNCH claims and fills a slot of a queue: the refusals for the queue, the wait while it is full, which
keeps what the instruction has read, and the post. `child` is the launching grid where the record makes a grid.
-/
def launchTo (f : Form) (d : BitVec 7) (image : List Byte) (queue : Nat) (child : Option Nat) (s : State) : Out :=
  match s.queue queue with
  | none => launchEnds f d (refusedWord 2) s
  | some q =>
    if q.bind.vmid ≠ s.wld.vmid then launchEnds f d (refusedWord 2) s
    else
      let s := queueHeaderCheck q s
      match queueHeader s q with
      | none => launchEnds f d (refusedWord 2) s
      | some (key, h) =>
        if h.full then .next (waitFor .queue s)
        else
          match postImage key h image s with
          | none => launchEnds f d (refusedWord 2) s
          | some s =>
            launchEnds f d 0 (match child with
              | some g => { s with origins := s.origins ++ [⟨q.index, h.write, none, g⟩] }
              | none => s)

/-- The refusals of LAUNCH for a GRID record, and the claim of a slot when none holds. A record that needs a
feature which is not accepted is refused here (R320, R341): DESIGN CHOICE, log entry 43. -/
def launchPost (f : Form) (d : BitVec 7) (image : List Byte) (rec : BitVec 512) (s : State) : Out :=
  if gridMalformed s.accepted rec then launchEnds f d (refusedWord 1) s
  else
    match s.queue (field rec 16 10) with
    | none => launchEnds f d (refusedWord 2) s
    | some q =>
      if q.bind.vmid ≠ s.wld.vmid then launchEnds f d (refusedWord 2) s
      else if field rec 32 16 ≠ 0 ∧ field rec 32 16 ≠ s.wld.handle.toNat then launchEnds f d (refusedWord 1) s
      else if s.grd.depth + 1 ≥ 16 then launchEnds f d (refusedWord 4) s
      else launchTo f d image (field rec 16 10) (some s.grd.id) s

/-- The escape check of a launch's arguments (R209): the ARGS field, then the words of the argument block. -/
def launchEscape (s : State) (at_ : Nat) (args : DWord) (block : List Byte) : Option FaultInfo :=
  let dest : Option Owner := some (.grid s.grd.id)
  match escapeFault s s.wld.key dest (BitVec.ofNat 64 (at_ + 40)) (leBytes 8 args.toNat) with
  | some x => some x
  | none => escapeFault s s.wld.key dest args block

/-- LAUNCH of a GRID record, directly or through a node: the argument block, the escape check, the post. -/
def launchGrid (f : Form) (d : BitVec 7) (at_ : Nat) (image : List Byte) (rec : BitVec 512) (s : State) : Out :=
  let args := BitVec.ofNat 64 (field rec 320 64)
  let go := fun block s =>
    match launchEscape s at_ args block with
    | some x => deliver x s
    | none => launchPost f d image rec s
  if args = 0 then go [] s else strandRead 256 args 32 8 s go

/-- LAUNCH of a NODE: its task control block is checked as it stands (R320, R321). -/
def launchNode (f : Form) (d : BitVec 7) (at_ : Nat) (image : List Byte) (node : BitVec 512) (s : State) : Out :=
  if nodeMalformed node then launchEnds f d (refusedWord 1) s
  else
    strandRead 64 (BitVec.ofNat 64 (field node 64 64)) 128 8 s fun body s =>
      let t : Tcb := BitVec.ofNat 1024 (leNat body)
      if tcbMalformed t then launchEnds f d (refusedWord 1) s
      else if field t 8 8 = 0x80 then launchGrid f d at_ image (tcbRecord t) s
      else launchTo f d image s.grd.queue none s

/-- LAUNCH of a record by its KIND (R318). A record that has no QUEUE field goes to the queue of the launching
grid. A kind whose feature is not accepted is posted all the same, and the scheduler refuses it (R320). DESIGN
CHOICE, log entry 43. -/
def launchRecord (f : Form) (d : BitVec 7) (at_ : Nat) (image : List Byte) (rec : BitVec 512) (s : State) : Out :=
  let kind := field rec 8 8
  if kind = 0x80 then launchGrid f d at_ image rec s
  else if kind = 0x81 then launchNode f d at_ image rec s
  else if kind ≤ 7 ∨ kind = 0x82 then launchTo f d image s.grd.queue none s
  else if kind = 0x83 ∧ !waitvalMalformed rec then launchTo f d image s.grd.queue none s
  else launchEnds f d (refusedWord 1) s

/-- LAUNCH (R341). DEDUCED, log entry 43. -/
def execLaunch (d : BitVec 7) (a : Opnd) (s : State) : Out :=
  let f : Form := .ctl 0xC6 d a none
  engineAct f s fun s =>
    let at_ := imageAt s a
    if at_ + 64 > s.scratchLimit then deliver (faultAt 0x40 (BitVec.ofNat 64 at_)) s
    else if accessesOut s then .next (waitFor .order s)
    else scratchRead at_ 64 s fun image s => launchRecord f d at_ image (BitVec.ofNat 512 (leNat image)) s

/-! ### TSIG (R342) -/

/-- The request of TSIG: checked as an 8-byte store, a release of DEVICE scope; its data are B. -/
def tsigReq (p : DWord) (n : Word) : MemReq :=
  { what := .tsig, kind := .store, uni := true, lanes := 1, addr := fun _ => p, size := 8, dst := 0, sx := false,
    att := { MemAtt.default with ord := 2, scope := 3 }, escape := false, data := fun _ => leBytes 8 n.toNat,
    cmp := fun _ => n.setWidth 64 }

/-- The unit of TSIG's atomic: it reaches PRED and STATE of its task control block (R321, R324). -/
def tsigUnits (r : MemReq) (parts : List (Nat × DWord × PagePart)) : List LaneAcc :=
  parts.flatMap fun x => (laneUnits r 0 x).map fun a =>
    { a with pas := [64, 65, 66, 67, 69].map ((a.pas.head?.getD 0) + ·) }

/-- TSIG: an address that fails its checks faults ILLEGAL_OPERAND (R55); a replayable fault parks (R39).
DEDUCED, log entry 49. -/
def execTsig (p : BitVec 6) (b : Opnd) (s : State) : Out :=
  let f : Form := .ctl 0xC7 0 (.s p) (some b)
  engineAct f s fun s =>
    let a := s.st.sget64 p.toNat
    if a.toNat % 128 ≠ 0 then deliver (faultAt 0x02 a) s
    else
      let r := tsigReq a (s.arg b)
      match checkLane r 0 s with
      | .bad x => if replayable x.code then parkOrDeliver x 1 s else deliver (faultAt 0x02 a) s
      | .ok parts s' w =>
        let s' := { s' with wld := w }
        let l := tsigUnits r parts
        if s.arg b = 0 then finish f s'
        else if soBlocked s' true l then .next (waitFor .order s')
        else finish f (addOp (opOf r l s') s')

end Sys2Proof.Machine
end

