-- ==== Sys2Proof/Machine/Links.lean ====
section
/-! DEFINITION. Die-to-stack and Perigee links: who has an access on one outstanding, its key generations and the flits of a
generation (R360 to R362). -/

namespace Sys2Proof.Machine

/-- The index from which a reference of a link's user names matrix operations and not a strand's own. -/
def mopUser : Nat := 16

/-- Does one of some places lie on a stack? -/
def onStack (s : State) (n : Nat) (pas : List Nat) : Bool :=
  pas.any fun p => p < Config.paSpace && stackOf ((s.inter.lookup (p / 2 ^ 29)).getD 9) p = n

/-- The operations that are outstanding on the link to a stack. -/
def linkUsers (s : State) (n : Nat) : List (StrandRef × Nat) :=
  let hit := fun (a : LaneAcc) => !a.done && onStack s n a.pas
  s.allBlocks.flatMap fun b =>
    b.strands.flatMap (fun t => (t.ops.filter fun o => !o.what.onChip && o.lanes.any hit).map fun o => (t.ref, o.serial))
    ++ (b.mops.filter fun m => m.parts.any hit).map fun m => (⟨b.grid, b.id, mopUser⟩, m.seq)

/-- The packets that have reads or writes outstanding on the link to a stack. -/
def linkPackets (s : State) (n : Nat) : List Nat := (s.packets.filter fun p => onStack s n p.places).map (·.num)

/-- The reductions that are in progress over a Perigee port. -/
def reductionsOn (s : State) (n : Nat) : List Nat :=
  (s.packets.filter fun x => field x.image 8 8 = 4 && x.begun && Config.groupPort (field x.image 288 16) % 16 = n).map (·.num)

/-- The next generation of a stack's link: its key, and the one before that both ends keep. Nothing changes
while requests of the generation before the current one are outstanding. DEDUCED, log entry 74. -/
def rekeyStack (n : Nat) (s : State) : State :=
  let k := nth Link.reset s.links n
  let now := linkUsers s n
  let packets := linkPackets s n
  if k.outstanding.any (fun x => now.contains x) || k.packets.any (fun x => packets.contains x) then s
  else
    let next : Link := ⟨(k.gen + 1) % 16, Config.freeKey s.free (2048 + n), k.key, now, packets, 0⟩
    { s with links := put .reset s.links n next }

/-- The next generation of a Perigee port's key. -/
def rekeyPerigee (n : Nat) (s : State) : State :=
  let p := nth Perigee.reset s.peri n
  let now := reductionsOn s n
  if !p.keyed || p.outstanding.any (fun x => now.contains x) then s
  else
    let next : Perigee := { p with
      gen := (p.gen + 1) % 16, key := Config.freeKey s.free n, oldKey := p.key, outstanding := now, flits := 0 }
    { s with peri := put .reset s.peri n next }

/-- Flits of one generation, at most (R360). -/
def flitLimit : Nat := 2 ^ 40

/-- A count of flits rises, by how much is free. -/
def moreFlits (free n flits : Nat) : Nat := min (flits + Config.freeNat free (2 ^ 80 + n) % 2 ^ 20) flitLimit

/-- Flits pass in a step; a link that has sent as many as one generation may starts the next. DESIGN CHOICE, log entry
74. -/
def passFlits (s : State) : State :=
  let full := (List.range 12).filter fun n => (nth Link.reset s.links n).flits = flitLimit
  let fullP := (List.range 16).filter fun n => (nth Perigee.reset s.peri n).flits = flitLimit
  let s := fullP.foldl (fun s n => rekeyPerigee n s) (full.foldl (fun s n => rekeyStack n s) s)
  { s with
    links := s.links.zipIdx.map fun (k, n) => { k with flits := moreFlits s.free n k.flits }
    peri := s.peri.zipIdx.map fun (p, n) => { p with flits := moreFlits s.free (12 + n) p.flits } }

end Sys2Proof.Machine
end

