-- ==== Sys2Proof/Machine/Notify.lean ====
section
/-! DEFINITION. Notification of the hosts (R372). -/

namespace Sys2Proof.Machine

/-- A host port: false A, true B. -/
def State.port (s : State) (b : Bool) : Port := if b then s.portB else s.portA

/-- Changes a host port. -/
def mapPort (b : Bool) (f : Port → Port) (s : State) : State :=
  if b then { s with portB := f s.portB } else { s with portA := f s.portA }

/-- Can a port take notifications: notification enabled, the link up, the lease held by some port? -/
def canNotify (s : State) (b : Bool) : Bool :=
  (s.port b).link && (s.port b).notifyBase.getLsbD 0 && (s.portA.role = 1 || s.portB.role = 1)

/-- Word q of the notify page. -/
def notifyWord (q : Queue) : Word := q.faults ++ q.refusals ++ q.retired

/-- The place of word q of a port's notify page. -/
def notifyPlace (s : State) (b : Bool) (q : Nat) : Nat := hostKey b ((s.port b).notifyBase.toNat / 4096 * 4096 + 4 * q)

/-- Has a grid of the queue that has been ended an access of its own or a packet outstanding, whose writes the
word follows (R372)? -/
def endedWrites (s : State) (q : Nat) : Bool :=
  s.allGrids.any fun g => g.queue = q && g.ended.isSome &&
    (s.allBlocks.any (fun b => b.grid = g.id && b.strands.any fun t => !t.ops.isEmpty)
      || s.qnt.any (fun x => x.strand.grid = g.id)
      || s.packets.any fun p =>
        match p.poster with
        | .strand r _ => r.grid = g.id
        | .memory x => x = some g.id
        | _ => false)

/-- A queue's word is written, then its bit of AGGVEC set. The interrupt's counts are of events, from when they
occurred. -/
def notifyQueue (q : Queue) (s : State) : State :=
  let b := q.bind.port
  if q.pending ≠ 0 && canNotify s b && !endedWrites s q.index then
    let a := notifyPlace s b q.index
    let s := writePlaces 0 false (((List.range 4).map (a + ·)).zip (leBytes 4 (notifyWord q).toNat)) s
    let s := mapPort b (fun p => { p with
      aggvec := put 0 p.aggvec (q.index / 64) (nth 0 p.aggvec (q.index / 64) ||| (1#64 <<< (q.index % 64)))
      sinceNs := if p.unsignalled = 0 then q.sinceNs else min p.sinceNs q.sinceNs
      unsignalled := p.unsignalled + q.pending }) s
    { s with queues := update (fun x => x.index = q.index) (fun x => { x with pending := 0 }) s.queues }
  else s

/-- Every word that waits is written when its port can take it. -/
def flushNotify (s : State) : State :=
  if s.queues.any (·.pending ≠ 0) then s.queues.foldl (fun s q => notifyQueue q s) s else s

end Sys2Proof.Machine
end

