-- ==== Sys2Proof/Machine/Programs.lean ====
section
/-! DEFINITION. The pages of programs that have been loaded for anonymous worlds, and the key id that they carry (R312,
R356, R381). The world of a grid has no key id before its dispatch, and the session of R314 reads such pages after it. -/

namespace Sys2Proof.Machine

/-- A key id under which a place is reached, once `b` has taken the place of a program's key id on its pages. -/
def newKey (p : AnonProgram) (b key pa : Nat) : Nat := if key = p.key && p.pages.contains (pa / 65536) then b else key

/-- A unit of an access, under the new key id. -/
def LaneAcc.rekey (f : Nat → Nat → Nat) (x : LaneAcc) : LaneAcc := { x with key := f x.key (x.pas.head?.getD 0) }

/-- A byte that an engine carries. -/
def EData.rekey (f : Nat → Nat → Nat) (d : EData) : EData :=
  match d with
  | .at_ k pa => .at_ (f k pa) pa
  | .known _ _ => d

/-- A write of an engine. -/
def EWrite.rekey (f : Nat → Nat → Nat) (x : EWrite) : EWrite := { x with key := f x.key x.pa, data := x.data.rekey f }

/-- A packet. -/
def Packet.rekey (f : Nat → Nat → Nat) (p : Packet) : Packet :=
  { p with data := p.data.map (·.rekey f), pending := p.pending.map (·.rekey f) }

/-- The outstanding operations of a strand. -/
def Strand.rekey (f : Nat → Nat → Nat) (t : Strand) : Strand :=
  { t with ops := t.ops.map fun (o : Op) => { o with lanes := o.lanes.map (·.rekey f) } }

/-- The matrix loads of a block. -/
def Block.rekey (f : Nat → Nat → Nat) (b : Block) : Block :=
  { b with mops := b.mops.map fun (m : MOp) => { m with parts := m.parts.map (·.rekey f) } }

/-- A cached translation. -/
def TlbEntry.rekey (f : Nat → Nat → Nat) (t : TlbEntry) : TlbEntry :=
  { t with leaf := setField t.leaf 118 10 (f (eKeyid t.leaf) t.pa) }

/-- What is outstanding, and what is cached of the tables. -/
def rekeyOutstanding (f : Nat → Nat → Nat) (s : State) : State :=
  let s := s.mapStrands (·.rekey f)
  { s with
    blk := s.blk.rekey f
    blocks := s.blocks.map (·.rekey f)
    packets := s.packets.map (·.rekey f)
    qnt := s.qnt.map fun (q : QntAtom) => { q with key := f q.key (q.pas.head?.getD 0) }
    tlb := s.tlb.map (·.rekey f) }

/-- A leaf entry of an anonymous program takes another key id. -/
def rekeyLeaf (a b : Nat) (s : State) (at_ : Nat) : State :=
  let e : BitVec 128 := BitVec.ofNat 128 (leNat (s.readBytes at_ 16))
  if eValid e && eLeaf e && eKeyid e = a then
    writePlaces 0 false (((List.range 16).map (at_ + ·)).zip (leBytes 16 (setField e 118 10 b).toNat)) s
  else s

/-- The pages of a program carry another key id from now on: its leaf entries, its lines, and what is under way
on them. DEDUCED, log entry 75. -/
def keyProgram (p : AnonProgram) (b : Nat) (s : State) : State :=
  let f := newKey p b
  let s := p.leaves.foldl (rekeyLeaf p.key b) (rekeyOutstanding f s)
  { s with
    lineKeys := s.lineKeys.map fun x => (x.1, f x.2 (64 * x.1))
    anon := update (· = p) (fun x => { x with key := b }) s.anon }

/-- The program that a grid with an entry runs: the one loaded last whose code holds it. -/
def programAt (s : State) (entry : DWord) : Option AnonProgram :=
  s.anon.find? fun p => p.code.any fun r => r.base ≤ ptrVa entry && ptrVa entry < r.base + r.len

/-- An anonymous world begins to run its program, whose pages take its key id unless another live world's stand there
(R312, R381). DEDUCED, log entry 75. -/
def joinProgram (entry : DWord) (key : Nat) (s : State) : State :=
  match programAt s entry with
  | none => s
  | some p =>
    let q : AnonProgram := { p with users := p.users ++ [key] }
    let s := { s with anon := update (· = p) (fun _ => q) s.anon }
    if p.key = 0 then keyProgram q key s else s

/-- An anonymous world leaves the programs that it has run. One whose pages carry its key id goes to another
world that runs it and is live, and to key id 0 where none is. DEDUCED, log entry 75. -/
def leavePrograms (key : Nat) (s : State) : State :=
  let left := s.anon.map fun (p : AnonProgram) => { p with users := p.users.filter (· ≠ key) }
  (left.filter fun p => p.key = key).foldl (fun s p => keyProgram p (p.users.head?.getD 0) s) { s with anon := left }

end Sys2Proof.Machine
end

