-- ==== Sys2Proof/Machine/Matrix.lean ====
section
/-! DEFINITION. Matrix instructions (R158 to R171): what they check and queue at issue. Their completions stand
in MatrixEvents. -/

namespace Sys2Proof.Machine

/-- A slot that nothing has claimed. -/
def OSlot.unclaimed : OSlot := ⟨0, 0, 0, false, 0, 0, 0, [], [], false⟩

/-- A slot of the focus block. -/
def Block.slot (b : Block) (n : Nat) : OSlot := nth .unclaimed b.slots n

/-- Writes a slot. -/
def Block.setSlot (b : Block) (n : Nat) (o : OSlot) : Block := { b with slots := put .unclaimed b.slots n o }

/-- A tile whose every element is +0.0. -/
def Tile.zero : Tile := ⟨[], []⟩

/-- A tile of the focus block. -/
def Block.tile (b : Block) (n : Nat) : Tile := nth .zero b.tiles n

/-- An element of a tile. -/
def Tile.at_ (t : Tile) (i j : Nat) : Word := nth 0#32 (nth [] t.rows i) j

/-- Is a slot named beyond the allotment or unclaimed (R23, R158)? -/
def slotBad (s : State) (n : Nat) : Bool := n ≥ s.slotLimit || (s.blk.slot n).state = 0

/-- A fault of an operand slot: EXTRA holds its number (R347). -/
def slotFaultOf (code n : Nat) : FaultInfo := { faultAt code 0 with extra := BitVec.ofNat 32 n }

/-- SLOT_NOT_CLAIMED. -/
def slotFault (n : Nat) : FaultInfo := slotFaultOf 0x42 n

/-- Adds a matrix operation in block issue order. -/
def addMOp (what : MWhat) (ends : DWord) (s : State) : State :=
  { s with blk := { s.blk with
      mops := s.blk.mops ++ [⟨s.blk.mseq, s.st.idx, s.st.pc, what, false, ends, false, false, [], none, [], []⟩]
      mseq := s.blk.mseq + 1 } }

/-- The slots that an operation writes. -/
def MWhat.loads : MWhat → List Nat
  | .olda n x _ => if x = 2 then [n, n + 1] else [n]
  | .oldw n _ _ => [n]
  | _ => []

/-- The slots that an operation reads. -/
def MWhat.reads : MWhat → List Nat
  | .mma _ _ _ _ a w fmt ks => (if fmt = 1 ∧ ks = 2 then [a, a + 1] else [a]) ++ [w]
  | _ => []

/-! ### OCLAIM and OREL (R162) -/

/-- The slots of a run. -/
def runOf (n k : Nat) : List Nat := (List.range k).map (n + ·)

/-- OCLAIM. A run of no slots has no effect. A fault names the first slot of the run that fails.
DEDUCED, log entries 46 and 97. -/
def execOclaim (o : BitVec 6) (a : Opnd) (s : State) : Out :=
  let f : Form := .slot 0xD0 o a 0
  guarded f s fun s =>
    let n := (s.arg a).toNat
    if !s.grd.twin then deliver (slotFault o.toNat) s
    else if n = 0 then finish f s
    else if o.toNat + n > s.slotLimit then deliver (slotFault (max o.toNat s.slotLimit)) s
    else
      let run := runOf o.toNat n
      match run.find? (fun k => (s.blk.slot k).state ≠ 0) with
      | some k => deliver (slotFaultOf 0x45 k) s
      | none =>
      if run.any (fun k => (s.blk.slot k).releasing) then .next (waitFor .order s)
      else
        finish f { s with blk := run.foldl (fun b k => b.setSlot k { OSlot.unclaimed with state := 1 }) s.blk }

/-- The slots that a release of slot n takes with it: the other slot of its pair. -/
def pairOf (b : Block) (n : Nat) : List Nat :=
  let o := b.slot n
  if o.kind = 1 ∧ o.ks = 2 ∧ (b.slot (n + 1)).kind = 4 then [n, n + 1]
  else if o.kind = 4 ∧ n ≠ 0 ∧ (b.slot (n - 1)).kind = 1 ∧ (b.slot (n - 1)).ks = 2 then [n, n - 1]
  else [n]

/-- One slot becomes unclaimed for naming, and its release is queued. -/
def releaseSlot (n : Nat) (s : State) : State :=
  addMOp (.orel n) 0 { s with blk := s.blk.setSlot n { s.blk.slot n with state := 0, kind := 0, releasing := true } }

/-- OREL. DEDUCED, log entries 46 and 97. -/
def execOrel (o : BitVec 6) (a : Opnd) (s : State) : Out :=
  let f : Form := .slot 0xD1 o a 0
  guarded f s fun s =>
    let n := (s.arg a).toNat
    if !s.grd.twin then deliver (slotFault o.toNat) s
    else if n = 0 then finish f s
    else if o.toNat + n > s.slotLimit then deliver (slotFault (max o.toNat s.slotLimit)) s
    else
      let run := runOf o.toNat n
      match run.find? (fun k => (s.blk.slot k).state = 0) with
      | some k => deliver (slotFault k) s
      | none => finish f (((run.flatMap (pairOf s.blk)).eraseDups).foldl (fun s k => releaseSlot k s) s)

/-! ### Loads (R163 to R165) -/

/-- The bytes of an activation row. -/
def rowBytes (x : BitVec 8) : Nat := if x.getLsbD 2 then 16 * 2 ^ (x.toNat % 4) else 32 * 2 ^ (x.toNat % 4)

/-- The extent of an activation tile in the scratchpad (R156). -/
def actExtent (x : BitVec 8) : Nat := 32 * rowBytes x + 96

/-- OLDA (R163). The kinds are set at issue. -/
def execOlda (o : BitVec 6) (a : Opnd) (x : BitVec 8) (s : State) : Out :=
  let f : Form := .slot 0xD2 o a x
  guarded f s fun s =>
    let base := (s.arg a).toNat / 16 * 16
    let what : MWhat := .olda o.toNat x base
    match what.loads.find? (slotBad s) with
    | some n => deliver (slotFault n) s
    | none =>
    if base + actExtent x > s.scratchLimit then deliver (faultAt 0x40 (BitVec.ofNat 64 base)) s
    else
      let set := fun (kind n : Nat) (b : Block) => b.setSlot n { b.slot n with
        state := 2, kind := kind, ks := x.toNat % 4, isSealed := false, loadop := x, va := 0, tensor := 0 }
      let b := set (if x.getLsbD 2 then 2 else 1) o.toNat s.blk
      let b := if what.loads.length = 2 then set 4 (o.toNat + 1) b else b
      finish f (addMOp what 0 { s with blk := b })

/-- The bytes of a column of K group ks (R94). -/
def colBytes (ks : Nat) : Nat := if ks = 0 then 7 else if ks = 1 then 13 else 26

/-- The size of a weight tile (R155). -/
def weightSize (ks : Nat) : Nat := 128 * colBytes ks + 256

/-- The runs of bytes that an OLDW reads: offset from the pointer and length (R164). -/
def weightRuns (x : BitVec 8) : List (Nat × Nat) :=
  let ks := x.toNat % 4
  if x.getLsbD 2 then
    let gs := x.toNat / 8 % 4
    let k := 32 * 2 ^ ks
    (List.range (128 / (32 * 2 ^ gs))).map fun r =>
      (r * weightSize gs + colBytes gs * (x.toNat / 32 % 4) * k, colBytes gs * k)
  else [(0, weightSize ks)]

/-- The checks of the runs, in order (R165 step 2): the parts, each with its place among the bytes read. -/
def checkRuns (p : DWord) : List (Nat × Nat) → Nat → State → World → CheckedAll
  | [], _, s, w => .ok [] s w
  | (off, n) :: t, at_, s, w =>
    match checkAccess s w .strand (dieOf s.blk.core) .oldw true (p + BitVec.ofNat 64 off) n with
    | .bad f => .bad f
    | .ok ps s w =>
      match checkRuns p t (at_ + n) s w with
      | .bad f => .bad f
      | .ok qs s w => .ok (ps.map (fun x => (at_ + x.1, x.2)) ++ qs) s w

/-- The sealed table entry of an index (R181). -/
def sealedEntry (w : World) (k : Nat) : BitVec 128 := nth 0#128 w.sealedTable k
/-- BASE of a sealed table entry. -/
def entryBase (e : BitVec 128) : Nat := field e 32 58
/-- KEYID of a sealed table entry. -/
def entryKey (e : BitVec 128) : Nat := field e 22 10
/-- TENSOR of a sealed table entry. -/
def entryTensor (e : BitVec 128) : BitVec 32 := BitVec.ofNat 32 (field e 96 32)

/-- Do sealed bytes pass R183: one index, a valid entry of the world's sealing key, the page's key id, and no
byte below BASE? -/
def sealedOk (w : World) (parts : List (Nat × DWord × PagePart)) : Bool :=
  match parts with
  | [] => true
  | (_, _, p) :: _ =>
    let e := sealedEntry w p.sidx
    parts.all (fun x => x.2.2.mtype = 1 && x.2.2.sidx = p.sidx && x.2.2.key = entryKey e && ptrVa x.2.1 ≥ entryBase e)
      && e.getLsbD 0 && w.sealing.isSome && entryKey e = w.key

/-- A load that fails leaves its slot empty, unless a later load of the slot has been issued or the slot has
been released since; the MMAs that wait on it retire without changing their tiles (R162, R165). -/
def failLoad (seq slot : Nat) (b : Block) : Block :=
  let later := b.mops.filter fun m => m.seq > seq && m.what.loads.contains slot
  let dies := fun (m : MOp) => m.seq > seq && m.what.reads.contains slot && !later.any (fun l => l.seq < m.seq)
  let b := { b with mops := (b.mops.filter fun m => m.seq ≠ seq).map fun m => if dies m then { m with dead := true } else m }
  if later.isEmpty && (b.slot slot).state ≠ 0 then b.setSlot slot { OSlot.unclaimed with state := 1 } else b

/-- A load of the focus block fails, and waits of the block are tested again (R171). -/
def loadFails (seq slot : Nat) (s : State) : State :=
  pokeBlock ⟨s.blk.grid, s.blk.id⟩ { s with blk := failLoad seq slot s.blk }

/-- The OLDW at which the focus strand is parked. -/
def parkedLoad (s : State) : Option MOp := s.blk.mops.find? fun m => m.strand = s.st.idx && m.parked

/-- Writes an operation back to its place. -/
def Block.setMOp (b : Block) (m : MOp) : Block := { b with mops := update (fun x => x.seq = m.seq) (fun _ => m) b.mops }

/-- The focus strand faults at its OLDW: the load ends. -/
def oldwFault (m : MOp) (slot : Nat) (x : FaultInfo) (s : State) : Out :=
  deliver x (loadFails m.seq slot s)

/-- Step 3 of R165: whether the bytes are sealed, their tensor id, and the parts, each of sealed bytes with its
offset from BASE; none when they fail R183. -/
def oldwParts (w : World) (parts : List (Nat × DWord × PagePart)) : Option (Bool × BitVec 32 × List LaneAcc) :=
  let isSealed := parts.any fun z => z.2.2.mtype = 1
  if isSealed && !sealedOk w parts then none
  else
    let tensor := match parts with
      | (_, _, q) :: _ => if isSealed then entryTensor (sealedEntry w q.sidx) else 0
      | [] => 0
    some (isSealed, tensor, parts.map fun z => ⟨0, z.1, z.2.1, z.2.2.pas, z.2.2.ord, z.2.2.mtype, z.2.2.rdup, z.2.2.key,
      leBytes 4 tensor.toNat,
      BitVec.ofNat 64 (if isSealed then ptrVa z.2.1 - entryBase (sealedEntry w z.2.2.sidx) else 0), false, false, [],
      z.2.2.shift⟩)

/-- Steps 2 and 3 of R165 for a queued OLDW. Its reads come after the stores of their bytes whose data a load of
the strand has taken: they are ordered before that load, which has completed (R302, R307); until then the OLDW
does as one that is parked. -/
def oldwChecks (f : Form) (m : MOp) (slot : Nat) (x : BitVec 8) (p : DWord) (s : State) : Out :=
  match checkRuns (p &&& ~~~63#64) (weightRuns x) 0 s s.wld with
  | .bad y =>
    if replayable y.code then
      let s := { s with blk := s.blk.setMOp { m with parked := true } }
      .next (park y 1 s)
    else oldwFault m slot y s
  | .ok parts s' w =>
    let s' := { s' with wld := w }
    match oldwParts w parts with
    | none => oldwFault m slot (faultAt 0x33 p) s'
    | some (isSealed, tensor, lanes) =>
      if seenOut s' ((allPas parts).contains ·) then
        .next (waitFor .order { s' with blk := s'.blk.setMOp { m with parked := true } })
      else
      let b := s'.blk.setMOp { m with parked := false, parts := lanes }
      let b := if b.mops.any (fun l => l.seq > m.seq && l.what.loads.contains slot) then b
        else b.setSlot slot { b.slot slot with isSealed := isSealed, tensor := tensor }
      finish f { s' with blk := b }

/-- OLDW (R164, R165). One that reissues makes the check of step 1 again; what step 1 records stands since its issue.
DEDUCED, log entry 98. -/
def execOldw (o p : BitVec 6) (x : BitVec 8) (s : State) : Out :=
  let f : Form := .slot 0xD3 o (.s p) x
  guarded f s fun s =>
    let va := s.st.sget64 p.toNat
    match parkedLoad s with
    | some m =>
      if slotBad s o.toNat then oldwFault m o.toNat (slotFault o.toNat) s else oldwChecks f m o.toNat x va s
    | none =>
      if slotBad s o.toNat then deliver (slotFault o.toNat) s
      else
        let set := { s.blk.slot o.toNat with
          state := 2, kind := 3, ks := x.toNat % 4, isSealed := false, loadop := x, va := va, tensor := 0 }
        let s := addMOp (.oldw o.toNat x va) 0 { s with blk := s.blk.setSlot o.toNat set }
        match s.blk.mops.getLast? with
        | some m => oldwChecks f m o.toNat x va s
        | none => finish f s

/-! ### MMA, ACLR, ADRN (R166 to R169) -/

/-- Does the focus strand hold the token? -/
def holdsToken (s : State) : Bool := s.grd.twin && s.blk.token = some s.st.idx

/-- MMA (R166). A fault of a slot names A before W. DEDUCED, log entry 97. -/
def execMma (f : MmaF) (s : State) : Out :=
  let a := s.blk.slot f.a.toNat
  let w := s.blk.slot f.w.toNat
  if !holdsToken s then deliver (faultAt 0x43 0) s
  else if f.t.toNat ≥ s.tileLimit then deliver (faultAt 0x44 0) s
  else if slotBad s f.a.toNat then deliver (slotFault f.a.toNat) s
  else if slotBad s f.w.toNat then deliver (slotFault f.w.toNat) s
  else if a.kind ≠ 1 && a.kind ≠ 2 then deliver (slotFaultOf 0x46 f.a.toNat) s
  else if w.kind ≠ 3 || a.ks ≠ w.ks then deliver (slotFaultOf 0x46 f.w.toNat) s
  else finish (.mma f) (addMOp (.mma f.zc f.na f.nb f.t.toNat f.a.toNat f.w.toNat a.kind a.ks) 0 s)

/-- Writes a tile. -/
def Block.setTile (b : Block) (n : Nat) (t : Tile) : Block := { b with tiles := put .zero b.tiles n t }

/-- The MMAs into a tile that have not retired keep the tile as they may have read it. -/
def keepUnder (t : Nat) (old : Tile) (m : MOp) : MOp :=
  match m.what with
  | .mma _ _ _ t' _ _ _ _ => if t' = t then { m with under := some (m.under.getD old) } else m
  | _ => m

/-- ACLR (R168): the tile is +0.0 from its issue on, but for what MMAs that have not retired then still write
(R159): at their retirement each element is +0.0 or a value that the MMA wrote. DESIGN CHOICE, log entry 100. -/
def execAclr (t : BitVec 4) (s : State) : Out :=
  if t.toNat ≥ s.tileLimit then deliver (faultAt 0x44 0) s
  else
    let b := { s.blk with mops := s.blk.mops.map (keepUnder t.toNat (s.blk.tile t.toNat)) }
    finish (.aclr t) { s with blk := b.setTile t.toNat .zero }

/-- ADRN (R169). It starts at issue or when the previous ADRN of the twin completes, and completes 10 cycles
later (R173). -/
def execAdrn (t : BitVec 4) (a : Opnd) (s : State) : Out :=
  let f : Form := .adrn t a
  guarded f s fun s =>
    let base := (s.arg a).toNat / 16 * 16
    if t.toNat ≥ s.tileLimit then deliver (faultAt 0x44 0) s
    else if base + 16384 > s.scratchLimit then deliver (faultAt 0x40 (BitVec.ofNat 64 base)) s
    else
      let start := if s.clock.ule s.blk.adrnEnd then s.blk.adrnEnd else s.clock
      let s := addMOp (.adrn t.toNat base) (start + 10) s
      finish f { s with blk := { s.blk with adrnEnd := start + 10 } }

/-! ### MTOK and MWAIT (R170, R171) -/

/-- MTOK. -/
def execMtok (a : Opnd) (s : State) : Out :=
  let f : Form := .ctl 0xD7 0 a none
  guarded f s fun s =>
    let n := (s.arg a).toNat
    if !holdsToken s || n ≥ s.blk.nstrands then deliver (faultAt 0x43 0) s
    else if n = s.st.idx then finish f s
    else
      let b := { s.blk with token := some n, handover := put 0 s.blk.handover n s.blk.mseq }
      finish f (pokeBlock ⟨s.st.grid, s.st.block⟩ (passToken { s with blk := b }))

/-- MWAIT TOK: the strand holds the token, and the MMAs issued before it last received it have retired. -/
def execMwaitTok (s : State) : Out :=
  if !s.grd.twin then deliver (faultAt 0x43 0) s
  else if holdsToken s && !s.blk.mops.any (fun m =>
      decide (m.seq < nth 0 s.blk.handover s.st.idx) && m.what matches .mma _ _ _ _ _ _ _ _) then
    finish (.n8 0xD8 0) s
  else .next (waitFor (.mwait true 0) s)

/-- MWAIT ALL: every MMA, OLDA, OLDW and ADRN issued before it has completed. `attempt` keeps the point in block
issue order at which the wait began. -/
def execMwaitAll (s : State) : Out :=
  let before := (s.st.attempt.map (·.toNat)).getD s.blk.mseq
  if s.blk.mops.any (fun m => m.seq < before && !(m.what matches .orel _)) then
    .next (waitFor (.mwait false before) { s with st := { s.st with attempt := some (BitVec.ofNat 64 before) } })
  else finish (.n8 0xD8 1) s

end Sys2Proof.Machine
end

