-- ==== Sys2Proof/Machine/Issue.lean ====
section
/-! DEFINITION. CLAUSE_ISSUE: fetch, readiness, decode of the whole clause (R35, R38, R41, R50 to R55). -/

namespace Sys2Proof.Machine

/-- The code of a decode fault (R55). -/
def decodeCode : DecFault → Nat
  | .illegalInstruction => 0x01
  | .illegalOperand => 0x02
  | .badClauseHeader => 0x03
  | .unnegotiatedFeature => 0x04

/-- Decodes the words of a clause, one instruction after the other: the instructions, or the fault and the index
of the first word of the deciding instruction (R54). -/
def decodeClause : Nat → DecCtx → List Word → Nat → Except (DecFault × Nat) (List Instr)
  | 0, _, _, _ => .ok []
  | _ + 1, _, [], _ => .ok []
  | fuel + 1, c, w :: ws, at_ =>
    match decodeOne c (w :: ws) with
    | .error e => .error (e, at_)
    | .ok (i, rest) =>
      let c := { c with latches := uniformResult i :: c.latches }
      match decodeClause fuel c rest (at_ + (w :: ws).length - rest.length) with
      | .error e => .error e
      | .ok l => .ok (i :: l)

/-- Does a latch hold a uniform result? -/
def Latch.isUniform : Latch → Bool
  | .uni _ => true
  | .uni64 _ => true
  | _ => false

/-- What decoding depends on for the focus strand. -/
def decodeCtx (s : State) (cls : Nat) (latches : List Latch) : DecCtx :=
  ⟨cls, s.accepted, s.vlimit, latches.map Latch.isUniform⟩

/-- The counters that a form raises (R37): loads, stores, matrix, scratchpad and SBM; and the tag of an LDA. -/
def raises (f : Form) : List (Nat × Nat) :=
  let mem := fun (op : BitVec 8) (nr : Bool) =>
    if op = 0xA0 ∨ op = 0xAB then [(0, 0)]
    else if op = 0xA2 ∨ op = 0xA4 ∨ op = 0xAD then [(1, 0)]
    else if op = 0xA6 then [((if nr then 1 else 0), 0)]
    else if 0xB0 ≤ op then [(3, 0)]
    else []
  match f with
  | .memV op g => mem op (g.att.getD .default).nr
  | .memU op g => mem (op - 1) (g.att.getD .default).nr
  | .promote _ _ _ _ => [(1, 0)]
  | .ctl op _ _ _ => if op = 0xC7 then [(1, 0)] else []
  | .slot op _ _ _ => if op = 0xD2 then [(3, 0)] else if op = 0xD3 then [(0, 0)] else []
  | .adrn _ _ => [(3, 0)]
  | .mma _ => [(2, 0)]
  | .lda g => [(4, g.tag.toNat)]
  | _ => []

/-- The counters that a form raises as the focus strand's lanes stand: an LDA without an active lane raises none
(R260). -/
def raisesNow (s : State) (f : Form) : List (Nat × Nat) :=
  match f with
  | .lda _ => if s.st.mget 0 = 0 then [] else raises f
  | _ => raises f

/-- A counter of the focus strand. -/
def counter (s : State) (k tag : Nat) : Nat :=
  if k = 0 then loadsOut s
  else if k = 1 then storesOut s
  else if k = 2 then matrixOut s
  else if k = 3 then scratchOut s
  else tagOut s.st tag

/-- Is every counter at or below the header's limit (R35)? -/
def limitsMet (s : State) (h : Word) : Bool :=
  (List.range 4).all fun k =>
    let limit := field h (20 - 4 * k) 4
    limit = 15 || counter s k 0 ≤ limit

/-- Does every counter stay at or below 63 after the clause, and has the twin places for its MMAs (R35,
R167)? -/
def roomFor (s : State) (fs : List Form) : Bool :=
  let up := fs.flatMap (raisesNow s)
  (up.eraseDups).all (fun x => decide (counter s x.1 x.2 + (up.filter (· = x)).length ≤ 63))
    && decide ((up.filter (fun x => x.1 = 2)).length
      + (s.blk.mops.filter fun m => m.what matches .mma _ _ _ _ _ _ _ _).length ≤ Config.mmaPlaces
      || (up.filter (fun x => x.1 = 2)).length = 0)

/-- The bytes of code at places: as they stand in memory, or as they stood when the grid was dispatched
(R41). DESIGN CHOICE, log entry 20. -/
def codeBytes (s : State) (old : Bool) (pas : List Nat) : List Byte :=
  pas.map fun a => if old then Memory.read s.grd.code a else s.readByte a

/-- Fetches n bytes of code at the focus strand's pc. -/
def fetch (s : State) (old : Bool) (n : Nat) (k : List Byte → State → Out) : Out :=
  match checkAccess s s.wld .strand (dieOf s.blk.core) .fetch false s.st.pc n with
  | .bad f => parkOrDeliver f 1 s
  | .ok parts s' w =>
    let s' := parts.foldl (fun s p => macCheck p.2.2.key p.2.2.pas s) { s' with wld := w }
    let pas := allPas parts
    let bad := pas.any s'.badNow
    let s' := readOver pas s'
    if bad then
      if s'.grd.tolerant then k (List.replicate n 0) (countPoison 1 s') else deliver (faultAt 0x50 s.st.pc) s'
    else k (codeBytes s' old pas) s'

/-- Bytes as words. -/
def wordList : List Byte → List Word
  | a :: b :: c :: d :: t => BitVec.ofNat 32 (leNat [a, b, c, d]) :: wordList t
  | _ => []

/-- A header that fails the checks of R50. -/
def headerBad (h : Word) : Bool := field h 0 8 ≠ 0xC5 || field h 28 4 = 0 || field h 25 3 > 4

/-- Decodes and opens a clause whose words have been fetched. -/
def openClause (h : Word) (words : List Word) (s : State) : Out :=
  if !limitsMet s h then .next s
  else
    let cls := field h 25 3
    let pc := s.st.pc
    match decodeClause 16 (decodeCtx s cls []) words 0 with
    | .error (e, k) =>
      let at_ := if e = .badClauseHeader then pc else pc + BitVec.ofNat 64 (4 * (k + 1))
      deliverAt at_ (faultAt (decodeCode e) at_) s
    | .ok is =>
      let fs := is.filterMap form
      if fs.any (scoreboardHolds s) || !roomFor s fs then .next s
      else
        .next { s with st := { s.st with
          pc := pc + 4
          clause := some ⟨pc, cls, words, []⟩
          yld := h.getLsbD 24
          behind := []
          attempt := none
          promo := none
          fetched := [] } }

/-- Does the clock of the cluster of the focus strand run (R42)? -/
def State.clocked (s : State) : Bool := !s.gated.contains (clusterOf s.blk.core)

/-- Is the focus strand at a clause boundary and free to go on? -/
def atBoundary (s : State) : Bool :=
  s.st.status = .ready && s.st.clause.isNone && !s.blk.saving && !s.halted && s.clocked

/-- The words of code at the focus strand's pc, as they stand in memory; none where a fetch would fault. -/
def codeAt (s : State) (n : Nat) : Option (List Word) :=
  match checkAccess s s.wld .strand (dieOf s.blk.core) .fetch false s.st.pc n with
  | .ok parts s' _ => if (allPas parts).any s'.badNow then none else some (wordList (codeBytes s' false (allPas parts)))
  | .bad _ => none

/-- The port of a clause's class: 0 the vector pipes, 1 the memory port, 2 the matrix interface, 3 the scalar unit
(R34). -/
def portOf (cls : Nat) : Nat := if cls = 3 then 1 else if cls = 4 then 3 else cls

/-- The port for which the next clause of the focus strand is ready (R35). -/
def readyPort (s : State) : Option Nat :=
  match if atBoundary s && s.st.pc.toNat % 4 = 0 then codeAt s 4 else none with
  | some (h :: _) =>
    if headerBad h || !limitsMet s h then none
    else
      match codeAt s (4 * (field h 28 4 + 1)) with
      | some (_ :: words) =>
        match decodeClause 16 (decodeCtx s (field h 25 3) []) words 0 with
        | .ok is =>
          let fs := is.filterMap form
          if fs.any (scoreboardHolds s) || !roomFor s fs then none else some (portOf (field h 25 3))
        | .error _ => none
      | _ => none
  | _ => none

/-- The clauses of the other strands of the core that are ready for the port of the focus strand's next clause;
one that has itself yet to yield is not ready before it does. -/
def readyRivals (s : State) : List (StrandRef × Nat) :=
  match readyPort s with
  | none => []
  | some p =>
    (((s.allBlocks.filter fun b => b.core = s.blk.core).flatMap (·.strands)).filter fun t =>
      t.ref ≠ s.st.ref && !t.yld && ((s.focus t.ref).bind readyPort) = some p).map fun t => (t.ref, t.age)

/-- Has a clause that is older than the focus strand's yielded one still to issue (R38)? -/
def stillBehind (s : State) : Bool :=
  s.st.behind.any fun x => s.allBlocks.any fun b => b.core = s.blk.core && b.strands.any fun t =>
    t.ref = x.1 && t.age = x.2 && t.status = .ready && t.clause.isNone

/-- Must the focus strand's next clause let older ones go first: did the clause before it have YLD set, or run YIELD
(R38, R116)? -/
def mustYield (s : State) : Bool := (s.st.yld && !(readyRivals s).isEmpty) || stillBehind s

/-- May the focus strand take a new clause? -/
def mayOpen (s : State) : Bool := atBoundary s && !mustYield s

/-- The yielded clause of the focus strand becomes ready: it is younger than every clause that is ready for its port
(R38). -/
def yieldTo (s : State) : State :=
  if atBoundary s && s.st.yld && !stillBehind s then
    { s with st := { s.st with yld := false, behind := readyRivals s } }
  else s

/-- CLAUSE_ISSUE opens the next clause of a strand, when it is ready (R35), behind the older clauses to which it has
yielded (R38). A strand in an open clause holds its
port (R36): it comes into focus and goes on. DESIGN CHOICE, log entry 83. -/
def execClauseIssue (r : StrandRef) (old : Bool) (s : State) : Out :=
  match s.focus r with
  | none => .next s
  | some s' =>
    if s'.st.clause.isSome then .next s'
    else if !mayOpen s' then .next (if s'.st.yld then yieldTo s' else s)
    else if s'.st.pc.toNat % 4 ≠ 0 then deliver (faultAt 0x03 s'.st.pc) s'
    else
      fetch s' old 4 fun l s1 =>
        let h := BitVec.ofNat 32 (leNat l)
        if headerBad h then deliver (faultAt 0x03 s'.st.pc) s1
        else
          fetch s' old (4 * (field h 28 4 + 1)) fun l s2 => openClause h (wordList l).tail s2

end Sys2Proof.Machine
end

