-- ==== Sys2Proof/Machine/MatrixEvents.lean ====
section
/-! DEFINITION. The events of the twin: loads of slots, MMAs, drains and releases complete (R100, R101, R155,
R159, R162 to R169, R172, R173, R192). -/

namespace Sys2Proof.Machine

/-- Brings a block into focus. -/
def withBlock (b : BlockRef) (s : State) (k : State → Out) : Out :=
  match s.focusBlock b with
  | none => .next s
  | some s' => if s'.blk.live then k s' else .next s

/-- A matrix operation of the focus block. -/
def Block.mop (b : Block) (n : Nat) : Option MOp := b.mops.find? fun m => m.seq = n

/-- The operation leaves block issue order, and waits of the block are tested again. -/
def dropMOp (m : MOp) (s : State) : State :=
  let s := { s with blk := { s.blk with mops := s.blk.mops.filter fun x => x.seq ≠ m.seq } }
  pokeBlock ⟨s.blk.grid, s.blk.id⟩ s

/-- Delivers a fault of a matrix operation to the strand that issued it, at the instruction. -/
def mopFault (m : MOp) (x : FaultInfo) (s : State) : Out :=
  match s.focus ⟨s.blk.grid, s.blk.id, m.strand⟩ with
  | none => .next s
  | some s => deliverAt m.pc x s

/-- Do two lists of slots meet? -/
def meets (a b : List Nat) : Bool := a.any fun x => b.contains x

/-! ### Tiles as numbers -/

/-- Digit d of a T5 byte as a trit (R93). -/
def tritAt (b : Byte) (d : Nat) : Int := (b.toNat / 3 ^ d % 3 : Nat) - 1

/-- Trit k of column j of a weight tile (R94, R155). -/
def weightTrit (ks : Nat) (l : List Byte) (j k : Nat) : Int := tritAt (nth 121#8 l (colBytes ks * j + k / 5)) (k % 5)

/-- Element k of row i of an activation tile: INT8, or INT4 packed by R84. -/
def actElem (fmt ks : Nat) (l : List Byte) (i k : Nat) : Int :=
  if fmt = 1 then (nth 0#8 l (32 * 2 ^ ks * i + k)).toInt
  else
    let b := nth 0#8 l (16 * 2 ^ ks * i + k / 2)
    ((if k % 2 = 0 then b.setWidth 4 else (b >>> 4).setWidth 4 : BitVec 4)).toInt

/-- Bytes of a row. -/
def actRow (fmt ks : Nat) : Nat := if fmt = 1 then 32 * 2 ^ ks else 16 * 2 ^ ks

/-- A half-precision value of two bytes as FP32. -/
def half (l : List Byte) (off : Nat) : Nat :=
  fpConvert fp16 fp32 0 false false (leNat [nth 0#8 l off, nth 0#8 l (off + 1)])

/-- What an MMA reads: an activation tile and a weight tile with their poisoned bytes. -/
structure MmaIn where
  fmt : Nat
  ks : Nat
  act : List Byte
  actPoison : List Nat
  wgt : List Byte
  wgtPoison : List Nat
deriving DecidableEq, Repr

/-- The inputs of an MMA of the focus block: of an INT8 tile of K = 128, the bytes that its two slots hold when
the MMA runs, even where the second has been loaded on its own since (R166 checks the first alone). DEDUCED, log
entry 99. -/
def mmaIn (b : Block) (a w fmt ks : Nat) : MmaIn :=
  let x := b.slot a
  let y := if fmt = 1 ∧ ks = 2 then b.slot (a + 1) else .unclaimed
  let z := b.slot w
  ⟨fmt, ks, x.bytes ++ y.bytes, x.poison ++ y.poison.map (· + x.bytes.length), z.bytes, z.poison⟩

/-- Is a trit's byte poisoned? -/
def MmaIn.tritBad (x : MmaIn) (j k : Nat) : Bool := x.wgtPoison.contains (colBytes x.ks * j + k / 5)

/-- A trit, 0 where its byte is poisoned (R192). -/
def MmaIn.trit (x : MmaIn) (j k : Nat) : Int := if x.tritBad j k then 0 else weightTrit x.ks x.wgt j k

/-- a - z of element k of row i, 0 where the element or the zero point is poisoned. DEDUCED, log entry 51. -/
def MmaIn.elem (x : MmaIn) (i k : Nat) : Int :=
  let r := actRow x.fmt x.ks
  let at_ := if x.fmt = 1 then r * i + k else r * i + k / 2
  if x.actPoison.contains at_ || x.actPoison.contains (32 * r + 64 + i) then 0
  else actElem x.fmt x.ks x.act i k - (nth 0#8 x.act (32 * r + 64 + i)).toInt

/-- P of R100 before the sign flags. -/
def MmaIn.dot (x : MmaIn) (i j : Nat) : Int :=
  (List.range (32 * 2 ^ x.ks)).foldl (fun (p : Int) k => p + x.elem i k * x.trit j k) 0

/-- The product of the scales of row i and column j, exact in FP32; a poisoned scale counts as +0.0. -/
def MmaIn.scale (x : MmaIn) (i j : Nat) : Nat :=
  let sa := 32 * actRow x.fmt x.ks + 2 * i
  let sw := 128 * colBytes x.ks + 2 * j
  let get := fun (l : List Byte) (p : List Nat) off => if p.contains off || p.contains (off + 1) then 0 else half l off
  fpMul fp32 0 false (get x.act x.actPoison sa) (get x.wgt x.wgtPoison sw)

/-- Element (i, j) of the new tile (R100): one fma. -/
def MmaIn.result (x : MmaIn) (zc flip : Bool) (c : Tile) (i j : Nat) : Word :=
  let p := if flip then - x.dot i j else x.dot i j
  let old := if zc || c.poison.contains (128 * i + j) then 0 else (c.at_ i j).toNat
  BitVec.ofNat 32 (fpFma fp32 0 false (x.scale i j) (intToFp fp32 0 p) old)

/-- The new tile. -/
def MmaIn.tile (x : MmaIn) (zc flip : Bool) (c : Tile) : Tile :=
  ⟨(List.range 32).map fun i => (List.range 128).map fun j => x.result zc flip c i j, []⟩

/-- A tile into which an MMA and an ACLR that are not ordered have both gone: each element is +0.0, or what the
MMA wrote on the cleared tile or on the tile before (R159). DESIGN CHOICE, log entry 100. -/
def mixedTile (free : Nat) (cleared before : Tile) : Tile :=
  ⟨(List.range 32).map fun i => (List.range 128).map fun j =>
    let k := Config.freeNat free (2 ^ 75 + 128 * i + j) % 3
    if k = 0 then 0#32 else if k = 1 then cleared.at_ i j else before.at_ i j, []⟩

/-- A retiring MMA's tile, and what later MMAs into it that were issued before the ACLR may have read. -/
def retireTile (free : Nat) (m : MOp) (t : Nat) (f : Tile → Tile) (b : Block) : Block :=
  let now := f (b.tile t)
  match m.under with
  | none => b.setTile t now
  | some u =>
    let before := f u
    let next := fun (e : MOp) =>
      match e.what with
      | .mma _ _ _ t' _ _ _ _ => if t' = t && e.seq > m.seq && e.under.isSome then { e with under := some before } else e
      | _ => e
    { b with mops := b.mops.map next }.setTile t (mixedTile free now before)

/-- How many poisoned items an MMA consumes. -/
def MmaIn.poisoned (x : MmaIn) (zc : Bool) (c : Tile) : Nat :=
  x.actPoison.length + x.wgtPoison.length + (if zc then 0 else c.poison.length)

/-! ### Occupancy (R172) -/

/-- Is chunk q of core h nonzero? -/
def MmaIn.chunk (x : MmaIn) (h q : Nat) : Bool :=
  (List.range 64).any fun j => (List.range 16).any fun k => x.trit (64 * h + j) (16 * q + k) ≠ 0

/-- The occupancy of a core. -/
def MmaIn.coreCycles (x : MmaIn) (h : Nat) : Nat :=
  max 1 ((List.range (2 * 2 ^ x.ks)).filter fun q => x.chunk h q).length

/-- The occupancy of the twin. -/
def MmaIn.cycles (x : MmaIn) : Nat := max (x.coreCycles 0) (x.coreCycles 1) + 6

/-! ### MMA (R159, R173) -/

/-- Must an MMA still wait for an earlier operation (R159)? -/
def mmaHeld (b : Block) (m : MOp) (t : Nat) : Bool :=
  b.mops.any fun e => e.seq < m.seq &&
    (meets e.what.loads m.what.reads
      || (match e.what with
          | .adrn t' _ => t' = t
          | .mma _ _ _ _ _ _ _ _ => !e.started
          | _ => false))

/-- Does a matrix operation wait for an earlier one of its block, under R159 or the start order of R173? -/
def MWhat.waitsFor (e d : MWhat) : Bool :=
  meets d.loads e.reads || meets d.reads e.loads || meets d.loads e.loads
    || match d, e with
      | .mma _ _ _ _ _ _ _ _, .mma _ _ _ _ _ _ _ _ => true
      | .adrn t _, .mma _ _ _ t' _ _ _ _ => t = t'
      | .adrn _ _, .adrn _ _ => true
      | d, .orel n => (d.reads ++ d.loads).contains n
      | _, _ => false

/-- The first MMA in block issue order that p picks. -/
def firstMma (b : Block) (p : MOp → Bool) : Option MOp :=
  b.mops.find? fun m => (m.what matches .mma _ _ _ _ _ _ _ _) && p m

/-- MMA_START: the next MMA starts when the twin is free and every operation that it waits for has completed. -/
def execMmaStart (r : BlockRef) (s : State) : Out :=
  withBlock r s fun s' =>
    match firstMma s'.blk (fun m => !m.started) with
    | none => .next s
    | some m =>
      match m.what with
      | .mma _ _ _ t a w fmt ks =>
        if mmaHeld s'.blk m t || !s'.blk.mmaEnd.ule s'.clock then .next s
        else
          let ends := s'.clock + BitVec.ofNat 64 (if m.dead then 0 else (mmaIn s'.blk a w fmt ks).cycles)
          .next { s' with blk := { s'.blk.setMOp { m with started := true, ends := ends } with mmaEnd := ends } }
      | _ => .next s

/-- MMA_RETIRE: the oldest started MMA retires when its occupancy ends, and its tile takes its result; one that
waited on a failed load changes nothing. -/
def execMmaRetire (r : BlockRef) (s : State) : Out :=
  withBlock r s fun s' =>
    match firstMma s'.blk (fun m => m.started) with
    | none => .next s
    | some m =>
      if !m.ends.ule s'.clock then .next s
      else
        match m.what with
        | .mma zc na nb t a w fmt ks =>
          if m.dead then .next (dropMOp m s')
          else
            let x := mmaIn s'.blk a w fmt ks
            let c := s'.blk.tile t
            let bad := x.poisoned zc c
            if bad ≠ 0 ∧ s'.grd.tolerant = false then mopFault m (faultAt 0x50 0) (dropMOp m s')
            else
              let s2 := { s' with blk := retireTile s'.free m t (x.tile zc (na != nb)) s'.blk }
              .next (dropMOp m (countPoison bad s2))
        | _ => .next s

/-! ### Loads -/

/-- Must a load of slots still wait for an earlier operation (R159)? -/
def loadHeld (b : Block) (m : MOp) : Bool :=
  b.mops.any fun e => e.seq < m.seq && (meets e.what.reads m.what.loads || meets e.what.loads m.what.loads)

/-- The contents of a slot are written; the record that a later load has set stays. -/
def fillSlot (m : MOp) (n : Nat) (l : List Byte) (poison : List Nat) (b : Block) : Block :=
  let o := b.slot n
  let later := b.mops.any fun e => e.seq > m.seq && e.what.loads.contains n
  b.setSlot n { o with bytes := l, poison := poison, state := if later || o.state = 0 then o.state else 3 }

/-- What an operation has read of some places after an event, in their order (R294): what it had read, and what
the event picks as it stands now. -/
def MOp.reading (m : MOp) (l : List Nat) (pick : Nat → Bool) (now : Nat → Word × Bool) : List (Nat × Word × Bool) :=
  ((List.range l.length).zip l).filterMap fun x =>
    match m.got.lookup x.1 with
    | some v => some (x.1, v)
    | none => if pick x.2 then some (x.1, now x.2) else none

/-- Places of poisoned bytes. -/
def poisonPlaces (t : List (Byte × Bool)) : List Nat := (List.range t.length).filter fun i => (nth (0#8, false) t i).2

/-- A byte and its poison as an operation keeps them while it reads. -/
def keptByte (b : Byte) (bad : Bool) : Word × Bool := (b.setWidth 32, bad)

/-- The bytes that an operation has read, each with its poison. -/
def gotBytes (l : List (Nat × Word × Bool)) : List (Byte × Bool) := l.map fun x => (x.2.1.setWidth 8, x.2.2)

/-- OLDA_COMPLETE: bytes of the tile are read from the scratchpad, and once all are, the slot is written; poison
goes with them. -/
def execOldaComplete (r : BlockRef) (x : PartOf) (s : State) : Out :=
  withBlock r s fun s' =>
    match s'.blk.mop x.num with
    | none => .next s
    | some m =>
      match m.what with
      | .olda slot form base =>
        if loadHeld s'.blk m then .next s
        else
          let places := (List.range (actExtent form)).map (base + ·)
          let got := m.reading places (readsAt x.units 0) fun p =>
            keptByte (Memory.read s'.blk.scratch p) (s'.blk.scratchPoison.contains p)
          if got.length < places.length then .next { s' with blk := s'.blk.setMOp { m with got := got } }
          else
            let l := gotBytes got
            let fill := fun (k : Nat) (l : List (Byte × Bool)) => fillSlot m k (l.map (·.1)) (poisonPlaces l)
            let b := fill slot (l.take 4096) s'.blk
            let b := if m.what.loads.length = 2 then fill (slot + 1) (l.drop 4096) b else b
            .next (dropMOp m { s' with blk := b })
      | _ => .next s

/-- The places that an OLDW reads, in order. -/
def MOp.places (m : MOp) : List Nat := m.parts.flatMap (·.pas)

/-- The bytes of an OLDW's parts, decrypted where they are sealed (R165, R184), each with its poison. -/
def openParts (w : World) : List LaneAcc → List (Byte × Bool) → List (Byte × Bool)
  | [], _ => []
  | a :: t, l =>
    let raw := l.take a.pas.length
    let clear := if a.mtype = 1 then
      openSealed (beBytes 32 ((w.sealing.getD 0).toNat)) (BitVec.ofNat 32 (leNat a.data)) a.cmp.toNat (raw.map (·.1))
      else raw.map (·.1)
    clear.zip (raw.map (·.2)) ++ openParts w t (l.drop a.pas.length)

/-- The bytes of an OLDW as they stand at their home L2 now. -/
def oldwBytes (s : State) (m : MOp) : List (Byte × Bool) :=
  openParts s.wld m.parts (m.places.map fun p => (s.readByte p, s.badByte p))

/-- The tile of Wᵀ built from forward tiles (R164): the T5 column bytes, each with its poison, then scales of 1.0.
DEDUCED, log entry 50. -/
def transposed (x : BitVec 8) (l : List (Byte × Bool)) : List (Byte × Bool) :=
  let ks := x.toNat % 4
  let gs := x.toNat / 8 % 4
  let k := 32 * 2 ^ ks
  let kf := 32 * 2 ^ gs
  let src := fun (j p : Nat) => nth (121#8, false) l (colBytes gs * k * (j / kf) + colBytes gs * p + j % kf / 5)
  let digit := fun (j p : Nat) => if p < k then (src j p).1.toNat / 3 ^ (j % kf % 5) % 3 else 1
  let byte := fun (j i : Nat) =>
    (BitVec.ofNat 8 ((List.range 5).foldl (fun v e => v + 3 ^ e * digit j (5 * i + e)) 0),
      (List.range 5).any fun e => decide (5 * i + e < k) && (src j (5 * i + e)).2)
  ((List.range 128).flatMap fun j => (List.range (colBytes ks)).map fun i => byte j i)
    ++ (List.range 128).flatMap fun _ => [(0x00#8, false), (0x3C#8, false)]

/-- How many of the bytes read are trit bytes: with T = 0 the scales follow them. -/
def tritBytes (x : BitVec 8) (n : Nat) : Nat := if x.getLsbD 2 then n else n - 256

/-- Step 5 of R165: the number of illegal trit bytes, and the tile with each of them taken as 121. A poisoned
byte counts as no illegal one. DEDUCED, log entry 50. -/
def oldwTile (x : BitVec 8) (l : List (Byte × Bool)) : Nat × List (Byte × Bool) :=
  let k := tritBytes x l.length
  let illegal := ((l.take k).filter fun b => !b.2 && 243 ≤ b.1.toNat).length
  let clean := ((l.take k).map fun b => if 243 ≤ b.1.toNat then (121#8, b.2) else b) ++ l.drop k
  (illegal, if x.getLsbD 2 then transposed x clean else clean)

/-- An OLDW that has read its bytes: the trit bytes are checked, and the slot is written (R165). -/
def oldwEnds (m : MOp) (slot : Nat) (form : BitVec 8) (va : DWord) (l : List (Byte × Bool)) (s : State) : Out :=
  let (illegal, t) := oldwTile form (openParts s.wld m.parts l)
  if illegal ≠ 0 ∧ s.grd.tolerant = false then mopFault m (faultAt 0x35 va) (loadFails m.seq slot s)
  else
    let s2 := { s with blk := fillSlot m slot (t.map (·.1)) (poisonPlaces t) s.blk }
    .next (dropMOp m (if illegal = 0 then s2 else recordFor s2.grd.id 2 illegal 0 s2))

/-- OLDW_COMPLETE: bytes are read at their home L2, and once all are, the OLDW ends (R165). -/
def execOldwComplete (r : BlockRef) (x : PartOf) (s : State) : Out :=
  withBlock r s fun s' =>
    match s'.blk.mop x.num with
    | none => .next s
    | some m =>
      match m.what with
      | .oldw slot form va =>
        if m.parked || loadHeld s'.blk m then .next s
        else
          let s' := m.parts.foldl (fun s a => macCheck a.key (a.pas.filter (readsAt x.units 0)) s) s'
          let got := m.reading m.places (readsAt x.units 0) fun p => keptByte (s'.readByte p) (s'.badByte p)
          if got.length < m.places.length then .next { s' with blk := s'.blk.setMOp { m with got := got } }
          else oldwEnds m slot form va (gotBytes got) s'
      | _ => .next s

/-! ### ADRN and OREL -/

/-- May an ADRN write elements that it has read: in a strict launch once all are read, as one that faults writes
nothing (R192); after the ADRNs before it (R173), and not before it may end. -/
def drainReady (s : State) (m : MOp) (got : List (Nat × Word × Bool)) : Bool :=
  m.ends.ule s.clock && !s.blk.mops.any (fun e => decide (e.seq < m.seq) && e.what matches .adrn _ _)
    && (got.length = 4096 || s.grd.tolerant)

/-- The bytes of drained elements by their offsets: a poisoned element is written as +0.0 (R192). -/
def drainBytes (got : List (Nat × Word × Bool)) : List (Nat × Byte) :=
  got.flatMap fun x => ((List.range 4).map (4 * x.1 + ·)).zip (leBytes 4 (if x.2.2 then 0 else x.2.1.toNat))

/-- ADRN_COMPLETE: elements of the tile are read as they stand, which an MMA or ACLR that had not retired at its
issue may change between two of them (R159), and bytes are written to the scratchpad (R157, R169), a poisoned
element as +0.0 (R192). With its last byte the ADRN completes. DEDUCED, log entry 45. -/
def execAdrnComplete (r : BlockRef) (x : PartOf) (s : State) : Out :=
  withBlock r s fun s' =>
    match s'.blk.mop x.num with
    | none => .next s
    | some m =>
      match m.what with
      | .adrn t base =>
        let tile := s'.blk.tile t
        let got := m.reading (List.range 4096) (readsAt x.units 0) fun e =>
          (tile.at_ (e / 128) (e % 128), tile.poison.contains e)
        let bad := (got.filter fun y => y.2.2 && (m.got.lookup y.1).isNone).length
        if bad ≠ 0 ∧ s'.grd.tolerant = false then mopFault m (faultAt 0x50 0) (dropMOp m s')
        else
          let l := if drainReady s' m got then
            (drainBytes got).filter fun z => !m.put.contains z.1 && writesAt x.units 0 (base + z.1) else []
          let s2 := countPoison bad (chipWrite false (l.map fun z => (base + z.1, z.2)) s')
          let put := m.put ++ l.map (·.1)
          if put.length = 16384 then .next (dropMOp m s2)
          else .next { s2 with blk := s2.blk.setMOp { m with got := got, put := put } }
      | _ => .next s

/-- OREL_COMPLETE: the slot's contents are zeroed once the MMAs and loads before the release are over (R162). -/
def execOrelComplete (r : BlockRef) (n : Nat) (s : State) : Out :=
  withBlock r s fun s' =>
    match s'.blk.mop n with
    | none => .next s
    | some m =>
      match m.what with
      | .orel slot =>
        if s'.blk.mops.any (fun e => e.seq < n && (e.what.reads.contains slot || e.what.loads.contains slot)) then
          .next s
        else .next (dropMOp m { s' with blk := s'.blk.setSlot slot .unclaimed })
      | _ => .next s

end Sys2Proof.Machine
end

