-- ==== Sys2Proof/Machine/Queues.lean ====
section
/-! DEFINITION. Work queues: how the scheduler consumes their records (R315 to R323), and task nodes (R321, R324,
R325). -/

namespace Sys2Proof.Machine

/-! ### Queues -/

/-- Changes a queue. -/
def mapQueue (q : Nat) (f : Queue → Queue) (s : State) : State :=
  { s with queues := update (fun x => x.index = q) f s.queues }

/-- A reserved field of a work queue's header is not zero: the queue refuses every record (R316). -/
def workHeaderBad (h : Header) : Bool := field h.bits 288 224 ≠ 0 || field h.bits 197 27 ≠ 0

/-- The record that stands at a queue's head. -/
structure Head where
  q : Queue
  key : Nat
  h : Header
  bits : BitVec 512
  host : Bool

/-- The record in slot READ of a queue, once its VALID byte says that it is there (R270, R317).
Before the accepted set is locked, no queue is open (R373). DEDUCED, log entry 37. -/
def headRecord (s : State) (q : Nat) : Option Head :=
  match if s.locked then s.queue q else none with
  | none => none
  | some x =>
    match queueHeader s x with
    | none => none
    | some (key, h) =>
      match slotImage s key h h.read with
      | none => none
      | some (pas, r) =>
        if field r 0 8 = (h.valid h.read).toNat then some ⟨x, key, h, r, s.hostSlots.contains (pas.head?.getD 0)⟩
        else none

/-- READ rises by one. -/
def Head.consume (x : Head) (s : State) : State := x.h.put 8 8 (x.h.read + 1) s

/-- A record is consumed without effect: its status goes to LASTERR, and the counts of refusals rise (R320,
R372). -/
def Head.refuse (x : Head) (detail : Nat) (s : State) : State :=
  let s := x.h.put 32 4 (refusedWord detail).toNat (x.h.put 28 4 (satAdd32 (field x.h.bits 224 32) 1) (x.consume s))
  mapQueue x.q.index (fun q => { q with refusals := q.refusals + 1 }.event s.refNs)
    { s with
      origins := s.origins.filter fun o => !(o.queue = x.q.index && o.index = x.h.read)
      posted := s.posted.filter (· ≠ (x.q.index, x.h.read)) }

/-- A record of a queue retires (R372). -/
def recordRetired (q order : Nat) (s : State) : State :=
  mapQueue q (fun x => Queue.event { x with
    busyGrids := x.busyGrids.filter (· ≠ order)
    busyOthers := x.busyOthers.filter (· ≠ order)
    retired := x.retired + 1 } s.refNs) s

/-- Runs k on the record at a queue's head, when it is of a kind that the event takes. A record of a queue whose
header is bad is refused. -/
def withHead (q : Nat) (kind : Nat → Bool) (s0 : State) (k : Head → State → State) : Out :=
  let s := match s0.queue q with
    | some x => queueCheck x s0
    | none => s0
  match headRecord s q with
  | none => .next s
  | some x =>
    if !kind (field x.bits 8 8) then .next s
    else if workHeaderBad x.h then .next (x.refuse 1 s)
    else .next (k x s)

/-- Is every earlier record of the queue retired (R323)? -/
def Head.first (x : Head) : Bool := x.q.busyGrids.isEmpty && x.q.busyOthers.isEmpty

/-- The number of the record among those that its queue has taken. -/
def Head.order (x : Head) : Nat := x.q.order + 1

/-- The record is taken and counts among the queue's records of its kind until it retires. -/
def Head.take (x : Head) (grid : Bool) (s : State) : State :=
  mapQueue x.q.index (fun q => { q with
    order := x.order
    busyGrids := if grid then q.busyGrids ++ [x.order] else q.busyGrids
    busyOthers := if grid then q.busyOthers else q.busyOthers ++ [x.order] }) (x.consume s)

/-! ### Grids -/

/-- The key id of a root record's world: its handle's, or 0 for an anonymous world, which gets its key id at
dispatch; none when the handle is not registered (R356). -/
def rootKey (s : State) (rec : BitVec 512) : Option Nat :=
  if field rec 32 16 = 0 then some 0
  else (s.allWorlds.find? (fun w => w.handle = BitVec.ofNat 16 (field rec 32 16))).map (·.key)

/-- A number for a grid: not 0, and its low 32 bits unlike those of every live grid (R25), counted up from the
last one given: DESIGN CHOICE, log entry 111. -/
def newGridId (s : State) : Nat :=
  (firstFrom (fun n => n % 2 ^ 32 ≠ 0 && s.allGrids.all fun g => g.id % 2 ^ 32 ≠ n % 2 ^ 32)
    (s.gridCount + 1) (s.allGrids.length + 2)).getD (s.gridCount + 1)

/-- A grid comes to be from its record: a root grid, or a child of the grid that launched it (R17, R341). A child
whose parent has ended ends at once (R348). -/
def newGrid (q order : Nat) (key : Nat) (parent : Option Nat) (node : Option NodeRef) (debugged : Bool)
    (rec : BitVec 512) (s : State) : State :=
  let id := newGridId s
  let up := match parent with | some p => s.grid p | none => none
  let g : Grid := { Grid.blank with
    live := true, id := id, record := rec, queue := q, order := order, node := node, parent := parent, debugged := debugged
    key := match up with | some p => p.key | none => key
    depth := match up with | some p => p.depth + 1 | none => 0 }
  let s := { s with grids := g :: s.grids, gridCount := id }
  match up with
  | some p => if p.ended.isSome then markEnded id 0x72 (recordFor id 0 0 (plainRecord s.free 0x72 5 id 0 0 0 0) s) else s
  | none => s

/-- The launch that posted the record in a slot. -/
def originOf (s : State) (q index : Nat) : Option Origin := s.origins.find? fun o => o.queue = q && o.index = index

/-- GRID_RECORD: the scheduler takes a GRID record, or refuses one of a kind that does not exist (R318, R320). -/
def execGridRecord (q : Nat) (s : State) : Out :=
  withHead q (fun k => k = 0x80 || !(k ≤ 7 || k = 0x81 || k = 0x82 || k = 0x83)) s fun x s =>
    if field x.bits 8 8 ≠ 0x80 || gridMalformed s.accepted x.bits then x.refuse 1 s
    else if field x.bits 16 10 ≠ q then x.refuse 2 s
    else
      match rootKey s x.bits with
      | none => x.refuse 1 s
      | some key =>
        let parent := (originOf s q x.h.read).map (·.parent)
        let debugged := s.posted.contains (q, x.h.read)
        let s := { s with
          origins := s.origins.filter fun o => !(o.queue = q && o.index = x.h.read)
          posted := s.posted.filter (· ≠ (q, x.h.read)) }
        newGrid q x.order key parent none debugged x.bits (x.take true s)

/-! ### Task nodes -/

/-- The place and the contents of a task control block: 128-byte aligned, on a NORMAL page. -/
def tcbAt (s : State) (key : Nat) (a : DWord) : Option (Nat × Tcb) :=
  if a.toNat % 128 ≠ 0 then none
  else
    match moonRead s key .write a 128 with
    | some (pa :: l, _) => some (pa, BitVec.ofNat 1024 (valueAt s (pa :: l)))
    | _ => none

/-- The refusal of a node's record: malformed, or of a queue that is not bound. -/
def nodeRefusal (s : State) (r : BitVec 512) : Option Nat :=
  if field r 8 8 = 0x80 then
    if gridMalformed s.accepted r || (rootKey s r).isNone then some 1
    else if (s.queue (field r 16 10)).isNone then some 2
    else none
  else none

/-- A node is posted: STATE becomes 1 together with a read of PRED (R324). -/
def postNode (n : NodeRef) (t : Tcb) (s : State) : State :=
  let s := writePlaces (lineKey s n.pa n.key) false [(n.pa + 69, 1#8)] s
  if field t 512 32 = 0 then makeReady n s else s

/-- NODE_RECORD: the node is registered and its record retires at once (R323). -/
def execNodeRecord (q : Nat) (s : State) : Out :=
  withHead q (· = 0x81) s fun x s =>
    if nodeMalformed x.bits || !s.accepted.getLsbD 13 then x.refuse 1 s
    else
      let a := BitVec.ofNat 64 (field x.bits 64 64)
      let s := moonCheck x.key .write a 128 s
      match tcbAt s x.key a with
      | none => x.refuse 1 s
      | some (pa, t) =>
        if tcbMalformed t then x.refuse 1 s
        else if field t 8 8 ≠ 0x80 ∧ x.q.bind.handle = 0 then x.refuse 2 s
        else
          match nodeRefusal s (tcbRecord t) with
          | some d => x.refuse d s
          | none =>
            let s := { s with
              registered := (pa, q) :: s.registered.filter (fun r => r.1 ≠ pa)
              origins := update (fun o => o.queue = q && o.index = x.h.read) (fun o => { o with node := some pa }) s.origins }
            recordRetired q x.order (postNode ⟨x.key, a, pa⟩ t (x.take false s))

/-- A record of a world goes to its root grid's fault area, or to the owner when no world is live (R345). -/
def recordForWorld (key : Nat) (rec : BitVec 512) (s : State) : State :=
  match s.world key with
  | some w => if w.live then recordFor w.root 0 0 rec s else tell (.record key rec) s
  | none => tell (.record key rec) s

/-- One successor of a retired node is decremented; a malformed one is skipped with a record (R325). -/
def succeed (n : NodeRef) (g : Option Nat) (a : DWord) (s : State) : State :=
  let bad := fun (s : State) =>
    let r := plainRecord s.free 0x73 5 (g.getD 0) a 0 0 0
    match g with
    | some id => recordFor id 0 0 r s
    | none => recordForWorld n.key r s
  let s := moonCheck n.key .write a 128 s
  match tcbAt s n.key a with
  | none => bad s
  | some (pa, t) => if tcbMalformed t then bad s else decrement ⟨n.key, a, pa⟩ 1 s

/-- The entries of an overflow list: up to a zero entry, or k of them. -/
def moreNodes (s : State) (key : Nat) : Nat → DWord → List DWord
  | 0, _ => []
  | k + 1, a =>
    match moonRead s key .read a 8 with
    | none => []
    | some (pas, _) =>
      let x := BitVec.ofNat 64 (valueAt s pas)
      if x = 0 then [] else x :: moreNodes s key k (a + 8)

/-- A word of a node's task control block, from byte 72 on. -/
def nodeWord (s : State) (n : NodeRef) (i : Nat) : DWord := BitVec.ofNat 64 (leNat (s.readBytes (n.pa + 72 + 8 * i) 8))

/-- The successors of a node; an overflow list ends where it cannot be read. -/
def successors (s : State) (n : NodeRef) : List DWord :=
  let inline := (List.range (min 6 (s.readByte (n.pa + 68)).toNat)).map (nodeWord s n)
  let more := nodeWord s n 6
  inline ++ if more = 0 then [] else moreNodes s n.key 4096 more

/-- A node's task control block and its overflow list are read, and their MACs checked, entry by entry (R358). -/
def nodeCheck (n : NodeRef) (s : State) : State :=
  let s := moonCheck n.key .write n.addr 128 s
  let more := nodeWord s n 6
  if more = 0 then s
  else
    let k := (moreNodes s n.key 4096 more).length
    (List.range (k + 1)).foldl (fun s i => moonCheck n.key .read (more + BitVec.ofNat 64 (8 * i)) 8 s) s

/-- The release of a retired node's work covers its deferred atomics: they are applied first (R325). -/
def releaseWork (n : NodeRef) (g : Option Nat) (s : State) : State :=
  let key := ((g.bind s.grid).map (·.key)).getD n.key
  applyDeferred (fun q => q.key = key || g = some q.strand.grid) s

/-- A node retires: STATE, then the successors (R325). -/
def retireNode (n : NodeRef) (ended : Bool) (g : Option Nat) (s : State) : State :=
  let s := nodeCheck n (releaseWork n g s)
  let s := writePlaces (lineKey s n.pa n.key) false [(n.pa + 69, if ended then 5#8 else 4#8)] s
  let l := successors s n
  l.foldl (fun s a => succeed n g a s) { s with registered := s.registered.filter fun r => r.1 ≠ n.pa }

/-! ### Other records -/

/-- A record or a node's packet is handed to its engine, or, as a SIGNAL, to the scheduler (R318).
DEDUCED, log entry 56. -/
def hand (key : Nat) (q : Queue) (image : BitVec 512) (host : Bool) (poster : Poster) (s : State) : State :=
  { s with
    handed := s.handed ++ [⟨s.packetCount, key, image, host, poster, q.bind.die.toNat, q.bind.engine.toNat⟩]
    packetCount := s.packetCount + 1 }

/-- A SIGNAL record's image as a SIGNAL packet. -/
def asSignal (r : BitVec 512) : BitVec 512 := if field r 8 8 = 0x82 then setField r 8 8 7 else r

/-- COPY and SIGNAL records: they start after every earlier record has retired, in the world of HANDLE (R315,
R318). -/
def handRecord (q : Nat) (kind : Nat → Bool) (s : State) : Out :=
  withHead q kind s fun x s =>
    if x.q.bind.handle = 0 then x.refuse 2 s
    else if !x.first then s
    else hand x.key x.q (asSignal x.bits) x.host (.record q x.order) (x.take false s)

/-- COPY_RECORD. -/
def execCopyRecord (q : Nat) (s : State) : Out := handRecord q (· ≤ 7) s

/-- SIGNAL_RECORD. -/
def execSignalRecord (q : Nat) (s : State) : Out := handRecord q (· = 0x82) s

/-- WAITVAL_RECORD (R322). -/
def execWaitvalRecord (q : Nat) (s : State) : Out :=
  withHead q (· = 0x83) s fun x s =>
    if !s.accepted.getLsbD 13 then x.refuse 1 s
    else if x.q.bind.handle = 0 then x.refuse 2 s
    else if waitvalMalformed x.bits then x.refuse 1 s
    else if !x.first then s
    else
      let w : Watch := ⟨q, x.order, x.key, BitVec.ofNat 64 (field x.bits 64 64), BitVec.ofNat 32 (field x.bits 128 32),
          field x.bits 160 8, none, false⟩
      let s := x.take false s
      { s with watches := s.watches ++ [w] }

/-- What the scheduler's read of a WAITVAL record's word gives: the word, or the fault it takes. -/
inductive Watched where
  | word (w : Word) (s : State)
  | bad (f : FaultInfo) (s : State)

/-- The scheduler's read of the word, as an access of the record's world: a page of an arena is drawn by a first touch
(R202, R322). Poison is a fault of the read, which no launch owns. DEDUCED, log entry 101. -/
def watchWord (s : State) (x : Watch) : Watched :=
  match s.world x.key with
  | none => .bad (faultAt codePageFault x.addr) s
  | some w =>
    match checkAccess s w .moon 0 .waitv true x.addr 4 with
    | .bad f => .bad f s
    | .ok ps s w =>
      let s := ps.foldl (fun s p => macCheck p.2.2.key p.2.2.pas s) (s.setWorld w)
      let bad := (allPas ps).any s.badNow
      let s := readOver (allPas ps) s
      if bad then .bad (faultAt 0x50 x.addr) s
      else .word (BitVec.ofNat 32 (valueAt s (allPas ps))) s

/-- Changes a waiting WAITVAL record. -/
def setWatch (x : Watch) (s : State) : State :=
  { s with watches := update (fun y => y.queue = x.queue && y.order = x.order) (fun _ => x) s.watches }

/-- The record of a fault of the read, which no strand takes (R343). -/
def watchRecord (x : Watch) (f : FaultInfo) (s : State) : State :=
  recordForWorld x.key (plainRecord s.free f.code 5 0 f.addr f.data f.extra f.detail) s

/-- A fault of the read that no strand takes is recorded once, with SOURCE 5 (R343), or, where it is replayable,
waits to be resolved and is reported (R226). The record goes on waiting, and the word is read again. DEDUCED,
log entry 101. -/
def watchFault (x : Watch) (f : FaultInfo) (s : State) : State :=
  if x.fault = some f then s
  else
    let s := setWatch { x with fault := some f, declined := false } s
    if replayable f.code then reportStage2 x.key f s else watchRecord x f s

/-- COND(word, VALUE). -/
def Watch.holds (x : Watch) (w : Word) : Bool :=
  if x.cond = 0 then w = x.value
  else if x.cond = 1 then w ≠ x.value
  else if x.cond = 2 then x.value.ule w
  else w.ult x.value

/-- WAITVAL_SATISFIED: the scheduler reads the word, and when the condition holds, the record retires. -/
def execWaitvalSatisfied (q : Nat) (s : State) : Out :=
  match s.watches.find? fun x => x.queue = q with
  | none => .next s
  | some x =>
    match watchWord s x with
    | .bad f s => if f.code = codeAbsent then .fault (.noSuchAddress f.addr.toNat) else .next (watchFault x f s)
    | .word w s =>
      let others := s.watches.filter fun y => !(y.queue = q && y.order = x.order)
      if x.holds w then .next (recordRetired q x.order { s with watches := others }) else .next s

/-- A place in the ready pool frees: the node that has waited longest takes it (R324). -/
def refillPool (s : State) : State :=
  match s.readyWait with
  | n :: rest => if s.readyPool.length < Config.readyPool then { s with readyPool := s.readyPool ++ [n], readyWait := rest } else s
  | [] => s

/-- The launching grid of a node that LAUNCH posted. -/
def nodeParent (s : State) (n : NodeRef) : Option Nat := (s.origins.find? fun o => o.node = some n.pa).map (·.parent)

/-- A node's work begins (R324): its record as it stands now. A node whose record has become malformed ends
without work. DEDUCED, log entry 55. -/
def startNode (n : NodeRef) (s0 : State) : State :=
  let s := moonCheck n.key .write n.addr 128 s0
  let t : Tcb := BitVec.ofNat 1024 (leNat (s.readBytes n.pa 128))
  let r := tcbRecord t
  let holder := (s.registered.lookup n.pa).bind s.queue
  let parent := nodeParent s n
  let s := writePlaces (lineKey s n.pa n.key) false [(n.pa + 69, 3#8)] { s with
    origins := s.origins.filter fun o => o.node ≠ some n.pa }
  if tcbMalformed t || (nodeRefusal s r).isSome then retireNode n true none s
  else if field r 8 8 = 0x80 then newGrid (field r 16 10) 0 ((rootKey s r).getD 0) parent (some n) false r s
  else
    match holder with
    | some q => if n.key = 0 then retireNode n true none s else hand n.key q (asSignal r) false (.node n) s
    | none => retireNode n true none s

/-- READY_POOL_ENTRY: the node at the head of the ready pool goes into its queue's dispatch. -/
def execReadyPoolEntry (s : State) : Out :=
  match s.readyPool with
  | [] => .next s
  | n :: rest => .next (startNode n (refillPool { s with readyPool := rest }))

end Sys2Proof.Machine
end

