-- ==== Sys2Proof/Machine/Placement.lean ====
section
/-! DEFINITION. Where a block may go and whose turn it is: free room (R27, R326), the order within a grid (R15, R340)
and a queue (R323), bands and the deficit round-robin (R327, R328). -/

namespace Sys2Proof.Machine

/-! ### Room on a core -/

/-- The grid of a block. -/
def State.gridOf (s : State) (b : Block) : Grid := (s.grid b.grid).getD .blank

/-- The blocks on a core that a choice of victims leaves there. -/
def residents (s : State) (gone : Block → Bool) (core : Nat) : List Block :=
  s.allBlocks.filter fun b => b.core = core && !gone b

/-- Scratchpad that the blocks on a core hold. -/
def scratchHeld (s : State) (l : List Block) : Nat := sumBy (fun b => (s.gridOf b).scratchBytes b.granted) l

/-- The strand slots that the blocks on a core hold. -/
def slotsHeld (l : List Block) : List Nat := l.flatMap fun b => b.strands.map (·.slot)

/-- Strand slots for n strands: the lowest free ones, in strand order, each with a free thread-arena bank when
the grid has thread arenas (R27, R205, R326). No rule orders them: DESIGN CHOICE, log entry 112. -/
def chooseSlots (s : State) (g : Grid) (banks : Bool) (gone : Block → Bool) (core : Nat) : Option (List Nat) :=
  let held := slotsHeld (residents s gone core)
  let free := (List.range Config.strandSlots).filter fun k =>
    !held.contains k && (!banks || g.tcap = 0 || (freeBank s core k).isSome)
  if g.nstrands ≤ free.length then some (free.take g.nstrands) else none

/-- Is a core's twin free for a twin-placed block: is the core a leader on which none stands (R16)? -/
def twinFree (s : State) (gone : Block → Bool) (core : Nat) : Bool :=
  core % 2 = 0 && (residents s gone core).all fun b => !(s.gridOf b).twin

/-- Has the core room for a block of a grid: its prologue allotment, or its full one (R33, R326, R334)? A new block
needs arena slots as well. -/
def roomOn (s : State) (g : Grid) (full banks : Bool) (gone : Block → Bool) (core : Nat) : Bool :=
  let l := residents s gone core
  scratchHeld s l + g.scratchBytes full ≤ Config.scratchBytes
    && (chooseSlots s g banks gone core).isSome
    && (!g.twin || twinFree s gone core)
    && (!banks || g.bcap = 0 || (freeBlockSlot s (dieOf core)).isSome)

/-- The core that orrery's setting names for the blocks of a debugged root grid (R195): one that orrery's run
has posted, or of a world that orrery is attached to. The setting made under key id 0 is for the root grids that
orrery itself runs for anonymous worlds. DEDUCED, log entry 77. -/
def placeSetting (s : State) (g : Grid) : Option Nat :=
  if g.parent.isSome then none
  else if g.debugged then (s.placed.lookup g.key).or (s.placed.lookup 0)
  else if (s.world g.key).any (·.attached) then s.placed.lookup g.key
  else none

/-- May the queue's blocks use the core: its mask, the cores that exist, and orrery's setting (R195, R315)? -/
def coreAllowed (s : State) (q : Queue) (g : Grid) (core : Nat) : Bool :=
  (q.bind.mask = 0 || q.bind.mask.getLsbD core) && !s.offline.contains (dieOf core) &&
    match placeSetting s g with
    | some c => c = core
    | none => true

/-- Does the core admit a block of the grid: is no request unmet there, or is room freed there for this grid
(R32, R331)? DEDUCED, log entry 63. -/
def admits (s : State) (g : Grid) (core : Nat) : Bool :=
  s.kept.contains (core, g.id) || (residents s (fun _ => false) core).all fun b => b.request.isNone

/-- Fewest resident strands, then the lowest number (R326). -/
def bestCore (s : State) (l : List Nat) : Option Nat :=
  let load := fun (c : Nat) => (slotsHeld (residents s (fun _ => false) c)).length
  l.foldl (fun m c =>
    match m with
    | none => some c
    | some d => if load c < load d then some c else m) none

/-! ### Order within a grid and a queue -/

/-- The least number of a list. -/
def least : List Nat → Option Nat
  | [] => none
  | x :: t => some (match least t with | none => x | some y => min x y)

/-- The block of a grid that comes next (R15, R340): the flushed or saved one of lowest index, else the next that
has never been dispatched. True: it is a saved one. -/
def nextUnit (g : Grid) : Option (Nat × Bool) :=
  let saved := g.saved.map (·.block.id)
  match least (g.flushed ++ saved) with
  | some i => some (i, saved.contains i)
  | none => if g.nextBlock < g.nblocks then some (g.nextBlock, false) else none

/-- Does the next unit of a grid take its full allotment: a saved block, or any under FIXED? -/
def unitFull (g : Grid) (saved : Bool) : Bool := saved || g.fixed

/-! ### Room that is kept (R32, R331) -/

/-- Does a block leave its core: is it drained or saved? -/
def leaving (b : Block) : Bool := b.saving || b.draining.isSome

/-- The grids for whose next blocks a core keeps the room that is freed there, but for one. -/
def keptFor (s : State) (but core : Nat) : List Grid :=
  (s.kept.filter fun k => k.1 = core && k.2 ≠ but).filterMap fun k => s.grid k.2

/-- The scratchpad that the next block of a grid takes. -/
def nextScratch (g : Grid) : Nat := g.scratchBytes (match nextUnit g with | some (_, saved) => unitFull g saved | none => false)

/-- Once the leaving blocks are gone, is there room for the blocks for which a core keeps it beside a block of g? -/
def leavesKept (s : State) (g : Grid) (full : Bool) (gone : Block → Bool) (core : Nat) : Bool :=
  let others := keptFor s g.id core
  let l := residents s (fun b => gone b || leaving b) core
  others.isEmpty || (scratchHeld s l + g.scratchBytes full + sumBy nextScratch others ≤ Config.scratchBytes
    && (slotsHeld l).length + g.nstrands + sumBy Grid.nstrands others ≤ Config.strandSlots
    && (!g.twin || others.all fun x => !x.twin))

/-- Has the core room for a block of a grid, with what it keeps for others left? -/
def fitsOn (s : State) (g : Grid) (full banks : Bool) (gone : Block → Bool) (core : Nat) : Bool :=
  roomOn s g full banks gone core && leavesKept s g full gone core

/-- Have all blocks of a grid been dispatched, or does it end? -/
def allDispatched (g : Grid) : Bool := (g.nextBlock ≥ g.nblocks && g.flushed.isEmpty) || g.ended.isSome

/-- May blocks of the grid be dispatched as far as its queue goes (R323)? A node's grid stands at the head.
DEDUCED, log entry 63. -/
def inOrder (s : State) (q : Queue) (g : Grid) : Bool :=
  g.order = 0 || (q.busyOthers.all (fun o => o > g.order)
    && s.allGrids.all fun x => x.queue ≠ g.queue || x.order = 0 || x.order ≥ g.order || allDispatched x)

/-- Has some range of a key id still to be scrubbed (R363)? -/
def scrubbing (s : State) (key : Nat) : Bool := s.scrub.any fun r => r.key = key

/-- A free key id: no handle, no world and no pending scrub has it (R355, R363). -/
def freeKeyId (s : State) : Option Nat :=
  firstFrom (fun k => s.allWorlds.all (fun w => w.key ≠ k) && !scrubbing s k) 1 1023

/-- Shared bank memory that the grids of the device hold on each die. -/
def sbmHeld (s : State) : Nat := sumBy (fun g => if g.started then g.sbmBytes else 0) s.allGrids

/-- May a grid that has not started start: its world (R356) and its SBM allotment? -/
def mayStart (s : State) (g : Grid) : Bool :=
  sbmHeld s + g.sbmBytes ≤ Config.sbmBytes &&
    (g.parent.isSome ||
      if g.key = 0 then (freeKeyId s).isSome
      else match s.world g.key with
        | some w => !w.live && !scrubbing s g.key
        | none => false)

/-- Has the grid a block to dispatch or to restore? -/
def dispatchable (s : State) (q : Queue) (g : Grid) : Bool :=
  g.ended.isNone && g.argsFault.isNone && (nextUnit g).isSome && inOrder s q g && (g.started || mayStart s g)

/-- The cores that could take the next block of a grid. -/
def coresFor (s : State) (q : Queue) (g : Grid) (saved : Bool) : List Nat :=
  (List.range Config.cores).filter fun c =>
    coreAllowed s q g c && admits s g c && fitsOn s g (unitFull g saved) (!saved) (fun _ => false) c

/-- Has the grid a block that may go now, and a core for it? -/
def servable (s : State) (q : Queue) (g : Grid) : Bool :=
  dispatchable s q g &&
    match nextUnit g with
    | some (_, saved) => !(coresFor s q g saved).isEmpty
    | none => false

/-! ### Bands and turns -/

/-- The grids of a queue. -/
def gridsOf (s : State) (q : Queue) : List Grid := s.allGrids.filter fun g => g.queue = q.index

/-- Has the queue a block that fits now? -/
def queueServable (s : State) (q : Queue) : Bool := (gridsOf s q).any (servable s q)

/-- Has the queue a block to dispatch, wherever it fits? -/
def queueHasWork (s : State) (q : Queue) : Bool := (gridsOf s q).any (dispatchable s q)

/-- Steps in ring order from queue a to queue b. -/
def ringSteps (a b : Nat) : Nat := (b + 1024 - a % 1024) % 1024

/-- Is a scheduling pass still at the queue that it visited last in a band? -/
def passAt (s : State) (band : Nat) : Bool := nth false s.passOn band

/-- Is it the queue's turn (R327, R328): no lower band can dispatch, its deficit is positive, and it is the
queue that the pass visits: the one visited last, while its next block fits, and then the next in ring order
that can? -/
def itsTurn (s : State) (q : Queue) : Bool :=
  let peers := s.queues.filter fun x => x.bind.band = q.bind.band && x.deficit > 0 && queueServable s x
  let last := nth 0 s.rrLast q.bind.band.toNat
  (s.queues.all fun x => x.bind.band ≥ q.bind.band || !queueServable s x)
    && q.deficit > 0
    && (if passAt s q.bind.band.toNat && peers.any (fun x => x.index = last) then q.index = last
      else peers.all fun x => ringSteps (last + 1) q.index ≤ ringSteps (last + 1) x.index)

/-- The queue has been visited. -/
def visit (q : Queue) (s : State) : State :=
  { s with rrLast := put 0 s.rrLast q.bind.band.toNat q.index, passOn := put false s.passOn q.bind.band.toNat true }

/-- A pass over a band ends when none of its queues can be served; the next one starts after the queue visited
last. -/
def endPass (band : BitVec 2) (s : State) : State :=
  if s.queues.any fun x => x.bind.band = band && x.deficit > 0 && queueServable s x then s
  else { s with passOn := put false s.passOn band.toNat false }

/-- The deficit of a queue that has nothing left is zero (R328). DEDUCED, log entry 54. -/
def clearDeficits (s : State) : State :=
  { s with queues := s.queues.map fun q => { q with
    deficit := if q.deficit ≠ 0 && (gridsOf s q).isEmpty && (headRecord s q.index).isNone then 0 else q.deficit } }

end Sys2Proof.Machine
end

