-- ==== Sys2Proof/Machine/Preemption.lean ====
section
/-! DEFINITION. Flushes (R31) and pre-emption: the choice among flush, drain and save, the victims, and the room they
leave (R329, R331, R333, R335, R337). -/

namespace Sys2Proof.Machine

/-! ### Flush -/

/-- Is a block in its prologue (R28, R33)? -/
def inPrologue (s : State) (b : Block) : Bool := !b.granted && !(s.gridOf b).fixed

/-- The block that was dispatched last. -/
def youngest (l : List Block) : Option Block :=
  l.foldl (fun m b =>
    match m with
    | none => some b
    | some c => if c.seq < b.seq then some b else m) none

/-- A block leaves its core with all that the core holds for it. -/
def removeBlock (g b : Nat) (s : State) : State :=
  let s := s.dropBlock
  { s with blocks := s.blocks.filter fun x => !(x.grid = g && x.id = b) }

/-- A block is flushed: it goes back to its grid's dispatch order, and its arenas and those of its threads are
destroyed (R31). -/
def flushBlock (b : Block) (s : State) : State :=
  let s := dropSlots (ofBlock b.grid b.id) (removeBlock b.grid b.id s)
  s.mapGrids fun g => if g.id = b.grid then { g with flushed := insertNew b.id g.flushed } else g

/-! ### The size of a save area (R337) -/

/-- The sizes of the eight sections. -/
def sectionSizes (g : Grid) (b : Block) : List Nat :=
  let n := b.nstrands
  let v := 8 * g.rf 223 5
  let f := g.scratchBytes true
  let loaded := ((List.range (g.nslots true)).filter fun k =>
    match b.slots[k]? with
    | some o => o.state = 3 && !o.isSealed
    | none => false).length
  [512 * n, 4 * v * 64 * n, f + f / 128, 256, 32 * g.nslots true, 8192 * loaded, 16384 * g.ntiles true, 512 * n]

/-- Where each section stands. -/
def sectionOffsets : Nat → List Nat → List Nat
  | _, [] => []
  | at_, n :: t => at_ :: sectionOffsets (roundUp (at_ + n) 64) t

/-- Bytes of header and sections. -/
def saveTotal (l : List Nat) : Nat := l.foldl (fun at_ n => roundUp at_ 64 + n) 256

/-- The size of a block's save area. -/
def saveSize (s : State) (b : Block) : Nat := saveTotal (sectionSizes (s.gridOf b) b)

/-! ### Victims (R331) -/

/-- The matrix operations of a block, in issue order, that a parked OLDW holds: those before, and then the rest. -/
def heldByParked : List MOp → List MOp → List MOp
  | held, [] => held
  | held, m :: t =>
    heldByParked (if m.parked || held.any (fun d => m.what.waitsFor d.what) then held ++ [m] else held) t

/-- Does a later matrix operation of the block wait behind a parked OLDW, directly or through others (R186)? -/
def parkedBehind (b : Block) : Bool :=
  (heldByParked [] b.mops).any fun m =>
    !m.parked || b.mops.any fun d => d.parked && d.seq < m.seq && m.what.waitsFor d.what

/-- Do all strands of a block that still run wait in WAITV? -/
def allInWaitv (b : Block) : Bool := b.strands.all fun t => t.gone || t.status matches .waiting (.waitv _ _)

/-- What becomes of a victim. -/
inductive Fate where
  | flush
  | drain (ns : Int)
  | save
deriving DecidableEq, Repr

/-- The time that a block may still run, in ns; none for ever. -/
def remaining (s : State) (b : Block) : Option Int :=
  let g := s.gridOf b
  if g.rf 48 16 ≠ 0 then some ((1000 * g.rf 48 16 : Nat) - (b.ranNs : Int))
  else if g.retired ≠ 0 then some ((g.sumNs / g.retired : Nat) - (b.ranNs : Int))
  else none

/-- The decision for a victim, given the requester's bound in ns. Costs are compared in hundredths of a ns: a save
takes 2 µs and its size at 100 GB/s. -/
def fateOf (s : State) (bound : Nat) (b : Block) : Fate :=
  if inPrologue s b then .flush
  else
    match remaining s b with
    | some r => if r ≤ bound ∧ 100 * r ≤ 200000 + (saveSize s b : Int) then .drain r else .save
    | none => .save

/-- The time that freeing a victim is expected to take, in hundredths of a ns. -/
def fateCost (s : State) (b : Block) : Fate → Int
  | .flush => 0
  | .drain r => 100 * r
  | .save => 200000 + (saveSize s b : Int)

/-- Can the save pool supply a block's save area (R335)? -/
def savable (s : State) (b : Block) : Bool :=
  match s.world (s.gridOf b).key with
  | some w => (takeSave s w (saveSize s b)).isSome
  | none => false

/-- May a block yield (R331)? -/
def mayYield (s : State) (bound : Nat) (allowed : Queue → Bool) (b : Block) : Bool :=
  let g := s.gridOf b
  (match s.queue g.queue with | some q => allowed q | none => false)
    && !b.saving && g.ended.isNone && !parkedBehind b
    && (fateOf s bound b ≠ .save || savable s b)

/-- Does block a come before block b as a victim? -/
def victimBefore (s : State) (a b : Block) : Bool :=
  let band := fun (x : Block) => ((s.queue (s.gridOf x).queue).map (·.bind.band.toNat)).getD 0
  let key := fun (x : Block) =>
    [if inPrologue s x then 0 else 1, if allInWaitv x then 0 else 1, 3 - band x]
  let later := decide (a.grid > b.grid) || (a.grid = b.grid && decide (a.id > b.id))
  key a < key b || (key a = key b && later)

/-- Inserts a victim in its place. -/
def insertVictim (s : State) (x : Block) : List Block → List Block
  | [] => [x]
  | y :: t => if victimBefore s x y then x :: y :: t else y :: insertVictim s x t

/-- Victims in their order. -/
def sortVictims (s : State) : List Block → List Block
  | [] => []
  | x :: t => insertVictim s x (sortVictims s t)

/-- The shortest list of victims, in order, after which the block fits. -/
def enough (fits : List Block → Bool) : List Block → List Block → Option (List Block)
  | taken, [] => if fits taken then some taken else none
  | taken, x :: t => if fits taken then some taken else enough fits (taken ++ [x]) t

/-- The victims on a core. -/
def victimsOn (s : State) (g : Grid) (full banks : Bool) (bound : Nat) (allowed : Queue → Bool) (core : Nat) :
    Option (List Block) :=
  let l := sortVictims s ((residents s (fun _ => false) core).filter (mayYield s bound allowed))
  enough (fun gone => fitsOn s g full banks (fun b => gone.any fun v => v.grid = b.grid && v.id = b.id) core) [] l

/-- A victim is flushed, drained or marked for its save. -/
def yield_ (bound : Nat) (s : State) (b : Block) : State :=
  match fateOf s bound b with
  | .flush => flushBlock b s
  | .drain r => s.mapBlock ⟨b.grid, b.id⟩ fun x => { x with draining := some (s.refNs + r.toNat) }
  | .save => s.mapBlock ⟨b.grid, b.id⟩ fun x => { x with saving := true }

/-- Room is made for the next block of a grid on the core where it costs least (R331); the room is kept for it. -/
def takeRoom (g : Grid) (q : Queue) (saved : Bool) (allowed : Queue → Bool) (s : State) : State :=
  if s.kept.any (fun k => k.2 = g.id) then s
  else
    let bound := 1000 * q.bind.bound.toNat
    let cost := fun (l : List Block) => l.foldl (fun c b => c + fateCost s b (fateOf s bound b)) (0 : Int)
    let options := (List.range Config.cores).filterMap fun c =>
      if coreAllowed s q g c then
        (victimsOn s g (unitFull g saved) (!saved) bound allowed c).map fun l => (c, l)
      else none
    let best := options.foldl (fun (m : Option (Nat × List Block)) x =>
      match m with
      | none => some x
      | some y => if cost x.2 < cost y.2 then some x else m) none
    match best with
    | none => s
    | some (c, l) =>
      let s := { s with kept := (c, g.id) :: s.kept }
      l.foldl (fun s b => yield_ bound s b) s

end Sys2Proof.Machine
end

