-- ==== Sys2Proof/Machine/Scheduling.lean ====
section
/-! DEFINITION. Dispatch of blocks (R8, R9, R24, R201, R205, R326 to R328, R356), the grant (R29, R30), and the slice
unit (R328, R329). -/

namespace Sys2Proof.Machine

/-! ### A grid starts -/

/-- The launch world of a root grid: its handle's, or an anonymous one with a fresh key id and keys (R356). Orrery is
attached to the world of a grid that it has posted. DEDUCED, log entry 77. -/
def startWorld (g : Grid) (q : Queue) (s : State) : State :=
  if g.parent.isSome then s
  else if g.key ≠ 0 then
    match s.world g.key with
    | some w =>
      let w := { w with live := true, root := g.id, vmid := q.bind.vmid, epoch := s.epoch + 1, attached := g.debugged }
      { s.setWorld w with epoch := s.epoch + 1 }
    | none => s
  else
    match freeKeyId s with
    | none => s
    | some k =>
      let w : World := { World.blank with
        key := k, vmid := q.bind.vmid, live := true, root := g.id, epoch := s.epoch + 1
        s1root := s.anonRoot, s2root := s.anonRoot2, attached := g.debugged
        memKey := Config.freeKey s.free (2 * k), macKey := Config.freeKey s.free (2 * k + 1) }
      let s := joinProgram g.entry k (s.setGrid { g with key := k })
      { s with worlds := w :: s.worlds, epoch := s.epoch + 1 }

/-- Changes a grid by its number. -/
def mapGrid (id : Nat) (f : Grid → Grid) (s : State) : State := s.mapGrids fun x => if x.id = id then f x else x

/-- The grid starts: its world lives, and its code is what clause fetch sees (R41). DESIGN CHOICE, log entry 20. -/
def startGrid (g : Grid) (q : Queue) (s : State) : State :=
  if g.started then s
  else
    let s := startWorld g q s
    mapGrid g.id (fun x => { x with started := true, code := s.mem }) s

/-- Tells once of each unit that waits for a quarantined slot (R206): the class of slot and the block. -/
def tellQuarantine (g : Grid) (unit : Nat × Nat) (s : State) : State :=
  if g.told.contains unit then s
  else
    recordFor g.id 0 0 (plainRecord s.free 0x70 5 g.id 0 0 0 0) (mapGrid g.id (fun x => { x with told := unit :: x.told }) s)

/-- The grid's arena, at the dispatch of its first block (R201, R205). Where every grid slot that is not live is
quarantined, the grid waits and its fault area is told. -/
def gridArena (g : Grid) (s : State) : State :=
  if g.gcap = 0 ∨ g.garena ≠ 0 then s
  else
    match freeGridSlot s with
    | none =>
      if s.slots.any (fun r => r.state = 2 && r.id matches .grid _) then tellQuarantine g (1, 0) s else s
    | some id =>
      let p := slotPointer id (slotRec s id).gen
      createArena id 1 g.gcap g.key (.grid g.id) (mapGrid g.id (fun x => { x with garena := p }) s)

/-- A fault of the scheduler's read of the argument block: a record, and the grid ends (R8). -/
def argsEnd (g : Grid) (f : FaultInfo) (s : State) : State :=
  endGrid g.id f.code (recordFor g.id 0 0 (plainRecord s.free f.code 5 g.id f.addr f.data f.extra f.detail) s)

/-- What an 8-byte load of an argument block gives. -/
inductive ArgRead where
  | ok (l : List Byte) (s : State)
  | bad (f : FaultInfo) (s : State)

/-- One 8-byte load of a grid's argument block, at its home L2. Poison is consumed as by a load of the launch. -/
def readArg (g : Grid) (a : DWord) (s : State) : ArgRead :=
  match s.world g.key with
  | none => .bad (faultAt codePageFault a) s
  | some w =>
    match checkAccess s w .engine 0 (.load false) true a 8 with
    | .bad f => .bad f s
    | .ok parts s w =>
      let s := parts.foldl (fun s p => macCheck p.2.2.key p.2.2.pas s) (s.setWorld w)
      let pas := allPas parts
      let bad := pas.any s.badNow
      let s := readOver pas s
      if !bad then .ok (pas.map s.readByte) s
      else if g.tolerant then .ok (List.replicate 8 0) (recordFor g.id 1 1 0 s)
      else .bad (faultAt 0x50 a) s

/-- Several 8-byte loads in order; the first that faults ends them. -/
def readArgWords (g : Grid) : List DWord → State → ArgRead
  | [], s => .ok [] s
  | a :: t, s =>
    match readArg g a s with
    | .bad f s => .bad f s
    | .ok l s =>
      match readArgWords g t s with
      | .ok m s => .ok (l ++ m) s
      | e => e

/-- The argument block is read once, as four 8-byte loads of the launch world (R8). DEDUCED, log entry 53. -/
def readArgs (g : Grid) (s : State) : Out :=
  let set := fun (l : List Byte) (s : State) =>
    Host.Outcome.next (mapGrid g.id (fun x => { x with args := some (wordList l) }) s)
  let a := BitVec.ofNat 64 (g.rf 320 64)
  if g.args.isSome then .next s
  else if a = 0 then set (List.replicate 32 0) s
  else
    match readArgWords g [a, a + 8, a + 16, a + 24] s with
    | .ok l s => set l s
    | .bad f s =>
      if f.code = codeAbsent then .fault (.noSuchAddress f.addr.toNat)
      else if replayable f.code then
        .next (reportStage2 g.key f (mapGrid g.id (fun x => { x with argsFault := some f }) s))
      else .next (argsEnd g f s)

/-! ### A block is dispatched -/

/-- The lanes of strand i that are present (R14). -/
def presentLanes (g : Grid) (i : Nat) : BitVec 64 := maskOf (laneIds.filter fun l => 64 * i + l < g.threads)

/-- A strand as it is dispatched (R24). -/
def newStrand (g : Grid) (args : List Word) (block i slot : Nat) (age : Nat) : Strand :=
  { Strand.blank with
    grid := g.id, block := block, idx := i, slot := slot, present := presentLanes g i, pc := g.entry
    s := List.replicate 56 0 ++ args, m := [presentLanes g i], status := .ready, age := age }

/-- The thread arenas of a strand: one for each lane, in the lowest bank that is free (R201, R205). -/
def threadArenas (g : Grid) (block core : Nat) (s : State) (t : Strand) : State :=
  if g.tcap = 0 then s
  else
    match freeBank s core t.slot with
    | none => s
    | some b => laneIds.foldl (fun s l =>
        createArena (.thread core t.slot l b) 3 g.tcap g.key (.thread g.id block t.idx l) s) s

/-- The world of a grid has run on a core (R363). -/
def ranOn (key core : Nat) (s : State) : State :=
  match s.world key with
  | some w => s.setWorld { w with cores := if w.cores.contains core then w.cores else core :: w.cores }
  | none => s

/-- A block goes to a core (R24, R9): its strands, its arenas; nothing that its core's L1 holds serves it. -/
def placeBlock (g : Grid) (i core : Nat) (s : State) : State :=
  match g.args, chooseSlots s g true (fun _ => false) core with
  | some args, some slots =>
    let age := (s.clockOf core).toNat
    let strands := slots.zipIdx.map fun (k, n) => newStrand g args i n k age
    let arena := if g.bcap = 0 then none else freeBlockSlot s (dieOf core)
    let b : Block := { Block.blank with
      live := true, grid := g.id, id := i, core := core, seq := s.blockCount + 1, nstrands := g.nstrands
      strands := strands, token := if g.twin then some 0 else none
      barena := match arena with | some id => slotPointer id (slotRec s id).gen | none => 0 }
    let s := match arena with
      | some id => createArena id 2 g.bcap g.key (.block g.id i) s
      | none => s
    let s := strands.foldl (threadArenas g i core) s
    let s := mapGrid g.id (fun x => { x with
      nextBlock := if i = x.nextBlock then i + 1 else x.nextBlock
      flushed := x.flushed.filter (· ≠ i) }) s
    l1Clear core (ranOn g.key core { s with
      blocks := b :: s.blocks, blockCount := s.blockCount + 1
      kept := s.kept.filter fun k => k.2 ≠ g.id })
  | _, _ => s

/-- The next block of a grid goes to a core; with the first one, the grid starts. -/
def dispatchOn (g : Grid) (q : Queue) (i core : Nat) (s : State) : Out :=
  let s := startGrid g q s
  match s.grid g.id with
  | none => .next s
  | some g1 =>
    let s := gridArena g1 s
    match s.grid g.id with
    | none => .next s
    | some g2 =>
      if g2.gcap ≠ 0 ∧ g2.garena = 0 then .next s
      else
        (readArgs g2 s).andThen fun s =>
          match s.grid g.id with
          | some g3 => .next (if g3.args.isSome && g3.ended.isNone then visit q (placeBlock g3 i core s) else s)
          | none => .next s

/-- The unit of block i that waits because every slot it could take that is not live is quarantined (R206): its block
arena (class 2), or its strands' arenas (class 3). -/
def starvedUnit (s : State) (q : Queue) (g : Grid) (i : Nat) : Option (Nat × Nat) :=
  let cores := (List.range Config.cores).filter (coreAllowed s q g)
  let dies := (cores.map dieOf).eraseDups
  let held := fun (r : SlotRec) => r.state = 2 &&
    match r.id with
    | .block d _ => dies.contains d
    | _ => false
  let heldThread := fun (r : SlotRec) => r.state = 2 &&
    match r.id with
    | .thread c _ _ _ => cores.contains c
    | _ => false
  let banks := fun (c : Nat) => ((List.range Config.strandSlots).filter fun k => (freeBank s c k).isSome).length
  if g.bcap ≠ 0 && s.slots.any held && dies.all (fun d => (freeBlockSlot s d).isNone) then some (2, i)
  else if g.tcap ≠ 0 && s.slots.any heldThread && cores.all (fun c => banks c < g.nstrands) then some (3, i)
  else none

/-- At the start of a slice unit, the deficit of a queue with dispatchable work rises (R328). -/
def topUp (s : State) : State :=
  { s with queues := s.queues.map fun q =>
    if q.raised ≤ s.slice && queueHasWork s q then
      { q with deficit := q.deficit + q.bind.weight.toNat * 10000, raised := s.slice + 1 }
    else q }

/-- BLOCK_DISPATCH: the next block of a grid, when it is its turn and a core has room. A band-0 block that fits
nowhere takes room from higher bands (R329). -/
def execBlockDispatch (id : Nat) (s : State) : Out :=
  match s.grid id with
  | none => .next s
  | some g =>
    match s.queue g.queue, nextUnit g with
    | some q, some (i, false) =>
      if !dispatchable s q g then .next (endPass q.bind.band s)
      else
        match bestCore s (coresFor s q g false) with
        | some core => if itsTurn s q then dispatchOn g q i core s else .next s
        | none =>
          match starvedUnit s q g i with
          | some u => .next (endPass q.bind.band (tellQuarantine g u s))
          | none =>
            if q.bind.band = 0 then .next (takeRoom g q false (fun x => x.bind.band > 0) s)
            else .next (endPass q.bind.band s)
    | _, _ => .next s

/-! ### The grant (R29, R30) -/

/-- Is the block's request the oldest on its core? -/
def oldestRequest (s : State) (age : Nat) : Bool :=
  s.blocks.all fun b => b.core ≠ s.blk.core ||
    match b.request with
    | none => true
    | some a => age < a || (age = a && s.blk.seq < b.seq)

/-- GRANT: the oldest request of a core is met where the room that is kept there for others is left (R32), or a
block in its prologue is flushed for it, the youngest first. -/
def execGrant (r : BlockRef) (s : State) : Out :=
  withBlock r s fun s' =>
    match s'.blk.request with
    | none => .next s
    | some age =>
      if !oldestRequest s' age then .next s
      else
        let others := residents s' (fun b => b.grid = r.grid && b.id = r.block) s'.blk.core
        let kept := keptFor s' 0 s'.blk.core
        let full := s'.grd.scratchBytes true
        if scratchHeld s' others + full ≤ Config.scratchBytes
            ∧ (kept = [] ∨ scratchHeld s' (others.filter fun b => !leaving b) + full + sumBy nextScratch kept
              ≤ Config.scratchBytes) then
          .next (poke (fun t w => t.grid = r.grid && t.block = r.block && w = .acquire)
            { s' with blk := { s'.blk with granted := true, request := none } })
        else
          match youngest (others.filter fun b => inPrologue s' b) with
          | some b => .next (flushBlock b s')
          | none => .next s

/-! ### The slice unit (R328, R329) -/

/-- Room is kept no longer for a grid that has nothing left to dispatch. -/
def releaseKept (s : State) : State :=
  { s with kept := s.kept.filter fun k =>
    match s.grid k.2 with
    | some g => g.ended.isNone && (nextUnit g).isSome
    | none => false }

/-- A queue whose next block fits on no core takes room from the queues of its band that have used up their
deficit. -/
def sliceTake (q : Queue) (s : State) : State :=
  if q.deficit ≤ 0 then s
  else
    match (gridsOf s q).find? (fun g => dispatchable s q g && !servable s q g) with
    | none => s
    | some g =>
      match nextUnit g with
      | some (_, saved) =>
        takeRoom g q saved (fun x => x.bind.band = q.bind.band && x.index ≠ q.index && x.deficit ≤ 0) s
      | none => s

/-- SLICE_UNIT: every 10 µs. -/
def execSliceUnit (s : State) : Out :=
  if s.refNs < 10000 * (s.slice + 1) then .next s
  else
    let s := topUp (clearDeficits (releaseKept { s with slice := s.slice + 1 }))
    .next (s.queues.foldl (fun s q => sliceTake q s) s)

end Sys2Proof.Machine
end

