-- ==== Sys2Proof/Machine/Saving.lean ====
section
/-! DEFINITION. Save and restore of blocks (R44, R45, R186 to R188, R292, R310, R333 to R338), and the end of a
drain (R331). -/

namespace Sys2Proof.Machine

/-! ### Save -/

/-- Is a strand at a clause boundary, a park point or a wait point (R39)? -/
def atSavePoint (t : Strand) : Bool :=
  t.gone ||
    match t.status with
    | .parked _ _ => true
    | .stopped => true
    | .waiting w => w ≠ .order
    | .ready => t.clause.isNone
    | _ => false

/-- Is every operation of the block complete that a save waits for (R186, R266, R292, R310)? Of an LDA at which
a strand is parked, the lanes that have passed their checks, with every byte of theirs written. -/
def quietForSave (s : State) : Bool :=
  let l := s.strands
  l.all (fun t => t.ops.all fun o => o.what = .lda && !o.collapsed && ldaWritten o)
    && s.blk.mops.all (·.parked) && !parkedBehind s.blk
    && s.packets.all (fun p => p.grid ≠ s.blk.grid || p.targets.all fun t => t.block ≠ s.blk.id || t.chunks.isEmpty)
    && s.qnt.all (fun q => !(q.strand.grid = s.blk.grid && q.strand.block = s.blk.id))

/-- A 32-bit count of a cluster as its distance ahead of CLOCK, not below zero (R44). -/
def distance (clock : DWord) (p : Word) : Word :=
  let d := p - clock.setWidth 32
  if d.msb then 0 else d

/-- The scalar registers that a mark names, changed by f. -/
def mapMarked (f : Word → Word) (t : Strand) : Strand :=
  { t with s := t.s.zipIdx.map fun (x, k) => if t.marks.getLsbD k then f x else x }

/-- A strand as it is saved: promises and a sleep's end as distances from CLOCK. DEDUCED, log entry 19. -/
def savedStrand (clock : DWord) (t : Strand) : Strand :=
  let t := mapMarked (distance clock) t
  match t.status with
  | .waiting (.sleep e) => { t with status := .waiting (.sleep (if (e - clock).msb then 0 else e - clock)) }
  | _ => t

/-- The slot descriptor (R187). -/
def slotDescriptor (o : OSlot) : BitVec 256 :=
  BitVec.ofNat 256 ((if o.state = 3 then 2 else if o.state = 2 then 1 else o.state)
    + (if o.isSealed then 16 else 0) + 2 ^ 8 * o.kind + 2 ^ 32 * o.loadop.toNat + 2 ^ 64 * o.va.toNat
    + 2 ^ 160 * (if o.isSealed then o.tensor.toNat else 0))

/-- A THREAD entry: generation and bank of a strand's thread arenas (R336). DESIGN CHOICE, log entry 35. -/
def threadEntry (s : State) (b : Block) (n : Nat) : Nat :=
  match s.slots.find? fun r => r.state = 1 && r.owner = .thread b.grid b.id n 0 with
  | some r =>
    match r.id with
    | .thread _ _ _ bank => r.gen.toNat + 2 ^ 10 * bank + 2 ^ 14
    | _ => 0
  | none => 0

/-- The header of a save area (R336). -/
def saveHeader (s : State) (g : Grid) (b : Block) : BitVec 2048 :=
  let sizes := sectionSizes g b
  let dir := ((sectionOffsets 256 sizes).zip sizes).zipIdx.map fun (x, k) => 2 ^ (640 + 64 * k) * (x.1 + 2 ^ 32 * x.2)
  let threads := (List.range 16).map fun n => 2 ^ (384 + 16 * n) * threadEntry s b n
  BitVec.ofNat 2048 (0x53415645 + 2 ^ 32 + 2 ^ 48 * 8 + 2 ^ 64 * saveTotal sizes + 2 ^ 128 * (g.id % 2 ^ 32)
    + 2 ^ 160 * b.id + 2 ^ 192 * b.nstrands + (if g.twin then 2 ^ 197 else 0) + (if g.fixed then 2 ^ 198 else 0)
    + 2 ^ 200 * g.key + 2 ^ 256 * g.garena.toNat + 2 ^ 320 * b.barena.toNat
    + sumBy id threads + sumBy id dir)

/-- The place of the slot descriptors in an area. -/
def descriptorsAt (g : Grid) (b : Block) : Nat := nth 0 (sectionOffsets 256 (sectionSizes g b)) 4

/-- The 48 bytes of the exact accumulator (R105). -/
def kaccBytes (k : KAcc) : List Byte :=
  leBytes 40 k.sum.toNat
    ++ [BitVec.ofNat 8 ((if k.nan then 1 else 0) + (if k.pinf then 2 else 0) + (if k.ninf then 4 else 0))]
    ++ List.replicate 7 0#8

/-- A list laid over n bytes at a place; the others are what the implementation writes (R337). -/
def laidOver (free base n at_ : Nat) (l : List Byte) : List Byte :=
  (List.range n).map fun i =>
    if at_ ≤ i ∧ i < at_ + l.length then nth 0 l (i - at_) else Config.freeByte free (base + i)

/-- A core's half of a slot's image, from its column or row bytes and, of a weight tile, its scales (R165, R186). -/
def imageHalf (o : OSlot) (follower : Bool) : List Byte :=
  if o.kind = 3 then
    let n := 64 * colBytes o.ks
    let k := if follower then 1 else 0
    ((o.bytes.drop (k * n)).take n) ++ ((o.bytes.drop (2 * n + k * 128)).take 128)
  else o.bytes.take 4096

/-- The 8 KiB image of a slot: the leader's 4 KiB, then the follower's (R186). -/
def slotImageBytes (free base : Nat) (o : OSlot) : List Byte :=
  laidOver free base 4096 0 (imageHalf o false) ++ laidOver free (base + 4096) 4096 0 (imageHalf o true)

/-- The 16 KiB of a tile, in the layout of R157. -/
def tileBytes (c : Tile) : List Byte :=
  (List.range 32).flatMap fun i => (List.range 128).flatMap fun j => leBytes 4 (c.at_ i j).toNat

/-- The 512 bytes of a strand in the PENDING section (R337): one 8-byte entry for each scalar register that is
owed a result or marked as a promise register, what the implementation writes, and zero in the entries that are
not used. DESIGN CHOICE, log entry 35. -/
def pendingBytes (free base : Nat) (t : Strand) : List Byte :=
  let n := ((List.range 64).filter fun k => t.marks.getLsbD k || t.owed.any fun o => o.reg = k).length
  (List.range (8 * n)).map (fun i => Config.freeByte free (base + i)) ++ List.replicate (512 - 8 * n) 0#8

/-- The section k of a save area: what the manual lays down of it, and else what the implementation writes there
(R105, R186, R187, R337). DESIGN CHOICE, log entry 35. -/
def saveSection (s : State) (g : Grid) (b : Block) (k size : Nat) : List Byte :=
  let base := 2 ^ 32 * (k + 1)
  let free := (List.range size).map fun i => Config.freeByte s.free (base + i)
  let strand := fun (n : Nat) => (b.strands.find? fun t => t.idx = n).getD .blank
  if k = 0 then (List.range b.nstrands).flatMap fun n =>
    laidOver s.free (base + 512 * n) 512 (Config.kaccPlace % 465) (kaccBytes (strand n).k)
  else if k = 4 then (List.range (g.nslots true)).flatMap fun n => leBytes 32 (slotDescriptor (b.slot n)).toNat
  else if k = 5 then
    (b.slots.filter fun o => o.state = 3 && !o.isSealed).zipIdx.flatMap fun x =>
      slotImageBytes s.free (base + 8192 * x.2) x.1
  else if k = 6 then (List.range (g.ntiles true)).flatMap fun n => tileBytes (b.tile n)
  else if k = 7 then (List.range b.nstrands).flatMap fun n => pendingBytes s.free (base + 512 * n) (strand n)
  else free

/-- The bytes of a save area's sections, each at its place; the bytes between them are the implementation's. -/
def saveSections (s : State) (g : Grid) (b : Block) (size : Nat) : List (Nat × Byte) :=
  let sizes := sectionSizes g b
  let offsets := sectionOffsets 256 sizes
  ((offsets.zip sizes).zip (offsets.drop 1 ++ [size])).zipIdx.flatMap fun (x, k) =>
    ((saveSection s g b k x.1.2).zipIdx.map fun (y, i) => (x.1.1 + i, y))
      ++ (List.range (x.2 - (x.1.1 + x.1.2))).map fun i => (x.1.1 + x.1.2 + i, Config.freeByte s.free (x.1.1 + x.1.2 + i))

/-- A block as it is kept while it is saved: sealed slots keep their descriptors alone, and nothing of the twin's time
goes with it (R173). -/
def savedBlock (clock : DWord) (b : Block) : Block :=
  { b with
    strands := b.strands.map (savedStrand clock)
    saving := false, draining := none, mmaEnd := 0, adrnEnd := 0
    slots := b.slots.map fun o => if o.isSealed then { o with bytes := [], poison := [] } else o }

/-- A save area is written: the header in the clear, its lines under no key id, and the sections under the world's
(R336). -/
def writeSave (g : Grid) (b : Block) (r : Range) (s : State) : State :=
  let head := (List.range 256).map (r.base + ·)
  let s1 := putPlaces 0 false (head.zip (leBytes 256 (saveHeader s g b).toNat)) s
  let s2 := { s1 with lineKeys := s1.lineKeys.filter fun x => !(linesOf head).contains x.1 }
  putPlaces g.key false ((saveSections s g b r.len).map fun x => (r.base + x.1, x.2)) s2

/-- The block in focus is saved: its area is drawn and written, and its core is freed. Where the pool cannot supply
the area, the block is not saved (R335). -/
def saveFocus (s : State) : State :=
  let g := s.grd
  let b := s.wholeBlock
  let size := saveTotal (sectionSizes g b)
  match takeSave s s.wld size with
  | none => { s with blk := { s.blk with saving := false }, kept := s.kept.filter fun k => k.1 ≠ s.blk.core }
  | some (r, s) =>
    let clock := s.clock
    let s := writeSave g b r s
    let s := removeBlock g.id b.id s
    s.mapGrids fun x => if x.id = g.id then
      { x with saved := x.saved ++ [⟨savedBlock clock b, r.base, size, b.core, clock⟩] } else x

/-- BLOCK_SAVE: the save takes effect once every strand has stopped and its operations are complete. -/
def execBlockSave (r : BlockRef) (s : State) : Out :=
  withBlock r s fun s' =>
    if s'.blk.saving && s'.strands.all atSavePoint && quietForSave s' then .next (saveFocus s') else .next s

/-- DRAIN_EXPIRY: a drained block that has not retired when its time runs out is saved (R331). -/
def execDrainExpiry (r : BlockRef) (s : State) : Out :=
  withBlock r s fun s' =>
    match s'.blk.draining with
    | some t =>
      if t ≤ s'.refNs then .next { s' with blk := { s'.blk with draining := none, saving := true } } else .next s
    | none => .next s

/-! ### Restore -/

/-- Does a save area still hold what was saved: MAGIC, VERSION, KEYID, the block's identity, reserved fields zero in
the header and in the slot descriptors (R187, R334, R336)? -/
def saveIntact (s : State) (g : Grid) (v : SavedBlock) : Bool :=
  let h := BitVec.ofNat 2048 (leNat (s.readBytes v.area 256))
  let n := g.nslots true
  let d := descriptorsAt g v.block
  field h 0 32 = 0x53415645 && field h 32 16 = 1 && field h 200 10 = g.key
    && field h 128 32 = g.id % 2 ^ 32 && field h 160 32 = v.block.id
    && field h 199 1 = 0 && field h 210 46 = 0 && field h 1152 896 = 0
    && (List.range 16).all (fun k => field h (399 + 16 * k) 1 = 0)
    && (List.range n).all fun k =>
      let e := BitVec.ofNat 256 (leNat (s.readBytes (v.area + d + 32 * k) 32))
      field e 0 2 ≠ 3 && field e 2 2 = 0 && field e 5 3 = 0 && field e 12 20 = 0 && field e 40 24 = 0
        && field e 128 32 = 0 && field e 192 64 = 0

/-- A strand as it is restored at a slot: promises and a sleep's end count on the new cluster, RESUMES rises, and a
wait that is tested again or a parked instruction runs again (R44, R230, R249, R278, R280, R286).
DEDUCED, log entry 36. -/
def restoredStrand (clock : DWord) (slot : Nat) (t : Strand) : Strand :=
  let t := mapMarked (fun d => clock.setWidth 32 + d) t
  let t := { t with slot := slot, resumes := t.resumes + 1, age := clock.toNat, fetched := [] }
  match t.status with
  | .waiting (.sleep d) => { t with status := .waiting (.sleep (clock + d)) }
  | .waiting .bar => t
  | .waiting (.barp _ _ _) => t
  | .waiting .acquire => t
  | .waiting _ => { t with status := .ready }
  | .parked _ left => { t with status := .ready, attempt := some left }
  | _ => t

/-- The block in focus gets a sealed slot's contents again, by the rules of R165: its sealed flag and its tensor
are those of the bytes as they stand at the refetch (R186). A slot whose refetch takes a fault is left empty
(R188). -/
def refetchSlot (k : Nat) (s : State) : State × Option FaultInfo :=
  let o := s.blk.slot k
  let x := o.loadop
  let fail := fun (f : FaultInfo) (s : State) =>
    ({ s with blk := s.blk.setSlot k { OSlot.unclaimed with state := 1 } }, some f)
  match checkRuns (o.va &&& ~~~63#64) (weightRuns x) 0 s s.wld with
  | .bad f => fail f s
  | .ok parts s w =>
    let s := { s with wld := w }
    match oldwParts w parts with
    | none => fail (faultAt 0x33 o.va) s
    | some (isSealed, tensor, lanes) =>
      let s := lanes.foldl (fun s a => macCheck a.key a.pas s) s
      let m : MOp := ⟨0, 0, 0, .oldw k x o.va, false, 0, false, false, lanes, none, [], []⟩
      let (illegal, t) := oldwTile x (oldwBytes s m)
      if illegal ≠ 0 ∧ s.grd.tolerant = false then fail (faultAt 0x35 o.va) s
      else
        let s := { s with blk := s.blk.setSlot k { o with
          isSealed := isSealed, tensor := tensor, bytes := t.map (·.1), poison := poisonPlaces t } }
        (if illegal = 0 then s else recordFor s.grd.id 2 illegal 0 s, none)

/-- Sealed slots are refetched: the slots that fail with their faults, in ascending order, and the state; or the
first replayable fault, which has to be resolved first. `declined` says that a replayable fault counts as any
other (R188). -/
def refetchAll (declined : Bool) : List Nat → State → Except FaultInfo (List (Nat × FaultInfo) × State)
  | [], s => .ok ([], s)
  | k :: t, s =>
    match refetchSlot k s with
    | (s, none) => refetchAll declined t s
    | (s, some f) =>
      if replayable f.code && !declined then .error f
      else (refetchAll declined t s).map fun x => ((k, f) :: x.1, x.2)

/-- The sealed slots that hold contents. -/
def sealedSlots (b : Block) : List Nat :=
  (List.range b.slots.length).filter fun k => (b.slot k).isSealed && (b.slot k).state = 3

/-- A fault of a refetch in the state that the focus strand has at its restore point: its record names the slot
in EXTRA (R188, R347). A stage-2 fault that the hypervisor has declined ends the world, and its record holds the
code and the virtual address only (R226, R344). -/
def refetchFault (s : State) (x : Nat × FaultInfo) : State :=
  if x.2.code = codeStage2 then outerDeclined 0 s.grd.id s.grd.key x.2.addr s
  else delivered { x.2 with extra := BitVec.ofNat 32 x.1 } s

/-- The faults of a refetch go to the block's lowest strand that has not exited (R188): of several slots that
fail, each fault has its record, in ascending order of the slots, and the strand stops once. DESIGN CHOICE, log
entry 104. -/
def refetchFaults (l : List (Nat × FaultInfo)) (s : State) : State :=
  match firstFrom (fun k => s.strands.any (fun t => t.idx = k && !t.gone)) 0 Config.strandSlots with
  | none => s
  | some k =>
    l.foldl (fun s x => match s.focus ⟨s.blk.grid, s.blk.id, k⟩ with
      | some s => refetchFault s x
      | none => s) s

/-- A saved block returns to a core (R334). Its area goes back to the pool (R335). -/
def restoreOn (declined : Bool) (g : Grid) (v : SavedBlock) (core : Nat) (slots : List Nat) (s : State) : Out :=
  let clock := s.clockOf core
  let b := { v.block with
    core := core
    strands := v.block.strands.map fun t => restoredStrand clock (nth 0 slots t.idx) t }
  let s1 := ranOn g.key core { s with
    blocks := b :: s.blocks
    kept := s.kept.filter fun k => k.2 ≠ g.id }
  let s1 := s1.mapGrids fun x => if x.id = g.id then { x with saved := x.saved.filter fun y => y.block.id ≠ b.id } else x
  match s1.focusBlock ⟨g.id, b.id⟩ with
  | none => .next s
  | some s2 =>
    match refetchAll declined (sealedSlots b) s2 with
    | .error f => .next (reportStage2 g.key f s)
    | .ok (l, s3) =>
      match l.find? fun x => x.2.code = codeAbsent with
      | some (_, f) => .fault (.noSuchAddress f.addr.toNat)
      | none => .next (refetchFaults l (l1Clear core (returnSave g.key ⟨v.area, v.size⟩ s3)))

/-- Restores a block when it is its turn and a core has room (R334, R340); for a band-0 block room is taken (R329). An
area that does not hold what was saved
is refused: the grid ends with code 0x71. -/
def restore (declined : Bool) (r : BlockRef) (s : State) : Out :=
  match s.grid r.grid with
  | none => .next s
  | some g =>
    match s.queue g.queue, nextUnit g, g.saved.find? (fun v => v.block.id = r.block) with
    | some q, some (i, true), some v =>
      if i ≠ r.block || !dispatchable s q g then .next s
      else
        match bestCore s (coresFor s q g true) with
        | none =>
          if q.bind.band = 0 then .next (takeRoom g q true (fun x => x.bind.band > 0) s)
          else .next (endPass q.bind.band s)
        | some core =>
          if !itsTurn s q then .next s
          else if !saveIntact s g v then
            .next (endGrid g.id 0x71 (recordFor g.id 0 0 (plainRecord s.free 0x71 5 g.id 0 0 0 0) s))
          else
            match chooseSlots s g false (fun _ => false) core with
            | some slots => restoreOn declined g v core slots (visit q s)
            | none => .next s
    | _, _, _ => .next s

/-- BLOCK_RESTORE. -/
def execBlockRestore (r : BlockRef) (s : State) : Out := restore false r s

end Sys2Proof.Machine
end

