-- ==== Sys2Proof/Machine/Retirement.lean ====
section
/-! DEFINITION. The retirement of blocks, grids and worlds (R17, R18, R204, R325, R348, R356, R363). -/

namespace Sys2Proof.Machine

/-! ### Blocks -/

/-- A parked load whose strand has stopped for good fails (R165, R348). -/
def abandonedLoad (s : State) : Option MOp :=
  s.blk.mops.find? fun m => m.parked && s.strands.any fun t => t.idx = m.strand && t.gone

/-- The slot that a load fills. -/
def MOp.slot (m : MOp) : Nat :=
  match m.what with
  | .oldw n _ _ => n
  | _ => 0

/-- Have the strands of the block in focus exited and their operations completed (R18)? -/
def blockDone (s : State) : Bool :=
  s.strands.all (fun t => t.gone && t.ops.isEmpty) && s.blk.mops.isEmpty

/-- The block in focus retires: its core is freed and its arenas are destroyed (R18, R363). Errors of its
register files that no read has found are counted (R375). DEDUCED, log entry 93. -/
def retireFocus (s : State) : State :=
  let g := s.grd.id
  let b := s.blk.id
  let ns := s.blk.ranNs
  let errors := sumBy (fun t => t.rfErr.length) s.strands
  let s := countOn (dieOf s.blk.core) (fun c => { c with rfIgnored := c.rfIgnored + errors }) s
  let s := dropSlots (ofBlock g b) (removeBlock g b s)
  mapGrid g (fun x => { x with retired := x.retired + 1, sumNs := x.sumNs + ns }) s

/-- BLOCK_RETIREMENT. -/
def execBlockRetirement (r : BlockRef) (s : State) : Out :=
  withBlock r s fun s' =>
    match abandonedLoad s' with
    | some m => .next (loadFails m.seq m.slot s')
    | none => if blockDone s' then .next (retireFocus s') else .next s

/-! ### Worlds -/

/-- Deferred atomics of a world are applied at their home. -/
def flushWorldQnt (key : Nat) (s : State) : State :=
  applyDeferred (fun q => q.key = key || (s.grid q.strand.grid).any (·.key = key)) s

/-- The slots of a world are destroyed at once: nothing of the world is left running. -/
def endSlots (key : Nat) (s : State) : State :=
  (s.slots.filter fun r => (r.state = 1 || r.state = 3) && r.world = key).foldl (fun s r => finishSlot r s) s

/-- Ranges that a world has used are to be scrubbed (R363). -/
def scrubRanges (key : Nat) (l : List Range) (s : State) : State :=
  { s with scrub := s.scrub ++ l.map fun r => ⟨key, r.base, r.len, 0⟩ }

/-- Copies leave the caches with a world: every L1 line of the cores on which it has run or that hold one that
it has loaded, and every L2 line of its key id (R363). -/
def dropCopies (key : Nat) (s : State) : State :=
  let mine := fun (l : Nat) => s.lineKeys.lookup l = some key
  let cores := ((s.world key).map (·.cores)).getD [] ++ (s.l1.filter fun x => x.world = key).map (·.core)
  { s with
    l1 := s.l1.filter fun x => !cores.contains x.core && !mine x.line
    dups := s.dups.filter fun x => !mine x.line
    tlb := s.tlb.filter fun x => x.key ≠ key }

/-- The key id that stands for a zeroised key: no line written under one passes its MAC again. -/
def deadKey : Nat := 1024

/-- A world's entry is gone. -/
def forgetWorld (key : Nat) (s : State) : State :=
  let s := s.dropBlock.dropGrid.dropWorld
  { s with worlds := s.worlds.filter fun x => x.key ≠ key }

/-- An anonymous world's keys are zeroised: no line that was written under them reads again (R356, R358). -/
def zeroiseLines (key : Nat) (s : State) : State :=
  { s with lineKeys := update (fun x => x.2 = key) (fun x => (x.1, deadKey)) s.lineKeys }

/-- A launch world retires: its arenas and save areas are to be scrubbed, its caches are dropped, an anonymous
world's keys are zeroised, which leaves the pages of its program to the next anonymous world, and slots whose
quarantine it held may leave it (R206, R356, R363). -/
def retireWorld (key : Nat) (s : State) : State :=
  let s := dropCopies key (endSlots key (flushWorldQnt key s))
  match s.world key with
  | none => s
  | some w =>
    let ranges := w.used ++ w.saveDrawn
    let keep := w.handle ≠ 0
    let s := scrubRanges key ranges (s.setWorld { w with
      live := false, root := 0, pools := [], attached := false, cores := []
      memKey := if keep then w.memKey else 0, macKey := if keep then w.macKey else 0 })
    let s := if w.handle = 0 then zeroiseLines key (leavePrograms key s) else s
    leaveQuarantine (if w.handle = 0 ∧ ranges = [] then forgetWorld key s else s)

/-- The range lies in none of some ranges. -/
def outside (l : List Range) (r : Range) : Bool := !l.contains r

/-- SCRUB_COMPLETE: the ranges of a key id read zero and may be assigned again; an anonymous world's go back to its
reserve, and its key id is free (R356, R363). -/
def execScrubComplete (key : Nat) (s : State) : Out :=
  if !s.scrubOn || !scrubbing s key then .next s
  else
    let mine := s.scrub.filter fun r => r.key = key
    let s := mine.foldl (fun s r => zeroPage s r.base r.len) s
    let s := { s with scrub := s.scrub.filter fun r => r.key ≠ key }
    match s.world key with
    | none => .next s
    | some w =>
      if w.handle = 0 then
        .next (forgetWorld key (mapReserve w.vmid (fun v => { v with
          used := v.used.filter (outside w.used), saveUsed := v.saveUsed.filter (outside w.saveDrawn) }) s))
      else .next (s.setWorld { w with used := [], saveUsed := [], saveDrawn := [] })

/-! ### Grids -/

/-- Has a strand of the grid posted a packet, by the steps of R270, that stands in a ring and has not started? -/
def ringPosts (s : State) (g : Grid) : Bool :=
  match s.world g.key with
  | none => false
  | some w =>
    let mine := s.ringWrites.filter fun x => x.2 = g.id
    !mine.isEmpty && w.comet.any fun q =>
      match cometHeader s w q.index with
      | none => false
      | some (_, h) =>
        (List.range (min (h.write - h.read) (2 ^ h.log2))).any fun k =>
          match slotImage s w.key h (h.read + k) with
          | some (pa :: _, x) => mine.any (fun y => y.1 = pa) && field x 0 8 = (h.valid (h.read + k)).toNat
          | _ => false

/-- Has a packet that a strand of the grid posted, by CPOST or by the steps of R270, not completed (R17)? The
packet of a COPY record that a strand posted to a work queue is the queue's and not the strand's: DESIGN CHOICE,
log entry 110. -/
def packetsOut (s : State) (g : Grid) : Bool :=
  s.posts.any (fun p => p.strand.grid = g.id) || ringPosts s g
    || s.packets.any fun p =>
      match p.poster with
      | .strand r _ => r.grid = g.id
      | .memory (some x) => x = g.id
      | _ => false

/-- Has some packet an access to perform on an arena page of a world whose root grid is to retire (R204)? -/
def arenaPackets (s : State) (g : Grid) : Bool :=
  g.parent.isNone && s.slots.any fun r =>
    (r.state = 1 || r.state = 3) && r.world = g.key && s.packets.any fun p => p.places.any (inSlot r)

/-- May the grid retire (R17, R348)? -/
def gridDone (s : State) (g : Grid) : Bool :=
  s.allBlocks.all (fun b => b.grid ≠ g.id)
    && (childrenOf s g.id).isEmpty && s.origins.all (fun o => o.parent ≠ g.id)
    && !packetsOut s g && !arenaPackets s g
    && s.pendingRecords.all (fun r => r.grid ≠ g.id)
    && (g.ended.isSome || (g.nextBlock ≥ g.nblocks && g.flushed.isEmpty && g.saved.isEmpty))

/-- Saved blocks of a grid that has ended retire where they are: their areas go back and their arenas are
destroyed. -/
def dropSaved (g : Grid) (s : State) : State :=
  g.saved.foldl (fun s v => dropSlots (ofBlock g.id v.block.id) (returnSave g.key ⟨v.area, v.size⟩ s)) s

/-- Is the slot the grid's own arena or of one of its blocks? -/
def ofGrid (g : Nat) (r : SlotRec) : Bool :=
  match r.owner with
  | .grid x => x = g
  | .block x _ => x = g
  | .thread x _ _ _ => x = g
  | .none => false

/-- The grid's record retires: a record of its queue, or a node's. -/
def retireRecord (g : Grid) (s : State) : State :=
  match g.node with
  | some n => retireNode n g.ended.isSome (some g.id) s
  | none => recordRetired g.queue g.order s

/-- A grid leaves the device. -/
def removeGrid (id : Nat) (s : State) : State :=
  let s := s.dropBlock.dropGrid
  { s with grids := s.grids.filter (fun x => x.id ≠ id), kept := s.kept.filter fun k => k.2 ≠ id }

/-- GRID_RETIREMENT: the arena is destroyed, the shared bank memory reads zero for whoever has it next, the record
or node retires, and with a root grid its world does. -/
def execGridRetirement (id : Nat) (s : State) : Out :=
  match s.grid id with
  | none => .next s
  | some g =>
    if !gridDone s g then .next s
    else
      let s := dropSlots (ofGrid id) (dropSaved g s)
      let s := removeGrid id (retireRecord g s)
      .next (if g.parent.isNone && g.started then retireWorld g.key s else s)

end Sys2Proof.Machine
end

