-- ==== Sys2Proof/Machine/Packets.lean ====
section
/-! DEFINITION. Comet packets: how an engine starts them, what each kind does, and how their status is delivered
(R268 to R277, R279, R283, R288 to R292, R353). -/

namespace Sys2Proof.Machine

/-! ### Fields and limits (R272 to R274) -/

/-- KIND. -/
def Packet.kind (p : Packet) : Nat := field p.image 8 8
/-- A field of the body. -/
def Packet.f (p : Packet) (lo n : Nat) : Nat := field p.image lo n
/-- An address of the body. -/
def Packet.a (p : Packet) (lo : Nat) : DWord := BitVec.ofNat 64 (p.f lo 64)
/-- LEN or ROWLEN. -/
def Packet.len (p : Packet) : Nat := p.f 256 32
/-- ACQ. -/
def packetAcq (x : BitVec 512) : Bool := x.getLsbD 16
/-- REL. -/
def packetRel (x : BitVec 512) : Bool := x.getLsbD 17

/-- Is a packet malformed: a reserved field, a field outside its limits, SCOPE, or a kind that is not accepted
(R274, R373)? -/
def packetMalformed (feats : BitVec 256) (p : Packet) : Bool :=
  let f := p.f
  let n := p.len
  f 18 3 > 4 || f 21 43 ≠ 0 ||
    (if p.kind = 0 then f 288 224 ≠ 0
    else if p.kind = 1 then f 448 64 ≠ 0 || f 288 32 = 0
    else if p.kind = 2 then f 288 224 ≠ 0
    else if p.kind = 3 then
      !feats.getLsbD 6 || f 304 16 ≠ 0 || f 384 128 ≠ 0 || n < 16 || n > 65536 || n % 16 ≠ 0
        || f 192 4 ≠ 0 || f 224 4 ≠ 0
    else if p.kind = 4 then
      !feats.getLsbD 5 || f 312 8 ≠ 0 || f 352 160 ≠ 0 || n % 4 ≠ 0 || n > 2 ^ 24 || f 304 8 > 3
    else if p.kind = 5 then f 288 224 ≠ 0 || n % 16 ≠ 0
    else if p.kind = 6 then !feats.getLsbD 4 || f 296 24 ≠ 0 || f 416 96 ≠ 0 || n = 0 || n > 65536
    else f 264 248 ≠ 0 || f 256 8 > 3 || f 192 64 % (if f 256 1 = 1 then 8 else 4) ≠ 0)

/-! ### Reaching strands wherever they are -/

/-- Changes one strand, resident or saved: f on a resident one with its core, g on a saved one. -/
def mapStrandRef (r : StrandRef) (f : Nat → Strand → Strand) (g : Strand → Strand) (s : State) : State :=
  let hit := fun (h : Strand → Strand) (t : Strand) => if t.ref = r && !t.gone then h t else t
  let saved := fun (v : SavedBlock) => { v with block := { v.block with strands := v.block.strands.map (hit g) } }
  let s : State := { s with
    st := if s.st.here then hit (f s.blk.core) s.st else s.st
    blk := { s.blk with strands := s.blk.strands.map (hit (f s.blk.core)) }
    blocks := s.blocks.map fun (b : Block) => { b with strands := b.strands.map (hit (f b.core)) } }
  s.mapGrids fun x => if x.id = r.grid then { x with saved := x.saved.map saved } else x

/-! ### Accesses of an engine -/

/-- A status word that an address fault gives: the fault's code and the address's role (R277). -/
def addressWord (code role : Nat) : Word := statusWord 4 (16 * code + role)

/-- An address of a host-posted packet that names an arena (R208). DEDUCED, log entry 37. -/
def hostArena (p : Packet) (l : List (DWord × Nat)) : Option Word :=
  if p.hostPosted then (l.find? fun x => ptrSpace x.1 ≠ 0).map fun x => addressWord codePermission x.2 else none

/-- How far a packet's effect came: the writes, and the status when it ends; a replayable fault that has to be
resolved first; or an address that does not exist. -/
inductive Effect where
  | done (w : Word) (writes : List EWrite) (s : State)
  | stall (f : FaultInfo) (role : Nat) (s : State)
  | absent (pa : Nat)

/-- What a checked range gives: its parts, or a fault with the number of bytes before the failing part. -/
inductive Ranged where
  | ok (parts : List (Nat × DWord × PagePart)) (s : State)
  | bad (f : FaultInfo) (before : Nat)

/-- The bytes of a range before the first part of it that is not in plain space. -/
def plainBytes (a : DWord) (n : Nat) : Nat :=
  (((partsOf a n (n / 65536 + 2) 0).find? fun x => ptrSpace x.2.1 ≠ 0).map (·.1)).getD n

/-- Checks a range of n bytes for the engine of a packet; one that a host posted reaches no arena (R208). -/
def engineCheck (p : Packet) (k : Access) (a : DWord) (n : Nat) (s : State) : Ranged :=
  match s.world p.key with
  | none => .bad (faultAt codePageFault a) 0
  | some w =>
    let m := if p.hostPosted then plainBytes a n else n
    match checkAccess s w .engine p.die k true a m with
    | .bad f => .bad f (f.addr - a).toNat
    | .ok parts s w =>
      if m < n || (p.hostPosted && ptrSpace a ≠ 0) then .bad (faultAt codePermission (a + BitVec.ofNat 64 m)) m
      else .ok parts (s.setWorld w)

/-- The places of parts with the key id and type of their pages. -/
def placesOf (parts : List (Nat × DWord × PagePart)) : List (Nat × Nat) :=
  parts.flatMap fun x => x.2.2.pas.map fun a => (x.2.2.key, a)

/-- The bytes at places of parts, still to be read. -/
def unread (parts : List (Nat × DWord × PagePart)) : List EData := (placesOf parts).map fun x => .at_ x.1 x.2

/-- Bytes to be written at checked parts. -/
def writesTo (parts : List (Nat × DWord × PagePart)) (l : List EData) : List EWrite :=
  (placesOf parts).zip l |>.map fun (x, b) => ⟨x.1, x.2, b⟩

/-- Bytes without poison. -/
def plainData (l : List Byte) : List EData := l.map fun b => .known b false

/-- The byte and the poison of what an engine carries; what is still to be read is read as memory stands. -/
def EData.value (s : State) : EData → Byte × Bool
  | .at_ _ pa => (s.readByte pa, s.badByte pa)
  | .known b bad => (b, bad)

/-- The single-copy atomic unit of an engine's range that holds a place: an aligned 8-byte word that lies in it
whole, else the byte (R294). -/
def engineUnit (range : List Nat) (a : Nat) : List Nat :=
  let w := (List.range 8).map (a / 8 * 8 + ·)
  if w.all range.contains then w else [a]

/-- The units of a range that some places belong to. -/
def engineUnits (range l : List Nat) : List Nat := (l.filter range.contains).flatMap (engineUnit range)

/-- The key ids under which a packet still has to read. -/
def Packet.readKeys (p : Packet) : List Nat :=
  ((p.data ++ p.pending.map (·.data)).filterMap fun d => match d with | .at_ k _ => some k | _ => none).eraseDups

/-- The places that a packet still has to read under a key id, of some. -/
def Packet.sourcesOf (p : Packet) (u : List Nat) (key : Nat) : List Nat :=
  (p.data ++ p.pending.map (·.data)).filterMap fun d =>
    match d with
    | .at_ k pa => if k = key && u.contains pa then some pa else none
    | _ => none

/-- A byte is read if its place is among some. -/
def EData.readAt (u : List Nat) (s : State) (d : EData) : EData :=
  match d with
  | .at_ _ pa => if u.contains pa then .known (s.readByte pa) (s.badByte pa) else d
  | d => d

/-- Reaching the memory of a host whose link is down, a packet loses data (R370). -/
def Packet.touches (p : Packet) (u : List Nat) (s : State) : Packet :=
  if u.any s.hostGone then { p with lost := 0xFFF } else p

/-- Units of what a packet reads are read: a line of another key fails its MAC (R359); poison goes with the data
(R374). -/
def Packet.read (p : Packet) (l : List Nat) (s : State) : Packet × State :=
  let u := engineUnits p.sources l
  let s := p.readKeys.foldl (fun s k => macCheck k (p.sourcesOf u k) s) s
  let p : Packet := { p with
    data := p.data.map (EData.readAt u s)
    pending := p.pending.map fun (x : EWrite) => { x with data := x.data.readAt u s } }
  (p.touches u s, s)

/-- Performs an engine's writes at the home L2: memory and poison. A line that the packet does not write whole is read
first (R358). -/
def performEWrites (whole : List Nat) (l : List EWrite) (s : State) : State :=
  let keys := (l.map (·.key)).eraseDups
  let out := l.map fun x => (x.key, x.pa, (x.data.value s).1)
  let bad := (l.filter fun x => (x.data.value s).2).map (·.pa)
  let part := fun (a : Nat) => !(linePlaces (a / 64)).all whole.contains
  let s := keys.foldl (fun s k =>
    let mine := (out.filter fun x => x.1 = k).map (·.2)
    writePlaces k false mine (macCheck k ((mine.map (·.1)).filter part) s)) s
  { s with poison := bad.foldl (fun m a => insertNew a m) s.poison }

/-- Units of what a packet writes are performed, in the order of the rows. What they carry is read first, and so
is what the packet has still to read at their places, so that no byte outside an overlap is any other than the
source's (R274). -/
def Packet.write (p : Packet) (l : List Nat) (s : State) : Packet × State :=
  let range := p.pending.map (·.pa)
  let u := engineUnits range l
  let carried := (p.pending.filter fun x => u.contains x.pa).filterMap fun x => x.data.place
  let (p, s) := p.read (carried ++ p.sources.filter u.contains) s
  let left : Packet := { p with
    pending := p.pending.filter fun x => !u.contains x.pa
    wrote := p.wrote || u.any (· < Config.paSpace) }
  (left.touches u s, performEWrites range (p.pending.filter fun x => u.contains x.pa) s)

/-- The key id of the page at an address of the packet's world. -/
def pageKey (p : Packet) (a : DWord) (s : State) : Nat :=
  match s.world p.key with
  | none => p.key
  | some w =>
    match translate s w [.die p.die] (ptrVa a) with
    | .page leaf _ _ _ _ => eKeyid leaf
    | _ => p.key

/-- The record of an engine's access to a sealed page, to the world that owns the page (R184). -/
def sealedTold (p : Packet) (f : FaultInfo) (s : State) : State :=
  recordForWorld (pageKey p f.addr s) (plainRecord s.free codeSealedCopy 2 0 f.addr 0 0 0) s

/-- Is it the fault of an engine's access to a sealed page? -/
def sealedFault (f : FaultInfo) : Bool := f.code = codeSealedLoad || f.code = codeSealedStore

/-- How a fault of an engine's access ends a packet (R184, R274): SEALED with a record to the world that owns the
page, ADDRESS_FAULT with its role, or a wait for its resolution. -/
def faultEnds (p : Packet) (f : FaultInfo) (role : Nat) (writes : List EWrite) (s : State) : Effect :=
  if f.code = codeAbsent then .absent f.addr.toNat
  else if sealedFault f then .done (statusWord 5 0) [] (sealedTold p f s)
  else if replayable f.code ∧ !p.declined then .stall f role s
  else .done (addressWord f.code role) writes s

/-- Do some pages lie in the memory of a host whose link is down (R370)? -/
def linkGone (s : State) (parts : List (Nat × DWord × PagePart)) : Bool := (allPas parts).any s.hostGone

/-! ### COPY1D, COPY2D, FILL, SEALMOVE, SIGNAL -/

/-- The rows of a copy: source, destination and length. -/
def rowsOf (p : Packet) : List (DWord × DWord × Nat) :=
  if p.kind = 1 then
    (List.range (p.f 288 32)).map fun r =>
      (p.a 128 + BitVec.ofNat 64 r * p.a 320, p.a 192 + BitVec.ofNat 64 r * p.a 384, p.len)
  else [(p.a 128, p.a 192, p.len)]

/-- Copies rows in order; bytes before a failing part are written (R274). Where source and destination fail at
one byte, the lower of their codes counts: a sealed page's is the higher (R277). -/
def copyRows (p : Packet) : List (DWord × DWord × Nat) → List EWrite → Bool → State → Effect
  | [], out, gone, s => .done (if gone then statusWord 7 0xFFF else 0) out s
  | (a, b, n) :: t, out, gone, s =>
    let cut := fun (f : FaultInfo) (role k : Nat) =>
      match engineCheck p .copyRead a k s with
      | .bad _ _ => faultEnds p f role out s
      | .ok src s1 =>
        match engineCheck p .copyWrite b k s1 with
        | .bad _ _ => faultEnds p f role out s
        | .ok dst s2 => faultEnds p f role (out ++ writesTo dst (unread src)) s2
    match engineCheck p .copyRead a n s, engineCheck p .copyWrite b n s with
    | .bad f k, .bad g m => if m < k || (m = k && sealedFault f && !sealedFault g) then cut g 1 m else cut f 0 k
    | .bad f k, .ok _ _ => cut f 0 k
    | .ok _ _, .bad g m => cut g 1 m
    | .ok src s1, .ok _ _ =>
      match engineCheck p .copyWrite b n s1 with
      | .bad g m => cut g 1 m
      | .ok dst s2 =>
        copyRows p t (out ++ writesTo dst (unread src)) (gone || linkGone s2 src || linkGone s2 dst) s2

/-- The source places of rows, up to a part that fails. -/
def rowSources (p : Packet) (k : Access) (rows : List (DWord × Nat)) (s : State) : List Nat :=
  rows.flatMap fun x =>
    match engineCheck p k x.1 x.2 s with
    | .ok parts _ => allPas parts
    | .bad _ before =>
      match engineCheck p k x.1 before s with
      | .ok parts _ => allPas parts
      | .bad _ _ => []

/-- The places that a packet reads. -/
def sourcePlaces (p : Packet) (s : State) : List Nat :=
  if p.kind ≤ 1 then rowSources p .copyRead ((rowsOf p).map fun x => (x.1, x.2.2)) s
  else if p.kind = 5 then rowSources p .read [(p.a 128, p.len)] s
  else if p.kind = 7 then
    (if p.f 256 8 ≥ 2 then rowSources p (.atomic 0) [(p.a 192, if p.f 256 1 = 1 then 8 else 4)] s else [])
  else if p.kind = 2 then []
  else rowSources p .copyRead [(p.a 128, if p.kind = 6 then p.len + 16 else p.len)] s

/-- Bytes written where source and destination overlap are unspecified (R274). DESIGN CHOICE, log entry 12. -/
def blurOverlap (src : List Nat) (s : State) (l : List EWrite) : List EWrite :=
  l.map fun x => if src.contains x.pa then { x with data := .known (Config.freeByte s.free x.pa) false } else x

/-- An effect whose writes may overlap what it reads. -/
def Effect.blurred (p : Packet) (s : State) : Effect → Effect
  | .done w l s' => .done w (blurOverlap (sourcePlaces p s) s l) s'
  | e => e

/-- COPY1D and COPY2D. -/
def copyEffect (p : Packet) (s : State) : Effect := (copyRows p (rowsOf p) [] false s).blurred p s

/-- FILL. -/
def fillEffect (p : Packet) (s : State) : Effect :=
  let v := leBytes 8 (p.f 128 64)
  let bytes := fun (n : Nat) => plainData ((List.range n).map fun i => nth 0 v (i % 8))
  match engineCheck p .copyWrite (p.a 192) p.len s with
  | .ok dst s => .done (if linkGone s dst then statusWord 7 0xFFF else 0) (writesTo dst (bytes p.len)) s
  | .bad f k =>
    match engineCheck p .copyWrite (p.a 192) k s with
    | .ok dst s => faultEnds p f 1 (writesTo dst (bytes k)) s
    | .bad _ _ => faultEnds p f 1 [] s

/-- Each byte of a SEALMOVE: its page's table entry and its offset from the entry's BASE; none off sealed pages. -/
def sealedPlaces (w : World) (parts : List (Nat × DWord × PagePart)) : Option (List (BitVec 32 × Nat × Int)) :=
  if parts.all (fun x => x.2.2.mtype = 1 && (sealedEntry w x.2.2.sidx).getLsbD 0) then
    some (parts.flatMap fun x =>
      let e := sealedEntry w x.2.2.sidx
      (List.range x.2.2.pas.length).map fun i =>
        (entryTensor e, entryKey e, ((ptrVa x.2.1 + i : Nat) : Int) - (entryBase e : Int)))
  else none

/-- SEALMOVE: ciphertext is copied verbatim between entries of one tensor and key at the same offsets (R184). -/
def sealmoveEffect (p : Packet) (s : State) : Effect :=
  match engineCheck p .read (p.a 128) p.len s with
  | .bad f _ => faultEnds p f 0 [] s
  | .ok src s1 =>
    match engineCheck p .write (p.a 192) p.len s1 with
    | .bad f _ => faultEnds p f 1 [] s1
    | .ok dst s2 =>
      match s2.world p.key with
      | none => .done (statusWord 5 0) [] s2
      | some w =>
        match sealedPlaces w src, sealedPlaces w dst with
        | some x, some y =>
          if x = y then .done 0 (blurOverlap (allPas src) s2 (writesTo dst (unread src))) s2
          else .done (statusWord 5 0) [] s2
        | _, _ => .done (statusWord 5 0) [] s2

/-- SIGNAL: one store or one atomic addition. -/
def signalEffect (p : Packet) (s : State) : Effect :=
  let n := if p.f 256 1 = 1 then 8 else 4
  let k : Access := if p.f 256 8 < 2 then .copyWrite else .atomic 0
  match engineCheck p k (p.a 192) n s with
  | .bad f _ => faultEnds p f 1 [] s
  | .ok parts s =>
    let w := if linkGone s parts then statusWord 7 0xFFF else 0
    if p.f 256 8 < 2 then .done w (writesTo parts (plainData (leBytes n (p.f 128 64)))) s
    else
      let s := parts.foldl (fun s x => macCheck x.2.2.key x.2.2.pas s) s
      let pas := allPas parts
      let v := leBytes n (valueAt s pas + p.f 128 64)
      .done w (writesTo parts (v.map fun b => .known b (poisoned s pas))) s

/-! ### INGEST (R290, R352, R353) -/

/-- The key slot of an INGEST. -/
def keySlotOf (w : World) (n : Nat) : KeySlot := nth ⟨false, false, false, 0, 0, 0⟩ w.ingest n

/-- Is the stream of a port bound to the world and its interface in RUN (R371)? -/
def streamRuns (s : State) (w : World) (b : Bool) : Bool :=
  match w.stream with
  | some (port, k) => port = b && nth .unlocked (if b then s.portB else s.portA).streams k = .run
  | none => false

/-- The commit step: one per key slot at a time (R353). -/
def commitSlot (w : World) (n : Nat) (counter : DWord) (s : State) : State :=
  let k := { keySlotOf w n with accepted := true, last := counter }
  s.setWorld { w with ingest := put ⟨false, false, false, 0, 0, 0⟩ w.ingest n k }

/-- How an INGEST goes on: it waits for its ciphertext, or it ends. -/
inductive Ingested where
  | on (src dst : List (Nat × DWord × PagePart)) (s : State)
  | ends (e : Effect)

/-- INGEST: the checks before the ciphertext is read, in the order of R290. A source on a sealed page fails the
check of SRC, and the owner of the page is told (R184): DESIGN CHOICE, log entry 57. -/
def ingestChecks (p : Packet) (s : State) : Ingested :=
  let n := p.len
  match engineCheck p .copyRead (p.a 128) (n + 16) s with
  | .bad f _ =>
    .ends (if sealedFault f then .done (addressWord codePermission 0) [] (sealedTold p f s) else faultEnds p f 0 [] s)
  | .ok src s1 =>
    let b := src.any fun x => x.2.2.sidx = 1
    if src.any (fun x => x.2.2.mtype ≠ 2 || (x.2.2.sidx = 1) ≠ b) then .ends (.done (addressWord codePermission 0) [] s1)
    else
      match s1.world p.key with
      | none => .ends (.done (statusWord 8 0) [] s1)
      | some w =>
        let k := keySlotOf w (p.f 288 8)
        if !streamRuns s1 w b then .ends (.done (statusWord 10 (if b then 1 else 0)) [] s1)
        else if !k.loaded || k.keyid ≠ w.key then .ends (.done (statusWord 8 0) [] s1)
        else
          match engineCheck p .write (p.a 192) n s1 with
          | .bad f _ => .ends (faultEnds p f 1 [] s1)
          | .ok dst s2 =>
            if dst.any fun x => x.2.2.key ≠ w.key then .ends (.done (statusWord 8 0) [] s2)
            else if k.accepted ∧ (p.a 352).toNat ≤ k.last.toNat then .ends (.done (statusWord 3 0) [] s2)
            else .on src dst s2

/-- The commit step and what it writes: the check of the counter, the counter and the plaintext at once (R353).
A tag that fails zeroes the destination. -/
def ingestCommit (p : Packet) (bytes : List Byte) (s : State) : Effect :=
  match s.world p.key with
  | none => .done (statusWord 8 0) [] s
  | some w =>
    let n := p.len
    let k := keySlotOf w (p.f 288 8)
    let key := beBytes (if k.long then 32 else 16) k.key.toNat
    let nonce := beBytes 4 (p.f 320 32) ++ beBytes 8 (p.f 352 64)
    let (plain, tag) := gcmOpen key nonce [] (bytes.take n)
    let put := fun (l : List Byte) => p.pending.zip l |>.map fun (x, b) => { x with data := .known b false }
    if tag ≠ bytes.drop n then .done (statusWord 2 0) (put (List.replicate n 0#8)) s
    else if k.accepted ∧ (p.a 352).toNat ≤ k.last.toNat then .done (statusWord 3 0) [] s
    else .done 0 [] (performEWrites (p.pending.map (·.pa)) (put plain) (commitSlot w (p.f 288 8) (p.a 352) s))

/-- INGEST once its checks have passed: the ciphertext is translated again and read, and then the tag is tested
and the packet commits. DEDUCED, log entry 57. -/
def ingestOpen (p : Packet) (s : State) : Effect :=
  match engineCheck p .copyRead (p.a 128) (p.len + 16) s with
  | .bad f _ => faultEnds p f 0 [] s
  | .ok src s =>
    if linkGone s src then .done (statusWord 7 0xFFF) [] s
    else
      let data := p.data.zip (unread src) |>.map fun (d, x) => if d.place.isSome then x else d
      let (p, s) := Packet.read { p with data := data } (allPas src) s
      let l := p.data.map (EData.value s)
      if l.any (·.2) then .done (statusWord 7 0) [] s else ingestCommit p (l.map (·.1)) s

/-! ### MCAST (R288) and REDUCE (R289): the start -/

/-- The target grid of an MCAST. -/
def mcastGrid (p : Packet) : Nat :=
  if p.f 352 32 = 0 then
    match p.poster with
    | .strand r _ => r.grid
    | _ => 0
  else p.f 352 32

/-- The block of an MCAST's target, when it is resident and takes the tile: its ARMID. -/
def mcastArm (s : State) (g : Grid) (block dst bar len : Nat) : Option (BitVec 16) :=
  match s.allBlocks.find? fun b => b.grid = g.id && b.id = block with
  | none => none
  | some b =>
    let limit := g.scratchBytes (b.granted || g.fixed)
    if dst + len > limit ∨ bar + 16 > limit ∨ b.barrierState bar ≠ 1 then none
    else some (BitVec.ofNat 16 (b.scratchNat (bar + 12) 2))

/-- The targets that an MCAST samples. -/
def mcastTargets (p : Packet) (g : Grid) (s : State) : List Target × BitVec 16 :=
  let all := (List.range 16).filter fun n => p.image.getLsbD (288 + n)
  let arm := fun (n : Nat) => mcastArm s g (p.f 320 32 + n) (p.f 192 32) (p.f 224 32) p.len
  (all.filterMap fun n => (arm n).map fun id => ⟨n, p.f 320 32 + n, id, List.range (ceilDiv p.len 256), false⟩,
    (all.filter fun n => (arm n).isNone).foldl (fun m n => m ||| (1#16 <<< n)) 0)

/-- What beginning a packet gives: the packet as it goes on, or how it ends. -/
inductive Begun where
  | on (p : Packet) (s : State)
  | ends (e : Effect)

/-- The targets are sampled when an MCAST starts (R288); a grid that does not live refuses the packet. -/
def sampleTargets (p : Packet) (s : State) : Packet :=
  if p.kind ≠ 3 then p
  else
    match s.allGrids.find? fun g => g.id % 2 ^ 32 = mcastGrid p % 2 ^ 32 && g.key = p.key && mcastGrid p ≠ 0 with
    | none => { p with result := some (refusedWord 1), begun := true }
    | some g =>
      let (ts, refused) := mcastTargets p g s
      { p with grid := g.id, targets := ts, refused := refused }

/-- The status of an MCAST that sends nothing: a refusal goes before its own code. DEDUCED, log entry 58. -/
def mcastEnds (p : Packet) (w : Word) : Word :=
  if p.refused ≠ 0 then refusedWord 3 ||| p.refused.setWidth 32 else w

/-- An MCAST begins: the tile's source is checked. -/
def beginMcast (p : Packet) (s : State) : Begun :=
  match engineCheck p .copyRead (p.a 128) p.len s with
  | .bad f _ =>
    .ends (match faultEnds p f 0 [] s with
      | .done w l s => .done (mcastEnds p w) l s
      | e => e)
  | .ok src s => .on { p with begun := true, data := unread src } s

/-- The fault of a REDUCE's DST at its beginning. -/
def reduceTarget (p : Packet) (s : State) : Option FaultInfo :=
  match engineCheck p .copyWrite (p.a 192) p.len s with
  | .bad g _ => some g
  | .ok _ _ => none

/-- A REDUCE begins: its contribution is checked, and is then read and leaves for the network, unless DST is
sealed (R184). Of two faults that with the lower code counts (R277). DESIGN CHOICE, log entry 58. -/
def beginReduce (p : Packet) (s : State) : Begun :=
  let port := Config.groupPort (p.f 288 16) % 16
  match engineCheck p .copyRead (p.a 128) p.len s, reduceTarget p s with
  | .bad f _, some g => .ends (if sealedFault f && !sealedFault g then faultEnds p g 1 [] s else faultEnds p f 0 [] s)
  | .bad f _, none => .ends (faultEnds p f 0 [] s)
  | .ok src s1, g =>
    if g.any sealedFault then .ends (faultEnds p (g.getD (faultAt 0 0)) 1 [] s1)
    else
    let s := s1
    if linkGone s src then .ends (.done (statusWord 7 0xFFF) [] s)
    else if (nth Perigee.reset s.peri port).keyed = false then .ends (.done (statusWord 10 (16 + port)) [] s)
    else .on { p with begun := true, data := unread src } s

/-- An INGEST begins: its checks, and the places of its ciphertext and of its plaintext. -/
def beginIngest (p : Packet) (s : State) : Begun :=
  match ingestChecks p s with
  | .ends e => .ends e
  | .on src dst s => .on { p with begun := true, data := unread src, pending := writesTo dst (plainData (List.replicate p.len 0)) } s

/-- The status of an MCAST all of whose chunks have arrived. -/
def mcastStatus (p : Packet) : Word :=
  let bad := p.targets.filter (·.bad)
  let mask := p.refused ||| bad.foldl (fun m t => m ||| (1#16 <<< t.n)) 0
  let w := if p.refused ≠ 0 then refusedWord 3 else if p.lost ≠ 0 then statusWord 7 (min p.lost 0xFFF)
    else if !bad.isEmpty then statusWord 9 bad.length else 0
  w ||| mask.setWidth 32

/-- Has a REDUCE's contribution left for the network, read whole and free of poison (R271, R289)? -/
def Packet.left (p : Packet) : Bool := p.kind = 4 && p.begun && p.sources.isEmpty && p.data.all fun d => match d with
  | .known _ bad => !bad
  | .at_ _ _ => false

/-! ### The course of a packet -/

/-- Writes a packet back to its place. -/
def setPacket (p : Packet) (s : State) : State :=
  { s with packets := update (fun x => x.num = p.num) (fun _ => p) s.packets }

/-- Removes a packet. -/
def dropPacket (n : Nat) (s : State) : State := { s with packets := s.packets.filter fun x => x.num ≠ n }

/-- A packet waits for a replayable fault, which is reported to the hypervisor where it is its (R226). -/
def stallPacket (p : Packet) (f : FaultInfo) (role : Nat) (s : State) : State :=
  reportStage2 p.key f (setPacket { p with stalled := some (f, role) } s)

/-- An effect becomes the packet's: its result with the writes to come, or a stall. A resolution that was
declined counts for this effect alone. -/
def settle (p : Packet) (e : Effect) : Out :=
  match e with
  | .done w l s =>
    let wrote := p.wrote || (p.kind = 6 && w = 0 && p.pending.any fun x => decide (x.pa < Config.paSpace))
    .next (setPacket { p with
      result := some w, pending := l, begun := true, targets := [], data := [], declined := false, wrote := wrote } s)
  | .stall f role s => .next (stallPacket p f role s)
  | .absent a => .fault (.noSuchAddress a)

/-- An MCAST, a REDUCE or an INGEST begins, or ends at its beginning. -/
def beginPacket (p : Packet) (s : State) : Out :=
  match if p.kind = 3 then beginMcast p s else if p.kind = 4 then beginReduce p s else beginIngest p s with
  | .on p s => .next (setPacket { p with declined := false } s)
  | .ends e => settle p e

/-- The effect of a packet of the other kinds. -/
def effectOf (p : Packet) (s : State) : Effect :=
  if p.kind ≤ 1 then copyEffect p s
  else if p.kind = 2 then fillEffect p s
  else if p.kind = 5 then sealmoveEffect p s
  else signalEffect p s

/-- The addresses that a packet names, with their roles. -/
def packetAddresses (p : Packet) : List (DWord × Nat) :=
  if p.kind = 2 ∨ p.kind = 7 then [(p.a 192, 1)]
  else if p.kind = 3 then []
  else [(p.a 128, 0), (p.a 192, 1)]

/-- What decides a packet before it reads anything: its form, its kind, arena addresses of a host. Of several
codes the lowest is written (R277). DEDUCED, log entry 64. -/
def early (feats : BitVec 256) (p : Packet) : Option Word :=
  if p.f 18 3 > 4 || p.f 21 43 ≠ 0 then some (refusedWord 1)
  else if p.kind ≥ 8 then some (statusWord 12 p.kind)
  else if packetMalformed feats p then some (refusedWord 1)
  else hostArena p (packetAddresses p)

/-- Does an acquire have to wait for the qnt atomics pending at the home L2s of the source bytes (R275)? -/
def acquireWaits (p : Packet) (s : State) : Bool :=
  packetAcq p.image && p.f 18 3 ≥ 3 &&
    (let homes := (sourcePlaces p s).map (homeDie s)
    s.qnt.any fun q => q.use = 3 && q.pas.any fun a => homes.contains (homeDie s a))

/-! ### Start (R271, R279) -/

/-- An engine accepts a packet that a CPOST posted: the promise is written into the odd register, which becomes a
promise register (R45, R279). DESIGN CHOICE, log entry 11. -/
def accept (x : PostRef) (s : State) : State :=
  let late := BitVec.ofNat 32 (Config.freePromise s.free % 2 ^ 31)
  let write := fun (v : Word) (t : Strand) =>
    let t := t.sset (x.reg + 1) v
    { t with
      marks := t.marks ||| (1#64 <<< (x.reg + 1))
      owed := update (fun o => o.reg = x.reg && o.post = x.num) (fun o => { o with accepted := true }) t.owed }
  pokeStrand x.strand (mapStrandRef x.strand (fun c t => write ((s.clockOf c).setWidth 32 + late) t) (write late)
    { s with posts := s.posts.filter fun y => y.num ≠ x.num })

/-- Is every earlier packet of a queue complete, as far as an acquire asks (R271)? One whose status was
delivered ahead of its writes is: DESIGN CHOICE, log entry 115. -/
def earlierDone (s : State) (key queue : Nat) : Bool :=
  s.packets.all fun p => !(p.key = key && p.queue = some queue) || p.early || p.left

/-- A packet starts: what decides it at once, or the targets that it samples. -/
def startPacket (p : Packet) (s : State) : State :=
  { s with packets := s.packets ++ [match early s.accepted p with
    | some w => { p with result := some w, begun := true }
    | none => sampleTargets p s] }

/-- A packet that has just been taken. -/
def newPacket (num key : Nat) (queue : Option Nat) (image : BitVec 512) (poster : Poster) (host : Bool) (die : Nat) :
    Packet :=
  ⟨num, key, queue, image, poster, host, die, 0, false, [], 0, [], none, false, 0, none, [], false, false⟩

/-- Is a comet queue's header malformed (R269)? -/
def cometHeaderBad (key : Nat) (h : Header) : Bool :=
  field h.bits 234 278 ≠ 0 || field h.bits 224 10 ≠ key || field h.bits 210 14 ≠ 0 || field h.bits 203 5 ≠ 0
    || field h.bits 197 3 ≠ 0 || h.log2 < 4 || h.log2 > 16 || field h.bits 128 12 ≠ 0

/-- A packet that stands at the head of a comet queue and may start (R271): its queue's entry and header, its
places and its image. An offline die has no engine in service (R377). -/
structure Ready where
  entry : CometQueue
  header : Header
  pas : List Nat
  image : BitVec 512

/-- The packet at the head of a comet queue, once its VALID byte says that it is there and an acquire does not
hold it. -/
def ringHead (s : State) (key index : Nat) : Option Ready :=
  match if s.locked then s.world key else none with
  | none => none
  | some w =>
    match cometHeader s w index with
    | none => none
    | some (q, h) =>
      match slotImage s key h h.read with
      | none => none
      | some (pas, x) =>
        if field x 0 8 ≠ (h.valid h.read).toNat || s.offline.contains q.die then none
        else if packetAcq x && !earlierDone s key index then none
        else some ⟨q, h, pas, x⟩

/-- Steps from one comet queue to another in an engine's round, by key id and index. DESIGN CHOICE, log entry 102. -/
def roundSteps (last me : Nat × Nat) : Nat := (me.1 * 256 + me.2 + 2 ^ 20 - (last.1 * 256 + last.2 + 1)) % 2 ^ 20

/-- Is it the queue's turn: comes no other queue of its engine that is ready before it in the round (R271)? -/
def ringTurn (s : State) (q : CometQueue) (key : Nat) : Bool :=
  let last := match s.turns.find? fun t => t.die = q.die && t.engine = q.engine with
    | some t => (t.key, t.queue)
    | none => (0, 0)
  s.allWorlds.all fun w => w.comet.all fun x =>
    x.die ≠ q.die || x.engine ≠ q.engine || roundSteps last (key, q.index) ≤ roundSteps last (w.key, x.index)
      || (ringHead s w.key x.index).isNone

/-- Who posted the packet in a slot: a CPOST, or whoever wrote its VALID byte (R17, R208, R278). -/
def ringPoster (s : State) (post : Option PostRef) (pas : List Nat) : Poster :=
  match post with
  | some y => .strand y.strand y.num
  | none => .memory (s.ringWrites.lookup (pas.head?.getD 0))

/-- A world's comet queue of an index: its header and the slot at READ are checked against their MACs (R358). -/
def cometCheck (key index : Nat) (s : State) : State :=
  match (s.world key).bind fun w => w.comet.find? (fun q => q.index = index) with
  | some q => ringCheck key q.header s
  | none => s

/-- The packet at the head of a comet queue starts, when it is of a kind that the event takes and its queue's turn
comes. -/
def startRing (key index : Nat) (kind : Nat → Bool) (s0 : State) : Out :=
  let s := if s0.locked then cometCheck key index s0 else s0
  match ringHead s key index with
  | none => .next s
  | some r =>
    if !kind (field r.image 8 8) || !ringTurn s r.entry key then .next s
    else
      let h := r.header
      let post := s.posts.find? fun y => y.key = key && y.queue = index && y.index = h.read
      let poster := ringPoster s post r.pas
      let host := s.hostSlots.contains (r.pas.head?.getD 0)
      let turns := ⟨r.entry.die, r.entry.engine, key, index⟩ :: s.turns.filter fun t =>
        !(t.die = r.entry.die && t.engine = r.entry.engine)
      let s := h.put 8 8 (h.read + 1) { s with
        packetCount := s.packetCount + 1, turns := turns
        ringWrites := s.ringWrites.filter fun x => some x.1 ≠ r.pas.head? }
      let s := match post with
        | some y => accept y s
        | none => s
      .next (startPacket (newPacket s.packetCount key (some index) r.image poster host r.entry.die) s)

/-- A record that the scheduler has handed over starts. -/
def startHanded (n : Nat) (kind : Nat → Bool) (s : State) : Out :=
  match s.handed.find? fun h => h.num = n with
  | none => .next s
  | some h =>
    if !kind (field h.image 8 8) || s.offline.contains h.die then .next s
    else
      .next (startPacket (newPacket (s.packetCount + 1) h.key none h.image h.poster h.hostPosted h.die)
        { s with handed := s.handed.filter (fun x => x.num ≠ n), packetCount := s.packetCount + 1 })

/-- A packet starts from its source. -/
def startFrom (p : PacketSource) (kind : Nat → Bool) (s : State) : Out :=
  match p with
  | .ring key queue => startRing key queue kind s
  | .handed n => startHanded n kind s

/-- COPY1D; a packet of a kind that does not exist is also taken here and completes ILLEGAL_KIND. -/
def execCopy1d (p : PacketSource) (s : State) : Out := startFrom p (fun k => k = 0 || k ≥ 8) s
/-- COPY2D. -/
def execCopy2d (p : PacketSource) (s : State) : Out := startFrom p (· = 1) s
/-- FILL. -/
def execFill (p : PacketSource) (s : State) : Out := startFrom p (· = 2) s
/-- MCAST. -/
def execMcast (p : PacketSource) (s : State) : Out := startFrom p (· = 3) s
/-- REDUCE. -/
def execReduce (p : PacketSource) (s : State) : Out := startFrom p (· = 4) s
/-- SEALMOVE. -/
def execSealmove (p : PacketSource) (s : State) : Out := startFrom p (· = 5) s
/-- INGEST. -/
def execIngest (p : PacketSource) (s : State) : Out := startFrom p (· = 6) s
/-- SIGNAL. -/
def execSignal (p : PacketSource) (s : State) : Out := startFrom p (· = 7) s

/-! ### Status (R276, R277, R279, R325) -/

/-- A status reaches the strand that posted the packet; where the packet has REL and wrote device memory, the core's
L1 is invalidated first. -/
def statusToStrand (p : Packet) (r : StrandRef) (post : Nat) (w : Word) (s : State) : State :=
  let write := fun (t : Strand) =>
    match t.owed.find? fun o => o.post = post with
    | none => t
    | some o =>
      let t := t.sset o.reg w
      { t with owed := update (fun x => x.post = post) (fun x => { x with arrived := true }) t.owed }
  let s := match coreOf s r with
    | some c => if packetRel p.image && p.wrote then l1Clear c s else s
    | none => s
  pokeStrand r (mapStrandRef r (fun _ t => write t) write s)

/-- The record of a status that could not be stored (R277). -/
def statusRecord (free : Nat) (f : FaultInfo) (a : DWord) (w : Word) : BitVec 512 :=
  let code := if f.code = codeSealedStore then codeSealedCopy else f.code
  plainRecord free code 2 0 a (addressWord code 3 ++ w) 0 0

/-- A status goes to its STATUS address, as a relaxed 4-byte store of the packet's world. A replayable fault is
resolved first. An address that is not a multiple of 4 takes its four bytes as they stand: DESIGN CHOICE, log
entry 117. -/
def statusToMemory (p : Packet) (w : Word) (s : State) : Effect :=
  let a := p.a 64
  if a = 0 then .done w [] s
  else
    match engineCheck p .copyWrite a 4 s with
    | .ok parts s => .done w (writesTo parts (plainData (leBytes 4 w.toNat))) s
    | .bad f _ =>
      if f.code = codeAbsent then .absent f.addr.toNat
      else if replayable f.code ∧ !p.declined then .stall f 3 s
      else .done w [] (recordForWorld p.key (statusRecord s.free f a w) s)

/-- What follows a delivered status: a record or a node retires. -/
def afterStatus (p : Packet) (s : State) : State :=
  match p.poster with
  | .record q order => recordRetired q order s
  | .node n => retireNode n false none s
  | _ => s

/-- Delivers a status; k goes on. -/
def deliverStatus (p : Packet) (w : Word) (s : State) (k : State → State) : Out :=
  match p.poster with
  | .strand r post => .next (k (statusToStrand p r post w s))
  | _ =>
    match statusToMemory p w s with
    | .done _ l s => .next (k (performEWrites [] l s))
    | .stall f role s => .next (stallPacket p f role s)
    | .absent a => .fault (.noSuchAddress a)

/-- The status that a packet ends with: data that it lost since it was decided count (R277, R370, R374). -/
def finalWord (p : Packet) (w : Word) : Word := if w = 0 ∧ p.lost ≠ 0 then statusWord 7 (min p.lost 0xFFF) else w

/-- Completes a packet whose result stands: the rest of its writes, then its status unless that was delivered
before. -/
def complete (p : Packet) (w : Word) (s : State) : Out :=
  let (p, s) := p.write (p.pending.map (·.pa)) s
  let s := setPacket p s
  if p.early then .next (afterStatus p (dropPacket p.num s))
  else deliverStatus p (finalWord p w) s fun s => afterStatus p (dropPacket p.num s)

/-- A status before its packet's writes, without REL (R275). -/
def completeEarly (p : Packet) (w : Word) (s : State) : Out :=
  if packetRel p.image || p.early || p.pending.isEmpty || p.kind = 7 then .next s
  else deliverStatus p (finalWord p w) s fun s => setPacket { p with early := true } s

/-- A contribution leaves for the network, or, where it carries poison, the packet ends (R374). -/
def leave (p : Packet) (s : State) : Out :=
  let (p, s) := p.read p.sources s
  if p.left then .next (setPacket p s)
  else settle p (.done (statusWord 7 (if p.lost ≠ 0 then min p.lost 0xFFF else Config.freeNat s.free (2 ^ 67))) [] s)

/-- The course of a packet that is not decided: it begins, goes on, or its effect is decided. A SIGNAL is
performed and completes at once. -/
def proceed (p : Packet) (s : State) : Out :=
  if !p.begun && acquireWaits p s then .next s
  else if p.kind = 3 ∧ p.begun then
    (if p.targets.all (·.chunks.isEmpty) then complete p (mcastStatus p) s else .next s)
  else if p.kind = 4 ∧ p.begun then leave p s
  else if p.kind = 6 ∧ p.begun then settle p (ingestOpen p s)
  else if p.kind = 3 ∨ p.kind = 4 ∨ p.kind = 6 then beginPacket p s
  else
    match effectOf p s with
    | .done w l s =>
      let p := { p with result := some w, pending := l, declined := false }
      if p.kind = 7 then complete p w (setPacket p s) else .next (setPacket p s)
    | e => settle p e

/-- PACKET_COMPLETION: the next thing that happens to a started packet: units of what it reads or writes are performed
(R294, R309), it begins, its effect is decided, or the rest of its writes and its status are delivered. -/
def execPacketCompletion (x : PartOf) (early : Bool) (s : State) : Out :=
  match s.packets.find? fun p => p.num = x.num with
  | none => .next s
  | some p =>
    if p.stalled.isSome then .next s
    else
      match x.units, p.result with
      | .accept, _ => .next s
      | .read l, _ => let (p, s) := p.read (l.map (·.2)) s; .next (setPacket p s)
      | .write l, some _ => let (p, s) := p.write (l.map (·.2)) s; .next (setPacket p s)
      | .write _, none => .next s
      | .all, some w => if early then completeEarly p w s else complete p w s
      | .all, none => if early then .next s else proceed p s

/-! ### Arrivals (R283, R288, R292) -/

/-- A chunk of a target has arrived; the target may have lost it. -/
def markChunk (p : Packet) (t : Target) (c : Nat) (lost : Bool) (s : State) : State :=
  let f := fun (x : Target) => { x with chunks := x.chunks.filter (· ≠ c), bad := x.bad || lost }
  setPacket { p with targets := update (fun x => x.n = t.n) f p.targets } s

/-- A chunk that a target does not take. -/
def dropChunk (p : Packet) (t : Target) (c : Nat) (s : State) : State := markChunk p t c true s

/-- A chunk arrives at the block in focus: the row of R283. -/
def arriveFocus (p : Packet) (t : Target) (c : Nat) (s : State) : State :=
  let bar := p.f 224 32
  let b := s.blk
  let chunk := ((p.data.drop (256 * c)).take 256).map (EData.value s)
  let at_ := p.f 192 32 + 256 * c
  if b.barrierState bar = 1 ∧ BitVec.ofNat 16 (b.scratchNat (bar + 12) 2) = t.armid then
    let bad := (chunk.zipIdx.filter fun x => x.1.2).map fun x => at_ + x.2
    let b := b.scratchPut at_ (chunk.map (·.1))
    let b := { b with scratchPoison := bad.foldl (fun m a => insertNew a m) b.scratchPoison }
    let arrived := b.scratchNat (bar + 4) 4 + chunk.length
    let b := b.scratchPut (bar + 4) (leBytes 4 arrived)
    let b := if arrived ≥ b.scratchNat bar 4 then
        (b.scratchPut (bar + 8) (leBytes 4 (b.scratchNat (bar + 8) 4 + 1))).scratchPut (bar + 14) [2#8]
      else b
    pokeBlock ⟨s.blk.grid, s.blk.id⟩ (markChunk p t c false { s with blk := b })
  else
    dropChunk p t c { s with blk := { b with bbdrops := BitVec.ofNat 32 (satAdd32 b.bbdrops.toNat 1) } }

/-- The places of a chunk's bytes that are still to be read. -/
def chunkPlaces (p : Packet) (c : Nat) : List Nat := ((p.data.drop (256 * c)).take 256).filterMap EData.place

/-- MCAST_ARRIVAL: a chunk is counted or discarded at a target. -/
def execMcastArrival (n target chunk : Nat) (s : State) : Out :=
  match s.packets.find? fun p => p.num = n with
  | none => .next s
  | some p =>
    match p.targets.find? fun t => t.n = target && t.chunks.contains chunk with
    | none => .next s
    | some t =>
      if !p.begun then .next s
      else
        let (p, s) := p.read (chunkPlaces p chunk) s
        match s.focusBlock ⟨p.grid, t.block⟩ with
        | some s' => if s'.blk.live then .next (arriveFocus p t chunk s') else .next (dropChunk p t chunk s)
        | none => .next (dropChunk p t chunk s)

/-- The combination of two values of n bits under a REDUCE's OP (R245, R274). -/
def reduceWord (op n : Nat) (x y : Nat) : Nat :=
  let x' := BitVec.ofNat 32 x
  let y' := BitVec.ofNat 32 y
  if op = 0 then (x + y) % 2 ^ n
  else if op = 1 then (bankAdd x' y').toNat
  else if op = 2 then fpAdd bf16 0 false x y
  else (if x'.sle y' then y else x)

/-- The combination of two contributions of k words of w bytes. -/
def reduceBytes (op w : Nat) : Nat → List Byte → List Byte → List Byte
  | 0, _, _ => []
  | k + 1, x, y =>
    leBytes w (reduceWord op (8 * w) (leNat (x.take w)) (leNat (y.take w))) ++ reduceBytes op w k (x.drop w) (y.drop w)

/-- The reduction of a member's contribution with the others', in an order that the manual leaves open (R108,
R289). -/
def reduction (free op n : Nat) (own : List Byte) (others : List (List Byte)) : List Byte :=
  let w := if op = 2 then 2 else 4
  match anyOrder free (own :: others) with
  | [] => own
  | x :: t => t.foldl (fun a b => reduceBytes op w (n / w) a b) x

/-- The result of a REDUCE is written to DST. -/
def reduceResult (p : Packet) (l : List Byte) (s : State) : Out :=
  match engineCheck p .copyWrite (p.a 192) p.len s with
  | .ok dst s => settle p (.done (if linkGone s dst then statusWord 7 0xFFF else 0) (writesTo dst (plainData l)) s)
  | .bad f k =>
    match engineCheck p .copyWrite (p.a 192) k s with
    | .ok dst s => settle p (faultEnds p f 1 (writesTo dst (plainData l)) s)
    | .bad _ _ => settle p (faultEnds p f 1 [] s)

/-- REDUCE_COMPLETION: the network's answer, once the contribution has left; the result is written to DST (R289). A
contribution of a stale generation is counted (R362). -/
def execReduceCompletion (n : Nat) (net : NetResult) (s : State) : Out :=
  match s.packets.find? fun p => p.num = n with
  | none => .next s
  | some p =>
    if !p.left || p.result.isSome || p.stalled.isSome then .next s
    else
      match net with
      | .stale k =>
        settle p (.done (statusWord 6 (min k 0xFFF)) [] (countOn p.die (fun c => { c with stale := c.stale + k }) s))
      | .lost k => settle p (.done (statusWord 7 (min k 0xFFF)) [] s)
      | .combined others =>
        if others.any fun l => l.length ≠ p.len then .next s
        else if p.lost ≠ 0 then settle p (.done (statusWord 7 (min p.lost 0xFFF)) [] s)
        else reduceResult p (reduction s.free (p.f 304 8) p.len (p.data.map fun d => (d.value s).1) others) s

end Sys2Proof.Machine
end

