-- ==== Sys2Proof/Machine/HostPorts.lean ====
section
/-! DEFINITION. The host ports: their registers (R364, R367), the lease (R368, R369), translation invalidation (R227),
features (R373), notification (R372), the link (R370), IDE and TDISP (R371). -/

namespace Sys2Proof.Machine

/-! ### TLBINV (R227) -/

/-- A write of TLBINV; ignored while BUSY, or with a SCOPE of 4 to 7. -/
def execTlbInvalidate (port : Bool) (w : BitVec 64) (s : State) : Out :=
  if !(s.port port).link || (s.port port).tlbinv.getLsbD 63 || field w 60 3 ≥ 4 then .next s
  else .next (mapPort port (fun p => { p with tlbinv := w &&& 0xF3FFFFFFFFFFFFC0#64 }) s)

/-- Does the stage-1 page of a cached translation hold an address? -/
def TlbEntry.pageHolds (t : TlbEntry) (va : Nat) : Bool := va / 2 ^ t.shift1 = t.page * 2 ^ t.shift / 2 ^ t.shift1

/-- The address that an invalidation names. -/
def invVa (w : BitVec 64) : Nat := 65536 * field w 16 42

/-- Does an invalidation name a cached translation: one of the stage-1 page that holds the address, of a key id,
or what stage 2 took part in? -/
def tlbNamed (w : BitVec 64) (t : TlbEntry) : Bool :=
  let scope := field w 60 3
  let key := field w 6 10
  if scope = 0 then t.key = key && t.pageHolds (invVa w)
  else if scope = 1 then t.key = key
  else if scope = 2 then t.staged
  else true

/-- May a unit of a world's access have used a translation that an invalidation names: for an address, one of
the stage-1 page that the unit went through, whatever the TLBs still hold? DEDUCED, log entry 62. -/
def tlbUsed (w : BitVec 64) (world : Nat) (a : LaneAcc) : Bool :=
  let scope := field w 60 3
  !a.done && (if scope = 0 then
      world = field w 6 10 && a.shift ≠ 0 && ptrVa a.va / 2 ^ a.shift = invVa w / 2 ^ a.shift
    else if scope = 1 then world = field w 6 10
    else true)

/-- Is an access outstanding that may have used a translation that an invalidation names? -/
def tlbHeld (s : State) (w : BitVec 64) : Bool :=
  (s.allBlocks.any fun b =>
    let key := (s.gridOf b).key
    b.strands.any (fun t => t.ops.any fun o => !o.what.onChip && o.lanes.any (tlbUsed w key))
      || b.mops.any fun m => m.parts.any (tlbUsed w key))
    || s.packets.any fun p => !p.places.isEmpty && (field w 60 3 ≥ 2 || p.key = field w 6 10)

/-- TLBINV_COMPLETE: once every access that used an invalidated translation has completed, the entries are gone and
BUSY reads 0. -/
def execTlbinvComplete (port : Bool) (s : State) : Out :=
  let w := (s.port port).tlbinv
  if !w.getLsbD 63 || tlbHeld s w then .next s
  else
    .next (mapPort port (fun p => { p with tlbinv := p.tlbinv &&& 0x7FFFFFFFFFFFFFFF#64 })
      { s with tlb := s.tlb.filter fun t => !tlbNamed w t })

/-! ### The lease (R368, R369) -/

/-- Is there an active port? -/
def leaseHeld (s : State) : Bool := s.portA.role = 1 || s.portB.role = 1

/-- A port becomes active. -/
def takeLease (b : Bool) (s : State) : State :=
  let s := mapPort b (fun p => { p with role := 1, period := p.newPeriod, remain := p.newPeriod }) s
  mapPort (!b) (fun p => { p with role := if p.link && s.accepted.getLsbD 7 then 2 else 0, remain := 0 }) s

/-- LEASE_RENEW: the first port to renew becomes active, and of two in one step of the lease unit host A; the
active port renews; any other is ignored, and so is every one in the step in which the lease has run out or
lapsed. Without the feature DUALHOST, host A alone is ever active (R373). DEDUCED, log entry 61. -/
def execLeaseRenew (b : Bool) (s : State) : Out :=
  if !s.locked || !(s.port b).link || s.lapseMs = some s.ms then .next s
  else if (s.port b).role = 1 then
    .next (mapPort b (fun p => { p with period := p.newPeriod, remain := p.newPeriod }) s)
  else if b && !s.accepted.getLsbD 7 then .next s
  else if leaseHeld s then
    (if !b && s.leaseMs = some s.ms then .next (takeLease false { s with leaseMs := none }) else .next s)
  else .next (takeLease b { s with leaseMs := some s.ms })

/-- The lease passes in one step to a standby port whose link is up, with the queues bound through the old one; else
it lapses. DEDUCED, log entry 61. -/
def passLease (b : Bool) (s : State) : State :=
  let other := !b
  if (s.port other).role = 2 ∧ (s.port other).link then
    let s := mapPort b (fun p => { p with role := 0, remain := 0 }) s
    let s := mapPort other (fun p => { p with role := 1, remain := p.period }) s
    { s with
      leaseEpoch := s.leaseEpoch + 1, leaseMs := none
      queues := update (fun q => q.bind.port = b) (fun q => { q with bind := { q.bind with port := other } }) s.queues }
  else
    mapPort other (fun p => { p with role := 0 }) (mapPort b (fun p => { p with role := 0, remain := 0 })
      { s with lapseMs := some s.ms, leaseMs := none })

/-- LEASE_RELEASE: by the active host alone. -/
def execLeaseRelease (b : Bool) (s : State) : Out :=
  if (s.port b).role = 1 && (s.port b).link then .next (passLease b s) else .next s

/-- LEASE_PERIOD: a write of PERIOD by the active host, applied at its next renewal; 0 is ignored. -/
def execLeasePeriod (b : Bool) (ms : BitVec 16) (s : State) : Out :=
  if (s.port b).role = 1 && ms ≠ 0 && (s.port b).link then .next (mapPort b (fun p => { p with newPeriod := ms }) s)
  else .next s

/-- One step of the lease unit for the active port: when REMAIN reaches 0 the lease passes, and no RENEW that
comes later in the step counts. -/
def leaseStep (b : Bool) (s : State) : State :=
  if (s.port b).role ≠ 1 then s
  else
    let s := mapPort b (fun p => { p with remain := p.remain - 1 }) s
    if (s.port b).remain = 0 then passLease b { s with lapseMs := some s.ms } else s

/-- LEASE_EXPIRY: a step of one millisecond; where REMAIN reaches 0 the lease passes or lapses. -/
def execLeaseExpiry (s : State) : Out :=
  if s.refNs < 1000000 * (s.ms + 1) then .next s
  else
    let s := { s with ms := s.ms + 1 }
    .next (if s.portA.role = 1 then leaseStep false s else leaseStep true s)

/-! ### SCRUBPROG (R364) and AGGVEC (R372) -/

/-- SCRUBPROG_SELECT: both ports show the same. -/
def execScrubprogSelect (port : Bool) (key : BitVec 10) (s : State) : Out :=
  if (s.port port).link then
    .next (mapPort false (fun p => { p with scrubKey := key }) (mapPort true (fun p => { p with scrubKey := key }) s))
  else .next s

/-- AGGVEC_READ returns the bits of a register and clears exactly those. -/
def execAggvecRead (port : Bool) (k : BitVec 4) (s : State) : Out :=
  if (s.port port).link then
    .next (mapPort port (fun p => { p with lastRead := nth 0 p.aggvec k.toNat, aggvec := put 0 p.aggvec k.toNat 0 }) s)
  else .next s

/-! ### Features (R373) -/

/-- FEATACC_WRITE: one 32-bit half of the port's staging copy; it clears REFUSED. Ignored once locked. -/
def execFeataccWrite (port : Bool) (k : BitVec 3) (w : BitVec 32) (s : State) : Out :=
  if s.locked || !(s.port port).link then .next s
  else
    .next (mapPort port (fun p => { p with
      featacc := setField p.featacc (32 * k.toNat) 32 w.toNat, refused := false }) s)

/-- The features that the device advertises as it stands (R373, R377): which of them dies that are offline take
away is not stated. DESIGN CHOICE, log entry 103. -/
def advertisedNow (s : State) : BitVec 256 :=
  if s.offline = [] then Config.advertised else Config.advertised &&& Config.freeFeatures s.offline

/-- COMMIT: refused whole when it names a bit that is not advertised; else the accepted set is locked. Two
commits never share a cycle (R373), because a step takes a cycle or more: DESIGN CHOICE, log entry 4. -/
def execCommit (port : Bool) (s : State) : Out :=
  if s.locked || s.stage < 5 || !(s.port port).link then .next s
  else
    let f := (s.port port).featacc
    if f &&& ~~~advertisedNow s ≠ 0 then .next (mapPort port (fun p => { p with refused := true, featacc := 0 }) s)
    else
      let taken := fun (p : Port) => { p with featacc := f }
      .next (mapPort port (fun p => { p with refused := false }) (mapPort false taken (mapPort true taken
        { s with accepted := f, locked := true, stage := 7 })))

/-! ### Registers (R367) -/

/-- REGISTER_WRITE: NOTIFYBASE, MODERATE and ADMIN; writes at other offsets are ignored. ADMIN is four
registers: base, size and two indices. DESIGN CHOICE, log entry 105. -/
def execRegisterWrite (port : Bool) (off : BitVec 16) (w : BitVec 64) (s : State) : Out :=
  if !(s.port port).link then .next s
  else if off = 0x0020 then .next (mapPort port (fun p => { p with notifyBase := w &&& 0xFFFFFFFFFFFFF001#64 }) s)
  else if off = 0x0028 then .next (mapPort port (fun p => { p with moderate := w &&& 0xFFFFFFFF#64 }) s)
  else if off = 0x0200 then .next (mapPort port (fun p => { p with adminBase := w }) s)
  else if off = 0x0208 then .next (mapPort port (fun p => { p with adminSize := w }) s)
  else if off = 0x0210 then .next (mapPort port (fun p => { p with adminWrite := w }) s)
  else if off = 0x0218 then .next (mapPort port (fun p => { p with adminRead := w }) s)
  else .next s

/-- Bytes still to be scrubbed for a key id. -/
def scrubRemain (s : State) (key : Nat) : Nat := sumBy (fun r => r.len - r.done) (s.scrub.filter fun r => r.key = key)

/-- What a port's register reads (R227, R364, R367, R368, R372, R373). -/
def readRegister (s : State) (port : Bool) (off : Nat) : DWord :=
  let p := s.port port
  let n := fun (k : Nat) => BitVec.ofNat 64 k
  if off = 0x0000 then
    n (p.remain.toNat + 2 ^ 16 * p.period.toNat + 2 ^ 32 * s.leaseEpoch.toNat + 2 ^ 62 * p.role)
  else if off = 0x0008 then
    let left := scrubRemain s p.scrubKey.toNat
    n (left % 2 ^ 48 + 2 ^ 53 * p.scrubKey.toNat + (if left = 0 then 0 else 2 ^ 63))
  else if off = 0x0010 then p.tlbinv
  else if off = 0x0020 then p.notifyBase
  else if off = 0x0028 then p.moderate
  else if 0x0080 ≤ off ∧ off < 0x0100 then nth 0 p.aggvec ((off - 0x0080) / 8)
  else if 0x0100 ≤ off ∧ off < 0x0120 then n (field (advertisedNow s) (8 * (off - 0x0100)) 64)
  else if 0x0120 ≤ off ∧ off < 0x0140 then n (field p.featacc (8 * (off - 0x0120)) 64)
  else if off = 0x0140 then n ((if s.locked then 2 else 0) + (if p.refused then 4 else 0))
  else if off = 0x0200 then p.adminBase
  else if off = 0x0208 then p.adminSize
  else if off = 0x0210 then p.adminWrite
  else if off = 0x0218 then p.adminRead
  else 0

/-- NOTIFY_INTERRUPT: the vector of a port is sent once COUNT events have occurred or TIMER µs have passed (R372). -/
def execNotifyInterrupt (port : Bool) (s : State) : Out :=
  let p := s.port port
  let count := field p.moderate 0 16
  let timer := field p.moderate 16 16
  if p.unsignalled ≠ 0 && canNotify s port
      && (count = 0 || timer = 0 || p.unsignalled ≥ count || s.refNs ≥ p.sinceNs + 1000 * timer) then
    .next (mapPort port (fun p => { p with interrupts := p.interrupts + 1, unsignalled := 0 }) s)
  else .next s

/-! ### The link, IDE and TDISP (R370, R371) -/

/-- Changes the state of one interface of a port. -/
def mapStream (port : Bool) (k : Nat) (f : Tdisp → Tdisp) (s : State) : State :=
  mapPort port (fun p => { p with streams := put .unlocked p.streams k (f (nth .unlocked p.streams k)) }) s

/-- An interface leaves RUN, to one of the two states that the manual names. PRESUMED, log entry 86. -/
def leaveRun (free k : Nat) (t : Tdisp) : Tdisp :=
  if t = .unlocked then .unlocked
  else if Config.freeNat free (2 ^ 68 + k) % 2 = 0 then .error else .unlocked

/-- HOST_LINK_DOWN: the port's interfaces leave RUN; a standby port is no longer one. -/
def execHostLinkDown (port : Bool) (s : State) : Out :=
  .next (mapPort port (fun p => { p with
    link := false
    role := if p.role = 2 then 0 else p.role
    streams := p.streams.zipIdx.map fun (t, k) => leaveRun s.free k t }) s)

/-- HOST_LINK_UP: where the other port is active, this one is standby. -/
def execHostLinkUp (port : Bool) (s : State) : Out :=
  if s.stage < 4 then .next s
  else
    let standby := (s.port (!port)).role = 1 && s.accepted.getLsbD 7
    .next (mapPort port (fun p => { p with link := true, role := if standby then 2 else p.role }) s)

/-- TDISP_STOP. PRESUMED, log entry 86. -/
def execTdispStop (port : Bool) (k : BitVec 3) (s : State) : Out :=
  if (s.port port).link then .next (mapStream port k.toNat (leaveRun s.free k.toNat) s) else .next s

/-- IDE_INTEGRITY_FAILURE. PRESUMED, log entry 86. -/
def execIdeIntegrityFailure (port : Bool) (k : BitVec 3) (s : State) : Out :=
  .next (mapStream port k.toNat (leaveRun s.free k.toNat) s)

/-- TDISP_LOCK_INTERFACE. -/
def execTdispLockInterface (port : Bool) (k : BitVec 3) (s : State) : Out :=
  if (s.port port).link then .next (mapStream port k.toNat (fun t => if t = .unlocked then .locked else t) s) else .next s

/-- TDISP_START_INTERFACE. -/
def execTdispStartInterface (port : Bool) (k : BitVec 3) (s : State) : Out :=
  if (s.port port).link then .next (mapStream port k.toNat (fun t => if t = .locked then .run else t) s) else .next s

end Sys2Proof.Machine
end

