-- ==== Sys2Proof/Machine/Trust.lean ====
section
/-! DEFINITION. The requests of world owners and of system software (R355 to R357, R366), which arrive on the ADMIN
ring of a host port. -/

namespace Sys2Proof.Machine

/-- Does a port accept requests: has the driver given its ADMIN ring a base and a size (R367)?
DEDUCED, log entry 61. -/
def adminOpen (s : State) : Bool :=
  let hasRing := fun (p : Port) => p.link && p.adminBase ≠ 0 && p.adminSize ≠ 0
  hasRing s.portA || hasRing s.portB

/-- A request is refused: nothing changes but that its poster is told. DESIGN CHOICE, log entry 81. -/
def refuseRequest (what : Nat) (s : State) : Out := .next (tell (.refused what) s)

/-- A request runs when a port accepts requests. DESIGN CHOICE, log entry 82. -/
def request (s : State) (k : Out) : Out := if adminOpen s then k else .next s

/-- The world of a registered handle. -/
def handleWorld (s : State) (h : BitVec 16) : Option World :=
  if h = 0 then none else s.allWorlds.find? fun w => w.handle = h

/-- A request for a registered handle. -/
def forHandle (h : BitVec 16) (what : Nat) (s : State) (k : World → Out) : Out :=
  request s <|
    match handleWorld s h with
    | none => refuseRequest what s
    | some w => k w

/-- REGISTER: a handle gets a key id and keys (R355). A sealing key that does not unwrap is refused. -/
def execRegister (h : BitVec 16) (sealing : BitVec 256) (auth : Bool) (s : State) : Out :=
  request s <|
    match freeKeyId s with
    | none => refuseRequest 0 s
    | some k =>
      if !auth || h = 0 || (handleWorld s h).isSome then refuseRequest 0 s
      else
        let w : World := { World.blank with
          key := k, handle := h, sealing := some sealing
          memKey := Config.freeKey s.free (2 * k), macKey := Config.freeKey s.free (2 * k + 1) }
        .next { s with worlds := w :: s.worlds }

/-- The lines that were last written under a key id. -/
def linesOfKey (s : State) (key : Nat) : List Range := (s.lineKeys.filter (·.2 = key)).map fun x => ⟨64 * x.1, 64⟩

/-- DEREGISTER: the scrub of the key id begins, and the keys and tables are gone; refused while a world of the handle
lives (R355, R356, R363). -/
def execDeregister (h : BitVec 16) (s : State) : Out :=
  forHandle h 1 s fun w =>
    if w.live then refuseRequest 1 s
    else
      .next (forgetWorld w.key (scrubRanges w.key (linesOfKey s w.key) (dropCopies w.key (endSlots w.key s))))

/-- GIVE_MEMORY: a range for the pools or the save pool of a handle's worlds, or, with handle 0, for the anonymous
reserve of a VMID. -/
def execGiveMemory (h vmid : BitVec 16) (save : Bool) (base len : Nat) (s : State) : Out :=
  let r : Range := ⟨base, len⟩
  if h = 0 then
    request s <|
      if base + len > Config.deviceBytes then refuseRequest 2 s
      else
        let s := if s.reserves.any (fun v => v.vmid = vmid) then s
          else { s with reserves := s.reserves ++ [⟨vmid, [], [], [], []⟩] }
        .next (mapReserve vmid (fun v => if save then { v with save := v.save ++ [r] } else { v with given := v.given ++ [r] }) s)
  else
    forHandle h 2 s fun w =>
      if base + len > Config.deviceBytes then refuseRequest 2 s
      else .next (s.setWorld (if save then { w with save := w.save ++ [r] } else { w with given := w.given ++ [r] }))

/-- ROOTS: the stage-1 root or, from the hypervisor, the stage-2 root; handle 0 sets the tables of anonymous
worlds. -/
def execRoots (h : BitVec 16) (stage2 : Bool) (root : Nat) (s : State) : Out :=
  if stage2 && !s.accepted.getLsbD 8 then request s (refuseRequest 3 s)
  else if h = 0 then
    request s (.next (if stage2 then { s with anonRoot2 := some root } else { s with anonRoot := root }))
  else
    forHandle h 3 s fun w => .next (s.setWorld (if stage2 then { w with s2root := some root } else { w with s1root := root }))

/-- Is a sealed table entry malformed (R181)? -/
def sealedEntryBad (e : BitVec 128) : Bool := field e 1 21 ≠ 0 || field e 90 6 ≠ 0 || field e 32 16 ≠ 0

/-- SEALED_ENTRY: one entry of the sealed tensor table (R181). -/
def execSealedEntry (h : BitVec 16) (k : BitVec 8) (e : BitVec 128) (s : State) : Out :=
  forHandle h 4 s fun w =>
    if !s.accepted.getLsbD 0 || sealedEntryBad e then refuseRequest 4 s
    else .next (s.setWorld { w with sealedTable := put 0 w.sealedTable k.toNat e })

/-- Is an INGEST that names the key slot in progress? -/
def ingestBusy (s : State) (key slot : Nat) : Bool :=
  s.packets.any fun p => p.key = key && p.kind = 6 && p.f 288 8 = slot

/-- INGEST_KEY: the moment at which a key is installed; no INGEST that names the slot is in progress (R352). -/
def execIngestKey (h : BitVec 16) (k : BitVec 8) (long : Bool) (key : BitVec 256) (auth : Bool) (s : State) : Out :=
  forHandle h 5 s fun w =>
    if !auth then refuseRequest 5 s
    else if ingestBusy s w.key k.toNat then .next s
    else
      let slot : KeySlot := ⟨true, long, false, w.key, 0, key⟩
      .next (s.setWorld { w with ingest := put ⟨false, false, false, 0, 0, 0⟩ w.ingest k.toNat slot })

/-- COMET_QUEUE: registers a queue, or removes one; a malformed header is refused (R268, R269). -/
def execCometQueue (h : BitVec 16) (k : BitVec 8) (hdr : Option DWord) (s : State) : Out :=
  forHandle h 6 s fun w =>
    let others := w.comet.filter fun q => q.index ≠ k.toNat
    match hdr with
    | none => .next (s.setWorld { w with comet := others })
    | some a =>
      let s := headerCheck w.key a s
      match if a.toNat % 64 = 0 then readHeader s w.key a else none with
      | none => refuseRequest 6 s
      | some hd =>
        if cometHeaderBad w.key hd then refuseRequest 6 s
        else
          .next (s.setWorld { w with comet := others ++ [⟨k.toNat, a, field hd.bits 208 2, field hd.bits 200 3⟩] })

/-- BIND_QUEUE (R315): parameters out of their ranges are refused. -/
def execBindQueue (q : Nat) (f : QueueBinding) (s : State) : Out :=
  request s <|
    if q ≥ 1024 || f.weight = 0 || f.bound.toNat < 10 || f.header.toNat % 64 ≠ 0 || ptrSpace f.header ≠ 0
        || (ownerKey s f.handle).isNone then refuseRequest 7 s
    else
      match s.queue q with
      | some _ => .next (mapQueue q (fun x => { x with bind := f, deficit := 0 }) s)
      | none => .next { s with queues := s.queues ++ [⟨q, f, 0, 0, 0, [], [], 0, 0, 0, 0, 0⟩] }

/-- BIND_STREAM (R371): a handle binds one stream. -/
def execBindStream (h : BitVec 16) (port : Bool) (k : BitVec 3) (s : State) : Out :=
  forHandle h 8 s fun w => .next (s.setWorld { w with stream := some (port, k.toNat) })

/-- The contents of a report (R366), with the dies and stacks that are offline (R377). -/
def reportBytes (s : State) (w : World) (nonce : BitVec 256) : List Byte :=
  let bits := fun (l : List Nat) => l.foldl (fun m k => m ||| 2 ^ k) 0
  leBytes 32 nonce.toNat ++ s.measured.flatMap (fun m => leBytes 64 m.toNat) ++ s.versions.flatMap (leBytes 8)
    ++ leBytes 32 s.accepted.toNat ++ leBytes 2 w.key ++ s.peri.flatMap (·.identity) ++ s.kem
    ++ leBytes 2 (bits s.offline) ++ leBytes 2 (bits s.badStacks)

/-- The counters of a die, as the ADMIN ring of a port shows them (R375). -/
def readCounters (s : State) (port : Bool) (die : Nat) : Option Counters :=
  let p := s.port port
  if p.link && p.adminBase ≠ 0 && p.adminSize ≠ 0 then some (nth Counters.zero s.counts die) else none

/-- ATTEST: a signed report over the owner's nonce (R366). -/
def execAttest (h : BitVec 16) (nonce : BitVec 256) (s : State) : Out :=
  forHandle h 9 s fun w =>
    let l := reportBytes s w nonce
    .next (tell (.report l (sign l)) s)

end Sys2Proof.Machine
end

