-- ==== Sys2Proof/Machine/Environment.lean ====
section
/-! DEFINITION. What happens to the device from outside or of its parts: failed MACs and flits, key generations,
accesses of hosts and peers, training, power, resets, clocks and soft errors (R42, R184, R192, R208, R311, R359 to
R362, R365, R366, R374 to R377). -/

namespace Sys2Proof.Machine

/-! ### MAC and flits (R359, R374) -/

/-- The key id that a line carries: that of its last write, of the arena page or of the given memory that it
lies in, and else the moon cores'. DEDUCED, log entry 68. -/
def lineOwner (s : State) (line : Nat) : Nat :=
  let holds := fun (r : Range) => r.base ≤ 64 * line && 64 * line < r.base + r.len
  match s.lineKeys.lookup line, s.slots.find? (fun r => inSlot r (64 * line)) with
  | some k, _ => k
  | none, some r => r.world
  | none, none =>
    ((s.allWorlds.find? fun w => (w.given ++ w.save ++ w.used ++ w.saveDrawn).any holds).map (·.key)).getD 0

/-- MAC_REREAD: a line whose MAC has failed is read again. A re-read that passes is a transient transfer. -/
def execMacReread (line : Nat) (pass : Bool) (s : State) : Out :=
  if 64 * line ≥ Config.deviceBytes then .next s
  else
    let s := countOn (homeDie s (64 * line)) (fun c => { c with
      macRetries := c.macRetries + 1, transient := c.transient + (if pass then 1 else 0) }) s
    .next (if pass then s else failLine (lineOwner s line) line s)

/-- Runs an event with some places poisoned for it alone. DEDUCED, log entry 70. -/
def withPoison (l : List Nat) (s : State) (k : State → Out) : Out :=
  let fresh := l.filter fun a => !s.poison.contains a
  (k (poisonPlacesAt fresh s)).andThen fun s' => .next { s' with poison := s'.poison.filter fun a => !fresh.contains a }

/-- A read of an outstanding operation completes poisoned. -/
def readPoisoned (r : StrandRef) (n : Nat) (s : State) : Out :=
  if r.idx ≥ mopUser then
    match s.allBlocks.find? fun b => b.grid = r.grid && b.id = r.block with
    | none => .next s
    | some b =>
      match b.mop n with
      | none => .next s
      | some m => withPoison (m.parts.flatMap (·.pas)) s (execOldwComplete ⟨r.grid, r.block⟩ ⟨n, .all⟩)
  else
    withOp r n s fun o s' =>
      withPoison (o.undone.flatMap (·.pas)) s' fun s' =>
        if o.what = .lda then execLdaComplete r ⟨n, .all⟩ s' else execLoadComplete r ⟨n, .all⟩ .home s'

/-- A byte that an engine has still to read at one of some places is read poisoned. -/
def EData.spoil (u : List Nat) (s : State) (d : EData) : EData :=
  match d with
  | .at_ _ pa => if u.contains pa then .known (s.readByte pa) true else d
  | d => d

/-- One unit of what a packet still has to read at places that q picks is read poisoned. -/
def spoilPacket (q : Nat → Bool) (n : Nat) (s : State) : State :=
  match s.packets.find? fun p => p.num = n with
  | none => s
  | some p =>
    let l := p.sources.filter q
    match l[Config.freeNat s.free (2 ^ 72) % l.length]? with
    | none => s
    | some a =>
      let u := engineUnits p.sources [a]
      setPacket { p with
        data := p.data.map (EData.spoil u s)
        pending := p.pending.map fun (x : EWrite) => { x with data := x.data.spoil u s } } s

/-- The die that a link belongs to. -/
def linkDie : LinkRef → Nat
  | .stack n => n / 3
  | .perigee n => n / 4

/-- FLIT_RETRY: a flit whose CRC failed is sent again; where that fails too, a read completes poisoned, a
written line is poisoned, and a packet loses a flit (R374). A flit of a read that a part makes at once (a fetch,
the read of a WAITV, an argument block, a WAITVAL word or what a CPOST or PROMOTE reads) fails the next such
read of its line. DEDUCED, log entry 70. -/
def execFlitRetry (l : LinkRef) (f : FlitKind) (pass : Bool) (s : State) : Out :=
  let s := countOn (linkDie l) (fun c => { c with linkRetries := c.linkRetries + 1 }) s
  if pass then .next s
  else
    match l, f with
    | .stack _, .read r n => readPoisoned r n s
    | .stack k, .packet n => .next (spoilPacket (fun a => onStack s k [a]) n s)
    | .stack _, .write line => .next (if 64 * line < Config.deviceBytes then poisonPlacesAt (linePlaces line) s else s)
    | .stack k, .fetch line =>
      .next (if 64 * line < Config.deviceBytes && onStack s k [64 * line] then { s with failing := .line line :: s.failing } else s)
    | .perigee _, .packet n =>
      let s := countOn (linkDie l) (fun c => { c with dropped := c.dropped + 1 }) s
      .next { s with packets := update (fun p => p.num = n) (fun p => { p with lost := p.lost + 1 }) s.packets }
    | _, _ => .next s

/-! ### Key generations (R360 to R362) -/

/-- KEY_GENERATION: the next generation of a link's key, once the requests of the generation before the current one
have drained. DEDUCED, log entry 74. -/
def execKeyGeneration (l : LinkRef) (s : State) : Out :=
  match l with
  | .stack n => if n ≥ 12 then .next s else .next (rekeyStack n s)
  | .perigee n => if n ≥ 16 then .next s else .next (rekeyPerigee n s)

/-! ### Accesses of hosts and peers (R184, R208, R311) -/

/-- The parts of a host's or a peer's access, and whether it touches a sealed page; none where it does not
translate, lacks permission, or names an arena with any byte (R208). Key id 0 names the tables of anonymous
worlds. -/
def outerRange (key : Nat) (k : Access) (va : DWord) (n : Nat) (s : State) :
    Option (List (Nat × DWord × PagePart) × Bool) :=
  if ptrSpace va ≠ 0 || plainBytes va n ≠ n then none
  else
    match tablesOf s key with
    | none => none
    | some w =>
      match checkAccess s w .host 0 k false va n with
      | .ok parts _ _ => some (parts, parts.any fun x => x.2.2.mtype = 1)
      | .bad _ => none

/-- The record of an access to a sealed page, to the world that owns the page. -/
def outerSealed (parts : List (Nat × DWord × PagePart)) (va : DWord) (s : State) : State :=
  let key := ((parts.find? fun x => x.2.2.mtype = 1).map fun x => x.2.2.key).getD 0
  recordForWorld key (plainRecord s.free codeSealedCopy 3 0 va 0 0 0) s

/-- Performs a read of a host or a peer, at the home L2. -/
def outerRead (parts : List (Nat × DWord × PagePart)) (s : State) : List Byte × State :=
  let s := parts.foldl (fun s x => macCheck x.2.2.key x.2.2.pas s) s
  ((allPas parts).map s.readByte, s)

/-- Performs a write of a host or a peer, at the home L2. -/
def outerWrite (parts : List (Nat × DWord × PagePart)) (l : List Byte) (s : State) : State :=
  let places := (placesOf parts).zip l
  let keys := (places.map fun x => x.1.1).eraseDups
  keys.foldl (fun s k =>
    let mine := (places.filter fun x => x.1.1 = k).map fun x => (x.1.2, x.2)
    writePlaces k true mine (macCheck k (partialPlaces (mine.map (·.1))) s)) s

/-- An access of a host or of a peer that reaches device memory; `shown` takes what a read or an atomic returns.
DEDUCED, log entry 69. -/
def outerAccess (x : OuterAccess) (shown : Nat → State → State) (s : State) : Out :=
  match x with
  | .read key va len =>
    match outerRange key .read va len s with
    | none => .next (shown (Config.freeNat s.free (2 ^ 70)) s)
    | some (parts, true) => .next (shown 0 (outerSealed parts va s))
    | some (parts, false) =>
      let (l, s) := outerRead parts s
      .next (shown (leNat (l.take 8)) s)
  | .write key va bytes =>
    match outerRange key .write va bytes.length s with
    | none => .next s
    | some (parts, true) => .next (outerSealed parts va s)
    | some (parts, false) => .next (outerWrite parts bytes s)
  | .atomic key va op wide a c =>
    let n := if wide then 8 else 4
    if op ≠ 0 ∧ op ≠ 8 ∧ op ≠ 9 then .next s
    else
      match outerRange key .read va n s, outerRange key .write va n s with
      | some (parts, false), some _ =>
        let (old, s) := outerRead parts s
        .next (shown (leNat old) (outerWrite parts (atomBytes op.toNat n old (leBytes 8 a.toNat) c) s))
      | some (parts, true), some _ => .next (shown 0 (outerSealed parts va s))
      | _, _ => .next (shown (Config.freeNat s.free (2 ^ 70)) s)
  | .own _ _ => .next s

/-- HOST_ACCESS: to device memory through a port whose link is up, or of the host to its own memory. -/
def execHostAccess (port : Bool) (x : OuterAccess) (s : State) : Out :=
  match x with
  | .own a bytes =>
    if a + bytes.length ≤ Config.paSpace then
      .next (putPlaces 0 true (((List.range bytes.length).map fun i => hostKey port (a + i)).zip bytes) s)
    else .next s
  | _ =>
    if (s.port port).link then
      outerAccess x (fun v => mapPort port fun p => { p with lastRead := BitVec.ofNat 64 v }) s
    else .next s

/-- PEER_ACCESS: through a Perigee port that is up, to what system software has opened to it (R376). -/
def execPeerAccess (port : BitVec 4) (x : OuterAccess) (s : State) : Out :=
  if (nth Perigee.reset s.peri port.toNat).up then outerAccess x (fun _ s => s) s else .next s

/-! ### Bring-up (R376, R377) -/

/-- PERIGEE_TRAINING: lanes, FEC mode, key exchange. -/
def execPerigeeTraining (port : BitVec 4) (t : Training) (s : State) : Out :=
  if s.stage < 4 || s.offline.contains (port.toNat / 4) then .next s
  else
    let up := t.deskew && (t.long || t.short)
    let keyed := up && t.exchange
    let p : Perigee := ⟨up, keyed, t.long, if keyed then t.identity else [], 0,
      if keyed then Config.freeKey s.free port.toNat else 0, 0, [], 0⟩
    .next { s with peri := put .reset s.peri port.toNat p }

/-- A measurement register takes a digest: M becomes SHAKE256 of M and d (R366). DEDUCED, log entry 73. -/
def measure (m : BitVec 512) (d : List Byte) : BitVec 512 := shake256 (leBytes 64 m.toNat ++ d)

/-- May the moon cores run images of some security versions: is none below the version fused in its base die
(R366)? -/
def versionsOk (s : State) (versions : List Nat) : Bool := (List.range 12).all fun k => nth 0 s.fused k ≤ nth 0 versions k

/-- The stages of bring-up. A stage starts when the one before is complete. Firmware that does not verify leaves
the device in reset, not ready. From the second stage on the scrub engines run (R365), and the third gives every
link of a die in service its first key. -/
def bringUp (b : BringUp) (s : State) : State :=
  match b with
  | .firmware ok digests versions =>
    if s.stage ≠ 0 then s
    else if ok && versionsOk s versions then
      { s with
        stage := 1
        measured := s.measured.zipIdx.map fun (m, k) => measure m (nth [] digests k)
        versions := versions
        kem := (List.range 1568).map fun i => Config.freeByte s.free (2 ^ 40 + i) }
    else tell .notReady s
  | .memory failed =>
    if s.stage = 1 then
      { s with stage := 2, badStacks := failed, offline := (failed.map (· / 3)).eraseDups, scrubOn := true }
    else s
  | .fabric failed =>
    if s.stage = 2 then
      let offline := (s.offline ++ failed).eraseDups
      let keyed := fun (k : Link) (n : Nat) =>
        if offline.contains (n / 3) then k else { Link.reset with key := Config.freeKey s.free (2048 + n) }
      { s with stage := 3, offline := offline, links := s.links.zipIdx.map fun (k, n) => keyed k n }
    else s
  | .pcie a b =>
    if s.stage = 3 then mapPort false (fun p => { p with link := a }) (mapPort true (fun p => { p with link := b }) { s with stage := 4 })
    else s
  | .perigee => if s.stage = 4 then { s with stage := 5 } else s

/-- POWER_ON: the next stage of bring-up. DEDUCED, log entry 41. -/
def execPowerOn (b : BringUp) (s : State) : Out := if s.halted then .next s else .next (bringUp b s)

/-- WARM_RESET leaves power on the base dies: device memory with its keys, the handles with their tables, the slot
generations and the scrub journal remain; what the live worlds used is scrubbed before the queues open (R365).
DEDUCED, log entry 72. -/
def execWarmReset (s : State) : Out :=
  let s := s.dropBlock.dropGrid.dropWorld
  let s := { s with st := .blank, blk := .blank, blocks := [], grids := [], origins := [], packets := [], handed := [], posts := [] }
  let s := (s.worlds.filter (·.live)).foldl (fun s w => retireWorld w.key s) s
  .next { State.reset with
    worlds := s.dropWorld.worlds, reserves := s.reserves, anonRoot := s.anonRoot, anonRoot2 := s.anonRoot2
    mem := s.mem, poison := s.poison, lineKeys := s.lineKeys, memTags := s.memTags
    inter := s.inter, mixed := s.mixed, slots := s.slots, scrub := s.scrub, fused := s.fused
    anon := s.anon
    notices := s.notices, refNs := s.refNs, slice := s.slice, ms := s.ms, hostSlots := s.hostSlots
    recordCount := s.recordCount, gridCount := s.gridCount, blockCount := s.blockCount, postCount := s.postCount
    packetCount := s.packetCount, epoch := s.epoch, agenda := s.agenda, free := s.free }

/-- POWER_LOSS: the hosts' own memory, the fused version and what has been told remain; no key, handle or table does
(R365, R377). DEDUCED, log entry 72. -/
def execPowerLoss (s : State) : Out :=
  .next { State.reset with
    mem := s.mem.filter fun x => Config.paSpace ≤ x.1
    fused := s.fused, notices := s.notices, refNs := s.refNs, slice := s.slice, ms := s.ms
    agenda := s.agenda, free := s.free }

/-- CLUSTER_CLOCK_GATING: a gated cluster's clock stands still (R42). -/
def execClusterClockGating (cluster : Nat) (mode : ClockMode) (s : State) : Out :=
  let rest := s.gated.filter (· ≠ cluster)
  .next { s with gated := if mode = .gated then cluster :: rest else rest }

/-! ### Soft errors (R192, R374, R375) -/

/-- The die at which an error is counted. -/
def errorDie (s : State) : ErrorSite → Nat
  | .line a => homeDie s (64 * a)
  | .l1 core _ => dieOf core
  | .sbm _ die _ => die
  | .pcie b => if b then 2 else 0
  | .scratch b _ => siteDie b.grid b.block
  | .slot b _ => siteDie b.grid b.block
  | .tile b _ => siteDie b.grid b.block
  | .vreg r _ _ _ => siteDie r.grid r.block
  | .sreg r _ => siteDie r.grid r.block
  | .mreg r _ => siteDie r.grid r.block
where
  /-- The die of a resident block. -/
  siteDie (g b : Nat) : Nat := ((s.allBlocks.find? fun x => x.grid = g && x.id = b).map fun x => dieOf x.core).getD 0

/-- A register-file word is in error. -/
def rfError (r : StrandRef) (e : RfError) (s : State) : State :=
  match s.focus r with
  | some s' => { s' with st := { s'.st with rfErr := e :: s'.st.healed e.file e.reg e.lane } }
  | none => s

/-- Do places lie in the memory of a port's host? -/
def atHost (b : Bool) (pas : List Nat) : Bool := pas.any fun p => p / Config.paSpace = (if b then 2 else 1)

/-- Who reads a host's memory: an outstanding operation, a packet, or the next read that a part makes at once. -/
inductive HostRead where
  | op (r : StrandRef) (n : Nat)
  | packet (n : Nat)
  | next
deriving DecidableEq, Repr

/-- What reads a host's memory and is outstanding: loads, atomics, LDAs and OLDWs, and packets; and what will
read it next. -/
def hostReads (s : State) (b : Bool) : List HostRead :=
  (s.allBlocks.flatMap fun x =>
    (x.strands.flatMap fun t =>
      (t.ops.filter fun o => (o.what = .ld || o.what = .atom || o.what = .lda) && o.undone.any fun a => atHost b a.pas).map fun o =>
        .op t.ref o.serial)
      ++ (x.mops.filter fun m => (m.what matches .oldw _ _ _) && atHost b m.places).map fun m => .op ⟨x.grid, x.id, mopUser⟩ m.seq)
    ++ (s.packets.filter fun p => atHost b p.sources).map (fun p => .packet p.num)
    ++ [.next]

/-- An uncorrectable error at a place. DESIGN CHOICE, log entry 71. -/
def strike (t : ErrorSite) (s : State) : Out :=
  let mapOn := fun (b : BlockRef) (f : Block → Block) =>
    match s.focusBlock b with
    | some s' => Host.Outcome.next { s' with blk := f s'.blk }
    | none => .next s
  match t with
  | .line a => .next (if 64 * a < Config.deviceBytes then poisonPlacesAt (linePlaces a) s else s)
  | .l1 core line =>
    let hit := update (fun (x : L1Line) => x.core = core && x.line = line) (fun x => { x with bad := List.range 64 }) s.l1
    .next { s with l1 := hit }
  | .scratch b w => mapOn b fun x => { x with
      scratchPoison := ((List.range 4).map (4 * w + ·)).foldl (fun m a => insertNew a m) x.scratchPoison }
  | .sbm g die w =>
    .next (mapGrid g (fun x => { x with
      sbmPoison := ((List.range 8).map (die * 2 ^ 32 + 8 * w + ·)).foldl (fun m a => insertNew a m) x.sbmPoison }) s)
  | .slot b n => mapOn b fun x =>
      let o := x.slot n
      let at_ := 4 * (Config.freeNat s.free (2 ^ 71) % 1024)
      let bad := ((List.range 4).map (at_ + ·)).foldl (fun m a => if a < o.bytes.length then insertNew a m else m) o.poison
      if o.state = 3 then x.setSlot n { o with poison := bad } else x
  | .tile b n => mapOn b fun x =>
      let c := x.tile n
      x.setTile n { c with poison := insertNew (Config.freeNat s.free (2 ^ 71) % 4096) c.poison }
  | .vreg r n lane bits => .next (rfError r ⟨0, n.toNat, lane.toNat, bits⟩ s)
  | .sreg r n => .next (rfError r ⟨1, n.toNat, 0, BitVec.allOnes 32⟩ s)
  | .mreg r n => .next (rfError r ⟨2, n.toNat, 0, BitVec.allOnes 32⟩ s)
  | .pcie b =>
    let l := hostReads s b
    match nth .next l (Config.freeNat s.free (2 ^ 71) % l.length) with
    | .op r n => readPoisoned r n s
    | .packet n => .next (spoilPacket (fun a => atHost b [a]) n s)
    | .next => .next { s with failing := .host b :: s.failing }

/-- SOFT_ERROR: a correctable one is corrected and counted; any other is counted and strikes. -/
def execSoftError (t : ErrorSite) (fixable : Bool) (s : State) : Out :=
  let d := errorDie s t
  if fixable then .next (countOn d (fun c => { c with corrected := c.corrected + 1 }) s)
  else strike t (countOn d (fun c => { c with uncorrected := c.uncorrected + 1 }) s)

end Sys2Proof.Machine
end

