-- ==== Sys2Proof/Machine/Exact.lean ====
section
/-! DEFINITION. The exact accumulator's instructions (R102 to R104, R151) and EXPR (R70, R152). -/

namespace Sys2Proof.Machine

/-- KCLR. -/
def execKclr (f : AluD) (s : State) : Out :=
  guarded (.aluD 0x84 f) s fun s => zeroResult (.aluD 0x84 f) { s with st := { s.st with k := .zero } }

/-- KADD of the values that each active lane's A holds (R103, R151). -/
def kadd (op : BitVec 8) (f : Alu1) (p : Pos) (vals : Word → List Val) (s : State) : Out :=
  guarded (.alu1 op f) s fun s =>
    let k := (lanesOf (s.active f.pre)).foldl (fun k i => (vals (opnd32 p s i f.a)).foldl KAcc.add k) s.st.k
    zeroResult (.alu1 op f) { s with st := { s.st with k := k.settle } }

/-- The two packed elements of a word (R86). -/
def packedVals (f : Fmt) (w : Word) : List Val := [unpack f (w.toNat % 65536), unpack f (w.toNat / 65536)]

/-- KADD.f32. -/
def execKaddF32 (f : Alu1) (s : State) : Out := kadd 0x85 f .fp (fun w => [unpack fp32 w.toNat]) s
/-- KADD.f16. -/
def execKaddF16 (f : Alu1) (s : State) : Out := kadd 0x86 f .f16 (packedVals fp16) s
/-- KADD.bf16. -/
def execKaddBf16 (f : Alu1) (s : State) : Out := kadd 0x87 f .bf16 (packedVals bf16) s

/-- KRND (R104). -/
def execKrnd (f : AluD) (s : State) : Out :=
  guarded (.aluD 0x88 f) s fun s =>
    uniResult (.aluD 0x88 f) f.n f.d (BitVec.ofNat 32 (s.st.k.round (rmOf f.pre))) s

/-- A step of two operands: y is the top, x below it (R70, R152). -/
def exprBin (ty rm : Nat) (ftz : Bool) (step : Nat) (x y : Word) : Word :=
  if ty = 0 then
    BitVec.ofNat 32 (
      if step = 7 then fpAdd fp32 rm ftz x.toNat y.toNat
      else if step = 8 then fpSub fp32 rm ftz x.toNat y.toNat
      else if step = 9 then fpMul fp32 rm ftz x.toNat y.toNat
      else if step = 11 then fpMin fp32 ftz x.toNat y.toNat
      else fpMax fp32 ftz x.toNat y.toNat)
  else if step = 7 then x + y
  else if step = 8 then x - y
  else if step = 9 then x * y
  else
    let le := if ty = 1 then x.sle y else x.ule y
    if step = 11 then (if le then x else y) else (if le then y else x)

/-- NEG and ABS. -/
def exprUn (ty : Nat) (step : Nat) (x : Word) : Word :=
  if ty = 0 then
    if unpack fp32 x.toNat = .nan then BitVec.ofNat 32 fp32.nan
    else if step = 13 then x ^^^ 0x80000000 else x &&& 0x7FFFFFFF
  else if step = 13 then 0 - x
  else if ty = 1 then absWord x else x

/-- FMA. -/
def exprFma (ty rm : Nat) (ftz : Bool) (x y z : Word) : Word :=
  if ty = 0 then BitVec.ofNat 32 (fpFma fp32 rm ftz x.toNat y.toNat z.toNat) else x * y + z

/-- A subnormal result becomes a zero of its sign under FTZ (R152). -/
def exprFlush (ty : Nat) (ftz : Bool) (x : Word) : Word :=
  if ty = 0 ∧ ftz ∧ x.toNat / 2 ^ 23 % 256 = 0 then x &&& 0x80000000 else x

/-- The evaluation of a step list over a stack, the top first. -/
def exprRun (ty rm : Nat) (ftz : Bool) (input : Nat → Word) : List Nat → List Word → List Word
  | [], st => st
  | c :: t, st =>
    let flush := exprFlush ty ftz
    if c = 0 then st
    else
      exprRun ty rm ftz input t (
        if c ≤ 4 then flush (input (c - 1)) :: st
        else
          match st with
          | [] => []
          | y :: r =>
            if c = 5 then y :: y :: r
            else if c = 13 ∨ c = 14 then flush (exprUn ty c y) :: r
            else
              match r with
              | [] => [y]
              | x :: r =>
                if c = 6 then x :: y :: r
                else if c = 10 then
                  match r with
                  | [] => [y, x]
                  | w :: r => flush (exprFma ty rm ftz w x y) :: r
                else flush (exprBin ty rm ftz c x y) :: r)

/-- The remaining value; a NaN result is canonical (R89, log entry 7). -/
def exprResult (ty : Nat) (st : List Word) : Word :=
  let x := st.head?.getD 0
  if ty = 0 ∧ unpack fp32 x.toNat = .nan then BitVec.ofNat 32 fp32.nan else x

/-- EXPR (R152). -/
def execExpr (f : ExprF) (s : State) : Out :=
  guarded (.expr f) s fun s =>
    let p : Pos := if f.ty = 0 then .fp else .int
    let ins := [f.in0, f.in1, f.in2, f.in3]
    vecResult (.expr f) f.pre f.n f.d
      (fun i => exprResult f.ty.toNat (exprRun f.ty.toNat (rmOf f.pre) (ftzOf f.pre)
        (fun k => opnd32 p s i (nth (.int 0) ins k)) f.stepList [])) s

end Sys2Proof.Machine
end

