-- ==== Sys2Proof/Machine/Loader.lean ====
section
/-! DEFINITION. PROGRAM_LOAD: the loader maps the sections of a program in the tables of its world and places their bytes
(R10, R312, R350, R351, R381). The frames and the new tables are those that system software names. -/

namespace Sys2Proof.Machine

/-! ### Leaves -/

/-- A stage-1 leaf of level 4 (R218): permissions [3:0] are R, W, X and USER. -/
def leafEntry (pa perm mtype swz sidx key : Nat) : BitVec 128 :=
  BitVec.ofNat 128 (pa + 2 ^ 62 + 2 ^ 63 + 2 ^ 96 * perm + 2 ^ 100 * mtype + 2 ^ 102 + 2 ^ 106 * swz + 2 ^ 110 * sidx
    + 2 ^ 118 * key)

/-- The leaf of a section's page. -/
def sectionLeaf (s : State) (key : Nat) (entry : Nat) (k : SectionKind) (pa : Nat) : BitVec 128 :=
  match k with
  | .code => leafEntry pa 13 0 9 0 key
  | .data => leafEntry pa 11 0 9 0 key
  | .sealed _ => leafEntry pa 11 1 9 entry key
  | .host b => leafEntry pa 11 2 0 (if b then 1 else 0) key
  | .keyed h => leafEntry pa 11 0 9 0 ((ownerKey s h).getD 0)

/-! ### Tables -/

/-- The place of an address that a guest's table holds: through stage 2 where the world has one. -/
def stagePlace (s : State) (root2 : Option Nat) (a : Nat) : Option Nat :=
  match root2 with
  | none => if s.inService a then some a else none
  | some r =>
    match walk2 s a 5 r 0 with
    | .ok _ pa _ => if s.inService pa then some pa else none
    | _ => none

/-- Writes a table entry; tables stand under key id 0. -/
def writeEntry (a : Nat) (e : BitVec 128) (s : State) : State :=
  putPlaces 0 true (((List.range 16).map (a + ·)).zip (leBytes 16 e.toNat)) s

/-- Changes the program that is being loaded for anonymous worlds. -/
def mapProgram (f : AnonProgram → AnonProgram) (s : State) : State :=
  match s.anon with
  | p :: rest => { s with anon := f p :: rest }
  | [] => s

/-- Installs a leaf of level 4 for an address: tables that are not there are taken from the frames. None where
the frames do not suffice or a larger page stands in the way. A leaf without a key id takes that of an anonymous
world (R356). -/
def installLeaf (root2 : Option Nat) (va : Nat) (leaf : BitVec 128) : Nat → Nat → Nat → List Nat → State →
    Option (List Nat × State)
  | 0, _, _, _, _ => none
  | n + 1, table, lvl, frames, s =>
    match stagePlace s root2 (entryAddr table lvl va) with
    | none => none
    | some ea =>
      if lvl = 4 then
        let s := writeEntry ea leaf s
        some (frames, if eKeyid leaf = 0 then mapProgram (fun p => { p with leaves := insertNew ea p.leaves }) s else s)
      else
        let e := BitVec.ofNat 128 (leNat (s.readBytes ea 16))
        if eValid e then
          (if eLeaf e then none else installLeaf root2 va leaf n (eAddr e) (lvl + 1) frames s)
        else
          match frames with
          | [] => none
          | f :: rest =>
            match stagePlace s root2 f with
            | none => none
            | some fp =>
              let s := zeroPage s fp (16 * 2 ^ levelBits (lvl + 1))
              installLeaf root2 va leaf n f (lvl + 1) rest (writeEntry ea (BitVec.ofNat 128 (f + 2 ^ 63)) s)

/-! ### Sections -/

/-- What a load goes by: the world's root tables, its key id and sealing key, and whether it has an entry of its
own. -/
structure LoadWorld where
  root : Nat
  root2 : Option Nat
  key : Nat
  sealing : Option (BitVec 256)
deriving DecidableEq, Repr

/-- Maps the pages of a section. -/
def mapPages (w : LoadWorld) (entry : Nat) (x : Section) : Nat → List Nat → State → Option (List Nat × State)
  | 0, frames, s => some (frames, s)
  | k + 1, frames, s =>
    match mapPages w entry x k frames s with
    | none => none
    | some (frames, s) =>
      installLeaf w.root2 (ptrVa x.va + 65536 * k) (sectionLeaf s w.key entry x.kind (x.pa + 65536 * k)) 5 w.root 0 frames s

/-- The bytes of a section as they stand in memory: a sealed section's are ciphertext alone (R10, R182). -/
def sectionBytes (w : LoadWorld) (x : Section) : List Byte :=
  match x.kind with
  | .sealed t => openSealed (beBytes 32 (w.sealing.getD 0).toNat) t 0 x.bytes
  | _ => x.bytes

/-- The place in a host's memory that a leaf's address names: through stage 2 where the world has one (R225, R350). -/
def hostPlace (s : State) (root2 : Option Nat) (b : Bool) (a : Nat) : Option Nat :=
  match root2 with
  | none => if a < Config.paSpace then some (hostKey b a) else none
  | some r =>
    match walk2 s a 5 r 0 with
    | .ok _ pa _ => some (hostKey b pa)
    | _ => none

/-- The places of a section's bytes. -/
def sectionPlaces (s : State) (w : LoadWorld) (x : Section) : Option (List Nat) :=
  (List.range x.bytes.length).mapM fun i =>
    match x.kind with
    | .host b => hostPlace s w.root2 b (x.pa + i)
    | _ => stagePlace s w.root2 (x.pa + i)

/-- May a section be loaded: 64 KiB boundaries, a sealing key and the feature for a sealed one, a handle that
the loader holds for one of another world? -/
def sectionOk (s : State) (p : Loaded) (w : LoadWorld) (x : Section) : Bool :=
  x.va.toNat % 65536 = 0 && ptrSpace x.va = 0 && ptrTag x.va = 0 && x.pa % 65536 = 0 &&
    match x.kind with
    | .sealed _ => w.sealing.isSome && s.accepted.getLsbD 0
    | .keyed h => h ≠ 0 && p.keys.contains h && (ownerKey s h).isSome
    | _ => true

/-- The key id under which a section's lines are written. -/
def sectionKey (s : State) (w : LoadWorld) (x : Section) : Nat :=
  match x.kind with
  | .keyed h => (ownerKey s h).getD 0
  | _ => w.key

/-- An entry of the sealed table for a section's tensor (R10, R181). -/
def tensorEntry (w : LoadWorld) (x : Section) (t : BitVec 32) : BitVec 128 :=
  BitVec.ofNat 128 (1 + 2 ^ 22 * w.key + 2 ^ 32 * ptrVa x.va + 2 ^ 96 * t.toNat)

/-- Does a section need an entry of the sealed table, of 256 entries, when there is none left (R181)? -/
def tableFull (x : Section) (entry : Nat) : Bool := (x.kind matches .sealed _) && 256 ≤ entry

/-- Loads one section; a sealed one takes the next entry of the sealed table. -/
def loadSection (p : Loaded) (w : LoadWorld) (x : Section) (entry : Nat) (frames : List Nat) (s : State) :
    Option (Nat × List Nat × State) :=
  if !sectionOk s p w x || tableFull x entry then none
  else
    match mapPages w entry x (ceilDiv x.bytes.length 65536) frames s with
    | none => none
    | some (frames, s) =>
      match sectionPlaces s w x with
      | none => none
      | some pas =>
        let key := sectionKey s w x
        let s := putPlaces key true (pas.zip (sectionBytes w x)) s
        let s := if key = 0 then
          mapProgram (fun p => { p with pages := pas.foldl (fun l a => insertNew (a / 65536) l) p.pages }) s else s
        match x.kind with
        | .sealed t =>
          let s := s.mapWorlds fun y => if y.key = w.key then
            { y with sealedTable := put 0 y.sealedTable entry (tensorEntry w x t) } else y
          some (entry + 1, frames, s)
        | _ => some (entry, frames, s)

/-- Loads sections in order. -/
def loadSections (p : Loaded) (w : LoadWorld) : List Section → Nat → List Nat → State → Option State
  | [], _, _, s => some s
  | x :: t, entry, frames, s =>
    match loadSection p w x entry frames s with
    | none => none
    | some (entry, frames, s) => loadSections p w t entry frames s

/-! ### The comet queue of a program with a host section (R350) -/

/-- The host of a program's first host section, whose die serves the queue where a program has sections for both
hosts: DESIGN CHOICE, log entry 118. -/
def hostSection (p : Loaded) : Option Bool :=
  p.sections.findSome? fun x => match x.kind with | .host b => some b | _ => none

/-- Entry 0 of the comet queue table: 16 slots, engine 0 of the die that carries the port. -/
def loadQueue (p : Loaded) (w : LoadWorld) (b : Bool) (s : State) : Option State :=
  let die := if b then 2 else 0
  let ring := roundUp (p.queue.toNat + 64) 4096
  let hdr : BitVec 512 := BitVec.ofNat 512 (2 ^ 128 * ring + 2 ^ 192 * 4 + 2 ^ 208 * die + 2 ^ 224 * w.key)
  if p.queue.toNat % 64 ≠ 0 then none
  else
    match moonPlaces s w.key .write p.queue 64, moonPlaces s w.key .write (BitVec.ofNat 64 ring) 1024, s.world w.key with
    | some (hp, hk), some (rp, rk), some y =>
      let s := putPlaces hk true (hp.zip (leBytes 64 hdr.toNat)) s
      let s := putPlaces rk true (rp.map fun a => (a, 0#8)) s
      some (s.setWorld { y with comet := ⟨0, p.queue, die, 0⟩ :: y.comet.filter fun q => q.index ≠ 0 })
    | _, _, _ => none

/-! ### The load -/

/-- The world that a program is loaded for: its handle's, or with handle 0 the anonymous tables, which no key id
belongs to yet. -/
def loadWorld (s : State) (h : BitVec 16) : Option LoadWorld :=
  if h = 0 then some ⟨s.anonRoot, s.anonRoot2, 0, none⟩
  else (handleWorld s h).map fun w => ⟨w.s1root, w.s2root, w.key, w.sealing⟩

/-- The program that a load for anonymous worlds begins (R312): the ranges of its code. -/
def beginProgram (p : Loaded) (s : State) : State :=
  let code := (p.sections.filter fun x => x.kind matches .code).map fun x => (⟨ptrVa x.va, x.bytes.length⟩ : Range)
  if p.handle = 0 then { s with anon := ⟨code, [], [], 0, []⟩ :: s.anon } else s

/-- PROGRAM_LOAD: all of a program or, where the load is refused, nothing of it. For anonymous worlds the
registration of a comet queue alone is refused (R356). DEDUCED, log entry 75. -/
def execProgramLoad (p : Loaded) (s : State) : Out :=
  if s.stage < 5 then .next s
  else
    match loadWorld s p.handle with
    | none => refuseRequest 10 s
    | some w =>
      match loadSections p w p.sections p.entry.toNat p.tables (beginProgram p s) with
      | none => refuseRequest 10 s
      | some s1 =>
        match hostSection p with
        | none => .next s1
        | some b =>
          if p.handle = 0 then refuseRequest 6 s1
          else
          match loadQueue p w b s1 with
          | some s2 => .next s2
          | none => refuseRequest 10 s

end Sys2Proof.Machine
end

