-- ==== Sys2Proof/Machine/Masks.lean ====
section
/-! DEFINITION. Mask instructions (R49, R150). -/

namespace Sys2Proof.Machine

/-- MAND. -/
def execMand (f : Mask2) (s : State) : Out :=
  guarded (.mask2 0x7C f) s fun s =>
    maskResult (.mask2 0x7C f) f.n f.d (s.st.mget f.a.toNat &&& s.st.mget f.b.toNat) s

/-- MOR. -/
def execMor (f : Mask2) (s : State) : Out :=
  guarded (.mask2 0x7D f) s fun s =>
    maskResult (.mask2 0x7D f) f.n f.d (s.st.mget f.a.toNat ||| s.st.mget f.b.toNat) s

/-- MXOR. -/
def execMxor (f : Mask2) (s : State) : Out :=
  guarded (.mask2 0x7E f) s fun s =>
    maskResult (.mask2 0x7E f) f.n f.d (s.st.mget f.a.toNat ^^^ s.st.mget f.b.toNat) s

/-- MNOT: only present lanes' bits are set. -/
def execMnot (f : Mask1) (s : State) : Out :=
  guarded (.mask1 0x7F f) s fun s => maskResult (.mask1 0x7F f) f.n f.d (~~~(s.st.mget f.a.toNat)) s

/-- MMOV. -/
def execMmov (f : Mask1) (s : State) : Out :=
  guarded (.mask1 0x80 f) s fun s => maskResult (.mask1 0x80 f) f.n f.d (s.st.mget f.a.toNat) s

/-- MCNT. -/
def execMcnt (f : MaskS) (s : State) : Out :=
  guarded (.maskS 0x81 f) s fun s =>
    uniResult (.maskS 0x81 f) f.n f.d (BitVec.ofNat 32 (popCount (s.st.mget f.a.toNat))) s

/-- MSAVE: the mask into the pair from sD on (R146). -/
def execMsave (f : MaskS) (s : State) : Out :=
  guarded (.maskS 0x82 f) s fun s => uniResult64 (.maskS 0x82 f) f.n f.d (s.st.mget f.a.toNat) s

/-- MLOAD: the mask from the pair. -/
def execMload (f : MaskL) (s : State) : Out :=
  guarded (.maskL f) s fun s => maskResult (.maskL f) f.n f.d (s.st.sget64 f.a.toNat) s

end Sys2Proof.Machine
end

