-- ==== Sys2Proof/Machine/Memory.lean ====
section
/-! DEFINITION. Device-memory instructions (R233 to R248) and LDA (R260 to R265). -/

namespace Sys2Proof.Machine

/-- The attributes of an instruction with or without its prefix (R61). -/
def attOf (a : Option MemAtt) : MemAtt := a.getD .default

/-- The request of a vector form (R233). -/
def vecReq (what : OpWhat) (kind : Access) (f : MemV) (s : State) : MemReq :=
  { what := what, kind := kind, uni := false, lanes := s.st.mget 0, addr := deviceAddr s f, size := sizeBytes f.sz,
    dst := f.d.toNat, sx := (attOf f.att).sx, att := attOf f.att, escape := false,
    data := fun i => (laneData s f.d.toNat (dataWords f.sz.toNat) i).take (sizeBytes f.sz),
    cmp := fun i =>
      match (attOf f.att).c with
      | some c => if f.sz = 3 then opnd64 s i c else (opnd32 .int s i c).setWidth 64
      | none => 0 }

/-- The request of a uniform form. -/
def uniReq (what : OpWhat) (kind : Access) (f : MemU) (s : State) : MemReq :=
  { what := what, kind := kind, uni := true, lanes := 1, addr := fun _ => deviceAddrU s f, size := sizeBytes f.sz,
    dst := f.d.toNat, sx := (attOf f.att).sx, att := attOf f.att, escape := false,
    data := fun _ => (scalarData s f.d.toNat (dataWords f.sz.toNat)).take (sizeBytes f.sz),
    cmp := fun _ =>
      match (attOf f.att).c with
      | some c => if f.sz = 3 then s.arg64 c else (s.arg c).setWidth 64
      | none => 0 }

/-- LD (R237). -/
def execLd (f : MemV) (s : State) : Out :=
  memRead (.memV 0xA0 f) (fun s => vecReq .ld (.load s.prologue) f s) s
/-- LD.u. -/
def execLdU (f : MemU) (s : State) : Out :=
  memRead (.memU 0xA1 f) (fun s => uniReq .ld (.load s.prologue) f s) s

/-- A store; `check` is the escape check on .d and .q data (R209). -/
def storeReq (check : Bool) (r : MemReq) : MemReq := { r with escape := check && decide (8 ≤ r.size) }

/-- ST (R237). -/
def execSt (f : MemV) (s : State) : Out :=
  memAct (.memV 0xA2 f) (fun s => storeReq true (vecReq .st .store f s)) s
/-- ST.u. -/
def execStU (f : MemU) (s : State) : Out :=
  memAct (.memU 0xA3 f) (fun s => storeReq true (uniReq .st .store f s)) s
/-- STX: no escape check. -/
def execStx (f : MemV) (s : State) : Out :=
  memAct (.memV 0xA4 f) (fun s => storeReq false (vecReq .st .store f s)) s
/-- STX.u. -/
def execStxU (f : MemU) (s : State) : Out :=
  memAct (.memU 0xA5 f) (fun s => storeReq false (uniReq .st .store f s)) s

/-- An atomic's request: its address ignores the bits below its size (R235), and the value that a cas or
xchg of .d writes is checked (R243). -/
def atomReq (r : MemReq) : MemReq :=
  { r with
    addr := fun i => r.addr i &&& ~~~(BitVec.ofNat 64 (r.size - 1))
    escape := decide (r.size = 8) && (r.att.aop = 8 || r.att.aop = 9) }

/-- ATOM (R240). -/
def execAtom (f : MemV) (s : State) : Out :=
  memAct (.memV 0xA6 f) (fun s => atomReq (vecReq .atom (.atomic (attOf f.att).aop.toNat) f s)) s
/-- ATOM.u. -/
def execAtomU (f : MemU) (s : State) : Out :=
  memAct (.memU 0xA7 f) (fun s => atomReq (uniReq .atom (.atomic (attOf f.att).aop.toNat) f s)) s

/-- A tag access reaches the granule of its address; SZ does not widen it (R248). -/
def tagReq (r : MemReq) : MemReq := { r with size := 1, data := fun i => (r.data i).take 1 }

/-- TAGLD (R248). -/
def execTagld (f : MemV) (s : State) : Out := memRead (.memV 0xAB f) (fun s => tagReq (vecReq .tagld .tagld f s)) s
/-- TAGLD.u. -/
def execTagldU (f : MemU) (s : State) : Out := memRead (.memU 0xAC f) (fun s => tagReq (uniReq .tagld .tagld f s)) s
/-- TAGST (R248). -/
def execTagst (f : MemV) (s : State) : Out := memAct (.memV 0xAD f) (fun s => tagReq (vecReq .tagst .tagst f s)) s
/-- TAGST.u. -/
def execTagstU (f : MemU) (s : State) : Out := memAct (.memU 0xAE f) (fun s => tagReq (uniReq .tagst .tagst f s)) s

/-- Operations that an acquire part waits for: the strand's reads, those of its atomics among them whether or not they
return a value (R301). DEDUCED, log entry 44. -/
def acquireSet (t : Strand) : List Op :=
  t.ops.filter fun o => o.what = .ld || o.what = .tagld || o.what = .gld || o.what = .lds
    || ((o.what = .atom || o.what = .gop || o.what = .atoms) && o.use ≠ 2)

/-- Is a qnt atomic of the strand out that a fence of a scope waits for: one whose own SCOPE is no wider (R241, R246)?
DEDUCED, log entry 84. -/
def qntOut (s : State) (scope : Nat) : Bool :=
  decide (3 ≤ scope) &&
    (s.qnt.any (fun q => q.strand = s.st.ref && q.use = 3 && decide (q.scope ≤ scope))
      || s.st.ops.any fun o => o.what = .atom && o.use = 3 && decide (o.scope ≤ scope))

/-- Must a FENCE still wait (R246)? -/
def fenceHeld (s : State) (a : MemAtt) : Bool :=
  (a.ord.getLsbD 1 && (!(releaseSet s.st).isEmpty || !(releaseMSet s).isEmpty))
    || (a.ord.getLsbD 0 && !(acquireSet s.st).isEmpty)
    || qntOut s a.scope.toNat
    || (decide (a.scope.toNat = 4) && s.st.ops.any fun o =>
        (o.what = .st || o.what = .atom || o.what = .promote) && o.lanes.any fun l => l.mtype = 2)

/-- FENCE (R246). Its acquire part invalidates the core's L1 as an acquire does (R239). -/
def execFence (f : FenceF) (s : State) : Out :=
  let a := attOf f.att
  if fenceHeld s a then .next (waitFor .order s)
  else finish (.fence f) (acquireDone (if a.ord.getLsbD 0 then 1 else 0) a.scope.toNat s)

/-- What one lane of a PREF does: a lane whose checks fail, or whose page is not NORMAL, is dropped; in the
prologue an UNCACHED_IO page is a fault (R247, R28). -/
def prefLane (l1 : Bool) (p : DWord) (s : State) : State :=
  match checkAccess s s.wld .strand (dieOf s.blk.core) (.pref s.prologue) false p 1 with
  | .ok parts s' _ =>
    if l1 && parts.all (fun x => x.2.2.mtype = 0 && x.2.2.ord ≠ 0) then
      (linesOf (allPas parts)).foldl (fun s l => l1Fill s.blk.core l s) s'
    else s'
  | .bad _ => s

/-- Does a PREF lane fault: an UNCACHED_IO page in the prologue? -/
def prefFaults (p : DWord) (s : State) : Bool :=
  match checkAccess s s.wld .strand (dieOf s.blk.core) (.pref s.prologue) false p 1 with
  | .bad f => f.code = codePrologue
  | .ok _ _ _ => false

/-- PREF for some lanes. -/
def prefetch (f : Form) (uni l1 : Bool) (lanes : List Nat) (addr : Nat → DWord) (s : State) : Out :=
  match lanes.filter (fun i => prefFaults (addr i) s) with
  | i :: t => deliver { faultAt codePrologue (addr i) with lanes := if uni then 0 else maskOf (i :: t) } s
  | [] => finish f (lanes.foldl (fun s i => prefLane l1 (addr i) s) s)

/-- PREF (R247). -/
def execPref (f : MemV) (s : State) : Out :=
  guarded (.memV 0xA9 f) s fun s =>
    prefetch (.memV 0xA9 f) false (f.sz = 0) (lanesOf (s.st.mget 0)) (deviceAddr s f) s
/-- PREF.u. -/
def execPrefU (f : MemU) (s : State) : Out :=
  guarded (.memU 0xAA f) s fun s => prefetch (.memU 0xAA f) true (f.sz = 0) [0] (fun _ => deviceAddrU s f) s

/-! ### LDA -/

/-- The bytes that an LDA carries per lane (R69). -/
def ldaBytes (f : LdaF) : Nat := 4 * 2 ^ f.lsz.toNat

/-- The scratchpad address of a lane: the bits below min(S, 16) are ignored (R264). -/
def ldaTarget (s : State) (f : LdaF) (lane : Nat) : Nat :=
  alignDown (s.st.sget f.sbase.toNat + s.st.vget f.sidx.toNat lane) (min (ldaBytes f) 16)

/-- The device address of a lane (R264). -/
def ldaSource (s : State) (f : LdaF) (lane : Nat) : DWord :=
  s.st.sget64 f.gbase.toNat + (match f.gidx with | some r => (s.st.vget r.toNat lane).signExtend 64 | none => 0)
    + offset64 f.off

/-- The valid bytes of a lane (R261). -/
def ldaValid (s : State) (f : LdaF) (lane : Nat) : Nat := min (opnd32 .int s lane f.vb).toNat (ldaBytes f)

/-- The request of an LDA; `cmp` holds the scratchpad address. -/
def ldaReq (f : LdaF) (s : State) : MemReq :=
  { what := .lda, kind := .lda, uni := false, lanes := s.st.mget 0, addr := ldaSource s f, size := (ldaBytes f), dst := 0,
    sx := false, att := .default, escape := false, data := fun _ => [],
    cmp := fun i => BitVec.ofNat 64 (ldaTarget s f i) }

/-- The device checks of lanes, each for its valid bytes alone (R265). -/
def ldaLanes (r : MemReq) (valid : Nat → Nat) : List Nat → State → List LaneAcc × List (Nat × FaultInfo) × State
  | [], s => ([], [], s)
  | i :: t, s =>
    if valid i = 0 then
      let q := ldaLanes r valid t s
      (⟨i, 0, r.addr i, [], 1, 0, false, 0, [], r.cmp i, false, false, [], 0⟩ :: q.1, q.2)
    else
      match checkLane { r with size := valid i } i s with
      | .bad f =>
        let q := ldaLanes r valid t s
        (q.1, (i, f) :: q.2.1, q.2.2)
      | .ok parts s' w =>
        let q := ldaLanes r valid t { s' with wld := w }
        (parts.flatMap (laneUnits r i) ++ q.1, q.2)

/-- LDA (R264, R265): bounds of every active lane, then the attempt; `collapsed` holds once every lane has
passed, and the tag then counts it (R260). It issues after the stores of its source bytes whose data a load of
the strand has taken: they are ordered before that load, which has completed (R302, R307). -/
def execLda (f : LdaF) (s : State) : Out :=
  guarded (.lda f) s fun s =>
    if s.prologue then deliver (faultAt codePrologue 0) s
    else
      let r := ldaReq f s
      let all := lanesOf r.lanes
      match all.filter (fun i => ldaTarget s f i + (ldaBytes f) > s.scratchLimit) with
      | i :: t => deliver ⟨0x40, 0, BitVec.ofNat 64 (ldaTarget s f i), 0, 0, maskOf (i :: t)⟩ s
      | [] =>
        let c := ldaLanes r (ldaValid s f) (attemptLanes s r.lanes) s
        match fatal false c.2.1 with
        | some x => deliver x s
        | none =>
          if seenOut s (fun p => c.1.any fun a => a.pas.contains p) then .next (waitFor .order s)
          else
            afterAttempt (.lda f) false c.2.1
              (addOp { opOf r c.1 s with tag := f.tag.toNat, collapsed := c.2.1.isEmpty } c.2.2)

end Sys2Proof.Machine
end

