-- ==== Sys2Proof/Machine/Narrow.lean ====
section
/-! DEFINITION. Narrow formats: QMM, QNT, DQNT, PK3, UPK3, PK4, UPK4 (R93 to R99, R174 to R180). -/

namespace Sys2Proof.Machine

/-- The active lanes' values of A as FP32. -/
def activeVals (s : State) (f : Alu1) : List Val :=
  (lanesOf (s.active f.pre)).map fun i => unpack fp32 (opnd32 .fp s i f.a).toNat

/-- QMM (R174): the minimum below, the maximum above. -/
def execQmm (f : Alu1) (s : State) : Out :=
  guarded (.alu1 0x8A f) s fun s =>
    let xs := (lanesOf (s.active f.pre)).map fun i => (opnd32 .fp s i f.a).toNat
    let r : DWord :=
      match xs with
      | [] => 0
      | x :: t =>
        if xs.any (fun x => unpack fp32 x = .nan) then 0x7FC000007FC00000
        else
          BitVec.ofNat 64 (t.foldl (fpMin fp32 false) x + 2 ^ 32 * t.foldl (fpMax fp32 false) x)
    uniResult64 (.alu1 0x8A f) f.n f.d r s

/-- round_ne(p / q) for a positive q (R6). -/
def roundDiv (p : Int) (q : Nat) : Int :=
  let n := p.natAbs / q
  let r := p.natAbs % q
  let n := if 2 * r > q ∨ (2 * r = q ∧ n % 2 = 1) then n + 1 else n
  if p < 0 then -(n : Int) else n

/-- Exact values as whole numbers of one unit 2^-400: every FP32 value and FP16 value is one. -/
def units (neg : Bool) (m : Nat) (e : Int) : Int := alignTo neg m e (-400)

/-- The units of a value that is not NaN or infinite. -/
def valUnits : Val → Int
  | .fin neg m e => units neg m e
  | _ => 0

/-- Is the value NaN or infinite? -/
def notFinite : Val → Bool
  | .fin _ _ _ => false
  | _ => true

/-- The scale and the zero point that a group's minimum and maximum select (R96, R97). -/
def selectScale (lo hi : Val) (qmin qmax : Int) : Nat × Int :=
  if notFinite lo || notFinite hi then (fp16.nan, 0)
  else
    let l := min (valUnits lo) 0
    let h := max (valUnits hi) 0
    if h = l then (0x3C00, 0)
    else
      let n := (qmax - qmin).toNat
      let s :=
        if h - l > 65504 * (n : Int) * 2 ^ 400 then 0x7BFF
        else roundQuot fp16 rmRUP false false false (h - l).toNat n (-400)
      (s, clamp (roundDiv (qmin * valUnits (unpack fp16 s) - l) (valUnits (unpack fp16 s)).toNat) qmin qmax)

/-- The quantised value of one element (R96, R175). -/
def quantise (s : Nat) (z qmin qmax : Int) (x : Val) : Int :=
  if unpack fp16 s = .nan then 0
  else
    match x with
    | .nan => z
    | .inf neg => if neg then qmin else qmax
    | v => clamp (roundDiv (valUnits v) (valUnits (unpack fp16 s)).toNat + z) qmin qmax

/-- The number of the scalar register that an operand names. -/
def scalarOf : Opnd → Nat
  | .s r => r.toNat
  | _ => 0

/-- QNT.i8 and QNT.i4 (R175): the pair is written whatever N holds. -/
def qnt (op : BitVec 8) (qmin qmax : Int) (f : Alu2) (s : State) : Out :=
  guarded (.alu2 op f) s fun s =>
    let r := scalarOf f.b
    let c := selectScale (unpack fp32 (s.st.sget r).toNat) (unpack fp32 (s.st.sget (r + 1)).toNat) qmin qmax
    let q := fun (i : Nat) => BitVec.ofInt 32 (quantise c.1 c.2 qmin qmax (unpack fp32 (opnd32 .fp s i f.a).toNat))
    let words := laneIds.map q
    vecResult (.alu2 op f) f.pre f.n f.d (fun i => nth 0#32 words i)
      { s with st := (s.st.sset r (BitVec.ofNat 32 c.1)).sset (r + 1) (BitVec.ofInt 32 c.2) }

/-- QNT.i8. -/
def execQntI8 (f : Alu2) (s : State) : Out := qnt 0x8B (-128) 127 f s
/-- QNT.i4. -/
def execQntI4 (f : Alu2) (s : State) : Out := qnt 0x8C (-8) 7 f s

/-- γ as a sum of units over a number of elements, or none when an element is NaN or infinite (R98). -/
def meanAbs (xs : List Val) : Option (Nat × Nat) :=
  if xs.any notFinite then none
  else some (sumBy (fun v => (valUnits v).natAbs) xs, xs.length)

/-- QNT.t3 (R98, R176). -/
def execQntT3 (f : Alu2) (s : State) : Out :=
  guarded (.alu2 0x8D f) s fun s =>
    let r := scalarOf f.b
    let val := fun (i : Nat) => unpack fp32 (opnd32 .fp s i f.a).toNat
    let g := meanAbs ((lanesOf (s.active f.pre)).map val)
    let scale :=
      match g with
      | none => fp16.nan
      | some (sum, n) => if sum = 0 then 0 else min 0x7BFF (roundQuot fp16 rmRNE false false false sum n (-400))
    let trit := fun (i : Nat) =>
      match g with
      | none => (0 : Int)
      | some (sum, n) => if sum = 0 then 0 else clamp (roundDiv (valUnits (val i) * (n : Int)) sum) (-1) 1
    let words := laneIds.map fun i => BitVec.ofInt 32 (trit i)
    vecResult (.alu2 0x8D f) f.pre f.n f.d (fun i => nth 0#32 words i)
      { s with st := (s.st.sset r (BitVec.ofNat 32 scale)).sset (r + 1) 0 }

/-- One dequantised element: s·(q - z) rounded once, zeros signed as a product (R99). -/
def dequantise (s : Nat) (q z : Int) : Word :=
  BitVec.ofNat 32 (pack fp32 rmRNE false false (mulVal (unpack fp16 s) (.fin (q - z < 0) (q - z).natAbs 0)))

/-- DQNT of elements of w bits (R177). -/
def dqnt (op : BitVec 8) (w : Nat) (f : Alu2) (s : State) : Out :=
  guarded (.alu2 op f) s fun s =>
    let r := scalarOf f.b
    let z := ((s.st.sget (r + 1)).setWidth 8).toInt
    vecResult (.alu2 op f) f.pre f.n f.d
      (fun i => dequantise ((s.st.sget r).toNat % 65536) ((opnd32 .int s i f.a).setWidth w).toInt z) s

/-- DQNT.i8. -/
def execDqntI8 (f : Alu2) (s : State) : Out := dqnt 0x8E 8 f s
/-- DQNT.i4. -/
def execDqntI4 (f : Alu2) (s : State) : Out := dqnt 0x8F 4 f s

/-- A of lane k when the lane exists and is present. -/
def sourceA (s : State) (o : Opnd) (k : Int) : Option Word :=
  if k < 0 ∨ k ≥ 64 then none
  else if laneOn s.st.present k.toNat then some (opnd32 .int s k.toNat o) else none

/-- The digit of a lane's trit (R178). -/
def tritDigit : Option Word → Nat
  | none => 1
  | some x => if x = 0 then 1 else if x.msb then 0 else 2

/-- PK3 (R178). -/
def execPk3 (f : Alu2) (s : State) : Out :=
  guarded (.alu2 0x90 f) s fun s => vecResult (.alu2 0x90 f) f.pre f.n f.d
    (fun i =>
      let b := (opnd32 .int s i f.b).toInt
      BitVec.ofNat 32 (sumBy (fun (e : Nat) => 3 ^ e * tritDigit (sourceA s f.a (b + 5 * i + e))) (List.range 5))) s

/-- Digit e of a T5 byte as a trit; an illegal byte decodes as 121 (R93). -/
def tritOf (y e : Nat) : Int := ((if y > 242 then 121 else y) / 3 ^ e % 3 : Nat) - 1

/-- The source lane that lane i of UPK3 or UPK4 reads, and the number of the element in it. -/
def unpackFrom (s : State) (f : Alu2) (n i : Nat) : Int × Nat :=
  let k := (opnd32 .int s i f.b).toInt + i
  (k / (n : Int), (k % (n : Int)).toNat)

/-- UPK3 (R179): illegal bytes fault in strict mode, and are counted, each byte once, in tolerant mode. -/
def execUpk3 (f : Alu2) (s : State) : Out :=
  guarded (.alu2 0x91 f) s fun s =>
    let act := lanesOf (s.active f.pre)
    let bad := fun (i : Nat) =>
      match sourceA s f.a (unpackFrom s f 5 i).1 with
      | some w => decide (w.toNat % 256 > 242)
      | none => false
    let hits := act.filter bad
    if hits ≠ [] ∧ s.grd.tolerant = false then deliver ⟨0x35, 0, 0, 0, 0, maskOf hits⟩ s
    else
      let n := ((hits.map fun i => (unpackFrom s f 5 i).1).eraseDups).length
      let g := fun (i : Nat) =>
        let k := unpackFrom s f 5 i
        match sourceA s f.a k.1 with
        | some w => BitVec.ofInt 32 (tritOf (w.toNat % 256) k.2)
        | none => 0
      let words := laneIds.map g
      vecResult (.alu2 0x91 f) f.pre f.n f.d (fun i => nth 0#32 words i)
        (if n = 0 then s else recordFor s.grd.id 2 n 0 s)

/-- PK4 (R180). -/
def execPk4 (f : Alu2) (s : State) : Out :=
  guarded (.alu2 0x92 f) s fun s => vecResult (.alu2 0x92 f) f.pre f.n f.d
    (fun i =>
      let b := (opnd32 .int s i f.b).toInt
      BitVec.ofNat 32 (sumBy (fun (e : Nat) =>
        match sourceA s f.a (b + 8 * i + e) with
        | some w => 16 ^ e * (clamp w.toInt (-8) 7 % 16).toNat
        | none => 0) (List.range 8))) s

/-- UPK4 (R180). -/
def execUpk4 (f : Alu2) (s : State) : Out :=
  guarded (.alu2 0x93 f) s fun s => vecResult (.alu2 0x93 f) f.pre f.n f.d
    (fun i =>
      let k := unpackFrom s f 8 i
      match sourceA s f.a k.1 with
      | some w => ((w >>> (4 * k.2)).setWidth 4).signExtend 32
      | none => 0) s

end Sys2Proof.Machine
end

