-- ==== Sys2Proof/Machine/OnChip.lean ====
section
/-! DEFINITION. Scratchpad and SBM instructions (R252 to R259): they issue after the checks of R253 and R257
and are performed at the banks by SCRATCHPAD_ACCESS_PERFORMED. -/

namespace Sys2Proof.Machine

/-- The request of a vector form: its addresses are 32 bits (R252). -/
def localVec (what : OpWhat) (f : MemV) (s : State) : MemReq :=
  { vecReq what .store f s with addr := fun i => (localAddr s f i).setWidth 64 }

/-- The request of a uniform form. -/
def localUni (what : OpWhat) (f : MemU) (s : State) : MemReq :=
  { uniReq what .store f s with addr := fun _ => (localAddrU s f).setWidth 64 }

/-- The escape check of an on-chip atomic: cas and xchg of .d (R209). -/
def localAtom (r : MemReq) : MemReq :=
  { r with escape := decide (r.size = 8) && (r.att.aop = 8 || r.att.aop = 9) }

/-- LDS. -/
def execLds (f : MemV) (s : State) : Out := localRead (.memV 0xB0 f) false (localVec .lds f) s
/-- LDS.u. -/
def execLdsU (f : MemU) (s : State) : Out := localRead (.memU 0xB1 f) false (localUni .lds f) s
/-- STS. -/
def execSts (f : MemV) (s : State) : Out :=
  localAct (.memV 0xB2 f) false true (fun s => storeReq true (localVec .sts f s)) s
/-- STS.u. -/
def execStsU (f : MemU) (s : State) : Out :=
  localAct (.memU 0xB3 f) false true (fun s => storeReq true (localUni .sts f s)) s
/-- ATOMS. -/
def execAtoms (f : MemV) (s : State) : Out :=
  localAct (.memV 0xB4 f) false true (fun s => localAtom (localVec .atoms f s)) s
/-- ATOMS.u. -/
def execAtomsU (f : MemU) (s : State) : Out :=
  localAct (.memU 0xB5 f) false true (fun s => localAtom (localUni .atoms f s)) s
/-- GLD. -/
def execGld (f : MemV) (s : State) : Out := localRead (.memV 0xB6 f) true (localVec .gld f) s
/-- GLD.u. -/
def execGldU (f : MemU) (s : State) : Out := localRead (.memU 0xB7 f) true (localUni .gld f) s
/-- GST. -/
def execGst (f : MemV) (s : State) : Out :=
  localAct (.memV 0xB8 f) true true (fun s => storeReq true (localVec .gst f s)) s
/-- GST.u. -/
def execGstU (f : MemU) (s : State) : Out :=
  localAct (.memU 0xB9 f) true true (fun s => storeReq true (localUni .gst f s)) s
/-- GOP. -/
def execGop (f : MemV) (s : State) : Out :=
  localAct (.memV 0xBA f) true true (fun s => localAtom (localVec .gop f s)) s
/-- GOP.u. -/
def execGopU (f : MemU) (s : State) : Out :=
  localAct (.memU 0xBB f) true true (fun s => localAtom (localUni .gop f s)) s

end Sys2Proof.Machine
end

