-- ==== Sys2Proof/Machine/Orrery.lean ====
section
/-! DEFINITION. What orrery does to the device (R118, R187, R189, R195, R207, R313, R352). -/

namespace Sys2Proof.Machine

/-- ORRERY_ATTACH: to a live world (R118). -/
def execOrreryAttach (key : Nat) (s : State) : Out :=
  .next (s.mapWorlds fun w => if w.key = key && w.live then { w with attached := true } else w)

/-- A strand that orrery has stopped runs on, and one that is to stop before its next clause does not. -/
def Strand.unstopped (t : Strand) : Strand :=
  { t with status := if t.status = .stopped then .ready else t.status, bkpt := false }

/-- The strands of a world, resident and saved, run on without orrery. A strand that BKPT has already stopped runs on
at once: DESIGN CHOICE, log entry 90. -/
def resumeStopped (key : Nat) (s : State) : State :=
  (s.mapStrands fun t => if (s.grid t.grid).any fun g => g.key = key then t.unstopped else t).mapGrids fun g =>
    if g.key = key then
      { g with saved := g.saved.map fun v => { v with block := { v.block with strands := v.block.strands.map Strand.unstopped } } }
    else g

/-- ORRERY_DETACH (R118). -/
def execOrreryDetach (key : Nat) (s : State) : Out :=
  .next (resumeStopped key (s.mapWorlds fun w => if w.key = key then { w with attached := false } else w))

/-- ORRERY_SET_PLACE: the core to which the blocks of the debugged root grid go, or none (R195); under key id 0,
those of the root grids that orrery posts for anonymous worlds. -/
def execOrrerySetPlace (key : Nat) (core : Option Nat) (s : State) : Out :=
  let others := s.placed.filter fun x => x.1 ≠ key
  .next { s with placed := match core with | some c => (key, c) :: others | none => others }

/-- ORRERY_CONTINUE: a stopped strand runs on (R313). -/
def execOrreryContinue (r : StrandRef) (s : State) : Out :=
  .next (mapStrandRef r (fun _ t => if t.status = .stopped then { t with status := .ready } else t)
    (fun t => if t.status = .stopped then { t with status := .ready } else t) s)

/-- ORRERY_POST: the record at an address is posted, on behalf of a host, to the queue that it names (R313); of
one posted by `run` it is kept that orrery attaches to its world (R118). DEDUCED, log entry 77. -/
def execOrreryPost (x : PostAs) (va : DWord) (s0 : State) : Out :=
  let s := moonCheck x.key .read va 64 s0
  match moonRead s x.key .read va 64 with
  | none => .next s
  | some (pas, _) =>
    let image := pas.map s.readByte
    match s.queue (field (BitVec.ofNat 512 (leNat image)) 16 10) with
    | none => .next s
    | some q =>
      let s := queueHeaderCheck q s
      match queueHeader s q with
      | none => .next s
      | some (k, h) =>
        if h.full then .next s
        else
          match postImage k h image s, moonPlaces s k .write (h.slot h.write) 1 with
          | some s, some (p, _) => .next { s with
              hostSlots := p.foldl (fun l a => insertNew a l) s.hostSlots
              posted := if x.run then (q.index, h.write) :: s.posted else s.posted }
          | _, _ => .next s

/-! ### Reading and writing (R189) -/

/-- The record of an access to a sealed page or an operand slot. -/
def debugRecord (key : Nat) (addr : DWord) (extra : Nat) (s : State) : State :=
  recordForWorld key (plainRecord s.free 0x34 1 0 addr 0 (BitVec.ofNat 32 extra) 0) s

/-- What orrery reads in parts of a range: its bytes, and whether it touches a sealed page; a page of an arena that is
not backed reads as zeros and draws none (R202); none when a part does not translate. -/
def orreryParts (s : State) (w : World) (size : Nat) : List (Nat × DWord × Nat) → Option (List Byte × Bool)
  | [] => some ([], false)
  | (_, p, n) :: t =>
    match orreryParts s w size t with
    | none => none
    | some (l, sealed) =>
      match checkPart s w .moon 0 .read false size p n with
      | .ok part _ _ => some (part.pas.map s.readByte ++ l, sealed || part.mtype = 1)
      | .bad f => if f.code = codeArenaExhausted then some (List.replicate n 0#8 ++ l, sealed) else none

/-- What orrery reads in a range of a world's memory; key id 0 names the tables of anonymous worlds. -/
def orreryRange (key : Nat) (va : DWord) (n : Nat) (s : State) : Option (List Byte × Bool) :=
  match tablesOf s key with
  | none => none
  | some w => orreryParts s w n (partsOf va n (n / 65536 + 2) 0)

/-- The parts of a range that orrery writes to, its unbacked arena pages drawn as by a first touch, from a pool
that is refilled where it is empty (R202, R203); none where the world has no memory left to give. The session of
R196 writes to pages whose W is 0 (R381), so the permission to write is not asked for. DEDUCED, log entry 76. -/
def orreryDraw (key : Nat) (va : DWord) (n : Nat) : Nat → State → Option (List (Nat × DWord × PagePart) × State)
  | 0, _ => none
  | k + 1, s =>
    match tablesOf s key with
    | none => none
    | some w =>
      match checkAccess s w .moon 0 .read true va n with
      | .ok parts s' w' => some (parts, s'.setWorld w')
      | .bad f =>
        match emptyPool f 0 with
        | some (d, big) => if poolServed s key d big then orreryDraw key va n k (refill key d big 1 s) else none
        | none => none

/-- Shows bytes to orrery. -/
def shown (l : List Byte) (s : State) : Out := .next { s with orrery := l }

/-- Words as bytes. -/
def wordBytes (l : List Word) : List Byte := l.flatMap fun w => leBytes 4 w.toNat

/-- Shows something of a strand. -/
def showStrand (r : StrandRef) (s : State) (f : State → List Byte) : Out :=
  match s.focus r with
  | some s' => shown (f s') s
  | none => .next s

/-- Shows something of a block, with its grid. -/
def showBlock (b : BlockRef) (s : State) (f : State → List Byte) : Out :=
  match s.focusBlock b with
  | some s' => shown (f s') s
  | none => .next s

/-- The slot record (R207). -/
def slotRecord (free : Nat) (r : SlotRec) : BitVec 256 :=
  BitVec.ofNat 256 (2 ^ 236 * r.gen.toNat + 2 ^ 234 * r.state + 2 ^ 232 * r.cls + 2 ^ 222 * r.world
    + 2 ^ 190 * (r.wrapEpoch % 2 ^ 32) + 2 ^ 152 * capField free r.cursor + 2 ^ 114 * capField free r.cap + 2 ^ 62 * r.map
    + 2 ^ 44 * r.pages.length)

/-- An entry of a slot's page map (R207). -/
def mapEntry (r : SlotRec) (page : Nat) : DWord :=
  match r.pages.lookup page with
  | some pa => BitVec.ofNat 64 (2 ^ 63 + pa)
  | none => 0

/-- The first n bytes of a slot's page map: one entry for each page of the cap. -/
def mapBytes (r : SlotRec) (n : Nat) : List Byte :=
  ((List.range (min (r.cap / slotPage r.id) (ceilDiv n 8))).flatMap fun k => leBytes 8 (mapEntry r k).toNat).take n

/-- The state record of an ingest key slot (R352). -/
def keySlotRecord (k : KeySlot) : BitVec 128 :=
  BitVec.ofNat 128 ((if k.loaded then 1 else 0) + (if k.long then 2 else 0) + (if k.accepted then 4 else 0)
    + 2 ^ 32 * k.keyid + 2 ^ 64 * k.last.toNat)

/-- ORRERY_READ: sealed pages and operand slots read as zeros, with a record (R189). DEDUCED, log entry 76.
After a slot's record stands its page map, as MAP names it. DESIGN CHOICE, log entry 106. -/
def execOrreryRead (t : OrreryTarget) (len : Nat) (s : State) : Out :=
  match t with
  | .memory key va =>
    match orreryRange key va len s with
    | none => .next s
    | some (l, true) => shown (List.replicate l.length 0#8) (debugRecord key va len s)
    | some (l, false) => shown l s
  | .vreg r n => showStrand r s fun s' => wordBytes (laneIds.map fun l => s'.st.vget n.toNat l)
  | .sreg r n => showStrand r s fun s' => wordBytes [s'.st.sget n.toNat]
  | .mreg r n => showStrand r s fun s' => leBytes 8 (s'.st.mget n.toNat).toNat
  | .kacc r => showStrand r s fun s' => kaccBytes s'.st.k
  | .special r x => showStrand r s fun s' => leBytes 8 (special s' x.toNat).toNat
  | .scratch b off => showBlock b s fun s' => Memory.readBytes s'.blk.scratch off (min len (s'.scratchLimit - off))
  | .sbm g die off =>
    match s.grid g with
    | some x => shown (Memory.readBytes x.sbm (die * 2 ^ 32 + off) (min len (x.sbmBytes - off))) s
    | none => .next s
  | .slot b n =>
    match s.grid b.grid with
    | some g => shown (List.replicate 4096 0#8) (debugRecord g.key 0 n s)
    | none => .next s
  | .descriptor b n => showBlock b s fun s' => leBytes 32 (slotDescriptor (s'.blk.slot n)).toNat
  | .token b => showBlock b s fun s' => leBytes 4 ((s'.blk.token.map (· + 1)).getD 0)
  | .tile b n => showBlock b s fun s' => wordBytes ((List.range 32).flatMap fun i => (List.range 128).map fun j =>
      (s'.blk.tile n).at_ i j)
  | .arena id =>
    let r := slotRec s id
    shown (leBytes 32 (slotRecord s.free r).toNat ++ mapBytes r (len - 32)) s
  | .keySlot key n =>
    match s.world key with
    | some w => shown (leBytes 16 (keySlotRecord (keySlotOf w n)).toNat) s
    | none => .next s

/-- Changes a strand that orrery writes to. -/
def pokeInto (r : StrandRef) (f : Strand → Strand) (s : State) : Out := .next (mapStrandRef r (fun _ t => f t) f s)

/-- ORRERY_WRITE: writes to sealed pages and operand slots are discarded, with a record (R189); what orrery may only
read stays as it is. DEDUCED, log entry 76. A write of a scalar register ends its promise mark (R45) as an
instruction's write does: DESIGN CHOICE, log entry 89. -/
def execOrreryWrite (t : OrreryTarget) (bytes : List Byte) (s : State) : Out :=
  let words := wordList bytes
  match t with
  | .memory key va =>
    match orreryDraw key va bytes.length (bytes.length / 65536 + 4) s with
    | none => .next s
    | some (parts, s') =>
      if parts.any fun x => x.2.2.mtype = 1 then .next (debugRecord key va bytes.length s)
      else .next (performEWrites (allPas parts) (writesTo parts (plainData bytes)) s')
  | .vreg r n => pokeInto r (fun t => (words.take 64).zipIdx.foldl (fun t x => t.vsetLane n.toNat x.2 x.1) t) s
  | .sreg r n => pokeInto r (fun t => match words with | w :: _ => t.sset n.toNat w | [] => t) s
  | .mreg r n => pokeInto r (fun t => t.mset n.toNat (BitVec.ofNat 64 (leNat (bytes.take 8)))) s
  | .scratch b off =>
    match s.focusBlock b with
    | some s' =>
      if off + bytes.length ≤ s'.scratchLimit then
        .next (chipWrite false (((List.range bytes.length).map (off + ·)).zip bytes) s')
      else .next s
    | none => .next s
  | .sbm g die off =>
    match s.focusGrid g with
    | some s' =>
      if off + bytes.length ≤ s'.grd.sbmBytes then
        .next (chipWrite true (((List.range bytes.length).map (die * 2 ^ 32 + off + ·)).zip bytes) s')
      else .next s
    | none => .next s
  | .slot b n =>
    match s.grid b.grid with
    | some g => .next (debugRecord g.key 0 n s)
    | none => .next s
  | _ => .next s

end Sys2Proof.Machine
end

