-- ==== Sys2Proof/Machine/Replay.lean ====
section
/-! DEFINITION. REPLAY_RESOLVED: the moon cores report that a replayable fault has been resolved, or that its resolution
has been declined (R8, R188, R226, R230, R274, R346). -/

namespace Sys2Proof.Machine

/-- A parked OLDW of the focus strand fails. -/
def dropParkedLoad (s : State) : State :=
  match parkedLoad s with
  | some m => loadFails m.seq m.slot s
  | none => s

/-- A parked strand runs the next attempt over its unfinished lanes, or takes its fault. -/
def replayStrand (r : StrandRef) (ok : Bool) (s : State) : Out :=
  match s.focus r with
  | none => .next s
  | some s' =>
    match s'.st.status with
    | .parked f left =>
      if ok then .next { s' with st := { s'.st with status := .ready, attempt := some left } }
      else if f.code = codeStage2 then
        .next (outerDeclined 0 s'.grd.id s'.grd.key f.addr (dropParkedLoad s'))
      else deliver f (dropParkedLoad s')
    | _ => .next s

/-- A stalled packet goes on, or ends with its address fault. -/
def replayPacket (n : Nat) (ok : Bool) (s : State) : Out :=
  match s.packets.find? fun p => p.num = n with
  | none => .next s
  | some p =>
    match p.stalled with
    | none => .next s
    | some (f, _) =>
      let s1 := setPacket { p with stalled := none, declined := !ok } s
      .next (if !ok && f.code = codeStage2 then
          outerDeclined 2 ((s.world p.key).getD .blank).root p.key f.addr s1
        else s1)

/-- The read of an argument block is made again, or the grid ends (R8). -/
def replayArgs (g : Nat) (ok : Bool) (s : State) : Out :=
  match s.grid g with
  | none => .next s
  | some x =>
    match x.argsFault with
    | none => .next s
    | some f =>
      let s1 := mapGrid g (fun x => { x with argsFault := none }) s
      if ok then .next s1
      else if f.code = codeStage2 then .next (outerDeclined 5 g x.key f.addr s1)
      else .next (argsEnd x f s1)

/-- A pending write to a fault area is made again; declined, or with the world gone, the area is unreachable:
its owner is told, and the grid ends (R346). -/
def replayRecord (n : Nat) (ok : Bool) (s : State) : Out :=
  match s.pendingRecords.find? fun r => r.num = n with
  | none => .next s
  | some r =>
    let s1 := { s with pendingRecords := s.pendingRecords.filter fun x => x.num ≠ n }
    let gone := fun (rec : BitVec 512) => Host.Outcome.next (endGrid r.grid 0 (tell (.unreachable r.key rec) s1))
    match s1.world r.key with
    | none => gone r.record
    | some w =>
      match writeArea s1 w r.area r.what r.rise r.record with
      | .done s2 => .next s2
      | .wait _ =>
        if ok then .next s
        else gone (if r.what = 0 then r.record else raisedHeader s1 w r.area r.what r.rise)
      | .unreachable rec => gone rec

/-- The word of a WAITVAL record is read again; or, declined, the fault of the read is recorded with its own
code (R343, R344), a stage-2 fault with the virtual address only and with the end of the world (R226). DEDUCED,
log entry 101. -/
def replayWatch (q order : Nat) (ok : Bool) (s : State) : Out :=
  match s.watches.find? fun x => x.queue = q && x.order = order with
  | none => .next s
  | some x =>
    match x.fault with
    | none => .next s
    | some f =>
      if !replayable f.code || x.declined then .next s
      else if ok then .next (setWatch { x with fault := none } s)
      else
        let s1 := setWatch { x with declined := true } s
        .next (if f.code = codeStage2 then
            endGrids x.key codeStage2 (recordForWorld x.key (plainRecord s.free codeStage2 5 0 f.addr 0 0 0) s1)
          else watchRecord x f s1)

/-- REPLAY_RESOLVED. -/
def execReplayResolved (w : ReplayTarget) (ok : Bool) (s : State) : Out :=
  match w with
  | .strand r => replayStrand r ok s
  | .packet n => replayPacket n ok s
  | .args g => replayArgs g ok s
  | .restore b => restore (!ok) b s
  | .record n => replayRecord n ok s
  | .watch q order => replayWatch q order ok s

end Sys2Proof.Machine
end

