-- ==== Sys2Proof/Machine/Scalar.lean ====
section
/-! DEFINITION. Scalar instructions (R129 to R132). Each is uniform and runs once. -/

namespace Sys2Proof.Machine

/-- A scalar instruction with operands A and B, after the check of its reads. -/
def scalarOp (op : BitVec 8) (f : Alu2) (s : State) (k : State → Out) : Out := guarded (.alu2 op f) s k

/-- SADD (R129). -/
def execSadd (f : Alu2) (s : State) : Out :=
  scalarOp 0x20 f s fun s => uniResult (.alu2 0x20 f) f.n f.d ((s.arg f.a) + (s.arg f.b)) s

/-- SADD.d. -/
def execSaddD (f : Alu2) (s : State) : Out :=
  scalarOp 0x21 f s fun s => uniResult64 (.alu2 0x21 f) f.n f.d ((s.arg64 f.a) + (s.arg64 f.b)) s

/-- SSUB. -/
def execSsub (f : Alu2) (s : State) : Out :=
  scalarOp 0x22 f s fun s => uniResult (.alu2 0x22 f) f.n f.d ((s.arg f.a) - (s.arg f.b)) s

/-- SSUB.d. -/
def execSsubD (f : Alu2) (s : State) : Out :=
  scalarOp 0x23 f s fun s => uniResult64 (.alu2 0x23 f) f.n f.d ((s.arg64 f.a) - (s.arg64 f.b)) s

/-- SMUL: the low 32 bits. -/
def execSmul (f : Alu2) (s : State) : Out :=
  scalarOp 0x24 f s fun s => uniResult (.alu2 0x24 f) f.n f.d ((s.arg f.a) * (s.arg f.b)) s

/-- SMUL.d: the low 64 bits. -/
def execSmulD (f : Alu2) (s : State) : Out :=
  scalarOp 0x25 f s fun s => uniResult64 (.alu2 0x25 f) f.n f.d ((s.arg64 f.a) * (s.arg64 f.b)) s

/-- SMULH.s: bits [63:32] of the signed product. -/
def execSmulhS (f : Alu2) (s : State) : Out :=
  scalarOp 0x26 f s fun s => uniResult (.alu2 0x26 f) f.n f.d (mulHighS (s.arg f.a) (s.arg f.b)) s

/-- SMULH.ui: bits [63:32] of the unsigned product. -/
def execSmulhUi (f : Alu2) (s : State) : Out :=
  scalarOp 0x27 f s fun s => uniResult (.alu2 0x27 f) f.n f.d (mulHighU (s.arg f.a) (s.arg f.b)) s

/-- SAND. -/
def execSand (f : Alu2) (s : State) : Out :=
  scalarOp 0x28 f s fun s => uniResult (.alu2 0x28 f) f.n f.d ((s.arg f.a) &&& (s.arg f.b)) s

/-- SOR. -/
def execSor (f : Alu2) (s : State) : Out :=
  scalarOp 0x29 f s fun s => uniResult (.alu2 0x29 f) f.n f.d ((s.arg f.a) ||| (s.arg f.b)) s

/-- SXOR. -/
def execSxor (f : Alu2) (s : State) : Out :=
  scalarOp 0x2A f s fun s => uniResult (.alu2 0x2A f) f.n f.d ((s.arg f.a) ^^^ (s.arg f.b)) s

/-- SSEL: A when C is not 0, else B. -/
def execSsel (f : Alu2) (s : State) : Out :=
  scalarOp 0x2B f s fun s => uniResult (.alu2 0x2B f) f.n f.d (if s.arg (fourthOf f.pre) ≠ 0 then (s.arg f.a) else (s.arg f.b)) s

/-- SSHL (R130). -/
def execSshl (f : Alu2) (s : State) : Out :=
  scalarOp 0x2C f s fun s => uniResult (.alu2 0x2C f) f.n f.d (shiftLeft (s.arg f.a) (s.arg f.b)) s

/-- SSHR. -/
def execSshr (f : Alu2) (s : State) : Out :=
  scalarOp 0x2D f s fun s => uniResult (.alu2 0x2D f) f.n f.d (shiftRight (s.arg f.a) (s.arg f.b)) s

/-- SSRA. -/
def execSsra (f : Alu2) (s : State) : Out :=
  scalarOp 0x2E f s fun s => uniResult (.alu2 0x2E f) f.n f.d (shiftArith (s.arg f.a) (s.arg f.b)) s

/-- SSHL.d: the count is read as 32 bits. -/
def execSshlD (f : Alu2) (s : State) : Out :=
  scalarOp 0x2F f s fun s => uniResult64 (.alu2 0x2F f) f.n f.d (shiftLeft (s.arg64 f.a) (s.arg f.b)) s

/-- SSHR.d. -/
def execSshrD (f : Alu2) (s : State) : Out :=
  scalarOp 0x30 f s fun s => uniResult64 (.alu2 0x30 f) f.n f.d (shiftRight (s.arg64 f.a) (s.arg f.b)) s

/-- SSRA.d. -/
def execSsraD (f : Alu2) (s : State) : Out :=
  scalarOp 0x31 f s fun s => uniResult64 (.alu2 0x31 f) f.n f.d (shiftArith (s.arg64 f.a) (s.arg f.b)) s

/-- SCMP.eq (R131). -/
def execScmpEq (f : Alu2) (s : State) : Out :=
  scalarOp 0x32 f s fun s => uniResult (.alu2 0x32 f) f.n f.d (if (s.arg f.a) = (s.arg f.b) then 1#32 else 0#32) s

/-- SCMP.ne. -/
def execScmpNe (f : Alu2) (s : State) : Out :=
  scalarOp 0x33 f s fun s => uniResult (.alu2 0x33 f) f.n f.d (if (s.arg f.a) ≠ (s.arg f.b) then 1#32 else 0#32) s

/-- SCMP.lt, signed. -/
def execScmpLt (f : Alu2) (s : State) : Out :=
  scalarOp 0x34 f s fun s => uniResult (.alu2 0x34 f) f.n f.d (if (s.arg f.a).slt (s.arg f.b) then 1#32 else 0#32) s

/-- SCMP.le, signed. -/
def execScmpLe (f : Alu2) (s : State) : Out :=
  scalarOp 0x35 f s fun s => uniResult (.alu2 0x35 f) f.n f.d (if (s.arg f.a).sle (s.arg f.b) then 1#32 else 0#32) s

/-- SCMP.ltu. -/
def execScmpLtu (f : Alu2) (s : State) : Out :=
  scalarOp 0x36 f s fun s => uniResult (.alu2 0x36 f) f.n f.d (if (s.arg f.a).ult (s.arg f.b) then 1#32 else 0#32) s

/-- SCMP.leu. -/
def execScmpLeu (f : Alu2) (s : State) : Out :=
  scalarOp 0x37 f s fun s => uniResult (.alu2 0x37 f) f.n f.d (if (s.arg f.a).ule (s.arg f.b) then 1#32 else 0#32) s

/-- SCMP.eq.d, on pairs. -/
def execScmpEqD (f : Alu2) (s : State) : Out :=
  scalarOp 0x38 f s fun s => uniResult (.alu2 0x38 f) f.n f.d (if (s.arg64 f.a) = (s.arg64 f.b) then 1#32 else 0#32) s

/-- SCMP.ne.d. -/
def execScmpNeD (f : Alu2) (s : State) : Out :=
  scalarOp 0x39 f s fun s => uniResult (.alu2 0x39 f) f.n f.d (if (s.arg64 f.a) ≠ (s.arg64 f.b) then 1#32 else 0#32) s

/-- SMOV. -/
def execSmov (f : Alu1) (s : State) : Out :=
  guarded (.alu1 0x3A f) s fun s => uniResult (.alu1 0x3A f) f.n f.d (s.arg f.a) s

/-- SMOV.d. -/
def execSmovD (f : Alu1) (s : State) : Out :=
  guarded (.alu1 0x3B f) s fun s => uniResult64 (.alu1 0x3B f) f.n f.d (s.arg64 f.a) s

/-- SMOVI (R132): IMM sign-extended. -/
def execSmovi (f : AluImm) (s : State) : Out := uniResult (.imm 0x3C f) f.n f.d (f.imm.signExtend 32) s

/-- SMOVI.hi (R132): bits [31:16] become IMM and bits [15:0] stay; under N the register is read alone. -/
def execSmoviHi (f : AluImm) (s : State) : Out :=
  guarded (.imm 0x3D f) s fun s =>
    uniResult (.imm 0x3D f) f.n f.d (f.imm ++ (s.st.sget f.d.toNat).setWidth 16) s

end Sys2Proof.Machine
end

