-- ==== Sys2Proof/Machine/VectorFp.lean ====
section
/-! DEFINITION. Vector floating-point instructions (R140 to R143). -/

namespace Sys2Proof.Machine

/-- Two elements of a format, each computed alone (R86, R141). -/
def packedFma (f : Fmt) (rm : Nat) (ftz : Bool) (a b c : Word) : Word :=
  let lo := fpFma f rm ftz (a.toNat % 65536) (b.toNat % 65536) (c.toNat % 65536)
  let hi := fpFma f rm ftz (a.toNat / 65536) (b.toNat / 65536) (c.toNat / 65536)
  BitVec.ofNat 32 (lo + 65536 * hi)

/-- VFADD (R140). -/
def execVfadd (f : Alu2) (s : State) : Out :=
  guarded (.alu2 0x62 f) s fun s => vecResult (.alu2 0x62 f) f.pre f.n f.d
    (fun i => BitVec.ofNat 32 (fpAdd fp32 (rmOf f.pre) (ftzOf f.pre) (opnd32 .fp s i f.a).toNat (opnd32 .fp s i f.b).toNat)) s

/-- VFSUB (R140). -/
def execVfsub (f : Alu2) (s : State) : Out :=
  guarded (.alu2 0x63 f) s fun s => vecResult (.alu2 0x63 f) f.pre f.n f.d
    (fun i => BitVec.ofNat 32 (fpSub fp32 (rmOf f.pre) (ftzOf f.pre) (opnd32 .fp s i f.a).toNat (opnd32 .fp s i f.b).toNat)) s

/-- VFMUL (R140). -/
def execVfmul (f : Alu2) (s : State) : Out :=
  guarded (.alu2 0x64 f) s fun s => vecResult (.alu2 0x64 f) f.pre f.n f.d
    (fun i => BitVec.ofNat 32 (fpMul fp32 (rmOf f.pre) (ftzOf f.pre) (opnd32 .fp s i f.a).toNat (opnd32 .fp s i f.b).toNat)) s

/-- VFMA: one rounding. -/
def execVfma (f : Alu2) (s : State) : Out :=
  guarded (.alu2 0x65 f) s fun s => vecResult (.alu2 0x65 f) f.pre f.n f.d
    (fun i => BitVec.ofNat 32 (fpFma fp32 (rmOf f.pre) (ftzOf f.pre) (opnd32 .fp s i f.a).toNat
      (opnd32 .fp s i f.b).toNat (opnd32 .fp s i (fourthOf f.pre)).toNat)) s

/-- VHFMA.bf16 (R141). -/
def execVhfmaBf16 (f : Alu2) (s : State) : Out :=
  guarded (.alu2 0x66 f) s fun s => vecResult (.alu2 0x66 f) f.pre f.n f.d
    (fun i => packedFma bf16 (rmOf f.pre) (ftzOf f.pre) (opnd32 .bf16 s i f.a) (opnd32 .bf16 s i f.b)
      (opnd32 .bf16 s i (fourthOf f.pre))) s

/-- VHFMA.f16. -/
def execVhfmaF16 (f : Alu2) (s : State) : Out :=
  guarded (.alu2 0x67 f) s fun s => vecResult (.alu2 0x67 f) f.pre f.n f.d
    (fun i => packedFma fp16 (rmOf f.pre) (ftzOf f.pre) (opnd32 .f16 s i f.a) (opnd32 .f16 s i f.b)
      (opnd32 .f16 s i (fourthOf f.pre))) s

/-- VFMIN (R90). -/
def execVfmin (f : Alu2) (s : State) : Out :=
  guarded (.alu2 0x68 f) s fun s => vecResult (.alu2 0x68 f) f.pre f.n f.d
    (fun i => BitVec.ofNat 32 (fpMin fp32 (ftzOf f.pre) (opnd32 .fp s i f.a).toNat (opnd32 .fp s i f.b).toNat)) s

/-- VFMAX. -/
def execVfmax (f : Alu2) (s : State) : Out :=
  guarded (.alu2 0x69 f) s fun s => vecResult (.alu2 0x69 f) f.pre f.n f.d
    (fun i => BitVec.ofNat 32 (fpMax fp32 (ftzOf f.pre) (opnd32 .fp s i f.a).toNat (opnd32 .fp s i f.b).toNat)) s

/-- VFCMP (R90, R140). -/
def execVfcmp (f : Alu2) (s : State) : Out :=
  guarded (.alu2 0x6A f) s fun s => cmpResult (.alu2 0x6A f) f.pre f.n f.d
    (fun i => fpCmp (f.d.toNat / 16) (ftzOf f.pre) (opnd32 .fp s i f.a).toNat (opnd32 .fp s i f.b).toNat) s

/-- VFRCP (R142). -/
def execVfrcp (f : Alu1) (s : State) : Out :=
  guarded (.alu1 0x6B f) s fun s => vecResult (.alu1 0x6B f) f.pre f.n f.d
    (fun i => BitVec.ofNat 32 (fpRcp (rmOf f.pre) (ftzOf f.pre) (opnd32 .fp s i f.a).toNat)) s

/-- VFRSQ. -/
def execVfrsq (f : Alu1) (s : State) : Out :=
  guarded (.alu1 0x6C f) s fun s => vecResult (.alu1 0x6C f) f.pre f.n f.d
    (fun i => BitVec.ofNat 32 (fpRsq (rmOf f.pre) (ftzOf f.pre) (opnd32 .fp s i f.a).toNat)) s

/-- VEXP2 (R92, R142). -/
def execVexp2 (f : Alu1) (s : State) : Out :=
  guarded (.alu1 0x6D f) s fun s => vecResult (.alu1 0x6D f) f.pre f.n f.d
    (fun i => BitVec.ofNat 32 (fpExp2 (ftzOf f.pre) (opnd32 .fp s i f.a).toNat)) s

/-- VLOG2. -/
def execVlog2 (f : Alu1) (s : State) : Out :=
  guarded (.alu1 0x6E f) s fun s => vecResult (.alu1 0x6E f) f.pre f.n f.d
    (fun i => BitVec.ofNat 32 (fpLog2 (ftzOf f.pre) (opnd32 .fp s i f.a).toNat)) s

/-- VFSIN. -/
def execVfsin (f : Alu1) (s : State) : Out :=
  guarded (.alu1 0x6F f) s fun s => vecResult (.alu1 0x6F f) f.pre f.n f.d
    (fun i => BitVec.ofNat 32 (fpSin (ftzOf f.pre) (opnd32 .fp s i f.a).toNat)) s

/-- VFCOS. -/
def execVfcos (f : Alu1) (s : State) : Out :=
  guarded (.alu1 0x70 f) s fun s => vecResult (.alu1 0x70 f) f.pre f.n f.d
    (fun i => BitVec.ofNat 32 (fpCos (ftzOf f.pre) (opnd32 .fp s i f.a).toNat)) s

/-- The position of VFCVT's operand by the conversion. -/
def cvtPos (x : BitVec 8) : Pos :=
  if x < 2 then .int else if x = 4 ∨ x = 5 then .f16 else if x = 6 ∨ x = 7 then .bf16 else .fp

/-- VFCVT (R143). -/
def execVfcvt (f : AluX) (s : State) : Out :=
  guarded (.aluX 0x71 f) s fun s => vecResult (.aluX 0x71 f) f.pre f.n f.d
    (fun i => fpCvt f.x.toNat (rmOf f.pre) (satOf f.pre) (ftzOf f.pre) (opnd32 (cvtPos f.x) s i f.a)) s

end Sys2Proof.Machine
end

