-- ==== Sys2Proof/Machine/VectorInt.lean ====
section
/-! DEFINITION. Vector integer instructions (R135 to R139). -/

namespace Sys2Proof.Machine

/-- VADD (R135, R136). -/
def execVadd (f : Alu2) (s : State) : Out :=
  guarded (.alu2 0x40 f) s fun s => vecResult (.alu2 0x40 f) f.pre f.n f.d
    (fun i => addSat (satOf f.pre) (opnd32 .int s i f.a) (opnd32 .int s i f.b)) s

/-- VADD.d. -/
def execVaddD (f : Alu2) (s : State) : Out :=
  guarded (.alu2 0x41 f) s fun s => vecResult64 (.alu2 0x41 f) f.pre f.n f.d
    (fun i => addSat (satOf f.pre) (opnd64 s i f.a) (opnd64 s i f.b)) s

/-- VSUB. -/
def execVsub (f : Alu2) (s : State) : Out :=
  guarded (.alu2 0x42 f) s fun s => vecResult (.alu2 0x42 f) f.pre f.n f.d
    (fun i => subSat (satOf f.pre) (opnd32 .int s i f.a) (opnd32 .int s i f.b)) s

/-- VSUB.d. -/
def execVsubD (f : Alu2) (s : State) : Out :=
  guarded (.alu2 0x43 f) s fun s => vecResult64 (.alu2 0x43 f) f.pre f.n f.d
    (fun i => subSat (satOf f.pre) (opnd64 s i f.a) (opnd64 s i f.b)) s

/-- VMUL. -/
def execVmul (f : Alu2) (s : State) : Out :=
  guarded (.alu2 0x44 f) s fun s => vecResult (.alu2 0x44 f) f.pre f.n f.d
    (fun i => (opnd32 .int s i f.a) * (opnd32 .int s i f.b)) s

/-- VMULH.s. -/
def execVmulhS (f : Alu2) (s : State) : Out :=
  guarded (.alu2 0x45 f) s fun s => vecResult (.alu2 0x45 f) f.pre f.n f.d
    (fun i => mulHighS (opnd32 .int s i f.a) (opnd32 .int s i f.b)) s

/-- VMULH.ui. -/
def execVmulhUi (f : Alu2) (s : State) : Out :=
  guarded (.alu2 0x46 f) s fun s => vecResult (.alu2 0x46 f) f.pre f.n f.d
    (fun i => mulHighU (opnd32 .int s i f.a) (opnd32 .int s i f.b)) s

/-- VMAD. -/
def execVmad (f : Alu2) (s : State) : Out :=
  guarded (.alu2 0x47 f) s fun s => vecResult (.alu2 0x47 f) f.pre f.n f.d
    (fun i => madSat (satOf f.pre) (opnd32 .int s i f.a) (opnd32 .int s i f.b) (opnd32 .int s i (fourthOf f.pre))) s

/-- VDOT4.s8 (R137). -/
def execVdot4S8 (f : Alu2) (s : State) : Out :=
  guarded (.alu2 0x48 f) s fun s => vecResult (.alu2 0x48 f) f.pre f.n f.d
    (fun i => dot4 true true (satOf f.pre) (opnd32 .int s i f.a) (opnd32 .int s i f.b) (opnd32 .int s i (fourthOf f.pre))) s

/-- VDOT4.ui8. -/
def execVdot4Ui8 (f : Alu2) (s : State) : Out :=
  guarded (.alu2 0x49 f) s fun s => vecResult (.alu2 0x49 f) f.pre f.n f.d
    (fun i => dot4 false false (satOf f.pre) (opnd32 .int s i f.a) (opnd32 .int s i f.b) (opnd32 .int s i (fourthOf f.pre))) s

/-- VDOT4.mix. -/
def execVdot4Mix (f : Alu2) (s : State) : Out :=
  guarded (.alu2 0x4A f) s fun s => vecResult (.alu2 0x4A f) f.pre f.n f.d
    (fun i => dot4 true false (satOf f.pre) (opnd32 .int s i f.a) (opnd32 .int s i f.b) (opnd32 .int s i (fourthOf f.pre))) s

/-- VAND. -/
def execVand (f : Alu2) (s : State) : Out :=
  guarded (.alu2 0x4B f) s fun s => vecResult (.alu2 0x4B f) f.pre f.n f.d
    (fun i => (opnd32 .int s i f.a) &&& (opnd32 .int s i f.b)) s

/-- VOR. -/
def execVor (f : Alu2) (s : State) : Out :=
  guarded (.alu2 0x4C f) s fun s => vecResult (.alu2 0x4C f) f.pre f.n f.d
    (fun i => (opnd32 .int s i f.a) ||| (opnd32 .int s i f.b)) s

/-- VXOR. -/
def execVxor (f : Alu2) (s : State) : Out :=
  guarded (.alu2 0x4D f) s fun s => vecResult (.alu2 0x4D f) f.pre f.n f.d
    (fun i => (opnd32 .int s i f.a) ^^^ (opnd32 .int s i f.b)) s

/-- VSHL, by the rule of R130. -/
def execVshl (f : Alu2) (s : State) : Out :=
  guarded (.alu2 0x4E f) s fun s => vecResult (.alu2 0x4E f) f.pre f.n f.d
    (fun i => shiftLeft (opnd32 .int s i f.a) (opnd32 .int s i f.b)) s

/-- VSHR. -/
def execVshr (f : Alu2) (s : State) : Out :=
  guarded (.alu2 0x4F f) s fun s => vecResult (.alu2 0x4F f) f.pre f.n f.d
    (fun i => shiftRight (opnd32 .int s i f.a) (opnd32 .int s i f.b)) s

/-- VSRA. -/
def execVsra (f : Alu2) (s : State) : Out :=
  guarded (.alu2 0x50 f) s fun s => vecResult (.alu2 0x50 f) f.pre f.n f.d
    (fun i => shiftArith (opnd32 .int s i f.a) (opnd32 .int s i f.b)) s

/-- VSHL.d: the count is 32 bits. -/
def execVshlD (f : Alu2) (s : State) : Out :=
  guarded (.alu2 0x51 f) s fun s => vecResult64 (.alu2 0x51 f) f.pre f.n f.d
    (fun i => shiftLeft (opnd64 s i f.a) (opnd32 .int s i f.b)) s

/-- VSHR.d. -/
def execVshrD (f : Alu2) (s : State) : Out :=
  guarded (.alu2 0x52 f) s fun s => vecResult64 (.alu2 0x52 f) f.pre f.n f.d
    (fun i => shiftRight (opnd64 s i f.a) (opnd32 .int s i f.b)) s

/-- VSRA.d. -/
def execVsraD (f : Alu2) (s : State) : Out :=
  guarded (.alu2 0x53 f) s fun s => vecResult64 (.alu2 0x53 f) f.pre f.n f.d
    (fun i => shiftArith (opnd64 s i f.a) (opnd32 .int s i f.b)) s

/-- VMIN.s. -/
def execVminS (f : Alu2) (s : State) : Out :=
  guarded (.alu2 0x54 f) s fun s => vecResult (.alu2 0x54 f) f.pre f.n f.d
    (fun i => if (opnd32 .int s i f.a).sle (opnd32 .int s i f.b) then (opnd32 .int s i f.a) else (opnd32 .int s i f.b)) s

/-- VMIN.ui. -/
def execVminUi (f : Alu2) (s : State) : Out :=
  guarded (.alu2 0x55 f) s fun s => vecResult (.alu2 0x55 f) f.pre f.n f.d
    (fun i => if (opnd32 .int s i f.a).ule (opnd32 .int s i f.b) then (opnd32 .int s i f.a) else (opnd32 .int s i f.b)) s

/-- VMAX.s. -/
def execVmaxS (f : Alu2) (s : State) : Out :=
  guarded (.alu2 0x56 f) s fun s => vecResult (.alu2 0x56 f) f.pre f.n f.d
    (fun i => if (opnd32 .int s i f.a).sle (opnd32 .int s i f.b) then (opnd32 .int s i f.b) else (opnd32 .int s i f.a)) s

/-- VMAX.ui. -/
def execVmaxUi (f : Alu2) (s : State) : Out :=
  guarded (.alu2 0x57 f) s fun s => vecResult (.alu2 0x57 f) f.pre f.n f.d
    (fun i => if (opnd32 .int s i f.a).ule (opnd32 .int s i f.b) then (opnd32 .int s i f.b) else (opnd32 .int s i f.a)) s

/-- VABS. -/
def execVabs (f : Alu1) (s : State) : Out :=
  guarded (.alu1 0x58 f) s fun s => vecResult (.alu1 0x58 f) f.pre f.n f.d
    (fun i => absWord (opnd32 .int s i f.a)) s

/-- VCMP.s32 (R138). -/
def execVcmpS32 (f : Alu2) (s : State) : Out :=
  guarded (.alu2 0x59 f) s fun s => cmpResult (.alu2 0x59 f) f.pre f.n f.d
    (fun i => intCond (f.d.toNat / 16) true (opnd32 .int s i f.a) (opnd32 .int s i f.b)) s

/-- VCMP.ui32. -/
def execVcmpUi32 (f : Alu2) (s : State) : Out :=
  guarded (.alu2 0x5A f) s fun s => cmpResult (.alu2 0x5A f) f.pre f.n f.d
    (fun i => intCond (f.d.toNat / 16) false (opnd32 .int s i f.a) (opnd32 .int s i f.b)) s

/-- VCMP.s64. -/
def execVcmpS64 (f : Alu2) (s : State) : Out :=
  guarded (.alu2 0x5B f) s fun s => cmpResult (.alu2 0x5B f) f.pre f.n f.d
    (fun i => intCond (f.d.toNat / 16) true (opnd64 s i f.a) (opnd64 s i f.b)) s

/-- VCMP.ui64. -/
def execVcmpUi64 (f : Alu2) (s : State) : Out :=
  guarded (.alu2 0x5C f) s fun s => cmpResult (.alu2 0x5C f) f.pre f.n f.d
    (fun i => intCond (f.d.toNat / 16) false (opnd64 s i f.a) (opnd64 s i f.b)) s

/-- VSEL: A when C is not 0, else B. -/
def execVsel (f : Alu2) (s : State) : Out :=
  guarded (.alu2 0x5D f) s fun s => vecResult (.alu2 0x5D f) f.pre f.n f.d
    (fun i => if (opnd32 .int s i (fourthOf f.pre)) ≠ 0 then (opnd32 .int s i f.a) else (opnd32 .int s i f.b)) s

/-- VBFE.s (R139). -/
def execVbfeS (f : Alu2) (s : State) : Out :=
  guarded (.alu2 0x5E f) s fun s => vecResult (.alu2 0x5E f) f.pre f.n f.d
    (fun i => bitField true (opnd32 .int s i f.a) (opnd32 .int s i f.b) (opnd32 .int s i (fourthOf f.pre))) s

/-- VBFE.ui. -/
def execVbfeUi (f : Alu2) (s : State) : Out :=
  guarded (.alu2 0x5F f) s fun s => vecResult (.alu2 0x5F f) f.pre f.n f.d
    (fun i => bitField false (opnd32 .int s i f.a) (opnd32 .int s i f.b) (opnd32 .int s i (fourthOf f.pre))) s

/-- VPOPC. -/
def execVpopc (f : Alu1) (s : State) : Out :=
  guarded (.alu1 0x60 f) s fun s => vecResult (.alu1 0x60 f) f.pre f.n f.d
    (fun i => BitVec.ofNat 32 (popCount (opnd32 .int s i f.a))) s

/-- VCLZ. -/
def execVclz (f : Alu1) (s : State) : Out :=
  guarded (.alu1 0x61 f) s fun s => vecResult (.alu1 0x61 f) f.pre f.n f.d
    (fun i => leadingZeros (opnd32 .int s i f.a)) s

end Sys2Proof.Machine
end

