-- ==== Sys2Proof/Machine/Wakes.lean ====
section
/-! DEFINITION. The events that end a strand's wait (R117, R249, R278, R280). -/

namespace Sys2Proof.Machine

/-- Brings a waiting strand into focus. -/
def withWait (r : StrandRef) (s : State) (k : Wait → State → Out) : Out :=
  match s.focus r with
  | none => .next s
  | some s' =>
    match s'.st.status with
    | .waiting w => k w s'
    | _ => .next s

/-- The focus strand runs its waiting instruction again. -/
def wake (s : State) : State := { s with st := { s.st with status := .ready } }

/-- WAITV_WAKE: 4,096 cycles have passed since the strand's last read. A write to the line wakes it at once
(R249). -/
def execWaitvWake (r : StrandRef) (s : State) : Out :=
  withWait r s fun w s' =>
    match w with
    | .waitv _ at_ => if at_.ule s'.clock then .next (wake s') else .next s
    | _ => .next s

/-- SLEEP_EXPIRY: the cluster's CLOCK has reached the end of the interval. -/
def execSleepExpiry (r : StrandRef) (s : State) : Out :=
  withWait r s fun w s' =>
    match w with
    | .sleep at_ =>
      if at_.ule s'.clock then
        let s2 := wake s'
        .next { s2 with st := { s2.st with attempt := some 0 } }
      else .next s
    | _ => .next s

/-- WAITP_EXPIRY: CLOCK has reached the promise; WAITP looks at its status (R280). -/
def execWaitpExpiry (r : StrandRef) (s : State) : Out :=
  withWait r s fun w s' =>
    match w with
    | .waitp _ p => if reached s' p then .next (wake s') else .next s
    | _ => .next s

/-- QUEUE_ROOM: a strand that waits for room in a queue tests the queue again. -/
def execQueueRoom (r : StrandRef) (s : State) : Out :=
  withWait r s fun w s' =>
    match w with
    | .queue => .next (wake s')
    | _ => .next s

end Sys2Proof.Machine
end

