-- ==== Sys2Proof/Machine/Dispatch.lean ====
section
/-! DEFINITION. One arm for each constructor of Instr (R71, R72, R1). -/

namespace Sys2Proof.Machine

open Sys2Proof

def exec (i : Instr) (s : State) : Host.Outcome State Fault Refusal :=
  match i with
  | .nop => Sys2Proof.Machine.execNop s
  | .bra off => Sys2Proof.Machine.execBra off s
  | .brsZ c off => Sys2Proof.Machine.execBrsZ c off s
  | .brsNz c off => Sys2Proof.Machine.execBrsNz c off s
  | .brmAny m off => Sys2Proof.Machine.execBrmAny m off s
  | .brmAll m off => Sys2Proof.Machine.execBrmAll m off s
  | .brmNone m off => Sys2Proof.Machine.execBrmNone m off s
  | .jmpi p => Sys2Proof.Machine.execJmpi p s
  | .call c off => Sys2Proof.Machine.execCall c off s
  | .ret p => Sys2Proof.Machine.execRet p s
  | .exit => Sys2Proof.Machine.execExit s
  | .yield => Sys2Proof.Machine.execYield s
  | .sleep a => Sys2Proof.Machine.execSleep a s
  | .waitv p b => Sys2Proof.Machine.execWaitv p b s
  | .trap x => Sys2Proof.Machine.execTrap x s
  | .tret => Sys2Proof.Machine.execTret s
  | .bkpt => Sys2Proof.Machine.execBkpt s
  | .acquire => Sys2Proof.Machine.execAcquire s
  | .bar => Sys2Proof.Machine.execBar s
  | .barpAnd d a => Sys2Proof.Machine.execBarpAnd d a s
  | .barpOr d a => Sys2Proof.Machine.execBarpOr d a s
  | .barpAdd d a => Sys2Proof.Machine.execBarpAdd d a s
  | .barpMin d a => Sys2Proof.Machine.execBarpMin d a s
  | .barpMax d a => Sys2Proof.Machine.execBarpMax d a s
  | .waittag a b => Sys2Proof.Machine.execWaittag a b s
  | .waitp a => Sys2Proof.Machine.execWaitp a s
  | .bbwait a => Sys2Proof.Machine.execBbwait a s
  | .sadd f => Sys2Proof.Machine.execSadd f s
  | .saddD f => Sys2Proof.Machine.execSaddD f s
  | .ssub f => Sys2Proof.Machine.execSsub f s
  | .ssubD f => Sys2Proof.Machine.execSsubD f s
  | .smul f => Sys2Proof.Machine.execSmul f s
  | .smulD f => Sys2Proof.Machine.execSmulD f s
  | .smulhS f => Sys2Proof.Machine.execSmulhS f s
  | .smulhUi f => Sys2Proof.Machine.execSmulhUi f s
  | .sand f => Sys2Proof.Machine.execSand f s
  | .sor f => Sys2Proof.Machine.execSor f s
  | .sxor f => Sys2Proof.Machine.execSxor f s
  | .ssel f => Sys2Proof.Machine.execSsel f s
  | .sshl f => Sys2Proof.Machine.execSshl f s
  | .sshr f => Sys2Proof.Machine.execSshr f s
  | .ssra f => Sys2Proof.Machine.execSsra f s
  | .sshlD f => Sys2Proof.Machine.execSshlD f s
  | .sshrD f => Sys2Proof.Machine.execSshrD f s
  | .ssraD f => Sys2Proof.Machine.execSsraD f s
  | .scmpEq f => Sys2Proof.Machine.execScmpEq f s
  | .scmpNe f => Sys2Proof.Machine.execScmpNe f s
  | .scmpLt f => Sys2Proof.Machine.execScmpLt f s
  | .scmpLe f => Sys2Proof.Machine.execScmpLe f s
  | .scmpLtu f => Sys2Proof.Machine.execScmpLtu f s
  | .scmpLeu f => Sys2Proof.Machine.execScmpLeu f s
  | .scmpEqD f => Sys2Proof.Machine.execScmpEqD f s
  | .scmpNeD f => Sys2Proof.Machine.execScmpNeD f s
  | .smov f => Sys2Proof.Machine.execSmov f s
  | .smovD f => Sys2Proof.Machine.execSmovD f s
  | .smovi f => Sys2Proof.Machine.execSmovi f s
  | .smoviHi f => Sys2Proof.Machine.execSmoviHi f s
  | .sget f => Sys2Proof.Machine.execSget f s
  | .sset f => Sys2Proof.Machine.execSset f s
  | .vadd f => Sys2Proof.Machine.execVadd f s
  | .vaddD f => Sys2Proof.Machine.execVaddD f s
  | .vsub f => Sys2Proof.Machine.execVsub f s
  | .vsubD f => Sys2Proof.Machine.execVsubD f s
  | .vmul f => Sys2Proof.Machine.execVmul f s
  | .vmulhS f => Sys2Proof.Machine.execVmulhS f s
  | .vmulhUi f => Sys2Proof.Machine.execVmulhUi f s
  | .vmad f => Sys2Proof.Machine.execVmad f s
  | .vdot4S8 f => Sys2Proof.Machine.execVdot4S8 f s
  | .vdot4Ui8 f => Sys2Proof.Machine.execVdot4Ui8 f s
  | .vdot4Mix f => Sys2Proof.Machine.execVdot4Mix f s
  | .vand f => Sys2Proof.Machine.execVand f s
  | .vor f => Sys2Proof.Machine.execVor f s
  | .vxor f => Sys2Proof.Machine.execVxor f s
  | .vshl f => Sys2Proof.Machine.execVshl f s
  | .vshr f => Sys2Proof.Machine.execVshr f s
  | .vsra f => Sys2Proof.Machine.execVsra f s
  | .vshlD f => Sys2Proof.Machine.execVshlD f s
  | .vshrD f => Sys2Proof.Machine.execVshrD f s
  | .vsraD f => Sys2Proof.Machine.execVsraD f s
  | .vminS f => Sys2Proof.Machine.execVminS f s
  | .vminUi f => Sys2Proof.Machine.execVminUi f s
  | .vmaxS f => Sys2Proof.Machine.execVmaxS f s
  | .vmaxUi f => Sys2Proof.Machine.execVmaxUi f s
  | .vabs f => Sys2Proof.Machine.execVabs f s
  | .vcmpS32 f => Sys2Proof.Machine.execVcmpS32 f s
  | .vcmpUi32 f => Sys2Proof.Machine.execVcmpUi32 f s
  | .vcmpS64 f => Sys2Proof.Machine.execVcmpS64 f s
  | .vcmpUi64 f => Sys2Proof.Machine.execVcmpUi64 f s
  | .vsel f => Sys2Proof.Machine.execVsel f s
  | .vbfeS f => Sys2Proof.Machine.execVbfeS f s
  | .vbfeUi f => Sys2Proof.Machine.execVbfeUi f s
  | .vpopc f => Sys2Proof.Machine.execVpopc f s
  | .vclz f => Sys2Proof.Machine.execVclz f s
  | .vfadd f => Sys2Proof.Machine.execVfadd f s
  | .vfsub f => Sys2Proof.Machine.execVfsub f s
  | .vfmul f => Sys2Proof.Machine.execVfmul f s
  | .vfma f => Sys2Proof.Machine.execVfma f s
  | .vhfmaBf16 f => Sys2Proof.Machine.execVhfmaBf16 f s
  | .vhfmaF16 f => Sys2Proof.Machine.execVhfmaF16 f s
  | .vfmin f => Sys2Proof.Machine.execVfmin f s
  | .vfmax f => Sys2Proof.Machine.execVfmax f s
  | .vfcmp f => Sys2Proof.Machine.execVfcmp f s
  | .vfrcp f => Sys2Proof.Machine.execVfrcp f s
  | .vfrsq f => Sys2Proof.Machine.execVfrsq f s
  | .vexp2 f => Sys2Proof.Machine.execVexp2 f s
  | .vlog2 f => Sys2Proof.Machine.execVlog2 f s
  | .vfsin f => Sys2Proof.Machine.execVfsin f s
  | .vfcos f => Sys2Proof.Machine.execVfcos f s
  | .vfcvt f => Sys2Proof.Machine.execVfcvt f s
  | .vshufXor f => Sys2Proof.Machine.execVshufXor f s
  | .vshufUp f => Sys2Proof.Machine.execVshufUp f s
  | .vshufDown f => Sys2Proof.Machine.execVshufDown f s
  | .vshufIdx f => Sys2Proof.Machine.execVshufIdx f s
  | .vbcast f => Sys2Proof.Machine.execVbcast f s
  | .vred f => Sys2Proof.Machine.execVred f s
  | .vscanIncl f => Sys2Proof.Machine.execVscanIncl f s
  | .vscanExcl f => Sys2Proof.Machine.execVscanExcl f s
  | .vbal f => Sys2Proof.Machine.execVbal f s
  | .vlid f => Sys2Proof.Machine.execVlid f s
  | .mand f => Sys2Proof.Machine.execMand f s
  | .mor f => Sys2Proof.Machine.execMor f s
  | .mxor f => Sys2Proof.Machine.execMxor f s
  | .mnot f => Sys2Proof.Machine.execMnot f s
  | .mmov f => Sys2Proof.Machine.execMmov f s
  | .mcnt f => Sys2Proof.Machine.execMcnt f s
  | .msave f => Sys2Proof.Machine.execMsave f s
  | .mload f => Sys2Proof.Machine.execMload f s
  | .kclr f => Sys2Proof.Machine.execKclr f s
  | .kaddF32 f => Sys2Proof.Machine.execKaddF32 f s
  | .kaddF16 f => Sys2Proof.Machine.execKaddF16 f s
  | .kaddBf16 f => Sys2Proof.Machine.execKaddBf16 f s
  | .krnd f => Sys2Proof.Machine.execKrnd f s
  | .expr f => Sys2Proof.Machine.execExpr f s
  | .qmm f => Sys2Proof.Machine.execQmm f s
  | .qntI8 f => Sys2Proof.Machine.execQntI8 f s
  | .qntI4 f => Sys2Proof.Machine.execQntI4 f s
  | .qntT3 f => Sys2Proof.Machine.execQntT3 f s
  | .dqntI8 f => Sys2Proof.Machine.execDqntI8 f s
  | .dqntI4 f => Sys2Proof.Machine.execDqntI4 f s
  | .pk3 f => Sys2Proof.Machine.execPk3 f s
  | .upk3 f => Sys2Proof.Machine.execUpk3 f s
  | .pk4 f => Sys2Proof.Machine.execPk4 f s
  | .upk4 f => Sys2Proof.Machine.execUpk4 f s
  | .ld f => Sys2Proof.Machine.execLd f s
  | .ldU f => Sys2Proof.Machine.execLdU f s
  | .st f => Sys2Proof.Machine.execSt f s
  | .stU f => Sys2Proof.Machine.execStU f s
  | .stx f => Sys2Proof.Machine.execStx f s
  | .stxU f => Sys2Proof.Machine.execStxU f s
  | .atom f => Sys2Proof.Machine.execAtom f s
  | .atomU f => Sys2Proof.Machine.execAtomU f s
  | .fence f => Sys2Proof.Machine.execFence f s
  | .pref f => Sys2Proof.Machine.execPref f s
  | .prefU f => Sys2Proof.Machine.execPrefU f s
  | .tagld f => Sys2Proof.Machine.execTagld f s
  | .tagldU f => Sys2Proof.Machine.execTagldU f s
  | .tagst f => Sys2Proof.Machine.execTagst f s
  | .tagstU f => Sys2Proof.Machine.execTagstU f s
  | .lda f => Sys2Proof.Machine.execLda f s
  | .lds f => Sys2Proof.Machine.execLds f s
  | .ldsU f => Sys2Proof.Machine.execLdsU f s
  | .sts f => Sys2Proof.Machine.execSts f s
  | .stsU f => Sys2Proof.Machine.execStsU f s
  | .atoms f => Sys2Proof.Machine.execAtoms f s
  | .atomsU f => Sys2Proof.Machine.execAtomsU f s
  | .gld f => Sys2Proof.Machine.execGld f s
  | .gldU f => Sys2Proof.Machine.execGldU f s
  | .gst f => Sys2Proof.Machine.execGst f s
  | .gstU f => Sys2Proof.Machine.execGstU f s
  | .gop f => Sys2Proof.Machine.execGop f s
  | .gopU f => Sys2Proof.Machine.execGopU f s
  | .cpost d a => Sys2Proof.Machine.execCpost d a s
  | .cpostNb d a => Sys2Proof.Machine.execCpostNb d a s
  | .bbinit a b => Sys2Proof.Machine.execBbinit a b s
  | .bbinv a => Sys2Proof.Machine.execBbinv a s
  | .promote t q a b => Sys2Proof.Machine.execPromote t q a b s
  | .promoteA t q b => Sys2Proof.Machine.execPromoteA t q b s
  | .arena d a x => Sys2Proof.Machine.execArena d a x s
  | .launch d a => Sys2Proof.Machine.execLaunch d a s
  | .tsig p b => Sys2Proof.Machine.execTsig p b s
  | .oclaim o a => Sys2Proof.Machine.execOclaim o a s
  | .orel o a => Sys2Proof.Machine.execOrel o a s
  | .olda o a x => Sys2Proof.Machine.execOlda o a x s
  | .oldw o p x => Sys2Proof.Machine.execOldw o p x s
  | .mma f => Sys2Proof.Machine.execMma f s
  | .aclr t => Sys2Proof.Machine.execAclr t s
  | .adrn t a => Sys2Proof.Machine.execAdrn t a s
  | .mtok a => Sys2Proof.Machine.execMtok a s
  | .mwaitTok => Sys2Proof.Machine.execMwaitTok s
  | .mwaitAll => Sys2Proof.Machine.execMwaitAll s
  | .clauseIssue r old => Sys2Proof.Machine.execClauseIssue r old s
  | .replayResolved w ok => Sys2Proof.Machine.execReplayResolved w ok s
  | .arenaPoolRefill key die big n => Sys2Proof.Machine.execArenaPoolRefill key die big n s
  | .gridRecord q => Sys2Proof.Machine.execGridRecord q s
  | .nodeRecord q => Sys2Proof.Machine.execNodeRecord q s
  | .signalRecord q => Sys2Proof.Machine.execSignalRecord q s
  | .waitvalRecord q => Sys2Proof.Machine.execWaitvalRecord q s
  | .waitvalSatisfied q => Sys2Proof.Machine.execWaitvalSatisfied q s
  | .copyRecord q => Sys2Proof.Machine.execCopyRecord q s
  | .readyPoolEntry => Sys2Proof.Machine.execReadyPoolEntry s
  | .blockDispatch g => Sys2Proof.Machine.execBlockDispatch g s
  | .grant b => Sys2Proof.Machine.execGrant b s
  | .blockRetirement b => Sys2Proof.Machine.execBlockRetirement b s
  | .gridRetirement g => Sys2Proof.Machine.execGridRetirement g s
  | .arenaDestruction id => Sys2Proof.Machine.execArenaDestruction id s
  | .sliceUnit => Sys2Proof.Machine.execSliceUnit s
  | .drainExpiry b => Sys2Proof.Machine.execDrainExpiry b s
  | .blockSave b => Sys2Proof.Machine.execBlockSave b s
  | .blockRestore b => Sys2Proof.Machine.execBlockRestore b s
  | .mmaStart b => Sys2Proof.Machine.execMmaStart b s
  | .mmaRetire b => Sys2Proof.Machine.execMmaRetire b s
  | .oldaComplete b x => Sys2Proof.Machine.execOldaComplete b x s
  | .oldwComplete b x => Sys2Proof.Machine.execOldwComplete b x s
  | .adrnComplete b x => Sys2Proof.Machine.execAdrnComplete b x s
  | .orelComplete b n => Sys2Proof.Machine.execOrelComplete b n s
  | .ldaComplete r x => Sys2Proof.Machine.execLdaComplete r x s
  | .loadComplete r x src => Sys2Proof.Machine.execLoadComplete r x src s
  | .storeComplete r x => Sys2Proof.Machine.execStoreComplete r x s
  | .scratchpadAccessPerformed r x => Sys2Proof.Machine.execScratchpadAccessPerformed r x s
  | .qntMerge n => Sys2Proof.Machine.execQntMerge n s
  | .rdupCollapse r x => Sys2Proof.Machine.execRdupCollapse r x s
  | .waitvWake r => Sys2Proof.Machine.execWaitvWake r s
  | .sleepExpiry r => Sys2Proof.Machine.execSleepExpiry r s
  | .waitpExpiry r => Sys2Proof.Machine.execWaitpExpiry r s
  | .queueRoom r => Sys2Proof.Machine.execQueueRoom r s
  | .copy1d p => Sys2Proof.Machine.execCopy1d p s
  | .copy2d p => Sys2Proof.Machine.execCopy2d p s
  | .fill p => Sys2Proof.Machine.execFill p s
  | .mcast p => Sys2Proof.Machine.execMcast p s
  | .reduce p => Sys2Proof.Machine.execReduce p s
  | .sealmove p => Sys2Proof.Machine.execSealmove p s
  | .ingest p => Sys2Proof.Machine.execIngest p s
  | .signal p => Sys2Proof.Machine.execSignal p s
  | .packetCompletion x early => Sys2Proof.Machine.execPacketCompletion x early s
  | .mcastArrival n target chunk => Sys2Proof.Machine.execMcastArrival n target chunk s
  | .reduceCompletion n net => Sys2Proof.Machine.execReduceCompletion n net s
  | .tlbinvComplete port => Sys2Proof.Machine.execTlbinvComplete port s
  | .leaseExpiry => Sys2Proof.Machine.execLeaseExpiry s
  | .scrubComplete key => Sys2Proof.Machine.execScrubComplete key s
  | .notifyInterrupt port => Sys2Proof.Machine.execNotifyInterrupt port s
  | .tlbInvalidate port w => Sys2Proof.Machine.execTlbInvalidate port w s
  | .leaseRenew port => Sys2Proof.Machine.execLeaseRenew port s
  | .leaseRelease port => Sys2Proof.Machine.execLeaseRelease port s
  | .leasePeriod port ms => Sys2Proof.Machine.execLeasePeriod port ms s
  | .scrubprogSelect port key => Sys2Proof.Machine.execScrubprogSelect port key s
  | .aggvecRead port k => Sys2Proof.Machine.execAggvecRead port k s
  | .feataccWrite port k w => Sys2Proof.Machine.execFeataccWrite port k w s
  | .commit port => Sys2Proof.Machine.execCommit port s
  | .registerWrite port off w => Sys2Proof.Machine.execRegisterWrite port off w s
  | .register h sealing auth => Sys2Proof.Machine.execRegister h sealing auth s
  | .deregister h => Sys2Proof.Machine.execDeregister h s
  | .giveMemory h vmid save base len => Sys2Proof.Machine.execGiveMemory h vmid save base len s
  | .roots h stage2 root => Sys2Proof.Machine.execRoots h stage2 root s
  | .sealedEntry h k e => Sys2Proof.Machine.execSealedEntry h k e s
  | .ingestKey h k long key auth => Sys2Proof.Machine.execIngestKey h k long key auth s
  | .cometQueue h k hdr => Sys2Proof.Machine.execCometQueue h k hdr s
  | .bindQueue q f => Sys2Proof.Machine.execBindQueue q f s
  | .bindStream h port k => Sys2Proof.Machine.execBindStream h port k s
  | .attest h nonce => Sys2Proof.Machine.execAttest h nonce s
  | .macReread line pass => Sys2Proof.Machine.execMacReread line pass s
  | .keyGeneration l => Sys2Proof.Machine.execKeyGeneration l s
  | .flitRetry l f pass => Sys2Proof.Machine.execFlitRetry l f pass s
  | .hostLinkDown port => Sys2Proof.Machine.execHostLinkDown port s
  | .hostLinkUp port => Sys2Proof.Machine.execHostLinkUp port s
  | .tdispStop port k => Sys2Proof.Machine.execTdispStop port k s
  | .ideIntegrityFailure port k => Sys2Proof.Machine.execIdeIntegrityFailure port k s
  | .hostAccess port x => Sys2Proof.Machine.execHostAccess port x s
  | .peerAccess port x => Sys2Proof.Machine.execPeerAccess port x s
  | .perigeeTraining port t => Sys2Proof.Machine.execPerigeeTraining port t s
  | .powerOn b => Sys2Proof.Machine.execPowerOn b s
  | .warmReset => Sys2Proof.Machine.execWarmReset s
  | .programLoad p => Sys2Proof.Machine.execProgramLoad p s
  | .orreryAttach key => Sys2Proof.Machine.execOrreryAttach key s
  | .orreryDetach key => Sys2Proof.Machine.execOrreryDetach key s
  | .orreryRead t len => Sys2Proof.Machine.execOrreryRead t len s
  | .orreryWrite t bytes => Sys2Proof.Machine.execOrreryWrite t bytes s
  | .orreryPost x va => Sys2Proof.Machine.execOrreryPost x va s
  | .orrerySetPlace key core => Sys2Proof.Machine.execOrrerySetPlace key core s
  | .orreryContinue r => Sys2Proof.Machine.execOrreryContinue r s
  | .powerLoss => Sys2Proof.Machine.execPowerLoss s
  | .clusterClockGating cluster mode => Sys2Proof.Machine.execClusterClockGating cluster mode s
  | .softError t fixable => Sys2Proof.Machine.execSoftError t fixable s
  | .tdispLockInterface port k => Sys2Proof.Machine.execTdispLockInterface port k s
  | .tdispStartInterface port k => Sys2Proof.Machine.execTdispStartInterface port k s

end Sys2Proof.Machine
end

