-- ==== Sys2Proof/Machine/Policy.lean ====
section
/-! DEFINITION. What happens of itself: the events that the parts of the device may bring about, of which a step
takes one by a free choice when no event stands in the agenda and the strand in focus cannot go on. A listed event
that the state does not admit does not happen. -/

namespace Sys2Proof.Machine

/-- An exhausted pool is refilled and what waits for it goes on; where the world has no memory left to give, the
fault is taken (R203). DEDUCED, log entry 78. -/
def refillEvents (s : State) (key die : Nat) (f : FaultInfo) (w : ReplayTarget) : List Instr :=
  match emptyPool f die with
  | some (d, big) =>
    if poolServed s key d big then [.arenaPoolRefill key d big 1, .replayResolved w true] else [.replayResolved w false]
  | none => []

/-- Parts of an operation that an event may perform: everything left, or one unit of its reads or of its writes, by a
free choice, or the acceptance of an atomic. -/
def someUnits (free : Nat) (l : List (List (Nat × Nat))) : List (List (Nat × Nat)) :=
  (l[Config.freeNat free (2 ^ 75) % l.length]?).toList

/-- The parts that an outstanding operation may be performed in (R294). An LDA reads and writes its units apart
(R262). -/
def opUnits (free : Nat) (o : Op) : List Units :=
  .all :: (someUnits free (o.undone.map fun a => a.pas.map fun p => (a.lane, p))).map .read
    ++ (if o.what = .lda then
        (someUnits free (o.laneList.flatMap fun i => (ldaReady o i).map fun l => l.map fun k => (i, o.target i + k))).map .write
      else [])
    ++ (if o.what = .atom ∧ o.use = 2 then [.accept] else [])

/-- The events of an outstanding operation: its whole, or units of it, are performed, a load's from where a load
may be served. -/
def opEvents (free : Nat) (r : StrandRef) (o : Op) : List Instr :=
  (opUnits free o).flatMap fun u =>
    let x : PartOf := ⟨o.serial, u⟩
    [.loadComplete r x .home, .loadComplete r x .l1, .loadComplete r x .holder, .storeComplete r x, .rdupCollapse r x,
      .scratchpadAccessPerformed r x, .ldaComplete r x]

/-- The events of a strand: its clauses, its operations, the end of its waits. -/
def strandEvents (s : State) (key die : Nat) (t : Strand) : List Instr :=
  let r := t.ref
  [.clauseIssue r false, .clauseIssue r true]
    ++ t.ops.flatMap (opEvents s.free r)
    ++ (match t.status with
      | .waiting (.waitv _ _) => [.waitvWake r]
      | .waiting (.sleep _) => [.sleepExpiry r]
      | .waiting (.waitp _ _) => [.waitpExpiry r]
      | .waiting .queue => [.queueRoom r]
      | .parked f _ => refillEvents s key die f (.strand r)
      | _ => [])

/-- The parts that a load or a drain may be performed in: all that is left, or one unit that it reads or writes,
by a free choice (R294). -/
def mopUnits (free : Nat) (m : MOp) : List Units :=
  let reads := match m.what with
    | .olda _ form base => (List.range (actExtent form)).map (base + ·)
    | .oldw _ _ _ => m.places
    | .adrn _ _ => List.range 4096
    | _ => []
  let writes := match m.what with
    | .adrn _ base => (List.range 16384).map (base + ·)
    | _ => []
  .all :: (someUnits free (reads.map fun p => [(0, p)])).map .read ++ (someUnits free (writes.map fun p => [(0, p)])).map .write

/-- The events of a block. -/
def blockEvents (free : Nat) (b : Block) : List Instr :=
  let r : BlockRef := ⟨b.grid, b.id⟩
  [.grant r, .blockRetirement r, .drainExpiry r, .blockSave r, .mmaStart r, .mmaRetire r]
    ++ b.mops.flatMap fun m => .orelComplete r m.seq :: (mopUnits free m).flatMap fun u =>
      let x : PartOf := ⟨m.seq, u⟩
      [.oldaComplete r x, .oldwComplete r x, .adrnComplete r x]

/-- The events of a grid. -/
def gridEvents (s : State) (g : Grid) : List Instr :=
  [.blockDispatch g.id, .gridRetirement g.id] ++ g.saved.map (fun v => .blockRestore ⟨g.id, v.block.id⟩)
    ++ match g.argsFault with
      | some f => refillEvents s g.key 0 f (.args g.id)
      | none => []

/-- The events of a work queue. -/
def queueEvents (q : Nat) : List Instr :=
  [.gridRecord q, .nodeRecord q, .signalRecord q, .waitvalRecord q, .copyRecord q, .waitvalSatisfied q]

/-- The events of a waiting WAITVAL record whose word is in an arena with no page to draw (R203). -/
def watchEvents (s : State) (x : Watch) : List Instr :=
  match x.fault with
  | some f => refillEvents s x.key 0 f (.watch x.queue x.order)
  | none => []

/-- The start of a packet, whatever its kind. -/
def startEvents (p : PacketSource) : List Instr :=
  [.copy1d p, .copy2d p, .fill p, .mcast p, .reduce p, .sealmove p, .ingest p, .signal p]

/-- The events of a started packet: its course, a status ahead of its writes, and units of what it reads or writes. -/
def packetEvents (s : State) (p : Packet) : List Instr :=
  [.packetCompletion ⟨p.num, .all⟩ false, .packetCompletion ⟨p.num, .all⟩ true]
    ++ (someUnits s.free (p.sources.map fun a => [(0, a)])).map (fun l => .packetCompletion ⟨p.num, .read l⟩ false)
    ++ (someUnits s.free (p.pending.map fun x => [(0, x.pa)])).map (fun l => .packetCompletion ⟨p.num, .write l⟩ false)
    ++ p.targets.flatMap (fun t => t.chunks.map fun c => .mcastArrival p.num t.n c)
    ++ match p.stalled with
      | some (f, _) => refillEvents s p.key p.die f (.packet p.num)
      | none => []

/-- Every event that may come about of itself. -/
def candidates (s : State) : List Instr :=
  (s.allBlocks.flatMap fun b =>
    blockEvents s.free b ++ b.strands.flatMap (strandEvents s (((s.grid b.grid).map (·.key)).getD 0) (dieOf b.core)))
    ++ s.allGrids.flatMap (gridEvents s)
    ++ s.queues.flatMap (fun q => queueEvents q.index)
    ++ s.watches.flatMap (watchEvents s)
    ++ s.allWorlds.flatMap (fun w => w.comet.flatMap fun q => startEvents (.ring w.key q.index))
    ++ s.handed.flatMap (fun h => startEvents (.handed h.num))
    ++ s.packets.flatMap (packetEvents s)
    ++ s.qnt.map (fun q => .qntMerge q.num)
    ++ s.slots.map (fun r => .arenaDestruction r.id)
    ++ [.readyPoolEntry, .sliceUnit, .tlbinvComplete false, .tlbinvComplete true, .leaseExpiry,
      .notifyInterrupt false, .notifyInterrupt true]
    ++ s.scrub.map (fun r => .scrubComplete r.key)

/-- The event that comes about of itself, by a free choice. DESIGN CHOICE, log entry 3. -/
def chosen (s : State) : Option Instr :=
  let l := candidates s
  l[Config.freeNat s.free (2 ^ 66) % l.length]?

end Sys2Proof.Machine
end

