-- ==== Sys2Proof/Machine/Turn.lean ====
section
/-! DEFINITION. What stands around the meaning of one instruction in a step: the passing of time (R42), the next
instruction of the strand in focus, what holds it back (R36, R239), and the instruction words that a step is to run
next. -/

namespace Sys2Proof.Machine

/-! ### Time -/

/-- A clock's value after a step, which takes one cycle or more. It never wraps (R42). DESIGN CHOICE, log entry 4. -/
def nextClock (cycles : Nat) (c : DWord) : DWord := BitVec.ofNat 64 (min (c.toNat + 1 + cycles % 2 ^ 32) (2 ^ 64 - 1))

/-- The clocks of the clusters that are not gated rise (R42). -/
def tickClocks (free : Nat) (gated : List Nat) (clocks : List DWord) : List DWord :=
  clocks.zipIdx.map fun (c, k) => if gated.contains k then c else nextClock (Config.freeCycles (96 * free + k)) c

/-- Cores that the running blocks of a queue hold: two for a twin-placed block (R328). -/
def coresHeld (s : State) (q : Nat) : Nat :=
  sumBy (fun b => let g := s.gridOf b; if g.queue = q then (if g.twin then 2 else 1) else 0) s.allBlocks

/-- Nanoseconds pass: running blocks grow older and charge their queues (R328, R331). -/
def passNs (ns : Nat) (s : State) : State :=
  { s with
    refNs := s.refNs + ns
    blk := if s.blk.live then { s.blk with ranNs := s.blk.ranNs + ns } else s.blk
    blocks := s.blocks.map fun b => { b with ranNs := b.ranNs + ns }
    queues := s.queues.map fun q => { q with deficit := q.deficit - ns * coresHeld s q.index } }

/-- Deferred qnt atomics that are 256 cycles old are applied (R241). DEDUCED, log entry 84. -/
def mergeOld (s : State) : State :=
  (s.qnt.filter fun q => q.use = 3 && (q.clock + 256).ule (s.clockOf q.core)).foldl (fun s q =>
    match execQntMerge q.num s with
    | .next s => s
    | _ => s) s

/-- The scrub engines go on with the range that is first in the journal (R365). DESIGN CHOICE, log entry 108. -/
def advanceScrub (s : State) : State :=
  match s.scrub with
  | [] => s
  | r :: rest =>
    if s.scrubOn then
      let n := min (64 * (Config.freeNat s.free (2 ^ 78) % 1024)) (r.len - r.done)
      { zeroPage s (r.base + r.done) n with scrub := { r with done := r.done + n } :: rest }
    else s

/-- Time passes during a step (R7); what is due by then is done, and notify words are written (R372).
DESIGN CHOICE, log entry 60. -/
def tick (s : State) : State :=
  let s := passNs (Config.freeNs s.free) { s with clocks := tickClocks s.free s.gated s.clocks, free := s.free + 1 }
  flushNotify (mergeOld (advanceScrub (passFlits (clearDeficits s))))

/-! ### The strand in focus -/

/-- The next instruction of the strand in focus, when it stands in an open clause and waits for nothing. -/
def nextInstr (s : State) : Option (Except DecFault Instr) :=
  match s.st.status, s.st.clause with
  | .ready, some c =>
    if c.words = [] || !s.clocked then none else some ((decodeOne (decodeCtx s c.cls c.latches) c.words).map (·.1))
  | _, _ => none

/-- Does an outstanding acquire of the strand hold the instruction: one of class memory, matrix or engine, or WAITV
(R239)? DEDUCED, log entry 26. -/
def acquireHolds (s : State) (i : Instr) : Bool :=
  acquireOut s.st &&
    ((match s.st.clause with | some c => c.cls = 1 || c.cls = 2 || c.cls = 3 | none => false) || i matches .waitv _ _)

/-- May something else happen before the instruction at hand goes on: is it in the middle of its reads (R294)?
DESIGN CHOICE, log entry 13. -/
def midRead (s : State) : Bool := !s.st.fetched.isEmpty && Config.freeLane s.free (2 ^ 65) 0

/-- Does the scoreboard or an outstanding acquire hold the instruction back, or something else come before it
goes on? -/
def held (s : State) (i : Instr) : Bool :=
  midRead s || acquireHolds s i || (match form i with | some f => scoreboardHolds s f | none => false)

/-- Has the instruction an encoding? An event has none. -/
def isEvent (i : Instr) : Bool := (form i).isNone

/-- May an event happen: does the device run, or is the event one that brings it up again?
DESIGN CHOICE, log entry 16. -/
def mayHappen (s : State) (i : Instr) : Bool :=
  !s.halted ||
    match i with
    | .powerOn _ => true
    | .warmReset => true
    | .powerLoss => true
    | _ => false

/-- An event comes about of itself, or nothing does. DESIGN CHOICE, log entry 3. -/
def byItself (s : State) (run : Instr → State → Out) : Out :=
  match chosen s with
  | some i => run i s
  | none => .next s

/-- A strand, block, grid and world in which the words of one instruction stand next in an open clause: every
advertised feature accepted, the grant given, the largest vector allotment. DESIGN CHOICE, log entry 6. -/
def withWords (ws : List Word) (s : State) : State :=
  { s with
    st := { s.st with
      present := BitVec.allOnes 64, status := .ready, ops := [], owed := []
      clause := some ⟨s.st.pc - 4, classAt ws, ws, []⟩ }
    blk := { s.blk with live := true, granted := true }
    grd := { s.grd with live := true, record := setField s.grd.record 223 5 16 }
    accepted := Config.advertised
    agenda := []
    gated := []
    halted := false }

end Sys2Proof.Machine
end

