-- ==== Sys2Proof/Machine/Step.lean ====
section
/-! DEFINITION. One step: time passes; then the event at the head of the agenda happens, or the strand in focus runs
its next instruction, or an event comes about of itself. -/

namespace Sys2Proof.Machine

/-- A step in which no event stands in the agenda. -/
def turn (s : State) : Host.Outcome State Fault Refusal :=
  match nextInstr s with
  | some (.error e) => deliver (faultAt (decodeCode e) s.st.pc) s
  | some (.ok i) => if held s i then byItself s (fun i s => exec i s) else exec i s
  | none => byItself s (fun i s => exec i s)

/-- One step of the machine. An entry of the agenda that is no event is dropped; a device that has halted takes
outside events alone. -/
def step (s0 : State) : Host.Outcome State Fault Refusal :=
  let s := tick s0
  match s.agenda with
  | i :: rest =>
    if isEvent i && mayHappen s i then exec i { s with agenda := rest } else .next { s with agenda := rest }
  | [] => if s.halted then .next s else turn s

/-- The state with an instruction's words where the next step fetches: in the open clause of the strand in focus. -/
def State.withFetchWord (s : State) (nbits w : Nat) : State := withWords (tableWords nbits w) s

end Sys2Proof.Machine
end

