-- ==== Sys2Proof/WellFormed.lean ====
section
/-! DEFINITION. Well-formed instructions: those that the encoder writes as words that decode to them again.
The checks are those of R54 on the words and fields, and that a literal has the width that W gives it
(R59). An event has no encoding and is not well-formed. -/

namespace Sys2Proof

/-- The opcode of a form. -/
def Form.op : Form → BitVec 8
  | .none op => op
  | .br op _ _ => op
  | .ctl op _ _ _ => op
  | .n8 op _ => op
  | .alu2 op _ => op
  | .alu1 op _ => op
  | .aluX op _ => op
  | .aluD op _ => op
  | .imm op _ => op
  | .sget _ => 0x3E
  | .mask2 op _ => op
  | .mask1 op _ => op
  | .maskS op _ => op
  | .maskL _ => 0x83
  | .expr _ => 0x89
  | .memV op _ => op
  | .memU op _ => op
  | .fence _ => 0xA8
  | .lda _ => 0xAF
  | .promote _ _ _ _ => 0xC4
  | .arena _ _ _ => 0xC5
  | .slot op _ _ _ => op
  | .mma _ => 0xD4
  | .aclr _ => 0xD5
  | .adrn _ _ => 0xD6

/-- The ALU prefix of a form. -/
def Form.pre : Form → Option AluPre
  | .alu2 _ f => f.pre
  | .alu1 _ f => f.pre
  | .aluX _ f => f.pre
  | .aluD _ f => f.pre
  | .imm _ f => f.pre
  | .sget f => f.pre
  | .mask2 _ f => f.pre
  | .mask1 _ f => f.pre
  | .maskS _ f => f.pre
  | .maskL f => f.pre
  | .expr f => f.pre
  | _ => Option.none

/-- Does the form's prefix set W? -/
def Form.wide (f : Form) : Bool := (f.pre.map (·.w)).getD false

/-- Is an operand's literal of the width that W gives it? -/
def Opnd.widthOk (wide : Bool) : Opnd → Bool
  | .lit _ => !wide
  | .lit64 _ => wide
  | _ => true

/-- The checks on the words of a form (R54). -/
def wordsOk (c : DecCtx) (row : Row) (f : Form) : Bool :=
  match splitPrefixes (encodeForm f) with
  | (ps, w :: rest) =>
    !heldBack c.feats f.op ps && row.cls == c.cls && sequenceOk c.cls ps && ps.all prefixWordOk
      && w &&& row.zero == 0 && extensionOk row w rest
  | _ => false

/-- Is the instruction well-formed under a decoding context? -/
def wellFormed (c : DecCtx) (i : Instr) : Bool :=
  match form i with
  | none => false
  | some f =>
    match rowOf f.op with
    | none => false
    | some row =>
      f.opnds.all (Opnd.widthOk f.wide) && wordsOk c row f && formOk row f && operandsOk c row f

end Sys2Proof
end

