-- ==== Sys2Proof/Safety.lean ====
section
/-! DEFINITION. What counts as a safe step, and the words in which the statements about the machine are put: when an
instruction completes, what it leaves unchanged, and what a family of instructions computes. -/

namespace Sys2Proof

/-- The step goes on. -/
def Runs (s : Machine.State) : Prop := ∃ t, Machine.step s = .next t

/-- A property of states that every step keeps. -/
def Kept (inv : Machine.State → Prop) : Prop := ∀ s t, inv s → Machine.step s = .next t → inv t

namespace Machine

/-- The instruction or event answers a next state, and that state is as p says. -/
def Completes (i : Instr) (s : State) (p : State → Prop) : Prop := ∃ t, exec i s = .next t ∧ p t

/-- No read of the instruction finds a register-file error (R375). -/
def NoReadError (i : Instr) (s : State) : Prop := ∀ f, form i = some f → errorsOf s f = none

/-! ### Going on (R53) and the latch (R47) -/

/-- The strand has gone on behind an instruction of n words: to the next word of its clause, or out of the clause when
these were its last words (R53). -/
def WentOn (n : Nat) (s t : State) : Prop :=
  ∀ c, s.st.clause = some c → n ≤ c.words.length →
    t.st.pc = s.st.pc + BitVec.ofNat 64 (4 * n)
    ∧ (c.words.drop n = [] → t.st.clause = none)
    ∧ (c.words.drop n ≠ [] → t.st.status = .ready ∧ ∃ d, t.st.clause = some d ∧ d.words = c.words.drop n
        ∧ d.header = c.header ∧ d.cls = c.cls)

/-- The newest latch of the clause, where the clause goes on, is x (R47). -/
def LatchIs (x : Latch) (t : State) : Prop := ∀ c, t.st.clause = some c → c.latches.head? = some x

/-- The newest latch, where the clause goes on, reads in each lane as g says. -/
def LatchWords (g : Nat → Word) (t : State) : Prop :=
  ∀ c, t.st.clause = some c → ∃ x, c.latches.head? = some x ∧ ∀ lane, lane < 64 → x.word lane = g lane

/-- The newest latch, where the clause goes on, reads in a position of 64 bits in each lane as g says. -/
def LatchPairs (g : Nat → DWord) (t : State) : Prop :=
  ∀ c, t.st.clause = some c → ∃ x, c.latches.head? = some x ∧ ∀ lane, lane < 64 → x.dword lane = g lane

/-- The newest latch, where the clause goes on, is zero in all 64 bits in each lane that p picks. -/
def LatchZeros (p : Nat → Bool) (t : State) : Prop :=
  ∀ c, t.st.clause = some c → ∃ x, c.latches.head? = some x ∧ ∀ lane, lane < 64 → p lane = true → x.dword lane = 0

/-! ### Frames -/

/-- A strand with the place of another: its program counter, its clause, and how it stands there and among the
strands of its core. -/
def Strand.moved (a b : Strand) : Strand :=
  { a with
    pc := b.pc, clause := b.clause, attempt := b.attempt, promo := b.promo, fetched := b.fetched, yld := b.yld, age := b.age
    behind := b.behind, status := b.status, bkpt := b.bkpt }

/-- Nothing but the place of the strand differs: no register, no memory, nothing of another strand. -/
def OnlyMoved (s t : State) : Prop := t = { s with st := s.st.moved t.st }

/-- Beside the strand's place nothing differs but the scalar registers in `rs`, their promise marks (R45) and the
errors that stand in them (R375). -/
def OnlyScalars (rs : List Nat) (s t : State) : Prop :=
  t = { s with st := { s.st.moved t.st with s := t.st.s, marks := t.st.marks, rfErr := t.st.rfErr } }
  ∧ (∀ r, r ∉ rs → t.st.sget r = s.st.sget r ∧ t.st.marks.getLsbD r = s.st.marks.getLsbD r)
  ∧ (∀ e, e ∈ t.st.rfErr → e ∈ s.st.rfErr) ∧ (∀ e, e ∈ s.st.rfErr → (e.file ≠ 1 ∨ e.reg ∉ rs) → e ∈ t.st.rfErr)

/-- Beside the strand's place nothing differs but the vector registers in `rs` and the errors that stand in them. -/
def OnlyVectors (rs : List Nat) (s t : State) : Prop :=
  t = { s with st := { s.st.moved t.st with v := t.st.v, rfErr := t.st.rfErr } }
  ∧ (∀ r lane, r ∉ rs → t.st.vget r lane = s.st.vget r lane)
  ∧ (∀ e, e ∈ t.st.rfErr → e ∈ s.st.rfErr) ∧ (∀ e, e ∈ s.st.rfErr → (e.file ≠ 0 ∨ e.reg ∉ rs) → e ∈ t.st.rfErr)

/-- Beside the strand's place nothing differs but the mask registers in `rs` and the errors that stand in them. -/
def OnlyMasks (rs : List Nat) (s t : State) : Prop :=
  t = { s with st := { s.st.moved t.st with m := t.st.m, rfErr := t.st.rfErr } }
  ∧ (∀ r, r ∉ rs → t.st.mget r = s.st.mget r)
  ∧ (∀ e, e ∈ t.st.rfErr → e ∈ s.st.rfErr) ∧ (∀ e, e ∈ s.st.rfErr → (e.file ≠ 2 ∨ e.reg ∉ rs) → e ∈ t.st.rfErr)

/-! ### Results -/

/-- A uniform word in scalar register d, or under N in the latch alone; nothing else but the strand's place
changes. -/
def ScalarIs (n : Bool) (d : Nat) (x : Word) (s t : State) : Prop :=
  LatchIs (.uni x) t ∧ (if n then OnlyMoved s t else t.st.sget d = x ∧ OnlyScalars [d] s t)

/-- A uniform value of 64 bits in the scalar pair of d and d + 1 (R4), or under N in the latch alone. -/
def PairIs (n : Bool) (d : Nat) (x : DWord) (s t : State) : Prop :=
  LatchIs (.uni64 x) t ∧ (if n then OnlyMoved s t else t.st.sget64 d = x ∧ OnlyScalars [d, d + 1] s t)

/-- What a lane of a destination holds after a lane-wise instruction: an active lane its result, another present lane
zero under Z and else its old value, and an absent lane its old value (R109). -/
def laneAfter (s : State) (p : Option AluPre) {α : Type} (zero : α) (old g : Nat → α) (lane : Nat) : α :=
  if laneOn s.st.present lane then
    if laneOn (s.active p) lane then g lane else if zOf p then zero else old lane
  else old lane

/-- The lanes of a lane-wise result that hold no result: absent ones, and inactive ones under N or Z (R47, R109). -/
def restLanes (s : State) (p : Option AluPre) (n : Bool) (i : Nat) : Bool :=
  !laneOn s.st.present i || ((n || zOf p) && !laneOn (s.active p) i)

/-- A lane-wise result of 32 bits in vector register d, or under N in the latch alone. The latch is zero in a
position of either width where a lane holds no result. -/
def VectorIs (p : Option AluPre) (n : Bool) (d : Nat) (g : Nat → Word) (s t : State) : Prop :=
  LatchZeros (restLanes s p n) t
  ∧ if n then
    OnlyMoved s t
      ∧ LatchWords (fun i => if laneOn s.st.present i && laneOn (s.active p) i then g i else 0) t
  else
    (∀ lane, lane < 64 → t.st.vget d lane = laneAfter s p 0 (s.st.vget d) g lane)
      ∧ LatchWords (fun i => if laneOn s.st.present i then t.st.vget d i else 0) t
      ∧ OnlyVectors [d] s t

/-- A lane-wise result of 64 bits in the vector pair of d and d + 1, or under N in the latch alone; the latch
holds all 64 bits (R47). -/
def VectorPairIs (p : Option AluPre) (n : Bool) (d : Nat) (g : Nat → DWord) (s t : State) : Prop :=
  if n then
    OnlyMoved s t
      ∧ LatchPairs (fun i => if laneOn s.st.present i && laneOn (s.active p) i then g i else 0) t
  else
    (∀ lane, lane < 64 → t.st.vget64 d lane = laneAfter s p 0 (s.st.vget64 d) g lane)
      ∧ LatchPairs (fun i => if laneOn s.st.present i then t.st.vget64 d i else 0) t
      ∧ OnlyVectors [d, d + 1] s t

/-- A comparison's result in mask register r: an active lane's bit says whether its condition holds, another present
lane's bit is zero under Z and else its old one, and an absent lane's bit is zero (R138, R14). -/
def CompareIs (p : Option AluPre) (n : Bool) (r : Nat) (g : Nat → Bool) (s t : State) : Prop :=
  LatchZeros (restLanes s p n) t
  ∧ if n then
    OnlyMoved s t ∧ LatchWords (fun i =>
      if laneOn s.st.present i && laneOn (s.active p) i && g i then 1 else 0) t
  else
    (∀ lane, lane < 64 → laneOn (t.st.mget r) lane
        = (laneOn s.st.present lane && laneAfter s p false (laneOn (s.st.mget r)) g lane))
      ∧ LatchWords (fun i => if laneOn (t.st.mget r) i then 1 else 0) t ∧ OnlyMasks [r] s t

/-- A mask in mask register r without the bits of absent lanes (R150, R14), or under N in the latch alone; the latch
holds each present lane's bit (R47). -/
def MaskIs (n : Bool) (r : Nat) (x : BitVec 64) (s t : State) : Prop :=
  LatchWords (fun i => if laneOn s.st.present i && laneOn x i then 1 else 0) t
    ∧ LatchZeros (fun i => !laneOn s.st.present i) t
    ∧ (if n then OnlyMoved s t else t.st.mget r = x &&& s.st.present ∧ OnlyMasks [r] s t)

/-! ### What the ALU instructions compute

Each table gives a constructor beside the value that the manual gives it, as a function of the operands' values. -/

/-- 1 where a condition holds and 0 where it does not (R131). -/
def truth (c : Prop) [Decidable c] : Word := if c then 1 else 0

/-- Scalar instructions of two words (R129, R131). -/
def scalarWords : List ((Alu2 → Instr) × (Word → Word → Word)) := [
  (.sadd, fun a b => a + b), (.ssub, fun a b => a - b), (.smul, fun a b => a * b),
  (.smulhS, fun a b => BitVec.ofInt 32 (a.toInt * b.toInt / 2 ^ 32)),
  (.smulhUi, fun a b => BitVec.ofNat 32 (a.toNat * b.toNat / 2 ^ 32)),
  (.sand, fun a b => a &&& b), (.sor, fun a b => a ||| b), (.sxor, fun a b => a ^^^ b),
  (.scmpEq, fun a b => truth (a = b)), (.scmpNe, fun a b => truth (a ≠ b)),
  (.scmpLt, fun a b => truth (a.toInt < b.toInt)), (.scmpLe, fun a b => truth (a.toInt ≤ b.toInt)),
  (.scmpLtu, fun a b => truth (a.toNat < b.toNat)), (.scmpLeu, fun a b => truth (a.toNat ≤ b.toNat))]

/-- Scalar instructions of two pairs with a pair for result (R129). -/
def scalarPairs : List ((Alu2 → Instr) × (DWord → DWord → DWord)) := [
  (.saddD, fun a b => a + b), (.ssubD, fun a b => a - b), (.smulD, fun a b => a * b)]

/-- A shift to the left by a count of 32 bits (R130). -/
def shl {w : Nat} (a : BitVec w) (b : Word) : BitVec w := if w ≤ b.toNat then 0 else a <<< b.toNat
/-- A shift to the right with zero fill. -/
def shr {w : Nat} (a : BitVec w) (b : Word) : BitVec w := if w ≤ b.toNat then 0 else a >>> b.toNat
/-- A shift to the right with sign fill: 0 or all ones by A's sign at or above the width. -/
def sra {w : Nat} (a : BitVec w) (b : Word) : BitVec w :=
  if w ≤ b.toNat then (if a.toInt < 0 then BitVec.allOnes w else 0) else a.sshiftRight b.toNat

/-- The scalar shifts of a word and of a pair (R130). -/
def scalarShifts : List ((Alu2 → Instr) × (Word → Word → Word)) := [(.sshl, shl), (.sshr, shr), (.ssra, sra)]
/-- The shifts of a pair: the count is a word. -/
def scalarPairShifts : List ((Alu2 → Instr) × (DWord → Word → DWord)) := [(.sshlD, shl), (.sshrD, shr), (.ssraD, sra)]

/-- The special registers below 0x20: index, whether of 64 bits, and value (R25, R125, R281). -/
def specialLow : List (BitVec 8 × Bool × (State → DWord)) := [
  (0x00, true, fun s => s.clock), (0x01, false, fun _ => 64), (0x02, false, fun s => BitVec.ofNat 64 s.st.idx),
  (0x03, false, fun s => BitVec.ofNat 64 s.blk.id), (0x04, false, fun s => BitVec.ofNat 64 s.grd.nblocks),
  (0x05, false, fun s => BitVec.ofNat 64 s.grd.id),
  (0x06, false, fun s => BitVec.ofNat 64 (s.blk.id % s.grd.gdim 0)),
  (0x07, false, fun s => BitVec.ofNat 64 (s.blk.id / s.grd.gdim 0 % s.grd.gdim 1)),
  (0x08, false, fun s => BitVec.ofNat 64 (s.blk.id / (s.grd.gdim 0 * s.grd.gdim 1))),
  (0x09, false, fun s => BitVec.ofNat 64 (s.grd.gdim 0)), (0x0A, false, fun s => BitVec.ofNat 64 (s.grd.gdim 1)),
  (0x0B, false, fun s => BitVec.ofNat 64 (s.grd.gdim 2)), (0x0C, false, fun s => BitVec.ofNat 64 (s.grd.bdim 0)),
  (0x0D, false, fun s => BitVec.ofNat 64 (s.grd.bdim 1)), (0x0E, false, fun s => BitVec.ofNat 64 (s.grd.bdim 2)),
  (0x0F, false, fun s => s.place.setWidth 64), (0x10, false, fun s => s.st.resumes.setWidth 64),
  (0x11, true, fun s => s.st.trapvec), (0x12, false, fun s => s.st.trapcause.setWidth 64),
  (0x13, false, fun s => s.st.cqsel.setWidth 64)]

/-- The special registers from 0x20 on (R25, R125, R200, R292). -/
def specialHigh : List (BitVec 8 × Bool × (State → DWord)) := [
  (0x20, false, fun s => s.accepted.setWidth 64), (0x21, false, fun s => (s.accepted >>> 32).setWidth 64),
  (0x22, false, fun s => (s.accepted >>> 64).setWidth 64), (0x23, false, fun s => (s.accepted >>> 96).setWidth 64),
  (0x24, false, fun s => (s.accepted >>> 128).setWidth 64), (0x25, false, fun s => (s.accepted >>> 160).setWidth 64),
  (0x26, false, fun s => (s.accepted >>> 192).setWidth 64), (0x27, false, fun s => (s.accepted >>> 224).setWidth 64),
  (0x28, true, fun s => s.st.trapret), (0x29, true, fun s => s.blk.barena), (0x2A, true, fun s => s.grd.garena),
  (0x2B, true, fun s => s.tarena), (0x2C, false, fun s => s.blk.bbdrops.setWidth 64),
  (0x2D, false, fun s => if s.st.trapmask then 1 else 0)]

/-- Every special register that SGET reads. -/
def specialRegisters : List (BitVec 8 × Bool × (State → DWord)) := specialLow ++ specialHigh

/-- An exact value that SAT clamps to a signed format of w bits, and that wraps otherwise (R136). -/
def narrowS (w : Nat) (p : Option AluPre) (x : Int) : BitVec w :=
  if satOf p then BitVec.ofInt w (max (-(2 ^ (w - 1))) (min x (2 ^ (w - 1) - 1))) else BitVec.ofInt w x

/-- An exact value that SAT clamps to an unsigned word, and that wraps otherwise (R136). -/
def narrowU (p : Option AluPre) (x : Int) : Word :=
  if satOf p then BitVec.ofInt 32 (max 0 (min x (2 ^ 32 - 1))) else BitVec.ofInt 32 x

/-- The sum of four products of bytes, as v reads them (R137). -/
def dotSum (va vb : Byte → Int) (a b : Word) : Int :=
  va (byteOf a 0) * vb (byteOf b 0) + va (byteOf a 1) * vb (byteOf b 1) + va (byteOf a 2) * vb (byteOf b 2)
    + va (byteOf a 3) * vb (byteOf b 3)

/-- A byte as a signed and as an unsigned number. -/
def sbyte (b : Byte) : Int := b.toInt
/-- An unsigned byte. -/
def ubyte (b : Byte) : Int := b.toNat

/-- Lane-wise integer instructions: the prefix, then A, B and C (R135 to R137, R139). -/
def vectorWords : List ((Alu2 → Instr) × (Option AluPre → Word → Word → Word → Word)) := [
  (.vadd, fun p a b _ => narrowS 32 p (a.toInt + b.toInt)), (.vsub, fun p a b _ => narrowS 32 p (a.toInt - b.toInt)),
  (.vmul, fun _ a b _ => a * b), (.vmulhS, fun _ a b _ => BitVec.ofInt 32 (a.toInt * b.toInt / 2 ^ 32)),
  (.vmulhUi, fun _ a b _ => BitVec.ofNat 32 (a.toNat * b.toNat / 2 ^ 32)),
  (.vmad, fun p a b c => narrowS 32 p (a.toInt * b.toInt + c.toInt)),
  (.vdot4S8, fun p a b c => narrowS 32 p (c.toInt + dotSum sbyte sbyte a b)),
  (.vdot4Ui8, fun p a b c => narrowU p (c.toNat + dotSum ubyte ubyte a b)),
  (.vdot4Mix, fun p a b c => narrowS 32 p (c.toInt + dotSum sbyte ubyte a b)),
  (.vand, fun _ a b _ => a &&& b), (.vor, fun _ a b _ => a ||| b), (.vxor, fun _ a b _ => a ^^^ b),
  (.vshl, fun _ a b _ => shl a b), (.vshr, fun _ a b _ => shr a b), (.vsra, fun _ a b _ => sra a b),
  (.vminS, fun _ a b _ => if a.toInt ≤ b.toInt then a else b),
  (.vminUi, fun _ a b _ => if a.toNat ≤ b.toNat then a else b),
  (.vmaxS, fun _ a b _ => if a.toInt ≤ b.toInt then b else a),
  (.vmaxUi, fun _ a b _ => if a.toNat ≤ b.toNat then b else a),
  (.vsel, fun _ a b c => if c ≠ 0 then a else b),
  (.vbfeS, fun _ a b c => bitField true a b c), (.vbfeUi, fun _ a b c => bitField false a b c)]

/-- Lane-wise integer instructions of pairs (R135, R136). -/
def vectorPairs : List ((Alu2 → Instr) × (Option AluPre → DWord → DWord → DWord)) := [
  (.vaddD, fun p a b => narrowS 64 p (a.toInt + b.toInt)), (.vsubD, fun p a b => narrowS 64 p (a.toInt - b.toInt))]

/-- Lane-wise shifts of pairs: the count is a word. -/
def vectorPairShifts : List ((Alu2 → Instr) × (DWord → Word → DWord)) := [(.vshlD, shl), (.vshrD, shr), (.vsraD, sra)]

/-- Lane-wise instructions of A alone: the position of A and the value (R135, R142). -/
def vectorUnaries : List ((Alu1 → Instr) × Pos × (Option AluPre → Word → Word)) := [
  (.vabs, .int, fun _ a => BitVec.ofNat 32 a.toInt.natAbs),
  (.vpopc, .int, fun _ a => BitVec.ofNat 32 (popCount a)), (.vclz, .int, fun _ a => leadingZeros a),
  (.vfrcp, .fp, fun p a => BitVec.ofNat 32 (fpRcp (rmOf p) (ftzOf p) a.toNat)),
  (.vfrsq, .fp, fun p a => BitVec.ofNat 32 (fpRsq (rmOf p) (ftzOf p) a.toNat)),
  (.vexp2, .fp, fun p a => BitVec.ofNat 32 (fpExp2 (ftzOf p) a.toNat)),
  (.vlog2, .fp, fun p a => BitVec.ofNat 32 (fpLog2 (ftzOf p) a.toNat)),
  (.vfsin, .fp, fun p a => BitVec.ofNat 32 (fpSin (ftzOf p) a.toNat)),
  (.vfcos, .fp, fun p a => BitVec.ofNat 32 (fpCos (ftzOf p) a.toNat))]

/-- Lane-wise floating-point instructions: the position of the operands and the value (R140, R141). -/
def vectorFloats : List ((Alu2 → Instr) × Pos × (Option AluPre → Word → Word → Word → Word)) := [
  (.vfadd, .fp, fun p a b _ => BitVec.ofNat 32 (fpAdd fp32 (rmOf p) (ftzOf p) a.toNat b.toNat)),
  (.vfsub, .fp, fun p a b _ => BitVec.ofNat 32 (fpSub fp32 (rmOf p) (ftzOf p) a.toNat b.toNat)),
  (.vfmul, .fp, fun p a b _ => BitVec.ofNat 32 (fpMul fp32 (rmOf p) (ftzOf p) a.toNat b.toNat)),
  (.vfma, .fp, fun p a b c => BitVec.ofNat 32 (fpFma fp32 (rmOf p) (ftzOf p) a.toNat b.toNat c.toNat)),
  (.vhfmaBf16, .bf16, fun p a b c => BitVec.ofNat 32 (
    fpFma bf16 (rmOf p) (ftzOf p) (a.toNat % 65536) (b.toNat % 65536) (c.toNat % 65536)
      + 65536 * fpFma bf16 (rmOf p) (ftzOf p) (a.toNat / 65536) (b.toNat / 65536) (c.toNat / 65536))),
  (.vhfmaF16, .f16, fun p a b c => BitVec.ofNat 32 (
    fpFma fp16 (rmOf p) (ftzOf p) (a.toNat % 65536) (b.toNat % 65536) (c.toNat % 65536)
      + 65536 * fpFma fp16 (rmOf p) (ftzOf p) (a.toNat / 65536) (b.toNat / 65536) (c.toNat / 65536))),
  (.vfmin, .fp, fun p a b _ => BitVec.ofNat 32 (fpMin fp32 (ftzOf p) a.toNat b.toNat)),
  (.vfmax, .fp, fun p a b _ => BitVec.ofNat 32 (fpMax fp32 (ftzOf p) a.toNat b.toNat))]

/-- The condition of a comparison of numbers (R72, R138): 0 eq, 1 ne, 2 lt, 3 le, 4 gt, 5 ge. -/
def orderCond (c : Nat) (a b : Int) : Bool :=
  match c with
  | 0 => a = b
  | 1 => a ≠ b
  | 2 => a < b
  | 3 => a ≤ b
  | 4 => b < a
  | _ => b ≤ a

/-- Comparisons: the condition, then A and B in lane i of a state (R138, R140). -/
def vectorCompares : List ((Alu2 → Instr) × (State → Alu2 → Nat → Bool)) := [
  (.vcmpS32, fun s f i => orderCond (f.d.toNat / 16) (opnd32 .int s i f.a).toInt (opnd32 .int s i f.b).toInt),
  (.vcmpUi32, fun s f i => orderCond (f.d.toNat / 16) (opnd32 .int s i f.a).toNat (opnd32 .int s i f.b).toNat),
  (.vcmpS64, fun s f i => orderCond (f.d.toNat / 16) (opnd64 s i f.a).toInt (opnd64 s i f.b).toInt),
  (.vcmpUi64, fun s f i => orderCond (f.d.toNat / 16) (opnd64 s i f.a).toNat (opnd64 s i f.b).toNat),
  (.vfcmp, fun s f i =>
    fpCmp (f.d.toNat / 16) (ftzOf f.pre) (opnd32 .fp s i f.a).toNat (opnd32 .fp s i f.b).toNat)]

/-! ### Across lanes (R144 to R149) -/

/-- A's value in another lane: zero where that lane is absent. -/
def fromLane (s : State) (o : Opnd) (k : Nat) : Word := if laneOn s.st.present k then opnd32 .int s k o else 0

/-- Shuffles and the broadcast: the value of lane i (R144, R145). -/
def shuffles : List ((Alu2 → Instr) × (State → Alu2 → Nat → Word)) := [
  (.vshufXor, fun s f i => fromLane s f.a (i ^^^ ((opnd32 .int s i f.b).toNat % 64))),
  (.vshufUp, fun s f i =>
    let b := (opnd32 .int s i f.b).toNat
    if b ≤ i then fromLane s f.a (i - b) else opnd32 .int s i f.a),
  (.vshufDown, fun s f i =>
    let b := (opnd32 .int s i f.b).toNat
    if i + b < 64 then fromLane s f.a (i + b) else opnd32 .int s i f.a),
  (.vshufIdx, fun s f i => fromLane s f.a ((opnd32 .int s i f.b).toNat % 64)),
  (.vbcast, fun s f _ => fromLane s f.a ((s.arg f.b).toNat % 64))]

/-- The value of an integer reduction as a fold over the active lanes in ascending order (R147): the operation of
code x. -/
def redWord (x : Nat) (a b : Word) : Word :=
  match x with
  | 0 => a + b
  | 1 => if a.toInt ≤ b.toInt then a else b
  | 2 => if a.toInt ≤ b.toInt then b else a
  | 3 => if a.toNat ≤ b.toNat then a else b
  | 4 => if a.toNat ≤ b.toNat then b else a
  | 5 => a &&& b
  | 6 => a ||| b
  | _ => a ^^^ b

/-- The result of an integer reduction with no active lane (R147). -/
def redNone (x : Nat) : Word :=
  match x with
  | 1 => 0x7FFFFFFF
  | 2 => 0x80000000
  | 3 => 0xFFFFFFFF
  | 5 => 0xFFFFFFFF
  | _ => 0

/-- The combination of the values of some lanes, the lowest lane first. -/
def redFold (x : Nat) : List Word → Word
  | [] => redNone x
  | a :: t => t.foldl (redWord x) a

/-! ### The exact accumulator and the narrow formats (R93 to R104, R174 to R180) -/

/-- KADD's forms: the position of A and the values that a word holds (R103, R151). -/
def kadds : List ((Alu1 → Instr) × Pos × (Word → List Val)) := [
  (.kaddF32, .fp, fun w => [unpack fp32 w.toNat]),
  (.kaddF16, .f16, fun w => [unpack fp16 (w.toNat % 65536), unpack fp16 (w.toNat / 65536)]),
  (.kaddBf16, .bf16, fun w => [unpack bf16 (w.toNat % 65536), unpack bf16 (w.toNat / 65536)])]

/-- A finite value in units of 2^-149; NaN and the infinities add nothing (R103). -/
def kUnits : Val → Int
  | .fin neg m e => alignTo neg m e (-149)
  | _ => 0

/-- What k holds after the values `xs` have been added to it (R103): V modulo 2^320, and the sticky flags. -/
def KAdded (xs : List Val) (k l : KAcc) : Prop :=
  l.sum = k.sum + BitVec.ofInt 320 (xs.map kUnits).sum
  ∧ l.nan = (k.nan || xs.contains .nan)
  ∧ l.pinf = (k.pinf || xs.contains (.inf false) || decide (2 ^ 309 ≤ l.sum.toInt))
  ∧ l.ninf = (k.ninf || xs.contains (.inf true) || decide (l.sum.toInt < -(2 ^ 309)))

/-- Beside the strand's place nothing differs but k. -/
def OnlyK (s t : State) : Prop := t = { s with st := { s.st.moved t.st with k := t.st.k } }

/-- The strand's registers with a scalar pair written. -/
def withPair (s : State) (r : Nat) (lo hi : Word) : State := { s with st := (s.st.sset r lo).sset (r + 1) hi }

/-- A's value in a lane that may be out of range or absent. -/
def laneOf (s : State) (o : Opnd) (k : Int) : Option Word :=
  if 0 ≤ k ∧ k < 64 ∧ laneOn s.st.present k.toNat = true then some (opnd32 .int s k.toNat o) else none

/-- The digit of a lane for PK3 (R178). -/
def trit : Option Word → Nat
  | none => 1
  | some x => if x.toInt > 0 then 2 else if x.toInt < 0 then 0 else 1

/-- PK3's value in lane i (R178). -/
def pk3Lane (s : State) (f : Alu2) (i : Nat) : Word :=
  let d := fun (e : Int) => trit (laneOf s f.a ((opnd32 .int s i f.b).toInt + 5 * i + e))
  BitVec.ofNat 32 (d 0 + 3 * d 1 + 9 * d 2 + 27 * d 3 + 81 * d 4)

/-- The index that UPK3 and UPK4 unpack into lane i. -/
def unpackIndex (s : State) (f : Alu2) (i : Nat) : Int := (opnd32 .int s i f.b).toInt + i

/-- UPK3's value in lane i; an illegal byte decodes as 121 (R93, R179). -/
def upk3Lane (s : State) (f : Alu2) (i : Nat) : Word :=
  let k := unpackIndex s f i
  match laneOf s f.a (k / 5) with
  | none => 0
  | some w =>
    let y := w.toNat % 256
    BitVec.ofInt 32 (((if y > 242 then 121 else y) / 3 ^ (k % 5).toNat % 3 : Nat) - 1)

/-- The active lanes that read a byte of 243 to 255 in UPK3 (R179). -/
def upk3Bad (s : State) (f : Alu2) : List Nat :=
  (lanesOf (s.active f.pre)).filter fun i =>
    match laneOf s f.a (unpackIndex s f i / 5) with
    | none => false
    | some w => decide (w.toNat % 256 > 242)

/-- PK4's value in lane i (R180). -/
def pk4Lane (s : State) (f : Alu2) (i : Nat) : Word :=
  let d := fun (e : Int) =>
    match laneOf s f.a ((opnd32 .int s i f.b).toInt + 8 * i + e) with
    | none => 0
    | some w => (clamp w.toInt (-8) 7 % 16).toNat
  BitVec.ofNat 32 (d 0 + 16 * d 1 + 16 ^ 2 * d 2 + 16 ^ 3 * d 3 + 16 ^ 4 * d 4 + 16 ^ 5 * d 5 + 16 ^ 6 * d 6
    + 16 ^ 7 * d 7)

/-- UPK4's value in lane i (R180). -/
def upk4Lane (s : State) (f : Alu2) (i : Nat) : Word :=
  let k := unpackIndex s f i
  match laneOf s f.a (k / 8) with
  | none => 0
  | some w => ((w >>> (4 * (k % 8).toNat)).setWidth 4).signExtend 32

/-! ### Control (R113 to R128) -/

/-- The clause has ended and the next one stands at p (R53): nothing but the strand's place differs, and the strand is
ready unless its grid has ended (R348) or orrery's stop takes effect (R118). -/
def Jumped (p : DWord) (s t : State) : Prop :=
  t.st.pc = p ∧ t.st.clause = none ∧ OnlyMoved s t
  ∧ (s.grd.ended = none → (s.st.bkpt && s.wld.attached) = false → t.st.status = .ready)

/-- The address of a branch's target: the address of its word plus 4·OFF, OFF being signed (R66). -/
def targetOf (s : State) (off : BitVec 16) : DWord := s.st.pc + BitVec.ofInt 64 (4 * off.toInt)

/-- The conditional branches: when each is taken (R113, R114). -/
def branches : List ((BitVec 16 → Instr) × (State → Prop)) :=
  ((List.range 64).map fun k => (Instr.brsZ (BitVec.ofNat 6 k), fun (s : State) => s.st.sget k = 0))
  ++ ((List.range 64).map fun k => (Instr.brsNz (BitVec.ofNat 6 k), fun (s : State) => s.st.sget k ≠ 0))
  ++ ((List.range 16).map fun k =>
    (Instr.brmAny (BitVec.ofNat 4 k), fun (s : State) => ∃ i, i < 64 ∧ laneOn (s.st.mget k) i = true))
  ++ ((List.range 16).map fun k => (Instr.brmAll (BitVec.ofNat 4 k), fun (s : State) =>
      ∀ i, i < 64 → laneOn s.st.present i = true → laneOn (s.st.mget k) i = true))
  ++ ((List.range 16).map fun k =>
    (Instr.brmNone (BitVec.ofNat 4 k), fun (s : State) => ∀ i, i < 64 → laneOn (s.st.mget k) i = false))

/-- The BARP opcodes: the constructor, its opcode and the operation's code in `redWord` (R123). -/
def barps : List ((BitVec 7 → Opnd → Instr) × Nat × Nat) := [
  (.barpAnd, 0x13, 5), (.barpOr, 0x14, 6), (.barpAdd, 0x15, 0), (.barpMin, 0x16, 1), (.barpMax, 0x17, 2)]

/-- The address of the word after the last one of the open clause (R53). -/
def afterClause (s : State) (c : Clause) : DWord := s.st.pc + BitVec.ofNat 64 (4 * c.words.length)

/-- CLOCK[31:0] has reached p: their difference as a signed number is not negative (R280). -/
def clockReached (s : State) (p : Word) : Prop := 0 ≤ ((s.clock.setWidth 32 : Word) - p).toInt

/-- The status that a strand's TRAPCAUSE shows (R125): the fault code, the detail and ACTIVE. -/
def causeWord (code detail : Nat) : Word := BitVec.ofNat 32 (code * 2 ^ 24 + detail * 2 ^ 16 + 1)

/-- The opcodes of the BARPs with the codes of their operations (R123). -/
def barpCodes : List (Nat × Nat) := [(0x13, 5), (0x14, 6), (0x15, 0), (0x16, 1), (0x17, 2)]

/-- The payloads that a phase combines under an opcode: that of the strand that arrives last, where its opcode
is that one, and those of the strands that wait. -/
def brought (op : Nat) (own : Option (Nat × Word)) (l : List Strand) : List Word :=
  (match own with | some (o, x) => if o = op then [x] else [] | none => []) ++ payloads op l

/-- A strand that waited at a barrier has been let go (R121, R123): from a BARP with the combination of the
payloads of its opcode in D, and no other register changed. -/
def LetGo (own : Option (Nat × Word)) (all : List Strand) (u v : Strand) : Prop :=
  (u.status = .waiting .bar → v = { u with status := .ready, attempt := some 0 })
  ∧ (∀ op x d, u.status = .waiting (.barp op x d) → ∀ code, (op, code) ∈ barpCodes →
      v.status = .ready ∧ v.attempt = some 0 ∧ v.pc = u.pc ∧ v.v = u.v ∧ v.m = u.m
        ∧ v.sget d = redFold code (brought op own all) ∧ ∀ r, r ≠ d → v.sget r = u.sget r)

/-- The strands of a block after its barrier phase has completed. -/
def PhaseOver (own : Option (Nat × Word)) (old new : List Strand) : Prop :=
  new.length = old.length ∧ ∀ (k : Nat) (u v : Strand), old[k]? = some u → new[k]? = some v → LetGo own old u v

/-! ### Memory (R228 to R265) -/

/-- The vector forms of the device-memory instructions: whether the prologue forbids them (R28), and what they ask
for. -/
def deviceVector : List ((MemV → Instr) × Bool × (MemV → State → MemReq)) := [
  (.ld, false, fun f s => vecReq .ld (.load s.prologue) f s),
  (.st, true, fun f s => storeReq true (vecReq .st .store f s)),
  (.stx, true, fun f s => storeReq false (vecReq .st .store f s)),
  (.atom, true, fun f s => atomReq (vecReq .atom (.atomic (attOf f.att).aop.toNat) f s)),
  (.tagld, false, fun f s => tagReq (vecReq .tagld .tagld f s)),
  (.tagst, true, fun f s => tagReq (vecReq .tagst .tagst f s))]

/-- The uniform forms. -/
def deviceUniform : List ((MemU → Instr) × Bool × (MemU → State → MemReq)) := [
  (.ldU, false, fun f s => uniReq .ld (.load s.prologue) f s),
  (.stU, true, fun f s => storeReq true (uniReq .st .store f s)),
  (.stxU, true, fun f s => storeReq false (uniReq .st .store f s)),
  (.atomU, true, fun f s => atomReq (uniReq .atom (.atomic (attOf f.att).aop.toNat) f s)),
  (.tagldU, false, fun f s => tagReq (uniReq .tagld .tagld f s)),
  (.tagstU, true, fun f s => tagReq (uniReq .tagst .tagst f s))]

/-- Every device-memory instruction with its operands: the instruction, whether the prologue forbids it, its
request. -/
inductive DeviceAccess : Instr → Bool → (State → MemReq) → Prop
  | vector (e) (h : e ∈ deviceVector) (f : MemV) : DeviceAccess (e.1 f) e.2.1 (e.2.2 f)
  | uniform (e) (h : e ∈ deviceUniform) (f : MemU) : DeviceAccess (e.1 f) e.2.1 (e.2.2 f)

/-- The lanes of the attempt at hand: all active ones, or those that a parked instruction has left (R230). -/
def lanesLeft (r : MemReq) (s : State) : List Nat := lanesOf (s.st.attempt.getD r.lanes)

/-- The units of the lanes that passed their checks. -/
def passedParts (r : MemReq) (s : State) : List LaneAcc :=
  (checkLanes r (lanesLeft r s) s).1.flatMap fun x => x.2.flatMap (laneUnits r x.1)

/-- The faults of the lanes that failed them. -/
def failedLanes (r : MemReq) (s : State) : List (Nat × FaultInfo) := (checkLanes r (lanesLeft r s) s).2.1

/-- The state after the translations and first touches of the checks. -/
def afterChecks (r : MemReq) (s : State) : State := (checkLanes r (lanesLeft r s) s).2.2

/-- The number of the instruction's operation: a new one at the first attempt, and the same at a later one. -/
def serialOf (t : Strand) : Nat := if t.attempt = none then t.serial + 1 else t.serial

/-- A strand's operations once the instruction has issued o: the lanes of a later attempt join the operation of
the earlier ones while it is outstanding (R230), and an operation without lanes is none. -/
def JoinedOps (o : Op) (t : Strand) (ops : List Op) : Prop :=
  let n := serialOf t
  (o.lanes = [] → ops = t.ops)
  ∧ (o.lanes ≠ [] → (t.attempt = none ∨ ∀ x ∈ t.ops, x.serial ≠ n) → ops = t.ops ++ [{ o with serial := n }])
  ∧ (o.lanes ≠ [] → t.attempt ≠ none → (∃ x ∈ t.ops, x.serial = n) →
      ops = t.ops.map fun (x : Op) =>
        if x.serial = n then { x with lanes := x.lanes ++ o.lanes, collapsed := o.collapsed } else x)

/-- The strand has issued operation o (R229), beside going on: `u` is the state after the checks. -/
def Issued (o : Op) (s u t : State) : Prop :=
  t = { u with st := { s.st.moved t.st with ops := t.st.ops, serial := serialOf s.st } } ∧ JoinedOps o s.st t.st.ops

/-- An attempt that fails for lanes delivers a fault (R212, R229, R230): that of the lowest lane with an ESCAPE,
or else of the lowest lane with a fault that is not replayable; LANES names the lanes with a fault of that code.
-/
def DeliversFirst (uni : Bool) (failed : List (Nat × FaultInfo)) (i : Instr) (s : State) : Prop :=
  ∀ l lane x q, failed = l ++ (lane, x) :: q →
    ((x.code = codeEscape ∧ ∀ y ∈ l, y.2.code ≠ codeEscape)
      ∨ (replayable x.code = false ∧ (∀ y ∈ failed, y.2.code ≠ codeEscape) ∧ ∀ y ∈ l, replayable y.2.code = true)) →
    exec i s = deliver
      { x with lanes := if uni then 0 else maskOf ((failed.filter fun y => y.2.code = x.code).map (·.1)) } s

/-- An attempt of which lanes took replayable faults, and no others, parks the strand with those lanes, unless
its grid has ended, and has issued operation o for the rest (R230, R348); `u` is the state after the checks. -/
def ParksWith (uni : Bool) (failed : List (Nat × FaultInfo)) (o : Op) (i : Instr) (s u : State) : Prop :=
  ∀ lane x q, failed = (lane, x) :: q → Completes i s fun t =>
    let left := maskOf (failed.map (·.1))
    t.st.status = (if s.grd.ended.isSome = true then .faulted else .parked { x with lanes := if uni then 0 else left } left)
      ∧ t.st.attempt = some left ∧ t.st.serial = serialOf s.st ∧ JoinedOps o s.st t.st.ops
      ∧ t.st.pc = s.st.pc ∧ t.st.clause = s.st.clause ∧ t.st.v = s.st.v ∧ t.st.s = s.st.s ∧ t.st.m = s.st.m
      ∧ t.mem = u.mem

/-- The vector forms of the scratchpad and SBM instructions: SBM or scratchpad, whether they write, the request. -/
def chipVector : List ((MemV → Instr) × Bool × Bool × (MemV → State → MemReq)) := [
  (.lds, false, false, fun f s => localVec .lds f s), (.sts, false, true, fun f s => storeReq true (localVec .sts f s)),
  (.atoms, false, true, fun f s => localAtom (localVec .atoms f s)), (.gld, true, false, fun f s => localVec .gld f s),
  (.gst, true, true, fun f s => storeReq true (localVec .gst f s)),
  (.gop, true, true, fun f s => localAtom (localVec .gop f s))]

/-- The uniform forms. -/
def chipUniform : List ((MemU → Instr) × Bool × Bool × (MemU → State → MemReq)) := [
  (.ldsU, false, false, fun f s => localUni .lds f s), (.stsU, false, true, fun f s => storeReq true (localUni .sts f s)),
  (.atomsU, false, true, fun f s => localAtom (localUni .atoms f s)), (.gldU, true, false, fun f s => localUni .gld f s),
  (.gstU, true, true, fun f s => storeReq true (localUni .gst f s)),
  (.gopU, true, true, fun f s => localAtom (localUni .gop f s))]

/-- Every scratchpad and SBM instruction with its operands: SBM, writes, request. -/
inductive ChipAccess : Instr → Bool → Bool → (State → MemReq) → Prop
  | vector (e) (h : e ∈ chipVector) (f : MemV) : ChipAccess (e.1 f) e.2.1 e.2.2.1 (e.2.2.2 f)
  | uniform (e) (h : e ∈ chipUniform) (f : MemU) : ChipAccess (e.1 f) e.2.1 e.2.2.1 (e.2.2.2 f)

/-- The address of a lane of an on-chip access, with the bits below its size cleared (R235). -/
def chipAddr (r : MemReq) (lane : Nat) : Nat := ((r.addr lane).setWidth 32 : Word).toNat / r.size * r.size

/-- Does the lane stay within the allotment: of the block's scratchpad, or of each die's SBM (R253, R257)? -/
def chipInside (s : State) (sbm : Bool) (r : MemReq) (lane : Nat) : Prop :=
  if sbm then chipAddr r lane % 2 ^ 30 + r.size ≤ s.grd.sbmBytes else chipAddr r lane + r.size ≤ s.scratchLimit

/-- Where an on-chip operation stands: the grid's SBM or the block's scratchpad. -/
def onChip (sbm : Bool) (s : State) : Memory := if sbm then s.grd.sbm else s.blk.scratch

/-- The poisoned offsets there. -/
def chipPoison (sbm : Bool) (s : State) : List Nat := if sbm then s.grd.sbmPoison else s.blk.scratchPoison

/-- Does the lane's access meet an armed byte barrier (R283)? -/
def chipArmed (s : State) (r : MemReq) (lane : Nat) : Prop :=
  ∃ g ∈ s.blk.armed, 16 * g < chipAddr r lane + r.size ∧ chipAddr r lane < 16 * g + 16

/-- The new value of an atomic's word for the integer operations (R240): x the old value, y the data, c the compare
operand. -/
def atomInt {w : Nat} (aop : Nat) (x y c : BitVec w) : BitVec w :=
  match aop with
  | 0 => x + y
  | 1 => if x.toInt ≤ y.toInt then x else y
  | 2 => if x.toInt ≤ y.toInt then y else x
  | 3 => if x.toNat ≤ y.toNat then x else y
  | 4 => if x.toNat ≤ y.toNat then y else x
  | 5 => x &&& y
  | 6 => x ||| y
  | 7 => x ^^^ y
  | 8 => y
  | _ => if x = c then y else x

/-- FP32 addition at an L2 or a bank: RNE, subnormals kept (R245). -/
def atomFadd (x y : Word) : Word := BitVec.ofNat 32 (fpAdd fp32 0 false x.toNat y.toNat)

/-- The new word of 32 bits (R240): fadd, fmin and fmax beside the integer operations. -/
def atomNew32 (aop : Nat) (x y c : Word) : Word :=
  if aop < 10 then atomInt aop x y c
  else if aop = 10 then atomFadd x y
  else if aop = 11 then BitVec.ofNat 32 (fpMin fp32 false x.toNat y.toNat)
  else BitVec.ofNat 32 (fpMax fp32 false x.toNat y.toNat)

/-- The new word of 64 bits (R240): pair adds its halves, the upper one in FP32. -/
def atomNew64 (aop : Nat) (x y c : DWord) : DWord :=
  if aop < 10 then atomInt aop x y c
  else atomFadd ((x >>> 32).setWidth 32) ((y >>> 32).setWidth 32) ++ ((x.setWidth 32 : Word) + y.setWidth 32)

/-- The bytes that an atomic on a word of 4 or 8 bytes leaves there (R240). -/
def atomAfter (aop size : Nat) (old data : List Byte) (c : DWord) : List Byte :=
  if size = 4 then
    leBytes 4 (atomNew32 aop (BitVec.ofNat 32 (leNat old)) (BitVec.ofNat 32 (leNat data)) (c.setWidth 32)).toNat
  else leBytes size (atomNew64 aop (BitVec.ofNat 64 (leNat old)) (BitVec.ofNat 64 (leNat data)) c).toNat

/-- A lane's registers, from the operation's destination on, hold the words `l`. -/
def Holds (o : Op) (lane : Nat) (l : List Word) (t : State) : Prop :=
  ∀ k w, l[k]? = some w → (if o.uni then t.st.sget (o.dst + k) else t.st.vget (o.dst + k) lane) = w

/-- The bytes that a lane has read when the units that were left have read theirs as `read` says (R294). -/
def laneRead (o : Op) (lane : Nat) (read : LaneAcc → List Byte) : List Byte :=
  joinParts o.size ((lanePartsOf o.lanes lane).map fun a => (a.off, if a.done then a.data else read a))

/-- An operation of which only some units have been performed stays outstanding with the others. -/
def LeftWith (n : Nat) (l : List LaneAcc) (t : State) : Prop :=
  if l = [] then opAt t.st n = none else ∃ x, opAt t.st n = some x ∧ x.undone = l

/-- The strand r is in focus. -/
def InFocus (r : StrandRef) (s : State) : Prop := s.st.here = true ∧ s.st.ref = r

/-- A byte of memory reads as before at every place that the list does not name. -/
def SameBytes (except : List Nat) (s t : State) : Prop := ∀ a, a ∉ except → Memory.read t.mem a = Memory.read s.mem a

/-- The header of a grid's fault area stands at places of one key id, can be read and can be written (R345, R346). -/
def AreaAt (g : Nat) (hp : List Nat) (hk : Nat) (s : State) : Prop :=
  ∃ x w, s.grid g = some x ∧ s.world x.key = some w ∧ areaPlace s w x.faultArea 64 = .at_ hp hk ∧ badLines s hk hp = []
    ∧ hp.Nodup ∧ hp.length = 64 ∧ ∀ a ∈ hp, s.badByte a = false ∧ s.mixed.contains (a / 2 ^ 29) = false

/-- A place of a grid's fault area, numbered from 0, stands at places of one key id and can be written (R345,
R346). -/
def RecordRoom (g n : Nat) (rp : List Nat) (rk : Nat) (s : State) : Prop :=
  ∃ x w, s.grid g = some x ∧ s.world x.key = some w
    ∧ areaPlace s w (x.faultArea + BitVec.ofNat 64 (64 + 64 * n)) 64 = .at_ rp rk
    ∧ rp.Nodup ∧ rp.length = 64 ∧ ∀ a ∈ rp, s.hostGone a = false

/-- A count of a fault area's header: 0 is COUNT, 1 LOST, 2 TRITREPL and 3 POISONED (R345). -/
def areaCount (hp : List Nat) (k : Nat) (s : State) : Nat := leNat ((hp.map s.readByte).drop (4 * k) |>.take 4)

/-- One count of a fault area has risen by n, up to 2^32 - 1, and the other three stand; no byte outside the
header and some other places has changed (R345). -/
def CountRises (hp : List Nat) (k n : Nat) (also : List Nat) (s t : State) : Prop :=
  (∀ j, j < 4 → areaCount hp j t = if j = k then min (areaCount hp j s + n) (2 ^ 32 - 1) else areaCount hp j s)
    ∧ SameBytes (also ++ hp) s t

/-- A record stands in the first free place of a fault area, and COUNT has risen (R345). -/
def Recorded (hp rp : List Nat) (rec : BitVec 512) (s t : State) : Prop :=
  rp.map (Memory.read t.mem) = leBytes 64 rec.toNat ∧ CountRises hp 0 1 rp s t

/-- The places that an operation's outstanding parts reach. -/
def Op.places (o : Op) : List Nat := o.undone.flatMap (·.pas)

/-! ### Engines and the matrix unit (R158 to R171, R250, R251, R278 to R285, R341, R342) -/

/-- The instruction has read bytes, which it numbers from `base` on, and none of them was poisoned (R294). -/
def BytesRead (base : Nat) (bytes : List Byte) (s : State) : Prop :=
  ∀ k, k < bytes.length → s.st.fetched.lookup (base + k) = some (nth 0 bytes k, false)

/-- Some of n bytes that the instruction numbers from `base` on are still to be read. -/
def Unread (base n : Nat) (s : State) : Prop := ∃ k, k < n ∧ s.st.fetched.lookup (base + k) = none

/-- They have all been read, and one of them was poisoned. -/
def ReadPoison (base n : Nat) (s : State) : Prop :=
  ¬ Unread base n s ∧ ∃ k x, k < n ∧ s.st.fetched.lookup (base + k) = some (x, true)

/-- A step reads some of the n bytes that are left, at least one, each as `got` says of its offset, and nothing
else happens but that lines leave the core's L1 (R294); `u` is the state after the checks. -/
def ReadsOn (base n : Nat) (got : Nat → Byte × Bool → Prop) (i : Instr) (s u : State) : Prop :=
  Completes i s fun t => ∃ l : List (Nat × Byte × Bool),
    (∃ x ∈ l, u.st.fetched.lookup x.1 = none) ∧ (∀ x ∈ l, ∃ k, k < n ∧ x.1 = base + k ∧ got k x.2)
      ∧ (∀ x ∈ t.l1, x ∈ u.l1) ∧ t = { u with l1 := t.l1, st := { u.st with fetched := u.st.fetched ++ l } }

/-- What byte k of some places holds, and whether it is poisoned, at its home. -/
def homeByte (u : State) (pas : List Nat) (k : Nat) : Byte × Bool := (u.readByte (nth 0 pas k), u.badNow (nth 0 pas k))

/-- Instruction i in state s comes to a uniform read of n bytes at p in state v (LAUNCH's, R294, R341): it
faults or parks as its checks say; bytes that are left are read; poison faults in a strict launch; and once all
are read, `k` holds of them and of the state after the read. -/
def ReadsThen (i : Instr) (base : Nat) (p : DWord) (n : Nat) (s v : State) (k : List Byte → State → Prop) : Prop :=
  let checks := checkParts .strand (dieOf v.blk.core) (.load false) true 8 (partsOf p n 3 0) v v.wld
  (∀ x, checks = .bad x → exec i s = parkOrDeliver x 1 v)
  ∧ ∀ parts y w, checks = .ok parts y w →
    let u : State := { y with wld := w }
    let z := l1Drop u.blk.core (linesOf (allPas parts)) (readOver (allPas parts) u)
    (Unread base n u → (∀ x ∈ parts, badLines u x.2.2.key x.2.2.pas = []) →
      ReadsOn base n (fun k x => x = homeByte u (allPas parts) k) i s u)
    ∧ (ReadPoison base n u → u.grd.tolerant = false → exec i s = deliver ⟨0x50, 0, p, 0, 0, 0⟩ z)
    ∧ ∀ bytes, bytes.length = n → BytesRead base bytes u → k bytes z

/-- The address of the 64-byte image that A names (R278, R341). -/
def imageBase (a : Opnd) (s : State) : Nat := (s.arg a).toNat / 64 * 64

/-- Instruction i comes to its image: it lies inside the scratchpad allotment or faults, its bytes are read byte
by byte, poison faults in a strict launch, and once all are read, `k` holds of them (R278, R294). -/
def ImageThen (i : Instr) (a : Opnd) (s : State) (k : List Byte → Prop) : Prop :=
  let base := imageBase a s
  base + 64 ≤ s.scratchLimit →
    (Unread 0 64 s →
      ReadsOn 0 64 (fun k x => x = (Memory.read s.blk.scratch (base + k), s.blk.scratchPoison.contains (base + k))) i s s)
    ∧ (ReadPoison 0 64 s → s.grd.tolerant = false → exec i s = deliver ⟨0x50, 0, BitVec.ofNat 64 base, 0, 0, 0⟩ s)
    ∧ ∀ image, image.length = 64 → BytesRead 0 image s → k image

/-- LAUNCH ends with a value in sD, and beside it nothing but the strand's place differs from `u`. -/
def LaunchEnds (d : BitVec 7) (a : Opnd) (x : Word) (u t : State) : Prop :=
  WentOn (wordCount (.launch d a)) u t ∧ t.st.sget d.toNat = x ∧ OnlyScalars [d.toNat] u t

/-- The fields of a byte barrier at p (R282): EXPECTED, ARRIVED, PHASE, ARMID, STATE. -/
def barrierFields (b : Block) (p : Nat) : List Nat :=
  [b.scratchNat p 4, b.scratchNat (p + 4) 4, b.scratchNat (p + 8) 4, b.scratchNat (p + 12) 2, b.scratchNat (p + 14) 1]

/-- Beside the strand's place and its block's queue of matrix operations only the slots in `ns` differ. -/
def OnlySlots (ns : List Nat) (s t : State) : Prop :=
  t = { s with
    st := s.st.moved t.st
    blk := { s.blk with slots := t.blk.slots, mops := t.blk.mops, mseq := t.blk.mseq } }
  ∧ ∀ n, n ∉ ns → t.blk.slot n = s.blk.slot n

/-- The block has taken a matrix operation into its issue order (R159). -/
def Queued (what : MWhat) (s t : State) : Prop :=
  ∃ m : MOp, t.blk.mops = s.blk.mops ++ [m] ∧ m.what = what ∧ m.seq = s.blk.mseq ∧ m.strand = s.st.idx
    ∧ m.started = false ∧ m.dead = false ∧ m.parked = false ∧ m.got = [] ∧ m.put = [] ∧ t.blk.mseq = s.blk.mseq + 1

/-! ### Events -/

/-- The event does not happen: the state stays (the state does not admit it). -/
def Stutters (i : Instr) (s : State) : Prop := exec i s = .next s

/-- A fetch of n bytes of code at the strand's pc passes its checks, meets no bad MAC, no poison and no failed
flit, and gives `bytes`, as they stand or as they stood at the grid's dispatch (R41); `u` is the state after it.
-/
def CodeRead (old : Bool) (n : Nat) (s : State) (bytes : List Byte) (u : State) : Prop :=
  ∃ parts v w, checkAccess s s.wld .strand (dieOf s.blk.core) .fetch false s.st.pc n = .ok parts v w
    ∧ u = { v with wld := w } ∧ (∀ x ∈ parts, badLines u x.2.2.key x.2.2.pas = [])
    ∧ (allPas parts).any u.badNow = false ∧ bytes = codeBytes u old (allPas parts)

/-- An operation of the strand in focus of which the units that u picks may be performed now. -/
def ReadyOp (r : StrandRef) (n : Nat) (o : Op) (u : Units) (s : State) : Prop :=
  InFocus r s ∧ opAt s.st n = some o ∧ mayPerform s o (o.picked u) = true

/-- No unit of a list meets a bad MAC or poison. -/
def CleanUnits (l : List LaneAcc) (s : State) : Prop :=
  ∀ a ∈ l, badLines s a.key a.pas = [] ∧ poisoned s a.pas = false

/-- The block r, its grid and its world are in focus. -/
def BlockIn (r : BlockRef) (s : State) : Prop :=
  s.blk.live = true ∧ s.blk.grid = r.grid ∧ s.blk.id = r.block ∧ s.grd.live = true ∧ s.grd.id = r.grid
    ∧ s.wld.key = s.grd.key

/-- No resident block is the block r. -/
def BlockGone (r : BlockRef) (s : State) : Prop := ∀ b ∈ s.allBlocks, ¬ (b.grid = r.grid ∧ b.id = r.block)

/-- A record stands at the head of queue q, and the queue's header is well-formed (R316, R317). -/
def RecordStands (q : Nat) (x : Head) (s : State) : Prop := headRecord s q = some x ∧ workHeaderBad x.h = false

/-- A queue has retired one record more (R372). -/
def OneRetired (q : Nat) (s t : State) : Prop :=
  ∀ x, s.queue q = some x → ∃ y, t.queue q = some y ∧ y.retired = x.retired + 1

/-- A strand goes on from a save as it stood (R44, R334): its pc, its vector and mask registers, its scalar
registers but for those under a mark; RESUMES has risen. -/
def Resumed (y x : Strand) : Prop :=
  x.idx = y.idx ∧ x.pc = y.pc ∧ x.v = y.v ∧ x.m = y.m ∧ x.resumes = y.resumes + 1
    ∧ ∀ k, y.marks.getLsbD k = false → x.sget k = y.sget k

/-- A strand as it is dispatched (R24, R25): at ENTRY, every register zero but the arguments in s56 to s63 and
the present lanes in m0. -/
def Fresh (g : Grid) (args : List Word) (t : Strand) : Prop :=
  t.status = .ready ∧ t.pc = g.entry ∧ t.clause = none ∧ (∀ r lane, t.vget r lane = 0)
    ∧ (∀ r, r < 56 → t.sget r = 0) ∧ (∀ k, t.sget (56 + k) = nth 0 args k)
    ∧ t.mget 0 = t.present ∧ (∀ r, r ≠ 0 → t.mget r = 0) ∧ (∀ l, l < 64 → laneOn t.present l = decide (64 * t.idx + l < g.threads))

/-- The kinds of packet by the event that starts one (R272). -/
def packetKinds : List ((PacketSource → Instr) × Nat) := [
  (.copy1d, 0), (.copy2d, 1), (.fill, 2), (.mcast, 3), (.reduce, 4), (.sealmove, 5), (.ingest, 6), (.signal, 7)]

/-- The rows of a copy (R274): source, destination and length. -/
def copiedRows (p : Packet) : List (DWord × DWord × Nat) :=
  if p.kind = 1 then
    (List.range (p.f 288 32)).map fun k =>
      (p.a 128 + BitVec.ofNat 64 k * p.a 320, p.a 192 + BitVec.ofNat 64 k * p.a 384, p.len)
  else [(p.a 128, p.a 192, p.len)]

/-- Every row of a copy passes its checks, and l carries the bytes of each row's source to its destination; z is
the state after the checks. -/
def RowsCopied (p : Packet) : List (DWord × DWord × Nat) → State → List EWrite → State → Prop
  | [], s, l, z => l = [] ∧ z = s
  | (a, b, n) :: t, s, l, z => ∃ src u x v dst y m,
    engineCheck p .copyRead a n s = .ok src u ∧ engineCheck p .copyWrite b n s = .ok x v
      ∧ engineCheck p .copyWrite b n u = .ok dst y ∧ linkGone y src = false ∧ linkGone y dst = false
      ∧ l = writesTo dst (unread src) ++ m ∧ RowsCopied p t y m z

/-- What a packet is still to write lies at distinct places that can be reached, under one key id, and neither
those places nor what is still to be read for them meet a bad MAC. -/
def CleanWrites (l : List EWrite) (s : State) : Prop :=
  (l.map (·.pa)).Nodup ∧ ∃ k, ∀ x ∈ l, x.key = k ∧ s.hostGone x.pa = false ∧ badLines s k [x.pa] = []
    ∧ ∀ j a, x.data = .at_ j a → badLines s j [a] = []

/-- The writes have been performed: each place holds what was carried there, as it stood in s or as it was read
before, and no other byte of memory has changed. -/
def WrittenOut (l : List EWrite) (s t : State) : Prop :=
  SameBytes (l.map (·.pa)) s t ∧ ∀ x ∈ l, Memory.read t.mem x.pa = (x.data.value s).1

/-- Word i of a list of words of w bytes. -/
def wordAt (w : Nat) (l : List Byte) (i : Nat) : Nat := leNat ((l.drop (w * i)).take w)

/-- REDUCE's OP on two words (R245, R274): add.s32, add.f32, add.bf16, max.s32. -/
def combineWord (op x y : Nat) : Nat :=
  match op with
  | 0 => (x + y) % 2 ^ 32
  | 1 => (atomFadd (BitVec.ofNat 32 x) (BitVec.ofNat 32 y)).toNat
  | 2 => fpAdd bf16 0 false x y
  | _ => if (BitVec.ofNat 32 x).toInt ≤ (BitVec.ofNat 32 y).toInt then y else x

/-- The words of l combine those of the contributions in some order (R108, R289). -/
def Combined (op : Nat) (all : List (List Byte)) (l : List Byte) : Prop :=
  let w := if op = 2 then 2 else 4
  ∃ x t, (x :: t).Perm all
    ∧ ∀ i, i < l.length / w → wordAt w l i = t.foldl (fun a c => combineWord op a (wordAt w c i)) (wordAt w x i)

/-- The packet n stands as p says. -/
def PacketIs (n : Nat) (p : Packet → Prop) (s : State) : Prop := ∃ q ∈ s.packets, q.num = n ∧ p q

/-- A world's entry has become w, and no other world has changed. -/
def WorldIs (w : World) (s t : State) : Prop :=
  t.world w.key = some w ∧ ∀ k, k ≠ w.key → t.world k = s.world k

/-- A port has become p, and the other port, memory and the strands stay. -/
def PortIs (b : Bool) (p : Port) (s t : State) : Prop :=
  t.port b = p ∧ t.port (!b) = s.port (!b) ∧ t.mem = s.mem ∧ t.st = s.st ∧ t.blk = s.blk ∧ t.blocks = s.blocks

/-- What a machine holds beside device memory stays (R365). -/
def SameStrands (s t : State) : Prop := t.st = s.st ∧ t.blk = s.blk ∧ t.blocks = s.blocks

end Machine

end Sys2Proof
end

