-- ==== Sys2Proof/Certificates/Slice0/Obligations.lean ====
section
/-! DEFINITION. The statements about the machine, for the provers. -/

open Sys2Proof Sys2Proof.Machine

/-! ### ALU instructions -/

/-- Scalar arithmetic, logic and comparisons of words and of pairs (R129, R131): the result, the latch, going on,
and the frame. -/
def Obligations.ScalarArithmetic : Prop :=
  (∀ e ∈ scalarWords, ∀ (f : Alu2) (s : State), NoReadError (e.1 f) s →
      Completes (e.1 f) s fun t =>
        WentOn (wordCount (e.1 f)) s t ∧ ScalarIs f.n f.d.toNat (e.2 (s.arg f.a) (s.arg f.b)) s t)
  ∧
  ((∀ e ∈ scalarPairs, ∀ (f : Alu2) (s : State), NoReadError (e.1 f) s →
      Completes (e.1 f) s fun t =>
        WentOn (wordCount (e.1 f)) s t ∧ PairIs f.n f.d.toNat (e.2 (s.arg64 f.a) (s.arg64 f.b)) s t)
    ∧ ∀ (f : Alu2) (s : State),
      (NoReadError (.scmpEqD f) s → Completes (.scmpEqD f) s fun t =>
        WentOn (wordCount (.scmpEqD f)) s t ∧ ScalarIs f.n f.d.toNat (truth (s.arg64 f.a = s.arg64 f.b)) s t)
      ∧ (NoReadError (.scmpNeD f) s → Completes (.scmpNeD f) s fun t =>
        WentOn (wordCount (.scmpNeD f)) s t ∧ ScalarIs f.n f.d.toNat (truth (s.arg64 f.a ≠ s.arg64 f.b)) s t))

/-- A shift's count is unsigned, and none is taken modulo the width (R130). -/
def Obligations.ShiftCounts : Prop :=
  (∀ e ∈ scalarShifts, ∀ (f : Alu2) (s : State), NoReadError (e.1 f) s →
    Completes (e.1 f) s fun t =>
      WentOn (wordCount (e.1 f)) s t ∧ ScalarIs f.n f.d.toNat (e.2 (s.arg f.a) (s.arg f.b)) s t)
  ∧ ∀ e ∈ scalarPairShifts, ∀ (f : Alu2) (s : State), NoReadError (e.1 f) s →
    Completes (e.1 f) s fun t =>
      WentOn (wordCount (e.1 f)) s t ∧ PairIs f.n f.d.toNat (e.2 (s.arg64 f.a) (s.arg f.b)) s t

/-- SSEL, SMOV, SMOVI and SMOVI.hi (R129, R132). -/
def Obligations.ScalarMoves : Prop :=
  (∀ (f : Alu2) (s : State), NoReadError (.ssel f) s → Completes (.ssel f) s fun t =>
    WentOn (wordCount (.ssel f)) s t
      ∧ ScalarIs f.n f.d.toNat (if s.arg (fourthOf f.pre) ≠ 0 then s.arg f.a else s.arg f.b) s t)
  ∧ (∀ (f : Alu1) (s : State), NoReadError (.smov f) s → Completes (.smov f) s fun t =>
    WentOn (wordCount (.smov f)) s t ∧ ScalarIs f.n f.d.toNat (s.arg f.a) s t)
  ∧ (∀ (f : Alu1) (s : State), NoReadError (.smovD f) s → Completes (.smovD f) s fun t =>
    WentOn (wordCount (.smovD f)) s t ∧ PairIs f.n f.d.toNat (s.arg64 f.a) s t)
  ∧ (∀ (f : AluImm) (s : State), Completes (.smovi f) s fun t =>
    WentOn (wordCount (.smovi f)) s t ∧ ScalarIs f.n f.d.toNat (BitVec.ofInt 32 f.imm.toInt) s t)
  ∧ ∀ (f : AluImm) (s : State), NoReadError (.smoviHi f) s → Completes (.smoviHi f) s fun t =>
    WentOn (wordCount (.smoviHi f)) s t
      ∧ ScalarIs f.n f.d.toNat (BitVec.ofNat 32 (f.imm.toNat * 65536 + (s.st.sget f.d.toNat).toNat % 65536)) s t

/-- SGET reads every special register (R25, R133), and an index that no chapter assigns is refused at decode
(R26). SSET writes TRAPVEC, CQSEL, TRAPRET and TRAPMASK, and nothing else (R134, R281, R292); SSET of any other
index is refused at decode. The unused bits of CQSEL and TRAPMASK are ignored (log entry 23). -/
def Obligations.SpecialRegisters : Prop :=
  ((∀ e ∈ specialRegisters, ∀ (f : AluSget) (s : State), f.x = e.1 →
    Completes (.sget f) s fun t =>
      WentOn (wordCount (.sget f)) s t
        ∧ (if e.2.1 then PairIs f.n f.d.toNat (e.2.2 s) s t
           else ScalarIs f.n f.d.toNat ((e.2.2 s).setWidth 32) s t))
  ∧ ∀ (c : DecCtx) (f : AluSget), wellFormed c (.sget f) = true → f.x ∈ specialRegisters.map (·.1))
  ∧
  ((∀ (f : AluX) (s : State), NoReadError (.sset f) s →
    Completes (.sset f) s fun t =>
      WentOn (wordCount (.sset f)) s t ∧ LatchIs (.uni64 0) t
        ∧ (f.x = 0x11 → OnlyMoved { s with st := { s.st with trapvec := s.arg64 f.a } } t)
        ∧ (f.x = 0x28 → OnlyMoved { s with st := { s.st with trapret := s.arg64 f.a } } t)
        ∧ (f.x = 0x13 → OnlyMoved { s with st := { s.st with cqsel := (s.arg f.a).setWidth 8 } } t)
        ∧ (f.x = 0x2D → OnlyMoved { s with st := { s.st with trapmask := (s.arg f.a).getLsbD 0 } } t))
  ∧ ∀ (c : DecCtx) (f : AluX), wellFormed c (.sset f) = true → f.x ∈ ([0x11, 0x13, 0x28, 0x2D] : List (BitVec 8)))

/-- Lane-wise integer instructions of words and of pairs (R135 to R137, R139): the value of each lane under the
governing mask, Z and N, and the frame. -/
def Obligations.VectorIntegers : Prop :=
  (∀ e ∈ vectorWords, ∀ (f : Alu2) (s : State), NoReadError (e.1 f) s →
      Completes (e.1 f) s fun t =>
        WentOn (wordCount (e.1 f)) s t
          ∧ VectorIs f.pre f.n f.d.toNat (fun i =>
              e.2 f.pre (opnd32 .int s i f.a) (opnd32 .int s i f.b) (opnd32 .int s i (fourthOf f.pre))) s t)
  ∧
  ((∀ e ∈ vectorPairs, ∀ (f : Alu2) (s : State), NoReadError (e.1 f) s →
      Completes (e.1 f) s fun t =>
        WentOn (wordCount (e.1 f)) s t
          ∧ VectorPairIs f.pre f.n f.d.toNat (fun i => e.2 f.pre (opnd64 s i f.a) (opnd64 s i f.b)) s t)
    ∧ ∀ e ∈ vectorPairShifts, ∀ (f : Alu2) (s : State), NoReadError (e.1 f) s →
      Completes (e.1 f) s fun t =>
        WentOn (wordCount (e.1 f)) s t
          ∧ VectorPairIs f.pre f.n f.d.toNat (fun i => e.2 (opnd64 s i f.a) (opnd32 .int s i f.b)) s t)

/-- Lane-wise instructions of one operand (R135, R142), the floating-point ones (R140, R141) and VFCVT (R143);
EXPR evaluates its step list in each active lane (R70, R152). The bracketing instructions take either neighbour
(log entry 8), and a NaN that EXPR leaves is canonical (log entry 7): both are the model's reading. -/
def Obligations.VectorFunctions : Prop :=
  (∀ e ∈ vectorUnaries, ∀ (f : Alu1) (s : State), NoReadError (e.1 f) s →
      Completes (e.1 f) s fun t =>
        WentOn (wordCount (e.1 f)) s t
          ∧ VectorIs f.pre f.n f.d.toNat (fun i => e.2.2 f.pre (opnd32 e.2.1 s i f.a)) s t)
  ∧
  ((∀ e ∈ vectorFloats, ∀ (f : Alu2) (s : State), NoReadError (e.1 f) s →
      Completes (e.1 f) s fun t =>
        WentOn (wordCount (e.1 f)) s t
          ∧ VectorIs f.pre f.n f.d.toNat (fun i =>
              e.2.2 f.pre (opnd32 e.2.1 s i f.a) (opnd32 e.2.1 s i f.b) (opnd32 e.2.1 s i (fourthOf f.pre))) s t)
    ∧ ∀ (f : AluX) (s : State), NoReadError (.vfcvt f) s →
      Completes (.vfcvt f) s fun t =>
        WentOn (wordCount (.vfcvt f)) s t
          ∧ VectorIs f.pre f.n f.d.toNat (fun i =>
              fpCvt f.x.toNat (rmOf f.pre) (satOf f.pre) (ftzOf f.pre) (opnd32 (cvtPos f.x) s i f.a)) s t)
  ∧
  (∀ (f : ExprF) (s : State), NoReadError (.expr f) s → Completes (.expr f) s fun t =>
      WentOn (wordCount (.expr f)) s t
        ∧ VectorIs f.pre f.n f.d.toNat (fun i =>
            let input := fun (k : Nat) =>
              opnd32 (if f.ty = 0 then .fp else .int) s i (nth (.int 0) [f.in0, f.in1, f.in2, f.in3] k)
            exprResult f.ty.toNat (exprRun f.ty.toNat (rmOf f.pre) (ftzOf f.pre) input f.stepList [])) s t)

/-- Comparisons into a mask register (R138, R140). -/
def Obligations.VectorCompares : Prop :=
  ∀ e ∈ vectorCompares, ∀ (f : Alu2) (s : State), NoReadError (e.1 f) s →
    Completes (e.1 f) s fun t =>
      WentOn (wordCount (e.1 f)) s t ∧ CompareIs f.pre f.n (f.d.toNat % 16) (e.2 s f) s t

/-- Shuffles and the broadcast (R144, R145); VRED and VSCAN of every operation, by the tree of R106 and the
prefixes of R107 (R147 to R149). -/
def Obligations.CrossLane : Prop :=
  (∀ e ∈ shuffles, ∀ (f : Alu2) (s : State), NoReadError (e.1 f) s →
      Completes (e.1 f) s fun t =>
        WentOn (wordCount (e.1 f)) s t ∧ VectorIs f.pre f.n f.d.toNat (e.2 s f) s t)
  ∧
  ((∀ (f : AluX) (s : State), NoReadError (.vred f) s →
      Completes (.vred f) s fun t =>
        let r := (treeNode (redOp f.x.toNat (rmOf f.pre) (ftzOf f.pre)) (redLeaves s f) 6 0).getD (redEmpty f.x.toNat)
        WentOn (wordCount (.vred f)) s t
          ∧ (if f.x = 0x0B then PairIs f.n f.d.toNat r s t else ScalarIs f.n f.d.toNat (r.setWidth 32) s t))
    ∧ ∀ e ∈ ([(.vscanIncl, 1), (.vscanExcl, 0)] : List ((AluX → Instr) × Nat)), ∀ (f : AluX) (s : State),
      NoReadError (e.1 f) s →
      Completes (e.1 f) s fun t =>
        WentOn (wordCount (e.1 f)) s t
          ∧ (if f.x = 0x0B then VectorPairIs f.pre f.n f.d.toNat (fun i => scanOf s f (i + e.2)) s t
             else VectorIs f.pre f.n f.d.toNat (fun i => (scanOf s f (i + e.2)).setWidth 32) s t))

/-- For the integer operations of 32 bits the tree of VRED and the prefixes of VSCAN give the plain combination of the
active lanes' values, lowest lane first (R106, R107, R147 to R149). -/
def Obligations.IntegerReductionsFold : Prop :=
  ∀ (f : AluX) (s : State), f.x.toNat < 8 →
    let value := fun (lane : Nat) => opnd32 .int s lane f.a
    (NoReadError (.vred f) s → Completes (.vred f) s fun t =>
      ScalarIs f.n f.d.toNat (redFold f.x.toNat ((lanesOf (s.active f.pre)).map value)) s t)
    ∧ (NoReadError (.vscanIncl f) s → Completes (.vscanIncl f) s fun t =>
      VectorIs f.pre f.n f.d.toNat
        (fun i => redFold f.x.toNat (((lanesOf (s.active f.pre)).filter (· ≤ i)).map value)) s t)
    ∧ (NoReadError (.vscanExcl f) s → Completes (.vscanExcl f) s fun t =>
      VectorIs f.pre f.n f.d.toNat
        (fun i => redFold f.x.toNat (((lanesOf (s.active f.pre)).filter (· < i)).map value)) s t)

/-- The mask instructions never set the bit of an absent lane (R150); MCNT, MSAVE and MLOAD (R150); VBAL and VLID
(R146). -/
def Obligations.Masks : Prop :=
  (∀ e ∈ ([(.mand, fun a b => a &&& b), (.mor, fun a b => a ||| b), (.mxor, fun a b => a ^^^ b)] :
      List ((Mask2 → Instr) × (BitVec 64 → BitVec 64 → BitVec 64))), ∀ (f : Mask2) (s : State),
    NoReadError (e.1 f) s →
    Completes (e.1 f) s fun t => WentOn (wordCount (e.1 f)) s t
      ∧ MaskIs f.n f.d.toNat (e.2 (s.st.mget f.a.toNat) (s.st.mget f.b.toNat)) s t)
  ∧ (∀ e ∈ ([(.mnot, fun a => ~~~a), (.mmov, fun a => a)] : List ((Mask1 → Instr) × (BitVec 64 → BitVec 64))),
    ∀ (f : Mask1) (s : State), NoReadError (e.1 f) s →
    Completes (e.1 f) s fun t => WentOn (wordCount (e.1 f)) s t
      ∧ MaskIs f.n f.d.toNat (e.2 (s.st.mget f.a.toNat)) s t)
  ∧ (∀ (f : MaskL) (s : State), NoReadError (.mload f) s → Completes (.mload f) s fun t =>
    WentOn (wordCount (.mload f)) s t ∧ MaskIs f.n f.d.toNat (s.st.sget64 f.a.toNat) s t)
  ∧ (∀ (f : MaskS) (s : State), NoReadError (.mcnt f) s → Completes (.mcnt f) s fun t =>
    WentOn (wordCount (.mcnt f)) s t
      ∧ ScalarIs f.n f.d.toNat (BitVec.ofNat 32 (lanesOf (s.st.mget f.a.toNat)).length) s t)
  ∧ (∀ (f : MaskS) (s : State), NoReadError (.msave f) s → Completes (.msave f) s fun t =>
    WentOn (wordCount (.msave f)) s t ∧ PairIs f.n f.d.toNat (s.st.mget f.a.toNat) s t)
  ∧ (∀ (f : Alu1) (s : State), NoReadError (.vbal f) s → Completes (.vbal f) s fun t =>
    WentOn (wordCount (.vbal f)) s t
      ∧ ∃ x : DWord, PairIs f.n f.d.toNat x s t
        ∧ ∀ i, i < 64 → laneOn x i = (laneOn (s.active f.pre) i && decide (opnd32 .int s i f.a ≠ 0)))
  ∧ ∀ (f : AluD) (s : State), NoReadError (.vlid f) s → Completes (.vlid f) s fun t =>
    WentOn (wordCount (.vlid f)) s t ∧ VectorIs f.pre f.n f.d.toNat (fun i => BitVec.ofNat 32 i) s t

/-- The exact accumulator (R102 to R104, R151): KCLR, the three KADDs, and KRND, which reads k without changing
it and returns one FP32 value by the chain of R104; the order of the additions does not matter (R103). -/
def Obligations.ExactAccumulator : Prop :=
  ((∀ (f : AluD) (s : State), NoReadError (.kclr f) s → Completes (.kclr f) s fun t =>
      WentOn (wordCount (.kclr f)) s t ∧ LatchIs (.uni64 0) t ∧ OnlyK s t ∧ t.st.k = ⟨0, false, false, false⟩)
    ∧ (∀ e ∈ kadds, ∀ (f : Alu1) (s : State), NoReadError (e.1 f) s → Completes (e.1 f) s fun t =>
      WentOn (wordCount (e.1 f)) s t ∧ LatchIs (.uni64 0) t ∧ OnlyK s t
        ∧ KAdded ((lanesOf (s.active f.pre)).flatMap fun i => e.2.2 (opnd32 e.2.1 s i f.a)) s.st.k t.st.k)
    ∧ (∀ (f : AluD) (s : State), NoReadError (.krnd f) s → Completes (.krnd f) s fun t =>
      WentOn (wordCount (.krnd f)) s t
        ∧ ScalarIs f.n f.d.toNat (
            let k := s.st.k
            if k.nan = true ∨ (k.pinf = true ∧ k.ninf = true) then 0x7FC00000
            else if k.pinf = true then 0x7F800000
            else if k.ninf = true then 0xFF800000
            else if k.sum = 0 then 0
            else BitVec.ofNat 32 (roundTo fp32 (rmOf f.pre) false false (k.sum.toInt < 0) k.sum.toInt.natAbs (-149) false)) s t)
    ∧ ∀ (xs ys : List Val) (k : KAcc), xs.Perm ys → xs.foldl KAcc.add k = ys.foldl KAcc.add k)

/-- QMM, the quantisers and the dequantisers (R96 to R99, R174 to R177). QNT writes its pair whatever N holds. -/
def Obligations.Quantisation : Prop :=
  (∀ (f : Alu1) (s : State), NoReadError (.qmm f) s → Completes (.qmm f) s fun t =>
    let xs := (lanesOf (s.active f.pre)).map fun i => (opnd32 .fp s i f.a).toNat
    WentOn (wordCount (.qmm f)) s t
      ∧ (xs = [] → PairIs f.n f.d.toNat 0 s t)
      ∧ ((∃ x ∈ xs, unpack fp32 x = .nan) → PairIs f.n f.d.toNat 0x7FC000007FC00000 s t)
      ∧ ∀ x l, xs = x :: l → (∀ y ∈ xs, unpack fp32 y ≠ .nan) →
          PairIs f.n f.d.toNat (BitVec.ofNat 64 (l.foldl (fpMin fp32 false) x + 2 ^ 32 * l.foldl (fpMax fp32 false) x)) s t)
  ∧ (∀ e ∈ ([(.qntI8, -128, 127), (.qntI4, -8, 7)] : List ((Alu2 → Instr) × Int × Int)), ∀ (f : Alu2) (r : BitVec 6)
      (s : State), f.b = .s r → NoReadError (e.1 f) s → Completes (e.1 f) s fun t =>
    let c := selectScale (unpack fp32 (s.st.sget r.toNat).toNat) (unpack fp32 (s.st.sget (r.toNat + 1)).toNat) e.2.1 e.2.2
    WentOn (wordCount (e.1 f)) s t
      ∧ VectorIs f.pre f.n f.d.toNat (fun i =>
          BitVec.ofInt 32 (quantise c.1 c.2 e.2.1 e.2.2 (unpack fp32 (opnd32 .fp s i f.a).toNat)))
          (withPair s r.toNat (BitVec.ofNat 32 c.1) (BitVec.ofInt 32 c.2)) t)
  ∧ (∀ (f : Alu2) (r : BitVec 6) (s : State), f.b = .s r → NoReadError (.qntT3 f) s → Completes (.qntT3 f) s fun t =>
    let val := fun (i : Nat) => unpack fp32 (opnd32 .fp s i f.a).toNat
    WentOn (wordCount (.qntT3 f)) s t
      ∧ (meanAbs ((lanesOf (s.active f.pre)).map val) = none →
        VectorIs f.pre f.n f.d.toNat (fun _ => 0) (withPair s r.toNat 0x7E00 0) t)
      ∧ (∀ n, meanAbs ((lanesOf (s.active f.pre)).map val) = some (0, n) →
        VectorIs f.pre f.n f.d.toNat (fun _ => 0) (withPair s r.toNat 0 0) t)
      ∧ ∀ sum n, meanAbs ((lanesOf (s.active f.pre)).map val) = some (sum, n) → sum ≠ 0 →
        VectorIs f.pre f.n f.d.toNat (fun i =>
          BitVec.ofInt 32 (clamp (roundDiv (valUnits (val i) * (n : Int)) sum) (-1) 1))
          (withPair s r.toNat (BitVec.ofNat 32 (min 0x7BFF (roundQuot fp16 rmRNE false false false sum n (-400)))) 0) t)
  ∧ ∀ e ∈ ([(.dqntI8, 8), (.dqntI4, 4)] : List ((Alu2 → Instr) × Nat)), ∀ (f : Alu2) (r : BitVec 6) (s : State),
      f.b = .s r → NoReadError (e.1 f) s → Completes (e.1 f) s fun t =>
    WentOn (wordCount (e.1 f)) s t
      ∧ VectorIs f.pre f.n f.d.toNat (fun i =>
          dequantise ((s.st.sget r.toNat).toNat % 65536) ((opnd32 .int s i f.a).setWidth e.2).toInt
            ((s.st.sget (r.toNat + 1)).setWidth 8).toInt) s t

/-- PK3, UPK3, PK4 and UPK4 (R178 to R180). In strict mode a byte of 243 to 255 that an active lane reads makes UPK3
fault ILLEGAL_TRIT_BYTE; in tolerant mode it decodes as 121 and is counted. -/
def Obligations.Packing : Prop :=
  (∀ e ∈ ([(.pk3, pk3Lane), (.pk4, pk4Lane), (.upk4, upk4Lane)] :
        List ((Alu2 → Instr) × (State → Alu2 → Nat → Word))),
      ∀ (f : Alu2) (s : State), NoReadError (e.1 f) s → Completes (e.1 f) s fun t =>
    WentOn (wordCount (e.1 f)) s t ∧ VectorIs f.pre f.n f.d.toNat (e.2 s f) s t)
  ∧ ∀ (f : Alu2) (s : State), NoReadError (.upk3 f) s →
    (upk3Bad s f = [] → Completes (.upk3 f) s fun t =>
      WentOn (wordCount (.upk3 f)) s t ∧ VectorIs f.pre f.n f.d.toNat (upk3Lane s f) s t)
    ∧ (upk3Bad s f ≠ [] → s.grd.tolerant = false →
      exec (.upk3 f) s = deliver ⟨0x35, 0, 0, 0, 0, maskOf (upk3Bad s f)⟩ s)
    ∧ (upk3Bad s f ≠ [] → s.grd.tolerant = true → ∃ n, n ≠ 0 ∧ Completes (.upk3 f) s fun t =>
      VectorIs f.pre f.n f.d.toNat (upk3Lane s f) (recordFor s.grd.id 2 n 0 s) t)

/-! ### Control instructions -/

/-- Branches (R66, R113, R114): BRA always, the conditional ones when their condition holds, and one that is not
taken lets its clause run on. JMPI and RET go to the address in their pair; CALL writes the address after its
clause to its pair (R113). Where the target is not a multiple of 4, the transfer is made, and the issue of the
next clause faults BAD_CLAUSE_HEADER and names the target (R115). -/
def Obligations.ControlTransfers : Prop :=
  ((∀ (off : BitVec 16) (s : State), Completes (.bra off) s (Jumped (targetOf s off) s))
    ∧ ∀ e ∈ branches, ∀ (off : BitVec 16) (s : State), NoReadError (e.1 off) s →
      (e.2 s → Completes (e.1 off) s (Jumped (targetOf s off) s))
      ∧ (¬ e.2 s → Completes (e.1 off) s fun t => WentOn 1 s t ∧ OnlyMoved s t))
  ∧
  ((∀ e ∈ ([.jmpi, .ret] : List (BitVec 6 → Instr)), ∀ (p : BitVec 6) (s : State), NoReadError (e p) s →
      Completes (e p) s (Jumped (s.st.sget64 p.toNat) s))
    ∧ ∀ (c : BitVec 6) (off : BitVec 16) (s : State) (cl : Clause), s.st.clause = some cl →
      Completes (.call c off) s fun t =>
        t.st.pc = targetOf s off ∧ t.st.clause = none ∧ t.st.sget64 c.toNat = afterClause s cl
          ∧ OnlyScalars [c.toNat, c.toNat + 1] s t)
  ∧ ∀ (r : StrandRef) (old : Bool) (s : State), InFocus r s → s.st.clause = none → mayOpen s = true →
      s.st.pc.toNat % 4 ≠ 0 → exec (.clauseIssue r old) s = deliver ⟨0x03, 0, s.st.pc, 0, 0, 0⟩ s

/-- NOP, YIELD and BKPT (R113, R116, R118): YIELD makes the strand's next clause the youngest; BKPT stops the
strand before its next clause while orrery is attached, and does nothing otherwise. EXIT ends the strand (R18):
no clause is left, its thread arenas are live no more (R204), and its registers and memory keep what they hold.
In a strict launch EXIT comes after the strand's LDAs, and faults where one of them has read poison that no
WAITTAG has waited for (R265); that it waits for them is the model's reading (log entry 96). -/
def Obligations.PausesAndEnd : Prop :=
  ((∀ s, Completes .nop s fun t => WentOn 1 s t ∧ OnlyMoved s t)
  ∧ (∀ s, Completes .yield s fun t => WentOn 1 s t ∧ OnlyMoved s t ∧ t.st.yld = true)
  ∧ ∀ s, Completes .bkpt s fun t => WentOn 1 s t ∧ OnlyMoved s t
      ∧ (∀ c, s.st.clause = some c → 1 < c.words.length → t.st.bkpt = (s.st.bkpt || s.wld.attached))
      ∧ (∀ c, s.st.clause = some c → c.words.length = 1 → s.grd.ended = none →
          t.st.status = (if s.wld.attached then .stopped else .ready)))
  ∧
  (∀ s : State,
    let copying := ∃ o ∈ s.st.ops, o.what = .lda
    (s.grd.tolerant = false → copying → exec .exit s = .next (waitFor .order s))
    ∧ (s.grd.tolerant = false → ¬ copying → s.st.poisonTags ≠ 0 → exec .exit s = deliver ⟨0x50, 0, 0, 0, 0, 0⟩ s)
    ∧ ((s.grd.tolerant = true ∨ (s.st.poisonTags = 0 ∧ ¬ copying)) → Completes .exit s fun t =>
    t.st = { s.st with status := .exited, clause := none, attempt := none, promo := none, fetched := [], bkpt := false }
      ∧ t.mem = s.mem ∧ t.grd = s.grd ∧ t.wld = s.wld
      ∧ (∀ r ∈ t.slots, threadSlotOf s.st r = true → r.state ≠ 1)
      ∧ ∀ r ∈ s.slots, threadSlotOf s.st r = false → r ∈ t.slots))

/-- SLEEP and ACQUIRE (R29, R117, R119), WAITTAG (R265, R267), WAITP (R280) and BBWAIT (R286): when each lets
its clause go on, when it waits, and when it takes a trap or a fault. A WAITP whose promise has been reached
under TRAPMASK waits for the status alone, whatever CLOCK becomes; `attempt` marks that. A wait that is over is
marked and its instruction completes when the strand next runs, and bits [3:0] of BBWAIT's address are cleared:
the model's choice (log entries 18, 31). A strand whose grid has ended stops where it would wait (R348); that it
still waits for the order of its own accesses is the model's reading (log entry 27). -/
def Obligations.Waits : Prop :=
  (∀ (w : Wait) (s : State), waitFor w s = { s with st := { s.st with
      status := if s.grd.ended.isSome = true ∧ w ≠ .order then .faulted else .waiting w } })
  ∧
  ((∀ (a : Opnd) (s : State), NoReadError (.sleep a) s →
      ((s.st.attempt.isSome = true ∨ s.arg a = 0) → Completes (.sleep a) s fun t =>
        WentOn (wordCount (.sleep a)) s t ∧ OnlyMoved s t)
      ∧ (s.st.attempt = none → s.arg a ≠ 0 → exec (.sleep a) s
          = .next (waitFor (.sleep (s.clock + (s.arg a).setWidth 64)) s)))
    ∧ (∀ s : State, s.prologue = false → Completes .acquire s fun t => WentOn 1 s t ∧ OnlyMoved s t)
    ∧ ∀ s : State, s.prologue = true → Completes .acquire s fun t =>
        t.st = (waitFor .acquire s).st ∧ t.mem = s.mem
          ∧ (∀ n, s.blk.request = some n → t.blk = s.blk)
          ∧ (s.blk.request = none → t.blk = { s.blk with request := some s.clock.toNat }))
  ∧
  ((∀ (a b : Opnd) (s : State), NoReadError (.waittag a b) s →
      let tag := (s.arg a).toNat % 8
      let n := (s.arg b).toNat
      (63 ≤ n ∨ (tagOut s.st tag ≤ n ∧ (s.st.poisonTags.getLsbD tag && !s.grd.tolerant) = false) →
        Completes (.waittag a b) s fun t => WentOn (wordCount (.waittag a b)) s t ∧ OnlyMoved s t)
      ∧ (n < 63 → n < tagOut s.st tag → exec (.waittag a b) s = .next (waitFor .tag s))
      ∧ (n < 63 → tagOut s.st tag ≤ n → s.st.poisonTags.getLsbD tag = true → s.grd.tolerant = false →
        exec (.waittag a b) s = deliver ⟨0x50, 0, 0, 0, 0, 0⟩ s))
    ∧ (∀ (r : BitVec 6) (s : State), NoReadError (.waitp (.s r)) s →
      let p := s.st.sget r.toNat
      let due := s.st.attempt = some 1 ∨ clockReached s p
      (due → promiseOf s.st r.toNat = none →
        Completes (.waitp (.s r)) s fun t => WentOn (wordCount (.waitp (.s r))) s t ∧ OnlyMoved s t)
      ∧ (¬ due → exec (.waitp (.s r)) s = .next (waitFor (.waitp r.toNat p) s))
      ∧ (due → (promiseOf s.st r.toNat).isSome = true → (s.st.attempt = some 1 ∨ s.st.trapmask = true) →
        exec (.waitp (.s r)) s = .next (waitFor (.waitp r.toNat p) { s with st := { s.st with attempt := some 1 } }))
      ∧ (s.st.attempt ≠ some 1 → clockReached s p → (promiseOf s.st r.toNat).isSome = true → s.st.trapmask = false →
        exec (.waitp (.s r)) s = userTrap 0x61 r.toNat s.clauseEnd s))
    ∧ ∀ (a : Opnd) (s : State), NoReadError (.bbwait a) s →
      let p := (s.arg a).toNat / 16 * 16
      (p + 16 ≤ s.scratchLimit → s.blk.barrierState p ≠ 1 →
        Completes (.bbwait a) s fun t => WentOn (wordCount (.bbwait a)) s t ∧ OnlyMoved s t)
      ∧ (p + 16 ≤ s.scratchLimit → s.blk.barrierState p = 1 → exec (.bbwait a) s = .next (waitFor .bbwait s))
      ∧ (s.scratchLimit < p + 16 → exec (.bbwait a) s = deliver ⟨0x40, 0, BitVec.ofNat 64 p, 0, 0, 0⟩ s))

/-- BAR and the BARPs (R19, R121, R123): a strand waits until every strand of its block that has not exited has
arrived; the last arrival, or the EXIT of the last strand that has not arrived, ends the wait of all; a BARP
then writes the combination of the payloads of its own opcode to the D of each strand that waits at it, and the
instruction completes when the strand next runs. A strand whose grid has ended stops at the barrier (R348). An
arrival comes after the strand's stores whose data one of its loads has taken (R122, R302). The marking of an
ended wait is the model's choice (log entry 18). -/
def Obligations.Barriers : Prop :=
  (∀ s : State, s.st.attempt = none → seenOut s (fun _ => true) = true →
    exec .bar s = .next (waitFor .order s)
    ∧ ∀ e ∈ barps, ∀ (d : BitVec 7) (a : Opnd), NoReadError (e.1 d a) s → exec (e.1 d a) s = .next (waitFor .order s))
  ∧
  (∀ s : State, s.st.attempt.isSome = true → Completes .bar s fun t => WentOn 1 s t ∧ OnlyMoved s t)
  ∧ (∀ s : State, s.st.attempt = none → seenOut s (fun _ => true) = false → s.grd.ended = none →
      (∀ u ∈ s.blk.strands, barrierArrived u = true) →
      Completes .bar s fun t =>
        t.st = { s.st with status := .ready, attempt := some 0 } ∧ t.mem = s.mem
          ∧ PhaseOver none s.blk.strands t.blk.strands)
  ∧ (∀ s : State, s.st.attempt = none → seenOut s (fun _ => true) = false → s.grd.ended = none →
      (∃ u ∈ s.blk.strands, barrierArrived u = false) →
      exec .bar s = .next { s with st := { s.st with status := .waiting .bar } })
  ∧ (∀ s : State, s.st.attempt = none → seenOut s (fun _ => true) = false → s.grd.ended.isSome = true →
      Completes .bar s fun t =>
      t.st = { s.st with status := .faulted } ∧ t.mem = s.mem)
  ∧ (∀ e ∈ barps, ∀ (d : BitVec 7) (a : Opnd) (s : State), NoReadError (e.1 d a) s →
    (s.st.attempt.isSome = true → Completes (e.1 d a) s fun t => WentOn (wordCount (e.1 d a)) s t ∧ OnlyMoved s t)
    ∧ (s.st.attempt = none → seenOut s (fun _ => true) = false → s.grd.ended = none → s.st.here = true →
        (∀ u ∈ s.blk.strands, barrierArrived u = true) →
        Completes (e.1 d a) s fun t =>
          t.st.sget d.toNat = redFold e.2.2 (s.arg a :: payloads e.2.1 s.blk.strands)
            ∧ OnlyScalars [d.toNat] s { s with st := t.st } ∧ t.st.status = .ready ∧ t.st.attempt = some 0
            ∧ t.mem = s.mem ∧ PhaseOver (some (e.2.1, s.arg a)) s.blk.strands t.blk.strands)
    ∧ (s.st.attempt = none → seenOut s (fun _ => true) = false → s.grd.ended = none →
        (∃ u ∈ s.blk.strands, barrierArrived u = false) →
        exec (e.1 d a) s = .next { s with st := { s.st with
          status := .waiting (.barp e.2.1 (s.arg a) d.toNat) } })
    ∧ (s.st.attempt = none → seenOut s (fun _ => true) = false → s.grd.ended.isSome = true →
        Completes (e.1 d a) s fun t =>
        t.st = { s.st with status := .faulted } ∧ t.mem = s.mem))
  ∧ ∀ s : State, (s.grd.tolerant = true ∨ (s.st.poisonTags = 0 ∧ ∀ o ∈ s.st.ops, o.what ≠ .lda)) →
      ((∀ u ∈ s.blk.strands, barrierArrived u = true) → Completes .exit s fun t =>
          PhaseOver none s.blk.strands t.blk.strands)
      ∧ ((∃ u ∈ s.blk.strands, barrierArrived u = false) → Completes .exit s fun t =>
          ∀ (k : Nat) (u : Strand), s.blk.strands[k]? = some u → barrierArrived u = true → t.blk.strands[k]? = some u)

/-- TRAP (0x0E, B = n; R127) takes the user trap TRAP with DETAIL n (R126): TRAPRET is the address after its
clause, TRAPCAUSE holds the code, the detail and ACTIVE, the next clause is the one at TRAPVEC, and nothing else
changes; where TRAPVEC is 0 or ACTIVE is 1 it is delivered as a fault. TRET with ACTIVE = 1 clears ACTIVE and
goes on at TRAPRET, and with ACTIVE = 0 faults (R128). -/
def Obligations.UserTraps : Prop :=
  (∀ x : BitVec 8, decodeOne ⟨4, 0x3FFF, 128, []⟩ [0x0E000000 + x.setWidth 32] = .ok (.trap x, []))
  ∧
  (∀ (x : BitVec 8) (s : State) (c : Clause), s.st.clause = some c →
      (s.st.trapvec ≠ 0 → s.st.trapcause.getLsbD 0 = false → Completes (.trap x) s fun t =>
        t.st.trapret = afterClause s c ∧ t.st.trapcause = causeWord 0x60 x.toNat
          ∧ Jumped s.st.trapvec { s with st := { s.st with
              trapret := afterClause s c, trapcause := causeWord 0x60 x.toNat } } t)
      ∧ ((s.st.trapvec = 0 ∨ s.st.trapcause.getLsbD 0 = true) →
          exec (.trap x) s = deliver ⟨0x60, x.toNat, 0, 0, 0, 0⟩ s))
  ∧
  (∀ s : State,
      (s.st.trapcause.getLsbD 0 = true → Completes .tret s fun t =>
        (∀ i, i < 32 → t.st.trapcause.getLsbD i = (decide (i ≠ 0) && s.st.trapcause.getLsbD i))
          ∧ Jumped s.st.trapret { s with st := { s.st with trapcause := t.st.trapcause } } t)
      ∧ (s.st.trapcause.getLsbD 0 = false → exec .tret s = deliver ⟨0x01, 0, 0, 0, 0, 0⟩ s))

/-- WAITV (R249): once its read has passed its checks, which leaves the state `u`, it goes on when the word
differs from B, as an acquire of DEVICE scope, and otherwise sleeps with the line of the word for its wake, or
until 4,096 cycles have passed; a poisoned word faults in a strict launch (R236). That its read waits for the
strand's own accesses to the word is the model's reading (log entry 26). -/
def Obligations.WaitvReadsAndSleeps : Prop :=
  ∀ (p : BitVec 6) (b : Opnd) (s v : State) (off : Nat) (va : DWord) (part : PagePart) (w : World),
    NoReadError (.waitv p b) s → checkLane (waitvReq s p) 0 s = .ok [(off, va, part)] v w →
    let u : State := { v with wld := w }
    let x : Word := BitVec.ofNat 32 (leNat (part.pas.map u.readByte))
    (readHeld u (waitvReq s p) [(off, va, part)] = true → exec (.waitv p b) s = .next (waitFor .order u))
    ∧ (readHeld u (waitvReq s p) [(off, va, part)] = false → badLines u part.key part.pas = [] →
      (part.pas.any u.badNow = true → u.grd.tolerant = false →
        exec (.waitv p b) s = deliver ⟨0x50, 0, 0, 0, 0, 0⟩ (readOver part.pas u))
      ∧ (part.pas.any u.badNow = false → x ≠ u.arg b → Completes (.waitv p b) s fun t =>
        WentOn (wordCount (.waitv p b)) u t ∧ (∀ y ∈ t.l1, y.core ≠ u.blk.core)
          ∧ OnlyMoved { u with l1 := t.l1 } t)
      ∧ (part.pas.any u.badNow = false → x = u.arg b → Completes (.waitv p b) s fun t =>
        t = waitFor (.waitv (if part.mtype = 2 then none else part.pas.head?.map (· / 64)) (u.clock + 4096))
          { u with l1 := t.l1, st := { u.st with attempt := none } }))

/-! ### Memory instructions -/

/-- A device-memory instruction whose lanes all pass their checks issues one operation and goes on (R229, R233):
no register changes, and nothing else but what the checks themselves did (cached translations, first touches of
arena pages). It is so of every attempt, over the lanes that the earlier ones left (R230). An arena page is
drawn at the check (log entry 32). -/
def Obligations.DeviceAccessesIssue : Prop :=
  ∀ (i : Instr) (acts : Bool) (req : State → MemReq) (s : State), DeviceAccess i acts req → NoReadError i s →
    (acts = true → s.prologue = false) → failedLanes (req s) s = [] →
    soBlocked s (req s).uni (passedParts (req s) s) = false →
    Completes i s fun t =>
      WentOn (wordCount i) s t ∧ Issued (opOf (req s) (passedParts (req s) s) s) s (afterChecks (req s) s) t

/-- Where lanes of an attempt of a device-memory instruction fail their checks (R230): a fault that is not
replayable is delivered, an ESCAPE first and else the lowest lane's; otherwise the units of the lanes that
passed are issued as one operation and the strand parks at the instruction with the others, unless its grid has
ended (R348). An SO access waits for the earlier SO accesses of its thread (R298). Which lanes LANES names, that
an ESCAPE comes first, and that an access with parts on other pages issues all the same, is the model's reading
(log entries 29, 85, 94). -/
def Obligations.DeviceAccessesParkOrFault : Prop :=
  ∀ (i : Instr) (acts : Bool) (req : State → MemReq) (s : State), DeviceAccess i acts req → NoReadError i s →
    (acts = true → s.prologue = false) →
    let r := req s
    let failed := failedLanes r s
    DeliversFirst r.uni failed i s
    ∧ ((∀ y ∈ failed, replayable y.2.code = true) →
        (soBlocked s r.uni (passedParts r s) = true → exec i s = .next (waitFor .order s))
        ∧ (soBlocked s r.uni (passedParts r s) = false →
            ParksWith r.uni failed (opOf r (passedParts r s) s) i s (afterChecks r s)))

/-- A scratchpad or SBM instruction whose lanes all stay inside the allotment, meet no armed barrier and pass
the escape check issues one operation and goes on (R252, R253, R257): no byte and no register changes yet. -/
def Obligations.ChipAccessesIssue : Prop :=
  ∀ (i : Instr) (sbm writes : Bool) (req : State → MemReq) (s : State), ChipAccess i sbm writes req →
      NoReadError i s →
    (writes = true → s.prologue = false) →
    ((req s).escape = true →
      localEscape s (if sbm then .grid s.grd.id else .block s.grd.id s.blk.id) (req s) (lanesOf (req s).lanes) = none) →
    (∀ lane ∈ lanesOf (req s).lanes, chipInside s sbm (req s) lane) →
    (writes = true → sbm = false → ∀ lane ∈ lanesOf (req s).lanes, ¬ chipArmed s (req s) lane) →
    Completes i s fun t =>
      WentOn (wordCount i) s t
        ∧ Issued (opOf (req s) ((lanesOf (req s).lanes).flatMap (localUnits (req s) sbm)) s) s s t

/-- A scratchpad or SBM instruction with a lane outside the allotment faults SCRATCH_BOUNDS for the lowest such
lane, and a write that meets an armed barrier faults BARRIER_OBJECT_STORE (R253, R257, R283): no lane is
performed. -/
def Obligations.ChipAccessesFault : Prop :=
  ∀ (i : Instr) (sbm writes : Bool) (req : State → MemReq) (s : State), ChipAccess i sbm writes req →
      NoReadError i s →
    (writes = true → s.prologue = false) → (req s).escape = false →
    let lanes := lanesOf (req s).lanes
    let hit := fun (p : Nat → Bool) => if (req s).uni then 0#64 else maskOf (lanes.filter p)
    (∀ lane ∈ lanes, ∀ out : Nat → Bool, (∀ k, out k = true ↔ ¬ chipInside s sbm (req s) k) → out lane = true →
      (∀ k ∈ lanes, k < lane → out k = false) →
      exec i s = deliver ⟨0x40, if sbm then 2 else 0, BitVec.ofNat 64 (chipAddr (req s) lane), 0, 0, hit out⟩ s)
    ∧ (writes = true → sbm = false → (∀ k ∈ lanes, chipInside s sbm (req s) k) → ∀ lane ∈ lanes, ∀ met : Nat → Bool,
      (∀ k, met k = true ↔ chipArmed s (req s) k) → met lane = true → (∀ k ∈ lanes, k < lane → met k = false) →
      exec i s = deliver ⟨0x41, 0, BitVec.ofNat 64 (chipAddr (req s) lane), 0, 0, hit met⟩ s)

/-- FENCE waits while its parts have something to wait for, and then goes on; its acquire part empties the
core's L1 (R246, R239). PREF changes nothing that programs can see (R247). What the acquire part waits for is
the model's reading (log entry 44). -/
def Obligations.FenceAndPrefetch : Prop :=
  (∀ (f : FenceF) (s : State),
    (fenceHeld s (attOf f.att) = true → exec (.fence f) s = .next (waitFor .order s))
    ∧ (fenceHeld s (attOf f.att) = false → Completes (.fence f) s fun t =>
        WentOn (wordCount (.fence f)) s t ∧ OnlyMoved { s with l1 := t.l1 } t
          ∧ ((attOf f.att).ord.getLsbD 0 = true → 2 ≤ (attOf f.att).scope.toNat → ∀ x ∈ t.l1, x.core ≠ s.blk.core)))
  ∧ (∀ (f : MemV) (s : State), NoReadError (.pref f) s →
      (∀ lane ∈ lanesOf (s.st.mget 0), prefFaults (deviceAddr s f lane) s = false) →
      Completes (.pref f) s fun t => WentOn (wordCount (.pref f)) s t ∧ t.mem = s.mem ∧ t.st = s.st.moved t.st)
  ∧ ∀ (f : MemU) (s : State), NoReadError (.prefU f) s → prefFaults (deviceAddrU s f) s = false →
      Completes (.prefU f) s fun t => WentOn (wordCount (.prefU f)) s t ∧ t.mem = s.mem ∧ t.st = s.st.moved t.st

/-- LDA (R260, R264, R265): outside the prologue, with every active lane's target inside the scratchpad
allotment and every lane's valid bytes readable, it issues one operation that its tag counts; a lane outside the
allotment is a fault for all. Lanes whose checks fail are as those of a load, and the tag counts the LDA once
none is left. It comes after the stores of its source bytes whose data a load of the strand has taken (R302,
R307). -/
def Obligations.LdaIssues : Prop :=
  ∀ (f : LdaF) (s : State), NoReadError (.lda f) s → s.prologue = false →
    let r := ldaReq f s
    let lanes := lanesOf (s.st.mget 0)
    let outside := lanes.filter fun i => decide (s.scratchLimit < ldaTarget s f i + 4 * 2 ^ f.lsz.toNat)
    let c := ldaLanes r (ldaValid s f) (lanesLeft r s) s
    let behind := seenOut s fun p => c.1.any fun a => a.pas.contains p
    let o : Op := { opOf r c.1 s with tag := f.tag.toNat, collapsed := decide (c.2.1 = []) }
    (outside = [] → c.2.1 = [] → behind = false → Completes (.lda f) s fun t =>
      WentOn (wordCount (.lda f)) s t ∧ Issued o s c.2.2 t
        ∧ (lanes ≠ [] → s.st.attempt = none → tagOut t.st f.tag.toNat = tagOut s.st f.tag.toNat + 1))
    ∧ (outside = [] → DeliversFirst false c.2.1 (.lda f) s)
    ∧ (outside = [] → (∀ y ∈ c.2.1, replayable y.2.code = true) →
        (behind = true → exec (.lda f) s = .next (waitFor .order s))
        ∧ (behind = false → ParksWith false c.2.1 o (.lda f) s c.2.2))
    ∧ ∀ i q, outside = i :: q →
      exec (.lda f) s = deliver ⟨0x40, 0, BitVec.ofNat 64 (ldaTarget s f i), 0, 0, maskOf outside⟩ s

/-- In the prologue the instructions with side effects fault PROLOGUE_SIDE_EFFECT (R28). -/
def Obligations.PrologueFaults : Prop :=
  ∀ s : State, s.prologue = true →
    (∀ (i : Instr) (req : State → MemReq), DeviceAccess i true req → NoReadError i s →
      exec i s = deliver ⟨codePrologue, 0, 0, 0, 0, 0⟩ s)
    ∧ (∀ (i : Instr) (sbm : Bool) (req : State → MemReq), ChipAccess i sbm true req → NoReadError i s →
      exec i s = deliver ⟨codePrologue, 0, 0, 0, 0, 0⟩ s)
    ∧ (∀ i : Instr,
        ((∃ f, i = .lda f) ∨ (∃ a b, i = .bbinit a b) ∨ (∃ a, i = .bbinv a) ∨ (∃ t q a b, i = .promote t q a b)
          ∨ (∃ t q b, i = .promoteA t q b) ∨ (∃ d a x, i = .arena d a x) ∨ (∃ d a, i = .cpost d a)
          ∨ (∃ d a, i = .cpostNb d a) ∨ (∃ d a, i = .launch d a) ∨ (∃ p b, i = .tsig p b)) →
        NoReadError i s → exec i s = deliver ⟨codePrologue, 0, 0, 0, 0, 0⟩ s)
    ∧ ∀ (size : Nat) (leaf : BitVec 128), eMtype leaf = 3 → eR leaf = true → eUser leaf = true →
        typeFault .strand (.load true) size leaf = some codePrologue

/-! ### Engine instructions -/

/-- CPOST and CPOST.nb (R278, R279): the packet takes the next slot of the comet queue that CQSEL names, and the
pair of D is owed its results: WRITE rises by 1, bytes 1 to 63 of the slot take the image's and its VALID byte
takes the lap's tag (R269, R270). Where no such queue exists the pair takes REFUSED with detail 2 and the clock
at once; where the queue is full CPOST waits, and CPOST.nb answers FULL with the clock. An image outside the
scratchpad allotment faults, and the image is read before the rest, byte by byte (R294). That an unreachable
header or slot counts as no queue is the model's reading (log entry 52). -/
def Obligations.CometPosts : Prop :=
  (∀ e ∈ ([(.cpost, false), (.cpostNb, true)] : List ((BitVec 7 → Opnd → Instr) × Bool)),
      ∀ (d : BitVec 7) (a : Opnd) (s : State),
    NoReadError (e.1 d a) s → s.prologue = false →
    let i := e.1 d a
    let u := cometHeaderCheck s
    let ends := fun (x : Word) => Completes i s fun t =>
      WentOn (wordCount i) u t ∧ t.st.sget d.toNat = x ∧ t.st.sget (d.toNat + 1) = s.clock.setWidth 32
        ∧ OnlyScalars [d.toNat, d.toNat + 1] u t
    (s.scratchLimit < imageBase a s + 64 → exec i s = deliver ⟨0x40, 0, BitVec.ofNat 64 (imageBase a s), 0, 0, 0⟩ s)
    ∧ ImageThen i a s fun image =>
      (cometHeader u u.wld u.st.cqsel.toNat = none → ends 0x10020000)
      ∧ ∀ q h, cometHeader u u.wld u.st.cqsel.toNat = some (q, h) →
        (h.full = true → e.2 = false → exec i s = .next (waitFor .queue u))
        ∧ (h.full = true → e.2 = true → ends 0xB0000000)
        ∧ (h.full = false → postImage u.wld.key h image u = none → ends 0x10020000)
        ∧ ∀ v, h.full = false → postImage u.wld.key h image u = some v → Completes i s fun t =>
          WentOn (wordCount i) v t
            ∧ t.posts = v.posts ++ [⟨v.postCount, s.wld.key, q.index, h.write, v.st.ref, d.toNat⟩]
            ∧ t.st.owed = (v.st.owed.filter fun x => x.reg ≠ d.toNat) ++ [⟨d.toNat, v.postCount, false, false⟩]
            ∧ t.mem = v.mem ∧ t.st.s = v.st.s)
  ∧ ∀ (key pk : Nat) (h : Header) (image : List Byte) (s v : State) (pas : List Nat),
    moonPlaces s key .write (h.slot h.write) 64 = some (pas, pk) → postImage key h image s = some v →
    pas.length = 64 → image.length = 64 → 8 ≤ h.places.length → (h.places ++ pas).Nodup →
    (∀ x ∈ h.places ++ pas, x < Config.paSpace) → Memory.wf s.mem = true →
      pas.map (Memory.read v.mem) = BitVec.ofNat 8 (0x80 + h.write / 2 ^ h.log2 % 128) :: image.drop 1
        ∧ (h.places.take 8).map (Memory.read v.mem) = leBytes 8 (h.write + 1)
        ∧ SameBytes (h.places.take 8 ++ pas) s v

/-- BBINIT and BBINV perform their rows on the barrier at A with bits [3:0] cleared, once the strand's
scratchpad accesses have completed, and no other byte of the scratchpad changes (R283 to R285). That the address
bits are cleared is the model's reading (log entry 31). -/
def Obligations.ByteBarriers : Prop :=
  ∀ (a : Opnd) (s : State), s.prologue = false →
    let p := (s.arg a).toNat / 16 * 16
    (p + 16 ≤ s.scratchLimit → (scratchBusy s = true ∨ halfStored s p = true) →
      (∀ b : Opnd, NoReadError (.bbinit a b) s → exec (.bbinit a b) s = .next (waitFor .order s))
      ∧ (NoReadError (.bbinv a) s → exec (.bbinv a) s = .next (waitFor .order s)))
    ∧ (p + 16 ≤ s.scratchLimit → scratchBusy s = false → halfStored s p = false → Memory.wf s.blk.scratch = true →
      (∀ b : Opnd, NoReadError (.bbinit a b) s → Completes (.bbinit a b) s fun t =>
        let e := s.arg b
        t.mem = s.mem ∧ WentOn (wordCount (.bbinit a b)) s t
          ∧ barrierFields t.blk p = [e.toNat, 0, (s.blk.scratchNat (p + 8) 4 + if e = 0 then 1 else 0) % 2 ^ 32,
              (s.blk.scratchNat (p + 12) 2 + 1) % 2 ^ 16, if e = 0 then 2 else 1]
          ∧ p / 16 ∈ t.blk.armed
          ∧ ∀ x, (x < p ∨ p + 16 ≤ x) → t.blk.scratchAt x = s.blk.scratchAt x)
      ∧ (NoReadError (.bbinv a) s → Completes (.bbinv a) s fun t =>
        t.mem = s.mem ∧ WentOn (wordCount (.bbinv a)) s t
          ∧ (p / 16 ∈ s.blk.armed → t.blk.scratchAt (p + 14) = 0 ∧ p / 16 ∉ t.blk.armed)
          ∧ (p / 16 ∉ s.blk.armed → t.blk.scratch = s.blk.scratch ∧ t.blk.armed = s.blk.armed)
          ∧ ∀ x, x ≠ p + 14 → t.blk.scratchAt x = s.blk.scratchAt x))
    ∧ (∀ b : Opnd, NoReadError (.bbinit a b) s → s.scratchLimit < p + 16 →
        exec (.bbinit a b) s = deliver ⟨0x40, 0, BitVec.ofNat 64 p, 0, 0, 0⟩ s)
    ∧ (NoReadError (.bbinv a) s → s.scratchLimit < p + 16 →
        exec (.bbinv a) s = deliver ⟨0x40, 0, BitVec.ofNat 64 p, 0, 0, 0⟩ s)

/-- PROMOTE copies n bytes into a new allocation and PROMOTE.a makes the allocation alone (R215, R216, R250):
each issues one operation that carries the pointer to the pair of D, and goes on. An allocation lies at the
target's cursor, which rises by its size, made a multiple of 16, where that still lies inside the target, and
else there is none and the instruction faults; n above 4,096 faults. The source is read byte by byte, by relaxed
uniform loads which a line of the core's L1 may serve (R238, R294), and the reads wait for the strand's own
earlier accesses to it: that they never miss those is the model's reading (log entry 116). A promotion that
parks at its writes keeps its allocation and its bytes, and goes on with them (R216). -/
def Obligations.Promotions : Prop :=
  (∀ (n : Nat) (s : State),
    let m := (n + 15) / 16 * 16
    let size := s.grd.poolSize
    let at_ := s.grd.poolCursor
    (size ≠ 0 → (n = 0 ∨ at_ + m ≤ size) → allocate 2 n s
      = some (s.grd.poolBase + BitVec.ofNat 64 at_, { s with grd := { s.grd with poolCursor := at_ + m } }))
    ∧ ((size = 0 ∨ (n ≠ 0 ∧ size < at_ + m)) → allocate 2 n s = none)
    ∧ ∀ (t : Nat) (base : DWord) (cap : Nat), (t, base, cap) ∈
        ([(0, s.blk.barena, s.grd.bcap), (1, s.grd.garena, s.grd.gcap)] : List (Nat × DWord × Nat)) →
      (cap = 0 → allocate t n s = none)
      ∧ ∀ id, cap ≠ 0 → ptrSlot base = some id →
        let r := slotRec s id
        ((n = 0 ∨ r.cursor + m ≤ r.cap) → allocate t n s
          = some (base + BitVec.ofNat 64 r.cursor, setSlotRec s { r with cursor := r.cursor + m }))
        ∧ (n ≠ 0 → r.cap < r.cursor + m → allocate t n s = none))
  ∧ (∀ (t : BitVec 2) (q : BitVec 5) (b : Opnd) (s : State), NoReadError (.promoteA t q b) s → s.prologue = false →
    (∀ p u, allocate t.toNat (s.arg b).toNat s = some (p, u) → Completes (.promoteA t q b) s fun v =>
      WentOn (wordCount (.promoteA t q b)) u v ∧ Issued (opOf (promoteReq p q []) [promoteCarrier p] u) u u v)
    ∧ (allocate t.toNat (s.arg b).toNat s = none →
      exec (.promoteA t q b) s = deliver ⟨codePoolEmpty, 0, 0, 0, 0, 0⟩ s))
  ∧ (∀ (t : BitVec 2) (q : BitVec 5) (a : BitVec 6) (b : Opnd) (s : State),
    NoReadError (.promote t q a b) s → s.prologue = false →
    let i : Instr := .promote t q a b
    let f : Form := .promote t q (some a) b
    let src := s.st.sget64 a.toNat
    let n := (s.arg b).toNat
    (∀ p bytes, s.st.promo = some (p, bytes) → exec i s = promoteWrites f t.toNat q p bytes s)
    ∧ (s.st.promo = none → 4096 < n → exec i s = deliver ⟨0x02, 0, 0, 0, 0, 0⟩ s)
    ∧ (s.st.promo = none → n ≤ 4096 → allocate t.toNat 0 s = none →
        exec i s = deliver ⟨codePoolEmpty, 0, 0, 0, 0, 0⟩ s)
    ∧ ∀ y z, s.st.promo = none → n ≤ 4096 → allocate t.toNat 0 s = some (y, z) →
      (n = 0 → Completes i s fun v =>
        WentOn (wordCount i) s v ∧ Issued (opOf (promoteReq y q []) [promoteCarrier y] s) s s v)
      ∧ (n ≠ 0 →
        let checks := checkParts .strand (dieOf s.blk.core) (.load false) true 1 (partsOf src n 3 0) s s.wld
        (∀ x, checks = .bad x → exec i s = parkOrDeliver x 1 s)
        ∧ ∀ parts v w, checks = .ok parts v w →
          let r : State := { v with wld := w }
          let x := readOver (allPas parts) r
          (readHeld r (promoteSource src n) parts = true → exec i s = .next (waitFor .order r))
          ∧ (readHeld r (promoteSource src n) parts = false →
            (Unread 0 n r → (∀ x ∈ parts, badLines r x.2.2.key x.2.2.pas = []) →
              ReadsOn 0 n (fun k x => x = homeByte r (allPas parts) k ∨ ∃ l ∈ r.l1, l.core = r.blk.core
                ∧ l.line = nth 0 (allPas parts) k / 64
                ∧ x = (nth 0 l.bytes (nth 0 (allPas parts) k % 64),
                    l.bad.contains (nth 0 (allPas parts) k % 64))) i s r)
            ∧ (ReadPoison 0 n r → r.grd.tolerant = false → exec i s = deliver ⟨0x50, 0, src, 0, 0, 0⟩ x)
            ∧ ∀ bytes, bytes.length = n → BytesRead 0 bytes r →
              (allocate t.toNat n x = none → exec i s = deliver ⟨codePoolEmpty, 0, 0, 0, 0, 0⟩ x)
              ∧ ∀ p u, allocate t.toNat n x = some (p, u) → exec i s = promoteWrites f t.toNat q p bytes u)))
  ∧ ∀ (t : BitVec 2) (q : BitVec 5) (f : Form) (s : State) (p : DWord) (bytes : List Byte),
    let kept : State := { s with st := { s.st with promo := some (p, bytes) } }
    let escape := escapeFault s s.wld.key (some (targetUnit t.toNat s)) p bytes
    let checks := checkParts .strand (dieOf s.blk.core) .store true 1 (partsOf p bytes.length 3 0) kept s.wld
    (∀ x, escape = some x → promoteWrites f t.toNat q p bytes s = deliver x s)
    ∧ (∀ x, escape = none → checks = .bad x → promoteWrites f t.toNat q p bytes s = parkOrDeliver x 1 kept)
    ∧ ∀ parts u w, escape = none → checks = .ok parts u w →
      let v : State := { u with wld := w, st := { u.st with attempt := none } }
      let lanes := promoteCarrier p :: parts.flatMap (laneUnits (promoteReq p q bytes) 0)
      ∃ y, promoteWrites f t.toNat q p bytes s = .next y
        ∧ WentOn (formSize f) v y ∧ Issued (opOf (promoteReq p q bytes) lanes v) v v y

/-- ARENA (R251): the queries answer in the pair of D from the slot record of the slot that A names, with zero
for a plain pointer, a slot field that names no slot and a slot of another world, and change nothing else; touch
backs the page as a first touch does and answers whether it did, or faults or parks as its check says. Other
queries are refused at decode. That touch checks as one byte is the model's reading (log entry 48). -/
def Obligations.ArenaQueries : Prop :=
  (∀ (c : DecCtx) (d : BitVec 7) (a : Opnd) (x : BitVec 8), wellFormed c (.arena d a x) = true → x.toNat ≤ 4)
  ∧ ∀ (d : BitVec 7) (a : Opnd) (x : BitVec 8) (s : State), NoReadError (.arena d a x) s → s.prologue = false →
    let p := s.arg64 a
    let answers := fun (lo hi : Word) => Completes (.arena d a x) s fun t =>
      WentOn (wordCount (.arena d a x)) s t ∧ t.st.sget d.toNat = lo ∧ t.st.sget (d.toNat + 1) = hi
        ∧ OnlyScalars [d.toNat, d.toNat + 1] s t
    (x.toNat ≤ 3 → (ptrSlot p = none ∨ ∃ id, ptrSlot p = some id ∧ (slotRec s id).world ≠ s.wld.key) → answers 0 0)
    ∧ (∀ id, ptrSlot p = some id → (slotRec s id).world = s.wld.key →
      let r := slotRec s id
      let live := r.state = 1 ∧ r.gen.toNat = ptrGen p
      let backed := ∃ y, (ptrOffset p / slotPage id, y) ∈ r.pages
      (x = 0 → r.state < 4 → r.cls < 4 → answers
        (BitVec.ofNat 32 (r.gen.toNat + 2 ^ 10 * r.state + 2 ^ 12 * r.cls + (if live then 2 ^ 14 else 0)))
        (BitVec.ofNat 32 r.pages.length))
      ∧ (∀ v, (x = 1 ∧ v = r.cap) ∨ (x = 2 ∧ v = r.cursor) →
        (v < 2 ^ 38 → answers (BitVec.ofNat 32 v) (BitVec.ofNat 32 (v / 2 ^ 32)))
        ∧ (2 ^ 38 ≤ v → ∃ lo hi : Word, hi.toNat < 2 ^ 6 ∧ answers lo hi))
      ∧ (x = 3 → backed → answers 1 0) ∧ (x = 3 → ¬ backed → answers 0 0))
    ∧ (x = 4 → ptrSpace p = 0 → answers 0 0)
    ∧ (x = 4 → ptrSpace p ≠ 0 → ∀ f, checkArena s s.wld (dieOf s.blk.core) (.load false) true p 1 = .bad f →
        exec (.arena d a x) s = parkOrDeliver f 1 s)
    ∧ ∀ part u w id, x = 4 → ptrSpace p ≠ 0 → ptrSlot p = some id →
        checkArena s s.wld (dieOf s.blk.core) (.load false) true p 1 = .ok part u w →
        Completes (.arena d a x) s fun t =>
          t.st.sget d.toNat = (if ((slotRec s id).pages.lookup (ptrOffset p / slotPage id)).isSome then 0 else 1)
            ∧ t.st.sget (d.toNat + 1) = 0
            ∧ OnlyScalars [d.toNat, d.toNat + 1] { u with wld := w, st := s.st } t

/-- LAUNCH (R320, R341): with the strand's accesses complete, a well-formed GRID record, its own or that of its
node's task control block, whose argument block can be read and does not escape is posted to the work queue that
it names, as a child of the launching grid, and sD is 0; a malformed record, a queue that is unbound or of
another VMID, a key handle that is neither 0 nor the world's, and a child 16 or more levels deep are refused
with their codes, and nothing is posted; while the queue is full the strand waits, and keeps what it has read.
What it reads it reads in units that come apart (R294). A packet, a SIGNAL, a node of one and a well-formed
WAITVAL are posted likewise and make no child; a KIND that no record has is malformed (R318, R320). That a queue
that cannot be reached refuses with detail 2, and that a record without a QUEUE field goes to the queue of the
launching grid, is the model's reading (log entries 43, 52). -/
def Obligations.Launches : Prop :=
  ∀ (d : BitVec 7) (a : Opnd) (s : State), NoReadError (.launch d a) s → s.prologue = false →
    let at_ := imageBase a s
    let i : Instr := .launch d a
    let posts := fun (image : List Byte) (u : State) (n : Nat) (o : State → Nat → Header → List Origin) =>
      (u.queue n = none → Completes i s (LaunchEnds d a 0x10020000 u))
      ∧ ∀ q, u.queue n = some q →
        (q.bind.vmid ≠ u.wld.vmid → Completes i s (LaunchEnds d a 0x10020000 u))
        ∧ (q.bind.vmid = u.wld.vmid →
          let u := queueHeaderCheck q u
          (queueHeader u q = none → Completes i s (LaunchEnds d a 0x10020000 u))
          ∧ ∀ key h, queueHeader u q = some (key, h) →
            (h.full = true → exec i s = .next (waitFor .queue u))
            ∧ (h.full = false → postImage key h image u = none → Completes i s (LaunchEnds d a 0x10020000 u))
            ∧ ∀ v, h.full = false → postImage key h image u = some v →
              Completes i s (LaunchEnds d a 0 { v with origins := o v q.index h }))
    let posted := fun (image block : List Byte) (rec : BitVec 512) (args : DWord) (u : State) =>
      (∀ x, launchEscape u at_ args block = some x → exec i s = deliver x u)
      ∧ (launchEscape u at_ args block = none →
        (gridMalformed u.accepted rec = true → Completes i s (LaunchEnds d a 0x10010000 u))
        ∧ (gridMalformed u.accepted rec = false → u.queue (field rec 16 10) = none →
            Completes i s (LaunchEnds d a 0x10020000 u))
        ∧ (gridMalformed u.accepted rec = false → ∀ q, u.queue (field rec 16 10) = some q →
          (q.bind.vmid ≠ u.wld.vmid → Completes i s (LaunchEnds d a 0x10020000 u))
          ∧ (q.bind.vmid = u.wld.vmid → field rec 32 16 ≠ 0 → field rec 32 16 ≠ u.wld.handle.toNat →
              Completes i s (LaunchEnds d a 0x10010000 u))
          ∧ (q.bind.vmid = u.wld.vmid → (field rec 32 16 = 0 ∨ field rec 32 16 = u.wld.handle.toNat) →
              15 ≤ u.grd.depth → Completes i s (LaunchEnds d a 0x10040000 u))
          ∧ ((field rec 32 16 = 0 ∨ field rec 32 16 = u.wld.handle.toNat) → u.grd.depth < 15 →
              posts image u (field rec 16 10) fun v n h => v.origins ++ [⟨n, h.write, none, u.grd.id⟩])))
    let grid := fun (image : List Byte) (v : State) (rec : BitVec 512) =>
      let args := BitVec.ofNat 64 (field rec 320 64)
      (args = 0 → posted image [] rec args v)
      ∧ (args ≠ 0 → ReadsThen i 256 args 32 s v fun block u => posted image block rec args u)
    (s.scratchLimit < at_ + 64 → exec i s = deliver ⟨0x40, 0, BitVec.ofNat 64 at_, 0, 0, 0⟩ s)
    ∧ (at_ + 64 ≤ s.scratchLimit → accessesOut s = true → exec i s = .next (waitFor .order s))
    ∧ (accessesOut s = false → ImageThen i a s fun image =>
      let record := BitVec.ofNat 512 (leNat image)
      let kind := field record 8 8
      (kind = 0x80 → grid image s record)
      ∧ (kind = 0x81 →
        (nodeMalformed record = true → Completes i s (LaunchEnds d a 0x10010000 s))
        ∧ (nodeMalformed record = false → ReadsThen i 64 (BitVec.ofNat 64 (field record 64 64)) 128 s s fun body v =>
          let tcb : Tcb := BitVec.ofNat 1024 (leNat body)
          (tcbMalformed tcb = true → Completes i s (LaunchEnds d a 0x10010000 v))
          ∧ (tcbMalformed tcb = false → field tcb 8 8 = 0x80 → grid image v (tcbRecord tcb))
          ∧ (tcbMalformed tcb = false → field tcb 8 8 ≠ 0x80 → posts image v v.grd.queue fun v _ _ => v.origins)))
      ∧ ((kind ≤ 7 ∨ kind = 0x82 ∨ (kind = 0x83 ∧ waitvalMalformed record = false)) →
          posts image s s.grd.queue fun v _ _ => v.origins)
      ∧ ((kind = 0x83 → waitvalMalformed record = true) → 7 < kind → kind ∉ ([0x80, 0x81, 0x82] : List Nat) →
          Completes i s (LaunchEnds d a 0x10010000 s)))

/-- TSIG (R342): an address that is not a multiple of 128 faults; otherwise, with its checks passed, B = 0 has
no effect and any other count issues a release whose lanes carry it, after earlier SO accesses where the page is
SO (R298). That B = 0 is checked first is the model's reading (log entry 49). -/
def Obligations.TaskSignals : Prop :=
  ∀ (p : BitVec 6) (b : Opnd) (s : State), NoReadError (.tsig p b) s → s.prologue = false →
    let va := s.st.sget64 p.toNat
    (va.toNat % 128 ≠ 0 → exec (.tsig p b) s = deliver ⟨0x02, 0, va, 0, 0, 0⟩ s)
    ∧ ∀ parts u w, va.toNat % 128 = 0 → checkLane (tsigReq va (s.arg b)) 0 s = .ok parts u w → u.st = s.st →
        let v : State := { u with wld := w }
        (s.arg b = 0 → Completes (.tsig p b) s fun t => WentOn (wordCount (.tsig p b)) s t ∧ OnlyMoved v t)
        ∧ (s.arg b ≠ 0 → soBlocked v true (tsigUnits (tsigReq va (s.arg b)) parts) = true →
            exec (.tsig p b) s = .next (waitFor .order v))
        ∧ (s.arg b ≠ 0 → soBlocked v true (tsigUnits (tsigReq va (s.arg b)) parts) = false →
            Completes (.tsig p b) s fun t => WentOn (wordCount (.tsig p b)) s t
            ∧ Issued (opOf (tsigReq va (s.arg b)) (tsigUnits (tsigReq va (s.arg b)) parts) v) v v t)

/-! ### Matrix instructions -/

/-- OCLAIM and OREL on a run of slots (R162): an unclaimed run becomes claimed and empty; a claimed run, with
the other slots of its pairs, becomes unclaimed for naming and its release is queued; OCLAIM waits for a release
that has not finished. A fault carries the number of a slot in EXTRA (R347): a run that leaves the allotment, a
slot in the wrong state, any slot where the grid has no twin. That n = 0 has no effect whatever N is, and which
slot is named, is the model's reading (log entries 46, 97). -/
def Obligations.SlotRuns : Prop :=
  ∀ (o : BitVec 6) (a : Opnd) (s : State),
    let n := (s.arg a).toNat
    let run := (List.range n).map (o.toNat + ·)
    (∀ i ∈ ([.oclaim o a, .orel o a] : List Instr), NoReadError i s →
      let named := fun (k : Nat) => exec i s = deliver ⟨0x42, 0, 0, 0, BitVec.ofNat 32 k, 0⟩ s
      (s.grd.twin = false → named o.toNat)
      ∧ (s.grd.twin = true → n = 0 → Completes i s fun t => WentOn (wordCount i) s t ∧ OnlyMoved s t)
      ∧ (s.grd.twin = true → n ≠ 0 → s.slotLimit < o.toNat + n → named (max o.toNat s.slotLimit)))
    ∧ (s.grd.twin = true → n ≠ 0 → o.toNat + n ≤ s.slotLimit →
      (NoReadError (.oclaim o a) s →
        ((∀ k ∈ run, (s.blk.slot k).state = 0 ∧ (s.blk.slot k).releasing = false) → Completes (.oclaim o a) s fun t =>
          WentOn (wordCount (.oclaim o a)) s t ∧ OnlySlots run s t ∧ t.blk.mops = s.blk.mops
            ∧ ∀ k ∈ run, t.blk.slot k = ⟨1, 0, 0, false, 0, 0, 0, [], [], false⟩)
        ∧ ((∀ k ∈ run, (s.blk.slot k).state = 0) → (∃ k ∈ run, (s.blk.slot k).releasing = true) →
          exec (.oclaim o a) s = .next (waitFor .order s))
        ∧ ∀ k ∈ run, (s.blk.slot k).state ≠ 0 → (∀ j ∈ run, j < k → (s.blk.slot j).state = 0) →
          exec (.oclaim o a) s = deliver ⟨0x45, 0, 0, 0, BitVec.ofNat 32 k, 0⟩ s)
      ∧ (NoReadError (.orel o a) s →
        ((∀ k ∈ run, (s.blk.slot k).state ≠ 0) → Completes (.orel o a) s fun t =>
          WentOn (wordCount (.orel o a)) s t ∧ OnlySlots (run.flatMap (pairOf s.blk)) s t
            ∧ (∀ k ∈ run, k ∈ pairOf s.blk k)
            ∧ ∀ k ∈ run.flatMap (pairOf s.blk), (t.blk.slot k).state = 0 ∧ (t.blk.slot k).releasing = true
                ∧ ∃ m ∈ t.blk.mops, m.what = .orel k ∧ m.strand = s.st.idx)
        ∧ ∀ k ∈ run, (s.blk.slot k).state = 0 → (∀ j ∈ run, j < k → (s.blk.slot j).state ≠ 0) →
          exec (.orel o a) s = deliver ⟨0x42, 0, 0, 0, BitVec.ofNat 32 k, 0⟩ s))

/-- OLDA and OLDW queue a load of a claimed slot and set what the moon cores record of it (R158, R163 to R165);
a slot that is not claimed, or a tile outside the scratchpad allotment, is a fault. An OLDW comes after the
stores of its bytes whose data a load of the strand has taken (R302, R307). -/
def Obligations.OperandLoads : Prop :=
  (∀ (o : BitVec 6) (a : Opnd) (x : BitVec 8) (s : State), NoReadError (.olda o a x) s →
    let base := (s.arg a).toNat / 16 * 16
    let what : MWhat := .olda o.toNat x base
    let good := ∀ n ∈ what.loads, slotBad s n = false
    (∀ l n q, what.loads = l ++ n :: q → (∀ k ∈ l, slotBad s k = false) → slotBad s n = true →
      exec (.olda o a x) s = deliver ⟨0x42, 0, 0, 0, BitVec.ofNat 32 n, 0⟩ s)
    ∧ (good → s.scratchLimit < base + actExtent x →
      exec (.olda o a x) s = deliver ⟨0x40, 0, BitVec.ofNat 64 base, 0, 0, 0⟩ s)
    ∧ (good → base + actExtent x ≤ s.scratchLimit → Completes (.olda o a x) s fun t =>
      WentOn (wordCount (.olda o a x)) s t ∧ OnlySlots what.loads s t ∧ Queued what s t
        ∧ (t.blk.slot o.toNat).state = 2 ∧ (t.blk.slot o.toNat).kind = (if x.getLsbD 2 then 2 else 1)
        ∧ (t.blk.slot o.toNat).ks = x.toNat % 4))
  ∧ ∀ (o p : BitVec 6) (x : BitVec 8) (s : State), NoReadError (.oldw o p x) s → parkedLoad s = none →
    let va := s.st.sget64 p.toNat
    let set := { s.blk.slot o.toNat with
      state := 2, kind := 3, ks := x.toNat % 4, isSealed := false, loadop := x, va := va, tensor := 0 }
    let v := addMOp (.oldw o.toNat x va) 0 { s with blk := s.blk.setSlot o.toNat set }
    (slotBad s o.toNat = true → exec (.oldw o p x) s = deliver ⟨0x42, 0, 0, 0, BitVec.ofNat 32 o.toNat, 0⟩ s)
    ∧ ∀ (u : State) (w : World) (parts : List (Nat × DWord × PagePart)) (tensor : BitVec 32) (isSealed : Bool)
        (lanes : List LaneAcc), slotBad s o.toNat = false → (∀ m ∈ s.blk.mops, m.seq < s.blk.mseq) →
      checkRuns (va &&& ~~~63#64) (weightRuns x) 0 v v.wld = .ok parts u w → u.blk = v.blk →
      oldwParts w parts = some (isSealed, tensor, lanes) →
      let behind := seenOut { u with wld := w } ((allPas parts).contains ·)
      let queued := fun (m : MOp) =>
        m.what = .oldw o.toNat x va ∧ m.strand = s.st.idx ∧ m.seq = s.blk.mseq ∧ m.got = [] ∧ m.put = []
      (behind = true → Completes (.oldw o p x) s fun t =>
        t.st = (waitFor .order u).st ∧ (∃ m ∈ t.blk.mops, queued m ∧ m.parked = true) ∧ t.mem = u.mem)
      ∧ (behind = false → Completes (.oldw o p x) s fun t =>
        t.blk.slot o.toNat = { set with isSealed := isSealed, tensor := tensor }
          ∧ (∃ m ∈ t.blk.mops, queued m ∧ m.parts = lanes ∧ m.parked = false)
          ∧ t.mem = u.mem)

/-- MMA, ACLR and ADRN (R161, R166, R168, R169): what each needs, and what it does at issue. What an MMA that
has not retired may have read before an ACLR is kept with it: the model's reading (log entry 100). -/
def Obligations.MatrixIssues : Prop :=
  (∀ (f : MmaF) (s : State),
    let a := s.blk.slot f.a.toNat
    let w := s.blk.slot f.w.toNat
    (holdsToken s = false → exec (.mma f) s = deliver ⟨0x43, 0, 0, 0, 0, 0⟩ s)
    ∧ (holdsToken s = true → f.t.toNat < s.tileLimit → slotBad s f.a.toNat = false → slotBad s f.w.toNat = false →
      (a.kind = 1 ∨ a.kind = 2) → w.kind = 3 → a.ks = w.ks → Completes (.mma f) s fun t =>
        WentOn 1 s t ∧ OnlySlots [] s t
          ∧ Queued (.mma f.zc f.na f.nb f.t.toNat f.a.toNat f.w.toNat a.kind a.ks) s t))
  ∧ (∀ (n : BitVec 4) (s : State),
    (n.toNat < s.tileLimit → Completes (.aclr n) s fun t =>
      WentOn 1 s t ∧ t = { s with st := s.st.moved t.st, blk := { s.blk with tiles := t.blk.tiles, mops := t.blk.mops } }
        ∧ t.blk.mops = s.blk.mops.map (keepUnder n.toNat (s.blk.tile n.toNat))
        ∧ (∀ i j, (t.blk.tile n.toNat).at_ i j = 0) ∧ (t.blk.tile n.toNat).poison = []
        ∧ ∀ k, k ≠ n.toNat → t.blk.tile k = s.blk.tile k)
    ∧ (s.tileLimit ≤ n.toNat → exec (.aclr n) s = deliver ⟨0x44, 0, 0, 0, 0, 0⟩ s))
  ∧ ∀ (n : BitVec 4) (a : Opnd) (s : State), NoReadError (.adrn n a) s →
    let base := (s.arg a).toNat / 16 * 16
    n.toNat < s.tileLimit → base + 16384 ≤ s.scratchLimit → Completes (.adrn n a) s fun t =>
      WentOn (wordCount (.adrn n a)) s t ∧ Queued (.adrn n.toNat base) s t
        ∧ t.blk.slots = s.blk.slots ∧ t.blk.tiles = s.blk.tiles ∧ t.blk.scratch = s.blk.scratch ∧ t.mem = s.mem

/-- MTOK and MWAIT (R160, R170, R171): the holder hands the token on; MWAIT TOK waits for the token and for the
MMAs before the hand-over, MWAIT ALL for every matrix operation issued before it but a release, where `attempt`
keeps the point at which the wait began. When its holder exits, the token goes to the lowest-numbered strand of
the block that has not exited (R160). -/
def Obligations.MatrixToken : Prop :=
  (∀ (a : Opnd) (s : State), NoReadError (.mtok a) s →
    let n := (s.arg a).toNat
    ((holdsToken s = false ∨ s.blk.nstrands ≤ n) → exec (.mtok a) s = deliver ⟨0x43, 0, 0, 0, 0, 0⟩ s)
    ∧ (holdsToken s = true → n < s.blk.nstrands → n ≠ s.st.idx →
        (∃ u ∈ s.blk.strands, u.idx = n ∧ u.gone = false) → Completes (.mtok a) s fun t =>
          t.blk.token = some n ∧ nth 0 t.blk.handover n = s.blk.mseq ∧ t.mem = s.mem)
    ∧ (holdsToken s = true → n < s.blk.nstrands → n = s.st.idx → Completes (.mtok a) s fun t =>
        WentOn (wordCount (.mtok a)) s t ∧ OnlyMoved s t))
  ∧ (∀ s : State, s.grd.twin = true →
    let before := fun (m : MOp) => m.seq < nth 0 s.blk.handover s.st.idx
        ∧ ∃ zc na nb t a w fmt ks, m.what = .mma zc na nb t a w fmt ks
    (holdsToken s = true → (∀ m ∈ s.blk.mops, ¬ before m) → Completes .mwaitTok s fun t => WentOn 1 s t
        ∧ OnlyMoved s t)
    ∧ ((holdsToken s = false ∨ ∃ m ∈ s.blk.mops, before m) → exec .mwaitTok s = .next (waitFor (.mwait true 0) s)))
  ∧ (∀ s : State,
    let point := (s.st.attempt.map (·.toNat)).getD s.blk.mseq
    let before := fun (m : MOp) => m.seq < point ∧ ∀ n, m.what ≠ .orel n
    ((∀ m ∈ s.blk.mops, ¬ before m) → Completes .mwaitAll s fun t => WentOn 1 s t ∧ OnlyMoved s t)
    ∧ ((∃ m ∈ s.blk.mops, before m) → exec .mwaitAll s = .next (waitFor (.mwait false point)
        { s with st := { s.st with attempt := some (BitVec.ofNat 64 point) } })))
  ∧ ∀ s : State, (s.grd.tolerant = true ∨ (s.st.poisonTags = 0 ∧ ∀ o ∈ s.st.ops, o.what ≠ .lda)) →
    let stays := fun (k : Nat) => ∃ u ∈ s.blk.strands, u.idx = k ∧ u.gone = false
    (s.blk.token = none → Completes .exit s fun t => t.blk.token = none)
    ∧ ∀ h, s.blk.token = some h →
      (stays h → Completes .exit s fun t => t.blk.token = some h)
      ∧ (¬ stays h → ∀ k, k < 16 → stays k → (∀ j, j < k → ¬ stays j) → Completes .exit s fun t =>
          t.blk.token = some k ∧ nth 0 t.blk.handover k = s.blk.mseq)
      ∧ ((∀ k, k < 16 → ¬ stays k) → ¬ stays h → Completes .exit s fun t => t.blk.token = some h)

/-! ### Events: clauses, waits, accesses -/

/-- CLAUSE_ISSUE (R35, R50, R53, R54): a ready strand between clauses whose code can be read, whose header is
well-formed and whose limits are met, opens the clause at its pc; with a limit not met nothing happens, and a
bad header faults. A strand that has yielded lets the clauses that are ready for the port of its next one go
first (R38, R116). -/
def Obligations.ClauseIssue : Prop :=
  (∀ (r : StrandRef) (old : Bool) (s : State), InFocus r s → s.st.clause = none → atBoundary s = true →
      s.st.yld = true →
    stillBehind s = false → readyRivals s ≠ [] → Completes (.clauseIssue r old) s fun t =>
      t.st.clause = none ∧ t.st.yld = false ∧ t.st.behind = readyRivals s ∧ OnlyMoved s t)
  ∧
  ∀ (r : StrandRef) (old : Bool) (s u v : State) (l1 l2 : List Byte), InFocus r s → s.st.clause = none →
      mayOpen s = true →
    s.st.pc.toNat % 4 = 0 → CodeRead old 4 s l1 u →
    let h : Word := BitVec.ofNat 32 (leNat l1)
    (headerBad h = true → exec (.clauseIssue r old) s = deliver ⟨0x03, 0, s.st.pc, 0, 0, 0⟩ u)
    ∧ (headerBad h = false → CodeRead old (4 * (field h 28 4 + 1)) s l2 v →
      let cls := field h 25 3
      (limitsMet v h = false → exec (.clauseIssue r old) s = .next v)
      ∧ (limitsMet v h = true → ∀ e k, decodeClause 16 (decodeCtx v cls []) (wordList l2).tail 0 = .error (e, k) →
          exec (.clauseIssue r old) s =
            (let at_ := if e = .badClauseHeader then v.st.pc else v.st.pc + BitVec.ofNat 64 (4 * (k + 1))
             deliver ⟨decodeCode e, 0, at_, 0, 0, 0⟩ { v with st := { v.st with pc := at_ } }))
      ∧ (limitsMet v h = true → ∀ is, decodeClause 16 (decodeCtx v cls []) (wordList l2).tail 0 = .ok is →
          ((is.filterMap form).any (scoreboardHolds v) || !roomFor v (is.filterMap form)) = false →
          Completes (.clauseIssue r old) s fun t =>
            t.st.pc = v.st.pc + 4 ∧ t.st.clause = some ⟨v.st.pc, cls, (wordList l2).tail, []⟩
              ∧ t = { v with st := v.st.moved t.st } ∧ t.st.status = v.st.status))

/-- REPLAY_RESOLVED of a parked strand (R230): resolved, the next attempt runs over its unfinished lanes;
declined, the strand takes its fault. ARENA_POOL_REFILL moves pages of the world's memory into a pool (R203).
WAITV_WAKE, SLEEP_EXPIRY, WAITP_EXPIRY make their waiting strand ready and change nothing else, each only once
its time has come (R117, R249, R280). QUEUE_ROOM makes a strand that waits for a queue test it again, and one
that is full still makes it wait again (R278). That an ARENA_EXHAUSTED whose pool can be refilled no more is
declined, and its fault delivered, is the model's reading (log entry 78). -/
def Obligations.Wakes : Prop :=
  ((∀ (r : StrandRef) (s : State) (f : FaultInfo) (left : BitVec 64), InFocus r s → s.st.status = .parked f left →
    exec (.replayResolved (.strand r) true) s = .next { s with st := { s.st with status := .ready, attempt := some left } }
    ∧ (f.code ≠ codeStage2 → parkedLoad s = none → exec (.replayResolved (.strand r) false) s = deliver f s))
  ∧ ∀ (key die : Nat) (big : Bool) (s u : State) (w x : World) (r : Range), s.world key = some w →
    takePoolMemory s w (poolPage big) (poolPage big) = some (r, u) → u.world key = some x →
    Completes (.arenaPoolRefill key die big 1) s fun t =>
      t.mem = u.mem ∧ ∃ y p, t.world key = some y ∧ p ∈ y.pools ∧ p.die = die ∧ p.big = big ∧ r.base ∈ p.pages)
  ∧
  (∀ (r : StrandRef) (s : State), InFocus r s →
    (∀ line at_, s.st.status = .waiting (.waitv line at_) →
      (at_.toNat ≤ s.clock.toNat → exec (.waitvWake r) s = .next { s with st := { s.st with status := .ready } })
      ∧ (s.clock.toNat < at_.toNat → Stutters (.waitvWake r) s))
    ∧ (∀ at_, s.st.status = .waiting (.sleep at_) →
      (at_.toNat ≤ s.clock.toNat →
        exec (.sleepExpiry r) s = .next { s with st := { s.st with status := .ready, attempt := some 0 } })
      ∧ (s.clock.toNat < at_.toNat → Stutters (.sleepExpiry r) s))
    ∧ (∀ n p, s.st.status = .waiting (.waitp n p) →
      (clockReached s p → exec (.waitpExpiry r) s = .next { s with st := { s.st with status := .ready } })
      ∧ (¬ clockReached s p → Stutters (.waitpExpiry r) s))
    ∧ (s.st.status = .waiting .queue → exec (.queueRoom r) s = .next { s with st := { s.st with status := .ready } }))

/-- LOAD_COMPLETE, STORE_COMPLETE and RDUP_COLLAPSE perform units of an operation at memory, all that are left
or some (R37, R230 to R232, R237, R240 to R243, R248, R250, R294, R342): a load's lane takes its words when its
last unit has been read, and memory stays; a store and a promotion write their bytes and no other; an atomic
leaves its operation's value in its word and returns the old one; an atomic declared qnt is deferred; TAGLD
reads and TAGST sets the tag of its granule; TSIG lowers PRED; and the operation is outstanding with the units
that are left. In which order units are performed is free (log entries 13, 34); that a deferred atomic keeps
what it will need is the model's reading (log entry 84). -/
def Obligations.DeviceAccessesPerform : Prop :=
  (∀ (r : StrandRef) (n : Nat) (src : ServeFrom) (u : Units) (o : Op) (s : State), ReadyOp r n o u s →
    let l := o.picked u
    (∀ a ∈ l, badLines s a.key a.pas = [] ∧ a.pas.any (servedBad s o src a) = false) →
    (∀ a ∈ o.lanes, a.done = true → a.bad = false) → o.what = .ld →
    Completes (.loadComplete r ⟨n, u⟩ src) s fun t =>
      t.mem = s.mem ∧ LeftWith n (o.undone.filter fun a => !l.contains a) t ∧ t.st.m = s.st.m ∧ t.st.pc = s.st.pc
        ∧ (∀ i ∈ l.map (·.lane), (∀ a ∈ lanePartsOf o.lanes i, a.done = true ∨ a ∈ l) →
            (o.uni = true → l.all (·.lane = i) = true) →
            Holds o i (loadedWords o.size o.sx (laneRead o i fun a => a.pas.map (servedByte s o src a))) t)
        ∧ (o.uni = false → ∀ k lane, lane ∉ l.map (·.lane) → t.st.vget k lane = s.st.vget k lane))
  ∧ (∀ e ∈ ([(.st, fun (o : Op) => o.size), (.promote, fun _ => 1)] : List (OpWhat × (Op → Nat))),
    ∀ (r : StrandRef) (n : Nat) (u : Units) (o : Op) (s : State), ReadyOp r n o u s → u ≠ .accept →
        rdupHeld o = false →
    o.what = e.1 → 0 < e.2 o →
    let l := o.picked u
    (∀ a ∈ l, badLines s a.key a.pas = [] ∧ a.data.length = a.pas.length ∧ ∀ p ∈ a.pas, p < Config.paSpace) →
    (∀ a ∈ l, ∀ b ∈ l, a.pas ≠ [] → b.pas ≠ [] → a.key = b.key) → Memory.wf s.mem = true →
    Completes (.storeComplete r ⟨n, u⟩) s fun t =>
      (∀ p ∈ l.flatMap (·.pas), ∃ a ∈ l, (p, Memory.read t.mem p) ∈ a.pas.zip a.data)
          ∧ SameBytes (l.flatMap (·.pas)) s t
        ∧ LeftWith n (o.undone.filter fun a => !l.contains a) t ∧ t.st.v = s.st.v ∧ t.st.m = s.st.m
        ∧ (o.what = .st → t.st.s = s.st.s)
        ∧ (o.what = .promote → u = .all → ∀ c, o.lanes.head? = some c → t.st.sget64 o.dst = c.cmp))
  ∧ (∀ (r : StrandRef) (n : Nat) (u : Units) (o : Op) (s : State), ReadyOp r n o u s → rdupHeld o = true →
      o.what = .st → 0 < o.size →
    let l := (o.picked u).filter (·.rdup)
    mayPerform s o l = true → (∀ a ∈ l, badLines s a.key a.pas = [] ∧ a.data.length = a.pas.length
        ∧ ∀ p ∈ a.pas, p < Config.paSpace) →
    (∀ a ∈ l, ∀ b ∈ l, a.key = b.key) → Memory.wf s.mem = true → Completes (.rdupCollapse r ⟨n, u⟩) s fun t =>
      (∀ p ∈ l.flatMap (·.pas), ∃ a ∈ l, (p, Memory.read t.mem p) ∈ a.pas.zip a.data)
          ∧ SameBytes (l.flatMap (·.pas)) s t
        ∧ (∃ x, opAt t.st n = some x ∧ x.undone = o.undone.filter fun a => !l.contains a)
        ∧ ∀ d ∈ t.dups, ∀ p ∈ l.flatMap (·.pas), d.line ≠ p / 64)
  ∧ (∀ (r : StrandRef) (n : Nat) (src : ServeFrom) (u : Units) (o : Op) (a : LaneAcc) (s : State), ReadyOp r n o u s →
    o.what = .atom → rdupHeld o = false → o.picked u = [a] → u ≠ .accept → CleanUnits [a] s → Memory.wf s.mem = true →
    (∀ p ∈ a.pas, p < Config.paSpace) → a.pas.Nodup → a.pas.length = o.size → (o.size = 4 ∨ o.size = 8) →
    let old := a.pas.map s.readByte
    let done := fun (t : State) => ∀ x ∈ a.pas.zip (atomAfter o.aop o.size old a.data a.cmp),
        Memory.read t.mem x.1 = x.2
    let rest := fun (t : State) => SameBytes a.pas s t ∧ LeftWith n (o.undone.filter (· ≠ a)) t ∧ t.st.m = s.st.m
    (o.nr = false → (o.use ≠ 4 ∨ a.mtype = 2) → Completes (.loadComplete r ⟨n, u⟩ src) s fun t =>
      done t ∧ rest t ∧ Holds o a.lane (loadedWords o.size false old) t)
    ∧ (o.nr = false → o.use = 4 → a.mtype ≠ 2 → atomBad o s a = false →
        Completes (.loadComplete r ⟨n, u⟩ src) s fun t => rest t
      ∧ ((done t ∧ Holds o a.lane (loadedWords o.size false old ++ [0]) t)
        ∨ (t.mem = s.mem ∧ Holds o a.lane (loadedWords o.size false old ++ [1]) t)))
    ∧ (o.nr = true → o.use ≠ 3 → Completes (.storeComplete r ⟨n, u⟩) s fun t =>
      done t ∧ rest t ∧ t.st.v = s.st.v ∧ t.st.s = s.st.s)
    ∧ (o.nr = true → o.use = 3 → a.mtype ≠ 2 → a.ord ≠ 0 → Completes (.storeComplete r ⟨n, u⟩) s fun t =>
      t.mem = s.mem ∧ LeftWith n (o.undone.filter (· ≠ a)) t ∧ t.st.v = s.st.v ∧ t.st.s = s.st.s
        ∧ ∃ q, t.qnt = s.qnt ++ [q] ∧ q.pas = a.pas ∧ q.aop = o.aop ∧ q.size = o.size ∧ q.cmp = a.cmp ∧ q.key = a.key
          ∧ q.data = BitVec.ofNat 64 (leNat a.data) ∧ q.strand = s.st.ref))
  ∧ (∀ (r : StrandRef) (n : Nat) (src : ServeFrom) (u : Units) (o : Op) (a : LaneAcc) (pa : Nat) (s : State),
      ReadyOp r n o u s →
    o.picked u = [a] → u ≠ .accept → a.pas.head? = some pa →
    let tag := fun (t : State) (g : Nat × Nat) => (t.memTags.lookup g).getD 0#4
    (o.what = .tagld → Completes (.loadComplete r ⟨n, u⟩ src) s fun t => t.mem = s.mem ∧ t.memTags = s.memTags
      ∧ Holds o a.lane [(tag s (pa / 32, a.key)).setWidth 32] t ∧ LeftWith n (o.undone.filter (· ≠ a)) t)
    ∧ (o.what = .tagst → Completes (.storeComplete r ⟨n, u⟩) s fun t => t.mem = s.mem ∧ t.st.v = s.st.v
        ∧ t.st.s = s.st.s
      ∧ tag t (pa / 32, a.key) = (nth 0 a.data 0).setWidth 4 ∧ (∀ g, g ≠ (pa / 32, a.key) → tag t g = tag s g)
      ∧ LeftWith n (o.undone.filter (· ≠ a)) t))
  ∧ ∀ (r : StrandRef) (n : Nat) (u : Units) (o : Op) (a : LaneAcc) (pa : Nat) (s : State), InFocus r s →
    opAt s.st n = some o → mayPerform s o o.undone = true → rdupHeld o = false → o.what = .tsig →
        o.lanes.head? = some a → a.pas.head? = some pa → 64 ≤ pa → pa + 6 < Config.paSpace → Memory.wf s.mem = true →
    let pred := leNat (s.readBytes pa 4)
    let left := pred - min a.cmp.toNat pred
    Completes (.storeComplete r ⟨n, u⟩) s fun t =>
      leNat (Memory.readBytes t.mem pa 4) = left ∧ SameBytes [pa, pa + 1, pa + 2, pa + 3, pa + 5] s t
          ∧ opAt t.st n = none
        ∧ (left = 0 → s.readByte (pa + 5) = 1 → Memory.read t.mem (pa + 5) = 2
            ∧ ⟨s.wld.key, a.va, pa - 64⟩ ∈ t.readyPool ++ t.readyWait)
        ∧ ((left ≠ 0 ∨ s.readByte (pa + 5) ≠ 1) → Memory.read t.mem (pa + 5) = Memory.read s.mem (pa + 5)
            ∧ t.readyPool = s.readyPool ∧ t.readyWait = s.readyWait)

/-- SCRATCHPAD_ACCESS_PERFORMED, LDA_COMPLETE and QNT_MERGE (R241, R254, R255, R258, R260, R261, R283, R294): an
on-chip load reads its bank; an on-chip store writes its bytes and no other; the lanes of an on-chip atomic that
name one word update it in ascending lane order, each returning what the lanes before it left (R255); a write
that meets a barrier armed since it issued faults whole, whichever of its units the event would perform (R253);
a copy writes to each lane's target the bytes read and zero past the valid ones, but for those of armed
barriers; a deferred atomic leaves its operation's value in its word. How BBDROPS and poison are counted is the
model's reading (log entries 33, 47). -/
def Obligations.ChipAccessesPerform : Prop :=
  (∀ (r : StrandRef) (n : Nat) (u : Units) (o : Op) (s : State), InFocus r s → opAt s.st n = some o →
      releaseHeld s o = false →
    o.what.onChip = true → u ≠ .accept →
    let sbm := o.what.onSbm
    let l := o.picked u
    let meets := fun (a : LaneAcc) => touchesArmed s.blk a.va.toNat a.pas.length
    let here := fun (t : State) => t.mem = s.mem ∧ t.st.m = s.st.m
        ∧ LeftWith n (o.undone.filter fun a => !l.contains a) t
    ((o.what = .lds ∨ o.what = .gld) → (∀ a ∈ l, ∀ p ∈ a.pas, p ∉ chipPoison sbm s) →
      Completes (.scratchpadAccessPerformed r ⟨n, u⟩) s fun t => here t ∧ onChip sbm t = onChip sbm s
        ∧ ∀ i ∈ l.map (·.lane), (∀ a ∈ lanePartsOf o.lanes i, a.bad = false ∧ (a.done = true ∨ a ∈ l)) →
          (o.uni = true → l.all (·.lane = i) = true) →
          Holds o i (loadedWords o.size o.sx (laneRead o i fun a => a.pas.map (Memory.read (onChip sbm s)))) t)
    ∧ ((o.what = .sts ∨ o.what = .gst) → (o.what = .sts → ∀ a ∈ o.undone, meets a = false) →
        (∀ a ∈ l, a.data.length = a.pas.length) →
      0 < o.size → Memory.wf (onChip sbm s) = true → Completes (.scratchpadAccessPerformed r ⟨n, u⟩) s fun t =>
        here t ∧ t.st.v = s.st.v ∧ t.st.s = s.st.s
          ∧ (∀ p ∈ l.flatMap (·.pas), ∃ a ∈ l, (p, Memory.read (onChip sbm t) p) ∈ a.pas.zip a.data)
          ∧ (∀ x, x ∉ l.flatMap (·.pas) → Memory.read (onChip sbm t) x = Memory.read (onChip sbm s) x)
          ∧ onChip (!sbm) t = onChip (!sbm) s)
    ∧ ((o.what = .atoms ∨ o.what = .gop) → (o.what = .atoms → ∀ a ∈ o.undone, meets a = false) →
      (∀ a ∈ l, (∀ p ∈ a.pas, p ∉ chipPoison sbm s) ∧ a.pas.Nodup ∧ a.pas.length = o.size) →
          (o.size = 4 ∨ o.size = 8) →
      (∀ a ∈ l, ∀ b ∈ l, a.pas = b.pas ∨ ∀ p ∈ a.pas, p ∉ b.pas) → (l.map (·.lane)).Pairwise (· < ·) →
      (o.uni = true → l.length ≤ 1) → Memory.wf (onChip sbm s) = true →
      Completes (.scratchpadAccessPerformed r ⟨n, u⟩) s fun t =>
        let old := fun (a : LaneAcc) => a.pas.map (Memory.read (onChip sbm s))
        let upTo := fun (a : LaneAcc) (p : LaneAcc → Bool) =>
          (l.filter fun b => b.pas = a.pas && p b).foldl (fun x b => atomAfter o.aop o.size x b.data b.cmp) (old a)
        here t
          ∧ (∀ a ∈ l, a.pas.map (Memory.read (onChip sbm t)) = upTo a fun _ => true)
          ∧ (∀ x, x ∉ l.flatMap (·.pas) → Memory.read (onChip sbm t) x = Memory.read (onChip sbm s) x)
          ∧ onChip (!sbm) t = onChip (!sbm) s
          ∧ (o.nr = false → ∀ a ∈ l, Holds o a.lane (loadedWords o.size false (upTo a fun b => b.lane < a.lane)) t)
          ∧ (o.nr = true → t.st.v = s.st.v ∧ t.st.s = s.st.s))
    ∧ ((o.what = .sts ∨ o.what = .atoms) → ∀ a q, o.undone.filter meets = a :: q →
      exec (.scratchpadAccessPerformed r ⟨n, u⟩) s = deliverAt o.pc
        ⟨0x41, 0, a.va, 0, 0, if o.uni then 0 else maskOf ((a :: q).map (·.lane))⟩ (opDone n s)))
  ∧ (∀ (r : StrandRef) (n : Nat) (o : Op) (s : State), InFocus r s → opAt s.st n = some o → o.what = .lda →
      o.collapsed = true →
    o.wrote = [] → (∀ a ∈ o.lanes, a.done = false ∧ a.lane < 64 ∧ (a.ord = 0 → soAhead s false o.serial a = false)) →
    CleanUnits o.lanes s → Memory.wf s.blk.scratch = true →
    (∀ i ∈ o.laneList, ∀ j ∈ o.laneList, i ≠ j →
        o.target i + o.size ≤ o.target j ∨ o.target j + o.size ≤ o.target i) →
    let copied := fun (i k : Nat) => o.target i + k
    Completes (.ldaComplete r ⟨n, .all⟩) s fun t =>
      t.mem = s.mem ∧ opAt t.st n = none ∧ t.st.v = s.st.v ∧ t.st.s = s.st.s ∧ t.st.m = s.st.m
        ∧ (∀ i ∈ o.laneList, ∀ k, k < o.size → copied i k / 16 ∉ s.blk.armed →
            t.blk.scratchAt (copied i k) = nth 0 (laneRead o i fun a => a.pas.map s.readByte) k)
        ∧ ∀ x, ((∀ i ∈ o.laneList, x < o.target i ∨ o.target i + o.size ≤ x) ∨ x / 16 ∈ s.blk.armed) →
            t.blk.scratchAt x = s.blk.scratchAt x)
  ∧ (∀ (r : StrandRef) (n : Nat) (u : Units) (s : State), ∃ t, exec (.ldaComplete r ⟨n, u⟩) s = .next t)
  ∧ (∀ (n : Nat) (s : State), ∃ t, exec (.qntMerge n) s = .next t)
  ∧ ∀ (n : Nat) (q : QntAtom) (s : State), s.qnt.find? (fun x => x.num = n) = some q →
      (s.qnt.filter fun x => x.pas = q.pas) = [q] →
    badLines s q.key q.pas = [] → poisoned s q.pas = false → Memory.wf s.mem = true →
    (∀ p ∈ q.pas, p < Config.paSpace) → q.pas.Nodup → q.pas.length = q.size → (q.size = 4 ∨ q.size = 8) →
    Completes (.qntMerge n) s fun t =>
      t.qnt = s.qnt.filter (fun x => x.pas ≠ q.pas) ∧ SameBytes q.pas s t
        ∧ ∀ x ∈ q.pas.zip (atomAfter q.aop q.size (q.pas.map s.readByte) (leBytes 8 q.data.toNat) q.cmp),
            Memory.read t.mem x.1 = x.2

/-! ### Events: queues and task nodes (R316 to R325) -/

/-- GRID_RECORD, COPY_RECORD, SIGNAL_RECORD, WAITVAL_RECORD and WAITVAL_SATISFIED (R315 to R323): a well-formed
record is consumed and has its effect; a malformed one and one of another queue are refused; one that has to
wait for earlier records stays. A consumed record's slot is counted in READ; a refused one's status word goes to
LASTERR too, ERRORS rises by one and saturates, and the queue's REFUSALS rise (R316, R320, R372). Under which
tables a queue's header is read is the model's reading (log entries 52, 66). -/
def Obligations.QueueRecords : Prop :=
  (∀ (x : Head) (d : Nat) (s : State), 36 ≤ x.h.places.length → x.h.places.Nodup →
    (∀ p ∈ x.h.places, p < Config.paSpace) → Memory.wf s.mem = true →
    let at_ := fun (off n : Nat) => (x.h.places.drop off).take n
    let holds := fun (t : State) (off n v : Nat) => (at_ off n).map (Memory.read t.mem) = leBytes n v
    (holds (x.consume s) 8 8 (x.h.read + 1) ∧ SameBytes (at_ 8 8) s (x.consume s))
    ∧ holds (x.refuse d s) 8 8 (x.h.read + 1) ∧ holds (x.refuse d s) 28 4 (min (field x.h.bits 224 32 + 1) 0xFFFFFFFF)
    ∧ holds (x.refuse d s) 32 4 (refusedWord d).toNat ∧ SameBytes (at_ 8 8 ++ at_ 28 8) s (x.refuse d s)
    ∧ ∀ y, s.queue x.q.index = some y → ∃ z, (x.refuse d s).queue x.q.index = some z ∧ z.refusals = y.refusals + 1)
  ∧ (∀ (q : Nat) (x : Head) (s : State), RecordStands q x s → field x.bits 8 8 = 0x80 →
    (gridMalformed s.accepted x.bits = true → exec (.gridRecord q) s = .next (x.refuse 1 s))
    ∧ (gridMalformed s.accepted x.bits = false → field x.bits 16 10 ≠ q →
        exec (.gridRecord q) s = .next (x.refuse 2 s))
    ∧ (gridMalformed s.accepted x.bits = false → field x.bits 16 10 = q → ∀ key, rootKey s x.bits = some key →
        originOf s q x.h.read = none → Completes (.gridRecord q) s fun t =>
          t.mem = (x.consume s).mem ∧ t.st.s = s.st.s ∧ ∃ g, t.grids = g :: s.grids ∧ g.live = true
              ∧ g.record = x.bits
            ∧ g.queue = q ∧ g.order = x.order ∧ g.key = key ∧ g.parent = none ∧ g.depth = 0 ∧ g.started = false
            ∧ g.ended = none ∧ g.node = none)
    ∧ (gridMalformed s.accepted x.bits = false → field x.bits 16 10 = q → ∀ key o p, rootKey s x.bits = some key →
        originOf s q x.h.read = some o → s.grid o.parent = some p → p.ended = none →
            Completes (.gridRecord q) s fun t =>
          t.mem = (x.consume s).mem ∧ ∃ g, t.grids = g :: s.grids ∧ g.record = x.bits ∧ g.queue = q
            ∧ g.key = p.key ∧ g.parent = some o.parent ∧ g.depth = p.depth + 1))
  ∧ (∀ e ∈ ([((.copyRecord : Nat → Instr), fun k => decide (k ≤ 7)), (.signalRecord, fun k => decide (k = 0x82))] :
        List ((Nat → Instr) × (Nat → Bool))), ∀ (q : Nat) (x : Head) (s : State),
      RecordStands q x s → e.2 (field x.bits 8 8) = true →
      (x.q.bind.handle = 0 → exec (e.1 q) s = .next (x.refuse 2 s))
      ∧ (x.q.bind.handle ≠ 0 → x.first = false → Stutters (e.1 q) s)
      ∧ (x.q.bind.handle ≠ 0 → x.first = true → Completes (e.1 q) s fun t =>
          t.mem = (x.consume s).mem ∧ ∃ h, t.handed = s.handed ++ [h] ∧ h.key = x.key ∧ h.poster = .record q x.order
            ∧ h.hostPosted = x.host ∧ h.die = x.q.bind.die.toNat ∧ h.engine = x.q.bind.engine.toNat
            ∧ field h.image 8 8 = (if field x.bits 8 8 = 0x82 then 7 else field x.bits 8 8)
            ∧ field h.image 16 496 = field x.bits 16 496))
  ∧ (∀ (q : Nat) (x : Head) (s : State), RecordStands q x s → field x.bits 8 8 = 0x83 → s.accepted.getLsbD 13 = true →
      x.q.bind.handle ≠ 0 → field x.bits 16 48 = 0 → field x.bits 168 344 = 0 → field x.bits 160 8 ≤ 3 →
          field x.bits 64 2 = 0 →
      (x.first = false → Stutters (.waitvalRecord q) s)
      ∧ (x.first = true → Completes (.waitvalRecord q) s fun t => t.mem = (x.consume s).mem
          ∧ t.watches = s.watches ++ [⟨q, x.order, x.key, BitVec.ofNat 64 (field x.bits 64 64),
              BitVec.ofNat 32 (field x.bits 128 32), field x.bits 160 8, none, false⟩]))
  ∧ (∀ (q : Nat) (x : Watch) (w : Word) (s u : State), s.watches.find? (fun y => y.queue = q) = some x →
      watchWord s x = .word w u →
      let holds := (x.cond = 0 ∧ w = x.value) ∨ (x.cond = 1 ∧ w ≠ x.value) ∨ (x.cond = 2 ∧ x.value.toNat ≤ w.toNat)
        ∨ (x.cond ≥ 3 ∧ w.toNat < x.value.toNat)
      (holds → Completes (.waitvalSatisfied q) s fun t => t.mem = u.mem ∧ OneRetired q u t
          ∧ ∀ y ∈ t.watches, ¬ (y.queue = q ∧ y.order = x.order))
      ∧ (¬ holds → exec (.waitvalSatisfied q) s = .next u))
  ∧ ∀ (q : Nat) (x : Watch) (f : FaultInfo) (s u : State), s.watches.find? (fun y => y.queue = q) = some x →
      watchWord s x = .bad f u → f.code ≠ codeAbsent → Completes (.waitvalSatisfied q) s fun t =>
        (∃ y ∈ t.watches, y.queue = q ∧ y.order = x.order ∧ y.fault = some f)
          ∧ (x.fault = some f → t.notices = u.notices ∧ t.mem = u.mem)

/-- NODE_RECORD registers a task node, whose STATE becomes 1, or 2 and ready when PRED is 0 (R321, R324);
READY_POOL_ENTRY begins the work of the node at the head of the ready pool, whose STATE becomes 3. A node's grid
stands outside the record order (log entries 55, 56, 63). -/
def Obligations.TaskNodes : Prop :=
  (∀ (q : Nat) (x : Head) (s : State) (pa : Nat) (t : Tcb), RecordStands q x s → field x.bits 8 8 = 0x81 →
      nodeMalformed x.bits = false → s.accepted.getLsbD 13 = true →
      tcbAt s x.key (BitVec.ofNat 64 (field x.bits 64 64)) = some (pa, t) → tcbMalformed t = false →
      (field t 8 8 = 0x80 ∨ x.q.bind.handle ≠ 0) → nodeRefusal s (tcbRecord t) = none → Memory.wf s.mem = true →
      s.hostGone (pa + 69) = false → Completes (.nodeRecord q) s fun u =>
        u.registered = (pa, q) :: s.registered.filter (fun r => r.1 ≠ pa)
          ∧ Memory.read u.mem (pa + 69) = (if field t 512 32 = 0 then 2 else 1)
          ∧ (field t 512 32 = 0 → ⟨x.key, BitVec.ofNat 64 (field x.bits 64 64), pa⟩ ∈ u.readyPool ++ u.readyWait)
          ∧ (field t 512 32 ≠ 0 → u.readyPool = s.readyPool ∧ u.readyWait = s.readyWait) ∧ OneRetired q s u)
  ∧ (∀ (q : Nat) (x : Head) (s : State), RecordStands q x s → field x.bits 8 8 = 0x81 →
      (nodeMalformed x.bits = true ∨ s.accepted.getLsbD 13 = false) → exec (.nodeRecord q) s = .next (x.refuse 1 s))
  ∧ ∀ (n : NodeRef) (rest : List NodeRef) (s : State), s.readyPool = n :: rest → Memory.wf s.mem = true →
      s.hostGone (n.pa + 69) = false →
      let t : Tcb := BitVec.ofNat 1024 (leNat (s.readBytes n.pa 128))
      tcbMalformed t = false → nodeRefusal s (tcbRecord t) = none →
      (let v := refillPool { s with readyPool := rest }
       ∀ pas pk, moonPlaces v n.key .write n.addr 128 = some (pas, pk) → badLines v pk pas = []) →
      (field t 8 8 = 0x80 → nodeParent s n = none → Completes .readyPoolEntry s fun u =>
        Memory.read u.mem (n.pa + 69) = 3 ∧ (s.readyWait = [] → u.readyPool = rest)
          ∧ ∃ g, u.grids = g :: s.grids ∧ g.node = some n ∧ g.record = tcbRecord t ∧ g.queue = field t 16 10)
      ∧ (field t 8 8 ≠ 0x80 → n.key ≠ 0 → ∀ k q, s.registered.lookup n.pa = some k → s.queue k = some q →
          Completes .readyPoolEntry s fun u => Memory.read u.mem (n.pa + 69) = 3
              ∧ (s.readyWait = [] → u.readyPool = rest)
            ∧ ∃ h, u.handed = s.handed ++ [h] ∧ h.key = n.key ∧ h.poster = .node n ∧ h.die = q.bind.die.toNat)

/-! ### Events: blocks (R18, R24, R29 to R31, R323 to R340, R356, R363) -/

/-- BLOCK_DISPATCH places the next block of a grid on the best core when it is its queue's turn (R24, R326 to
R328), and GRANT meets the oldest request of a core or flushes the youngest block in its prologue for it (R29 to
R31). When a deficit rises and that freed room is kept is the model's reading (log entries 54, 63). -/
def Obligations.DispatchAndGrant : Prop :=
  (∀ (id : Nat) (s : State) (g : Grid) (q : Queue) (i core : Nat) (args : List Word),
      s.grid id = some g → g.id = id → s.queue g.queue = some q → nextUnit g = some (i, false) →
          dispatchable s q g = true →
      bestCore s (coresFor s q g false) = some core →
      (itsTurn s q = false → Stutters (.blockDispatch id) s)
      ∧ (itsTurn s q = true → g.started = true → (g.gcap = 0 ∨ g.garena ≠ 0) → g.args = some args →
          Completes (.blockDispatch id) s fun t => t.mem = s.mem ∧ ∃ b ∈ t.blocks, b.live = true ∧ b.grid = id
              ∧ b.id = i
            ∧ b.core = core ∧ b.granted = false ∧ b.request = none ∧ b.scratch = [] ∧ b.nstrands = g.nstrands
            ∧ b.token = (if g.twin then some 0 else none) ∧ b.strands.map (·.idx) = List.range g.nstrands
            ∧ ∀ t ∈ b.strands, Fresh g args t)
      ∧ (itsTurn s q = true → g.started = false → g.parent.isSome = true → g.gcap = 0 → g.args = none →
          g.rf 320 64 = 0 →
          Completes (.blockDispatch id) s fun t => t.mem = s.mem
            ∧ (∃ h, t.grid id = some h ∧ h.started = true ∧ h.code = s.mem ∧ h.args = some (List.replicate 8 0))
            ∧ ∃ b ∈ t.blocks, b.grid = id ∧ b.id = i ∧ b.core = core))
  ∧ ∀ (r : BlockRef) (s : State) (age : Nat), BlockIn r s → s.blk.request = some age →
      let others := residents s (fun b => b.grid = r.grid && b.id = r.block) s.blk.core
      let kept := keptFor s 0 s.blk.core
      let full := s.grd.scratchBytes true
      let room := scratchHeld s others + full ≤ 262144 ∧ (kept = [] ∨
        scratchHeld s (others.filter fun b => !leaving b) + full + sumBy nextScratch kept ≤ 262144)
      (oldestRequest s age = false → Stutters (.grant r) s)
      ∧ (oldestRequest s age = true →
          (room → Completes (.grant r) s fun t =>
            t.blk.granted = true ∧ t.blk.request = none ∧ t.blk.scratch = s.blk.scratch ∧ t.mem = s.mem
              ∧ (s.st.here = true → s.st.grid = r.grid → s.st.block = r.block →
                  s.st.status = .waiting .acquire → t.st = { s.st with status := .ready }))
          ∧ (¬ room → (∀ b, youngest (others.filter fun b => inPrologue s b) = some b →
                exec (.grant r) s = .next (flushBlock b s))
              ∧ (youngest (others.filter fun b => inPrologue s b) = none → Stutters (.grant r) s)))

/-- BLOCK_RETIREMENT, GRID_RETIREMENT, ARENA_DESTRUCTION and SCRUB_COMPLETE (R17, R18, R204, R363): each waits
until what it needs is over; a retired block or grid is resident no more, a destroyed slot is free with GEN
risen, and scrubbed ranges read zero. A slot whose GEN goes from 1,023 to 0 is in quarantine while a world lives
that lived then, and only free slots are assigned; no slot stays in quarantine after the last such world has
retired (R206). That an ended grid waits for its records is the model's reading (log entry 28). -/
def Obligations.Retirement : Prop :=
  (∀ (r : BlockRef) (s : State), BlockIn r s → abandonedLoad s = none →
      (blockDone s = false → Stutters (.blockRetirement r) s)
      ∧ (blockDone s = true → Completes (.blockRetirement r) s fun t => BlockGone r t
          ∧ ∀ g, s.grid r.grid = some g → ∃ h, t.grid r.grid = some h ∧ h.retired = g.retired + 1))
  ∧ (∀ (r : BlockRef) (s : State), BlockIn r s → ∀ m, abandonedLoad s = some m →
      exec (.blockRetirement r) s = .next (loadFails m.seq m.slot s))
  ∧ (∀ (id : Nat) (s : State) (g : Grid), s.grid id = some g →
      (gridDone s g = false → Stutters (.gridRetirement id) s)
      ∧ (gridDone s g = true → Completes (.gridRetirement id) s fun t => (∀ x ∈ t.allGrids, x.id ≠ id)
          ∧ (g.node = none → OneRetired g.queue s t)))
  ∧ (∀ (id : SlotId) (s : State),
      let r := slotRec s id
      ((r.state ≠ 3 ∨ slotBusy s r = true) → Stutters (.arenaDestruction id) s)
      ∧ (r.state = 3 → slotBusy s r = false → r.gen ≠ 1023 → r.id = id → Completes (.arenaDestruction id) s fun t =>
          (slotRec t id).state = 0 ∧ (slotRec t id).gen = r.gen + 1 ∧ (slotRec t id).pages = []
            ∧ ((∀ q ∈ s.qnt, q.pas.any (inSlot r) = false) → ∀ k, k ≠ id → slotRec t k = slotRec s k))
      ∧ (r.state = 3 → slotBusy s r = false → r.gen = 1023 → r.id = id → (∀ q ∈ s.qnt, q.pas.any (inSlot r) = false) →
          Completes (.arenaDestruction id) s fun t => (slotRec t id).gen = 0 ∧ (slotRec t id).pages = []
            ∧ ((∃ w ∈ s.allWorlds, w.live = true ∧ w.epoch ≤ s.epoch) →
                (slotRec t id).state = 2 ∧ (slotRec t id).wrapEpoch = s.epoch)
            ∧ ((∀ w ∈ s.allWorlds, w.live = true → s.epoch < w.epoch) → (slotRec t id).state = 0)))
  ∧ (∀ s : State,
      (∀ id, freeGridSlot s = some id → (slotRec s id).state = 0)
      ∧ (∀ die id, freeBlockSlot s die = some id → (slotRec s id).state = 0)
      ∧ (∀ core strand b, freeBank s core strand = some b → ∀ l, l < 64 →
          (slotRec s (.thread core strand l b)).state = 0)
      ∧ ∀ key, ((dropCopies key (endSlots key (flushWorldQnt key s))).world key).isSome = true →
          ∀ r ∈ (retireWorld key s).slots, r.state = 2 →
            ∃ w ∈ (retireWorld key s).allWorlds, w.live = true ∧ w.epoch ≤ r.wrapEpoch)
  ∧ ∀ (key : Nat) (s : State),
      ((s.scrubOn = false ∨ scrubbing s key = false) → Stutters (.scrubComplete key) s)
      ∧ (s.scrubOn = true → scrubbing s key = true → Memory.wf s.mem = true →
          Completes (.scrubComplete key) s fun t =>
          scrubbing t key = false
            ∧ (∀ r ∈ s.scrub, r.key = key → ∀ a, r.base ≤ a → a < r.base + r.len → Memory.read t.mem a = 0)
            ∧ (∀ a, (∀ r ∈ s.scrub, r.key = key → ¬ (r.base ≤ a ∧ a < r.base + r.len)) →
                Memory.read t.mem a = Memory.read s.mem a)
            ∧ ∀ w, s.world key = some w → w.key = key → w.handle ≠ 0 →
                t.world key = some { w with used := [], saveUsed := [], saveDrawn := [] })

/-- SLICE_UNIT, DRAIN_EXPIRY, BLOCK_SAVE and BLOCK_RESTORE (R328, R331, R333 to R336): a slice unit raises the
deficits of the queues with work; a drained block whose time has run out is to be saved; a quiet block is saved
with its header in its area; a saved block goes on where it stood. The bytes of most sections are free, and the
block is kept beside its area: the model's choice (log entries 35, 36, 54, 63). -/
def Obligations.Preemption : Prop :=
  (∀ s : State, (s.refNs < 10000 * (s.slice + 1) → Stutters .sliceUnit s)
      ∧ (10000 * (s.slice + 1) ≤ s.refNs →
          Completes .sliceUnit s (fun t => t.slice = s.slice + 1)
          ∧ (let v := clearDeficits (releaseKept { s with slice := s.slice + 1 })
            (∀ q ∈ (topUp v).queues, ∀ g ∈ gridsOf (topUp v) q, dispatchable (topUp v) q g = true →
                servable (topUp v) q g = true) →
              Completes .sliceUnit s fun t => t.st = s.st ∧ t.blocks = s.blocks ∧ t.mem = s.mem
                ∧ t.queues = v.queues.map fun q => if q.raised ≤ s.slice + 1 ∧ queueHasWork v q = true then
                    { q with deficit := q.deficit + q.bind.weight.toNat * 10000, raised := s.slice + 2 } else q)))
  ∧ (∀ (r : BlockRef) (s : State), BlockIn r s →
      (s.blk.draining = none → Stutters (.drainExpiry r) s)
      ∧ ∀ t, s.blk.draining = some t →
        (t ≤ s.refNs → exec (.drainExpiry r) s = .next { s with blk := { s.blk with draining := none, saving := true } })
        ∧ (s.refNs < t → Stutters (.drainExpiry r) s))
  ∧ (∀ (r : BlockRef) (s : State), BlockIn r s →
      ((s.blk.saving = false ∨ s.strands.all atSavePoint = false ∨ quietForSave s = false) →
          Stutters (.blockSave r) s)
      ∧ (s.blk.saving = true → s.strands.all atSavePoint = true → quietForSave s = true → ∀ x u,
          let size := saveTotal (sectionSizes s.grd s.wholeBlock)
          takeSave s s.wld size = some (x, u) → Memory.wf s.mem = true → x.base + size ≤ Config.paSpace →
          Completes (.blockSave r) s fun t => BlockGone r t
            ∧ Memory.readBytes t.mem x.base 256 = leBytes 256 (saveHeader u s.grd s.wholeBlock).toNat
            ∧ ∃ g, t.grid r.grid = some g ∧ ∃ v ∈ g.saved, v.block.id = r.block ∧ v.area = x.base ∧ v.size = size))
  ∧ ∀ (r : BlockRef) (s : State) (g : Grid) (q : Queue) (v : SavedBlock) (core : Nat) (slots : List Nat),
      s.grid r.grid = some g → g.id = r.grid → s.queue g.queue = some q → nextUnit g = some (r.block, true) →
      g.saved.find? (fun v => v.block.id = r.block) = some v → dispatchable s q g = true → itsTurn s q = true →
      bestCore s (coresFor s q g true) = some core → saveIntact s g v = true →
      chooseSlots s g false (fun _ => false) core = some slots → v.block.live = true → v.block.grid = r.grid →
      BlockGone r s → sealedSlots v.block = [] → Completes (.blockRestore r) s fun t => t.mem = s.mem
        ∧ ∃ b ∈ t.allBlocks, b.grid = r.grid ∧ b.id = r.block ∧ b.core = core ∧ b.granted = v.block.granted
          ∧ b.scratch = v.block.scratch ∧ b.slots = v.block.slots ∧ b.tiles = v.block.tiles
          ∧ b.strands.length = v.block.strands.length ∧ ∀ x ∈ b.strands, ∃ y ∈ v.block.strands, Resumed y x

/-! ### Events: the matrix unit (R100, R159, R162 to R169, R172, R173) -/

/-- MMA_START, MMA_RETIRE, OLDA_COMPLETE, OLDW_COMPLETE, ADRN_COMPLETE and OREL_COMPLETE (R159, R162 to R166,
R169, R173, R187, R192): each keeps the order of R159 and has its effect on the slot, the tile or the scratchpad
that it names. A load or a drain reads and writes in units that come apart (R294), and a load's slot is written
once all is read; an illegal trit byte and, in a strict launch, a poisoned element fault at the instruction
(R165, R192). That an element of a drain is read before or after a running MMA is the model's choice (log entry
45); over a tile that an ACLR has cleared since an MMA's issue, each element is +0.0 or what the MMA wrote (log
entry 100). -/
def Obligations.MatrixEvents : Prop :=
  ∀ (r : BlockRef) (s : State), BlockIn r s →
    (∀ m zc na nb d a w fmt ks, firstMma s.blk (fun m => !m.started) = some m → m.what = .mma zc na nb d a w fmt ks →
      ((mmaHeld s.blk m d = true ∨ s.clock.toNat < s.blk.mmaEnd.toNat) → Stutters (.mmaStart r) s)
      ∧ (mmaHeld s.blk m d = false → s.blk.mmaEnd.toNat ≤ s.clock.toNat → Completes (.mmaStart r) s fun t =>
          let ends := s.clock + BitVec.ofNat 64 (if m.dead then 0 else (mmaIn s.blk a w fmt ks).cycles)
          t.blk.mmaEnd = ends ∧ { m with started := true, ends := ends } ∈ t.blk.mops ∧ t.blk.tiles = s.blk.tiles
              ∧ t.mem = s.mem))
    ∧ (∀ m zc na nb d a w fmt ks, firstMma s.blk (fun m => m.started) = some m → m.what = .mma zc na nb d a w fmt ks →
      let x := mmaIn s.blk a w fmt ks
      let c := s.blk.tile d
      let value := fun (c : Tile) (i j : Nat) => BitVec.ofNat 32 (fpFma fp32 0 false (x.scale i j)
        (intToFp fp32 0 (if na = nb then x.dot i j else - x.dot i j))
        (if zc ∨ c.poison.contains (128 * i + j) = true then 0 else (c.at_ i j).toNat))
      (s.clock.toNat < m.ends.toNat → Stutters (.mmaRetire r) s)
      ∧ (m.ends.toNat ≤ s.clock.toNat → m.dead = true → Completes (.mmaRetire r) s fun t =>
          t.blk.tiles = s.blk.tiles ∧ ∀ e ∈ t.blk.mops, e.seq ≠ m.seq)
      ∧ (m.ends.toNat ≤ s.clock.toNat → m.dead = false → x.poisoned zc c = 0 → Completes (.mmaRetire r) s fun t =>
          (∀ i j, i < 32 → j < 128 → let y := (t.blk.tile d).at_ i j
              (m.under = none → y = value c i j) ∧ ∀ u, m.under = some u → y = 0 ∨ y = value c i j ∨ y = value u i j)
            ∧ (∀ k, k ≠ d → t.blk.tile k = s.blk.tile k) ∧ (∀ e ∈ t.blk.mops, e.seq ≠ m.seq) ∧ t.mem = s.mem))
    ∧ (∀ n u m slot x base, s.blk.mop n = some m → m.what = .olda slot x base → loadHeld s.blk m = false →
      let byte := fun (k : Nat) => (m.got.lookup k).getD
        (keptByte (Memory.read s.blk.scratch (base + k)) (s.blk.scratchPoison.contains (base + k)))
      let left := fun (k : Nat) => k < actExtent x ∧ m.got.lookup k = none ∧ readsAt u 0 (base + k) = false
      let all := (List.range (actExtent x)).map fun k => (byte k).1.setWidth 8
      ((∃ k, left k) → Completes (.oldaComplete r ⟨n, u⟩) s fun t =>
        t.blk.slots = s.blk.slots ∧ t.blk.scratch = s.blk.scratch ∧ t.mem = s.mem
          ∧ ∃ e ∈ t.blk.mops, e.seq = n ∧ e.what = m.what ∧ ∀ y ∈ e.got, y.2 = byte y.1)
      ∧ ((∀ k, ¬ left k) → Completes (.oldaComplete r ⟨n, u⟩) s fun t =>
        (t.blk.slot slot).bytes = all.take 4096 ∧ (x = 2 → (t.blk.slot (slot + 1)).bytes = all.drop 4096)
          ∧ ((s.blk.slot slot).state = 2 → (∀ e ∈ s.blk.mops, e.seq ≤ m.seq) → (t.blk.slot slot).state = 3)
          ∧ (∀ k, k ∉ m.what.loads → t.blk.slot k = s.blk.slot k) ∧ t.blk.scratch = s.blk.scratch ∧ t.mem = s.mem
          ∧ ∀ e ∈ t.blk.mops, e.seq ≠ m.seq))
    ∧ (∀ n u m slot x va, s.blk.mop n = some m → m.what = .oldw slot x va → m.parked = false →
        loadHeld s.blk m = false →
      (∀ a ∈ m.parts, badLines s a.key a.pas = []) →
      let place := fun (k : Nat) => nth 0 m.places k
      let byte := fun (k : Nat) => (m.got.lookup k).getD (keptByte (s.readByte (place k)) (s.badByte (place k)))
      let left := fun (k : Nat) => k < m.places.length ∧ m.got.lookup k = none ∧ readsAt u 0 (place k) = false
      let tile := oldwTile x (openParts s.wld m.parts (gotBytes
        ((List.range m.places.length).map fun k => (k, byte k))))
      ((∃ k, left k) → Completes (.oldwComplete r ⟨n, u⟩) s fun t =>
        t.blk.slots = s.blk.slots ∧ t.mem = s.mem
          ∧ ∃ e ∈ t.blk.mops, e.seq = n ∧ e.what = m.what ∧ ∀ y ∈ e.got, y.2 = byte y.1)
      ∧ ((∀ k, ¬ left k) → tile.1 = 0 → Completes (.oldwComplete r ⟨n, u⟩) s fun t =>
        (t.blk.slot slot).bytes = tile.2.map (·.1) ∧ t.mem = s.mem
          ∧ (∀ k, k ≠ slot → t.blk.slot k = s.blk.slot k) ∧ ∀ e ∈ t.blk.mops, e.seq ≠ m.seq)
      ∧ ((∀ k, ¬ left k) → tile.1 ≠ 0 → s.grd.tolerant = false →
        exec (.oldwComplete r ⟨n, u⟩) s = mopFault m ⟨0x35, 0, va, 0, 0, 0⟩ (loadFails m.seq slot s)))
    ∧ (∀ n u m d base, s.blk.mop n = some m → m.what = .adrn d base →
      let tile := s.blk.tile d
      let value := fun (e : Nat) => (m.got.lookup e).getD (tile.at_ (e / 128) (e % 128), tile.poison.contains e)
      let byte := fun (k : Nat) => nth 0 (leBytes 4 (value (k / 4)).1.toNat) (k % 4)
      ((∃ e, e < 4096 ∧ m.got.lookup e = none ∧ readsAt u 0 e = true ∧ e ∈ tile.poison) → s.grd.tolerant = false →
        exec (.adrnComplete r ⟨n, u⟩) s = mopFault m ⟨0x50, 0, 0, 0, 0, 0⟩ (dropMOp m s))
      ∧ ((∀ e, e < 4096 → (value e).2 = false) → Memory.wf s.blk.scratch = true →
        Completes (.adrnComplete r ⟨n, u⟩) s (fun t =>
          (∀ k, k < 16384 → t.blk.scratchAt (base + k) = s.blk.scratchAt (base + k) ∨ t.blk.scratchAt (base + k) = byte k)
            ∧ (∀ a, (a < base ∨ base + 16384 ≤ a) → t.blk.scratchAt a = s.blk.scratchAt a) ∧ t.mem = s.mem)
        ∧ (u = .all → m.put = [] → m.ends.toNat ≤ s.clock.toNat → (∀ e ∈ s.blk.mops, e.seq < n →
            ∀ x y, e.what ≠ .adrn x y) →
          Completes (.adrnComplete r ⟨n, u⟩) s fun t =>
            (∀ k, k < 16384 → t.blk.scratchAt (base + k) = byte k) ∧ ∀ e ∈ t.blk.mops, e.seq ≠ m.seq)))
    ∧ ∀ n m slot, s.blk.mop n = some m → m.what = .orel slot →
      let before := fun (e : MOp) => e.seq < n ∧ (slot ∈ e.what.reads ∨ slot ∈ e.what.loads)
      ((∃ e ∈ s.blk.mops, before e) → Stutters (.orelComplete r n) s)
      ∧ ((∀ e ∈ s.blk.mops, ¬ before e) → Completes (.orelComplete r n) s fun t =>
          t.blk.slot slot = ⟨0, 0, 0, false, 0, 0, 0, [], [], false⟩ ∧ (∀ k, k ≠ slot → t.blk.slot k = s.blk.slot k)
            ∧ t.mem = s.mem)

/-! ### Events: comet packets (R271 to R292) -/

/-- A packet starts (R271, R272, R288): one that the scheduler has handed over, or the packet at the head of a
comet ring, whose READ rises when its acquire, its engine and the round of the engine's queues let it; what its
form decides, it decides at once (R274), and an MCAST samples its targets. With a packet that a CPOST posted,
the promise is written (R279). The round's order, and that an offline die's engines start nothing, is the
model's reading (log entries 38, 64, 102). -/
def Obligations.PacketsStart : Prop :=
  (∀ e ∈ packetKinds, ∀ (n : Nat) (h : Handed) (s : State), s.handed.find? (fun x => x.num = n) = some h →
      field h.image 8 8 = e.2 → s.offline.contains h.die = false →
      let p := newPacket (s.packetCount + 1) h.key none h.image h.poster h.hostPosted h.die
      let u : State := { s with handed := s.handed.filter (fun x => x.num ≠ n), packetCount := s.packetCount + 1 }
      (∀ w, early s.accepted p = some w → exec (e.1 (.handed n)) s
        = .next { u with packets := s.packets ++ [{ p with result := some w, begun := true }] })
      ∧ (packetMalformed s.accepted p = true → early s.accepted p = some 0x10010000)
      ∧ (early s.accepted p = none → e.2 ≠ 3 →
          exec (e.1 (.handed n)) s = .next { u with packets := s.packets ++ [p] })
      ∧ (early s.accepted p = none → e.2 = 3 →
          let live := fun (g : Grid) => g.id % 2 ^ 32 = mcastGrid p % 2 ^ 32 ∧ g.key = p.key ∧ mcastGrid p ≠ 0
          ((∀ g ∈ s.allGrids, ¬ live g) → exec (e.1 (.handed n)) s
            = .next { u with packets := s.packets ++ [{ p with result := some 0x10010000, begun := true }] })
          ∧ ∀ g, s.allGrids.find? (fun g => live g) = some g → ∃ q, exec (e.1 (.handed n)) s
              = .next { u with packets := s.packets ++ [q] }
                  ∧ q = { p with grid := g.id, targets := q.targets, refused := q.refused }
              ∧ ∀ k, k < 16 →
                let named := p.image.getLsbD (288 + k) = true
                let arm := mcastArm s g (p.f 320 32 + k) (p.f 192 32) (p.f 224 32) p.len
                (q.refused.getLsbD k = true ↔ named ∧ arm = none)
                ∧ ∀ x, x ∈ q.targets ∧ x.n = k ↔ named ∧ ∃ id, arm = some id ∧
                    x = ⟨k, p.f 320 32 + k, id, List.range ((p.len + 255) / 256), false⟩))
  ∧ (∀ e ∈ packetKinds, ∀ (n : Nat) (h : Handed) (s : State), s.handed.find? (fun x => x.num = n) = some h →
      (s.offline.contains h.die = true ∨ (e.2 ≠ field h.image 8 8 ∧ field h.image 8 8 ≤ 7)) →
          Stutters (e.1 (.handed n)) s)
  ∧ ∀ e ∈ packetKinds,
      ∀ (key index : Nat) (w : World) (q : CometQueue) (h : Header) (pas : List Nat) (x : BitVec 512) (s : State),
      s.locked = true → s.world key = some w → cometHeader s w index = some (q, h) →
          slotImage s key h h.read = some (pas, x) →
      field x 0 8 = (h.valid h.read).toNat → field x 8 8 = e.2 →
      let held := (packetAcq x = true ∧ earlierDone s key index = false) ∨ s.offline.contains q.die = true
        ∨ ringTurn s q key = false
      let mine := s.posts.find? (fun y => y.key = key && y.queue = index && y.index = h.read)
      (held → Stutters (e.1 (.ring key index)) s)
      ∧ (¬ held → Completes (e.1 (.ring key index)) s fun t =>
          t.mem = (h.put 8 8 (h.read + 1) s).mem ∧ t.packetCount = s.packetCount + 1
            ∧ (PacketIs (s.packetCount + 1) (fun p => p.image = x ∧ p.key = key ∧ p.queue = some index ∧ p.die = q.die
                ∧ (mine = none → p.poster = .memory (s.ringWrites.lookup (pas.head?.getD 0)))
                ∧ ∀ y, mine = some y → p.poster = .strand y.strand y.num) t)
            ∧ ∀ y, mine = some y → (∀ z ∈ t.posts, z.num ≠ y.num)
                ∧ (InFocus y.strand s → s.st.gone = false → y.reg + 1 < 64 → t.st.marks.getLsbD (y.reg + 1) = true))

/-- PACKET_COMPLETION, MCAST_ARRIVAL and REDUCE_COMPLETION (R274 to R279, R283, R288 to R290, R353): the rows of
a copy and a SEALMOVE carry their bytes to their places, a FILL its value; a SIGNAL stores or adds; an INGEST
whose tag is right commits its counter and its plaintext at once; a completed packet's writes are performed, and
its status reaches the strand that posted it or is stored at its STATUS address where that is not 0 (R274, R276,
R279); a chunk counts at its barrier, whose PHASE rises when it is complete (R283), or is dropped; a REDUCE with
a sealed DST reads nothing and ends SEALED (R184); a reduction is written as the contributions combine. In which
units a packet's bytes are read and written, between these, is open (R294, R309). -/
def Obligations.PacketsComplete : Prop :=
  (∀ (n : Nat) (p : Packet) (s : State), s.packets.find? (fun p => p.num = n) = some p →
      let whole : Instr := .packetCompletion ⟨n, .all⟩ false
      (p.stalled ≠ none → ∀ e u, Stutters (.packetCompletion ⟨n, u⟩ e) s)
      ∧ (p.stalled = none → p.result = none → p.begun = false →
        (acquireWaits p s = true → Stutters whole s)
        ∧ (acquireWaits p s = false →
          (p.kind ≤ 1 → ∀ l z, RowsCopied p (copiedRows p) s l z → (∀ x ∈ l, x.pa ∉ sourcePlaces p s) →
              Completes whole s fun t =>
            t.mem = z.mem ∧ PacketIs n (fun q => q.result = some 0 ∧ q.pending = l) t)
          ∧ (p.kind = 2 → ∀ dst u, engineCheck p .copyWrite (p.a 192) p.len s = .ok dst u → linkGone u dst = false →
            (allPas dst).length = p.len → Completes whole s fun t => t.mem = u.mem
                ∧ PacketIs n (fun q => q.result = some 0
              ∧ q.pending.map (·.pa) = allPas dst
              ∧ ∀ i, i < p.len → (q.pending.map (·.data))[i]? = some (.known (nth 0 (leBytes 8 (p.f 128 64)) (i % 8)) false)) t)
          ∧ (p.kind = 3 → ∀ src u, engineCheck p .copyRead (p.a 128) p.len s = .ok src u → Completes whole s fun t =>
            t.mem = u.mem ∧ PacketIs n (fun q => q.begun = true ∧ q.result = none ∧ q.data = unread src
              ∧ q.targets = p.targets) t)
          ∧ (p.kind = 4 → ∀ src u g k, engineCheck p .copyRead (p.a 128) p.len s = .ok src u →
            engineCheck p .copyWrite (p.a 192) p.len s = .bad g k → sealedFault g = true → g.code ≠ codeAbsent →
            Completes whole s (PacketIs n fun q => q.result = some 0x50000000 ∧ q.data = [] ∧ q.pending = []))
          ∧ (p.kind = 4 → ∀ src u, engineCheck p .copyRead (p.a 128) p.len s = .ok src u → linkGone u src = false →
            (∀ g k, engineCheck p .copyWrite (p.a 192) p.len s = .bad g k → sealedFault g = false) →
            let port := Config.groupPort (p.f 288 16) % 16
            Completes whole s fun t => t.mem = u.mem ∧ PacketIs n (fun q => q.begun = true
              ∧ if (nth Perigee.reset u.peri port).keyed then q.result = none ∧ q.data = unread src
                else q.result = some (statusWord 10 (16 + port))) t)
          ∧ (p.kind = 5 → ∀ src u dst v w a b, engineCheck p .read (p.a 128) p.len s = .ok src u →
            engineCheck p .write (p.a 192) p.len u = .ok dst v → v.world p.key = some w →
                sealedPlaces w src = some a →
            sealedPlaces w dst = some b →
            (a = b → (∀ x ∈ allPas dst, x ∉ allPas src) → Completes whole s fun t =>
              t.mem = v.mem ∧ PacketIs n (fun q => q.result = some 0 ∧ q.pending = writesTo dst (unread src)) t)
            ∧ (a ≠ b → Completes whole s fun t =>
              t.mem = v.mem ∧ PacketIs n (fun q => q.result = some 0x50000000 ∧ q.pending = []) t))
          ∧ (p.kind = 6 → ∀ src dst u, ingestChecks p s = .on src dst u → Completes whole s fun t =>
            t.mem = u.mem ∧ PacketIs n (fun q => q.begun = true ∧ q.result = none ∧ q.data = unread src
              ∧ q.pending.map (·.pa) = (placesOf dst |>.take p.len).map (·.2)) t)
          ∧ (p.kind = 7 → ∀ parts u g, p.poster = .memory g → p.a 64 = 0 → p.data = [] → p.pending = [] →
            let size := if p.f 256 1 = 1 then 8 else 4
            let adds := 2 ≤ p.f 256 8
            engineCheck p (if adds then .atomic 0 else .copyWrite) (p.a 192) size s = .ok parts u →
                linkGone u parts = false →
            CleanWrites (writesTo parts (plainData (leBytes size 0))) u → (allPas parts).length = size →
            Memory.wf u.mem = true → Completes whole s fun t =>
              SameBytes (allPas parts) u t ∧ (∀ x ∈ t.packets, x.num ≠ n)
                ∧ (allPas parts).map (Memory.read t.mem)
                  = leBytes size (p.f 128 64 + if adds then leNat ((allPas parts).map u.readByte) else 0))))
      ∧ (p.stalled = none → p.result = none → p.begun = true → p.kind = 6 → ∀ bytes src u w,
          p.data = plainData bytes → bytes.length = p.len + 16 → (∀ x ∈ p.pending, x.data.place = none) →
          engineCheck p .copyRead (p.a 128) (p.len + 16) s = .ok src u → (allPas src).length = p.len + 16 →
              linkGone u src = false → u.world p.key = some w →
          let k := keySlotOf w (p.f 288 8)
          let opened := gcmOpen (beBytes (if k.long then 32 else 16) k.key.toNat)
            (beBytes 4 (p.f 320 32) ++ beBytes 8 (p.f 352 64)) [] (bytes.take p.len)
          let stale := k.accepted = true ∧ (p.a 352).toNat ≤ k.last.toNat
          (opened.2 ≠ bytes.drop p.len → Completes whole s fun t => t.mem = u.mem ∧ t.world p.key = some w
            ∧ PacketIs n (fun q => q.result = some 0x20000000 ∧ ∀ x ∈ q.pending, x.data = .known 0 false) t)
          ∧ (opened.2 = bytes.drop p.len → stale → Completes whole s fun t => t.mem = u.mem ∧ t.world p.key = some w
            ∧ PacketIs n (fun q => q.result = some 0x30000000 ∧ q.pending = []) t)
          ∧ (opened.2 = bytes.drop p.len → ¬ stale → CleanWrites p.pending u → opened.1.length = p.pending.length →
            Memory.wf u.mem = true → w.key = p.key → Completes whole s fun t =>
              SameBytes (p.pending.map (·.pa)) u t ∧ p.pending.map (fun x => Memory.read t.mem x.pa) = opened.1
                ∧ PacketIs n (fun q => q.result = some 0 ∧ q.pending = []) t
                ∧ ∃ v, t.world p.key = some v
                    ∧ keySlotOf v (p.f 288 8) = { k with accepted := true, last := p.a 352 }))
      ∧ (p.stalled = none → ∀ w, p.result = some w → p.early = false →
        (∀ g, p.poster = .memory g → p.a 64 = 0 → Completes whole s fun t =>
          t.mem = (p.write (p.pending.map (·.pa)) s).2.mem ∧ (∀ x ∈ t.packets, x.num ≠ n)
            ∧ (p.data = [] → CleanWrites p.pending s → Memory.wf s.mem = true → WrittenOut p.pending s t))
        ∧ (∀ r post o, p.poster = .strand r post → p.pending = [] → p.lost = 0 → InFocus r s → s.st.gone = false →
          s.st.owed.find? (fun x => x.post = post) = some o → Completes whole s fun t =>
            t.st.sget o.reg = w ∧ (∀ k, k ≠ o.reg → t.st.sget k = s.st.sget k) ∧ t.mem = s.mem
                ∧ ∀ x ∈ t.packets, x.num ≠ n)
        ∧ (let a := p.a 64
           ∀ parts u, ((∃ g, p.poster = .memory g) ∨ ∃ q order, p.poster = .record q order) → a ≠ 0 →
               p.pending = [] → p.lost = 0 →
            engineCheck p .copyWrite a 4 (setPacket p s) = .ok parts u → (allPas parts).length = 4 →
            CleanWrites (writesTo parts (plainData (leBytes 4 0))) u → Memory.wf u.mem = true →
                Completes whole s fun t =>
              (allPas parts).map (Memory.read t.mem) = leBytes 4 w.toNat ∧ SameBytes (allPas parts) u t
                ∧ (∀ x ∈ t.packets, x.num ≠ n) ∧ ∀ q order, p.poster = .record q order → OneRetired q u t)
        ∧ (∀ g, p.poster = .memory g → p.a 64 = 0 →
          (packetRel p.image = true → Stutters (.packetCompletion ⟨n, .all⟩ true) s)
          ∧ (packetRel p.image = false → p.pending ≠ [] → p.kind ≠ 7 →
              Completes (.packetCompletion ⟨n, .all⟩ true) s fun t =>
            t.mem = s.mem ∧ PacketIs n (fun q => q.early = true ∧ q.pending = p.pending) t))))
  ∧ (∀ (n target chunk : Nat) (p : Packet) (x : Target) (s : State), s.packets.find? (fun p => p.num = n) = some p →
      p.targets.find? (fun t => t.n = target && t.chunks.contains chunk) = some x → BlockIn ⟨p.grid, x.block⟩ s →
      p.begun = true → p.pending = [] → (∀ j a, .at_ j a ∈ p.data → badLines s j [a] = []) →
      let bar := p.f 224 32
      let at_ := p.f 192 32 + 256 * chunk
      let l := ((p.data.drop (256 * chunk)).take 256).map (EData.value s)
      let taken := s.blk.barrierState bar = 1 ∧ BitVec.ofNat 16 (s.blk.scratchNat (bar + 12) 2) = x.armid
      (¬ taken → Completes (.mcastArrival n target chunk) s fun t => t.blk.scratch = s.blk.scratch ∧ t.mem = s.mem
          ∧ t.blk.bbdrops.toNat = min (s.blk.bbdrops.toNat + 1) 0xFFFFFFFF)
      ∧ (taken → Memory.wf s.blk.scratch = true → (at_ + 256 ≤ bar ∨ bar + 16 ≤ at_) →
          s.blk.scratchNat (bar + 4) 4 + l.length < 2 ^ 32 → Completes (.mcastArrival n target chunk) s fun t =>
            Memory.readBytes t.blk.scratch at_ l.length = l.map (·.1)
              ∧ t.blk.scratchNat (bar + 4) 4 = s.blk.scratchNat (bar + 4) 4 + l.length
              ∧ (let full := s.blk.scratchNat bar 4 ≤ s.blk.scratchNat (bar + 4) 4 + l.length
                t.blk.barrierState bar = (if full then 2 else 1)
                  ∧ t.blk.scratchNat (bar + 8) 4 = (s.blk.scratchNat (bar + 8) 4 + if full then 1 else 0) % 2 ^ 32)
              ∧ t.mem = s.mem ∧ t.blk.bbdrops = s.blk.bbdrops))
  ∧ (∀ (n target chunk : Nat) (p : Packet) (s : State), s.packets.find? (fun p => p.num = n) = some p →
      p.begun = false →
      Stutters (.mcastArrival n target chunk) s)
  ∧ ∀ (n : Nat) (p : Packet) (s : State), s.packets.find? (fun p => p.num = n) = some p →
      ((p.left = false ∨ p.result ≠ none ∨ p.stalled ≠ none) → ∀ net, Stutters (.reduceCompletion n net) s)
      ∧ (p.left = true → p.result = none → p.stalled = none →
        (∀ k, Completes (.reduceCompletion n (.stale k)) s fun t =>
          t.mem = s.mem ∧ PacketIs n (fun q => q.result = some (statusWord 6 (min k 0xFFF)) ∧ q.pending = []) t
            ∧ (nth Counters.zero t.counts p.die).stale = (nth Counters.zero s.counts p.die).stale + k)
        ∧ (∀ k, Completes (.reduceCompletion n (.lost k)) s fun t =>
          t.mem = s.mem ∧ PacketIs n (fun q => q.result = some (statusWord 7 (min k 0xFFF)) ∧ q.pending = []) t)
        ∧ ∀ others dst u, (∀ l ∈ others, l.length = p.len) → p.lost = 0 → p.data.length = p.len → p.len % 4 = 0 →
          engineCheck p .copyWrite (p.a 192) p.len s = .ok dst u → linkGone u dst = false →
              (allPas dst).length = p.len →
          Completes (.reduceCompletion n (.combined others)) s fun t => t.mem = u.mem
            ∧ ∃ l, PacketIs n (fun q => q.result = some 0 ∧ q.pending = writesTo dst (plainData l)) t
                ∧ l.length = p.len
              ∧ Combined (p.f 304 8) (p.data.map (fun d => (d.value s).1) :: others) l)

/-! ### Events: the host ports (R227, R364 to R373) -/

/-- The registers of a host port, the lease, the features and the interrupt (R227, R364, R367 to R369, R372,
R373). Of two renewals in one step of the lease unit host A's counts, and none counts after the lease has run
out in the step (R369). When EPOCH rises, that a downed port takes no write and where the ADMIN registers stand
is the model's reading (log entries 61, 62, 105). -/
def Obligations.HostPorts : Prop :=
  (∀ (b : Bool) (w : BitVec 64) (s : State),
      let p := s.port b
      ((p.link = false ∨ p.tlbinv.getLsbD 63 = true ∨ 4 ≤ field w 60 3) → Stutters (.tlbInvalidate b w) s)
      ∧ (p.link = true → p.tlbinv.getLsbD 63 = false → field w 60 3 < 4 → Completes (.tlbInvalidate b w) s fun t =>
          PortIs b { p with tlbinv := w &&& 0xF3FFFFFFFFFFFFC0 } s t ∧ t.tlb = s.tlb)
      ∧ ((p.tlbinv.getLsbD 63 = false ∨ tlbHeld s p.tlbinv = true) → Stutters (.tlbinvComplete b) s)
      ∧ (p.tlbinv.getLsbD 63 = true → tlbHeld s p.tlbinv = false → Completes (.tlbinvComplete b) s fun t =>
          PortIs b { p with tlbinv := p.tlbinv &&& 0x7FFFFFFFFFFFFFFF } s t ∧ ∀ x ∈ t.tlb, x ∈ s.tlb
              ∧ tlbNamed p.tlbinv x = false))
  ∧ (∀ (b : Bool) (s : State), (s.port b).link = true →
      let p := s.port b
      let o := s.port (!b)
      (s.lapseMs = some s.ms → Stutters (.leaseRenew b) s)
      ∧ (s.locked = true → p.role = 1 → s.lapseMs ≠ some s.ms →
          Completes (.leaseRenew b) s (PortIs b { p with period := p.newPeriod, remain := p.newPeriod } s))
      ∧ (p.role ≠ 1 →
          let may := s.locked = true ∧ (b = false ∨ s.accepted.getLsbD 7 = true) ∧ s.lapseMs ≠ some s.ms
            ∧ (o.role = 1 → b = false ∧ s.leaseMs = some s.ms)
          (may → Completes (.leaseRenew b) s fun t =>
            t.port b = { p with role := 1, period := p.newPeriod, remain := p.newPeriod }
              ∧ t.port (!b) = { o with role := if o.link ∧ s.accepted.getLsbD 7 = true then 2 else 0, remain := 0 }
              ∧ (o.role ≠ 1 → t.leaseMs = some s.ms))
          ∧ (¬ may → Stutters (.leaseRenew b) s))
      ∧ (p.role = 1 → o.role = 2 → o.link = true → Completes (.leaseRelease b) s fun t =>
          t.port b = { p with role := 0, remain := 0 } ∧ t.port (!b) = { o with role := 1, remain := o.period }
            ∧ t.leaseEpoch = s.leaseEpoch + 1 ∧ ∀ q ∈ t.queues, q.bind.port ≠ b)
      ∧ (p.role = 1 → (o.role ≠ 2 ∨ o.link = false) → Completes (.leaseRelease b) s fun t =>
          (t.port b).role = 0 ∧ (t.port (!b)).role = 0 ∧ t.leaseEpoch = s.leaseEpoch ∧ t.queues = s.queues
            ∧ t.lapseMs = some s.ms)
      ∧ (∀ ms, p.role = 1 → ms ≠ 0 → Completes (.leasePeriod b ms) s (PortIs b { p with newPeriod := ms } s))
      ∧ (∀ ms, (p.role ≠ 1 ∨ ms = 0) → Stutters (.leasePeriod b ms) s)
      ∧ (∀ k, Completes (.scrubprogSelect b k) s fun t =>
          t.port b = { p with scrubKey := k } ∧ t.port (!b) = { o with scrubKey := k })
      ∧ (∀ k, Completes (.aggvecRead b k) s fun t => (t.port b).lastRead = nth 0 p.aggvec k.toNat
          ∧ nth 0 (t.port b).aggvec k.toNat = 0
          ∧ ∀ j, j ≠ k.toNat → nth 0 (t.port b).aggvec j = nth 0 p.aggvec j)
      ∧ (∀ k w, s.locked = false → Completes (.feataccWrite b k w) s fun t => (t.port b).refused = false
          ∧ t.port (!b) = o
          ∧ field (t.port b).featacc (32 * k.toNat) 32 = w.toNat
          ∧ ∀ j, j < 8 → j ≠ k.toNat → field (t.port b).featacc (32 * j) 32 = field p.featacc (32 * j) 32)
      ∧ (s.locked = true → (∀ k w, Stutters (.feataccWrite b k w) s) ∧ Stutters (.commit b) s)
      ∧ (s.locked = false → 5 ≤ s.stage → p.featacc &&& ~~~0x3FFF#256 ≠ 0 →
          Completes (.commit b) s (PortIs b { p with refused := true, featacc := 0 } s))
      ∧ (s.locked = false → 5 ≤ s.stage → s.offline = [] → p.featacc &&& ~~~0x3FFF#256 = 0 →
          Completes (.commit b) s fun t =>
          t.locked = true ∧ t.accepted = p.featacc ∧ t.port b = { p with refused := false }
            ∧ t.port (!b) = { o with featacc := p.featacc })
      ∧ (∀ w, Completes (.registerWrite b 0x0020 w) s (PortIs b { p with notifyBase := w &&& 0xFFFFFFFFFFFFF001 } s))
      ∧ (∀ w, Completes (.registerWrite b 0x0028 w) s (PortIs b { p with moderate := w &&& 0xFFFFFFFF } s))
      ∧ (∀ w, Completes (.registerWrite b 0x0200 w) s (PortIs b { p with adminBase := w } s)
          ∧ Completes (.registerWrite b 0x0208 w) s (PortIs b { p with adminSize := w } s)
          ∧ Completes (.registerWrite b 0x0210 w) s (PortIs b { p with adminWrite := w } s)
          ∧ Completes (.registerWrite b 0x0218 w) s (PortIs b { p with adminRead := w } s))
      ∧ (∀ off w, off ∉ ([0x0020, 0x0028, 0x0200, 0x0208, 0x0210, 0x0218] : List (BitVec 16)) →
          Stutters (.registerWrite b off w) s)
      ∧ (let due := field p.moderate 0 16 = 0 ∨ field p.moderate 16 16 = 0 ∨ field p.moderate 0 16 ≤ p.unsignalled
            ∨ p.sinceNs + 1000 * field p.moderate 16 16 ≤ s.refNs
        (p.unsignalled ≠ 0 → canNotify s b = true → due →
          Completes (.notifyInterrupt b) s (PortIs b { p with interrupts := p.interrupts + 1, unsignalled := 0 } s))
        ∧ ((p.unsignalled = 0 ∨ canNotify s b = false ∨ ¬ due) → Stutters (.notifyInterrupt b) s)))
  ∧ ∀ s : State, (s.refNs < 1000000 * (s.ms + 1) → Stutters .leaseExpiry s)
      ∧ ∀ b : Bool, 1000000 * (s.ms + 1) ≤ s.refNs → (s.port b).role = 1 → (b = true → s.portA.role ≠ 1) →
          let p := s.port b
          let o := s.port (!b)
          let passes := fun (q : State → Prop) => Completes .leaseExpiry s fun t => t.ms = s.ms + 1 ∧ q t
          (1 < p.remain.toNat → passes fun t => t.port (!b) = o ∧ t.port b = { p with remain := p.remain - 1 }
            ∧ t.leaseEpoch = s.leaseEpoch)
          ∧ (p.remain.toNat = 1 → o.role = 2 → o.link = true → passes fun t => (t.port b).role = 0
            ∧ t.port (!b) = { o with role := 1, remain := o.period } ∧ t.leaseEpoch = s.leaseEpoch + 1
                ∧ t.lapseMs = some t.ms)
          ∧ (p.remain.toNat = 1 → (o.role ≠ 2 ∨ o.link = false) → passes fun t => (t.port b).role = 0
            ∧ (t.port (!b)).role = 0 ∧ t.lapseMs = some t.ms ∧ t.leaseEpoch = s.leaseEpoch)

/-! ### Events: requests of owners and of system software (R181, R315, R352, R355 to R357, R366, R371) -/

/-- The requests on the ADMIN ring (R181, R269, R315, R352, R355 to R357, R363, R366, R371): each changes the
entry of its handle as it says, and one that its conditions refuse changes nothing but that its poster is told.
That requests are events and that a refusal carries a number is the model's choice (log entries 81, 82). -/
def Obligations.TrustRequests : Prop :=
  ∀ (s : State), adminOpen s = true →
    (∀ h sealing, (∀ k, freeKeyId s = some k → h ≠ 0 → handleWorld s h = none →
        Completes (.register h sealing true) s fun t =>
        ∃ w, t.worlds = w :: s.worlds ∧ w.key = k ∧ w.handle = h ∧ w.sealing = some sealing ∧ w.live = false
            ∧ w.comet = []
          ∧ w.sealedTable = [] ∧ w.ingest = [])
      ∧ exec (.register h sealing false) s = .next (tell (.refused 0) s)
      ∧ ((handleWorld s h).isSome = true → exec (.register h sealing true) s = .next (tell (.refused 0) s)))
    ∧ (∀ h w, handleWorld s h = some w → s.world w.key = some w → w.key ≠ 0 →
      (w.live = true → exec (.deregister h) s = .next (tell (.refused 1) s))
      ∧ (w.live = false → (∀ r ∈ s.slots, r.world = w.key → r.state ≠ 1 ∧ r.state ≠ 3) →
          Completes (.deregister h) s fun t =>
          t.world w.key = none ∧ t.mem = s.mem ∧ (∀ r ∈ s.scrub, r ∈ t.scrub)
            ∧ ∀ line, (line, w.key) ∈ s.lineKeys → ⟨w.key, 64 * line, 64, 0⟩ ∈ t.scrub)
      ∧ (∀ vmid save base len, (824633720832 < base + len →
          exec (.giveMemory h vmid save base len) s = .next (tell (.refused 2) s))
          ∧ (base + len ≤ 824633720832 → Completes (.giveMemory h vmid save base len) s (WorldIs
              (if save then { w with save := w.save ++ [⟨base, len⟩] } else { w with given := w.given ++ [⟨base, len⟩] }) s)))
      ∧ (∀ root, Completes (.roots h false root) s (WorldIs { w with s1root := root } s))
      ∧ (∀ root, (s.accepted.getLsbD 8 = true →
          Completes (.roots h true root) s (WorldIs { w with s2root := some root } s))
          ∧ (s.accepted.getLsbD 8 = false → exec (.roots h true root) s = .next (tell (.refused 3) s)))
      ∧ (∀ k e, ((s.accepted.getLsbD 0 = false ∨ sealedEntryBad e = true) →
            exec (.sealedEntry h k e) s = .next (tell (.refused 4) s))
          ∧ (s.accepted.getLsbD 0 = true → sealedEntryBad e = false → Completes (.sealedEntry h k e) s fun t =>
            ∃ l, WorldIs { w with sealedTable := l } s t ∧ nth 0 l k.toNat = e ∧ ∀ j, j ≠ k.toNat →
                nth 0 l j = nth 0 w.sealedTable j))
      ∧ (∀ k long key, exec (.ingestKey h k long key false) s = .next (tell (.refused 5) s)
          ∧ (ingestBusy s w.key k.toNat = true → Stutters (.ingestKey h k long key true) s)
          ∧ (ingestBusy s w.key k.toNat = false → Completes (.ingestKey h k long key true) s fun t =>
            ∃ l, WorldIs { w with ingest := l } s t
                ∧ nth ⟨false, false, false, 0, 0, 0⟩ l k.toNat = ⟨true, long, false, w.key, 0, key⟩))
      ∧ (∀ k, Completes (.cometQueue h k none) s (WorldIs { w with comet := w.comet.filter fun q => q.index ≠ k.toNat } s))
      ∧ (∀ (k : BitVec 8) (a : DWord) (hd : Header), a.toNat % 64 = 0 → readHeader s w.key a = some hd →
          (cometHeaderBad w.key hd = true → exec (.cometQueue h k (some a)) s = .next (tell (.refused 6) s))
          ∧ (cometHeaderBad w.key hd = false → Completes (.cometQueue h k (some a)) s fun t =>
            ∃ l q, WorldIs { w with comet := l } s t ∧ q ∈ l ∧ q.index = k.toNat ∧ q.header = a
                ∧ q.die = field hd.bits 208 2
              ∧ q.engine = field hd.bits 200 3))
      ∧ (∀ port k, Completes (.bindStream h port k) s (WorldIs { w with stream := some (port, k.toNat) } s))
      ∧ ∀ nonce, Completes (.attest h nonce) s fun t =>
          ∃ l, t = { s with notices := s.notices ++ [.report l (sign l)] }
          ∧ l.take 32 = leBytes 32 nonce.toNat)
    ∧ ∀ (q : Nat) (f : QueueBinding),
      ((1024 ≤ q ∨ f.weight = 0 ∨ f.bound.toNat < 10 ∨ f.header.toNat % 64 ≠ 0) →
        exec (.bindQueue q f) s = .next (tell (.refused 7) s))
      ∧ (q < 1024 → f.weight ≠ 0 → 10 ≤ f.bound.toNat → f.header.toNat % 64 = 0 → ptrSpace f.header = 0 →
          (ownerKey s f.handle).isSome = true → Completes (.bindQueue q f) s fun t =>
            (∃ x, t.queue q = some x ∧ x.bind = f) ∧ t.mem = s.mem ∧ ∀ k, k ≠ q → t.queue k = s.queue k)

/-! ### Events: links, errors and accesses from outside (R184, R208, R311, R359 to R362, R370, R371, R374 to R376) -/

/-- Failed MACs and flits, key generations, the host links, TDISP, accesses of hosts and peers, training, soft
errors and clock gating (R42, R184, R192, R311, R359 to R362, R370, R371, R374 to R376). How long poison lasts,
which word an error strikes and what a failed access reads are the model's choice (log entries 65, 68 to 71, 74,
86). -/
def Obligations.LinksAndErrors : Prop :=
  (∀ (line : Nat) (s : State), 64 * line < 824633720832 →
      Completes (.macReread line true) s (fun t => t.mem = s.mem ∧ t.poison = s.poison ∧ SameStrands s t)
      ∧ (lineOwner s line = 0 → Completes (.macReread line false) s fun t => t.mem = s.mem ∧ SameStrands s t
          ∧ t.halted = true
          ∧ (∀ i, i < 64 → 64 * line + i ∈ t.poison) ∧ ∀ a ∈ s.poison, a ∈ t.poison)
      ∧ (∀ key, lineOwner s line = key → key ≠ 0 → Completes (.macReread line false) s fun t =>
          ∃ signature, .security key (64 * line) s.refNs signature ∈ t.notices)
      ∧ ∀ die, Completes (.flitRetry (.stack die) (.write line) false) s (fun t => t.mem = s.mem ∧ SameStrands s t
          ∧ ∀ i, i < 64 → 64 * line + i ∈ t.poison)
        ∧ (onStack s die [64 * line] = true → Completes (.flitRetry (.stack die) (.fetch line) false) s fun t =>
            t = { s with failing := t.failing, counts := t.counts } ∧ ∀ a, a / 64 = line → t.badNow a = true))
  ∧ (∀ (l : LinkRef) (f : FlitKind) (s : State), Completes (.flitRetry l f true) s fun t =>
      t.mem = s.mem ∧ t.poison = s.poison ∧ SameStrands s t
        ∧ (nth Counters.zero t.counts (linkDie l)).linkRetries = (nth Counters.zero s.counts (linkDie l)).linkRetries + 1)
  ∧ (∀ (n : Nat) (s : State) (k : Link), n < 12 → nth Link.reset s.links n = k →
      let waits := (∃ x ∈ k.outstanding, x ∈ linkUsers s n) ∨ ∃ x ∈ k.packets, x ∈ linkPackets s n
      (waits → Stutters (.keyGeneration (.stack n)) s)
      ∧ (¬ waits → Completes (.keyGeneration (.stack n)) s fun t =>
          (∃ key, nth Link.reset t.links n = ⟨(k.gen + 1) % 16, key, k.key, linkUsers s n, linkPackets s n, 0⟩)
            ∧ ∀ j, j ≠ n → nth Link.reset t.links j = nth Link.reset s.links j))
  ∧ (∀ (n : Nat) (s : State) (p : Perigee), n < 16 → nth Perigee.reset s.peri n = p →
      let waits := p.keyed = false ∨ ∃ x ∈ p.outstanding, x ∈ reductionsOn s n
      (waits → Stutters (.keyGeneration (.perigee n)) s)
      ∧ (¬ waits → Completes (.keyGeneration (.perigee n)) s fun t =>
          (∃ key, nth Perigee.reset t.peri n = { p with
            gen := (p.gen + 1) % 16, key := key, oldKey := p.key, outstanding := reductionsOn s n, flits := 0 })
            ∧ ∀ j, j ≠ n → nth Perigee.reset t.peri j = nth Perigee.reset s.peri j))
  ∧ (∀ (b : Bool) (s : State),
      Completes (.hostLinkDown b) s (fun t => (t.port b).link = false ∧ t.port (!b) = s.port (!b) ∧ SameStrands s t
          ∧ t.queues = s.queues
          ∧ ∀ x ∈ (t.port b).streams, x ≠ .run)
      ∧ (4 ≤ s.stage → Completes (.hostLinkUp b) s fun t => (t.port b).link = true ∧ t.port (!b) = s.port (!b)
          ∧ SameStrands s t)
      ∧ ∀ (k : BitVec 3),
        let st := fun (t : State) => nth Tdisp.unlocked (t.port b).streams k.toNat
        Completes (.ideIntegrityFailure b k) s (fun t => (st t = .unlocked ∨ st t = .error)
            ∧ (st s = .unlocked → st t = .unlocked))
        ∧ ((s.port b).link = true →
          Completes (.tdispStop b k) s (fun t => (st t = .unlocked ∨ st t = .error)
              ∧ (st s = .unlocked → st t = .unlocked))
          ∧ Completes (.tdispLockInterface b k) s (fun t => st t = if st s = .unlocked then .locked else st s)
          ∧ Completes (.tdispStartInterface b k) s (fun t => st t = if st s = .locked then .run else st s)))
  ∧ (∀ (b : Bool) (s : State),
      (∀ a bytes, a + bytes.length ≤ Config.paSpace → Memory.wf s.mem = true →
          Completes (.hostAccess b (.own a bytes)) s fun t =>
        (∀ i, i < bytes.length → Memory.read t.mem (hostKey b (a + i)) = nth 0 bytes i)
          ∧ SameBytes ((List.range bytes.length).map fun i => hostKey b (a + i)) s t)
      ∧ (∀ x, (s.port b).link = false → (∀ a bytes, x ≠ .own a bytes) → Stutters (.hostAccess b x) s)
      ∧ (∀ key va bytes parts k, (s.port b).link = true →
          outerRange key .write va bytes.length s = some (parts, false) →
          (∀ x ∈ parts, x.2.2.key = k ∧ badLines s k x.2.2.pas = []) → (allPas parts).Nodup →
          Memory.wf s.mem = true → Completes (.hostAccess b (.write key va bytes)) s fun t =>
              SameBytes (allPas parts) s t
            ∧ ∀ y ∈ (allPas parts).zip bytes, Memory.read t.mem y.1 = y.2)
      ∧ ∀ key va n parts, (s.port b).link = true → outerRange key .read va n s = some (parts, false) → n ≤ 8 →
          (∀ x ∈ parts, badLines s x.2.2.key x.2.2.pas = []) → (allPas parts).length ≤ 8 →
          Completes (.hostAccess b (.read key va n)) s fun t =>
          t.mem = s.mem ∧ (t.port b).lastRead.toNat = leNat ((allPas parts).map s.readByte))
  ∧ (∀ (port : BitVec 4) (s : State),
      (∀ x, (nth Perigee.reset s.peri port.toNat).up = false → Stutters (.peerAccess port x) s)
      ∧ (∀ key va bytes parts k, (nth Perigee.reset s.peri port.toNat).up = true →
          outerRange key .write va bytes.length s = some (parts, false) →
          (∀ x ∈ parts, x.2.2.key = k ∧ badLines s k x.2.2.pas = []) → (allPas parts).Nodup → Memory.wf s.mem = true →
          Completes (.peerAccess port (.write key va bytes)) s fun t => SameBytes (allPas parts) s t
            ∧ ∀ y ∈ (allPas parts).zip bytes, Memory.read t.mem y.1 = y.2)
      ∧ ∀ t, 4 ≤ s.stage → s.offline.contains (port.toNat / 4) = false →
          Completes (.perigeeTraining port t) s fun u =>
          let p := nth Perigee.reset u.peri port.toNat
          p.up = (t.deskew && (t.long || t.short)) ∧ p.keyed = (t.deskew && (t.long || t.short) && t.exchange)
              ∧ p.longFec = t.long
            ∧ p.gen = 0 ∧ u.mem = s.mem ∧ ∀ j, j ≠ port.toNat →
                nth Perigee.reset u.peri j = nth Perigee.reset s.peri j)
  ∧ (∀ (e : ErrorSite) (s : State), Completes (.softError e true) s fun t => t.mem = s.mem ∧ t.poison = s.poison
      ∧ SameStrands s t)
  ∧ (∀ (a : Nat) (s : State), 64 * a < 824633720832 → Completes (.softError (.line a) false) s fun t =>
      t.mem = s.mem ∧ SameStrands s t
      ∧ ∀ i, i < 64 → 64 * a + i ∈ t.poison)
  ∧ (∀ (core line : Nat) (s : State), Completes (.softError (.l1 core line) false) s fun t => t.mem = s.mem
      ∧ SameStrands s t
      ∧ ∀ x ∈ t.l1, x.core = core → x.line = line → x.bad = List.range 64)
  ∧ (∀ (r : StrandRef) (n : BitVec 7) (lane : BitVec 6) (bits : BitVec 32) (s : State), InFocus r s →
      Completes (.softError (.vreg r n lane bits) false) s fun t => t.mem = s.mem
          ∧ ⟨0, n.toNat, lane.toNat, bits⟩ ∈ t.st.rfErr
        ∧ t.st.v = s.st.v ∧ t.st.s = s.st.s ∧ t.st.m = s.st.m)
  ∧ ∀ (c : Nat) (m : ClockMode) (s : State), Completes (.clusterClockGating c m) s fun t =>
      (c ∈ t.gated ↔ m = .gated) ∧ (∀ k, k ≠ c → (k ∈ t.gated ↔ k ∈ s.gated)) ∧ t = { s with gated := t.gated }

/-! ### Events: power, the loader and orrery (R10, R118, R189, R195, R313, R365, R376, R377) -/

/-- Bring-up, warm reset, loss of power and the loading of a program (R10, R350, R351, R356, R365, R366, R377):
of a host section of an anonymous program the comet queue alone is refused. What a reset keeps and where a load
puts its pages is the model's reading (log entries 5, 41, 72, 73, 75). -/
def Obligations.PowerAndLoad : Prop :=
  (∀ s : State, s.halted = false →
      (∀ digests v, s.stage = 0 → (∀ k, k < 12 → nth 0 s.fused k ≤ nth 0 v k) →
        Completes (.powerOn (.firmware true digests v)) s fun t =>
        t.stage = 1 ∧ t.versions = v ∧ t.fused = s.fused ∧ t.mem = s.mem ∧ t.measured.length = s.measured.length
          ∧ ∀ k, k < s.measured.length →
            nth 0 t.measured k = shake256 (leBytes 64 (nth 0 s.measured k).toNat ++ nth [] digests k))
      ∧ (∀ ok digests v, s.stage = 0 → (ok = false ∨ ∃ k, k < 12 ∧ nth 0 v k < nth 0 s.fused k) →
        exec (.powerOn (.firmware ok digests v)) s = .next (tell .notReady s))
      ∧ (∀ ok digests v, s.stage ≠ 0 → Stutters (.powerOn (.firmware ok digests v)) s)
      ∧ (∀ l, s.stage = 1 → exec (.powerOn (.memory l)) s
          = .next { s with stage := 2, badStacks := l, offline := (l.map (· / 3)).eraseDups, scrubOn := true })
      ∧ (∀ l, s.stage = 2 → Completes (.powerOn (.fabric l)) s fun t => t.stage = 3
          ∧ t.offline = (s.offline ++ l).eraseDups
          ∧ t = { s with stage := 3, offline := t.offline, links := t.links }
          ∧ ∀ n, n < s.links.length → n / 3 ∉ t.offline →
              ∃ key, nth Link.reset t.links n = { Link.reset with key := key })
      ∧ (∀ a b, s.stage = 3 → Completes (.powerOn (.pcie a b)) s fun t => t.stage = 4 ∧ t.portA.link = a
          ∧ t.portB.link = b)
      ∧ (s.stage = 4 → exec (.powerOn .perigee) s = .next { s with stage := 5 }))
  ∧ (∀ s : State, (∀ w ∈ s.allWorlds, w.live = false) → Completes .warmReset s fun t =>
      t.mem = s.mem ∧ t.poison = s.poison ∧ t.lineKeys = s.lineKeys ∧ t.scrub = s.scrub ∧ t.slots = s.slots
          ∧ t.fused = s.fused
        ∧ t.worlds = s.allWorlds ∧ t.blocks = [] ∧ t.grids = [] ∧ t.packets = [] ∧ t.queues = [] ∧ t.locked = false
        ∧ t.accepted = 0 ∧ t.stage = 0 ∧ t.portA = .reset ∧ t.portB = .reset ∧ t.st.here = false)
  ∧ (∀ s : State, Memory.wf s.mem = true → Completes .powerLoss s fun t =>
      (∀ a, a < Config.paSpace → Memory.read t.mem a = 0) ∧ (∀ a, Config.paSpace ≤ a →
          Memory.read t.mem a = Memory.read s.mem a)
        ∧ t.worlds = [] ∧ t.blocks = [] ∧ t.slots = [] ∧ t.scrub = [] ∧ t.stage = 0 ∧ t.fused = s.fused)
  ∧ ∀ (p : Loaded) (s : State),
      (s.stage < 5 → Stutters (.programLoad p) s)
      ∧ (5 ≤ s.stage → loadWorld s p.handle = none → exec (.programLoad p) s = .next (tell (.refused 10) s))
      ∧ (5 ≤ s.stage → ∀ w, loadWorld s p.handle = some w →
          (loadSections p w p.sections p.entry.toNat p.tables (beginProgram p s) = none →
              exec (.programLoad p) s = .next (tell (.refused 10) s))
          ∧ ∀ x fr u pas, p.sections = [x] →
            (x.kind = .code ∨ x.kind = .data ∨ p.handle = 0 ∧ ∃ b, x.kind = .host b) → sectionOk s p w x = true →
            mapPages w p.entry.toNat x (ceilDiv x.bytes.length 65536) p.tables (beginProgram p s) = some (fr, u) →
            sectionPlaces u w x = some pas → pas.Nodup → Memory.wf u.mem = true →
                Completes (.programLoad p) s fun t =>
              (∀ y ∈ pas.zip x.bytes, Memory.read t.mem y.1 = y.2) ∧ SameBytes pas u t
                ∧ ((∃ b, x.kind = .host b) → .refused 6 ∈ t.notices))

/-- What orrery does: attaching and detaching, placing, continuing, posting, reading and writing (R118, R187,
R189, R195, R313). The place setting confines the root grids that orrery runs or is attached to, and no others;
of a record that it posts, it is kept whether `run` posted it. What it may not write and how the token reads is
the model's reading (log entries 76, 77, 79). -/
def Obligations.Orrery : Prop :=
  (∀ (key : Nat) (w : World) (s : State), s.world key = some w → w.key = key → key ≠ 0 →
      (w.live = true → Completes (.orreryAttach key) s (WorldIs { w with attached := true } s))
      ∧ Completes (.orreryDetach key) s (fun t => WorldIs { w with attached := false } s t ∧ t.mem = s.mem
          ∧ (∀ g, s.grid s.st.grid = some g → g.key = key → s.st.here = true → t.st.status ≠ .stopped
              ∧ t.st.bkpt = false)))
  ∧ (∀ (key : Nat) (c : Option Nat) (s : State), Completes (.orrerySetPlace key c) s fun t =>
      t = { s with placed := t.placed } ∧ t.placed.lookup key = c ∧ ∀ k, k ≠ key →
          t.placed.lookup k = s.placed.lookup k)
  ∧ (∀ (s : State) (g : Grid) (q : Queue) (c : Nat),
      (s.placed.lookup g.key = some c → g.parent = none →
        (g.debugged = true ∨ ∃ w, s.world g.key = some w ∧ w.attached = true) → ∀ k, coreAllowed s q g k = true →
            k = c)
      ∧ ((g.parent ≠ none ∨ g.debugged = false ∧ ∀ w, s.world g.key = some w → w.attached = false) →
          ∀ k, coreAllowed s q g k = coreAllowed { s with placed := [] } q g k))
  ∧ (∀ (r : StrandRef) (s : State), InFocus r s →
      (s.st.status = .stopped → Completes (.orreryContinue r) s fun t => t.st = { s.st with status := .ready }
          ∧ t.mem = s.mem)
      ∧ (∀ n len, exec (.orreryRead (.sreg r n) len) s = .next { s with orrery := leBytes 4 (s.st.sget n.toNat).toNat })
      ∧ (∀ n len, Completes (.orreryRead (.vreg r n) len) s fun t => t = { s with orrery := t.orrery }
          ∧ t.orrery = (List.range 64).flatMap fun i => leBytes 4 (s.st.vget n.toNat i).toNat)
      ∧ (∀ n len, exec (.orreryRead (.mreg r n) len) s = .next { s with orrery := leBytes 8 (s.st.mget n.toNat).toNat })
      ∧ (∀ n a b c d, s.st.gone = false → Completes (.orreryWrite (.sreg r n) [a, b, c, d]) s fun t =>
          t.st.sget n.toNat = BitVec.ofNat 32 (leNat [a, b, c, d]) ∧ (∀ k, k ≠ n.toNat → t.st.sget k = s.st.sget k)
            ∧ t.st.v = s.st.v ∧ t.st.m = s.st.m ∧ t.mem = s.mem))
  ∧ (∀ (key : Nat) (va : DWord) (n : Nat) (l : List Byte) (s : State),
      (orreryRange key va n s = some (l, false) →
          exec (.orreryRead (.memory key va) n) s = .next { s with orrery := l })
      ∧ (orreryRange key va n s = some (l, true) → Completes (.orreryRead (.memory key va) n) s fun t =>
          t.orrery = List.replicate l.length 0))
  ∧ (∀ (key : Nat) (va : DWord) (bytes : List Byte) (parts : List (Nat × DWord × PagePart)) (s u : State),
      orreryDraw key va bytes.length (bytes.length / 65536 + 4) s = some (parts, u) →
      ((∃ x ∈ parts, x.2.2.mtype = 1) →
          exec (.orreryWrite (.memory key va) bytes) s = .next (debugRecord key va bytes.length s))
      ∧ (let l := writesTo parts (plainData bytes)
        (∀ x ∈ parts, x.2.2.mtype ≠ 1) → CleanWrites l u → Memory.wf u.mem = true →
          Completes (.orreryWrite (.memory key va) bytes) s (WrittenOut l u)))
  ∧ ∀ (key : Nat) (run : Bool) (va : DWord) (pas : List Nat) (k0 k k1 : Nat) (q : Queue) (h : Header) (x : List Nat) (s u : State),
      moonRead s key .read va 64 = some (pas, k0) →
      s.queue (field (BitVec.ofNat 512 (leNat (pas.map s.readByte))) 16 10) = some q → queueHeader s q = some (k, h) →
      (h.full = true → Stutters (.orreryPost ⟨key, run⟩ va) s)
      ∧ (h.full = false → postImage k h (pas.map s.readByte) s = some u →
          moonPlaces s k .write (h.slot h.write) 1 = some (x, k1) →
          Completes (.orreryPost ⟨key, run⟩ va) s fun t => t.mem = u.mem ∧ (∀ a ∈ x, a ∈ t.hostSlots)
            ∧ (∀ a ∈ u.hostSlots, a ∈ t.hostSlots)
                ∧ t.posted = if run then (q.index, h.write) :: u.posted else u.posted)

/-! ### Faults, reset and steps -/

/-- A fault of a strand is delivered (R345 to R348): the strand stops where it stands and keeps its registers,
with CONTINUE = 0 its grid ends, and the record of the fault, as R347 lays it out, stands in the grid's fault
area with COUNT one higher, or where all 63 places are taken LOST is one higher; POISONED and TRITREPL rise
likewise, each up to 2^32 - 1. An instruction that reads a register-file word in error takes RF_UNCORRECTABLE
(R375). A grid ends although its record waits (log entry 28), and SOURCE is as log entry 80 says. -/
def Obligations.FaultDelivery : Prop :=
  (∀ (f : FaultInfo) (s : State), f.code ≠ codeAbsent → ∃ t, deliver f s = .next t ∧ t.st.status = .faulted
      ∧ t.st.clause = none
      ∧ t.st.pc = s.st.pc ∧ t.st.v = s.st.v ∧ t.st.s = s.st.s ∧ t.st.m = s.st.m ∧ t.st.k = s.st.k
      ∧ (s.grd.live = true → s.grd.continue_ = false → t.grd.ended.isSome = true))
  ∧ (∀ (f : FaultInfo) (s : State), f.code < 256 → f.detail < 4096 → s.st.idx < 16 → s.blk.id < 2 ^ 32 →
      s.grd.id < 2 ^ 32 →
      let r := recordOf s f true
      [field r 0 8, field r 8 4, field r 12 1, field r 13 1, field r 16 4, field r 20 12, field r 32 32]
        = [f.code, 0, 1, 1, s.st.idx, f.detail, s.blk.id]
      ∧ [field r 64 64, field r 128 64, field r 192 64, field r 256 64, field r 320 32, field r 352 32,
          field r 384 64, field r 448 32]
        = [s.st.pc.toNat, f.addr.toNat, f.data.toNat, f.lanes.toNat, s.grd.id, s.place.toNat, s.clock.toNat,
            f.extra.toNat])
  ∧ (∀ (g : Nat) (hp : List Nat) (hk : Nat) (rec : BitVec 512) (s : State), AreaAt g hp hk s →
      Memory.wf s.mem = true →
      (∀ rp rk, areaCount hp 0 s < 63 → RecordRoom g (areaCount hp 0 s) rp rk s → (∀ a ∈ rp, a ∉ hp) →
        Recorded hp rp rec s (recordOne g 0 0 rec s))
      ∧ (63 ≤ areaCount hp 0 s → CountRises hp 1 1 [] s (recordOne g 0 0 rec s))
      ∧ ∀ n, CountRises hp 3 n [] s (recordOne g 1 n rec s) ∧ CountRises hp 2 n [] s (recordOne g 2 n rec s))
  ∧ (∀ (f : FaultInfo) (hp : List Nat) (hk : Nat) (s : State), f.code ≠ codeAbsent → AreaAt s.grd.id hp hk s →
      Memory.wf s.mem = true →
      (s.grd.continue_ = true ∨ ∀ g ∈ s.allGrids, g.parent ≠ some s.grd.id) → ∃ t, deliver f s = .next t
        ∧ (∀ rp rk, areaCount hp 0 s < 63 → RecordRoom s.grd.id (areaCount hp 0 s) rp rk s → (∀ a ∈ rp, a ∉ hp) →
          Recorded hp rp (recordOf s f true) s t)
        ∧ (63 ≤ areaCount hp 0 s → CountRises hp 1 1 [] s t))
  ∧ ∀ (i : Instr) (f : Form) (lanes : BitVec 64) (s : State), form i = some f → errorsOf s f = some lanes →
      exec i s = deliver ⟨0x51, 0, 0, 0, 0, lanes⟩ s

/-- What reset leaves, as far as the manual gives it (R204, R365 to R368, R373, R377): no handle, world, grid or
block, no feature accepted, no queue bound, every slot free with GEN 0, the registers of both ports as R367
lists them; and memory has its canonical form. The fields for which the manual gives no value are the model's
choice (log entry 5), as is the moment that State.reset stands for (log entry 41). -/
def Obligations.ResetState : Prop :=
  let s := State.reset
  s.allWorlds = [] ∧ s.allGrids = [] ∧ s.allBlocks = [] ∧ s.queues = [] ∧ s.locked = false ∧ s.accepted = 0
      ∧ s.stage = 0
    ∧ Memory.wf s.mem = true ∧ (∀ id, (slotRec s id).state = 0 ∧ (slotRec s id).gen = 0)
    ∧ ∀ b : Bool, readRegister s b 0x0000 = BitVec.ofNat 64 (2 ^ 16 * 1000)
        ∧ ∀ off ∈ ([0x0010, 0x0020, 0x0028, 0x0080, 0x00F8, 0x0120, 0x0138, 0x0140, 0x0200, 0x0208, 0x0210,
            0x0218] : List Nat),
            readRegister s b off = 0

/-- A step lets time pass (R42), and then: the event at the head of the agenda happens; or the strand in focus
runs the instruction that its open clause's words decode to, when it is ready, clocked and not held; or, in a
halted device, nothing. Words that do not decode fault. Where no deferred atomic and no notification is due, the
passing of time changes nothing but clocks, counts of time and deficits. How the machine is cut into steps, that
time passes first, and that an event the state does not admit changes nothing is the model's choice (log entries
3, 4, 16, 60). -/
def Obligations.StepRunsDecoded : Prop :=
  (∀ (s : State) (i : Instr) (rest : List Word) (c : Clause),
      let u := tick s
      u.agenda = [] → u.halted = false → u.st.status = .ready → u.st.clause = some c → c.words ≠ [] →
          u.clocked = true →
      decodeOne (decodeCtx u c.cls c.latches) c.words = .ok (i, rest) → held u i = false → step s = exec i u)
  ∧ (∀ (s : State) (e : DecFault) (c : Clause),
      let u := tick s
      u.agenda = [] → u.halted = false → u.st.status = .ready → u.st.clause = some c → c.words ≠ [] →
          u.clocked = true →
      decodeOne (decodeCtx u c.cls c.latches) c.words = .error e →
          step s = deliver (faultAt (decodeCode e) u.st.pc) u)
  ∧ (∀ (s : State) (i : Instr) (rest : List Instr), (tick s).agenda = i :: rest → form i = none →
      (tick s).halted = false →
      step s = exec i { tick s with agenda := rest })
  ∧ (∀ s : State, (tick s).agenda = [] → (tick s).halted = true → step s = .next (tick s))
  ∧ ∀ s : State, s.qnt = [] → (∀ q ∈ s.queues, q.pending = 0) → s.scrubOn = false →
      let t := tick s
      t.st = s.st ∧ t.mem = s.mem ∧ t.agenda = s.agenda ∧ t.grids = s.grids ∧ t.grd = s.grd ∧ t.free = s.free + 1
          ∧ s.refNs ≤ t.refNs
        ∧ t.clocks.length = s.clocks.length
        ∧ ∀ (k : Nat) (x : DWord), s.clocks[k]? = some x → ∃ y, t.clocks[k]? = some y
            ∧ if k ∈ s.gated then y = x else x.toNat ≤ y.toNat ∧ (x.toNat + 1 < 2 ^ 64 → x.toNat < y.toNat)

/-- Every step keeps the canonical form of memory: addresses strictly rising, no listed byte equal to what an
unlisted address reads as. That an unlisted byte of device memory reads zero is R377's zeroed memory; of a
host's own memory it is the model's choice (log entry 40). -/
def Obligations.MemoryStaysCanonical : Prop := Kept fun s => Memory.wf s.mem = true

/-! ### Encodings (R56 to R72) -/

/-- Decoding what the encoder writes gives the instruction back, with every operand at every value that the
encoding admits, and leaves the words that follow. -/
def Obligations.EncodedDecodes : Prop :=
  ∀ (c : DecCtx) (i : Instr) (rest : List Word), wellFormed c i = true →
      decodeOne c (encode i ++ rest) = .ok (i, rest)

/-- What decodes is a well-formed instruction, and its own words are the words it was decoded from: no bit of an
encoding is dropped, and no two words of one length mean the same instruction. That a prefix with every field at
its default is accepted is the model's reading (log entry 22). -/
def Obligations.DecodedEncodes : Prop :=
  ∀ (c : DecCtx) (ws : List Word) (i : Instr) (rest : List Word), decodeOne c ws = .ok (i, rest) →
    wellFormed c i = true ∧ encode i ++ rest = ws

/-- Worked encodings of the manual decode to the instructions that they stand for: every row of the table of
chapter 04 with the header of its VFMA clause, and worked encodings that chapters 06, 07, 10, 11, 12 and 15
give. Under `a`, l0 and l1 are vector latches. -/
def Obligations.DecodesSpecWords : Prop :=
  let a : DecCtx := ⟨0, 0x3FFF, 128, [false, false]⟩
  let m : DecCtx := ⟨1, 0x3FFF, 128, []⟩
  let x : DecCtx := ⟨2, 0x3FFF, 128, []⟩
  let e : DecCtx := ⟨3, 0x3FFF, 128, []⟩
  let c : DecCtx := ⟨4, 0x3FFF, 128, []⟩
  let chapter04 : List (DecCtx × List Word × Instr) := [
    (a, [0x4004C1C0], .vadd ⟨none, false, 4, .l 1, .l 0⟩),
    (a, [0x6401C0F8, 0x3D800000], .vfmul ⟨none, false, 1, .l 0, .lit 0x3D800000⟩),
    (a, [0x2114B8F8, 0x00000780], .saddD ⟨none, false, 20, .s 56, .lit 0x780⟩),
    (a, [0x592102D0], .vcmpS32 ⟨none, false, 0x21, .v 2, .int 0⟩),
    (a, [0xF1060009, 0x650902F8, 0x3FC00000],
      .vfma ⟨some ⟨0, 1, true, false, false, false, some (.v 9)⟩, false, 9, .v 2, .lit 0x3FC00000⟩),
    (m, [0xB0829888], .lds ⟨none, none, 4, 10, 24, some 8⟩),
    (m, [0xB3262600], .stsU ⟨none, none, 1, 12, 19, 0⟩),
    (m, [0xF2580000, 0xA140D400], .ldU ⟨some ⟨1, 3, 0, 0, false, false, none⟩, none, 2, 1, 42, 0⟩),
    (c, [0x0397FFF0], .brsNz 23 0xFFF0),
    (x, [0xD4400002], .mma ⟨true, false, false, 0, 0, 2⟩),
    (x, [0xD6009800], .adrn 0 (.s 24)),
    (e, [0xC00AA800], .cpost 10 (.s 40)),
    (a, [0x89040102, 0x03D00129, 0x37000000], .expr ⟨none, false, 4, .v 1, .v 2, .v 3, .int 0, 0, 0x12937000000⟩)]
  let chapter06 : List (DecCtx × List Word × Instr) := [
    (a, [0x7C000001], .mand ⟨none, false, 0, 0, 1⟩), (a, [0x83039400], .mload ⟨none, false, 3, 20⟩),
    (a, [0xF0040000, 0x88070000], .krnd ⟨some ⟨0, 1, false, false, false, false, none⟩, false, 7⟩),
    (a, [0x3E010002], .sget ⟨none, false, 1, 2⟩), (a, [0x3E020000], .sget ⟨none, false, 2, 0⟩),
    (a, [0x3F009E13], .sset ⟨none, false, 0, .s 30, 0x13⟩), (a, [0x3C03FFFE], .smovi ⟨none, false, 3, 0xFFFE⟩),
    (c, [0x0C00F800, 0x000003E8], .sleep (.lit 0x3E8)), (c, [0x0E000007], .trap 7),
        (c, [0x15048900], .barpAdd 4 (.s 9)),
    (c, [0x06000003], .brmNone 0 3), (a, [0x77060300], .vred ⟨none, false, 6, .v 3, 0⟩),
    (a, [0x7101C000], .vfcvt ⟨none, false, 1, .l 0, 0⟩), (a, [0x7B000000], .vlid ⟨none, false, 0⟩),
    (a, [0x72800285], .vshufXor ⟨none, true, 0, .v 2, .s 5⟩), (a, [0x82140000], .msave ⟨none, false, 20, 0⟩),
    (a, [0x85000500], .kaddF32 ⟨none, false, 0, .v 5⟩)]
  let chapter07 : List (DecCtx × List Word × Instr) := [
    (x, [0xD000D200], .oclaim 0 (.int 2)), (x, [0xD102D200], .orel 2 (.int 2)), (x, [0xD2009801], .olda 0 (.s 24) 1),
    (x, [0xD2059E06], .olda 5 (.s 30) 6), (x, [0xD3039401], .oldw 3 20 1), (x, [0xD306942D], .oldw 6 20 0x2D),
    (x, [0xD4230407], .mma ⟨false, true, false, 3, 4, 7⟩), (x, [0xD5010000], .aclr 1),
        (x, [0xD700D100], .mtok (.int 1)),
    (x, [0xD8000000], .mwaitTok), (x, [0xD8000001], .mwaitAll), (a, [0x8A0C0300], .qmm ⟨none, false, 12, .v 3⟩),
    (x, [0xD2019901], .olda 1 (.s 25) 1), (x, [0xD302B801], .oldw 2 56 1),
        (x, [0xD4000103], .mma ⟨false, false, false, 0, 1, 3⟩),
    (a, [0x8B06038C], .qntI8 ⟨none, false, 6, .v 3, .s 12⟩), (a, [0x8D020194], .qntT3 ⟨none, false, 2, .v 1, .s 20⟩),
    (a, [0x900705D0], .pk3 ⟨none, false, 7, .v 5, .int 0⟩),
    (a, [0x8C06038C], .qntI4 ⟨none, false, 6, .v 3, .s 12⟩), (a, [0x8E04068C], .dqntI8 ⟨none, false, 4, .v 6, .s 12⟩),
    (a, [0x900906EC], .pk3 ⟨none, false, 9, .v 6, .int 0x1C⟩), (a, [0x92080287], .pk4 ⟨none, false, 8, .v 2, .s 7⟩),
    (a, [0x93020385], .upk4 ⟨none, false, 2, .v 3, .s 5⟩)]
  let chapter10 : List (DecCtx × List Word × Instr) := [
    (m, [0xA040B881], .ld ⟨none, none, 2, 2, 56, some 1⟩),
    (m, [0xF2000400, 0xA0010681], .ld ⟨some ⟨0, 0, 0, 0, false, true, none⟩, none, 0, 4, 6, some 1⟩),
    (m, [0xA1907400], .ldU ⟨none, none, 4, 32, 58, 0⟩), (m, [0xA1617010], .ldU ⟨none, none, 3, 2, 56, 16⟩),
    (m, [0xA2609084], .st ⟨none, none, 3, 2, 16, some 4⟩),
    (m, [0xF2980000, 0xA342D400], .stU ⟨some ⟨2, 3, 0, 0, false, false, none⟩, none, 2, 5, 42, 0⟩),
    (m, [0xF2001800, 0xA641C883], .atom ⟨some ⟨0, 0, 0, 1, true, false, none⟩, none, 2, 7, 8, some 3⟩),
    (m, [0xF204820A, 0xA6621486], .atom ⟨some ⟨0, 0, 9, 0, false, false, some (.v 10)⟩, none, 3, 8, 20, some 6⟩),
    (m, [0xF2D80000, 0xA8000000], .fence ⟨some ⟨3, 3, 0, 0, false, false, none⟩, none, 0⟩),
    (m, [0xF2A00000, 0xA8000001], .fence ⟨some ⟨2, 4, 0, 0, false, false, none⟩, none, 1⟩),
    (m, [0xAA201080], .prefU ⟨none, none, 1, 0, 8, 128⟩), (m, [0xB3923810], .stsU ⟨none, none, 4, 36, 28, 16⟩),
    (m, [0xF2050000, 0xBA418C85], .gop ⟨some ⟨0, 0, 10, 0, false, false, none⟩, none, 2, 6, 12, some 5⟩),
    (e, [0xC42A90F8, 0x00000010], .promote 1 10 16 (.lit 0x10)), (e, [0xC42CD0F8, 0x00000040],
        .promoteA 1 12 (.lit 0x40)),
    (e, [0xC5089004], .arena 8 (.s 16) 4)]
  let others : List (DecCtx × List Word × Instr) := [
    (m, [0xAFC30278, 0x13EF0000], .lda ⟨none, none, 3, 0, 24, 9, 56, some 9, .int 0x1F⟩),
    (m, [0xAFD34256, 0x130B0000], .lda ⟨none, none, 3, 2, 26, 9, 22, some 9, .v 11⟩),
    (m, [0xF3000010, 0xB0841889], .lds ⟨none, some 16, 4, 16, 24, some 9⟩),
    (c, [0x1800D2D0], .waittag (.int 2) (.int 0)), (c, [0x19008B00], .waitp (.s 11)),
    (e, [0xC200A8F8, 0x00001000], .bbinit (.s 40) (.lit 0x1000)), (e, [0xC300A800], .bbinv (.s 40)),
    (e, [0xC6069C00], .launch 6 (.s 28)), (e, [0xC70094D1], .tsig 20 (.int 1))]
  (∀ y ∈ chapter04 ++ (chapter06 ++ (chapter07 ++ (chapter10 ++ others))), decodeOne y.1 y.2.1 = .ok (y.2.2, []))
    ∧ headerBad 0x30FFFFC5 = false ∧ field 0x30FFFFC5#32 28 4 = 3 ∧ field 0x30FFFFC5#32 25 3 = 0
end

