-- ==== Sys2Proof/Laws/Memory.lean ====
section
/-! SUPPORT. The laws of the byte stores and of the lists that register files are: read after write, what a write leaves
alone, and that every operation keeps the canonical form. -/

namespace Sys2Proof.Machine

/-! ### Register lists -/

@[simp] theorem nth_nil {α : Type} (d : α) (n : Nat) : nth d [] n = d := by cases n <;> rfl

@[simp] theorem nth_put_same {α : Type} (d x : α) : ∀ (l : List α) (n : Nat), nth d (put d l n x) n = x
  | [], 0 => rfl
  | [], n + 1 => by simp [put, nth, nth_put_same d x [] n]
  | _ :: _, 0 => rfl
  | _ :: t, n + 1 => by simp [put, nth, nth_put_same d x t n]

theorem nth_put_other {α : Type} (d x : α) : ∀ (l : List α) (n k : Nat), k ≠ n → nth d (put d l n x) k = nth d l k
  | [], 0, 0, h => absurd rfl h
  | [], 0, k + 1, _ => by simp [put, nth]
  | [], n + 1, 0, _ => by simp [put, nth]
  | [], n + 1, k + 1, h => by
    simpa [put, nth] using nth_put_other d x [] n k (fun e => h (by rw [e]))
  | _ :: _, 0, 0, h => absurd rfl h
  | _ :: _, 0, k + 1, _ => by simp [put, nth]
  | _ :: _, n + 1, 0, _ => by simp [put, nth]
  | _ :: t, n + 1, k + 1, h => by
    simpa [put, nth] using nth_put_other d x t n k (fun e => h (by rw [e]))

theorem nth_put {α : Type} (d x : α) (l : List α) (n k : Nat) :
    nth d (put d l n x) k = if k = n then x else nth d l k := by
  by_cases h : k = n
  · subst h; simp
  · simp [h, nth_put_other d x l n k h]

theorem nth_map {α β : Type} (d : α) (e : β) (f : α → β) :
    ∀ (l : List α) (n : Nat), n < l.length → nth e (l.map f) n = f (nth d l n)
  | [], n, h => by simp at h
  | _ :: _, 0, _ => rfl
  | _ :: t, n + 1, h => by simpa [nth] using nth_map d e f t n (by simpa using h)

theorem nth_range (n : Nat) : ∀ (k : Nat), k < n → nth 0 (List.range n) k = k := by
  have gen : ∀ (l : List Nat) (k : Nat) (h : k < l.length), nth 0 l k = l[k] := by
    intro l
    induction l with
    | nil => intro k h; simp at h
    | cons a t ih =>
      intro k h
      cases k with
      | zero => rfl
      | succ k => simpa [nth] using ih k (by simpa using h)
  intro k h
  rw [gen _ _ (by simpa using h)]
  simp

/-- A lane of a list made lane by lane. -/
theorem nth_lanes {β : Type} (e : β) (f : Nat → β) (i : Nat) (h : i < 64) : nth e (laneIds.map f) i = f i := by
  have hl : i < laneIds.length := by simpa [laneIds, Config.gwidth] using h
  rw [nth_map 0 e f laneIds i hl]
  simp [laneIds, Config.gwidth, nth_range 64 i h]

/-! ### Byte stores -/

theorem Memory.above_mono : ∀ (m : Memory) {lo hi : Nat}, hi ≤ lo → Memory.above m lo = true → Memory.above m hi = true
  | [], _, _, _, _ => rfl
  | (k, b) :: t, lo, hi, h, w => by
    simp [Memory.above] at w ⊢
    exact ⟨⟨le_trans h w.1.1, w.1.2⟩, w.2⟩

theorem Memory.above_write : ∀ (m : Memory) (a : Nat) (b : Byte) (lo : Nat), lo ≤ a → Memory.above m lo = true →
    Memory.above (Memory.write m a b) lo = true
  | [], a, b, lo, h, _ => by
    unfold Memory.write
    split
    · rfl
    · rename_i hb; simp [Memory.above, h, hb]
  | (k, c) :: t, a, b, lo, h, w => by
    simp [Memory.above] at w
    unfold Memory.write
    split
    · rename_i hk
      split
      · simp [Memory.above, w]
      · rename_i hb
        simp [Memory.above, w, h, hb]; omega
    · split
      · split
        · exact Memory.above_mono t (by omega) w.2
        · rename_i hb; simp [Memory.above, w, hb]
      · simp [Memory.above, w]
        exact Memory.above_write t a b (k + 1) (by omega) w.2

/-- A write keeps the canonical form. -/
theorem Memory.wf_write (m : Memory) (a : Nat) (b : Byte) (h : Memory.wf m = true) :
    Memory.wf (Memory.write m a b) = true := Memory.above_write m a b 0 (Nat.zero_le a) h

theorem Memory.wf_writeBytes : ∀ (l : List Byte) (m : Memory) (a : Nat), Memory.wf m = true →
    Memory.wf (Memory.writeBytes m a l) = true
  | [], _, _, h => h
  | b :: t, m, a, h => Memory.wf_writeBytes t _ _ (Memory.wf_write m a b h)

theorem Memory.wf_writeAt : ∀ (l : List (Nat × Byte)) (m : Memory), Memory.wf m = true →
    Memory.wf (Memory.writeAt m l) = true
  | [], _, h => h
  | (a, b) :: t, m, h => Memory.wf_writeAt t _ (Memory.wf_write m a b h)

theorem Memory.above_filter (p : Nat × Byte → Bool) : ∀ (m : Memory) (lo : Nat), Memory.above m lo = true →
    Memory.above (m.filter p) lo = true
  | [], _, _ => rfl
  | (k, b) :: t, lo, w => by
    simp [Memory.above] at w
    by_cases hp : p (k, b)
    · simp [List.filter, hp, Memory.above, w]
      exact Memory.above_filter p t (k + 1) w.2
    · simp [List.filter, hp]
      exact Memory.above_filter p t lo (Memory.above_mono t (by omega) w.2)

/-- Forgetting some cells keeps the canonical form. -/
theorem Memory.wf_filter (p : Nat × Byte → Bool) (m : Memory) (h : Memory.wf m = true) :
    Memory.wf (m.filter p) = true := Memory.above_filter p m 0 h

theorem Memory.above_clear (a n : Nat) : ∀ (m : Memory) (lo : Nat), Memory.above m lo = true →
    Memory.above (Memory.clear m a n) lo = true
  | [], _, _ => rfl
  | (k, b) :: t, lo, w => by
    simp [Memory.above] at w
    unfold Memory.clear
    split
    · exact Memory.above_clear a n t lo (Memory.above_mono t (by omega) w.2)
    · simp [Memory.above, w]
      exact Memory.above_clear a n t (k + 1) w.2

/-- Zeroing a range keeps the canonical form. -/
theorem Memory.wf_clear (m : Memory) (a n : Nat) (h : Memory.wf m = true) : Memory.wf (Memory.clear m a n) = true :=
  Memory.above_clear a n m 0 h

theorem Memory.read_below : ∀ (m : Memory) (lo a : Nat), Memory.above m lo = true → a < lo → Memory.read m a = 0#8
  | [], _, _, _, _ => rfl
  | (k, b) :: t, lo, a, w, h => by
    simp [Memory.above] at w
    have h1 : ¬ a = k := by omega
    have h2 : a < k := by omega
    simp [Memory.read, h1, h2]

theorem Memory.read_write_above : ∀ (m : Memory) (a : Nat) (b : Byte) (lo x : Nat), Memory.above m lo = true →
    Memory.read (Memory.write m a b) x = if x = a then b else Memory.read m x
  | [], a, b, lo, x, _ => by
    by_cases hb : b = 0#8
    · by_cases hx : x = a <;> simp [Memory.write, hb, Memory.read]
    · by_cases hx : x = a <;> simp [Memory.write, hb, Memory.read, hx]
  | (k, c) :: t, a, b, lo, x, w => by
    simp [Memory.above] at w
    have ih := Memory.read_write_above t a b (k + 1) x w.2
    unfold Memory.write
    by_cases h1 : a < k
    · simp only [h1, if_true]
      by_cases hb : b = 0#8
      · simp only [hb, if_true]
        by_cases hx : x = a
        · subst hx
          have : ¬ x = k := by omega
          simp [Memory.read, this, h1]
        · simp [hx]
      · simp only [hb, if_false]
        by_cases hx : x = a
        · simp [Memory.read, hx]
        · by_cases hxa : x < a
          · have h2 : ¬ x = k := by omega
            have h3 : x < k := by omega
            simp [Memory.read, hx, hxa, h2, h3]
          · simp [Memory.read, hx, hxa]
    · simp only [h1, if_false]
      by_cases h2 : a = k
      · subst h2
        simp only [if_true]
        by_cases hb : b = 0#8
        · simp only [hb, if_true]
          by_cases hx : x = a
          · subst hx
            simpa using Memory.read_below t (x + 1) x w.2 (by omega)
          · by_cases hxa : x < a
            · simpa [Memory.read, hx, hxa] using Memory.read_below t (a + 1) x w.2 (by omega)
            · simp [Memory.read, hx, hxa]
        · by_cases hx : x = a
          · simp [Memory.read, hb, hx]
          · simp [Memory.read, hb, hx]
      · simp only [h2, if_false]
        by_cases hx : x = k
        · have : ¬ x = a := by omega
          simp [Memory.read, hx]
          intro h; omega
        · by_cases hxk : x < k
          · have : ¬ x = a := by omega
            simp [Memory.read, hx, hxk, this]
          · simpa [Memory.read, hx, hxk] using ih

/-- A read after a write of one byte gives what was written there, and every other byte as before. -/
theorem Memory.read_write (m : Memory) (a x : Nat) (b : Byte) (h : Memory.wf m = true) :
    Memory.read (Memory.write m a b) x = if x = a then b else Memory.read m x :=
  Memory.read_write_above m a b 0 x h

/-- Writing at places leaves every other byte as it was. -/
theorem Memory.read_writeAt_other : ∀ (l : List (Nat × Byte)) (m : Memory) (x : Nat), Memory.wf m = true →
    x ∉ l.map (·.1) → Memory.read (Memory.writeAt m l) x = Memory.read m x
  | [], _, _, _, _ => rfl
  | (a, b) :: t, m, x, h, hx => by
    simp at hx
    have hne : ¬ x = a := hx.1
    rw [show Memory.writeAt m ((a, b) :: t) = Memory.writeAt (Memory.write m a b) t from rfl,
      Memory.read_writeAt_other t _ x (Memory.wf_write m a b h) (by simpa using hx.2), Memory.read_write m a x b h]
    simp [hne]

/-- Of writes at places that are all different, each byte reads as it was written. -/
theorem Memory.read_writeAt_mem : ∀ (l : List (Nat × Byte)) (m : Memory) (a : Nat) (b : Byte), Memory.wf m = true →
    (l.map (·.1)).Nodup → (a, b) ∈ l → Memory.read (Memory.writeAt m l) a = b
  | [], _, _, _, _, _, hm => by simp at hm
  | (c, d) :: t, m, a, b, h, hn, hm => by
    simp only [List.map_cons, List.nodup_cons] at hn
    rw [show Memory.writeAt m ((c, d) :: t) = Memory.writeAt (Memory.write m c d) t from rfl]
    rcases List.mem_cons.1 hm with e | e
    · cases e
      rw [Memory.read_writeAt_other t _ c (Memory.wf_write m c d h) hn.1, Memory.read_write m c c d h]
      simp
    · exact Memory.read_writeAt_mem t _ a b (Memory.wf_write m c d h) hn.2 e

end Sys2Proof.Machine
end

