-- ==== Sys2Proof/Laws/State.lean ====
section
/-! SUPPORT. What each update leaves of a strand and of the state: one lemma per field. -/

namespace Sys2Proof.Machine

/-! ### Strand.sset -/

@[simp] theorem Strand.sset_grid (t : Strand) (r : Nat) (x : Word) : (t.sset r x).grid = t.grid := rfl
@[simp] theorem Strand.sset_block (t : Strand) (r : Nat) (x : Word) : (t.sset r x).block = t.block := rfl
@[simp] theorem Strand.sset_idx (t : Strand) (r : Nat) (x : Word) : (t.sset r x).idx = t.idx := rfl
@[simp] theorem Strand.sset_slot (t : Strand) (r : Nat) (x : Word) : (t.sset r x).slot = t.slot := rfl
@[simp] theorem Strand.sset_present (t : Strand) (r : Nat) (x : Word) : (t.sset r x).present = t.present := rfl
@[simp] theorem Strand.sset_pc (t : Strand) (r : Nat) (x : Word) : (t.sset r x).pc = t.pc := rfl
@[simp] theorem Strand.sset_v (t : Strand) (r : Nat) (x : Word) : (t.sset r x).v = t.v := rfl
@[simp] theorem Strand.sset_m (t : Strand) (r : Nat) (x : Word) : (t.sset r x).m = t.m := rfl
@[simp] theorem Strand.sset_k (t : Strand) (r : Nat) (x : Word) : (t.sset r x).k = t.k := rfl
@[simp] theorem Strand.sset_clause (t : Strand) (r : Nat) (x : Word) : (t.sset r x).clause = t.clause := rfl
@[simp] theorem Strand.sset_trapvec (t : Strand) (r : Nat) (x : Word) : (t.sset r x).trapvec = t.trapvec := rfl
@[simp] theorem Strand.sset_trapret (t : Strand) (r : Nat) (x : Word) : (t.sset r x).trapret = t.trapret := rfl
@[simp] theorem Strand.sset_trapcause (t : Strand) (r : Nat) (x : Word) : (t.sset r x).trapcause = t.trapcause := rfl
@[simp] theorem Strand.sset_trapmask (t : Strand) (r : Nat) (x : Word) : (t.sset r x).trapmask = t.trapmask := rfl
@[simp] theorem Strand.sset_cqsel (t : Strand) (r : Nat) (x : Word) : (t.sset r x).cqsel = t.cqsel := rfl
@[simp] theorem Strand.sset_resumes (t : Strand) (r : Nat) (x : Word) : (t.sset r x).resumes = t.resumes := rfl
@[simp] theorem Strand.sset_owed (t : Strand) (r : Nat) (x : Word) : (t.sset r x).owed = t.owed := rfl
@[simp] theorem Strand.sset_ops (t : Strand) (r : Nat) (x : Word) : (t.sset r x).ops = t.ops := rfl
@[simp] theorem Strand.sset_serial (t : Strand) (r : Nat) (x : Word) : (t.sset r x).serial = t.serial := rfl
@[simp] theorem Strand.sset_status (t : Strand) (r : Nat) (x : Word) : (t.sset r x).status = t.status := rfl
@[simp] theorem Strand.sset_attempt (t : Strand) (r : Nat) (x : Word) : (t.sset r x).attempt = t.attempt := rfl
@[simp] theorem Strand.sset_promo (t : Strand) (r : Nat) (x : Word) : (t.sset r x).promo = t.promo := rfl
@[simp] theorem Strand.sset_yld (t : Strand) (r : Nat) (x : Word) : (t.sset r x).yld = t.yld := rfl
@[simp] theorem Strand.sset_age (t : Strand) (r : Nat) (x : Word) : (t.sset r x).age = t.age := rfl
@[simp] theorem Strand.sset_behind (t : Strand) (r : Nat) (x : Word) : (t.sset r x).behind = t.behind := rfl
@[simp] theorem Strand.sset_bkpt (t : Strand) (r : Nat) (x : Word) : (t.sset r x).bkpt = t.bkpt := rfl
@[simp] theorem Strand.sset_poisonTags (t : Strand) (r : Nat) (x : Word) : (t.sset r x).poisonTags = t.poisonTags := rfl
@[simp] theorem Strand.sset_fetched (t : Strand) (r : Nat) (x : Word) : (t.sset r x).fetched = t.fetched := rfl

/-! ### Strand.sset64 -/

@[simp] theorem Strand.sset64_grid (t : Strand) (r : Nat) (x : DWord) : (t.sset64 r x).grid = t.grid := rfl
@[simp] theorem Strand.sset64_block (t : Strand) (r : Nat) (x : DWord) : (t.sset64 r x).block = t.block := rfl
@[simp] theorem Strand.sset64_idx (t : Strand) (r : Nat) (x : DWord) : (t.sset64 r x).idx = t.idx := rfl
@[simp] theorem Strand.sset64_slot (t : Strand) (r : Nat) (x : DWord) : (t.sset64 r x).slot = t.slot := rfl
@[simp] theorem Strand.sset64_present (t : Strand) (r : Nat) (x : DWord) : (t.sset64 r x).present = t.present := rfl
@[simp] theorem Strand.sset64_pc (t : Strand) (r : Nat) (x : DWord) : (t.sset64 r x).pc = t.pc := rfl
@[simp] theorem Strand.sset64_v (t : Strand) (r : Nat) (x : DWord) : (t.sset64 r x).v = t.v := rfl
@[simp] theorem Strand.sset64_m (t : Strand) (r : Nat) (x : DWord) : (t.sset64 r x).m = t.m := rfl
@[simp] theorem Strand.sset64_k (t : Strand) (r : Nat) (x : DWord) : (t.sset64 r x).k = t.k := rfl
@[simp] theorem Strand.sset64_clause (t : Strand) (r : Nat) (x : DWord) : (t.sset64 r x).clause = t.clause := rfl
@[simp] theorem Strand.sset64_trapvec (t : Strand) (r : Nat) (x : DWord) : (t.sset64 r x).trapvec = t.trapvec := rfl
@[simp] theorem Strand.sset64_trapret (t : Strand) (r : Nat) (x : DWord) : (t.sset64 r x).trapret = t.trapret := rfl
@[simp] theorem Strand.sset64_trapcause (t : Strand) (r : Nat) (x : DWord) : (t.sset64 r x).trapcause = t.trapcause := rfl
@[simp] theorem Strand.sset64_trapmask (t : Strand) (r : Nat) (x : DWord) : (t.sset64 r x).trapmask = t.trapmask := rfl
@[simp] theorem Strand.sset64_cqsel (t : Strand) (r : Nat) (x : DWord) : (t.sset64 r x).cqsel = t.cqsel := rfl
@[simp] theorem Strand.sset64_resumes (t : Strand) (r : Nat) (x : DWord) : (t.sset64 r x).resumes = t.resumes := rfl
@[simp] theorem Strand.sset64_owed (t : Strand) (r : Nat) (x : DWord) : (t.sset64 r x).owed = t.owed := rfl
@[simp] theorem Strand.sset64_ops (t : Strand) (r : Nat) (x : DWord) : (t.sset64 r x).ops = t.ops := rfl
@[simp] theorem Strand.sset64_serial (t : Strand) (r : Nat) (x : DWord) : (t.sset64 r x).serial = t.serial := rfl
@[simp] theorem Strand.sset64_status (t : Strand) (r : Nat) (x : DWord) : (t.sset64 r x).status = t.status := rfl
@[simp] theorem Strand.sset64_attempt (t : Strand) (r : Nat) (x : DWord) : (t.sset64 r x).attempt = t.attempt := rfl
@[simp] theorem Strand.sset64_promo (t : Strand) (r : Nat) (x : DWord) : (t.sset64 r x).promo = t.promo := rfl
@[simp] theorem Strand.sset64_yld (t : Strand) (r : Nat) (x : DWord) : (t.sset64 r x).yld = t.yld := rfl
@[simp] theorem Strand.sset64_age (t : Strand) (r : Nat) (x : DWord) : (t.sset64 r x).age = t.age := rfl
@[simp] theorem Strand.sset64_behind (t : Strand) (r : Nat) (x : DWord) : (t.sset64 r x).behind = t.behind := rfl
@[simp] theorem Strand.sset64_bkpt (t : Strand) (r : Nat) (x : DWord) : (t.sset64 r x).bkpt = t.bkpt := rfl
@[simp] theorem Strand.sset64_poisonTags (t : Strand) (r : Nat) (x : DWord) : (t.sset64 r x).poisonTags = t.poisonTags := rfl
@[simp] theorem Strand.sset64_fetched (t : Strand) (r : Nat) (x : DWord) : (t.sset64 r x).fetched = t.fetched := rfl

/-! ### Strand.vset -/

@[simp] theorem Strand.vset_grid (t : Strand) (r : Nat) (x : List Word) : (t.vset r x).grid = t.grid := rfl
@[simp] theorem Strand.vset_block (t : Strand) (r : Nat) (x : List Word) : (t.vset r x).block = t.block := rfl
@[simp] theorem Strand.vset_idx (t : Strand) (r : Nat) (x : List Word) : (t.vset r x).idx = t.idx := rfl
@[simp] theorem Strand.vset_slot (t : Strand) (r : Nat) (x : List Word) : (t.vset r x).slot = t.slot := rfl
@[simp] theorem Strand.vset_present (t : Strand) (r : Nat) (x : List Word) : (t.vset r x).present = t.present := rfl
@[simp] theorem Strand.vset_pc (t : Strand) (r : Nat) (x : List Word) : (t.vset r x).pc = t.pc := rfl
@[simp] theorem Strand.vset_s (t : Strand) (r : Nat) (x : List Word) : (t.vset r x).s = t.s := rfl
@[simp] theorem Strand.vset_m (t : Strand) (r : Nat) (x : List Word) : (t.vset r x).m = t.m := rfl
@[simp] theorem Strand.vset_k (t : Strand) (r : Nat) (x : List Word) : (t.vset r x).k = t.k := rfl
@[simp] theorem Strand.vset_clause (t : Strand) (r : Nat) (x : List Word) : (t.vset r x).clause = t.clause := rfl
@[simp] theorem Strand.vset_trapvec (t : Strand) (r : Nat) (x : List Word) : (t.vset r x).trapvec = t.trapvec := rfl
@[simp] theorem Strand.vset_trapret (t : Strand) (r : Nat) (x : List Word) : (t.vset r x).trapret = t.trapret := rfl
@[simp] theorem Strand.vset_trapcause (t : Strand) (r : Nat) (x : List Word) : (t.vset r x).trapcause = t.trapcause := rfl
@[simp] theorem Strand.vset_trapmask (t : Strand) (r : Nat) (x : List Word) : (t.vset r x).trapmask = t.trapmask := rfl
@[simp] theorem Strand.vset_cqsel (t : Strand) (r : Nat) (x : List Word) : (t.vset r x).cqsel = t.cqsel := rfl
@[simp] theorem Strand.vset_resumes (t : Strand) (r : Nat) (x : List Word) : (t.vset r x).resumes = t.resumes := rfl
@[simp] theorem Strand.vset_marks (t : Strand) (r : Nat) (x : List Word) : (t.vset r x).marks = t.marks := rfl
@[simp] theorem Strand.vset_owed (t : Strand) (r : Nat) (x : List Word) : (t.vset r x).owed = t.owed := rfl
@[simp] theorem Strand.vset_ops (t : Strand) (r : Nat) (x : List Word) : (t.vset r x).ops = t.ops := rfl
@[simp] theorem Strand.vset_serial (t : Strand) (r : Nat) (x : List Word) : (t.vset r x).serial = t.serial := rfl
@[simp] theorem Strand.vset_status (t : Strand) (r : Nat) (x : List Word) : (t.vset r x).status = t.status := rfl
@[simp] theorem Strand.vset_attempt (t : Strand) (r : Nat) (x : List Word) : (t.vset r x).attempt = t.attempt := rfl
@[simp] theorem Strand.vset_promo (t : Strand) (r : Nat) (x : List Word) : (t.vset r x).promo = t.promo := rfl
@[simp] theorem Strand.vset_yld (t : Strand) (r : Nat) (x : List Word) : (t.vset r x).yld = t.yld := rfl
@[simp] theorem Strand.vset_age (t : Strand) (r : Nat) (x : List Word) : (t.vset r x).age = t.age := rfl
@[simp] theorem Strand.vset_behind (t : Strand) (r : Nat) (x : List Word) : (t.vset r x).behind = t.behind := rfl
@[simp] theorem Strand.vset_bkpt (t : Strand) (r : Nat) (x : List Word) : (t.vset r x).bkpt = t.bkpt := rfl
@[simp] theorem Strand.vset_rfErr (t : Strand) (r : Nat) (x : List Word) : (t.vset r x).rfErr = t.rfErr := rfl
@[simp] theorem Strand.vset_poisonTags (t : Strand) (r : Nat) (x : List Word) : (t.vset r x).poisonTags = t.poisonTags := rfl
@[simp] theorem Strand.vset_fetched (t : Strand) (r : Nat) (x : List Word) : (t.vset r x).fetched = t.fetched := rfl

/-! ### Strand.vsetLane -/

@[simp] theorem Strand.vsetLane_grid (t : Strand) (r lane : Nat) (x : Word) : (t.vsetLane r lane x).grid = t.grid := rfl
@[simp] theorem Strand.vsetLane_block (t : Strand) (r lane : Nat) (x : Word) : (t.vsetLane r lane x).block = t.block := rfl
@[simp] theorem Strand.vsetLane_idx (t : Strand) (r lane : Nat) (x : Word) : (t.vsetLane r lane x).idx = t.idx := rfl
@[simp] theorem Strand.vsetLane_slot (t : Strand) (r lane : Nat) (x : Word) : (t.vsetLane r lane x).slot = t.slot := rfl
@[simp] theorem Strand.vsetLane_present (t : Strand) (r lane : Nat) (x : Word) : (t.vsetLane r lane x).present = t.present := rfl
@[simp] theorem Strand.vsetLane_pc (t : Strand) (r lane : Nat) (x : Word) : (t.vsetLane r lane x).pc = t.pc := rfl
@[simp] theorem Strand.vsetLane_s (t : Strand) (r lane : Nat) (x : Word) : (t.vsetLane r lane x).s = t.s := rfl
@[simp] theorem Strand.vsetLane_m (t : Strand) (r lane : Nat) (x : Word) : (t.vsetLane r lane x).m = t.m := rfl
@[simp] theorem Strand.vsetLane_k (t : Strand) (r lane : Nat) (x : Word) : (t.vsetLane r lane x).k = t.k := rfl
@[simp] theorem Strand.vsetLane_clause (t : Strand) (r lane : Nat) (x : Word) : (t.vsetLane r lane x).clause = t.clause := rfl
@[simp] theorem Strand.vsetLane_trapvec (t : Strand) (r lane : Nat) (x : Word) : (t.vsetLane r lane x).trapvec = t.trapvec := rfl
@[simp] theorem Strand.vsetLane_trapret (t : Strand) (r lane : Nat) (x : Word) : (t.vsetLane r lane x).trapret = t.trapret := rfl
@[simp] theorem Strand.vsetLane_trapcause (t : Strand) (r lane : Nat) (x : Word) : (t.vsetLane r lane x).trapcause = t.trapcause := rfl
@[simp] theorem Strand.vsetLane_trapmask (t : Strand) (r lane : Nat) (x : Word) : (t.vsetLane r lane x).trapmask = t.trapmask := rfl
@[simp] theorem Strand.vsetLane_cqsel (t : Strand) (r lane : Nat) (x : Word) : (t.vsetLane r lane x).cqsel = t.cqsel := rfl
@[simp] theorem Strand.vsetLane_resumes (t : Strand) (r lane : Nat) (x : Word) : (t.vsetLane r lane x).resumes = t.resumes := rfl
@[simp] theorem Strand.vsetLane_marks (t : Strand) (r lane : Nat) (x : Word) : (t.vsetLane r lane x).marks = t.marks := rfl
@[simp] theorem Strand.vsetLane_owed (t : Strand) (r lane : Nat) (x : Word) : (t.vsetLane r lane x).owed = t.owed := rfl
@[simp] theorem Strand.vsetLane_ops (t : Strand) (r lane : Nat) (x : Word) : (t.vsetLane r lane x).ops = t.ops := rfl
@[simp] theorem Strand.vsetLane_serial (t : Strand) (r lane : Nat) (x : Word) : (t.vsetLane r lane x).serial = t.serial := rfl
@[simp] theorem Strand.vsetLane_status (t : Strand) (r lane : Nat) (x : Word) : (t.vsetLane r lane x).status = t.status := rfl
@[simp] theorem Strand.vsetLane_attempt (t : Strand) (r lane : Nat) (x : Word) : (t.vsetLane r lane x).attempt = t.attempt := rfl
@[simp] theorem Strand.vsetLane_promo (t : Strand) (r lane : Nat) (x : Word) : (t.vsetLane r lane x).promo = t.promo := rfl
@[simp] theorem Strand.vsetLane_yld (t : Strand) (r lane : Nat) (x : Word) : (t.vsetLane r lane x).yld = t.yld := rfl
@[simp] theorem Strand.vsetLane_age (t : Strand) (r lane : Nat) (x : Word) : (t.vsetLane r lane x).age = t.age := rfl
@[simp] theorem Strand.vsetLane_behind (t : Strand) (r lane : Nat) (x : Word) : (t.vsetLane r lane x).behind = t.behind := rfl
@[simp] theorem Strand.vsetLane_bkpt (t : Strand) (r lane : Nat) (x : Word) : (t.vsetLane r lane x).bkpt = t.bkpt := rfl
@[simp] theorem Strand.vsetLane_poisonTags (t : Strand) (r lane : Nat) (x : Word) : (t.vsetLane r lane x).poisonTags = t.poisonTags := rfl
@[simp] theorem Strand.vsetLane_fetched (t : Strand) (r lane : Nat) (x : Word) : (t.vsetLane r lane x).fetched = t.fetched := rfl

/-! ### Strand.mset -/

@[simp] theorem Strand.mset_grid (t : Strand) (r : Nat) (x : BitVec 64) : (t.mset r x).grid = t.grid := rfl
@[simp] theorem Strand.mset_block (t : Strand) (r : Nat) (x : BitVec 64) : (t.mset r x).block = t.block := rfl
@[simp] theorem Strand.mset_idx (t : Strand) (r : Nat) (x : BitVec 64) : (t.mset r x).idx = t.idx := rfl
@[simp] theorem Strand.mset_slot (t : Strand) (r : Nat) (x : BitVec 64) : (t.mset r x).slot = t.slot := rfl
@[simp] theorem Strand.mset_present (t : Strand) (r : Nat) (x : BitVec 64) : (t.mset r x).present = t.present := rfl
@[simp] theorem Strand.mset_pc (t : Strand) (r : Nat) (x : BitVec 64) : (t.mset r x).pc = t.pc := rfl
@[simp] theorem Strand.mset_v (t : Strand) (r : Nat) (x : BitVec 64) : (t.mset r x).v = t.v := rfl
@[simp] theorem Strand.mset_s (t : Strand) (r : Nat) (x : BitVec 64) : (t.mset r x).s = t.s := rfl
@[simp] theorem Strand.mset_k (t : Strand) (r : Nat) (x : BitVec 64) : (t.mset r x).k = t.k := rfl
@[simp] theorem Strand.mset_clause (t : Strand) (r : Nat) (x : BitVec 64) : (t.mset r x).clause = t.clause := rfl
@[simp] theorem Strand.mset_trapvec (t : Strand) (r : Nat) (x : BitVec 64) : (t.mset r x).trapvec = t.trapvec := rfl
@[simp] theorem Strand.mset_trapret (t : Strand) (r : Nat) (x : BitVec 64) : (t.mset r x).trapret = t.trapret := rfl
@[simp] theorem Strand.mset_trapcause (t : Strand) (r : Nat) (x : BitVec 64) : (t.mset r x).trapcause = t.trapcause := rfl
@[simp] theorem Strand.mset_trapmask (t : Strand) (r : Nat) (x : BitVec 64) : (t.mset r x).trapmask = t.trapmask := rfl
@[simp] theorem Strand.mset_cqsel (t : Strand) (r : Nat) (x : BitVec 64) : (t.mset r x).cqsel = t.cqsel := rfl
@[simp] theorem Strand.mset_resumes (t : Strand) (r : Nat) (x : BitVec 64) : (t.mset r x).resumes = t.resumes := rfl
@[simp] theorem Strand.mset_marks (t : Strand) (r : Nat) (x : BitVec 64) : (t.mset r x).marks = t.marks := rfl
@[simp] theorem Strand.mset_owed (t : Strand) (r : Nat) (x : BitVec 64) : (t.mset r x).owed = t.owed := rfl
@[simp] theorem Strand.mset_ops (t : Strand) (r : Nat) (x : BitVec 64) : (t.mset r x).ops = t.ops := rfl
@[simp] theorem Strand.mset_serial (t : Strand) (r : Nat) (x : BitVec 64) : (t.mset r x).serial = t.serial := rfl
@[simp] theorem Strand.mset_status (t : Strand) (r : Nat) (x : BitVec 64) : (t.mset r x).status = t.status := rfl
@[simp] theorem Strand.mset_attempt (t : Strand) (r : Nat) (x : BitVec 64) : (t.mset r x).attempt = t.attempt := rfl
@[simp] theorem Strand.mset_promo (t : Strand) (r : Nat) (x : BitVec 64) : (t.mset r x).promo = t.promo := rfl
@[simp] theorem Strand.mset_yld (t : Strand) (r : Nat) (x : BitVec 64) : (t.mset r x).yld = t.yld := rfl
@[simp] theorem Strand.mset_age (t : Strand) (r : Nat) (x : BitVec 64) : (t.mset r x).age = t.age := rfl
@[simp] theorem Strand.mset_behind (t : Strand) (r : Nat) (x : BitVec 64) : (t.mset r x).behind = t.behind := rfl
@[simp] theorem Strand.mset_bkpt (t : Strand) (r : Nat) (x : BitVec 64) : (t.mset r x).bkpt = t.bkpt := rfl
@[simp] theorem Strand.mset_poisonTags (t : Strand) (r : Nat) (x : BitVec 64) : (t.mset r x).poisonTags = t.poisonTags := rfl
@[simp] theorem Strand.mset_fetched (t : Strand) (r : Nat) (x : BitVec 64) : (t.mset r x).fetched = t.fetched := rfl

/-! ### Strand.vput -/

@[simp] theorem Strand.vput_grid (t : Strand) (r : Nat) (act : BitVec 64) (z : Bool) (g : Nat → Word) : (t.vput r act z g).grid = t.grid := rfl
@[simp] theorem Strand.vput_block (t : Strand) (r : Nat) (act : BitVec 64) (z : Bool) (g : Nat → Word) : (t.vput r act z g).block = t.block := rfl
@[simp] theorem Strand.vput_idx (t : Strand) (r : Nat) (act : BitVec 64) (z : Bool) (g : Nat → Word) : (t.vput r act z g).idx = t.idx := rfl
@[simp] theorem Strand.vput_slot (t : Strand) (r : Nat) (act : BitVec 64) (z : Bool) (g : Nat → Word) : (t.vput r act z g).slot = t.slot := rfl
@[simp] theorem Strand.vput_present (t : Strand) (r : Nat) (act : BitVec 64) (z : Bool) (g : Nat → Word) : (t.vput r act z g).present = t.present := rfl
@[simp] theorem Strand.vput_pc (t : Strand) (r : Nat) (act : BitVec 64) (z : Bool) (g : Nat → Word) : (t.vput r act z g).pc = t.pc := rfl
@[simp] theorem Strand.vput_s (t : Strand) (r : Nat) (act : BitVec 64) (z : Bool) (g : Nat → Word) : (t.vput r act z g).s = t.s := rfl
@[simp] theorem Strand.vput_m (t : Strand) (r : Nat) (act : BitVec 64) (z : Bool) (g : Nat → Word) : (t.vput r act z g).m = t.m := rfl
@[simp] theorem Strand.vput_k (t : Strand) (r : Nat) (act : BitVec 64) (z : Bool) (g : Nat → Word) : (t.vput r act z g).k = t.k := rfl
@[simp] theorem Strand.vput_clause (t : Strand) (r : Nat) (act : BitVec 64) (z : Bool) (g : Nat → Word) : (t.vput r act z g).clause = t.clause := rfl
@[simp] theorem Strand.vput_trapvec (t : Strand) (r : Nat) (act : BitVec 64) (z : Bool) (g : Nat → Word) : (t.vput r act z g).trapvec = t.trapvec := rfl
@[simp] theorem Strand.vput_trapret (t : Strand) (r : Nat) (act : BitVec 64) (z : Bool) (g : Nat → Word) : (t.vput r act z g).trapret = t.trapret := rfl
@[simp] theorem Strand.vput_trapcause (t : Strand) (r : Nat) (act : BitVec 64) (z : Bool) (g : Nat → Word) : (t.vput r act z g).trapcause = t.trapcause := rfl
@[simp] theorem Strand.vput_trapmask (t : Strand) (r : Nat) (act : BitVec 64) (z : Bool) (g : Nat → Word) : (t.vput r act z g).trapmask = t.trapmask := rfl
@[simp] theorem Strand.vput_cqsel (t : Strand) (r : Nat) (act : BitVec 64) (z : Bool) (g : Nat → Word) : (t.vput r act z g).cqsel = t.cqsel := rfl
@[simp] theorem Strand.vput_resumes (t : Strand) (r : Nat) (act : BitVec 64) (z : Bool) (g : Nat → Word) : (t.vput r act z g).resumes = t.resumes := rfl
@[simp] theorem Strand.vput_marks (t : Strand) (r : Nat) (act : BitVec 64) (z : Bool) (g : Nat → Word) : (t.vput r act z g).marks = t.marks := rfl
@[simp] theorem Strand.vput_owed (t : Strand) (r : Nat) (act : BitVec 64) (z : Bool) (g : Nat → Word) : (t.vput r act z g).owed = t.owed := rfl
@[simp] theorem Strand.vput_ops (t : Strand) (r : Nat) (act : BitVec 64) (z : Bool) (g : Nat → Word) : (t.vput r act z g).ops = t.ops := rfl
@[simp] theorem Strand.vput_serial (t : Strand) (r : Nat) (act : BitVec 64) (z : Bool) (g : Nat → Word) : (t.vput r act z g).serial = t.serial := rfl
@[simp] theorem Strand.vput_status (t : Strand) (r : Nat) (act : BitVec 64) (z : Bool) (g : Nat → Word) : (t.vput r act z g).status = t.status := rfl
@[simp] theorem Strand.vput_attempt (t : Strand) (r : Nat) (act : BitVec 64) (z : Bool) (g : Nat → Word) : (t.vput r act z g).attempt = t.attempt := rfl
@[simp] theorem Strand.vput_promo (t : Strand) (r : Nat) (act : BitVec 64) (z : Bool) (g : Nat → Word) : (t.vput r act z g).promo = t.promo := rfl
@[simp] theorem Strand.vput_yld (t : Strand) (r : Nat) (act : BitVec 64) (z : Bool) (g : Nat → Word) : (t.vput r act z g).yld = t.yld := rfl
@[simp] theorem Strand.vput_age (t : Strand) (r : Nat) (act : BitVec 64) (z : Bool) (g : Nat → Word) : (t.vput r act z g).age = t.age := rfl
@[simp] theorem Strand.vput_behind (t : Strand) (r : Nat) (act : BitVec 64) (z : Bool) (g : Nat → Word) : (t.vput r act z g).behind = t.behind := rfl
@[simp] theorem Strand.vput_bkpt (t : Strand) (r : Nat) (act : BitVec 64) (z : Bool) (g : Nat → Word) : (t.vput r act z g).bkpt = t.bkpt := rfl
@[simp] theorem Strand.vput_poisonTags (t : Strand) (r : Nat) (act : BitVec 64) (z : Bool) (g : Nat → Word) : (t.vput r act z g).poisonTags = t.poisonTags := rfl
@[simp] theorem Strand.vput_fetched (t : Strand) (r : Nat) (act : BitVec 64) (z : Bool) (g : Nat → Word) : (t.vput r act z g).fetched = t.fetched := rfl

/-! ### Strand.moved -/

@[simp] theorem Strand.moved_grid (a b : Strand) : (a.moved b).grid = a.grid := rfl
@[simp] theorem Strand.moved_block (a b : Strand) : (a.moved b).block = a.block := rfl
@[simp] theorem Strand.moved_idx (a b : Strand) : (a.moved b).idx = a.idx := rfl
@[simp] theorem Strand.moved_slot (a b : Strand) : (a.moved b).slot = a.slot := rfl
@[simp] theorem Strand.moved_present (a b : Strand) : (a.moved b).present = a.present := rfl
@[simp] theorem Strand.moved_pc (a b : Strand) : (a.moved b).pc = b.pc := rfl
@[simp] theorem Strand.moved_v (a b : Strand) : (a.moved b).v = a.v := rfl
@[simp] theorem Strand.moved_s (a b : Strand) : (a.moved b).s = a.s := rfl
@[simp] theorem Strand.moved_m (a b : Strand) : (a.moved b).m = a.m := rfl
@[simp] theorem Strand.moved_k (a b : Strand) : (a.moved b).k = a.k := rfl
@[simp] theorem Strand.moved_clause (a b : Strand) : (a.moved b).clause = b.clause := rfl
@[simp] theorem Strand.moved_trapvec (a b : Strand) : (a.moved b).trapvec = a.trapvec := rfl
@[simp] theorem Strand.moved_trapret (a b : Strand) : (a.moved b).trapret = a.trapret := rfl
@[simp] theorem Strand.moved_trapcause (a b : Strand) : (a.moved b).trapcause = a.trapcause := rfl
@[simp] theorem Strand.moved_trapmask (a b : Strand) : (a.moved b).trapmask = a.trapmask := rfl
@[simp] theorem Strand.moved_cqsel (a b : Strand) : (a.moved b).cqsel = a.cqsel := rfl
@[simp] theorem Strand.moved_resumes (a b : Strand) : (a.moved b).resumes = a.resumes := rfl
@[simp] theorem Strand.moved_marks (a b : Strand) : (a.moved b).marks = a.marks := rfl
@[simp] theorem Strand.moved_owed (a b : Strand) : (a.moved b).owed = a.owed := rfl
@[simp] theorem Strand.moved_ops (a b : Strand) : (a.moved b).ops = a.ops := rfl
@[simp] theorem Strand.moved_serial (a b : Strand) : (a.moved b).serial = a.serial := rfl
@[simp] theorem Strand.moved_status (a b : Strand) : (a.moved b).status = b.status := rfl
@[simp] theorem Strand.moved_attempt (a b : Strand) : (a.moved b).attempt = b.attempt := rfl
@[simp] theorem Strand.moved_promo (a b : Strand) : (a.moved b).promo = b.promo := rfl
@[simp] theorem Strand.moved_yld (a b : Strand) : (a.moved b).yld = b.yld := rfl
@[simp] theorem Strand.moved_age (a b : Strand) : (a.moved b).age = b.age := rfl
@[simp] theorem Strand.moved_behind (a b : Strand) : (a.moved b).behind = b.behind := rfl
@[simp] theorem Strand.moved_bkpt (a b : Strand) : (a.moved b).bkpt = b.bkpt := rfl
@[simp] theorem Strand.moved_rfErr (a b : Strand) : (a.moved b).rfErr = a.rfErr := rfl
@[simp] theorem Strand.moved_poisonTags (a b : Strand) : (a.moved b).poisonTags = a.poisonTags := rfl
@[simp] theorem Strand.moved_fetched (a b : Strand) : (a.moved b).fetched = b.fetched := rfl

/-! ### endClause -/

@[simp] theorem endClause_blk (target : DWord) (y : Bool) (s : State) : (endClause target y s).blk = s.blk := rfl
@[simp] theorem endClause_grd (target : DWord) (y : Bool) (s : State) : (endClause target y s).grd = s.grd := rfl
@[simp] theorem endClause_wld (target : DWord) (y : Bool) (s : State) : (endClause target y s).wld = s.wld := rfl
@[simp] theorem endClause_blocks (target : DWord) (y : Bool) (s : State) : (endClause target y s).blocks = s.blocks := rfl
@[simp] theorem endClause_grids (target : DWord) (y : Bool) (s : State) : (endClause target y s).grids = s.grids := rfl
@[simp] theorem endClause_worlds (target : DWord) (y : Bool) (s : State) : (endClause target y s).worlds = s.worlds := rfl
@[simp] theorem endClause_reserves (target : DWord) (y : Bool) (s : State) : (endClause target y s).reserves = s.reserves := rfl
@[simp] theorem endClause_anonRoot (target : DWord) (y : Bool) (s : State) : (endClause target y s).anonRoot = s.anonRoot := rfl
@[simp] theorem endClause_anonRoot2 (target : DWord) (y : Bool) (s : State) : (endClause target y s).anonRoot2 = s.anonRoot2 := rfl
@[simp] theorem endClause_mem (target : DWord) (y : Bool) (s : State) : (endClause target y s).mem = s.mem := rfl
@[simp] theorem endClause_poison (target : DWord) (y : Bool) (s : State) : (endClause target y s).poison = s.poison := rfl
@[simp] theorem endClause_lineKeys (target : DWord) (y : Bool) (s : State) : (endClause target y s).lineKeys = s.lineKeys := rfl
@[simp] theorem endClause_memTags (target : DWord) (y : Bool) (s : State) : (endClause target y s).memTags = s.memTags := rfl
@[simp] theorem endClause_l1 (target : DWord) (y : Bool) (s : State) : (endClause target y s).l1 = s.l1 := rfl
@[simp] theorem endClause_dups (target : DWord) (y : Bool) (s : State) : (endClause target y s).dups = s.dups := rfl
@[simp] theorem endClause_qnt (target : DWord) (y : Bool) (s : State) : (endClause target y s).qnt = s.qnt := rfl
@[simp] theorem endClause_tlb (target : DWord) (y : Bool) (s : State) : (endClause target y s).tlb = s.tlb := rfl
@[simp] theorem endClause_inter (target : DWord) (y : Bool) (s : State) : (endClause target y s).inter = s.inter := rfl
@[simp] theorem endClause_mixed (target : DWord) (y : Bool) (s : State) : (endClause target y s).mixed = s.mixed := rfl
@[simp] theorem endClause_slots (target : DWord) (y : Bool) (s : State) : (endClause target y s).slots = s.slots := rfl
@[simp] theorem endClause_queues (target : DWord) (y : Bool) (s : State) : (endClause target y s).queues = s.queues := rfl
@[simp] theorem endClause_readyPool (target : DWord) (y : Bool) (s : State) : (endClause target y s).readyPool = s.readyPool := rfl
@[simp] theorem endClause_readyWait (target : DWord) (y : Bool) (s : State) : (endClause target y s).readyWait = s.readyWait := rfl
@[simp] theorem endClause_watches (target : DWord) (y : Bool) (s : State) : (endClause target y s).watches = s.watches := rfl
@[simp] theorem endClause_origins (target : DWord) (y : Bool) (s : State) : (endClause target y s).origins = s.origins := rfl
@[simp] theorem endClause_registered (target : DWord) (y : Bool) (s : State) : (endClause target y s).registered = s.registered := rfl
@[simp] theorem endClause_kept (target : DWord) (y : Bool) (s : State) : (endClause target y s).kept = s.kept := rfl
@[simp] theorem endClause_slice (target : DWord) (y : Bool) (s : State) : (endClause target y s).slice = s.slice := rfl
@[simp] theorem endClause_ms (target : DWord) (y : Bool) (s : State) : (endClause target y s).ms = s.ms := rfl
@[simp] theorem endClause_leaseMs (target : DWord) (y : Bool) (s : State) : (endClause target y s).leaseMs = s.leaseMs := rfl
@[simp] theorem endClause_lapseMs (target : DWord) (y : Bool) (s : State) : (endClause target y s).lapseMs = s.lapseMs := rfl
@[simp] theorem endClause_handed (target : DWord) (y : Bool) (s : State) : (endClause target y s).handed = s.handed := rfl
@[simp] theorem endClause_packets (target : DWord) (y : Bool) (s : State) : (endClause target y s).packets = s.packets := rfl
@[simp] theorem endClause_posts (target : DWord) (y : Bool) (s : State) : (endClause target y s).posts = s.posts := rfl
@[simp] theorem endClause_hostSlots (target : DWord) (y : Bool) (s : State) : (endClause target y s).hostSlots = s.hostSlots := rfl
@[simp] theorem endClause_ringWrites (target : DWord) (y : Bool) (s : State) : (endClause target y s).ringWrites = s.ringWrites := rfl
@[simp] theorem endClause_turns (target : DWord) (y : Bool) (s : State) : (endClause target y s).turns = s.turns := rfl
@[simp] theorem endClause_posted (target : DWord) (y : Bool) (s : State) : (endClause target y s).posted = s.posted := rfl
@[simp] theorem endClause_placed (target : DWord) (y : Bool) (s : State) : (endClause target y s).placed = s.placed := rfl
@[simp] theorem endClause_anon (target : DWord) (y : Bool) (s : State) : (endClause target y s).anon = s.anon := rfl
@[simp] theorem endClause_failing (target : DWord) (y : Bool) (s : State) : (endClause target y s).failing = s.failing := rfl
@[simp] theorem endClause_clocks (target : DWord) (y : Bool) (s : State) : (endClause target y s).clocks = s.clocks := rfl
@[simp] theorem endClause_gated (target : DWord) (y : Bool) (s : State) : (endClause target y s).gated = s.gated := rfl
@[simp] theorem endClause_refNs (target : DWord) (y : Bool) (s : State) : (endClause target y s).refNs = s.refNs := rfl
@[simp] theorem endClause_portA (target : DWord) (y : Bool) (s : State) : (endClause target y s).portA = s.portA := rfl
@[simp] theorem endClause_portB (target : DWord) (y : Bool) (s : State) : (endClause target y s).portB = s.portB := rfl
@[simp] theorem endClause_leaseEpoch (target : DWord) (y : Bool) (s : State) : (endClause target y s).leaseEpoch = s.leaseEpoch := rfl
@[simp] theorem endClause_accepted (target : DWord) (y : Bool) (s : State) : (endClause target y s).accepted = s.accepted := rfl
@[simp] theorem endClause_locked (target : DWord) (y : Bool) (s : State) : (endClause target y s).locked = s.locked := rfl
@[simp] theorem endClause_peri (target : DWord) (y : Bool) (s : State) : (endClause target y s).peri = s.peri := rfl
@[simp] theorem endClause_links (target : DWord) (y : Bool) (s : State) : (endClause target y s).links = s.links := rfl
@[simp] theorem endClause_scrub (target : DWord) (y : Bool) (s : State) : (endClause target y s).scrub = s.scrub := rfl
@[simp] theorem endClause_scrubOn (target : DWord) (y : Bool) (s : State) : (endClause target y s).scrubOn = s.scrubOn := rfl
@[simp] theorem endClause_measured (target : DWord) (y : Bool) (s : State) : (endClause target y s).measured = s.measured := rfl
@[simp] theorem endClause_fused (target : DWord) (y : Bool) (s : State) : (endClause target y s).fused = s.fused := rfl
@[simp] theorem endClause_versions (target : DWord) (y : Bool) (s : State) : (endClause target y s).versions = s.versions := rfl
@[simp] theorem endClause_kem (target : DWord) (y : Bool) (s : State) : (endClause target y s).kem = s.kem := rfl
@[simp] theorem endClause_stage (target : DWord) (y : Bool) (s : State) : (endClause target y s).stage = s.stage := rfl
@[simp] theorem endClause_offline (target : DWord) (y : Bool) (s : State) : (endClause target y s).offline = s.offline := rfl
@[simp] theorem endClause_badStacks (target : DWord) (y : Bool) (s : State) : (endClause target y s).badStacks = s.badStacks := rfl
@[simp] theorem endClause_halted (target : DWord) (y : Bool) (s : State) : (endClause target y s).halted = s.halted := rfl
@[simp] theorem endClause_counts (target : DWord) (y : Bool) (s : State) : (endClause target y s).counts = s.counts := rfl
@[simp] theorem endClause_notices (target : DWord) (y : Bool) (s : State) : (endClause target y s).notices = s.notices := rfl
@[simp] theorem endClause_pendingRecords (target : DWord) (y : Bool) (s : State) : (endClause target y s).pendingRecords = s.pendingRecords := rfl
@[simp] theorem endClause_recordCount (target : DWord) (y : Bool) (s : State) : (endClause target y s).recordCount = s.recordCount := rfl
@[simp] theorem endClause_orrery (target : DWord) (y : Bool) (s : State) : (endClause target y s).orrery = s.orrery := rfl
@[simp] theorem endClause_rrLast (target : DWord) (y : Bool) (s : State) : (endClause target y s).rrLast = s.rrLast := rfl
@[simp] theorem endClause_passOn (target : DWord) (y : Bool) (s : State) : (endClause target y s).passOn = s.passOn := rfl
@[simp] theorem endClause_gridCount (target : DWord) (y : Bool) (s : State) : (endClause target y s).gridCount = s.gridCount := rfl
@[simp] theorem endClause_blockCount (target : DWord) (y : Bool) (s : State) : (endClause target y s).blockCount = s.blockCount := rfl
@[simp] theorem endClause_postCount (target : DWord) (y : Bool) (s : State) : (endClause target y s).postCount = s.postCount := rfl
@[simp] theorem endClause_packetCount (target : DWord) (y : Bool) (s : State) : (endClause target y s).packetCount = s.packetCount := rfl
@[simp] theorem endClause_epoch (target : DWord) (y : Bool) (s : State) : (endClause target y s).epoch = s.epoch := rfl
@[simp] theorem endClause_agenda (target : DWord) (y : Bool) (s : State) : (endClause target y s).agenda = s.agenda := rfl
@[simp] theorem endClause_free (target : DWord) (y : Bool) (s : State) : (endClause target y s).free = s.free := rfl
@[simp] theorem endClause_st_grid (target : DWord) (y : Bool) (s : State) : (endClause target y s).st.grid = s.st.grid := rfl
@[simp] theorem endClause_st_block (target : DWord) (y : Bool) (s : State) : (endClause target y s).st.block = s.st.block := rfl
@[simp] theorem endClause_st_idx (target : DWord) (y : Bool) (s : State) : (endClause target y s).st.idx = s.st.idx := rfl
@[simp] theorem endClause_st_slot (target : DWord) (y : Bool) (s : State) : (endClause target y s).st.slot = s.st.slot := rfl
@[simp] theorem endClause_st_present (target : DWord) (y : Bool) (s : State) : (endClause target y s).st.present = s.st.present := rfl
@[simp] theorem endClause_st_v (target : DWord) (y : Bool) (s : State) : (endClause target y s).st.v = s.st.v := rfl
@[simp] theorem endClause_st_s (target : DWord) (y : Bool) (s : State) : (endClause target y s).st.s = s.st.s := rfl
@[simp] theorem endClause_st_m (target : DWord) (y : Bool) (s : State) : (endClause target y s).st.m = s.st.m := rfl
@[simp] theorem endClause_st_k (target : DWord) (y : Bool) (s : State) : (endClause target y s).st.k = s.st.k := rfl
@[simp] theorem endClause_st_trapvec (target : DWord) (y : Bool) (s : State) : (endClause target y s).st.trapvec = s.st.trapvec := rfl
@[simp] theorem endClause_st_trapret (target : DWord) (y : Bool) (s : State) : (endClause target y s).st.trapret = s.st.trapret := rfl
@[simp] theorem endClause_st_trapcause (target : DWord) (y : Bool) (s : State) : (endClause target y s).st.trapcause = s.st.trapcause := rfl
@[simp] theorem endClause_st_trapmask (target : DWord) (y : Bool) (s : State) : (endClause target y s).st.trapmask = s.st.trapmask := rfl
@[simp] theorem endClause_st_cqsel (target : DWord) (y : Bool) (s : State) : (endClause target y s).st.cqsel = s.st.cqsel := rfl
@[simp] theorem endClause_st_resumes (target : DWord) (y : Bool) (s : State) : (endClause target y s).st.resumes = s.st.resumes := rfl
@[simp] theorem endClause_st_marks (target : DWord) (y : Bool) (s : State) : (endClause target y s).st.marks = s.st.marks := rfl
@[simp] theorem endClause_st_owed (target : DWord) (y : Bool) (s : State) : (endClause target y s).st.owed = s.st.owed := rfl
@[simp] theorem endClause_st_ops (target : DWord) (y : Bool) (s : State) : (endClause target y s).st.ops = s.st.ops := rfl
@[simp] theorem endClause_st_serial (target : DWord) (y : Bool) (s : State) : (endClause target y s).st.serial = s.st.serial := rfl
@[simp] theorem endClause_st_behind (target : DWord) (y : Bool) (s : State) : (endClause target y s).st.behind = s.st.behind := rfl
@[simp] theorem endClause_st_rfErr (target : DWord) (y : Bool) (s : State) : (endClause target y s).st.rfErr = s.st.rfErr := rfl
@[simp] theorem endClause_st_poisonTags (target : DWord) (y : Bool) (s : State) : (endClause target y s).st.poisonTags = s.st.poisonTags := rfl

/-! ### waitFor -/

@[simp] theorem waitFor_blk (w : Wait) (s : State) : (waitFor w s).blk = s.blk := rfl
@[simp] theorem waitFor_grd (w : Wait) (s : State) : (waitFor w s).grd = s.grd := rfl
@[simp] theorem waitFor_wld (w : Wait) (s : State) : (waitFor w s).wld = s.wld := rfl
@[simp] theorem waitFor_blocks (w : Wait) (s : State) : (waitFor w s).blocks = s.blocks := rfl
@[simp] theorem waitFor_grids (w : Wait) (s : State) : (waitFor w s).grids = s.grids := rfl
@[simp] theorem waitFor_worlds (w : Wait) (s : State) : (waitFor w s).worlds = s.worlds := rfl
@[simp] theorem waitFor_reserves (w : Wait) (s : State) : (waitFor w s).reserves = s.reserves := rfl
@[simp] theorem waitFor_anonRoot (w : Wait) (s : State) : (waitFor w s).anonRoot = s.anonRoot := rfl
@[simp] theorem waitFor_anonRoot2 (w : Wait) (s : State) : (waitFor w s).anonRoot2 = s.anonRoot2 := rfl
@[simp] theorem waitFor_mem (w : Wait) (s : State) : (waitFor w s).mem = s.mem := rfl
@[simp] theorem waitFor_poison (w : Wait) (s : State) : (waitFor w s).poison = s.poison := rfl
@[simp] theorem waitFor_lineKeys (w : Wait) (s : State) : (waitFor w s).lineKeys = s.lineKeys := rfl
@[simp] theorem waitFor_memTags (w : Wait) (s : State) : (waitFor w s).memTags = s.memTags := rfl
@[simp] theorem waitFor_l1 (w : Wait) (s : State) : (waitFor w s).l1 = s.l1 := rfl
@[simp] theorem waitFor_dups (w : Wait) (s : State) : (waitFor w s).dups = s.dups := rfl
@[simp] theorem waitFor_qnt (w : Wait) (s : State) : (waitFor w s).qnt = s.qnt := rfl
@[simp] theorem waitFor_tlb (w : Wait) (s : State) : (waitFor w s).tlb = s.tlb := rfl
@[simp] theorem waitFor_inter (w : Wait) (s : State) : (waitFor w s).inter = s.inter := rfl
@[simp] theorem waitFor_mixed (w : Wait) (s : State) : (waitFor w s).mixed = s.mixed := rfl
@[simp] theorem waitFor_slots (w : Wait) (s : State) : (waitFor w s).slots = s.slots := rfl
@[simp] theorem waitFor_queues (w : Wait) (s : State) : (waitFor w s).queues = s.queues := rfl
@[simp] theorem waitFor_readyPool (w : Wait) (s : State) : (waitFor w s).readyPool = s.readyPool := rfl
@[simp] theorem waitFor_readyWait (w : Wait) (s : State) : (waitFor w s).readyWait = s.readyWait := rfl
@[simp] theorem waitFor_watches (w : Wait) (s : State) : (waitFor w s).watches = s.watches := rfl
@[simp] theorem waitFor_origins (w : Wait) (s : State) : (waitFor w s).origins = s.origins := rfl
@[simp] theorem waitFor_registered (w : Wait) (s : State) : (waitFor w s).registered = s.registered := rfl
@[simp] theorem waitFor_kept (w : Wait) (s : State) : (waitFor w s).kept = s.kept := rfl
@[simp] theorem waitFor_slice (w : Wait) (s : State) : (waitFor w s).slice = s.slice := rfl
@[simp] theorem waitFor_ms (w : Wait) (s : State) : (waitFor w s).ms = s.ms := rfl
@[simp] theorem waitFor_leaseMs (w : Wait) (s : State) : (waitFor w s).leaseMs = s.leaseMs := rfl
@[simp] theorem waitFor_lapseMs (w : Wait) (s : State) : (waitFor w s).lapseMs = s.lapseMs := rfl
@[simp] theorem waitFor_handed (w : Wait) (s : State) : (waitFor w s).handed = s.handed := rfl
@[simp] theorem waitFor_packets (w : Wait) (s : State) : (waitFor w s).packets = s.packets := rfl
@[simp] theorem waitFor_posts (w : Wait) (s : State) : (waitFor w s).posts = s.posts := rfl
@[simp] theorem waitFor_hostSlots (w : Wait) (s : State) : (waitFor w s).hostSlots = s.hostSlots := rfl
@[simp] theorem waitFor_ringWrites (w : Wait) (s : State) : (waitFor w s).ringWrites = s.ringWrites := rfl
@[simp] theorem waitFor_turns (w : Wait) (s : State) : (waitFor w s).turns = s.turns := rfl
@[simp] theorem waitFor_posted (w : Wait) (s : State) : (waitFor w s).posted = s.posted := rfl
@[simp] theorem waitFor_placed (w : Wait) (s : State) : (waitFor w s).placed = s.placed := rfl
@[simp] theorem waitFor_anon (w : Wait) (s : State) : (waitFor w s).anon = s.anon := rfl
@[simp] theorem waitFor_failing (w : Wait) (s : State) : (waitFor w s).failing = s.failing := rfl
@[simp] theorem waitFor_clocks (w : Wait) (s : State) : (waitFor w s).clocks = s.clocks := rfl
@[simp] theorem waitFor_gated (w : Wait) (s : State) : (waitFor w s).gated = s.gated := rfl
@[simp] theorem waitFor_refNs (w : Wait) (s : State) : (waitFor w s).refNs = s.refNs := rfl
@[simp] theorem waitFor_portA (w : Wait) (s : State) : (waitFor w s).portA = s.portA := rfl
@[simp] theorem waitFor_portB (w : Wait) (s : State) : (waitFor w s).portB = s.portB := rfl
@[simp] theorem waitFor_leaseEpoch (w : Wait) (s : State) : (waitFor w s).leaseEpoch = s.leaseEpoch := rfl
@[simp] theorem waitFor_accepted (w : Wait) (s : State) : (waitFor w s).accepted = s.accepted := rfl
@[simp] theorem waitFor_locked (w : Wait) (s : State) : (waitFor w s).locked = s.locked := rfl
@[simp] theorem waitFor_peri (w : Wait) (s : State) : (waitFor w s).peri = s.peri := rfl
@[simp] theorem waitFor_links (w : Wait) (s : State) : (waitFor w s).links = s.links := rfl
@[simp] theorem waitFor_scrub (w : Wait) (s : State) : (waitFor w s).scrub = s.scrub := rfl
@[simp] theorem waitFor_scrubOn (w : Wait) (s : State) : (waitFor w s).scrubOn = s.scrubOn := rfl
@[simp] theorem waitFor_measured (w : Wait) (s : State) : (waitFor w s).measured = s.measured := rfl
@[simp] theorem waitFor_fused (w : Wait) (s : State) : (waitFor w s).fused = s.fused := rfl
@[simp] theorem waitFor_versions (w : Wait) (s : State) : (waitFor w s).versions = s.versions := rfl
@[simp] theorem waitFor_kem (w : Wait) (s : State) : (waitFor w s).kem = s.kem := rfl
@[simp] theorem waitFor_stage (w : Wait) (s : State) : (waitFor w s).stage = s.stage := rfl
@[simp] theorem waitFor_offline (w : Wait) (s : State) : (waitFor w s).offline = s.offline := rfl
@[simp] theorem waitFor_badStacks (w : Wait) (s : State) : (waitFor w s).badStacks = s.badStacks := rfl
@[simp] theorem waitFor_halted (w : Wait) (s : State) : (waitFor w s).halted = s.halted := rfl
@[simp] theorem waitFor_counts (w : Wait) (s : State) : (waitFor w s).counts = s.counts := rfl
@[simp] theorem waitFor_notices (w : Wait) (s : State) : (waitFor w s).notices = s.notices := rfl
@[simp] theorem waitFor_pendingRecords (w : Wait) (s : State) : (waitFor w s).pendingRecords = s.pendingRecords := rfl
@[simp] theorem waitFor_recordCount (w : Wait) (s : State) : (waitFor w s).recordCount = s.recordCount := rfl
@[simp] theorem waitFor_orrery (w : Wait) (s : State) : (waitFor w s).orrery = s.orrery := rfl
@[simp] theorem waitFor_rrLast (w : Wait) (s : State) : (waitFor w s).rrLast = s.rrLast := rfl
@[simp] theorem waitFor_passOn (w : Wait) (s : State) : (waitFor w s).passOn = s.passOn := rfl
@[simp] theorem waitFor_gridCount (w : Wait) (s : State) : (waitFor w s).gridCount = s.gridCount := rfl
@[simp] theorem waitFor_blockCount (w : Wait) (s : State) : (waitFor w s).blockCount = s.blockCount := rfl
@[simp] theorem waitFor_postCount (w : Wait) (s : State) : (waitFor w s).postCount = s.postCount := rfl
@[simp] theorem waitFor_packetCount (w : Wait) (s : State) : (waitFor w s).packetCount = s.packetCount := rfl
@[simp] theorem waitFor_epoch (w : Wait) (s : State) : (waitFor w s).epoch = s.epoch := rfl
@[simp] theorem waitFor_agenda (w : Wait) (s : State) : (waitFor w s).agenda = s.agenda := rfl
@[simp] theorem waitFor_free (w : Wait) (s : State) : (waitFor w s).free = s.free := rfl
@[simp] theorem waitFor_st_grid (w : Wait) (s : State) : (waitFor w s).st.grid = s.st.grid := rfl
@[simp] theorem waitFor_st_block (w : Wait) (s : State) : (waitFor w s).st.block = s.st.block := rfl
@[simp] theorem waitFor_st_idx (w : Wait) (s : State) : (waitFor w s).st.idx = s.st.idx := rfl
@[simp] theorem waitFor_st_slot (w : Wait) (s : State) : (waitFor w s).st.slot = s.st.slot := rfl
@[simp] theorem waitFor_st_present (w : Wait) (s : State) : (waitFor w s).st.present = s.st.present := rfl
@[simp] theorem waitFor_st_pc (w : Wait) (s : State) : (waitFor w s).st.pc = s.st.pc := rfl
@[simp] theorem waitFor_st_v (w : Wait) (s : State) : (waitFor w s).st.v = s.st.v := rfl
@[simp] theorem waitFor_st_s (w : Wait) (s : State) : (waitFor w s).st.s = s.st.s := rfl
@[simp] theorem waitFor_st_m (w : Wait) (s : State) : (waitFor w s).st.m = s.st.m := rfl
@[simp] theorem waitFor_st_k (w : Wait) (s : State) : (waitFor w s).st.k = s.st.k := rfl
@[simp] theorem waitFor_st_clause (w : Wait) (s : State) : (waitFor w s).st.clause = s.st.clause := rfl
@[simp] theorem waitFor_st_trapvec (w : Wait) (s : State) : (waitFor w s).st.trapvec = s.st.trapvec := rfl
@[simp] theorem waitFor_st_trapret (w : Wait) (s : State) : (waitFor w s).st.trapret = s.st.trapret := rfl
@[simp] theorem waitFor_st_trapcause (w : Wait) (s : State) : (waitFor w s).st.trapcause = s.st.trapcause := rfl
@[simp] theorem waitFor_st_trapmask (w : Wait) (s : State) : (waitFor w s).st.trapmask = s.st.trapmask := rfl
@[simp] theorem waitFor_st_cqsel (w : Wait) (s : State) : (waitFor w s).st.cqsel = s.st.cqsel := rfl
@[simp] theorem waitFor_st_resumes (w : Wait) (s : State) : (waitFor w s).st.resumes = s.st.resumes := rfl
@[simp] theorem waitFor_st_marks (w : Wait) (s : State) : (waitFor w s).st.marks = s.st.marks := rfl
@[simp] theorem waitFor_st_owed (w : Wait) (s : State) : (waitFor w s).st.owed = s.st.owed := rfl
@[simp] theorem waitFor_st_ops (w : Wait) (s : State) : (waitFor w s).st.ops = s.st.ops := rfl
@[simp] theorem waitFor_st_serial (w : Wait) (s : State) : (waitFor w s).st.serial = s.st.serial := rfl
@[simp] theorem waitFor_st_attempt (w : Wait) (s : State) : (waitFor w s).st.attempt = s.st.attempt := rfl
@[simp] theorem waitFor_st_promo (w : Wait) (s : State) : (waitFor w s).st.promo = s.st.promo := rfl
@[simp] theorem waitFor_st_yld (w : Wait) (s : State) : (waitFor w s).st.yld = s.st.yld := rfl
@[simp] theorem waitFor_st_age (w : Wait) (s : State) : (waitFor w s).st.age = s.st.age := rfl
@[simp] theorem waitFor_st_behind (w : Wait) (s : State) : (waitFor w s).st.behind = s.st.behind := rfl
@[simp] theorem waitFor_st_bkpt (w : Wait) (s : State) : (waitFor w s).st.bkpt = s.st.bkpt := rfl
@[simp] theorem waitFor_st_rfErr (w : Wait) (s : State) : (waitFor w s).st.rfErr = s.st.rfErr := rfl
@[simp] theorem waitFor_st_poisonTags (w : Wait) (s : State) : (waitFor w s).st.poisonTags = s.st.poisonTags := rfl
@[simp] theorem waitFor_st_fetched (w : Wait) (s : State) : (waitFor w s).st.fetched = s.st.fetched := rfl

/-! ### park -/

@[simp] theorem park_blk (f : FaultInfo) (left : BitVec 64) (s : State) : (park f left s).blk = s.blk := by unfold park reportStage2; simp only []; split <;> rfl
@[simp] theorem park_grd (f : FaultInfo) (left : BitVec 64) (s : State) : (park f left s).grd = s.grd := by unfold park reportStage2; simp only []; split <;> rfl
@[simp] theorem park_wld (f : FaultInfo) (left : BitVec 64) (s : State) : (park f left s).wld = s.wld := by unfold park reportStage2; simp only []; split <;> rfl
@[simp] theorem park_blocks (f : FaultInfo) (left : BitVec 64) (s : State) : (park f left s).blocks = s.blocks := by unfold park reportStage2; simp only []; split <;> rfl
@[simp] theorem park_grids (f : FaultInfo) (left : BitVec 64) (s : State) : (park f left s).grids = s.grids := by unfold park reportStage2; simp only []; split <;> rfl
@[simp] theorem park_worlds (f : FaultInfo) (left : BitVec 64) (s : State) : (park f left s).worlds = s.worlds := by unfold park reportStage2; simp only []; split <;> rfl
@[simp] theorem park_reserves (f : FaultInfo) (left : BitVec 64) (s : State) : (park f left s).reserves = s.reserves := by unfold park reportStage2; simp only []; split <;> rfl
@[simp] theorem park_anonRoot (f : FaultInfo) (left : BitVec 64) (s : State) : (park f left s).anonRoot = s.anonRoot := by unfold park reportStage2; simp only []; split <;> rfl
@[simp] theorem park_anonRoot2 (f : FaultInfo) (left : BitVec 64) (s : State) : (park f left s).anonRoot2 = s.anonRoot2 := by unfold park reportStage2; simp only []; split <;> rfl
@[simp] theorem park_mem (f : FaultInfo) (left : BitVec 64) (s : State) : (park f left s).mem = s.mem := by unfold park reportStage2; simp only []; split <;> rfl
@[simp] theorem park_poison (f : FaultInfo) (left : BitVec 64) (s : State) : (park f left s).poison = s.poison := by unfold park reportStage2; simp only []; split <;> rfl
@[simp] theorem park_lineKeys (f : FaultInfo) (left : BitVec 64) (s : State) : (park f left s).lineKeys = s.lineKeys := by unfold park reportStage2; simp only []; split <;> rfl
@[simp] theorem park_memTags (f : FaultInfo) (left : BitVec 64) (s : State) : (park f left s).memTags = s.memTags := by unfold park reportStage2; simp only []; split <;> rfl
@[simp] theorem park_l1 (f : FaultInfo) (left : BitVec 64) (s : State) : (park f left s).l1 = s.l1 := by unfold park reportStage2; simp only []; split <;> rfl
@[simp] theorem park_dups (f : FaultInfo) (left : BitVec 64) (s : State) : (park f left s).dups = s.dups := by unfold park reportStage2; simp only []; split <;> rfl
@[simp] theorem park_qnt (f : FaultInfo) (left : BitVec 64) (s : State) : (park f left s).qnt = s.qnt := by unfold park reportStage2; simp only []; split <;> rfl
@[simp] theorem park_tlb (f : FaultInfo) (left : BitVec 64) (s : State) : (park f left s).tlb = s.tlb := by unfold park reportStage2; simp only []; split <;> rfl
@[simp] theorem park_inter (f : FaultInfo) (left : BitVec 64) (s : State) : (park f left s).inter = s.inter := by unfold park reportStage2; simp only []; split <;> rfl
@[simp] theorem park_mixed (f : FaultInfo) (left : BitVec 64) (s : State) : (park f left s).mixed = s.mixed := by unfold park reportStage2; simp only []; split <;> rfl
@[simp] theorem park_slots (f : FaultInfo) (left : BitVec 64) (s : State) : (park f left s).slots = s.slots := by unfold park reportStage2; simp only []; split <;> rfl
@[simp] theorem park_queues (f : FaultInfo) (left : BitVec 64) (s : State) : (park f left s).queues = s.queues := by unfold park reportStage2; simp only []; split <;> rfl
@[simp] theorem park_readyPool (f : FaultInfo) (left : BitVec 64) (s : State) : (park f left s).readyPool = s.readyPool := by unfold park reportStage2; simp only []; split <;> rfl
@[simp] theorem park_readyWait (f : FaultInfo) (left : BitVec 64) (s : State) : (park f left s).readyWait = s.readyWait := by unfold park reportStage2; simp only []; split <;> rfl
@[simp] theorem park_watches (f : FaultInfo) (left : BitVec 64) (s : State) : (park f left s).watches = s.watches := by unfold park reportStage2; simp only []; split <;> rfl
@[simp] theorem park_origins (f : FaultInfo) (left : BitVec 64) (s : State) : (park f left s).origins = s.origins := by unfold park reportStage2; simp only []; split <;> rfl
@[simp] theorem park_registered (f : FaultInfo) (left : BitVec 64) (s : State) : (park f left s).registered = s.registered := by unfold park reportStage2; simp only []; split <;> rfl
@[simp] theorem park_kept (f : FaultInfo) (left : BitVec 64) (s : State) : (park f left s).kept = s.kept := by unfold park reportStage2; simp only []; split <;> rfl
@[simp] theorem park_slice (f : FaultInfo) (left : BitVec 64) (s : State) : (park f left s).slice = s.slice := by unfold park reportStage2; simp only []; split <;> rfl
@[simp] theorem park_ms (f : FaultInfo) (left : BitVec 64) (s : State) : (park f left s).ms = s.ms := by unfold park reportStage2; simp only []; split <;> rfl
@[simp] theorem park_leaseMs (f : FaultInfo) (left : BitVec 64) (s : State) : (park f left s).leaseMs = s.leaseMs := by unfold park reportStage2; simp only []; split <;> rfl
@[simp] theorem park_lapseMs (f : FaultInfo) (left : BitVec 64) (s : State) : (park f left s).lapseMs = s.lapseMs := by unfold park reportStage2; simp only []; split <;> rfl
@[simp] theorem park_handed (f : FaultInfo) (left : BitVec 64) (s : State) : (park f left s).handed = s.handed := by unfold park reportStage2; simp only []; split <;> rfl
@[simp] theorem park_packets (f : FaultInfo) (left : BitVec 64) (s : State) : (park f left s).packets = s.packets := by unfold park reportStage2; simp only []; split <;> rfl
@[simp] theorem park_posts (f : FaultInfo) (left : BitVec 64) (s : State) : (park f left s).posts = s.posts := by unfold park reportStage2; simp only []; split <;> rfl
@[simp] theorem park_hostSlots (f : FaultInfo) (left : BitVec 64) (s : State) : (park f left s).hostSlots = s.hostSlots := by unfold park reportStage2; simp only []; split <;> rfl
@[simp] theorem park_ringWrites (f : FaultInfo) (left : BitVec 64) (s : State) : (park f left s).ringWrites = s.ringWrites := by unfold park reportStage2; simp only []; split <;> rfl
@[simp] theorem park_turns (f : FaultInfo) (left : BitVec 64) (s : State) : (park f left s).turns = s.turns := by unfold park reportStage2; simp only []; split <;> rfl
@[simp] theorem park_posted (f : FaultInfo) (left : BitVec 64) (s : State) : (park f left s).posted = s.posted := by unfold park reportStage2; simp only []; split <;> rfl
@[simp] theorem park_placed (f : FaultInfo) (left : BitVec 64) (s : State) : (park f left s).placed = s.placed := by unfold park reportStage2; simp only []; split <;> rfl
@[simp] theorem park_anon (f : FaultInfo) (left : BitVec 64) (s : State) : (park f left s).anon = s.anon := by unfold park reportStage2; simp only []; split <;> rfl
@[simp] theorem park_failing (f : FaultInfo) (left : BitVec 64) (s : State) : (park f left s).failing = s.failing := by unfold park reportStage2; simp only []; split <;> rfl
@[simp] theorem park_clocks (f : FaultInfo) (left : BitVec 64) (s : State) : (park f left s).clocks = s.clocks := by unfold park reportStage2; simp only []; split <;> rfl
@[simp] theorem park_gated (f : FaultInfo) (left : BitVec 64) (s : State) : (park f left s).gated = s.gated := by unfold park reportStage2; simp only []; split <;> rfl
@[simp] theorem park_refNs (f : FaultInfo) (left : BitVec 64) (s : State) : (park f left s).refNs = s.refNs := by unfold park reportStage2; simp only []; split <;> rfl
@[simp] theorem park_portA (f : FaultInfo) (left : BitVec 64) (s : State) : (park f left s).portA = s.portA := by unfold park reportStage2; simp only []; split <;> rfl
@[simp] theorem park_portB (f : FaultInfo) (left : BitVec 64) (s : State) : (park f left s).portB = s.portB := by unfold park reportStage2; simp only []; split <;> rfl
@[simp] theorem park_leaseEpoch (f : FaultInfo) (left : BitVec 64) (s : State) : (park f left s).leaseEpoch = s.leaseEpoch := by unfold park reportStage2; simp only []; split <;> rfl
@[simp] theorem park_accepted (f : FaultInfo) (left : BitVec 64) (s : State) : (park f left s).accepted = s.accepted := by unfold park reportStage2; simp only []; split <;> rfl
@[simp] theorem park_locked (f : FaultInfo) (left : BitVec 64) (s : State) : (park f left s).locked = s.locked := by unfold park reportStage2; simp only []; split <;> rfl
@[simp] theorem park_peri (f : FaultInfo) (left : BitVec 64) (s : State) : (park f left s).peri = s.peri := by unfold park reportStage2; simp only []; split <;> rfl
@[simp] theorem park_links (f : FaultInfo) (left : BitVec 64) (s : State) : (park f left s).links = s.links := by unfold park reportStage2; simp only []; split <;> rfl
@[simp] theorem park_scrub (f : FaultInfo) (left : BitVec 64) (s : State) : (park f left s).scrub = s.scrub := by unfold park reportStage2; simp only []; split <;> rfl
@[simp] theorem park_scrubOn (f : FaultInfo) (left : BitVec 64) (s : State) : (park f left s).scrubOn = s.scrubOn := by unfold park reportStage2; simp only []; split <;> rfl
@[simp] theorem park_measured (f : FaultInfo) (left : BitVec 64) (s : State) : (park f left s).measured = s.measured := by unfold park reportStage2; simp only []; split <;> rfl
@[simp] theorem park_fused (f : FaultInfo) (left : BitVec 64) (s : State) : (park f left s).fused = s.fused := by unfold park reportStage2; simp only []; split <;> rfl
@[simp] theorem park_versions (f : FaultInfo) (left : BitVec 64) (s : State) : (park f left s).versions = s.versions := by unfold park reportStage2; simp only []; split <;> rfl
@[simp] theorem park_kem (f : FaultInfo) (left : BitVec 64) (s : State) : (park f left s).kem = s.kem := by unfold park reportStage2; simp only []; split <;> rfl
@[simp] theorem park_stage (f : FaultInfo) (left : BitVec 64) (s : State) : (park f left s).stage = s.stage := by unfold park reportStage2; simp only []; split <;> rfl
@[simp] theorem park_offline (f : FaultInfo) (left : BitVec 64) (s : State) : (park f left s).offline = s.offline := by unfold park reportStage2; simp only []; split <;> rfl
@[simp] theorem park_badStacks (f : FaultInfo) (left : BitVec 64) (s : State) : (park f left s).badStacks = s.badStacks := by unfold park reportStage2; simp only []; split <;> rfl
@[simp] theorem park_halted (f : FaultInfo) (left : BitVec 64) (s : State) : (park f left s).halted = s.halted := by unfold park reportStage2; simp only []; split <;> rfl
@[simp] theorem park_counts (f : FaultInfo) (left : BitVec 64) (s : State) : (park f left s).counts = s.counts := by unfold park reportStage2; simp only []; split <;> rfl
@[simp] theorem park_pendingRecords (f : FaultInfo) (left : BitVec 64) (s : State) : (park f left s).pendingRecords = s.pendingRecords := by unfold park reportStage2; simp only []; split <;> rfl
@[simp] theorem park_recordCount (f : FaultInfo) (left : BitVec 64) (s : State) : (park f left s).recordCount = s.recordCount := by unfold park reportStage2; simp only []; split <;> rfl
@[simp] theorem park_orrery (f : FaultInfo) (left : BitVec 64) (s : State) : (park f left s).orrery = s.orrery := by unfold park reportStage2; simp only []; split <;> rfl
@[simp] theorem park_rrLast (f : FaultInfo) (left : BitVec 64) (s : State) : (park f left s).rrLast = s.rrLast := by unfold park reportStage2; simp only []; split <;> rfl
@[simp] theorem park_passOn (f : FaultInfo) (left : BitVec 64) (s : State) : (park f left s).passOn = s.passOn := by unfold park reportStage2; simp only []; split <;> rfl
@[simp] theorem park_gridCount (f : FaultInfo) (left : BitVec 64) (s : State) : (park f left s).gridCount = s.gridCount := by unfold park reportStage2; simp only []; split <;> rfl
@[simp] theorem park_blockCount (f : FaultInfo) (left : BitVec 64) (s : State) : (park f left s).blockCount = s.blockCount := by unfold park reportStage2; simp only []; split <;> rfl
@[simp] theorem park_postCount (f : FaultInfo) (left : BitVec 64) (s : State) : (park f left s).postCount = s.postCount := by unfold park reportStage2; simp only []; split <;> rfl
@[simp] theorem park_packetCount (f : FaultInfo) (left : BitVec 64) (s : State) : (park f left s).packetCount = s.packetCount := by unfold park reportStage2; simp only []; split <;> rfl
@[simp] theorem park_epoch (f : FaultInfo) (left : BitVec 64) (s : State) : (park f left s).epoch = s.epoch := by unfold park reportStage2; simp only []; split <;> rfl
@[simp] theorem park_agenda (f : FaultInfo) (left : BitVec 64) (s : State) : (park f left s).agenda = s.agenda := by unfold park reportStage2; simp only []; split <;> rfl
@[simp] theorem park_free (f : FaultInfo) (left : BitVec 64) (s : State) : (park f left s).free = s.free := by unfold park reportStage2; simp only []; split <;> rfl
@[simp] theorem park_st_grid (f : FaultInfo) (left : BitVec 64) (s : State) : (park f left s).st.grid = s.st.grid := by unfold park reportStage2; simp only []; split <;> rfl
@[simp] theorem park_st_block (f : FaultInfo) (left : BitVec 64) (s : State) : (park f left s).st.block = s.st.block := by unfold park reportStage2; simp only []; split <;> rfl
@[simp] theorem park_st_idx (f : FaultInfo) (left : BitVec 64) (s : State) : (park f left s).st.idx = s.st.idx := by unfold park reportStage2; simp only []; split <;> rfl
@[simp] theorem park_st_slot (f : FaultInfo) (left : BitVec 64) (s : State) : (park f left s).st.slot = s.st.slot := by unfold park reportStage2; simp only []; split <;> rfl
@[simp] theorem park_st_present (f : FaultInfo) (left : BitVec 64) (s : State) : (park f left s).st.present = s.st.present := by unfold park reportStage2; simp only []; split <;> rfl
@[simp] theorem park_st_pc (f : FaultInfo) (left : BitVec 64) (s : State) : (park f left s).st.pc = s.st.pc := by unfold park reportStage2; simp only []; split <;> rfl
@[simp] theorem park_st_v (f : FaultInfo) (left : BitVec 64) (s : State) : (park f left s).st.v = s.st.v := by unfold park reportStage2; simp only []; split <;> rfl
@[simp] theorem park_st_s (f : FaultInfo) (left : BitVec 64) (s : State) : (park f left s).st.s = s.st.s := by unfold park reportStage2; simp only []; split <;> rfl
@[simp] theorem park_st_m (f : FaultInfo) (left : BitVec 64) (s : State) : (park f left s).st.m = s.st.m := by unfold park reportStage2; simp only []; split <;> rfl
@[simp] theorem park_st_k (f : FaultInfo) (left : BitVec 64) (s : State) : (park f left s).st.k = s.st.k := by unfold park reportStage2; simp only []; split <;> rfl
@[simp] theorem park_st_clause (f : FaultInfo) (left : BitVec 64) (s : State) : (park f left s).st.clause = s.st.clause := by unfold park reportStage2; simp only []; split <;> rfl
@[simp] theorem park_st_trapvec (f : FaultInfo) (left : BitVec 64) (s : State) : (park f left s).st.trapvec = s.st.trapvec := by unfold park reportStage2; simp only []; split <;> rfl
@[simp] theorem park_st_trapret (f : FaultInfo) (left : BitVec 64) (s : State) : (park f left s).st.trapret = s.st.trapret := by unfold park reportStage2; simp only []; split <;> rfl
@[simp] theorem park_st_trapcause (f : FaultInfo) (left : BitVec 64) (s : State) : (park f left s).st.trapcause = s.st.trapcause := by unfold park reportStage2; simp only []; split <;> rfl
@[simp] theorem park_st_trapmask (f : FaultInfo) (left : BitVec 64) (s : State) : (park f left s).st.trapmask = s.st.trapmask := by unfold park reportStage2; simp only []; split <;> rfl
@[simp] theorem park_st_cqsel (f : FaultInfo) (left : BitVec 64) (s : State) : (park f left s).st.cqsel = s.st.cqsel := by unfold park reportStage2; simp only []; split <;> rfl
@[simp] theorem park_st_resumes (f : FaultInfo) (left : BitVec 64) (s : State) : (park f left s).st.resumes = s.st.resumes := by unfold park reportStage2; simp only []; split <;> rfl
@[simp] theorem park_st_marks (f : FaultInfo) (left : BitVec 64) (s : State) : (park f left s).st.marks = s.st.marks := by unfold park reportStage2; simp only []; split <;> rfl
@[simp] theorem park_st_owed (f : FaultInfo) (left : BitVec 64) (s : State) : (park f left s).st.owed = s.st.owed := by unfold park reportStage2; simp only []; split <;> rfl
@[simp] theorem park_st_ops (f : FaultInfo) (left : BitVec 64) (s : State) : (park f left s).st.ops = s.st.ops := by unfold park reportStage2; simp only []; split <;> rfl
@[simp] theorem park_st_serial (f : FaultInfo) (left : BitVec 64) (s : State) : (park f left s).st.serial = s.st.serial := by unfold park reportStage2; simp only []; split <;> rfl
@[simp] theorem park_st_promo (f : FaultInfo) (left : BitVec 64) (s : State) : (park f left s).st.promo = s.st.promo := by unfold park reportStage2; simp only []; split <;> rfl
@[simp] theorem park_st_yld (f : FaultInfo) (left : BitVec 64) (s : State) : (park f left s).st.yld = s.st.yld := by unfold park reportStage2; simp only []; split <;> rfl
@[simp] theorem park_st_age (f : FaultInfo) (left : BitVec 64) (s : State) : (park f left s).st.age = s.st.age := by unfold park reportStage2; simp only []; split <;> rfl
@[simp] theorem park_st_behind (f : FaultInfo) (left : BitVec 64) (s : State) : (park f left s).st.behind = s.st.behind := by unfold park reportStage2; simp only []; split <;> rfl
@[simp] theorem park_st_bkpt (f : FaultInfo) (left : BitVec 64) (s : State) : (park f left s).st.bkpt = s.st.bkpt := by unfold park reportStage2; simp only []; split <;> rfl
@[simp] theorem park_st_rfErr (f : FaultInfo) (left : BitVec 64) (s : State) : (park f left s).st.rfErr = s.st.rfErr := by unfold park reportStage2; simp only []; split <;> rfl
@[simp] theorem park_st_poisonTags (f : FaultInfo) (left : BitVec 64) (s : State) : (park f left s).st.poisonTags = s.st.poisonTags := by unfold park reportStage2; simp only []; split <;> rfl
@[simp] theorem park_st_fetched (f : FaultInfo) (left : BitVec 64) (s : State) : (park f left s).st.fetched = s.st.fetched := by unfold park reportStage2; simp only []; split <;> rfl

/-! ### tell -/

@[simp] theorem tell_st (n : Notice) (s : State) : (tell n s).st = s.st := rfl
@[simp] theorem tell_blk (n : Notice) (s : State) : (tell n s).blk = s.blk := rfl
@[simp] theorem tell_grd (n : Notice) (s : State) : (tell n s).grd = s.grd := rfl
@[simp] theorem tell_wld (n : Notice) (s : State) : (tell n s).wld = s.wld := rfl
@[simp] theorem tell_blocks (n : Notice) (s : State) : (tell n s).blocks = s.blocks := rfl
@[simp] theorem tell_grids (n : Notice) (s : State) : (tell n s).grids = s.grids := rfl
@[simp] theorem tell_worlds (n : Notice) (s : State) : (tell n s).worlds = s.worlds := rfl
@[simp] theorem tell_reserves (n : Notice) (s : State) : (tell n s).reserves = s.reserves := rfl
@[simp] theorem tell_anonRoot (n : Notice) (s : State) : (tell n s).anonRoot = s.anonRoot := rfl
@[simp] theorem tell_anonRoot2 (n : Notice) (s : State) : (tell n s).anonRoot2 = s.anonRoot2 := rfl
@[simp] theorem tell_mem (n : Notice) (s : State) : (tell n s).mem = s.mem := rfl
@[simp] theorem tell_poison (n : Notice) (s : State) : (tell n s).poison = s.poison := rfl
@[simp] theorem tell_lineKeys (n : Notice) (s : State) : (tell n s).lineKeys = s.lineKeys := rfl
@[simp] theorem tell_memTags (n : Notice) (s : State) : (tell n s).memTags = s.memTags := rfl
@[simp] theorem tell_l1 (n : Notice) (s : State) : (tell n s).l1 = s.l1 := rfl
@[simp] theorem tell_dups (n : Notice) (s : State) : (tell n s).dups = s.dups := rfl
@[simp] theorem tell_qnt (n : Notice) (s : State) : (tell n s).qnt = s.qnt := rfl
@[simp] theorem tell_tlb (n : Notice) (s : State) : (tell n s).tlb = s.tlb := rfl
@[simp] theorem tell_inter (n : Notice) (s : State) : (tell n s).inter = s.inter := rfl
@[simp] theorem tell_mixed (n : Notice) (s : State) : (tell n s).mixed = s.mixed := rfl
@[simp] theorem tell_slots (n : Notice) (s : State) : (tell n s).slots = s.slots := rfl
@[simp] theorem tell_queues (n : Notice) (s : State) : (tell n s).queues = s.queues := rfl
@[simp] theorem tell_readyPool (n : Notice) (s : State) : (tell n s).readyPool = s.readyPool := rfl
@[simp] theorem tell_readyWait (n : Notice) (s : State) : (tell n s).readyWait = s.readyWait := rfl
@[simp] theorem tell_watches (n : Notice) (s : State) : (tell n s).watches = s.watches := rfl
@[simp] theorem tell_origins (n : Notice) (s : State) : (tell n s).origins = s.origins := rfl
@[simp] theorem tell_registered (n : Notice) (s : State) : (tell n s).registered = s.registered := rfl
@[simp] theorem tell_kept (n : Notice) (s : State) : (tell n s).kept = s.kept := rfl
@[simp] theorem tell_slice (n : Notice) (s : State) : (tell n s).slice = s.slice := rfl
@[simp] theorem tell_ms (n : Notice) (s : State) : (tell n s).ms = s.ms := rfl
@[simp] theorem tell_leaseMs (n : Notice) (s : State) : (tell n s).leaseMs = s.leaseMs := rfl
@[simp] theorem tell_lapseMs (n : Notice) (s : State) : (tell n s).lapseMs = s.lapseMs := rfl
@[simp] theorem tell_handed (n : Notice) (s : State) : (tell n s).handed = s.handed := rfl
@[simp] theorem tell_packets (n : Notice) (s : State) : (tell n s).packets = s.packets := rfl
@[simp] theorem tell_posts (n : Notice) (s : State) : (tell n s).posts = s.posts := rfl
@[simp] theorem tell_hostSlots (n : Notice) (s : State) : (tell n s).hostSlots = s.hostSlots := rfl
@[simp] theorem tell_ringWrites (n : Notice) (s : State) : (tell n s).ringWrites = s.ringWrites := rfl
@[simp] theorem tell_turns (n : Notice) (s : State) : (tell n s).turns = s.turns := rfl
@[simp] theorem tell_posted (n : Notice) (s : State) : (tell n s).posted = s.posted := rfl
@[simp] theorem tell_placed (n : Notice) (s : State) : (tell n s).placed = s.placed := rfl
@[simp] theorem tell_anon (n : Notice) (s : State) : (tell n s).anon = s.anon := rfl
@[simp] theorem tell_failing (n : Notice) (s : State) : (tell n s).failing = s.failing := rfl
@[simp] theorem tell_clocks (n : Notice) (s : State) : (tell n s).clocks = s.clocks := rfl
@[simp] theorem tell_gated (n : Notice) (s : State) : (tell n s).gated = s.gated := rfl
@[simp] theorem tell_refNs (n : Notice) (s : State) : (tell n s).refNs = s.refNs := rfl
@[simp] theorem tell_portA (n : Notice) (s : State) : (tell n s).portA = s.portA := rfl
@[simp] theorem tell_portB (n : Notice) (s : State) : (tell n s).portB = s.portB := rfl
@[simp] theorem tell_leaseEpoch (n : Notice) (s : State) : (tell n s).leaseEpoch = s.leaseEpoch := rfl
@[simp] theorem tell_accepted (n : Notice) (s : State) : (tell n s).accepted = s.accepted := rfl
@[simp] theorem tell_locked (n : Notice) (s : State) : (tell n s).locked = s.locked := rfl
@[simp] theorem tell_peri (n : Notice) (s : State) : (tell n s).peri = s.peri := rfl
@[simp] theorem tell_links (n : Notice) (s : State) : (tell n s).links = s.links := rfl
@[simp] theorem tell_scrub (n : Notice) (s : State) : (tell n s).scrub = s.scrub := rfl
@[simp] theorem tell_scrubOn (n : Notice) (s : State) : (tell n s).scrubOn = s.scrubOn := rfl
@[simp] theorem tell_measured (n : Notice) (s : State) : (tell n s).measured = s.measured := rfl
@[simp] theorem tell_fused (n : Notice) (s : State) : (tell n s).fused = s.fused := rfl
@[simp] theorem tell_versions (n : Notice) (s : State) : (tell n s).versions = s.versions := rfl
@[simp] theorem tell_kem (n : Notice) (s : State) : (tell n s).kem = s.kem := rfl
@[simp] theorem tell_stage (n : Notice) (s : State) : (tell n s).stage = s.stage := rfl
@[simp] theorem tell_offline (n : Notice) (s : State) : (tell n s).offline = s.offline := rfl
@[simp] theorem tell_badStacks (n : Notice) (s : State) : (tell n s).badStacks = s.badStacks := rfl
@[simp] theorem tell_halted (n : Notice) (s : State) : (tell n s).halted = s.halted := rfl
@[simp] theorem tell_counts (n : Notice) (s : State) : (tell n s).counts = s.counts := rfl
@[simp] theorem tell_pendingRecords (n : Notice) (s : State) : (tell n s).pendingRecords = s.pendingRecords := rfl
@[simp] theorem tell_recordCount (n : Notice) (s : State) : (tell n s).recordCount = s.recordCount := rfl
@[simp] theorem tell_orrery (n : Notice) (s : State) : (tell n s).orrery = s.orrery := rfl
@[simp] theorem tell_rrLast (n : Notice) (s : State) : (tell n s).rrLast = s.rrLast := rfl
@[simp] theorem tell_passOn (n : Notice) (s : State) : (tell n s).passOn = s.passOn := rfl
@[simp] theorem tell_gridCount (n : Notice) (s : State) : (tell n s).gridCount = s.gridCount := rfl
@[simp] theorem tell_blockCount (n : Notice) (s : State) : (tell n s).blockCount = s.blockCount := rfl
@[simp] theorem tell_postCount (n : Notice) (s : State) : (tell n s).postCount = s.postCount := rfl
@[simp] theorem tell_packetCount (n : Notice) (s : State) : (tell n s).packetCount = s.packetCount := rfl
@[simp] theorem tell_epoch (n : Notice) (s : State) : (tell n s).epoch = s.epoch := rfl
@[simp] theorem tell_agenda (n : Notice) (s : State) : (tell n s).agenda = s.agenda := rfl
@[simp] theorem tell_free (n : Notice) (s : State) : (tell n s).free = s.free := rfl

/-! ### pushLatch -/

@[simp] theorem pushLatch_blk (x : Latch) (s : State) : (pushLatch x s).blk = s.blk := by unfold pushLatch; split <;> rfl
@[simp] theorem pushLatch_grd (x : Latch) (s : State) : (pushLatch x s).grd = s.grd := by unfold pushLatch; split <;> rfl
@[simp] theorem pushLatch_wld (x : Latch) (s : State) : (pushLatch x s).wld = s.wld := by unfold pushLatch; split <;> rfl
@[simp] theorem pushLatch_blocks (x : Latch) (s : State) : (pushLatch x s).blocks = s.blocks := by unfold pushLatch; split <;> rfl
@[simp] theorem pushLatch_grids (x : Latch) (s : State) : (pushLatch x s).grids = s.grids := by unfold pushLatch; split <;> rfl
@[simp] theorem pushLatch_worlds (x : Latch) (s : State) : (pushLatch x s).worlds = s.worlds := by unfold pushLatch; split <;> rfl
@[simp] theorem pushLatch_reserves (x : Latch) (s : State) : (pushLatch x s).reserves = s.reserves := by unfold pushLatch; split <;> rfl
@[simp] theorem pushLatch_anonRoot (x : Latch) (s : State) : (pushLatch x s).anonRoot = s.anonRoot := by unfold pushLatch; split <;> rfl
@[simp] theorem pushLatch_anonRoot2 (x : Latch) (s : State) : (pushLatch x s).anonRoot2 = s.anonRoot2 := by unfold pushLatch; split <;> rfl
@[simp] theorem pushLatch_mem (x : Latch) (s : State) : (pushLatch x s).mem = s.mem := by unfold pushLatch; split <;> rfl
@[simp] theorem pushLatch_poison (x : Latch) (s : State) : (pushLatch x s).poison = s.poison := by unfold pushLatch; split <;> rfl
@[simp] theorem pushLatch_lineKeys (x : Latch) (s : State) : (pushLatch x s).lineKeys = s.lineKeys := by unfold pushLatch; split <;> rfl
@[simp] theorem pushLatch_memTags (x : Latch) (s : State) : (pushLatch x s).memTags = s.memTags := by unfold pushLatch; split <;> rfl
@[simp] theorem pushLatch_l1 (x : Latch) (s : State) : (pushLatch x s).l1 = s.l1 := by unfold pushLatch; split <;> rfl
@[simp] theorem pushLatch_dups (x : Latch) (s : State) : (pushLatch x s).dups = s.dups := by unfold pushLatch; split <;> rfl
@[simp] theorem pushLatch_qnt (x : Latch) (s : State) : (pushLatch x s).qnt = s.qnt := by unfold pushLatch; split <;> rfl
@[simp] theorem pushLatch_tlb (x : Latch) (s : State) : (pushLatch x s).tlb = s.tlb := by unfold pushLatch; split <;> rfl
@[simp] theorem pushLatch_inter (x : Latch) (s : State) : (pushLatch x s).inter = s.inter := by unfold pushLatch; split <;> rfl
@[simp] theorem pushLatch_mixed (x : Latch) (s : State) : (pushLatch x s).mixed = s.mixed := by unfold pushLatch; split <;> rfl
@[simp] theorem pushLatch_slots (x : Latch) (s : State) : (pushLatch x s).slots = s.slots := by unfold pushLatch; split <;> rfl
@[simp] theorem pushLatch_queues (x : Latch) (s : State) : (pushLatch x s).queues = s.queues := by unfold pushLatch; split <;> rfl
@[simp] theorem pushLatch_readyPool (x : Latch) (s : State) : (pushLatch x s).readyPool = s.readyPool := by unfold pushLatch; split <;> rfl
@[simp] theorem pushLatch_readyWait (x : Latch) (s : State) : (pushLatch x s).readyWait = s.readyWait := by unfold pushLatch; split <;> rfl
@[simp] theorem pushLatch_watches (x : Latch) (s : State) : (pushLatch x s).watches = s.watches := by unfold pushLatch; split <;> rfl
@[simp] theorem pushLatch_origins (x : Latch) (s : State) : (pushLatch x s).origins = s.origins := by unfold pushLatch; split <;> rfl
@[simp] theorem pushLatch_registered (x : Latch) (s : State) : (pushLatch x s).registered = s.registered := by unfold pushLatch; split <;> rfl
@[simp] theorem pushLatch_kept (x : Latch) (s : State) : (pushLatch x s).kept = s.kept := by unfold pushLatch; split <;> rfl
@[simp] theorem pushLatch_slice (x : Latch) (s : State) : (pushLatch x s).slice = s.slice := by unfold pushLatch; split <;> rfl
@[simp] theorem pushLatch_ms (x : Latch) (s : State) : (pushLatch x s).ms = s.ms := by unfold pushLatch; split <;> rfl
@[simp] theorem pushLatch_leaseMs (x : Latch) (s : State) : (pushLatch x s).leaseMs = s.leaseMs := by unfold pushLatch; split <;> rfl
@[simp] theorem pushLatch_lapseMs (x : Latch) (s : State) : (pushLatch x s).lapseMs = s.lapseMs := by unfold pushLatch; split <;> rfl
@[simp] theorem pushLatch_handed (x : Latch) (s : State) : (pushLatch x s).handed = s.handed := by unfold pushLatch; split <;> rfl
@[simp] theorem pushLatch_packets (x : Latch) (s : State) : (pushLatch x s).packets = s.packets := by unfold pushLatch; split <;> rfl
@[simp] theorem pushLatch_posts (x : Latch) (s : State) : (pushLatch x s).posts = s.posts := by unfold pushLatch; split <;> rfl
@[simp] theorem pushLatch_hostSlots (x : Latch) (s : State) : (pushLatch x s).hostSlots = s.hostSlots := by unfold pushLatch; split <;> rfl
@[simp] theorem pushLatch_ringWrites (x : Latch) (s : State) : (pushLatch x s).ringWrites = s.ringWrites := by unfold pushLatch; split <;> rfl
@[simp] theorem pushLatch_turns (x : Latch) (s : State) : (pushLatch x s).turns = s.turns := by unfold pushLatch; split <;> rfl
@[simp] theorem pushLatch_posted (x : Latch) (s : State) : (pushLatch x s).posted = s.posted := by unfold pushLatch; split <;> rfl
@[simp] theorem pushLatch_placed (x : Latch) (s : State) : (pushLatch x s).placed = s.placed := by unfold pushLatch; split <;> rfl
@[simp] theorem pushLatch_anon (x : Latch) (s : State) : (pushLatch x s).anon = s.anon := by unfold pushLatch; split <;> rfl
@[simp] theorem pushLatch_failing (x : Latch) (s : State) : (pushLatch x s).failing = s.failing := by unfold pushLatch; split <;> rfl
@[simp] theorem pushLatch_clocks (x : Latch) (s : State) : (pushLatch x s).clocks = s.clocks := by unfold pushLatch; split <;> rfl
@[simp] theorem pushLatch_gated (x : Latch) (s : State) : (pushLatch x s).gated = s.gated := by unfold pushLatch; split <;> rfl
@[simp] theorem pushLatch_refNs (x : Latch) (s : State) : (pushLatch x s).refNs = s.refNs := by unfold pushLatch; split <;> rfl
@[simp] theorem pushLatch_portA (x : Latch) (s : State) : (pushLatch x s).portA = s.portA := by unfold pushLatch; split <;> rfl
@[simp] theorem pushLatch_portB (x : Latch) (s : State) : (pushLatch x s).portB = s.portB := by unfold pushLatch; split <;> rfl
@[simp] theorem pushLatch_leaseEpoch (x : Latch) (s : State) : (pushLatch x s).leaseEpoch = s.leaseEpoch := by unfold pushLatch; split <;> rfl
@[simp] theorem pushLatch_accepted (x : Latch) (s : State) : (pushLatch x s).accepted = s.accepted := by unfold pushLatch; split <;> rfl
@[simp] theorem pushLatch_locked (x : Latch) (s : State) : (pushLatch x s).locked = s.locked := by unfold pushLatch; split <;> rfl
@[simp] theorem pushLatch_peri (x : Latch) (s : State) : (pushLatch x s).peri = s.peri := by unfold pushLatch; split <;> rfl
@[simp] theorem pushLatch_links (x : Latch) (s : State) : (pushLatch x s).links = s.links := by unfold pushLatch; split <;> rfl
@[simp] theorem pushLatch_scrub (x : Latch) (s : State) : (pushLatch x s).scrub = s.scrub := by unfold pushLatch; split <;> rfl
@[simp] theorem pushLatch_scrubOn (x : Latch) (s : State) : (pushLatch x s).scrubOn = s.scrubOn := by unfold pushLatch; split <;> rfl
@[simp] theorem pushLatch_measured (x : Latch) (s : State) : (pushLatch x s).measured = s.measured := by unfold pushLatch; split <;> rfl
@[simp] theorem pushLatch_fused (x : Latch) (s : State) : (pushLatch x s).fused = s.fused := by unfold pushLatch; split <;> rfl
@[simp] theorem pushLatch_versions (x : Latch) (s : State) : (pushLatch x s).versions = s.versions := by unfold pushLatch; split <;> rfl
@[simp] theorem pushLatch_kem (x : Latch) (s : State) : (pushLatch x s).kem = s.kem := by unfold pushLatch; split <;> rfl
@[simp] theorem pushLatch_stage (x : Latch) (s : State) : (pushLatch x s).stage = s.stage := by unfold pushLatch; split <;> rfl
@[simp] theorem pushLatch_offline (x : Latch) (s : State) : (pushLatch x s).offline = s.offline := by unfold pushLatch; split <;> rfl
@[simp] theorem pushLatch_badStacks (x : Latch) (s : State) : (pushLatch x s).badStacks = s.badStacks := by unfold pushLatch; split <;> rfl
@[simp] theorem pushLatch_halted (x : Latch) (s : State) : (pushLatch x s).halted = s.halted := by unfold pushLatch; split <;> rfl
@[simp] theorem pushLatch_counts (x : Latch) (s : State) : (pushLatch x s).counts = s.counts := by unfold pushLatch; split <;> rfl
@[simp] theorem pushLatch_notices (x : Latch) (s : State) : (pushLatch x s).notices = s.notices := by unfold pushLatch; split <;> rfl
@[simp] theorem pushLatch_pendingRecords (x : Latch) (s : State) : (pushLatch x s).pendingRecords = s.pendingRecords := by unfold pushLatch; split <;> rfl
@[simp] theorem pushLatch_recordCount (x : Latch) (s : State) : (pushLatch x s).recordCount = s.recordCount := by unfold pushLatch; split <;> rfl
@[simp] theorem pushLatch_orrery (x : Latch) (s : State) : (pushLatch x s).orrery = s.orrery := by unfold pushLatch; split <;> rfl
@[simp] theorem pushLatch_rrLast (x : Latch) (s : State) : (pushLatch x s).rrLast = s.rrLast := by unfold pushLatch; split <;> rfl
@[simp] theorem pushLatch_passOn (x : Latch) (s : State) : (pushLatch x s).passOn = s.passOn := by unfold pushLatch; split <;> rfl
@[simp] theorem pushLatch_gridCount (x : Latch) (s : State) : (pushLatch x s).gridCount = s.gridCount := by unfold pushLatch; split <;> rfl
@[simp] theorem pushLatch_blockCount (x : Latch) (s : State) : (pushLatch x s).blockCount = s.blockCount := by unfold pushLatch; split <;> rfl
@[simp] theorem pushLatch_postCount (x : Latch) (s : State) : (pushLatch x s).postCount = s.postCount := by unfold pushLatch; split <;> rfl
@[simp] theorem pushLatch_packetCount (x : Latch) (s : State) : (pushLatch x s).packetCount = s.packetCount := by unfold pushLatch; split <;> rfl
@[simp] theorem pushLatch_epoch (x : Latch) (s : State) : (pushLatch x s).epoch = s.epoch := by unfold pushLatch; split <;> rfl
@[simp] theorem pushLatch_agenda (x : Latch) (s : State) : (pushLatch x s).agenda = s.agenda := by unfold pushLatch; split <;> rfl
@[simp] theorem pushLatch_free (x : Latch) (s : State) : (pushLatch x s).free = s.free := by unfold pushLatch; split <;> rfl
@[simp] theorem pushLatch_st_grid (x : Latch) (s : State) : (pushLatch x s).st.grid = s.st.grid := by unfold pushLatch; split <;> rfl
@[simp] theorem pushLatch_st_block (x : Latch) (s : State) : (pushLatch x s).st.block = s.st.block := by unfold pushLatch; split <;> rfl
@[simp] theorem pushLatch_st_idx (x : Latch) (s : State) : (pushLatch x s).st.idx = s.st.idx := by unfold pushLatch; split <;> rfl
@[simp] theorem pushLatch_st_slot (x : Latch) (s : State) : (pushLatch x s).st.slot = s.st.slot := by unfold pushLatch; split <;> rfl
@[simp] theorem pushLatch_st_present (x : Latch) (s : State) : (pushLatch x s).st.present = s.st.present := by unfold pushLatch; split <;> rfl
@[simp] theorem pushLatch_st_pc (x : Latch) (s : State) : (pushLatch x s).st.pc = s.st.pc := by unfold pushLatch; split <;> rfl
@[simp] theorem pushLatch_st_v (x : Latch) (s : State) : (pushLatch x s).st.v = s.st.v := by unfold pushLatch; split <;> rfl
@[simp] theorem pushLatch_st_s (x : Latch) (s : State) : (pushLatch x s).st.s = s.st.s := by unfold pushLatch; split <;> rfl
@[simp] theorem pushLatch_st_m (x : Latch) (s : State) : (pushLatch x s).st.m = s.st.m := by unfold pushLatch; split <;> rfl
@[simp] theorem pushLatch_st_k (x : Latch) (s : State) : (pushLatch x s).st.k = s.st.k := by unfold pushLatch; split <;> rfl
@[simp] theorem pushLatch_st_trapvec (x : Latch) (s : State) : (pushLatch x s).st.trapvec = s.st.trapvec := by unfold pushLatch; split <;> rfl
@[simp] theorem pushLatch_st_trapret (x : Latch) (s : State) : (pushLatch x s).st.trapret = s.st.trapret := by unfold pushLatch; split <;> rfl
@[simp] theorem pushLatch_st_trapcause (x : Latch) (s : State) : (pushLatch x s).st.trapcause = s.st.trapcause := by unfold pushLatch; split <;> rfl
@[simp] theorem pushLatch_st_trapmask (x : Latch) (s : State) : (pushLatch x s).st.trapmask = s.st.trapmask := by unfold pushLatch; split <;> rfl
@[simp] theorem pushLatch_st_cqsel (x : Latch) (s : State) : (pushLatch x s).st.cqsel = s.st.cqsel := by unfold pushLatch; split <;> rfl
@[simp] theorem pushLatch_st_resumes (x : Latch) (s : State) : (pushLatch x s).st.resumes = s.st.resumes := by unfold pushLatch; split <;> rfl
@[simp] theorem pushLatch_st_marks (x : Latch) (s : State) : (pushLatch x s).st.marks = s.st.marks := by unfold pushLatch; split <;> rfl
@[simp] theorem pushLatch_st_owed (x : Latch) (s : State) : (pushLatch x s).st.owed = s.st.owed := by unfold pushLatch; split <;> rfl
@[simp] theorem pushLatch_st_ops (x : Latch) (s : State) : (pushLatch x s).st.ops = s.st.ops := by unfold pushLatch; split <;> rfl
@[simp] theorem pushLatch_st_serial (x : Latch) (s : State) : (pushLatch x s).st.serial = s.st.serial := by unfold pushLatch; split <;> rfl
@[simp] theorem pushLatch_st_status (x : Latch) (s : State) : (pushLatch x s).st.status = s.st.status := by unfold pushLatch; split <;> rfl
@[simp] theorem pushLatch_st_attempt (x : Latch) (s : State) : (pushLatch x s).st.attempt = s.st.attempt := by unfold pushLatch; split <;> rfl
@[simp] theorem pushLatch_st_promo (x : Latch) (s : State) : (pushLatch x s).st.promo = s.st.promo := by unfold pushLatch; split <;> rfl
@[simp] theorem pushLatch_st_yld (x : Latch) (s : State) : (pushLatch x s).st.yld = s.st.yld := by unfold pushLatch; split <;> rfl
@[simp] theorem pushLatch_st_age (x : Latch) (s : State) : (pushLatch x s).st.age = s.st.age := by unfold pushLatch; split <;> rfl
@[simp] theorem pushLatch_st_behind (x : Latch) (s : State) : (pushLatch x s).st.behind = s.st.behind := by unfold pushLatch; split <;> rfl
@[simp] theorem pushLatch_st_bkpt (x : Latch) (s : State) : (pushLatch x s).st.bkpt = s.st.bkpt := by unfold pushLatch; split <;> rfl
@[simp] theorem pushLatch_st_rfErr (x : Latch) (s : State) : (pushLatch x s).st.rfErr = s.st.rfErr := by unfold pushLatch; split <;> rfl
@[simp] theorem pushLatch_st_poisonTags (x : Latch) (s : State) : (pushLatch x s).st.poisonTags = s.st.poisonTags := by unfold pushLatch; split <;> rfl
@[simp] theorem pushLatch_st_fetched (x : Latch) (s : State) : (pushLatch x s).st.fetched = s.st.fetched := by unfold pushLatch; split <;> rfl

/-! ### advance -/

@[simp] theorem advance_blk (n : Nat) (s : State) : (advance n s).blk = s.blk := by unfold advance; split <;> [rfl; split <;> rfl]
@[simp] theorem advance_grd (n : Nat) (s : State) : (advance n s).grd = s.grd := by unfold advance; split <;> [rfl; split <;> rfl]
@[simp] theorem advance_wld (n : Nat) (s : State) : (advance n s).wld = s.wld := by unfold advance; split <;> [rfl; split <;> rfl]
@[simp] theorem advance_blocks (n : Nat) (s : State) : (advance n s).blocks = s.blocks := by unfold advance; split <;> [rfl; split <;> rfl]
@[simp] theorem advance_grids (n : Nat) (s : State) : (advance n s).grids = s.grids := by unfold advance; split <;> [rfl; split <;> rfl]
@[simp] theorem advance_worlds (n : Nat) (s : State) : (advance n s).worlds = s.worlds := by unfold advance; split <;> [rfl; split <;> rfl]
@[simp] theorem advance_reserves (n : Nat) (s : State) : (advance n s).reserves = s.reserves := by unfold advance; split <;> [rfl; split <;> rfl]
@[simp] theorem advance_anonRoot (n : Nat) (s : State) : (advance n s).anonRoot = s.anonRoot := by unfold advance; split <;> [rfl; split <;> rfl]
@[simp] theorem advance_anonRoot2 (n : Nat) (s : State) : (advance n s).anonRoot2 = s.anonRoot2 := by unfold advance; split <;> [rfl; split <;> rfl]
@[simp] theorem advance_mem (n : Nat) (s : State) : (advance n s).mem = s.mem := by unfold advance; split <;> [rfl; split <;> rfl]
@[simp] theorem advance_poison (n : Nat) (s : State) : (advance n s).poison = s.poison := by unfold advance; split <;> [rfl; split <;> rfl]
@[simp] theorem advance_lineKeys (n : Nat) (s : State) : (advance n s).lineKeys = s.lineKeys := by unfold advance; split <;> [rfl; split <;> rfl]
@[simp] theorem advance_memTags (n : Nat) (s : State) : (advance n s).memTags = s.memTags := by unfold advance; split <;> [rfl; split <;> rfl]
@[simp] theorem advance_l1 (n : Nat) (s : State) : (advance n s).l1 = s.l1 := by unfold advance; split <;> [rfl; split <;> rfl]
@[simp] theorem advance_dups (n : Nat) (s : State) : (advance n s).dups = s.dups := by unfold advance; split <;> [rfl; split <;> rfl]
@[simp] theorem advance_qnt (n : Nat) (s : State) : (advance n s).qnt = s.qnt := by unfold advance; split <;> [rfl; split <;> rfl]
@[simp] theorem advance_tlb (n : Nat) (s : State) : (advance n s).tlb = s.tlb := by unfold advance; split <;> [rfl; split <;> rfl]
@[simp] theorem advance_inter (n : Nat) (s : State) : (advance n s).inter = s.inter := by unfold advance; split <;> [rfl; split <;> rfl]
@[simp] theorem advance_mixed (n : Nat) (s : State) : (advance n s).mixed = s.mixed := by unfold advance; split <;> [rfl; split <;> rfl]
@[simp] theorem advance_slots (n : Nat) (s : State) : (advance n s).slots = s.slots := by unfold advance; split <;> [rfl; split <;> rfl]
@[simp] theorem advance_queues (n : Nat) (s : State) : (advance n s).queues = s.queues := by unfold advance; split <;> [rfl; split <;> rfl]
@[simp] theorem advance_readyPool (n : Nat) (s : State) : (advance n s).readyPool = s.readyPool := by unfold advance; split <;> [rfl; split <;> rfl]
@[simp] theorem advance_readyWait (n : Nat) (s : State) : (advance n s).readyWait = s.readyWait := by unfold advance; split <;> [rfl; split <;> rfl]
@[simp] theorem advance_watches (n : Nat) (s : State) : (advance n s).watches = s.watches := by unfold advance; split <;> [rfl; split <;> rfl]
@[simp] theorem advance_origins (n : Nat) (s : State) : (advance n s).origins = s.origins := by unfold advance; split <;> [rfl; split <;> rfl]
@[simp] theorem advance_registered (n : Nat) (s : State) : (advance n s).registered = s.registered := by unfold advance; split <;> [rfl; split <;> rfl]
@[simp] theorem advance_kept (n : Nat) (s : State) : (advance n s).kept = s.kept := by unfold advance; split <;> [rfl; split <;> rfl]
@[simp] theorem advance_slice (n : Nat) (s : State) : (advance n s).slice = s.slice := by unfold advance; split <;> [rfl; split <;> rfl]
@[simp] theorem advance_ms (n : Nat) (s : State) : (advance n s).ms = s.ms := by unfold advance; split <;> [rfl; split <;> rfl]
@[simp] theorem advance_leaseMs (n : Nat) (s : State) : (advance n s).leaseMs = s.leaseMs := by unfold advance; split <;> [rfl; split <;> rfl]
@[simp] theorem advance_lapseMs (n : Nat) (s : State) : (advance n s).lapseMs = s.lapseMs := by unfold advance; split <;> [rfl; split <;> rfl]
@[simp] theorem advance_handed (n : Nat) (s : State) : (advance n s).handed = s.handed := by unfold advance; split <;> [rfl; split <;> rfl]
@[simp] theorem advance_packets (n : Nat) (s : State) : (advance n s).packets = s.packets := by unfold advance; split <;> [rfl; split <;> rfl]
@[simp] theorem advance_posts (n : Nat) (s : State) : (advance n s).posts = s.posts := by unfold advance; split <;> [rfl; split <;> rfl]
@[simp] theorem advance_hostSlots (n : Nat) (s : State) : (advance n s).hostSlots = s.hostSlots := by unfold advance; split <;> [rfl; split <;> rfl]
@[simp] theorem advance_ringWrites (n : Nat) (s : State) : (advance n s).ringWrites = s.ringWrites := by unfold advance; split <;> [rfl; split <;> rfl]
@[simp] theorem advance_turns (n : Nat) (s : State) : (advance n s).turns = s.turns := by unfold advance; split <;> [rfl; split <;> rfl]
@[simp] theorem advance_posted (n : Nat) (s : State) : (advance n s).posted = s.posted := by unfold advance; split <;> [rfl; split <;> rfl]
@[simp] theorem advance_placed (n : Nat) (s : State) : (advance n s).placed = s.placed := by unfold advance; split <;> [rfl; split <;> rfl]
@[simp] theorem advance_anon (n : Nat) (s : State) : (advance n s).anon = s.anon := by unfold advance; split <;> [rfl; split <;> rfl]
@[simp] theorem advance_failing (n : Nat) (s : State) : (advance n s).failing = s.failing := by unfold advance; split <;> [rfl; split <;> rfl]
@[simp] theorem advance_clocks (n : Nat) (s : State) : (advance n s).clocks = s.clocks := by unfold advance; split <;> [rfl; split <;> rfl]
@[simp] theorem advance_gated (n : Nat) (s : State) : (advance n s).gated = s.gated := by unfold advance; split <;> [rfl; split <;> rfl]
@[simp] theorem advance_refNs (n : Nat) (s : State) : (advance n s).refNs = s.refNs := by unfold advance; split <;> [rfl; split <;> rfl]
@[simp] theorem advance_portA (n : Nat) (s : State) : (advance n s).portA = s.portA := by unfold advance; split <;> [rfl; split <;> rfl]
@[simp] theorem advance_portB (n : Nat) (s : State) : (advance n s).portB = s.portB := by unfold advance; split <;> [rfl; split <;> rfl]
@[simp] theorem advance_leaseEpoch (n : Nat) (s : State) : (advance n s).leaseEpoch = s.leaseEpoch := by unfold advance; split <;> [rfl; split <;> rfl]
@[simp] theorem advance_accepted (n : Nat) (s : State) : (advance n s).accepted = s.accepted := by unfold advance; split <;> [rfl; split <;> rfl]
@[simp] theorem advance_locked (n : Nat) (s : State) : (advance n s).locked = s.locked := by unfold advance; split <;> [rfl; split <;> rfl]
@[simp] theorem advance_peri (n : Nat) (s : State) : (advance n s).peri = s.peri := by unfold advance; split <;> [rfl; split <;> rfl]
@[simp] theorem advance_links (n : Nat) (s : State) : (advance n s).links = s.links := by unfold advance; split <;> [rfl; split <;> rfl]
@[simp] theorem advance_scrub (n : Nat) (s : State) : (advance n s).scrub = s.scrub := by unfold advance; split <;> [rfl; split <;> rfl]
@[simp] theorem advance_scrubOn (n : Nat) (s : State) : (advance n s).scrubOn = s.scrubOn := by unfold advance; split <;> [rfl; split <;> rfl]
@[simp] theorem advance_measured (n : Nat) (s : State) : (advance n s).measured = s.measured := by unfold advance; split <;> [rfl; split <;> rfl]
@[simp] theorem advance_fused (n : Nat) (s : State) : (advance n s).fused = s.fused := by unfold advance; split <;> [rfl; split <;> rfl]
@[simp] theorem advance_versions (n : Nat) (s : State) : (advance n s).versions = s.versions := by unfold advance; split <;> [rfl; split <;> rfl]
@[simp] theorem advance_kem (n : Nat) (s : State) : (advance n s).kem = s.kem := by unfold advance; split <;> [rfl; split <;> rfl]
@[simp] theorem advance_stage (n : Nat) (s : State) : (advance n s).stage = s.stage := by unfold advance; split <;> [rfl; split <;> rfl]
@[simp] theorem advance_offline (n : Nat) (s : State) : (advance n s).offline = s.offline := by unfold advance; split <;> [rfl; split <;> rfl]
@[simp] theorem advance_badStacks (n : Nat) (s : State) : (advance n s).badStacks = s.badStacks := by unfold advance; split <;> [rfl; split <;> rfl]
@[simp] theorem advance_halted (n : Nat) (s : State) : (advance n s).halted = s.halted := by unfold advance; split <;> [rfl; split <;> rfl]
@[simp] theorem advance_counts (n : Nat) (s : State) : (advance n s).counts = s.counts := by unfold advance; split <;> [rfl; split <;> rfl]
@[simp] theorem advance_notices (n : Nat) (s : State) : (advance n s).notices = s.notices := by unfold advance; split <;> [rfl; split <;> rfl]
@[simp] theorem advance_pendingRecords (n : Nat) (s : State) : (advance n s).pendingRecords = s.pendingRecords := by unfold advance; split <;> [rfl; split <;> rfl]
@[simp] theorem advance_recordCount (n : Nat) (s : State) : (advance n s).recordCount = s.recordCount := by unfold advance; split <;> [rfl; split <;> rfl]
@[simp] theorem advance_orrery (n : Nat) (s : State) : (advance n s).orrery = s.orrery := by unfold advance; split <;> [rfl; split <;> rfl]
@[simp] theorem advance_rrLast (n : Nat) (s : State) : (advance n s).rrLast = s.rrLast := by unfold advance; split <;> [rfl; split <;> rfl]
@[simp] theorem advance_passOn (n : Nat) (s : State) : (advance n s).passOn = s.passOn := by unfold advance; split <;> [rfl; split <;> rfl]
@[simp] theorem advance_gridCount (n : Nat) (s : State) : (advance n s).gridCount = s.gridCount := by unfold advance; split <;> [rfl; split <;> rfl]
@[simp] theorem advance_blockCount (n : Nat) (s : State) : (advance n s).blockCount = s.blockCount := by unfold advance; split <;> [rfl; split <;> rfl]
@[simp] theorem advance_postCount (n : Nat) (s : State) : (advance n s).postCount = s.postCount := by unfold advance; split <;> [rfl; split <;> rfl]
@[simp] theorem advance_packetCount (n : Nat) (s : State) : (advance n s).packetCount = s.packetCount := by unfold advance; split <;> [rfl; split <;> rfl]
@[simp] theorem advance_epoch (n : Nat) (s : State) : (advance n s).epoch = s.epoch := by unfold advance; split <;> [rfl; split <;> rfl]
@[simp] theorem advance_agenda (n : Nat) (s : State) : (advance n s).agenda = s.agenda := by unfold advance; split <;> [rfl; split <;> rfl]
@[simp] theorem advance_free (n : Nat) (s : State) : (advance n s).free = s.free := by unfold advance; split <;> [rfl; split <;> rfl]
@[simp] theorem advance_st_grid (n : Nat) (s : State) : (advance n s).st.grid = s.st.grid := by unfold advance; split <;> [rfl; split <;> rfl]
@[simp] theorem advance_st_block (n : Nat) (s : State) : (advance n s).st.block = s.st.block := by unfold advance; split <;> [rfl; split <;> rfl]
@[simp] theorem advance_st_idx (n : Nat) (s : State) : (advance n s).st.idx = s.st.idx := by unfold advance; split <;> [rfl; split <;> rfl]
@[simp] theorem advance_st_slot (n : Nat) (s : State) : (advance n s).st.slot = s.st.slot := by unfold advance; split <;> [rfl; split <;> rfl]
@[simp] theorem advance_st_present (n : Nat) (s : State) : (advance n s).st.present = s.st.present := by unfold advance; split <;> [rfl; split <;> rfl]
@[simp] theorem advance_st_v (n : Nat) (s : State) : (advance n s).st.v = s.st.v := by unfold advance; split <;> [rfl; split <;> rfl]
@[simp] theorem advance_st_s (n : Nat) (s : State) : (advance n s).st.s = s.st.s := by unfold advance; split <;> [rfl; split <;> rfl]
@[simp] theorem advance_st_m (n : Nat) (s : State) : (advance n s).st.m = s.st.m := by unfold advance; split <;> [rfl; split <;> rfl]
@[simp] theorem advance_st_k (n : Nat) (s : State) : (advance n s).st.k = s.st.k := by unfold advance; split <;> [rfl; split <;> rfl]
@[simp] theorem advance_st_trapvec (n : Nat) (s : State) : (advance n s).st.trapvec = s.st.trapvec := by unfold advance; split <;> [rfl; split <;> rfl]
@[simp] theorem advance_st_trapret (n : Nat) (s : State) : (advance n s).st.trapret = s.st.trapret := by unfold advance; split <;> [rfl; split <;> rfl]
@[simp] theorem advance_st_trapcause (n : Nat) (s : State) : (advance n s).st.trapcause = s.st.trapcause := by unfold advance; split <;> [rfl; split <;> rfl]
@[simp] theorem advance_st_trapmask (n : Nat) (s : State) : (advance n s).st.trapmask = s.st.trapmask := by unfold advance; split <;> [rfl; split <;> rfl]
@[simp] theorem advance_st_cqsel (n : Nat) (s : State) : (advance n s).st.cqsel = s.st.cqsel := by unfold advance; split <;> [rfl; split <;> rfl]
@[simp] theorem advance_st_resumes (n : Nat) (s : State) : (advance n s).st.resumes = s.st.resumes := by unfold advance; split <;> [rfl; split <;> rfl]
@[simp] theorem advance_st_marks (n : Nat) (s : State) : (advance n s).st.marks = s.st.marks := by unfold advance; split <;> [rfl; split <;> rfl]
@[simp] theorem advance_st_owed (n : Nat) (s : State) : (advance n s).st.owed = s.st.owed := by unfold advance; split <;> [rfl; split <;> rfl]
@[simp] theorem advance_st_ops (n : Nat) (s : State) : (advance n s).st.ops = s.st.ops := by unfold advance; split <;> [rfl; split <;> rfl]
@[simp] theorem advance_st_serial (n : Nat) (s : State) : (advance n s).st.serial = s.st.serial := by unfold advance; split <;> [rfl; split <;> rfl]
@[simp] theorem advance_st_behind (n : Nat) (s : State) : (advance n s).st.behind = s.st.behind := by unfold advance; split <;> [rfl; split <;> rfl]
@[simp] theorem advance_st_rfErr (n : Nat) (s : State) : (advance n s).st.rfErr = s.st.rfErr := by unfold advance; split <;> [rfl; split <;> rfl]
@[simp] theorem advance_st_poisonTags (n : Nat) (s : State) : (advance n s).st.poisonTags = s.st.poisonTags := by unfold advance; split <;> [rfl; split <;> rfl]

/-! ### putPlaces -/

@[simp] theorem putPlaces_grd (key : Nat) (outside : Bool) (l : List (Nat × Byte)) (s : State) : (putPlaces key outside l s).grd = s.grd := rfl
@[simp] theorem putPlaces_wld (key : Nat) (outside : Bool) (l : List (Nat × Byte)) (s : State) : (putPlaces key outside l s).wld = s.wld := rfl
@[simp] theorem putPlaces_grids (key : Nat) (outside : Bool) (l : List (Nat × Byte)) (s : State) : (putPlaces key outside l s).grids = s.grids := rfl
@[simp] theorem putPlaces_worlds (key : Nat) (outside : Bool) (l : List (Nat × Byte)) (s : State) : (putPlaces key outside l s).worlds = s.worlds := rfl
@[simp] theorem putPlaces_reserves (key : Nat) (outside : Bool) (l : List (Nat × Byte)) (s : State) : (putPlaces key outside l s).reserves = s.reserves := rfl
@[simp] theorem putPlaces_anonRoot (key : Nat) (outside : Bool) (l : List (Nat × Byte)) (s : State) : (putPlaces key outside l s).anonRoot = s.anonRoot := rfl
@[simp] theorem putPlaces_anonRoot2 (key : Nat) (outside : Bool) (l : List (Nat × Byte)) (s : State) : (putPlaces key outside l s).anonRoot2 = s.anonRoot2 := rfl
@[simp] theorem putPlaces_memTags (key : Nat) (outside : Bool) (l : List (Nat × Byte)) (s : State) : (putPlaces key outside l s).memTags = s.memTags := rfl
@[simp] theorem putPlaces_l1 (key : Nat) (outside : Bool) (l : List (Nat × Byte)) (s : State) : (putPlaces key outside l s).l1 = s.l1 := rfl
@[simp] theorem putPlaces_qnt (key : Nat) (outside : Bool) (l : List (Nat × Byte)) (s : State) : (putPlaces key outside l s).qnt = s.qnt := rfl
@[simp] theorem putPlaces_tlb (key : Nat) (outside : Bool) (l : List (Nat × Byte)) (s : State) : (putPlaces key outside l s).tlb = s.tlb := rfl
@[simp] theorem putPlaces_inter (key : Nat) (outside : Bool) (l : List (Nat × Byte)) (s : State) : (putPlaces key outside l s).inter = s.inter := rfl
@[simp] theorem putPlaces_mixed (key : Nat) (outside : Bool) (l : List (Nat × Byte)) (s : State) : (putPlaces key outside l s).mixed = s.mixed := rfl
@[simp] theorem putPlaces_slots (key : Nat) (outside : Bool) (l : List (Nat × Byte)) (s : State) : (putPlaces key outside l s).slots = s.slots := rfl
@[simp] theorem putPlaces_queues (key : Nat) (outside : Bool) (l : List (Nat × Byte)) (s : State) : (putPlaces key outside l s).queues = s.queues := rfl
@[simp] theorem putPlaces_readyPool (key : Nat) (outside : Bool) (l : List (Nat × Byte)) (s : State) : (putPlaces key outside l s).readyPool = s.readyPool := rfl
@[simp] theorem putPlaces_readyWait (key : Nat) (outside : Bool) (l : List (Nat × Byte)) (s : State) : (putPlaces key outside l s).readyWait = s.readyWait := rfl
@[simp] theorem putPlaces_watches (key : Nat) (outside : Bool) (l : List (Nat × Byte)) (s : State) : (putPlaces key outside l s).watches = s.watches := rfl
@[simp] theorem putPlaces_origins (key : Nat) (outside : Bool) (l : List (Nat × Byte)) (s : State) : (putPlaces key outside l s).origins = s.origins := rfl
@[simp] theorem putPlaces_registered (key : Nat) (outside : Bool) (l : List (Nat × Byte)) (s : State) : (putPlaces key outside l s).registered = s.registered := rfl
@[simp] theorem putPlaces_kept (key : Nat) (outside : Bool) (l : List (Nat × Byte)) (s : State) : (putPlaces key outside l s).kept = s.kept := rfl
@[simp] theorem putPlaces_slice (key : Nat) (outside : Bool) (l : List (Nat × Byte)) (s : State) : (putPlaces key outside l s).slice = s.slice := rfl
@[simp] theorem putPlaces_ms (key : Nat) (outside : Bool) (l : List (Nat × Byte)) (s : State) : (putPlaces key outside l s).ms = s.ms := rfl
@[simp] theorem putPlaces_leaseMs (key : Nat) (outside : Bool) (l : List (Nat × Byte)) (s : State) : (putPlaces key outside l s).leaseMs = s.leaseMs := rfl
@[simp] theorem putPlaces_lapseMs (key : Nat) (outside : Bool) (l : List (Nat × Byte)) (s : State) : (putPlaces key outside l s).lapseMs = s.lapseMs := rfl
@[simp] theorem putPlaces_handed (key : Nat) (outside : Bool) (l : List (Nat × Byte)) (s : State) : (putPlaces key outside l s).handed = s.handed := rfl
@[simp] theorem putPlaces_packets (key : Nat) (outside : Bool) (l : List (Nat × Byte)) (s : State) : (putPlaces key outside l s).packets = s.packets := rfl
@[simp] theorem putPlaces_posts (key : Nat) (outside : Bool) (l : List (Nat × Byte)) (s : State) : (putPlaces key outside l s).posts = s.posts := rfl
@[simp] theorem putPlaces_turns (key : Nat) (outside : Bool) (l : List (Nat × Byte)) (s : State) : (putPlaces key outside l s).turns = s.turns := rfl
@[simp] theorem putPlaces_posted (key : Nat) (outside : Bool) (l : List (Nat × Byte)) (s : State) : (putPlaces key outside l s).posted = s.posted := rfl
@[simp] theorem putPlaces_placed (key : Nat) (outside : Bool) (l : List (Nat × Byte)) (s : State) : (putPlaces key outside l s).placed = s.placed := rfl
@[simp] theorem putPlaces_anon (key : Nat) (outside : Bool) (l : List (Nat × Byte)) (s : State) : (putPlaces key outside l s).anon = s.anon := rfl
@[simp] theorem putPlaces_failing (key : Nat) (outside : Bool) (l : List (Nat × Byte)) (s : State) : (putPlaces key outside l s).failing = s.failing := rfl
@[simp] theorem putPlaces_clocks (key : Nat) (outside : Bool) (l : List (Nat × Byte)) (s : State) : (putPlaces key outside l s).clocks = s.clocks := rfl
@[simp] theorem putPlaces_gated (key : Nat) (outside : Bool) (l : List (Nat × Byte)) (s : State) : (putPlaces key outside l s).gated = s.gated := rfl
@[simp] theorem putPlaces_refNs (key : Nat) (outside : Bool) (l : List (Nat × Byte)) (s : State) : (putPlaces key outside l s).refNs = s.refNs := rfl
@[simp] theorem putPlaces_portA (key : Nat) (outside : Bool) (l : List (Nat × Byte)) (s : State) : (putPlaces key outside l s).portA = s.portA := rfl
@[simp] theorem putPlaces_portB (key : Nat) (outside : Bool) (l : List (Nat × Byte)) (s : State) : (putPlaces key outside l s).portB = s.portB := rfl
@[simp] theorem putPlaces_leaseEpoch (key : Nat) (outside : Bool) (l : List (Nat × Byte)) (s : State) : (putPlaces key outside l s).leaseEpoch = s.leaseEpoch := rfl
@[simp] theorem putPlaces_accepted (key : Nat) (outside : Bool) (l : List (Nat × Byte)) (s : State) : (putPlaces key outside l s).accepted = s.accepted := rfl
@[simp] theorem putPlaces_locked (key : Nat) (outside : Bool) (l : List (Nat × Byte)) (s : State) : (putPlaces key outside l s).locked = s.locked := rfl
@[simp] theorem putPlaces_peri (key : Nat) (outside : Bool) (l : List (Nat × Byte)) (s : State) : (putPlaces key outside l s).peri = s.peri := rfl
@[simp] theorem putPlaces_links (key : Nat) (outside : Bool) (l : List (Nat × Byte)) (s : State) : (putPlaces key outside l s).links = s.links := rfl
@[simp] theorem putPlaces_scrub (key : Nat) (outside : Bool) (l : List (Nat × Byte)) (s : State) : (putPlaces key outside l s).scrub = s.scrub := rfl
@[simp] theorem putPlaces_scrubOn (key : Nat) (outside : Bool) (l : List (Nat × Byte)) (s : State) : (putPlaces key outside l s).scrubOn = s.scrubOn := rfl
@[simp] theorem putPlaces_measured (key : Nat) (outside : Bool) (l : List (Nat × Byte)) (s : State) : (putPlaces key outside l s).measured = s.measured := rfl
@[simp] theorem putPlaces_fused (key : Nat) (outside : Bool) (l : List (Nat × Byte)) (s : State) : (putPlaces key outside l s).fused = s.fused := rfl
@[simp] theorem putPlaces_versions (key : Nat) (outside : Bool) (l : List (Nat × Byte)) (s : State) : (putPlaces key outside l s).versions = s.versions := rfl
@[simp] theorem putPlaces_kem (key : Nat) (outside : Bool) (l : List (Nat × Byte)) (s : State) : (putPlaces key outside l s).kem = s.kem := rfl
@[simp] theorem putPlaces_stage (key : Nat) (outside : Bool) (l : List (Nat × Byte)) (s : State) : (putPlaces key outside l s).stage = s.stage := rfl
@[simp] theorem putPlaces_offline (key : Nat) (outside : Bool) (l : List (Nat × Byte)) (s : State) : (putPlaces key outside l s).offline = s.offline := rfl
@[simp] theorem putPlaces_badStacks (key : Nat) (outside : Bool) (l : List (Nat × Byte)) (s : State) : (putPlaces key outside l s).badStacks = s.badStacks := rfl
@[simp] theorem putPlaces_halted (key : Nat) (outside : Bool) (l : List (Nat × Byte)) (s : State) : (putPlaces key outside l s).halted = s.halted := rfl
@[simp] theorem putPlaces_counts (key : Nat) (outside : Bool) (l : List (Nat × Byte)) (s : State) : (putPlaces key outside l s).counts = s.counts := rfl
@[simp] theorem putPlaces_notices (key : Nat) (outside : Bool) (l : List (Nat × Byte)) (s : State) : (putPlaces key outside l s).notices = s.notices := rfl
@[simp] theorem putPlaces_pendingRecords (key : Nat) (outside : Bool) (l : List (Nat × Byte)) (s : State) : (putPlaces key outside l s).pendingRecords = s.pendingRecords := rfl
@[simp] theorem putPlaces_recordCount (key : Nat) (outside : Bool) (l : List (Nat × Byte)) (s : State) : (putPlaces key outside l s).recordCount = s.recordCount := rfl
@[simp] theorem putPlaces_orrery (key : Nat) (outside : Bool) (l : List (Nat × Byte)) (s : State) : (putPlaces key outside l s).orrery = s.orrery := rfl
@[simp] theorem putPlaces_rrLast (key : Nat) (outside : Bool) (l : List (Nat × Byte)) (s : State) : (putPlaces key outside l s).rrLast = s.rrLast := rfl
@[simp] theorem putPlaces_passOn (key : Nat) (outside : Bool) (l : List (Nat × Byte)) (s : State) : (putPlaces key outside l s).passOn = s.passOn := rfl
@[simp] theorem putPlaces_gridCount (key : Nat) (outside : Bool) (l : List (Nat × Byte)) (s : State) : (putPlaces key outside l s).gridCount = s.gridCount := rfl
@[simp] theorem putPlaces_blockCount (key : Nat) (outside : Bool) (l : List (Nat × Byte)) (s : State) : (putPlaces key outside l s).blockCount = s.blockCount := rfl
@[simp] theorem putPlaces_postCount (key : Nat) (outside : Bool) (l : List (Nat × Byte)) (s : State) : (putPlaces key outside l s).postCount = s.postCount := rfl
@[simp] theorem putPlaces_packetCount (key : Nat) (outside : Bool) (l : List (Nat × Byte)) (s : State) : (putPlaces key outside l s).packetCount = s.packetCount := rfl
@[simp] theorem putPlaces_epoch (key : Nat) (outside : Bool) (l : List (Nat × Byte)) (s : State) : (putPlaces key outside l s).epoch = s.epoch := rfl
@[simp] theorem putPlaces_agenda (key : Nat) (outside : Bool) (l : List (Nat × Byte)) (s : State) : (putPlaces key outside l s).agenda = s.agenda := rfl
@[simp] theorem putPlaces_free (key : Nat) (outside : Bool) (l : List (Nat × Byte)) (s : State) : (putPlaces key outside l s).free = s.free := rfl

/-! ### countDropped -/

@[simp] theorem countDropped_mem (l : List Nat) (s : State) : (countDropped l s).mem = s.mem := rfl
@[simp] theorem countDropped_agenda (l : List Nat) (s : State) : (countDropped l s).agenda = s.agenda := rfl
@[simp] theorem countDropped_free (l : List Nat) (s : State) : (countDropped l s).free = s.free := rfl
@[simp] theorem countDropped_halted (l : List Nat) (s : State) : (countDropped l s).halted = s.halted := rfl
@[simp] theorem countDropped_accepted (l : List Nat) (s : State) : (countDropped l s).accepted = s.accepted := rfl
@[simp] theorem countDropped_locked (l : List Nat) (s : State) : (countDropped l s).locked = s.locked := rfl
@[simp] theorem countDropped_st (l : List Nat) (s : State) : (countDropped l s).st = s.st := rfl
@[simp] theorem countDropped_blk (l : List Nat) (s : State) : (countDropped l s).blk = s.blk := rfl
@[simp] theorem countDropped_grd (l : List Nat) (s : State) : (countDropped l s).grd = s.grd := rfl
@[simp] theorem countDropped_wld (l : List Nat) (s : State) : (countDropped l s).wld = s.wld := rfl

/-! ### countFault -/

@[simp] theorem countFault_mem (q : Nat) (s : State) : (countFault q s).mem = s.mem := rfl
@[simp] theorem countFault_agenda (q : Nat) (s : State) : (countFault q s).agenda = s.agenda := rfl
@[simp] theorem countFault_free (q : Nat) (s : State) : (countFault q s).free = s.free := rfl
@[simp] theorem countFault_halted (q : Nat) (s : State) : (countFault q s).halted = s.halted := rfl
@[simp] theorem countFault_accepted (q : Nat) (s : State) : (countFault q s).accepted = s.accepted := rfl
@[simp] theorem countFault_locked (q : Nat) (s : State) : (countFault q s).locked = s.locked := rfl
@[simp] theorem countFault_st (q : Nat) (s : State) : (countFault q s).st = s.st := rfl
@[simp] theorem countFault_blk (q : Nat) (s : State) : (countFault q s).blk = s.blk := rfl
@[simp] theorem countFault_grd (q : Nat) (s : State) : (countFault q s).grd = s.grd := rfl
@[simp] theorem countFault_wld (q : Nat) (s : State) : (countFault q s).wld = s.wld := rfl

/-! ### stopStrands -/

@[simp] theorem stopStrands_mem (g : Nat) (s : State) : (stopStrands g s).mem = s.mem := rfl
@[simp] theorem stopStrands_agenda (g : Nat) (s : State) : (stopStrands g s).agenda = s.agenda := rfl
@[simp] theorem stopStrands_free (g : Nat) (s : State) : (stopStrands g s).free = s.free := rfl
@[simp] theorem stopStrands_halted (g : Nat) (s : State) : (stopStrands g s).halted = s.halted := rfl
@[simp] theorem stopStrands_accepted (g : Nat) (s : State) : (stopStrands g s).accepted = s.accepted := rfl
@[simp] theorem stopStrands_locked (g : Nat) (s : State) : (stopStrands g s).locked = s.locked := rfl
@[simp] theorem stopStrands_grd (g : Nat) (s : State) : (stopStrands g s).grd = s.grd := rfl
@[simp] theorem stopStrands_wld (g : Nat) (s : State) : (stopStrands g s).wld = s.wld := rfl

/-! ### State.mapStrands -/

@[simp] theorem State.mapStrands_mem (f : Strand → Strand) (s : State) : (s.mapStrands f).mem = s.mem := rfl
@[simp] theorem State.mapStrands_agenda (f : Strand → Strand) (s : State) : (s.mapStrands f).agenda = s.agenda := rfl
@[simp] theorem State.mapStrands_free (f : Strand → Strand) (s : State) : (s.mapStrands f).free = s.free := rfl
@[simp] theorem State.mapStrands_halted (f : Strand → Strand) (s : State) : (s.mapStrands f).halted = s.halted := rfl
@[simp] theorem State.mapStrands_accepted (f : Strand → Strand) (s : State) : (s.mapStrands f).accepted = s.accepted := rfl
@[simp] theorem State.mapStrands_locked (f : Strand → Strand) (s : State) : (s.mapStrands f).locked = s.locked := rfl
@[simp] theorem State.mapStrands_grd (f : Strand → Strand) (s : State) : (s.mapStrands f).grd = s.grd := rfl
@[simp] theorem State.mapStrands_wld (f : Strand → Strand) (s : State) : (s.mapStrands f).wld = s.wld := rfl

/-! ### State.mapGrids -/

@[simp] theorem State.mapGrids_mem (f : Grid → Grid) (s : State) : (s.mapGrids f).mem = s.mem := rfl
@[simp] theorem State.mapGrids_agenda (f : Grid → Grid) (s : State) : (s.mapGrids f).agenda = s.agenda := rfl
@[simp] theorem State.mapGrids_free (f : Grid → Grid) (s : State) : (s.mapGrids f).free = s.free := rfl
@[simp] theorem State.mapGrids_halted (f : Grid → Grid) (s : State) : (s.mapGrids f).halted = s.halted := rfl
@[simp] theorem State.mapGrids_accepted (f : Grid → Grid) (s : State) : (s.mapGrids f).accepted = s.accepted := rfl
@[simp] theorem State.mapGrids_locked (f : Grid → Grid) (s : State) : (s.mapGrids f).locked = s.locked := rfl
@[simp] theorem State.mapGrids_st (f : Grid → Grid) (s : State) : (s.mapGrids f).st = s.st := rfl
@[simp] theorem State.mapGrids_blk (f : Grid → Grid) (s : State) : (s.mapGrids f).blk = s.blk := rfl
@[simp] theorem State.mapGrids_wld (f : Grid → Grid) (s : State) : (s.mapGrids f).wld = s.wld := rfl

/-! ### State.mapWorlds -/

@[simp] theorem State.mapWorlds_mem (f : World → World) (s : State) : (s.mapWorlds f).mem = s.mem := rfl
@[simp] theorem State.mapWorlds_agenda (f : World → World) (s : State) : (s.mapWorlds f).agenda = s.agenda := rfl
@[simp] theorem State.mapWorlds_free (f : World → World) (s : State) : (s.mapWorlds f).free = s.free := rfl
@[simp] theorem State.mapWorlds_halted (f : World → World) (s : State) : (s.mapWorlds f).halted = s.halted := rfl
@[simp] theorem State.mapWorlds_accepted (f : World → World) (s : State) : (s.mapWorlds f).accepted = s.accepted := rfl
@[simp] theorem State.mapWorlds_locked (f : World → World) (s : State) : (s.mapWorlds f).locked = s.locked := rfl
@[simp] theorem State.mapWorlds_st (f : World → World) (s : State) : (s.mapWorlds f).st = s.st := rfl
@[simp] theorem State.mapWorlds_blk (f : World → World) (s : State) : (s.mapWorlds f).blk = s.blk := rfl
@[simp] theorem State.mapWorlds_grd (f : World → World) (s : State) : (s.mapWorlds f).grd = s.grd := rfl

/-! ### poke -/

@[simp] theorem poke_mem (p : Strand → Wait → Bool) (s : State) : (poke p s).mem = s.mem := rfl
@[simp] theorem poke_agenda (p : Strand → Wait → Bool) (s : State) : (poke p s).agenda = s.agenda := rfl
@[simp] theorem poke_free (p : Strand → Wait → Bool) (s : State) : (poke p s).free = s.free := rfl
@[simp] theorem poke_halted (p : Strand → Wait → Bool) (s : State) : (poke p s).halted = s.halted := rfl
@[simp] theorem poke_accepted (p : Strand → Wait → Bool) (s : State) : (poke p s).accepted = s.accepted := rfl
@[simp] theorem poke_locked (p : Strand → Wait → Bool) (s : State) : (poke p s).locked = s.locked := rfl
@[simp] theorem poke_grd (p : Strand → Wait → Bool) (s : State) : (poke p s).grd = s.grd := rfl
@[simp] theorem poke_wld (p : Strand → Wait → Bool) (s : State) : (poke p s).wld = s.wld := rfl

end Sys2Proof.Machine
end

