-- ==== Sys2Proof/Laws/Checks.lean ====
section
/-! SUPPORT. What the checks of an access can do to the state and to the world (R202, R220, R229): they note translations, take
pages from pools, zero them and back slots, and touch nothing else. -/

namespace Sys2Proof.Machine

/-- Beside caches of translations, slots and the pages that a first touch zeroes, with what goes with their
bytes, nothing differs. -/
def OnlyChecked (s t : State) : Prop :=
  t = { s with
    tlb := t.tlb, inter := t.inter, mixed := t.mixed, slots := t.slots, mem := t.mem, poison := t.poison
    lineKeys := t.lineKeys, memTags := t.memTags, l1 := t.l1, dups := t.dups }
  ∧ (Memory.wf s.mem = true → Memory.wf t.mem = true)

theorem OnlyChecked.refl (s : State) : OnlyChecked s s := ⟨rfl, id⟩

theorem OnlyChecked.trans {s t u : State} (h : OnlyChecked s t) (k : OnlyChecked t u) : OnlyChecked s u := by
  refine ⟨?_, fun w => k.2 (h.2 w)⟩
  rw [k.1, h.1]

theorem noteTranslation_only (s : State) (w : World) (places : List TlbPlace) (va : Nat) (leaf : BitVec 128) (pa : Nat)
    (staged : Bool) (shift shift1 : Nat) : OnlyChecked s (noteTranslation s w places va leaf pa staged shift shift1) := by
  simp only [noteTranslation]
  split
  · exact ⟨rfl, id⟩
  · split
    · exact ⟨rfl, id⟩
    · split <;> exact ⟨rfl, id⟩

theorem zeroPage_only (s : State) (a n : Nat) : OnlyChecked s (zeroPage s a n) :=
  ⟨rfl, Memory.wf_clear s.mem a n⟩

theorem setSlotRec_only (s : State) (r : SlotRec) : OnlyChecked s (setSlotRec s r) := ⟨rfl, id⟩

/-- A pool gives a page, and the world keeps everything else. -/
theorem takePage_world {w x : World} {die pa : Nat} {big : Bool} (h : takePage w die big = some (pa, x)) :
    x = { w with pools := x.pools } := by
  simp only [takePage] at h
  split at h
  · cases h; rfl
  · cases h

theorem checkArena_only {s t : State} {w x : World} {die n : Nat} {k : Access} {draw : Bool} {p : DWord} {part : PagePart}
    (h : checkArena s w die k draw p n = .ok part t x) : OnlyChecked s t ∧ x = { w with pools := x.pools } := by
  simp only [checkArena] at h
  split at h
  · cases h
  split at h
  · cases h
  split at h
  · cases h
  split at h
  · cases h
  split at h
  · cases h; exact ⟨.refl _, rfl⟩
  split at h
  · split at h
    · cases h
    · next e =>
      cases h
      exact ⟨(zeroPage_only _ _ _).trans (setSlotRec_only _ _), takePage_world e⟩
  · cases h

theorem checkPlain_only {s t : State} {w x : World} {party : Party} {die size n : Nat} {k : Access} {p : DWord} {part : PagePart}
    (h : checkPlain s w party die k size p n = .ok part t x) : OnlyChecked s t ∧ x = { w with pools := x.pools } := by
  simp only [checkPlain] at h
  (repeat' split at h) <;> first | (cases h; done) | (cases h; exact ⟨noteTranslation_only _ _ _ _ _ _ _ _ _, rfl⟩)

theorem checkPart_only {s t : State} {w x : World} {party : Party} {die size n : Nat} {k : Access} {draw : Bool} {p : DWord}
    {part : PagePart} (h : checkPart s w party die k draw size p n = .ok part t x) :
    OnlyChecked s t ∧ x = { w with pools := x.pools } := by
  simp only [checkPart] at h
  split at h
  · exact checkPlain_only h
  · exact checkArena_only h

theorem checkParts_only {party : Party} {die size : Nat} {k : Access} {draw : Bool} :
    ∀ (l : List (Nat × DWord × Nat)) {s t : State} {w x : World} {parts : List (Nat × DWord × PagePart)},
      checkParts party die k draw size l s w = .ok parts t x → OnlyChecked s t ∧ x = { w with pools := x.pools }
  | [], s, t, w, x, parts, h => by
    simp only [checkParts] at h
    cases h
    exact ⟨.refl _, rfl⟩
  | (off, p, n) :: l, s, t, w, x, parts, h => by
    simp only [checkParts] at h
    split at h
    · cases h
    · next e =>
      split at h
      · cases h
      · next f =>
        cases h
        have a := checkPart_only e
        have b := checkParts_only l f
        exact ⟨a.1.trans b.1, by rw [b.2, a.2]⟩

/-- What a passed access check leaves as it was. -/
theorem checkAccess_only {s t : State} {w x : World} {party : Party} {die n : Nat} {k : Access} {draw : Bool} {p : DWord}
    {parts : List (Nat × DWord × PagePart)} (h : checkAccess s w party die k draw p n = .ok parts t x) :
    OnlyChecked s t ∧ x = { w with pools := x.pools } := checkParts_only _ h

end Sys2Proof.Machine
end

