-- ==== Sys2Proof/Laws/Frames.lean ====
section
/-! SUPPORT. What the shared operations on memory, waits and arenas can do to the state: a wake changes a waiting strand's status
and nothing else; a write changes its places and what goes with them; the end of a slot gives its pages back. -/

namespace Sys2Proof.Machine

/-! ### Waking strands -/

/-- A strand that is as it was, or that waited and is ready. -/
def Woken (a b : Strand) : Prop :=
  b = { a with status := b.status } ∧ (b.status = a.status ∨ ∃ w, a.status = .waiting w ∧ b.status = .ready)

theorem Woken.refl (a : Strand) : Woken a a := ⟨rfl, .inl rfl⟩

theorem Woken.trans {a b c : Strand} (h : Woken a b) (k : Woken b c) : Woken a c := by
  refine ⟨by rw [k.1, h.1], ?_⟩
  match k.2, h.2 with
  | .inl stays, first => rwa [stays]
  | .inr ⟨w, waits, ready⟩, .inl stays => exact .inr ⟨w, stays ▸ waits, ready⟩
  | .inr ⟨w, waits, _⟩, .inr ⟨_, _, was⟩ => exact absurd (was.symm.trans waits) nofun

theorem Woken.ref {a b : Strand} (h : Woken a b) : b.ref = a.ref := by rw [h.1]; rfl

theorem Woken.gone {a b : Strand} (h : Woken a b) : b.gone = a.gone := by
  rcases h.2 with e | ⟨w, e, f⟩
  · simp [Strand.gone, e]
  · simp [Strand.gone, e, f]

theorem Woken.here {a b : Strand} (h : Woken a b) : b.here = a.here := by
  rcases h.2 with e | ⟨w, e, f⟩
  · simp [Strand.here, e]
  · simp [Strand.here, e, f]

/-- Two lists whose elements stand in a relation, one by one. -/
def Pairs {α : Type} (r : α → α → Prop) : List α → List α → Prop
  | [], [] => True
  | a :: l, b :: m => r a b ∧ Pairs r l m
  | _, _ => False

theorem Pairs.refl {α : Type} {r : α → α → Prop} (h : ∀ a, r a a) : ∀ l, Pairs r l l
  | [] => trivial
  | a :: t => ⟨h a, Pairs.refl h t⟩

theorem Pairs.trans {α : Type} {r : α → α → Prop} (h : ∀ a b c, r a b → r b c → r a c) :
    ∀ {l m n : List α}, Pairs r l m → Pairs r m n → Pairs r l n
  | [], [], [], _, _ => trivial
  | _ :: _, _ :: _, _ :: _, x, y => ⟨h _ _ _ x.1 y.1, Pairs.trans h x.2 y.2⟩

theorem Pairs.map {α : Type} {r : α → α → Prop} {f : α → α} (h : ∀ a, r a (f a)) : ∀ l, Pairs r l (l.map f)
  | [] => trivial
  | a :: t => ⟨h a, Pairs.map h t⟩

theorem Pairs.mem {α : Type} {r : α → α → Prop} : ∀ {l m : List α}, Pairs r l m → ∀ b ∈ m, ∃ a ∈ l, r a b
  | [], [], _, _, h => nomatch h
  | a :: l, b :: m, p, c, h => by
    rcases List.mem_cons.1 h with e | e
    · exact ⟨a, List.mem_cons_self, e ▸ p.1⟩
    · obtain ⟨x, hx, hr⟩ := Pairs.mem p.2 c e
      exact ⟨x, List.mem_cons_of_mem _ hx, hr⟩

/-- A block some of whose strands have been woken. -/
def BlockWoken (b c : Block) : Prop := c = { b with strands := c.strands } ∧ Pairs Woken b.strands c.strands

theorem BlockWoken.refl (b : Block) : BlockWoken b b := ⟨rfl, Pairs.refl Woken.refl _⟩

theorem BlockWoken.trans {a b c : Block} (h : BlockWoken a b) (k : BlockWoken b c) : BlockWoken a c :=
  ⟨by rw [k.1, h.1], Pairs.trans (r := Woken) (fun _ _ _ => Woken.trans) h.2 k.2⟩

/-- The strands of t are those of s, some of them woken. -/
def StrandsWoken (s t : State) : Prop := Woken s.st t.st ∧ BlockWoken s.blk t.blk ∧ Pairs BlockWoken s.blocks t.blocks

theorem StrandsWoken.trans {s t u : State} (h : StrandsWoken s t) (k : StrandsWoken t u) : StrandsWoken s u := by
  obtain ⟨focus, block, others⟩ := h
  exact ⟨focus.trans k.1, block.trans k.2.1, Pairs.trans (r := BlockWoken) (fun _ _ _ => BlockWoken.trans) others k.2.2⟩

/-- Nothing differs but that some strands have been woken. -/
def Wakes (s t : State) : Prop := t = { s with st := t.st, blk := t.blk, blocks := t.blocks } ∧ StrandsWoken s t

theorem Wakes.mem {s t : State} (h : Wakes s t) : t.mem = s.mem := by rw [h.1]

theorem Wakes.refl (s : State) : Wakes s s := ⟨rfl, .refl _, .refl _, Pairs.refl BlockWoken.refl _⟩

theorem Wakes.trans {s t u : State} (h : Wakes s t) (k : Wakes t u) : Wakes s u :=
  ⟨by rw [k.1, h.1], h.2.trans k.2⟩

/-- A frame of bytes stays a frame when a second write follows the first. -/
theorem SameBytes.append {p q : List Nat} {s t u : State} (h : SameBytes p s t) (k : SameBytes q t u) : SameBytes (p ++ q) s u := by
  intro a ha
  simp only [List.mem_append, not_or] at ha
  rw [k a ha.2, h a ha.1]

theorem SameBytes.mono {p q : List Nat} {s t : State} (h : SameBytes p s t) (hp : ∀ a ∈ p, a ∈ q) : SameBytes q s t :=
  fun a ha => h a (mt (hp a) ha)

/-- A change of every strand that only wakes some. -/
theorem mapStrands_wakes {f : Strand → Strand} (hf : ∀ t, Woken t (f t)) (s : State) : Wakes s (s.mapStrands f) := by
  refine ⟨rfl, ?_, ⟨rfl, Pairs.map hf _⟩, Pairs.map (fun b => ⟨rfl, Pairs.map hf _⟩) _⟩
  simp only [State.mapStrands]
  split
  · exact hf _
  · exact .refl _

theorem wakeLines_wakes (lines : List Nat) (s : State) : Wakes s (wakeLines lines s) := by
  refine mapStrands_wakes (fun t => ?_) s
  split
  · rename_i h
    split
    · exact ⟨rfl, .inr ⟨_, h, rfl⟩⟩
    · exact .refl t
  · exact .refl t

theorem poke_wakes (p : Strand → Wait → Bool) (s : State) : Wakes s (poke p s) := by
  refine mapStrands_wakes (fun t => ?_) s
  split
  · rename_i h
    split
    · exact ⟨rfl, .inr ⟨_, h, rfl⟩⟩
    · exact .refl t
  · exact .refl t

theorem pokeBlock_wakes (b : BlockRef) (s : State) : Wakes s (pokeBlock b s) := poke_wakes _ s
theorem pokeStrand_wakes (r : StrandRef) (s : State) : Wakes s (pokeStrand r s) := poke_wakes _ s

/-! ### Writing at places -/

/-- A write: memory at `places`, what goes with it (poison, the lines' key ids, the marks of outside writes and
of strands' ring writes, the holders' copies, the counts of dropped writes), and the strands that it wakes. -/
def Stored (places : List Nat) (s t : State) : Prop :=
  Wakes { s with
    mem := t.mem, poison := t.poison, lineKeys := t.lineKeys, hostSlots := t.hostSlots, ringWrites := t.ringWrites, dups := t.dups
    portA := { s.portA with dropped := t.portA.dropped }, portB := { s.portB with dropped := t.portB.dropped } } t
  ∧ (Memory.wf s.mem = true → Memory.wf t.mem = true ∧ SameBytes places s t)

theorem Stored.refl (places : List Nat) (s : State) : Stored places s s := ⟨Wakes.refl s, fun h => ⟨h, fun _ _ => rfl⟩⟩

theorem Stored.trans {p q : List Nat} {s t u : State} (h : Stored p s t) (k : Stored q t u) : Stored (p ++ q) s u := by
  obtain ⟨⟨same, woken⟩, bytes⟩ := h
  refine ⟨⟨by rw [k.1.1, same], StrandsWoken.trans (t := t) woken k.1.2⟩, fun wf => ?_⟩
  have later := k.2 (bytes wf).1
  exact ⟨later.1, (bytes wf).2.append later.2⟩

theorem Stored.mono {p q : List Nat} {s t : State} (h : Stored p s t) (hp : ∀ a ∈ p, a ∈ q) : Stored q s t :=
  ⟨h.1, fun wf => (h.2 wf).imp_right (·.mono hp)⟩

theorem wakes_stored {s t : State} (h : Wakes s t) : Stored [] s t := by
  refine ⟨⟨?_, h.2⟩, fun wf => ⟨h.mem ▸ wf, fun a _ => congrArg (Memory.read · a) h.mem⟩⟩
  rw [h.1]

theorem putPlaces_stored (key : Nat) (outside : Bool) (l : List (Nat × Byte)) (s : State) :
    Stored (l.map (·.1)) s (putPlaces key outside l s) := by
  have h := wakeLines_wakes (linesOf (l.map (·.1))) { s with
    mem := (putPlaces key outside l s).mem, poison := (putPlaces key outside l s).poison
    lineKeys := (putPlaces key outside l s).lineKeys, hostSlots := (putPlaces key outside l s).hostSlots
    ringWrites := (putPlaces key outside l s).ringWrites, dups := (putPlaces key outside l s).dups }
  have hm : (putPlaces key outside l s).mem = Memory.writeAt s.mem l := rfl
  refine ⟨⟨rfl, h.2⟩, fun w => ⟨?_, fun a ha => ?_⟩⟩
  · rw [hm]; exact Memory.wf_writeAt l _ w
  · rw [hm]; exact Memory.read_writeAt_other l _ a w ha

/-- The bytes that a write puts at places that are all different. -/
theorem putPlaces_read (key : Nat) (outside : Bool) {l : List (Nat × Byte)} {s : State} (hw : Memory.wf s.mem = true)
    (hn : (l.map (·.1)).Nodup) {a : Nat} {b : Byte} (h : (a, b) ∈ l) : Memory.read (putPlaces key outside l s).mem a = b :=
  Memory.read_writeAt_mem l _ a b hw hn h

theorem writePlaces_stored (key : Nat) (outside : Bool) (l : List (Nat × Byte)) (s : State) :
    Stored (l.map (·.1)) s (writePlaces key outside l s) := by
  simp only [writePlaces]
  split
  · exact putPlaces_stored key outside l s
  · have h := putPlaces_stored key outside (l.filter fun x => !s.hostGone x.1) (countDropped ((l.map (·.1)).filter s.hostGone) s)
    refine ⟨⟨h.1.1.trans ?_, h.1.2⟩, fun wf => (h.2 wf).imp_right (·.mono ?_)⟩
    · simp only [countDropped]
      split <;> split <;> rfl
    · exact fun a ha => List.map_subset _ (List.filter_subset_self _) ha

/-- Where no byte belongs to a host whose link is down, a write puts its bytes. -/
theorem writePlaces_read (key : Nat) {l : List (Nat × Byte)} {s : State} (hg : ∀ x ∈ l, s.hostGone x.1 = false)
    (hw : Memory.wf s.mem = true) (hn : (l.map (·.1)).Nodup) {a : Nat} {b : Byte} (h : (a, b) ∈ l) :
    Memory.read (writePlaces key false l s).mem a = b := by
  have he : ((l.map (·.1)).filter s.hostGone).isEmpty = true := by
    rw [List.isEmpty_iff, List.filter_eq_nil_iff]
    intro x hx
    obtain ⟨y, hy, e⟩ := List.mem_map.1 hx
    simp [← e, hg y hy]
  simp only [writePlaces, he, Bool.or_true, if_true]
  exact putPlaces_read key false hw hn h

/-! ### The end of a slot (R204) -/

/-- The end of slots on whose pages no atomic is deferred: pages are zeroed and go back to their pools, and
records of slots change. Nothing else differs. -/
def Freed (s t : State) : Prop :=
  t = { s with
    mem := t.mem, poison := t.poison, lineKeys := t.lineKeys, memTags := t.memTags, l1 := t.l1, dups := t.dups
    slots := t.slots, wld := t.wld, worlds := t.worlds }
  ∧ t.wld.key = s.wld.key ∧ t.worlds.map (·.key) = s.worlds.map (·.key)
  ∧ (Memory.wf s.mem = true → Memory.wf t.mem = true)

theorem Freed.refl (s : State) : Freed s s := ⟨rfl, rfl, rfl, id⟩

theorem Freed.trans {s t u : State} (h : Freed s t) (k : Freed t u) : Freed s u := by
  obtain ⟨same, key, keys, kept⟩ := h
  exact ⟨by rw [k.1, same], k.2.1.trans key, k.2.2.1.trans keys, k.2.2.2 ∘ kept⟩

theorem Freed.qnt {s t : State} (h : Freed s t) : t.qnt = s.qnt := by rw [h.1]

theorem setSlotRec_freed (s : State) (r : SlotRec) : Freed s (setSlotRec s r) := ⟨rfl, rfl, rfl, id⟩

theorem foldl_freed {α : Type} {f : State → α → State} {q : List QntAtom} (h : ∀ s x, s.qnt = q → Freed s (f s x)) :
    ∀ (l : List α) (s : State), s.qnt = q → Freed s (l.foldl f s)
  | [], s, _ => .refl s
  | x :: t, s, e => (h s x e).trans (foldl_freed h t (f s x) ((h s x e).qnt.trans e))

/-- No atomic is deferred on the pages of a slot. -/
def NoneDeferred (r : SlotRec) (q : List QntAtom) : Prop := ∀ x ∈ q, x.pas.any (inSlot r) = false

theorem flushQnt_none {r : SlotRec} {s : State} (h : NoneDeferred r s.qnt) : flushQnt r s = s := by
  have e : s.qnt.filter (fun q => q.pas.any (inSlot r)) = [] := by
    rw [List.filter_eq_nil_iff]
    intro x hx
    simp [h x hx]
  have k : s.qnt.filter (fun q => !q.pas.any (inSlot r)) = s.qnt := by
    rw [List.filter_eq_self]
    intro x hx
    simp [h x hx]
  simp only [flushQnt, applyDeferred, e, k]
  rfl

theorem setWorld_freed (s : State) {w : World} : Freed s (s.setWorld w) := by
  refine ⟨rfl, ?_, ?_, id⟩
  · simp only [State.setWorld, State.mapWorlds]
    split <;> [split; skip] <;> simp_all
  · simp only [State.setWorld, State.mapWorlds, List.map_map]
    refine List.map_congr_left fun x _ => ?_
    simp only [Function.comp]
    split <;> simp_all

theorem returnPage_freed (r : SlotRec) (p : Nat × Nat) (s : State) : Freed s (returnPage r p s) := by
  have h : Freed s (zeroPage s p.2 (slotPage r.id)) := ⟨rfl, rfl, rfl, Memory.wf_clear _ _ _⟩
  simp only [returnPage]
  split
  · exact h
  · exact h.trans (setWorld_freed _)

theorem leaveQuarantine_freed (s : State) : Freed s (leaveQuarantine s) := ⟨rfl, rfl, rfl, id⟩

theorem finishSlot_freed {r : SlotRec} {s : State} (hq : NoneDeferred r s.qnt) : Freed s (finishSlot r s) := by
  have h := foldl_freed (f := fun s p => returnPage r p s) (q := s.qnt) (fun s p _ => returnPage_freed r p s) r.pages s rfl
  simp only [finishSlot, flushQnt_none hq]
  split
  · exact h.trans ((setSlotRec_freed _ _).trans (leaveQuarantine_freed _))
  · exact h.trans (setSlotRec_freed _ _)

theorem dropSlots_freed {p : SlotRec → Bool} {s : State} (hq : ∀ r, NoneDeferred r s.qnt) : Freed s (dropSlots p s) := by
  refine foldl_freed (q := s.qnt) (fun s r e => ?_) _ s rfl
  split
  · exact setSlotRec_freed s _
  · exact finishSlot_freed (e ▸ hq r)

theorem Freed.grids {s t : State} (h : Freed s t) : t.grd = s.grd ∧ t.grids = s.grids := by
  rw [h.1]; exact ⟨rfl, rfl⟩

/-- The blocks that are resident stay. -/
theorem Freed.blocks {s t : State} (h : Freed s t) : t.blk = s.blk ∧ t.blocks = s.blocks := by
  rw [h.1]; exact ⟨rfl, rfl⟩

end Sys2Proof.Machine
end

