-- ==== Sys2Proof/Laws/Results.lean ====
section
/-! SUPPORT. What the shared operations that end an instruction can do, said once: going on in the clause, the latch,
and the results in scalar, vector and mask registers. -/

namespace Sys2Proof.Machine

/-! ### Going on -/

theorem endClause_clause (p : DWord) (y : Bool) (s : State) : (endClause p y s).st.clause = none := rfl

theorem endClause_pc (p : DWord) (y : Bool) (s : State) : (endClause p y s).st.pc = p := rfl

/-- Going on leaves everything but the strand's place. -/
theorem advance_onlyMoved (n : Nat) (s : State) : OnlyMoved s (advance n s) := by
  unfold OnlyMoved advance
  split
  · rfl
  · split
    · rfl
    · rfl

theorem pushLatch_onlyMoved (x : Latch) (s : State) : OnlyMoved s (pushLatch x s) := by
  unfold OnlyMoved pushLatch
  split <;> rfl

theorem OnlyMoved.trans {s t u : State} (h : OnlyMoved s t) (k : OnlyMoved t u) : OnlyMoved s u := by
  unfold OnlyMoved at *
  rw [k, h]
  simp [Strand.moved]

/-- Where the strand goes on behind an instruction of n words. -/
theorem advance_wentOn (n : Nat) {s u : State} (hp : u.st.pc = s.st.pc)
    (hc : u.st.clause.map (fun c => (c.header, c.cls, c.words)) = s.st.clause.map (fun c => (c.header, c.cls, c.words))) :
    WentOn n s (advance n u) := by
  intro c h hn
  rw [h] at hc
  obtain ⟨d, hd, he⟩ := Option.map_eq_some_iff.1 hc
  simp only [Prod.mk.injEq] at he
  obtain ⟨e1, e2, e3⟩ := he
  simp only [advance, hd, e3]
  cases hw : c.words.drop n with
  | nil =>
    have hl : c.words.length = n := by
      have := congrArg List.length hw
      simp at this
      omega
    simp [endClause, State.clauseEnd, hd, e3, hl, hp]
  | cons w ws => simp [hp, e1, e2]

theorem pushLatch_head (x : Latch) (s : State) : LatchIs x (pushLatch x s) := by
  intro c h
  unfold pushLatch at h
  split at h
  · rename_i hn; rw [hn] at h; cases h
  · simp at h; subst h; rfl

theorem advance_latch {x : Latch} {n : Nat} {s : State} (h : LatchIs x s) : LatchIs x (advance n s) := by
  intro c hc
  unfold advance at hc
  split at hc
  · rename_i hn; simp [hn] at hc
  · rename_i d hd
    split at hc
    · cases hc
    · simp at hc; subst hc; exact h d hd

/-- An instruction that pushes a latch and goes on. -/
theorem finish_spec (f : Form) (x : Latch) {s u : State} (hp : u.st.pc = s.st.pc) (hc : u.st.clause = s.st.clause) :
    ∃ t, finish f (pushLatch x u) = .next t ∧ WentOn (formSize f) s t ∧ LatchIs x t ∧ OnlyMoved u t := by
  refine ⟨_, rfl, advance_wentOn _ (by simp [hp]) ?_, advance_latch (pushLatch_head x u),
    (pushLatch_onlyMoved x u).trans (advance_onlyMoved _ _)⟩
  unfold pushLatch
  cases h : u.st.clause with
  | none => simp [← hc, h]
  | some c => simp [← hc, h]

theorem guarded_none {f : Form} {s : State} {k : State → Out} (h : errorsOf s f = none) : guarded f s k = k s := by
  simp [guarded, h]

/-! ### Scalar registers -/

@[simp] theorem Strand.sget_sset (t : Strand) (d r : Nat) (x : Word) :
    (t.sset d x).sget r = if r = d then x else t.sget r := by
  simp [Strand.sget, Strand.sset, nth_put]

/-- The two halves of a 64-bit value make it up again. -/
theorem dword_halves (x : DWord) : ((x >>> 32).setWidth 32 ++ x.setWidth 32 : BitVec (32 + 32)) = x := by
  apply BitVec.eq_of_getLsbD_eq
  intro i hi
  rw [BitVec.getLsbD_append]
  by_cases h : i < 32
  · simp [h]
  · have : 32 + (i - 32) = i := by omega
    have h2 : i - 32 < 32 := by omega
    simp [h, h2, this]

theorem Strand.sget64_sset64 (t : Strand) (d : Nat) (x : DWord) : (t.sset64 d x).sget64 d = x := by
  have h : ¬ d = d + 1 := by omega
  simp only [Strand.sget64, Strand.sset64, Strand.sget_sset, h, if_true, if_false]
  exact dword_halves x

theorem Strand.sset_marks (t : Strand) (d r : Nat) (x : Word) (h : r ≠ d) :
    (t.sset d x).marks.getLsbD r = t.marks.getLsbD r := by
  simp only [Strand.sset, BitVec.getLsbD_and, BitVec.getLsbD_not, BitVec.getLsbD_shiftLeft]
  by_cases hr : r < 64
  · have : ¬ (r < d) → r - d ≠ 0 := by omega
    by_cases h1 : r < d
    · simp [hr, h1]
    · have h2 : r - d ≠ 0 := by omega
      simp [hr, h1, h2]
  · have : 64 ≤ r := by omega
    simp [hr, BitVec.getLsbD_of_ge _ _ this]

theorem Strand.sset_only (d : Nat) (x : Word) (s : State) : OnlyScalars [d] s { s with st := s.st.sset d x } := by
  refine ⟨rfl, ?_, ?_, ?_⟩
  · intro r hr
    have h : r ≠ d := by simpa using hr
    exact ⟨by simp [h], Strand.sset_marks s.st d r x h⟩
  · intro e he
    exact List.mem_of_mem_filter he
  · intro e he hne
    simp only [Strand.sset, Strand.healed, List.mem_filter]
    refine ⟨he, ?_⟩
    rcases hne with h | h
    · simp [h]
    · have : e.reg ≠ d := by simpa using h
      simp [this]

theorem OnlyScalars.trans {a b : List Nat} {s t u : State} (h : OnlyScalars a s t) (k : OnlyScalars b t u) :
    OnlyScalars (a ++ b) s u := by
  obtain ⟨same, scalars, errors, kept⟩ := h
  refine ⟨by rw [k.1, same]; simp [Strand.moved], fun r hr => ?_, fun e => errors e ∘ k.2.2.1 e, fun e he out => ?_⟩
  · have ⟨inA, inB⟩ := not_or.1 (mt List.mem_append.2 hr)
    rw [(k.2.1 r inB).1, (scalars r inA).1, (k.2.1 r inB).2, (scalars r inA).2]
    exact ⟨rfl, rfl⟩
  · have out := out.imp_right fun n => not_or.1 (mt List.mem_append.2 n)
    exact k.2.2.2 e (kept e he (out.imp_right (·.1))) (out.imp_right (·.2))

theorem OnlyScalars.moved {a : List Nat} {s t u : State} (h : OnlyScalars a s t) (k : OnlyMoved t u) :
    OnlyScalars a s u := by
  obtain ⟨h1, h2, h3, h4⟩ := h
  have hs : u.st.s = t.st.s := by rw [k]; rfl
  have hm : u.st.marks = t.st.marks := by rw [k]; rfl
  have hr : u.st.rfErr = t.st.rfErr := by rw [k]; rfl
  refine ⟨?_, ?_, by simpa [hr] using h3, by simpa [hr] using h4⟩
  · rw [hs, hm, hr, k, h1]; simp [Strand.moved]
  · intro r hne
    simp only [Strand.sget, hs, hm]
    exact h2 r hne

/-- A uniform word: the register, the latch and the frame. -/
theorem uniResult_spec (f : Form) (n : Bool) (d : BitVec 7) (x : Word) (s : State) :
    ∃ t, uniResult f n d x s = .next t ∧ WentOn (formSize f) s t ∧ ScalarIs n d.toNat x s t := by
  unfold uniResult
  cases n with
  | true =>
    obtain ⟨t, h1, h2, h3, h4⟩ := finish_spec f (.uni x) (s := s) (u := s) rfl rfl
    exact ⟨t, h1, h2, h3, h4⟩
  | false =>
    obtain ⟨t, h1, h2, h3, h4⟩ :=
      finish_spec f (.uni x) (s := s) (u := { s with st := s.st.sset d.toNat x }) rfl rfl
    refine ⟨t, h1, h2, h3, ?_, (Strand.sset_only d.toNat x s).moved h4⟩
    rw [h4]
    simp [Strand.sget, Strand.moved, Strand.sset]

/-- A uniform pair. -/
theorem uniResult64_spec (f : Form) (n : Bool) (d : BitVec 7) (x : DWord) (s : State) :
    ∃ t, uniResult64 f n d x s = .next t ∧ WentOn (formSize f) s t ∧ PairIs n d.toNat x s t := by
  unfold uniResult64
  cases n with
  | true =>
    obtain ⟨t, h1, h2, h3, h4⟩ := finish_spec f (.uni64 x) (s := s) (u := s) rfl rfl
    exact ⟨t, h1, h2, h3, h4⟩
  | false =>
    obtain ⟨t, h1, h2, h3, h4⟩ :=
      finish_spec f (.uni64 x) (s := s) (u := { s with st := s.st.sset64 d.toNat x }) rfl rfl
    refine ⟨t, h1, h2, h3, ?_, ?_⟩
    · have := Strand.sget64_sset64 s.st d.toNat x
      rw [h4]
      exact this
    · have a := Strand.sset_only d.toNat (x.setWidth 32) s
      have b := Strand.sset_only (d.toNat + 1) ((x >>> 32).setWidth 32)
        { s with st := s.st.sset d.toNat (x.setWidth 32) }
      exact (a.trans b).moved h4

/-- An instruction that writes no general register. -/
theorem zeroResult_spec (f : Form) (s : State) :
    ∃ t, zeroResult f s = .next t ∧ WentOn (formSize f) s t ∧ LatchIs (.uni64 0) t ∧ OnlyMoved s t := by
  obtain ⟨t, h1, h2, h3, h4⟩ := finish_spec f (.uni64 0#64) (s := s) (u := s) rfl rfl
  exact ⟨t, h1, h2, h3, h4⟩

/-! ### Vector registers -/

theorem Strand.vget_vput (t : Strand) (d r : Nat) (act : BitVec 64) (z : Bool) (g : Nat → Word) (lane : Nat)
    (hl : lane < 64) :
    (t.vput d act z g).vget r lane =
      if r = d then
        (if laneOn t.present lane then (if laneOn act lane then g lane else if z then 0#32 else t.vget d lane)
          else t.vget d lane)
      else t.vget r lane := by
  simp only [Strand.vget, Strand.vput, nth_put]
  split
  · rename_i h; subst h; rw [nth_lanes _ _ lane hl]
  · rfl

theorem Strand.vput_only (d : Nat) (act : BitVec 64) (z : Bool) (g : Nat → Word) (s : State) :
    OnlyVectors [d] s { s with st := s.st.vput d act z g } := by
  refine ⟨rfl, ?_, ?_, ?_⟩
  · intro r lane hr
    have h : r ≠ d := by simpa using hr
    simp [Strand.vget, Strand.vput, nth_put_other _ _ _ _ _ h]
  · intro e he
    exact List.mem_of_mem_filter he
  · intro e he hne
    simp only [Strand.vput, List.mem_filter]
    refine ⟨he, ?_⟩
    rcases hne with h | h
    · simp [h]
    · have : e.reg ≠ d := by simpa using h
      simp [this]

theorem OnlyVectors.trans {a b : List Nat} {s t u : State} (h : OnlyVectors a s t) (k : OnlyVectors b t u) :
    OnlyVectors (a ++ b) s u := by
  obtain ⟨same, vectors, errors, kept⟩ := h
  refine ⟨by rw [k.1, same]; simp [Strand.moved], fun r lane hr => ?_, fun e => errors e ∘ k.2.2.1 e, fun e he out => ?_⟩
  · have ⟨inA, inB⟩ := not_or.1 (mt List.mem_append.2 hr)
    rw [k.2.1 r lane inB, vectors r lane inA]
  · have out := out.imp_right fun n => not_or.1 (mt List.mem_append.2 n)
    exact k.2.2.2 e (kept e he (out.imp_right (·.1))) (out.imp_right (·.2))

theorem OnlyVectors.moved {a : List Nat} {s t u : State} (h : OnlyVectors a s t) (k : OnlyMoved t u) :
    OnlyVectors a s u := by
  obtain ⟨h1, h2, h3, h4⟩ := h
  have hs : u.st.v = t.st.v := by rw [k]; rfl
  have hr : u.st.rfErr = t.st.rfErr := by rw [k]; rfl
  refine ⟨?_, ?_, by simpa [hr] using h3, by simpa [hr] using h4⟩
  · rw [hs, hr, k, h1]; simp [Strand.moved]
  · intro r lane hne
    simp only [Strand.vget, hs]
    exact h2 r lane hne

theorem latchWords_of {g : Nat → Word} {x : Latch} {t : State} (h : LatchIs x t)
    (hg : ∀ lane, lane < 64 → x.word lane = g lane) : LatchWords g t := fun c hc => ⟨x, h c hc, hg⟩

theorem latchPairs_of {g : Nat → DWord} {x : Latch} {t : State} (h : LatchIs x t)
    (hg : ∀ lane, lane < 64 → x.dword lane = g lane) : LatchPairs g t := fun c hc => ⟨x, h c hc, hg⟩

theorem latchZeros_of {p : Nat → Bool} {x : Latch} {t : State} (h : LatchIs x t)
    (hp : ∀ lane, lane < 64 → p lane = true → x.dword lane = 0) : LatchZeros p t := fun c hc => ⟨x, h c hc, hp⟩

theorem widened_word (w : Word) : (widened w).setWidth 32 = w := by
  ext i hi
  rw [BitVec.getElem_setWidth]
  exact (BitVec.getLsbD_append (x := Config.freeHigh w) (y := w)).trans (by simp [hi])

theorem vecLatch_word (t : Strand) (n z : Bool) (r : Nat) (act : BitVec 64) (g : Nat → Word) (lane : Nat)
    (hl : lane < 64) : (vecLatch t n z r act g).word lane =
      if laneOn t.present lane then
        (if laneOn act lane then (if n then g lane else t.vget r lane) else if n || z then 0#32 else t.vget r lane)
      else 0#32 := by
  simp only [vecLatch, Latch.word]
  rw [nth_lanes _ _ lane hl]
  by_cases a : laneOn t.present lane <;> by_cases b : laneOn act lane <;> by_cases c : (n || z) = true <;>
    simp [a, b, c, widened_word]

/-- A latch of a vector result is zero in all bits where a lane holds no result. -/
theorem vecLatch_rest (t : Strand) (n : Bool) (r : Nat) (g : Nat → Word) (s : State) (p : Option AluPre)
    (h : t.present = s.st.present) (lane : Nat) (hl : lane < 64) (hr : restLanes s p n lane = true) :
    (vecLatch t n (zOf p) r (s.active p) g).dword lane = 0 := by
  simp only [vecLatch, Latch.dword]
  rw [nth_lanes _ _ lane hl, h]
  simp only [restLanes] at hr
  by_cases a : laneOn s.st.present lane <;> by_cases b : laneOn (s.active p) lane <;> simp_all

/-- The latch of a pair holds all 64 bits of each lane. -/
theorem vecLatch64_dword (t : Strand) (n : Bool) (r : Nat) (act : BitVec 64) (g : Nat → DWord) (lane : Nat)
    (hl : lane < 64) : (vecLatch64 t n r act g).dword lane =
      if laneOn t.present lane then (if n then (if laneOn act lane then g lane else 0) else t.vget64 r lane) else 0 := by
  simp only [vecLatch64, Latch.dword]
  rw [nth_lanes _ _ lane hl]
  rfl

/-- A lane-wise result of 32 bits. -/
theorem vecResult_spec (f : Form) (p : Option AluPre) (n : Bool) (d : BitVec 7) (g : Nat → Word) (s : State) :
    ∃ t, vecResult f p n d g s = .next t ∧ WentOn (formSize f) s t ∧ VectorIs p n d.toNat g s t := by
  unfold vecResult
  cases n with
  | true =>
    obtain ⟨t, h1, h2, h3, h4⟩ :=
      finish_spec f (vecLatch s.st true (zOf p) d.toNat (s.active p) g) (s := s) (u := s) rfl rfl
    refine ⟨t, h1, h2, ?_⟩
    simp only [VectorIs, if_true]
    refine ⟨latchZeros_of h3 (vecLatch_rest _ _ _ _ s p rfl), h4, latchWords_of h3 ?_⟩
    intro lane hl
    rw [vecLatch_word _ _ _ _ _ _ lane hl]
    by_cases a : laneOn s.st.present lane <;> by_cases b : laneOn (s.active p) lane <;> simp [a, b]
  | false =>
    obtain ⟨t, h1, h2, h3, h4⟩ :=
      finish_spec f (vecLatch (s.st.vput d.toNat (s.active p) (zOf p) g) false (zOf p) d.toNat (s.active p) g) (s := s)
        (u := { s with st := s.st.vput d.toNat (s.active p) (zOf p) g }) rfl rfl
    refine ⟨t, h1, h2, ?_⟩
    have hv : t.st.vget d.toNat = (s.st.vput d.toNat (s.active p) (zOf p) g).vget d.toNat := by
      rw [h4]; rfl
    simp only [VectorIs, Bool.false_eq_true, if_false]
    refine ⟨latchZeros_of h3 (vecLatch_rest _ _ _ _ s p rfl), ?_, latchWords_of h3 ?_,
      (Strand.vput_only _ _ _ _ s).moved h4⟩
    · intro lane hl
      rw [hv, Strand.vget_vput _ _ _ _ _ _ lane hl, if_pos rfl]
      rfl
    · intro lane hl
      rw [vecLatch_word _ _ _ _ _ _ lane hl, hv, Strand.vget_vput _ _ _ _ _ _ lane hl, if_pos rfl]
      by_cases a : laneOn s.st.present lane <;> by_cases b : laneOn (s.active p) lane <;> by_cases c : zOf p = true <;>
        simp [a, b, c]

/-- A lane-wise result of 64 bits. -/
theorem vecResult64_spec (f : Form) (p : Option AluPre) (n : Bool) (d : BitVec 7) (g : Nat → DWord) (s : State) :
    ∃ t, vecResult64 f p n d g s = .next t ∧ WentOn (formSize f) s t ∧ VectorPairIs p n d.toNat g s t := by
  unfold vecResult64
  cases n with
  | true =>
    obtain ⟨t, h1, h2, h3, h4⟩ :=
      finish_spec f (vecLatch64 s.st true d.toNat (s.active p) g) (s := s) (u := s) rfl rfl
    refine ⟨t, h1, h2, ?_⟩
    simp only [VectorPairIs, if_true]
    refine ⟨h4, latchPairs_of h3 ?_⟩
    intro lane hl
    rw [vecLatch64_dword _ _ _ _ _ lane hl]
    by_cases a : laneOn s.st.present lane <;> simp [a]
  | false =>
    let lo := fun i => (g i).setWidth 32
    let hi := fun i => (g i >>> 32).setWidth 32
    let w := (s.st.vput d.toNat (s.active p) (zOf p) lo).vput (d.toNat + 1) (s.active p) (zOf p) hi
    obtain ⟨t, h1, h2, h3, h4⟩ :=
      finish_spec f (vecLatch64 w false d.toNat (s.active p) g) (s := s) (u := { s with st := w }) rfl rfl
    refine ⟨t, h1, h2, ?_⟩
    simp only [VectorPairIs, Bool.false_eq_true, if_false]
    refine ⟨?_, ?_, ?_⟩
    · intro lane hl
      have hv : t.st.vget64 d.toNat lane = w.vget64 d.toNat lane := by rw [h4]; rfl
      rw [hv]
      simp only [Strand.vget64, w, Strand.vget_vput _ _ _ _ _ _ lane hl]
      simp only [if_true, show ¬ d.toNat = d.toNat + 1 by omega, show ¬ d.toNat + 1 = d.toNat by omega, if_false]
      unfold laneAfter
      by_cases a : laneOn s.st.present lane
      · by_cases b : laneOn (s.active p) lane
        · simp only [Strand.vput_present, a, b, if_true, lo, hi]
          exact dword_halves (g lane)
        · by_cases c : zOf p
          · simp [Strand.vput_present, a, b, c]
          · simp [Strand.vput_present, a, b, c, Strand.vget64]
      · simp [Strand.vput_present, a, Strand.vget64]
    · refine latchPairs_of h3 fun lane hl => ?_
      rw [vecLatch64_dword _ _ _ _ _ lane hl]
      have hv : t.st.vget64 d.toNat lane = w.vget64 d.toNat lane := by rw [h4]; rfl
      rw [hv]; rfl
    · have a := Strand.vput_only d.toNat (s.active p) (zOf p) lo s
      have b := Strand.vput_only (d.toNat + 1) (s.active p) (zOf p) hi
        { s with st := s.st.vput d.toNat (s.active p) (zOf p) lo }
      exact (a.trans b).moved h4

/-! ### Mask registers -/

theorem laneOn_and (x y : BitVec 64) (i : Nat) : laneOn (x &&& y) i = (laneOn x i && laneOn y i) := by
  simp [laneOn]

theorem laneOn_or (x y : BitVec 64) (i : Nat) : laneOn (x ||| y) i = (laneOn x i || laneOn y i) := by
  simp [laneOn]

theorem laneOn_not (x : BitVec 64) (i : Nat) (h : i < 64) : laneOn (~~~x) i = !laneOn x i := by
  simp [laneOn, h]

theorem laneOn_bit (k i : Nat) (h : i < 64) : laneOn (1#64 <<< k) i = decide (i = k) := by
  simp only [laneOn, BitVec.getLsbD_shiftLeft, BitVec.getLsbD_one]
  by_cases a : i = k
  · subst a; simp [h]
  · by_cases b : i < k
    · simp [b, a]
    · have : i - k ≠ 0 := by omega
      simp [a, this]

theorem laneOn_maskOf_aux (i : Nat) (h : i < 64) : ∀ (l : List Nat) (m : BitVec 64),
    laneOn (l.foldl (fun m k => m ||| (1#64 <<< k)) m) i = (laneOn m i || l.contains i)
  | [], m => by simp
  | k :: t, m => by
    rw [List.foldl_cons, laneOn_maskOf_aux i h t]
    rw [laneOn_or, laneOn_bit k i h, List.contains_cons, Bool.or_assoc]
    simp [BEq.beq]

/-- The bits of a mask that is made of lanes. -/
theorem laneOn_maskOf (l : List Nat) (i : Nat) (h : i < 64) : laneOn (maskOf l) i = l.contains i := by
  rw [maskOf, laneOn_maskOf_aux i h]
  simp [laneOn]

theorem mem_lanesOf (m : BitVec 64) (i : Nat) (h : i < 64) : i ∈ lanesOf m ↔ laneOn m i = true := by
  simp [lanesOf, laneIds, Config.gwidth, h]

theorem laneOn_hits (m : BitVec 64) (g : Nat → Bool) (i : Nat) (h : i < 64) :
    laneOn (maskOf ((lanesOf m).filter g)) i = (laneOn m i && g i) := by
  rw [laneOn_maskOf _ i h, Bool.eq_iff_iff]
  simp [mem_lanesOf m i h]

@[simp] theorem Strand.mget_mset (t : Strand) (d r : Nat) (x : BitVec 64) :
    (t.mset d x).mget r = if r = d then x &&& t.present else t.mget r := by
  simp [Strand.mget, Strand.mset, nth_put]

theorem Strand.mset_only (d : Nat) (x : BitVec 64) (s : State) : OnlyMasks [d] s { s with st := s.st.mset d x } := by
  refine ⟨rfl, ?_, ?_, ?_⟩
  · intro r hr
    have h : r ≠ d := by simpa using hr
    simp [h]
  · intro e he
    exact List.mem_of_mem_filter he
  · intro e he hne
    simp only [Strand.mset, Strand.healed, List.mem_filter]
    refine ⟨he, ?_⟩
    rcases hne with h | h
    · simp [h]
    · have : e.reg ≠ d := by simpa using h
      simp [this]

theorem OnlyMasks.moved {a : List Nat} {s t u : State} (h : OnlyMasks a s t) (k : OnlyMoved t u) :
    OnlyMasks a s u := by
  obtain ⟨h1, h2, h3, h4⟩ := h
  have hs : u.st.m = t.st.m := by rw [k]; rfl
  have hr : u.st.rfErr = t.st.rfErr := by rw [k]; rfl
  refine ⟨?_, ?_, by simpa [hr] using h3, by simpa [hr] using h4⟩
  · rw [hs, hr, k, h1]; simp [Strand.moved]
  · intro r hne
    simp only [Strand.mget, hs]
    exact h2 r hne

theorem maskLatch_word (t : Strand) (has m : BitVec 64) (lane : Nat) (hl : lane < 64) :
    (maskLatch t has m).word lane
      = if laneOn t.present lane && laneOn has lane && laneOn m lane then 1#32 else 0#32 := by
  simp only [maskLatch, Latch.word]
  rw [nth_lanes _ _ lane hl]
  cases laneOn t.present lane && laneOn has lane <;> simp [widened_word]

theorem maskLatch_rest (t : Strand) (has m : BitVec 64) (lane : Nat) (hl : lane < 64)
    (h : (laneOn t.present lane && laneOn has lane) = false) : (maskLatch t has m).dword lane = 0 := by
  simp only [maskLatch, Latch.dword]
  rw [nth_lanes _ _ lane hl, h]
  rfl

/-- A result in a mask register of a mask instruction. -/
theorem maskResult_spec (f : Form) (n : Bool) (d : BitVec 4) (x : BitVec 64) (s : State) :
    ∃ t, maskResult f n d x s = .next t ∧ WentOn (formSize f) s t ∧ MaskIs n d.toNat x s t := by
  unfold maskResult
  have hw : ∀ lane, lane < 64 → (maskLatch s.st s.st.present x).word lane
      = if laneOn s.st.present lane && laneOn x lane then 1 else 0 := by
    intro lane hl
    rw [maskLatch_word _ _ _ _ hl]
    cases laneOn s.st.present lane <;> rfl
  have hz : ∀ lane, lane < 64 → (!laneOn s.st.present lane) = true → (maskLatch s.st s.st.present x).dword lane = 0 :=
    fun lane hl h => maskLatch_rest _ _ _ lane hl (by simp at h; simp [h])
  cases n with
  | true =>
    obtain ⟨t, h1, h2, h3, h4⟩ := finish_spec f (maskLatch s.st s.st.present x) (s := s) (u := s) rfl rfl
    exact ⟨t, h1, h2, latchWords_of h3 hw, latchZeros_of h3 hz, h4⟩
  | false =>
    obtain ⟨t, h1, h2, h3, h4⟩ :=
      finish_spec f (maskLatch s.st s.st.present x) (s := s) (u := { s with st := s.st.mset d.toNat x }) rfl rfl
    refine ⟨t, h1, h2, latchWords_of h3 hw, latchZeros_of h3 hz, ?_, (Strand.mset_only d.toNat x s).moved h4⟩
    have : t.st.mget d.toNat = (s.st.mset d.toNat x).mget d.toNat := by rw [h4]; rfl
    simp [this]

/-- A comparison's result. -/
theorem cmpResult_spec (f : Form) (p : Option AluPre) (n : Bool) (d : BitVec 7) (g : Nat → Bool) (s : State) :
    ∃ t, cmpResult f p n d g s = .next t ∧ WentOn (formSize f) s t ∧ CompareIs p n (d.toNat % 16) g s t := by
  unfold cmpResult
  cases n with
  | true =>
    simp only [if_true]
    obtain ⟨t, h1, h2, h3, h4⟩ := finish_spec f
      (maskLatch s.st (s.active p) (maskOf ((lanesOf (s.active p)).filter g))) (s := s) (u := s) rfl rfl
    refine ⟨t, h1, h2, ?_⟩
    simp only [CompareIs, if_true]
    refine ⟨latchZeros_of h3 fun lane hl h => maskLatch_rest _ _ _ lane hl ?_, h4, latchWords_of h3 ?_⟩
    · simp only [restLanes] at h
      cases a : laneOn s.st.present lane <;> cases b : laneOn (s.active p) lane <;> simp_all
    intro lane hl
    rw [maskLatch_word _ _ _ _ hl, laneOn_hits _ _ _ hl]
    cases laneOn s.st.present lane <;> cases laneOn (s.active p) lane <;> rfl
  | false =>
    simp only [Bool.false_eq_true, if_false]
    generalize hx : (if zOf p = true then maskOf ((lanesOf (s.active p)).filter g)
      else maskOf ((lanesOf (s.active p)).filter g) ||| (s.st.mget (d.toNat % 16) &&& ~~~(s.active p))) = x
    obtain ⟨t, h1, h2, h3, h4⟩ := finish_spec f
      (maskLatch s.st (if zOf p = true then s.active p else s.st.present) x) (s := s)
      (u := { s with st := s.st.mset (d.toNat % 16) x }) rfl rfl
    refine ⟨t, h1, h2, ?_⟩
    have hm : t.st.mget (d.toNat % 16) = x &&& s.st.present := by
      have : t.st.mget (d.toNat % 16) = (s.st.mset (d.toNat % 16) x).mget (d.toNat % 16) := by rw [h4]; rfl
      simp [this]
    simp only [CompareIs, Bool.false_eq_true, if_false]
    refine ⟨latchZeros_of h3 fun lane hl h => maskLatch_rest _ _ _ lane hl ?_, ?_, latchWords_of h3 ?_,
      (Strand.mset_only _ x s).moved h4⟩
    · simp only [restLanes] at h
      cases a : laneOn s.st.present lane <;> cases b : laneOn (s.active p) lane <;> cases c : zOf p <;> simp_all
    · intro lane hl
      rw [hm, laneOn_and, ← hx]
      unfold laneAfter
      cases hp : laneOn s.st.present lane
      · simp
      · cases hz : zOf p
        · simp only [Bool.false_eq_true, if_false, laneOn_or, laneOn_and, laneOn_not _ _ hl, laneOn_hits _ _ _ hl]
          cases laneOn (s.active p) lane <;> simp
        · simp only [if_true, laneOn_hits _ _ _ hl]
          cases laneOn (s.active p) lane <;> simp
    · intro lane hl
      rw [maskLatch_word _ _ _ _ hl, hm, laneOn_and, ← hx]
      cases hp : laneOn s.st.present lane
      · simp
      · cases zOf p
        · simp [hp]
        · simp only [if_true, laneOn_hits _ _ _ hl]
          cases laneOn (s.active p) lane <;> simp

end Sys2Proof.Machine
end

