-- ==== Sys2Proof/Tests/Slice0.lean ====
section
/-! SUPPORT. Tests. Expected results are worked out from the manual: words from its encoding tables, values from
its rules. The witnesses show for each statement with hypotheses, clause by clause, a state and operands that meet
them. -/

namespace Sys2Proof.Tests

set_option Elab.async false

open Sys2Proof Sys2Proof.Machine

/-! ### Decoding: words written from the encodings of R56 to R72 -/

/-- Does the word sequence decode, under a context of its class that shuts nothing out, to i and nothing more? -/
def decodes (cls : Nat) (ws : List Word) (i : Instr) : Bool :=
  decide (decodeOne ⟨cls, Config.advertised, 128, [true, false]⟩ ws = .ok (i, []))

/-- Does decoding refuse the words with the fault? -/
def refuses (cls : Nat) (ws : List Word) (e : DecFault) : Bool :=
  decide (decodeOne ⟨cls, Config.advertised, 128, [true, false]⟩ ws = .error e)

/-- Format B (R66): branches of 16-bit word offsets. -/
theorem test_decode_branches :
    (decodes 4 [0x0100FFFE] (.bra 0xFFFE) && decodes 4 [0x02850004] (.brsZ 5 4)
      && decodes 4 [0x04030002] (.brmAny 3 2) && decodes 4 [0x05030002] (.brmAll 3 2)
      && decodes 4 [0x060F8000] (.brmNone 15 0x8000) && decodes 4 [0x08880001] (.call 8 1)) = true := by
  decide +kernel

/-- Control words without operands and of Format A (R56, R57). -/
theorem test_decode_control :
    (decodes 4 [0x00000000] .nop && decodes 4 [0x07008600] (.jmpi 6) && decodes 4 [0x09008800] (.ret 8)
      && decodes 4 [0x0A000000] .exit && decodes 4 [0x0B000000] .yield && decodes 4 [0x0C008300] (.sleep (.s 3))
      && decodes 4 [0x0D008284] (.waitv 2 (.s 4)) && decodes 4 [0x0E000007] (.trap 7) && decodes 4 [0x0F000000] .tret
      && decodes 4 [0x10000000] .bkpt && decodes 4 [0x11000000] .acquire && decodes 4 [0x12000000] .bar) = true := by
  decide +kernel

/-- Waits and barriers with payloads. -/
theorem test_decode_waits :
    (decodes 4 [0x13098100] (.barpAnd 9 (.s 1)) && decodes 4 [0x14098100] (.barpOr 9 (.s 1))
      && decodes 4 [0x15098100] (.barpAdd 9 (.s 1)) && decodes 4 [0x16098100] (.barpMin 9 (.s 1))
      && decodes 4 [0x17098100] (.barpMax 9 (.s 1)) && decodes 4 [0x1800D1D0] (.waittag (.int 1) (.int 0))
      && decodes 4 [0x19008A00] (.waitp (.s 10)) && decodes 4 [0x1A008300] (.bbwait (.s 3))) = true := by
  decide +kernel

/-- Scalar words: Formats A and I (R56, R65). -/
theorem test_decode_scalar :
    (decodes 0 [0x20018283] (.sadd ⟨none, false, 1, .s 2, .s 3⟩)
      && decodes 0 [0xF1000085, 0x2B018283] (.ssel ⟨some ⟨0, 0, false, false, false, false, some (.s 5)⟩, false, 1, .s 2, .s 3⟩)
      && decodes 0 [0x2F0284D3] (.sshlD ⟨none, false, 2, .s 4, .int 3⟩)
      && decodes 0 [0x3A81F200] (.smov ⟨none, true, 1, .fc 2⟩) && decodes 0 [0x3C07FFFF] (.smovi ⟨none, false, 7, 0xFFFF⟩)
      && decodes 0 [0x3E060000] (.sget ⟨none, false, 6, 0⟩) && decodes 0 [0x3F008411] (.sset ⟨none, false, 0, .s 4, 0x11⟩)
      && decodes 0 [0xF0004000, 0x2104F884, 0x00000001, 0x80000000]
          (.saddD ⟨some ⟨0, 0, false, false, false, true, none⟩, false, 4, .lit64 0x8000000000000001, .s 4⟩)) = true := by
  decide +kernel

/-- Vector words; an accepted prefix field each (R62). -/
theorem test_decode_vector :
    (decodes 0 [0xF0310000, 0x40040102] (.vadd ⟨some ⟨3, 0, false, true, false, false, none⟩, false, 4, .v 1, .v 2⟩)
      && decodes 0 [0x410406E1] (.vaddD ⟨none, false, 4, .v 6, .int 0x11⟩)
      && decodes 0 [0x58020300] (.vabs ⟨none, false, 2, .v 3⟩)
      && decodes 0 [0xF0048000, 0x6B02C100] (.vfrcp ⟨some ⟨0, 1, false, false, true, false, none⟩, false, 2, .l 1⟩)
      && decodes 0 [0x72020386] (.vshufXor ⟨none, false, 2, .v 3, .s 6⟩)
      && decodes 0 [0x77030500] (.vred ⟨none, false, 3, .v 5, 0⟩) && decodes 0 [0x78030507] (.vscanIncl ⟨none, false, 3, .v 5, 7⟩)
      && decodes 0 [0x7A060500] (.vbal ⟨none, false, 6, .v 5⟩) && decodes 0 [0x7B050000] (.vlid ⟨none, false, 5⟩)) = true := by
  decide +kernel

/-- Mask, accumulator and quantisation words. -/
theorem test_decode_masks_and_quantisation :
    (decodes 0 [0x7C010203] (.mand ⟨none, false, 1, 2, 3⟩) && decodes 0 [0x7F010200] (.mnot ⟨none, false, 1, 2⟩)
      && decodes 0 [0x81040200] (.mcnt ⟨none, false, 4, 2⟩) && decodes 0 [0x82040200] (.msave ⟨none, false, 4, 2⟩)
      && decodes 0 [0x83018200] (.mload ⟨none, false, 1, 2⟩) && decodes 0 [0x84000000] (.kclr ⟨none, false, 0⟩)
      && decodes 0 [0x85000100] (.kaddF32 ⟨none, false, 0, .v 1⟩) && decodes 0 [0x88050000] (.krnd ⟨none, false, 5⟩)
      && decodes 0 [0x8A040100] (.qmm ⟨none, false, 4, .v 1⟩) && decodes 0 [0x8B030482] (.qntI8 ⟨none, false, 3, .v 4, .s 2⟩)
      && decodes 0 [0x8F030482] (.dqntI4 ⟨none, false, 3, .v 4, .s 2⟩) && decodes 0 [0x910304D0] (.upk3 ⟨none, false, 3, .v 4, .int 0⟩)) = true := by
  decide +kernel

/-- The worked EXPR of the manual (R70): steps 1, 2, 9, 3, 7. -/
theorem test_decode_expr :
    (decodes 0 [0x89040102, 0x03D00129, 0x37000000] (.expr ⟨none, false, 4, .v 1, .v 2, .v 3, .int 0, 0, 0x12937000000⟩)) = true := by
  decide +kernel

/-- Memory words: Formats M, MU and L with the prefixes 0xF2 and 0xF3 (R63, R64, R67 to R69). -/
theorem test_decode_memory :
    (decodes 1 [0xA0418200] (.ld ⟨none, none, 2, 6, 2, none⟩)
      && decodes 1 [0xF3FFFFFC, 0xA2820483] (.st ⟨none, some 0xFFFFFC, 4, 8, 4, some 3⟩)
      && decodes 1 [0xF2580000, 0xA140D400] (.ldU ⟨some ⟨1, 3, 0, 0, false, false, none⟩, none, 2, 1, 42, 0⟩)
      && decodes 1 [0xF2048A03, 0xA6414483] (.atom ⟨some ⟨0, 0, 9, 0, true, false, some (.v 3)⟩, none, 2, 5, 4, some 3⟩)
      && decodes 1 [0xF2D80000, 0xA8000001] (.fence ⟨some ⟨3, 3, 0, 0, false, false, none⟩, none, 1⟩)
      && decodes 1 [0xA9200200] (.pref ⟨none, none, 1, 0, 2, none⟩) && decodes 1 [0xAC410400] (.tagldU ⟨none, none, 2, 2, 2, 0⟩)
      && decodes 1 [0xAF886106, 0x00070000] (.lda ⟨none, none, 2, 1, 3, 4, 6, none, .v 7⟩)
      && decodes 1 [0xB4418283] (.atoms ⟨none, none, 2, 6, 2, some 3⟩) && decodes 1 [0xB74085FC] (.gldU ⟨none, none, 2, 1, 2, 0x1FC⟩)) = true := by
  decide +kernel

/-- Engine words (class 3). -/
theorem test_decode_engine :
    (decodes 3 [0xC10AA800] (.cpostNb 10 (.s 40)) && decodes 3 [0xC2008382] (.bbinit (.s 3) (.s 2))
      && decodes 3 [0xC3008300] (.bbinv (.s 3)) && decodes 3 [0xC42684D4] (.promote 1 6 4 (.int 4))
      && decodes 3 [0xC446D0D4] (.promoteA 2 6 (.int 4)) && decodes 3 [0xC5048602] (.arena 4 (.s 6) 2)
      && decodes 3 [0xC605A800] (.launch 5 (.s 40)) && decodes 3 [0xC70084D1] (.tsig 4 (.int 1))) = true := by
  decide +kernel

/-- Matrix words (class 2). -/
theorem test_decode_matrix :
    (decodes 2 [0xD005D200] (.oclaim 5 (.int 2)) && decodes 2 [0xD105D200] (.orel 5 (.int 2))
      && decodes 2 [0xD2019901] (.olda 1 (.s 25) 1) && decodes 2 [0xD2059E06] (.olda 5 (.s 30) 6) && decodes 2 [0xD3058402] (.oldw 5 4 2)
      && decodes 2 [0xD4720102] (.mma ⟨true, true, true, 2, 1, 2⟩) && decodes 2 [0xD5030000] (.aclr 3)
      && decodes 2 [0xD6009800] (.adrn 0 (.s 24)) && decodes 2 [0xD700D100] (.mtok (.int 1))
      && decodes 2 [0xD8000000] .mwaitTok && decodes 2 [0xD8000001] .mwaitAll) = true := by
  decide +kernel

/-- Encodings that the manual works out beside its entries: R150, R151, R162, R164, R166, R168, R174 to R180,
R248 to R251. -/
theorem test_decode_worked :
    (decodes 0 [0x7C000001] (.mand ⟨none, false, 0, 0, 1⟩)
      && decodes 0 [0xF0040000, 0x88070000] (.krnd ⟨some ⟨0, 1, false, false, false, false, none⟩, false, 7⟩)
      && decodes 2 [0xD102D200] (.orel 2 (.int 2)) && decodes 2 [0xD302B801] (.oldw 2 56 1)
      && decodes 2 [0xD4230407] (.mma ⟨false, true, false, 3, 4, 7⟩) && decodes 2 [0xD5010000] (.aclr 1)
      && decodes 0 [0x8A0C0300] (.qmm ⟨none, false, 12, .v 3⟩) && decodes 0 [0x8D020194] (.qntT3 ⟨none, false, 2, .v 1, .s 20⟩)
      && decodes 0 [0x8E04068C] (.dqntI8 ⟨none, false, 4, .v 6, .s 12⟩)
      && decodes 0 [0x900906EC] (.pk3 ⟨none, false, 9, .v 6, .int 0x1C⟩)
      && decodes 0 [0x93020385] (.upk4 ⟨none, false, 2, .v 3, .s 5⟩) && decodes 1 [0xAE41D000] (.tagstU ⟨none, none, 2, 3, 40, 0⟩)
      && decodes 4 [0x0D00B8D0] (.waitv 56 (.int 0)) && decodes 3 [0xC5089000] (.arena 8 (.s 16) 0)
      && decodes 1 [0xF2880000, 0xA342D400] (.stU ⟨some ⟨2, 1, 0, 0, false, false, none⟩, none, 2, 5, 42, 0⟩)) = true := by
  decide +kernel

/-! ### Decoding refuses by name, in the order of R54 -/

/-- Words past the end, an unassigned opcode, a held opcode, the wrong class. -/
theorem test_refuse_words :
    (refuses 0 [0x2001F883] .badClauseHeader && refuses 0 [0x1B000000] .illegalInstruction
      && refuses 0 [0xE0000000] .unnegotiatedFeature && refuses 4 [0x20018283] .illegalInstruction) = true := by
  decide +kernel

/-- Prefixes: two of one kind, one of another class, reserved bits, a scope and an operation of no meaning; a
prefix field that the instruction does not admit. -/
theorem test_refuse_prefixes :
    (refuses 0 [0xF0000000, 0xF0000000, 0x40040102] .illegalInstruction && refuses 0 [0xF2000000, 0x40040102] .illegalInstruction
      && refuses 0 [0xF0000100, 0x40040102] .illegalInstruction && refuses 1 [0xF2280000, 0xA0418200] .illegalInstruction
      && refuses 1 [0xF2070000, 0xA6414483] .illegalInstruction && refuses 0 [0xF0010000, 0x44040102] .illegalInstruction) = true := by
  decide +kernel

/-- Unused fields and reserved bits (R60, R69, R70), sizes, n8 values and step lists. -/
theorem test_refuse_fields :
    (refuses 4 [0x00000001] .illegalInstruction && refuses 0 [0x3A018201] .illegalInstruction
      && refuses 1 [0xA0418201] .illegalInstruction && refuses 1 [0xAF886106, 0x00070001] .illegalInstruction
      && refuses 0 [0x89040102, 0x03D01129, 0x37000000] .illegalInstruction
      && refuses 0 [0x89040102, 0x03D00770, 0x00000000] .illegalInstruction && refuses 1 [0xA0A18200] .illegalInstruction
      && refuses 2 [0xD8000002] .illegalInstruction && refuses 0 [0x710201FF] .illegalInstruction) = true := by
  decide +kernel

/-- Operand codes: a reserved one, a vector register in a uniform position, an odd pair, a scalar destination
past 63, a special index that nothing assigns. -/
theorem test_refuse_operands :
    (refuses 0 [0x2001C483] .illegalOperand && refuses 0 [0x20010583] .illegalOperand && refuses 0 [0x21018284] .illegalOperand
      && refuses 0 [0x20408283] .illegalOperand && refuses 0 [0x3E06007F] .illegalOperand && refuses 4 [0x0C00C000] .illegalOperand
      && !refuses 0 [0x4001C201] .illegalOperand) = true := by
  decide +kernel

/-! ### An ill-formed term for each check of well-formedness -/

/-- Not well-formed under the class's open context. -/
def illFormed (cls : Nat) (i : Instr) : Bool := !wellFormed (openCtx cls) i

/-- An event has no encoding; a literal of two words needs W, and one of one word stands without it. -/
theorem test_ill_formed_kind :
    (illFormed 0 .sliceUnit && illFormed 0 (.sadd ⟨none, false, 1, .lit64 0, .s 2⟩)
      && illFormed 0 (.saddD ⟨some ⟨0, 0, false, false, false, true, none⟩, false, 4, .lit 1, .s 4⟩)
      && wellFormed (openCtx 0) (.saddD ⟨none, false, 4, .lit 1, .s 4⟩)) = true := by
  decide +kernel

/-- A feature that is held back, the wrong class, a scope of no meaning. -/
theorem test_ill_formed_words :
    (!wellFormed ⟨3, 0, 128, []⟩ (.promoteA 0 6 (.int 1)) && wellFormed ⟨3, 2, 128, []⟩ (.promoteA 0 6 (.int 1))
      && illFormed 1 (.sadd ⟨none, false, 1, .s 2, .s 3⟩)
      && illFormed 1 (.ld ⟨some ⟨0, 5, 0, 0, false, false, none⟩, none, 2, 6, 2, none⟩)
      && !sequenceOk 1 [0xF3000000, 0xF2000000] && !prefixWordOk 0xF0000001) = true := by
  decide +kernel

/-- Fields of no meaning: a prefix field that is not admitted, a size, an n8 value, a step list, a type of EXPR. -/
theorem test_ill_formed_fields :
    (illFormed 0 (.vmul ⟨some ⟨0, 0, false, true, false, false, none⟩, false, 4, .v 1, .v 2⟩)
      && illFormed 1 (.ld ⟨none, none, 5, 6, 2, none⟩) && illFormed 0 (.vfcvt ⟨none, false, 2, .v 1, 0xFF⟩)
      && illFormed 0 (.expr ⟨none, false, 4, .v 1, .v 2, .v 3, .int 0, 0, 0x70000000000⟩)
      && illFormed 0 (.expr ⟨none, false, 4, .v 1, .v 2, .v 3, .int 0, 3, 0x10000000000⟩)
      && illFormed 2 (.olda 5 (.s 3) 0xFF)) = true := by
  decide +kernel

/-- Operands of no meaning: an odd pair, a register past the allotment, a latch outside class alu, a vector
latch in a uniform position, a vector register in a uniform one. -/
theorem test_ill_formed_operands :
    (illFormed 4 (.jmpi 7) && !wellFormed ⟨0, 0, 16, []⟩ (.vadd ⟨none, false, 4, .v 16, .v 2⟩)
      && illFormed 4 (.sleep (.l 0)) && !wellFormed ⟨0, 0, 128, [false]⟩ (.sadd ⟨none, false, 1, .l 0, .s 2⟩)
      && illFormed 0 (.sadd ⟨none, false, 1, .v 0, .s 2⟩) && illFormed 0 (.sget ⟨none, false, 6, 0x7F⟩)) = true := by
  decide +kernel

/-! ### A small machine -/

/-- A state in which some pages of 64 KiB are mapped for key id 5, below the root table at 0x100000. -/
def mapped (l : List (Nat × BitVec 128)) : State :=
  l.foldl (fun s e => ((installLeaf none e.1 e.2 5 0x100000 0 [0x200000, 0x300000, 0x400000, 0x500000] s).map (·.2)).getD s)
    { State.reset with accepted := Config.advertised }

/-- Pages: code at 0x10000, data at 0x20000 and 0x80000, sealed at 0x40000 and 0xA0000, host memory at 0x50000,
UNCACHED_IO at 0x70000, data with ORD SO at 0x90000. -/
def pages : State := mapped [
  (0x10000, leafEntry 0x40000 13 0 9 0 5), (0x20000, leafEntry 0x50000 11 0 9 0 5),
  (0x40000, leafEntry 0x70000 11 1 9 0 5), (0x50000, leafEntry 0x10000 11 2 0 0 5), (0x70000, leafEntry 0xA0000 11 3 0 0 5),
  (0x80000, leafEntry 0xB0000 11 0 9 0 5), (0x90000, leafEntry 0xC0000 11 0 9 0 5 ^^^ 1 <<< 102),
  (0xA0000, leafEntry 0xD0000 11 1 9 1 5)]

/-- The record of a grid of two blocks of 100 threads on a twin: 32 registers, 64 KiB of scratchpad, 16 slots, 4
tiles, 8 KiB of SBM, its fault area at 0x2F000, its entry at 0x10000, queue 3, handle 7. -/
def gridBits : Nat :=
  1 + 2 ^ 8 * 0x80 + 2 ^ 16 * 3 + 2 ^ 27 + 2 ^ 32 * 7 + 2 ^ 64 * 0x10000 + 2 ^ 128 * 2 + 2 ^ 144 + 2 ^ 160 + 2 ^ 176 * 100
    + 2 ^ 187 + 2 ^ 198 + 2 ^ 209 * 2 + 2 ^ 214 * 4 + 2 ^ 223 * 4 + 2 ^ 228 * 64 + 2 ^ 237 * 16 + 2 ^ 243 * 4 + 2 ^ 248 * 2
    + 2 ^ 384 * (0x2F000 / 64)

/-- Grid 1, in flight. -/
def grid1 : Grid := { Grid.blank with
  live := true, id := 1, key := 5, record := BitVec.ofNat 512 gridBits, queue := 3, order := 1, started := true, nextBlock := 1
  args := some (List.replicate 8 0) }

/-- World 5, of handle 7. -/
def world5 : World := { World.blank with
  key := 5, handle := 7, vmid := 3, live := true, root := 1, s1root := 0x100000
  given := [⟨0x4000000, 0x1000000⟩], save := [⟨0x6000000, 0x100000⟩], pools := [⟨0, false, [0x1000000]⟩]
  comet := [⟨0, 0x21000, 0, 0⟩] }

/-- Queue 3, with its header at 0x22000. -/
def queue3 : Queue :=
  ⟨3, ⟨3, 0, 1, 100, BitVec.allOnes 384, 0, 0, 0x22000, 7, false⟩, 1000000, 0, 1, [1], [], 0, 0, 0, 0, 0⟩

/-- Strand i of block 0 of grid 1, between clauses: s8 and s9 hold the address 0x20000 and s10 holds 64; v1
holds the lane numbers and v3 four times them. -/
def strand (i : Nat) (present : BitVec 64) : Strand := { Strand.blank with
  grid := 1, block := 0, idx := i, slot := i, present := present, pc := 0x10000, status := .ready
  s := [0, 1, 2, 3, 4, 5, 6, 7, 0x20000, 0, 64, 0x100, 0xFFFFFFFF, 0]
  v := [[], (List.range 64).map (BitVec.ofNat 32), [], (List.range 64).map fun i => BitVec.ofNat 32 (4 * i)]
  m := [present, 5] }

/-- The machine at work: strand 0 in focus, in an open clause of class `cls` with the words `ws`. -/
def machine (cls : Nat) (ws : List Word) : State := { pages with
  st := { strand 0 (BitVec.allOnes 64) with clause := some ⟨0xFFFC, cls, ws, []⟩ }
  blk := { Block.blank with
    live := true, grid := 1, id := 0, core := 0, granted := true, nstrands := 2, strands := [strand 1 0xFFFFFFFFF]
    token := some 0 }
  grd := grid1
  wld := world5
  queues := [queue3]
  locked := true
  stage := 5
  gridCount := 1 }

/-- An instruction at work: its words, then a NOP. -/
def base (i : Instr) : State := machine (classAt (encode i)) (encode i ++ [0])

/-- Where no register-file word is in error, no read finds one. -/
theorem noReadError {i : Instr} {s : State} (h : s.st.rfErr = []) : NoReadError i s := by
  intro f _
  simp [errorsOf, h]

/-- The state that an outcome answers. -/
def nextOf (o : Out) : Option State :=
  match o with
  | .next s => some s
  | _ => none

/-- Does the instruction, at work in a strand, answer a state as p says? -/
def gives (i : Instr) (s : State) (p : State → Bool) : Bool := (nextOf (exec i s)).any p

/-! ### Steps of ALU instructions: expected values from the rules named -/

/-- Operands s11 (0x100) and s12 (all ones) into s20. -/
def sops : Alu2 := ⟨none, false, 20, .s 11, .s 12⟩
/-- Operands v1 (the lane) and v3 (four times the lane) into v4. -/
def vops : Alu2 := ⟨none, false, 4, .v 1, .v 3⟩

/-- Does an ALU instruction, run at the head of its clause, write x to scalar register r? -/
def putsS (i : Instr) (r : Nat) (x : Word) : Bool := gives i (base i) fun t => t.st.sget r = x && t.st.pc = (base i).st.pc + BitVec.ofNat 64 (4 * wordCount i)
/-- Does it write x to lane `lane` of vector register r? -/
def putsV (i : Instr) (r lane : Nat) (x : Word) : Bool := gives i (base i) fun t => t.st.vget r lane = x

/-- R129, R131: wrap, the high half of a product, comparisons of either kind. -/
theorem test_scalar_words :
    (putsS (.sadd sops) 20 0xFF && putsS (.ssub sops) 20 0x101 && putsS (.smul sops) 20 0xFFFFFF00
      && putsS (.smulhS sops) 20 0xFFFFFFFF && putsS (.smulhUi sops) 20 0xFF && putsS (.scmpLt sops) 20 0
      && putsS (.scmpLtu sops) 20 1 && putsS (.sand sops) 20 0x100 && putsS (.sxor sops) 20 0xFFFFFEFF) = true := by
  decide +kernel

/-- R129, R131: pairs; the upper word takes the carry. -/
theorem test_scalar_pairs :
    (gives (.saddD ⟨none, false, 20, .s 12, .int 1⟩) (base .nop) (fun t => t.st.sget64 20 = 0x100000000)
      && gives (.ssubD ⟨none, false, 20, .s 8, .int 1⟩) (base .nop) (fun t => t.st.sget64 20 = 0x1FFFF)
      && gives (.scmpNeD ⟨none, false, 20, .s 8, .lit 0x20000⟩) (base .nop) (fun t => t.st.sget 20 = 0)) = true := by
  decide +kernel

/-- R130: a count of 32 is not taken modulo 32. -/
theorem test_shifts :
    (putsS (.sshl ⟨none, false, 20, .s 12, .lit 32⟩) 20 0 && putsS (.sshr ⟨none, false, 20, .s 12, .int 4⟩) 20 0x0FFFFFFF
      && putsS (.ssra ⟨none, false, 20, .s 12, .lit 32⟩) 20 0xFFFFFFFF && putsV (.vshl ⟨none, false, 4, .v 1, .int 4⟩) 4 63 0x3F0) = true := by
  decide +kernel

/-- R132: SMOVI sign-extends; SMOVI.hi keeps the low half. -/
theorem test_moves :
    (putsS (.smovi ⟨none, false, 7, 0x8000⟩) 7 0xFFFF8000 && putsS (.smoviHi ⟨none, false, 8, 0xABCD⟩) 8 0xABCD0000
      && putsS (.ssel ⟨some ⟨0, 0, false, false, false, false, some (.s 0)⟩, false, 20, .s 11, .s 12⟩) 20 0xFFFFFFFF) = true := by
  decide +kernel

/-- R25, R133: GWIDTH is 64; PLACE of slot 0 of core 0 is 0; FEATs show the accepted set. -/
theorem test_special :
    (putsS (.sget ⟨none, false, 20, 0x01⟩) 20 64 && putsS (.sget ⟨none, false, 20, 0x04⟩) 20 2
      && putsS (.sget ⟨none, false, 20, 0x0C⟩) 20 100 && putsS (.sget ⟨none, false, 20, 0x20⟩) 20 0x3FFF) = true := by
  decide +kernel

/-- R135, R136, R109: lane-wise sums, SAT, a mask that turns lanes off and Z. -/
theorem test_vector_add :
    (putsV (.vadd vops) 4 63 315
      && putsV (.vadd ⟨some ⟨0, 0, false, true, false, false, none⟩, false, 4, .v 1, .lit 0x7FFFFFFF⟩) 4 1 0x7FFFFFFF
      && putsV (.vadd ⟨some ⟨1, 0, false, false, false, false, none⟩, false, 1, .v 1, .v 1⟩) 1 1 1
      && putsV (.vadd ⟨some ⟨1, 0, true, false, false, false, none⟩, false, 1, .v 1, .v 1⟩) 1 1 0
      && putsV (.vadd ⟨some ⟨1, 0, true, false, false, false, none⟩, false, 1, .v 1, .v 1⟩) 1 2 4) = true := by
  decide +kernel

/-- R137, R139: the dot product of bytes of either sign, and a bit field. -/
theorem test_vector_bytes :
    (putsV (.vdot4S8 ⟨none, false, 4, .lit 0xFF0102FE, .lit 0x01010101⟩) 4 0 0
      && putsV (.vdot4Ui8 ⟨none, false, 4, .lit 0xFF0102FE, .lit 0x01010101⟩) 4 0 0x200
      && putsV (.vbfeS ⟨some ⟨0, 0, false, false, false, false, some (.int 3)⟩, false, 4, .lit 0xE5, .int 4⟩) 4 0 0xFFFFFFFE
      && putsV (.vclz ⟨none, false, 4, .v 1⟩) 4 0 32 && putsV (.vpopc ⟨none, false, 4, .v 1⟩) 4 63 6) = true := by
  decide +kernel

/-- R138: a comparison writes the present lanes' bits. -/
theorem test_compare :
    gives (.vcmpS32 ⟨none, false, 0x21, .v 1, .int 3⟩) (base .nop) (fun t => t.st.mget 1 = 7) = true := by
  decide +kernel

/-- R140, R141: 1.5 + 2.25, 2 · 3 + 1, the packed halves, the larger of 1 and a NaN. -/
theorem test_floats :
    (putsV (.vfadd ⟨none, false, 4, .lit 0x3FC00000, .lit 0x40100000⟩) 4 5 0x40700000
      && putsV (.vfma ⟨some ⟨0, 0, false, false, false, false, some (.fc 2)⟩, false, 4, .fc 3, .lit 0x40400000⟩) 4 5 0x40E00000
      && putsV (.vhfmaF16 ⟨some ⟨0, 0, false, false, false, false, some (.int 1)⟩, false, 4, .int 2, .lit 0x42003C00⟩) 4 5 0x47004200
      && putsV (.vfmax ⟨none, false, 4, .fc 2, .lit 0x7FC00000⟩) 4 5 0x3F800000
      && putsV (.vfrcp ⟨none, false, 4, .fc 4⟩) 4 5 0x3E800000) = true := by
  decide +kernel

/-- R143's examples: the truncation of -2.75, and -2.5 rounded down to an FP32 integer. -/
theorem test_convert :
    (putsV (.vfcvt ⟨some ⟨0, 1, false, false, false, false, none⟩, false, 4, .lit 0xC0300000, 2⟩) 4 5 0xFFFFFFFE
      && putsV (.vfcvt ⟨some ⟨0, 3, false, false, false, false, none⟩, false, 4, .lit 0xC0200000, 10⟩) 4 5 0xC0400000) = true := by
  decide +kernel

/-- R144, R145: a butterfly, a shift down past the end, a broadcast. -/
theorem test_shuffles :
    (putsV (.vshufXor ⟨none, false, 4, .v 1, .int 1⟩) 4 6 7 && putsV (.vshufDown ⟨none, false, 4, .v 1, .int 2⟩) 4 63 63
      && putsV (.vshufUp ⟨none, false, 4, .v 1, .int 2⟩) 4 5 3 && putsV (.vbcast ⟨none, false, 4, .v 3, .int 5⟩) 4 9 20) = true := by
  decide +kernel

/-- R106, R107, R147 to R149: the sum of 0 to 63 is 2016; the scans of lane 3. -/
theorem test_reductions :
    (putsS (.vred ⟨none, false, 20, .v 1, 0⟩) 20 2016 && putsV (.vscanIncl ⟨none, false, 4, .v 1, 0⟩) 4 3 6
      && putsV (.vscanExcl ⟨none, false, 4, .v 1, 0⟩) 4 3 3) = true := by
  decide +kernel

/-- R146, R150: the ballot of v1, the lanes, the count of a mask, the mask of no absent lane. -/
theorem test_masks :
    (gives (.vbal ⟨none, false, 20, .v 1⟩) (base .nop) (fun t => t.st.sget64 20 = 0xFFFFFFFFFFFFFFFE)
      && putsV (.vlid ⟨none, false, 4⟩) 4 17 17 && putsS (.mcnt ⟨none, false, 20, 1⟩) 20 2
      && gives (.mnot ⟨none, false, 2, 1⟩) (base .nop) (fun t => t.st.mget 2 = 0xFFFFFFFFFFFFFFFA)) = true := by
  decide +kernel

/-- R103, R104: the sum of sixty-four ones, and its rounding. -/
theorem test_accumulator :
    (gives (.kaddF32 ⟨none, false, 0, .fc 2⟩) (base .nop) (fun t => t.st.k.sum = BitVec.ofNat 320 (64 * 2 ^ 149)
      && gives (.krnd ⟨none, false, 20⟩) t (fun u => u.st.sget 20 = 0x42800000))) = true := by
  decide +kernel

/-- R152: i0 · i1 + i2 with 2, 3 and 1. -/
theorem test_expr :
    putsV (.expr ⟨none, false, 4, .int 2, .int 3, .int 1, .int 0, 1, 0x12937000000⟩) 4 0 7 = true := by
  decide +kernel

/-- R178: five digits of which the last is absent; R180: eight nibbles. -/
theorem test_packing :
    (putsV (.pk3 ⟨none, false, 4, .v 1, .int 0⟩) 4 0 (2 * (3 + 9 + 27 + 81) + 1) && putsV (.pk4 ⟨none, false, 4, .v 1, .int 0⟩) 4 0 0x76543210
      && putsV (.upk4 ⟨none, false, 4, .lit 0xF, .int 0⟩) 4 0 0xFFFFFFFF) = true := by
  decide +kernel

/-- R174, R175: the least and the greatest of 0.0 and others; 1.0 quantised. -/
theorem test_quantisation :
    (gives (.qmm ⟨none, false, 20, .fc 6⟩) (base .nop) (fun t => t.st.sget64 20 = 0xBF800000BF800000)
      && gives (.dqntI8 ⟨none, false, 4, .int 3, .s 30⟩) { base .nop with st := ((base .nop).st.sset 30 0x3C00).sset 31 1 }
        (fun t => t.st.vget 4 0 = 0x40000000)) = true := by
  decide +kernel

/-! ### Witnesses: ALU instructions -/

/-- The operand A alone, into v4. -/
def vop (a : Opnd) : Alu1 := ⟨none, false, 4, a⟩
/-- A prefix with a mask register, and nothing else. -/
def masked (m : BitVec 4) : Option AluPre := some ⟨m, 0, false, false, false, false, none⟩
/-- A state whose strand has the scalar registers s30 and s31 as given. -/
def withS30 (lo hi : Word) (s : State) : State := { s with st := (s.st.sset 30 lo).sset 31 hi }

theorem witness_ScalarArithmetic :
    (∃ e ∈ scalarWords, NoReadError (e.1 sops) (base (e.1 sops))) ∧ (∃ e ∈ scalarPairs, NoReadError (e.1 sops) (base (e.1 sops)))
      ∧ NoReadError (.scmpEqD sops) (base (.scmpEqD sops)) ∧ NoReadError (.scmpNeD sops) (base (.scmpNeD sops)) :=
  ⟨⟨_, List.mem_cons_self, noReadError rfl⟩, ⟨_, List.mem_cons_self, noReadError rfl⟩, noReadError rfl, noReadError rfl⟩

theorem witness_ShiftCounts :
    (∃ e ∈ scalarShifts, NoReadError (e.1 sops) (base (e.1 sops))) ∧ ∃ e ∈ scalarPairShifts, NoReadError (e.1 sops) (base (e.1 sops)) :=
  ⟨⟨_, List.mem_cons_self, noReadError rfl⟩, _, List.mem_cons_self, noReadError rfl⟩

theorem witness_ScalarMoves :
    NoReadError (.ssel sops) (base (.ssel sops)) ∧ NoReadError (.smov (vop (.s 1))) (base .nop)
      ∧ NoReadError (.smovD (vop (.s 8))) (base .nop) ∧ NoReadError (.smoviHi ⟨none, false, 8, 1⟩) (base .nop) :=
  ⟨noReadError rfl, noReadError rfl, noReadError rfl, noReadError rfl⟩

theorem witness_SpecialRegisters :
    (∃ e ∈ specialRegisters, (⟨none, false, 20, 0⟩ : AluSget).x = e.1) ∧ wellFormed (openCtx 0) (.sget ⟨none, false, 20, 0x2D⟩) = true
      ∧ NoReadError (.sset ⟨none, false, 0, .s 8, 0x11⟩) (base .nop) ∧ wellFormed (openCtx 0) (.sset ⟨none, false, 0, .s 8, 0x28⟩) = true :=
  ⟨⟨_, List.mem_cons_self, rfl⟩, by decide +kernel, noReadError rfl, by decide +kernel⟩

theorem witness_VectorIntegers :
    (∃ e ∈ vectorWords, NoReadError (e.1 vops) (base (e.1 vops))) ∧ (∃ e ∈ vectorPairs, NoReadError (e.1 vops) (base (e.1 vops)))
      ∧ ∃ e ∈ vectorPairShifts, NoReadError (e.1 vops) (base (e.1 vops)) :=
  ⟨⟨_, List.mem_cons_self, noReadError rfl⟩, ⟨_, List.mem_cons_self, noReadError rfl⟩, _, List.mem_cons_self, noReadError rfl⟩

theorem witness_VectorFunctions :
    (∃ e ∈ vectorUnaries, NoReadError (e.1 (vop (.v 1))) (base (e.1 (vop (.v 1))))) ∧ (∃ e ∈ vectorFloats, NoReadError (e.1 vops) (base (e.1 vops)))
      ∧ NoReadError (.vfcvt ⟨none, false, 4, .v 1, 0⟩) (base .nop)
      ∧ NoReadError (.expr ⟨none, false, 4, .int 2, .int 3, .int 1, .int 0, 1, 0x12937000000⟩) (base .nop) :=
  ⟨⟨_, List.mem_cons_self, noReadError rfl⟩, ⟨_, List.mem_cons_self, noReadError rfl⟩, noReadError rfl, noReadError rfl⟩

theorem witness_VectorCompares : ∃ e ∈ vectorCompares, NoReadError (e.1 vops) (base (e.1 vops)) :=
  ⟨_, List.mem_cons_self, noReadError rfl⟩

theorem witness_CrossLane :
    (∃ e ∈ shuffles, NoReadError (e.1 vops) (base (e.1 vops))) ∧ NoReadError (.vred ⟨none, false, 20, .v 1, 0x0B⟩) (base .nop)
      ∧ ∃ e ∈ ([(.vscanIncl, 1), (.vscanExcl, 0)] : List ((AluX → Instr) × Nat)), NoReadError (e.1 ⟨none, false, 4, .v 1, 7⟩) (base .nop) :=
  ⟨⟨_, List.mem_cons_self, noReadError rfl⟩, noReadError rfl, _, List.mem_cons_self, noReadError rfl⟩

theorem witness_IntegerReductionsFold :
    (⟨none, false, 20, .v 1, 7⟩ : AluX).x.toNat < 8 ∧ NoReadError (.vred ⟨none, false, 20, .v 1, 7⟩) (base .nop)
      ∧ NoReadError (.vscanIncl ⟨none, false, 20, .v 1, 7⟩) (base .nop) ∧ NoReadError (.vscanExcl ⟨none, false, 20, .v 1, 7⟩) (base .nop) :=
  ⟨by decide, noReadError rfl, noReadError rfl, noReadError rfl⟩

theorem witness_Masks :
    NoReadError (.mand ⟨none, false, 2, 0, 1⟩) (base .nop) ∧ NoReadError (.mnot ⟨none, false, 2, 1⟩) (base .nop)
      ∧ NoReadError (.mload ⟨none, false, 2, 8⟩) (base .nop) ∧ NoReadError (.mcnt ⟨none, false, 20, 1⟩) (base .nop)
      ∧ NoReadError (.msave ⟨none, false, 20, 1⟩) (base .nop) ∧ NoReadError (.vbal (vop (.v 1))) (base .nop)
      ∧ NoReadError (.vlid ⟨none, false, 4⟩) (base .nop) :=
  ⟨noReadError rfl, noReadError rfl, noReadError rfl, noReadError rfl, noReadError rfl, noReadError rfl, noReadError rfl⟩

theorem witness_ExactAccumulator :
    NoReadError (.kclr ⟨none, false, 0⟩) (base .nop) ∧ (∃ e ∈ kadds, NoReadError (e.1 (vop (.v 1))) (base .nop))
      ∧ NoReadError (.krnd ⟨none, false, 20⟩) (base .nop) ∧ ([Val.nan, .inf true] : List Val).Perm [.inf true, .nan] :=
  ⟨noReadError rfl, ⟨_, List.mem_cons_self, noReadError rfl⟩, noReadError rfl, List.Perm.swap _ _ _⟩

/-- The values that QMM reads. -/
def qmmValues (s : State) (f : Alu1) : List Nat := (lanesOf (s.active f.pre)).map fun i => (opnd32 .fp s i f.a).toNat
/-- The values that QNT.t3 reads. -/
def t3Values (s : State) (f : Alu2) : List Val := (lanesOf (s.active f.pre)).map fun i => unpack fp32 (opnd32 .fp s i f.a).toNat

theorem witness_Quantisation :
    (NoReadError (.qmm ⟨masked 2, false, 20, .v 1⟩) (base .nop) ∧ qmmValues (base .nop) ⟨masked 2, false, 20, .v 1⟩ = []
      ∧ (∃ x ∈ qmmValues (base .nop) (vop (.lit 0x7FC00000)), unpack fp32 x = .nan)
      ∧ qmmValues (base .nop) ⟨masked 1, false, 20, .fc 2⟩ = 0x3F800000 :: [0x3F800000]
      ∧ ∀ y ∈ qmmValues (base .nop) ⟨masked 1, false, 20, .fc 2⟩, unpack fp32 y ≠ .nan)
    ∧ (⟨none, false, 4, .fc 2, .s 30⟩ : Alu2).b = .s 30 ∧ NoReadError (.qntI8 ⟨none, false, 4, .fc 2, .s 30⟩) (base .nop)
    ∧ NoReadError (.qntI4 ⟨none, false, 4, .fc 2, .s 30⟩) (base .nop) ∧ NoReadError (.qntT3 ⟨none, false, 4, .fc 2, .s 30⟩) (base .nop)
    ∧ meanAbs (t3Values (base .nop) ⟨none, false, 4, .lit 0x7FC00000, .s 30⟩) = none
    ∧ meanAbs (t3Values (base .nop) ⟨none, false, 4, .int 0, .s 30⟩) = some (0, 64)
    ∧ (meanAbs (t3Values (base .nop) ⟨none, false, 4, .fc 2, .s 30⟩)).any (·.1 ≠ 0) = true
    ∧ NoReadError (.dqntI8 ⟨none, false, 4, .int 3, .s 30⟩) (base .nop) ∧ NoReadError (.dqntI4 ⟨none, false, 4, .int 3, .s 30⟩) (base .nop) := by
  and_intros <;> first | exact noReadError rfl | exact ⟨0x7FC00000, by decide +kernel⟩ | decide +kernel

theorem witness_Packing :
    NoReadError (.pk3 vops) (base .nop) ∧ NoReadError (.pk4 vops) (base .nop) ∧ NoReadError (.upk4 vops) (base .nop)
      ∧ NoReadError (.upk3 ⟨none, false, 4, .v 1, .int 0⟩) (base .nop) ∧ upk3Bad (base .nop) ⟨none, false, 4, .v 1, .int 0⟩ = []
      ∧ (upk3Bad (base .nop) ⟨none, false, 4, .lit 243, .int 0⟩ ≠ [] ∧ (base .nop).grd.tolerant = false)
      ∧ (upk3Bad { base .nop with grd := { grid1 with record := grid1.record ||| (1 <<< 28) } } ⟨none, false, 4, .lit 255, .int 0⟩ ≠ []
        ∧ ({ base .nop with grd := { grid1 with record := grid1.record ||| (1 <<< 28) } } : State).grd.tolerant = true) :=
  by and_intros <;> first | exact noReadError rfl | decide +kernel

/-! ### Witnesses: control instructions -/

/-- Strand 0 between clauses, at an address that is not a multiple of 4. -/
def unaligned (s : State) : State := { s with st := { s.st with clause := none, pc := 0x10002 } }

theorem witness_ControlTransfers :
    (∃ e ∈ branches, NoReadError (e.1 4) (base (e.1 4)) ∧ e.2 (base (e.1 4)))
      ∧ (∃ e ∈ branches, NoReadError (e.1 4) (base (e.1 4)) ∧ ¬ e.2 (base (e.1 4)))
      ∧ NoReadError (.jmpi 8) (base (.jmpi 8)) ∧ NoReadError (.ret 8) (base (.ret 8))
      ∧ (base (.call 8 1)).st.clause = some ⟨0xFFFC, 4, [0x08880001, 0], []⟩
      ∧ (InFocus ⟨1, 0, 0⟩ (unaligned (base .nop)) ∧ (unaligned (base .nop)).st.clause = none ∧ mayOpen (unaligned (base .nop)) = true
        ∧ (unaligned (base .nop)).st.pc.toNat % 4 ≠ 0) := by
  refine ⟨⟨(.brsZ 0, fun s => s.st.sget 0 = 0), ?_, noReadError rfl, by decide +kernel⟩,
    ⟨(.brsZ 1, fun s => s.st.sget 1 = 0), ?_, noReadError rfl, by decide +kernel⟩, noReadError rfl, noReadError rfl, rfl, ⟨rfl, rfl⟩, rfl,
    by decide +kernel⟩
  · simp only [branches, List.mem_append]
    exact .inl (.inl (.inl (.inl (List.mem_map.2 ⟨0, by decide, rfl⟩))))
  · simp only [branches, List.mem_append]
    exact .inl (.inl (.inl (.inl (List.mem_map.2 ⟨1, by decide, rfl⟩))))

/-- The state with a BKPT or another instruction as the last of its clause. -/
def last (i : Instr) : State := machine (classAt (encode i)) (encode i)

/-- A strand that has waited. -/
def waited (s : State) : State := { s with st := { s.st with attempt := some 0 } }
/-- A block before its grant, in a grid whose record is not FIXED. -/
def ungranted (s : State) : State := { s with blk := { s.blk with granted := false } }
/-- An LDA of tag 1 stands out. -/
def ldaOut : Op := ⟨1, 0x10000, [], [], .lda, false, 0, 4, false, 0, 0, 0, 0, false, 1, [⟨0, 0, 0x20000, [0x50000], 0, 0, false, 5, [], 0, false, false, [], 0⟩], true, []⟩
/-- The strand with operations outstanding. -/
def withOps (l : List Op) (s : State) : State := { s with st := { s.st with ops := l } }
/-- Tags of LDAs that have read poison. -/
def poisoning (s : State) : State := { s with st := { s.st with poisonTags := 2 } }
/-- The grid has ended. -/
def endedGrid (s : State) : State := { s with grd := { s.grd with ended := some 0x50 } }

theorem witness_PausesAndEnd :
    (base .bkpt).st.clause = some ⟨0xFFFC, 4, [0x10000000, 0], []⟩
      ∧ ((last .bkpt).st.clause = some ⟨0xFFFC, 4, [0x10000000], []⟩ ∧ (last .bkpt).grd.ended = none)
      ∧ (base .exit).grd.tolerant = false ∧ (∃ o ∈ (withOps [ldaOut] (base .exit)).st.ops, o.what = .lda)
      ∧ (¬ (∃ o ∈ (poisoning (base .exit)).st.ops, o.what = .lda) ∧ (poisoning (base .exit)).st.poisonTags ≠ 0)
      ∧ (¬ (∃ o ∈ (base .exit).st.ops, o.what = .lda) ∧ (base .exit).st.poisonTags = 0) := by decide +kernel

/-- A CPOST whose promise stands in s21. -/
def promised (s : State) : State := { s with st := { s.st with owed := [⟨20, 1, true, false⟩], marks := 1 <<< 21 } }
/-- A strand whose instruction has come to a point. -/
def atPoint (n : DWord) (s : State) : State := { s with st := { s.st with attempt := some n } }
/-- An armed byte barrier at 0x100. -/
def armed (s : State) : State := { s with blk := { s.blk with scratch := [(0x10E, 1)], armed := [0x10] } }

theorem witness_Waits :
    (NoReadError (.sleep (.s 0)) (base (.sleep (.s 0))) ∧ (base (.sleep (.s 0))).arg (.s 0) = 0
      ∧ (waited (base (.sleep (.s 1)))).st.attempt.isSome = true
      ∧ (base (.sleep (.s 1))).st.attempt = none ∧ (base (.sleep (.s 1))).arg (.s 1) ≠ 0
      ∧ (base .acquire).prologue = false ∧ (ungranted (base .acquire)).prologue = true ∧ (ungranted (base .acquire)).blk.request = none)
    ∧ (NoReadError (.waittag (.int 1) (.int 0)) (base .nop) ∧ tagOut (base .nop).st 1 = 0 ∧ (base .nop).st.poisonTags = 0
      ∧ tagOut (withOps [ldaOut] (base .nop)).st 1 = 1
      ∧ tagOut (poisoning (base .nop)).st 1 = 0 ∧ (poisoning (base .nop)).st.poisonTags.getLsbD 1 = true ∧ (base .nop).grd.tolerant = false)
    ∧ (NoReadError (.waitp (.s 0)) (base .nop) ∧ promiseOf (base .nop).st 0 = none)
    ∧ (atPoint 1 (promised (base .nop))).st.attempt = some 1
    ∧ clockReached (base .nop) ((base .nop).st.sget 0) ∧ ¬ clockReached (base .nop) ((base .nop).st.sget 1)
    ∧ (promiseOf (promised (base .nop)).st 21).isSome = true ∧ (promised (base .nop)).st.trapmask = false
    ∧ (NoReadError (.bbwait (.s 11)) (base .nop) ∧ 0x100 + 16 ≤ (base .nop).scratchLimit ∧ (base .nop).blk.barrierState 0x100 ≠ 1)
    ∧ (armed (base .nop)).blk.barrierState 0x100 = 1 ∧ (base .nop).scratchLimit < ((base .nop).arg (.s 12)).toNat / 16 * 16 + 16 := by
  and_intros <;> first | exact noReadError rfl | decide +kernel | (show 0 ≤ _; decide +kernel) | (show ¬ 0 ≤ _; decide +kernel)

/-- The other strand waits at BAR. -/
def othersAtBar (s : State) : State :=
  { s with blk := { s.blk with strands := s.blk.strands.map fun t => { t with status := .waiting .bar } } }

/-- A store of the strand is outstanding, and a load of serial 2 has taken its data. -/
def taken : Op := { ldaOut with what := .st, tag := 0, lanes := ldaOut.lanes.map fun a => { a with seen := [(2, true)] } }

theorem witness_Barriers :
    ((base .bar).st.attempt = none ∧ seenOut (withOps [taken] (base .bar)) (fun _ => true) = true ∧ seenOut (base .bar) (fun _ => true) = false) ∧
    (waited (base .bar)).st.attempt.isSome = true
      ∧ ((othersAtBar (base .bar)).st.attempt = none ∧ (othersAtBar (base .bar)).grd.ended = none
        ∧ (othersAtBar (base .bar)).st.here = true ∧ ∀ u ∈ (othersAtBar (base .bar)).blk.strands, barrierArrived u = true)
      ∧ ((base .bar).st.attempt = none ∧ (base .bar).grd.ended = none ∧ ∃ u ∈ (base .bar).blk.strands, barrierArrived u = false)
      ∧ (endedGrid (base .bar)).grd.ended.isSome = true
      ∧ ((base .exit).st.poisonTags = 0 ∧ ∀ o ∈ (base .exit).st.ops, o.what ≠ .lda)
      ∧ (∃ e ∈ barps, NoReadError (e.1 9 (.s 1)) (base (e.1 9 (.s 1)))) :=
  by and_intros <;> first | exact ⟨_, List.mem_cons_self, noReadError rfl⟩ | decide +kernel

/-- A strand whose TRAPVEC is 0x10080. -/
def vectored (s : State) : State := { s with st := { s.st with trapvec := 0x10080 } }
/-- A strand in its trap handler. -/
def inHandler (s : State) : State := { s with st := { s.st with trapvec := 0x10080, trapret := 0x10040, trapcause := 0x60070001 } }

theorem witness_UserTraps :
    ((vectored (base (.trap 7))).st.clause = some ⟨0xFFFC, 4, [0x0E000007, 0], []⟩ ∧ (vectored (base (.trap 7))).st.trapvec ≠ 0
        ∧ (vectored (base (.trap 7))).st.trapcause.getLsbD 0 = false)
      ∧ (base (.trap 7)).st.trapvec = 0 ∧ (inHandler (base (.trap 7))).st.trapcause.getLsbD 0 = true
      ∧ (inHandler (base .tret)).st.trapcause.getLsbD 0 = true ∧ (base .tret).st.trapcause.getLsbD 0 = false := by
  decide +kernel

/-- R126 to R128: the trap's cause, return address and target, and the return. -/
theorem test_trap :
    (gives (.trap 7) (vectored (base (.trap 7))) (fun t =>
        t.st.pc = 0x10080 && t.st.trapret = 0x10008 && t.st.trapcause = 0x60070001 && t.st.clause = none)
      && gives .tret (inHandler (base .tret)) (fun t => t.st.pc = 0x10040 && t.st.trapcause = 0x60070000)) = true := by
  decide +kernel

/-- R113, R66: a branch to itself less four words; CALL's link. -/
theorem test_branches :
    (gives (.bra 0xFFFC) (base (.bra 0xFFFC)) (fun t => t.st.pc = 0xFFF0 && t.st.clause = none)
      && gives (.call 20 2) (base (.call 20 2)) (fun t => t.st.pc = 0x10008 && t.st.sget64 20 = 0x10008)
      && gives (.brsNz 0 4) (base (.brsNz 0 4)) (fun t => t.st.pc = 0x10004)) = true := by
  decide +kernel

/-- R18, R121, R123: the end of a strand; a barrier's last arrival; a sum of payloads. -/
theorem test_barriers :
    (gives .exit (base .exit) (fun t => t.st.status = .exited)
      && gives .exit (othersAtBar (base .exit)) (fun t => t.blk.strands.all fun u => u.status = .ready)
      && gives .bar (othersAtBar (base .bar)) (fun t => t.st.status = .ready && t.blk.strands.all fun u => u.status = .ready)
      && gives (.barpAdd 9 (.s 4)) { base (.barpAdd 9 (.s 4)) with blk := { (base .nop).blk with
          strands := [{ strand 1 0xFFFFFFFFF with status := .waiting (.barp 0x15 7 10) }] } } (fun t =>
        t.st.sget 9 = 11 && t.blk.strands.all fun u => u.sget 10 = 11)) = true := by
  decide +kernel

/-! ### Witnesses: memory instructions -/

/-- What a check of an access gives is a passed one, as p says. -/
def passes (c : CheckedAll) (p : List (Nat × DWord × PagePart) → State → World → Bool) : Bool :=
  match c with
  | .ok l s w => p l s w
  | .bad _ => false

/-- The strand with lane 0 alone in m0. -/
def lane0 (s : State) : State := { s with st := { s.st with m := [1, 5] } }

/-- The hypotheses of `WaitvReadsAndSleeps` for a word that is poisoned or not, with B equal to it or not. -/
def waitvReads (b : Opnd) (s : State) (bad same : Bool) : Bool :=
  passes (checkLane (waitvReq s 8) 0 s) fun l v w =>
    match l with
    | [(_, _, part)] =>
      let u : State := { v with wld := w }
      !readHeld u (waitvReq s 8) l && decide (badLines u part.key part.pas = []) && part.pas.any u.badNow == bad
        && decide (BitVec.ofNat 32 (leNat (part.pas.map u.readByte)) = u.arg b) == same
    | _ => false
/-- Its hypothesis for a read that waits. -/
def waitvWaits (s : State) : Bool :=
  passes (checkLane (waitvReq s 8) 0 s) fun l v w => readHeld { v with wld := w } (waitvReq s 8) l

/-- The read of the line at 0x50000 that comes next fails on its way. -/
def failing (s : State) : State := { s with failing := [.line 0x1400] }
/-- A store of the word at 0x20000 is outstanding. -/
def storing (s : State) : State :=
  withOps [{ ldaOut with
    what := .st, tag := 0, uni := true
    lanes := [⟨0, 0, 0x20000, [0x50000, 0x50001, 0x50002, 0x50003], 1, 0, false, 5, [1, 2, 3, 4], 0, false, false, [], 0⟩] }]
    { s with st := { s.st with serial := 1 } }

theorem witness_WaitvReadsAndSleeps :
    NoReadError (.waitv 8 (.int 0)) (base (.waitv 8 (.int 0))) ∧ waitvReads (.int 0) (base (.waitv 8 (.int 0))) false true = true
      ∧ waitvReads (.int 1) (base (.waitv 8 (.int 1))) false false = true ∧ waitvWaits (storing (base .nop)) = true
      ∧ waitvReads (.int 0) (failing (base .nop)) true true = true ∧ (failing (base .nop)).grd.tolerant = false := by
  and_intros <;> first | exact noReadError rfl | decide +kernel

/-- A word at s8:s9 and v3. -/
def mv : MemV := ⟨none, none, 2, 6, 8, some 3⟩
/-- A word at s8:s9, with s1 for data. -/
def mu : MemU := ⟨none, none, 2, 1, 8, 0⟩
/-- s8:s9 point to another page. -/
def pointing (p : Word) (s : State) : State := { s with st := s.st.sset 8 p }

theorem witness_DeviceAccessesIssue :
    (∃ req, DeviceAccess (.ld mv) false req ∧ NoReadError (.ld mv) (lane0 (base (.ld mv))) ∧ (lane0 (base (.ld mv))).st.attempt = none
        ∧ failedLanes (req (lane0 (base (.ld mv)))) (lane0 (base (.ld mv))) = []
        ∧ soBlocked (lane0 (base (.ld mv))) (req (lane0 (base (.ld mv)))).uni (passedParts (req (lane0 (base (.ld mv)))) (lane0 (base (.ld mv)))) = false)
      ∧ ∃ req, DeviceAccess (.stU mu) true req ∧ NoReadError (.stU mu) (base (.stU mu)) ∧ (base (.stU mu)).prologue = false
        ∧ (base (.stU mu)).st.attempt = none ∧ failedLanes (req (base (.stU mu))) (base (.stU mu)) = []
        ∧ soBlocked (base (.stU mu)) (req (base (.stU mu))).uni (passedParts (req (base (.stU mu))) (base (.stU mu))) = false := by
  refine ⟨⟨_, .vector (_ : (MemV → Instr) × Bool × (MemV → State → MemReq)) List.mem_cons_self mv, noReadError rfl, rfl, ?_, ?_⟩,
    ⟨_, .uniform (_ : (MemU → Instr) × Bool × (MemU → State → MemReq)) (List.mem_cons_of_mem _ List.mem_cons_self) mu, noReadError rfl, ?_, rfl, ?_, ?_⟩⟩ <;>
    decide +kernel

/-- The strand with lanes 0 and 1 in m0. -/
def lanes01 (s : State) : State := { s with st := { s.st with m := [3, 5] } }

/-- Does every fault of a list, of which there are n, stand for a replay or not, and is it no ESCAPE? -/
def allFail (n : Nat) (replays : Bool) (l : List (Nat × FaultInfo)) : Bool :=
  l.length == n && l.all fun y => replayable y.2.code == replays && decide (y.2.code ≠ codeEscape)

/-- Grid 1 with arenas: a block arena of 64 KiB, in block slot 0 of die 0 with GEN 0, and a hand-over pool of 1
KiB at 0x25000. -/
def withArenas (s : State) : State :=
  { s with
    grd := { s.grd with record := s.grd.record ||| BitVec.ofNat 512 (2 ^ 271 + 2 ^ 436 * (0x25000 / 64) + 2 ^ 488) }
    blk := { s.blk with barena := 0x0800000000000000 }
    slots := [{ SlotRec.fresh (.block 0 0) with state := 1, cls := 1, world := 5, cap := 0x10000, owner := .block 1 0 }] }

/-- The strand with an arena pointer in s14:s15. -/
def withPtr (p : DWord) (s : State) : State := { s with st := s.st.sset64 14 p }

/-- A double word from s14:s15 to s8:s9. -/
def mp : MemU := ⟨none, none, 3, 14, 8, 0⟩

theorem witness_DeviceAccessesParkOrFault :
    (let s := pointing 0x10000 (base (.stU mu))
     NoReadError (.stU mu) s ∧ s.prologue = false ∧ allFail 1 false (failedLanes (storeReq true (uniReq .st .store mu s)) s) = true)
      ∧ (let s := pointing 0x1F0000 (base (.stU mu))
         let r := storeReq true (uniReq .st .store mu s)
        allFail 1 true (failedLanes r s) = true ∧ soBlocked s r.uni (passedParts r s) = false)
      ∧ (let s := lanes01 (pointing 0x2FFFC (base (.ld mv)))
        let r := vecReq .ld (.load s.prologue) mv s
        allFail 1 true (failedLanes r s) = true ∧ (passedParts r s).length = 1 ∧ soBlocked s r.uni (passedParts r s) = false)
      ∧ (let s := waited (lanes01 (pointing 0x2FFFC (base (.ld mv))))
        (lanesLeft (vecReq .ld (.load s.prologue) mv s) s).length = 0)
      ∧ (let s := pointing 0x90000 (withOps [{ ldaOut with what := .ld, uni := true, tag := 0 }]
           { base (.stU mu) with st := { (base (.stU mu)).st with serial := 1 } })
         let r := storeReq true (uniReq .st .store mu s)
        failedLanes r s = [] ∧ soBlocked s r.uni (passedParts r s) = true)
      ∧ (let s := withPtr 0x0800000000000000 (withArenas (base (.stU mp)))
         (failedLanes (storeReq true (uniReq .st .store mp s)) s).map (·.2.code) = [codeEscape]) := by
  and_intros <;> first | exact noReadError rfl | decide +kernel

/-- A word of the scratchpad at s11 and v3. -/
def cv : MemV := ⟨none, none, 2, 1, 11, some 3⟩
/-- Two words of it. -/
def cv8 : MemV := ⟨none, none, 3, 4, 11, none⟩
/-- A word past its end, at s12 and v3. -/
def cvOut : MemV := ⟨none, none, 2, 1, 12, some 3⟩
/-- A word of the SBM. -/
def gv : MemV := ⟨none, none, 2, 1, 11, some 3⟩

theorem witness_ChipAccessesIssue :
    (∃ req, ChipAccess (.lds cv) false false req ∧ NoReadError (.lds cv) (base (.lds cv)) ∧ (req (base (.lds cv))).escape = false
      ∧ ∀ lane ∈ lanesOf (req (base (.lds cv))).lanes, chipInside (base (.lds cv)) false (req (base (.lds cv))) lane)
    ∧ (∃ req, ChipAccess (.sts cv8) false true req ∧ (base (.sts cv8)).prologue = false ∧ (base (.sts cv8)).st.attempt = none
      ∧ ((req (base (.sts cv8))).escape = true
        ∧ localEscape (base (.sts cv8)) (.block 1 0) (req (base (.sts cv8))) (lanesOf (req (base (.sts cv8))).lanes) = none)
      ∧ (∀ lane ∈ lanesOf (req (base (.sts cv8))).lanes, chipInside (base (.sts cv8)) false (req (base (.sts cv8))) lane)
      ∧ ∀ lane ∈ lanesOf (req (base (.sts cv8))).lanes, ¬ chipArmed (base (.sts cv8)) (req (base (.sts cv8))) lane)
    ∧ ∃ req, ChipAccess (.gld gv) true false req
      ∧ ∀ lane ∈ lanesOf (req (base (.gld gv))).lanes, chipInside (base (.gld gv)) true (req (base (.gld gv))) lane := by
  refine ⟨⟨_, .vector (_ : (MemV → Instr) × Bool × Bool × (MemV → State → MemReq)) List.mem_cons_self cv, noReadError rfl, rfl, ?_⟩,
    ⟨_, .vector (_ : (MemV → Instr) × Bool × Bool × (MemV → State → MemReq)) (List.mem_cons_of_mem _ List.mem_cons_self) cv8, by decide +kernel, rfl,
      ⟨rfl, by decide +kernel⟩, ?_, ?_⟩,
    ⟨_, .vector (_ : (MemV → Instr) × Bool × Bool × (MemV → State → MemReq))
      (List.mem_cons_of_mem _ (List.mem_cons_of_mem _ (List.mem_cons_of_mem _ List.mem_cons_self))) gv, ?_⟩⟩ <;>
    simp only [chipInside, chipArmed] <;> decide +kernel

/-- What lies outside, as the model computes it, is what `chipInside` denies. -/
theorem outside_iff (s : State) (sbm : Bool) (r : MemReq) (k : Nat) : localOut s sbm r k = true ↔ ¬ chipInside s sbm r k := by
  cases sbm <;> simp [localOut, chipInside, alignDown, chipAddr]

/-- What meets an armed barrier, as the model computes it, is what `chipArmed` says. -/
theorem armed_iff (s : State) (r : MemReq) (k : Nat) :
    touchesArmed s.blk (alignDown ((r.addr k).setWidth 32) r.size) r.size = true ↔ chipArmed s r k := by
  simp [touchesArmed, chipArmed, alignDown, chipAddr]

theorem witness_ChipAccessesFault :
    (∃ req, ∃ out : Nat → Bool, ChipAccess (.lds cvOut) false false req ∧ NoReadError (.lds cvOut) (base (.lds cvOut))
      ∧ (req (base (.lds cvOut))).escape = false ∧ (∀ k, out k = true ↔ ¬ chipInside (base (.lds cvOut)) false (req (base (.lds cvOut))) k)
      ∧ 0 ∈ lanesOf (req (base (.lds cvOut))).lanes ∧ out 0 = true ∧ ∀ k ∈ lanesOf (req (base (.lds cvOut))).lanes, k < 0 → out k = false)
    ∧ ∃ req, ∃ met : Nat → Bool, ChipAccess (.sts cv) false true req ∧ NoReadError (.sts cv) (armed (base (.sts cv)))
      ∧ (armed (base (.sts cv))).prologue = false ∧ (req (armed (base (.sts cv)))).escape = false
      ∧ (∀ k ∈ lanesOf (req (armed (base (.sts cv)))).lanes, chipInside (armed (base (.sts cv))) false (req (armed (base (.sts cv)))) k)
      ∧ (∀ k, met k = true ↔ chipArmed (armed (base (.sts cv))) (req (armed (base (.sts cv)))) k)
      ∧ 0 ∈ lanesOf (req (armed (base (.sts cv)))).lanes ∧ met 0 = true
      ∧ ∀ k ∈ lanesOf (req (armed (base (.sts cv)))).lanes, k < 0 → met k = false := by
  refine ⟨⟨_, localOut (base (.lds cvOut)) false (localVec .lds cvOut (base (.lds cvOut))),
      .vector (_ : (MemV → Instr) × Bool × Bool × (MemV → State → MemReq)) List.mem_cons_self cvOut, noReadError rfl, rfl,
      outside_iff _ _ _, by decide +kernel, by decide +kernel, fun k _ h => absurd h (by omega)⟩,
    ⟨_, fun k => touchesArmed (armed (base (.sts cv))).blk
        (alignDown (((storeReq true (localVec .sts cv (armed (base (.sts cv))))).addr k).setWidth 32) 4) 4,
      .vector (_ : (MemV → Instr) × Bool × Bool × (MemV → State → MemReq)) (List.mem_cons_of_mem _ List.mem_cons_self) cv, noReadError rfl,
      by decide +kernel, rfl, ?_, armed_iff _ _, by decide +kernel, by decide +kernel, fun k _ h => absurd h (by omega)⟩⟩
  simp only [chipInside]; decide +kernel

/-- A store stands out. -/
def stOut : Op := { ldaOut with what := .st, tag := 0 }
/-- A release fence of BLOCK scope. -/
def relFence : FenceF := ⟨some ⟨2, 1, 0, 0, false, false, none⟩, none, 0⟩
/-- An acquire fence of DEVICE scope. -/
def acqFence : FenceF := ⟨some ⟨1, 3, 0, 0, false, false, none⟩, none, 0⟩

theorem witness_FenceAndPrefetch :
    fenceHeld (withOps [stOut] (base (.fence relFence))) (attOf relFence.att) = true
      ∧ (fenceHeld (base (.fence acqFence)) (attOf acqFence.att) = false ∧ (attOf acqFence.att).ord.getLsbD 0 = true
        ∧ 2 ≤ (attOf acqFence.att).scope.toNat)
      ∧ (NoReadError (.pref ⟨none, none, 0, 0, 8, some 3⟩) (base .nop)
        ∧ ∀ lane ∈ lanesOf ((base .nop).st.mget 0), prefFaults (deviceAddr (base .nop) ⟨none, none, 0, 0, 8, some 3⟩ lane) (base .nop) = false)
      ∧ NoReadError (.prefU ⟨none, none, 0, 0, 8, 0⟩) (base .nop)
      ∧ prefFaults (deviceAddrU (base .nop) ⟨none, none, 0, 0, 8, 0⟩) (base .nop) = false :=
  ⟨by decide +kernel, by decide +kernel, ⟨noReadError rfl, by decide +kernel⟩, noReadError rfl, by decide +kernel⟩

/-- Four bytes for each lane from s8:s9 to s11 and v3. -/
def ldaf : LdaF := ⟨none, none, 0, 1, 11, 3, 8, none, .int 4⟩
/-- The same to s12 and v3. -/
def ldafOut : LdaF := { ldaf with sbase := 12 }

/-- What `LdaIssues` asks of an attempt: no lane outside the allotment, the lanes whose checks fail in number
and kind, and whether it comes behind a store whose data a load has taken. -/
def ldaAt (s : State) (n : Nat) (replays behind : Bool) : Bool :=
  let r := ldaReq ldaf s
  let c := ldaLanes r (ldaValid s ldaf) (lanesLeft r s) s
  ((lanesOf (s.st.mget 0)).filter (fun i => decide (s.scratchLimit < ldaTarget s ldaf i + 4 * 2 ^ ldaf.lsz.toNat))).isEmpty
    && allFail n replays c.2.1 && seenOut s (fun p => c.1.any fun a => a.pas.contains p) == behind

theorem witness_LdaIssues :
    (NoReadError (.lda ldaf) (lane0 (base (.lda ldaf))) ∧ (lane0 (base (.lda ldaf))).prologue = false ∧ (lane0 (base (.lda ldaf))).st.attempt = none)
      ∧ ldaAt (lane0 (base (.lda ldaf))) 0 true false = true ∧ lanesOf ((lane0 (base (.lda ldaf))).st.mget 0) ≠ []
      ∧ ldaAt (lane0 (pointing 0x40000 (base (.lda ldaf)))) 1 false false = true
      ∧ ldaAt (lane0 (pointing 0x1F0000 (base (.lda ldaf)))) 1 true false = true
      ∧ ldaAt (lane0 (withOps [taken] (base (.lda ldaf)))) 0 true true = true
      ∧ (let s := lane0 (base (.lda ldafOut))
         (lanesOf (s.st.mget 0)).filter (fun i => decide (s.scratchLimit < ldaTarget s ldafOut i + 4 * 2 ^ ldafOut.lsz.toNat)) = 0 :: []) :=
  ⟨⟨noReadError rfl, by decide +kernel, by decide +kernel⟩, by decide +kernel, by decide +kernel, by decide +kernel, by decide +kernel,
    by decide +kernel, by decide +kernel⟩

theorem witness_PrologueFaults :
    (∀ i, (ungranted (base i)).prologue = true ∧ NoReadError i (ungranted (base i)))
      ∧ (∃ req, DeviceAccess (.stU mu) true req) ∧ (∃ req, ChipAccess (.sts cv) false true req)
      ∧ eMtype (leafEntry 0xA0000 11 3 0 0 5) = 3 ∧ eR (leafEntry 0xA0000 11 3 0 0 5) = true ∧ eUser (leafEntry 0xA0000 11 3 0 0 5) = true := by
  refine ⟨fun i => ⟨?_, noReadError rfl⟩,
    ⟨_, .uniform (_ : (MemU → Instr) × Bool × (MemU → State → MemReq)) (List.mem_cons_of_mem _ List.mem_cons_self) mu⟩,
    ⟨_, .vector (_ : (MemV → Instr) × Bool × Bool × (MemV → State → MemReq)) (List.mem_cons_of_mem _ List.mem_cons_self) cv⟩,
    by decide +kernel, by decide +kernel, by decide +kernel⟩
  show (!false && !grid1.fixed) = true
  decide +kernel

/-- R228, R229, R252: a load and a store stand out for the page's byte addresses; a scratchpad store waits in
its queue. -/
theorem test_memory_issue :
    (gives (.ld mv) (lane0 (base (.ld mv))) (fun t => t.st.ops.map (fun o => (o.what, o.lanes.map (·.pas))) = [(.ld, [[0x50000, 0x50001, 0x50002, 0x50003]])])
      && gives (.stU mu) (base (.stU mu)) (fun t => t.st.ops.map (fun o => (o.what, o.lanes.map (·.data))) = [(.st, [[1, 0, 0, 0]])])
      && gives (.sts cv) (base (.sts cv)) (fun t => t.st.ops.length = 1 && t.blk.scratch = [])) = true := by
  decide +kernel

/-- R230: a fault that is replayable parks the strand where it stands; R221: a store to a page without W does not. -/
theorem test_memory_faults :
    (gives (.stU mu) (pointing 0x1F0000 (base (.stU mu))) (fun t => t.st.pc = 0x10000 && (match t.st.status with | .parked f _ => f.code = 0x10 | _ => false))
      && gives (.stU mu) (pointing 0x10000 (base (.stU mu))) (fun t => t.st.status = .faulted && Memory.read t.mem 0x5F040 = 0x11)) = true := by
  decide +kernel

/-! ### Witnesses: engine instructions -/

/-- The state with bytes in device memory. -/
def withBytes (pa : Nat) (l : List Byte) (s : State) : State := { s with mem := Memory.writeBytes s.mem pa l }
/-- The state with bytes in the scratchpad of the block in focus. -/
def withScratch (a : Nat) (l : List Byte) (s : State) : State := { s with blk := { s.blk with scratch := Memory.writeBytes s.blk.scratch a l } }
/-- Rings of 16 slots: comet queue 0 at 0x21000 with its slots at 0x24000, and work queue 3 at 0x22000 with its
slots at 0x23000, of which `n` are taken. -/
def withRings (n : Nat) (s : State) : State :=
  withBytes 0x51000 (leBytes 64 (n + 2 ^ 128 * 0x24000 + 2 ^ 192 * 4 + 2 ^ 224 * 5))
    (withBytes 0x52000 (leBytes 64 (n + 2 ^ 128 * 0x23000 + 2 ^ 192 * 4)) s)

/-- The instruction has read bytes, numbered from `base` on, the first of them poisoned or not. -/
def withFetched (base : Nat) (l : List Byte) (bad : Bool) (s : State) : State :=
  let read := (List.range l.length).map fun k => (base + k, nth 0 l k, bad && k == 0)
  { s with st := { s.st with fetched := s.st.fetched ++ read } }
/-- It has read those and found no poison. -/
def hasRead (base : Nat) (bytes : List Byte) (s : State) : Bool :=
  (List.range bytes.length).all fun k => decide (s.st.fetched.lookup (base + k) = some (nth 0 bytes k, false))
/-- Some of n bytes are left. -/
def unread (base n : Nat) (s : State) : Bool := (List.range n).any fun k => decide (s.st.fetched.lookup (base + k) = none)
/-- None is, and the first was poisoned. -/
def badFirst (base n : Nat) (s : State) : Bool := decide (0 < n) && !unread base n s && (s.st.fetched.lookup base).any (·.2)

/-- They are what the statements say of reads that come apart. -/
theorem reads_iff (base n : Nat) (bytes : List Byte) (s : State) :
    (hasRead base bytes s = true ↔ BytesRead base bytes s) ∧ (unread base n s = true ↔ Unread base n s)
      ∧ (badFirst base n s = true → ReadPoison base n s) := by
  have h : unread base n s = true ↔ Unread base n s := by simp [unread, Unread]
  refine ⟨by simp [hasRead, BytesRead], h, fun hb => ?_⟩
  simp only [badFirst, Bool.and_eq_true, decide_eq_true_eq, Bool.not_eq_true'] at hb
  obtain ⟨⟨hn, hu⟩, hp⟩ := hb
  obtain ⟨y, hy, hy'⟩ := Option.any_eq_true_iff_get _ _ |>.mp hp |> fun ⟨a, b⟩ => (⟨_, Option.some_get a |>.symm, b⟩ : ∃ y, s.st.fetched.lookup base = some y ∧ y.2 = true)
  exact ⟨fun c => by simp [h.mpr c] at hu, 0, y.1, hn, by rw [Nat.add_zero, hy, ← hy']⟩

/-- The header of comet queue 0, and what p says of it. -/
def cometAt (s : State) (p : State → Header → Bool) : Bool :=
  let u := cometHeaderCheck s
  (cometHeader u u.wld u.st.cqsel.toNat).any fun x => p u x.2
/-- The image has been read; the queue is full, or takes the packet or not. -/
def cometTakes (full takes : Bool) (s : State) : Bool :=
  hasRead 0 (List.replicate 64 0) s && cometAt s fun u h =>
    h.full == full && (full || (postImage u.wld.key h (List.replicate 64 0) u).isSome == takes)
/-- The hypotheses of the clause on what a post writes. -/
def postWrites (s : State) : Bool :=
  cometAt s fun u h => (moonPlaces u 5 .write (h.slot h.write) 64).any fun x =>
    (postImage 5 h (List.replicate 64 0) u).isSome && decide (x.1.length = 64 ∧ 8 ≤ h.places.length ∧ (h.places ++ x.1).Nodup)
      && (h.places ++ x.1).all (fun y => decide (y < Config.paSpace)) && decide (Memory.wf u.mem = true)
/-- The image of a packet of zeros has been read. -/
def imageRead (s : State) : State := withFetched 0 (List.replicate 64 0) false s
/-- Comet queue 0 has its slots where nothing is mapped. -/
def slotsAway (s : State) : State := withBytes 0x51000 (leBytes 64 (2 ^ 128 * 0x1F0000 + 2 ^ 192 * 4 + 2 ^ 224 * 5)) s

theorem witness_CometPosts :
    (∃ e ∈ ([(.cpost, false), (.cpostNb, true)] : List ((BitVec 7 → Opnd → Instr) × Bool)),
        NoReadError (e.1 20 (.s 10)) (withRings 0 (base (e.1 20 (.s 10)))))
      ∧ (withRings 0 (base .nop)).prologue = false ∧ (base .nop).scratchLimit < imageBase (.s 12) (base .nop) + 64
      ∧ imageBase (.s 10) (base .nop) + 64 ≤ (base .nop).scratchLimit
      ∧ unread 0 64 (base .nop) = true ∧ badFirst 0 64 (withFetched 0 (List.replicate 64 0) true (base .nop)) = true
      ∧ (base .nop).grd.tolerant = false
      ∧ cometTakes false true (imageRead (withRings 0 (base .nop))) = true ∧ cometTakes true true (imageRead (withRings 16 (base .nop))) = true
      ∧ cometTakes false false (imageRead (slotsAway (base .nop))) = true
      ∧ hasRead 0 (List.replicate 64 0) (imageRead (base .nop)) = true ∧ cometAt { imageRead (base .nop) with wld := { world5 with comet := [] } } (fun _ _ => true) = false
      ∧ postWrites (withRings 0 (base .nop)) = true := by
  refine ⟨⟨_, List.mem_cons_self, noReadError rfl⟩, ?_⟩
  and_intros <;> decide +kernel

/-- A store to the scratchpad stands out, half of it performed at a barrier. -/
def halfOp : Op := { ldaOut with
  what := .sts, tag := 0
  lanes := [⟨0, 0, 0x100, [0x100], 0, 0, false, 0, [1], 0, true, false, [], 0⟩, ⟨1, 0, 0x104, [0x104], 0, 0, false, 0, [1], 0, false, false, [], 0⟩] }

theorem witness_ByteBarriers :
    (base .nop).prologue = false ∧ ((base .nop).arg (.s 11)).toNat / 16 * 16 + 16 ≤ (base .nop).scratchLimit ∧ scratchBusy (base .nop) = false
      ∧ halfStored (base .nop) 0x100 = false ∧ scratchBusy (withOps [halfOp] (base .nop)) = true ∧ halfStored (withOps [halfOp] (base .nop)) 0x100 = true
      ∧ Memory.wf (base .nop).blk.scratch = true ∧ NoReadError (.bbinit (.s 11) (.s 4)) (base .nop) ∧ NoReadError (.bbinv (.s 11)) (base .nop)
      ∧ 0x10 ∈ (armed (base .nop)).blk.armed ∧ 0x10 ∉ (base .nop).blk.armed
      ∧ (base .nop).scratchLimit < ((base .nop).arg (.s 12)).toNat / 16 * 16 + 16 := by
  and_intros <;> first | exact noReadError rfl | decide +kernel

/-- The hypotheses of `Promotions` for a copy of n bytes from s8:s9: the source passes its checks, and p holds
of its parts and the state after them. -/
def promotes (n : Nat) (s : State) (p : List (Nat × DWord × PagePart) → State → Bool) : Bool :=
  passes (checkParts .strand (dieOf s.blk.core) (.load false) true 1 (partsOf (s.st.sget64 8) n 3 0) s s.wld) fun parts v w =>
    p parts { v with wld := w }
/-- Four source bytes are read; the allocation that follows has room or not. -/
def promoteReads (held : Bool) (s : State) (p : State → State → Bool) : Bool :=
  promotes 4 s fun parts r => readHeld r (promoteSource (s.st.sget64 8) 4) parts == held
    && (parts.all fun x => decide (badLines r x.2.2.key x.2.2.pas = [])) && p r (readOver (allPas parts) r)
/-- Four bytes have been read, the first of them poisoned or not. -/
def fourRead (bad : Bool) (s : State) : State := withFetched 0 [1, 2, 3, 4] bad s

/-- The hypotheses of the clause on the writes of a promotion. -/
def promoteStores (t : Nat) (p : DWord) (bytes : List Byte) (s : State) : Bool :=
  decide (escapeFault s s.wld.key (some (targetUnit t s)) p bytes = none)
    && passes (checkParts .strand (dieOf s.blk.core) .store true 1 (partsOf p bytes.length 3 0) { s with st := { s.st with promo := some (p, bytes) } } s.wld)
      fun _ _ _ => true

/-- Nothing is left of the hand-over pool. -/
def poolSpent (s : State) : State := { s with grd := { s.grd with poolCursor := 1024 } }
/-- An SO access of the strand stands out. -/
def behindSo (s : State) : State := { s with st := { s.st with ops := [{ ldaOut with what := .ld, uni := true, tag := 0 }], serial := 1 } }

theorem witness_Promotions_allocate :
    (let s := withArenas (base .nop)
     s.grd.poolSize ≠ 0 ∧ s.grd.poolCursor + 4096 / 16 * 16 / 4 ≤ s.grd.poolSize ∧ (base .nop).grd.poolSize = 0
       ∧ s.grd.poolSize < (poolSpent s).grd.poolCursor + (4 + 15) / 16 * 16
       ∧ s.grd.gcap = 0 ∧ s.grd.bcap ≠ 0 ∧ ptrSlot s.blk.barena = some (.block 0 0)
       ∧ (slotRec s (.block 0 0)).cursor + (4 + 15) / 16 * 16 ≤ (slotRec s (.block 0 0)).cap
       ∧ (slotRec s (.block 0 0)).cap < (slotRec s (.block 0 0)).cursor + (0x10001 + 15) / 16 * 16) := by
  decide +kernel

theorem witness_Promotions :
    (let s := withArenas (base .nop)
     NoReadError (.promoteA 0 10 (.s 4)) s ∧ NoReadError (.promote 2 10 8 (.s 4)) s ∧ s.prologue = false ∧ s.st.promo = none
       ∧ (allocate 0 (s.arg (.s 4)).toNat s).isSome = true ∧ allocate 1 (s.arg (.s 4)).toNat s = none
       ∧ 4096 < (s.arg (.s 12)).toNat ∧ (s.arg (.s 4)).toNat ≤ 4096 ∧ allocate 1 0 s = none ∧ (allocate 2 0 s).isSome = true
       ∧ (s.arg (.s 0)).toNat = 0 ∧ (s.arg (.s 4)).toNat ≠ 0)
      ∧ promotes 4 (pointing 0x1F0000 (withArenas (base .nop))) (fun _ _ => true) = false
      ∧ promoteReads true (withArenas (storing (base .nop))) (fun _ _ => true) = true
      ∧ promoteReads false (withArenas (base .nop)) (fun r _ => unread 0 4 r) = true
      ∧ promoteReads false (fourRead true (withArenas (base .nop))) (fun r _ => badFirst 0 4 r && !r.grd.tolerant) = true
      ∧ promoteReads false (fourRead false (withArenas (base .nop))) (fun r x => hasRead 0 [1, 2, 3, 4] r && (allocate 2 4 x).isSome) = true
      ∧ promoteReads false (fourRead false (poolSpent (withArenas (base .nop)))) (fun r x => hasRead 0 [1, 2, 3, 4] r && (allocate 2 4 x).isNone) = true := by
  and_intros <;> first | exact noReadError rfl | decide +kernel

theorem witness_Promotions_writes :
    promoteStores 2 0x25000 [1, 2, 3, 4] (withArenas (base .nop)) = true
      ∧ (let s := withArenas (base .nop)
         (escapeFault s s.wld.key (some (targetUnit 2 s)) 0x25000 (leBytes 8 0x0800000000000000)).isSome = true)
      ∧ (let s := withArenas (base .nop)
         escapeFault s s.wld.key (some (targetUnit 2 s)) 0x1F0000 [1, 2] = none
           ∧ passes (checkParts .strand (dieOf s.blk.core) .store true 1 (partsOf 0x1F0000 2 3 0) { s with st := { s.st with promo := some (0x1F0000, [1, 2]) } } s.wld)
             (fun _ _ _ => true) = false) := by
  and_intros <;> decide +kernel

/-- What a check of a part gives is a passed one. -/
def passed (c : Checked) : Bool :=
  match c with
  | .ok _ _ _ => true
  | .bad _ => false

/-- The block arena's page 0 is backed at 0x1000000. -/
def backed (s : State) : State := { s with slots := update (fun r => r.id = .block 0 0) (fun r => { r with pages := [(0, 0x1000000)] }) s.slots }
/-- The slot's arena has the largest cap that a record can ask for. -/
def wholeCap (s : State) : State := { s with slots := update (fun r => r.id = .block 0 0) (fun r => { r with cap := 2 ^ 38 }) s.slots }

theorem witness_ArenaQueries :
    wellFormed (openCtx 3) (.arena 20 (.s 14) 4) = true ∧ NoReadError (.arena 20 (.s 14) 4) (withPtr 0x0800000000000000 (withArenas (base .nop)))
      ∧ (withArenas (base .nop)).prologue = false ∧ ptrSpace ((withPtr 0x20000 (base .nop)).arg64 (.s 14)) = 0
      ∧ ptrSlot ((withPtr 0x20000 (base .nop)).arg64 (.s 14)) = none
      ∧ (ptrSlot ((withPtr 0x0800000000000000 (base .nop)).arg64 (.s 14)) = some (.block 0 0)
        ∧ (slotRec (base .nop) (.block 0 0)).world ≠ (base .nop).wld.key)
      ∧ (let s := withPtr 0x0800000000000000 (withArenas (base .nop))
        ptrSpace (s.arg64 (.s 14)) ≠ 0 ∧ ptrSlot (s.arg64 (.s 14)) = some (.block 0 0)
          ∧ (slotRec s (.block 0 0)).world = s.wld.key ∧ (slotRec s (.block 0 0)).state < 4 ∧ (slotRec s (.block 0 0)).cls < 4
          ∧ (slotRec s (.block 0 0)).cap < 2 ^ 38 ∧ ¬ (∃ y, (ptrOffset (s.arg64 (.s 14)) / slotPage (.block 0 0), y) ∈ (slotRec s (.block 0 0)).pages)
          ∧ passed (checkArena s s.wld (dieOf s.blk.core) (.load false) true (s.arg64 (.s 14)) 1) = true)
      ∧ (let s := withPtr 0x0800000000000000 (backed (withArenas (base .nop)))
        ∃ y, (ptrOffset (s.arg64 (.s 14)) / slotPage (.block 0 0), y) ∈ (slotRec s (.block 0 0)).pages)
      ∧ (let s := withPtr 0x0800000000020000 (withArenas (base .nop))
        ptrSpace (s.arg64 (.s 14)) ≠ 0 ∧ passed (checkArena s s.wld (dieOf s.blk.core) (.load false) true (s.arg64 (.s 14)) 1) = false)
      ∧ 2 ^ 38 ≤ (slotRec (wholeCap (withArenas (base .nop))) (.block 0 0)).cap := by
  and_intros <;> first | exact noReadError rfl | decide +kernel | exact ⟨0x1000000, by decide +kernel⟩ | exact fun ⟨y, h⟩ => nomatch h

/-- A launch record stands at 64 in the scratchpad. -/
def withLaunch (bits : Nat) (s : State) : State := withScratch 64 (leBytes 64 bits) (withRings 0 s)

/-- The record that LAUNCH has read from 64, in the state that `f` makes, and p of it and the record. -/
def launches (bits : Nat) (f : State → State) (p : State → BitVec 512 → Bool) : Bool :=
  let s := withFetched 0 (leBytes 64 bits) false (f (withLaunch bits (base .nop)))
  !s.prologue && !accessesOut s && hasRead 0 (leBytes 64 bits) s && p s (BitVec.ofNat 512 (leNat (leBytes 64 bits)))

/-- A range that a uniform read of the strand passes, and p of the state after its checks and the state after
the read. -/
def strandReads (p : DWord) (n : Nat) (s : State) (k : State → State → Bool) : Bool :=
  passes (checkParts .strand (dieOf s.blk.core) (.load false) true 8 (partsOf p n 3 0) s s.wld) fun parts v w =>
    let u : State := { v with wld := w }
    (parts.all fun x => decide (badLines u x.2.2.key x.2.2.pas = []))
      && k u (l1Drop u.blk.core (linesOf (allPas parts)) (readOver (allPas parts) u))

/-- A GRID record without arguments that does not escape, well-formed or not, p of it and its queue. -/
def launchGridTo (bits : Nat) (bad : Bool) (f : State → State) (p : State → BitVec 512 → Option Queue → Bool) : Bool :=
  launches bits f fun s r => decide (field r 8 8 = 0x80) && decide (field r 320 64 = 0) && decide (launchEscape s 64 0 [] = none)
    && (gridMalformed s.accepted r == bad) && p s r (s.queue (field r 16 10))

/-- The record names a queue of the world's VMID, its handle is 0 or the world's, and the launching grid stands
`deep` or not. -/
def launchMay (deep : Bool) (s : State) (r : BitVec 512) (q : Option Queue) : Bool :=
  q.any fun q => decide (q.bind.vmid = s.wld.vmid) && decide (field r 32 16 = 0 ∨ field r 32 16 = s.wld.handle.toNat)
    && (decide (15 ≤ s.grd.depth) == deep)

/-- What becomes of a post of an image to a queue: 0 its header cannot be reached, 1 it is full, 2 its slot
cannot be written, 3 it stands, 4 there is no such queue, 5 it is another VMID's. -/
def postEnds (bits : Nat) (s : State) (n : Nat) : Nat :=
  match s.queue n with
  | none => 4
  | some q =>
    if q.bind.vmid ≠ s.wld.vmid then 5
    else
      let u := queueHeaderCheck q s
      match queueHeader u q with
      | none => 0
      | some (key, h) => if h.full then 1 else if (postImage key h (leBytes 64 bits) u).isNone then 2 else 3

/-- Queue 3 with another VMID, or with its header at an address that nothing maps. -/
def queueOf (vmid : Nat) (header : DWord) (s : State) : State :=
  { s with queues := [{ queue3 with bind := { queue3.bind with vmid := vmid, header := header } }] }
/-- The ring of queue 3 with its slots at an address. -/
def ringAt (n slots : Nat) (s : State) : State := withBytes 0x52000 (leBytes 64 (n + 2 ^ 128 * slots + 2 ^ 192 * 4)) s
/-- A grid 15 levels below its root. -/
def deepGrid (s : State) : State := { s with grd := { s.grd with depth := 15 } }
/-- A task control block stands at 0x80200. -/
def withTcb (tcb : Nat) (s : State) : State := withBytes 0xB0200 (leBytes 128 tcb) s
/-- A NODE record for it. -/
def nodeRec : Nat := 1 + 2 ^ 8 * 0x81 + 2 ^ 64 * 0x80200
/-- A NODE whose control block has been read, p of it and the state after the read. -/
def launchNodeOf (tcb : Nat) (p : State → Tcb → Bool) : Bool :=
  launches nodeRec (fun s => withFetched 64 (leBytes 128 tcb) false (withTcb tcb s)) fun s r => decide (field r 8 8 = 0x81) && !nodeMalformed r
    && strandReads (BitVec.ofNat 64 (field r 64 64)) 128 s fun u v => hasRead 64 (leBytes 128 tcb) u && p v (BitVec.ofNat 1024 (leNat (leBytes 128 tcb)))
/-- A GRID record whose argument block is at p, p of the bytes read of it as `f` says. -/
def launchArgs (args : Nat) (f : State → State) (p : State → State → Bool) : Bool :=
  launches (gridBits + 2 ^ 320 * args) f fun s r =>
    decide (field r 8 8 = 0x80 ∧ field r 320 64 ≠ 0) && strandReads (BitVec.ofNat 64 args) 32 s p
/-- Thirty-two zero bytes. -/
def block0 : List Byte := List.replicate 32 0
/-- A COPY record. -/
def copyRec : Nat := 1 + 2 ^ 8 * 0

theorem witness_Launches_grid :
    NoReadError (.launch 20 (.s 10)) (withLaunch gridBits (base .nop)) ∧ unread 0 64 (withLaunch gridBits (base .nop)) = true
      ∧ (base .nop).scratchLimit < ((base .nop).arg (.s 12)).toNat / 64 * 64 + 64
      ∧ accessesOut (withOps [stOut] (withLaunch gridBits (base .nop))) = true ∧ imageBase (.s 10) (base .nop) + 64 ≤ (base .nop).scratchLimit
      ∧ badFirst 0 64 (withFetched 0 (leBytes 64 gridBits) true (withLaunch gridBits (base .nop))) = true
      ∧ (launchGridTo (gridBits + 2 ^ 511) true id fun _ _ _ => true) = true
      ∧ (launchGridTo (gridBits + 2 ^ 20) false id fun _ _ q => q.isNone) = true
      ∧ (launchGridTo gridBits false (queueOf 4 0x22000) fun s _ q => q.any fun q => decide (q.bind.vmid ≠ s.wld.vmid)) = true
      ∧ (launchGridTo (gridBits + 2 ^ 32) false id fun s r q => q.any (fun q => decide (q.bind.vmid = s.wld.vmid))
          && decide (field r 32 16 ≠ 0 ∧ field r 32 16 ≠ s.wld.handle.toNat)) = true
      ∧ launchGridTo gridBits false deepGrid (launchMay true) = true ∧ launchGridTo gridBits false id (launchMay false) = true
      ∧ (launches gridBits (queueOf 3 0x1F0000) fun s _ => postEnds gridBits s 3 == 0) = true
      ∧ (launches gridBits (ringAt 16 0x23000) fun s _ => postEnds gridBits s 3 == 1) = true
      ∧ (launches gridBits (ringAt 0 0x1F0000) fun s _ => postEnds gridBits s 3 == 2) = true
      ∧ (launches gridBits id fun s _ => postEnds gridBits s 3 == 3) = true := by
  and_intros <;> first | exact noReadError rfl | decide +kernel

theorem witness_Launches_reads :
    launchArgs 0x1F0000 id (fun _ _ => true) = false
      ∧ launchArgs 0x20100 id (fun u _ => unread 256 32 u) = true
      ∧ launchArgs 0x20100 (withFetched 256 block0 true) (fun u _ => badFirst 256 32 u && !u.grd.tolerant) = true
      ∧ launchArgs 0x20100 (withFetched 256 block0 false) (fun u z => hasRead 256 block0 u && decide (launchEscape z 64 0x20100 block0 = none)) = true
      ∧ launchArgs 0x0800000000000000 (fun s => withFetched 256 block0 false (withArenas s))
          (fun u z => hasRead 256 block0 u && (launchEscape z 64 0x0800000000000000 block0).isSome) = true := by
  and_intros <;> decide +kernel

theorem witness_Launches_others :
    (launches (nodeRec + 2 ^ 16) id fun _ r => decide (field r 8 8 = 0x81) && nodeMalformed r) = true
      ∧ (launchNodeOf (2 ^ 560) fun _ t => tcbMalformed t) = true
      ∧ (launchNodeOf gridBits fun v t => !tcbMalformed t && decide (field t 8 8 = 0x80) && !gridMalformed v.accepted (tcbRecord t)
          && postEnds nodeRec v 3 == 3) = true
      ∧ (launchNodeOf 0x200 fun v t => !tcbMalformed t && decide (field t 8 8 ≠ 0x80) && postEnds nodeRec v v.grd.queue == 3) = true
      ∧ (launches copyRec id fun s r => decide (field r 8 8 ≤ 7) && postEnds copyRec s s.grd.queue == 3) = true
      ∧ (launches (1 + 2 ^ 8 * 0x82) id fun _ r => decide (field r 8 8 = 0x82)) = true
      ∧ (launches (1 + 2 ^ 8 * 0x83 + 2 ^ 64 * 0x20100) id fun _ r => decide (field r 8 8 = 0x83) && !waitvalMalformed r) = true
      ∧ (launches (1 + 2 ^ 8 * 0x83 + 2 ^ 64 * 0x20102) id fun _ r => decide (field r 8 8 = 0x83) && waitvalMalformed r) = true
      ∧ (launches (1 + 2 ^ 8 * 0x84) id fun _ r => decide (7 < field r 8 8 ∧ field r 8 8 ∉ ([0x80, 0x81, 0x82, 0x83] : List Nat))) = true := by
  and_intros <;> decide +kernel

/-- A TSIG of s4 at s8:s9 passes its checks and waits for its order as `waits` says. -/
def tsigPasses (s : State) (waits : Bool) : Bool :=
  let r := tsigReq (s.st.sget64 8) (s.arg (.s 4))
  passes (checkLane r 0 s) fun l u w =>
    decide (u.st = s.st) && (soBlocked { u with wld := w } true (tsigUnits r l) == waits)

theorem witness_TaskSignals :
    NoReadError (.tsig 8 (.s 0)) (base .nop) ∧ (base .nop).prologue = false ∧ ((pointing 0x20040 (base .nop)).st.sget64 8).toNat % 128 ≠ 0
      ∧ (base .nop).arg (.s 0) = 0 ∧ (base .nop).arg (.s 4) ≠ 0
      ∧ ((base .nop).st.sget64 8).toNat % 128 = 0 ∧ tsigPasses (base .nop) false = true
      ∧ tsigPasses (pointing 0x90000 (behindSo (base .nop))) true = true
      ∧ passes (checkLane (tsigReq ((base .nop).st.sget64 8) ((base .nop).arg (.s 4))) 0 (base .nop)) (fun _ u _ => decide (u.st = (base .nop).st)) = true
      ∧ passes (checkLane (tsigReq ((base .nop).st.sget64 8) ((base .nop).arg (.s 0))) 0 (base .nop)) (fun _ u _ => decide (u.st = (base .nop).st)) = true :=
  by and_intros <;> first | exact noReadError rfl | decide +kernel

/-- R284: EXPECTED 4, ARRIVED 0, PHASE 0, ARMID 1, STATE 1 (ARMED). -/
theorem test_bbinit :
    gives (.bbinit (.s 11) (.s 4)) (base (.bbinit (.s 11) (.s 4))) (fun t => barrierFields t.blk 0x100 = [4, 0, 0, 1, 1]) = true := by
  decide +kernel

/-- R278: the packet stands in the ring with VALID 0x80 and WRITE has risen; R341: so for a launch. -/
theorem test_posts :
    (gives (.cpost 20 (.s 10)) (imageRead (withRings 0 (base (.cpost 20 (.s 10))))) (fun t => Memory.read t.mem 0x51000 = 1 && Memory.read t.mem 0x54000 = 0x80)
      && gives (.launch 20 (.s 10)) (withFetched 0 (leBytes 64 gridBits) false (withLaunch gridBits (base (.launch 20 (.s 10))))) (fun t =>
        t.st.sget 20 = 0 && Memory.read t.mem 0x52000 = 1 && Memory.read t.mem 0x53001 = 0x80)) = true := by
  decide +kernel

/-! ### Witnesses: matrix instructions -/

/-- A claimed slot of a kind and K. -/
def slotOf (state kind ks : Nat) : OSlot := ⟨state, kind, ks, false, 0, 0, 0, [], [], false⟩
/-- Slots 0 to 3: an INT8 activation, a weight tile, a claimed empty one and an unclaimed one. -/
def withSlots (s : State) : State := { s with blk := { s.blk with slots := [slotOf 3 1 0, slotOf 3 3 0, slotOf 1 0 0, slotOf 0 0 0] } }

/-- A pair of slots of an INT8 activation with K 512, and the block of a grid without a twin. -/
def withPair (s : State) : State := { s with blk := { s.blk with slots := [slotOf 3 1 2, slotOf 3 4 2] } }
/-- The grid has no twin. -/
def noTwin (s : State) : State := { s with grd := { s.grd with record := s.grd.record ^^^ BitVec.ofNat 512 (2 ^ 27) } }

theorem witness_SlotRuns :
    (base .nop).grd.twin = true ∧ (noTwin (base .nop)).grd.twin = false ∧ ((base .nop).arg (.s 0)).toNat = 0 ∧ ((base .nop).arg (.s 2)).toNat ≠ 0
      ∧ NoReadError (.oclaim 4 (.s 2)) (base .nop) ∧ NoReadError (.orel 0 (.s 2)) (withSlots (base .nop))
      ∧ (4 : BitVec 6).toNat + 2 ≤ (base .nop).slotLimit ∧ (base .nop).slotLimit < (63 : BitVec 6).toNat + 2
      ∧ (∀ k ∈ (List.range 2).map ((4 : BitVec 6).toNat + ·), ((base .nop).blk.slot k).state = 0 ∧ ((base .nop).blk.slot k).releasing = false)
      ∧ (∀ k ∈ (List.range 2).map ((0 : BitVec 6).toNat + ·), ((withSlots (base .nop)).blk.slot k).state ≠ 0)
      ∧ (2 ∈ (List.range 2).map ((2 : BitVec 6).toNat + ·) ∧ ((withSlots (base .nop)).blk.slot 2).state ≠ 0)
      ∧ (((withSlots (base .nop)).blk.slot 3).state = 0
        ∧ ∀ j ∈ (List.range 2).map ((2 : BitVec 6).toNat + ·), j < 3 → ((withSlots (base .nop)).blk.slot j).state ≠ 0)
      ∧ (let s : State := { base .nop with blk := { (base .nop).blk with slots := [{ slotOf 0 0 0 with releasing := true }, slotOf 0 0 0] } }
        (∀ k ∈ (List.range 2).map ((0 : BitVec 6).toNat + ·), (s.blk.slot k).state = 0)
          ∧ ∃ k ∈ (List.range 2).map ((0 : BitVec 6).toNat + ·), (s.blk.slot k).releasing = true)
      ∧ (((withPair (base .nop)).blk.slot 0).state ≠ 0 ∧ pairOf (withPair (base .nop)).blk 0 = [0, 1]) := by
  and_intros <;> first | exact noReadError rfl | decide +kernel

/-- The hypotheses of the OLDW clause of `OperandLoads` that follow the issue. -/
def oldwLoads (o : Nat) (x : BitVec 8) (behind : Bool) (s : State) : Bool :=
  let set := { s.blk.slot o with state := 2, kind := 3, ks := x.toNat % 4, isSealed := false, loadop := x, va := s.st.sget64 8, tensor := 0 }
  let v := addMOp (.oldw o x (s.st.sget64 8)) 0 { s with blk := s.blk.setSlot o set }
  passes (checkRuns (s.st.sget64 8 &&& ~~~63#64) (weightRuns x) 0 v v.wld) fun parts u w =>
    decide (u.blk = v.blk) && (oldwParts w parts).isSome && seenOut { u with wld := w } ((allPas parts).contains ·) == behind

theorem witness_OperandLoads :
    (NoReadError (.olda 2 (.s 11) 1) (withSlots (base .nop)) ∧ (∀ n ∈ (MWhat.olda 2 1 0x100).loads, slotBad (withSlots (base .nop)) n = false)
        ∧ 0x100 + actExtent 1 ≤ (withSlots (base .nop)).scratchLimit
        ∧ (withSlots (base .nop)).scratchLimit < ((base .nop).arg (.s 12)).toNat / 16 * 16 + actExtent 1)
      ∧ (slotBad (withSlots (base .nop)) 2 = false ∧ slotBad (withSlots (base .nop)) 3 = true ∧ (MWhat.olda 2 2 0x100).loads = [2] ++ 3 :: [])
      ∧ NoReadError (.oldw 2 8 1) (withSlots (base .nop)) ∧ parkedLoad (withSlots (base .nop)) = none
      ∧ slotBad (withSlots (base .nop)) (2 : BitVec 6).toNat = false ∧ (∀ m ∈ (withSlots (base .nop)).blk.mops, m.seq < (withSlots (base .nop)).blk.mseq)
      ∧ oldwLoads 2 1 false (withSlots (base .nop)) = true ∧ oldwLoads 2 1 true (withSlots (withOps [taken] (base .nop))) = true := by
  and_intros <;> first | exact noReadError rfl | decide +kernel

/-- Strand 1 holds the token. -/
def tokenAway (s : State) : State := { s with blk := { s.blk with token := some 1 } }
/-- An MMA of slots 0 and 1 into tile 0 stands in the queue. -/
def mmaOp (started dead : Bool) : MOp := ⟨0, 0, 0x10000, .mma true false false 0 0 1 1 0, started, 0, dead, false, [], none, [], []⟩
/-- The block with matrix operations. -/
def withMOps (l : List MOp) (s : State) : State := { s with blk := { s.blk with mops := l, mseq := 1 } }

theorem witness_MatrixIssues :
    holdsToken (tokenAway (base .nop)) = false
      ∧ (holdsToken (withSlots (base .nop)) = true ∧ (0 : BitVec 4).toNat < (withSlots (base .nop)).tileLimit
        ∧ slotBad (withSlots (base .nop)) 0 = false ∧ slotBad (withSlots (base .nop)) 1 = false ∧ ((withSlots (base .nop)).blk.slot 0).kind = 1
        ∧ ((withSlots (base .nop)).blk.slot 1).kind = 3 ∧ ((withSlots (base .nop)).blk.slot 0).ks = ((withSlots (base .nop)).blk.slot 1).ks)
      ∧ (base .nop).tileLimit ≤ (15 : BitVec 4).toNat ∧ (0 : BitVec 4).toNat < (base .nop).tileLimit
      ∧ NoReadError (.adrn 0 (.s 11)) (base .nop) ∧ ((base .nop).arg (.s 11)).toNat / 16 * 16 + 16384 ≤ (base .nop).scratchLimit :=
  by and_intros <;> first | exact noReadError rfl | decide +kernel

theorem witness_MatrixToken :
    (NoReadError (.mtok (.s 1)) (base .nop) ∧ holdsToken (base .nop) = true ∧ ((base .nop).arg (.s 1)).toNat < (base .nop).blk.nstrands
        ∧ ((base .nop).arg (.s 1)).toNat ≠ (base .nop).st.idx ∧ ∃ u ∈ (base .nop).blk.strands, u.idx = 1 ∧ u.gone = false)
      ∧ ((base .nop).blk.nstrands ≤ ((base .nop).arg (.s 7)).toNat ∧ holdsToken (tokenAway (base .nop)) = false)
      ∧ ((base .nop).arg (.s 0)).toNat = (base .nop).st.idx
      ∧ ((base .nop).grd.twin = true ∧ (base .nop).blk.mops = [])
      ∧ (∃ m ∈ (withMOps [mmaOp false false] { base .nop with blk := { (base .nop).blk with handover := [1] } }).blk.mops,
          m.seq < nth 0 [1] 0 ∧ m.what = .mma true false false 0 0 1 1 0)
      ∧ (base .nop).st.attempt = none
      ∧ ∃ m ∈ (withMOps [mmaOp false false] (base .nop)).blk.mops, m.seq < (withMOps [mmaOp false false] (base .nop)).blk.mseq ∧ ∀ n, m.what ≠ .orel n := by
  refine ⟨⟨noReadError rfl, by decide +kernel, by decide +kernel, by decide +kernel, by decide +kernel⟩, by decide +kernel, by decide +kernel,
    by decide +kernel, ⟨mmaOp false false, by decide +kernel, by decide +kernel, rfl⟩, rfl, mmaOp false false, by decide +kernel, by decide +kernel, ?_⟩
  intro n h; exact nomatch h

/-- Which strands of the block in focus, beside the strand in focus, have not exited. -/
def staying (s : State) : List Nat := (s.blk.strands.filter fun u => !u.gone).map (·.idx)

theorem witness_MatrixToken_exit :
    ((base .exit).st.poisonTags = 0 ∧ (base .exit).st.ops = []) ∧ ({ base .exit with blk := { (base .exit).blk with token := none } } : State).blk.token = none
      ∧ ((tokenAway (base .exit)).blk.token = some 1 ∧ 1 ∈ staying (tokenAway (base .exit)))
      ∧ ((base .exit).blk.token = some 0 ∧ staying (base .exit) = [1])
      ∧ staying { base .exit with blk := { (base .exit).blk with strands := [] } } = [] := by
  decide +kernel

/-- R162, R166, R170: a claim, an MMA in the queue, the token handed on. -/
theorem test_matrix_issue :
    (gives (.oclaim 4 (.s 2)) (base (.oclaim 4 (.s 2))) (fun t => (t.blk.slot 4).state = 1 && (t.blk.slot 5).state = 1 && (t.blk.slot 6).state = 0)
      && gives (.mma ⟨true, false, false, 0, 0, 1⟩) (withSlots (base .nop)) (fun t => t.blk.mops.map (·.what) = [.mma true false false 0 0 1 1 0])
      && gives (.mtok (.s 1)) (base .nop) (fun t => t.blk.token = some 1)) = true := by
  decide +kernel

/-! ### Witnesses: clauses, waits and accesses -/

/-- The strand in focus. -/
def st0 : StrandRef := ⟨1, 0, 0⟩
/-- The block in focus. -/
def blk0 : BlockRef := ⟨1, 0⟩

theorem inFocus {s : State} (h : s.st.here = true) (h2 : s.st.ref = st0) : InFocus st0 s := ⟨h, h2⟩

/-- Strand 0 between clauses, with code at its pc. -/
def between (code : List Word) : State :=
  withBytes 0x40000 (code.flatMap fun w => leBytes 4 w.toNat) { base .nop with st := { (base .nop).st with clause := none } }

/-- The hypotheses of `ClauseIssue` down to the header. -/
def fetches (code : List Word) (p : State → Word → List Word → Bool) : Bool :=
  let s := between code
  let read := fun (n : Nat) (k : List Byte → State → Bool) =>
    passes (checkAccess s s.wld .strand (dieOf s.blk.core) .fetch false s.st.pc n) fun parts v w =>
      let u : State := { v with wld := w }
      (parts.all fun x => decide (badLines u x.2.2.key x.2.2.pas = [])) && !(allPas parts).any u.badNow && k (codeBytes u false (allPas parts)) u
  s.st.clause.isNone && mayOpen s && decide (s.st.pc.toNat % 4 = 0) && read 4 fun l u =>
    let h : Word := BitVec.ofNat 32 (leNat l)
    if headerBad h then p u h [] else read (4 * (field h 28 4 + 1)) fun l2 v => p v h (wordList l2).tail

/-- Both strands stand between clauses at the code; strand 0 has yielded. -/
def yielded (code : List Word) : State :=
  let s := between code
  { s with
    st := { s.st with yld := true }
    blk := { s.blk with strands := s.blk.strands.map fun t => { t with status := .ready, clause := none } } }

theorem witness_ClauseIssue :
    (InFocus st0 (yielded [0x18FFFFC5, 0]) ∧ (yielded [0x18FFFFC5, 0]).st.clause = none ∧ atBoundary (yielded [0x18FFFFC5, 0]) = true
        ∧ (yielded [0x18FFFFC5, 0]).st.yld = true ∧ stillBehind (yielded [0x18FFFFC5, 0]) = false ∧ readyRivals (yielded [0x18FFFFC5, 0]) ≠ [])
      ∧ InFocus st0 (between [0])
      ∧ fetches [0] (fun _ h _ => headerBad h) = true
      ∧ fetches [0x18FFFFC5, 0x00000000] (fun v h ws => !headerBad h && limitsMet v h
        && match decodeClause 16 (decodeCtx v (field h 25 3) []) ws 0 with
          | .ok is => is == [.nop] && !((is.filterMap form).any (scoreboardHolds v) || !roomFor v (is.filterMap form))
          | .error _ => false) = true
      ∧ fetches [0x18FFFFC5, 0x1B000000] (fun v h ws => !headerBad h && limitsMet v h
        && match decodeClause 16 (decodeCtx v (field h 25 3) []) ws 0 with
          | .ok _ => false
          | .error x => x == (.illegalInstruction, 0)) = true
      ∧ limitsMet (withOps [{ ldaOut with what := .ld }] (between [])) 0x180000C5 = false :=
  by simp only [InFocus]; and_intros <;> decide +kernel

/-- R50, R53: the clause opens at the word after its header. -/
theorem test_clause_issue :
    gives (.clauseIssue st0 false) (between [0x18FFFFC5, 0x0A000000])
      (fun t => t.st.pc = 0x10004 && t.st.clause = some ⟨0x10000, 4, [0x0A000000], []⟩) = true := by
  decide +kernel

/-- A page fault at an address. -/
def pageFault (a : DWord) : FaultInfo := ⟨0x10, 0, a, 0, 0, 0⟩
/-- The strand stands as given. -/
def standing (x : Status) (s : State) : State := { s with st := { s.st with status := x } }

theorem witness_Wakes :
    (InFocus st0 (standing (.parked (pageFault 0x1F0000) 1) (base .nop))
        ∧ (standing (.parked (pageFault 0x1F0000) 1) (base .nop)).st.status = .parked (pageFault 0x1F0000) 1
        ∧ (pageFault 0x1F0000).code ≠ codeStage2 ∧ parkedLoad (standing (.parked (pageFault 0x1F0000) 1) (base .nop)) = none)
      ∧ ((base .nop).world 5).any (fun w => (takePoolMemory (base .nop) w (poolPage false) (poolPage false)).any fun x =>
          (x.2.world 5).isSome) = true
      ∧ (InFocus st0 (standing (.waiting (.waitv none 0)) (base .nop)) ∧ (0 : DWord).toNat ≤ (base .nop).clock.toNat
        ∧ (base .nop).clock.toNat < (1 : DWord).toNat)
      ∧ InFocus st0 (standing (.waiting (.sleep 1)) (base .nop)) ∧ InFocus st0 (standing (.waiting (.waitp 21 0)) (base .nop))
      ∧ (standing (.waiting .queue) (base .nop)).st.status = .waiting .queue := by
  simp only [InFocus]; and_intros <;> decide +kernel

/-- An operation on the word at 0x20000 for lane 0: its kind, whether its page is read-duplicated. -/
def wordOp (what : OpWhat) (rdup : Bool) : Op :=
  { ldaOut with
    what := what, dst := 6, tag := 0, collapsed := false
    lanes := [⟨0, 0, 0x20000, [0x50000, 0x50001, 0x50002, 0x50003], 1, 0, rdup, 5, [1, 2, 3, 4], 0, false, false, [], 0⟩] }
/-- The same in the scratchpad at 0x100. -/
def chipOp (what : OpWhat) : Op :=
  { ldaOut with
    what := what, dst := 6, tag := 0, collapsed := false
    lanes := [⟨0, 0, 0x100, [0x100, 0x101, 0x102, 0x103], 1, 0, false, 0, [1, 2, 3, 4], 0, false, false, [], 0⟩] }
/-- An atomic add to the word, of a USE, returning no value or one. -/
def atomOp (use : Nat) (nr : Bool) : Op := { wordOp .atom false with aop := 0, use := use, nr := nr }
/-- A TSIG of the control block at 0x20000. -/
def tsigOp : Op :=
  { wordOp .tsig false with lanes := [⟨0, 0, 0x20000, [0x50040, 0x50041, 0x50042, 0x50043, 0x50045], 1, 0, false, 5, [], 1, false, false, [], 0⟩] }
/-- The machine with one operation outstanding. -/
def performing (o : Op) : State := withOps [o] (base .nop)

theorem readyOp {o : Op} {u : Units} (h : o.serial = 1) (h2 : mayPerform (performing o) o (o.picked u) = true) :
    ReadyOp st0 1 o u (performing o) :=
  ⟨⟨rfl, rfl⟩, by simp [opAt, performing, withOps, h], h2⟩

/-- The units of an operation meet no bad MAC and no poison, whatever serves them; their bytes are as many as
their places, all in memory and distinct. -/
def clean (o : Op) : Bool :=
  let s := performing o
  (o.picked .all).all fun a => decide (badLines s a.key a.pas = []) && !poisoned s a.pas && !a.pas.any (servedBad s o .home a)
    && decide (∀ p ∈ a.pas, p < Config.paSpace) && decide a.pas.Nodup

/-- Where no core's L1 holds a line, an atomic reads poison only at home. -/
theorem atomBad_bare {o : Op} {a : LaneAcc} {s : State} (h : s.l1 = []) (h2 : poisoned s a.pas = false) : atomBad o s a = false := by
  have h3 : staleLine o a s = none := by unfold staleLine; split <;> simp [h]
  simp [atomBad, h2, h3]

theorem witness_DeviceAccessesPerform :
    (ReadyOp st0 1 (wordOp .ld false) .all (performing (wordOp .ld false)) ∧ clean (wordOp .ld false) = true
        ∧ (∀ a ∈ (wordOp .ld false).lanes, a.done = true → a.bad = false)
        ∧ ∀ a ∈ lanePartsOf (wordOp .ld false).lanes 0, a.done = true ∨ a ∈ (wordOp .ld false).picked .all)
      ∧ (∀ w ∈ ([.st, .promote] : List OpWhat), ReadyOp st0 1 (wordOp w false) .all (performing (wordOp w false)) ∧ clean (wordOp w false) = true
        ∧ rdupHeld (wordOp w false) = false ∧ 0 < (wordOp w false).size ∧ Memory.wf (base .nop).mem = true
        ∧ ∀ a ∈ (wordOp w false).picked .all, a.data.length = a.pas.length)
      ∧ (ReadyOp st0 1 (wordOp .st true) .all (performing (wordOp .st true)) ∧ rdupHeld (wordOp .st true) = true
        ∧ mayPerform (performing (wordOp .st true)) (wordOp .st true) (((wordOp .st true).picked .all).filter (·.rdup)) = true
        ∧ clean (wordOp .st true) = true)
      ∧ (∀ x ∈ [(0, false), (4, false), (0, true), (3, true)], ReadyOp st0 1 (atomOp x.1 x.2) .all (performing (atomOp x.1 x.2))
        ∧ rdupHeld (atomOp x.1 x.2) = false ∧ (atomOp x.1 x.2).picked .all = (atomOp x.1 x.2).lanes ∧ clean (atomOp x.1 x.2) = true
        ∧ ∀ a ∈ (atomOp x.1 x.2).lanes, a.pas.length = (atomOp x.1 x.2).size ∧ a.mtype ≠ 2 ∧ a.ord ≠ 0)
      ∧ (∀ a ∈ (atomOp 4 false).lanes, atomBad (atomOp 4 false) (performing (atomOp 4 false)) a = false)
      ∧ (∀ w ∈ ([.tagld, .tagst] : List OpWhat), ReadyOp st0 1 (wordOp w false) .all (performing (wordOp w false))
        ∧ ((wordOp w false).picked .all).map (fun a => a.pas.head?) = [some 0x50000])
      ∧ (InFocus st0 (performing tsigOp) ∧ opAt (performing tsigOp).st 1 = some tsigOp ∧ mayPerform (performing tsigOp) tsigOp tsigOp.undone = true
        ∧ rdupHeld tsigOp = false ∧ tsigOp.lanes.map (fun a => a.pas.head?) = [some 0x50040] ∧ 0x50040 + 6 < Config.paSpace) := by
  and_intros
  all_goals first | exact readyOp rfl (by decide +kernel) | exact (⟨rfl, rfl⟩ : InFocus _ _) | decide +kernel | skip
  · simp only [List.forall_mem_cons]
    refine ⟨⟨readyOp rfl ?_, ?_, ?_, ?_, ?_, ?_⟩, ⟨readyOp rfl ?_, ?_, ?_, ?_, ?_, ?_⟩, fun _ h => nomatch h⟩ <;> decide +kernel
  · simp only [List.forall_mem_cons]
    refine ⟨⟨readyOp rfl ?_, ?_⟩, ⟨readyOp rfl ?_, ?_⟩, ⟨readyOp rfl ?_, ?_⟩, ⟨readyOp rfl ?_, ?_⟩, fun _ h => nomatch h⟩ <;> decide +kernel
  · intro a h
    rw [List.mem_singleton.mp h]
    exact atomBad_bare rfl (by decide +kernel)
  · simp only [List.forall_mem_cons]
    refine ⟨⟨readyOp rfl ?_, ?_⟩, ⟨readyOp rfl ?_, ?_⟩, fun _ h => nomatch h⟩ <;> decide +kernel

/-- A deferred add of 5 to the word at 0x50000. -/
def qnt1 : QntAtom := ⟨1, st0, 0x10000, 0x20000, [0x50000, 0x50001, 0x50002, 0x50003], 0, 3, 3, 4, 5, 0, 5, 0, 0⟩
/-- An LDA of that word to the scratchpad at 0x100 whose lanes have passed. -/
def copyOp : Op :=
  { wordOp .lda false with
    collapsed := true
    lanes := [⟨0, 0, 0x20000, [0x50000, 0x50001, 0x50002, 0x50003], 1, 0, false, 5, [], 0x100, false, false, [], 0⟩] }

/-- The conditions on an on-chip operation whose units may be performed. -/
def chipReady (o : Op) : Bool :=
  let s := performing o
  decide (opAt s.st 1 = some o) && !releaseHeld s o && o.what.onChip && decide (o.picked .all = o.lanes) && decide (o.undone = o.lanes) && !o.uni
    && decide ((o.lanes.map (·.lane)).Pairwise (· < ·) ∧ ∀ a ∈ o.lanes, ∀ b ∈ o.lanes, a.pas = b.pas ∨ ∀ p ∈ a.pas, p ∉ b.pas)
    && o.lanes.all fun a => !touchesArmed s.blk a.va.toNat a.pas.length && (a.pas.all fun p => p ∉ chipPoison o.what.onSbm s)
      && decide (a.data.length = a.pas.length) && decide a.pas.Nodup && decide (a.pas.length = o.size)

/-- An atomic of two lanes on one word of the scratchpad. -/
def pairOp : Op :=
  { chipOp .atoms with
    lanes := (chipOp .atoms).lanes ++ [⟨1, 0, 0x100, [0x100, 0x101, 0x102, 0x103], 1, 0, false, 0, [5, 0, 0, 0], 0, false, false, [], 0⟩] }

theorem witness_ChipAccessesPerform :
    InFocus st0 (performing (chipOp .lds)) ∧ (∀ w ∈ ([.lds, .gld, .sts, .gst, .atoms, .gop] : List OpWhat), chipReady (chipOp w) = true)
      ∧ (∀ sbm, Memory.wf (onChip sbm (base .nop)) = true)
      ∧ chipReady pairOp = true
      ∧ ((chipOp .sts).undone.filter fun a => touchesArmed (armed (base .nop)).blk a.va.toNat a.pas.length) = (chipOp .sts).lanes
      ∧ (opAt (performing copyOp).st 1 = some copyOp ∧ copyOp.collapsed = true ∧ copyOp.wrote = [] ∧ copyOp.laneList = [0]
        ∧ (∀ a ∈ copyOp.lanes, a.done = false ∧ a.lane < 64 ∧ (a.ord = 0 → soAhead (performing copyOp) false copyOp.serial a = false))
        ∧ clean copyOp = true)
      ∧ (let s : State := { base .nop with qnt := [qnt1] }
        s.qnt.find? (fun x => x.num = 1) = some qnt1 ∧ (s.qnt.filter fun x => x.pas = qnt1.pas) = [qnt1] ∧ badLines s qnt1.key qnt1.pas = []
          ∧ poisoned s qnt1.pas = false ∧ (∀ p ∈ qnt1.pas, p < Config.paSpace) ∧ qnt1.pas.Nodup ∧ qnt1.pas.length = qnt1.size) := by
  refine ⟨⟨rfl, rfl⟩, ?_⟩
  and_intros <;> decide +kernel

/-- R237, R254: a load's word, a scratchpad load's; R260, R261: an LDA's bytes; R241: a deferred add. -/
theorem test_accesses_perform :
    (gives (.loadComplete st0 ⟨1, .all⟩ .home) (withBytes 0x50000 [0x78, 0x56, 0x34, 0x12] (performing (wordOp .ld false)))
        (fun t => t.st.vget 6 0 = 0x12345678 && t.st.ops.isEmpty)
      && gives (.scratchpadAccessPerformed st0 ⟨1, .all⟩) (withScratch 0x100 [1, 2, 3, 4] (performing (chipOp .lds))) (fun t => t.st.vget 6 0 = 0x04030201)
      && gives (.storeComplete st0 ⟨1, .all⟩) (withBytes 0x50000 [1, 0, 0, 0] (performing (atomOp 0 true))) (fun t =>
        Memory.readBytes t.mem 0x50000 4 = [2, 2, 3, 4])
      && gives (.qntMerge 1) (withBytes 0x50000 [1] { base .nop with qnt := [qnt1] }) (fun t => Memory.read t.mem 0x50000 = 6 && t.qnt.isEmpty)) = true := by
  decide +kernel

/-- R294: a load of which one byte has been read is outstanding with the others. -/
theorem test_units_perform :
    gives (.loadComplete st0 ⟨1, .read [(0, 0x50001)]⟩ .home)
      (performing { wordOp .ld false with lanes := [⟨0, 0, 0x20000, [0x50000], 1, 0, false, 5, [], 0, false, false, [], 0⟩,
        ⟨0, 1, 0x20001, [0x50001], 1, 0, false, 5, [], 0, false, false, [], 0⟩] })
      (fun t => t.st.ops.map (fun o => o.lanes.map (·.done)) = [[false, true]]) = true := by
  decide +kernel

/-! ### Witnesses: queues, nodes and blocks -/

/-- Queue 3's ring holds one record: its bits, with VALID. -/
def posted (bits : Nat) (s : State) : State := withBytes 0x53000 (leBytes 64 (bits - bits % 256 + 0x80)) (withRings 1 s)

/-- A record stands at the head of queue 3, as p says. -/
def stands (s : State) (p : Head → Bool) : Bool := (headRecord s 3).any fun x => !workHeaderBad x.h && p x

/-- A COPY record of 64 bytes from 0x20000 to 0x20100. -/
def copyBits : Nat := 2 ^ 64 * 0x40 + 2 ^ 128 * 0x20000 + 2 ^ 192 * 0x20100
/-- A WAITVAL record: the word at 0x20000 is not 5. -/
def waitBits : Nat := 2 ^ 8 * 0x83 + 2 ^ 64 * 0x20000 + 2 ^ 128 * 5 + 2 ^ 160
/-- A SIGNAL record of the byte barrier at 0x100. -/
def signalBits : Nat := 2 ^ 8 * 0x82
/-- Queue 3 with nothing before its head. -/
def idle3 (s : State) : State := { s with queues := [{ queue3 with busyGrids := [] }] }
/-- Grid 1 launched the record in slot 0. -/
def launched (s : State) : State := { s with origins := [⟨3, 0, none, 1⟩] }
/-- The watch of the WAITVAL record. -/
def watch1 (cond : Nat) : Watch := ⟨3, 2, 5, 0x20000, 5, cond, none, false⟩
/-- A machine with watches. -/
def watching (l : List Watch) (s : State) : State := { s with watches := l }

/-- The word that a watch reads, or none where its read faults. -/
def watchReads (s : State) (x : Watch) : Option Word :=
  match watchWord s x with
  | .word w _ => some w
  | .bad _ _ => none

/-- A watch's read faults with a code. -/
def watchFaults (s : State) (x : Watch) (code : Nat) : Bool :=
  match watchWord s x with
  | .word _ _ => false
  | .bad f _ => decide (f.code = code ∧ f.code ≠ codeAbsent)

theorem witness_QueueRecords :
    ((stands (posted gridBits (base .nop)) fun x => decide (36 ≤ x.h.places.length ∧ x.h.places.Nodup ∧ ∀ p ∈ x.h.places, p < Config.paSpace)) = true
        ∧ Memory.wf (posted gridBits (base .nop)).mem = true)
      ∧ (stands (posted gridBits (base .nop)) fun x => field x.bits 8 8 == 0x80 && !gridMalformed (base .nop).accepted x.bits && field x.bits 16 10 == 3
        && rootKey (base .nop) x.bits == some 5 && decide (originOf (base .nop) 3 x.h.read = none)) = true
      ∧ (stands (posted (gridBits + 2 ^ 511) (base .nop)) fun x => field x.bits 8 8 == 0x80 && gridMalformed (base .nop).accepted x.bits) = true
      ∧ (stands (posted (gridBits + 2 ^ 16) (base .nop)) fun x => field x.bits 8 8 == 0x80 && !gridMalformed (base .nop).accepted x.bits && field x.bits 16 10 == 4) = true
      ∧ (stands (posted gridBits (launched (base .nop))) fun x => (originOf (launched (base .nop)) 3 x.h.read).any fun o =>
          ((base .nop).grid o.parent).any fun p => p.ended.isNone) = true
      ∧ (stands (posted copyBits (base .nop)) fun x => decide (field x.bits 8 8 ≤ 7) && x.q.bind.handle != 0 && !x.first) = true
      ∧ (stands (posted copyBits (idle3 (base .nop))) fun x => decide (field x.bits 8 8 ≤ 7) && x.q.bind.handle != 0 && x.first) = true
      ∧ (stands (posted waitBits (idle3 (base .nop))) fun x => field x.bits 8 8 == 0x83 && x.q.bind.handle != 0 && field x.bits 16 48 == 0
          && field x.bits 168 344 == 0 && decide (field x.bits 160 8 ≤ 3) && field x.bits 64 2 == 0 && x.first) = true
      ∧ (base .nop).accepted.getLsbD 13 = true
      ∧ ((watching [watch1 1] (base .nop)).watches.find? (fun y => y.queue = 3) = some (watch1 1) ∧ watchReads (base .nop) (watch1 1) = some 0)
      ∧ (stands (posted signalBits (idle3 (base .nop))) fun x => field x.bits 8 8 == 0x82 && x.q.bind.handle != 0 && x.first) = true
      ∧ (stands (posted copyBits { base .nop with anonRoot := 0x100000, queues := [{ queue3 with bind := { queue3.bind with handle := 0 } }] })
          fun x => x.q.bind.handle == 0) = true
      ∧ watchFaults (base .nop) { watch1 1 with addr := 0x1F0000 } 0x10 = true
      ∧ (watch1 1).cond = 1 ∧ (0 : Word) ≠ (watch1 1).value ∧ (watch1 0).cond = 0 := by
  and_intros <;> decide +kernel

/-- A NODE record whose task control block stands at 0x26000. -/
def nodeBits : Nat := 2 ^ 8 * 0x81 + 2 ^ 64 * 0x26000
/-- The task control block: a record, then PRED. -/
def tcbBytes (bits pred : Nat) : List Byte := leBytes 64 bits ++ leBytes 4 pred
/-- A node of that block. -/
def node1 : NodeRef := ⟨5, 0x26000, 0x56000⟩
/-- A machine with that block, and queue 3's record of it. -/
def noded (bits pred : Nat) : State := withBytes 0x56000 (tcbBytes bits pred) (posted nodeBits (base .nop))
/-- The node's control block is read with no bad MAC once the pool has been refilled. -/
def nodeClean (s : State) : Bool :=
  let v := refillPool { s with readyPool := [] }
  (moonPlaces v node1.key .write node1.addr 128).any fun x => decide (badLines v x.2 x.1 = [])
/-- A machine whose ready pool holds the node. -/
def pooled (bits : Nat) : State := { noded bits 0 with readyPool := [node1], registered := [(0x56000, 3)] }

/-- The hypotheses of the clauses on registration. -/
def registers (bits pred : Nat) : Bool :=
  stands (noded bits pred) fun x => field x.bits 8 8 == 0x81 && !nodeMalformed x.bits
    && (tcbAt (noded bits pred) x.key (BitVec.ofNat 64 (field x.bits 64 64))).any fun y =>
      y.1 == 0x56000 && !tcbMalformed y.2 && (decide (field y.2 8 8 = 0x80) || x.q.bind.handle != 0)
        && (nodeRefusal (noded bits pred) (tcbRecord y.2)).isNone && field y.2 512 32 == pred

theorem witness_TaskNodes :
    registers gridBits 0 = true ∧ registers gridBits 2 = true ∧ (noded gridBits 0).accepted.getLsbD 13 = true
      ∧ (noded gridBits 0).hostGone (0x56000 + 69) = false ∧ Memory.wf (noded gridBits 0).mem = true
      ∧ (stands (posted (nodeBits + 2 ^ 64) (base .nop)) fun x => field x.bits 8 8 == 0x81 && nodeMalformed x.bits) = true
      ∧ (let s := pooled gridBits
        let t : Tcb := BitVec.ofNat 1024 (leNat (s.readBytes node1.pa 128))
        s.readyPool = [node1] ∧ tcbMalformed t = false ∧ nodeRefusal s (tcbRecord t) = none ∧ field t 8 8 = 0x80 ∧ nodeParent s node1 = none
          ∧ nodeClean s = true)
      ∧ (let s := pooled copyBits
        let t : Tcb := BitVec.ofNat 1024 (leNat (s.readBytes node1.pa 128))
        tcbMalformed t = false ∧ nodeRefusal s (tcbRecord t) = none ∧ field t 8 8 ≠ 0x80 ∧ node1.key ≠ 0 ∧ s.registered.lookup node1.pa = some 3
          ∧ (s.queue 3).isSome = true) := by
  and_intros <;> decide +kernel

/-- R319, R321: a grid comes to be and READ rises; a node with no predecessor is ready (STATE 2). -/
theorem test_records :
    (gives (.gridRecord 3) (posted gridBits (base .nop)) (fun t => t.grids.map (·.key) = [5] && Memory.read t.mem 0x52008 = 1)
      && gives (.nodeRecord 3) (noded gridBits 0) (fun t => Memory.read t.mem 0x56045 = 2 && t.readyPool = [node1])) = true := by
  decide +kernel


/-! ### Witnesses: blocks -/

/-- The hypotheses of `DispatchAndGrant` on a grid's next block. -/
def dispatches (s : State) (id i : Nat) (turn : Bool) : Bool :=
  (s.grid id).any fun g => decide (g.id = id) && (s.queue g.queue).any fun q =>
    decide (nextUnit g = some (i, false)) && dispatchable s q g && (bestCore s (coresFor s q g false)).isSome && itsTurn s q == turn

/-- Queue 3 has used up its deficit in this slice unit. -/
def spent (s : State) : State := { s with queues := [{ queue3 with deficit := 0, raised := 1 }] }
/-- A grid of strand 0's, not started; a block of it. -/
def child : Grid := { grid1 with id := 2, parent := some 1, started := false, nextBlock := 0, args := none, order := 2 }
/-- The machine with that grid. -/
def withChild (s : State) : State := { s with grids := [child], grd := { s.grd with nextBlock := 2 } }
/-- The block in focus is in its prologue and has asked for its grant, with other blocks on its core. -/
def asking (l : List Block) (s : State) : State :=
  { s with
    st := { s.st with status := .waiting .acquire }
    blk := { s.blk with granted := false, request := some 5, seq := 9 }
    blocks := l }
/-- Block n of grid 1 on core 0. -/
def other (n : Nat) (granted : Bool) : Block := { Block.blank with live := true, grid := 1, id := n, granted := granted, seq := n }
/-- Four more blocks on the core, the last in its prologue. -/
def crowd : List Block := [other 1 true, other 2 true, other 3 true, other 4 true, other 5 false]

/-- The hypotheses of the clauses on GRANT. -/
def grants (s : State) (oldest fits : Bool) : Bool :=
  let others := residents s (fun b => b.grid = 1 && b.id = 0) s.blk.core
  let full := s.grd.scratchBytes true
  let kept := keptFor s 0 s.blk.core
  decide (s.blk.request = some 5) && oldestRequest s 5 == oldest
    && decide (scratchHeld s others + full ≤ 262144 ∧ (kept = [] ∨
      scratchHeld s (others.filter fun b => !leaving b) + full + sumBy nextScratch kept ≤ 262144)) == fits
    && (fits || (youngest (others.filter fun b => inPrologue s b)).isSome)

theorem witness_DispatchAndGrant :
    dispatches (spent (base .nop)) 1 1 false = true ∧ dispatches (base .nop) 1 1 true = true
      ∧ (grid1.started = true ∧ grid1.gcap = 0 ∧ grid1.args = some (List.replicate 8 0))
      ∧ dispatches (withChild (base .nop)) 2 0 true = true
      ∧ (child.started = false ∧ child.parent.isSome = true ∧ child.gcap = 0 ∧ child.args = none ∧ child.rf 320 64 = 0)
      ∧ (BlockIn blk0 (asking [] (base .nop)) ∧ grants (asking [] (base .nop)) true true = true)
      ∧ (BlockIn blk0 (asking crowd (base .nop)) ∧ grants (asking crowd (base .nop)) true false = true)
      ∧ oldestRequest (asking [{ other 1 false with request := some 4 }] (base .nop)) 5 = false
      ∧ ((asking [] (base .nop)).st.here = true ∧ (asking [] (base .nop)).st.status = .waiting .acquire) :=
  by simp only [BlockIn]; and_intros <;> decide +kernel

/-- Every strand of the block in focus has exited. -/
def allGone (s : State) : State :=
  { s with st := { s.st with status := .exited }, blk := { s.blk with strands := s.blk.strands.map fun t => { t with status := .exited } } }
/-- Grid 1 with all its blocks retired. -/
def allRetired : State := { pages with grids := [{ grid1 with nextBlock := 2, retired := 2 }], worlds := [world5], queues := [queue3] }
/-- An arena slot that is being destroyed. -/
def dying : SlotRec := { SlotRec.fresh (.block 0 0) with state := 3, cls := 1, world := 5, cap := 0x10000, owner := .block 1 0 }
/-- World 5 has memory to be scrubbed. -/
def dirty : State := { pages with worlds := [world5], scrub := [⟨5, 0x4000000, 64, 0⟩, ⟨6, 0x5000000, 64, 0⟩], scrubOn := true }
/-- A load of slot 0 of a strand that has exited is parked. -/
def abandoned : State :=
  { allGone (base .nop) with blk := { (allGone (base .nop)).blk with mops := [⟨0, 0, 0x10000, .oldw 0 1 0x20000, false, 0, false, true, [], none, [], []⟩] } }

theorem witness_Retirement :
    (BlockIn blk0 (base .nop) ∧ abandonedLoad (base .nop) = none ∧ blockDone (base .nop) = false)
      ∧ (BlockIn blk0 (allGone (base .nop)) ∧ abandonedLoad (allGone (base .nop)) = none ∧ blockDone (allGone (base .nop)) = true)
      ∧ (((base .nop).grid 1).any fun g => !gridDone (base .nop) g) = true
      ∧ ((allRetired.grid 1).any fun g => gridDone allRetired g && g.node.isNone) = true ∧ (allRetired.queue 3).isSome = true
      ∧ (slotRec (base .nop) (.block 0 0)).state ≠ 3
      ∧ (let s : State := { base .nop with slots := [dying] }
        let r := slotRec s (.block 0 0)
        r.state = 3 ∧ slotBusy s r = false ∧ r.gen ≠ 1023 ∧ r.id = .block 0 0 ∧ s.qnt = [])
      ∧ (let s : State := { base .nop with slots := [{ dying with gen := 1023 }] }
        let r := slotRec s (.block 0 0)
        r.state = 3 ∧ slotBusy s r = false ∧ r.gen = 1023 ∧ (s.allWorlds.filter fun w => w.live && decide (w.epoch ≤ s.epoch)).length = 1)
      ∧ (let s : State := { base .nop with slots := [{ dying with gen := 1023 }], wld := World.blank }
        slotBusy s (slotRec s (.block 0 0)) = false ∧ (s.allWorlds.filter (·.live)) = [])
      ∧ ((freeGridSlot (base .nop)).isSome = true ∧ (freeBlockSlot (base .nop) 0).isSome = true ∧ (freeBank (base .nop) 0 0).isSome = true)
      ∧ (let s : State := { base .nop with slots := [{ dying with state := 2, wrapEpoch := 3 }] }
        ((dropCopies 5 (endSlots 5 (flushWorldQnt 5 s))).world 5).isSome = true)
      ∧ (BlockIn blk0 abandoned ∧ (abandonedLoad abandoned).isSome = true)
      ∧ scrubbing (base .nop) 5 = false ∧ (dirty.scrubOn = true ∧ scrubbing dirty 5 = true) ∧ Memory.wf dirty.mem = true
      ∧ (dirty.world 5).any (fun w => decide (w.key = 5 ∧ w.handle ≠ 0)) = true :=
  by simp only [BlockIn]; and_intros <;> decide +kernel

/-- At a time in reference ns. -/
def atNs (n : Nat) (s : State) : State := { s with refNs := n }
/-- The block in focus is drained until a time. -/
def drained_ (n : Nat) (s : State) : State := { s with blk := { s.blk with draining := some n } }
/-- The block in focus is to be saved and its strands stand between clauses. -/
def toSave (s : State) : State := { s with st := { s.st with clause := none }, blk := { s.blk with saving := true } }

/-- The hypotheses of the clause on SLICE_UNIT where every queue with work can serve it. -/
def unitServes (s : State) : Bool :=
  let u := topUp (clearDeficits (releaseKept { s with slice := s.slice + 1 }))
  u.queues.all fun q => (gridsOf u q).all fun g => !dispatchable u q g || servable u q g

/-- The hypotheses of the clause on BLOCK_SAVE. -/
def saves (s : State) : Bool :=
  s.blk.saving && s.strands.all atSavePoint && quietForSave s && Memory.wf s.mem
    && (takeSave s s.wld (saveTotal (sectionSizes s.grd s.wholeBlock))).any fun x =>
      decide (x.1.base + saveTotal (sectionSizes s.grd s.wholeBlock) ≤ Config.paSpace)

/-- Block 0 as it was saved. -/
def savedBlk : Block := { (base .nop).blk with strands := [{ strand 0 (BitVec.allOnes 64) with status := .ready }, strand 1 0xFFFFFFFFF], grid := 1 }
/-- Grid 1, its block 0 in a save area. -/
def savedGrid : Grid := { grid1 with saved := [⟨savedBlk, 0x6000000, saveTotal (sectionSizes grid1 savedBlk), 0, 0⟩] }
/-- The machine whose one block is saved. -/
def asleep : State :=
  let s : State := { pages with
    grids := [savedGrid], worlds := [{ world5 with saveUsed := [⟨0x6000000, saveTotal (sectionSizes grid1 savedBlk)⟩] }], queues := [queue3] }
  { s with mem := Memory.writeBytes s.mem 0x6000000 (leBytes 256 (saveHeader s savedGrid savedBlk).toNat) }

/-- The hypotheses of the clause on BLOCK_RESTORE. -/
def restores (s : State) : Bool :=
  (s.grid 1).any fun g => decide (g.id = 1) && (s.queue g.queue).any fun q =>
    decide (nextUnit g = some (0, true)) && dispatchable s q g && itsTurn s q
      && (g.saved.find? (fun v => v.block.id = 0)).any fun v => v.block.live && decide (v.block.grid = 1) && decide (sealedSlots v.block = [])
        && saveIntact s g v && (bestCore s (coresFor s q g true)).any fun core => (chooseSlots s g false (fun _ => false) core).isSome

theorem witness_Preemption :
    ((base .nop).refNs < 10000 * ((base .nop).slice + 1))
      ∧ (10000 * ((atNs 10000 (base .nop)).slice + 1) ≤ (atNs 10000 (base .nop)).refNs ∧ unitServes (atNs 10000 (base .nop)) = true)
      ∧ (BlockIn blk0 (base .nop) ∧ (base .nop).blk.draining = none)
      ∧ ((drained_ 7 (atNs 7 (base .nop))).blk.draining = some 7 ∧ 7 ≤ (drained_ 7 (atNs 7 (base .nop))).refNs)
      ∧ (drained_ 8 (atNs 7 (base .nop))).refNs < 8
      ∧ (base .nop).blk.saving = false
      ∧ (BlockIn blk0 (toSave (base .nop)) ∧ saves (toSave (base .nop)) = true)
      ∧ restores asleep = true ∧ BlockGone blk0 asleep :=
  by simp only [BlockIn, BlockGone]; and_intros <;> decide +kernel

/-- R24, R18: a block goes to a core and one retires. -/
theorem test_blocks :
    (gives (.blockDispatch 1) (base .nop) (fun t => t.blocks.map (fun b => (b.id, b.core, b.strands.length)) = [(1, 2, 2)])
      && gives (.blockRetirement blk0) (allGone (base .nop)) (fun t => t.allBlocks.isEmpty && (t.grid 1).any fun g => g.retired == 1)) = true := by
  decide +kernel

/-! ### Witnesses: matrix events -/

/-- One matrix operation in the queue. -/
def oneMop (what : MWhat) (s : State) : State :=
  { withSlots s with blk := { (withSlots s).blk with mops := [⟨0, 0, 0x10000, what, false, 0, false, false, [], none, [], []⟩], mseq := 1 } }
/-- A load of slot 0 stands before an operation of that slot. -/
def behindLoad (m : MOp) (s : State) : State := { s with blk := { s.blk with mops := [⟨0, 0, 0x10000, .oldw 0 1 0x20000, false, 0, false, false, [], none, [], []⟩, m] } }
/-- An OLDW of slot 2 that reads one byte, which is as given. -/
def withWeight (x : Byte) : State :=
  let s := oneMop (.oldw 2 5 0x20000) (withBytes 0x50000 [x] (base .nop))
  let part : LaneAcc := ⟨0, 0, 0x20000, [0x50000], 1, 0, false, 5, [], 0, false, false, [], 0⟩
  { s with blk := { s.blk with mops := s.blk.mops.map fun (m : MOp) => { m with parts := [part] } } }
/-- It is not parked, waits for nothing and meets no bad MAC. -/
def weightReads (s : State) (m : MOp) : Bool :=
  decide (m.what = .oldw 2 5 0x20000) && !m.parked && !loadHeld s.blk m && m.parts.all fun a => decide (badLines s a.key a.pas = [])
/-- Element 5 of tile 0 is poisoned. -/
def badTile (s : State) : State :=
  { s with blk := { s.blk with tiles := [{ s.blk.tile 0 with poison := [5] }] } }
/-- An OREL of slot 0 behind another operation. -/
def orel1 : MOp := ⟨1, 0, 0x10000, .orel 0, false, 0, false, false, [], none, [], []⟩

theorem witness_MatrixEvents :
    (let s := withMOps [mmaOp false false] (withSlots (base .nop));
      BlockIn blk0 s ∧ firstMma s.blk (fun m => !m.started) = some (mmaOp false false) ∧ mmaHeld s.blk (mmaOp false false) 0 = false
        ∧ s.blk.mmaEnd.toNat ≤ s.clock.toNat)
      ∧ mmaHeld (behindLoad { mmaOp false false with seq := 1 } (base .nop)).blk { mmaOp false false with seq := 1 } 0 = true
      ∧ (let s := withMOps [mmaOp true false] (withSlots (base .nop))
        firstMma s.blk (fun m => m.started) = some (mmaOp true false) ∧ (mmaOp true false).ends.toNat ≤ s.clock.toNat
          ∧ (mmaIn s.blk 0 1 1 0).poisoned true (s.blk.tile 0) = 0)
      ∧ (firstMma (withMOps [mmaOp true true] (base .nop)).blk (fun m => m.started) = some (mmaOp true true) ∧ (mmaOp true true).dead = true)
      ∧ (let m := { mmaOp true false with ends := 1 }
        firstMma (withMOps [m] (base .nop)).blk (fun m => m.started) = some m ∧ (base .nop).clock.toNat < m.ends.toNat)
      ∧ (let s := oneMop (.olda 2 1 0x100) (base .nop)
        (s.blk.mop 0).any (fun m => decide (m.what = .olda 2 1 0x100 ∧ m.got = []) && !loadHeld s.blk m && decide (0 < actExtent 1)
          && !readsAt (.read []) 0 0x100 && readsAt .all 0 0x100) = true)
      ∧ (let s := withWeight 0
        (s.blk.mop 0).any (fun m => weightReads s m && decide (m.places = [0x50000] ∧ m.got = [] ∧ (oldwTile 5 (oldwBytes s m)).1 = 0)
          && !readsAt (.read []) 0 0x50000) = true)
      ∧ (let s := withWeight 255
        s.grd.tolerant = false ∧ (s.blk.mop 0).any (fun m => weightReads s m && decide ((oldwTile 5 (oldwBytes s m)).1 ≠ 0)) = true)
      ∧ (let s := oneMop (.adrn 0 0x100) (base .nop)
        (s.blk.mop 0).any (fun m => decide (m.what = .adrn 0 0x100 ∧ m.got = [] ∧ m.put = [] ∧ m.ends.toNat ≤ s.clock.toNat)) = true
          ∧ (∀ e ∈ s.blk.mops, ¬ e.seq < 0) ∧ (s.blk.tile 0).poison = [] ∧ Memory.wf s.blk.scratch = true)
      ∧ (let s := badTile (oneMop (.adrn 0 0x100) (base .nop))
        (s.blk.mop 0).any (fun m => decide (m.what = .adrn 0 0x100 ∧ m.got.lookup 5 = none ∧ 5 ∈ (s.blk.tile 0).poison)) = true ∧ s.grd.tolerant = false)
      ∧ (let s := oneMop (.orel 0) (base .nop)
        (s.blk.mop 0).any (fun m => decide (m.what = .orel 0)) = true ∧ ∀ e ∈ s.blk.mops, ¬ (e.seq < 0 ∧ (0 ∈ e.what.reads ∨ 0 ∈ e.what.loads)))
      ∧ (let s := behindLoad orel1 (base .nop)
        s.blk.mop 1 = some orel1 ∧ ∃ e ∈ s.blk.mops, e.seq < 1 ∧ (0 ∈ e.what.reads ∨ 0 ∈ e.what.loads)) := by
  simp only [BlockIn]; and_intros <;> decide +kernel

/-- R162, R163: a load fills its slot; a released slot is unclaimed. -/
theorem test_matrix_events :
    (gives (.oldaComplete blk0 ⟨0, .all⟩) (oneMop (.olda 2 1 0x100) (withScratch 0x100 [7, 8] (base .nop))) (fun t => (t.blk.slot 2).bytes.take 3 = [7, 8, 0])
      && gives (.orelComplete blk0 0) (oneMop (.orel 0) (base .nop)) (fun t => (t.blk.slot 0).state = 0 && t.blk.mops.isEmpty)) = true := by
  decide +kernel

/-! ### Witnesses: packets -/

/-- A packet's image: its kind, then fields at bit places. -/
def packetBits (kind : Nat) (l : List (Nat × Nat)) : Nat := 2 ^ 8 * kind + sumBy (fun e => 2 ^ e.1 * e.2) l
/-- A COPY1D of 64 bytes from 0x20000 to 0x20100. -/
def copyPkt : Nat := packetBits 0 [(128, 0x20000), (192, 0x20100), (256, 64)]
/-- An MCAST of 16 bytes from 0x20000 to block 0 of grid 1: to 0x200, counted at 0x100. -/
def mcastPkt : Nat := packetBits 3 [(128, 0x20000), (192, 0x200), (224, 0x100), (256, 16), (288, 1), (352, 1)]
/-- A REDUCE of 4 bytes. -/
def reducePkt : Nat := packetBits 4 [(128, 0x20000), (192, 0x20100), (256, 4)]
/-- A REDUCE to a sealed page. -/
def sealedReduce : Nat := packetBits 4 [(128, 0x20000), (192, 0x40000), (256, 4)]
/-- A FILL of 12 bytes at 0x20100 with the bytes 1 to 8. -/
def fillPkt : Nat := packetBits 2 [(128, 0x0807060504030201), (192, 0x20100), (256, 12)]
/-- The record handed over for a packet. -/
def handedOf (bits : Nat) : Handed := ⟨1, 5, BitVec.ofNat 512 bits, false, .memory none, 0, 0⟩
/-- The packet that starts from it. -/
def startedOf (bits : Nat) : Packet := newPacket 1 5 none (BitVec.ofNat 512 bits) (.memory none) false 0
/-- The machine with a record handed over. -/
def handing (bits : Nat) (s : State) : State := { s with handed := [handedOf bits] }
/-- The machine with packets under way. -/
def under (l : List Packet) (s : State) : State := { s with packets := l, packetCount := 1 }
/-- All Perigee ports are up and keyed. -/
def keyedPorts (s : State) : State := { s with peri := List.replicate 16 { Perigee.reset with up := true, keyed := true } }

/-- The hypotheses of `PacketsStart` on a record handed over. -/
def starts (kind bits : Nat) (bad : Bool) : Bool :=
  let s := handing bits (base .nop)
  let p := newPacket (s.packetCount + 1) 5 none (BitVec.ofNat 512 bits) (.memory none) false 0
  decide (s.handed.find? (fun x => x.num = 1) = some (handedOf bits)) && decide (field (handedOf bits).image 8 8 = kind)
    && !s.offline.contains (handedOf bits).die && (early s.accepted p).isSome == bad
/-- The live grids that an MCAST names. -/
def mcastNames (bits : Nat) : List Nat :=
  let p := startedOf bits
  ((base .nop).allGrids.filter fun g => g.id % 2 ^ 32 = mcastGrid p % 2 ^ 32 && g.key = p.key && mcastGrid p ≠ 0).map (·.id)

/-- What a check of an engine's range gives is clean. -/
def rangePasses (c : Ranged) (k : List (Nat × DWord × PagePart) → State → Bool) : Bool :=
  match c with
  | .ok x u => k x u
  | .bad _ _ => false

theorem ranged {c : Ranged} {k : List (Nat × DWord × PagePart) → State → Bool} (h : rangePasses c k = true) :
    ∃ x u, c = .ok x u ∧ k x u = true := by
  cases c with
  | ok x u => exact ⟨x, u, rfl, h⟩
  | bad f n => exact nomatch h

/-- A packet in slot 0 of comet queue 0. -/
def ringed (bits : Nat) (s : State) : State := withBytes 0x54000 (leBytes 64 (bits + 0x80)) (withRings 1 s)
/-- The hypotheses of `PacketsStart` on a ring's head. -/
def atHead (kind : Nat) (s : State) (p : BitVec 512 → Header → Bool) : Bool :=
  s.locked && (s.world 5).any fun w => (cometHeader s w 0).any fun y => (slotImage s 5 y.2 y.2.read).any fun z =>
    decide (field z.2 0 8 = (y.2.valid y.2.read).toNat) && decide (field z.2 8 8 = kind)
      && !s.offline.contains y.1.die && ringTurn s y.1 5 && p z.2 y.2

theorem witness_PacketsStart :
    (starts 0 copyPkt false = true ∧ starts 0 (copyPkt + 2 ^ 511) true = true ∧ packetMalformed (base .nop).accepted (startedOf (copyPkt + 2 ^ 511)) = true)
      ∧ (starts 3 mcastPkt false = true ∧ mcastNames mcastPkt = [1] ∧ mcastNames (mcastPkt + 2 ^ 353) = [])
      ∧ (let s := { handing copyPkt (base .nop) with offline := [0] }
        s.handed.find? (fun x => x.num = 1) = some (handedOf copyPkt) ∧ s.offline.contains (handedOf copyPkt).die = true)
      ∧ atHead 0 (ringed copyPkt (base .nop)) (fun x h => !packetAcq x
          && (base .nop).posts.all fun y => !(y.key = 5 && y.queue = 0 && y.index = h.read)) = true
      ∧ atHead 0 (ringed (copyPkt + 2 ^ 16) (under [{ startedOf copyPkt with queue := some 0 }] (base .nop))) (fun x _ => packetAcq x) = true
      ∧ atHead 0 (ringed copyPkt { base .nop with posts := [⟨1, 5, 0, 0, st0, 20⟩] }) (fun x h => !packetAcq x
          && ((base .nop).st.ref == st0) && !(base .nop).st.gone && h.read == 0) = true
      ∧ earlierDone (ringed copyPkt (under [{ startedOf copyPkt with queue := some 0 }] (base .nop))) 5 0 = false := by
  and_intros <;> decide +kernel

/-- A COPY1D of 64 bytes from 0x20000 to the host's memory. -/
def copyOut : Nat := packetBits 0 [(128, 0x20000), (192, 0x50000), (256, 64)]
/-- A copy with ACQ of DEVICE scope. -/
def acquiring : Packet := startedOf (copyPkt + 2 ^ 16 + 2 ^ 18 * 3)
/-- The link of port A is up. -/
def linked (s : State) : State := { s with portA := { s.portA with link := true } }

/-- World 5 with two entries of one tensor and key in its sealed table, an ingest key in slot 0 and a stream of
port A that runs. -/
def trusting (s : State) : State :=
  { s with
    wld := { s.wld with
      sealedTable := [BitVec.ofNat 128 (1 + 2 ^ 22 * 5 + 2 ^ 32 * 0x40000), BitVec.ofNat 128 (1 + 2 ^ 22 * 5 + 2 ^ 32 * 0xA0000)]
      ingest := [⟨true, false, false, 5, 0, 0⟩], stream := some (false, 0) }
    portA := { s.portA with link := true, streams := [.run] } }
/-- A SEALMOVE of 64 bytes from 0x40000. -/
def movePkt (dst : Nat) : Nat := packetBits 5 [(128, 0x40000), (192, dst), (256, 64)]
/-- An INGEST of 16 bytes from the host's memory to 0x20100 with counter 1 and key slot 0. -/
def ingestPkt : Nat := packetBits 6 [(128, 0x50000), (192, 0x20100), (256, 16), (352, 1)]
/-- A SIGNAL at 0x20100: 5 is stored or added. -/
def signalPkt (op : Nat) : Nat := packetBits 7 [(128, 5), (192, 0x20100), (256, op)]

/-- A packet that stands in the machine and has not been decided, as k says. -/
def stands1 (p : Packet) (s : State) (k : Bool) : Bool :=
  decide (s.packets.find? (fun x => x.num = p.num) = some p) && p.stalled.isNone && p.result.isNone && k
/-- What a packet is to write can be reached, under key id 5. -/
def cleanWrites (l : List EWrite) (s : State) : Bool :=
  decide (l.map (·.pa)).Nodup && l.all fun x => x.key = 5 && !s.hostGone x.pa && decide (badLines s 5 [x.pa] = [])

/-- A copy's hypotheses in `PacketsComplete`. -/
def copyPasses (p : Packet) (s : State) : Bool :=
  stands1 p s <| decide (p.kind = 0) && !acquireWaits p s
    && rangePasses (engineCheck p .copyRead (p.a 128) p.len s) fun src u =>
      rangePasses (engineCheck p .copyWrite (p.a 192) p.len s) fun _ _ =>
        rangePasses (engineCheck p .copyWrite (p.a 192) p.len u) fun dst z =>
          (allPas dst).all (fun a => !(sourcePlaces p s).contains a) && !linkGone z src && !linkGone z dst
/-- A fill's. -/
def fillPasses (p : Packet) (s : State) : Bool :=
  stands1 p s <| decide (p.kind = 2) && !acquireWaits p s
    && rangePasses (engineCheck p .copyWrite (p.a 192) p.len s) fun dst u => !linkGone u dst && (allPas dst).length == p.len
/-- The source of an MCAST, a REDUCE or an INGEST passes its checks. -/
def sourcePasses (kind : Nat) (p : Packet) (s : State) : Bool :=
  stands1 p s <| decide (p.kind = kind) && !acquireWaits p s
    && rangePasses (engineCheck p .copyRead (p.a 128) p.len s) fun src u => !linkGone u src
/-- A REDUCE whose SRC can be read and whose DST lies on a sealed page, or on none. -/
def reducePasses (onSealed : Bool) (p : Packet) (s : State) : Bool :=
  sourcePasses 4 p s && (match engineCheck p .copyWrite (p.a 192) p.len s with
    | .ok _ _ => !onSealed
    | .bad g _ => sealedFault g == onSealed && decide (g.code ≠ codeAbsent))
/-- A SEALMOVE's hypotheses, between places at one offset of an entry or not. -/
def movePasses (same : Bool) (p : Packet) (s : State) : Bool :=
  stands1 p s <| decide (p.kind = 5) && !acquireWaits p s
    && rangePasses (engineCheck p .read (p.a 128) p.len s) fun src u => rangePasses (engineCheck p .write (p.a 192) p.len u) fun dst v =>
      (v.world p.key).any fun w => (sealedPlaces w src).isSome && (sealedPlaces w dst).isSome
        && decide (sealedPlaces w src = sealedPlaces w dst) == same && (allPas dst).all (fun a => !(allPas src).contains a)
/-- A SIGNAL's. -/
def signalPasses (adds : Bool) (p : Packet) (s : State) : Bool :=
  stands1 p s <| decide (p.kind = 7) && !acquireWaits p s && decide (p.poster = .memory none) && decide (p.a 64 = 0) && decide (p.data = [])
    && decide (p.pending = []) && decide (2 ≤ p.f 256 8) == adds
    && rangePasses (engineCheck p (if adds then .atomic 0 else .copyWrite) (p.a 192) 4 s) fun parts u =>
      !linkGone u parts && cleanWrites (writesTo parts (plainData (leBytes 4 0))) u && decide ((allPas parts).length = 4) && Memory.wf u.mem
/-- An INGEST's checks pass. -/
def ingestPasses (p : Packet) (s : State) : Bool :=
  stands1 p s <| decide (p.kind = 6) && !acquireWaits p s && (match ingestChecks p s with | .on _ _ _ => true | .ends _ => false)
/-- The hypotheses on an INGEST whose bytes have been read: its tag is right or not, its counter stale or not. -/
def ingestOpens (good stale : Bool) (bytes : List Byte) (p : Packet) (s : State) : Bool :=
  stands1 p s <| p.begun && decide (p.kind = 6) && decide (p.data = plainData bytes) && decide (bytes.length = p.len + 16)
    && p.pending.all (fun x => x.data.place.isNone)
    && rangePasses (engineCheck p .copyRead (p.a 128) (p.len + 16) s) fun src u =>
      decide ((allPas src).length = p.len + 16) && !linkGone u src && (u.world p.key).any fun w =>
        let k := keySlotOf w (p.f 288 8)
        let opened := gcmOpen (beBytes (if k.long then 32 else 16) k.key.toNat) (beBytes 4 (p.f 320 32) ++ beBytes 8 (p.f 352 64)) []
          (bytes.take p.len)
        decide (opened.2 = bytes.drop p.len) == good && decide (k.accepted = true ∧ (p.a 352).toNat ≤ k.last.toNat) == stale
          && cleanWrites p.pending u && decide (opened.1.length = p.pending.length) && Memory.wf u.mem && decide (w.key = p.key)

/-- A packet whose result stands. -/
def doneOf (poster : Poster) : Packet := { startedOf copyPkt with poster := poster, result := some 0 }
/-- A packet whose status goes to the word at 0x20200. -/
def tellsMemory (poster : Poster) : Packet :=
  { startedOf (copyPkt + 2 ^ 64 * 0x20200) with poster := poster, result := some 0 }
/-- Its status can be stored. -/
def tells (p : Packet) (s : State) : Bool :=
  decide (p.result = some 0 ∧ p.early = false ∧ p.a 64 ≠ 0 ∧ p.pending = [] ∧ p.lost = 0)
    && rangePasses (engineCheck p .copyWrite (p.a 64) 4 (setPacket p s)) fun parts u =>
      decide ((allPas parts).length = 4) && cleanWrites (writesTo parts (plainData (leBytes 4 0))) u && Memory.wf u.mem
/-- Strand 0 is owed a status in s20. -/
def owing (s : State) : State := { s with st := { s.st with owed := [⟨20, 1, true, false⟩] } }
/-- An MCAST with one chunk on its way to block 0, sampled with an ARMID. -/
def flying (armid : BitVec 16) : Packet :=
  { startedOf mcastPkt with begun := true, grid := 1, data := plainData (List.replicate 16 7), targets := [⟨0, 0, armid, [0], false⟩] }
/-- Block 0 with a barrier at 0x100: EXPECTED 16, ARRIVED 0, ARMID 1, ARMED. -/
def waiting16 (s : State) : State :=
  withScratch 0x100 [16, 0, 0, 0, 0, 0, 0, 0, 0, 0, 0, 0, 1, 0, 1, 0] { s with blk := { s.blk with armed := [0x10] } }
/-- A REDUCE that has begun; its contribution has left. -/
def reducing : Packet := { startedOf reducePkt with begun := true, data := plainData [1, 2, 3, 4] }
/-- The INGEST with its bytes read and its plaintext's places. -/
def ingesting (bytes : List Byte) : Packet :=
  { startedOf ingestPkt with
    begun := true, data := plainData bytes
    pending := (List.range 16).map fun i => ⟨5, 0x50100 + i, .known 0 false⟩ }
/-- Sixteen zeros under the key of zeros and the counter 1, and their tag. -/
def ingestBytes : List Byte :=
  List.replicate 16 0 ++ [32, 53, 147, 134, 37, 70, 96, 132, 246, 114, 232, 49, 228, 21, 247, 254]

theorem witness_PacketsComplete_decides :
    copyPasses (startedOf copyOut) (under [startedOf copyOut] (linked (base .nop))) = true
      ∧ fillPasses (startedOf fillPkt) (under [startedOf fillPkt] (base .nop)) = true
      ∧ sourcePasses 3 (startedOf mcastPkt) (under [startedOf mcastPkt] (base .nop)) = true
      ∧ reducePasses false (startedOf reducePkt) (under [startedOf reducePkt] (base .nop)) = true
      ∧ reducePasses true (startedOf sealedReduce) (under [startedOf sealedReduce] (base .nop)) = true
      ∧ acquireWaits acquiring { under [acquiring] (base .nop) with qnt := [qnt1] } = true
      ∧ movePasses true (startedOf (movePkt 0xA0000)) (under [startedOf (movePkt 0xA0000)] (trusting (base .nop))) = true
      ∧ movePasses false (startedOf (movePkt 0xA0100)) (under [startedOf (movePkt 0xA0100)] (trusting (base .nop))) = true
      ∧ ingestPasses (startedOf ingestPkt) (under [startedOf ingestPkt] (trusting (base .nop))) = true
      ∧ signalPasses false (startedOf (signalPkt 0)) (under [startedOf (signalPkt 0)] (base .nop)) = true
      ∧ signalPasses true (startedOf (signalPkt 2)) (under [startedOf (signalPkt 2)] (base .nop)) = true := by
  and_intros <;> decide +kernel

theorem witness_PacketsComplete_opens :
    ingestOpens true false ingestBytes (ingesting ingestBytes) (under [ingesting ingestBytes] (trusting (base .nop))) = true
      ∧ ingestOpens false false (List.replicate 32 0) (ingesting (List.replicate 32 0)) (under [ingesting (List.replicate 32 0)] (trusting (base .nop))) = true
      ∧ (let s := trusting (base .nop)
        ingestOpens true true ingestBytes (ingesting ingestBytes)
          (under [ingesting ingestBytes] { s with wld := { s.wld with ingest := [⟨true, false, true, 5, 1, 0⟩] } }) = true) := by
  and_intros <;> decide +kernel

theorem witness_PacketsComplete :
    ({ startedOf copyPkt with stalled := some (pageFault 0, 0) } : Packet).stalled ≠ none
      ∧ ((doneOf (.memory none)).result = some 0 ∧ (doneOf (.memory none)).early = false ∧ (doneOf (.memory none)).a 64 = 0
        ∧ packetRel (doneOf (.memory none)).image = false
        ∧ packetRel { doneOf (.memory none) with image := (doneOf (.memory none)).image ||| 1 <<< 17 }.image = true)
      ∧ ([⟨5, 0x50100, .known 7 false⟩] ≠ ([] : List EWrite) ∧ (doneOf (.memory none)).kind ≠ 7
        ∧ cleanWrites [⟨5, 0x50100, .known 7 false⟩] (base .nop) = true)
      ∧ tells (tellsMemory (.memory none)) (under [tellsMemory (.memory none)] (base .nop)) = true
      ∧ tells (tellsMemory (.record 3 0)) (under [tellsMemory (.record 3 0)] (base .nop)) = true
      ∧ ((startedOf mcastPkt).begun = false ∧ (startedOf reducePkt).left = false)
      ∧ ((doneOf (.strand st0 1)).pending = [] ∧ (doneOf (.strand st0 1)).lost = 0 ∧ InFocus st0 (owing (base .nop)) ∧ (owing (base .nop)).st.gone = false
        ∧ (owing (base .nop)).st.owed.find? (fun x => x.post = 1) = some ⟨20, 1, true, false⟩)
      ∧ (BlockIn ⟨1, 0⟩ (under [flying 1] (waiting16 (base .nop))) ∧ (flying 1).targets.find? (fun t => t.n = 0 && t.chunks.contains 0) = some ⟨0, 0, 1, [0], false⟩
        ∧ (flying 1).begun = true ∧ (flying 1).pending = [] ∧ (flying 1).f 224 32 = 0x100 ∧ (flying 1).f 192 32 = 0x200
        ∧ (waiting16 (base .nop)).blk.barrierState 0x100 = 1 ∧ BitVec.ofNat 16 ((waiting16 (base .nop)).blk.scratchNat 0x10C 2) = 1
        ∧ BitVec.ofNat 16 ((waiting16 (base .nop)).blk.scratchNat 0x10C 2) ≠ 2 ∧ Memory.wf (waiting16 (base .nop)).blk.scratch = true
        ∧ (waiting16 (base .nop)).blk.scratchNat 0x104 4 + 16 < 2 ^ 32)
      ∧ (reducing.left = true ∧ reducing.result = none ∧ reducing.stalled = none ∧ reducing.len = 4 ∧ reducing.lost = 0 ∧ reducing.data.length = reducing.len
        ∧ rangePasses (engineCheck reducing .copyWrite (reducing.a 192) reducing.len (under [reducing] (base .nop))) (fun dst u =>
          !linkGone u dst && (allPas dst).length == 4) = true) := by
  simp only [BlockIn, InFocus]; and_intros <;> decide +kernel

/-- R283: the last bytes that a barrier expects complete it: ARRIVED 16, PHASE 1, STATE 2. -/
theorem test_arrival :
    gives (.mcastArrival 1 0 0) (under [flying 1] (waiting16 (base .nop)))
      (fun t => barrierFields t.blk 0x100 = [16, 16, 1, 1, 2] && Memory.readBytes t.blk.scratch 0x200 2 = [7, 7]) = true := by
  decide +kernel

/-- R274: a fill's eight bytes repeat. -/
theorem test_fill :
    gives (.packetCompletion ⟨1, .all⟩ false) (under [startedOf fillPkt] (base .nop))
      (fun t => t.packets.map (fun p => p.pending.map (·.data)) = [plainData [1, 2, 3, 4, 5, 6, 7, 8, 1, 2, 3, 4]]) = true := by
  decide +kernel

/-! ### Witnesses: ports, requests, links -/

/-- Port A as f makes it. -/
def onA (f : Port → Port) (s : State) : State := { s with portA := f s.portA }
/-- Port B as f makes it. -/
def onB (f : Port → Port) (s : State) : State := { s with portB := f s.portB }
/-- A port's link up, with a role. -/
def up (role : Nat) (p : Port) : Port := { p with link := true, role := role }
/-- Before COMMIT. -/
def unlocked_ (s : State) : State := { s with locked := false }
/-- The scope-1 invalidation of everything of key id 5. -/
def tlbWord : BitVec 64 := BitVec.ofNat 64 (2 ^ 60 + 2 ^ 6 * 5)

theorem witness_HostPorts :
    ((onA (up 0) (base .nop)).portA.link = true ∧ (onA (up 0) (base .nop)).portA.tlbinv.getLsbD 63 = false ∧ field tlbWord 60 3 < 4)
      ∧ ((base .nop).portA.link = false ∧ (base .nop).portA.tlbinv.getLsbD 63 = false)
      ∧ ((onA (fun p => { p with tlbinv := tlbWord ||| 0x8000000000000000 }) (base .nop)).portA.tlbinv.getLsbD 63 = true
        ∧ tlbHeld (base .nop) (tlbWord ||| 0x8000000000000000) = false)
      ∧ ((base .nop).locked = true ∧ (unlocked_ (base .nop)).locked = false ∧ 5 ≤ (unlocked_ (base .nop)).stage)
      ∧ ((onA (up 1) (base .nop)).portA.role = 1 ∧ (onA (up 0) (base .nop)).portA.role ≠ 1 ∧ (onA (up 0) (base .nop)).portB.role ≠ 1)
      ∧ ((onB (up 2) (onA (up 1) (base .nop))).portB.role = 2 ∧ (onB (up 2) (onA (up 1) (base .nop))).portB.link = true)
      ∧ ((base .nop).lapseMs ≠ some (base .nop).ms
        ∧ (let s := { onB (up 1) (onA (up 0) (base .nop)) with leaseMs := some 0 }
          s.portB.role = 1 ∧ s.leaseMs = some s.ms)
        ∧ { onA (up 0) (base .nop) with lapseMs := some 0 }.lapseMs = some (base .nop).ms)
      ∧ (unlocked_ (base .nop)).offline = []
      ∧ ((onA (fun p => { up 0 p with featacc := 0x4000 }) (unlocked_ (base .nop))).portA.featacc &&& ~~~0x3FFF#256 ≠ 0
        ∧ (onA (fun p => { up 0 p with featacc := 0x3FFF }) (unlocked_ (base .nop))).portA.featacc &&& ~~~0x3FFF#256 = 0)
      ∧ (let s := onA (fun p => { up 1 p with unsignalled := 1, notifyBase := 1 }) (base .nop)
        s.portA.unsignalled ≠ 0 ∧ canNotify s false = true ∧ field s.portA.moderate 0 16 = 0)
      ∧ (base .nop).refNs < 1000000 * ((base .nop).ms + 1)
      ∧ (let s := atNs 1000000 (onA (fun p => { up 1 p with remain := 2 }) (base .nop))
        1000000 * (s.ms + 1) ≤ s.refNs ∧ s.portA.role = 1 ∧ 1 < s.portA.remain.toNat)
      ∧ (let s := atNs 1000000 (onB (up 2) (onA (fun p => { up 1 p with remain := 1 }) (base .nop)))
        s.portA.remain.toNat = 1 ∧ s.portB.role = 2 ∧ s.portB.link = true) := by
  and_intros <;> decide +kernel

/-- R369: the lease passes when its last unit is over. -/
theorem test_lease :
    gives .leaseExpiry (atNs 1000000 (onB (up 2) (onA (fun p => { up 1 p with remain := 1 }) (base .nop))))
      (fun t => t.portA.role = 0 && t.portB.role = 1 && t.portB.remain = 1000 && t.leaseEpoch = 1) = true := by
  decide +kernel

/-- A port accepts requests; world 5 is not live. -/
def open_ (s : State) : State :=
  onA (fun p => { up 1 p with adminBase := 0x1000, adminSize := 64 }) { s with wld := { s.wld with live := false, root := 0 } }
/-- A binding of a queue for world 5. -/
def bind3 : QueueBinding := ⟨3, 0, 1, 100, 0, 0, 0, 0x22000, 7, false⟩

theorem witness_TrustRequests :
    (adminOpen (open_ (base .nop)) = true ∧ (freeKeyId (open_ (base .nop))).isSome = true ∧ handleWorld (open_ (base .nop)) 8 = none
        ∧ (handleWorld (open_ (base .nop)) 7).isSome = true)
      ∧ ((handleWorld (open_ (base .nop)) 7).any fun w => decide ((open_ (base .nop)).world w.key = some w ∧ w.key ≠ 0) && !w.live) = true
      ∧ ((handleWorld (onA (fun p => { up 1 p with adminBase := 0x1000, adminSize := 64 }) (base .nop)) 7).any fun w =>
          decide ((base .nop).world w.key = some w) && w.live) = true
      ∧ (∀ r ∈ (open_ (base .nop)).slots, r.world = 5 → r.state ≠ 1 ∧ r.state ≠ 3)
      ∧ ((open_ (base .nop)).accepted.getLsbD 8 = true ∧ { open_ (base .nop) with accepted := 0 }.accepted.getLsbD 8 = false)
      ∧ ((open_ (base .nop)).accepted.getLsbD 0 = true ∧ sealedEntryBad 1 = false ∧ sealedEntryBad 2 = true)
      ∧ (ingestBusy (open_ (base .nop)) 5 0 = false ∧ ingestBusy (under [startedOf (packetBits 6 [])] (open_ (base .nop))) 5 0 = true)
      ∧ ((readHeader (withRings 0 (open_ (base .nop))) 5 0x21000).any fun h => !cometHeaderBad 5 h) = true
      ∧ ((readHeader (withRings 0 (open_ (base .nop))) 5 0x22000).any fun h => cometHeaderBad 5 h) = true
      ∧ (bind3.weight ≠ 0 ∧ 10 ≤ bind3.bound.toNat ∧ bind3.header.toNat % 64 = 0 ∧ ptrSpace bind3.header = 0
        ∧ (ownerKey (open_ (base .nop)) bind3.handle).isSome = true)
      ∧ ({ bind3 with weight := 0 }).weight = 0 := by
  and_intros <;> decide +kernel

/-- R315, R355: a queue is bound; the key id of a new handle is free. -/
theorem test_requests :
    (gives (.bindQueue 4 bind3) (open_ (base .nop)) (fun t => (t.queue 4).any fun q => q.bind == bind3 && q.deficit == 0)
      && gives (.sealedEntry 7 3 1) (open_ (base .nop)) (fun t => (t.world 5).any fun w => nth 0 w.sealedTable 3 = 1)) = true := by
  decide +kernel

/-- A load of the byte at 0x50000. -/
def byteLoad : Op := { wordOp .ld false with lanes := [⟨0, 0, 0x20000, [0x50000], 1, 0, false, 5, [], 0, false, false, [], 0⟩] }
/-- The link of a stack changed its key while the load of strand 0 was outstanding. -/
def draining (n : Nat) (s : State) : State :=
  let u := withOps [byteLoad] s
  { u with links := List.replicate n Link.reset ++ [{ Link.reset with gen := 1, outstanding := linkUsers u n }] }
/-- The stack of the byte at 0x50000. -/
def stack5 : Nat := (((List.range 12).filter fun n => !(linkUsers (withOps [byteLoad] (base .nop)) n).isEmpty).head?).getD 0

/-- An access from outside passes, for the page at 0x20000 of key id 5. -/
def outerPasses (k : Access) (n : Nat) (s : State) : Bool :=
  (outerRange 5 k 0x20000 n s).any fun x => !x.2 && decide ((allPas x.1).length ≤ 8)
    && x.1.all fun y => decide (badLines s y.2.2.key y.2.2.pas = [])

theorem witness_LinksAndErrors :
    (lineOwner (base .nop) 0x3F = 0 ∧ lineOwner { base .nop with lineKeys := [(0x3F, 5)] } 0x3F = 5)
      ∧ onStack (base .nop) stack5 [64 * 0x1400] = true
      ∧ ((0 : Nat) < 12 ∧ ¬ ((∃ x ∈ (nth Link.reset (base .nop).links 0).outstanding, x ∈ linkUsers (base .nop) 0)
        ∨ ∃ x ∈ (nth Link.reset (base .nop).links 0).packets, x ∈ linkPackets (base .nop) 0))
      ∧ (stack5 < 12 ∧ ∃ x ∈ (nth Link.reset (draining stack5 (base .nop)).links stack5).outstanding, x ∈ linkUsers (draining stack5 (base .nop)) stack5)
      ∧ ((nth Perigee.reset (base .nop).peri 0).keyed = false ∧ (nth Perigee.reset (keyedPorts (base .nop)).peri 0).keyed = true
        ∧ (nth Perigee.reset (keyedPorts (base .nop)).peri 0).outstanding = [])
      ∧ 4 ≤ (base .nop).stage
      ∧ ((onA (up 1) (base .nop)).portA.link = true ∧ outerPasses .write 4 (onA (up 1) (base .nop)) = true ∧ outerPasses .read 8 (onA (up 1) (base .nop)) = true
        ∧ Memory.wf (onA (up 1) (base .nop)).mem = true)
      ∧ ((base .nop).portA.link = false ∧ ∀ a bytes, OuterAccess.read 5 0 8 ≠ .own a bytes)
      ∧ ((nth Perigee.reset (base .nop).peri 3).up = false ∧ (nth Perigee.reset (keyedPorts (base .nop)).peri 3).up = true
        ∧ outerPasses .write 4 (keyedPorts (base .nop)) = true)
      ∧ ((base .nop).offline.contains ((3 : BitVec 4).toNat / 4) = false)
      ∧ InFocus st0 (base .nop) := by
  simp only [InFocus]
  and_intros <;> first | decide +kernel | (intro a b h; exact nomatch h)

/-- R359, R375: a MAC that stays wrong poisons its line. -/
theorem test_errors :
    (gives (.macReread 1 false) (base .nop) (fun t => t.poison.contains 64 && t.poison.contains 127 && !t.poison.contains 128)
      && gives (.softError (.line 1) true) (base .nop) (fun t => t.poison.isEmpty)) = true := by
  decide +kernel

/-! ### Witnesses: power, the loader, orrery, faults, steps -/

/-- A program of one section: four bytes of data at 0x90000, to be placed at 0xC0000. -/
def program1 : Loaded := ⟨7, [⟨.data, 0x90000, 0xC0000, [1, 2, 3, 4]⟩], [0x500000, 0x600000, 0x700000, 0x800000], 0, 0, []⟩

/-- The same for anonymous worlds, in the memory of host A. -/
def program0 : Loaded := { program1 with handle := 0, sections := [⟨.host false, 0x90000, 0xC0000, [1, 2, 3, 4]⟩] }

/-- The hypotheses of the last clause of `PowerAndLoad`. -/
def loads1 (p : Loaded) (s : State) : Bool :=
  decide (5 ≤ s.stage) && (loadWorld s p.handle).any fun w => p.sections.all fun x =>
    sectionOk s p w x && (mapPages w p.entry.toNat x (ceilDiv x.bytes.length 65536) p.tables (beginProgram p s)).any fun y =>
      (sectionPlaces y.2 w x).any fun pas => decide pas.Nodup && Memory.wf y.2.mem

theorem witness_PowerAndLoad :
    (State.reset.halted = false ∧ State.reset.stage = 0 ∧ (∀ k ∈ List.range 12, nth 0 State.reset.fused k ≤ nth 0 (List.replicate 12 3) k)
        ∧ nth 0 (List.replicate 12 3) 0 < nth 0 ({ State.reset with fused := [4] } : State).fused 0)
      ∧ ({ State.reset with stage := 1 }.stage = 1 ∧ { State.reset with stage := 2 }.stage = 2
        ∧ { State.reset with stage := 3 }.stage = 3 ∧ { State.reset with stage := 4 }.stage = 4)
      ∧ (∀ w ∈ allRetired.allWorlds.map (fun w => { w with live := false }), w.live = false)
      ∧ (∀ w ∈ (dirty.allWorlds.filter fun w => !w.live), w.live = false)
      ∧ Memory.wf (base .nop).mem = true
      ∧ State.reset.stage < 5
      ∧ (5 ≤ (base .nop).stage ∧ loadWorld (base .nop) 9 = none)
      ∧ loads1 program1 (base .nop) = true ∧ loads1 program0 { base .nop with anonRoot := 0x100000 } = true
      ∧ (loadWorld (base .nop) 7).any (fun w => (loadSections { program1 with tables := [] } w [⟨.data, 0x2001, 0xC0000, []⟩] 0 [] (beginProgram program1 (base .nop))).isNone) = true := by
  and_intros <;> decide +kernel

/-- R366, FIPS 202: the first bytes of the SHAKE256 digest of the empty string. -/
theorem test_shake256 : (leBytes 64 (shake256 []).toNat).take 8 = [0x46#8, 0xb9#8, 0xdd#8, 0x2b#8, 0x0b#8, 0xa8#8, 0x8d#8, 0x13#8] := by
  decide +kernel

/-- R10: the section's bytes stand at its place, and its page is mapped. -/
theorem test_load :
    gives (.programLoad program1) (base .nop) (fun t => Memory.readBytes t.mem 0xC0000 4 = [1, 2, 3, 4]
      && (orreryRange 5 0x90000 4 t).any fun x => x.1 == [1, 2, 3, 4] && !x.2) = true := by
  decide +kernel

/-- A post by orrery: the record at 0x20000 names queue 3. -/
def orreryRings (n : Nat) (s : State) : State := withBytes 0x50000 (leBytes 64 gridBits) (withRings n s)
/-- The hypotheses of the last clause of `Orrery`. -/
def orreryPosts (full : Bool) (s : State) : Bool :=
  (moonRead s 5 .read 0x20000 64).any fun y => (s.queue (field (BitVec.ofNat 512 (leNat (y.1.map s.readByte))) 16 10)).any fun q =>
    (queueHeader s q).any fun z => z.2.full == full
      && (full || ((postImage z.1 z.2 (y.1.map s.readByte) s).isSome && (moonPlaces s z.1 .write (z.2.slot z.2.write) 1).isSome))

/-- The hypotheses of the clauses of `Orrery` on writes of memory: is some page sealed? -/
def draws (va : DWord) (sealed : Bool) (s : State) : Bool :=
  (orreryDraw 5 va 4 5 s).any fun x => x.1.any (fun y => y.2.2.mtype = 1) == sealed
    && (sealed || cleanWrites (writesTo x.1 (plainData [1, 2, 3, 4])) x.2) && Memory.wf x.2.mem

/-- A place setting of key 5 for core 9, in a world that orrery is attached to or not. -/
def placing (attached : Bool) : State :=
  { base .nop with placed := [(5, 9)], wld := { world5 with attached := attached } }

theorem witness_Orrery :
    ((placing true).placed.lookup grid1.key = some 9 ∧ grid1.parent = none ∧ ((placing true).world 5).any (·.attached) = true
        ∧ coreAllowed (placing true) queue3 grid1 9 = true ∧ child.parent ≠ none ∧ grid1.debugged = false
        ∧ ((placing false).world 5).any (fun w => !w.attached) = true) ∧
    ((base .nop).world 5).any (fun w => decide (w.key = 5) && w.live) = true
      ∧ (InFocus st0 (standing .stopped (base .nop)) ∧ (standing .stopped (base .nop)).st.status = .stopped
        ∧ (standing .stopped (base .nop)).st.gone = false)
      ∧ (orreryRange 5 0x20000 4 (base .nop)).any (fun x => !x.2) = true ∧ (orreryRange 5 0x40000 4 (base .nop)).any (fun x => x.2) = true
      ∧ draws 0x20000 false (base .nop) = true ∧ draws 0x40000 true (base .nop) = true
      ∧ orreryPosts false (orreryRings 0 (base .nop)) = true ∧ orreryPosts true (orreryRings 16 (base .nop)) = true := by
  simp only [InFocus]; and_intros <;> decide +kernel

/-- Where a record goes. -/
def placed (x : AreaPlace) (k : List Nat → Bool) : Bool :=
  match x with
  | .at_ l key => k l && key == 5
  | _ => false

/-- The hypotheses of the clauses of `FaultDelivery` on the fault area, whose COUNT is as given. -/
def records (count : Nat) (s : State) : Bool :=
  (s.grid 1).any fun x => (s.world x.key).any fun w => placed (areaPlace s w x.faultArea 64) fun hp =>
    decide (badLines s 5 hp = [] ∧ hp.Nodup ∧ hp.length = 64) && hp.all (fun a => !s.badByte a && !s.mixed.contains (a / 2 ^ 29))
      && areaCount hp 0 s == count && Memory.wf s.mem && (decide (63 ≤ count) || placed (areaPlace s w (x.faultArea + BitVec.ofNat 64 (64 + 64 * count)) 64) fun rp =>
        decide (rp.Nodup ∧ rp.length = 64) && rp.all fun a => !hp.contains a && !s.hostGone a)
/-- The fault area's header holds COUNT 63. -/
def fullArea (s : State) : State := withBytes 0x5F000 (leBytes 64 63) s

/-- A scalar register of strand 0 is in error. -/
def struck (s : State) : State := { s with st := { s.st with rfErr := [⟨1, 4, 0, 1⟩] } }

theorem witness_FaultDelivery :
    (pageFault 0).code ≠ codeAbsent ∧ ((base .nop).grd.live = true ∧ (base .nop).grd.continue_ = false)
      ∧ ((pageFault 0).code < 256 ∧ (pageFault 0).detail < 4096 ∧ (base .nop).st.idx < 16 ∧ (base .nop).blk.id < 2 ^ 32 ∧ (base .nop).grd.id < 2 ^ 32)
      ∧ records 0 (base .nop) = true ∧ records 63 (fullArea (base .nop)) = true ∧ (∀ g ∈ (base .nop).allGrids, g.parent ≠ some 1)
      ∧ (form (.sadd ⟨none, false, 20, .s 4, .s 5⟩)).any (fun f => (errorsOf (struck (base .nop)) f).isSome) = true := by
  and_intros <;> decide +kernel

/-- R346 to R348: the strand stops, and record 0 of the fault area holds the code: COUNT is 1. -/
theorem test_fault :
    gives (.adrn 15 (.s 11)) (base (.adrn 15 (.s 11))) (fun t => t.st.status = .faulted && Memory.read t.mem 0x5F000 = 1
      && Memory.read t.mem 0x5F040 = 0x44) = true := by
  decide +kernel

/-- A machine without a block still has the events of its queues and of the ready pool as candidates. -/
theorem test_candidates_without_blocks (q : Queue) (s : State) (h : s.allBlocks = []) (hq : q ∈ s.queues) :
    .gridRecord q.index ∈ candidates s ∧ .readyPoolEntry ∈ candidates s := by
  have hg : Instr.gridRecord q.index ∈ s.queues.flatMap fun q => queueEvents q.index :=
    List.mem_flatMap.mpr ⟨q, hq, by simp [queueEvents]⟩
  constructor
  · simp only [candidates, h, List.flatMap_nil, List.nil_append, List.mem_append, hg, true_or, or_true]
  · simp [candidates]

/-- Nothing is due beside the strand in focus. -/
def quiet (s : State) : Bool := s.qnt.isEmpty && !s.scrubOn && s.queues.all fun q => q.pending = 0

theorem witness_StepRunsDecoded :
    (quiet (base .nop) = true ∧ quiet State.reset = true)
      ∧ (let u := tick (base .nop)
        u.agenda = [] ∧ u.halted = false ∧ u.st.status = .ready ∧ u.st.clause = some ⟨0xFFFC, 4, [0, 0], []⟩ ∧ u.clocked = true
          ∧ decodeOne (decodeCtx u 4 []) [0, 0] = .ok (.nop, [0]) ∧ held u .nop = false)
      ∧ decodeOne (decodeCtx (tick (base .nop)) 4 []) [0x1B000000] = .error .illegalInstruction
      ∧ (tick { base .nop with agenda := [.warmReset] }).agenda = [.warmReset]
      ∧ (tick { base .nop with halted := true }).halted = true := by
  and_intros <;> decide +kernel

theorem witness_MemoryStaysCanonical : Memory.wf State.reset.mem = true ∧ Memory.wf (base .nop).mem = true := by
  constructor <;> decide +kernel

/-- The context of an ALU clause. -/
def aluCtx : DecCtx := ⟨0, 0x3FFF, 128, [false, false]⟩

theorem witness_EncodedDecodes : wellFormed aluCtx (.vadd ⟨none, false, 4, .l 1, .l 0⟩) = true := by decide +kernel

theorem witness_DecodedEncodes : decodeOne aluCtx [0x4004C1C0, 0] = .ok (.vadd ⟨none, false, 4, .l 1, .l 0⟩, [0]) := by decide +kernel
end Sys2Proof.Tests
end

/-! ## The exact accumulator (R102 to R104, R151) -/

namespace Sys2Proof.Machine

/-! ### Adding values to k, and the order of the additions (R103) -/

/-- Every addition changes each part of k on its own, by what the value gives that part. -/
theorem KAcc.add_eq (k : KAcc) (x : Val) :
    k.add x = ⟨k.sum + BitVec.ofInt 320 (kUnits x), k.nan || .nan == x, k.pinf || .inf false == x,
      k.ninf || .inf true == x⟩ := by
  cases x with
  | nan => simp [KAcc.add, kUnits]
  | inf neg => cases neg <;> simp [KAcc.add, kUnits]
  | fin neg m e => simp [KAcc.add, kUnits]

theorem KAcc.add_swap (k : KAcc) (x y : Val) : (k.add x).add y = (k.add y).add x := by
  simp only [KAcc.add_eq, add_right_comm k.sum, Bool.or_right_comm]

/-- The order of the additions does not matter (R103). -/
theorem KAcc.foldl_add_perm {xs ys : List Val} (h : xs.Perm ys) (k : KAcc) :
    xs.foldl KAcc.add k = ys.foldl KAcc.add k :=
  h.foldl_eq' (fun x _ y _ k => k.add_swap x y) k

/-- What k holds after a list of values, before the sum is looked at (R103). -/
theorem KAcc.foldl_add (xs : List Val) (k : KAcc) :
    xs.foldl KAcc.add k = ⟨k.sum + BitVec.ofInt 320 (xs.map kUnits).sum, k.nan || xs.contains .nan,
      k.pinf || xs.contains (.inf false), k.ninf || xs.contains (.inf true)⟩ := by
  induction xs generalizing k with
  | nil => simp
  | cons x xs ih =>
    rw [List.foldl_cons, ih, KAcc.add_eq]
    simp only [List.map_cons, List.sum_cons, List.contains_cons, BitVec.ofInt_add, BitVec.add_assoc, Bool.or_assoc]

/-- A sum out of range sets the sticky infinity of its sign and changes nothing else (R103). -/
theorem KAcc.settle_eq (k : KAcc) :
    k.settle = { k with pinf := k.pinf || decide (2 ^ 309 ≤ k.sum.toInt)
                        ninf := k.ninf || decide (k.sum.toInt < -(2 ^ 309)) } := by
  unfold KAcc.settle
  split
  case isTrue above =>
    have notBelow : ¬ k.sum.toInt < -(2 ^ 309) := not_lt.2 ((neg_le_self (by positivity)).trans above)
    simp only [decide_eq_true (ge_iff_le.1 above), decide_eq_false notBelow, Bool.or_true, Bool.or_false]
  case isFalse notAbove =>
    rw [ge_iff_le] at notAbove
    split
    case isTrue below => simp only [notAbove, below, decide_true, decide_false, Bool.or_true, Bool.or_false]
    case isFalse notBelow => simp only [notAbove, notBelow, decide_false, Bool.or_false]

theorem kAdded_settle_foldl (xs : List Val) (k : KAcc) : KAdded xs k (xs.foldl KAcc.add k).settle := by
  rw [KAcc.settle_eq, KAcc.foldl_add]
  exact ⟨rfl, rfl, rfl, rfl⟩

/-! ### What exec runs, and the words of its form -/

theorem wordCount_of_form {i : Instr} {f : Form} (h : form i = some f) : wordCount i = formSize f := by
  simp only [wordCount, encode, h, formSize]

theorem exec_kclr (f : AluD) (s : State) : exec (.kclr f) s = execKclr f s := rfl
theorem exec_kaddF32 (f : Alu1) (s : State) : exec (.kaddF32 f) s = execKaddF32 f s := rfl
theorem exec_kaddF16 (f : Alu1) (s : State) : exec (.kaddF16 f) s = execKaddF16 f s := rfl
theorem exec_kaddBf16 (f : Alu1) (s : State) : exec (.kaddBf16 f) s = execKaddBf16 f s := rfl
theorem exec_krnd (f : AluD) (s : State) : exec (.krnd f) s = execKrnd f s := rfl

/-! ### KCLR and the KADDs -/

/-- An instruction that writes k and no general register. -/
theorem zeroResult_withK_spec (f : Form) (k : KAcc) (s : State) :
    ∃ t, zeroResult f { s with st := { s.st with k := k } } = .next t ∧ WentOn (formSize f) s t ∧ LatchIs (.uni64 0) t
      ∧ OnlyK s t ∧ t.st.k = k := by
  obtain ⟨t, runs, went, latch, moved⟩ := zeroResult_spec f { s with st := { s.st with k := k } }
  have hk : t.st.k = k := by rw [moved]; rfl
  refine ⟨t, runs, went, latch, ?_, hk⟩
  rw [OnlyK, hk]
  exact moved

/-- The KADDs' common operation adds the values of the active lanes, the lowest lane first. -/
theorem kadd_spec {op : BitVec 8} {f : Alu1} {s : State} (h : errorsOf s (.alu1 op f) = none) (p : Pos)
    (vals : Word → List Val) :
    ∃ t, kadd op f p vals s = .next t ∧ WentOn (formSize (.alu1 op f)) s t ∧ LatchIs (.uni64 0) t ∧ OnlyK s t
      ∧ KAdded ((lanesOf (s.active f.pre)).flatMap fun i => vals (opnd32 p s i f.a)) s.st.k t.st.k := by
  obtain ⟨t, runs, went, latch, only, hk⟩ := zeroResult_withK_spec (.alu1 op f)
    (((lanesOf (s.active f.pre)).flatMap fun i => vals (opnd32 p s i f.a)).foldl KAcc.add s.st.k).settle s
  refine ⟨t, ?_, went, latch, only, hk ▸ kAdded_settle_foldl _ _⟩
  rw [kadd, guarded_none h, ← List.foldl_flatMap]
  exact runs

theorem kclr_completes (f : AluD) (s : State) (h : NoReadError (.kclr f) s) :
    Completes (.kclr f) s fun t =>
      WentOn (wordCount (.kclr f)) s t ∧ LatchIs (.uni64 0) t ∧ OnlyK s t ∧ t.st.k = ⟨0, false, false, false⟩ := by
  rw [wordCount_of_form (by rfl : form (.kclr f) = some (.aluD 0x84 f)), Completes, exec_kclr, execKclr,
    guarded_none (h _ rfl)]
  exact zeroResult_withK_spec _ _ s

/-- An instruction that does what `kadd` does. -/
theorem kadd_completes {i : Instr} {op : BitVec 8} {f : Alu1} {p : Pos} {vals : Word → List Val} {s : State}
    (hform : form i = some (.alu1 op f)) (hexec : exec i s = kadd op f p vals s) (h : NoReadError i s) :
    Completes i s fun t =>
      WentOn (wordCount i) s t ∧ LatchIs (.uni64 0) t ∧ OnlyK s t
        ∧ KAdded ((lanesOf (s.active f.pre)).flatMap fun i => vals (opnd32 p s i f.a)) s.st.k t.st.k := by
  rw [wordCount_of_form hform, Completes, hexec]
  exact kadd_spec (h _ hform) p vals

theorem kadds_complete (e : (Alu1 → Instr) × Pos × (Word → List Val)) (he : e ∈ kadds) (f : Alu1) (s : State)
    (h : NoReadError (e.1 f) s) :
    Completes (e.1 f) s fun t =>
      WentOn (wordCount (e.1 f)) s t ∧ LatchIs (.uni64 0) t ∧ OnlyK s t
        ∧ KAdded ((lanesOf (s.active f.pre)).flatMap fun i => e.2.2 (opnd32 e.2.1 s i f.a)) s.st.k t.st.k := by
  simp only [kadds, List.mem_cons, List.not_mem_nil, or_false] at he
  obtain rfl | rfl | rfl := he
  · exact kadd_completes rfl (exec_kaddF32 f s) h
  · exact kadd_completes rfl (exec_kaddF16 f s) h
  · exact kadd_completes rfl (exec_kaddBf16 f s) h

/-! ### KRND (R104) -/

/-- KRND's result is the chain of R104, with the manual's bits for the values that are not rounded. -/
theorem ofNat_round (k : KAcc) (rm : Nat) :
    BitVec.ofNat 32 (k.round rm) =
      if k.nan = true ∨ (k.pinf = true ∧ k.ninf = true) then 0x7FC00000
      else if k.pinf = true then 0x7F800000
      else if k.ninf = true then 0xFF800000
      else if k.sum = 0 then 0
      else BitVec.ofNat 32 (roundTo fp32 rm false false (k.sum.toInt < 0) k.sum.toInt.natAbs (-149) false) := by
  have nanBits : BitVec.ofNat 32 fp32.nan = 0x7FC00000 := by decide
  have infBits : BitVec.ofNat 32 fp32.inf = 0x7F800000 := by decide
  have ninfBits : BitVec.ofNat 32 (fp32.signed true fp32.inf) = 0xFF800000 := by decide
  simp only [KAcc.round, Bool.or_eq_true, Bool.and_eq_true, apply_ite (BitVec.ofNat 32), nanBits, infBits, ninfBits]
  rfl

theorem krnd_completes (f : AluD) (s : State) (h : NoReadError (.krnd f) s) :
    Completes (.krnd f) s fun t =>
      WentOn (wordCount (.krnd f)) s t
        ∧ ScalarIs f.n f.d.toNat (BitVec.ofNat 32 (s.st.k.round (rmOf f.pre))) s t := by
  rw [wordCount_of_form (by rfl : form (.krnd f) = some (.aluD 0x88 f)), Completes, exec_krnd, execKrnd,
    guarded_none (h _ rfl)]
  exact uniResult_spec _ f.n f.d _ s

/-- Settles O11: each instruction by the rule of its shared operation, and the independence of order because additions to
k commute. -/
theorem exactAccumulator : Obligations.ExactAccumulator := by
  unfold Obligations.ExactAccumulator
  refine ⟨kclr_completes, kadds_complete, fun f s h => ?_, fun _ _ k h => KAcc.foldl_add_perm h k⟩
  have completes := krnd_completes f s h
  rw [ofNat_round] at completes
  exact completes

end Sys2Proof.Machine

/-! ## Scalar shifts (R130) -/

namespace Sys2Proof.Machine

/-! ### The shifts of the model are the manual's -/

theorem shiftLeft_eq_shl {w : Nat} : @shiftLeft w = shl := rfl
theorem shiftRight_eq_shr {w : Nat} : @shiftRight w = shr := rfl

/-- The sign is the top bit in the model, and a value below zero in the statement. -/
theorem shiftArith_eq_sra {w : Nat} : @shiftArith w = sra := by
  funext a b
  simp only [shiftArith, sra, BitVec.msb_eq_toInt, decide_eq_true_eq, ge_iff_le]

/-! ### What exec runs -/

theorem exec_sshl (f : Alu2) (s : State) : exec (.sshl f) s = execSshl f s := rfl
theorem exec_sshr (f : Alu2) (s : State) : exec (.sshr f) s = execSshr f s := rfl
theorem exec_ssra (f : Alu2) (s : State) : exec (.ssra f) s = execSsra f s := rfl
theorem exec_sshlD (f : Alu2) (s : State) : exec (.sshlD f) s = execSshlD f s := rfl
theorem exec_sshrD (f : Alu2) (s : State) : exec (.sshrD f) s = execSshrD f s := rfl
theorem exec_ssraD (f : Alu2) (s : State) : exec (.ssraD f) s = execSsraD f s := rfl

/-! ### Scalar instructions with operands A and B -/

/-- The instruction goes on with the word that `value` gives for its operands. -/
theorem scalarWord_completes {i : Instr} {op : BitVec 8} {f : Alu2} {s : State} {value : State → Word}
    (hform : form i = some (.alu2 op f))
    (hexec : exec i s = scalarOp op f s fun s => uniResult (.alu2 op f) f.n f.d (value s) s) (h : NoReadError i s) :
    Completes i s fun t => WentOn (wordCount i) s t ∧ ScalarIs f.n f.d.toNat (value s) s t := by
  rw [wordCount_of_form hform, Completes, hexec, scalarOp, guarded_none (h _ hform)]
  exact uniResult_spec _ f.n f.d _ s

/-- The instruction goes on with the pair that `value` gives for its operands. -/
theorem scalarPair_completes {i : Instr} {op : BitVec 8} {f : Alu2} {s : State} {value : State → DWord}
    (hform : form i = some (.alu2 op f))
    (hexec : exec i s = scalarOp op f s fun s => uniResult64 (.alu2 op f) f.n f.d (value s) s) (h : NoReadError i s) :
    Completes i s fun t => WentOn (wordCount i) s t ∧ PairIs f.n f.d.toNat (value s) s t := by
  rw [wordCount_of_form hform, Completes, hexec, scalarOp, guarded_none (h _ hform)]
  exact uniResult64_spec _ f.n f.d _ s

theorem scalarShifts_complete (e : (Alu2 → Instr) × (Word → Word → Word)) (he : e ∈ scalarShifts) (f : Alu2) (s : State)
    (h : NoReadError (e.1 f) s) :
    Completes (e.1 f) s fun t =>
      WentOn (wordCount (e.1 f)) s t ∧ ScalarIs f.n f.d.toNat (e.2 (s.arg f.a) (s.arg f.b)) s t := by
  simp only [scalarShifts, ← shiftLeft_eq_shl, ← shiftRight_eq_shr, ← shiftArith_eq_sra, List.mem_cons,
    List.not_mem_nil, or_false] at he
  obtain rfl | rfl | rfl := he
  · exact scalarWord_completes rfl (exec_sshl f s) h
  · exact scalarWord_completes rfl (exec_sshr f s) h
  · exact scalarWord_completes rfl (exec_ssra f s) h

theorem scalarPairShifts_complete (e : (Alu2 → Instr) × (DWord → Word → DWord)) (he : e ∈ scalarPairShifts) (f : Alu2)
    (s : State) (h : NoReadError (e.1 f) s) :
    Completes (e.1 f) s fun t =>
      WentOn (wordCount (e.1 f)) s t ∧ PairIs f.n f.d.toNat (e.2 (s.arg64 f.a) (s.arg f.b)) s t := by
  simp only [scalarPairShifts, ← shiftLeft_eq_shl, ← shiftRight_eq_shr, ← shiftArith_eq_sra, List.mem_cons,
    List.not_mem_nil, or_false] at he
  obtain rfl | rfl | rfl := he
  · exact scalarPair_completes rfl (exec_sshlD f s) h
  · exact scalarPair_completes rfl (exec_sshrD f s) h
  · exact scalarPair_completes rfl (exec_ssraD f s) h

/-- Settles O2: every shift ends as a scalar instruction does, and its value is the one that the manual gives. -/
theorem shiftCounts : Obligations.ShiftCounts := by
  unfold Obligations.ShiftCounts
  exact ⟨scalarShifts_complete, scalarPairShifts_complete⟩

end Sys2Proof.Machine

/-! ## User traps (R126 to R128) -/

namespace Sys2Proof.Machine

/-! ### TRAP's word -/

/-- The word of TRAP n (R127). -/
def trapWord (x : BitVec 8) : Word := 0x0E000000 + x.setWidth 32

/-- TRAP's row of the opcode table (R72). -/
def trapRow : Row := ⟨4, .n8, 0x00FFFF00, 0, .none, .none, .none, true⟩

theorem rowOf_trap : rowOf 0x0E = some trapRow := by decide

theorem heldBack_trap : heldBack 0x3FFF 0x0E [] = false := by decide

theorem trapWord_shift (x : BitVec 8) : trapWord x >>> 24 = 0x0E := by
  unfold trapWord
  bv_omega

theorem trapWord_opcode (x : BitVec 8) : bits (trapWord x) 24 8 = 0x0E := by
  rw [bits, trapWord_shift]
  rfl

theorem trapWord_b (x : BitVec 8) : bits (trapWord x) 0 8 = x := by
  unfold bits trapWord
  bv_omega

/-- The opcode and the fields D and A stand above B. -/
theorem trapWord_eq_append (x : BitVec 8) : trapWord x = (0x0E0000#24 ++ x : BitVec 32) := by
  have low : x.setWidth 32 = (0#24 ++ x : BitVec 32) := BitVec.setWidth_eq_append (by decide)
  have high : (0x0E000000 : Word) = 0x0E0000#24 ++ 0#8 := rfl
  have apart : (0x0E0000#24 ++ 0#8 : BitVec 32) &&& 0#24 ++ x = 0 := by
    rw [BitVec.and_append]
    simp
  rw [trapWord, low, high, BitVec.add_eq_or_of_and_eq_zero _ _ apart, BitVec.or_append]
  simp

/-- D and A are 0, as R127 asks. -/
theorem trapWord_zeros (x : BitVec 8) : trapWord x &&& trapRow.zero = 0 := by
  have mask : trapRow.zero = 0x00FFFF#24 ++ 0#8 := rfl
  rw [trapWord_eq_append, mask, BitVec.and_append]
  simp

theorem decodeOne_trapWord (x : BitVec 8) : decodeOne ⟨4, 0x3FFF, 128, []⟩ [trapWord x] = .ok (.trap x, []) := by
  have noPrefixes : splitPrefixes [trapWord x] = ([], [trapWord x]) := by
    simp [splitPrefixes, trapWord_shift]
  have parsed : parseForm trapRow [] (trapWord x) [] = some (.n8 0x0E x, true, []) := by
    simp only [parseForm, trapRow, trapWord_opcode, trapWord_b]
  simp only [decodeOne, noPrefixes, trapWord_opcode, rowOf_trap, parsed, heldBack_trap, trapWord_zeros]
  rfl

/-! ### What exec runs -/

theorem exec_trap (x : BitVec 8) (s : State) : exec (.trap x) s = userTrap 0x60 x.toNat s.clauseEnd s := rfl
theorem exec_tret (s : State) : exec .tret s = trapReturn s := rfl

/-! ### The end of the clause -/

theorem endClause_jumped (p : DWord) (y : Bool) (s : State) : Jumped p s (endClause p y s) := by
  refine ⟨rfl, rfl, rfl, fun running unstopped => ?_⟩
  simp only [endClause, running, unstopped, Option.isSome_none, Bool.false_eq_true, if_false]

theorem clauseEnd_eq_afterClause {s : State} {c : Clause} (h : s.st.clause = some c) :
    s.clauseEnd = afterClause s c := by
  simp only [State.clauseEnd, h, afterClause]

/-! ### Taking a trap and returning from it -/

/-- A user trap is taken where TRAPVEC is not 0 and ACTIVE is 0 (R126). -/
theorem userTrap_taken {s : State} (code detail : Nat) (resume : DWord) (vec : s.st.trapvec ≠ 0)
    (inactive : s.st.trapcause.getLsbD 0 = false) :
    userTrap code detail resume s = .next (endClause s.st.trapvec false { s with st := { s.st with
      trapret := resume, trapcause := causeWord code detail } }) := by
  simp only [userTrap, vec, inactive, Bool.false_eq_true, or_self, if_false, causeWord]

/-- A user trap is delivered as a fault in every other case (R126). -/
theorem userTrap_delivered {s : State} (code detail : Nat) (resume : DWord)
    (h : s.st.trapvec = 0 ∨ s.st.trapcause.getLsbD 0 = true) :
    userTrap code detail resume s = deliver ⟨code, detail, 0, 0, 0, 0⟩ s := if_pos h

theorem trapReturn_active {s : State} (active : s.st.trapcause.getLsbD 0 = true) :
    trapReturn s = .next (endClause s.st.trapret false { s with st := { s.st with
      trapcause := s.st.trapcause &&& ~~~1#32 } }) := if_pos active

theorem trapReturn_inactive {s : State} (inactive : s.st.trapcause.getLsbD 0 = false) :
    trapReturn s = deliver ⟨0x01, 0, 0, 0, 0, 0⟩ s := if_neg (Bool.eq_false_iff.1 inactive)

/-- Clearing ACTIVE leaves the other bits of TRAPCAUSE. -/
theorem getLsbD_and_not_one (x : Word) {i : Nat} (hi : i < 32) :
    (x &&& ~~~1#32).getLsbD i = (decide (i ≠ 0) && x.getLsbD i) := by
  rw [BitVec.getLsbD_and, BitVec.getLsbD_not, BitVec.getLsbD_one]
  simp [hi, Bool.and_comm]

theorem trap_completes (x : BitVec 8) {s : State} {c : Clause} (opened : s.st.clause = some c) (vec : s.st.trapvec ≠ 0)
    (inactive : s.st.trapcause.getLsbD 0 = false) :
    Completes (.trap x) s fun t =>
      t.st.trapret = afterClause s c ∧ t.st.trapcause = causeWord 0x60 x.toNat
        ∧ Jumped s.st.trapvec { s with st := { s.st with
            trapret := afterClause s c, trapcause := causeWord 0x60 x.toNat } } t := by
  refine ⟨_, ?_, rfl, rfl, endClause_jumped _ false _⟩
  rw [exec_trap, userTrap_taken _ _ _ vec inactive, clauseEnd_eq_afterClause opened]

theorem tret_completes {s : State} (active : s.st.trapcause.getLsbD 0 = true) :
    Completes .tret s fun t =>
      (∀ i, i < 32 → t.st.trapcause.getLsbD i = (decide (i ≠ 0) && s.st.trapcause.getLsbD i))
        ∧ Jumped s.st.trapret { s with st := { s.st with trapcause := t.st.trapcause } } t :=
  ⟨_, (exec_tret s).trans (trapReturn_active active), fun _ => getLsbD_and_not_one _, endClause_jumped _ false _⟩

/-- Settles O18: TRAP's word decodes for every n, and a trap that is taken, a trap that is delivered and the two cases
of TRET each by the rule of R126 or R128. -/
theorem userTraps : Obligations.UserTraps := by
  unfold Obligations.UserTraps
  refine ⟨decodeOne_trapWord, fun x s c opened => ⟨trap_completes x opened, fun h => ?_⟩,
    fun s => ⟨tret_completes, fun inactive => ?_⟩⟩
  · rw [exec_trap, userTrap_delivered _ _ _ h]
  · rw [exec_tret, trapReturn_inactive inactive]

end Sys2Proof.Machine

/-! ## ALU instructions by the kind of their result -/

namespace Sys2Proof.Machine

/-- An instruction that completes as p says completes as anything weaker says. -/
theorem Completes.imp {i : Instr} {s : State} {p q : State → Prop} (h : Completes i s p) (hpq : ∀ t, p t → q t) :
    Completes i s q := by
  obtain ⟨t, runs, holds⟩ := h
  exact ⟨t, runs, hpq t holds⟩

section
variable {i : Instr} {f : Form} {s : State} {p : Option AluPre} {n : Bool} {d : BitVec 7} (hform : form i = some f)
include hform

/-- An instruction that ends with a uniform word. -/
theorem uniform_completes {x : Word} (hexec : exec i s = uniResult f n d x s) :
    Completes i s fun t => WentOn (wordCount i) s t ∧ ScalarIs n d.toNat x s t := by
  rw [wordCount_of_form hform, Completes, hexec]
  exact uniResult_spec f n d x s

/-- An instruction that ends with a uniform pair. -/
theorem uniformPair_completes {x : DWord} (hexec : exec i s = uniResult64 f n d x s) :
    Completes i s fun t => WentOn (wordCount i) s t ∧ PairIs n d.toNat x s t := by
  rw [wordCount_of_form hform, Completes, hexec]
  exact uniResult64_spec f n d x s

/-- An instruction that ends with a word for each lane. -/
theorem lanes_complete {g : Nat → Word} (hexec : exec i s = vecResult f p n d g s) :
    Completes i s fun t => WentOn (wordCount i) s t ∧ VectorIs p n d.toNat g s t := by
  rw [wordCount_of_form hform, Completes, hexec]
  exact vecResult_spec f p n d g s

/-- An instruction that ends with a pair for each lane. -/
theorem lanePairs_complete {g : Nat → DWord} (hexec : exec i s = vecResult64 f p n d g s) :
    Completes i s fun t => WentOn (wordCount i) s t ∧ VectorPairIs p n d.toNat g s t := by
  rw [wordCount_of_form hform, Completes, hexec]
  exact vecResult64_spec f p n d g s

/-- An instruction that ends with a condition for each lane. -/
theorem compares_complete {g : Nat → Bool} (hexec : exec i s = cmpResult f p n d g s) :
    Completes i s fun t => WentOn (wordCount i) s t ∧ CompareIs p n (d.toNat % 16) g s t := by
  rw [wordCount_of_form hform, Completes, hexec]
  exact cmpResult_spec f p n d g s

/-- An instruction that ends with a mask. -/
theorem mask_completes {r : BitVec 4} {x : BitVec 64} (hexec : exec i s = maskResult f n r x s) :
    Completes i s fun t => WentOn (wordCount i) s t ∧ MaskIs n r.toNat x s t := by
  rw [wordCount_of_form hform, Completes, hexec]
  exact maskResult_spec f n r x s

end

end Sys2Proof.Machine

/-! ## Scalar arithmetic, logic, comparisons and moves (R129, R131, R132) -/

namespace Sys2Proof.Machine

/-! ### What exec runs -/

theorem exec_sadd (f s) : exec (.sadd f) s = execSadd f s := rfl
theorem exec_ssub (f s) : exec (.ssub f) s = execSsub f s := rfl
theorem exec_smul (f s) : exec (.smul f) s = execSmul f s := rfl
theorem exec_smulhS (f s) : exec (.smulhS f) s = execSmulhS f s := rfl
theorem exec_smulhUi (f s) : exec (.smulhUi f) s = execSmulhUi f s := rfl
theorem exec_sand (f s) : exec (.sand f) s = execSand f s := rfl
theorem exec_sor (f s) : exec (.sor f) s = execSor f s := rfl
theorem exec_sxor (f s) : exec (.sxor f) s = execSxor f s := rfl
theorem exec_scmpEq (f s) : exec (.scmpEq f) s = execScmpEq f s := rfl
theorem exec_scmpNe (f s) : exec (.scmpNe f) s = execScmpNe f s := rfl
theorem exec_scmpLt (f s) : exec (.scmpLt f) s = execScmpLt f s := rfl
theorem exec_scmpLe (f s) : exec (.scmpLe f) s = execScmpLe f s := rfl
theorem exec_scmpLtu (f s) : exec (.scmpLtu f) s = execScmpLtu f s := rfl
theorem exec_scmpLeu (f s) : exec (.scmpLeu f) s = execScmpLeu f s := rfl
theorem exec_saddD (f s) : exec (.saddD f) s = execSaddD f s := rfl
theorem exec_ssubD (f s) : exec (.ssubD f) s = execSsubD f s := rfl
theorem exec_smulD (f s) : exec (.smulD f) s = execSmulD f s := rfl
theorem exec_scmpEqD (f s) : exec (.scmpEqD f) s = execScmpEqD f s := rfl
theorem exec_scmpNeD (f s) : exec (.scmpNeD f) s = execScmpNeD f s := rfl
theorem exec_ssel (f s) : exec (.ssel f) s = execSsel f s := rfl
theorem exec_smov (f s) : exec (.smov f) s = execSmov f s := rfl
theorem exec_smovD (f s) : exec (.smovD f) s = execSmovD f s := rfl
theorem exec_smovi (f s) : exec (.smovi f) s = execSmovi f s := rfl
theorem exec_smoviHi (f s) : exec (.smoviHi f) s = execSmoviHi f s := rfl

/-! ### Arithmetic, logic and comparisons -/

theorem truth_eq (c : Prop) [Decidable c] : truth c = if c then 1#32 else 0#32 := rfl

theorem scalarWords_complete (e : (Alu2 → Instr) × (Word → Word → Word)) (he : e ∈ scalarWords) (f : Alu2) (s : State)
    (h : NoReadError (e.1 f) s) :
    Completes (e.1 f) s fun t =>
      WentOn (wordCount (e.1 f)) s t ∧ ScalarIs f.n f.d.toNat (e.2 (s.arg f.a) (s.arg f.b)) s t := by
  simp only [scalarWords, List.mem_cons, List.not_mem_nil, or_false] at he
  obtain rfl | rfl | rfl | rfl | rfl | rfl | rfl | rfl | rfl | rfl | rfl | rfl | rfl | rfl := he
  all_goals
    refine uniform_completes rfl ?_
    simp only [exec_sadd, exec_ssub, exec_smul, exec_smulhS, exec_smulhUi, exec_sand, exec_sor, exec_sxor, exec_scmpEq,
      exec_scmpNe, exec_scmpLt, exec_scmpLe, exec_scmpLtu, exec_scmpLeu, execSadd, execSsub, execSmul, execSmulhS,
      execSmulhUi, execSand, execSor, execSxor, execScmpEq, execScmpNe, execScmpLt, execScmpLe, execScmpLtu,
      execScmpLeu,
      scalarOp, guarded_none (h _ rfl), mulHighS, mulHighU, truth_eq, BitVec.slt_iff_toInt_lt, BitVec.sle_iff_toInt_le,
      BitVec.ult_iff_toNat_lt, BitVec.ule_iff_toNat_le]

theorem scalarPairs_complete (e : (Alu2 → Instr) × (DWord → DWord → DWord)) (he : e ∈ scalarPairs) (f : Alu2)
    (s : State) (h : NoReadError (e.1 f) s) :
    Completes (e.1 f) s fun t =>
      WentOn (wordCount (e.1 f)) s t ∧ PairIs f.n f.d.toNat (e.2 (s.arg64 f.a) (s.arg64 f.b)) s t := by
  simp only [scalarPairs, List.mem_cons, List.not_mem_nil, or_false] at he
  obtain rfl | rfl | rfl := he
  all_goals
    refine uniformPair_completes rfl ?_
    simp only [exec_saddD, exec_ssubD, exec_smulD, execSaddD, execSsubD, execSmulD, scalarOp, guarded_none (h _ rfl)]

/-- Settles O1: each instruction ends with a uniform result, and its value is the one of the manual's table. -/
theorem scalarArithmetic : Obligations.ScalarArithmetic := by
  unfold Obligations.ScalarArithmetic
  refine ⟨scalarWords_complete, scalarPairs_complete, fun f s => ⟨fun h => uniform_completes rfl ?_,
    fun h => uniform_completes rfl ?_⟩⟩
  · rw [exec_scmpEqD, execScmpEqD, scalarOp, guarded_none (h _ rfl), truth_eq]
  · rw [exec_scmpNeD, execScmpNeD, scalarOp, guarded_none (h _ rfl), truth_eq]

/-! ### Moves -/

/-- SMOVI.hi puts its immediate above the low half of the old word (R132). -/
theorem append_low_half (imm : BitVec 16) (x : Word) :
    (imm ++ (x.setWidth 16 : BitVec 16) : BitVec 32) = BitVec.ofNat 32 (imm.toNat * 65536 + x.toNat % 65536) := by
  apply BitVec.eq_of_toNat_eq
  have himm := imm.isLt
  rw [BitVec.toNat_append, BitVec.toNat_setWidth, BitVec.toNat_ofNat,
    ← Nat.shiftLeft_add_eq_or_of_lt (Nat.mod_lt _ (by decide)), Nat.shiftLeft_eq]
  omega

/-- Settles O3: each move ends with a uniform result. -/
theorem scalarMoves : Obligations.ScalarMoves := by
  unfold Obligations.ScalarMoves
  refine ⟨fun f s h => uniform_completes rfl ?_, fun f s h => uniform_completes rfl ?_,
    fun f s h => uniformPair_completes rfl ?_, fun f s => uniform_completes (f := .imm 0x3C f) rfl ?_,
    fun f s h => uniform_completes rfl ?_⟩
  · rw [exec_ssel, execSsel, scalarOp, guarded_none (h _ rfl)]
  · rw [exec_smov, execSmov, guarded_none (h _ rfl)]
  · rw [exec_smovD, execSmovD, guarded_none (h _ rfl)]
  · exact exec_smovi f s
  · rw [exec_smoviHi, execSmoviHi, guarded_none (h _ rfl), append_low_half]

end Sys2Proof.Machine

/-! ## Lane-wise instructions (R135 to R143, R152) -/

namespace Sys2Proof.Machine

/-! ### What exec runs -/

theorem exec_vadd (f s) : exec (.vadd f) s = execVadd f s := rfl
theorem exec_vsub (f s) : exec (.vsub f) s = execVsub f s := rfl
theorem exec_vmul (f s) : exec (.vmul f) s = execVmul f s := rfl
theorem exec_vmulhS (f s) : exec (.vmulhS f) s = execVmulhS f s := rfl
theorem exec_vmulhUi (f s) : exec (.vmulhUi f) s = execVmulhUi f s := rfl
theorem exec_vmad (f s) : exec (.vmad f) s = execVmad f s := rfl
theorem exec_vdot4S8 (f s) : exec (.vdot4S8 f) s = execVdot4S8 f s := rfl
theorem exec_vdot4Ui8 (f s) : exec (.vdot4Ui8 f) s = execVdot4Ui8 f s := rfl
theorem exec_vdot4Mix (f s) : exec (.vdot4Mix f) s = execVdot4Mix f s := rfl
theorem exec_vand (f s) : exec (.vand f) s = execVand f s := rfl
theorem exec_vor (f s) : exec (.vor f) s = execVor f s := rfl
theorem exec_vxor (f s) : exec (.vxor f) s = execVxor f s := rfl
theorem exec_vshl (f s) : exec (.vshl f) s = execVshl f s := rfl
theorem exec_vshr (f s) : exec (.vshr f) s = execVshr f s := rfl
theorem exec_vsra (f s) : exec (.vsra f) s = execVsra f s := rfl
theorem exec_vminS (f s) : exec (.vminS f) s = execVminS f s := rfl
theorem exec_vminUi (f s) : exec (.vminUi f) s = execVminUi f s := rfl
theorem exec_vmaxS (f s) : exec (.vmaxS f) s = execVmaxS f s := rfl
theorem exec_vmaxUi (f s) : exec (.vmaxUi f) s = execVmaxUi f s := rfl
theorem exec_vsel (f s) : exec (.vsel f) s = execVsel f s := rfl
theorem exec_vbfeS (f s) : exec (.vbfeS f) s = execVbfeS f s := rfl
theorem exec_vbfeUi (f s) : exec (.vbfeUi f) s = execVbfeUi f s := rfl
theorem exec_vaddD (f s) : exec (.vaddD f) s = execVaddD f s := rfl
theorem exec_vsubD (f s) : exec (.vsubD f) s = execVsubD f s := rfl
theorem exec_vshlD (f s) : exec (.vshlD f) s = execVshlD f s := rfl
theorem exec_vshrD (f s) : exec (.vshrD f) s = execVshrD f s := rfl
theorem exec_vsraD (f s) : exec (.vsraD f) s = execVsraD f s := rfl
theorem exec_vabs (f s) : exec (.vabs f) s = execVabs f s := rfl
theorem exec_vpopc (f s) : exec (.vpopc f) s = execVpopc f s := rfl
theorem exec_vclz (f s) : exec (.vclz f) s = execVclz f s := rfl
theorem exec_vfrcp (f s) : exec (.vfrcp f) s = execVfrcp f s := rfl
theorem exec_vfrsq (f s) : exec (.vfrsq f) s = execVfrsq f s := rfl
theorem exec_vexp2 (f s) : exec (.vexp2 f) s = execVexp2 f s := rfl
theorem exec_vlog2 (f s) : exec (.vlog2 f) s = execVlog2 f s := rfl
theorem exec_vfsin (f s) : exec (.vfsin f) s = execVfsin f s := rfl
theorem exec_vfcos (f s) : exec (.vfcos f) s = execVfcos f s := rfl
theorem exec_vfadd (f s) : exec (.vfadd f) s = execVfadd f s := rfl
theorem exec_vfsub (f s) : exec (.vfsub f) s = execVfsub f s := rfl
theorem exec_vfmul (f s) : exec (.vfmul f) s = execVfmul f s := rfl
theorem exec_vfma (f s) : exec (.vfma f) s = execVfma f s := rfl
theorem exec_vhfmaBf16 (f s) : exec (.vhfmaBf16 f) s = execVhfmaBf16 f s := rfl
theorem exec_vhfmaF16 (f s) : exec (.vhfmaF16 f) s = execVhfmaF16 f s := rfl
theorem exec_vfmin (f s) : exec (.vfmin f) s = execVfmin f s := rfl
theorem exec_vfmax (f s) : exec (.vfmax f) s = execVfmax f s := rfl
theorem exec_vfcvt (f s) : exec (.vfcvt f) s = execVfcvt f s := rfl
theorem exec_expr (f s) : exec (.expr f) s = execExpr f s := rfl
theorem exec_vcmpS32 (f s) : exec (.vcmpS32 f) s = execVcmpS32 f s := rfl
theorem exec_vcmpUi32 (f s) : exec (.vcmpUi32 f) s = execVcmpUi32 f s := rfl
theorem exec_vcmpS64 (f s) : exec (.vcmpS64 f) s = execVcmpS64 f s := rfl
theorem exec_vcmpUi64 (f s) : exec (.vcmpUi64 f) s = execVcmpUi64 f s := rfl
theorem exec_vfcmp (f s) : exec (.vfcmp f) s = execVfcmp f s := rfl

/-! ### The values of the manual's tables -/

/-- Two comparisons clamp a value to the range of a signed format (R83). -/
theorem satS_eq_clamped (w : Nat) (x : Int) :
    satS w x = BitVec.ofInt w (max (-(2 ^ (w - 1))) (min x (2 ^ (w - 1) - 1))) := by
  have pos : (0 : Int) < 2 ^ (w - 1) := by positivity
  simp only [satS]
  congr 1
  split
  · omega
  · split <;> omega

/-- Two comparisons clamp a value to the range of an unsigned word (R83). -/
theorem satU_eq_clamped (x : Int) : satU 32 x = BitVec.ofInt 32 (max 0 (min x (2 ^ 32 - 1))) := by
  simp only [satU]
  congr 1
  split
  · omega
  · split <;> omega

theorem addSat_eq_narrowS {w : Nat} (p : Option AluPre) (x y : BitVec w) :
    addSat (satOf p) x y = narrowS w p (x.toInt + y.toInt) := by
  simp only [addSat, narrowS, satS_eq_clamped, BitVec.ofInt_add, BitVec.ofInt_toInt]

theorem subSat_eq_narrowS {w : Nat} (p : Option AluPre) (x y : BitVec w) :
    subSat (satOf p) x y = narrowS w p (x.toInt - y.toInt) := by
  simp only [subSat, narrowS, satS_eq_clamped, sub_eq_add_neg x.toInt, BitVec.ofInt_add, BitVec.ofInt_neg,
    BitVec.ofInt_toInt, BitVec.sub_eq_add_neg]

theorem madSat_eq_narrowS (p : Option AluPre) (x y z : Word) :
    madSat (satOf p) x y z = narrowS 32 p (x.toInt * y.toInt + z.toInt) := by
  simp only [madSat, narrowS, satS_eq_clamped, BitVec.ofInt_add, BitVec.ofInt_mul, BitVec.ofInt_toInt]

/-- A dot product whose first operand is signed saturates to a signed word (R137). -/
theorem dot4_signed (sb : Bool) (p : Option AluPre) (x y z : Word) :
    dot4 true sb (satOf p) x y z = narrowS 32 p (z.toInt + dotSum sbyte (if sb then sbyte else ubyte) x y) := by
  have sum : [0, 1, 2, 3].foldl (fun acc e => acc + sbyte (byteOf x e) * (if sb then sbyte else ubyte) (byteOf y e)) z.toInt
      = z.toInt + dotSum sbyte (if sb then sbyte else ubyte) x y := by
    simp only [List.foldl_cons, List.foldl_nil, dotSum]
    ring
  rw [← sum]
  cases sb <;> simp only [dot4, narrowS, satS_eq_clamped, sbyte, ubyte, if_true, Bool.false_eq_true, if_false]

/-- A dot product of unsigned bytes saturates to an unsigned word (R137). -/
theorem dot4_unsigned (p : Option AluPre) (x y z : Word) :
    dot4 false false (satOf p) x y z = narrowU p (z.toNat + dotSum ubyte ubyte x y) := by
  have sum : [0, 1, 2, 3].foldl (fun acc e => acc + ubyte (byteOf x e) * ubyte (byteOf y e)) (z.toNat : Int)
      = z.toNat + dotSum ubyte ubyte x y := by
    simp only [List.foldl_cons, List.foldl_nil, dotSum]
    ring
  rw [← sum]
  simp only [dot4, narrowU, satU_eq_clamped, ubyte, Bool.false_eq_true, if_false]

/-- The sign decides whether VABS negates (R135). -/
theorem absWord_eq_natAbs (x : Word) : absWord x = BitVec.ofNat 32 x.toInt.natAbs := by
  have signed := BitVec.toInt_eq_msb_cond x
  have bound := x.isLt
  apply BitVec.eq_of_toNat_eq
  unfold absWord
  split
  case isTrue neg =>
    rw [if_pos neg] at signed
    rw [BitVec.toNat_sub, BitVec.toNat_ofNat, signed]
    simp only [BitVec.ofNat_eq_ofNat, BitVec.toNat_ofNat]
    omega
  case isFalse notNeg =>
    rw [if_neg notNeg] at signed
    rw [BitVec.toNat_ofNat, signed]
    omega

/-- The conditions of VCMP on signed operands compare the numbers that they stand for (R138). -/
theorem intCond_signed {w : Nat} (c : Nat) (x y : BitVec w) : intCond c true x y = orderCond c x.toInt y.toInt := by
  have eq : x = y ↔ x.toInt = y.toInt := BitVec.toInt_inj.symm
  match c with
  | 0 => simp [intCond, orderCond, eq]
  | 1 => simp [intCond, orderCond, eq]
  | 2 => simp [intCond, orderCond, BitVec.slt_eq_decide]
  | 3 => simp [intCond, orderCond, BitVec.slt_eq_decide, ← decide_not]
  | 4 => simp [intCond, orderCond, BitVec.slt_eq_decide]
  | _ + 5 => simp [intCond, orderCond, BitVec.slt_eq_decide, ← decide_not]

/-- The conditions of VCMP on unsigned operands compare the numbers that they stand for (R138). -/
theorem intCond_unsigned {w : Nat} (c : Nat) (x y : BitVec w) : intCond c false x y = orderCond c x.toNat y.toNat := by
  have eq : x = y ↔ x.toNat = y.toNat := BitVec.toNat_inj.symm
  match c with
  | 0 => simp [intCond, orderCond, eq]
  | 1 => simp [intCond, orderCond, eq]
  | 2 => simp [intCond, orderCond, BitVec.ult_eq_decide]
  | 3 => simp [intCond, orderCond, BitVec.ult_eq_decide, ← decide_not]
  | 4 => simp [intCond, orderCond, BitVec.ult_eq_decide]
  | _ + 5 => simp [intCond, orderCond, BitVec.ult_eq_decide, ← decide_not]

/-! ### Integer instructions (R135 to R137, R139) -/

theorem vectorWords_complete (e : (Alu2 → Instr) × (Option AluPre → Word → Word → Word → Word)) (he : e ∈ vectorWords)
    (f : Alu2) (s : State) (h : NoReadError (e.1 f) s) :
    Completes (e.1 f) s fun t =>
      WentOn (wordCount (e.1 f)) s t
        ∧ VectorIs f.pre f.n f.d.toNat (fun i =>
            e.2 f.pre (opnd32 .int s i f.a) (opnd32 .int s i f.b) (opnd32 .int s i (fourthOf f.pre))) s t := by
  simp only [vectorWords, List.mem_cons, List.not_mem_nil, or_false] at he
  obtain rfl | rfl | rfl | rfl | rfl | rfl | rfl | rfl | rfl | rfl | rfl
    | rfl | rfl | rfl | rfl | rfl | rfl | rfl | rfl | rfl | rfl | rfl := he
  all_goals
    refine lanes_complete rfl ?_
    simp only [exec_vadd, exec_vsub, exec_vmul, exec_vmulhS, exec_vmulhUi, exec_vmad, exec_vdot4S8, exec_vdot4Ui8,
      exec_vdot4Mix, exec_vand, exec_vor, exec_vxor, exec_vshl, exec_vshr, exec_vsra, exec_vminS, exec_vminUi,
      exec_vmaxS, exec_vmaxUi, exec_vsel, exec_vbfeS, exec_vbfeUi, execVadd, execVsub, execVmul, execVmulhS,
      execVmulhUi, execVmad, execVdot4S8, execVdot4Ui8, execVdot4Mix, execVand, execVor, execVxor, execVshl, execVshr,
      execVsra, execVminS, execVminUi, execVmaxS, execVmaxUi, execVsel, execVbfeS, execVbfeUi,
      guarded_none (h _ rfl), mulHighS, mulHighU, addSat_eq_narrowS, subSat_eq_narrowS, madSat_eq_narrowS, dot4_signed,
      dot4_unsigned, shiftLeft_eq_shl, shiftRight_eq_shr, shiftArith_eq_sra, BitVec.sle_iff_toInt_le,
      BitVec.ule_iff_toNat_le, if_true, Bool.false_eq_true, if_false]

theorem vectorPairs_complete (e : (Alu2 → Instr) × (Option AluPre → DWord → DWord → DWord)) (he : e ∈ vectorPairs)
    (f : Alu2) (s : State) (h : NoReadError (e.1 f) s) :
    Completes (e.1 f) s fun t =>
      WentOn (wordCount (e.1 f)) s t
        ∧ VectorPairIs f.pre f.n f.d.toNat (fun i => e.2 f.pre (opnd64 s i f.a) (opnd64 s i f.b)) s t := by
  simp only [vectorPairs, List.mem_cons, List.not_mem_nil, or_false] at he
  obtain rfl | rfl := he
  · refine lanePairs_complete rfl ?_
    simp only [exec_vaddD, execVaddD, guarded_none (h _ rfl), addSat_eq_narrowS]
  · refine lanePairs_complete rfl ?_
    simp only [exec_vsubD, execVsubD, guarded_none (h _ rfl), subSat_eq_narrowS]

theorem vectorPairShifts_complete (e : (Alu2 → Instr) × (DWord → Word → DWord)) (he : e ∈ vectorPairShifts) (f : Alu2)
    (s : State) (h : NoReadError (e.1 f) s) :
    Completes (e.1 f) s fun t =>
      WentOn (wordCount (e.1 f)) s t
        ∧ VectorPairIs f.pre f.n f.d.toNat (fun i => e.2 (opnd64 s i f.a) (opnd32 .int s i f.b)) s t := by
  simp only [vectorPairShifts, List.mem_cons, List.not_mem_nil, or_false] at he
  obtain rfl | rfl | rfl := he
  all_goals
    refine lanePairs_complete rfl ?_
    simp only [exec_vshlD, exec_vshrD, exec_vsraD, execVshlD, execVshrD, execVsraD, guarded_none (h _ rfl), shiftLeft_eq_shl,
      shiftRight_eq_shr, shiftArith_eq_sra]

/-- Settles O5: each instruction ends with a lane-wise result, and its value is the one of the manual's table. -/
theorem vectorIntegers : Obligations.VectorIntegers := by
  unfold Obligations.VectorIntegers
  exact ⟨vectorWords_complete, vectorPairs_complete, vectorPairShifts_complete⟩

/-! ### Functions of one operand, floating point, VFCVT and EXPR (R135, R140 to R143, R152) -/

theorem vectorUnaries_complete (e : (Alu1 → Instr) × Pos × (Option AluPre → Word → Word)) (he : e ∈ vectorUnaries)
    (f : Alu1) (s : State) (h : NoReadError (e.1 f) s) :
    Completes (e.1 f) s fun t =>
      WentOn (wordCount (e.1 f)) s t
        ∧ VectorIs f.pre f.n f.d.toNat (fun i => e.2.2 f.pre (opnd32 e.2.1 s i f.a)) s t := by
  simp only [vectorUnaries, List.mem_cons, List.not_mem_nil, or_false] at he
  obtain rfl | rfl | rfl | rfl | rfl | rfl | rfl | rfl | rfl := he
  all_goals
    refine lanes_complete rfl ?_
    simp only [exec_vabs, exec_vpopc, exec_vclz, exec_vfrcp, exec_vfrsq, exec_vexp2, exec_vlog2, exec_vfsin, exec_vfcos,
      execVabs, execVpopc, execVclz, execVfrcp, execVfrsq, execVexp2, execVlog2, execVfsin, execVfcos,
      guarded_none (h _ rfl), absWord_eq_natAbs]

theorem vectorFloats_complete (e : (Alu2 → Instr) × Pos × (Option AluPre → Word → Word → Word → Word))
    (he : e ∈ vectorFloats) (f : Alu2) (s : State) (h : NoReadError (e.1 f) s) :
    Completes (e.1 f) s fun t =>
      WentOn (wordCount (e.1 f)) s t
        ∧ VectorIs f.pre f.n f.d.toNat (fun i =>
            e.2.2 f.pre (opnd32 e.2.1 s i f.a) (opnd32 e.2.1 s i f.b) (opnd32 e.2.1 s i (fourthOf f.pre))) s t := by
  simp only [vectorFloats, List.mem_cons, List.not_mem_nil, or_false] at he
  obtain rfl | rfl | rfl | rfl | rfl | rfl | rfl | rfl := he
  all_goals
    refine lanes_complete rfl ?_
    simp only [exec_vfadd, exec_vfsub, exec_vfmul, exec_vfma, exec_vhfmaBf16, exec_vhfmaF16, exec_vfmin, exec_vfmax, execVfadd,
      execVfsub, execVfmul, execVfma, execVhfmaBf16, execVhfmaF16, execVfmin, execVfmax,
      guarded_none (h _ rfl), packedFma]

/-- Settles O6: each instruction ends with a lane-wise result of its function. -/
theorem vectorFunctions : Obligations.VectorFunctions := by
  unfold Obligations.VectorFunctions
  refine ⟨vectorUnaries_complete, ⟨vectorFloats_complete, fun f s h => lanes_complete rfl ?_⟩,
    fun f s h => lanes_complete rfl ?_⟩
  · rw [exec_vfcvt, execVfcvt, guarded_none (h _ rfl)]
  · rw [exec_expr, execExpr, guarded_none (h _ rfl)]

/-! ### Comparisons (R138, R140) -/

theorem vectorCompares_complete (e : (Alu2 → Instr) × (State → Alu2 → Nat → Bool)) (he : e ∈ vectorCompares) (f : Alu2)
    (s : State) (h : NoReadError (e.1 f) s) :
    Completes (e.1 f) s fun t =>
      WentOn (wordCount (e.1 f)) s t ∧ CompareIs f.pre f.n (f.d.toNat % 16) (e.2 s f) s t := by
  simp only [vectorCompares, List.mem_cons, List.not_mem_nil, or_false] at he
  obtain rfl | rfl | rfl | rfl | rfl := he
  all_goals
    refine compares_complete rfl ?_
    simp only [exec_vcmpS32, exec_vcmpUi32, exec_vcmpS64, exec_vcmpUi64, exec_vfcmp, execVcmpS32, execVcmpUi32, execVcmpS64,
      execVcmpUi64, execVfcmp, guarded_none (h _ rfl), intCond_signed, intCond_unsigned]

end Sys2Proof.Machine

namespace Sys2Proof

/-- Settles O7: each comparison ends with a condition for each lane, and it is the one that the manual gives. -/
theorem vectorCompares : Obligations.VectorCompares := by
  unfold Obligations.VectorCompares
  exact Machine.vectorCompares_complete

end Sys2Proof

/-! ## Special registers (R25, R26, R133, R134) -/

namespace Sys2Proof.Machine

theorem exec_sget (f s) : exec (.sget f) s = execSget f s := rfl
theorem exec_sset (f s) : exec (.sset f) s = execSset f s := rfl

/-- The words of 32 bits that make up the accepted features (R25). -/
theorem ofNat_field_eq_shiftRight (x : BitVec 256) (k : Nat) :
    (BitVec.ofNat 64 (field x k 32)).setWidth 32 = ((x >>> k).setWidth 64 : DWord).setWidth 32 := by
  apply BitVec.eq_of_toNat_eq
  simp only [field, BitVec.toNat_setWidth, BitVec.toNat_ofNat, BitVec.toNat_ushiftRight, Nat.shiftRight_eq_div_pow]
  omega

theorem special_eq_low (e : BitVec 8 × Bool × (State → DWord)) (he : e ∈ specialLow) (s : State) :
    specialWide e.1 = e.2.1 ∧ special s e.1.toNat = e.2.2 s := by
  simp only [specialLow, List.mem_cons, List.not_mem_nil, or_false] at he
  obtain rfl | rfl | rfl | rfl | rfl | rfl | rfl | rfl | rfl | rfl | rfl | rfl | rfl | rfl | rfl | rfl | rfl | rfl | rfl | rfl := he
  all_goals exact ⟨by decide, rfl⟩

/-- Of a feature word the table keeps more than the 32 bits that SGET writes. -/
theorem special_eq_high (e : BitVec 8 × Bool × (State → DWord)) (he : e ∈ specialHigh) (s : State) :
    specialWide e.1 = e.2.1 ∧ (e.2.1 = true → special s e.1.toNat = e.2.2 s)
      ∧ (special s e.1.toNat).setWidth 32 = (e.2.2 s).setWidth 32 := by
  simp only [specialHigh, List.mem_cons, List.not_mem_nil, or_false] at he
  obtain rfl | rfl | rfl | rfl | rfl | rfl | rfl | rfl | rfl | rfl | rfl | rfl | rfl | rfl := he
  iterate 8
    · exact ⟨by decide, nofun, ofNat_field_eq_shiftRight _ _⟩
  iterate 5
    · exact ⟨by decide, fun _ => rfl, rfl⟩
  · have mask : special s 0x2D = if s.st.trapmask then 1 else 0 := apply_ite (BitVec.ofNat 64) _ _ _
    exact ⟨by decide, nofun, congrArg (BitVec.setWidth 32) mask⟩

/-- The value that the model gives a special register is the table's, in the bits that SGET writes. -/
theorem special_eq_table (e : BitVec 8 × Bool × (State → DWord)) (he : e ∈ specialRegisters) (s : State) :
    specialWide e.1 = e.2.1 ∧ (e.2.1 = true → special s e.1.toNat = e.2.2 s)
      ∧ (special s e.1.toNat).setWidth 32 = (e.2.2 s).setWidth 32 := by
  rcases List.mem_append.1 he with low | high
  · obtain ⟨wide, value⟩ := special_eq_low e low s
    exact ⟨wide, fun _ => value, congrArg _ value⟩
  · exact special_eq_high e high s

theorem sget_completes (e : BitVec 8 × Bool × (State → DWord)) (he : e ∈ specialRegisters) (f : AluSget) (s : State)
    (hx : f.x = e.1) :
    Completes (.sget f) s fun t =>
      WentOn (wordCount (.sget f)) s t
        ∧ (if e.2.1 then PairIs f.n f.d.toNat (e.2.2 s) s t
           else ScalarIs f.n f.d.toNat ((e.2.2 s).setWidth 32) s t) := by
  obtain ⟨wide, pair, word⟩ := special_eq_table e he s
  rw [← hx] at wide pair word
  cases hw : e.2.1 with
  | true =>
    simp only [if_true]
    refine uniformPair_completes (f := .sget f) rfl ?_
    rw [exec_sget, execSget, if_pos (wide.trans hw), pair hw]
  | false =>
    simp only [Bool.false_eq_true, if_false]
    refine uniform_completes (f := .sget f) rfl ?_
    rw [exec_sget, execSget, if_neg (by simp [wide, hw]), word]

/-! ### Which indices decode -/

theorem specialAssigned_mem : ∀ x : BitVec 8, specialAssigned x = true → x ∈ specialRegisters.map (·.1) := by
  simp only [specialRegisters, specialLow, specialHigh, List.cons_append, List.nil_append, List.map_cons, List.map_nil]
  decide

/-- The operand checks of a well-formed instruction. -/
theorem operandsOk_of_wellFormed {c : DecCtx} {i : Instr} {f : Form} {row : Row} (h : wellFormed c i = true)
    (hform : form i = some f) (hrow : rowOf f.op = some row) : operandsOk c row f = true := by
  simp only [wellFormed, hform, hrow, Bool.and_eq_true] at h
  exact h.2

theorem sget_index_assigned (c : DecCtx) (f : AluSget) (h : wellFormed c (.sget f) = true) :
    f.x ∈ specialRegisters.map (·.1) := by
  have checks := operandsOk_of_wellFormed h rfl (by rfl)
  simp only [operandsOk, Bool.and_eq_true] at checks
  exact specialAssigned_mem f.x checks.1

theorem sset_index_writable (c : DecCtx) (f : AluX) (h : wellFormed c (.sset f) = true) :
    f.x ∈ ([0x11, 0x13, 0x28, 0x2D] : List (BitVec 8)) := by
  have checks := operandsOk_of_wellFormed h rfl (by rfl)
  simp only [operandsOk, if_true, Bool.and_eq_true] at checks
  simpa [specialWritable, or_assoc] using checks.1.2

/-! ### SSET (R134) -/

/-- The strand whose special register SSET writes. -/
def ssetStrand (f : AluX) (s : State) : Strand :=
  if f.x = 0x11 then { s.st with trapvec := s.arg64 f.a }
  else if f.x = 0x28 then { s.st with trapret := s.arg64 f.a }
  else if f.x = 0x13 then { s.st with cqsel := (s.arg f.a).setWidth 8 }
  else { s.st with trapmask := (s.arg f.a).getLsbD 0 }

theorem ssetStrand_place (f : AluX) (s : State) :
    (ssetStrand f s).pc = s.st.pc ∧ (ssetStrand f s).clause = s.st.clause := by
  unfold ssetStrand
  split_ifs <;> exact ⟨rfl, rfl⟩

theorem sset_completes (f : AluX) (s : State) (h : NoReadError (.sset f) s) :
    Completes (.sset f) s fun t =>
      WentOn (wordCount (.sset f)) s t ∧ LatchIs (.uni64 0) t ∧ OnlyMoved { s with st := ssetStrand f s } t := by
  rw [wordCount_of_form (by rfl : form (.sset f) = some (.aluX 0x3F f)), Completes, exec_sset, execSset,
    guarded_none (h _ rfl)]
  obtain ⟨samePc, sameClause⟩ := ssetStrand_place f s
  exact finish_spec (.aluX 0x3F f) (.uni64 0) (s := s) (u := { s with st := ssetStrand f s }) samePc sameClause

end Sys2Proof.Machine

namespace Sys2Proof

open Machine

/-- Settles O4: SGET ends with the value of the table, SSET with one field of the strand changed, and an index that a
chapter does not assign fails the operand checks. -/
theorem specialRegisters : Obligations.SpecialRegisters := by
  unfold Obligations.SpecialRegisters
  refine ⟨⟨sget_completes, sget_index_assigned⟩, fun f s h => ?_, sset_index_writable⟩
  refine (sset_completes f s h).imp fun t ⟨went, latch, moved⟩ => ⟨went, latch, ?_⟩
  unfold ssetStrand at moved
  refine ⟨fun hx => ?_, fun hx => ?_, fun hx => ?_, fun hx => ?_⟩
  all_goals simpa [hx] using moved

end Sys2Proof

/-! ## Across lanes: shuffles, VRED and VSCAN (R106, R107, R144 to R149) -/

namespace Sys2Proof.Machine

theorem exec_vshufXor (f s) : exec (.vshufXor f) s = execVshufXor f s := rfl
theorem exec_vshufUp (f s) : exec (.vshufUp f) s = execVshufUp f s := rfl
theorem exec_vshufDown (f s) : exec (.vshufDown f) s = execVshufDown f s := rfl
theorem exec_vshufIdx (f s) : exec (.vshufIdx f) s = execVshufIdx f s := rfl
theorem exec_vbcast (f s) : exec (.vbcast f) s = execVbcast f s := rfl
theorem exec_vred (f s) : exec (.vred f) s = execVred f s := rfl
theorem exec_vscanIncl (f s) : exec (.vscanIncl f) s = execVscanIncl f s := rfl
theorem exec_vscanExcl (f s) : exec (.vscanExcl f) s = execVscanExcl f s := rfl

/-! ### Shuffles and the broadcast -/

theorem laneOrZero_eq_fromLane : laneOrZero = fromLane := rfl

theorem shuffles_complete (e : (Alu2 → Instr) × (State → Alu2 → Nat → Word)) (he : e ∈ shuffles) (f : Alu2) (s : State)
    (h : NoReadError (e.1 f) s) :
    Completes (e.1 f) s fun t => WentOn (wordCount (e.1 f)) s t ∧ VectorIs f.pre f.n f.d.toNat (e.2 s f) s t := by
  simp only [shuffles, List.mem_cons, List.not_mem_nil, or_false] at he
  obtain rfl | rfl | rfl | rfl | rfl := he
  all_goals refine lanes_complete rfl ?_
  · rw [exec_vshufXor, execVshufXor, shuffle, guarded_none (h _ rfl)]
    rfl
  · rw [exec_vshufUp, execVshufUp, shuffle, guarded_none (h _ rfl)]
    congr 1
    funext i
    by_cases inRange : (opnd32 .int s i f.b).toNat ≤ i <;> simp [shuffleFrom, inRange, laneOrZero_eq_fromLane]
  · rw [exec_vshufDown, execVshufDown, shuffle, guarded_none (h _ rfl)]
    congr 1
    funext i
    by_cases inRange : i + (opnd32 .int s i f.b).toNat < 64 <;> simp [shuffleFrom, inRange, laneOrZero_eq_fromLane]
  · rw [exec_vshufIdx, execVshufIdx, shuffle, guarded_none (h _ rfl)]
    rfl
  · rw [exec_vbcast, execVbcast, guarded_none (h _ rfl)]
    rfl

/-! ### VRED and VSCAN -/

/-- What VRED combines. -/
def reduced (s : State) (f : AluX) : DWord :=
  (treeNode (redOp f.x.toNat (rmOf f.pre) (ftzOf f.pre)) (redLeaves s f) 6 0).getD (redEmpty f.x.toNat)

/-- VRED's operation acts on pairs where its code as a number says so. -/
theorem toNat_eq_add_d (x : BitVec 8) : x.toNat = 0x0B ↔ x = 0x0B := by
  rw [← BitVec.toNat_inj]
  rfl

theorem vred_completes (f : AluX) (s : State) (h : NoReadError (.vred f) s) :
    Completes (.vred f) s fun t =>
      WentOn (wordCount (.vred f)) s t
        ∧ (if f.x = 0x0B then PairIs f.n f.d.toNat (reduced s f) s t
           else ScalarIs f.n f.d.toNat ((reduced s f).setWidth 32) s t) := by
  have runs : exec (.vred f) s = if f.x = 0x0B then uniResult64 (.aluX 0x77 f) f.n f.d (reduced s f) s
      else uniResult (.aluX 0x77 f) f.n f.d ((reduced s f).setWidth 32) s := by
    simp only [exec_vred, execVred, guarded_none (h _ rfl), toNat_eq_add_d]
    rfl
  split_ifs at runs ⊢
  · exact uniformPair_completes rfl runs
  · exact uniform_completes rfl runs

theorem vscans_complete (e : (AluX → Instr) × Nat)
    (he : e ∈ ([(.vscanIncl, 1), (.vscanExcl, 0)] : List ((AluX → Instr) × Nat))) (f : AluX) (s : State)
    (h : NoReadError (e.1 f) s) :
    Completes (e.1 f) s fun t =>
      WentOn (wordCount (e.1 f)) s t
        ∧ (if f.x = 0x0B then VectorPairIs f.pre f.n f.d.toNat (fun i => scanOf s f (i + e.2)) s t
           else VectorIs f.pre f.n f.d.toNat (fun i => (scanOf s f (i + e.2)).setWidth 32) s t) := by
  simp only [List.mem_cons, List.not_mem_nil, or_false] at he
  obtain rfl | rfl := he
  all_goals split_ifs with wide
  · exact lanePairs_complete rfl (by rw [exec_vscanIncl, execVscanIncl, scan, guarded_none (h _ rfl), if_pos wide])
  · exact lanes_complete rfl (by rw [exec_vscanIncl, execVscanIncl, scan, guarded_none (h _ rfl), if_neg wide])
  · exact lanePairs_complete rfl (by rw [exec_vscanExcl, execVscanExcl, scan, guarded_none (h _ rfl), if_pos wide])
  · exact lanes_complete rfl (by rw [exec_vscanExcl, execVscanExcl, scan, guarded_none (h _ rfl), if_neg wide])

/-- Settles O8: shuffles end with a lane-wise result, VRED with a uniform one, VSCAN with one of the width that its
operation has. -/
theorem crossLane : Obligations.CrossLane := by
  unfold Obligations.CrossLane
  exact ⟨shuffles_complete, vred_completes, vscans_complete⟩

/-! ### Trees of an associative operation are folds (R106, R107) -/

/-- The plain combination of a list, its first element first. -/
def plainCombination {α : Type} (op : α → α → α) : List α → Option α
  | [] => none
  | a :: t => some (t.foldl op a)

section
variable {α : Type} {op : α → α → α} (assoc : ∀ a b c, op (op a b) c = op a (op b c))
include assoc

theorem foldl_op_left (a : α) : ∀ (l : List α) (b : α), l.foldl op (op a b) = op a (l.foldl op b)
  | [], _ => rfl
  | c :: t, b => by rw [List.foldl_cons, List.foldl_cons, assoc, foldl_op_left a t]

theorem plainCombination_append (l m : List α) : plainCombination op (l ++ m) = orAbsent op (plainCombination op l) (plainCombination op m) := by
  cases l with
  | nil => rfl
  | cons a t =>
    cases m with
    | nil => rw [List.append_nil]; rfl
    | cons b u =>
      simp only [plainCombination, orAbsent, List.cons_append, List.foldl_append, List.foldl_cons]
      rw [foldl_op_left assoc]

/-- A node of the tree combines the leaves below it, the lowest lane first. -/
theorem treeNode_eq_plainCombination (leaf : Nat → Option α) :
    ∀ j i, treeNode op leaf j i = plainCombination op ((List.range' (i * 2 ^ j) (2 ^ j)).filterMap leaf)
  | 0, i => by
    cases h : leaf i <;> simp [treeNode, plainCombination, h]
  | j + 1, i => by
    have halves : List.range' (i * 2 ^ (j + 1)) (2 ^ (j + 1))
        = List.range' (2 * i * 2 ^ j) (2 ^ j) ++ List.range' ((2 * i + 1) * 2 ^ j) (2 ^ j) := by
      rw [pow_succ, mul_two, show i * (2 ^ j + 2 ^ j) = 2 * i * 2 ^ j by ring,
        show (2 * i + 1) * 2 ^ j = 2 * i * 2 ^ j + 1 * 2 ^ j by ring, ← List.range'_append, one_mul]
    rw [treeNode, treeNode_eq_plainCombination leaf j, treeNode_eq_plainCombination leaf j, halves, List.filterMap_append,
      plainCombination_append assoc]

/-- A scan's value over n lanes combines its lanes, the lowest first: c lanes are combined already, and the blocks that are
still to come make up what n is beyond them. -/
theorem scanFrom_eq_plainCombination (leaf : Nat → Option α) (n : Nat) :
    ∀ j c, n = c + n % 2 ^ j → 2 ^ j ∣ c →
      scanFrom op leaf n j c (plainCombination op ((List.range c).filterMap leaf)) = plainCombination op ((List.range n).filterMap leaf)
  | 0, c, hn, _ => by
    rw [pow_zero, Nat.mod_one, add_zero] at hn
    rw [scanFrom, hn]
  | j + 1, c, hn, hc => by
    have split := Nat.mod_pow_succ (x := n) (b := 2) (k := j)
    have even : 2 ^ j ∣ c := dvd_trans (pow_dvd_pow 2 (Nat.le_succ j)) hc
    rw [scanFrom]
    split
    case isTrue odd =>
      rw [odd, mul_one] at split
      have block : plainCombination op ((List.range (c + 2 ^ j)).filterMap leaf) = orAbsent op
          (plainCombination op ((List.range c).filterMap leaf)) (treeNode op leaf j (c / 2 ^ j)) := by
        rw [treeNode_eq_plainCombination assoc, Nat.div_mul_cancel even, ← plainCombination_append assoc, ← List.filterMap_append,
          List.range_eq_range', List.range_eq_range']
        congr 2
        simpa using (List.range'_append (s := 0) (m := c) (n := 2 ^ j) (step := 1)).symm
      rw [← block]
      exact scanFrom_eq_plainCombination leaf n j (c + 2 ^ j) (by omega) (dvd_add even dvd_rfl)
    case isFalse notOdd =>
      have zero : n / 2 ^ j % 2 = 0 := by omega
      rw [zero, mul_zero, add_zero] at split
      exact scanFrom_eq_plainCombination leaf n j c (by omega) even

end

/-! ### Integer reductions and prefixes (R147 to R149) -/

/-- The minimum and the maximum by a key, where equal keys mean equal values, are associative. -/
theorem minBy_assoc {α : Type} (key : α → Int) (a b c : α) :
    (if key (if key a ≤ key b then a else b) ≤ key c then (if key a ≤ key b then a else b) else c)
      = if key a ≤ key (if key b ≤ key c then b else c) then a else (if key b ≤ key c then b else c) := by
  split_ifs <;> first | rfl | omega

theorem maxBy_assoc {α : Type} (key : α → Int) (a b c : α) :
    (if key (if key a ≤ key b then b else a) ≤ key c then c else (if key a ≤ key b then b else a))
      = if key a ≤ key (if key b ≤ key c then c else b) then (if key b ≤ key c then c else b) else a := by
  split_ifs <;> first | rfl | omega

theorem redWord_assoc (x : Nat) (a b c : Word) : redWord x (redWord x a b) c = redWord x a (redWord x b c) := by
  match x with
  | 0 => exact add_assoc a b c
  | 1 => exact minBy_assoc BitVec.toInt a b c
  | 2 => exact maxBy_assoc BitVec.toInt a b c
  | 3 => simpa only [redWord, Nat.cast_le] using minBy_assoc (fun w : Word => (w.toNat : Int)) a b c
  | 4 => simpa only [redWord, Nat.cast_le] using maxBy_assoc (fun w : Word => (w.toNat : Int)) a b c
  | 5 => exact BitVec.and_assoc a b c
  | 6 => exact BitVec.or_assoc a b c
  | _ + 7 => exact BitVec.xor_assoc a b c

/-- The integer operations act on the low words of their operands (R147). -/
theorem redOp_eq_redWord {x : Nat} (hx : x < 8) (rm : Nat) (ftz : Bool) (a b : DWord) :
    redOp x rm ftz a b = (redWord x (a.setWidth 32) (b.setWidth 32)).setWidth 64 := by
  match x with
  | 0 => rfl
  | 1 => simp [redOp, redWord, BitVec.sle_iff_toInt_le]
  | 2 => simp [redOp, redWord, BitVec.sle_iff_toInt_le]
  | 3 => simp [redOp, redWord, BitVec.ule_iff_toNat_le]
  | 4 => simp [redOp, redWord, BitVec.ule_iff_toNat_le]
  | 5 => rfl
  | 6 => rfl
  | 7 => rfl

/-- A word in a position of 64 bits, as the tree holds it. -/
theorem setWidth_word (w : Word) : ((w.setWidth 64 : DWord).setWidth 32 : Word) = w := by
  rw [BitVec.setWidth_setWidth_of_le _ (by decide), BitVec.setWidth_eq]

theorem redOp_assoc {x : Nat} (hx : x < 8) (rm : Nat) (ftz : Bool) (a b c : DWord) :
    redOp x rm ftz (redOp x rm ftz a b) c = redOp x rm ftz a (redOp x rm ftz b c) := by
  simp only [redOp_eq_redWord hx, setWidth_word, redWord_assoc]

theorem foldl_redOp {x : Nat} (hx : x < 8) (rm : Nat) (ftz : Bool) : ∀ (l : List Word) (a : Word),
    (l.map (·.setWidth 64)).foldl (redOp x rm ftz) (a.setWidth 64) = (l.foldl (redWord x) a).setWidth 64
  | [], _ => rfl
  | b :: t, a => by
    rw [List.map_cons, List.foldl_cons, redOp_eq_redWord hx, setWidth_word, setWidth_word, foldl_redOp hx rm ftz t]
    rfl

theorem redEmpty_eq_redNone {x : Nat} (hx : x < 8) : (redEmpty x).setWidth 32 = redNone x := by
  match x with
  | 0 | 1 | 2 | 3 | 4 | 5 | 6 | 7 => decide

/-- The plain combination of words, as the tree holds them, is the fold of the statement. -/
theorem plainCombination_eq_redFold {x : Nat} (hx : x < 8) (rm : Nat) (ftz : Bool) (l : List Word) :
    ((plainCombination (redOp x rm ftz) (l.map (·.setWidth 64))).getD (redEmpty x)).setWidth 32 = redFold x l := by
  cases l with
  | nil => exact redEmpty_eq_redNone hx
  | cons a t =>
    simp only [plainCombination, List.map_cons, Option.getD_some, foldl_redOp hx, setWidth_word]
    rfl

/-- The leaves of an integer reduction are the active lanes' words. -/
theorem filterMap_redLeaves {f : AluX} (hx : f.x.toNat < 8) (s : State) (l : List Nat) :
    l.filterMap (redLeaves s f)
      = ((l.filter (laneOn (s.active f.pre))).map fun i => opnd32 .int s i f.a).map (·.setWidth 64) := by
  have leaf (i : Nat) : redLeaf s f.x.toNat (ftzOf f.pre) f.a i = (opnd32 .int s i f.a).setWidth 64 := by
    rw [redLeaf, if_neg (by omega), if_neg (by omega)]
  induction l with
  | nil => rfl
  | cons i t ih =>
    cases on : laneOn (s.active f.pre) i <;> simp [redLeaves, on, ih, leaf]

theorem reduced_eq_redFold {f : AluX} (hx : f.x.toNat < 8) (s : State) :
    (reduced s f).setWidth 32 = redFold f.x.toNat ((lanesOf (s.active f.pre)).map fun i => opnd32 .int s i f.a) := by
  rw [reduced, treeNode_eq_plainCombination (redOp_assoc hx _ _), filterMap_redLeaves hx,
    plainCombination_eq_redFold hx]
  rfl

theorem scanOf_eq_redFold {f : AluX} (hx : f.x.toNat < 8) (s : State) {n : Nat} (hn : n ≤ 64) :
    (scanOf s f n).setWidth 32
      = redFold f.x.toNat (((List.range n).filter (laneOn (s.active f.pre))).map fun i => opnd32 .int s i f.a) := by
  have prefix_ := scanFrom_eq_plainCombination (redOp_assoc hx (rmOf f.pre) (ftzOf f.pre)) (redLeaves s f) n 7 0
    (by omega) (dvd_zero _)
  rw [scanOf, ← plainCombination_eq_redFold hx (rmOf f.pre) (ftzOf f.pre), ← filterMap_redLeaves hx, ← prefix_]
  rfl

/-- The first n lanes of a mask. -/
theorem filter_lanesOf (m : BitVec 64) {n : Nat} (hn : n ≤ 64) :
    (lanesOf m).filter (· < n) = (List.range n).filter (laneOn m) := by
  have lanes : laneIds = List.range n ++ (List.range (64 - n)).map (n + ·) := by
    rw [← List.range_add, Nat.add_sub_cancel' hn]
    rfl
  have low : (List.range n).filter (· < n) = List.range n := by
    rw [List.filter_eq_self]
    intro i hi
    simpa using hi
  have high : ((List.range (64 - n)).map (n + ·)).filter (· < n) = [] := by
    rw [List.filter_eq_nil_iff]
    intro i hi
    obtain ⟨k, -, rfl⟩ := List.mem_map.1 hi
    simp
  rw [lanesOf, List.filter_comm, lanes, List.filter_append, low, high, List.append_nil]

/-- A lane-wise result says nothing of lanes from 64 on. -/
theorem VectorIs.congr {p : Option AluPre} {n : Bool} {d : Nat} {g k : Nat → Word} {s t : State}
    (h : VectorIs p n d g s t) (same : ∀ i, i < 64 → g i = k i) : VectorIs p n d k s t := by
  obtain ⟨zeros, rest⟩ := h
  refine ⟨zeros, ?_⟩
  cases n with
  | true =>
    obtain ⟨moved, words⟩ := rest
    refine ⟨moved, fun c hc => ?_⟩
    obtain ⟨x, newest, lanes⟩ := words c hc
    exact ⟨x, newest, fun i hi => by simp only [lanes i hi, same i hi]⟩
  | false =>
    obtain ⟨values, words, only⟩ := rest
    exact ⟨fun i hi => by rw [values i hi, laneAfter, laneAfter, same i hi], words, only⟩

theorem not_add_d {f : AluX} (hx : f.x.toNat < 8) : ¬ f.x = 0x0B := by
  rw [← toNat_eq_add_d]
  omega

/-- Settles O9: trees and prefixes of an associative operation are plain folds, and the integer operations are
associative. -/
theorem integerReductionsFold : Obligations.IntegerReductionsFold := by
  unfold Obligations.IntegerReductionsFold
  intro f s hx value
  refine ⟨fun h => (vred_completes f s h).imp fun t ht => ?_,
    fun h => (vscans_complete (.vscanIncl, 1) (by simp) f s h).imp fun t ht => ?_,
    fun h => (vscans_complete (.vscanExcl, 0) (by simp) f s h).imp fun t ht => ?_⟩
  · rw [if_neg (not_add_d hx)] at ht
    rw [← reduced_eq_redFold hx]
    exact ht.2
  · rw [if_neg (not_add_d hx)] at ht
    refine ht.2.congr fun i hi => ?_
    have fold := scanOf_eq_redFold hx s (n := i + 1) hi
    simp only [← filter_lanesOf _ (n := i + 1) hi, Nat.lt_succ_iff] at fold
    exact fold
  · rw [if_neg (not_add_d hx)] at ht
    refine ht.2.congr fun i hi => ?_
    have fold := scanOf_eq_redFold hx s (le_of_lt hi)
    rw [← filter_lanesOf _ (le_of_lt hi)] at fold
    exact fold

end Sys2Proof.Machine

/-! ## Masks (R146, R150) -/

namespace Sys2Proof.Machine

theorem exec_mand (f s) : exec (.mand f) s = execMand f s := rfl
theorem exec_mor (f s) : exec (.mor f) s = execMor f s := rfl
theorem exec_mxor (f s) : exec (.mxor f) s = execMxor f s := rfl
theorem exec_mnot (f s) : exec (.mnot f) s = execMnot f s := rfl
theorem exec_mmov (f s) : exec (.mmov f) s = execMmov f s := rfl
theorem exec_mload (f s) : exec (.mload f) s = execMload f s := rfl
theorem exec_mcnt (f s) : exec (.mcnt f) s = execMcnt f s := rfl
theorem exec_msave (f s) : exec (.msave f) s = execMsave f s := rfl
theorem exec_vbal (f s) : exec (.vbal f) s = execVbal f s := rfl
theorem exec_vlid (f s) : exec (.vlid f) s = execVlid f s := rfl

theorem maskPairs_complete (e : (Mask2 → Instr) × (BitVec 64 → BitVec 64 → BitVec 64))
    (he : e ∈ ([(.mand, fun a b => a &&& b), (.mor, fun a b => a ||| b), (.mxor, fun a b => a ^^^ b)] :
      List ((Mask2 → Instr) × (BitVec 64 → BitVec 64 → BitVec 64)))) (f : Mask2) (s : State)
    (h : NoReadError (e.1 f) s) :
    Completes (e.1 f) s fun t => WentOn (wordCount (e.1 f)) s t
      ∧ MaskIs f.n f.d.toNat (e.2 (s.st.mget f.a.toNat) (s.st.mget f.b.toNat)) s t := by
  simp only [List.mem_cons, List.not_mem_nil, or_false] at he
  obtain rfl | rfl | rfl := he
  all_goals
    refine mask_completes rfl ?_
    simp only [exec_mand, exec_mor, exec_mxor, execMand, execMor, execMxor, guarded_none (h _ rfl)]

theorem maskUnaries_complete (e : (Mask1 → Instr) × (BitVec 64 → BitVec 64))
    (he : e ∈ ([(.mnot, fun a => ~~~a), (.mmov, fun a => a)] : List ((Mask1 → Instr) × (BitVec 64 → BitVec 64))))
    (f : Mask1) (s : State) (h : NoReadError (e.1 f) s) :
    Completes (e.1 f) s fun t => WentOn (wordCount (e.1 f)) s t
      ∧ MaskIs f.n f.d.toNat (e.2 (s.st.mget f.a.toNat)) s t := by
  simp only [List.mem_cons, List.not_mem_nil, or_false] at he
  obtain rfl | rfl := he
  all_goals
    refine mask_completes rfl ?_
    simp only [exec_mnot, exec_mmov, execMnot, execMmov, guarded_none (h _ rfl)]

/-- The bits that VBAL gathers are those of the active lanes where A is not zero (R146). -/
theorem vbal_completes (f : Alu1) (s : State) (h : NoReadError (.vbal f) s) :
    Completes (.vbal f) s fun t => WentOn (wordCount (.vbal f)) s t
      ∧ ∃ x : DWord, PairIs f.n f.d.toNat x s t
        ∧ ∀ i, i < 64 → laneOn x i = (laneOn (s.active f.pre) i && decide (opnd32 .int s i f.a ≠ 0)) := by
  have ends := uniformPair_completes (i := .vbal f) (s := s) (n := f.n) (d := f.d)
    (x := maskOf ((lanesOf (s.active f.pre)).filter fun i => opnd32 .int s i f.a ≠ 0)) rfl
    (by rw [exec_vbal, execVbal, guarded_none (h _ rfl)])
  exact ends.imp fun t ⟨went, pair⟩ => ⟨went, _, pair, fun i hi => laneOn_hits _ _ i hi⟩

/-- The population count of a mask is the number of its lanes. -/
theorem popCount_eq_length (m : BitVec 64) : popCount m = (lanesOf m).length := rfl

/-- Settles O10: each instruction ends with a mask or a uniform result, and a mask result has no bit of an absent
lane. -/
theorem masks : Obligations.Masks := by
  unfold Obligations.Masks
  refine ⟨maskPairs_complete, maskUnaries_complete, fun f s h => mask_completes rfl ?_,
    fun f s h => uniform_completes rfl ?_, fun f s h => uniformPair_completes rfl ?_, vbal_completes,
    fun f s h => lanes_complete rfl ?_⟩
  · rw [exec_mload, execMload, guarded_none (h _ rfl)]
  · rw [exec_mcnt, execMcnt, guarded_none (h _ rfl), popCount_eq_length]
  · rw [exec_msave, execMsave, guarded_none (h _ rfl)]
  · rw [exec_vlid, execVlid, guarded_none (h _ rfl)]

end Sys2Proof.Machine

/-! ## Quantisation (R96 to R99, R174 to R177) -/

namespace Sys2Proof.Machine

theorem exec_qmm (f s) : exec (.qmm f) s = execQmm f s := rfl
theorem exec_qntI8 (f s) : exec (.qntI8 f) s = execQntI8 f s := rfl
theorem exec_qntI4 (f s) : exec (.qntI4 f) s = execQntI4 f s := rfl
theorem exec_qntT3 (f s) : exec (.qntT3 f) s = execQntT3 f s := rfl
theorem exec_dqntI8 (f s) : exec (.dqntI8 f) s = execDqntI8 f s := rfl
theorem exec_dqntI4 (f s) : exec (.dqntI4 f) s = execDqntI4 f s := rfl

/-- A lane-wise result whose values stand in a list. -/
theorem vecResult_list_spec (f : Form) (p : Option AluPre) (n : Bool) (d : BitVec 7) (g : Nat → Word) (s : State) :
    ∃ t, vecResult f p n d (fun i => nth 0#32 (laneIds.map g) i) s = .next t ∧ WentOn (formSize f) s t
      ∧ VectorIs p n d.toNat g s t := by
  obtain ⟨t, runs, went, values⟩ := vecResult_spec f p n d (fun i => nth 0#32 (laneIds.map g) i) s
  exact ⟨t, runs, went, values.congr fun i hi => nth_lanes _ _ i hi⟩

/-- An instruction that writes a scalar pair and ends with values that stand in a list. -/
theorem laneList_completes {i : Instr} {f : Form} {s u : State} {p : Option AluPre} {n : Bool} {d : BitVec 7}
    {g : Nat → Word} (hform : form i = some f) (hpc : u.st.pc = s.st.pc) (hclause : u.st.clause = s.st.clause)
    (hexec : exec i s = vecResult f p n d (fun i => nth 0#32 (laneIds.map g) i) u) :
    Completes i s fun t => WentOn (wordCount i) s t ∧ VectorIs p n d.toNat g u t := by
  obtain ⟨t, runs, went, values⟩ := vecResult_list_spec f p n d g u
  refine ⟨t, hexec.trans runs, ?_, values⟩
  rw [wordCount_of_form hform]
  intro c hc hlen
  rw [← hpc]
  exact went c (hclause ▸ hc) hlen

/-! ### QMM (R174) -/

/-- What QMM finds among the active lanes' values. -/
def minMax (xs : List Nat) : DWord :=
  match xs with
  | [] => 0
  | x :: l =>
    if xs.any (fun x => unpack fp32 x = .nan) then 0x7FC000007FC00000
    else BitVec.ofNat 64 (l.foldl (fpMin fp32 false) x + 2 ^ 32 * l.foldl (fpMax fp32 false) x)

theorem minMax_nan {xs : List Nat} (h : ∃ x ∈ xs, unpack fp32 x = .nan) : minMax xs = 0x7FC000007FC00000 := by
  match xs with
  | [] => simp at h
  | x :: l => exact if_pos (by simpa using h)

theorem minMax_numbers {x : Nat} {l : List Nat} (h : ∀ y ∈ x :: l, unpack fp32 y ≠ .nan) :
    minMax (x :: l) = BitVec.ofNat 64 (l.foldl (fpMin fp32 false) x + 2 ^ 32 * l.foldl (fpMax fp32 false) x) :=
  if_neg (by simpa using h)

theorem qmm_completes (f : Alu1) (s : State) (h : NoReadError (.qmm f) s) :
    Completes (.qmm f) s fun t => WentOn (wordCount (.qmm f)) s t ∧ PairIs f.n f.d.toNat
      (minMax ((lanesOf (s.active f.pre)).map fun i => (opnd32 .fp s i f.a).toNat)) s t := by
  refine uniformPair_completes rfl ?_
  rw [exec_qmm, execQmm, guarded_none (h _ rfl)]
  rfl

/-! ### The quantisers and the dequantisers (R96 to R99, R175 to R177) -/

/-- QNT with the limits of its format. -/
theorem qnt_completes {i : Instr} {op : BitVec 8} {f : Alu2} {qmin qmax : Int} {r : BitVec 6} {s : State}
    (hform : form i = some (.alu2 op f)) (hexec : exec i s = qnt op qmin qmax f s) (hb : f.b = .s r)
    (h : NoReadError i s) :
    Completes i s fun t =>
      let c := selectScale (unpack fp32 (s.st.sget r.toNat).toNat) (unpack fp32 (s.st.sget (r.toNat + 1)).toNat) qmin qmax
      WentOn (wordCount i) s t
        ∧ VectorIs f.pre f.n f.d.toNat (fun i =>
            BitVec.ofInt 32 (quantise c.1 c.2 qmin qmax (unpack fp32 (opnd32 .fp s i f.a).toNat)))
            (withPair s r.toNat (BitVec.ofNat 32 c.1) (BitVec.ofInt 32 c.2)) t := by
  refine laneList_completes hform rfl rfl ?_
  rw [hexec, qnt, guarded_none (h _ hform), hb]
  rfl

/-- The scale that QNT.t3 writes and the trit of each value, by the mean of R98. -/
def tritScale (g : Option (Nat × Nat)) : Nat :=
  match g with
  | none => fp16.nan
  | some (sum, n) => if sum = 0 then 0 else min 0x7BFF (roundQuot fp16 rmRNE false false false sum n (-400))

def tritQuantised (g : Option (Nat × Nat)) (x : Val) : Int :=
  match g with
  | none => 0
  | some (sum, n) => if sum = 0 then 0 else clamp (roundDiv (valUnits x * (n : Int)) sum) (-1) 1

theorem qntT3_completes {f : Alu2} {r : BitVec 6} {s : State} (hb : f.b = .s r) (h : NoReadError (.qntT3 f) s) :
    Completes (.qntT3 f) s fun t =>
      let val := fun (i : Nat) => unpack fp32 (opnd32 .fp s i f.a).toNat
      let g := meanAbs ((lanesOf (s.active f.pre)).map val)
      WentOn (wordCount (.qntT3 f)) s t
        ∧ VectorIs f.pre f.n f.d.toNat (fun i => BitVec.ofInt 32 (tritQuantised g (val i)))
          (withPair s r.toNat (BitVec.ofNat 32 (tritScale g)) 0) t := by
  refine laneList_completes rfl rfl rfl ?_
  rw [exec_qntT3, execQntT3, guarded_none (h _ rfl), hb]
  rfl

theorem dqnt_completes {i : Instr} {op : BitVec 8} {f : Alu2} {w : Nat} {r : BitVec 6} {s : State}
    (hform : form i = some (.alu2 op f)) (hexec : exec i s = dqnt op w f s) (hb : f.b = .s r) (h : NoReadError i s) :
    Completes i s fun t =>
      WentOn (wordCount i) s t
        ∧ VectorIs f.pre f.n f.d.toNat (fun i =>
            dequantise ((s.st.sget r.toNat).toNat % 65536) ((opnd32 .int s i f.a).setWidth w).toInt
              ((s.st.sget (r.toNat + 1)).setWidth 8).toInt) s t := by
  refine lanes_complete hform ?_
  rw [hexec, dqnt, guarded_none (h _ hform), hb]
  rfl

theorem quantisers_complete (e : (Alu2 → Instr) × Int × Int)
    (he : e ∈ ([(.qntI8, -128, 127), (.qntI4, -8, 7)] : List ((Alu2 → Instr) × Int × Int))) (f : Alu2) (r : BitVec 6)
    (s : State) (hb : f.b = .s r) (h : NoReadError (e.1 f) s) :
    Completes (e.1 f) s fun t =>
      let c := selectScale (unpack fp32 (s.st.sget r.toNat).toNat) (unpack fp32 (s.st.sget (r.toNat + 1)).toNat) e.2.1 e.2.2
      WentOn (wordCount (e.1 f)) s t
        ∧ VectorIs f.pre f.n f.d.toNat (fun i =>
            BitVec.ofInt 32 (quantise c.1 c.2 e.2.1 e.2.2 (unpack fp32 (opnd32 .fp s i f.a).toNat)))
            (withPair s r.toNat (BitVec.ofNat 32 c.1) (BitVec.ofInt 32 c.2)) t := by
  simp only [List.mem_cons, List.not_mem_nil, or_false] at he
  obtain rfl | rfl := he
  · exact qnt_completes rfl (exec_qntI8 f s) hb h
  · exact qnt_completes rfl (exec_qntI4 f s) hb h

theorem dequantisers_complete (e : (Alu2 → Instr) × Nat)
    (he : e ∈ ([(.dqntI8, 8), (.dqntI4, 4)] : List ((Alu2 → Instr) × Nat))) (f : Alu2) (r : BitVec 6) (s : State)
    (hb : f.b = .s r) (h : NoReadError (e.1 f) s) :
    Completes (e.1 f) s fun t =>
      WentOn (wordCount (e.1 f)) s t
        ∧ VectorIs f.pre f.n f.d.toNat (fun i =>
            dequantise ((s.st.sget r.toNat).toNat % 65536) ((opnd32 .int s i f.a).setWidth e.2).toInt
              ((s.st.sget (r.toNat + 1)).setWidth 8).toInt) s t := by
  simp only [List.mem_cons, List.not_mem_nil, or_false] at he
  obtain rfl | rfl := he
  · exact dqnt_completes rfl (exec_dqntI8 f s) hb h
  · exact dqnt_completes rfl (exec_dqntI4 f s) hb h

/-- Settles O12: QMM ends with the pair of the extremes, the quantisers with values that stand in a list over the
strand whose pair they have written, the dequantisers with a value for each lane. -/
theorem quantisation : Obligations.Quantisation := by
  unfold Obligations.Quantisation
  refine ⟨fun f s h => (qmm_completes f s h).imp fun t ⟨went, pair⟩ => ⟨went, fun none => ?_, fun nan => ?_,
    fun x l some_ numbers => ?_⟩, quantisers_complete,
    fun f r s hb h => (qntT3_completes hb h).imp fun t ⟨went, values⟩ => ⟨went, fun none => ?_, fun n zero => ?_,
      fun sum n mean nonzero => ?_⟩, dequantisers_complete⟩
  · rwa [none] at pair
  · rwa [minMax_nan nan] at pair
  · rw [some_] at numbers pair
    rwa [minMax_numbers numbers] at pair
  · have nan : fp16.nan = 0x7E00 := by decide
    simpa [none, tritScale, tritQuantised, nan] using values
  · simpa [zero, tritScale, tritQuantised] using values
  · simpa [mean, nonzero, tritScale, tritQuantised] using values

end Sys2Proof.Machine

/-! ## Packing (R178 to R180) -/

namespace Sys2Proof.Machine

theorem exec_pk3 (f s) : exec (.pk3 f) s = execPk3 f s := rfl
theorem exec_upk3 (f s) : exec (.upk3 f) s = execUpk3 f s := rfl
theorem exec_pk4 (f s) : exec (.pk4 f) s = execPk4 f s := rfl
theorem exec_upk4 (f s) : exec (.upk4 f) s = execUpk4 f s := rfl

theorem sourceA_eq_laneOf (s : State) (o : Opnd) (k : Int) : sourceA s o k = laneOf s o k := by
  unfold sourceA laneOf
  by_cases low : k < 0
  · rw [if_pos (.inl low), if_neg (by omega)]
  · by_cases high : k ≥ 64
    · rw [if_pos (.inr high), if_neg (by omega)]
    · rw [if_neg (by omega)]
      by_cases on : laneOn s.st.present k.toNat = true
      · rw [if_pos on, if_pos ⟨by omega, by omega, on⟩]
      · rw [if_neg on, if_neg (fun ⟨_, _, is⟩ => on is)]

/-- The sign and zero tell the digit of a trit (R178). -/
theorem tritDigit_eq_trit (o : Option Word) : tritDigit o = trit o := by
  match o with
  | none => rfl
  | some x =>
    have zero : x = 0 ↔ x.toInt = 0 := by
      rw [← BitVec.toInt_inj]
      rfl
    simp only [tritDigit, trit, zero, BitVec.msb_eq_toInt, decide_eq_true_eq]
    split_ifs <;> first | rfl | omega

theorem pk3_completes (f : Alu2) (s : State) (h : NoReadError (.pk3 f) s) :
    Completes (.pk3 f) s fun t => WentOn (wordCount (.pk3 f)) s t ∧ VectorIs f.pre f.n f.d.toNat (pk3Lane s f) s t := by
  refine lanes_complete rfl ?_
  rw [exec_pk3, execPk3, guarded_none (h _ rfl)]
  congr 1
  funext i
  simp only [pk3Lane, sumBy, show List.range 5 = [0, 1, 2, 3, 4] from rfl, List.foldl_cons, List.foldl_nil,
    sourceA_eq_laneOf, tritDigit_eq_trit]
  norm_num

/-- A nibble of PK4 (R180). -/
def nibble : Option Word → Nat
  | none => 0
  | some w => (clamp w.toInt (-8) 7 % 16).toNat

theorem pk4Lane_eq (s : State) (f : Alu2) (i : Nat) : pk4Lane s f i = BitVec.ofNat 32
    (sumBy (fun (e : Nat) => 16 ^ e * nibble (laneOf s f.a ((opnd32 .int s i f.b).toInt + 8 * i + e))) (List.range 8)) := by
  simp only [sumBy, show List.range 8 = [0, 1, 2, 3, 4, 5, 6, 7] from rfl, List.foldl_cons, List.foldl_nil, pow_zero,
    pow_one, one_mul, zero_add]
  rfl

theorem pk4_completes (f : Alu2) (s : State) (h : NoReadError (.pk4 f) s) :
    Completes (.pk4 f) s fun t => WentOn (wordCount (.pk4 f)) s t ∧ VectorIs f.pre f.n f.d.toNat (pk4Lane s f) s t := by
  refine lanes_complete rfl ?_
  rw [exec_pk4, execPk4, guarded_none (h _ rfl)]
  congr 1
  funext i
  rw [pk4Lane_eq]
  refine congrArg (fun g => BitVec.ofNat 32 (sumBy g (List.range 8))) (funext fun e => ?_)
  rw [sourceA_eq_laneOf]
  cases laneOf s f.a ((opnd32 .int s i f.b).toInt + 8 * i + e) <;> rfl

theorem upk4_completes (f : Alu2) (s : State) (h : NoReadError (.upk4 f) s) :
    Completes (.upk4 f) s fun t => WentOn (wordCount (.upk4 f)) s t ∧ VectorIs f.pre f.n f.d.toNat (upk4Lane s f) s t := by
  refine lanes_complete rfl ?_
  rw [exec_upk4, execUpk4, guarded_none (h _ rfl)]
  congr 1
  funext i
  simp only [upk4Lane, unpackFrom, unpackIndex, sourceA_eq_laneOf, Nat.cast_ofNat]
  split <;> simp_all

theorem packs_complete (e : (Alu2 → Instr) × (State → Alu2 → Nat → Word))
    (he : e ∈ ([(.pk3, pk3Lane), (.pk4, pk4Lane), (.upk4, upk4Lane)] :
      List ((Alu2 → Instr) × (State → Alu2 → Nat → Word)))) (f : Alu2) (s : State) (h : NoReadError (e.1 f) s) :
    Completes (e.1 f) s fun t => WentOn (wordCount (e.1 f)) s t ∧ VectorIs f.pre f.n f.d.toNat (e.2 s f) s t := by
  simp only [List.mem_cons, List.not_mem_nil, or_false] at he
  obtain rfl | rfl | rfl := he
  · exact pk3_completes f s h
  · exact pk4_completes f s h
  · exact upk4_completes f s h

/-! ### UPK3 (R179) -/

/-- The lanes that the model finds to read an illegal byte. -/
def upk3Hits (s : State) (f : Alu2) : List Nat :=
  (lanesOf (s.active f.pre)).filter fun i =>
    match sourceA s f.a (unpackFrom s f 5 i).1 with
    | some w => decide (w.toNat % 256 > 242)
    | none => false

theorem upk3Hits_eq_upk3Bad (s : State) (f : Alu2) : upk3Hits s f = upk3Bad s f := by
  refine List.filter_congr fun i _ => ?_
  rw [sourceA_eq_laneOf]
  exact match laneOf s f.a (unpackIndex s f i / 5) with
    | none => rfl
    | some _ => rfl

/-- The value that the model unpacks into a lane. -/
def upk3Value (s : State) (f : Alu2) (i : Nat) : Word :=
  match sourceA s f.a (unpackFrom s f 5 i).1 with
  | some w => BitVec.ofInt 32 (tritOf (w.toNat % 256) (unpackFrom s f 5 i).2)
  | none => 0

theorem upk3Value_eq_upk3Lane (s : State) (f : Alu2) : upk3Value s f = upk3Lane s f := by
  funext i
  rw [upk3Value, sourceA_eq_laneOf]
  show (match laneOf s f.a (unpackIndex s f i / 5) with | some _ => _ | none => _) = _
  rw [upk3Lane]
  cases laneOf s f.a (unpackIndex s f i / 5) <;> rfl

/-- The number of illegal bytes that UPK3 counts, each once. -/
def upk3Count (s : State) (f : Alu2) : Nat :=
  (((upk3Bad s f).map fun i => (unpackFrom s f 5 i).1).eraseDups).length

theorem exec_upk3_eq {f : Alu2} {s : State} (h : NoReadError (.upk3 f) s) :
    exec (.upk3 f) s =
      if upk3Bad s f ≠ [] ∧ s.grd.tolerant = false then deliver ⟨0x35, 0, 0, 0, 0, maskOf (upk3Bad s f)⟩ s
      else vecResult (.alu2 0x91 f) f.pre f.n f.d (fun i => nth 0#32 (laneIds.map (upk3Lane s f)) i)
        (if upk3Count s f = 0 then s else recordFor s.grd.id 2 (upk3Count s f) 0 s) := by
  rw [exec_upk3, execUpk3, guarded_none (h _ rfl), upk3Count, ← upk3Hits_eq_upk3Bad, ← upk3Value_eq_upk3Lane]
  rfl

theorem eraseDups_length_ne_zero {l : List Int} (h : l ≠ []) : l.eraseDups.length ≠ 0 := by
  match l with
  | [] => exact absurd rfl h
  | x :: t => simp [List.eraseDups_cons]

theorem upk3_legal {f : Alu2} {s : State} (h : NoReadError (.upk3 f) s) (legal : upk3Bad s f = []) :
    Completes (.upk3 f) s fun t =>
      WentOn (wordCount (.upk3 f)) s t ∧ VectorIs f.pre f.n f.d.toNat (upk3Lane s f) s t := by
  refine laneList_completes rfl rfl rfl ?_
  rw [exec_upk3_eq h, if_neg (fun bad => bad.1 legal), if_pos (by rw [upk3Count, legal]; rfl)]

theorem upk3_tolerant {f : Alu2} {s : State} (h : NoReadError (.upk3 f) s) (illegal : upk3Bad s f ≠ [])
    (tolerant : s.grd.tolerant = true) :
    ∃ n, n ≠ 0 ∧ Completes (.upk3 f) s fun t =>
      VectorIs f.pre f.n f.d.toNat (upk3Lane s f) (recordFor s.grd.id 2 n 0 s) t := by
  have counted : upk3Count s f ≠ 0 := eraseDups_length_ne_zero (by simpa using illegal)
  refine ⟨upk3Count s f, counted, ?_⟩
  obtain ⟨t, runs, -, values⟩ := vecResult_list_spec (.alu2 0x91 f) f.pre f.n f.d (upk3Lane s f)
    (recordFor s.grd.id 2 (upk3Count s f) 0 s)
  exact ⟨t, by rw [exec_upk3_eq h, if_neg (by simp [tolerant]), if_neg counted, runs], values⟩

/-- Settles O13: PK3, PK4 and UPK4 end with a value for each lane; UPK3 faults where it reads an illegal byte in strict
mode, and else ends with values that stand in a list. -/
theorem packing : Obligations.Packing := by
  unfold Obligations.Packing
  refine ⟨packs_complete, fun f s h => ⟨upk3_legal h, fun illegal strict => ?_, upk3_tolerant h⟩⟩
  rw [exec_upk3_eq h, if_pos ⟨illegal, strict⟩]

end Sys2Proof.Machine

-- Fields of instruction words: how `bits` and `bit` read what the encoder writes.

namespace Sys2Proof

section Fields

variable {w x y : Word} {lo n k m : Nat}

@[simp] theorem getLsbD_bits (i : Nat) : (bits w lo n).getLsbD i = (decide (i < n) && w.getLsbD (lo + i)) := by
  simp [bits]

@[simp] theorem getElem_bits (i : Nat) (hi : i < n) : (bits w lo n)[i] = w.getLsbD (lo + i) := by
  simp [bits]

@[simp] theorem bits_or : bits (x ||| y) lo n = bits x lo n ||| bits y lo n := by
  ext i hi
  simp [bits, BitVec.getElem_setWidth]

@[simp] theorem bit_or (i : Nat) : bit (x ||| y) i = (bit x i || bit y i) := by simp [bit]

@[simp] theorem bits_zero : bits 0#32 lo n = 0#n := by simp [bits]

/-- A field read where it stands. -/
@[simp] theorem bits_field_same (v : BitVec m) (h : k + m ≤ 32) : bits (v.setWidth 32 <<< k) k m = v := by
  apply BitVec.eq_of_getLsbD_eq
  intro i hi
  have h1 : k + i < 32 := by omega
  have h2 : i < 32 := by omega
  simp [hi, h1]

/-- A field read below where it stands. -/
@[simp] theorem bits_field_below (v : BitVec m) (h : lo + n ≤ k) : bits (v.setWidth 32 <<< k) lo n = 0#n := by
  apply BitVec.eq_of_getLsbD_eq
  intro i hi
  have h1 : lo + i < k := by omega
  simp [h1]

/-- A field read above where it stands. -/
@[simp] theorem bits_field_above (v : BitVec m) (h : k + m ≤ lo) : bits (v.setWidth 32 <<< k) lo n = 0#n := by
  apply BitVec.eq_of_getLsbD_eq
  intro i hi
  have h1 : m ≤ lo + i - k := by omega
  simp [BitVec.getLsbD_of_ge v _ h1]

@[simp] theorem bits_field_zero (v : BitVec m) (h : m ≤ 32) : bits (v.setWidth 32) 0 m = v := by
  simpa using bits_field_same (k := 0) v (by omega)

@[simp] theorem bits_low_field_above (v : BitVec m) (h : m ≤ lo) : bits (v.setWidth 32) lo n = 0#n := by
  simpa using bits_field_above (k := 0) v (by omega)

theorem bit_eq_bits (i : Nat) : bit w i = (bits w i 1).getLsbD 0 := by simp [bit]

@[simp] theorem bit_field_same (b : Bool) (h : k < 32) : bit ((BitVec.ofBool b).setWidth 32 <<< k) k = b := by
  rw [bit_eq_bits, bits_field_same _ (by omega)]
  cases b <;> rfl

@[simp] theorem bit_field_below (v : BitVec m) (h : lo < k) : bit (v.setWidth 32 <<< k) lo = false := by
  rw [bit_eq_bits, bits_field_below _ (by omega)]
  rfl

@[simp] theorem bit_field_above (v : BitVec m) (h : k + m ≤ lo) : bit (v.setWidth 32 <<< k) lo = false := by
  rw [bit_eq_bits, bits_field_above _ (by omega)]
  rfl

@[simp] theorem bit_low_field_above (v : BitVec m) (h : m ≤ lo) : bit (v.setWidth 32) lo = false := by
  simpa using bit_field_above (k := 0) v (by omega)

/-- The bits [lo + n - 1 : lo] of a word where they stand. -/
def part (w : Word) (lo n : Nat) : Word := (bits w lo n).setWidth 32 <<< lo

theorem getLsbD_part (i : Nat) : (part w lo n).getLsbD i = (decide (lo ≤ i ∧ i < lo + n) && w.getLsbD i) := by
  by_cases hi : i < 32
  · by_cases hlo : lo ≤ i
    · have h1 : i - lo < 32 := by omega
      have h2 : lo + (i - lo) = i := by omega
      have h3 : i - lo < n ↔ i < lo + n := by omega
      simp [part, hi, hlo, h2, h3]
    · simp [part, hlo]
  · simp [BitVec.getLsbD_of_ge _ i (by omega : 32 ≤ i)]

/-- Two adjoining parts are one. -/
theorem part_or_part (h : k = lo + m) : part w k n ||| part w lo m = part w lo (n + m) := by
  subst h
  apply BitVec.eq_of_getLsbD_eq
  intro i _
  have hsplit : (lo ≤ i ∧ i < lo + (n + m)) ↔ (lo + m ≤ i ∧ i < lo + m + n) ∨ (lo ≤ i ∧ i < lo + m) := by omega
  simp only [BitVec.getLsbD_or, getLsbD_part, hsplit, Bool.decide_or, Bool.and_or_distrib_right]

theorem part_all : part w 0 32 = w := by
  apply BitVec.eq_of_getLsbD_eq
  intro i hi
  rw [getLsbD_part]
  simp [hi]

theorem part_bits : (bits w lo n).setWidth 32 <<< lo = part w lo n := rfl

theorem part_bits_low : (bits w 0 n).setWidth 32 = part w 0 n := by simp [part]

theorem part_bit (i : Nat) : (BitVec.ofBool (bit w i)).setWidth 32 <<< i = part w i 1 := by
  have h : BitVec.ofBool (bit w i) = bits w i 1 := by
    apply BitVec.eq_of_getLsbD_eq
    intro j hj
    obtain rfl : j = 0 := by omega
    simp [bit]
  rw [h, part]

/-- Bits that a zero mask covers are zero. -/
theorem bits_of_masked {z : Word} (h : w &&& z = 0) (hz : bits z lo n = BitVec.allOnes n) : bits w lo n = 0#n := by
  have hw : bits w lo n &&& bits z lo n = bits (w &&& z) lo n := by
    apply BitVec.eq_of_getLsbD_eq
    intro i hi
    simp [hi]
  rw [hz, h, BitVec.and_allOnes] at hw
  exact hw.trans bits_zero

theorem bit_of_masked {z : Word} {i : Nat} (h : w &&& z = 0) (hz : bits z i 1 = BitVec.allOnes 1) : bit w i = false := by
  rw [bit_eq_bits, bits_of_masked h hz]
  rfl

end Fields

/-- A word of Format A is its fields. -/
theorem wordA_bits (w : Word) : wordA (bits w 24 8) (bit w 23) (bits w 16 7) (bits w 8 8) (bits w 0 8) = w := by
  simp only [wordA, part_bits, part_bits_low, part_bit]
  simp only [part_or_part, Nat.reduceAdd, part_all]

section WordA

variable (op : BitVec 8) (n : Bool) (d : BitVec 7) (a b : BitVec 8)

@[simp] theorem wordA_op : bits (wordA op n d a b) 24 8 = op := by
  simp [wordA]

@[simp] theorem wordA_n : bit (wordA op n d a b) 23 = n := by
  simp [wordA]

@[simp] theorem wordA_d : bits (wordA op n d a b) 16 7 = d := by
  simp [wordA]

@[simp] theorem wordA_a : bits (wordA op n d a b) 8 8 = a := by
  simp [wordA]

@[simp] theorem wordA_b : bits (wordA op n d a b) 0 8 = b := by
  simp [wordA]

/-- A field is the low part of a longer one. -/
theorem bits_low_part {w : Word} {lo k m : Nat} (h : k ≤ m) : bits w lo k = (bits w lo m).setWidth k := by
  apply BitVec.eq_of_getLsbD_eq
  intro i hi
  have him : i < m := by omega
  simp [hi, him]

theorem setWidth_back {k m : Nat} (v : BitVec k) (h : k ≤ m) : (v.setWidth m).setWidth k = v := by
  rw [BitVec.setWidth_setWidth_of_le _ h, BitVec.setWidth_eq]

@[simp] theorem wordA_d_part {k : Nat} (v : BitVec k) (h : k ≤ 7) : bits (wordA op n (v.setWidth 7) a b) 16 k = v := by
  rw [bits_low_part h, wordA_d, setWidth_back v h]

@[simp] theorem wordA_a_part {k : Nat} (v : BitVec k) (h : k ≤ 8) : bits (wordA op n d (v.setWidth 8) b) 8 k = v := by
  rw [bits_low_part h, wordA_a, setWidth_back v h]

@[simp] theorem wordA_b_part {k : Nat} (v : BitVec k) (h : k ≤ 8) : bits (wordA op n d a (v.setWidth 8)) 0 k = v := by
  rw [bits_low_part h, wordA_b, setWidth_back v h]

/-- A field below zero bits is the longer one with them. -/
theorem bits_widen {w : Word} {lo k j m : Nat} (hm : m = k + j) (h : bits w (lo + k) j = 0#j) :
    (bits w lo k).setWidth m = bits w lo m := by
  subst hm
  apply BitVec.eq_of_getLsbD_eq
  intro i hi
  by_cases hk : i < k
  · simp [hi, hk]
  · have hz : (bits w (lo + k) j).getLsbD (i - k) = false := by rw [h]; simp
    have hsub : i - k < j := by omega
    have heq : lo + k + (i - k) = lo + i := by omega
    simp only [getLsbD_bits, hsub, decide_true, Bool.true_and, heq] at hz
    simp [hi, hk, hz]

/-- A field above another within a longer one. -/
theorem bits_high_part {w : Word} {lo i k m : Nat} (h : i + k ≤ m) : bits w (lo + i) k = (bits w lo m >>> i).setWidth k := by
  apply BitVec.eq_of_getLsbD_eq
  intro j hj
  have hjm : i + j < m := by omega
  simp [hj, hjm, Nat.add_assoc]

theorem bits_scalarCode (c : BitVec 6) : (scalarCode c).setWidth 6 = c := by
  revert c
  decide

@[simp] theorem wordA_a_scalar (c : BitVec 6) : bits (wordA op n d (scalarCode c) b) 8 6 = c := by
  rw [bits_low_part (by decide : 6 ≤ 8), wordA_a, bits_scalarCode]

@[simp] theorem wordA_a_scalar_high (c : BitVec 6) : bits (wordA op n d (scalarCode c) b) 14 2 = 0b10 := by
  rw [show 14 = 8 + 6 from rfl, bits_high_part (by decide : 6 + 2 ≤ 8), wordA_a]
  revert c
  decide

/-- A code whose two upper bits are those of a scalar register. -/
theorem scalarCode_bits {w : Word} (h : bits w 14 2 = 0b10) : scalarCode (bits w 8 6) = bits w 8 8 := by
  rw [show 14 = 8 + 6 from rfl, bits_high_part (by decide : 6 + 2 ≤ 8)] at h
  rw [bits_low_part (by decide : 6 ≤ 8)]
  revert h
  generalize bits w 8 8 = code
  revert code
  decide

end WordA

end Sys2Proof

-- Operands, prefixes and the fourth operand: reading what the encoder writes, and writing what was read.

namespace Sys2Proof

/-! ### Operand fields (R57, R59) -/

theorem opndOf_code (o literal : Opnd) (h : o.isLit = false) : opndOf o.code literal = some o := by
  cases o with
  | v r =>
    rw [opndOf, Opnd.code, if_pos (by bv_omega)]
    simp
  | s r =>
    rw [opndOf, Opnd.code, if_neg (by bv_omega), if_pos (by bv_omega)]
    exact congrArg (fun r => some (Opnd.s r)) (by bv_omega)
  | l j =>
    rw [opndOf, Opnd.code, if_neg (by bv_omega), if_neg (by bv_omega), if_pos (by bv_omega)]
    exact congrArg (fun j => some (Opnd.l j)) (by bv_omega)
  | int c =>
    rw [opndOf, Opnd.code, if_neg (by bv_omega), if_neg (by bv_omega), if_neg (by bv_omega), if_neg (by bv_omega),
      if_pos (by bv_omega)]
    exact congrArg (fun c => some (Opnd.int c)) (by bv_omega)
  | fc c =>
    rw [opndOf, Opnd.code, if_neg (by bv_omega), if_neg (by bv_omega), if_neg (by bv_omega), if_neg (by bv_omega),
      if_neg (by bv_omega), if_pos (by bv_omega)]
    exact congrArg (fun c => some (Opnd.fc c)) (by bv_omega)
  | lit w => simp [Opnd.isLit] at h
  | lit64 w => simp [Opnd.isLit] at h

theorem code_of_opndOf {code : BitVec 8} {literal o : Opnd} (h : opndOf code literal = some o) (hne : code ≠ 0xF8) :
    code = o.code ∧ o.isLit = false := by
  unfold opndOf at h
  split_ifs at h with h1 h2 h3 h4 h5 h6 <;> cases h <;> refine ⟨?_, rfl⟩ <;> simp only [Opnd.code] <;> bv_omega

/-- A literal stands only in a field that counts one. -/
def LiteralFits (k : AKind) (o : Opnd) : Prop := o.isLit = true → k.literal = true

theorem code_ne_literal {o : Opnd} (h : o.isLit = false) : o.code ≠ 0xF8 := by
  intro hcode
  have hread := opndOf_code o (.lit 0) h
  rw [hcode, show opndOf 0xF8 (.lit 0) = some (.lit 0) from rfl] at hread
  cases hread
  cases h

theorem words_of_not_literal {o : Opnd} (h : o.isLit = false) : o.words = [] := by cases o <;> first | rfl | cases h

theorem widthOk_of_not_literal {o : Opnd} (wide : Bool) (h : o.isLit = false) : o.widthOk wide = true := by
  cases o <;> first | rfl | cases h

theorem append_of_halves (w : DWord) : (w >>> 32).setWidth 32 ++ w.setWidth 32 = w := by
  apply BitVec.eq_of_getLsbD_eq
  intro i hi
  rw [BitVec.getLsbD_append]
  by_cases h : i < 32
  · simp [h]
  · have h1 : i - 32 < 32 := by omega
    have h2 : 32 + (i - 32) = i := by omega
    simp [h, h1, h2]

/-- An operand is read from its code and its literal words. -/
theorem takeOpnd_code {wide : Bool} {k : AKind} {o : Opnd} (hw : o.widthOk wide = true) (hk : LiteralFits k o)
    (t : List Word) : takeOpnd wide k o.code (o.words ++ t) = some (o, true, t) := by
  cases hlit : o.isLit with
  | true =>
    unfold takeOpnd
    have hkind := hk hlit
    cases o with
    | lit w =>
      obtain rfl : wide = false := by simpa [Opnd.widthOk] using hw
      simp [Opnd.code, Opnd.words, hkind]
    | lit64 w =>
      obtain rfl : wide = true := hw
      simp [Opnd.code, Opnd.words, hkind, append_of_halves]
    | _ => cases hlit
  | false =>
    have hne := code_ne_literal hlit
    unfold takeOpnd
    rw [if_neg (fun h => hne h.1), opndOf_code o _ hlit, words_of_not_literal hlit]
    simp only [ne_eq, hne, not_false_eq_true, decide_true, List.nil_append]

theorem low_of_append (hi lo : Word) : (hi ++ lo : DWord).setWidth 32 = lo := by
  apply BitVec.eq_of_getLsbD_eq
  intro i h
  rw [BitVec.getLsbD_setWidth, BitVec.getLsbD_append]
  simp [h]

theorem high_of_append (hi lo : Word) : ((hi ++ lo : DWord) >>> 32).setWidth 32 = hi := by
  apply BitVec.eq_of_getLsbD_eq
  intro i h
  rw [BitVec.getLsbD_setWidth, BitVec.getLsbD_ushiftRight, BitVec.getLsbD_append]
  simp [h]

/-- An operand that was read is written as the code and the words that it was read from. -/
theorem takeOpnd_eq {wide : Bool} {k : AKind} {code : BitVec 8} {ws t : List Word} {o : Opnd}
    (h : takeOpnd wide k code ws = some (o, true, t)) :
    code = o.code ∧ ws = o.words ++ t ∧ o.widthOk wide = true := by
  unfold takeOpnd at h
  split_ifs at h with hlit
  · split at h <;> cases h
    · exact ⟨hlit.1, rfl, rfl⟩
    · next low high =>
      exact ⟨hlit.1, by simp only [Opnd.words, low_of_append, high_of_append, List.cons_append, List.nil_append], rfl⟩
  · split at h
    · next hread =>
      simp only [Option.some.injEq, Prod.mk.injEq, decide_eq_true_eq] at h
      obtain ⟨rfl, hne, rfl⟩ := h
      obtain ⟨hcode, hno⟩ := code_of_opndOf hread hne
      exact ⟨hcode, by rw [words_of_not_literal hno, List.nil_append], widthOk_of_not_literal wide hno⟩
    · cases h


/-! ### Prefix words (R61 to R64) -/


/-- The operand code that a prefixing word carries. -/
def fourthField (c : Option Opnd) : BitVec 8 := (c.map Opnd.code).getD 0

/-- The opcode byte of an ALU prefixing word. -/
def aluPreOp (c : Option Opnd) : BitVec 8 := if c.isSome then 0xF1 else 0xF0

theorem aluPreWord_fields (p : AluPre) :
    aluPreWord p = (aluPreOp p.c).setWidth 32 <<< 24 ||| p.msel.setWidth 32 <<< 20 ||| p.rm.setWidth 32 <<< 18
      ||| (BitVec.ofBool p.z).setWidth 32 <<< 17 ||| (BitVec.ofBool p.sat).setWidth 32 <<< 16
      ||| (BitVec.ofBool p.ftz).setWidth 32 <<< 15 ||| (BitVec.ofBool p.w).setWidth 32 <<< 14
      ||| (fourthField p.c).setWidth 32 := by
  obtain ⟨m, r, z, s, f, w, c⟩ := p
  cases c <;> rfl

theorem aluPreWord_op (p : AluPre) : bits (aluPreWord p) 24 8 = aluPreOp p.c := by
  simp (disch := decide) only [aluPreWord_fields, bits_or, bits_field_same, bits_field_above, bits_low_field_above,
    BitVec.or_zero]

theorem aluPreWord_code (p : AluPre) : bits (aluPreWord p) 0 8 = fourthField p.c := by
  simp (disch := decide) only [aluPreWord_fields, bits_or, bits_field_below, bits_field_zero, BitVec.zero_or]

/-- The fields of an ALU prefixing word. -/
theorem aluPreOf_aluPreWord (p : AluPre) : aluPreOf (aluPreWord p) p.c = p := by
  rw [aluPreOf, aluPreWord_fields]
  simp (disch := decide) only [bits_or, bit_or, bits_field_same, bits_field_above, bits_field_below,
      bits_low_field_above, bit_field_same, bit_field_below, bit_field_above, bit_low_field_above, BitVec.or_zero,
      BitVec.zero_or, Bool.or_false, Bool.false_or]

theorem aluPreWord_w (p : AluPre) : bit (aluPreWord p) 14 = p.w := congrArg AluPre.w (aluPreOf_aluPreWord p)

/-- An ALU prefixing word whose reserved bits are zero is its fields. -/
theorem aluPreWord_aluPreOf {w : Word} {c : Option Opnd} (hop : bits w 24 8 = aluPreOp c)
    (hcode : bits w 0 8 = fourthField c) (hzero : bits w 8 6 = 0) : aluPreWord (aluPreOf w c) = w := by
  have hgap : part w 14 18 ||| part w 0 8 = w := by
    have hnone : part w 8 6 = 0#32 := by rw [part, hzero]; rfl
    calc part w 14 18 ||| part w 0 8 = part w 14 18 ||| part w 8 6 ||| part w 0 8 := by rw [hnone, BitVec.or_zero]
      _ = w := by simp only [part_or_part, Nat.reduceAdd, part_all]
  rw [aluPreWord_fields]
  simp only [aluPreOf, ← hop, ← hcode, part_bits, part_bits_low, part_bit]
  simp only [part_or_part, Nat.reduceAdd, hgap]

theorem memAttWord_fields (a : MemAtt) :
    memAttWord a = (0xF2#8).setWidth 32 <<< 24 ||| a.ord.setWidth 32 <<< 22 ||| a.scope.setWidth 32 <<< 19
      ||| a.aop.setWidth 32 <<< 15 ||| a.use.setWidth 32 <<< 12 ||| (BitVec.ofBool a.nr).setWidth 32 <<< 11
      ||| (BitVec.ofBool a.sx).setWidth 32 <<< 10 ||| (BitVec.ofBool a.c.isSome).setWidth 32 <<< 9
      ||| (fourthField a.c).setWidth 32 := by
  obtain ⟨o, s, p, u, n, x, c⟩ := a
  cases c with
  | none =>
    simp only [memAttWord, Option.isSome_none]
    rw [BitVec.or_assoc _ ((BitVec.ofBool false).setWidth 32 <<< 9)]
    rfl
  | some o =>
    simp only [memAttWord, Option.isSome_some]
    rw [BitVec.or_assoc _ ((BitVec.ofBool true).setWidth 32 <<< 9)]
    rfl

theorem memAttWord_op (a : MemAtt) : bits (memAttWord a) 24 8 = 0xF2 := by
  rw [memAttWord_fields]
  simp (disch := decide) only [bits_or, bits_field_same, bits_field_above, bits_low_field_above, BitVec.or_zero]
  rfl

theorem memAttWord_code (a : MemAtt) : bits (memAttWord a) 0 8 = fourthField a.c := by
  simp (disch := decide) only [memAttWord_fields, bits_or, bits_field_below, bits_field_zero, BitVec.zero_or]

theorem memAttWord_cv (a : MemAtt) : bit (memAttWord a) 9 = a.c.isSome := by
  simp (disch := decide) only [memAttWord_fields, bit_or, bit_field_same, bit_field_below, bit_low_field_above,
    Bool.or_false, Bool.false_or]

/-- The fields of a memory attributes word. -/
theorem memAttOf_memAttWord (a : MemAtt) : memAttOf (memAttWord a) a.c = a := by
  rw [memAttOf, memAttWord_fields]
  simp (disch := decide) only [bits_or, bit_or, bits_field_same, bits_field_above, bits_field_below,
      bits_low_field_above, bit_field_same, bit_field_below, bit_field_above, bit_low_field_above, BitVec.or_zero,
      BitVec.zero_or, Bool.or_false, Bool.false_or]

/-- A memory attributes word whose reserved bit is zero is its fields. -/
theorem memAttWord_memAttOf {w : Word} {c : Option Opnd} (hop : bits w 24 8 = 0xF2) (hcv : bit w 9 = c.isSome)
    (hcode : bits w 0 8 = fourthField c) (hzero : bit w 8 = false) : memAttWord (memAttOf w c) = w := by
  have hgap : part w 9 23 ||| part w 0 8 = w := by
    have hnone : part w 8 1 = 0#32 := by rw [← part_bit, hzero]; rfl
    calc part w 9 23 ||| part w 0 8 = part w 9 23 ||| part w 8 1 ||| part w 0 8 := by rw [hnone, BitVec.or_zero]
      _ = w := by simp only [part_or_part, Nat.reduceAdd, part_all]
  rw [memAttWord_fields, show (0xF2#8 : BitVec 8) = bits w 24 8 from hop.symm]
  simp only [memAttOf, ← hcode, ← hcv, part_bits, part_bits_low, part_bit]
  simp only [part_or_part, Nat.reduceAdd, hgap]

theorem offsetWord_fields (x : BitVec 24) :
    offsetWord x = (0xF3#8).setWidth 32 <<< 24 ||| x.setWidth 32 := rfl

theorem offsetWord_op (x : BitVec 24) : bits (offsetWord x) 24 8 = 0xF3 := by
  rw [offsetWord_fields]
  simp (disch := decide) only [bits_or, bits_field_same, bits_low_field_above, BitVec.or_zero]
  rfl

theorem bits_offsetWord (x : BitVec 24) : bits (offsetWord x) 0 24 = x := by
  simp (disch := decide) only [offsetWord_fields, bits_or, bits_field_below, bits_field_zero, BitVec.zero_or]

theorem offsetWord_bits {w : Word} (hop : bits w 24 8 = 0xF3) : offsetWord (bits w 0 24) = w := by
  rw [offsetWord_fields, show (0xF3#8 : BitVec 8) = bits w 24 8 from hop.symm]
  simp only [part_bits, part_bits_low, part_or_part, Nat.reduceAdd, part_all]

/-! ### The fourth operand (R62, R63) -/

/-- The words of a fourth operand that is a literal. -/
def fourthWords (c : Option Opnd) : List Word := c.toList.flatMap Opnd.words

theorem takeFourth_of {wide : Bool} {ps : List Word} {c : Option Opnd} (hcode : fourthCode ps = c.map Opnd.code)
    (hw : c.toList.all (Opnd.widthOk wide) = true) (t : List Word) :
    takeFourth wide ps (fourthWords c ++ t) = some (c, true, t) := by
  unfold takeFourth
  rw [hcode]
  cases c with
  | none => rfl
  | some o =>
    have hread := takeOpnd_code (k := .op) (by simpa using hw) (fun _ => rfl) t
    simp [fourthWords, hread]

theorem takeFourth_eq {wide : Bool} {ps ws t : List Word} {c : Option Opnd}
    (h : takeFourth wide ps ws = some (c, true, t)) :
    fourthCode ps = c.map Opnd.code ∧ ws = fourthWords c ++ t ∧ c.toList.all (Opnd.widthOk wide) = true := by
  unfold takeFourth at h
  split at h
  · next hcode =>
    cases h
    exact ⟨hcode, rfl, rfl⟩
  · next code hcode =>
    obtain ⟨⟨o, ok, u⟩, hread, heq⟩ := Option.map_eq_some_iff.mp h
    cases heq
    obtain ⟨rfl, rfl, hw⟩ := takeOpnd_eq hread
    exact ⟨hcode, by simp [fourthWords], by simpa using hw⟩

/-! ### The prefixes of an instruction (R61) -/

theorem fourthCode_alu (pre : Option AluPre) :
    fourthCode (pre.map aluPreWord).toList = (pre.bind (·.c)).map Opnd.code := by
  cases pre with
  | none => rfl
  | some p =>
    cases hc : p.c with
    | none =>
      have hop : bits (aluPreWord p) 24 8 = 0xF0 := by rw [aluPreWord_op, hc]; rfl
      simp [fourthCode, prefixWord, hop, hc]
    | some o =>
      have hop : bits (aluPreWord p) 24 8 = 0xF1 := by rw [aluPreWord_op, hc]; rfl
      simp [fourthCode, prefixWord, hop, hc, aluPreWord_code, fourthField]

theorem aluWord_alu (pre : Option AluPre) : aluWord (pre.map aluPreWord).toList = pre.map aluPreWord := by
  cases pre with
  | none => rfl
  | some p =>
    have hop : bits (aluPreWord p) 24 8 = 0xF0 ∨ bits (aluPreWord p) 24 8 = 0xF1 := by
      rw [aluPreWord_op, aluPreOp]
      split <;> simp
    simp only [Option.map_some, Option.toList_some, aluWord, List.find?_cons, hop, decide_true]

theorem fourthCode_mem (a : Option MemAtt) (x : Option (BitVec 24)) :
    fourthCode (memPrefixes a x) = (a.bind (·.c)).map Opnd.code := by
  cases a with
  | none => cases x <;> simp [fourthCode, prefixWord, memPrefixes, offsetWord_op]
  | some a =>
    cases hc : a.c <;> cases x <;>
      simp [fourthCode, prefixWord, memPrefixes, offsetWord_op, memAttWord_op, memAttWord_cv, memAttWord_code, hc,
        fourthField]

theorem attWord_mem (a : Option MemAtt) (x : Option (BitVec 24)) :
    prefixWord (memPrefixes a x) 0xF2 = a.map memAttWord := by
  cases a <;> cases x <;> simp [prefixWord, memPrefixes, offsetWord_op, memAttWord_op]

theorem offWord_mem (a : Option MemAtt) (x : Option (BitVec 24)) :
    prefixWord (memPrefixes a x) 0xF3 = x.map offsetWord := by
  cases a <;> cases x <;> simp [prefixWord, memPrefixes, offsetWord_op, memAttWord_op]

theorem aluWord_mem (a : Option MemAtt) (x : Option (BitVec 24)) : aluWord (memPrefixes a x) = none := by
  cases a <;> cases x <;> simp [aluWord, memPrefixes, offsetWord_op, memAttWord_op]

/-- The ALU prefixing word that words stand for. -/
def aluPrefix (ps : List Word) (c : Option Opnd) : Option AluPre := (aluWord ps).map fun p => aluPreOf p c

/-- The memory attributes that words stand for. -/
def memPrefix (ps : List Word) (c : Option Opnd) : Option MemAtt := (prefixWord ps 0xF2).map fun p => memAttOf p c

/-- The offset that words stand for. -/
def offPrefix (ps : List Word) : Option (BitVec 24) := (prefixWord ps 0xF3).map fun p => bits p 0 24

/-- W of the ALU prefixing word. -/
def wideOf (ps : List Word) : Bool := ((aluWord ps).map fun p => bit p 14).getD false

theorem aluPrefix_alu (pre : Option AluPre) :
    aluPrefix (pre.map aluPreWord).toList (pre.bind (·.c)) = pre := by
  rw [aluPrefix, aluWord_alu]
  cases pre <;> simp [aluPreOf_aluPreWord]

theorem wideOf_alu (pre : Option AluPre) : wideOf (pre.map aluPreWord).toList = (pre.map (·.w)).getD false := by
  rw [wideOf, aluWord_alu]
  cases pre <;> simp [aluPreWord_w]

theorem memPrefix_mem (a : Option MemAtt) (x : Option (BitVec 24)) :
    memPrefix (memPrefixes a x) (a.bind (·.c)) = a := by
  rw [memPrefix, attWord_mem]
  cases a <;> simp [memAttOf_memAttWord]

theorem offPrefix_mem (a : Option MemAtt) (x : Option (BitVec 24)) : offPrefix (memPrefixes a x) = x := by
  rw [offPrefix, offWord_mem]
  cases x <;> simp [bits_offsetWord]

theorem wideOf_mem (a : Option MemAtt) (x : Option (BitVec 24)) : wideOf (memPrefixes a x) = false := by
  simp [wideOf, aluWord_mem]

/-- The ALU prefixes that R61 admits are the words of the prefixing word that they stand for. -/
theorem aluPrefixes_eq {ps : List Word} {c : Option Opnd} (hseq : sequenceOk 0 ps = true)
    (hok : ps.all prefixWordOk = true) (hcode : fourthCode ps = c.map Opnd.code) :
    ((aluPrefix ps c).map aluPreWord).toList = ps ∧ (aluPrefix ps c).bind (·.c) = c := by
  match ps with
  | [] =>
    cases c with
    | none => exact ⟨rfl, rfl⟩
    | some o => cases hcode
  | [w] =>
    have hop : bits w 24 8 = 0xF0 ∨ bits w 24 8 = 0xF1 := by simpa [sequenceOk] using hseq
    have hword : prefixWordOk w = true := by simpa using hok
    have hfind : aluWord [w] = some w := by
      simp only [aluWord, List.find?_cons, hop, decide_true]
    have hpre : aluPrefix [w] c = some (aluPreOf w c) := by rw [aluPrefix, hfind]; rfl
    rw [hpre]
    refine ⟨?_, rfl⟩
    obtain hop | hop := hop
    · obtain ⟨h1, h2⟩ : bits w 8 6 = 0 ∧ bits w 0 8 = 0 := by simpa [prefixWordOk, hop] using hword
      cases c with
      | none => exact congrArg (fun w => [w]) (aluPreWord_aluPreOf hop h2 h1)
      | some o => simp [fourthCode, prefixWord, hop] at hcode
    · have h1 : bits w 8 6 = 0 := by simpa [prefixWordOk, hop] using hword
      cases c with
      | none => simp [fourthCode, prefixWord, hop] at hcode
      | some o =>
        have h2 : bits w 0 8 = o.code := by simpa [fourthCode, prefixWord, hop] using hcode
        exact congrArg (fun w => [w]) (aluPreWord_aluPreOf hop h2 h1)
  | [_, _] => simp [sequenceOk] at hseq
  | _ :: _ :: _ :: _ => simp [sequenceOk] at hseq

theorem memAttOf_c (w : Word) (c : Option Opnd) : (memAttOf w c).c = c := rfl

/-- A word of attributes with its fourth operand is the word of its attributes. -/
theorem memAttWord_of_ok {w : Word} {c : Option Opnd} (hop : bits w 24 8 = 0xF2) (hok : prefixWordOk w = true)
    (hcode : (if bit w 9 then some (bits w 0 8) else none) = c.map Opnd.code) : memAttWord (memAttOf w c) = w := by
  obtain ⟨⟨⟨⟨hzero, -⟩, -⟩, -⟩, hcv⟩ : (((bit w 8 = false ∧ _) ∧ _) ∧ _) ∧ (bit w 9 = true ∨ bits w 0 8 = 0) := by
    simpa [prefixWordOk, hop, and_assoc] using hok
  cases c with
  | none =>
    have h9 : bit w 9 = false := by simpa using hcode
    exact memAttWord_memAttOf hop h9 (hcv.resolve_left (by simp [h9])) hzero
  | some o =>
    have h9 : bit w 9 = true ∧ bits w 0 8 = o.code := by simpa using hcode
    exact memAttWord_memAttOf hop h9.1 h9.2 hzero

/-- The memory prefixes that R61 admits are the words of the attributes and the offset that they stand for. -/
theorem memPrefixes_eq {ps : List Word} {c : Option Opnd} (hseq : sequenceOk 1 ps = true)
    (hok : ps.all prefixWordOk = true) (hcode : fourthCode ps = c.map Opnd.code) :
    memPrefixes (memPrefix ps c) (offPrefix ps) = ps ∧ (memPrefix ps c).bind (·.c) = c := by
  match ps with
  | [] =>
    cases c with
    | none => exact ⟨rfl, rfl⟩
    | some o => cases hcode
  | [w] =>
    have hword : prefixWordOk w = true := by simpa using hok
    obtain hop | hop : bits w 24 8 = 0xF2 ∨ bits w 24 8 = 0xF3 := by simpa [sequenceOk] using hseq
    · have hcode' : (if bit w 9 then some (bits w 0 8) else none) = c.map Opnd.code := by
        simpa [fourthCode, prefixWord, hop] using hcode
      simp [memPrefix, offPrefix, prefixWord, hop, memPrefixes, memAttWord_of_ok hop hword hcode', memAttOf_c]
    · cases c with
      | none => simp [memPrefix, offPrefix, prefixWord, hop, memPrefixes, offsetWord_bits hop]
      | some o => simp [fourthCode, prefixWord, hop] at hcode
  | [w, v] =>
    have hword : prefixWordOk w = true := by simp at hok; exact hok.1
    obtain ⟨hop, hov⟩ : bits w 24 8 = 0xF2 ∧ bits v 24 8 = 0xF3 := by simpa [sequenceOk] using hseq
    have hcode' : (if bit w 9 then some (bits w 0 8) else none) = c.map Opnd.code := by
      simpa [fourthCode, prefixWord, hop, hov] using hcode
    simp [memPrefix, offPrefix, prefixWord, hop, hov, memPrefixes, memAttWord_of_ok hop hword hcode', memAttOf_c,
      offsetWord_bits hov]
  | _ :: _ :: _ :: _ => simp [sequenceOk] at hseq

theorem prefixes_nil {cls : Nat} {ps : List Word} (hcls : 2 ≤ cls) (hseq : sequenceOk cls ps = true) : ps = [] := by
  match ps with
  | [] => rfl
  | [w] =>
    have h0 : cls ≠ 0 := by omega
    have h1 : cls ≠ 1 := by omega
    simp [sequenceOk, h0, h1] at hseq
  | [w, v] =>
    have h1 : cls ≠ 1 := by omega
    simp [sequenceOk, h1] at hseq
  | _ :: _ :: _ :: _ => simp [sequenceOk] at hseq

theorem wideOf_of_mem {ps : List Word} (hseq : sequenceOk 1 ps = true) : wideOf ps = false := by
  match ps with
  | [] => rfl
  | [w] =>
    obtain hop | hop : bits w 24 8 = 0xF2 ∨ bits w 24 8 = 0xF3 := by simpa [sequenceOk] using hseq
    · simp [wideOf, aluWord, hop]
    · simp [wideOf, aluWord, hop]
  | [w, v] =>
    obtain ⟨hop, hov⟩ : bits w 24 8 = 0xF2 ∧ bits v 24 8 = 0xF3 := by simpa [sequenceOk] using hseq
    simp [wideOf, aluWord, hop, hov]
  | _ :: _ :: _ :: _ => simp [sequenceOk] at hseq

/-! ### Where the prefixes end -/

/-- Is the opcode that of a prefixing word? -/
def prefixOp (op : BitVec 8) : Bool := 0xF0 ≤ op && op ≤ 0xF3

theorem prefixOp_iff (w : Word) : (0xF0#32 ≤ w >>> 24 ∧ w >>> 24 ≤ 0xF3#32) ↔ prefixOp (bits w 24 8) = true := by
  have hshift : w >>> 24 = (bits w 24 8).setWidth 32 := by
    apply BitVec.eq_of_getLsbD_eq
    intro i hi
    by_cases h : i < 8
    · simp [h, hi]
    · have h2 : 32 ≤ 24 + i := by omega
      simp [h, BitVec.getLsbD_of_ge w _ h2]
  rw [hshift]
  generalize bits w 24 8 = op
  simp only [prefixOp, Bool.and_eq_true, decide_eq_true_eq]
  constructor <;> intro h <;> constructor <;> bv_omega

theorem splitPrefixes_append {ps : List Word} {w : Word} (hps : ∀ p ∈ ps, prefixOp (bits p 24 8) = true)
    (hw : prefixOp (bits w 24 8) = false) (t : List Word) : splitPrefixes (ps ++ w :: t) = (ps, w :: t) := by
  induction ps with
  | nil =>
    have h : ¬ (0xF0#32 ≤ w >>> 24 ∧ w >>> 24 ≤ 0xF3#32) := by rw [prefixOp_iff, hw]; decide
    simp only [List.nil_append, splitPrefixes, if_neg h]
  | cons p ps ih =>
    have h : 0xF0#32 ≤ p >>> 24 ∧ p >>> 24 ≤ 0xF3#32 := (prefixOp_iff p).mpr (hps p (by simp))
    rw [List.cons_append, splitPrefixes, if_pos h, ih fun q hq => hps q (by simp [hq])]

theorem splitPrefixes_join (ws : List Word) : (splitPrefixes ws).1 ++ (splitPrefixes ws).2 = ws := by
  induction ws with
  | nil => rfl
  | cons w t ih =>
    rw [splitPrefixes]
    split
    · exact congrArg (w :: ·) ih
    · rfl

end Sys2Proof

-- Forms as words: the parts that an encoded form has, and reading each shape back from them.

namespace Sys2Proof

/-- The prefixing words of a form. -/
def Form.prefixes : Form → List Word
  | .memV _ g => memPrefixes g.att g.off
  | .memU _ g => memPrefixes g.att g.pre
  | .fence g => memPrefixes g.att g.off
  | .lda g => memPrefixes g.att g.off
  | f => (f.pre.map aluPreWord).toList

/-- The vector index field of Format M, with its bit above it. -/
def indexField (idx : Option (BitVec 7)) : Word :=
  match idx with
  | some r => 1#32 <<< 7 ||| r.setWidth 32
  | none => 0#32

/-- The gather index field of LDA's second word, with its bit below it. -/
def gatherField (idx : Option (BitVec 7)) : Word :=
  match idx with
  | some r => r.setWidth 32 <<< 25 ||| 1#32 <<< 24
  | none => 0#32

/-- The operand code of the scalar that PROMOTE reads from, or of the integer 0 where it copies nothing. -/
def sourceCode (a : Option (BitVec 6)) : BitVec 8 :=
  match a with
  | some a => scalarCode a
  | none => 0xD0

/-- The instruction word of a form. -/
def Form.word : Form → Word
  | .none op => wordA op false 0 0 0
  | .br op c off => op.setWidth 32 <<< 24 ||| c.setWidth 32 <<< 16 ||| off.setWidth 32
  | .ctl op d a b => wordA op false d a.code (fourthField b)
  | .n8 op x => wordA op false 0 0 x
  | .alu2 op g => wordA op g.n g.d g.a.code g.b.code
  | .alu1 op g => wordA op g.n g.d g.a.code 0
  | .aluX op g => wordA op g.n g.d g.a.code g.x
  | .aluD op g => wordA op g.n g.d 0 0
  | .imm op g => wordA op g.n g.d 0 0 ||| g.imm.setWidth 32
  | .sget g => wordA 0x3E g.n g.d 0 g.x
  | .mask2 op g => wordA op g.n (g.d.setWidth 7) (g.a.setWidth 8) (g.b.setWidth 8)
  | .mask1 op g => wordA op g.n (g.d.setWidth 7) (g.a.setWidth 8) 0
  | .maskS op g => wordA op g.n g.d (g.a.setWidth 8) 0
  | .maskL g => wordA 0x83 g.n (g.d.setWidth 7) (scalarCode g.a) 0
  | .expr g => wordA 0x89 g.n g.d g.in0.code g.in1.code
  | .memV op g => op.setWidth 32 <<< 24 ||| g.sz.setWidth 32 <<< 21 ||| g.d.setWidth 32 <<< 14
      ||| g.base.setWidth 32 <<< 8 ||| indexField g.idx
  | .memU op g => op.setWidth 32 <<< 24 ||| g.sz.setWidth 32 <<< 21 ||| g.d.setWidth 32 <<< 15
      ||| g.base.setWidth 32 <<< 9 ||| g.off.setWidth 32
  | .fence g => wordA 0xA8 false 0 0 g.kind
  | .lda g => 0xAF#32 <<< 24 ||| g.lsz.setWidth 32 <<< 22 ||| g.tag.setWidth 32 <<< 19
        ||| g.sbase.setWidth 32 <<< 13 ||| g.sidx.setWidth 32 <<< 6 ||| g.gbase.setWidth 32
  | .promote t q a b => wordA 0xC4 false (t.setWidth 7 <<< 5 ||| q.setWidth 7) (sourceCode a) b.code
  | .arena d a x => wordA 0xC5 false d a.code x
  | .slot op o a x => wordA op false (o.setWidth 7) a.code x
  | .mma g => wordA 0xD4 false ((BitVec.ofBool g.zc).setWidth 7 <<< 6 ||| (BitVec.ofBool g.na).setWidth 7 <<< 5
      ||| (BitVec.ofBool g.nb).setWidth 7 <<< 4 ||| g.t.setWidth 7) (g.a.setWidth 8) (g.w.setWidth 8)
  | .aclr t => wordA 0xD5 false (t.setWidth 7) 0 0
  | .adrn t a => wordA 0xD6 false (t.setWidth 7) a.code 0

/-- The first extension word of EXPR (R70). -/
def ExprF.word (g : ExprF) : Word :=
  g.in2.code.setWidth 32 <<< 24 ||| g.in3.code.setWidth 32 <<< 16 ||| g.ty.setWidth 32 <<< 14
    ||| (g.steps >>> 32).setWidth 32

/-- The extension word of LDA (R69). -/
def LdaF.word (g : LdaF) : Word := gatherField g.gidx ||| g.vb.code.setWidth 32 <<< 16

/-- The extension words of a form. -/
def Form.extension : Form → List Word
  | .expr g => [g.word, g.steps.setWidth 32]
  | .lda g => [g.word]
  | _ => []

/-- The words of a form after its instruction word. -/
def Form.tail (f : Form) : List Word := f.extension ++ f.opnds.flatMap Opnd.words

/-- An encoded form is its prefixes, its instruction word and the words after it. -/
theorem encodeForm_eq (f : Form) : encodeForm f = f.prefixes ++ f.word :: f.tail := by
  cases f with
  | ctl op d a b => cases b <;> rfl
  | _ => simp [encodeForm, Form.prefixes, Form.word, Form.tail, Form.extension, Form.opnds, Form.pre, indexField,
      gatherField, sourceCode, ExprF.word, LdaF.word] <;> rfl

/-- The shape whose words a form has, where `ctlA` stands for `ctlDA` too. -/
def Form.shape : Form → Shape
  | .none _ => .none
  | .br _ _ _ => .br
  | .ctl _ _ _ b => if b.isSome then .ctlAB else .ctlA
  | .n8 _ _ => .n8
  | .alu2 _ _ => .alu2
  | .alu1 _ _ => .alu1
  | .aluX _ _ => .aluX
  | .aluD _ _ => .aluD
  | .imm _ _ => .imm
  | .sget _ => .sget
  | .mask2 _ _ => .mask2
  | .mask1 _ _ => .mask1
  | .maskS _ _ => .maskS
  | .maskL _ => .maskL
  | .expr _ => .expr
  | .memV _ _ => .memV
  | .memU _ _ => .memU
  | .fence _ => .fence
  | .lda _ => .lda
  | .promote _ _ _ _ => .promote
  | .arena _ _ _ => .arena
  | .slot _ _ _ _ => .slot
  | .mma _ => .mma
  | .aclr _ => .aclr
  | .adrn _ _ => .adrn

/-- Are a form's words of a shape? -/
def Form.HasShape (f : Form) (s : Shape) : Prop := s = f.shape ∨ s = .ctlDA ∧ f.shape = .ctlA

/-- Literals stand only in fields that count them. -/
def Form.LiteralsFit (row : Row) : Form → Prop
  | .ctl _ _ a b => LiteralFits row.a a ∧ ∀ o ∈ b, LiteralFits row.b o
  | .alu2 _ g => LiteralFits row.a g.a ∧ LiteralFits row.b g.b
  | .alu1 _ g => LiteralFits row.a g.a
  | .aluX _ g => LiteralFits row.a g.a
  | .promote _ _ _ b => LiteralFits row.b b
  | .arena _ a _ => LiteralFits row.a a
  | .slot _ _ a _ => LiteralFits row.a a
  | .adrn _ a => LiteralFits row.a a
  | _ => True

/-! ### The opcode table -/

/-- The bits that the instruction words of a shape leave at zero. -/
def Shape.zero : Shape → Word
  | .none => 0x00FFFFFF
  | .ctlA => 0x008000FF
  | .ctlAB => 0x00800000
  | .ctlDA => 0x008000FF
  | .n8 => 0x00FFFF00
  | .alu1 => 0xFF
  | .aluD => 0xFFFF
  | .sget => 0xFF00
  | .mask2 => 0x0070F0F0
  | .mask1 => 0x0070F0FF
  | .maskS => 0xF0FF
  | .maskL => 0x007000FF
  | .fence => 0x00FFFF00
  | .promote => 0x00800000
  | .arena => 0x00800000
  | .slot => 0x00C00000
  | .mma => 0x0080C0C0
  | .aclr => 0x00F0FFFF
  | .adrn => 0x00F000FF
  | _ => 0

/-- The opcode of a shape that one row alone has. -/
def Shape.only : Shape → Option Nat
  | .sget => some 0x3E
  | .maskL => some 0x83
  | .expr => some 0x89
  | .fence => some 0xA8
  | .lda => some 0xAF
  | .promote => some 0xC4
  | .arena => some 0xC5
  | .mma => some 0xD4
  | .aclr => some 0xD5
  | .adrn => some 0xD6
  | _ => Option.none

/-- The class of a shape, where 2 stands for every class without prefixes. -/
def Shape.prefixClass : Shape → Nat
  | .alu2 | .alu1 | .aluX | .aluD | .imm | .sget | .mask2 | .mask1 | .maskS | .maskL | .expr => 0
  | .memV | .memU | .fence | .lda => 1
  | _ => 2

/-- What every row of the opcode table keeps to, with each of its opcodes. -/
def Row.regular (op : Nat) (row : Row) : Bool :=
  row.zero &&& row.shape.zero == row.shape.zero && row.shape.only.all (· == op)
    && min row.cls 2 == row.shape.prefixClass && (op < 0xF0 || 0xF3 < op)
    && match row.shape with
      | .ctlA | .ctlDA | .alu1 | .slot => row.a != .none
      | .ctlAB | .alu2 => row.a != .none && row.b != .none
      | .aluX | .arena | .adrn => row.a.literal
      | .promote => row.b.literal
      | _ => true

theorem rows_regular : (rows.all fun r => r.1.all fun n => r.2.regular n) = true := by decide

theorem regular_of_rowOf {op : BitVec 8} {row : Row} (h : rowOf op = some row) : row.regular op.toNat = true := by
  obtain ⟨r, hr, rfl⟩ := Option.map_eq_some_iff.mp h
  have hop := List.find?_some (p := fun r : List Nat × Row => r.1.contains op.toNat) hr
  have hall := List.all_eq_true.mp rows_regular r (List.mem_of_find?_eq_some hr)
  exact List.all_eq_true.mp hall op.toNat (List.contains_iff_mem.mp hop)

end Sys2Proof

-- The words of the formats that are not Format A: their fields, read and written.

namespace Sys2Proof

/-! ### Optional fields -/

theorem indexField_fields (idx : Option (BitVec 7)) :
    indexField idx = (BitVec.ofBool idx.isSome).setWidth 32 <<< 7 ||| (idx.getD 0).setWidth 32 := by
  cases idx with
  | none => rfl
  | some r => simp [indexField]

theorem gatherField_fields (idx : Option (BitVec 7)) :
    gatherField idx = (idx.getD 0).setWidth 32 <<< 25 ||| (BitVec.ofBool idx.isSome).setWidth 32 <<< 24 := by
  cases idx with
  | none => rfl
  | some r => simp [gatherField]

/-- An index is its field, read where its bit is set. -/
theorem index_of_field (idx : Option (BitVec 7)) : (if idx.isSome then some (idx.getD 0) else none) = idx := by
  cases idx <;> rfl

/-- The word of Format M (R67). -/
def memVWord (op : BitVec 8) (sz : BitVec 3) (d : BitVec 7) (base : BitVec 6) (x : Bool) (idx : BitVec 7) : Word :=
  op.setWidth 32 <<< 24 ||| sz.setWidth 32 <<< 21 ||| d.setWidth 32 <<< 14 ||| base.setWidth 32 <<< 8
    ||| (BitVec.ofBool x).setWidth 32 <<< 7 ||| idx.setWidth 32

theorem memV_word (op : BitVec 8) (g : MemV) :
    (Form.memV op g).word = memVWord op g.sz g.d g.base g.idx.isSome (g.idx.getD 0) := by
  rw [Form.word, indexField_fields, memVWord, BitVec.or_assoc _ ((BitVec.ofBool _).setWidth 32 <<< 7)]

theorem memVWord_bits (w : Word) :
    memVWord (bits w 24 8) (bits w 21 3) (bits w 14 7) (bits w 8 6) (bit w 7) (bits w 0 7) = w := by
  simp only [memVWord, part_bits, part_bits_low, part_bit]
  simp only [part_or_part, Nat.reduceAdd, part_all]

section MemVWord

variable (op : BitVec 8) (sz : BitVec 3) (d : BitVec 7) (base : BitVec 6) (x : Bool) (idx : BitVec 7)

@[simp] theorem memVWord_op : bits (memVWord op sz d base x idx) 24 8 = op := by simp [memVWord]
@[simp] theorem memVWord_sz : bits (memVWord op sz d base x idx) 21 3 = sz := by simp [memVWord]
@[simp] theorem memVWord_d : bits (memVWord op sz d base x idx) 14 7 = d := by simp [memVWord]
@[simp] theorem memVWord_base : bits (memVWord op sz d base x idx) 8 6 = base := by simp [memVWord]
@[simp] theorem memVWord_x : bit (memVWord op sz d base x idx) 7 = x := by simp [memVWord]
@[simp] theorem memVWord_idx : bits (memVWord op sz d base x idx) 0 7 = idx := by simp [memVWord]

end MemVWord


/-- The word of Format MU (R68). -/
def memUWord (op : BitVec 8) (sz : BitVec 3) (d base : BitVec 6) (off : BitVec 9) : Word :=
  op.setWidth 32 <<< 24 ||| sz.setWidth 32 <<< 21 ||| d.setWidth 32 <<< 15 ||| base.setWidth 32 <<< 9
    ||| off.setWidth 32

theorem memU_word (op : BitVec 8) (g : MemU) : (Form.memU op g).word = memUWord op g.sz g.d g.base g.off := rfl

theorem memUWord_bits (w : Word) :
    memUWord (bits w 24 8) (bits w 21 3) (bits w 15 6) (bits w 9 6) (bits w 0 9) = w := by
  simp only [memUWord, part_bits, part_bits_low, part_or_part, Nat.reduceAdd, part_all]

section MemUWord

variable (op : BitVec 8) (sz : BitVec 3) (d base : BitVec 6) (off : BitVec 9)

@[simp] theorem memUWord_op : bits (memUWord op sz d base off) 24 8 = op := by simp [memUWord]
@[simp] theorem memUWord_sz : bits (memUWord op sz d base off) 21 3 = sz := by simp [memUWord]
@[simp] theorem memUWord_d : bits (memUWord op sz d base off) 15 6 = d := by simp [memUWord]
@[simp] theorem memUWord_base : bits (memUWord op sz d base off) 9 6 = base := by simp [memUWord]
@[simp] theorem memUWord_off : bits (memUWord op sz d base off) 0 9 = off := by simp [memUWord]

end MemUWord

/-- The first word of Format L (R69). -/
def ldaWord (op : BitVec 8) (lsz : BitVec 2) (tag : BitVec 3) (sbase : BitVec 6) (sidx : BitVec 7)
    (gbase : BitVec 6) : Word :=
  op.setWidth 32 <<< 24 ||| lsz.setWidth 32 <<< 22 ||| tag.setWidth 32 <<< 19 ||| sbase.setWidth 32 <<< 13
    ||| sidx.setWidth 32 <<< 6 ||| gbase.setWidth 32

theorem ldaWord_bits (w : Word) :
    ldaWord (bits w 24 8) (bits w 22 2) (bits w 19 3) (bits w 13 6) (bits w 6 7) (bits w 0 6) = w := by
  simp only [ldaWord, part_bits, part_bits_low, part_or_part, Nat.reduceAdd, part_all]

theorem lda_word (g : LdaF) : (Form.lda g).word = ldaWord 0xAF g.lsz g.tag g.sbase g.sidx g.gbase := rfl

section LdaWord

variable (op : BitVec 8) (lsz : BitVec 2) (tag : BitVec 3) (sbase : BitVec 6) (sidx : BitVec 7) (gbase : BitVec 6)

@[simp] theorem ldaWord_op : bits (ldaWord op lsz tag sbase sidx gbase) 24 8 = op := by simp [ldaWord]
@[simp] theorem ldaWord_lsz : bits (ldaWord op lsz tag sbase sidx gbase) 22 2 = lsz := by simp [ldaWord]
@[simp] theorem ldaWord_tag : bits (ldaWord op lsz tag sbase sidx gbase) 19 3 = tag := by simp [ldaWord]
@[simp] theorem ldaWord_sbase : bits (ldaWord op lsz tag sbase sidx gbase) 13 6 = sbase := by simp [ldaWord]
@[simp] theorem ldaWord_sidx : bits (ldaWord op lsz tag sbase sidx gbase) 6 7 = sidx := by simp [ldaWord]
@[simp] theorem ldaWord_gbase : bits (ldaWord op lsz tag sbase sidx gbase) 0 6 = gbase := by simp [ldaWord]

end LdaWord

/-- The second word of Format L (R69). -/
def gatherWord (x : Bool) (idx : BitVec 7) (code : BitVec 8) : Word :=
  idx.setWidth 32 <<< 25 ||| (BitVec.ofBool x).setWidth 32 <<< 24 ||| code.setWidth 32 <<< 16

theorem lda_second (g : LdaF) : g.word = gatherWord g.gidx.isSome (g.gidx.getD 0) g.vb.code := by
  rw [LdaF.word, gatherField_fields, gatherWord]

theorem gatherWord_bits {w : Word} (h : bits w 0 16 = 0) : gatherWord (bit w 24) (bits w 25 7) (bits w 16 8) = w := by
  have hnone : part w 0 16 = 0#32 := by rw [← part_bits_low, h]; rfl
  calc gatherWord (bit w 24) (bits w 25 7) (bits w 16 8)
      = part w 25 7 ||| part w 24 1 ||| part w 16 8 ||| part w 0 16 := by
        rw [hnone, BitVec.or_zero, gatherWord, part_bits, part_bits, part_bit]
    _ = w := by simp only [part_or_part, Nat.reduceAdd, part_all]

section GatherWord

variable (x : Bool) (idx : BitVec 7) (code : BitVec 8)

@[simp] theorem gatherWord_x : bit (gatherWord x idx code) 24 = x := by simp [gatherWord]
@[simp] theorem gatherWord_idx : bits (gatherWord x idx code) 25 7 = idx := by simp [gatherWord]
@[simp] theorem gatherWord_code : bits (gatherWord x idx code) 16 8 = code := by simp [gatherWord]

end GatherWord

/-- The word of Format I (R65). -/
def immWord (op : BitVec 8) (n : Bool) (d : BitVec 7) (x : BitVec 16) : Word :=
  op.setWidth 32 <<< 24 ||| (BitVec.ofBool n).setWidth 32 <<< 23 ||| d.setWidth 32 <<< 16 ||| x.setWidth 32

theorem imm_word (op : BitVec 8) (g : AluImm) : (Form.imm op g).word = immWord op g.n g.d g.imm := by
  simp [Form.word, wordA, immWord]

theorem immWord_bits (w : Word) : immWord (bits w 24 8) (bit w 23) (bits w 16 7) (bits w 0 16) = w := by
  simp only [immWord, part_bits, part_bits_low, part_bit]
  simp only [part_or_part, Nat.reduceAdd, part_all]

section ImmWord

variable (op : BitVec 8) (n : Bool) (d : BitVec 7) (x : BitVec 16)

@[simp] theorem immWord_op : bits (immWord op n d x) 24 8 = op := by simp [immWord]
@[simp] theorem immWord_n : bit (immWord op n d x) 23 = n := by simp [immWord]
@[simp] theorem immWord_d : bits (immWord op n d x) 16 7 = d := by simp [immWord]
@[simp] theorem immWord_x : bits (immWord op n d x) 0 16 = x := by simp [immWord]

end ImmWord

/-- The word of a branch (R66). -/
def brWord (op c : BitVec 8) (off : BitVec 16) : Word :=
  op.setWidth 32 <<< 24 ||| c.setWidth 32 <<< 16 ||| off.setWidth 32

theorem br_word (op c : BitVec 8) (off : BitVec 16) : (Form.br op c off).word = brWord op c off := rfl

theorem brWord_bits (w : Word) : brWord (bits w 24 8) (bits w 16 8) (bits w 0 16) = w := by
  simp only [brWord, part_bits, part_bits_low, part_or_part, Nat.reduceAdd, part_all]

section BrWord

variable (op c : BitVec 8) (off : BitVec 16)

@[simp] theorem brWord_op : bits (brWord op c off) 24 8 = op := by simp [brWord]
@[simp] theorem brWord_c : bits (brWord op c off) 16 8 = c := by simp [brWord]
@[simp] theorem brWord_off : bits (brWord op c off) 0 16 = off := by simp [brWord]

end BrWord

/-- The first extension word of EXPR (R70): the codes of the inputs 2 and 3, the type and the first steps. -/
def stepWord (c d : BitVec 8) (ty : BitVec 2) (steps : BitVec 12) : Word :=
  c.setWidth 32 <<< 24 ||| d.setWidth 32 <<< 16 ||| ty.setWidth 32 <<< 14 ||| steps.setWidth 32

theorem expr_second (g : ExprF) :
    g.word = stepWord g.in2.code g.in3.code g.ty ((g.steps >>> 32).setWidth 12) := by
  have h : (g.steps >>> 32).setWidth 32 = ((g.steps >>> 32).setWidth 12).setWidth 32 := by
    apply BitVec.eq_of_getLsbD_eq
    intro i hi
    by_cases h12 : i < 12
    · simp [hi, h12]
    · simp [h12, BitVec.getLsbD_of_ge g.steps (32 + i) (by omega)]
  rw [ExprF.word, stepWord, h]

theorem stepWord_bits {w : Word} (h : bits w 12 2 = 0) :
    stepWord (bits w 24 8) (bits w 16 8) (bits w 14 2) (bits w 0 12) = w := by
  have hnone : part w 12 2 = 0#32 := by rw [part, h]; rfl
  calc stepWord (bits w 24 8) (bits w 16 8) (bits w 14 2) (bits w 0 12)
      = part w 24 8 ||| part w 16 8 ||| part w 14 2 ||| part w 12 2 ||| part w 0 12 := by
        rw [hnone, BitVec.or_zero, stepWord, part_bits, part_bits, part_bits, part_bits_low]
    _ = w := by simp only [part_or_part, Nat.reduceAdd, part_all]

section StepWord

variable (c d : BitVec 8) (ty : BitVec 2) (steps : BitVec 12)

@[simp] theorem stepWord_c : bits (stepWord c d ty steps) 24 8 = c := by simp [stepWord]
@[simp] theorem stepWord_d : bits (stepWord c d ty steps) 16 8 = d := by simp [stepWord]
@[simp] theorem stepWord_ty : bits (stepWord c d ty steps) 14 2 = ty := by simp [stepWord]
@[simp] theorem stepWord_steps : bits (stepWord c d ty steps) 0 12 = steps := by simp [stepWord]

end StepWord

/-- The steps of EXPR are the low bits of its first extension word and the second one. -/
theorem steps_join (x : BitVec 44) : (x >>> 32).setWidth 12 ++ x.setWidth 32 = x := by
  apply BitVec.eq_of_getLsbD_eq
  intro i hi
  rw [BitVec.getLsbD_append]
  by_cases h : i < 32
  · simp [h]
  · have h1 : i - 32 < 12 := by omega
    have h2 : 32 + (i - 32) = i := by omega
    simp [h, h1, h2]

theorem steps_low (a : BitVec 12) (w : Word) : (a ++ w : BitVec 44).setWidth 32 = w := by
  apply BitVec.eq_of_getLsbD_eq
  intro i h
  rw [BitVec.getLsbD_setWidth, BitVec.getLsbD_append]
  simp [h]

theorem steps_high (a : BitVec 12) (w : Word) : ((a ++ w : BitVec 44) >>> 32).setWidth 12 = a := by
  apply BitVec.eq_of_getLsbD_eq
  intro i h
  rw [BitVec.getLsbD_setWidth, BitVec.getLsbD_ushiftRight, BitVec.getLsbD_append]
  simp [h]

/-- The D field of PROMOTE: the target and the pair. -/
def promoteD (t : BitVec 2) (q : BitVec 5) : BitVec 7 := t.setWidth 7 <<< 5 ||| q.setWidth 7

/-- The D field of MMA: its flags and its tile. -/
def mmaD (zc na nb : Bool) (t : BitVec 4) : BitVec 7 :=
  (BitVec.ofBool zc).setWidth 7 <<< 6 ||| (BitVec.ofBool na).setWidth 7 <<< 5
    ||| (BitVec.ofBool nb).setWidth 7 <<< 4 ||| t.setWidth 7

theorem promote_word (t : BitVec 2) (q : BitVec 5) (a : Option (BitVec 6)) (b : Opnd) :
    (Form.promote t q a b).word = wordA 0xC4 false (promoteD t q) (sourceCode a) b.code := rfl

theorem mma_word (g : MmaF) :
    (Form.mma g).word = wordA 0xD4 false (mmaD g.zc g.na g.nb g.t) (g.a.setWidth 8) (g.w.setWidth 8) := rfl

section SplitD

variable (op : BitVec 8) (n : Bool) (a b : BitVec 8)

@[simp] theorem promoteD_t (t : BitVec 2) (q : BitVec 5) : bits (wordA op n (promoteD t q) a b) 21 2 = t := by
  rw [show 21 = 16 + 5 from rfl, bits_high_part (by decide : 5 + 2 ≤ 7), wordA_d]
  revert t q
  decide

@[simp] theorem promoteD_q (t : BitVec 2) (q : BitVec 5) : bits (wordA op n (promoteD t q) a b) 16 5 = q := by
  rw [bits_low_part (by decide : 5 ≤ 7), wordA_d]
  revert t q
  decide

theorem promoteD_bits (w : Word) : promoteD (bits w 21 2) (bits w 16 5) = bits w 16 7 := by
  rw [show 21 = 16 + 5 from rfl, bits_high_part (by decide : 5 + 2 ≤ 7), bits_low_part (by decide : 5 ≤ 7)]
  generalize bits w 16 7 = d
  revert d
  decide

/-- One bit of the D field. -/
theorem bit_d (w : Word) (i : Nat) (h : i < 7) : bit w (16 + i) = (bits w 16 7).getLsbD i := by
  simp [bit, h]

@[simp] theorem mmaD_zc (zc na nb : Bool) (t : BitVec 4) : bit (wordA op n (mmaD zc na nb t) a b) 22 = zc := by
  rw [show 22 = 16 + 6 from rfl, bit_d _ _ (by decide), wordA_d]
  revert zc na nb t
  decide

@[simp] theorem mmaD_na (zc na nb : Bool) (t : BitVec 4) : bit (wordA op n (mmaD zc na nb t) a b) 21 = na := by
  rw [show 21 = 16 + 5 from rfl, bit_d _ _ (by decide), wordA_d]
  revert zc na nb t
  decide

@[simp] theorem mmaD_nb (zc na nb : Bool) (t : BitVec 4) : bit (wordA op n (mmaD zc na nb t) a b) 20 = nb := by
  rw [show 20 = 16 + 4 from rfl, bit_d _ _ (by decide), wordA_d]
  revert zc na nb t
  decide

@[simp] theorem mmaD_t (zc na nb : Bool) (t : BitVec 4) : bits (wordA op n (mmaD zc na nb t) a b) 16 4 = t := by
  rw [bits_low_part (by decide : 4 ≤ 7), wordA_d]
  revert zc na nb t
  decide

theorem mmaD_bits (w : Word) : mmaD (bit w 22) (bit w 21) (bit w 20) (bits w 16 4) = bits w 16 7 := by
  rw [show 22 = 16 + 6 from rfl, show 21 = 16 + 5 from rfl, show 20 = 16 + 4 from rfl, bit_d _ _ (by decide),
    bit_d _ _ (by decide), bit_d _ _ (by decide), bits_low_part (by decide : 4 ≤ 7)]
  generalize bits w 16 7 = d
  revert d
  decide

end SplitD

end Sys2Proof

-- Reading an encoded form back, shape by shape (R56 to R70).

namespace Sys2Proof

theorem Form.tail_append (f : Form) (t : List Word) :
    f.tail ++ t = f.extension ++ (f.opnds.flatMap Opnd.words ++ t) := List.append_assoc ..

theorem fourthWords_fold (c : Option Opnd) : c.toList.flatMap Opnd.words = fourthWords c := rfl

/-! ### The folds of `parseForm` -/

section Folds

variable (ps : List Word) (c : Option Opnd)

theorem wideOf_fold : ((aluWord ps).map fun p => bit p 14).getD false = wideOf ps := rfl

theorem aluPrefix_fold : ((aluWord ps).map fun p => aluPreOf p c) = aluPrefix ps c := rfl

theorem memPrefix_fold : ((prefixWord ps 0xF2).map fun p => memAttOf p c) = memPrefix ps c := rfl

theorem offPrefix_fold : ((prefixWord ps 0xF3).map fun p => bits p 0 24) = offPrefix ps := rfl

end Folds

/-- The fourth operand of an ALU form is read back. -/
theorem takeFourth_alu {wide : Bool} (pre : Option AluPre)
    (hw : (pre.bind (·.c)).toList.all (Opnd.widthOk wide) = true) (t : List Word) :
    takeFourth wide (pre.map aluPreWord).toList (fourthWords (pre.bind (·.c)) ++ t) = some (pre.bind (·.c), true, t) :=
  takeFourth_of (fourthCode_alu pre) hw t

/-- The fourth operand of a memory form is read back. -/
theorem takeFourth_mem {wide : Bool} (a : Option MemAtt) (x : Option (BitVec 24))
    (hw : (a.bind (·.c)).toList.all (Opnd.widthOk wide) = true) (t : List Word) :
    takeFourth wide (memPrefixes a x) (fourthWords (a.bind (·.c)) ++ t) = some (a.bind (·.c), true, t) :=
  takeFourth_of (fourthCode_mem a x) hw t

/-- Does `parseForm` read the form from its words, whatever follows? -/
def ReadBack (row : Row) (f : Form) : Prop :=
  ∀ t, parseForm row f.prefixes f.word (f.tail ++ t) = some (f, true, t)

section ReadBack

variable {row : Row}

theorem readBack_alu2 (op : BitVec 8) (g : Alu2) (hshape : row.shape = .alu2)
    (hfit : (Form.alu2 op g).LiteralsFit row)
    (hw : (Form.alu2 op g).opnds.all (Opnd.widthOk (Form.alu2 op g).wide) = true) : ReadBack row (Form.alu2 op g) := by
  intro t
  obtain ⟨pre, n, d, a, b⟩ := g
  obtain ⟨hfa, hfb⟩ := hfit
  simp only [Form.opnds, List.all_cons, Bool.and_eq_true] at hw
  obtain ⟨hwa, hwb, hwc⟩ := hw
  have hwide : wideOf (pre.map aluPreWord).toList = (Form.alu2 op ⟨pre, n, d, a, b⟩).wide := wideOf_alu pre
  simp only [Form.tail_append, Form.extension, Form.opnds, Form.prefixes, Form.pre, Form.word, List.flatMap_cons,
    List.nil_append, List.append_assoc, fourthWords_fold]
  simp only [parseForm, hshape, wideOf_fold, aluPrefix_fold, wordA_op, wordA_n, wordA_d, wordA_a, wordA_b]
  rw [hwide, takeOpnd_code hwa hfa]
  simp only
  rw [takeOpnd_code hwb hfb]
  simp only
  rw [takeFourth_alu _ hwc]
  simp only [aluPrefix_alu, Option.map_some, Bool.and_self]

theorem readBack_alu1 (op : BitVec 8) (g : Alu1) (hshape : row.shape = .alu1)
    (hfit : (Form.alu1 op g).LiteralsFit row)
    (hw : (Form.alu1 op g).opnds.all (Opnd.widthOk (Form.alu1 op g).wide) = true) : ReadBack row (Form.alu1 op g) := by
  intro t
  obtain ⟨pre, n, d, a⟩ := g
  simp only [Form.opnds, List.all_cons, Bool.and_eq_true] at hw
  obtain ⟨hwa, hwc⟩ := hw
  have hwide : wideOf (pre.map aluPreWord).toList = (Form.alu1 op ⟨pre, n, d, a⟩).wide := wideOf_alu pre
  simp only [Form.tail_append, Form.extension, Form.opnds, Form.prefixes, Form.pre, Form.word, List.flatMap_cons,
    List.nil_append, List.append_assoc, fourthWords_fold]
  simp only [parseForm, hshape, wideOf_fold, aluPrefix_fold, wordA_op, wordA_n, wordA_d, wordA_a]
  rw [hwide, takeOpnd_code hwa hfit]
  simp only
  rw [takeFourth_alu _ hwc]
  simp only [aluPrefix_alu, Option.map_some, Bool.and_self]

theorem readBack_aluX (op : BitVec 8) (g : AluX) (hshape : row.shape = .aluX)
    (hfit : (Form.aluX op g).LiteralsFit row)
    (hw : (Form.aluX op g).opnds.all (Opnd.widthOk (Form.aluX op g).wide) = true) : ReadBack row (Form.aluX op g) := by
  intro t
  obtain ⟨pre, n, d, a, x⟩ := g
  simp only [Form.opnds, List.all_cons, Bool.and_eq_true] at hw
  obtain ⟨hwa, hwc⟩ := hw
  have hwide : wideOf (pre.map aluPreWord).toList = (Form.aluX op ⟨pre, n, d, a, x⟩).wide := wideOf_alu pre
  simp only [Form.tail_append, Form.extension, Form.opnds, Form.prefixes, Form.pre, Form.word, List.flatMap_cons,
    List.nil_append, List.append_assoc, fourthWords_fold]
  simp only [parseForm, hshape, wideOf_fold, aluPrefix_fold, wordA_op, wordA_n, wordA_d, wordA_a, wordA_b]
  rw [hwide, takeOpnd_code hwa hfit]
  simp only
  rw [takeFourth_alu _ hwc]
  simp only [aluPrefix_alu, Option.map_some, Bool.and_self]

theorem readBack_aluD (op : BitVec 8) (g : AluD) (hshape : row.shape = .aluD)
    (hw : (Form.aluD op g).opnds.all (Opnd.widthOk (Form.aluD op g).wide) = true) : ReadBack row (Form.aluD op g) := by
  intro t
  obtain ⟨pre, n, d⟩ := g
  have hwide : wideOf (pre.map aluPreWord).toList = (Form.aluD op ⟨pre, n, d⟩).wide := wideOf_alu pre
  simp only [Form.tail_append, Form.extension, Form.opnds, Form.prefixes, Form.pre, Form.word, List.nil_append,
    fourthWords_fold]
  simp only [parseForm, hshape, wideOf_fold, aluPrefix_fold, wordA_op, wordA_n, wordA_d]
  rw [hwide, takeFourth_alu _ hw]
  simp only [aluPrefix_alu, Option.map_some]

theorem readBack_imm (op : BitVec 8) (g : AluImm) (hshape : row.shape = .imm)
    (hw : (Form.imm op g).opnds.all (Opnd.widthOk (Form.imm op g).wide) = true) : ReadBack row (Form.imm op g) := by
  intro t
  obtain ⟨pre, n, d, x⟩ := g
  have hwide : wideOf (pre.map aluPreWord).toList = (Form.imm op ⟨pre, n, d, x⟩).wide := wideOf_alu pre
  rw [imm_word]
  simp only [Form.tail_append, Form.extension, Form.opnds, Form.prefixes, Form.pre, List.nil_append,
    fourthWords_fold]
  simp only [parseForm, hshape, wideOf_fold, aluPrefix_fold, immWord_op, immWord_n, immWord_d, immWord_x]
  rw [hwide, takeFourth_alu _ hw]
  simp only [aluPrefix_alu, Option.map_some]

theorem readBack_sget (g : AluSget) (hshape : row.shape = .sget)
    (hw : (Form.sget g).opnds.all (Opnd.widthOk (Form.sget g).wide) = true) : ReadBack row (Form.sget g) := by
  intro t
  obtain ⟨pre, n, d, x⟩ := g
  have hwide : wideOf (pre.map aluPreWord).toList = (Form.sget ⟨pre, n, d, x⟩).wide := wideOf_alu pre
  simp only [Form.tail_append, Form.extension, Form.opnds, Form.prefixes, Form.pre, Form.word, List.nil_append,
    fourthWords_fold]
  simp only [parseForm, hshape, wideOf_fold, aluPrefix_fold, wordA_n, wordA_d, wordA_b]
  rw [hwide, takeFourth_alu _ hw]
  simp only [aluPrefix_alu, Option.map_some]

theorem readBack_mask2 (op : BitVec 8) (g : Mask2) (hshape : row.shape = .mask2)
    (hw : (Form.mask2 op g).opnds.all (Opnd.widthOk (Form.mask2 op g).wide) = true) : ReadBack row (Form.mask2 op g) := by
  intro t
  obtain ⟨pre, n, d, a, b⟩ := g
  have hwide : wideOf (pre.map aluPreWord).toList = (Form.mask2 op ⟨pre, n, d, a, b⟩).wide := wideOf_alu pre
  simp only [Form.tail_append, Form.extension, Form.opnds, Form.prefixes, Form.pre, Form.word, List.nil_append,
    fourthWords_fold]
  simp only [parseForm, hshape, wideOf_fold, aluPrefix_fold, wordA_op, wordA_n, wordA_d_part, wordA_a_part, wordA_b_part, Nat.reduceLeDiff]
  rw [hwide, takeFourth_alu _ hw]
  simp only [aluPrefix_alu, Option.map_some]

theorem readBack_mask1 (op : BitVec 8) (g : Mask1) (hshape : row.shape = .mask1)
    (hw : (Form.mask1 op g).opnds.all (Opnd.widthOk (Form.mask1 op g).wide) = true) : ReadBack row (Form.mask1 op g) := by
  intro t
  obtain ⟨pre, n, d, a⟩ := g
  have hwide : wideOf (pre.map aluPreWord).toList = (Form.mask1 op ⟨pre, n, d, a⟩).wide := wideOf_alu pre
  simp only [Form.tail_append, Form.extension, Form.opnds, Form.prefixes, Form.pre, Form.word, List.nil_append,
    fourthWords_fold]
  simp only [parseForm, hshape, wideOf_fold, aluPrefix_fold, wordA_op, wordA_n, wordA_d_part, wordA_a_part, Nat.reduceLeDiff]
  rw [hwide, takeFourth_alu _ hw]
  simp only [aluPrefix_alu, Option.map_some]

theorem readBack_maskS (op : BitVec 8) (g : MaskS) (hshape : row.shape = .maskS)
    (hw : (Form.maskS op g).opnds.all (Opnd.widthOk (Form.maskS op g).wide) = true) : ReadBack row (Form.maskS op g) := by
  intro t
  obtain ⟨pre, n, d, a⟩ := g
  have hwide : wideOf (pre.map aluPreWord).toList = (Form.maskS op ⟨pre, n, d, a⟩).wide := wideOf_alu pre
  simp only [Form.tail_append, Form.extension, Form.opnds, Form.prefixes, Form.pre, Form.word, List.nil_append,
    fourthWords_fold]
  simp only [parseForm, hshape, wideOf_fold, aluPrefix_fold, wordA_op, wordA_n, wordA_d, wordA_a_part, Nat.reduceLeDiff]
  rw [hwide, takeFourth_alu _ hw]
  simp only [aluPrefix_alu, Option.map_some]

theorem scalarCode_eq (a : BitVec 6) : scalarCode a = (Opnd.s a).code := by
  revert a
  decide

theorem takeOpnd_scalar (wide : Bool) (k : AKind) (a : BitVec 6) (t : List Word) :
    takeOpnd wide k (scalarCode a) t = some (.s a, true, t) := by
  rw [scalarCode_eq]
  exact takeOpnd_code (o := .s a) rfl (fun h => nomatch h) t

theorem readBack_maskL (g : MaskL) (hshape : row.shape = .maskL)
    (hw : (Form.maskL g).opnds.all (Opnd.widthOk (Form.maskL g).wide) = true) : ReadBack row (Form.maskL g) := by
  intro t
  obtain ⟨pre, n, d, a⟩ := g
  have hwide : wideOf (pre.map aluPreWord).toList = (Form.maskL ⟨pre, n, d, a⟩).wide := wideOf_alu pre
  simp only [Form.tail_append, Form.extension, Form.opnds, Form.prefixes, Form.pre, Form.word, List.nil_append,
    fourthWords_fold]
  simp only [parseForm, hshape, wideOf_fold, aluPrefix_fold, wordA_n, wordA_d_part, wordA_a, wordA_a_scalar,
    wordA_a_scalar_high, Nat.reduceLeDiff]
  rw [hwide, takeOpnd_scalar]
  simp only
  rw [takeFourth_alu _ hw]
  simp only [aluPrefix_alu, Option.map_some, Bool.and_self, BEq.rfl]

theorem readBack_expr (g : ExprF) (hshape : row.shape = .expr)
    (hw : (Form.expr g).opnds.all (Opnd.widthOk (Form.expr g).wide) = true) : ReadBack row (Form.expr g) := by
  intro t
  obtain ⟨pre, n, d, a, b, c, e, ty, steps⟩ := g
  simp only [Form.opnds, List.all_cons, Bool.and_eq_true] at hw
  obtain ⟨hwa, hwb, hwc, hwe, hwf⟩ := hw
  have hfit : ∀ o, LiteralFits .op o := fun _ _ => rfl
  have hwide : wideOf (pre.map aluPreWord).toList = (Form.expr ⟨pre, n, d, a, b, c, e, ty, steps⟩).wide := wideOf_alu pre
  rw [Form.tail_append, Form.extension, expr_second]
  simp only [Form.opnds, Form.prefixes, Form.pre, Form.word, List.flatMap_cons,
    List.cons_append, List.nil_append, List.append_assoc, fourthWords_fold]
  simp only [parseForm, hshape, wideOf_fold, aluPrefix_fold, wordA_n, wordA_d, wordA_a, wordA_b, stepWord_c,
    stepWord_d, stepWord_ty, stepWord_steps]
  rw [hwide, takeOpnd_code hwa (hfit _)]
  simp only
  rw [takeOpnd_code hwb (hfit _)]
  simp only
  rw [takeOpnd_code hwc (hfit _)]
  simp only
  rw [takeOpnd_code hwe (hfit _)]
  simp only
  rw [takeFourth_alu _ hwf]
  simp only [aluPrefix_alu, Option.map_some, Bool.and_self, steps_join]

theorem readBack_memV (op : BitVec 8) (g : MemV) (hshape : row.shape = .memV)
    (hw : (Form.memV op g).opnds.all (Opnd.widthOk (Form.memV op g).wide) = true) : ReadBack row (Form.memV op g) := by
  intro t
  rw [memV_word]
  obtain ⟨att, off, sz, d, base, idx⟩ := g
  have hw : (att.bind (·.c)).toList.all (Opnd.widthOk false) = true := hw
  simp only [Form.tail_append, Form.extension, Form.opnds, Form.prefixes, List.nil_append,
    fourthWords_fold]
  simp only [parseForm, hshape, wideOf_fold, memPrefix_fold, offPrefix_fold, wideOf_mem, memVWord_op, memVWord_sz, memVWord_d,
    memVWord_base, memVWord_x, memVWord_idx, index_of_field]
  rw [takeFourth_mem _ _ hw]
  simp only [memPrefix_mem, offPrefix_mem, Option.map_some]

theorem readBack_memU (op : BitVec 8) (g : MemU) (hshape : row.shape = .memU)
    (hw : (Form.memU op g).opnds.all (Opnd.widthOk (Form.memU op g).wide) = true) : ReadBack row (Form.memU op g) := by
  intro t
  rw [memU_word]
  obtain ⟨att, off, sz, d, base, x⟩ := g
  have hw : (att.bind (·.c)).toList.all (Opnd.widthOk false) = true := hw
  simp only [Form.tail_append, Form.extension, Form.opnds, Form.prefixes, List.nil_append,
    fourthWords_fold]
  simp only [parseForm, hshape, wideOf_fold, memPrefix_fold, offPrefix_fold, wideOf_mem, memUWord_op, memUWord_sz, memUWord_d,
    memUWord_base, memUWord_off]
  rw [takeFourth_mem _ _ hw]
  simp only [memPrefix_mem, offPrefix_mem, Option.map_some]

theorem readBack_fence (g : FenceF) (hshape : row.shape = .fence)
    (hw : (Form.fence g).opnds.all (Opnd.widthOk (Form.fence g).wide) = true) : ReadBack row (Form.fence g) := by
  intro t
  obtain ⟨att, off, kind⟩ := g
  have hw : (att.bind (·.c)).toList.all (Opnd.widthOk false) = true := hw
  simp only [Form.tail_append, Form.extension, Form.opnds, Form.prefixes, Form.word, List.nil_append,
    fourthWords_fold]
  simp only [parseForm, hshape, wideOf_fold, memPrefix_fold, offPrefix_fold, wideOf_mem, wordA_b]
  rw [takeFourth_mem _ _ hw]
  simp only [memPrefix_mem, offPrefix_mem, Option.map_some]

theorem readBack_lda (g : LdaF) (hshape : row.shape = .lda)
    (hw : (Form.lda g).opnds.all (Opnd.widthOk (Form.lda g).wide) = true) : ReadBack row (Form.lda g) := by
  intro t
  rw [lda_word, Form.tail_append, Form.extension, lda_second]
  obtain ⟨att, off, lsz, tag, sbase, sidx, gbase, gidx, vb⟩ := g
  simp only [Form.opnds, List.all_cons, Bool.and_eq_true] at hw
  obtain ⟨hwa, hwc⟩ := hw
  have hwa : vb.widthOk false = true := hwa
  have hwc : (att.bind (·.c)).toList.all (Opnd.widthOk false) = true := hwc
  simp only [Form.opnds, Form.prefixes, List.flatMap_cons,
    List.cons_append, List.nil_append, List.append_assoc, fourthWords_fold]
  simp only [parseForm, hshape, wideOf_fold, memPrefix_fold, offPrefix_fold, wideOf_mem, ldaWord_lsz, ldaWord_tag,
    ldaWord_sbase, ldaWord_sidx, ldaWord_gbase, gatherWord_x, gatherWord_idx, gatherWord_code, index_of_field]
  rw [takeOpnd_code hwa (k := .op) (fun _ => rfl)]
  simp only
  rw [takeFourth_mem _ _ hwc]
  simp only [memPrefix_mem, offPrefix_mem, Option.map_some, Bool.and_self]

theorem readBack_arena (d : BitVec 7) (a : Opnd) (x : BitVec 8) (hshape : row.shape = .arena)
    (hfit : (Form.arena d a x).LiteralsFit row)
    (hw : (Form.arena d a x).opnds.all (Opnd.widthOk (Form.arena d a x).wide) = true) : ReadBack row (Form.arena d a x) := by
  intro t
  have hwa := List.all_eq_true.mp hw _ (List.mem_singleton_self _)
  simp only [Form.tail_append, Form.extension, Form.opnds, Form.prefixes, Form.pre, Form.word, List.flatMap_cons,
    List.nil_append, List.append_assoc, List.flatMap_nil, Option.map_none, Option.toList_none]
  simp only [parseForm, hshape, wideOf_fold, wordA_d, wordA_a, wordA_b]
  rw [takeOpnd_code (wide := wideOf []) hwa hfit]
  rfl

theorem readBack_slot (op : BitVec 8) (o : BitVec 6) (a : Opnd) (x : BitVec 8) (hshape : row.shape = .slot)
    (hfit : (Form.slot op o a x).LiteralsFit row)
    (hw : (Form.slot op o a x).opnds.all (Opnd.widthOk (Form.slot op o a x).wide) = true) : ReadBack row (Form.slot op o a x) := by
  intro t
  have hwa := List.all_eq_true.mp hw _ (List.mem_singleton_self _)
  simp only [Form.tail_append, Form.extension, Form.opnds, Form.prefixes, Form.pre, Form.word, List.flatMap_cons,
    List.nil_append, List.append_assoc, List.flatMap_nil, Option.map_none, Option.toList_none]
  simp only [parseForm, hshape, wideOf_fold, wordA_op, wordA_d_part, wordA_a, wordA_b, Nat.reduceLeDiff]
  rw [takeOpnd_code (wide := wideOf []) hwa hfit]
  rfl

theorem readBack_adrn (d : BitVec 4) (a : Opnd) (hshape : row.shape = .adrn)
    (hfit : (Form.adrn d a).LiteralsFit row)
    (hw : (Form.adrn d a).opnds.all (Opnd.widthOk (Form.adrn d a).wide) = true) : ReadBack row (Form.adrn d a) := by
  intro t
  have hwa := List.all_eq_true.mp hw _ (List.mem_singleton_self _)
  simp only [Form.tail_append, Form.extension, Form.opnds, Form.prefixes, Form.pre, Form.word, List.flatMap_cons,
    List.nil_append, List.append_assoc, List.flatMap_nil, Option.map_none, Option.toList_none]
  simp only [parseForm, hshape, wideOf_fold, wordA_d_part, wordA_a, Nat.reduceLeDiff]
  rw [takeOpnd_code (wide := wideOf []) hwa hfit]
  rfl

theorem readBack_none (op : BitVec 8) (hshape : row.shape = .none) : ReadBack row (.none op) := by
  intro t
  simp only [parseForm, hshape, Form.word, wordA_op]
  rfl

theorem readBack_n8 (op x : BitVec 8) (hshape : row.shape = .n8) : ReadBack row (.n8 op x) := by
  intro t
  simp only [parseForm, hshape, Form.word, wordA_op, wordA_b]
  rfl

theorem readBack_br (op c : BitVec 8) (off : BitVec 16) (hshape : row.shape = .br) : ReadBack row (.br op c off) := by
  intro t
  rw [br_word]
  simp only [parseForm, hshape, brWord_op, brWord_c, brWord_off]
  rfl

theorem readBack_mma (g : MmaF) (hshape : row.shape = .mma) : ReadBack row (.mma g) := by
  intro t
  rw [mma_word]
  simp only [parseForm, hshape, mmaD_zc, mmaD_na, mmaD_nb, mmaD_t, wordA_a_part, wordA_b_part, Nat.reduceLeDiff]
  rfl

theorem readBack_aclr (x : BitVec 4) (hshape : row.shape = .aclr) : ReadBack row (.aclr x) := by
  intro t
  simp only [parseForm, hshape, Form.word, wordA_d_part, Nat.reduceLeDiff]
  rfl

/-- A control or engine word with the operand A alone. -/
theorem readBack_ctl_one (op : BitVec 8) (d : BitVec 7) (a : Opnd) (hshape : row.shape = .ctlA ∨ row.shape = .ctlDA)
    (hfit : LiteralFits row.a a) (hw : a.widthOk false = true) : ReadBack row (.ctl op d a none) := by
  intro t
  have hread := takeOpnd_code (wide := wideOf []) hw hfit t
  obtain hshape | hshape := hshape <;>
  · simp only [Form.tail_append, Form.extension, Form.opnds, Form.prefixes, Form.pre, Form.word, List.flatMap_cons,
      List.nil_append, Option.map_none, Option.toList_none, List.flatMap_nil, List.append_nil]
    simp only [parseForm, hshape, wideOf_fold, wordA_op, wordA_d, wordA_a]
    rw [hread]
    rfl

/-- A control or engine word with the operands A and B. -/
theorem readBack_ctl_two (op : BitVec 8) (d : BitVec 7) (a b : Opnd) (hshape : row.shape = .ctlAB)
    (hfa : LiteralFits row.a a) (hfb : LiteralFits row.b b) (hwa : a.widthOk false = true)
    (hwb : b.widthOk false = true) : ReadBack row (.ctl op d a (some b)) := by
  intro t
  simp only [Form.tail_append, Form.extension, Form.opnds, Form.prefixes, Form.pre, Form.word, List.flatMap_cons,
    List.nil_append, Option.map_none, Option.toList_none, Option.toList_some, List.flatMap_nil, List.append_nil,
    List.append_assoc]
  simp only [parseForm, hshape, wideOf_fold, wordA_op, wordA_d, wordA_a, wordA_b, fourthField, Option.map_some,
    Option.getD_some]
  rw [takeOpnd_code (wide := wideOf []) hwa hfa]
  simp only
  rw [takeOpnd_code (wide := wideOf []) hwb hfb]
  rfl

theorem readBack_promote (x : BitVec 2) (q : BitVec 5) (a : Option (BitVec 6)) (b : Opnd)
    (hshape : row.shape = .promote) (hfit : LiteralFits row.b b) (hw : b.widthOk false = true) :
    ReadBack row (.promote x q a b) := by
  intro t
  have hread := takeOpnd_code (wide := wideOf []) hw hfit t
  simp only [promote_word, Form.tail_append, Form.extension, Form.opnds, Form.prefixes, Form.pre, Option.map_none, Option.toList_none, List.flatMap_cons, List.flatMap_nil, List.append_nil,
    List.nil_append, parseForm, hshape, wideOf_fold, promoteD_t, promoteD_q, wordA_a, wordA_b, hread, Option.map_some]
  cases a with
  | none => rfl
  | some r =>
    have hne : scalarCode r ≠ 208#8 := by
      revert r
      decide
    simp [sourceCode, hne]

end ReadBack

/-- Every form is read back from its words, where its row has its shape and its literals stand where the row
counts them. -/
theorem readBack {row : Row} {f : Form} (hshape : f.HasShape row.shape) (hfit : f.LiteralsFit row)
    (hw : f.opnds.all (Opnd.widthOk f.wide) = true) : ReadBack row f := by
  cases f with
  | none op => exact readBack_none op (by simpa [Form.HasShape, Form.shape] using hshape)
  | br op c off => exact readBack_br op c off (by simpa [Form.HasShape, Form.shape] using hshape)
  | ctl op d a b =>
    obtain ⟨hfa, hfb⟩ := hfit
    cases b with
    | none =>
      have hwa := List.all_eq_true.mp hw a (by simp [Form.opnds])
      exact readBack_ctl_one op d a (by simpa [Form.HasShape, Form.shape] using hshape) hfa hwa
    | some b =>
      have hwa := List.all_eq_true.mp hw a (by simp [Form.opnds])
      have hwb := List.all_eq_true.mp hw b (by simp [Form.opnds])
      exact readBack_ctl_two op d a b (by simpa [Form.HasShape, Form.shape] using hshape) hfa (hfb b rfl) hwa hwb
  | n8 op x => exact readBack_n8 op x (by simpa [Form.HasShape, Form.shape] using hshape)
  | alu2 op g => exact readBack_alu2 op g (by simpa [Form.HasShape, Form.shape] using hshape) hfit hw
  | alu1 op g => exact readBack_alu1 op g (by simpa [Form.HasShape, Form.shape] using hshape) hfit hw
  | aluX op g => exact readBack_aluX op g (by simpa [Form.HasShape, Form.shape] using hshape) hfit hw
  | aluD op g => exact readBack_aluD op g (by simpa [Form.HasShape, Form.shape] using hshape) hw
  | imm op g => exact readBack_imm op g (by simpa [Form.HasShape, Form.shape] using hshape) hw
  | mask2 op g => exact readBack_mask2 op g (by simpa [Form.HasShape, Form.shape] using hshape) hw
  | mask1 op g => exact readBack_mask1 op g (by simpa [Form.HasShape, Form.shape] using hshape) hw
  | maskS op g => exact readBack_maskS op g (by simpa [Form.HasShape, Form.shape] using hshape) hw
  | memV op g => exact readBack_memV op g (by simpa [Form.HasShape, Form.shape] using hshape) hw
  | memU op g => exact readBack_memU op g (by simpa [Form.HasShape, Form.shape] using hshape) hw
  | sget g => exact readBack_sget g (by simpa [Form.HasShape, Form.shape] using hshape) hw
  | maskL g => exact readBack_maskL g (by simpa [Form.HasShape, Form.shape] using hshape) hw
  | expr g => exact readBack_expr g (by simpa [Form.HasShape, Form.shape] using hshape) hw
  | fence g => exact readBack_fence g (by simpa [Form.HasShape, Form.shape] using hshape) hw
  | lda g => exact readBack_lda g (by simpa [Form.HasShape, Form.shape] using hshape) hw
  | promote x q a b =>
    exact readBack_promote x q a b (by simpa [Form.HasShape, Form.shape] using hshape) hfit
      (List.all_eq_true.mp hw b (by simp [Form.opnds]))
  | arena d a x => exact readBack_arena d a x (by simpa [Form.HasShape, Form.shape] using hshape) hfit hw
  | slot op o a x => exact readBack_slot op o a x (by simpa [Form.HasShape, Form.shape] using hshape) hfit hw
  | adrn d a => exact readBack_adrn d a (by simpa [Form.HasShape, Form.shape] using hshape) hfit hw
  | mma g => exact readBack_mma g (by simpa [Form.HasShape, Form.shape] using hshape)
  | aclr x => exact readBack_aclr x (by simpa [Form.HasShape, Form.shape] using hshape)

end Sys2Proof

-- What `parseForm` reads has the words that it was read from (R56 to R70).

namespace Sys2Proof

/-- Is the form written as these prefixes, this instruction word and these words, up to `after`? -/
structure Form.Writes (f : Form) (ps : List Word) (w : Word) (ws after : List Word) : Prop where
  prefixes : f.prefixes = ps
  word : f.word = w
  tail : f.tail ++ after = ws
  widths : f.opnds.all (Opnd.widthOk f.wide) = true

/-- What an ALU instruction's fourth operand was read from, with its prefixing word. -/
theorem aluFourth_eq {ps u after : List Word} {c : Option Opnd} (hseq : sequenceOk 0 ps = true)
    (hok : ps.all prefixWordOk = true) (h : takeFourth (wideOf ps) ps u = some (c, true, after)) :
    ((aluPrefix ps c).map aluPreWord).toList = ps ∧ (aluPrefix ps c).bind (·.c) = c
      ∧ u = fourthWords ((aluPrefix ps c).bind (·.c)) ++ after
      ∧ ((aluPrefix ps c).bind (·.c)).toList.all (Opnd.widthOk (wideOf ps)) = true
      ∧ wideOf ps = ((aluPrefix ps c).map (·.w)).getD false := by
  obtain ⟨hcode, hu, hw⟩ := takeFourth_eq h
  obtain ⟨hps, hc⟩ := aluPrefixes_eq hseq hok hcode
  refine ⟨hps, hc, by rw [hc]; exact hu, by rw [hc]; exact hw, ?_⟩
  conv => lhs; rw [← hps]
  exact wideOf_alu _

/-- What a memory instruction's fourth operand was read from, with its prefixes. -/
theorem memFourth_eq {ps u after : List Word} {c : Option Opnd} (hseq : sequenceOk 1 ps = true)
    (hok : ps.all prefixWordOk = true) (h : takeFourth (wideOf ps) ps u = some (c, true, after)) :
    memPrefixes (memPrefix ps c) (offPrefix ps) = ps ∧ (memPrefix ps c).bind (·.c) = c
      ∧ u = fourthWords ((memPrefix ps c).bind (·.c)) ++ after
      ∧ ((memPrefix ps c).bind (·.c)).toList.all (Opnd.widthOk false) = true := by
  obtain ⟨hcode, hu, hw⟩ := takeFourth_eq h
  obtain ⟨hps, hc⟩ := memPrefixes_eq hseq hok hcode
  rw [wideOf_of_mem hseq] at hw
  exact ⟨hps, hc, by rw [hc]; exact hu, by rw [hc]; exact hw⟩

section Writes

variable {row : Row} {ps ws after : List Word} {w : Word} {f : Form}

theorem writes_alu2 (hshape : row.shape = .alu2) (hseq : sequenceOk 0 ps = true)
    (hok : ps.all prefixWordOk = true)
    (h : parseForm row ps w ws = some (f, true, after)) : f.Writes ps w ws after ∧ f.shape = row.shape := by
  simp only [parseForm, hshape, wideOf_fold, aluPrefix_fold] at h
  split at h
  · cases h
  next ra hra =>
  split at h
  · cases h
  next rb hrb =>
  obtain ⟨⟨c, okc, u⟩, ht, heq⟩ := Option.map_eq_some_iff.mp h
  obtain ⟨a, oka, ua⟩ := ra
  obtain ⟨b, okb, ub⟩ := rb
  simp only [Prod.mk.injEq, Bool.and_eq_true] at heq
  obtain ⟨rfl, ⟨⟨rfl, rfl⟩, rfl⟩, rfl⟩ := heq
  obtain ⟨hca, hua, hwa⟩ := takeOpnd_eq hra
  obtain ⟨hcb, hub, hwb⟩ := takeOpnd_eq hrb
  obtain ⟨hps, -, hu, hwc, hwide⟩ := aluFourth_eq hseq hok ht
  refine ⟨⟨hps, ?_, ?_, ?_⟩, hshape.symm⟩
  · have hword := wordA_bits w
    rw [hca, hcb] at hword
    exact hword
  · simp only [Form.tail_append, Form.extension, Form.opnds, List.flatMap_cons, List.nil_append, List.append_assoc,
      fourthWords_fold]
    rw [← hu, ← hub, ← hua]
  · rw [Form.wide, Form.pre, ← hwide]
    simp only [Form.opnds, List.all_cons, hwc, hwa, hwb, Bool.and_self]

theorem writes_alu1 (hshape : row.shape = .alu1) (hseq : sequenceOk 0 ps = true)
    (hok : ps.all prefixWordOk = true) (hzero : w &&& Shape.zero .alu1 = 0)
    (h : parseForm row ps w ws = some (f, true, after)) : f.Writes ps w ws after ∧ f.shape = row.shape := by
  simp only [parseForm, hshape, wideOf_fold, aluPrefix_fold] at h
  split at h
  · cases h
  next ra hra =>
  obtain ⟨⟨c, okc, u⟩, ht, heq⟩ := Option.map_eq_some_iff.mp h
  obtain ⟨a, oka, ua⟩ := ra
  simp only [Prod.mk.injEq, Bool.and_eq_true] at heq
  obtain ⟨rfl, ⟨rfl, rfl⟩, rfl⟩ := heq
  obtain ⟨hca, hua, hwa⟩ := takeOpnd_eq hra
  obtain ⟨hps, -, hu, hwc, hwide⟩ := aluFourth_eq hseq hok ht
  refine ⟨⟨hps, ?_, ?_, ?_⟩, hshape.symm⟩
  · have hword := wordA_bits w
    rw [hca, bits_of_masked (lo := 0) (n := 8) hzero rfl] at hword
    exact hword
  · simp only [Form.tail_append, Form.extension, Form.opnds, List.flatMap_cons, List.nil_append, List.append_assoc,
      fourthWords_fold]
    rw [← hu, ← hua]
  · rw [Form.wide, Form.pre, ← hwide]
    simp only [Form.opnds, List.all_cons, hwc, hwa, Bool.and_self]

theorem writes_aluX (hshape : row.shape = .aluX) (hseq : sequenceOk 0 ps = true)
    (hok : ps.all prefixWordOk = true)
    (h : parseForm row ps w ws = some (f, true, after)) : f.Writes ps w ws after ∧ f.shape = row.shape := by
  simp only [parseForm, hshape, wideOf_fold, aluPrefix_fold] at h
  split at h
  · cases h
  next ra hra =>
  obtain ⟨⟨c, okc, u⟩, ht, heq⟩ := Option.map_eq_some_iff.mp h
  obtain ⟨a, oka, ua⟩ := ra
  simp only [Prod.mk.injEq, Bool.and_eq_true] at heq
  obtain ⟨rfl, ⟨rfl, rfl⟩, rfl⟩ := heq
  obtain ⟨hca, hua, hwa⟩ := takeOpnd_eq hra
  obtain ⟨hps, -, hu, hwc, hwide⟩ := aluFourth_eq hseq hok ht
  refine ⟨⟨hps, ?_, ?_, ?_⟩, hshape.symm⟩
  · have hword := wordA_bits w
    rw [hca] at hword
    exact hword
  · simp only [Form.tail_append, Form.extension, Form.opnds, List.flatMap_cons, List.nil_append, List.append_assoc,
      fourthWords_fold]
    rw [← hu, ← hua]
  · rw [Form.wide, Form.pre, ← hwide]
    simp only [Form.opnds, List.all_cons, hwc, hwa, Bool.and_self]

theorem writes_aluD (hshape : row.shape = .aluD) (hseq : sequenceOk 0 ps = true)
    (hok : ps.all prefixWordOk = true) (hzero : w &&& Shape.zero .aluD = 0)
    (h : parseForm row ps w ws = some (f, true, after)) : f.Writes ps w ws after ∧ f.shape = row.shape := by
  simp only [parseForm, hshape, wideOf_fold, aluPrefix_fold] at h
  obtain ⟨⟨c, okc, u⟩, ht, heq⟩ := Option.map_eq_some_iff.mp h
  simp only [Prod.mk.injEq] at heq
  obtain ⟨rfl, rfl, rfl⟩ := heq
  obtain ⟨hps, -, hu, hwc, hwide⟩ := aluFourth_eq hseq hok ht
  refine ⟨⟨hps, ?_, ?_, ?_⟩, hshape.symm⟩
  · have hword := wordA_bits w
    rw [bits_of_masked (lo := 8) (n := 8) hzero rfl, bits_of_masked (lo := 0) (n := 8) hzero rfl] at hword
    exact hword
  · exact hu.symm
  · rw [Form.wide, Form.pre, ← hwide]
    exact hwc

theorem writes_imm (hshape : row.shape = .imm) (hseq : sequenceOk 0 ps = true)
    (hok : ps.all prefixWordOk = true)
    (h : parseForm row ps w ws = some (f, true, after)) : f.Writes ps w ws after ∧ f.shape = row.shape := by
  simp only [parseForm, hshape, wideOf_fold, aluPrefix_fold] at h
  obtain ⟨⟨c, okc, u⟩, ht, heq⟩ := Option.map_eq_some_iff.mp h
  simp only [Prod.mk.injEq] at heq
  obtain ⟨rfl, rfl, rfl⟩ := heq
  obtain ⟨hps, -, hu, hwc, hwide⟩ := aluFourth_eq hseq hok ht
  refine ⟨⟨hps, ?_, ?_, ?_⟩, hshape.symm⟩
  · rw [imm_word]
    exact immWord_bits w
  · exact hu.symm
  · rw [Form.wide, Form.pre, ← hwide]
    exact hwc

theorem writes_sget (hshape : row.shape = .sget) (hseq : sequenceOk 0 ps = true)
    (hok : ps.all prefixWordOk = true) (hzero : w &&& Shape.zero .sget = 0) (hop : bits w 24 8 = 0x3E)
    (h : parseForm row ps w ws = some (f, true, after)) : f.Writes ps w ws after ∧ f.shape = row.shape := by
  simp only [parseForm, hshape, wideOf_fold, aluPrefix_fold] at h
  obtain ⟨⟨c, okc, u⟩, ht, heq⟩ := Option.map_eq_some_iff.mp h
  simp only [Prod.mk.injEq] at heq
  obtain ⟨rfl, rfl, rfl⟩ := heq
  obtain ⟨hps, -, hu, hwc, hwide⟩ := aluFourth_eq hseq hok ht
  refine ⟨⟨hps, ?_, ?_, ?_⟩, hshape.symm⟩
  · have hword := wordA_bits w
    rw [hop, bits_of_masked (lo := 8) (n := 8) hzero rfl] at hword
    exact hword
  · exact hu.symm
  · rw [Form.wide, Form.pre, ← hwide]
    exact hwc

theorem writes_mask2 (hshape : row.shape = .mask2) (hseq : sequenceOk 0 ps = true)
    (hok : ps.all prefixWordOk = true) (hzero : w &&& Shape.zero .mask2 = 0)
    (h : parseForm row ps w ws = some (f, true, after)) : f.Writes ps w ws after ∧ f.shape = row.shape := by
  simp only [parseForm, hshape, wideOf_fold, aluPrefix_fold] at h
  obtain ⟨⟨c, okc, u⟩, ht, heq⟩ := Option.map_eq_some_iff.mp h
  simp only [Prod.mk.injEq] at heq
  obtain ⟨rfl, rfl, rfl⟩ := heq
  obtain ⟨hps, -, hu, hwc, hwide⟩ := aluFourth_eq hseq hok ht
  refine ⟨⟨hps, ?_, ?_, ?_⟩, hshape.symm⟩
  · have hword := wordA_bits w
    rw [← bits_widen (lo := 16) (k := 4) (j := 3) (m := 7) rfl (bits_of_masked hzero rfl), ← bits_widen (lo := 8) (k := 4) (j := 4) (m := 8) rfl (bits_of_masked hzero rfl), ← bits_widen (lo := 0) (k := 4) (j := 4) (m := 8) rfl (bits_of_masked hzero rfl)] at hword
    exact hword
  · exact hu.symm
  · rw [Form.wide, Form.pre, ← hwide]
    exact hwc

theorem writes_mask1 (hshape : row.shape = .mask1) (hseq : sequenceOk 0 ps = true)
    (hok : ps.all prefixWordOk = true) (hzero : w &&& Shape.zero .mask1 = 0)
    (h : parseForm row ps w ws = some (f, true, after)) : f.Writes ps w ws after ∧ f.shape = row.shape := by
  simp only [parseForm, hshape, wideOf_fold, aluPrefix_fold] at h
  obtain ⟨⟨c, okc, u⟩, ht, heq⟩ := Option.map_eq_some_iff.mp h
  simp only [Prod.mk.injEq] at heq
  obtain ⟨rfl, rfl, rfl⟩ := heq
  obtain ⟨hps, -, hu, hwc, hwide⟩ := aluFourth_eq hseq hok ht
  refine ⟨⟨hps, ?_, ?_, ?_⟩, hshape.symm⟩
  · have hword := wordA_bits w
    rw [← bits_widen (lo := 16) (k := 4) (j := 3) (m := 7) rfl (bits_of_masked hzero rfl), ← bits_widen (lo := 8) (k := 4) (j := 4) (m := 8) rfl (bits_of_masked hzero rfl), bits_of_masked (lo := 0) (n := 8) hzero rfl] at hword
    exact hword
  · exact hu.symm
  · rw [Form.wide, Form.pre, ← hwide]
    exact hwc

theorem writes_maskS (hshape : row.shape = .maskS) (hseq : sequenceOk 0 ps = true)
    (hok : ps.all prefixWordOk = true) (hzero : w &&& Shape.zero .maskS = 0)
    (h : parseForm row ps w ws = some (f, true, after)) : f.Writes ps w ws after ∧ f.shape = row.shape := by
  simp only [parseForm, hshape, wideOf_fold, aluPrefix_fold] at h
  obtain ⟨⟨c, okc, u⟩, ht, heq⟩ := Option.map_eq_some_iff.mp h
  simp only [Prod.mk.injEq] at heq
  obtain ⟨rfl, rfl, rfl⟩ := heq
  obtain ⟨hps, -, hu, hwc, hwide⟩ := aluFourth_eq hseq hok ht
  refine ⟨⟨hps, ?_, ?_, ?_⟩, hshape.symm⟩
  · have hword := wordA_bits w
    rw [← bits_widen (lo := 8) (k := 4) (j := 4) (m := 8) rfl (bits_of_masked hzero rfl), bits_of_masked (lo := 0) (n := 8) hzero rfl] at hword
    exact hword
  · exact hu.symm
  · rw [Form.wide, Form.pre, ← hwide]
    exact hwc

theorem writes_maskL (hshape : row.shape = .maskL) (hseq : sequenceOk 0 ps = true)
    (hok : ps.all prefixWordOk = true) (hzero : w &&& Shape.zero .maskL = 0) (hop : bits w 24 8 = 0x83)
    (h : parseForm row ps w ws = some (f, true, after)) : f.Writes ps w ws after ∧ f.shape = row.shape := by
  simp only [parseForm, hshape, wideOf_fold, aluPrefix_fold] at h
  split at h
  · cases h
  next r hr =>
  obtain ⟨⟨c, okc, u⟩, ht, heq⟩ := Option.map_eq_some_iff.mp h
  simp only [Prod.mk.injEq, Bool.and_eq_true, beq_iff_eq] at heq
  obtain ⟨rfl, ⟨⟨-, rfl⟩, hcode⟩, rfl⟩ := heq
  rw [← scalarCode_bits hcode, takeOpnd_scalar] at hr
  cases hr
  obtain ⟨hps, -, hu, hwc, hwide⟩ := aluFourth_eq hseq hok ht
  refine ⟨⟨hps, ?_, hu.symm, ?_⟩, hshape.symm⟩
  · have hword := wordA_bits w
    rw [hop, ← scalarCode_bits hcode, ← bits_widen (lo := 16) (k := 4) (j := 3) (m := 7) rfl (bits_of_masked hzero rfl), bits_of_masked (lo := 0) (n := 8) hzero rfl] at hword
    exact hword
  · rw [Form.wide, Form.pre, ← hwide]
    exact hwc

theorem writes_expr (hshape : row.shape = .expr) (hseq : sequenceOk 0 ps = true)
    (hok : ps.all prefixWordOk = true) (hop : bits w 24 8 = 0x89) (hext : extensionOk row w ws = true)
    (h : parseForm row ps w ws = some (f, true, after)) : f.Writes ps w ws after ∧ f.shape = row.shape := by
  simp only [parseForm, hshape, wideOf_fold, aluPrefix_fold] at h
  split at h
  · next w1 w2 rest =>
    have hzero : bits w1 12 2 = 0 := by simpa [extensionOk, hshape] using hext
    split at h
    · cases h
    next ra hra =>
    split at h
    · cases h
    next rb hrb =>
    split at h
    · cases h
    next rd hrd =>
    split at h
    · cases h
    next re hre =>
    obtain ⟨⟨c, okc, u⟩, ht, heq⟩ := Option.map_eq_some_iff.mp h
    obtain ⟨a, oka, ua⟩ := ra
    obtain ⟨b, okb, ub⟩ := rb
    obtain ⟨d, okd, ud⟩ := rd
    obtain ⟨e, oke, ue⟩ := re
    simp only [Prod.mk.injEq, Bool.and_eq_true] at heq
    obtain ⟨rfl, ⟨⟨⟨⟨rfl, rfl⟩, rfl⟩, rfl⟩, rfl⟩, rfl⟩ := heq
    obtain ⟨hca, hua, hwa⟩ := takeOpnd_eq hra
    obtain ⟨hcb, hub, hwb⟩ := takeOpnd_eq hrb
    obtain ⟨hcd, hud, hwd⟩ := takeOpnd_eq hrd
    obtain ⟨hce, hue, hwe⟩ := takeOpnd_eq hre
    obtain ⟨hps, -, hu, hwc, hwide⟩ := aluFourth_eq hseq hok ht
    refine ⟨⟨hps, ?_, ?_, ?_⟩, hshape.symm⟩
    · have hword := wordA_bits w
      rw [hop, hca, hcb] at hword
      exact hword
    · rw [Form.tail_append, Form.extension, expr_second]
      simp only [Form.opnds, List.flatMap_cons, List.cons_append, List.nil_append, List.append_assoc, fourthWords_fold,
        steps_low, steps_high]
      rw [← hcd, ← hce, stepWord_bits hzero, ← hu, ← hue, ← hud, ← hub, ← hua]
    · rw [Form.wide, Form.pre, ← hwide]
      simp only [Form.opnds, List.all_cons, hwc, hwa, hwb, hwd, hwe, Bool.and_self]
  · cases h

/-- An index field, from its bit and its value, where it is zero without the bit. -/
theorem index_isSome (b : Bool) (r : BitVec 7) : (if b = true then some r else none).isSome = b := by cases b <;> rfl

theorem index_getD {b : Bool} {r : BitVec 7} (h : b = true ∨ r = 0) :
    (if b = true then some r else none).getD 0 = r := by
  cases b with
  | true => rfl
  | false => exact (h.resolve_left Bool.false_ne_true).symm

theorem writes_memV (hshape : row.shape = .memV) (hseq : sequenceOk 1 ps = true)
    (hok : ps.all prefixWordOk = true) (hext : extensionOk row w ws = true)
    (h : parseForm row ps w ws = some (f, true, after)) : f.Writes ps w ws after ∧ f.shape = row.shape := by
  simp only [parseForm, hshape, wideOf_fold, memPrefix_fold, offPrefix_fold] at h
  obtain ⟨⟨c, okc, u⟩, ht, heq⟩ := Option.map_eq_some_iff.mp h
  simp only [Prod.mk.injEq] at heq
  obtain ⟨rfl, rfl, rfl⟩ := heq
  obtain ⟨hps, -, hu, hwc⟩ := memFourth_eq hseq hok ht
  refine ⟨⟨hps, ?_, hu.symm, hwc⟩, hshape.symm⟩
  have hidx : bit w 7 = true ∨ bits w 0 7 = 0 := by simpa [extensionOk, hshape] using hext
  rw [memV_word, index_isSome, index_getD hidx]
  exact memVWord_bits w

theorem writes_memU (hshape : row.shape = .memU) (hseq : sequenceOk 1 ps = true)
    (hok : ps.all prefixWordOk = true)
    (h : parseForm row ps w ws = some (f, true, after)) : f.Writes ps w ws after ∧ f.shape = row.shape := by
  simp only [parseForm, hshape, wideOf_fold, memPrefix_fold, offPrefix_fold] at h
  obtain ⟨⟨c, okc, u⟩, ht, heq⟩ := Option.map_eq_some_iff.mp h
  simp only [Prod.mk.injEq] at heq
  obtain ⟨rfl, rfl, rfl⟩ := heq
  obtain ⟨hps, -, hu, hwc⟩ := memFourth_eq hseq hok ht
  refine ⟨⟨hps, ?_, hu.symm, hwc⟩, hshape.symm⟩
  rw [memU_word]
  exact memUWord_bits w

theorem writes_fence (hshape : row.shape = .fence) (hseq : sequenceOk 1 ps = true)
    (hok : ps.all prefixWordOk = true) (hzero : w &&& Shape.zero .fence = 0) (hop : bits w 24 8 = 0xA8)
    (h : parseForm row ps w ws = some (f, true, after)) : f.Writes ps w ws after ∧ f.shape = row.shape := by
  simp only [parseForm, hshape, wideOf_fold, memPrefix_fold, offPrefix_fold] at h
  obtain ⟨⟨c, okc, u⟩, ht, heq⟩ := Option.map_eq_some_iff.mp h
  simp only [Prod.mk.injEq] at heq
  obtain ⟨rfl, rfl, rfl⟩ := heq
  obtain ⟨hps, -, hu, hwc⟩ := memFourth_eq hseq hok ht
  refine ⟨⟨hps, ?_, hu.symm, hwc⟩, hshape.symm⟩
  have hword := wordA_bits w
  rw [hop, bit_of_masked (i := 23) hzero rfl, bits_of_masked (lo := 16) (n := 7) hzero rfl,
    bits_of_masked (lo := 8) (n := 8) hzero rfl] at hword
  exact hword

theorem writes_lda (hshape : row.shape = .lda) (hseq : sequenceOk 1 ps = true)
    (hok : ps.all prefixWordOk = true) (hop : bits w 24 8 = 0xAF) (hext : extensionOk row w ws = true)
    (h : parseForm row ps w ws = some (f, true, after)) : f.Writes ps w ws after ∧ f.shape = row.shape := by
  simp only [parseForm, hshape, wideOf_fold, memPrefix_fold, offPrefix_fold] at h
  split at h
  · next w1 rest =>
    obtain ⟨hzero, hidx⟩ : bits w1 0 16 = 0 ∧ (bit w1 24 = true ∨ bits w1 25 7 = 0) := by
      simpa [extensionOk, hshape] using hext
    split at h
    · cases h
    next ra hra =>
    obtain ⟨⟨c, okc, u⟩, ht, heq⟩ := Option.map_eq_some_iff.mp h
    obtain ⟨a, oka, ua⟩ := ra
    simp only [Prod.mk.injEq, Bool.and_eq_true] at heq
    obtain ⟨rfl, ⟨rfl, rfl⟩, rfl⟩ := heq
    obtain ⟨hca, hua, hwa⟩ := takeOpnd_eq hra
    obtain ⟨hps, -, hu, hwc⟩ := memFourth_eq hseq hok ht
    rw [wideOf_of_mem hseq] at hwa
    refine ⟨⟨hps, ?_, ?_, ?_⟩, hshape.symm⟩
    · rw [lda_word]
      have hword := ldaWord_bits w
      rw [hop] at hword
      exact hword
    · rw [Form.tail_append, Form.extension, lda_second, index_isSome, index_getD hidx]
      simp only [Form.opnds, List.flatMap_cons, List.cons_append, List.nil_append, List.append_assoc, fourthWords_fold]
      rw [← hca, gatherWord_bits hzero, ← hu, ← hua]
    · rw [Form.opnds, List.all_cons]
      exact Bool.and_eq_true_iff.mpr ⟨hwa, hwc⟩
  · cases h

theorem writes_none (hshape : row.shape = .none) (hps : ps = []) (hzero : w &&& Shape.zero .none = 0)
    (h : parseForm row ps w ws = some (f, true, after)) : f.Writes ps w ws after ∧ f.shape = row.shape := by
  subst hps
  simp only [parseForm, hshape] at h
  cases h
  refine ⟨⟨rfl, ?_, rfl, rfl⟩, hshape.symm⟩
  have hword := wordA_bits w
  rw [bit_of_masked (i := 23) hzero rfl, bits_of_masked (lo := 16) (n := 7) hzero rfl,
    bits_of_masked (lo := 8) (n := 8) hzero rfl, bits_of_masked (lo := 0) (n := 8) hzero rfl] at hword
  exact hword

theorem writes_n8 (hshape : row.shape = .n8) (hps : ps = []) (hzero : w &&& Shape.zero .n8 = 0)
    (h : parseForm row ps w ws = some (f, true, after)) : f.Writes ps w ws after ∧ f.shape = row.shape := by
  subst hps
  simp only [parseForm, hshape] at h
  cases h
  refine ⟨⟨rfl, ?_, rfl, rfl⟩, hshape.symm⟩
  have hword := wordA_bits w
  rw [bit_of_masked (i := 23) hzero rfl, bits_of_masked (lo := 16) (n := 7) hzero rfl,
    bits_of_masked (lo := 8) (n := 8) hzero rfl] at hword
  exact hword

theorem writes_br (hshape : row.shape = .br) (hps : ps = [])
    (h : parseForm row ps w ws = some (f, true, after)) : f.Writes ps w ws after ∧ f.shape = row.shape := by
  subst hps
  simp only [parseForm, hshape] at h
  cases h
  exact ⟨⟨rfl, brWord_bits w, rfl, rfl⟩, hshape.symm⟩

theorem writes_mma (hshape : row.shape = .mma) (hps : ps = []) (hzero : w &&& Shape.zero .mma = 0) (hop : bits w 24 8 = 0xD4)
    (h : parseForm row ps w ws = some (f, true, after)) : f.Writes ps w ws after ∧ f.shape = row.shape := by
  subst hps
  simp only [parseForm, hshape] at h
  cases h
  refine ⟨⟨rfl, ?_, rfl, rfl⟩, hshape.symm⟩
  have hword := wordA_bits w
  rw [hop, bit_of_masked (i := 23) hzero rfl, ← mmaD_bits,
    ← bits_widen (lo := 8) (k := 6) (j := 2) (m := 8) rfl (bits_of_masked hzero rfl),
    ← bits_widen (lo := 0) (k := 6) (j := 2) (m := 8) rfl (bits_of_masked hzero rfl)] at hword
  exact hword

theorem writes_aclr (hshape : row.shape = .aclr) (hps : ps = []) (hzero : w &&& Shape.zero .aclr = 0) (hop : bits w 24 8 = 0xD5)
    (h : parseForm row ps w ws = some (f, true, after)) : f.Writes ps w ws after ∧ f.shape = row.shape := by
  subst hps
  simp only [parseForm, hshape] at h
  cases h
  refine ⟨⟨rfl, ?_, rfl, rfl⟩, hshape.symm⟩
  have hword := wordA_bits w
  rw [hop, bit_of_masked (i := 23) hzero rfl,
    ← bits_widen (lo := 16) (k := 4) (j := 3) (m := 7) rfl (bits_of_masked hzero rfl),
    bits_of_masked (lo := 8) (n := 8) hzero rfl, bits_of_masked (lo := 0) (n := 8) hzero rfl] at hword
  exact hword

theorem writes_arena (hshape : row.shape = .arena) (hps : ps = []) (hzero : w &&& Shape.zero .arena = 0) (hop : bits w 24 8 = 0xC5)
    (h : parseForm row ps w ws = some (f, true, after)) : f.Writes ps w ws after ∧ f.shape = row.shape := by
  subst hps
  simp only [parseForm, hshape, wideOf_fold] at h
  obtain ⟨⟨a, oka, u⟩, ha, heq⟩ := Option.map_eq_some_iff.mp h
  simp only [Prod.mk.injEq] at heq
  obtain ⟨rfl, rfl, rfl⟩ := heq
  obtain ⟨hca, hu, hwa⟩ := takeOpnd_eq ha
  refine ⟨⟨rfl, ?_, ?_, ?_⟩, hshape.symm⟩
  · have hword := wordA_bits w
    rw [hop, bit_of_masked (i := 23) hzero rfl, hca] at hword
    exact hword
  · simp only [Form.tail_append, Form.extension, Form.opnds, List.flatMap_cons, List.flatMap_nil, List.append_nil,
      List.nil_append]
    exact hu.symm
  · exact Bool.and_eq_true_iff.mpr ⟨hwa, rfl⟩

theorem writes_slot (hshape : row.shape = .slot) (hps : ps = []) (hzero : w &&& Shape.zero .slot = 0)
    (h : parseForm row ps w ws = some (f, true, after)) : f.Writes ps w ws after ∧ f.shape = row.shape := by
  subst hps
  simp only [parseForm, hshape, wideOf_fold] at h
  obtain ⟨⟨a, oka, u⟩, ha, heq⟩ := Option.map_eq_some_iff.mp h
  simp only [Prod.mk.injEq] at heq
  obtain ⟨rfl, rfl, rfl⟩ := heq
  obtain ⟨hca, hu, hwa⟩ := takeOpnd_eq ha
  refine ⟨⟨rfl, ?_, ?_, ?_⟩, hshape.symm⟩
  · have hword := wordA_bits w
    rw [bit_of_masked (i := 23) hzero rfl, ← bits_widen (lo := 16) (k := 6) (j := 1) (m := 7) rfl (bits_of_masked hzero rfl), hca] at hword
    exact hword
  · simp only [Form.tail_append, Form.extension, Form.opnds, List.flatMap_cons, List.flatMap_nil, List.append_nil,
      List.nil_append]
    exact hu.symm
  · exact Bool.and_eq_true_iff.mpr ⟨hwa, rfl⟩

theorem writes_adrn (hshape : row.shape = .adrn) (hps : ps = []) (hzero : w &&& Shape.zero .adrn = 0) (hop : bits w 24 8 = 0xD6)
    (h : parseForm row ps w ws = some (f, true, after)) : f.Writes ps w ws after ∧ f.shape = row.shape := by
  subst hps
  simp only [parseForm, hshape, wideOf_fold] at h
  obtain ⟨⟨a, oka, u⟩, ha, heq⟩ := Option.map_eq_some_iff.mp h
  simp only [Prod.mk.injEq] at heq
  obtain ⟨rfl, rfl, rfl⟩ := heq
  obtain ⟨hca, hu, hwa⟩ := takeOpnd_eq ha
  refine ⟨⟨rfl, ?_, ?_, ?_⟩, hshape.symm⟩
  · have hword := wordA_bits w
    rw [hop, bit_of_masked (i := 23) hzero rfl, ← bits_widen (lo := 16) (k := 4) (j := 3) (m := 7) rfl (bits_of_masked hzero rfl), hca, bits_of_masked (lo := 0) (n := 8) hzero rfl] at hword
    exact hword
  · simp only [Form.tail_append, Form.extension, Form.opnds, List.flatMap_cons, List.flatMap_nil, List.append_nil,
      List.nil_append]
    exact hu.symm
  · exact Bool.and_eq_true_iff.mpr ⟨hwa, rfl⟩

theorem writes_ctlA (hshape : row.shape = .ctlA) (hps : ps = []) (hzero : w &&& Shape.zero .ctlA = 0)
    (h : parseForm row ps w ws = some (f, true, after)) : f.Writes ps w ws after ∧ f.shape = .ctlA := by
  subst hps
  simp only [parseForm, hshape, wideOf_fold] at h
  obtain ⟨⟨a, oka, u⟩, ha, heq⟩ := Option.map_eq_some_iff.mp h
  simp only [Prod.mk.injEq] at heq
  obtain ⟨rfl, rfl, rfl⟩ := heq
  obtain ⟨hca, hu, hwa⟩ := takeOpnd_eq ha
  refine ⟨⟨rfl, ?_, ?_, ?_⟩, rfl⟩
  · have hword := wordA_bits w
    rw [bit_of_masked (i := 23) hzero rfl, hca, bits_of_masked (lo := 0) (n := 8) hzero rfl] at hword
    exact hword
  · simp only [Form.tail_append, Form.extension, Form.opnds, Option.toList_none, List.flatMap_cons, List.flatMap_nil, List.append_nil,
      List.nil_append]
    exact hu.symm
  · exact Bool.and_eq_true_iff.mpr ⟨hwa, rfl⟩

theorem writes_ctlDA (hshape : row.shape = .ctlDA) (hps : ps = []) (hzero : w &&& Shape.zero .ctlDA = 0)
    (h : parseForm row ps w ws = some (f, true, after)) : f.Writes ps w ws after ∧ f.shape = .ctlA := by
  subst hps
  simp only [parseForm, hshape, wideOf_fold] at h
  obtain ⟨⟨a, oka, u⟩, ha, heq⟩ := Option.map_eq_some_iff.mp h
  simp only [Prod.mk.injEq] at heq
  obtain ⟨rfl, rfl, rfl⟩ := heq
  obtain ⟨hca, hu, hwa⟩ := takeOpnd_eq ha
  refine ⟨⟨rfl, ?_, ?_, ?_⟩, rfl⟩
  · have hword := wordA_bits w
    rw [bit_of_masked (i := 23) hzero rfl, hca, bits_of_masked (lo := 0) (n := 8) hzero rfl] at hword
    exact hword
  · simp only [Form.tail_append, Form.extension, Form.opnds, Option.toList_none, List.flatMap_cons, List.flatMap_nil, List.append_nil,
      List.nil_append]
    exact hu.symm
  · exact Bool.and_eq_true_iff.mpr ⟨hwa, rfl⟩

theorem writes_ctlAB (hshape : row.shape = .ctlAB) (hps : ps = []) (hzero : w &&& Shape.zero .ctlAB = 0)
    (h : parseForm row ps w ws = some (f, true, after)) : f.Writes ps w ws after ∧ f.shape = row.shape := by
  subst hps
  simp only [parseForm, hshape, wideOf_fold] at h
  split at h
  · cases h
  next ra hra =>
  obtain ⟨⟨b, okb, u⟩, hb, heq⟩ := Option.map_eq_some_iff.mp h
  obtain ⟨a, oka, ua⟩ := ra
  simp only [Prod.mk.injEq, Bool.and_eq_true] at heq
  obtain ⟨rfl, ⟨rfl, rfl⟩, rfl⟩ := heq
  obtain ⟨hca, hua, hwa⟩ := takeOpnd_eq hra
  obtain ⟨hcb, hu, hwb⟩ := takeOpnd_eq hb
  refine ⟨⟨rfl, ?_, ?_, ?_⟩, hshape.symm⟩
  · have hword := wordA_bits w
    rw [bit_of_masked (i := 23) hzero rfl, hca, hcb] at hword
    exact hword
  · simp only [Form.tail_append, Form.extension, Form.opnds, Option.toList_some, List.flatMap_cons, List.flatMap_nil,
      List.append_nil, List.nil_append, List.append_assoc]
    rw [← hu, ← hua]
  · rw [Form.opnds, List.all_cons]
    exact Bool.and_eq_true_iff.mpr ⟨hwa, Bool.and_eq_true_iff.mpr ⟨hwb, rfl⟩⟩

theorem writes_promote (hshape : row.shape = .promote) (hps : ps = []) (hzero : w &&& Shape.zero .promote = 0) (hop : bits w 24 8 = 0xC4)
    (h : parseForm row ps w ws = some (f, true, after)) : f.Writes ps w ws after ∧ f.shape = row.shape := by
  subst hps
  simp only [parseForm, hshape, wideOf_fold] at h
  obtain ⟨⟨b, okb, u⟩, hb, heq⟩ := Option.map_eq_some_iff.mp h
  simp only [Prod.mk.injEq, Bool.and_eq_true, Bool.or_eq_true, beq_iff_eq] at heq
  obtain ⟨rfl, ⟨rfl, hcode⟩, rfl⟩ := heq
  obtain ⟨hcb, hu, hwb⟩ := takeOpnd_eq hb
  have hsource : sourceCode (if bits w 8 8 = 0xD0 then none else some (bits w 8 6)) = bits w 8 8 := by
    split
    · next hzero => exact hzero.symm
    · next hne => exact scalarCode_bits (hcode.resolve_left hne)
  refine ⟨⟨rfl, ?_, ?_, ?_⟩, hshape.symm⟩
  · rw [promote_word, hsource]
    have hword := wordA_bits w
    rw [hop, bit_of_masked (i := 23) hzero rfl, ← promoteD_bits, hcb] at hword
    exact hword
  · simp only [Form.tail_append, Form.extension, Form.opnds, List.flatMap_cons, List.flatMap_nil, List.append_nil,
      List.nil_append]
    exact hu.symm
  · exact Bool.and_eq_true_iff.mpr ⟨hwb, rfl⟩

end Writes

/-- What `parseForm` reads has the words that it was read from, and the shape of its row. -/
theorem writes_of_parseForm {row : Row} {ps ws after : List Word} {w : Word} {f : Form}
    (hreg : row.regular (bits w 24 8).toNat = true) (hseq : sequenceOk row.cls ps = true)
    (hok : ps.all prefixWordOk = true) (hzero : w &&& row.zero = 0) (hext : extensionOk row w ws = true)
    (h : parseForm row ps w ws = some (f, true, after)) : f.Writes ps w ws after ∧ f.HasShape row.shape := by
  simp only [Row.regular, Bool.and_eq_true, beq_iff_eq] at hreg
  obtain ⟨⟨⟨⟨hz, honly⟩, hcls⟩, -⟩, -⟩ := hreg
  have hz' : w &&& row.shape.zero = 0 := by rw [← hz, ← BitVec.and_assoc, hzero]; exact BitVec.zero_and
  have halu : row.shape.prefixClass = 0 → sequenceOk 0 ps = true := by
    intro h0
    rwa [show row.cls = 0 by omega] at hseq
  have hmem : row.shape.prefixClass = 1 → sequenceOk 1 ps = true := by
    intro h1
    rwa [show row.cls = 1 by omega] at hseq
  have hnil : row.shape.prefixClass = 2 → ps = [] := by
    intro h2
    exact prefixes_nil (by omega) hseq
  have hop : ∀ n, row.shape.only = some n → bits w 24 8 = BitVec.ofNat 8 n := by
    intro n hn
    rw [hn] at honly
    obtain rfl : n = (bits w 24 8).toNat := by simpa using honly
    rw [BitVec.ofNat_toNat, BitVec.setWidth_eq]
  cases hs : row.shape <;> rw [hs] at hz' halu hmem hnil hop
  case none =>
    obtain ⟨hw, hf⟩ := writes_none hs (hnil rfl) hz' h
    exact ⟨hw, .inl (hf.trans hs).symm⟩
  case br =>
    obtain ⟨hw, hf⟩ := writes_br hs (hnil rfl) h
    exact ⟨hw, .inl (hf.trans hs).symm⟩
  case ctlA =>
    obtain ⟨hw, hf⟩ := writes_ctlA hs (hnil rfl) hz' h
    exact ⟨hw, .inl hf.symm⟩
  case ctlAB =>
    obtain ⟨hw, hf⟩ := writes_ctlAB hs (hnil rfl) hz' h
    exact ⟨hw, .inl (hf.trans hs).symm⟩
  case ctlDA =>
    obtain ⟨hw, hf⟩ := writes_ctlDA hs (hnil rfl) hz' h
    exact ⟨hw, .inr ⟨rfl, hf⟩⟩
  case n8 =>
    obtain ⟨hw, hf⟩ := writes_n8 hs (hnil rfl) hz' h
    exact ⟨hw, .inl (hf.trans hs).symm⟩
  case alu2 =>
    obtain ⟨hw, hf⟩ := writes_alu2 hs (halu rfl) hok h
    exact ⟨hw, .inl (hf.trans hs).symm⟩
  case alu1 =>
    obtain ⟨hw, hf⟩ := writes_alu1 hs (halu rfl) hok hz' h
    exact ⟨hw, .inl (hf.trans hs).symm⟩
  case aluX =>
    obtain ⟨hw, hf⟩ := writes_aluX hs (halu rfl) hok h
    exact ⟨hw, .inl (hf.trans hs).symm⟩
  case aluD =>
    obtain ⟨hw, hf⟩ := writes_aluD hs (halu rfl) hok hz' h
    exact ⟨hw, .inl (hf.trans hs).symm⟩
  case imm =>
    obtain ⟨hw, hf⟩ := writes_imm hs (halu rfl) hok h
    exact ⟨hw, .inl (hf.trans hs).symm⟩
  case sget =>
    obtain ⟨hw, hf⟩ := writes_sget hs (halu rfl) hok hz' (hop _ rfl) h
    exact ⟨hw, .inl (hf.trans hs).symm⟩
  case mask2 =>
    obtain ⟨hw, hf⟩ := writes_mask2 hs (halu rfl) hok hz' h
    exact ⟨hw, .inl (hf.trans hs).symm⟩
  case mask1 =>
    obtain ⟨hw, hf⟩ := writes_mask1 hs (halu rfl) hok hz' h
    exact ⟨hw, .inl (hf.trans hs).symm⟩
  case maskS =>
    obtain ⟨hw, hf⟩ := writes_maskS hs (halu rfl) hok hz' h
    exact ⟨hw, .inl (hf.trans hs).symm⟩
  case maskL =>
    obtain ⟨hw, hf⟩ := writes_maskL hs (halu rfl) hok hz' (hop _ rfl) h
    exact ⟨hw, .inl (hf.trans hs).symm⟩
  case expr =>
    obtain ⟨hw, hf⟩ := writes_expr hs (halu rfl) hok (hop _ rfl) hext h
    exact ⟨hw, .inl (hf.trans hs).symm⟩
  case memV =>
    obtain ⟨hw, hf⟩ := writes_memV hs (hmem rfl) hok hext h
    exact ⟨hw, .inl (hf.trans hs).symm⟩
  case memU =>
    obtain ⟨hw, hf⟩ := writes_memU hs (hmem rfl) hok h
    exact ⟨hw, .inl (hf.trans hs).symm⟩
  case fence =>
    obtain ⟨hw, hf⟩ := writes_fence hs (hmem rfl) hok hz' (hop _ rfl) h
    exact ⟨hw, .inl (hf.trans hs).symm⟩
  case lda =>
    obtain ⟨hw, hf⟩ := writes_lda hs (hmem rfl) hok (hop _ rfl) hext h
    exact ⟨hw, .inl (hf.trans hs).symm⟩
  case promote =>
    obtain ⟨hw, hf⟩ := writes_promote hs (hnil rfl) hz' (hop _ rfl) h
    exact ⟨hw, .inl (hf.trans hs).symm⟩
  case arena =>
    obtain ⟨hw, hf⟩ := writes_arena hs (hnil rfl) hz' (hop _ rfl) h
    exact ⟨hw, .inl (hf.trans hs).symm⟩
  case slot =>
    obtain ⟨hw, hf⟩ := writes_slot hs (hnil rfl) hz' h
    exact ⟨hw, .inl (hf.trans hs).symm⟩
  case mma =>
    obtain ⟨hw, hf⟩ := writes_mma hs (hnil rfl) hz' (hop _ rfl) h
    exact ⟨hw, .inl (hf.trans hs).symm⟩
  case aclr =>
    obtain ⟨hw, hf⟩ := writes_aclr hs (hnil rfl) hz' (hop _ rfl) h
    exact ⟨hw, .inl (hf.trans hs).symm⟩
  case adrn =>
    obtain ⟨hw, hf⟩ := writes_adrn hs (hnil rfl) hz' (hop _ rfl) h
    exact ⟨hw, .inl (hf.trans hs).symm⟩

end Sys2Proof

-- Forms and instructions, and the two round trips.

namespace Sys2Proof

/-- The opcode of a form stands in its instruction word. -/
theorem word_op (f : Form) : bits f.word 24 8 = f.op := by
  cases f with
  | br op c off => rw [br_word, brWord_op, Form.op]
  | imm op g => rw [imm_word, immWord_op, Form.op]
  | memV op g => rw [memV_word, memVWord_op, Form.op]
  | memU op g => rw [memU_word, memUWord_op, Form.op]
  | lda g => rw [lda_word, ldaWord_op, Form.op]
  | _ => simp only [Form.word, wordA_op, Form.op]

theorem prefixes_prefixOp (f : Form) : ∀ p ∈ f.prefixes, prefixOp (bits p 24 8) = true := by
  have halu : ∀ pre : Option AluPre, ∀ p ∈ (pre.map aluPreWord).toList, prefixOp (bits p 24 8) = true := by
    intro pre p hp
    obtain ⟨q, -, rfl⟩ := Option.map_eq_some_iff.mp (Option.mem_toList.mp hp)
    rw [aluPreWord_op, aluPreOp]
    split <;> rfl
  have hmem : ∀ a x, ∀ p ∈ memPrefixes a x, prefixOp (bits p 24 8) = true := by
    intro a x p hp
    obtain hp | hp := List.mem_append.mp hp
    · obtain ⟨q, -, rfl⟩ := Option.map_eq_some_iff.mp (Option.mem_toList.mp hp)
      rw [memAttWord_op]
      rfl
    · obtain ⟨q, -, rfl⟩ := Option.map_eq_some_iff.mp (Option.mem_toList.mp hp)
      rw [offsetWord_op]
      rfl
  cases f with
  | memV _ g => exact hmem _ _
  | memU _ g => exact hmem _ _
  | fence g => exact hmem _ _
  | lda g => exact hmem _ _
  | none | br | ctl | n8 | promote | arena | slot | mma | aclr | adrn => exact halu Option.none
  | alu2 _ g | alu1 _ g | aluX _ g | aluD _ g | imm _ g | mask2 _ g | mask1 _ g | maskS _ g => exact halu g.pre
  | sget g | maskL g | expr g => exact halu g.pre

/-- An encoded form splits into its prefixes and the rest, where its opcode is not a prefixing word's. -/
theorem splitPrefixes_encodeForm {f : Form} (hop : prefixOp f.op = false) (t : List Word) :
    splitPrefixes (encodeForm f ++ t) = (f.prefixes, f.word :: (f.tail ++ t)) := by
  rw [encodeForm_eq, List.append_assoc, List.cons_append]
  exact splitPrefixes_append (prefixes_prefixOp f) (by rw [word_op, hop]) _

theorem prefixOp_of_regular {op : BitVec 8} {row : Row} (h : row.regular op.toNat = true) : prefixOp op = false := by
  simp only [Row.regular, Bool.and_eq_true, Bool.or_eq_true, decide_eq_true_eq] at h
  obtain ⟨⟨-, hop⟩, -⟩ := h
  rw [prefixOp, Bool.and_eq_false_iff, decide_eq_false_iff_not, decide_eq_false_iff_not]
  bv_omega

/-! ### The tables of opcodes -/

theorem mem_of_lookup {β : Type} {l : List (Nat × β)} {k : Nat} {v : β} (h : l.lookup k = some v) : (k, v) ∈ l := by
  obtain ⟨l₁, l₂, rfl, -⟩ := List.lookup_eq_some_iff.mp h
  simp

/-- The instructions of the form `ctl` with the operand A alone, but for JMPI and RET. -/
def ctlOneOps (d : BitVec 7) (a : Opnd) : List (Nat × Instr) := [
  (0x0C, .sleep a), (0x13, .barpAnd d a), (0x14, .barpOr d a), (0x15, .barpAdd d a), (0x16, .barpMin d a),
  (0x17, .barpMax d a), (0x19, .waitp a), (0x1A, .bbwait a), (0xC0, .cpost d a), (0xC1, .cpostNb d a),
  (0xC3, .bbinv a), (0xC6, .launch d a), (0xD7, .mtok a)]

/-- The instructions without fields. -/
def bareOps : List (Nat × Instr) := [
  (0x00, .nop), (0x0A, .exit), (0x0B, .yield), (0x0F, .tret), (0x10, .bkpt), (0x11, .acquire), (0x12, .bar)]

/-- The control opcodes whose word has no destination. -/
def noDest : List Nat := [0x07, 0x09, 0x0C, 0x0D, 0x18, 0x19, 0x1A, 0xC2, 0xC3, 0xC7, 0xD7]

theorem form_bareOps : ∀ p ∈ bareOps, form p.2 = some (.none (BitVec.ofNat 8 p.1)) :=
  List.map_inj_left.mp rfl

theorem form_ctlOneOps (d : BitVec 7) (a : Opnd) : ∀ p ∈ ctlOneOps d a,
    form p.2 = some (.ctl (BitVec.ofNat 8 p.1) (if p.1 ∈ noDest then 0 else d) a none) :=
  List.map_inj_left.mp rfl

theorem form_alu2Ops (g : Alu2) : ∀ p ∈ alu2Ops, form (p.2 g) = some (.alu2 (BitVec.ofNat 8 p.1) g) :=
  List.map_inj_left.mp rfl

theorem form_alu1Ops (g : Alu1) : ∀ p ∈ alu1Ops, form (p.2 g) = some (.alu1 (BitVec.ofNat 8 p.1) g) :=
  List.map_inj_left.mp rfl

theorem form_aluXOps (g : AluX) : ∀ p ∈ aluXOps, form (p.2 g) = some (.aluX (BitVec.ofNat 8 p.1) g) :=
  List.map_inj_left.mp rfl

theorem form_aluDOps (g : AluD) : ∀ p ∈ aluDOps, form (p.2 g) = some (.aluD (BitVec.ofNat 8 p.1) g) :=
  List.map_inj_left.mp rfl

theorem form_immOps (g : AluImm) : ∀ p ∈ immOps, form (p.2 g) = some (.imm (BitVec.ofNat 8 p.1) g) :=
  List.map_inj_left.mp rfl

theorem form_mask2Ops (g : Mask2) : ∀ p ∈ mask2Ops, form (p.2 g) = some (.mask2 (BitVec.ofNat 8 p.1) g) :=
  List.map_inj_left.mp rfl

theorem form_mask1Ops (g : Mask1) : ∀ p ∈ mask1Ops, form (p.2 g) = some (.mask1 (BitVec.ofNat 8 p.1) g) :=
  List.map_inj_left.mp rfl

theorem form_maskSOps (g : MaskS) : ∀ p ∈ maskSOps, form (p.2 g) = some (.maskS (BitVec.ofNat 8 p.1) g) :=
  List.map_inj_left.mp rfl

theorem form_memVOps (g : MemV) : ∀ p ∈ memVOps, form (p.2 g) = some (.memV (BitVec.ofNat 8 p.1) g) :=
  List.map_inj_left.mp rfl

theorem form_memUOps (g : MemU) : ∀ p ∈ memUOps, form (p.2 g) = some (.memU (BitVec.ofNat 8 p.1) g) :=
  List.map_inj_left.mp rfl

/-- The instruction that a table gives has the form that it was looked up for. -/
theorem form_of_lookup {γ : Type} {l : List (Nat × (γ → Instr))} {mk : BitVec 8 → γ → Form} {g : γ} {op : BitVec 8}
    {i : Instr} (hall : ∀ p ∈ l, form (p.2 g) = some (mk (BitVec.ofNat 8 p.1) g))
    (h : (l.lookup op.toNat).map (fun k => k g) = some i) : form i = some (mk op g) := by
  obtain ⟨k, hk, rfl⟩ := Option.map_eq_some_iff.mp h
  rw [hall _ (mem_of_lookup hk), BitVec.ofNat_toNat, BitVec.setWidth_eq]

/-- Has the row of an opcode a shape? -/
def shapeAt (s : Shape) (op : Nat) : Bool := (rowOf (BitVec.ofNat 8 op)).all (·.shape == s)

theorem shapes_of_tables :
    (bareOps.all fun p => shapeAt .none p.1) = true ∧ (alu2Ops.all fun p => shapeAt .alu2 p.1) = true
      ∧ (alu1Ops.all fun p => shapeAt .alu1 p.1) = true ∧ (aluXOps.all fun p => shapeAt .aluX p.1) = true
      ∧ (aluDOps.all fun p => shapeAt .aluD p.1) = true ∧ (immOps.all fun p => shapeAt .imm p.1) = true
      ∧ (mask2Ops.all fun p => shapeAt .mask2 p.1) = true ∧ (mask1Ops.all fun p => shapeAt .mask1 p.1) = true
      ∧ (maskSOps.all fun p => shapeAt .maskS p.1) = true ∧ (memVOps.all fun p => shapeAt .memV p.1) = true
      ∧ (memUOps.all fun p => shapeAt .memU p.1) = true := by
  decide

theorem shape_of_shapeAt {s : Shape} {op : BitVec 8} {row : Row} (h : shapeAt s op.toNat = true)
    (hrow : rowOf op = some row) : row.shape = s := by
  rw [shapeAt, BitVec.ofNat_toNat, BitVec.setWidth_eq, hrow] at h
  simpa using h

/-- The shape that an opcode of a table has. -/
theorem shape_of_lookup {β : Type} {l : List (Nat × β)} {s : Shape} {op : BitVec 8} {row : Row} {v : β}
    (hall : (l.all fun p => shapeAt s p.1) = true) (h : l.lookup op.toNat = some v) (hrow : rowOf op = some row) :
    row.shape = s :=
  shape_of_shapeAt (List.all_eq_true.mp hall _ (mem_of_lookup h)) hrow

/-- Does the row of an opcode leave bits at zero? -/
def zeroAt (op : Nat) (lo n : Nat) : Bool :=
  (rowOf (BitVec.ofNat 8 op)).all fun r => bits r.zero lo n == BitVec.allOnes n

theorem bits_of_zeroAt {op : Nat} {row : Row} {w : Word} {lo n : Nat} (h : zeroAt op lo n = true)
    (hrow : rowOf (BitVec.ofNat 8 op) = some row) (hmask : w &&& row.zero = 0) : bits w lo n = 0#n := by
  rw [zeroAt, hrow] at h
  exact bits_of_masked hmask (by simpa using h)

theorem noDest_zero : (noDest.all fun n => zeroAt n 16 7) = true := by decide

/-- The instructions of one operand word: JMPI, RET and those of the table. -/
theorem ofForm_ctl_none {op : BitVec 8} {d : BitVec 7} {a : Opnd} {i : Instr}
    (h : ofForm (.ctl op d a none) = some i) :
    op = 0x07 ∧ (∃ p, a = .s p ∧ i = .jmpi p) ∨ op = 0x09 ∧ (∃ p, a = .s p ∧ i = .ret p)
      ∨ (ctlOneOps d a).lookup op.toNat = some i := by
  cases a with
  | s p =>
    simp only [ofForm] at h
    split_ifs at h with h1 h2
    · exact .inl ⟨h1, p, rfl, (Option.some.inj h).symm⟩
    · exact .inr (.inl ⟨h2, p, rfl, (Option.some.inj h).symm⟩)
    · exact .inr (.inr h)
  | _ => exact .inr (.inr h)

/-- The instructions of two operand words: WAITV, TSIG, WAITTAG and BBINIT. -/
theorem ofForm_ctl_some {op : BitVec 8} {d : BitVec 7} {a b : Opnd} {i : Instr}
    (h : ofForm (.ctl op d a (some b)) = some i) :
    op = 0x0D ∧ (∃ p, a = .s p ∧ i = .waitv p b) ∨ op = 0xC7 ∧ (∃ p, a = .s p ∧ i = .tsig p b)
      ∨ op = 0x18 ∧ i = .waittag a b ∨ op = 0xC2 ∧ i = .bbinit a b := by
  have htwo : ofForm.ctlTwo op a b = some i → op = 0x18 ∧ i = .waittag a b ∨ op = 0xC2 ∧ i = .bbinit a b := by
    intro h
    rw [ofForm.ctlTwo] at h
    split_ifs at h with h1 h2
    · exact .inl ⟨h1, (Option.some.inj h).symm⟩
    · exact .inr ⟨h2, (Option.some.inj h).symm⟩
  cases a with
  | s p =>
    simp only [ofForm] at h
    split_ifs at h with h1 h2
    · exact .inl ⟨h1, p, rfl, (Option.some.inj h).symm⟩
    · exact .inr (.inl ⟨h2, p, rfl, (Option.some.inj h).symm⟩)
    · exact .inr (.inr (htwo h))
  | _ => exact .inr (.inr (htwo h))

/-- The instructions on slots. -/
theorem ofForm_slot {op x : BitVec 8} {o : BitVec 6} {a : Opnd} {i : Instr} (h : ofForm (.slot op o a x) = some i) :
    op = 0xD0 ∧ i = .oclaim o a ∨ op = 0xD1 ∧ i = .orel o a ∨ op = 0xD2 ∧ i = .olda o a x
      ∨ op = 0xD3 ∧ (∃ p, a = .s p ∧ i = .oldw o p x) := by
  cases a with
  | s p =>
    simp only [ofForm] at h
    split_ifs at h with h1 h2 h3 h4
    · exact .inl ⟨h1, (Option.some.inj h).symm⟩
    · exact .inr (.inl ⟨h2, (Option.some.inj h).symm⟩)
    · exact .inr (.inr (.inl ⟨h3, (Option.some.inj h).symm⟩))
    · exact .inr (.inr (.inr ⟨h4, p, rfl, (Option.some.inj h).symm⟩))
  | _ =>
    simp only [ofForm] at h
    split_ifs at h with h1 h2 h3
    · exact .inl ⟨h1, (Option.some.inj h).symm⟩
    · exact .inr (.inl ⟨h2, (Option.some.inj h).symm⟩)
    · exact .inr (.inr (.inl ⟨h3, (Option.some.inj h).symm⟩))

/-! ### From a form to its instruction and back -/

theorem scalarCode_setWidth {c : BitVec 8} (h : c >>> 6 = 0b10) : scalarCode (c.setWidth 6) = c := by
  revert c
  decide

theorem maskCode_setWidth {c : BitVec 8} (h : c >>> 4 = 0) : (c.setWidth 4).setWidth 8 = c := by
  revert c
  decide

/-- The destination field that a control word leaves at zero. -/
theorem ctl_dest {op : BitVec 8} {d : BitVec 7} {a : Opnd} {b : Option Opnd} {row : Row}
    (hop : op.toNat ∈ noDest) (hrow : rowOf op = some row) (hmask : (Form.ctl op d a b).word &&& row.zero = 0) :
    d = 0 := by
  have hz := List.all_eq_true.mp noDest_zero _ hop
  have hd := bits_of_zeroAt hz (by rwa [BitVec.ofNat_toNat, BitVec.setWidth_eq]) hmask
  rwa [Form.word, wordA_d] at hd

/-- The condition register of a branch on a mask. -/
theorem br_mask {n : Nat} {c : BitVec 8} {off : BitVec 16} {row : Row} (hz : zeroAt n 20 4 = true)
    (hrow : rowOf (BitVec.ofNat 8 n) = some row)
    (hmask : (Form.br (BitVec.ofNat 8 n) c off).word &&& row.zero = 0) : c >>> 4 = 0 := by
  have hc := bits_of_zeroAt hz hrow hmask
  rw [show 20 = 16 + 4 from rfl, bits_high_part (by decide : 4 + 4 ≤ 8), br_word, brWord_c] at hc
  clear hmask
  revert c
  decide

/-- A form whose words are those of its row is that of the instruction it stands for. -/
theorem form_ofForm {ctx : DecCtx} {f : Form} {i : Instr} {row : Row} (h : ofForm f = some i)
    (hrow : rowOf f.op = some row) (hmask : f.word &&& row.zero = 0) (hops : operandsOk ctx row f = true) :
    form i = some f := by
  cases f with
  | none op =>
    rw [form_bareOps _ (mem_of_lookup h), BitVec.ofNat_toNat, BitVec.setWidth_eq]
  | br op c off =>
    simp only [Form.op] at hrow
    simp only [ofForm] at h
    split_ifs at h with h1 h2 h3 h4 h5 h6 h7 <;> cases h
    · subst h1
      have hc := bits_of_zeroAt (op := 1) (lo := 16) (n := 8) rfl hrow hmask
      rw [br_word, brWord_c] at hc
      rw [hc]
      rfl
    · have hc : c >>> 6 = 0b10 := by simpa [operandsOk, h2] using hops
      rw [form, scalarCode_setWidth hc, h2]
    · have hc : c >>> 6 = 0b10 := by simpa [operandsOk, h3] using hops
      rw [form, scalarCode_setWidth hc, h3]
    · subst h4
      rw [form, maskCode_setWidth (br_mask (n := 4) rfl hrow hmask)]
    · subst h5
      rw [form, maskCode_setWidth (br_mask (n := 5) rfl hrow hmask)]
    · subst h6
      rw [form, maskCode_setWidth (br_mask (n := 6) rfl hrow hmask)]
    · have hc : c >>> 6 = 0b10 := by
        have := hops
        simp [operandsOk, h7] at this
        exact this.1
      rw [form, scalarCode_setWidth hc, h7]
  | ctl op d a b =>
    cases b with
    | none =>
      obtain ⟨rfl, p, rfl, rfl⟩ | ⟨rfl, p, rfl, rfl⟩ | hlook := ofForm_ctl_none h
      · rw [ctl_dest (op := 0x07) (by decide) hrow hmask]
        rfl
      · rw [ctl_dest (op := 0x09) (by decide) hrow hmask]
        rfl
      · rw [form_ctlOneOps d a _ (mem_of_lookup hlook), BitVec.ofNat_toNat, BitVec.setWidth_eq]
        split
        · next hop => rw [ctl_dest hop hrow hmask]
        · rfl
    | some b =>
      obtain ⟨rfl, p, rfl, rfl⟩ | ⟨rfl, p, rfl, rfl⟩ | ⟨rfl, rfl⟩ | ⟨rfl, rfl⟩ := ofForm_ctl_some h
      · rw [ctl_dest (op := 0x0D) (by decide) hrow hmask]
        rfl
      · rw [ctl_dest (op := 0xC7) (by decide) hrow hmask]
        rfl
      · rw [ctl_dest (op := 0x18) (by decide) hrow hmask]
        rfl
      · rw [ctl_dest (op := 0xC2) (by decide) hrow hmask]
        rfl
  | n8 op x =>
    simp only [ofForm] at h
    split_ifs at h with h1 h2 h3 h4
    · cases h
      rw [h1]
      rfl
    · cases h
      rw [h2, h3]
      rfl
    · cases h
      rw [h2, h4]
      rfl
  | alu2 op g => exact form_of_lookup (form_alu2Ops g) h
  | alu1 op g => exact form_of_lookup (form_alu1Ops g) h
  | aluX op g => exact form_of_lookup (form_aluXOps g) h
  | aluD op g => exact form_of_lookup (form_aluDOps g) h
  | imm op g => exact form_of_lookup (form_immOps g) h
  | mask2 op g => exact form_of_lookup (form_mask2Ops g) h
  | mask1 op g => exact form_of_lookup (form_mask1Ops g) h
  | maskS op g => exact form_of_lookup (form_maskSOps g) h
  | memV op g => exact form_of_lookup (form_memVOps g) h
  | memU op g => exact form_of_lookup (form_memUOps g) h
  | promote t q a b => cases a <;> cases h <;> rfl
  | slot op o a x =>
    have hx : zeroAt op.toNat 0 8 = true → x = 0 := by
      intro hz
      have hb := bits_of_zeroAt hz (by rwa [BitVec.ofNat_toNat, BitVec.setWidth_eq]) hmask
      rwa [Form.word, wordA_b] at hb
    obtain ⟨rfl, rfl⟩ | ⟨rfl, rfl⟩ | ⟨rfl, rfl⟩ | ⟨rfl, p, rfl, rfl⟩ := ofForm_slot h
    · rw [hx rfl]
      rfl
    · rw [hx rfl]
      rfl
    · rfl
    · rfl
  | sget g | maskL g | expr g | fence g | lda g | mma g => cases h; rfl
  | arena d a x => cases h; rfl
  | aclr t => cases h; rfl
  | adrn t a => cases h; rfl

/-- An instruction is the one that its form stands for. -/
theorem ofForm_form {i : Instr} {f : Form} (h : form i = some f) : ofForm f = some i := by
  cases i with
  | brsZ c off => cases h; exact congrArg (fun c => some (Instr.brsZ c off)) (bits_scalarCode c)
  | brsNz c off => cases h; exact congrArg (fun c => some (Instr.brsNz c off)) (bits_scalarCode c)
  | call c off => cases h; exact congrArg (fun c => some (Instr.call c off)) (bits_scalarCode c)
  | brmAny m off => cases h; exact congrArg (fun m => some (Instr.brmAny m off)) (setWidth_back m (by decide))
  | brmAll m off => cases h; exact congrArg (fun m => some (Instr.brmAll m off)) (setWidth_back m (by decide))
  | brmNone m off => cases h; exact congrArg (fun m => some (Instr.brmNone m off)) (setWidth_back m (by decide))
  | sleep a | waitp a | bbwait a | bbinv a | mtok a => cases h; cases a <;> rfl
  | barpAnd d a | barpOr d a | barpAdd d a | barpMin d a | barpMax d a => cases h; cases a <;> rfl
  | cpost d a | cpostNb d a | launch d a => cases h; cases a <;> rfl
  | waittag a b | bbinit a b => cases h; cases a <;> rfl
  | oclaim o a | orel o a => cases h; cases a <;> rfl
  | olda o a x => cases h; cases a <;> rfl
  | _ => cases h <;> rfl

theorem ctl_one_shapes : ((0x07 :: 0x09 :: (ctlOneOps 0 (.int 0)).map (·.1)).all fun n =>
    shapeAt .ctlA n || shapeAt .ctlDA n) = true := by decide

/-- The form of an instruction has the shape of its opcode's row. -/
theorem hasShape_of_ofForm {i : Instr} {f : Form} {row : Row} (h : ofForm f = some i)
    (hrow : rowOf f.op = some row) : f.HasShape row.shape := by
  obtain ⟨hnone, halu2, halu1, haluX, haluD, himm, hmask2, hmask1, hmaskS, hmemV, hmemU⟩ := shapes_of_tables
  have htable : ∀ {γ : Type} {l : List (Nat × (γ → Instr))} {g : γ} {s : Shape},
      (l.all fun p => shapeAt s p.1) = true → (l.lookup f.op.toNat).map (fun k => k g) = some i → row.shape = s := by
    intro γ l g s hall hlook
    obtain ⟨k, hk, -⟩ := Option.map_eq_some_iff.mp hlook
    exact shape_of_lookup hall hk hrow
  have hat : ∀ n s, shapeAt s n = true → f.op = BitVec.ofNat 8 n → n < 256 → row.shape = s := by
    intro n s hs hop hn
    refine shape_of_shapeAt ?_ hrow
    rwa [hop, BitVec.toNat_ofNat, Nat.mod_eq_of_lt hn]
  cases f with
  | none op => exact .inl (shape_of_lookup hnone h hrow)
  | br op c off =>
    simp only [ofForm] at h
    refine .inl ?_
    split_ifs at h with h1 h2 h3 h4 h5 h6 h7
    · exact hat 1 _ rfl h1 (by decide)
    · exact hat 2 _ rfl h2 (by decide)
    · exact hat 3 _ rfl h3 (by decide)
    · exact hat 4 _ rfl h4 (by decide)
    · exact hat 5 _ rfl h5 (by decide)
    · exact hat 6 _ rfl h6 (by decide)
    · exact hat 8 _ rfl h7 (by decide)
  | ctl op d a b =>
    cases b with
    | none =>
      have hmem : op.toNat ∈ 0x07 :: 0x09 :: (ctlOneOps 0 (.int 0)).map (·.1) := by
        obtain ⟨rfl, -⟩ | ⟨rfl, -⟩ | hlook := ofForm_ctl_none h
        · exact List.mem_cons_self ..
        · exact List.mem_cons_of_mem _ (List.mem_cons_self ..)
        · have hkeys : (ctlOneOps d a).map (·.1) = (ctlOneOps 0 (.int 0)).map (·.1) := rfl
          rw [← hkeys]
          exact List.mem_cons_of_mem _ (List.mem_cons_of_mem _ (List.mem_map_of_mem (mem_of_lookup hlook)))
      obtain hs | hs := Bool.or_eq_true_iff.mp (List.all_eq_true.mp ctl_one_shapes _ hmem)
      · exact .inl (shape_of_shapeAt hs hrow)
      · exact .inr ⟨shape_of_shapeAt hs hrow, rfl⟩
    | some b =>
      refine .inl ?_
      obtain ⟨hop, -⟩ | ⟨hop, -⟩ | ⟨hop, -⟩ | ⟨hop, -⟩ := ofForm_ctl_some h
      · exact hat 0x0D _ rfl hop (by decide)
      · exact hat 0xC7 _ rfl hop (by decide)
      · exact hat 0x18 _ rfl hop (by decide)
      · exact hat 0xC2 _ rfl hop (by decide)
  | n8 op x =>
    simp only [ofForm] at h
    refine .inl ?_
    split_ifs at h with h1 h2
    · exact hat 0x0E _ rfl h1 (by decide)
    · exact hat 0xD8 _ rfl h2 (by decide)
    · exact hat 0xD8 _ rfl h2 (by decide)
  | alu2 op g => exact .inl (htable halu2 h)
  | alu1 op g => exact .inl (htable halu1 h)
  | aluX op g => exact .inl (htable haluX h)
  | aluD op g => exact .inl (htable haluD h)
  | imm op g => exact .inl (htable himm h)
  | mask2 op g => exact .inl (htable hmask2 h)
  | mask1 op g => exact .inl (htable hmask1 h)
  | maskS op g => exact .inl (htable hmaskS h)
  | memV op g => exact .inl (htable hmemV h)
  | memU op g => exact .inl (htable hmemU h)
  | slot op o a x =>
    refine .inl ?_
    obtain ⟨hop, -⟩ | ⟨hop, -⟩ | ⟨hop, -⟩ | ⟨hop, -⟩ := ofForm_slot h
    · exact hat 0xD0 _ rfl hop (by decide)
    · exact hat 0xD1 _ rfl hop (by decide)
    · exact hat 0xD2 _ rfl hop (by decide)
    · exact hat 0xD3 _ rfl hop (by decide)
  | sget g => exact .inl (hat 0x3E _ rfl rfl (by decide))
  | maskL g => exact .inl (hat 0x83 _ rfl rfl (by decide))
  | expr g => exact .inl (hat 0x89 _ rfl rfl (by decide))
  | fence g => exact .inl (hat 0xA8 _ rfl rfl (by decide))
  | lda g => exact .inl (hat 0xAF _ rfl rfl (by decide))
  | promote t q a b => exact .inl (hat 0xC4 _ rfl rfl (by decide))
  | arena d a x => exact .inl (hat 0xC5 _ rfl rfl (by decide))
  | mma g => exact .inl (hat 0xD4 _ rfl rfl (by decide))
  | aclr t => exact .inl (hat 0xD5 _ rfl rfl (by decide))
  | adrn t a => exact .inl (hat 0xD6 _ rfl rfl (by decide))

/-! ### Literals of a checked form -/

theorem literalFits_of_kindOk {c : DecCtx} {uni : Bool} {k : AKind} {o : Opnd} (hk : k ≠ .none)
    (h : kindOk c uni k o = true) : LiteralFits k o := by
  intro hlit
  cases k with
  | none => exact absurd rfl hk
  | op | opw | sc => rfl
  | pair | pair0 =>
    cases o with
    | lit w => cases h
    | lit64 w => cases h
    | _ => cases hlit

/-- The literals of a form that passes the operand checks stand where its row counts them. -/
theorem literalsFit_of_checked {c : DecCtx} {f : Form} {row : Row} {n : Nat} (hreg : row.regular n = true)
    (hshape : f.HasShape row.shape) (hops : operandsOk c row f = true) : f.LiteralsFit row := by
  have hkinds := (Bool.and_eq_true_iff.mp hreg).2
  cases f with
  | ctl op d a b =>
    simp only [operandsOk, Bool.and_eq_true] at hops
    obtain ⟨⟨-, ha⟩, hb⟩ := hops
    cases b with
    | none =>
      have hs : row.shape = .ctlA ∨ row.shape = .ctlDA := by simpa [Form.HasShape, Form.shape] using hshape
      have hka : row.a ≠ .none := by obtain hs | hs := hs <;> simpa [hs] using hkinds
      exact ⟨literalFits_of_kindOk hka ha, by simp⟩
    | some b =>
      have hs : row.shape = .ctlAB := by simpa [Form.HasShape, Form.shape] using hshape
      obtain ⟨hka, hkb⟩ : row.a ≠ .none ∧ row.b ≠ .none := by simpa [hs] using hkinds
      exact ⟨literalFits_of_kindOk hka ha, fun o ho => literalFits_of_kindOk hkb (by cases ho; exact hb)⟩
  | alu2 op g =>
    have hs : row.shape = .alu2 := by simpa [Form.HasShape, Form.shape] using hshape
    obtain ⟨hka, hkb⟩ : row.a ≠ .none ∧ row.b ≠ .none := by simpa [hs] using hkinds
    simp only [operandsOk, Bool.and_eq_true] at hops
    obtain ⟨⟨⟨-, ha⟩, hb⟩, -⟩ := hops
    exact ⟨literalFits_of_kindOk hka ha, literalFits_of_kindOk hkb hb⟩
  | alu1 op g =>
    have hs : row.shape = .alu1 := by simpa [Form.HasShape, Form.shape] using hshape
    have hka : row.a ≠ .none := by simpa [hs] using hkinds
    simp only [operandsOk, Bool.and_eq_true] at hops
    exact literalFits_of_kindOk hka hops.2
  | slot op o a x =>
    have hs : row.shape = .slot := by simpa [Form.HasShape, Form.shape] using hshape
    have hka : row.a ≠ .none := by simpa [hs] using hkinds
    exact literalFits_of_kindOk hka hops
  | aluX op g =>
    have hs : row.shape = .aluX := by simpa [Form.HasShape, Form.shape] using hshape
    exact fun _ => by simpa [hs] using hkinds
  | arena d a x =>
    have hs : row.shape = .arena := by simpa [Form.HasShape, Form.shape] using hshape
    exact fun _ => by simpa [hs] using hkinds
  | adrn t a =>
    have hs : row.shape = .adrn := by simpa [Form.HasShape, Form.shape] using hshape
    exact fun _ => by simpa [hs] using hkinds
  | promote t q a b =>
    have hs : row.shape = .promote := by simpa [Form.HasShape, Form.shape] using hshape
    exact fun _ => by simpa [hs] using hkinds
  | _ => trivial

theorem shape_expr {f : Form} (h : f.shape = .expr) : ∃ g, f = .expr g := by
  cases f with
  | expr g => exact ⟨g, rfl⟩
  | ctl _ _ _ b => cases b <;> cases h
  | _ => cases h

theorem shape_lda {f : Form} (h : f.shape = .lda) : ∃ g, f = .lda g := by
  cases f with
  | lda g => exact ⟨g, rfl⟩
  | ctl _ _ _ b => cases b <;> cases h
  | _ => cases h

/-- What the extension words must satisfy does not depend on the words that follow the instruction. -/
theorem extensionOk_tail {f : Form} {row : Row} (hshape : f.HasShape row.shape) (w : Word) (t : List Word) :
    extensionOk row w (f.tail ++ t) = extensionOk row w f.tail := by
  cases hs : row.shape with
  | expr =>
    obtain ⟨g, rfl⟩ := shape_expr (f := f) (by simpa [Form.HasShape, hs, eq_comm] using hshape)
    simp only [extensionOk, hs, Form.tail, Form.extension, List.cons_append]
  | lda =>
    obtain ⟨g, rfl⟩ := shape_lda (f := f) (by simpa [Form.HasShape, hs, eq_comm] using hshape)
    simp only [extensionOk, hs, Form.tail, Form.extension, List.cons_append]
  | _ => simp only [extensionOk, hs]

/-! ### The round trips -/

/-- The checks of a well-formed instruction, on its parts. -/
structure Checked (c : DecCtx) (row : Row) (f : Form) : Prop where
  widths : f.opnds.all (Opnd.widthOk f.wide) = true
  held : heldBack c.feats f.op f.prefixes = false
  cls : row.cls = c.cls
  sequence : sequenceOk c.cls f.prefixes = true
  prefixes : f.prefixes.all prefixWordOk = true
  zeros : f.word &&& row.zero = 0
  extension : extensionOk row f.word f.tail = true
  fields : formOk row f = true
  operands : operandsOk c row f = true

theorem checked_iff {c : DecCtx} {row : Row} {f : Form} (hop : prefixOp f.op = false) :
    (f.opnds.all (Opnd.widthOk f.wide) && wordsOk c row f && formOk row f && operandsOk c row f) = true
      ↔ Checked c row f := by
  have hsplit : splitPrefixes (encodeForm f) = (f.prefixes, f.word :: f.tail) := by
    simpa using splitPrefixes_encodeForm hop []
  simp only [wordsOk, hsplit, Bool.and_eq_true, Bool.not_eq_true', beq_iff_eq]
  constructor
  · rintro ⟨⟨⟨hw, ⟨⟨⟨⟨⟨hh, hc⟩, hs⟩, hp⟩, hz⟩, he⟩⟩, hf⟩, ho⟩
    exact ⟨hw, hh, hc, hs, hp, hz, he, hf, ho⟩
  · rintro ⟨hw, hh, hc, hs, hp, hz, he, hf, ho⟩
    exact ⟨⟨⟨hw, ⟨⟨⟨⟨⟨hh, hc⟩, hs⟩, hp⟩, hz⟩, he⟩⟩, hf⟩, ho⟩

theorem wellFormed_iff {c : DecCtx} {i : Instr} :
    wellFormed c i = true ↔ ∃ f row, form i = some f ∧ rowOf f.op = some row ∧ Checked c row f := by
  unfold wellFormed
  constructor
  · intro h
    split at h
    · cases h
    next f hform =>
    split at h
    · cases h
    next row hrow =>
    exact ⟨f, row, hform, hrow, (checked_iff (prefixOp_of_regular (regular_of_rowOf hrow))).mp h⟩
  · rintro ⟨f, row, hform, hrow, hcheck⟩
    rw [hform]
    simp only [hrow]
    exact (checked_iff (prefixOp_of_regular (regular_of_rowOf hrow))).mpr hcheck

theorem encode_of_form {i : Instr} {f : Form} (h : form i = some f) : encode i = encodeForm f := by
  rw [encode, h]

/-- Settles O58: a form is its prefixes, its instruction word and the words after it, and `parseForm` reads each of
its fields from the place where the encoder writes it. -/
theorem encodedDecodes : Obligations.EncodedDecodes := by
  intro c i rest h
  obtain ⟨f, row, hform, hrow, hcheck⟩ := wellFormed_iff.mp h
  obtain ⟨hw, hheld, hcls, hseq, hpre, hzero, hext, hfields, hops⟩ := hcheck
  have hreg := regular_of_rowOf hrow
  have hi := ofForm_form hform
  have hshape := hasShape_of_ofForm hi hrow
  have hread := readBack hshape (literalsFit_of_checked hreg hshape hops) hw rest
  rw [encode_of_form hform, decodeOne]
  simp only [splitPrefixes_encodeForm (prefixOp_of_regular hreg), word_op, hrow, hread, hheld, hcls, hseq, hpre, hzero,
    extensionOk_tail hshape, hext, hfields, hops, hi]
  simp

/-- Settles O59: what `parseForm` reads is written back field by field, and the bits that it does not read are those
that the row leaves at zero. -/
theorem decodedEncodes : Obligations.DecodedEncodes := by
  intro c ws i rest h
  unfold decodeOne at h
  simp only at h
  split at h
  · cases h
  next w t hsplit =>
  split at h
  · split at h <;> cases h
  next row hrow =>
  split at h
  · cases h
  next f codes after hparse =>
  split_ifs at h with hheld hchecks hcodes
  split at h
  · next j hj =>
    cases h
    simp only [not_or, not_not, Bool.not_eq_false] at hchecks hcodes hheld
    obtain ⟨hcls, hseq, hpre, hzero, hext, hfields⟩ := hchecks
    obtain ⟨rfl, hops⟩ := hcodes
    have hreg := regular_of_rowOf hrow
    obtain ⟨⟨hprefixes, hword, htail, hw⟩, hshape⟩ :=
      writes_of_parseForm hreg (by rw [hcls]; exact hseq) hpre hzero hext hparse
    have hop : f.op = bits w 24 8 := by rw [← word_op, hword]
    have hform := form_ofForm hj (hop ▸ hrow) (by rw [hword, hzero]) hops
    refine ⟨wellFormed_iff.mpr ⟨f, row, hform, hop ▸ hrow, ?_⟩, ?_⟩
    · refine ⟨hw, ?_, hcls, ?_, ?_, ?_, ?_, hfields, hops⟩
      · rw [hop, hprefixes]
        simpa using hheld
      · rwa [hprefixes]
      · rwa [hprefixes]
      · rwa [hword]
      · rwa [hword, ← extensionOk_tail hshape, htail]
    · rw [encode_of_form hform, encodeForm_eq, hprefixes, hword, List.append_assoc, List.cons_append, htail, ← hsplit,
        splitPrefixes_join]
  · cases h

end Sys2Proof

/-! ## Reset, worked encodings and the passing of time (R42, R367, R377) -/

namespace Sys2Proof

/-- Settles O60: the decoder evaluates to the listed instruction on each row. -/
theorem decodesSpecWords : Obligations.DecodesSpecWords := by
  unfold Obligations.DecodesSpecWords
  decide

/-- Settles O55: every field has its reset value, and the registers are read from them. -/
theorem resetState : Obligations.ResetState := by
  refine ⟨rfl, rfl, rfl, rfl, rfl, rfl, rfl, rfl, fun id => ⟨rfl, rfl⟩, ?_⟩
  decide

namespace Machine

/-! ### The passing of time -/

/-- Beside links and Perigee ports nothing differs. -/
def OnlyLinks (s t : State) : Prop := t = { s with links := t.links, peri := t.peri }

theorem OnlyLinks.refl (s : State) : OnlyLinks s s := rfl

theorem OnlyLinks.trans {s t u : State} (h : OnlyLinks s t) (g : OnlyLinks t u) : OnlyLinks s u := by
  rw [OnlyLinks] at g
  rw [OnlyLinks, g, h]

theorem rekeyStack_only (n : Nat) (s : State) : OnlyLinks s (rekeyStack n s) := by
  rw [rekeyStack]
  split <;> rfl

theorem rekeyPerigee_only (n : Nat) (s : State) : OnlyLinks s (rekeyPerigee n s) := by
  rw [rekeyPerigee]
  split <;> rfl

/-- A fold of steps that keep a relation keeps it. -/
theorem foldl_related {α : Type} {r : State → State → Prop} (hrefl : ∀ s, r s s)
    (htrans : ∀ {s t u}, r s t → r t u → r s u) {f : State → α → State} (hstep : ∀ s a, r s (f s a)) (l : List α)
    (s : State) : r s (l.foldl f s) := by
  induction l generalizing s with
  | nil => exact hrefl s
  | cons a l ih => exact htrans (hstep s a) (ih (f s a))

theorem OnlyLinks.set (s : State) (l : List Link) (p : List Perigee) : OnlyLinks s { s with links := l, peri := p } :=
  rfl

theorem passFlits_only (s : State) : OnlyLinks s (passFlits s) :=
  ((foldl_related OnlyLinks.refl OnlyLinks.trans (fun s n => rekeyStack_only n s) _ s).trans
    (foldl_related OnlyLinks.refl OnlyLinks.trans (fun s n => rekeyPerigee_only n s) _ _)).trans (.set _ _ _)

theorem clearDeficits_pending {s : State} (h : ∀ q ∈ s.queues, q.pending = 0) :
    ∀ q ∈ (clearDeficits s).queues, q.pending = 0 := by
  intro q hq
  obtain ⟨p, hp, rfl⟩ := List.mem_map.mp hq
  exact h p hp

theorem flushNotify_idle {s : State} (h : ∀ q ∈ s.queues, q.pending = 0) : flushNotify s = s := by
  have hany : s.queues.any (·.pending ≠ 0) = false := by
    rw [List.any_eq_false]
    intro q hq
    simp [h q hq]
  rw [flushNotify, hany]
  rfl

/-- What passes in every step: nanoseconds, and the clocks. -/
def passTime (s : State) : State :=
  passNs (Config.freeNs s.free) { s with clocks := tickClocks s.free s.gated s.clocks, free := s.free + 1 }

/-- Where nothing else is due, time passes and deficits and links change. -/
theorem tick_idle {s : State} (hqnt : s.qnt = []) (hpending : ∀ q ∈ s.queues, q.pending = 0)
    (hscrub : s.scrubOn = false) : tick s = passFlits (clearDeficits (passTime s)) := by
  have hlinks := passFlits_only (clearDeficits (passTime s))
  have hqnt' : (passFlits (clearDeficits (passTime s))).qnt = [] := by rw [hlinks]; exact hqnt
  have hscrub' : (passFlits (clearDeficits (passTime s))).scrubOn = false := by rw [hlinks]; exact hscrub
  have hadvance : advanceScrub (passFlits (clearDeficits (passTime s))) = passFlits (clearDeficits (passTime s)) := by
    rw [advanceScrub, hscrub']
    split <;> rfl
  have hmerge : mergeOld (passFlits (clearDeficits (passTime s))) = passFlits (clearDeficits (passTime s)) := by
    rw [mergeOld, hqnt']
    rfl
  have hpending' : ∀ q ∈ (passFlits (clearDeficits (passTime s))).queues, q.pending = 0 := by
    rw [hlinks]
    refine clearDeficits_pending fun q hq => ?_
    obtain ⟨p, hp, rfl⟩ := List.mem_map.mp hq
    exact hpending p hp
  change flushNotify (mergeOld (advanceScrub (passFlits (clearDeficits (passTime s))))) = _
  rw [hadvance, hmerge, flushNotify_idle hpending']

theorem nextClock_rises (n : Nat) (c : DWord) :
    c.toNat ≤ (nextClock n c).toNat ∧ (c.toNat + 1 < 2 ^ 64 → c.toNat < (nextClock n c).toNat) := by
  have hc := c.isLt
  have hlt : min (c.toNat + 1 + n % 2 ^ 32) (2 ^ 64 - 1) < 2 ^ 64 := by omega
  rw [nextClock, BitVec.toNat_ofNat, Nat.mod_eq_of_lt hlt]
  omega

theorem tickClocks_at (free : Nat) (gated : List Nat) (clocks : List DWord) (k : Nat) :
    (tickClocks free gated clocks)[k]?
      = clocks[k]?.map fun c => if gated.contains k then c else nextClock (Config.freeCycles (96 * free + k)) c := by
  simp only [tickClocks, List.getElem?_map, List.getElem?_zipIdx, Option.map_map, Nat.zero_add]
  rfl

/-! ### One step -/

theorem step_eq_turn {s : State} (hagenda : (tick s).agenda = []) (hhalted : (tick s).halted = false) :
    step s = turn (tick s) := by
  simp only [step, hagenda, hhalted, Bool.false_eq_true, if_false]

theorem nextInstr_ready {s : State} {c : Clause} (hready : s.st.status = .ready) (hclause : s.st.clause = some c)
    (hwords : c.words ≠ []) (hclock : s.clocked = true) :
    nextInstr s = some ((decodeOne (decodeCtx s c.cls c.latches) c.words).map (·.1)) := by
  simp [nextInstr, hready, hclause, hwords, hclock]

end Machine

open Machine

/-- Settles O56: each branch of `step`, and time that passes where nothing else is due. -/
theorem stepRunsDecoded : Obligations.StepRunsDecoded := by
  refine ⟨?_, ?_, ?_, ?_, ?_⟩
  · intro s i rest c u hagenda hhalted hready hclause hwords hclock hdecode hheld
    rw [step_eq_turn hagenda hhalted, turn, nextInstr_ready hready hclause hwords hclock, hdecode]
    exact if_neg (by rw [hheld]; exact Bool.false_ne_true)
  · intro s e c u hagenda hhalted hready hclause hwords hclock hdecode
    rw [step_eq_turn hagenda hhalted, turn, nextInstr_ready hready hclause hwords hclock, hdecode]
    rfl
  · intro s i rest hagenda hform hhalted
    simp [step, hagenda, isEvent, hform, mayHappen, hhalted]
  · intro s hagenda hhalted
    simp [step, hagenda, hhalted]
  · intro s hqnt hpending hscrub
    have hlinks := passFlits_only (clearDeficits (passTime s))
    simp only [tick_idle hqnt hpending hscrub]
    rw [hlinks]
    refine ⟨rfl, rfl, rfl, rfl, rfl, rfl, Nat.le_add_right _ _, ?_, ?_⟩
    · simp [clearDeficits, passTime, passNs, tickClocks]
    · intro k x hx
      refine ⟨_, (tickClocks_at s.free s.gated s.clocks k).trans (by rw [hx]; rfl), ?_⟩
      by_cases hk : k ∈ s.gated
      · simp [hk]
      · simp only [hk, List.contains_iff_mem, if_false]
        exact nextClock_rises _ x

end Sys2Proof

/-! ## Control instructions (R113 to R119, R267, R280, R286) -/

namespace Sys2Proof

namespace Machine

theorem exec_bra (off s) : exec (.bra off) s = execBra off s := rfl
theorem exec_call (c off s) : exec (.call c off) s = execCall c off s := rfl
theorem exec_exit (s) : exec .exit s = execExit s := rfl
theorem exec_nop (s) : exec .nop s = execNop s := rfl
theorem exec_sleep (a s) : exec (.sleep a) s = execSleep a s := rfl
theorem exec_acquire (s) : exec .acquire s = execAcquire s := rfl
theorem exec_waittag (a b s) : exec (.waittag a b) s = execWaittag a b s := rfl
theorem exec_waitp (a s) : exec (.waitp a) s = execWaitp a s := rfl
theorem exec_bbwait (a s) : exec (.bbwait a) s = execBbwait a s := rfl
theorem exec_clauseIssue (r old s) : exec (.clauseIssue r old) s = execClauseIssue r old s := rfl

/-! ### Going on without a result -/

/-- An instruction that finds no register-file error runs its body. -/
theorem guarded_noError {i : Instr} {f : Form} {s : State} {k : State → Out} (h : NoReadError i s)
    (hform : form i = some f) : guarded f s k = k s :=
  guarded_none (h f hform)

theorem advance_from (n : Nat) (s : State) : WentOn n s (advance n s) ∧ OnlyMoved s (advance n s) :=
  ⟨advance_wentOn n rfl rfl, advance_onlyMoved n s⟩

/-- An instruction that finishes goes on, and nothing but the strand's place changes. -/
theorem finish_completes {i : Instr} {f : Form} {s : State} (hform : form i = some f) (hexec : exec i s = finish f s) :
    Completes i s fun t => WentOn (wordCount i) s t ∧ OnlyMoved s t :=
  ⟨_, hexec, by rw [wordCount_of_form hform]; exact advance_from _ s⟩

/-! ### Branches (R66, R113, R114) -/

theorem branchTarget_eq (s : State) (off : BitVec 16) : branchTarget s off = targetOf s off := by
  have h : off.signExtend 64 <<< 2 = BitVec.ofInt 64 (4 * off.toInt) := by
    rw [BitVec.shiftLeft_eq_mul_twoPow, BitVec.ofInt_mul, BitVec.mul_comm]
    rfl
  rw [branchTarget, targetOf, h]

theorem jump_completes {i : Instr} {p : DWord} {s : State} (hexec : exec i s = jump p s) :
    Completes i s (Jumped p s) :=
  ⟨_, hexec, endClause_jumped p false s⟩

/-- A conditional branch jumps where its condition holds, and else lets its clause run on. -/
theorem branch_completes {i : Instr} {f : Form} {off : BitVec 16} {s : State} (taken : State → Bool) {p : Prop}
    (hform : form i = some f) (hexec : exec i s = guarded f s fun s => branchIf f (taken s) off s)
    (hsize : formSize f = 1) (htaken : taken s = true ↔ p) (h : NoReadError i s) :
    (p → Completes i s (Jumped (targetOf s off) s))
      ∧ (¬ p → Completes i s fun t => WentOn 1 s t ∧ OnlyMoved s t) := by
  rw [guarded_noError h hform] at hexec
  constructor
  · intro hp
    rw [htaken.mpr hp, branchIf, if_pos rfl, branchTarget_eq] at hexec
    exact jump_completes hexec
  · intro hp
    rw [branchIf, if_neg (fun x => hp (htaken.mp x))] at hexec
    simpa only [wordCount_of_form hform, hsize] using finish_completes hform hexec

theorem mask_ne_zero_iff (m : BitVec 64) : m ≠ 0 ↔ ∃ i, i < 64 ∧ laneOn m i = true := by
  constructor
  · intro h
    by_contra hall
    refine h (BitVec.eq_of_getLsbD_eq fun i hi => ?_)
    simpa using fun x : m.getLsbD i = true => hall ⟨i, hi, x⟩
  · rintro ⟨i, -, h⟩ rfl
    simp [laneOn] at h

theorem mask_eq_zero_iff (m : BitVec 64) : m = 0 ↔ ∀ i, i < 64 → laneOn m i = false := by
  rw [← not_iff_not, ← ne_eq, mask_ne_zero_iff]
  simp

theorem mask_covers_iff (m p : BitVec 64) : m &&& p = p ↔ ∀ i, i < 64 → laneOn p i = true → laneOn m i = true := by
  constructor
  · intro h i hi hp
    rw [← h, laneOn_and] at hp
    exact (Bool.and_eq_true_iff.mp hp).1
  · intro h
    refine BitVec.eq_of_getLsbD_eq fun i hi => ?_
    have hi' := h i hi
    simp only [laneOn] at hi'
    rw [BitVec.getLsbD_and]
    cases hp : p.getLsbD i
    · simp
    · simp [hi' hp]

theorem branches_complete (e : (BitVec 16 → Instr) × (State → Prop)) (he : e ∈ branches) (off : BitVec 16) (s : State)
    (h : NoReadError (e.1 off) s) :
    (e.2 s → Completes (e.1 off) s (Jumped (targetOf s off) s))
      ∧ (¬ e.2 s → Completes (e.1 off) s fun t => WentOn 1 s t ∧ OnlyMoved s t) := by
  have hs : ∀ k, k < 64 → (BitVec.ofNat 6 k).toNat = k := fun k hk => by simp; omega
  have hm : ∀ k, k < 16 → (BitVec.ofNat 4 k).toNat = k := fun k hk => by simp; omega
  simp only [branches, List.mem_append, List.mem_map, List.mem_range] at he
  obtain (((⟨k, hk, rfl⟩ | ⟨k, hk, rfl⟩) | ⟨k, hk, rfl⟩) | ⟨k, hk, rfl⟩) | ⟨k, hk, rfl⟩ := he
  · exact branch_completes (fun s => s.st.sget (BitVec.ofNat 6 k).toNat = 0) rfl rfl rfl (by simp [hs k hk]) h
  · exact branch_completes (fun s => s.st.sget (BitVec.ofNat 6 k).toNat ≠ 0) rfl rfl rfl (by simp [hs k hk]) h
  · exact branch_completes (fun s => s.st.mget (BitVec.ofNat 4 k).toNat ≠ 0) rfl rfl rfl
      (by rw [hm k hk, decide_eq_true_iff]; exact mask_ne_zero_iff _) h
  · exact branch_completes (fun s => s.st.mget (BitVec.ofNat 4 k).toNat &&& s.st.present = s.st.present) rfl rfl rfl
      (by rw [hm k hk, decide_eq_true_iff]; exact mask_covers_iff _ _) h
  · exact branch_completes (fun s => s.st.mget (BitVec.ofNat 4 k).toNat = 0) rfl rfl rfl
      (by rw [hm k hk, decide_eq_true_iff]; exact mask_eq_zero_iff _) h

theorem indirect_completes {i : Instr} {f : Form} {s : State} (target : State → DWord) (hform : form i = some f)
    (hexec : exec i s = guarded f s fun s => jump (target s) s) (h : NoReadError i s) :
    Completes i s (Jumped (target s) s) := by
  rw [guarded_noError h hform] at hexec
  exact jump_completes hexec

theorem Strand.sset64_only (c : Nat) (x : DWord) (s : State) :
    OnlyScalars [c, c + 1] s { s with st := s.st.sset64 c x } :=
  (Strand.sset_only c (x.setWidth 32) s).trans
    (Strand.sset_only (c + 1) ((x >>> 32).setWidth 32) { s with st := s.st.sset c (x.setWidth 32) })

theorem call_completes {c : BitVec 6} {off : BitVec 16} {s : State} {cl : Clause} (h : s.st.clause = some cl) :
    Completes (.call c off) s fun t =>
      t.st.pc = targetOf s off ∧ t.st.clause = none ∧ t.st.sget64 c.toNat = afterClause s cl
        ∧ OnlyScalars [c.toNat, c.toNat + 1] s t := by
  obtain ⟨hpc, hclause, hmoved, -⟩ :=
    endClause_jumped (branchTarget s off) false { s with st := s.st.sset64 c.toNat s.clauseEnd }
  refine ⟨_, by rw [exec_call, execCall]; rfl, ?_, hclause, ?_, (Strand.sset64_only _ _ s).moved hmoved⟩
  · rw [hpc, branchTarget_eq]
  · rw [← clauseEnd_eq_afterClause h]
    exact Strand.sget64_sset64 s.st c.toNat s.clauseEnd

theorem focus_self {r : StrandRef} {s : State} (h : InFocus r s) : s.focus r = some s := by
  exact if_pos h

/-- A clause whose address is not a multiple of 4 faults at its issue. -/
theorem clauseIssue_misaligned {r : StrandRef} (old : Bool) {s : State} (hfocus : InFocus r s)
    (hclause : s.st.clause = none) (hopen : mayOpen s = true) (hpc : s.st.pc.toNat % 4 ≠ 0) :
    exec (.clauseIssue r old) s = deliver ⟨0x03, 0, s.st.pc, 0, 0, 0⟩ s := by
  simp only [exec_clauseIssue, execClauseIssue, focus_self hfocus, hclause, hopen, hpc, Option.isSome_none,
    Bool.not_true, Bool.false_eq_true, if_false, ne_eq, not_false_iff, if_true]
  rfl

end Machine

open Machine

/-- Settles O14: the branches by their conditions, and the transfers through a pair. -/
theorem controlTransfers : Obligations.ControlTransfers := by
  refine ⟨⟨fun off s => ?_, branches_complete⟩, ⟨?_, fun c off s cl h => call_completes h⟩, ?_⟩
  · exact jump_completes (by rw [exec_bra, execBra, branchTarget_eq])
  · intro e he p s h
    simp only [List.mem_cons, List.not_mem_nil, or_false] at he
    obtain rfl | rfl := he
    · exact indirect_completes (fun s => s.st.sget64 p.toNat) rfl rfl h
    · exact indirect_completes (fun s => s.st.sget64 p.toNat) rfl rfl h
  · exact fun r old s hfocus hclause hopen hpc => clauseIssue_misaligned old hfocus hclause hopen hpc

end Sys2Proof

/-! ### NOP, YIELD, BKPT and EXIT (R18, R113, R116, R118) -/

namespace Sys2Proof

namespace Machine

theorem advance_yld (n : Nat) {s : State} (h : s.st.yld = true) : (advance n s).st.yld = true := by
  simp only [advance, endClause]
  split
  · exact h
  · split <;> simp [h]

theorem bkpt_completes (s : State) :
    Completes .bkpt s fun t => WentOn 1 s t ∧ OnlyMoved s t
      ∧ (∀ c, s.st.clause = some c → 1 < c.words.length → t.st.bkpt = (s.st.bkpt || s.wld.attached))
      ∧ (∀ c, s.st.clause = some c → c.words.length = 1 → s.grd.ended = none →
          t.st.status = (if s.wld.attached then .stopped else .ready)) := by
  refine ⟨_, rfl, advance_wentOn 1 (s := s) rfl rfl, ?_, ?_, ?_⟩
  · exact OnlyMoved.trans (t := { s with st := { s.st with bkpt := s.st.bkpt || s.wld.attached } }) rfl
      (advance_onlyMoved 1 _)
  · intro c hc hlen
    obtain ⟨w, v, l, hw⟩ : ∃ w v l, c.words = w :: v :: l := by
      rcases hwords : c.words with _ | ⟨w, _ | ⟨v, l⟩⟩ <;> simp_all
    simp [advance, formSize, encodeForm, hc, hw]
  · intro c hc hlen hended
    obtain ⟨w, hw⟩ := List.length_eq_one_iff.mp hlen
    cases ha : s.wld.attached <;> simp [advance, endClause, formSize, encodeForm, hc, hw, hended, ha]

/-- The focus strand as it is after EXIT. -/
def Strand.ended (t : Strand) : Strand :=
  { t with status := .exited, clause := none, attempt := none, promo := none, fetched := [], bkpt := false }

/-- The state in which EXIT settles the barrier and the token. -/
def exitState (s : State) : State := destroySlots (threadSlotOf s.st) { s with st := s.st.ended }

/-- EXIT in a launch in which its LDAs give no cause to wait or to fault. -/
theorem exit_ends {s : State} (h : s.grd.tolerant = true ∨ (s.st.poisonTags = 0 ∧ ∀ o ∈ s.st.ops, o.what ≠ .lda)) :
    exec .exit s = .next (afterStop (exitState s)) := by
  rw [exec_exit, execExit, if_neg, if_neg]
  · rfl
  · rintro ⟨hp, ht⟩
    obtain h | ⟨hz, -⟩ := h
    · rw [h] at ht; cases ht
    · exact hp hz
  · rintro ⟨hany, ht⟩
    obtain h | ⟨-, hl⟩ := h
    · rw [h] at ht; cases ht
    · obtain ⟨o, ho, hw⟩ := List.any_eq_true.mp hany
      exact hl o ho (of_decide_eq_true hw)

/-! ### The barrier and the token -/

/-- Beside the strand, its block's strands, token and hand-overs, and the strands of other blocks, nothing differs. -/
def OnlySettled (s t : State) : Prop :=
  t = { s with
    st := t.st
    blk := { s.blk with strands := t.blk.strands, token := t.blk.token, handover := t.blk.handover }
    blocks := t.blocks }

theorem OnlySettled.trans {s t u : State} (h : OnlySettled s t) (g : OnlySettled t u) : OnlySettled s u := by
  rw [OnlySettled] at g
  rw [OnlySettled, g, h]

theorem passToken_settled (s : State) : OnlySettled s (passToken s) := by
  rw [passToken]
  split
  · rfl
  · split
    · rfl
    · split <;> rfl

theorem completeBarrier_settled (s : State) : OnlySettled s (completeBarrier s) := by
  simp only [completeBarrier]
  split <;> rfl

theorem afterStop_settled (s : State) : OnlySettled s (afterStop s) :=
  (passToken_settled s).trans (completeBarrier_settled _)

/-- A strand that does not wait is not poked. -/
theorem poke_st {p : Strand → Wait → Bool} {s : State} (h : ∀ w, s.st.status ≠ .waiting w) : (poke p s).st = s.st := by
  simp only [poke, State.mapStrands]
  split <;> rfl

theorem passToken_st {s : State} (h : ∀ w, s.st.status ≠ .waiting w) : (passToken s).st = s.st := by
  rw [passToken]
  split
  · rfl
  · split
    · rfl
    · split
      · exact poke_st (s := { s with blk := _ }) h
      · rfl

theorem leaveBarrier_other {t : Strand} (all : List Strand) (hbar : t.status ≠ .waiting .bar)
    (hbarp : ∀ op x d, t.status ≠ .waiting (.barp op x d)) : leaveBarrier all t = t := by
  rw [leaveBarrier]
  split
  · exact absurd ‹_› hbar
  · exact absurd ‹_› (hbarp _ _ _)
  · rfl

theorem completeBarrier_st {s : State} (h : ∀ w, s.st.status ≠ .waiting w) : (completeBarrier s).st = s.st := by
  simp only [completeBarrier]
  split
  · exact leaveBarrier_other _ (h _) (fun _ _ _ => h _)
  · rfl

theorem afterStop_st {s : State} (h : ∀ w, s.st.status ≠ .waiting w) : (afterStop s).st = s.st := by
  have hp := passToken_st h
  rw [afterStop, completeBarrier_st (by rw [hp]; exact h), hp]

theorem exit_st (s : State) : (afterStop (exitState s)).st = s.st.ended :=
  afterStop_st (fun w h => by cases h)

theorem exit_slots (s : State) :
    (afterStop (exitState s)).slots = (exitState s).slots := by
  rw [afterStop_settled (exitState s)]

theorem exit_completes {s : State} (h : s.grd.tolerant = true ∨ (s.st.poisonTags = 0 ∧ ∀ o ∈ s.st.ops, o.what ≠ .lda)) :
    Completes .exit s fun t => t.st = s.st.ended ∧ t.mem = s.mem ∧ t.grd = s.grd ∧ t.wld = s.wld
      ∧ (∀ r ∈ t.slots, threadSlotOf s.st r = true → r.state ≠ 1)
      ∧ ∀ r ∈ s.slots, threadSlotOf s.st r = false → r ∈ t.slots := by
  have hother := afterStop_settled (exitState s)
  refine ⟨_, exit_ends h, exit_st s, by rw [hother]; rfl, by rw [hother]; rfl, by rw [hother]; rfl, ?_, ?_⟩
  · intro r hr hthread hstate
    rw [exit_slots] at hr
    obtain ⟨x, -, rfl⟩ := List.mem_map.mp hr
    by_cases hx : (decide (x.state = 1) && threadSlotOf s.st x) = true
    · simp [hx] at hstate
    · simp only [hx, Bool.false_eq_true, if_false] at hthread hstate
      exact hx (by simp [hstate, hthread])
  · intro r hr hthread
    rw [exit_slots]
    exact List.mem_map.mpr ⟨r, hr, by simp [hthread]⟩

theorem exit_afterCopies {s : State} (hstrict : s.grd.tolerant = false) (hcopy : ∃ o ∈ s.st.ops, o.what = .lda) :
    exec .exit s = .next (waitFor .order s) := by
  obtain ⟨o, ho, hw⟩ := hcopy
  rw [exec_exit, execExit, if_pos ⟨List.any_eq_true.mpr ⟨o, ho, by simp [hw]⟩, hstrict⟩]

theorem exit_poisoned {s : State} (hstrict : s.grd.tolerant = false) (hcopy : ¬ ∃ o ∈ s.st.ops, o.what = .lda)
    (hpoison : s.st.poisonTags ≠ 0) : exec .exit s = deliver ⟨0x50, 0, 0, 0, 0, 0⟩ s := by
  have hany : ¬ (s.st.ops.any (fun o => o.what = .lda) = true ∧ s.grd.tolerant = false) := by
    rintro ⟨h, -⟩
    obtain ⟨o, ho, hw⟩ := List.any_eq_true.mp h
    exact hcopy ⟨o, ho, of_decide_eq_true hw⟩
  rw [exec_exit, execExit, if_neg hany, if_pos ⟨hpoison, hstrict⟩]
  rfl

end Machine

open Machine

/-- Settles O15: NOP, YIELD and BKPT go on; EXIT ends the strand, and the barrier and the token are settled around
it. -/
theorem pausesAndEnd : Obligations.PausesAndEnd := by
  refine ⟨⟨fun s => ?_, fun s => ?_, bkpt_completes⟩, fun s => ⟨exit_afterCopies, exit_poisoned, fun h => ?_⟩⟩
  · exact finish_completes rfl (exec_nop s)
  · refine ⟨advance 1 { s with st := { s.st with yld := true } }, rfl, advance_wentOn 1 rfl rfl, ?_, advance_yld 1 rfl⟩
    exact OnlyMoved.trans (t := { s with st := { s.st with yld := true } }) rfl (advance_onlyMoved 1 _)
  · refine exit_completes (h.imp_right fun ⟨hp, hc⟩ => ⟨hp, fun o ho hw => hc ⟨o, ho, hw⟩⟩)

end Sys2Proof

/-! ### Waits (R29, R117, R119, R265, R267, R280, R286) -/

namespace Sys2Proof

namespace Machine

theorem waitFor_eq (w : Wait) (s : State) : waitFor w s = { s with st := { s.st with
    status := if s.grd.ended.isSome = true ∧ w ≠ .order then .faulted else .waiting w } } := by
  simp [waitFor]

theorem sleep_waits {a : Opnd} {s : State} (h : NoReadError (.sleep a) s) :
    ((s.st.attempt.isSome = true ∨ s.arg a = 0) → Completes (.sleep a) s fun t =>
      WentOn (wordCount (.sleep a)) s t ∧ OnlyMoved s t)
    ∧ (s.st.attempt = none → s.arg a ≠ 0 → exec (.sleep a) s
        = .next (waitFor (.sleep (s.clock + (s.arg a).setWidth 64)) s)) := by
  have hexec : exec (.sleep a) s = if s.waited ∨ s.arg a = 0 then finish (.ctl 0x0C 0 a none) s
      else .next (waitFor (.sleep (s.clock + (s.arg a).setWidth 64)) s) := by
    rw [exec_sleep, execSleep, guarded_noError h rfl]
  rw [State.waited] at hexec
  constructor
  · exact fun hover => finish_completes rfl (by rw [hexec, if_pos hover])
  · intro hnone harg
    rw [hexec, if_neg (not_or.mpr ⟨by rw [hnone]; exact Bool.false_ne_true, harg⟩)]

theorem acquire_granted {s : State} (h : s.prologue = false) :
    Completes .acquire s fun t => WentOn 1 s t ∧ OnlyMoved s t :=
  finish_completes rfl (by rw [exec_acquire, execAcquire, h]; rfl)

theorem acquire_requests {s : State} (h : s.prologue = true) : Completes .acquire s fun t =>
    t.st = (waitFor .acquire s).st ∧ t.mem = s.mem
      ∧ (∀ n, s.blk.request = some n → t.blk = s.blk)
      ∧ (s.blk.request = none → t.blk = { s.blk with request := some s.clock.toNat }) := by
  let u : State := { s with blk := { s.blk with request := some (s.blk.request.getD s.clock.toNat) } }
  have hexec : exec .acquire s = .next (waitFor .acquire u) := by
    rw [exec_acquire, execAcquire, h]
    exact if_neg Bool.false_ne_true
  refine ⟨_, hexec, rfl, rfl, fun n hn => ?_, fun hn => ?_⟩
  · change { s.blk with request := some (s.blk.request.getD s.clock.toNat) } = s.blk
    rw [hn, Option.getD_some, ← hn]
  · change { s.blk with request := some (s.blk.request.getD s.clock.toNat) } = _
    rw [hn, Option.getD_none]

/-- What WAITTAG does by its tag's count, its limit and its poison. -/
theorem exec_waittag_noError {a b : Opnd} {s : State} (h : NoReadError (.waittag a b) s) :
    exec (.waittag a b) s =
      if (s.arg b).toNat ≥ 63 then finish (.ctl 0x18 0 a (some b)) s
      else if tagOut s.st ((s.arg a).toNat % 8) > (s.arg b).toNat then .next (waitFor .tag s)
      else if s.st.poisonTags.getLsbD ((s.arg a).toNat % 8) ∧ s.grd.tolerant = false then deliver (faultAt 0x50 0) s
      else finish (.ctl 0x18 0 a (some b)) s := by
  rw [exec_waittag, execWaittag, guarded_noError h rfl]

theorem waittag_waits {a b : Opnd} {s : State} (h : NoReadError (.waittag a b) s) :
    let tag := (s.arg a).toNat % 8
    let n := (s.arg b).toNat
    (63 ≤ n ∨ (tagOut s.st tag ≤ n ∧ (s.st.poisonTags.getLsbD tag && !s.grd.tolerant) = false) →
      Completes (.waittag a b) s fun t => WentOn (wordCount (.waittag a b)) s t ∧ OnlyMoved s t)
    ∧ (n < 63 → n < tagOut s.st tag → exec (.waittag a b) s = .next (waitFor .tag s))
    ∧ (n < 63 → tagOut s.st tag ≤ n → s.st.poisonTags.getLsbD tag = true → s.grd.tolerant = false →
      exec (.waittag a b) s = deliver ⟨0x50, 0, 0, 0, 0, 0⟩ s) := by
  have hexec := exec_waittag_noError h
  refine ⟨fun hover => finish_completes rfl ?_, fun hlimit hout => ?_, fun hlimit hout hpoison hstrict => ?_⟩
  · obtain hover | ⟨hout, hclean⟩ := hover
    · rw [hexec, if_pos hover]
    · have hread : ¬ (s.st.poisonTags.getLsbD ((s.arg a).toNat % 8) = true ∧ s.grd.tolerant = false) := by
        simpa using hclean
      rw [hexec, if_neg (not_lt.mpr hout), if_neg hread, ite_self]
  · rw [hexec, if_neg (not_le.mpr hlimit), if_pos hout]
  · rw [hexec, if_neg (not_le.mpr hlimit), if_neg (not_lt.mpr hout), if_pos ⟨hpoison, hstrict⟩]
    rfl

theorem reached_iff (s : State) (p : Word) : reached s p = true ↔ clockReached s p := by
  rw [reached, clockReached, Bool.not_eq_true', BitVec.msb_eq_toInt, decide_eq_false_iff_not, not_lt]

/-- What WAITP does once its promise is due, or before. -/
theorem exec_waitp_noError {r : BitVec 6} {s : State} (h : NoReadError (.waitp (.s r)) s) :
    exec (.waitp (.s r)) s =
      if !s.statusWait && !reached s (s.st.sget r.toNat) then .next (waitFor (.waitp r.toNat (s.st.sget r.toNat)) s)
      else
        match promiseOf s.st r.toNat with
        | none => finish (.ctl 0x19 0 (.s r) none) s
        | some _ =>
          if s.statusWait || s.st.trapmask then
            .next (waitFor (.waitp r.toNat (s.st.sget r.toNat)) { s with st := { s.st with attempt := some 1 } })
          else userTrap 0x61 r.toNat s.clauseEnd s := by
  rw [exec_waitp]
  unfold execWaitp
  rw [guarded_noError (f := .ctl 0x19 0 (.s r) none) h rfl]
  rfl

theorem waitp_waits {r : BitVec 6} {s : State} (h : NoReadError (.waitp (.s r)) s) :
    let p := s.st.sget r.toNat
    let due := s.st.attempt = some 1 ∨ clockReached s p
    (due → promiseOf s.st r.toNat = none →
      Completes (.waitp (.s r)) s fun t => WentOn (wordCount (.waitp (.s r))) s t ∧ OnlyMoved s t)
    ∧ (¬ due → exec (.waitp (.s r)) s = .next (waitFor (.waitp r.toNat p) s))
    ∧ (due → (promiseOf s.st r.toNat).isSome = true → (s.st.attempt = some 1 ∨ s.st.trapmask = true) →
      exec (.waitp (.s r)) s = .next (waitFor (.waitp r.toNat p) { s with st := { s.st with attempt := some 1 } }))
    ∧ (s.st.attempt ≠ some 1 → clockReached s p → (promiseOf s.st r.toNat).isSome = true → s.st.trapmask = false →
      exec (.waitp (.s r)) s = userTrap 0x61 r.toNat s.clauseEnd s) := by
  intro p due
  have hexec := exec_waitp_noError h
  have hdue : (!s.statusWait && !reached s p) = true ↔ ¬ due := by
    simp [due, State.statusWait, ← reached_iff]
  refine ⟨fun hd hnone => ?_, fun hd => ?_, fun hd hsome hstatus => ?_, fun hstatus hclock hsome hmask => ?_⟩
  · rw [if_neg (fun x => hdue.mp x hd), hnone] at hexec
    exact finish_completes rfl hexec
  · rw [hexec, if_pos (hdue.mpr hd)]
  · obtain ⟨o, ho⟩ := Option.isSome_iff_exists.mp hsome
    rw [hexec, if_neg (fun x => hdue.mp x hd), ho]
    exact if_pos (by simpa [State.statusWait] using hstatus)
  · obtain ⟨o, ho⟩ := Option.isSome_iff_exists.mp hsome
    rw [hexec, if_neg (fun x => hdue.mp x (.inr hclock)), ho]
    exact if_neg (by simpa [State.statusWait, hmask] using hstatus)

theorem bbwait_waits {a : Opnd} {s : State} (h : NoReadError (.bbwait a) s) :
    let p := (s.arg a).toNat / 16 * 16
    (p + 16 ≤ s.scratchLimit → s.blk.barrierState p ≠ 1 →
      Completes (.bbwait a) s fun t => WentOn (wordCount (.bbwait a)) s t ∧ OnlyMoved s t)
    ∧ (p + 16 ≤ s.scratchLimit → s.blk.barrierState p = 1 → exec (.bbwait a) s = .next (waitFor .bbwait s))
    ∧ (s.scratchLimit < p + 16 → exec (.bbwait a) s = deliver ⟨0x40, 0, BitVec.ofNat 64 p, 0, 0, 0⟩ s) := by
  intro p
  have hexec : exec (.bbwait a) s = if p + 16 > s.scratchLimit then deliver (faultAt 0x40 (BitVec.ofNat 64 p)) s
      else if s.blk.barrierState p = 1 then .next (waitFor .bbwait s) else finish (.ctl 0x1A 0 a none) s := by
    rw [exec_bbwait, execBbwait, guarded_noError h rfl]
  refine ⟨fun hin hopen => finish_completes rfl ?_, fun hin hopen => ?_, fun hout => ?_⟩
  · rw [hexec, if_neg (not_lt.mpr hin), if_neg hopen]
  · rw [hexec, if_neg (not_lt.mpr hin), if_pos hopen]
  · rw [hexec, if_pos hout]
    rfl

end Machine

open Machine

/-- Settles O16: each wait by the cases of its instruction. -/
theorem waits : Obligations.Waits :=
  ⟨waitFor_eq, ⟨fun _ _ h => sleep_waits h, fun _ h => acquire_granted h, fun _ h => acquire_requests h⟩,
    fun _ _ _ h => waittag_waits h, fun _ _ h => waitp_waits h, fun _ _ h => bbwait_waits h⟩

end Sys2Proof

/-! ### Barriers (R19, R121, R123) -/

namespace Sys2Proof

namespace Machine

theorem barpCombine_eq_redWord {op code : Nat} (h : (op, code) ∈ barpCodes) : barpCombine op = redWord code := by
  simp only [barpCodes, List.mem_cons, Prod.mk.injEq, List.not_mem_nil, or_false] at h
  funext x y
  obtain ⟨rfl, rfl⟩ | ⟨rfl, rfl⟩ | ⟨rfl, rfl⟩ | ⟨rfl, rfl⟩ | ⟨rfl, rfl⟩ := h <;> simp [barpCombine, redWord, BitVec.sle]

/-- The combination of some payloads, of which there is one. -/
theorem combined_eq_redFold {op code : Nat} (h : (op, code) ∈ barpCodes) {l : List Word} (hl : l ≠ []) :
    combined op l = redFold code l := by
  cases l with
  | nil => exact absurd rfl hl
  | cons x t => rw [combined, redFold, barpCombine_eq_redWord h]

theorem payloads_cons (op : Nat) (t : Strand) (l : List Strand) : payloads op (t :: l) = payloads op [t] ++ payloads op l :=
  List.filterMap_append (l := [t])

theorem payloads_barp {t : Strand} {o d : Nat} {x : Word} (h : t.status = .waiting (.barp o x d)) (op : Nat) :
    payloads op [t] = if o = op then [x] else [] := by
  simp only [payloads, List.filterMap_cons, List.filterMap_nil, h]
  split <;> simp_all

theorem payloads_silent {t : Strand} (h : ∀ o x d, t.status ≠ .waiting (.barp o x d)) (op : Nat) : payloads op [t] = [] := by
  simp only [payloads, List.filterMap_cons, List.filterMap_nil]

theorem payloads_ne_nil {u : Strand} {l : List Strand} (hu : u ∈ l) {op d : Nat} {x : Word}
    (h : u.status = .waiting (.barp op x d)) : payloads op l ≠ [] :=
  List.ne_nil_of_mem (a := x) (List.mem_filterMap.mpr ⟨u, hu, by simp [h]⟩)

/-- A strand that leaves the barrier is let go, when the phase combines what `own` and the waiting strands brought. -/
theorem leaveBarrier_letGo {own : Option (Nat × Word)} {all old : List Strand}
    (hall : ∀ op, payloads op all = brought op own old) {u : Strand} (hu : u ∈ all) :
    LetGo own old u (leaveBarrier all u) := by
  constructor
  · intro h
    rw [leaveBarrier, h]
  · intro op x d h code hcode
    have hcombined := combined_eq_redFold hcode (payloads_ne_nil hu h)
    rw [leaveBarrier, h]
    refine ⟨rfl, rfl, by simp, by simp, by simp, ?_, fun r hr => ?_⟩
    · rw [← hall, ← hcombined]
      exact (Strand.sget_sset _ _ _ _).trans (if_pos rfl)
    · exact (Strand.sget_sset _ _ _ _).trans (if_neg hr)

theorem map_leaveBarrier_over {own : Option (Nat × Word)} {t : Strand} {l : List Strand}
    (hall : ∀ op, payloads op (t :: l) = brought op own l) : PhaseOver own l (l.map (leaveBarrier (t :: l))) := by
  refine ⟨List.length_map _, fun k u v hu hv => ?_⟩
  rw [List.getElem?_map, hu, Option.map_some, Option.some.injEq] at hv
  rw [← hv]
  exact leaveBarrier_letGo hall (List.mem_cons_of_mem t (List.mem_of_getElem? hu))

/-- A phase that is complete lets every strand go. -/
theorem completeBarrier_all {s : State} (hhere : s.st.here = true) (hst : barrierArrived s.st = true)
    (hall : ∀ u ∈ s.blk.strands, barrierArrived u = true) : completeBarrier s =
      { s with
        st := leaveBarrier (s.st :: s.blk.strands) s.st
        blk := { s.blk with strands := s.blk.strands.map (leaveBarrier (s.st :: s.blk.strands)) } } := by
  have hstrands : s.strands = s.st :: s.blk.strands := by rw [State.strands, if_pos hhere]
  have h : s.strands.all barrierArrived = true := by
    rw [hstrands, List.all_eq_true]
    exact fun u hu => (List.mem_cons.mp hu).elim (fun e => e ▸ hst) (hall u)
  rw [hstrands] at h
  simp only [completeBarrier, hstrands, h, if_true]

/-- A phase with a strand that has not arrived goes on. -/
theorem completeBarrier_open {s : State} {u : Strand} (hu : u ∈ s.blk.strands) (h : barrierArrived u = false) :
    completeBarrier s = s := by
  have hmem : u ∈ s.strands := by
    rw [State.strands]
    split
    · exact List.mem_cons_of_mem _ hu
    · exact hu
  have hopen : s.strands.all barrierArrived = false := List.all_eq_false.mpr ⟨u, hmem, by simp [h]⟩
  simp only [completeBarrier, hopen, Bool.false_eq_true, if_false]

/-! ### Arriving -/

theorem arrive_held {f : Form} {w : Wait} {s : State} (hnone : s.st.attempt = none)
    (hseen : seenOut s (fun _ => true) = true) : arrive f w s = .next (waitFor .order s) := by
  rw [arrive, State.waited, hnone]
  exact (if_neg Bool.false_ne_true).trans (if_pos hseen)

theorem arrive_waits {f : Form} {w : Wait} {s : State} (hnone : s.st.attempt = none)
    (hseen : seenOut s (fun _ => true) = false) : arrive f w s = .next (completeBarrier (waitFor w s)) := by
  rw [arrive, State.waited, hnone]
  exact (if_neg Bool.false_ne_true).trans (if_neg (by rw [hseen]; exact Bool.false_ne_true))

theorem arrive_over {i : Instr} {f : Form} {w : Wait} {s : State} (hform : form i = some f)
    (hexec : exec i s = arrive f w s) (hsome : s.st.attempt.isSome = true) :
    Completes i s fun t => WentOn (wordCount i) s t ∧ OnlyMoved s t :=
  finish_completes hform (by rw [hexec, arrive, State.waited, if_pos hsome])

theorem waitFor_running (w : Wait) {s : State} (h : s.grd.ended = none) :
    waitFor w s = { s with st := { s.st with status := .waiting w } } := by
  simp [waitFor, h]

theorem waitFor_stopped {w : Wait} {s : State} (h : s.grd.ended.isSome = true) (hw : w ≠ .order) :
    waitFor w s = { s with st := { s.st with status := .faulted } } := by
  simp [waitFor, h, hw]

/-- An arrival before the last strand's waits. -/
theorem arrive_early {f : Form} {w : Wait} {s : State} (hnone : s.st.attempt = none)
    (hseen : seenOut s (fun _ => true) = false) (hended : s.grd.ended = none)
    (hopen : ∃ u ∈ s.blk.strands, barrierArrived u = false) :
    arrive f w s = .next { s with st := { s.st with status := .waiting w } } := by
  obtain ⟨u, hu, h⟩ := hopen
  rw [arrive_waits hnone hseen, waitFor_running w hended,
    completeBarrier_open (s := { s with st := { s.st with status := .waiting w } }) hu h]

/-- A strand whose grid has ended stops at the barrier. -/
theorem arrive_stopped {i : Instr} {f : Form} {w : Wait} {s : State} (hexec : exec i s = arrive f w s) (hw : w ≠ .order)
    (hnone : s.st.attempt = none) (hseen : seenOut s (fun _ => true) = false) (hended : s.grd.ended.isSome = true) :
    Completes i s fun t => t.st = { s.st with status := .faulted } ∧ t.mem = s.mem := by
  rw [arrive_waits hnone hseen, waitFor_stopped hended hw] at hexec
  refine ⟨_, hexec, completeBarrier_st (fun w h => by cases h), ?_⟩
  rw [completeBarrier_settled]

/-- The last arrival ends the phase. -/
theorem arrive_last {f : Form} {w : Wait} {s : State} (hw : w = .bar ∨ ∃ op x d, w = .barp op x d)
    (hnone : s.st.attempt = none) (hseen : seenOut s (fun _ => true) = false) (hended : s.grd.ended = none)
    (hall : ∀ u ∈ s.blk.strands, barrierArrived u = true) :
    arrive f w s = .next
      (let all := { s.st with status := .waiting w } :: s.blk.strands
      { s with
        st := leaveBarrier all { s.st with status := .waiting w }
        blk := { s.blk with strands := s.blk.strands.map (leaveBarrier all) } }) := by
  rw [arrive_waits hnone hseen, waitFor_running w hended]
  rw [completeBarrier_all (s := { s with st := { s.st with status := .waiting w } }) rfl
    (by obtain rfl | ⟨_, _, _, rfl⟩ := hw <;> rfl) hall]

theorem brought_none (op : Nat) (l : List Strand) : brought op none l = payloads op l := rfl

theorem bar_last {s : State} (hnone : s.st.attempt = none) (hseen : seenOut s (fun _ => true) = false)
    (hended : s.grd.ended = none) (hall : ∀ u ∈ s.blk.strands, barrierArrived u = true) :
    Completes .bar s fun t => t.st = { s.st with status := .ready, attempt := some 0 } ∧ t.mem = s.mem
      ∧ PhaseOver none s.blk.strands t.blk.strands := by
  refine ⟨_, arrive_last (.inl rfl) hnone hseen hended hall, rfl, rfl, map_leaveBarrier_over fun op => ?_⟩
  rw [payloads_cons, payloads_silent (fun _ _ _ h => by cases h), List.nil_append, brought_none]

theorem barp_last {i : Instr} {f : Form} {op code d : Nat} {x : Word} {s : State} (hcode : (op, code) ∈ barpCodes)
    (hexec : exec i s = arrive f (.barp op x d) s) (hnone : s.st.attempt = none)
    (hseen : seenOut s (fun _ => true) = false) (hended : s.grd.ended = none)
    (hall : ∀ u ∈ s.blk.strands, barrierArrived u = true) :
    Completes i s fun t => t.st.sget d = redFold code (x :: payloads op s.blk.strands)
      ∧ OnlyScalars [d] s { s with st := t.st } ∧ t.st.status = .ready ∧ t.st.attempt = some 0
      ∧ t.mem = s.mem ∧ PhaseOver (some (op, x)) s.blk.strands t.blk.strands := by
  have hpay : ∀ o, payloads o ({ s.st with status := .waiting (.barp op x d) } :: s.blk.strands)
      = brought o (some (op, x)) s.blk.strands := fun o => by
    rw [payloads_cons, payloads_barp rfl, brought]
  have hown := leaveBarrier_letGo hpay (List.mem_cons_self ..)
  obtain ⟨hstatus, hattempt, -, -, -, hget, -⟩ := hown.2 op x d rfl code hcode
  refine ⟨_, hexec.trans (arrive_last (.inr ⟨op, x, d, rfl⟩) hnone hseen hended hall), ?_, ?_, hstatus, hattempt, rfl,
    map_leaveBarrier_over hpay⟩
  · rw [hget, brought]
    simp
  · exact (Strand.sset_only d _ s).moved rfl

/-- Each BARP arrives with the payload of A. -/
theorem barps_arrive {e : (BitVec 7 → Opnd → Instr) × Nat × Nat} (he : e ∈ barps) {d : BitVec 7} {a : Opnd} {s : State}
    (h : NoReadError (e.1 d a) s) : (e.2.1, e.2.2) ∈ barpCodes
      ∧ ∃ f, form (e.1 d a) = some f ∧ exec (e.1 d a) s = arrive f (.barp e.2.1 (s.arg a) d.toNat) s := by
  simp only [barps, List.mem_cons, List.not_mem_nil, or_false] at he
  obtain rfl | rfl | rfl | rfl | rfl := he
  · exact ⟨by decide, _, rfl, guarded_noError h rfl⟩
  · exact ⟨by decide, _, rfl, guarded_noError h rfl⟩
  · exact ⟨by decide, _, rfl, guarded_noError h rfl⟩
  · exact ⟨by decide, _, rfl, guarded_noError h rfl⟩
  · exact ⟨by decide, _, rfl, guarded_noError h rfl⟩

/-! ### EXIT and the barrier -/

/-- What a change of the waits that are tested again makes of a strand, as the barrier sees it. -/
def KeepsArrivals (g : Strand → Strand) : Prop :=
  ∀ t, barrierArrived (g t) = barrierArrived t ∧ (barrierArrived t = true → g t = t)

theorem keepsArrivals_id : KeepsArrivals id := fun _ => ⟨rfl, fun _ => rfl⟩

/-- What `poke` makes of one strand. -/
def pokeOne (p : Strand → Wait → Bool) (t : Strand) : Strand :=
  match t.status with
  | .waiting w => if p t w then { t with status := .ready } else t
  | _ => t

theorem poke_strands (p : Strand → Wait → Bool) (s : State) : (poke p s).blk.strands = s.blk.strands.map (pokeOne p) :=
  rfl

theorem pokeOne_waiting {p : Strand → Wait → Bool} {t : Strand} {w : Wait} (h : t.status = .waiting w) :
    pokeOne p t = if p t w then { t with status := .ready } else t := by
  simp only [pokeOne, h]

theorem pokeOne_other {p : Strand → Wait → Bool} {t : Strand} (h : ∀ w, t.status ≠ .waiting w) : pokeOne p t = t := by
  rw [pokeOne]
  split
  · exact absurd ‹_› (h _)
  · rfl

theorem barrierArrived_waiting {t : Strand} {w : Wait} (h : t.status = .waiting w) (hbar : w ≠ .bar)
    (hbarp : ∀ o x d, w ≠ .barp o x d) : barrierArrived t = false := by
  rw [barrierArrived, h]
  split
  · exact absurd (Status.waiting.inj ‹_›) hbar
  · exact absurd (Status.waiting.inj ‹_›) (hbarp _ _ _)
  · rw [Strand.gone, h]
    rfl

/-- A test of other waits than those at the barrier keeps the arrivals. -/
theorem pokeOne_keepsArrivals {p : Strand → Wait → Bool} (hbar : ∀ t, p t .bar = false)
    (hbarp : ∀ t o x d, p t (.barp o x d) = false) : KeepsArrivals (pokeOne p) := by
  intro t
  by_cases hw : ∃ w, t.status = .waiting w ∧ p t w = true
  · obtain ⟨w, h, hp⟩ := hw
    have hopen : barrierArrived t = false := by
      refine barrierArrived_waiting h ?_ ?_
      · rintro rfl
        exact Bool.false_ne_true ((hbar t).symm.trans hp)
      · rintro o x d rfl
        exact Bool.false_ne_true ((hbarp t o x d).symm.trans hp)
    rw [pokeOne_waiting h, if_pos hp, hopen]
    exact ⟨rfl, fun hx => absurd hx Bool.false_ne_true⟩
  · have hsame : pokeOne p t = t := by
      rcases hs : t.status with _ | _ | w | _ | _ | _ | _
      case waiting => rw [pokeOne_waiting hs, if_neg (fun hp => hw ⟨w, hs, hp⟩)]
      all_goals exact pokeOne_other (fun w h => by rw [hs] at h; cases h)
    exact ⟨by rw [hsame], fun _ => hsame⟩

theorem passToken_strands (s : State) :
    ∃ g, KeepsArrivals g ∧ (passToken s).blk.strands = s.blk.strands.map g := by
  rw [passToken]
  split
  · exact ⟨id, keepsArrivals_id, (List.map_id _).symm⟩
  · split
    · exact ⟨id, keepsArrivals_id, (List.map_id _).symm⟩
    · split
      · exact ⟨_, pokeOne_keepsArrivals (fun t => Bool.and_false _) (fun t o x d => Bool.and_false _), poke_strands _ _⟩
      · exact ⟨id, keepsArrivals_id, (List.map_id _).symm⟩

theorem exit_phase {s : State} (h : s.grd.tolerant = true ∨ (s.st.poisonTags = 0 ∧ ∀ o ∈ s.st.ops, o.what ≠ .lda)) :
    ((∀ u ∈ s.blk.strands, barrierArrived u = true) → Completes .exit s fun t =>
        PhaseOver none s.blk.strands t.blk.strands)
    ∧ ((∃ u ∈ s.blk.strands, barrierArrived u = false) → Completes .exit s fun t =>
        ∀ (k : Nat) (u : Strand), s.blk.strands[k]? = some u → barrierArrived u = true → t.blk.strands[k]? = some u) := by
  obtain ⟨g, hg, hstrands⟩ := passToken_strands (exitState s)
  have hst : (passToken (exitState s)).st = s.st.ended := passToken_st (fun w h => by cases h)
  replace hstrands : (passToken (exitState s)).blk.strands = s.blk.strands.map g := hstrands
  constructor
  · intro hall
    have hsame : s.blk.strands.map g = s.blk.strands :=
      (List.map_congr_left fun t ht => (hg t).2 (hall t ht)).trans (List.map_id _)
    refine ⟨_, exit_ends h, ?_⟩
    rw [afterStop, completeBarrier_all (by rw [hst]; rfl) (by rw [hst]; rfl) (by rw [hstrands, hsame]; exact hall)]
    simp only [hst, hstrands, hsame]
    refine map_leaveBarrier_over fun op => ?_
    rw [payloads_cons, payloads_silent (fun _ _ _ h => by cases h), List.nil_append, brought_none]
  · rintro ⟨u, hu, hopen⟩
    refine ⟨_, exit_ends h, fun k v hv harrived => ?_⟩
    have hmem : g u ∈ (passToken (exitState s)).blk.strands := by
      rw [hstrands]
      exact List.mem_map_of_mem hu
    rw [afterStop, completeBarrier_open hmem (by rw [(hg u).1, hopen]), hstrands, List.getElem?_map, hv,
      Option.map_some, (hg v).2 harrived]

end Machine

open Machine

/-- Settles O17: every arrival through `arrive`, and EXIT through what it leaves to the barrier. -/
theorem barriers : Obligations.Barriers := by
  have hbar : ∀ s, exec .bar s = arrive (.none 0x12) .bar s := fun _ => rfl
  refine ⟨fun s hnone hseen => ⟨(hbar s).trans (arrive_held hnone hseen), fun e he d a h => ?_⟩,
    fun s hsome => arrive_over rfl (hbar s) hsome, fun s => bar_last,
    fun s hnone hseen hended hopen => (hbar s).trans (arrive_early hnone hseen hended hopen),
    fun s => arrive_stopped (hbar s) (by simp), fun e he d a s h => ?_, fun s => exit_phase⟩
  · obtain ⟨-, f, -, hexec⟩ := barps_arrive he h
    exact hexec.trans (arrive_held hnone hseen)
  · obtain ⟨hcode, f, hform, hexec⟩ := barps_arrive he h
    exact ⟨arrive_over hform hexec, fun hnone hseen hended _ => barp_last hcode hexec hnone hseen hended,
      fun hnone hseen hended hopen => hexec.trans (arrive_early hnone hseen hended hopen),
      arrive_stopped hexec (by simp)⟩

end Sys2Proof

/-! ### WAITV (R249) -/

namespace Sys2Proof

namespace Machine

theorem exec_waitv (p b s) : exec (.waitv p b) s = execWaitv p b s := rfl

/-- Where no line fails its MAC, the check of the MACs changes nothing. -/
theorem macCheck_clean {key : Nat} {pas : List Nat} {s : State} (h : badLines s key pas = []) : macCheck key pas s = s := by
  rw [macCheck, h, List.foldl_nil]

/-- A read that meets no poison ends no failure. -/
theorem readOver_clean {l : List Nat} {s : State} (h : l.any s.badNow = false) : readOver l s = s := by
  have hkept : (s.failing.filter fun x => !l.any x.hits) = s.failing := by
    rw [List.filter_eq_self]
    intro x hx
    rw [Bool.not_eq_true', List.any_eq_false]
    intro a ha hhits
    have := List.any_eq_false.mp h a ha
    exact this (by rw [State.badNow, List.any_eq_true.mpr ⟨x, hx, hhits⟩, Bool.or_true])
  rw [readOver, hkept]

/-- WAITV whose read has passed its checks and waits for nothing looks at its word. -/
theorem exec_waitv_read {p : BitVec 6} {b : Opnd} {s v : State} {off : Nat} {va : DWord} {part : PagePart} {w : World}
    (h : NoReadError (.waitv p b) s) (hcheck : checkLane (waitvReq s p) 0 s = .ok [(off, va, part)] v w) :
    exec (.waitv p b) s =
      if readHeld { v with wld := w } (waitvReq s p) [(off, va, part)] then .next (waitFor .order { v with wld := w })
      else waitvRead (.ctl 0x0D 0 (.s p) (some b)) b part { v with wld := w } := by
  rw [exec_waitv, execWaitv, guarded_noError (f := .ctl 0x0D 0 (.s p) (some b)) h rfl]
  simp only [hcheck]

theorem waitvRead_poisoned {f : Form} {b : Opnd} {part : PagePart} {u : State} (hmac : badLines u part.key part.pas = [])
    (hpoison : part.pas.any u.badNow = true) (hstrict : u.grd.tolerant = false) :
    waitvRead f b part u = deliver ⟨0x50, 0, 0, 0, 0, 0⟩ (readOver part.pas u) := by
  simp only [waitvRead, macCheck_clean hmac]
  exact if_pos ⟨hpoison, hstrict⟩

/-- A read without poison leads on by the word's value. -/
theorem waitvRead_clean {f : Form} {b : Opnd} {part : PagePart} {u : State} (hmac : badLines u part.key part.pas = [])
    (hclean : part.pas.any u.badNow = false) :
    waitvRead f b part u =
      if BitVec.ofNat 32 (leNat (part.pas.map u.readByte)) ≠ u.arg b then
        finish f (acquireDone 1 3 (l1Drop u.blk.core (linesOf part.pas) u))
      else
        .next (waitFor (.waitv (if part.mtype = 2 then none else part.pas.head?.map (· / 64)) (u.clock + 4096))
          { l1Drop u.blk.core (linesOf part.pas) u with st := { u.st with attempt := none } }) := by
  simp only [waitvRead, macCheck_clean hmac, readOver_clean hclean, hclean, Bool.false_eq_true, false_and, if_false]
  rfl

theorem acquireDone_l1 (u : State) : ∀ y ∈ (acquireDone 1 3 u).l1, y.core ≠ u.blk.core := by
  intro y hy
  exact of_decide_eq_true (List.mem_filter.mp hy).2

end Machine

open Machine

/-- Settles O19: the read of WAITV, poisoned, differing from B, or equal to it. -/
theorem waitvReadsAndSleeps : Obligations.WaitvReadsAndSleeps := by
  intro p b s v off va part w h hcheck u x
  have hexec := exec_waitv_read h hcheck
  refine ⟨fun hheld => by rw [hexec, if_pos hheld], fun hheld hmac => ?_⟩
  rw [if_neg (by rw [hheld]; exact Bool.false_ne_true)] at hexec
  refine ⟨fun hpoison hstrict => hexec.trans (waitvRead_poisoned hmac hpoison hstrict), fun hclean hne => ?_,
    fun hclean heq => ?_⟩
  · rw [waitvRead_clean hmac hclean, if_pos hne] at hexec
    refine ⟨_, hexec, ?_, ?_, ?_⟩
    · rw [wordCount_of_form (f := .ctl 0x0D 0 (.s p) (some b)) rfl]
      exact advance_wentOn _ rfl rfl
    · rw [advance_onlyMoved _ (acquireDone 1 3 _)]
      exact acquireDone_l1 (l1Drop u.blk.core (linesOf part.pas) u)
    · rw [OnlyMoved, advance_onlyMoved _ (acquireDone 1 3 _)]
      rfl
  · rw [waitvRead_clean hmac hclean, if_neg (not_not.mpr heq)] at hexec
    exact ⟨_, hexec, rfl⟩

end Sys2Proof

/-! ## Device-memory instructions at issue (R28, R229, R230, R233) -/

namespace Sys2Proof

namespace Machine

/-! ### The checks of an attempt -/

/-- Beside what checks change, and the pools of the world in focus, nothing differs. -/
def Translated (s u : State) : Prop := ∃ t x, OnlyChecked s t ∧ x = { s.wld with pools := x.pools } ∧ u = { t with wld := x }

theorem Translated.refl (s : State) : Translated s s := ⟨s, s.wld, .refl s, rfl, rfl⟩

theorem Translated.trans {s t u : State} (h : Translated s t) (k : Translated t u) : Translated s u := by
  obtain ⟨a, x, ha, hx, rfl⟩ := h
  obtain ⟨b, y, hb, hy, rfl⟩ := k
  refine ⟨{ b with wld := s.wld }, y, ⟨?_, fun hw => hb.2 (ha.2 hw)⟩, ?_, rfl⟩
  · have h1 := ha.1
    have h2 := hb.1
    rw [h1] at h2
    rw [h2]
  · rw [hy, hx]

/-- The strand, its block and its grid stay through checks. -/
theorem Translated.focus {s u : State} (h : Translated s u) : u.st = s.st ∧ u.blk = s.blk ∧ u.grd = s.grd := by
  obtain ⟨t, x, ⟨ht, -⟩, -, rfl⟩ := h
  rw [ht]
  exact ⟨rfl, rfl, rfl⟩

theorem Translated.wf {s u : State} (h : Translated s u) (hw : Memory.wf s.mem = true) : Memory.wf u.mem = true := by
  obtain ⟨t, x, ⟨-, ht⟩, -, rfl⟩ := h
  exact ht hw

theorem checkAccess_translated {s t : State} {x : World} {party : Party} {die n : Nat} {k : Access} {draw : Bool}
    {p : DWord} {parts : List (Nat × DWord × PagePart)}
    (h : checkAccess s s.wld party die k draw p n = .ok parts t x) : Translated s { t with wld := x } :=
  ⟨t, x, (checkAccess_only h).1, (checkAccess_only h).2, rfl⟩

theorem checkLane_translated {r : MemReq} {lane : Nat} {s t : State} {x : World}
    {parts : List (Nat × DWord × PagePart)} (h : checkLane r lane s = .ok parts t x) :
    Translated s { t with wld := x } := by
  simp only [checkLane] at h
  split at h
  · cases h
  · split at h
    · cases h
    · next hcheck =>
      split at h
      · cases h
      · cases h
        exact checkAccess_translated hcheck

theorem checkLanes_translated (r : MemReq) (l : List Nat) (s : State) : Translated s (checkLanes r l s).2.2 := by
  induction l generalizing s with
  | nil => exact .refl s
  | cons i l ih =>
    rw [checkLanes]
    split
    · exact ih s
    · next hlane => exact (checkLane_translated hlane).trans (ih _)

theorem ldaLanes_translated (r : MemReq) (valid : Nat → Nat) (l : List Nat) (s : State) :
    Translated s (ldaLanes r valid l s).2.2 := by
  induction l generalizing s with
  | nil => exact .refl s
  | cons i l ih =>
    rw [ldaLanes]
    split
    · exact ih s
    · split
      · exact ih s
      · next hlane => exact (checkLane_translated hlane).trans (ih _)

/-! ### Taking an operation in -/

theorem nextSerial_eq (s : State) : s.nextSerial = serialOf s.st := by
  rw [State.nextSerial, serialOf]
  cases s.st.attempt <;> rfl

/-- An operation that the strand takes in changes its operations and its serial. -/
theorem addOp_eq (o : Op) (s : State) :
    addOp o s = { s with st := { s.st with ops := (addOp o s).st.ops, serial := serialOf s.st } } := by
  simp only [addOp, nextSerial_eq]
  split
  · rfl
  · split <;> rfl

theorem addOp_joined (o : Op) (s : State) : JoinedOps o s.st (addOp o s).st.ops := by
  simp only [addOp, nextSerial_eq]
  refine ⟨fun hl => ?_, fun hl hnew => ?_, fun hl hagain hthere => ?_⟩
  · simp only [hl, List.isEmpty_nil, if_true]
  · rw [if_neg (by simpa using hl), if_neg]
    rw [Bool.and_eq_true, List.any_eq_true]
    rintro ⟨hsome, x, hx, hn⟩
    obtain hnone | hother := hnew
    · rw [hnone] at hsome; cases hsome
    · exact hother x hx (of_decide_eq_true hn)
  · obtain ⟨x, hx, hn⟩ := hthere
    rw [if_neg (by simpa using hl), if_pos]
    · rw [update]
      simp only [decide_eq_true_eq]
    · rw [Bool.and_eq_true, List.any_eq_true]
      exact ⟨Option.isSome_iff_ne_none.mpr hagain, x, hx, decide_eq_true hn⟩

theorem advance_ops (n : Nat) (s : State) : (advance n s).st.ops = s.st.ops := by
  rw [advance_onlyMoved n s]
  rfl

/-- After an operation has been taken in, the instruction goes on and has issued it. -/
theorem finish_addOp {i : Instr} {f : Form} {o : Op} {s u : State} (hform : form i = some f) (hst : u.st = s.st)
    (hexec : exec i s = finish f (addOp o u)) :
    Completes i s fun t => WentOn (wordCount i) s t ∧ Issued o s u t := by
  have hadd := addOp_eq o u
  have hmoved := advance_onlyMoved (formSize f) (addOp o u)
  refine ⟨_, hexec, ?_, ?_, ?_⟩
  · rw [wordCount_of_form hform]
    exact advance_wentOn _ (by rw [hadd, hst]) (by rw [hadd, hst])
  · rw [advance_ops, hmoved, hadd, hst]
    rfl
  · rw [advance_ops, ← hst]
    exact addOp_joined o u

/-! ### The fault of an attempt -/

theorem find?_first {α : Type} {p : α → Bool} {l q : List α} {x : α} (hx : p x = true) (hl : ∀ y ∈ l, p y = false) :
    (l ++ x :: q).find? p = some x :=
  List.find?_eq_some_iff_append.mpr ⟨hx, l, q, rfl, fun y hy => by rw [hl y hy]; rfl⟩

/-- The fault of an attempt that has one (R212, R230): the first ESCAPE, or else the first that is not replayable. -/
theorem fatal_first {uni : Bool} {l q : List (Nat × FaultInfo)} {lane : Nat} {x : FaultInfo}
    (h : (x.code = codeEscape ∧ ∀ y ∈ l, y.2.code ≠ codeEscape)
      ∨ (replayable x.code = false ∧ (∀ y ∈ l ++ (lane, x) :: q, y.2.code ≠ codeEscape)
          ∧ ∀ y ∈ l, replayable y.2.code = true)) :
    fatal uni (l ++ (lane, x) :: q) = some { x with
      lanes := if uni then 0 else maskOf (((l ++ (lane, x) :: q).filter fun y => y.2.code = x.code).map (·.1)) } := by
  have hfound : ((l ++ (lane, x) :: q).find? (fun x => x.2.code = codeEscape)).or
      ((l ++ (lane, x) :: q).find? (fun x => !replayable x.2.code)) = some (lane, x) := by
    obtain ⟨hcode, hbefore⟩ | ⟨hfatal, hnone, hbefore⟩ := h
    · rw [find?_first (by simp [hcode]) (fun y hy => by simp [hbefore y hy])]
      rfl
    · rw [List.find?_eq_none.mpr (fun y hy => by simpa using hnone y hy),
        find?_first (by simp [hfatal]) (fun y hy => by simp [hbefore y hy])]
      rfl
  rw [fatal, hfound]

theorem codeEscape_fatal {x : FaultInfo} (h : replayable x.code = true) : x.code ≠ codeEscape := by
  intro hcode
  rw [hcode] at h
  exact absurd h (by decide)

/-- An attempt whose faults are all replayable delivers none. -/
theorem fatal_none {uni : Bool} {l : List (Nat × FaultInfo)} (h : ∀ y ∈ l, replayable y.2.code = true) :
    fatal uni l = none := by
  rw [fatal, List.find?_eq_none.mpr (fun y hy => by simpa using codeEscape_fatal (h y hy)),
    List.find?_eq_none.mpr (fun y hy => by simp [h y hy])]
  rfl

/-- A strand parks with the lanes that took replayable faults. -/
theorem park_st (x : FaultInfo) (left : BitVec 64) (s : State) : (park x left s).st = { s.st with
    status := if s.grd.ended.isSome = true then .faulted else .parked x left, attempt := some left } := by
  rw [park, reportStage2]
  split <;> rfl

/-- An attempt of which lanes failed parks, and has issued the operation of the others. -/
theorem afterAttempt_parks {i : Instr} {f : Form} {uni : Bool} {failed : List (Nat × FaultInfo)} {o : Op} {s u : State}
    (hexec : exec i s = afterAttempt f uni failed (addOp o u)) (hst : u.st = s.st) (hgrd : u.grd = s.grd) :
    ParksWith uni failed o i s u := by
  rintro lane x q hfailed
  have hpark : exec i s = .next (park { x with lanes := if uni then 0 else maskOf (failed.map (·.1)) }
      (maskOf (failed.map (·.1))) (addOp o u)) := by
    rw [hexec, hfailed]
    rfl
  have hadd := addOp_eq o u
  have hjoined := addOp_joined o u
  refine ⟨_, hpark, ?_⟩
  dsimp only
  rw [park_st, park_mem, ← hst]
  refine ⟨?_, rfl, ?_, hjoined, ?_⟩
  · rw [hadd, hgrd]
  · rw [hadd]
  · rw [hadd]
    exact ⟨rfl, rfl, rfl, rfl, rfl, rfl⟩

/-! ### Device accesses -/

theorem memIssue_fatal {f : Form} {r : MemReq} {s : State} {x : FaultInfo} (h : fatal r.uni (failedLanes r s) = some x) :
    memIssue f r s = deliver x s := by
  simp only [memIssue]
  rw [failedLanes, lanesLeft] at h
  rw [attemptLanes, h]

theorem memIssue_held {f : Form} {r : MemReq} {s : State} (h : fatal r.uni (failedLanes r s) = none)
    (hheld : soBlocked s r.uni (passedParts r s) = true) : memIssue f r s = .next (waitFor .order s) := by
  simp only [memIssue]
  rw [failedLanes, lanesLeft] at h
  rw [attemptLanes, h]
  exact if_pos hheld

theorem memIssue_attempt {f : Form} {r : MemReq} {s : State} (h : fatal r.uni (failedLanes r s) = none)
    (hheld : soBlocked s r.uni (passedParts r s) = false) : memIssue f r s =
      afterAttempt f r.uni (failedLanes r s) (addOp (opOf r (passedParts r s) s) (afterChecks r s)) := by
  simp only [memIssue]
  rw [failedLanes, lanesLeft] at h
  rw [attemptLanes, h]
  exact if_neg (by rw [Bool.not_eq_true]; exact hheld)

theorem afterChecks_translated (r : MemReq) (s : State) : Translated s (afterChecks r s) :=
  checkLanes_translated r _ s

/-- How a device access runs: outside the prologue, and inside it where it has no side effect, it issues its request;
with one, it faults there. -/
def RunsRequest (i : Instr) (acts : Bool) (r : MemReq) (s : State) : Prop :=
  ∃ f, form i = some f ∧ ((acts = true → s.prologue = false) → exec i s = memIssue f r s)
    ∧ (acts = true → s.prologue = true → exec i s = deliver ⟨codePrologue, 0, 0, 0, 0, 0⟩ s)

theorem runs_memRead {i : Instr} {f : Form} {r : State → MemReq} {s : State} (h : NoReadError i s)
    (hform : form i = some f) (hexec : exec i s = memRead f r s) : RunsRequest i false (r s) s := by
  rw [memRead, guarded_noError h hform] at hexec
  exact ⟨f, hform, fun _ => hexec, fun x => absurd x Bool.false_ne_true⟩

theorem runs_memAct {i : Instr} {f : Form} {r : State → MemReq} {s : State} (h : NoReadError i s)
    (hform : form i = some f) (hexec : exec i s = memAct f r s) : RunsRequest i true (r s) s := by
  rw [memAct, guarded_noError h hform] at hexec
  refine ⟨f, hform, fun hout => ?_, fun _ hin => ?_⟩
  · rw [hexec, hout rfl]
    rfl
  · rw [hexec, if_pos hin]
    rfl

theorem deviceVector_runs {e : (MemV → Instr) × Bool × (MemV → State → MemReq)} (he : e ∈ deviceVector) (f : MemV)
    {s : State} (h : NoReadError (e.1 f) s) : RunsRequest (e.1 f) e.2.1 (e.2.2 f s) s := by
  simp only [deviceVector, List.mem_cons, List.not_mem_nil, or_false] at he
  obtain rfl | rfl | rfl | rfl | rfl | rfl := he
  · exact runs_memRead h rfl (r := fun s => vecReq .ld (.load s.prologue) f s) rfl
  · exact runs_memAct h rfl (r := fun s => storeReq true (vecReq .st .store f s)) rfl
  · exact runs_memAct h rfl (r := fun s => storeReq false (vecReq .st .store f s)) rfl
  · exact runs_memAct h rfl (r := fun s => atomReq (vecReq .atom (.atomic (attOf f.att).aop.toNat) f s)) rfl
  · exact runs_memRead h rfl (r := fun s => tagReq (vecReq .tagld .tagld f s)) rfl
  · exact runs_memAct h rfl (r := fun s => tagReq (vecReq .tagst .tagst f s)) rfl

theorem deviceUniform_runs {e : (MemU → Instr) × Bool × (MemU → State → MemReq)} (he : e ∈ deviceUniform) (f : MemU)
    {s : State} (h : NoReadError (e.1 f) s) : RunsRequest (e.1 f) e.2.1 (e.2.2 f s) s := by
  simp only [deviceUniform, List.mem_cons, List.not_mem_nil, or_false] at he
  obtain rfl | rfl | rfl | rfl | rfl | rfl := he
  · exact runs_memRead h rfl (r := fun s => uniReq .ld (.load s.prologue) f s) rfl
  · exact runs_memAct h rfl (r := fun s => storeReq true (uniReq .st .store f s)) rfl
  · exact runs_memAct h rfl (r := fun s => storeReq false (uniReq .st .store f s)) rfl
  · exact runs_memAct h rfl (r := fun s => atomReq (uniReq .atom (.atomic (attOf f.att).aop.toNat) f s)) rfl
  · exact runs_memRead h rfl (r := fun s => tagReq (uniReq .tagld .tagld f s)) rfl
  · exact runs_memAct h rfl (r := fun s => tagReq (uniReq .tagst .tagst f s)) rfl

theorem deviceAccess_runs {i : Instr} {acts : Bool} {req : State → MemReq} {s : State} (ha : DeviceAccess i acts req)
    (h : NoReadError i s) : RunsRequest i acts (req s) s := by
  cases ha with
  | vector e he f => exact deviceVector_runs he f h
  | uniform e he f => exact deviceUniform_runs he f h

end Machine

open Machine

/-- Settles O20: an attempt whose lanes have all passed takes its operation in and goes on. -/
theorem deviceAccessesIssue : Obligations.DeviceAccessesIssue := by
  intro i acts req s ha h hacts hpassed hfree
  obtain ⟨f, hform, hrun, -⟩ := deviceAccess_runs ha h
  refine finish_addOp hform (afterChecks_translated _ s).focus.1 ?_
  rw [hrun hacts, memIssue_attempt (by rw [hpassed]; rfl) hfree, hpassed]
  rfl

/-- Settles O21: the fault that an attempt delivers, its wait, and its park. -/
theorem deviceAccessesParkOrFault : Obligations.DeviceAccessesParkOrFault := by
  intro i acts req s ha h hacts r failed
  obtain ⟨f, hform, hrun, -⟩ := deviceAccess_runs ha h
  obtain ⟨hst, -, hgrd⟩ := (afterChecks_translated r s).focus
  refine ⟨fun l lane x q hfailed hfirst => ?_, fun hreplay => ⟨fun hheld => ?_, fun hfree => ?_⟩⟩
  · rw [hfailed] at hfirst ⊢
    rw [hrun hacts]
    refine memIssue_fatal ?_
    rw [show failedLanes (req s) s = l ++ (lane, x) :: q from hfailed]
    exact fatal_first hfirst
  · rw [hrun hacts]
    exact memIssue_held (fatal_none hreplay) hheld
  · exact afterAttempt_parks ((hrun hacts).trans (memIssue_attempt (fatal_none hreplay) hfree)) hst hgrd

end Sys2Proof

/-! ## On-chip instructions at issue (R252, R253, R257) and the prologue (R28) -/

namespace Sys2Proof

namespace Machine

/-! ### The checks of an on-chip access -/

theorem localOut_iff (s : State) (sbm : Bool) (r : MemReq) (lane : Nat) :
    localOut s sbm r lane = true ↔ ¬ chipInside s sbm r lane := by
  cases sbm <;> simp [localOut, chipInside, chipAddr, alignDown]

/-- Does a lane of an on-chip write meet an armed barrier? -/
def meetsArmed (s : State) (r : MemReq) (lane : Nat) : Bool :=
  touchesArmed s.blk (alignDown ((r.addr lane).setWidth 32) r.size) r.size

theorem meetsArmed_iff (s : State) (r : MemReq) (lane : Nat) : meetsArmed s r lane = true ↔ chipArmed s r lane := by
  simp [meetsArmed, touchesArmed, chipArmed, chipAddr, alignDown]

theorem laneFault_none {code detail : Nat} {r : MemReq} {hit : Nat → Bool} {lanes : List Nat}
    (h : ∀ k ∈ lanes, hit k = false) : laneFault code detail r hit lanes = none := by
  rw [laneFault, List.find?_eq_none.mpr (fun k hk => by simp [h k hk])]

theorem lanesOf_sorted (m : BitVec 64) : (lanesOf m).Pairwise (· < ·) :=
  List.Pairwise.filter _ List.pairwise_lt_range

/-- The first hit of a list in ascending order is the lowest. -/
theorem find?_lowest {p : Nat → Bool} {l : List Nat} (hsorted : l.Pairwise (· < ·)) {n : Nat} (hmem : n ∈ l)
    (hn : p n = true) (hbelow : ∀ k ∈ l, k < n → p k = false) : l.find? p = some n := by
  obtain ⟨a, b, rfl⟩ := List.append_of_mem hmem
  refine find?_first hn fun k hk => hbelow k (by simp [hk]) ?_
  exact (List.pairwise_append.mp hsorted).2.2 k hk n (by simp)

theorem laneFault_lowest {code detail : Nat} {r : MemReq} {hit : Nat → Bool} {n : Nat} (hmem : n ∈ lanesOf r.lanes)
    (hn : hit n = true) (hbelow : ∀ k ∈ lanesOf r.lanes, k < n → hit k = false) :
    laneFault code detail r hit (lanesOf r.lanes) = some ⟨code, detail, BitVec.ofNat 64 (chipAddr r n), 0, 0,
      if r.uni then 0 else maskOf ((lanesOf r.lanes).filter hit)⟩ := by
  rw [laneFault, find?_lowest (lanesOf_sorted _) hmem hn hbelow]
  rfl

/-! ### How an on-chip instruction runs -/

/-- How an on-chip access runs: outside the prologue, and inside it where it has no side effect, it issues its request;
with one, it faults there. -/
def RunsLocal (i : Instr) (sbm writes : Bool) (r : MemReq) (s : State) : Prop :=
  ∃ f, form i = some f ∧ ((writes = true → s.prologue = false) → exec i s = localIssue f sbm writes r s)
    ∧ (writes = true → s.prologue = true → exec i s = deliver ⟨codePrologue, 0, 0, 0, 0, 0⟩ s)

theorem runs_localRead {i : Instr} {f : Form} {sbm : Bool} {r : State → MemReq} {s : State} (h : NoReadError i s)
    (hform : form i = some f) (hexec : exec i s = localRead f sbm r s) : RunsLocal i sbm false (r s) s := by
  rw [localRead, guarded_noError h hform] at hexec
  exact ⟨f, hform, fun _ => hexec, fun x => absurd x Bool.false_ne_true⟩

theorem runs_localAct {i : Instr} {f : Form} {sbm : Bool} {r : State → MemReq} {s : State} (h : NoReadError i s)
    (hform : form i = some f) (hexec : exec i s = localAct f sbm true r s) : RunsLocal i sbm true (r s) s := by
  rw [localAct, guarded_noError h hform] at hexec
  refine ⟨f, hform, fun hout => ?_, fun _ hin => ?_⟩
  · rw [hexec, hout rfl]
    rfl
  · rw [hexec, if_pos hin]
    rfl

theorem chipVector_runs {e : (MemV → Instr) × Bool × Bool × (MemV → State → MemReq)} (he : e ∈ chipVector) (f : MemV)
    {s : State} (h : NoReadError (e.1 f) s) : RunsLocal (e.1 f) e.2.1 e.2.2.1 (e.2.2.2 f s) s := by
  simp only [chipVector, List.mem_cons, List.not_mem_nil, or_false] at he
  obtain rfl | rfl | rfl | rfl | rfl | rfl := he
  · exact runs_localRead h rfl (r := localVec .lds f) rfl
  · exact runs_localAct h rfl (r := fun s => storeReq true (localVec .sts f s)) rfl
  · exact runs_localAct h rfl (r := fun s => localAtom (localVec .atoms f s)) rfl
  · exact runs_localRead h rfl (r := localVec .gld f) rfl
  · exact runs_localAct h rfl (r := fun s => storeReq true (localVec .gst f s)) rfl
  · exact runs_localAct h rfl (r := fun s => localAtom (localVec .gop f s)) rfl

theorem chipUniform_runs {e : (MemU → Instr) × Bool × Bool × (MemU → State → MemReq)} (he : e ∈ chipUniform) (f : MemU)
    {s : State} (h : NoReadError (e.1 f) s) : RunsLocal (e.1 f) e.2.1 e.2.2.1 (e.2.2.2 f s) s := by
  simp only [chipUniform, List.mem_cons, List.not_mem_nil, or_false] at he
  obtain rfl | rfl | rfl | rfl | rfl | rfl := he
  · exact runs_localRead h rfl (r := localUni .lds f) rfl
  · exact runs_localAct h rfl (r := fun s => storeReq true (localUni .sts f s)) rfl
  · exact runs_localAct h rfl (r := fun s => localAtom (localUni .atoms f s)) rfl
  · exact runs_localRead h rfl (r := localUni .gld f) rfl
  · exact runs_localAct h rfl (r := fun s => storeReq true (localUni .gst f s)) rfl
  · exact runs_localAct h rfl (r := fun s => localAtom (localUni .gop f s)) rfl

theorem chipAccess_runs {i : Instr} {sbm writes : Bool} {req : State → MemReq} {s : State}
    (ha : ChipAccess i sbm writes req) (h : NoReadError i s) : RunsLocal i sbm writes (req s) s := by
  cases ha with
  | vector e he f => exact chipVector_runs he f h
  | uniform e he f => exact chipUniform_runs he f h

/-- The unit in which an on-chip access stores. -/
def chipOwner (sbm : Bool) (s : State) : Owner := if sbm then .grid s.grd.id else .block s.grd.id s.blk.id

/-- An access whose checks all pass takes its operation in. -/
theorem localIssue_passes {f : Form} {sbm writes : Bool} {r : MemReq} {s : State}
    (hescape : r.escape = true → localEscape s (chipOwner sbm s) r (lanesOf r.lanes) = none)
    (hinside : ∀ k ∈ lanesOf r.lanes, localOut s sbm r k = false)
    (hfree : writes = true → sbm = false → ∀ k ∈ lanesOf r.lanes, meetsArmed s r k = false) :
    localIssue f sbm writes r s
      = finish f (addOp (opOf r ((lanesOf r.lanes).flatMap (localUnits r sbm)) s) s) := by
  have hnone : (if r.escape then localEscape s (chipOwner sbm s) r (lanesOf r.lanes) else none) = none := by
    split
    · exact hescape ‹_›
    · rfl
  have hclear : (if writes && !sbm then laneFault 0x41 0 r (meetsArmed s r) (lanesOf r.lanes) else none) = none := by
    split
    · next h =>
      rw [Bool.and_eq_true, Bool.not_eq_true'] at h
      exact laneFault_none (hfree h.1 h.2)
    · rfl
  simp only [localIssue]
  rw [← chipOwner, hnone]
  dsimp only
  rw [laneFault_none hinside]
  dsimp only
  rw [show (fun i => touchesArmed s.blk (alignDown ((r.addr i).setWidth 32) r.size) r.size) = meetsArmed s r from rfl,
    hclear]

theorem localIssue_outside {f : Form} {sbm writes : Bool} {r : MemReq} {s : State} {x : FaultInfo}
    (hescape : r.escape = false)
    (hout : laneFault 0x40 (if sbm then 2 else 0) r (localOut s sbm r) (lanesOf r.lanes) = some x) :
    localIssue f sbm writes r s = deliver x s := by
  simp only [localIssue, hescape, Bool.false_eq_true, if_false, hout]

theorem localIssue_armed {f : Form} {r : MemReq} {s : State} {x : FaultInfo} (hescape : r.escape = false)
    (hinside : ∀ k ∈ lanesOf r.lanes, localOut s false r k = false)
    (hmet : laneFault 0x41 0 r (meetsArmed s r) (lanesOf r.lanes) = some x) :
    localIssue f false true r s = deliver x s := by
  simp only [localIssue, hescape, laneFault_none hinside, Bool.false_eq_true, if_false, Bool.not_false, Bool.and_true,
    if_true]
  rw [show (fun i => touchesArmed s.blk (alignDown ((r.addr i).setWidth 32) r.size) r.size) = meetsArmed s r from rfl,
    hmet]

/-! ### Engine instructions in the prologue -/

theorem engineAct_prologue {i : Instr} {f : Form} {s : State} {k : State → Out} (h : NoReadError i s)
    (hform : form i = some f) (hexec : exec i s = engineAct f s k) (hin : s.prologue = true) :
    exec i s = deliver ⟨codePrologue, 0, 0, 0, 0, 0⟩ s := by
  rw [hexec, engineAct, guarded_noError h hform, if_pos hin]
  rfl

theorem engineAct_runs {i : Instr} {f : Form} {s : State} {k : State → Out} (h : NoReadError i s)
    (hform : form i = some f) (hexec : exec i s = engineAct f s k) (hout : s.prologue = false) : exec i s = k s := by
  rw [hexec, engineAct, guarded_noError h hform, if_neg (by rw [hout]; exact Bool.false_ne_true)]

theorem exec_lda (f s) : exec (.lda f) s = execLda f s := rfl
theorem exec_bbinit (a b s) : exec (.bbinit a b) s = execBbinit a b s := rfl
theorem exec_bbinv (a s) : exec (.bbinv a) s = execBbinv a s := rfl
theorem exec_promote (t q a b s) : exec (.promote t q a b) s = execPromote t q a b s := rfl
theorem exec_promoteA (t q b s) : exec (.promoteA t q b) s = execPromoteA t q b s := rfl
theorem exec_arena (d a x s) : exec (.arena d a x) s = execArena d a x s := rfl
theorem exec_cpost (d a s) : exec (.cpost d a) s = execCpost d a s := rfl
theorem exec_cpostNb (d a s) : exec (.cpostNb d a) s = execCpostNb d a s := rfl
theorem exec_launch (d a s) : exec (.launch d a) s = execLaunch d a s := rfl
theorem exec_tsig (p b s) : exec (.tsig p b) s = execTsig p b s := rfl

theorem lda_prologue {f : LdaF} {s : State} (h : NoReadError (.lda f) s) (hin : s.prologue = true) :
    exec (.lda f) s = deliver ⟨codePrologue, 0, 0, 0, 0, 0⟩ s := by
  rw [exec_lda, execLda, guarded_noError h rfl, if_pos hin]
  rfl

/-- An UNCACHED_IO page that a load of the prologue may read faults (R28). -/
theorem typeFault_prologue (size : Nat) {leaf : BitVec 128} (hmtype : eMtype leaf = 3) (hread : eR leaf = true)
    (huser : eUser leaf = true) : typeFault .strand (.load true) size leaf = some codePrologue := by
  unfold typeFault
  simp [hmtype, hread, huser, Access.needsR, Access.needsW]

end Machine

open Machine

/-- Settles O22: an access whose checks pass takes its operation in and goes on. -/
theorem chipAccessesIssue : Obligations.ChipAccessesIssue := by
  intro i sbm writes req s ha h hwrites hescape hinside hfree
  obtain ⟨f, hform, hrun, -⟩ := chipAccess_runs ha h
  refine finish_addOp hform rfl ((hrun hwrites).trans (localIssue_passes hescape (fun k hk => ?_) fun hw hs k hk => ?_))
  · rw [Bool.eq_false_iff, ne_eq, localOut_iff, not_not]
    exact hinside k hk
  · rw [Bool.eq_false_iff, ne_eq, meetsArmed_iff]
    exact hfree hw hs k hk

/-- Settles O23: the faults of the lowest lane outside, and of the lowest lane at an armed barrier. -/
theorem chipAccessesFault : Obligations.ChipAccessesFault := by
  intro i sbm writes req s ha h hwrites hescape lanes hit
  obtain ⟨f, hform, hrun, -⟩ := chipAccess_runs ha h
  refine ⟨fun lane hlane out hout hn hbelow => ?_, fun hw hsbm hinside lane hlane met hmet hn hbelow => ?_⟩
  · obtain rfl : out = localOut s sbm (req s) := funext fun k => by
      rw [Bool.eq_iff_iff, hout, localOut_iff]
    exact (hrun hwrites).trans (localIssue_outside hescape (laneFault_lowest hlane hn hbelow))
  · obtain rfl : met = meetsArmed s (req s) := funext fun k => by
      rw [Bool.eq_iff_iff, hmet, meetsArmed_iff]
    have hnone : ∀ k ∈ lanes, localOut s sbm (req s) k = false := fun k hk => by
      rw [Bool.eq_false_iff, ne_eq, localOut_iff, not_not]
      exact hinside k hk
    subst hw hsbm
    exact (hrun hwrites).trans (localIssue_armed hescape hnone (laneFault_lowest hlane hn hbelow))

/-- Settles O26: each instruction with a side effect tests the prologue first. -/
theorem prologueFaults : Obligations.PrologueFaults := by
  intro s hin
  refine ⟨fun i req ha h => ?_, fun i sbm req ha h => ?_, fun i hi h => ?_, fun size leaf => typeFault_prologue size⟩
  · obtain ⟨f, -, -, hfault⟩ := deviceAccess_runs ha h
    exact hfault rfl hin
  · obtain ⟨f, -, -, hfault⟩ := chipAccess_runs ha h
    exact hfault rfl hin
  · obtain ⟨f, rfl⟩ | ⟨a, b, rfl⟩ | ⟨a, rfl⟩ | ⟨t, q, a, b, rfl⟩ | ⟨t, q, b, rfl⟩ | ⟨d, a, x, rfl⟩ | ⟨d, a, rfl⟩
      | ⟨d, a, rfl⟩ | ⟨d, a, rfl⟩ | ⟨p, b, rfl⟩ := hi
    · exact lda_prologue h hin
    · exact engineAct_prologue h rfl (by rw [exec_bbinit, execBbinit, barrierAct]) hin
    · exact engineAct_prologue h rfl (by rw [exec_bbinv, execBbinv, barrierAct]) hin
    · exact engineAct_prologue h rfl (by rw [exec_promote, execPromote]) hin
    · exact engineAct_prologue h rfl (by rw [exec_promoteA, execPromoteA]) hin
    · exact engineAct_prologue h rfl (by rw [exec_arena, execArena]) hin
    · exact engineAct_prologue h rfl (by rw [exec_cpost, execCpost, cpostAct]) hin
    · exact engineAct_prologue h rfl (by rw [exec_cpostNb, execCpostNb, cpostAct]) hin
    · exact engineAct_prologue h rfl (by rw [exec_launch, execLaunch]) hin
    · exact engineAct_prologue h rfl (by rw [exec_tsig, execTsig]) hin

end Sys2Proof

/-! ## FENCE, PREF and LDA (R246, R247, R260 to R265) -/

namespace Sys2Proof

namespace Machine

theorem exec_fence (f s) : exec (.fence f) s = execFence f s := rfl
theorem exec_pref (f s) : exec (.pref f) s = execPref f s := rfl
theorem exec_prefU (f s) : exec (.prefU f) s = execPrefU f s := rfl

/-! ### What passed checks give -/

theorem noteTranslation_mem (s : State) (w : World) (places : List TlbPlace) (va : Nat) (leaf : BitVec 128) (pa : Nat)
    (staged : Bool) (shift shift1 : Nat) : (noteTranslation s w places va leaf pa staged shift shift1).mem = s.mem := by
  simp only [noteTranslation]
  split
  · rfl
  · split
    · rfl
    · split <;> rfl

/-- A part of n bytes has n places, and without a page to draw its check writes nothing. -/
def PartPassed (n : Nat) (draw : Bool) (part : PagePart) (s t : State) : Prop :=
  part.pas.length = n ∧ (draw = false → t.mem = s.mem)

theorem checkArena_passed {s t : State} {w x : World} {die n : Nat} {k : Access} {draw : Bool} {p : DWord}
    {part : PagePart} (h : checkArena s w die k draw p n = .ok part t x) : PartPassed n draw part s t := by
  simp only [checkArena] at h
  split at h
  · cases h
  split at h
  · cases h
  split at h
  · cases h
  split at h
  · cases h
  split at h
  · cases h
    exact ⟨by simp, fun _ => rfl⟩
  split at h
  · next hdraw =>
    split at h
    · cases h
    · cases h
      exact ⟨by simp, fun hd => absurd (hdraw.symm.trans hd) Bool.noConfusion⟩
  · cases h

theorem checkPlain_passed {s t : State} {w x : World} {party : Party} {die size n : Nat} {k : Access} {p : DWord}
    {part : PagePart} (draw : Bool) (h : checkPlain s w party die k size p n = .ok part t x) :
    PartPassed n draw part s t := by
  simp only [checkPlain] at h
  (repeat' split at h) <;> cases h <;> exact ⟨by simp, fun _ => noteTranslation_mem _ _ _ _ _ _ _ _ _⟩

theorem checkPart_passed {s t : State} {w x : World} {party : Party} {die size n : Nat} {k : Access} {draw : Bool}
    {p : DWord} {part : PagePart} (h : checkPart s w party die k draw size p n = .ok part t x) :
    PartPassed n draw part s t := by
  rw [checkPart] at h
  split at h
  · exact checkPlain_passed draw h
  · exact checkArena_passed h

/-- The parts that have passed are those that were asked for, each with a place for each byte. -/
theorem checkParts_passed {party : Party} {die size : Nat} {k : Access} {draw : Bool} (l : List (Nat × DWord × Nat))
    {s t : State} {w x : World} {parts : List (Nat × DWord × PagePart)}
    (h : checkParts party die k draw size l s w = .ok parts t x) :
    parts.map (fun y => (y.1, y.2.1, y.2.2.pas.length)) = l ∧ (draw = false → t.mem = s.mem) := by
  induction l generalizing s w parts with
  | nil =>
    cases h
    exact ⟨rfl, fun _ => rfl⟩
  | cons a l ih =>
    obtain ⟨off, p, n⟩ := a
    simp only [checkParts] at h
    split at h
    · cases h
    · next hpart =>
      split at h
      · cases h
      · next hrest =>
        cases h
        obtain ⟨hlen, hmem⟩ := checkPart_passed hpart
        obtain ⟨hparts, hmems⟩ := ih hrest
        exact ⟨by rw [List.map_cons, hparts, hlen], fun hd => (hmems hd).trans (hmem hd)⟩

/-! ### FENCE and PREF -/

theorem acquireDone_eq (ord scope : Nat) (s : State) :
    acquireDone ord scope s = { s with l1 := (acquireDone ord scope s).l1 } := by
  rw [acquireDone]
  split <;> rfl

theorem fence_waits (f : FenceF) (s : State) :
    (fenceHeld s (attOf f.att) = true → exec (.fence f) s = .next (waitFor .order s))
    ∧ (fenceHeld s (attOf f.att) = false → Completes (.fence f) s fun t =>
        WentOn (wordCount (.fence f)) s t ∧ OnlyMoved { s with l1 := t.l1 } t
          ∧ ((attOf f.att).ord.getLsbD 0 = true → 2 ≤ (attOf f.att).scope.toNat → ∀ x ∈ t.l1, x.core ≠ s.blk.core)) := by
  refine ⟨fun hheld => ?_, fun hfree => ?_⟩
  · rw [exec_fence, execFence]
    exact if_pos hheld
  · let u := acquireDone (if (attOf f.att).ord.getLsbD 0 then 1 else 0) (attOf f.att).scope.toNat s
    have hexec : exec (.fence f) s = finish (.fence f) u := by
      rw [exec_fence, execFence]
      exact if_neg (by rw [hfree]; exact Bool.false_ne_true)
    have hu : u = { s with l1 := u.l1 } := acquireDone_eq _ _ s
    have hmoved := advance_onlyMoved (formSize (.fence f)) u
    refine ⟨_, hexec, ?_, ?_, fun hord hscope => ?_⟩
    · rw [wordCount_of_form rfl]
      exact advance_wentOn _ (by rw [hu]) (by rw [hu])
    · rw [OnlyMoved, hmoved, hu]
      rfl
    · rw [hmoved]
      change ∀ x ∈ u.l1, x.core ≠ s.blk.core
      rw [show u = l1Clear s.blk.core s from if_pos ⟨.inl (if_pos hord), hscope⟩]
      exact fun x hx => of_decide_eq_true (List.mem_filter.mp hx).2

/-- Memory and the strand stay. -/
def QuietAt (s t : State) : Prop := t.mem = s.mem ∧ t.st = s.st

theorem QuietAt.trans {s t u : State} (h : QuietAt s t) (k : QuietAt t u) : QuietAt s u :=
  ⟨k.1.trans h.1, k.2.trans h.2⟩

theorem foldl_quiet {α : Type} {f : State → α → State} (hstep : ∀ s a, QuietAt s (f s a)) (l : List α) (s : State) :
    QuietAt s (l.foldl f s) :=
  foldl_related (r := QuietAt) (fun _ => ⟨rfl, rfl⟩) QuietAt.trans hstep l s

theorem l1Fill_quiet (core line : Nat) (s : State) : QuietAt s (l1Fill core line s) := ⟨rfl, rfl⟩

theorem prefLane_quiet (l1 : Bool) (p : DWord) (s : State) : QuietAt s (prefLane l1 p s) := by
  rw [prefLane]
  split
  · next hcheck =>
    have hmem := (checkParts_passed _ hcheck).2 rfl
    have hst := (checkAccess_translated hcheck).focus.1
    split
    · exact QuietAt.trans ⟨hmem, hst⟩ (foldl_quiet (fun s l => l1Fill_quiet s.blk.core l s) _ _)
    · exact ⟨hmem, hst⟩
  · exact ⟨rfl, rfl⟩

/-- A prefetch none of whose lanes faults leaves memory and registers. -/
theorem prefetch_completes {i : Instr} {f : Form} {uni l1 : Bool} {lanes : List Nat} {addr : Nat → DWord} {s : State}
    (hform : form i = some f) (hexec : exec i s = prefetch f uni l1 lanes addr s)
    (hclean : ∀ k ∈ lanes, prefFaults (addr k) s = false) :
    Completes i s fun t => WentOn (wordCount i) s t ∧ t.mem = s.mem ∧ t.st = s.st.moved t.st := by
  have hnone : lanes.filter (fun k => prefFaults (addr k) s) = [] :=
    List.filter_eq_nil_iff.mpr fun k hk => by simp [hclean k hk]
  obtain ⟨hmem, hst⟩ := foldl_quiet (fun s k => prefLane_quiet l1 (addr k) s) lanes s
  rw [prefetch, hnone] at hexec
  have hmoved := advance_onlyMoved (formSize f) (lanes.foldl (fun s k => prefLane l1 (addr k) s) s)
  refine ⟨_, hexec, ?_, ?_, ?_⟩
  · rw [wordCount_of_form hform]
    exact advance_wentOn _ (by rw [hst]) (by rw [hst])
  · rw [hmoved]
    exact hmem
  · rw [hmoved, hst]
    rfl

/-! ### LDA -/

/-- The lanes whose targets lie outside the scratchpad allotment. -/
def ldaOutside (f : LdaF) (s : State) : List Nat :=
  (lanesOf (s.st.mget 0)).filter fun i => decide (s.scratchLimit < ldaTarget s f i + 4 * 2 ^ f.lsz.toNat)

/-- The checks of the attempt at hand. -/
def ldaChecks (f : LdaF) (s : State) : List LaneAcc × List (Nat × FaultInfo) × State :=
  ldaLanes (ldaReq f s) (ldaValid s f) (lanesLeft (ldaReq f s) s) s

/-- Has a load taken the data of an outstanding store to the source bytes? -/
def ldaBehind (f : LdaF) (s : State) : Bool := seenOut s fun p => (ldaChecks f s).1.any fun a => a.pas.contains p

/-- The operation that an attempt issues. -/
def ldaOp (f : LdaF) (s : State) : Op :=
  { opOf (ldaReq f s) (ldaChecks f s).1 s with tag := f.tag.toNat, collapsed := decide ((ldaChecks f s).2.1 = []) }

/-- What LDA does outside the prologue. -/
theorem exec_lda_runs {f : LdaF} {s : State} (h : NoReadError (.lda f) s) (hout : s.prologue = false) :
    exec (.lda f) s =
      match ldaOutside f s with
      | i :: t => deliver ⟨0x40, 0, BitVec.ofNat 64 (ldaTarget s f i), 0, 0, maskOf (i :: t)⟩ s
      | [] =>
        match fatal false (ldaChecks f s).2.1 with
        | some x => deliver x s
        | none =>
          if ldaBehind f s then .next (waitFor .order s)
          else afterAttempt (.lda f) false (ldaChecks f s).2.1 (addOp (ldaOp f s) (ldaChecks f s).2.2) := by
  have hempty : ∀ l : List (Nat × FaultInfo), l.isEmpty = decide (l = []) := fun l => by cases l <;> rfl
  rw [exec_lda, execLda, guarded_noError h rfl, if_neg (by rw [hout]; exact Bool.false_ne_true)]
  simp only [hempty]
  rfl

theorem partsOf_ne_nil (p : DWord) {n : Nat} (fuel : Nat) (h : 0 < n) :
    ∃ len l, partsOf p n (fuel + 1) 0 = (0, p + BitVec.ofNat 64 0, len) :: l ∧ 0 < len := by
  have hfield : field (p + BitVec.ofNat 64 0) 0 16 < 65536 := Nat.mod_lt _ (by norm_num)
  rw [partsOf, if_pos h]
  exact ⟨_, _, rfl, by omega⟩

theorem unitBytes_pos (n : Nat) (a : DWord) : 0 < unitBytes n a := by
  rw [unitBytes]
  split
  · omega
  · split <;> omega

theorem laneUnits_ne_nil (r : MemReq) (lane : Nat) {x : Nat × DWord × PagePart} (h : 0 < x.2.2.pas.length) :
    laneUnits r lane x ≠ [] := by
  have hunit : 0 < if r.what = .promote then 1 else unitBytes x.2.2.pas.length x.2.1 := by
    split
    · exact Nat.one_pos
    · exact unitBytes_pos _ _
  rw [laneUnits, ne_eq, List.map_eq_nil_iff, List.range_eq_nil, ceilDiv, Nat.div_eq_zero_iff]
  omega

theorem checkLane_ok {r : MemReq} {lane : Nat} {s t : State} {x : World} {parts : List (Nat × DWord × PagePart)}
    (h : checkLane r lane s = .ok parts t x) :
    checkAccess s s.wld .strand (dieOf s.blk.core) r.kind true (r.addr lane) r.size = .ok parts t x := by
  simp only [checkLane] at h
  split at h
  · cases h
  · split at h
    · cases h
    · next hcheck =>
      split at h
      · cases h
      · cases h
        exact hcheck

/-- A lane whose checks have passed has a unit. -/
theorem checkLane_units {r : MemReq} {lane : Nat} {s t : State} {x : World} {parts : List (Nat × DWord × PagePart)}
    (h : checkLane r lane s = .ok parts t x) (hsize : 0 < r.size) (q : MemReq) :
    parts.flatMap (laneUnits q lane) ≠ [] := by
  obtain ⟨hparts, -⟩ := checkParts_passed _ (checkLane_ok h)
  obtain ⟨len, l, hl, hlen⟩ := partsOf_ne_nil (r.addr lane) (r.size / 65536 + 1) hsize
  rw [hl] at hparts
  cases parts with
  | nil => cases hparts
  | cons y parts =>
    rw [List.map_cons, List.cons.injEq, Prod.mk.injEq, Prod.mk.injEq] at hparts
    obtain ⟨⟨-, -, hy⟩, -⟩ := hparts
    rw [List.flatMap_cons]
    exact fun hnil => laneUnits_ne_nil q lane (hy ▸ hlen) (List.append_eq_nil_iff.mp hnil).1

/-- Where no lane has failed, each lane of an attempt has a unit. -/
theorem ldaLanes_units {r : MemReq} {valid : Nat → Nat} {i : Nat} {l : List Nat} {s : State}
    (h : (ldaLanes r valid (i :: l) s).2.1 = []) : (ldaLanes r valid (i :: l) s).1 ≠ [] := by
  rw [ldaLanes] at h ⊢
  split
  · simp
  · next hvalid =>
    rw [if_neg hvalid] at h
    split at h
    · cases h
    · next hlane =>
      exact fun hnil => checkLane_units hlane (Nat.pos_of_ne_zero hvalid) r (List.append_eq_nil_iff.mp hnil).1

/-- The tag counts an LDA whose every lane has passed (R260). -/
theorem tagOut_counts {f : LdaF} {s : State} {o : Op} (hwhat : o.what = .lda) (htag : o.tag = f.tag.toNat)
    (hcollapsed : o.collapsed = true) (hlanes : o.lanes ≠ []) (hfirst : s.st.attempt = none) {t : Strand}
    (hops : JoinedOps o s.st t.ops) : tagOut t f.tag.toNat = tagOut s.st f.tag.toNat + 1 := by
  rw [tagOut, hops.2.1 hlanes (.inl hfirst), List.filter_append, List.length_append]
  simp [tagOut, hwhat, htag, hcollapsed]

theorem lda_issues {f : LdaF} {s : State} (h : NoReadError (.lda f) s) (hout : s.prologue = false)
    (hinside : ldaOutside f s = []) (hpassed : (ldaChecks f s).2.1 = []) (hfree : ldaBehind f s = false) :
    Completes (.lda f) s fun t => WentOn (wordCount (.lda f)) s t ∧ Issued (ldaOp f s) s (ldaChecks f s).2.2 t
      ∧ (lanesOf (s.st.mget 0) ≠ [] → s.st.attempt = none →
          tagOut t.st f.tag.toNat = tagOut s.st f.tag.toNat + 1) := by
  have hexec := exec_lda_runs h hout
  rw [hinside, hpassed, hfree] at hexec
  obtain ⟨t, ht, hwent, hissued, hjoined⟩ :=
    finish_addOp rfl (ldaLanes_translated (ldaReq f s) (ldaValid s f) _ s).focus.1 (hexec.trans rfl)
  refine ⟨t, ht, hwent, ⟨hissued, hjoined⟩, fun hlanes hfirst => ?_⟩
  refine tagOut_counts rfl rfl (decide_eq_true hpassed) ?_ hfirst hjoined
  obtain ⟨i, l, hl⟩ := List.exists_cons_of_ne_nil hlanes
  have hleft : lanesLeft (ldaReq f s) s = i :: l := by
    rw [lanesLeft, hfirst]
    exact hl
  change (ldaChecks f s).1 ≠ []
  rw [ldaChecks, hleft] at hpassed ⊢
  exact ldaLanes_units hpassed

end Machine

open Machine

/-- Settles O25: the bounds of the lanes, then the attempt as a load's. -/
theorem ldaIssues : Obligations.LdaIssues := by
  intro f s h hout r lanes outside c behind o
  have hexec := exec_lda_runs h hout
  obtain ⟨hst, -, hgrd⟩ := (ldaLanes_translated (ldaReq f s) (ldaValid s f) (lanesLeft (ldaReq f s) s) s).focus
  have hreplayed : (∀ y ∈ c.2.1, replayable y.2.code = true) → fatal false (ldaChecks f s).2.1 = none := fatal_none
  refine ⟨lda_issues h hout, fun hinside l lane x q hfailed hfirst => ?_, fun hinside hreplay => ⟨?_, ?_⟩,
    fun i q hoff => ?_⟩
  · replace hinside : ldaOutside f s = [] := hinside
    replace hfailed : (ldaChecks f s).2.1 = l ++ (lane, x) :: q := hfailed
    have hfatal := fatal_first (uni := false) (q := q) (hfailed ▸ hfirst)
    rw [hinside, hfailed, hfatal] at hexec
    rw [hexec, ← hfailed]
    rfl
  · intro hbehind
    rw [hexec, show ldaOutside f s = [] from hinside, hreplayed hreplay]
    exact if_pos hbehind
  · intro hfree
    refine afterAttempt_parks (f := .lda f) ?_ hst hgrd
    rw [hexec, show ldaOutside f s = [] from hinside, hreplayed hreplay]
    exact if_neg (by rw [Bool.not_eq_true]; exact hfree)
  · rw [hexec, show ldaOutside f s = i :: q from hoff, hoff]

/-- Settles O24: FENCE by what it waits for, and PREF by what its lanes leave. -/
theorem fenceAndPrefetch : Obligations.FenceAndPrefetch := by
  refine ⟨fence_waits, fun f s h hclean => ?_, fun f s h hclean => ?_⟩
  · refine prefetch_completes (f := .memV 0xA9 f) (uni := false) (l1 := f.sz = 0) rfl ?_ hclean
    rw [exec_pref, execPref, guarded_noError h rfl]
  · refine prefetch_completes (f := .memU 0xAA f) (uni := true) (l1 := f.sz = 0) (lanes := [0]) (addr := fun _ => deviceAddrU s f) rfl ?_
      (fun _ _ => hclean)
    rw [exec_prefU, execPrefU, guarded_noError h rfl]

end Sys2Proof

/-! ## Bytes in order and in memory (R4) -/

namespace Sys2Proof

namespace Machine

theorem nth_eq_getElem {α : Type} (d : α) (l : List α) (n : Nat) (h : n < l.length) : nth d l n = l[n] := by
  induction l generalizing n with
  | nil => cases h
  | cons x l ih =>
    cases n with
    | zero => rfl
    | succ n => exact ih n (Nat.lt_of_succ_lt_succ h)

@[simp] theorem length_leBytes (n x : Nat) : (leBytes n x).length = n := by
  induction n generalizing x with
  | zero => rfl
  | succ n ih => rw [leBytes, List.length_cons, ih]

/-- The value of n bytes is that of their number modulo 256^n. -/
theorem leNat_leBytes (n x : Nat) : leNat (leBytes n x) = x % 256 ^ n := by
  induction n generalizing x with
  | zero => rw [leBytes, leNat, pow_zero, Nat.mod_one]
  | succ n ih =>
    rw [leBytes, leNat, ih, pow_succ', Nat.mod_mul, BitVec.toNat_ofNat]

theorem leNat_lt (l : List Byte) : leNat l < 256 ^ l.length := by
  induction l with
  | nil => decide
  | cons b l ih =>
    have hb := b.isLt
    rw [leNat, List.length_cons, pow_succ']
    omega

/-- The bytes of the value of a list are the list. -/
theorem leBytes_leNat (l : List Byte) : leBytes l.length (leNat l) = l := by
  induction l with
  | nil => rfl
  | cons b l ih =>
    have hb := b.isLt
    have hlow : BitVec.ofNat 8 (b.toNat + 256 * leNat l) = b := by
      apply BitVec.eq_of_toNat_eq
      rw [BitVec.toNat_ofNat]
      omega
    have hhigh : (b.toNat + 256 * leNat l) / 256 = leNat l := by omega
    rw [List.length_cons, leNat, leBytes, hlow, hhigh, ih]

theorem readBytes_eq_map (m : Memory) (a n : Nat) :
    Memory.readBytes m a n = (List.range n).map fun i => Memory.read m (a + i) := by
  induction n generalizing a with
  | zero => rfl
  | succ n ih =>
    rw [Memory.readBytes, ih, List.range_succ_eq_map, List.map_cons, List.map_map]
    congr 1
    refine List.map_congr_left fun i _ => ?_
    rw [Function.comp_apply, Nat.succ_eq_add_one]
    congr 1
    omega

/-- A byte after bytes have been written: theirs at their places, and the old one elsewhere. -/
theorem read_writeBytes (l : List Byte) {m : Memory} (hw : Memory.wf m = true) (a x : Nat) :
    Memory.read (Memory.writeBytes m a l) x
      = if a ≤ x ∧ x < a + l.length then nth 0#8 l (x - a) else Memory.read m x := by
  induction l generalizing m a with
  | nil => rw [Memory.writeBytes, if_neg (by rw [List.length_nil]; omega)]
  | cons b l ih =>
    rw [Memory.writeBytes, ih (Memory.wf_write m a b hw), Memory.read_write m a x b hw, List.length_cons]
    by_cases hx : x = a
    · subst hx
      rw [if_neg (by omega), if_pos rfl, if_pos (by omega), Nat.sub_self, nth]
    · by_cases hin : a ≤ x ∧ x < a + (l.length + 1)
      · rw [if_pos (by omega), if_pos hin, show x - a = (x - (a + 1)) + 1 from by omega, nth]
      · rw [if_neg (by omega), if_neg hx, if_neg hin]

/-- What is read of bytes that have been written. -/
theorem readBytes_writeBytes (l : List Byte) {m : Memory} (hw : Memory.wf m = true) (a k n : Nat)
    (h : k + n ≤ l.length) : Memory.readBytes (Memory.writeBytes m a l) (a + k) n = (l.drop k).take n := by
  rw [readBytes_eq_map]
  refine List.ext_getElem (by rw [List.length_map, List.length_range, List.length_take, List.length_drop]; omega) ?_
  intro i hi hj
  rw [List.length_map, List.length_range] at hi
  rw [List.getElem_map, List.getElem_range, read_writeBytes l hw, if_pos (by omega), List.getElem_take,
    List.getElem_drop, show a + k + i - a = k + i from by omega]
  exact nth_eq_getElem _ _ _ _

/-! ### Byte barriers (R282 to R285) -/

/-- What BBINIT and BBINV do outside the prologue. -/
theorem barrierAct_runs {i : Instr} {f : Form} {a : Opnd} {row : Nat → Block → Block} {s : State} (h : NoReadError i s)
    (hform : form i = some f) (hexec : exec i s = barrierAct f a row s) (hout : s.prologue = false) : exec i s =
      (let p := (s.arg a).toNat / 16 * 16
      if p + 16 > s.scratchLimit then deliver (faultAt 0x40 (BitVec.ofNat 64 p)) s
      else if scratchBusy s || halfStored s p then .next (waitFor .order s)
      else finish f (pokeBlock ⟨s.st.grid, s.st.block⟩ { s with blk := row p s.blk })) := by
  rw [barrierAct] at hexec
  exact engineAct_runs h hform hexec hout

theorem barrierAct_outside {i : Instr} {f : Form} {a : Opnd} {row : Nat → Block → Block} {s : State}
    (h : NoReadError i s) (hform : form i = some f) (hexec : exec i s = barrierAct f a row s) (hout : s.prologue = false)
    (hp : s.scratchLimit < (s.arg a).toNat / 16 * 16 + 16) :
    exec i s = deliver ⟨0x40, 0, BitVec.ofNat 64 ((s.arg a).toNat / 16 * 16), 0, 0, 0⟩ s := by
  rw [barrierAct_runs h hform hexec hout]
  exact if_pos hp

theorem barrierAct_waits {i : Instr} {f : Form} {a : Opnd} {row : Nat → Block → Block} {s : State} (h : NoReadError i s)
    (hform : form i = some f) (hexec : exec i s = barrierAct f a row s) (hout : s.prologue = false)
    (hp : (s.arg a).toNat / 16 * 16 + 16 ≤ s.scratchLimit)
    (hbusy : scratchBusy s = true ∨ halfStored s ((s.arg a).toNat / 16 * 16) = true) :
    exec i s = .next (waitFor .order s) := by
  rw [barrierAct_runs h hform hexec hout]
  exact (if_neg (not_lt.mpr hp)).trans (if_pos (by simpa using hbusy))

theorem pokeBlock_st {b : BlockRef} {s : State} : (pokeBlock b s).st.pc = s.st.pc ∧ (pokeBlock b s).st.clause = s.st.clause := by
  have h := (pokeBlock_wakes b s).2.1.1
  rw [h]
  exact ⟨rfl, rfl⟩

/-- A barrier's row is performed on the block, and the instruction goes on. -/
theorem barrierAct_performs {i : Instr} {f : Form} {a : Opnd} {row : Nat → Block → Block} {s : State}
    (h : NoReadError i s) (hform : form i = some f) (hexec : exec i s = barrierAct f a row s) (hout : s.prologue = false)
    (hp : (s.arg a).toNat / 16 * 16 + 16 ≤ s.scratchLimit) (hbusy : scratchBusy s = false)
    (hhalf : halfStored s ((s.arg a).toNat / 16 * 16) = false) : Completes i s fun t =>
      t.mem = s.mem ∧ WentOn (wordCount i) s t ∧ t.blk.scratch = (row ((s.arg a).toNat / 16 * 16) s.blk).scratch
        ∧ t.blk.armed = (row ((s.arg a).toNat / 16 * 16) s.blk).armed := by
  have hfree : ¬ (scratchBusy s || halfStored s ((s.arg a).toNat / 16 * 16)) = true := by simp [hbusy, hhalf]
  have hrun := (barrierAct_runs h hform hexec hout).trans ((if_neg (not_lt.mpr hp)).trans (if_neg hfree))
  let u : State := { s with blk := row ((s.arg a).toNat / 16 * 16) s.blk }
  have hpoke := pokeBlock_wakes ⟨s.st.grid, s.st.block⟩ u
  have hmoved := advance_onlyMoved (formSize f) (pokeBlock ⟨s.st.grid, s.st.block⟩ u)
  obtain ⟨hpc, hclause⟩ := pokeBlock_st (b := ⟨s.st.grid, s.st.block⟩) (s := u)
  refine ⟨_, hrun, ?_, ?_, ?_⟩
  · rw [hmoved]
    exact hpoke.mem
  · rw [wordCount_of_form hform]
    exact advance_wentOn _ hpc (by rw [hclause])
  · rw [hmoved]
    have hblk := hpoke.2.2.1.1
    change (pokeBlock ⟨s.st.grid, s.st.block⟩ u).blk.scratch = u.blk.scratch
      ∧ (pokeBlock ⟨s.st.grid, s.st.block⟩ u).blk.armed = u.blk.armed
    rw [hblk]
    exact ⟨rfl, rfl⟩

/-- The 16 bytes that BBINIT writes (R284). -/
def barrierBytes (e : Word) (phase armid : Nat) : List Byte :=
  leBytes 4 e.toNat ++ leBytes 4 0 ++ leBytes 4 phase ++ leBytes 2 armid ++ [if e = 0 then 2#8 else 1#8, 0#8]

theorem bbinitRow_scratch (e : Word) (p : Nat) (b : Block) : (bbinitRow e p b).scratch
    = Memory.writeBytes b.scratch p (barrierBytes e (b.scratchNat (p + 8) 4 + (if e = 0 then 1 else 0))
        ((b.scratchNat (p + 12) 2 + 1) % 65536)) := rfl

theorem bbinitRow_armed (e : Word) (p : Nat) (b : Block) : p / 16 ∈ (bbinitRow e p b).armed := by
  change p / 16 ∈ insertNew (p / 16) b.armed
  rw [insertNew]
  split
  · assumption
  · exact List.mem_cons_self

/-- The fields of a barrier after its 16 bytes have been written. -/
theorem barrierFields_written {b c : Block} {p phase armid : Nat} {e : Word} (hw : Memory.wf b.scratch = true)
    (hc : c.scratch = Memory.writeBytes b.scratch p (barrierBytes e phase armid)) : barrierFields c p
      = [e.toNat, 0, phase % 2 ^ 32, armid % 2 ^ 16, if e = 0 then 2 else 1] := by
  have hread : ∀ k n, k + n ≤ 16 →
      c.scratchNat (p + k) n = leNat (((barrierBytes e phase armid).drop k).take n) := fun k n hkn => by
    rw [Block.scratchNat, hc, readBytes_writeBytes _ hw _ _ _ (by exact hkn)]
  have hexpected : c.scratchNat p 4 = e.toNat := by
    rw [← Nat.add_zero p, hread 0 4 (by omega)]
    exact (leNat_leBytes 4 e.toNat).trans (Nat.mod_eq_of_lt e.isLt)
  have hstate : c.scratchNat (p + 14) 1 = if e = 0 then 2 else 1 := by
    rw [hread 14 1 (by omega)]
    change leNat [if e = 0 then 2#8 else 1#8] = _
    split <;> rfl
  rw [barrierFields, hexpected, hstate, hread 4 4 (by omega), hread 8 4 (by omega), hread 12 2 (by omega)]
  rw [show leNat (((barrierBytes e phase armid).drop 4).take 4) = 0 from leNat_leBytes 4 0,
    show leNat (((barrierBytes e phase armid).drop 8).take 4) = phase % 2 ^ 32 from leNat_leBytes 4 phase,
    show leNat (((barrierBytes e phase armid).drop 12).take 2) = armid % 2 ^ 16 from leNat_leBytes 2 armid]

theorem bbinit_performs {a b : Opnd} {s : State} (h : NoReadError (.bbinit a b) s) (hout : s.prologue = false)
    (hp : (s.arg a).toNat / 16 * 16 + 16 ≤ s.scratchLimit) (hbusy : scratchBusy s = false)
    (hhalf : halfStored s ((s.arg a).toNat / 16 * 16) = false) (hw : Memory.wf s.blk.scratch = true) :
    let p := (s.arg a).toNat / 16 * 16
    Completes (.bbinit a b) s fun t =>
        let e := s.arg b
        t.mem = s.mem ∧ WentOn (wordCount (.bbinit a b)) s t
          ∧ barrierFields t.blk p = [e.toNat, 0, (s.blk.scratchNat (p + 8) 4 + if e = 0 then 1 else 0) % 2 ^ 32,
              (s.blk.scratchNat (p + 12) 2 + 1) % 2 ^ 16, if e = 0 then 2 else 1]
          ∧ p / 16 ∈ t.blk.armed
          ∧ ∀ x, (x < p ∨ p + 16 ≤ x) → t.blk.scratchAt x = s.blk.scratchAt x := by
  intro p
  obtain ⟨t, ht, hmem, hwent, hscratch, harmed⟩ :=
    barrierAct_performs h rfl (exec_bbinit a b s) hout hp hbusy hhalf
  refine ⟨t, ht, hmem, hwent, ?_, ?_, fun x hx => ?_⟩
  · rw [bbinitRow_scratch] at hscratch
    rw [barrierFields_written hw hscratch, show (65536 : Nat) = 2 ^ 16 from rfl, Nat.mod_mod]
  · rw [harmed]
    exact bbinitRow_armed _ _ _
  · rw [Block.scratchAt, hscratch, bbinitRow_scratch, read_writeBytes _ hw, if_neg]
    · rfl
    · change ¬ (p ≤ x ∧ x < p + 16)
      omega

theorem bbinvRow_armed {p : Nat} {b : Block} (hw : Memory.wf b.scratch = true) (h : p / 16 ∈ b.armed) :
    (bbinvRow p b).scratchAt (p + 14) = 0 ∧ p / 16 ∉ (bbinvRow p b).armed := by
  rw [bbinvRow, if_pos (List.contains_iff_mem.mpr h)]
  refine ⟨?_, ?_⟩
  · change Memory.read (Memory.writeBytes b.scratch (p + 14) [0#8]) (p + 14) = 0
    rw [read_writeBytes _ hw, if_pos ⟨le_rfl, Nat.lt_succ_self _⟩, Nat.sub_self]
    rfl
  · simp

theorem bbinvRow_disarmed {p : Nat} {b : Block} (h : p / 16 ∉ b.armed) : bbinvRow p b = b := by
  rw [bbinvRow, if_neg (fun hc => h (List.contains_iff_mem.mp hc))]

theorem bbinvRow_other {p x : Nat} {b : Block} (hw : Memory.wf b.scratch = true) (hx : x ≠ p + 14) :
    (bbinvRow p b).scratchAt x = b.scratchAt x := by
  rw [bbinvRow]
  split
  · change Memory.read (Memory.writeBytes b.scratch (p + 14) [0#8]) x = _
    rw [read_writeBytes _ hw, if_neg]
    · rfl
    · rw [List.length_singleton]
      omega
  · rfl

theorem bbinv_performs {a : Opnd} {s : State} (h : NoReadError (.bbinv a) s) (hout : s.prologue = false)
    (hp : (s.arg a).toNat / 16 * 16 + 16 ≤ s.scratchLimit) (hbusy : scratchBusy s = false)
    (hhalf : halfStored s ((s.arg a).toNat / 16 * 16) = false) (hw : Memory.wf s.blk.scratch = true) :
    let p := (s.arg a).toNat / 16 * 16
    Completes (.bbinv a) s fun t =>
        t.mem = s.mem ∧ WentOn (wordCount (.bbinv a)) s t
          ∧ (p / 16 ∈ s.blk.armed → t.blk.scratchAt (p + 14) = 0 ∧ p / 16 ∉ t.blk.armed)
          ∧ (p / 16 ∉ s.blk.armed → t.blk.scratch = s.blk.scratch ∧ t.blk.armed = s.blk.armed)
          ∧ ∀ x, x ≠ p + 14 → t.blk.scratchAt x = s.blk.scratchAt x := by
  intro p
  obtain ⟨t, ht, hmem, hwent, hscratch, harmed⟩ := barrierAct_performs h rfl (exec_bbinv a s) hout hp hbusy hhalf
  refine ⟨t, ht, hmem, hwent, fun hin => ?_, fun hin => ?_, fun x hx => ?_⟩
  · rw [Block.scratchAt, hscratch, harmed]
    exact bbinvRow_armed hw hin
  · rw [hscratch, harmed, bbinvRow_disarmed hin]
    exact ⟨rfl, rfl⟩
  · rw [Block.scratchAt, hscratch]
    exact bbinvRow_other hw hx

/-! ### TSIG (R342) -/

theorem Issued.of_st {o : Op} {s v u t : State} (h : Issued o s u t) (hst : v.st = s.st) : Issued o v u t := by
  rw [Issued, hst]
  exact h

/-- What TSIG does outside the prologue at an address whose checks have passed. -/
theorem exec_tsig_passed {p : BitVec 6} {b : Opnd} {s u : State} {w : World} {parts : List (Nat × DWord × PagePart)}
    (h : NoReadError (.tsig p b) s) (hout : s.prologue = false) (haligned : (s.st.sget64 p.toNat).toNat % 128 = 0)
    (hcheck : checkLane (tsigReq (s.st.sget64 p.toNat) (s.arg b)) 0 s = .ok parts u w) :
    exec (.tsig p b) s =
      (let r := tsigReq (s.st.sget64 p.toNat) (s.arg b)
      let v : State := { u with wld := w }
      if s.arg b = 0 then finish (.ctl 0xC7 0 (.s p) (some b)) v
      else if soBlocked v true (tsigUnits r parts) then .next (waitFor .order v)
      else finish (.ctl 0xC7 0 (.s p) (some b)) (addOp (opOf r (tsigUnits r parts) v) v)) := by
  rw [engineAct_runs h (f := .ctl 0xC7 0 (.s p) (some b)) rfl (by rw [exec_tsig, execTsig]) hout]
  simp only [haligned, hcheck, ne_eq, not_true_eq_false, if_false]

theorem tsig_misaligned {p : BitVec 6} {b : Opnd} {s : State} (h : NoReadError (.tsig p b) s) (hout : s.prologue = false)
    (ha : (s.st.sget64 p.toNat).toNat % 128 ≠ 0) :
    exec (.tsig p b) s = deliver ⟨0x02, 0, s.st.sget64 p.toNat, 0, 0, 0⟩ s := by
  rw [engineAct_runs h (f := .ctl 0xC7 0 (.s p) (some b)) rfl (by rw [exec_tsig, execTsig]) hout]
  exact if_pos ha

end Machine

open Machine

/-- Settles O28: BBINIT and BBINV by their bounds, their waits and their rows. -/
theorem byteBarriers : Obligations.ByteBarriers := by
  intro a s hout p
  refine ⟨fun hp hbusy => ⟨fun b h => ?_, fun h => ?_⟩, fun hp hbusy hhalf hw => ⟨fun b h => ?_, fun h => ?_⟩,
    fun b h hp => ?_, fun h hp => ?_⟩
  · exact barrierAct_waits h rfl (exec_bbinit a b s) hout hp hbusy
  · exact barrierAct_waits h rfl (exec_bbinv a s) hout hp hbusy
  · exact bbinit_performs h hout hp hbusy hhalf hw
  · exact bbinv_performs h hout hp hbusy hhalf hw
  · exact barrierAct_outside h rfl (exec_bbinit a b s) hout hp
  · exact barrierAct_outside h rfl (exec_bbinv a s) hout hp

/-- Settles O32: TSIG by its alignment, its count and its order. -/
theorem taskSignals : Obligations.TaskSignals := by
  intro p b s h hout va
  refine ⟨tsig_misaligned h hout, ?_⟩
  intro parts u w haligned hcheck hst v
  have hexec := exec_tsig_passed h hout haligned hcheck
  refine ⟨fun hzero => ?_, fun hcount hheld => ?_, fun hcount hfree => ?_⟩
  · refine ⟨_, hexec.trans (if_pos hzero), ?_, advance_onlyMoved _ _⟩
    rw [wordCount_of_form (f := .ctl 0xC7 0 (.s p) (some b)) rfl]
    exact advance_wentOn _ (congrArg Strand.pc hst) (by rw [← hst])
  · exact hexec.trans ((if_neg hcount).trans (if_pos hheld))
  · have hrun := hexec.trans ((if_neg hcount).trans (if_neg (by rw [Bool.not_eq_true]; exact hfree)))
    obtain ⟨t, ht, hwent, hissued⟩ := finish_addOp (u := v) rfl hst hrun
    exact ⟨t, ht, hwent, hissued.of_st hst⟩

end Sys2Proof

/-! ## Matrix instructions at issue (R158 to R171) -/

namespace Sys2Proof

namespace Machine

theorem exec_oclaim (o a s) : exec (.oclaim o a) s = execOclaim o a s := rfl
theorem exec_orel (o a s) : exec (.orel o a) s = execOrel o a s := rfl
theorem exec_olda (o a x s) : exec (.olda o a x) s = execOlda o a x s := rfl
theorem exec_oldw (o p x s) : exec (.oldw o p x) s = execOldw o p x s := rfl
theorem exec_mma (f s) : exec (.mma f) s = execMma f s := rfl
theorem exec_aclr (t s) : exec (.aclr t) s = execAclr t s := rfl
theorem exec_adrn (t a s) : exec (.adrn t a) s = execAdrn t a s := rfl
theorem exec_mtok (a s) : exec (.mtok a) s = execMtok a s := rfl
theorem exec_mwaitTok (s) : exec .mwaitTok s = execMwaitTok s := rfl
theorem exec_mwaitAll (s) : exec .mwaitAll s = execMwaitAll s := rfl

/-! ### Slots -/

theorem slot_setSlot (b : Block) (n k : Nat) (o : OSlot) :
    (b.setSlot n o).slot k = if k = n then o else b.slot k := by
  simp only [Block.slot, Block.setSlot, nth_put]

/-- Beside the slots and the queue of matrix operations, and but for the slots in `ns`, a block stays. -/
def BlockSlots (ns : List Nat) (b c : Block) : Prop :=
  c = { b with slots := c.slots, mops := c.mops, mseq := c.mseq } ∧ ∀ n, n ∉ ns → c.slot n = b.slot n

theorem BlockSlots.refl (ns : List Nat) (b : Block) : BlockSlots ns b b := ⟨rfl, fun _ _ => rfl⟩

theorem BlockSlots.trans {ns ms : List Nat} {b c d : Block} (h : BlockSlots ns b c) (k : BlockSlots ms c d) :
    BlockSlots (ns ++ ms) b d := by
  refine ⟨?_, fun n hn => ?_⟩
  · rw [k.1, h.1]
  · rw [List.mem_append, not_or] at hn
    rw [k.2 n hn.2, h.2 n hn.1]

theorem BlockSlots.mono {ns ms : List Nat} {b c : Block} (h : BlockSlots ns b c) (hsub : ∀ n ∈ ns, n ∈ ms) :
    BlockSlots ms b c :=
  ⟨h.1, fun n hn => h.2 n fun hin => hn (hsub n hin)⟩

theorem setSlot_slots (b : Block) (n : Nat) (o : OSlot) : BlockSlots [n] b (b.setSlot n o) :=
  ⟨rfl, fun k hk => by rw [slot_setSlot, if_neg (fun e => hk (by simp [e]))]⟩

/-- A run of slots takes one value. -/
theorem foldl_setSlot (o : OSlot) (l : List Nat) (b : Block) :
    let c := l.foldl (fun b k => b.setSlot k o) b
    BlockSlots l b c ∧ c.mops = b.mops ∧ ∀ k ∈ l, c.slot k = o := by
  induction l generalizing b with
  | nil => exact ⟨.refl _ _, rfl, fun k hk => by cases hk⟩
  | cons n l ih =>
    obtain ⟨honly, hmops, hset⟩ := ih (b.setSlot n o)
    refine ⟨(setSlot_slots b n o).trans honly, hmops, fun k hk => ?_⟩
    by_cases hin : k ∈ l
    · exact hset k hin
    · rw [List.mem_cons, or_iff_left hin] at hk
      exact (honly.2 k hin).trans (by rw [hk, slot_setSlot, if_pos rfl])

/-- Instruction i changes slots alone, and goes on. -/
theorem finish_slots {i : Instr} {f : Form} {ns : List Nat} {s u : State} (hform : form i = some f)
    (hexec : exec i s = finish f u) (hu : u = { s with blk := u.blk }) (hblk : BlockSlots ns s.blk u.blk) :
    Completes i s fun t => WentOn (wordCount i) s t ∧ OnlySlots ns s t ∧ t.blk = u.blk := by
  have hmoved := advance_onlyMoved (formSize f) u
  have hfocus : (advance (formSize f) u).blk = u.blk := by rw [hmoved]
  refine ⟨_, hexec, ?_, ⟨?_, ?_⟩, hfocus⟩
  · rw [wordCount_of_form hform]
    exact advance_wentOn _ (by rw [hu]) (by rw [hu])
  · rw [hfocus, ← hblk.1, hmoved, hu]
    rfl
  · rw [hfocus]
    exact hblk.2

/-! ### OCLAIM and OREL (R162) -/

theorem runOf_sorted (n k : Nat) : (runOf n k).Pairwise (· < ·) :=
  List.pairwise_map.mpr (List.pairwise_lt_range.imp fun h => Nat.add_lt_add_left h n)

/-- What OCLAIM and OREL share: the faults of a run, and a run of no slots. -/
def onRun (f : Form) (o : BitVec 6) (n : Nat) (s : State) (k : Out) : Out :=
  if !s.grd.twin then deliver (slotFault o.toNat) s
  else if n = 0 then finish f s
  else if o.toNat + n > s.slotLimit then deliver (slotFault (max o.toNat s.slotLimit)) s
  else k

theorem onRun_runs {f : Form} {o : BitVec 6} {n : Nat} {s : State} {k : Out} (htwin : s.grd.twin = true) (hn : n ≠ 0)
    (hin : o.toNat + n ≤ s.slotLimit) : onRun f o n s k = k := by
  rw [onRun, if_neg (by rw [htwin]; exact Bool.false_ne_true), if_neg hn, if_neg (not_lt.mpr hin)]

/-- The block after OCLAIM has claimed a run. -/
def claimed (run : List Nat) (b : Block) : Block := run.foldl (fun b k => b.setSlot k { OSlot.unclaimed with state := 1 }) b

theorem exec_oclaim_run {o : BitVec 6} {a : Opnd} {s : State} (h : NoReadError (.oclaim o a) s) :
    exec (.oclaim o a) s = onRun (.slot 0xD0 o a 0) o (s.arg a).toNat s
      (match (runOf o.toNat (s.arg a).toNat).find? (fun k => (s.blk.slot k).state ≠ 0) with
      | some k => deliver (slotFaultOf 0x45 k) s
      | none =>
        if (runOf o.toNat (s.arg a).toNat).any (fun k => (s.blk.slot k).releasing) then .next (waitFor .order s)
        else finish (.slot 0xD0 o a 0) { s with blk := claimed (runOf o.toNat (s.arg a).toNat) s.blk }) := by
  rw [exec_oclaim, execOclaim, guarded_noError (f := .slot 0xD0 o a 0) h rfl]
  rfl

theorem exec_orel_run {o : BitVec 6} {a : Opnd} {s : State} (h : NoReadError (.orel o a) s) :
    exec (.orel o a) s = onRun (.slot 0xD1 o a 0) o (s.arg a).toNat s
      (match (runOf o.toNat (s.arg a).toNat).find? (fun k => (s.blk.slot k).state = 0) with
      | some k => deliver (slotFault k) s
      | none => finish (.slot 0xD1 o a 0)
          ((((runOf o.toNat (s.arg a).toNat).flatMap (pairOf s.blk)).eraseDups).foldl (fun s k => releaseSlot k s) s)) := by
  rw [exec_orel, execOrel, guarded_noError (f := .slot 0xD1 o a 0) h rfl]
  rfl

/-- The faults of a run, and a run of no slots. -/
theorem onRun_ends {i : Instr} {f : Form} {o : BitVec 6} {n : Nat} {s : State} {k : Out} (hform : form i = some f)
    (hexec : exec i s = onRun f o n s k) :
    let named := fun (k : Nat) => exec i s = deliver ⟨0x42, 0, 0, 0, BitVec.ofNat 32 k, 0⟩ s
    (s.grd.twin = false → named o.toNat)
      ∧ (s.grd.twin = true → n = 0 → Completes i s fun t => WentOn (wordCount i) s t ∧ OnlyMoved s t)
      ∧ (s.grd.twin = true → n ≠ 0 → s.slotLimit < o.toNat + n → named (max o.toNat s.slotLimit)) := by
  refine ⟨fun htwin => ?_, fun htwin hn => ?_, fun htwin hn hout => ?_⟩
  · rw [hexec, onRun, htwin]
    rfl
  · refine finish_completes hform ?_
    rw [hexec, onRun, htwin]
    exact (if_neg Bool.false_ne_true).trans (if_pos hn)
  · rw [hexec, onRun, htwin]
    exact (if_neg Bool.false_ne_true).trans ((if_neg hn).trans (if_pos hout))

theorem oclaim_run {o : BitVec 6} {a : Opnd} {s : State} (h : NoReadError (.oclaim o a) s) (htwin : s.grd.twin = true)
    (hn : (s.arg a).toNat ≠ 0) (hin : o.toNat + (s.arg a).toNat ≤ s.slotLimit) :
    let run := (List.range (s.arg a).toNat).map (o.toNat + ·)
    ((∀ k ∈ run, (s.blk.slot k).state = 0 ∧ (s.blk.slot k).releasing = false) → Completes (.oclaim o a) s fun t =>
          WentOn (wordCount (.oclaim o a)) s t ∧ OnlySlots run s t ∧ t.blk.mops = s.blk.mops
            ∧ ∀ k ∈ run, t.blk.slot k = ⟨1, 0, 0, false, 0, 0, 0, [], [], false⟩)
    ∧ ((∀ k ∈ run, (s.blk.slot k).state = 0) → (∃ k ∈ run, (s.blk.slot k).releasing = true) →
          exec (.oclaim o a) s = .next (waitFor .order s))
    ∧ ∀ k ∈ run, (s.blk.slot k).state ≠ 0 → (∀ j ∈ run, j < k → (s.blk.slot j).state = 0) →
          exec (.oclaim o a) s = deliver ⟨0x45, 0, 0, 0, BitVec.ofNat 32 k, 0⟩ s := by
  intro run
  have hexec := (exec_oclaim_run h).trans (onRun_runs htwin hn hin)
  have hfree : (∀ k ∈ run, (s.blk.slot k).state = 0) → run.find? (fun k => (s.blk.slot k).state ≠ 0) = none :=
    fun hz => List.find?_eq_none.mpr fun k hk => by simp [hz k hk]
  rw [show runOf o.toNat (s.arg a).toNat = run from rfl] at hexec
  refine ⟨fun hclear => ?_, fun hz hreleasing => ?_, fun k hk hstate hbelow => ?_⟩
  · have hnot : run.any (fun k => (s.blk.slot k).releasing) = false :=
      List.any_eq_false.mpr fun k hk => by simp [(hclear k hk).2]
    rw [hfree fun k hk => (hclear k hk).1, hnot] at hexec
    obtain ⟨honly, hmops, hset⟩ := foldl_setSlot { OSlot.unclaimed with state := 1 } run s.blk
    obtain ⟨t, ht, hwent, hslots, hblk⟩ := finish_slots rfl (hexec.trans rfl) rfl honly
    exact ⟨t, ht, hwent, hslots, by rw [hblk]; exact hmops, fun k hk => by rw [hblk]; exact hset k hk⟩
  · rw [hfree hz, List.any_eq_true.mpr hreleasing] at hexec
    exact hexec
  · have hfirst := find?_lowest (p := fun k => decide ((s.blk.slot k).state ≠ 0)) (runOf_sorted _ _) hk (by simpa using hstate)
      (fun j hj hjk => by simpa using hbelow j hj hjk)
    rw [show runOf o.toNat (s.arg a).toNat = run from rfl] at hfirst
    rw [hfirst] at hexec
    exact hexec

theorem mem_pairOf (b : Block) (k : Nat) : k ∈ pairOf b k := by
  simp only [pairOf]
  split
  · exact List.mem_cons_self
  · split <;> exact List.mem_cons_self

/-- What the release of some slots leaves: they are unclaimed for naming, and their releases are queued. -/
theorem foldl_releaseSlot (l : List Nat) (s : State) :
    let u := l.foldl (fun s k => releaseSlot k s) s
    u = { s with blk := u.blk } ∧ BlockSlots l s.blk u.blk ∧ (∀ m ∈ s.blk.mops, m ∈ u.blk.mops)
      ∧ (∀ k, (s.blk.slot k).state = 0 ∧ (s.blk.slot k).releasing = true →
          (u.blk.slot k).state = 0 ∧ (u.blk.slot k).releasing = true)
      ∧ ∀ k ∈ l, ((u.blk.slot k).state = 0 ∧ (u.blk.slot k).releasing = true)
          ∧ ∃ m ∈ u.blk.mops, m.what = .orel k ∧ m.strand = s.st.idx := by
  induction l generalizing s with
  | nil => exact ⟨rfl, .refl _ _, fun m hm => hm, fun k hk => hk, fun k hk => by cases hk⟩
  | cons n l ih =>
    obtain ⟨hu, honly, hmops, hkept, hdone⟩ := ih (releaseSlot n s)
    have hone : BlockSlots [n] s.blk (releaseSlot n s).blk := by
      obtain ⟨-, hslots⟩ := setSlot_slots s.blk n { s.blk.slot n with state := 0, kind := 0, releasing := true }
      exact ⟨rfl, hslots⟩
    have hreleased : ∀ k, k = n ∨ ((s.blk.slot k).state = 0 ∧ (s.blk.slot k).releasing = true) →
        ((releaseSlot n s).blk.slot k).state = 0 ∧ ((releaseSlot n s).blk.slot k).releasing = true := fun k hk => by
      have hslot := slot_setSlot s.blk n k { s.blk.slot n with state := 0, kind := 0, releasing := true }
      change ((s.blk.setSlot n _).slot k).state = 0 ∧ ((s.blk.setSlot n _).slot k).releasing = true
      rw [hslot]
      split
      · exact ⟨rfl, rfl⟩
      · exact hk.resolve_left ‹_›
    refine ⟨hu, hone.trans honly, fun m hm => hmops m (List.mem_append_left _ hm), fun k hk =>
      hkept k (hreleased k (.inr hk)), fun k hk => ?_⟩
    rcases List.mem_cons.mp hk with rfl | hin
    · exact ⟨hkept k (hreleased k (.inl rfl)), _, hmops _ (List.mem_append_right _ (List.mem_singleton.mpr rfl)), rfl, rfl⟩
    · exact hdone k hin

theorem orel_run {o : BitVec 6} {a : Opnd} {s : State} (h : NoReadError (.orel o a) s) (htwin : s.grd.twin = true)
    (hn : (s.arg a).toNat ≠ 0) (hin : o.toNat + (s.arg a).toNat ≤ s.slotLimit) :
    let run := (List.range (s.arg a).toNat).map (o.toNat + ·)
    ((∀ k ∈ run, (s.blk.slot k).state ≠ 0) → Completes (.orel o a) s fun t =>
          WentOn (wordCount (.orel o a)) s t ∧ OnlySlots (run.flatMap (pairOf s.blk)) s t
            ∧ (∀ k ∈ run, k ∈ pairOf s.blk k)
            ∧ ∀ k ∈ run.flatMap (pairOf s.blk), (t.blk.slot k).state = 0 ∧ (t.blk.slot k).releasing = true
                ∧ ∃ m ∈ t.blk.mops, m.what = .orel k ∧ m.strand = s.st.idx)
    ∧ ∀ k ∈ run, (s.blk.slot k).state = 0 → (∀ j ∈ run, j < k → (s.blk.slot j).state ≠ 0) →
          exec (.orel o a) s = deliver ⟨0x42, 0, 0, 0, BitVec.ofNat 32 k, 0⟩ s := by
  intro run
  have hexec := (exec_orel_run h).trans (onRun_runs htwin hn hin)
  rw [show runOf o.toNat (s.arg a).toNat = run from rfl] at hexec
  refine ⟨fun hclaimed => ?_, fun k hk hstate hbelow => ?_⟩
  · rw [List.find?_eq_none.mpr (fun k hk => by simpa using hclaimed k hk)] at hexec
    obtain ⟨hu, honly, -, -, hdone⟩ := foldl_releaseSlot ((run.flatMap (pairOf s.blk)).eraseDups) s
    obtain ⟨t, ht, hwent, hslots, hblk⟩ :=
      finish_slots rfl (hexec.trans rfl) hu (honly.mono fun n hn => List.mem_eraseDups.mp hn)
    refine ⟨t, ht, hwent, hslots, fun k _ => mem_pairOf _ k, fun k hk => ?_⟩
    obtain ⟨⟨hstate, hreleasing⟩, hqueued⟩ := hdone k (List.mem_eraseDups.mpr hk)
    rw [hblk]
    exact ⟨hstate, hreleasing, hqueued⟩
  · have hfirst := find?_lowest (p := fun k => decide ((s.blk.slot k).state = 0)) (runOf_sorted _ _) hk (by simpa using hstate)
      (fun j hj hjk => by simpa using hbelow j hj hjk)
    rw [show runOf o.toNat (s.arg a).toNat = run from rfl] at hfirst
    rw [hfirst] at hexec
    exact hexec

end Machine

open Machine

/-- Settles O33: the faults of a run, then the claim and the release of its slots. -/
theorem slotRuns : Obligations.SlotRuns := by
  intro o a s n run
  refine ⟨fun i hi h => ?_, fun htwin hn hin => ⟨fun h => oclaim_run h htwin hn hin, fun h => orel_run h htwin hn hin⟩⟩
  rw [List.mem_cons, List.mem_singleton] at hi
  obtain rfl | rfl := hi
  · exact onRun_ends rfl (exec_oclaim_run h)
  · exact onRun_ends rfl (exec_orel_run h)

end Sys2Proof

/-! ### OLDA, OLDW, MMA, ACLR and ADRN at issue (R163 to R169) -/

namespace Sys2Proof

namespace Machine

/-- The operation that `addMOp` queues. -/
def newMOp (what : MWhat) (ends : DWord) (s : State) : MOp :=
  ⟨s.blk.mseq, s.st.idx, s.st.pc, what, false, ends, false, false, [], none, [], []⟩

theorem addMOp_blk (what : MWhat) (ends : DWord) (s : State) : (addMOp what ends s).blk =
    { s.blk with mops := s.blk.mops ++ [newMOp what ends s], mseq := s.blk.mseq + 1 } := rfl

/-- What is queued beside a change of slots. -/
theorem queued_of_blk {what : MWhat} {ends : DWord} {s t : State} {b : Block} (hb : b.mops = s.blk.mops)
    (hseq : b.mseq = s.blk.mseq) (ht : t.blk = (addMOp what ends { s with blk := b }).blk) : Queued what s t := by
  rw [addMOp_blk] at ht
  rw [Queued, ht]
  exact ⟨newMOp what ends { s with blk := b }, by rw [← hb], rfl, hseq, rfl, rfl, rfl, rfl, rfl, rfl, by rw [← hseq]⟩

/-- What an OLDA records of the slot n (R163). -/
def actSlot (x : BitVec 8) (kind : Nat) (b : Block) (n : Nat) : OSlot :=
  { b.slot n with
    state := 2, kind := kind, ks := x.toNat % 4, isSealed := false, loadop := x, va := 0, tensor := 0 }

/-- The block with the slots that an OLDA sets. -/
def oldaSet (o : BitVec 6) (x : BitVec 8) (loads : List Nat) (b : Block) : Block :=
  let c := b.setSlot o.toNat (actSlot x (if x.getLsbD 2 then 2 else 1) b o.toNat)
  if loads.length = 2 then c.setSlot (o.toNat + 1) (actSlot x 4 c (o.toNat + 1)) else c

theorem exec_olda_runs {o : BitVec 6} {a : Opnd} {x : BitVec 8} {s : State} (h : NoReadError (.olda o a x) s) :
    exec (.olda o a x) s =
      (let base := (s.arg a).toNat / 16 * 16
      let what : MWhat := .olda o.toNat x base
      match what.loads.find? (slotBad s) with
      | some n => deliver (slotFault n) s
      | none =>
        if base + actExtent x > s.scratchLimit then deliver (faultAt 0x40 (BitVec.ofNat 64 base)) s
        else finish (.slot 0xD2 o a x) (addMOp what 0 { s with blk := oldaSet o x what.loads s.blk })) := by
  rw [exec_olda, execOlda, guarded_noError (f := .slot 0xD2 o a x) h rfl]
  rfl

theorem olda_loads (o : Nat) (x : BitVec 8) (base : Nat) :
    MWhat.loads (.olda o x base) = if x = 2 then [o, o + 1] else [o] := rfl

theorem oldaSet_slots (o : BitVec 6) (x : BitVec 8) (base : Nat) (b : Block) :
    let loads := MWhat.loads (.olda o.toNat x base)
    BlockSlots loads b (oldaSet o x loads b) ∧ (oldaSet o x loads b).mops = b.mops
      ∧ (oldaSet o x loads b).mseq = b.mseq
      ∧ (oldaSet o x loads b).slot o.toNat = actSlot x (if x.getLsbD 2 then 2 else 1) b o.toNat := by
  intro loads
  have hfirst : BlockSlots [o.toNat] b (b.setSlot o.toNat (actSlot x (if x.getLsbD 2 then 2 else 1) b o.toNat)) :=
    setSlot_slots b _ _
  by_cases hx : x = 2
  · have hl : loads = [o.toNat, o.toNat + 1] := (olda_loads _ _ _).trans (if_pos hx)
    rw [hl, oldaSet]
    refine ⟨hfirst.trans (setSlot_slots _ _ _), rfl, rfl, ?_⟩
    exact (slot_setSlot _ _ _ _).trans
      ((if_neg (Nat.succ_ne_self _).symm).trans ((slot_setSlot _ _ _ _).trans (if_pos rfl)))
  · have hl : loads = [o.toNat] := (olda_loads _ _ _).trans (if_neg hx)
    rw [hl, oldaSet]
    exact ⟨hfirst, rfl, rfl, (slot_setSlot _ _ _ _).trans (if_pos rfl)⟩

theorem olda_issues {o : BitVec 6} {a : Opnd} {x : BitVec 8} {s : State} (h : NoReadError (.olda o a x) s) :
    let base := (s.arg a).toNat / 16 * 16
    let what : MWhat := .olda o.toNat x base
    let good := ∀ n ∈ what.loads, slotBad s n = false
    (∀ l n q, what.loads = l ++ n :: q → (∀ k ∈ l, slotBad s k = false) → slotBad s n = true →
      exec (.olda o a x) s = deliver ⟨0x42, 0, 0, 0, BitVec.ofNat 32 n, 0⟩ s)
    ∧ (good → s.scratchLimit < base + actExtent x →
      exec (.olda o a x) s = deliver ⟨0x40, 0, BitVec.ofNat 64 base, 0, 0, 0⟩ s)
    ∧ (good → base + actExtent x ≤ s.scratchLimit → Completes (.olda o a x) s fun t =>
      WentOn (wordCount (.olda o a x)) s t ∧ OnlySlots what.loads s t ∧ Queued what s t
        ∧ (t.blk.slot o.toNat).state = 2 ∧ (t.blk.slot o.toNat).kind = (if x.getLsbD 2 then 2 else 1)
        ∧ (t.blk.slot o.toNat).ks = x.toNat % 4) := by
  intro base what good
  have hexec := exec_olda_runs h
  have hnone : good → what.loads.find? (slotBad s) = none := fun hg =>
    List.find?_eq_none.mpr fun n hn => by simp [hg n hn]
  refine ⟨fun l n q hl hbefore hbad => ?_, fun hg hout => ?_, fun hg hin => ?_⟩
  · have hfind : what.loads.find? (slotBad s) = some n := by
      rw [hl]
      exact find?_first hbad hbefore
    simp only [show MWhat.olda o.toNat x ((s.arg a).toNat / 16 * 16) = what from rfl, hfind] at hexec
    exact hexec
  · simp only [show MWhat.olda o.toNat x ((s.arg a).toNat / 16 * 16) = what from rfl, hnone hg] at hexec
    exact hexec.trans (if_pos hout)
  · simp only [show MWhat.olda o.toNat x ((s.arg a).toNat / 16 * 16) = what from rfl, hnone hg] at hexec
    obtain ⟨honly, hmops, hseq, hslot⟩ := oldaSet_slots o x base s.blk
    obtain ⟨t, ht, hwent, hslots, hblk⟩ := finish_slots (ns := what.loads) rfl (hexec.trans (if_neg (not_lt.mpr hin))) rfl
      ⟨by rw [addMOp_blk, honly.1], honly.2⟩
    have hat : t.blk.slot o.toNat = actSlot x (if x.getLsbD 2 then 2 else 1) s.blk o.toNat := by
      rw [hblk, ← hslot]
      rfl
    refine ⟨t, ht, hwent, hslots, queued_of_blk hmops hseq hblk, ?_⟩
    rw [hat]
    exact ⟨rfl, rfl, rfl⟩

/-! ### OLDW (R164, R165) -/

/-- What an OLDW records of its slot at issue. -/
def weightSlot (x : BitVec 8) (va : DWord) (y : OSlot) : OSlot :=
  { y with state := 2, kind := 3, ks := x.toNat % 4, isSealed := false, loadop := x, va := va, tensor := 0 }

/-- The state in which an OLDW makes its checks. -/
def oldwQueued (o : BitVec 6) (x : BitVec 8) (va : DWord) (s : State) : State :=
  addMOp (.oldw o.toNat x va) 0 { s with blk := s.blk.setSlot o.toNat (weightSlot x va (s.blk.slot o.toNat)) }

theorem exec_oldw_first {o p : BitVec 6} {x : BitVec 8} {s : State} (h : NoReadError (.oldw o p x) s)
    (hfirst : parkedLoad s = none) : exec (.oldw o p x) s =
      if slotBad s o.toNat then deliver (slotFault o.toNat) s
      else oldwChecks (.slot 0xD3 o (.s p) x) (newMOp (.oldw o.toNat x (s.st.sget64 p.toNat)) 0 s) o.toNat x
        (s.st.sget64 p.toNat) (oldwQueued o x (s.st.sget64 p.toNat) s) := by
  have hlast : (oldwQueued o x (s.st.sget64 p.toNat) s).blk.mops.getLast?
      = some (newMOp (.oldw o.toNat x (s.st.sget64 p.toNat)) 0 s) := List.getLast?_concat
  rw [exec_oldw, execOldw, guarded_noError (f := .slot 0xD3 o (.s p) x) h rfl]
  dsimp only
  rw [hfirst]
  dsimp only
  rw [show addMOp (.oldw o.toNat x (s.st.sget64 p.toNat)) 0 { s with blk := s.blk.setSlot o.toNat { s.blk.slot o.toNat with
      state := 2, kind := 3, ks := x.toNat % 4, isSealed := false, loadop := x, va := s.st.sget64 p.toNat, tensor := 0 } }
    = oldwQueued o x (s.st.sget64 p.toNat) s from rfl, hlast]

/-- Steps 2 and 3 of R165 where the checks pass. -/
theorem oldwChecks_passed {f : Form} {m : MOp} {slot : Nat} {x : BitVec 8} {va : DWord} {v u : State} {w : World}
    {parts : List (Nat × DWord × PagePart)} {isSealed : Bool} {tensor : BitVec 32} {lanes : List LaneAcc}
    (hcheck : checkRuns (va &&& ~~~63#64) (weightRuns x) 0 v v.wld = .ok parts u w)
    (hparts : oldwParts w parts = some (isSealed, tensor, lanes)) : oldwChecks f m slot x va v =
      if seenOut { u with wld := w } ((allPas parts).contains ·) then
        .next (waitFor .order { u with wld := w, blk := u.blk.setMOp { m with parked := true } })
      else
        (let b := u.blk.setMOp { m with parked := false, parts := lanes }
        let b := if b.mops.any (fun l => l.seq > m.seq && l.what.loads.contains slot) then b
          else b.setSlot slot { b.slot slot with isSealed := isSealed, tensor := tensor }
        finish f { u with wld := w, blk := b }) := by
  simp only [oldwChecks, hcheck, hparts]

theorem mem_setMOp {b : Block} {m : MOp} (h : ∃ x ∈ b.mops, x.seq = m.seq) : m ∈ (b.setMOp m).mops := by
  obtain ⟨x, hx, hseq⟩ := h
  exact List.mem_map.mpr ⟨x, hx, if_pos (decide_eq_true hseq)⟩

/-- Where no later operation is queued, none of those after a change of one is later. -/
theorem setMOp_latest {b : Block} {m : MOp} (h : ∀ x ∈ b.mops, x.seq ≤ m.seq) (p : MOp → Bool) :
    (b.setMOp m).mops.any (fun l => decide (l.seq > m.seq) && p l) = false := by
  rw [List.any_eq_false]
  intro y hy
  obtain ⟨x, hx, rfl⟩ := List.mem_map.mp hy
  have hle : (if decide (x.seq = m.seq) = true then m else x).seq ≤ m.seq := by
    split
    · exact le_rfl
    · exact h x hx
  rw [Bool.not_eq_true, decide_eq_false (not_lt.mpr hle), Bool.false_and]

theorem oldw_issues {o p : BitVec 6} {x : BitVec 8} {s : State} (h : NoReadError (.oldw o p x) s)
    (hfirst : parkedLoad s = none) {u : State} {w : World} {parts : List (Nat × DWord × PagePart)} {tensor : BitVec 32}
    {isSealed : Bool} {lanes : List LaneAcc} (hgood : slotBad s o.toNat = false) (hlatest : ∀ m ∈ s.blk.mops, m.seq < s.blk.mseq) :
    let va := s.st.sget64 p.toNat
    let v := oldwQueued o x va s
    checkRuns (va &&& ~~~63#64) (weightRuns x) 0 v v.wld = .ok parts u w → u.blk = v.blk →
    oldwParts w parts = some (isSealed, tensor, lanes) →
    let behind := seenOut { u with wld := w } ((allPas parts).contains ·)
    let queued := fun (m : MOp) =>
      m.what = .oldw o.toNat x va ∧ m.strand = s.st.idx ∧ m.seq = s.blk.mseq ∧ m.got = [] ∧ m.put = []
    (behind = true → Completes (.oldw o p x) s fun t =>
      t.st = (waitFor .order u).st ∧ (∃ m ∈ t.blk.mops, queued m ∧ m.parked = true) ∧ t.mem = u.mem)
    ∧ (behind = false → Completes (.oldw o p x) s fun t =>
      t.blk.slot o.toNat = { weightSlot x va (s.blk.slot o.toNat) with isSealed := isSealed, tensor := tensor }
        ∧ (∃ m ∈ t.blk.mops, queued m ∧ m.parts = lanes ∧ m.parked = false)
        ∧ t.mem = u.mem) := by
  intro va v hcheck hblk hparts behind queued
  have hexec := exec_oldw_first h hfirst
  rw [if_neg (by rw [hgood]; exact Bool.false_ne_true), oldwChecks_passed hcheck hparts] at hexec
  have hthere : ∃ y ∈ u.blk.mops, y.seq = s.blk.mseq := by
    rw [hblk]
    exact ⟨_, List.mem_append_right _ (List.mem_singleton.mpr rfl), rfl⟩
  have hseq : ∀ y ∈ u.blk.mops, y.seq ≤ s.blk.mseq := fun y hy => by
    rw [hblk] at hy
    rcases List.mem_append.mp hy with hy | hy
    · exact (hlatest y hy).le
    · exact (congrArg MOp.seq (List.mem_singleton.mp hy)).le
  constructor
  · intro hbehind
    exact ⟨_, hexec.trans (if_pos hbehind), rfl, ⟨_, mem_setMOp hthere, ⟨rfl, rfl, rfl, rfl, rfl⟩, rfl⟩, rfl⟩
  · intro hfree
    replace hexec := hexec.trans (if_neg (by rw [Bool.not_eq_true]; exact hfree))
    have hmem := mem_setMOp (b := u.blk)
      (m := { newMOp (.oldw o.toNat x va) 0 s with parked := false, parts := lanes }) hthere
    have hlate := setMOp_latest (b := u.blk) (m := { newMOp (.oldw o.toNat x va) 0 s with parked := false, parts := lanes })
      hseq (fun l => l.what.loads.contains o.toNat)
    dsimp only at hexec
    rw [if_neg (by rw [Bool.not_eq_true]; exact hlate)] at hexec
    refine ⟨_, hexec, ?_, ⟨{ newMOp (.oldw o.toNat x va) 0 s with parked := false, parts := lanes }, ?_,
      ⟨rfl, rfl, rfl, rfl, rfl⟩, rfl, rfl⟩, ?_⟩
    · rw [advance_onlyMoved]
      refine (slot_setSlot _ _ _ _).trans ((if_pos rfl).trans ?_)
      have hslot : (u.blk.setMOp { newMOp (.oldw o.toNat x va) 0 s with parked := false, parts := lanes }).slot o.toNat
          = weightSlot x va (s.blk.slot o.toNat) := by
        change u.blk.slot o.toNat = _
        rw [hblk]
        exact (slot_setSlot s.blk o.toNat o.toNat _).trans (if_pos rfl)
      rw [hslot]
    · rw [advance_onlyMoved]
      exact hmem
    · rw [advance_onlyMoved]

end Machine

open Machine

/-- Settles O34: OLDA by its slots and its extent, and a first OLDW by its slot and its checks. -/
theorem operandLoads : Obligations.OperandLoads := by
  refine ⟨fun o a x s h => olda_issues h, fun o p x s h hfirst => ⟨fun hbad => ?_, ?_⟩⟩
  · rw [exec_oldw_first h hfirst, if_pos hbad]
    rfl
  · intro u w parts tensor isSealed lanes hgood hlatest hcheck hblk hparts
    exact oldw_issues h hfirst hgood hlatest hcheck hblk hparts

end Sys2Proof

/-! ### MMA, ACLR and ADRN (R166 to R169) -/

namespace Sys2Proof

namespace Machine

theorem mma_without_token {f : MmaF} {s : State} (h : holdsToken s = false) :
    exec (.mma f) s = deliver ⟨0x43, 0, 0, 0, 0, 0⟩ s := by
  rw [exec_mma, execMma, h]
  rfl

theorem mma_issues {f : MmaF} {s : State} (htoken : holdsToken s = true) (htile : f.t.toNat < s.tileLimit)
    (ha : slotBad s f.a.toNat = false) (hw : slotBad s f.w.toNat = false)
    (hkind : (s.blk.slot f.a.toNat).kind = 1 ∨ (s.blk.slot f.a.toNat).kind = 2) (hweight : (s.blk.slot f.w.toNat).kind = 3)
    (hks : (s.blk.slot f.a.toNat).ks = (s.blk.slot f.w.toNat).ks) : Completes (.mma f) s fun t =>
      WentOn 1 s t ∧ OnlySlots [] s t ∧ Queued (.mma f.zc f.na f.nb f.t.toNat f.a.toNat f.w.toNat
        (s.blk.slot f.a.toNat).kind (s.blk.slot f.a.toNat).ks) s t := by
  have hact : ¬ ((s.blk.slot f.a.toNat).kind ≠ 1 && (s.blk.slot f.a.toNat).kind ≠ 2) = true := by
    obtain hk | hk := hkind <;> simp [hk]
  have hmatch : ¬ ((s.blk.slot f.w.toNat).kind ≠ 3 || (s.blk.slot f.a.toNat).ks ≠ (s.blk.slot f.w.toNat).ks) = true := by
    simp [hweight, hks]
  have hexec : exec (.mma f) s = finish (.mma f) (addMOp (.mma f.zc f.na f.nb f.t.toNat f.a.toNat f.w.toNat
      (s.blk.slot f.a.toNat).kind (s.blk.slot f.a.toNat).ks) 0 s) := by
    rw [exec_mma, execMma, htoken, ha, hw]
    exact (if_neg Bool.false_ne_true).trans ((if_neg (not_le.mpr htile)).trans ((if_neg Bool.false_ne_true).trans
      ((if_neg Bool.false_ne_true).trans ((if_neg hact).trans (if_neg hmatch)))))
  obtain ⟨t, ht, hwent, hslots, hblk⟩ := finish_slots (ns := []) rfl hexec rfl ⟨rfl, fun _ _ => rfl⟩
  exact ⟨t, ht, hwent, hslots, queued_of_blk (b := s.blk) rfl rfl hblk⟩

theorem aclr_outside {n : BitVec 4} {s : State} (h : s.tileLimit ≤ n.toNat) :
    exec (.aclr n) s = deliver ⟨0x44, 0, 0, 0, 0, 0⟩ s := by
  rw [exec_aclr, execAclr, if_pos h]
  rfl

theorem tile_setTile (b : Block) (n k : Nat) (x : Tile) : (b.setTile n x).tile k = if k = n then x else b.tile k := by
  simp only [Block.tile, Block.setTile, nth_put]

theorem aclr_clears {n : BitVec 4} {s : State} (h : n.toNat < s.tileLimit) : Completes (.aclr n) s fun t =>
    WentOn 1 s t ∧ t = { s with st := s.st.moved t.st, blk := { s.blk with tiles := t.blk.tiles, mops := t.blk.mops } }
      ∧ t.blk.mops = s.blk.mops.map (keepUnder n.toNat (s.blk.tile n.toNat))
      ∧ (∀ i j, (t.blk.tile n.toNat).at_ i j = 0) ∧ (t.blk.tile n.toNat).poison = []
      ∧ ∀ k, k ≠ n.toNat → t.blk.tile k = s.blk.tile k := by
  let b : Block := { s.blk with mops := s.blk.mops.map (keepUnder n.toNat (s.blk.tile n.toNat)) }
  let u : State := { s with blk := b.setTile n.toNat .zero }
  have hexec : exec (.aclr n) s = finish (.aclr n) u := by
    rw [exec_aclr, execAclr, if_neg (not_le.mpr h)]
  have hmoved := advance_onlyMoved (formSize (.aclr n)) u
  have hblk : (advance (formSize (.aclr n)) u).blk = b.setTile n.toNat .zero := by rw [hmoved]
  have htile : (b.setTile n.toNat .zero).tile n.toNat = .zero := (tile_setTile _ _ _ _).trans (if_pos rfl)
  refine ⟨_, hexec, advance_wentOn _ rfl rfl, ?_, ?_, ?_, ?_, ?_⟩
  · rw [hblk, hmoved]
    rfl
  · rw [hblk]
    rfl
  · intro i j
    rw [hblk, htile]
    simp [Tile.at_, Tile.zero]
  · rw [hblk, htile]
    rfl
  · intro k hk
    rw [hblk]
    exact (tile_setTile _ _ _ _).trans (if_neg hk)

theorem adrn_issues {n : BitVec 4} {a : Opnd} {s : State} (h : NoReadError (.adrn n a) s) (htile : n.toNat < s.tileLimit)
    (hin : (s.arg a).toNat / 16 * 16 + 16384 ≤ s.scratchLimit) : Completes (.adrn n a) s fun t =>
      WentOn (wordCount (.adrn n a)) s t ∧ Queued (.adrn n.toNat ((s.arg a).toNat / 16 * 16)) s t
        ∧ t.blk.slots = s.blk.slots ∧ t.blk.tiles = s.blk.tiles ∧ t.blk.scratch = s.blk.scratch ∧ t.mem = s.mem := by
  let start := if s.clock.ule s.blk.adrnEnd then s.blk.adrnEnd else s.clock
  let v := addMOp (.adrn n.toNat ((s.arg a).toNat / 16 * 16)) (start + 10) s
  let u : State := { v with blk := { v.blk with adrnEnd := start + 10 } }
  have hexec : exec (.adrn n a) s = finish (.adrn n a) u := by
    rw [exec_adrn, execAdrn, guarded_noError (f := .adrn n a) h rfl]
    exact (if_neg (not_le.mpr htile)).trans (if_neg (not_lt.mpr hin))
  have hmoved := advance_onlyMoved (formSize (.adrn n a)) u
  have hblk : (advance (formSize (.adrn n a)) u).blk = u.blk := by rw [hmoved]
  refine ⟨_, hexec, ?_, ?_, ?_⟩
  · rw [wordCount_of_form rfl]
    exact advance_wentOn _ rfl rfl
  · rw [Queued, hblk]
    exact ⟨newMOp (.adrn n.toNat ((s.arg a).toNat / 16 * 16)) (start + 10) s, rfl, rfl, rfl, rfl, rfl, rfl, rfl, rfl, rfl,
      rfl⟩
  · rw [hblk, hmoved]
    exact ⟨rfl, rfl, rfl, rfl⟩

/-! ### The token (R160, R170, R171) -/

/-- Is the matrix operation an MMA? -/
def MWhat.isMma (w : MWhat) : Bool := w matches .mma _ _ _ _ _ _ _ _

theorem isMma_iff (w : MWhat) : w.isMma = true ↔ ∃ zc na nb t a v fmt ks, w = .mma zc na nb t a v fmt ks := by
  cases w <;> simp [MWhat.isMma]

/-- Is the matrix operation a release? -/
def MWhat.isOrel (w : MWhat) : Bool := w matches .orel _

theorem isOrel_false_iff (w : MWhat) : w.isOrel = false ↔ ∀ n, w ≠ .orel n := by
  cases w <;> simp [MWhat.isOrel]

theorem any_iff_not_all {α : Type} {p : α → Bool} {q : α → Prop} (h : ∀ x, p x = true ↔ q x) (l : List α) :
    (l.any p = true ↔ ∃ x ∈ l, q x) ∧ (l.any p = false ↔ ∀ x ∈ l, ¬ q x) := by
  constructor
  · simp only [List.any_eq_true, h]
  · simp only [List.any_eq_false, h]

/-- Does the strand named k stay in the focus block, beside the focus strand? -/
def Stays (s : State) (k : Nat) : Prop := ∃ u ∈ s.blk.strands, u.idx = k ∧ u.gone = false

theorem any_stays (s : State) (k : Nat) :
    s.blk.strands.any (fun t => decide (t.idx = k) && !t.gone) = true ↔ Stays s k := by
  simp [List.any_eq_true, Stays]

/-- A holder that stays keeps the token. -/
theorem passToken_kept {s : State} {n : Nat} (htoken : s.blk.token = some n) (h : Stays s n) : passToken s = s := by
  have hany : s.strands.any (fun t => decide (t.idx = n) && !t.gone) = true := by
    have hblk := (any_stays s n).mpr h
    rw [State.strands]
    split
    · rw [List.any_cons, hblk, Bool.or_true]
    · exact hblk
  rw [passToken, htoken]
  exact if_pos hany

theorem pokeBlock_blk (b : BlockRef) (s : State) :
    (pokeBlock b s).blk.token = s.blk.token ∧ (pokeBlock b s).blk.handover = s.blk.handover := by
  have h := (pokeBlock_wakes b s).2.2.1.1
  rw [h]
  exact ⟨rfl, rfl⟩

/-- What MTOK does as its holder. -/
theorem exec_mtok_runs {a : Opnd} {s : State} (h : NoReadError (.mtok a) s) :
    exec (.mtok a) s =
      if !holdsToken s || (s.arg a).toNat ≥ s.blk.nstrands then deliver (faultAt 0x43 0) s
      else if (s.arg a).toNat = s.st.idx then finish (.ctl 0xD7 0 a none) s
      else finish (.ctl 0xD7 0 a none) (pokeBlock ⟨s.st.grid, s.st.block⟩ (passToken { s with blk := { s.blk with
        token := some (s.arg a).toNat, handover := put 0 s.blk.handover (s.arg a).toNat s.blk.mseq } })) := by
  rw [exec_mtok, execMtok, guarded_noError (f := .ctl 0xD7 0 a none) h rfl]

theorem mtok_passes {a : Opnd} {s : State} (h : NoReadError (.mtok a) s) :
    let n := (s.arg a).toNat
    ((holdsToken s = false ∨ s.blk.nstrands ≤ n) → exec (.mtok a) s = deliver ⟨0x43, 0, 0, 0, 0, 0⟩ s)
    ∧ (holdsToken s = true → n < s.blk.nstrands → n ≠ s.st.idx →
        (∃ u ∈ s.blk.strands, u.idx = n ∧ u.gone = false) → Completes (.mtok a) s fun t =>
          t.blk.token = some n ∧ nth 0 t.blk.handover n = s.blk.mseq ∧ t.mem = s.mem)
    ∧ (holdsToken s = true → n < s.blk.nstrands → n = s.st.idx → Completes (.mtok a) s fun t =>
        WentOn (wordCount (.mtok a)) s t ∧ OnlyMoved s t) := by
  intro n
  have hexec := exec_mtok_runs h
  have hmay : holdsToken s = true → n < s.blk.nstrands → ¬ (!holdsToken s || decide (n ≥ s.blk.nstrands)) = true :=
    fun htoken hn => by simp [htoken, not_le.mpr hn]
  refine ⟨fun hnot => ?_, fun htoken hn hne hstays => ?_, fun htoken hn hself => ?_⟩
  · refine hexec.trans ((if_pos ?_).trans rfl)
    obtain hfree | hn := hnot
    · rw [hfree]
      rfl
    · exact Bool.or_eq_true_iff.mpr (.inr (decide_eq_true hn))
  · let v : State := { s with blk := { s.blk with token := some n, handover := put 0 s.blk.handover n s.blk.mseq } }
    have hrun := hexec.trans ((if_neg (hmay htoken hn)).trans (if_neg hne))
    have hkept : passToken v = v := passToken_kept rfl hstays
    rw [show (s.arg a).toNat = n from rfl, show passToken { s with blk := _ } = v from hkept] at hrun
    obtain ⟨htok, hhand⟩ := pokeBlock_blk ⟨s.st.grid, s.st.block⟩ v
    refine ⟨_, hrun, ?_⟩
    rw [advance_onlyMoved]
    exact ⟨htok, by rw [hhand]; exact nth_put_same _ _ _ _, (pokeBlock_wakes ⟨s.st.grid, s.st.block⟩ v).mem⟩
  · exact finish_completes rfl (hexec.trans ((if_neg (hmay htoken hn)).trans (if_pos hself)))

theorem mwaitTok_waits {s : State} (htwin : s.grd.twin = true) :
    let before := fun (m : MOp) => m.seq < nth 0 s.blk.handover s.st.idx
        ∧ ∃ zc na nb t a w fmt ks, m.what = .mma zc na nb t a w fmt ks
    (holdsToken s = true → (∀ m ∈ s.blk.mops, ¬ before m) → Completes .mwaitTok s fun t => WentOn 1 s t
        ∧ OnlyMoved s t)
    ∧ ((holdsToken s = false ∨ ∃ m ∈ s.blk.mops, before m) → exec .mwaitTok s = .next (waitFor (.mwait true 0) s)) := by
  intro before
  let early := fun (m : MOp) => decide (m.seq < nth 0 s.blk.handover s.st.idx) && m.what.isMma
  have hexec : exec .mwaitTok s = if holdsToken s && !s.blk.mops.any early then finish (.n8 0xD8 0) s
      else .next (waitFor (.mwait true 0) s) := by
    rw [exec_mwaitTok, execMwaitTok, htwin]
    exact if_neg Bool.false_ne_true
  obtain ⟨hany, hnone⟩ := any_iff_not_all (p := early) (q := before)
    (fun m => by rw [Bool.and_eq_true, decide_eq_true_iff, isMma_iff]) s.blk.mops
  constructor
  · intro htoken hall
    exact finish_completes rfl (hexec.trans (if_pos (by rw [htoken, hnone.mpr hall]; rfl)))
  · intro hwait
    refine hexec.trans (if_neg ?_)
    obtain hfree | hearly := hwait
    · rw [hfree]
      exact Bool.false_ne_true
    · rw [hany.mpr hearly, Bool.not_true, Bool.and_false]
      exact Bool.false_ne_true

theorem mwaitAll_waits (s : State) :
    let point := (s.st.attempt.map (·.toNat)).getD s.blk.mseq
    let before := fun (m : MOp) => m.seq < point ∧ ∀ n, m.what ≠ .orel n
    ((∀ m ∈ s.blk.mops, ¬ before m) → Completes .mwaitAll s fun t => WentOn 1 s t ∧ OnlyMoved s t)
    ∧ ((∃ m ∈ s.blk.mops, before m) → exec .mwaitAll s = .next (waitFor (.mwait false point)
        { s with st := { s.st with attempt := some (BitVec.ofNat 64 point) } })) := by
  intro point before
  let early := fun (m : MOp) => decide (m.seq < point) && !m.what.isOrel
  have hexec : exec .mwaitAll s = if s.blk.mops.any early then .next (waitFor (.mwait false point)
      { s with st := { s.st with attempt := some (BitVec.ofNat 64 point) } }) else finish (.n8 0xD8 1) s := by
    rw [exec_mwaitAll, execMwaitAll]
    rfl
  obtain ⟨hany, hnone⟩ := any_iff_not_all (p := early) (q := before)
    (fun m => by rw [Bool.and_eq_true, decide_eq_true_iff, Bool.not_eq_true', isOrel_false_iff]) s.blk.mops
  constructor
  · intro hall
    exact finish_completes rfl (hexec.trans (if_neg (by rw [hnone.mpr hall]; exact Bool.false_ne_true)))
  · intro hearly
    exact hexec.trans (if_pos (hany.mpr hearly))

/-! ### The token at EXIT -/

theorem firstFrom_lowest {p : Nat → Bool} {k : Nat} (hk : p k = true) (n j : Nat) (hj : j ≤ k) (hn : k < j + n)
    (hbelow : ∀ i, j ≤ i → i < k → p i = false) : firstFrom p j n = some k := by
  induction n generalizing j with
  | zero => omega
  | succ n ih =>
    rw [firstFrom]
    by_cases h : j = k
    · rw [h, if_pos hk]
    · rw [if_neg (by rw [hbelow j le_rfl (by omega)]; exact Bool.false_ne_true)]
      exact ih (j + 1) (by omega) (by omega) fun i hi hik => hbelow i (by omega) hik

theorem firstFrom_none {p : Nat → Bool} (n j : Nat) (h : ∀ i, j ≤ i → i < j + n → p i = false) : firstFrom p j n = none := by
  induction n generalizing j with
  | zero => rfl
  | succ n ih =>
    rw [firstFrom, if_neg (by rw [h j le_rfl (by omega)]; exact Bool.false_ne_true)]
    exact ih (j + 1) fun i hi hin => h i (by omega) (by omega)

theorem exit_token (s : State) :
    (afterStop (exitState s)).blk.token = (passToken (exitState s)).blk.token
      ∧ (afterStop (exitState s)).blk.handover = (passToken (exitState s)).blk.handover := by
  rw [afterStop]
  simp only [completeBarrier]
  split <;> exact ⟨rfl, rfl⟩

theorem exitState_stays (s : State) (k : Nat) :
    (exitState s).strands.any (fun t => decide (t.idx = k) && !t.gone) = true ↔ Stays s k := by
  have hstrands : (exitState s).strands = s.st.ended :: s.blk.strands := rfl
  have hgone : s.st.ended.gone = true := rfl
  rw [hstrands, List.any_cons, hgone, Bool.not_true, Bool.and_false, Bool.false_or]
  exact any_stays s k

theorem exit_passes {s : State} (h : s.grd.tolerant = true ∨ (s.st.poisonTags = 0 ∧ ∀ o ∈ s.st.ops, o.what ≠ .lda)) :
    (s.blk.token = none → Completes .exit s fun t => t.blk.token = none)
    ∧ ∀ n, s.blk.token = some n →
      (Stays s n → Completes .exit s fun t => t.blk.token = some n)
      ∧ (¬ Stays s n → ∀ k, k < 16 → Stays s k → (∀ j, j < k → ¬ Stays s j) → Completes .exit s fun t =>
          t.blk.token = some k ∧ nth 0 t.blk.handover k = s.blk.mseq)
      ∧ ((∀ k, k < 16 → ¬ Stays s k) → ¬ Stays s n → Completes .exit s fun t => t.blk.token = some n) := by
  obtain ⟨htoken, hhandover⟩ := exit_token s
  have hends := exit_ends h
  have hnot : ∀ k, ¬ Stays s k → (exitState s).strands.any (fun t => decide (t.idx = k) && !t.gone) = false :=
    fun k hk => by rw [← Bool.not_eq_true, exitState_stays]; exact hk
  refine ⟨fun hnone => ⟨_, hends, ?_⟩, fun n hn => ⟨fun hstays => ⟨_, hends, ?_⟩, fun hgone k hk hstays hbelow =>
    ⟨_, hends, ?_⟩, fun hall hgone => ⟨_, hends, ?_⟩⟩⟩
  · beta_reduce
    rw [htoken, passToken, show (exitState s).blk.token = none from hnone]
    exact hnone
  · beta_reduce
    rw [htoken, passToken_kept (s := exitState s) (n := n) hn hstays]
    exact hn
  · have hfirst := firstFrom_lowest (p := fun k => (exitState s).strands.any fun t => decide (t.idx = k) && !t.gone)
      ((exitState_stays s k).mpr hstays) Config.strandSlots 0 (Nat.zero_le k) (by rw [Nat.zero_add]; exact hk)
      fun i _ hik => hnot i (hbelow i hik)
    beta_reduce
    rw [htoken, hhandover, passToken, show (exitState s).blk.token = some n from hn]
    simp only [hnot n hgone, Bool.false_eq_true, if_false, hfirst]
    rw [(pokeBlock_blk _ _).1, (pokeBlock_blk _ _).2]
    exact ⟨rfl, nth_put_same _ _ _ _⟩
  · have hnone := firstFrom_none (p := fun k => (exitState s).strands.any fun t => decide (t.idx = k) && !t.gone)
      Config.strandSlots 0 fun i _ hi => hnot i (hall i (by rw [Nat.zero_add] at hi; exact hi))
    beta_reduce
    rw [htoken, passToken, show (exitState s).blk.token = some n from hn]
    simp only [hnot n hgone, Bool.false_eq_true, if_false, hnone]
    exact hn

end Machine

open Machine

/-- Settles O35: MMA, ACLR and ADRN by what they queue and set. -/
theorem matrixIssues : Obligations.MatrixIssues :=
  ⟨fun _ _ => ⟨mma_without_token, mma_issues⟩, fun _ _ => ⟨aclr_clears, aclr_outside⟩, fun _ _ _ h => adrn_issues h⟩

/-- Settles O36: MTOK, the two waits, and the token when its holder exits. -/
theorem matrixToken : Obligations.MatrixToken :=
  ⟨fun _ _ h => mtok_passes h, fun _ htwin => mwaitTok_waits htwin, mwaitAll_waits, fun _ h => exit_passes h⟩

end Sys2Proof

/-! ## Clause issue and the ends of waits (R35, R38, R50 to R54, R117, R203, R230, R249, R280) -/

namespace Sys2Proof

namespace Machine

theorem exec_replayResolved (w ok s) : exec (.replayResolved w ok) s = execReplayResolved w ok s := rfl
theorem exec_arenaPoolRefill (key die big n s) : exec (.arenaPoolRefill key die big n) s = execArenaPoolRefill key die big n s := rfl
theorem exec_waitvWake (r s) : exec (.waitvWake r) s = execWaitvWake r s := rfl
theorem exec_sleepExpiry (r s) : exec (.sleepExpiry r) s = execSleepExpiry r s := rfl
theorem exec_waitpExpiry (r s) : exec (.waitpExpiry r) s = execWaitpExpiry r s := rfl
theorem exec_queueRoom (r s) : exec (.queueRoom r) s = execQueueRoom r s := rfl

/-! ### Clause issue -/

theorem foldl_macCheck_clean {parts : List (Nat × DWord × PagePart)} {s : State}
    (h : ∀ x ∈ parts, badLines s x.2.2.key x.2.2.pas = []) :
    parts.foldl (fun s p => macCheck p.2.2.key p.2.2.pas s) s = s := by
  induction parts with
  | nil => rfl
  | cons x l ih =>
    rw [List.foldl_cons, macCheck_clean (h x List.mem_cons_self)]
    exact ih fun y hy => h y (List.mem_cons_of_mem x hy)

/-- A fetch that passes its checks and meets nothing bad gives its bytes. -/
theorem fetch_read {old : Bool} {n : Nat} {s u : State} {bytes : List Byte} (h : CodeRead old n s bytes u)
    (k : List Byte → State → Out) : fetch s old n k = k bytes u := by
  obtain ⟨parts, v, w, hcheck, rfl, hmac, hclean, rfl⟩ := h
  rw [fetch, hcheck]
  simp only [foldl_macCheck_clean hmac, readOver_clean hclean, hclean, Bool.false_eq_true, if_false]

/-- CLAUSE_ISSUE of a strand in focus that stands between clauses and may open one. -/
theorem exec_clauseIssue_opens {r : StrandRef} {old : Bool} {s u : State} {l1 : List Byte} (hfocus : InFocus r s)
    (hclause : s.st.clause = none) (hopen : mayOpen s = true) (hpc : s.st.pc.toNat % 4 = 0)
    (hread : CodeRead old 4 s l1 u) :
    exec (.clauseIssue r old) s =
      if headerBad (BitVec.ofNat 32 (leNat l1)) then deliver ⟨0x03, 0, s.st.pc, 0, 0, 0⟩ u
      else fetch s old (4 * (field (BitVec.ofNat 32 (leNat l1)) 28 4 + 1)) fun l v =>
        openClause (BitVec.ofNat 32 (leNat l1)) (wordList l).tail v := by
  simp only [exec_clauseIssue, execClauseIssue, focus_self hfocus, hclause, hopen, hpc, Option.isSome_none,
    Bool.not_true, Bool.false_eq_true, if_false, ne_eq, not_true_eq_false, fetch_read hread]
  rfl

theorem openClause_unmet {h : Word} {words : List Word} {v : State} (hlimits : limitsMet v h = false) :
    openClause h words v = .next v := by
  rw [openClause, hlimits]
  rfl

theorem openClause_fault {h : Word} {words : List Word} {v : State} {e : DecFault} {k : Nat}
    (hlimits : limitsMet v h = true) (hdecode : decodeClause 16 (decodeCtx v (field h 25 3) []) words 0 = .error (e, k)) :
    openClause h words v =
      (let at_ := if e = .badClauseHeader then v.st.pc else v.st.pc + BitVec.ofNat 64 (4 * (k + 1))
      deliver ⟨decodeCode e, 0, at_, 0, 0, 0⟩ { v with st := { v.st with pc := at_ } }) := by
  rw [openClause, hlimits]
  simp only [Bool.not_true, Bool.false_eq_true, if_false, hdecode]
  rfl

theorem openClause_opens {h : Word} {words : List Word} {v : State} {is : List Instr} (hlimits : limitsMet v h = true)
    (hdecode : decodeClause 16 (decodeCtx v (field h 25 3) []) words 0 = .ok is)
    (hfree : ((is.filterMap form).any (scoreboardHolds v) || !roomFor v (is.filterMap form)) = false) :
    openClause h words v = .next { v with st := { v.st with
      pc := v.st.pc + 4, clause := some ⟨v.st.pc, field h 25 3, words, []⟩, yld := h.getLsbD 24, behind := []
      attempt := none, promo := none, fetched := [] } } := by
  rw [openClause, hlimits]
  simp only [Bool.not_true, Bool.false_eq_true, if_false, hdecode, hfree]

/-- A strand that has yielded lets the clauses that are ready for its port go first (R38, R116). -/
theorem clauseIssue_yields {r : StrandRef} (old : Bool) {s : State} (hfocus : InFocus r s) (hclause : s.st.clause = none)
    (hboundary : atBoundary s = true) (hyld : s.st.yld = true) (hbehind : stillBehind s = false)
    (hrivals : readyRivals s ≠ []) : Completes (.clauseIssue r old) s fun t =>
      t.st.clause = none ∧ t.st.yld = false ∧ t.st.behind = readyRivals s ∧ OnlyMoved s t := by
  have hmust : mayOpen s = false := by
    have hready : (readyRivals s).isEmpty = false := by
      rw [List.isEmpty_eq_false_iff]
      exact hrivals
    rw [mayOpen, mustYield, hyld, hready, hboundary, hbehind]
    rfl
  have hexec : exec (.clauseIssue r old) s
      = .next { s with st := { s.st with yld := false, behind := readyRivals s } } := by
    simp only [exec_clauseIssue, execClauseIssue, focus_self hfocus, hclause, hmust, hyld, yieldTo, hboundary, hbehind,
      Option.isSome_none, Bool.not_false, Bool.and_true, Bool.false_eq_true, if_false, if_true]
  exact ⟨_, hexec, hclause, rfl, rfl, rfl⟩

/-! ### Worlds -/

/-- A change of worlds that keeps their keys finds the changed world. -/
theorem world_mapWorlds {f : World → World} (hf : ∀ x, (f x).key = x.key) (s : State) (k : Nat) :
    (s.mapWorlds f).world k = (s.world k).map f := by
  have hall : (s.mapWorlds f).allWorlds = s.allWorlds.map f := by
    simp only [State.allWorlds, State.mapWorlds]
    by_cases h : s.wld.key = 0
    · simp [h]
    · simp [h, hf]
  rw [State.world, hall, List.find?_map, State.world]
  simp only [Function.comp_def, hf]

theorem world_key {s : State} {k : Nat} {w : World} (h : s.world k = some w) : w.key = k := by
  rw [State.world] at h
  simpa using List.find?_some h

theorem world_setWorld_self {s : State} {w x : World} (h : s.world w.key = some x) : (s.setWorld w).world w.key = some w := by
  rw [State.setWorld, world_mapWorlds (fun y => by split <;> simp_all), h, Option.map_some, world_key h, if_pos rfl]

theorem world_setWorld_other {s : State} {w : World} {k : Nat} (h : k ≠ w.key) : (s.setWorld w).world k = s.world k := by
  rw [State.setWorld, world_mapWorlds (fun y => by split <;> simp_all)]
  cases hk : s.world k with
  | none => rfl
  | some x => rw [Option.map_some, if_neg (by rw [world_key hk]; exact h)]

/-- The page that a pool takes stands in it. -/
theorem addPage_pools (w : World) (die : Nat) (big : Bool) (pa : Nat) :
    (w.addPage die big pa).key = w.key
      ∧ ∃ p ∈ (w.addPage die big pa).pools, p.die = die ∧ p.big = big ∧ pa ∈ p.pages := by
  rw [World.addPage]
  split
  · next h =>
    obtain ⟨p, hp, hthere⟩ := List.any_eq_true.mp h
    rw [Bool.and_eq_true, decide_eq_true_iff, decide_eq_true_iff] at hthere
    refine ⟨rfl, { p with pages := p.pages ++ [pa] }, List.mem_map.mpr ⟨p, hp, ?_⟩, hthere.1, hthere.2, by simp⟩
    rw [if_pos (by simp [hthere.1, hthere.2])]
  · exact ⟨rfl, _, List.mem_append_right _ (List.mem_singleton.mpr rfl), rfl, rfl, List.mem_singleton.mpr rfl⟩

theorem poolRefill_one {key die : Nat} {big : Bool} {s u : State} {w x : World} {r : Range} (hw : s.world key = some w)
    (htake : takePoolMemory s w (poolPage big) (poolPage big) = some (r, u)) (hx : u.world key = some x) :
    Completes (.arenaPoolRefill key die big 1) s fun t =>
      t.mem = u.mem ∧ ∃ y p, t.world key = some y ∧ p ∈ y.pools ∧ p.die = die ∧ p.big = big ∧ r.base ∈ p.pages := by
  obtain ⟨hkey, p, hp, hdie, hbig, hpage⟩ := addPage_pools x die big r.base
  have hexec : exec (.arenaPoolRefill key die big 1) s = .next (u.setWorld (x.addPage die big r.base)) := by
    simp only [exec_arenaPoolRefill, execArenaPoolRefill, refill, hw, htake, hx]
  refine ⟨_, hexec, rfl, _, p, ?_, hp, hdie, hbig, hpage⟩
  have hself : u.world (x.addPage die big r.base).key = some x := by rw [hkey, world_key hx, hx]
  have hset := world_setWorld_self hself
  rw [hkey, world_key hx] at hset
  exact hset

/-! ### The ends of waits -/

theorem replay_strand {r : StrandRef} {s : State} {f : FaultInfo} {left : BitVec 64} (hfocus : InFocus r s)
    (hparked : s.st.status = .parked f left) :
    exec (.replayResolved (.strand r) true) s = .next { s with st := { s.st with status := .ready, attempt := some left } }
    ∧ (f.code ≠ codeStage2 → parkedLoad s = none → exec (.replayResolved (.strand r) false) s = deliver f s) := by
  constructor
  · simp only [exec_replayResolved, execReplayResolved, replayStrand, focus_self hfocus, hparked, if_true]
  · intro hcode hload
    simp only [exec_replayResolved, execReplayResolved, replayStrand, focus_self hfocus, hparked, hcode, dropParkedLoad,
      hload, Bool.false_eq_true, if_false]

theorem withWait_waiting {r : StrandRef} {s : State} {w : Wait} (hfocus : InFocus r s) (hwait : s.st.status = .waiting w)
    (k : Wait → State → Out) : withWait r s k = k w s := by
  rw [withWait, focus_self hfocus]
  simp only [hwait]

theorem waitvWake_ends {r : StrandRef} {s : State} {line : Option Nat} {at_ : DWord} (hfocus : InFocus r s)
    (hwait : s.st.status = .waiting (.waitv line at_)) :
    (at_.toNat ≤ s.clock.toNat → exec (.waitvWake r) s = .next { s with st := { s.st with status := .ready } })
    ∧ (s.clock.toNat < at_.toNat → Stutters (.waitvWake r) s) := by
  have hexec : exec (.waitvWake r) s = if at_.ule s.clock then .next (wake s) else .next s := by
    rw [exec_waitvWake, execWaitvWake, withWait_waiting hfocus hwait]
  exact ⟨fun hdue => hexec.trans (if_pos (decide_eq_true hdue)),
    fun hearly => hexec.trans (if_neg fun h => absurd (of_decide_eq_true h) (not_le.mpr hearly))⟩

theorem sleepExpiry_ends {r : StrandRef} {s : State} {at_ : DWord} (hfocus : InFocus r s)
    (hwait : s.st.status = .waiting (.sleep at_)) :
    (at_.toNat ≤ s.clock.toNat →
      exec (.sleepExpiry r) s = .next { s with st := { s.st with status := .ready, attempt := some 0 } })
    ∧ (s.clock.toNat < at_.toNat → Stutters (.sleepExpiry r) s) := by
  have hexec : exec (.sleepExpiry r) s = if at_.ule s.clock then
      .next { s with st := { s.st with status := .ready, attempt := some 0 } } else .next s := by
    rw [exec_sleepExpiry, execSleepExpiry, withWait_waiting hfocus hwait]
    rfl
  exact ⟨fun hdue => hexec.trans (if_pos (decide_eq_true hdue)),
    fun hearly => hexec.trans (if_neg fun h => absurd (of_decide_eq_true h) (not_le.mpr hearly))⟩

theorem waitpExpiry_ends {r : StrandRef} {s : State} {n : Nat} {p : Word} (hfocus : InFocus r s)
    (hwait : s.st.status = .waiting (.waitp n p)) :
    (clockReached s p → exec (.waitpExpiry r) s = .next { s with st := { s.st with status := .ready } })
    ∧ (¬ clockReached s p → Stutters (.waitpExpiry r) s) := by
  have hexec : exec (.waitpExpiry r) s = if reached s p then .next (wake s) else .next s := by
    rw [exec_waitpExpiry, execWaitpExpiry, withWait_waiting hfocus hwait]
  exact ⟨fun hdue => hexec.trans (if_pos ((reached_iff s p).mpr hdue)),
    fun hearly => hexec.trans (if_neg fun h => hearly ((reached_iff s p).mp h))⟩

theorem queueRoom_ends {r : StrandRef} {s : State} (hfocus : InFocus r s) (hwait : s.st.status = .waiting .queue) :
    exec (.queueRoom r) s = .next { s with st := { s.st with status := .ready } } := by
  rw [exec_queueRoom, execQueueRoom, withWait_waiting hfocus hwait]
  rfl

end Machine

open Machine

/-- Settles O37: a yielded strand, then the header and the words of the clause. -/
theorem clauseIssue : Obligations.ClauseIssue := by
  refine ⟨fun r old s => clauseIssue_yields old, ?_⟩
  intro r old s u v l1 l2 hfocus hclause hopen hpc hread h
  have hexec := exec_clauseIssue_opens hfocus hclause hopen hpc hread
  refine ⟨fun hbad => hexec.trans (if_pos hbad), fun hgood hread2 => ?_⟩
  rw [if_neg (by rw [Bool.not_eq_true]; exact hgood), fetch_read hread2] at hexec
  refine ⟨fun hlimits => hexec.trans (openClause_unmet hlimits), fun hlimits e k hdecode => ?_,
    fun hlimits is hdecode hfree => ?_⟩
  · exact hexec.trans (openClause_fault hlimits hdecode)
  · exact ⟨_, hexec.trans (openClause_opens hlimits hdecode hfree), rfl, rfl, rfl, rfl⟩

/-- Settles O38: a resolved or declined fault, a refilled pool, and each wait that ends. -/
theorem wakes : Obligations.Wakes :=
  ⟨⟨fun _ _ _ _ => replay_strand, fun _ _ _ _ _ _ _ _ => poolRefill_one⟩, fun _ _ hfocus =>
    ⟨fun _ _ => waitvWake_ends hfocus, fun _ => sleepExpiry_ends hfocus, fun _ _ => waitpExpiry_ends hfocus,
      queueRoom_ends hfocus⟩⟩

end Sys2Proof

/-! ## What a fault record, an ended grid and a failed MAC can change (R345 to R348, R358, R359) -/

namespace Sys2Proof

namespace Machine

/-- What the writing of fault records, the ending of grids and the failing of lines can change: how strands stand,
which grids have ended, counts, notices, and the bytes of memory with what is kept of them. -/
def Reported (s t : State) : Prop :=
  t = { s with
    st := { s.st with status := t.st.status }, blk := { s.blk with strands := t.blk.strands }, blocks := t.blocks
    grd := { s.grd with ended := t.grd.ended }, grids := t.grids, queues := t.queues, notices := t.notices
    pendingRecords := t.pendingRecords, recordCount := t.recordCount, counts := t.counts, halted := t.halted
    mem := t.mem, poison := t.poison, lineKeys := t.lineKeys, hostSlots := t.hostSlots, ringWrites := t.ringWrites
    dups := t.dups, portA := { s.portA with dropped := t.portA.dropped }, portB := { s.portB with dropped := t.portB.dropped } }
  ∧ (Memory.wf s.mem = true → Memory.wf t.mem = true)
  ∧ (s.st.status = .faulted → t.st.status = .faulted) ∧ (s.grd.ended.isSome = true → t.grd.ended.isSome = true)

theorem Reported.refl (s : State) : Reported s s := ⟨rfl, id, id, id⟩

theorem Reported.trans {s t u : State} (h : Reported s t) (k : Reported t u) : Reported s u := by
  obtain ⟨hsame, hwf, hfaulted, hended⟩ := h
  obtain ⟨ksame, kwf, kfaulted, kended⟩ := k
  refine ⟨?_, fun x => kwf (hwf x), fun x => kfaulted (hfaulted x), fun x => kended (hended x)⟩
  rw [ksame, hsame]

theorem foldl_reported {α : Type} {f : State → α → State} (h : ∀ s x, Reported s (f s x)) (l : List α) (s : State) :
    Reported s (l.foldl f s) :=
  foldl_related Reported.refl Reported.trans h l s

theorem Wakes.reported {s t : State} (h : Wakes s t) : Reported s t := by
  obtain ⟨hframe, hst, hblk, -⟩ := h
  refine ⟨?_, fun hw => by rw [hframe]; exact hw, fun hfaulted => ?_, fun hended => by rw [hframe]; exact hended⟩
  · have hst : t.st = { s.st with status := t.st.status } := hst.1
    have hblk : t.blk = { s.blk with strands := t.blk.strands } := hblk.1
    calc t = { s with st := t.st, blk := t.blk, blocks := t.blocks } := hframe
      _ = { s with
            st := { s.st with status := t.st.status }, blk := { s.blk with strands := t.blk.strands }
            blocks := t.blocks } :=
          congrArg₂ (fun x y => ({ s with st := x, blk := y, blocks := t.blocks } : State)) hst hblk
      _ = _ := by rw [hframe]
  · obtain h | ⟨w, h, -⟩ := hst.2
    · rw [h, hfaulted]
    · exact absurd (hfaulted.symm.trans h) Status.noConfusion

theorem Stored.reported {places : List Nat} {s t : State} (h : Stored places s t) : Reported s t := by
  refine Reported.trans ?_ h.1.reported
  exact ⟨rfl, fun hw => (h.2 hw).1, id, id⟩

theorem writePlaces_reported (key : Nat) (outside : Bool) (l : List (Nat × Byte)) (s : State) :
    Reported s (writePlaces key outside l s) :=
  (writePlaces_stored key outside l s).reported

theorem tell_reported (n : Notice) (s : State) : Reported s (tell n s) := ⟨rfl, id, id, id⟩

theorem countOn_reported (die : Nat) (f : Counters → Counters) (s : State) : Reported s (countOn die f s) := ⟨rfl, id, id, id⟩

theorem poisonPlacesAt_reported (l : List Nat) (s : State) : Reported s (poisonPlacesAt l s) := ⟨rfl, id, id, id⟩

theorem halted_reported (s : State) : Reported s { s with halted := true } := ⟨rfl, id, id, id⟩

theorem reportStage2_reported (key : Nat) (f : FaultInfo) (s : State) : Reported s (reportStage2 key f s) := by
  rw [reportStage2]
  split
  · exact tell_reported _ s
  · exact .refl s

/-- What a grid's end does to one strand. -/
def stopStrand (g : Nat) (t : Strand) : Strand :=
  if t.grid ≠ g then t
  else
    match t.status with
    | .parked _ _ => { t with status := .faulted }
    | .waiting .order => t
    | .waiting _ => { t with status := .faulted }
    | .stopped => { t with status := .faulted }
    | .ready => if t.clause.isNone then { t with status := .faulted } else t
    | _ => t

theorem mapStrands_reported {f : Strand → Strand} (hf : ∀ t : Strand, f t = { t with status := (f t).status })
    (hfaulted : ∀ t : Strand, t.status = .faulted → (f t).status = .faulted) (s : State) :
    Reported s (s.mapStrands f) := by
  have hst : (s.mapStrands f).st = { s.st with status := (s.mapStrands f).st.status } := by
    rw [State.mapStrands]
    split
    · exact hf s.st
    · rfl
  refine ⟨?_, id, fun h => ?_, id⟩
  · exact congrArg (fun x => ({ s with
      st := x, blk := (s.mapStrands f).blk, blocks := (s.mapStrands f).blocks } : State)) hst
  · rw [State.mapStrands]
    dsimp only
    split
    · exact hfaulted s.st h
    · exact h

theorem stopStrands_reported (g : Nat) (s : State) : Reported s (stopStrands g s) := by
  have hstop : ∀ t : Strand, stopStrand g t = { t with status := (stopStrand g t).status } := by
    intro t
    unfold stopStrand
    repeat' split
    all_goals rfl
  refine mapStrands_reported hstop (fun t h => ?_) s
  unfold stopStrand
  split
  · exact h
  · rw [h]
    exact h

theorem countFault_reported (q : Nat) (s : State) : Reported s (countFault q s) := ⟨rfl, id, id, id⟩

theorem grid_id {g : Nat} {x : Grid} {s : State} (h : s.grid g = some x) : x.id = g := by
  rw [State.grid] at h
  simpa using List.find?_some h

/-- The grid in focus comes first among the grids of its number. -/
theorem grid_focus {g : Nat} {x : Grid} {s : State} (hlive : s.grd.live = true) (h : s.grid g = some x)
    (hid : s.grd.id = x.id) : x = s.grd := by
  have hg : s.grd.id = g := hid.trans (grid_id h)
  rw [State.grid, State.allGrids, if_pos hlive, List.find?_cons, decide_eq_true hg] at h
  exact (Option.some.inj h).symm

/-- A grid of the state that is marked as ended. -/
theorem setEnded_reported {g code : Nat} {x : Grid} {s : State} (h : s.grid g = some x) :
    Reported s (s.setGrid { x with ended := some code }) := by
  have hgrd : (s.setGrid { x with ended := some code }).grd = s.grd
      ∨ (s.setGrid { x with ended := some code }).grd = { s.grd with ended := some code } := by
    rw [State.setGrid, State.mapGrids]
    dsimp only
    split
    next hlive =>
      split
      next hid =>
        rw [grid_focus hlive h hid]
        exact .inr rfl
      next => exact .inl rfl
    next => exact .inl rfl
  have hended : (s.setGrid { x with ended := some code }).grd
      = { s.grd with ended := (s.setGrid { x with ended := some code }).grd.ended } := by
    obtain h | h := hgrd <;> rw [h]
  refine ⟨congrArg (fun y => ({ s with grd := y, grids := (s.setGrid { x with ended := some code }).grids } : State)) hended,
    id, id, fun hsome => ?_⟩
  obtain h | h := hgrd <;> rw [h]
  · exact hsome
  · rfl

theorem markEnded_reported (g code : Nat) (s : State) : Reported s (markEnded g code s) := by
  rw [markEnded]
  split
  · exact .refl s
  next x hx =>
    split
    · exact .refl s
    · exact (setEnded_reported hx).trans ((stopStrands_reported g _).trans (countFault_reported _ _))

theorem writeArea_reported {s t : State} {w : World} {a : DWord} {what n : Nat} {rec : BitVec 512}
    (h : writeArea s w a what n rec = .done t) : Reported s t := by
  simp only [writeArea] at h
  split at h
  · cases h
  · cases h
  · split at h
    · cases h
    · split at h
      · cases h
        exact writePlaces_reported _ _ _ s
      · split at h
        · cases h
          exact writePlaces_reported _ _ _ s
        · split at h
          · split at h <;> cases h
            exact (writePlaces_reported _ _ _ s).trans (writePlaces_reported _ _ _ _)
          · cases h
            exact writePlaces_reported _ _ _ s

theorem recordOne_reported (g what n : Nat) (rec : BitVec 512) (s : State) : Reported s (recordOne g what n rec s) := by
  rw [recordOne]
  split
  · exact .refl s
  · split
    · exact .refl s
    · split
      next h => exact writeArea_reported h
      next f _ =>
        refine Reported.trans ?_ (reportStage2_reported _ f _)
        exact ⟨rfl, id, id, id⟩
      next => exact (tell_reported _ s).trans (markEnded_reported g 0 _)

theorem endChildren_reported (fuel : Nat) (gs : List Nat) (s : State) : Reported s (endChildren fuel gs s) := by
  induction fuel generalizing gs s with
  | zero => exact .refl s
  | succ fuel ih =>
    cases gs with
    | nil => exact .refl s
    | cons g gs =>
      rw [endChildren]
      exact (foldl_reported (fun s k => (recordOne_reported k 0 0 _ s).trans (markEnded_reported k 0x72 _)) _ s).trans (ih _ _)

theorem endGrid_reported (g code : Nat) (s : State) : Reported s (endGrid g code s) :=
  (markEnded_reported g code s).trans (endChildren_reported _ _ _)

theorem recordAt_reported (g what n : Nat) (rec : BitVec 512) (s : State) : Reported s (recordAt g what n rec s) := by
  rw [recordAt]
  split
  · exact (recordOne_reported g what n rec s).trans (endChildren_reported _ _ _)
  · exact recordOne_reported g what n rec s

theorem lineFails_reported (key line : Nat) (s : State) : Reported s (lineFails key line s) := by
  rw [lineFails]
  split
  · exact (poisonPlacesAt_reported (linePlaces line) s).trans (halted_reported _)
  · exact (poisonPlacesAt_reported (linePlaces line) s).trans (tell_reported _ _)

theorem recordFor_reported (g what n : Nat) (rec : BitVec 512) (s : State) : Reported s (recordFor g what n rec s) := by
  rw [recordFor]
  split
  · exact recordAt_reported g what n rec s
  · refine Reported.trans ?_
      (foldl_reported (fun (s : State) (x : Grid) => (recordAt_reported x.id 0 0 _ s).trans (endGrid_reported x.id 0x50 _)) _ _)
    refine Reported.trans ?_ (recordAt_reported g what n rec _)
    exact (countOn_reported _ _ s).trans (lineFails_reported _ _ _)

theorem endWorld_reported (key code : Nat) (rec : Nat → BitVec 512) (s : State) : Reported s (endWorld key code rec s) := by
  rw [endWorld]
  exact foldl_reported (fun (s : State) (g : Grid) => (recordFor_reported g.id 0 0 (rec g.id) s).trans (endGrid_reported g.id code _)) _ s

theorem failLine_reported (key line : Nat) (s : State) : Reported s (failLine key line s) := by
  rw [failLine]
  split
  · exact lineFails_reported key line s
  · exact (lineFails_reported key line s).trans (endWorld_reported key 0x50 _ _)

theorem macCheck_reported (key : Nat) (pas : List Nat) (s : State) : Reported s (macCheck key pas s) :=
  foldl_reported (fun s l => (countOn_reported _ _ s).trans (failLine_reported key l _)) _ s

theorem moonCheck_reported (key : Nat) (k : Access) (a : DWord) (n : Nat) (s : State) : Reported s (moonCheck key k a n s) := by
  rw [moonCheck]
  split
  · exact macCheck_reported _ _ s
  · exact .refl s

theorem headerCheck_reported (key : Nat) (a : DWord) (s : State) : Reported s (headerCheck key a s) :=
  moonCheck_reported key .write a 64 s

theorem countPoison_reported (n : Nat) (s : State) : Reported s (countPoison n s) := by
  rw [countPoison]
  split
  · exact .refl s
  · exact recordFor_reported _ 1 n 0 s

theorem Reported.clock {s t : State} (h : Reported s t) : t.clock = s.clock := by
  rw [h.1]
  rfl

theorem Reported.wld {s t : State} (h : Reported s t) : t.wld = s.wld := by
  rw [h.1]

end Machine

end Sys2Proof

/-! ## ARENA (R251) -/

namespace Sys2Proof

namespace Machine

/-! ### A pair of registers that is written -/

/-- An instruction that writes two registers next to each other and goes on. -/
theorem finish_pair {i : Instr} {f : Form} {s u : State} (hform : form i = some f) (d : Nat) (lo hi : Word)
    (hexec : exec i s = finish f { u with st := (u.st.sset d lo).sset (d + 1) hi }) :
    Completes i s fun t => WentOn (wordCount i) u t ∧ t.st.sget d = lo ∧ t.st.sget (d + 1) = hi
      ∧ OnlyScalars [d, d + 1] u t := by
  have hmoved := advance_onlyMoved (formSize f) { u with st := (u.st.sset d lo).sset (d + 1) hi }
  have hregs : (advance (formSize f) { u with st := (u.st.sset d lo).sset (d + 1) hi }).st.s
      = ((u.st.sset d lo).sset (d + 1) hi).s := by rw [hmoved]; rfl
  refine ⟨_, hexec, ?_, ?_, ?_, ?_⟩
  · rw [wordCount_of_form hform]
    exact advance_wentOn _ rfl rfl
  · rw [Strand.sget, hregs, ← Strand.sget, Strand.sget_sset, if_neg (by omega), Strand.sget_sset, if_pos rfl]
  · rw [Strand.sget, hregs, ← Strand.sget, Strand.sget_sset, if_pos rfl]
  · exact ((Strand.sset_only d lo u).trans (Strand.sset_only (d + 1) hi { u with st := u.st.sset d lo })).moved hmoved

/-! ### ARENA -/

theorem capField_small {free n : Nat} (h : n < 2 ^ 38) : capField free n = n := if_pos h

theorem capField_lt (free n : Nat) : capField free n < 2 ^ 38 := by
  rw [capField]
  split <;> omega

theorem lookup_isSome_iff {α : Type} (k : Nat) (l : List (Nat × α)) : (l.lookup k).isSome = true ↔ ∃ y, (k, y) ∈ l := by
  rw [List.lookup_isSome_iff]
  constructor
  · rintro ⟨⟨a, y⟩, hmem, hk⟩
    have hk' : k = a := by simpa using hk
    exact ⟨y, hk' ▸ hmem⟩
  · rintro ⟨y, hmem⟩
    exact ⟨(k, y), hmem, by simp⟩

theorem exec_arena_runs {d : BitVec 7} {a : Opnd} {x : BitVec 8} {s : State} (h : NoReadError (.arena d a x) s)
    (hout : s.prologue = false) :
    exec (.arena d a x) s = if x = 4 then arenaTouch (.arena d a x) d (s.arg64 a) s
      else finish (.arena d a x) { s with st := s.st.sset64 d.toNat (arenaQuery s x.toNat (s.arg64 a)) } := by
  rw [engineAct_runs h rfl (by rw [exec_arena, execArena]) hout]

/-- A query writes its answer to the pair of D. -/
theorem arena_answers {d : BitVec 7} {a : Opnd} {x : BitVec 8} {s : State} (h : NoReadError (.arena d a x) s)
    (hout : s.prologue = false) (hx : x ≠ 4) {lo hi : Word} (hlo : (arenaQuery s x.toNat (s.arg64 a)).setWidth 32 = lo)
    (hhi : (arenaQuery s x.toNat (s.arg64 a) >>> 32).setWidth 32 = hi) :
    Completes (.arena d a x) s fun t => WentOn (wordCount (.arena d a x)) s t ∧ t.st.sget d.toNat = lo
      ∧ t.st.sget (d.toNat + 1) = hi ∧ OnlyScalars [d.toNat, d.toNat + 1] s t :=
  finish_pair rfl d.toNat lo hi ((exec_arena_runs h hout).trans (by rw [if_neg hx, Strand.sset64, hlo, hhi]))

/-- The halves of a number below 2^64. -/
theorem ofNat_halves (n : Nat) : ((BitVec.ofNat 64 n).setWidth 32 : Word) = BitVec.ofNat 32 n
    ∧ ((BitVec.ofNat 64 n >>> 32).setWidth 32 : Word) = BitVec.ofNat 32 (n / 2 ^ 32) := by
  constructor
  · apply BitVec.eq_of_toNat_eq
    simp
  · apply BitVec.eq_of_toNat_eq
    simp [Nat.shiftRight_eq_div_pow]
    omega

theorem arenaQuery_none {s : State} {p : DWord} (x : Nat)
    (h : ptrSlot p = none ∨ ∃ id, ptrSlot p = some id ∧ (slotRec s id).world ≠ s.wld.key) : arenaQuery s x p = 0 := by
  rw [arenaQuery]
  obtain h | ⟨id, h, hw⟩ := h
  · rw [h]
  · simp only [h]
    exact if_pos hw

theorem arenaQuery_mine {s : State} {p : DWord} {id : SlotId} (x : Nat) (h : ptrSlot p = some id)
    (hw : (slotRec s id).world = s.wld.key) : arenaQuery s x p =
      let r := slotRec s id
      if x = 0 then
        BitVec.ofNat 64 (r.gen.toNat + 2 ^ 10 * r.state + 2 ^ 12 * r.cls
          + (if r.state = 1 ∧ r.gen.toNat = ptrGen p then 2 ^ 14 else 0) + 2 ^ 32 * r.pages.length)
      else if x = 1 then BitVec.ofNat 64 (capField s.free r.cap)
      else if x = 2 then BitVec.ofNat 64 (capField s.free r.cursor)
      else if (r.pages.lookup (ptrOffset p / slotPage id)).isSome then 1 else 0 := by
  rw [arenaQuery]
  simp only [h]
  exact if_neg (not_not.mpr hw)

/-- Below 2^38 a capacity or a cursor is given whole, and above it in 38 bits. -/
theorem arena_caps {d : BitVec 7} {a : Opnd} {x : BitVec 8} {s : State} (h : NoReadError (.arena d a x) s)
    (hout : s.prologue = false) (hx : x ≠ 4) {v : Nat}
    (hq : arenaQuery s x.toNat (s.arg64 a) = BitVec.ofNat 64 (capField s.free v)) :
    let answers := fun (lo hi : Word) => Completes (.arena d a x) s fun t =>
      WentOn (wordCount (.arena d a x)) s t ∧ t.st.sget d.toNat = lo ∧ t.st.sget (d.toNat + 1) = hi
        ∧ OnlyScalars [d.toNat, d.toNat + 1] s t
    (v < 2 ^ 38 → answers (BitVec.ofNat 32 v) (BitVec.ofNat 32 (v / 2 ^ 32)))
      ∧ (2 ^ 38 ≤ v → ∃ lo hi : Word, hi.toNat < 2 ^ 6 ∧ answers lo hi) := by
  have hhalves := ofNat_halves (capField s.free v)
  rw [← hq] at hhalves
  refine ⟨fun hv => ?_, fun _ => ⟨_, _, ?_, arena_answers h hout hx hhalves.1 hhalves.2⟩⟩
  · rw [capField_small hv] at hhalves
    exact arena_answers h hout hx hhalves.1 hhalves.2
  · have := capField_lt s.free v
    rw [BitVec.toNat_ofNat]
    omega

theorem arenaTouch_plain {f : Form} {d : BitVec 7} {p : DWord} {s : State} (h : ptrSpace p = 0) :
    arenaTouch f d p s = finish f { s with st := s.st.sset64 d.toNat 0 } := if_pos h

theorem arenaTouch_bad {f : Form} {d : BitVec 7} {p : DWord} {s : State} (h : ptrSpace p ≠ 0) {x : FaultInfo}
    (hcheck : checkArena s s.wld (dieOf s.blk.core) (.load false) true p 1 = .bad x) :
    arenaTouch f d p s = parkOrDeliver x 1 s := by
  rw [arenaTouch, if_neg h, hcheck]

theorem arenaTouch_ok {f : Form} {d : BitVec 7} {p : DWord} {s u : State} {w : World} {part : PagePart} {id : SlotId}
    (h : ptrSpace p ≠ 0) (hid : ptrSlot p = some id)
    (hcheck : checkArena s s.wld (dieOf s.blk.core) (.load false) true p 1 = .ok part u w) :
    let backed := ((slotRec s id).pages.lookup (ptrOffset p / slotPage id)).isSome
    arenaTouch f d p s = finish f { u with wld := w, st := u.st.sset64 d.toNat (if backed then 0 else 1) } := by
  rw [arenaTouch, if_neg h, hcheck]
  simp only [hid]

end Machine

open Machine

/-- Settles O30. -/
theorem arenaQueries : Obligations.ArenaQueries := by
  refine ⟨fun c d a x hw => ?_, fun d a x s h hout => ?_⟩
  · obtain ⟨f, row, hform, hrow, hcheck⟩ := wellFormed_iff.mp hw
    obtain ⟨hword, hheld, hcls, hseq, hpre, hzero, hext, hfields, hops⟩ := hcheck
    cases hform
    have hx : x < 5 := of_decide_eq_true hfields
    have : x.toNat < 5 := hx
    omega
  · intro p answers
    have small : ∀ {n : Nat}, x.toNat = n → n ≤ 3 → x ≠ 4 := by
      rintro n hn hle rfl
      have : (4 : BitVec 8).toNat = 4 := rfl
      omega
    refine ⟨fun hx hnone => ?_, fun id hid hworld => ?_, fun hx hp => ?_, fun hx hp y hy => ?_, fun part u w id hx hp hid hy => ?_⟩
    · have hq := arenaQuery_none x.toNat hnone
      exact arena_answers h hout (small rfl hx) (by rw [hq]; rfl) (by rw [hq]; rfl)
    · have hq := arenaQuery_mine x.toNat hid hworld
      intro r live backed
      have hbacked : (r.pages.lookup (ptrOffset p / slotPage id)).isSome = true ↔ backed := lookup_isSome_iff _ _
      refine ⟨fun hx hstate hcls => ?_, fun v hv => ?_, fun hx hb => ?_, fun hx hb => ?_⟩
      · subst hx
        have hlow : r.gen.toNat + 2 ^ 10 * r.state + 2 ^ 12 * r.cls + (if live then 2 ^ 14 else 0) < 2 ^ 32 := by
          have := r.gen.isLt
          split <;> omega
        have hq : arenaQuery s (0 : BitVec 8).toNat (s.arg64 a) = BitVec.ofNat 64 (r.gen.toNat + 2 ^ 10 * r.state
          + 2 ^ 12 * r.cls + (if live then 2 ^ 14 else 0) + 2 ^ 32 * r.pages.length) := hq.trans (if_pos rfl)
        obtain ⟨hlo, hhi⟩ := ofNat_halves (r.gen.toNat + 2 ^ 10 * r.state + 2 ^ 12 * r.cls
          + (if live then 2 ^ 14 else 0) + 2 ^ 32 * r.pages.length)
        refine arena_answers h hout (by decide) ?_ ?_
        · rw [hq, hlo]
          apply BitVec.eq_of_toNat_eq
          simp only [BitVec.toNat_ofNat]
          omega
        · rw [hq, hhi]
          congr 1
          omega
      · obtain ⟨rfl, rfl⟩ | ⟨rfl, rfl⟩ := hv
        · exact arena_caps h hout (by decide) hq
        · exact arena_caps h hout (by decide) hq
      · subst hx
        have hq : arenaQuery s (3 : BitVec 8).toNat (s.arg64 a) = 1 := hq.trans (if_pos (hbacked.mpr hb))
        exact arena_answers h hout (by decide) (by rw [hq]; rfl) (by rw [hq]; rfl)
      · subst hx
        have hq : arenaQuery s (3 : BitVec 8).toNat (s.arg64 a) = 0 := hq.trans (if_neg (mt hbacked.mp hb))
        exact arena_answers h hout (by decide) (by rw [hq]; rfl) (by rw [hq]; rfl)
    · refine finish_pair rfl d.toNat 0 0 ((exec_arena_runs h hout).trans ((if_pos hx).trans (arenaTouch_plain hp)))
    · exact (exec_arena_runs h hout).trans ((if_pos hx).trans (arenaTouch_bad hp hy))
    · obtain ⟨t, hexec, -, hlo, hhi, honly⟩ := finish_pair (u := { u with wld := w }) rfl d.toNat _ _
        ((exec_arena_runs h hout).trans ((if_pos hx).trans (arenaTouch_ok (p := p) (u := u) (w := w) (part := part) hp hid hy)))
      have hst : u.st = s.st := by rw [(checkArena_only hy).1.1]
      refine ⟨t, hexec, ?_, ?_, ?_⟩
      · rw [hlo]
        split <;> rfl
      · rw [hhi]
        split <;> rfl
      · rw [← hst]
        exact honly

end Sys2Proof

/-! ## Reading in units that come apart, and CPOST (R269, R270, R278, R279, R294) -/

namespace Sys2Proof

namespace Machine

/-! ### Reads that come apart -/

theorem someOf_spec {α : Type} (free salt : Nat) {l : List α} (h : l ≠ []) :
    someOf free salt l ≠ [] ∧ ∀ x ∈ someOf free salt l, x ∈ l := by
  unfold someOf
  split
  · refine ⟨?_, fun x hx => List.mem_of_mem_take hx⟩
    cases l with
    | nil => exact absurd rfl h
    | cons a l => exact List.cons_ne_nil _ _
  next some_ hsome =>
    refine ⟨hsome, fun x hx => ?_⟩
    obtain ⟨⟨y, n⟩, hy, rfl⟩ := List.mem_map.mp hx
    exact List.fst_mem_of_mem_zipIdx (List.mem_of_mem_filter hy)

/-- The units of n bytes, numbered from `base` on, with their places. -/
def Units {α : Type} (units : List (List (Nat × α))) (base n : Nat) (place : Nat → α) : Prop :=
  units.flatten = (List.range n).map fun k => (base + k, place k)

/-- Bytes that are left: a step reads some of them. -/
theorem readApart_unread {α : Type} {units : List (List (Nat × α))} {base n : Nat} {place : Nat → α}
    (hunits : Units units base n place) {s : State} (h : Unread base n s) (before : List α → State → State)
    (get : State → α → Byte × Bool) (k : List (Byte × Bool) → State → Out) :
    ∃ ks : List Nat, (∀ j ∈ ks, j < n) ∧ (∃ j ∈ ks, s.st.fetched.lookup (base + j) = none)
      ∧ readApart units before get s k =
        let v := before (ks.map place) s
        .next { v with st := { v.st with
          fetched := v.st.fetched ++ ks.map fun j => (base + j, get v (place j)) } } := by
  obtain ⟨j, hj, hnone⟩ := h
  have hmem : (base + j, place j) ∈ units.flatten := by
    rw [hunits]
    exact List.mem_map.mpr ⟨j, List.mem_range.mpr hj, rfl⟩
  obtain ⟨w, hw, hjw⟩ := List.mem_flatten.mp hmem
  have hleft : (units.filter fun u => u.any fun x => (s.st.fetched.lookup x.1).isNone) ≠ [] :=
    List.ne_nil_of_mem (List.mem_filter.mpr ⟨hw, List.any_eq_true.mpr ⟨_, hjw, by rw [hnone]; rfl⟩⟩)
  obtain ⟨hsome, hsub⟩ := someOf_spec s.free (2 ^ 64) hleft
  generalize hnow : someOf s.free (2 ^ 64) (units.filter fun u => u.any fun x => (s.st.fetched.lookup x.1).isNone) = now
    at hsome hsub
  have hin : ∀ x ∈ now.flatten, x.1 - base < n ∧ x = (base + (x.1 - base), place (x.1 - base)) := by
    intro x hx
    obtain ⟨v, hv, hxv⟩ := List.mem_flatten.mp hx
    have hx : x ∈ units.flatten := List.mem_flatten.mpr ⟨v, List.mem_of_mem_filter (hsub v hv), hxv⟩
    rw [hunits] at hx
    obtain ⟨j, hj, rfl⟩ := List.mem_map.mp hx
    have hj := List.mem_range.mp hj
    simpa using hj
  refine ⟨now.flatten.map fun x => x.1 - base, ?_, ?_, ?_⟩
  · intro j hj
    obtain ⟨x, hx, rfl⟩ := List.mem_map.mp hj
    exact (hin x hx).1
  · obtain ⟨u, l, rfl⟩ := List.exists_cons_of_ne_nil hsome
    obtain ⟨x, hx, hnone⟩ := List.any_eq_true.mp (List.mem_filter.mp (hsub u List.mem_cons_self)).2
    have hx : x ∈ (u :: l).flatten := List.mem_flatten.mpr ⟨u, List.mem_cons_self, hx⟩
    refine ⟨_, List.mem_map.mpr ⟨x, hx, rfl⟩, ?_⟩
    rw [(hin x hx).2] at hnone
    exact Option.isNone_iff_eq_none.mp hnone
  · have hplaces : now.flatten.map (·.2) = (now.flatten.map fun x => x.1 - base).map place := by
      rw [List.map_map]
      exact List.map_congr_left fun x hx => congrArg Prod.snd (hin x hx).2
    have hread : ∀ v : State, (now.flatten.map fun x => (x.1, get v x.2))
        = (now.flatten.map fun x => x.1 - base).map fun j => (base + j, get v (place j)) := by
      intro v
      rw [List.map_map]
      exact List.map_congr_left fun x hx => congrArg (fun y : Nat × α => (y.1, get v y.2)) (hin x hx).2
    rw [readApart, if_neg (by rw [List.isEmpty_iff]; exact hleft)]
    simp only [hnow, hread]
    rw [hplaces]

/-- Once none is left, the instruction goes on with what it has read. -/
theorem readApart_read {α : Type} {units : List (List (Nat × α))} {base n : Nat} {place : Nat → α}
    (hunits : Units units base n place) {s : State} (h : ¬ Unread base n s) (before : List α → State → State)
    (get : State → α → Byte × Bool) (k : List (Byte × Bool) → State → Out) :
    readApart units before get s k
      = k ((List.range n).map fun j => (s.st.fetched.lookup (base + j)).getD (0#8, false)) s := by
  have hleft : (units.filter fun u => u.any fun x => (s.st.fetched.lookup x.1).isNone).isEmpty = true := by
    rw [List.isEmpty_iff, List.filter_eq_nil_iff]
    intro u hu hany
    obtain ⟨x, hx, hnone⟩ := List.any_eq_true.mp hany
    have hx : x ∈ units.flatten := List.mem_flatten.mpr ⟨u, hu, hx⟩
    rw [hunits] at hx
    obtain ⟨j, hj, rfl⟩ := List.mem_map.mp hx
    exact h ⟨j, List.mem_range.mp hj, Option.isNone_iff_eq_none.mp hnone⟩
  rw [readApart, if_pos hleft, hunits, List.map_map]
  rfl

theorem consume_clean {f : FaultInfo} {l : List (Byte × Bool)} {s : State} (k : List Byte → State → Out)
    (h : ∀ x ∈ l, x.2 = false) : consume f l s k = k (l.map (·.1)) s := by
  rw [consume, if_neg]
  rw [List.any_eq_true]
  rintro ⟨x, hx, hbad⟩
  rw [h x hx] at hbad
  exact Bool.false_ne_true hbad

theorem consume_poisoned {f : FaultInfo} {l : List (Byte × Bool)} {s : State} (k : List Byte → State → Out)
    {x : Byte} (h : (x, true) ∈ l) (hstrict : s.grd.tolerant = false) : consume f l s k = deliver f s := by
  rw [consume, if_pos (List.any_eq_true.mpr ⟨_, h, rfl⟩), if_neg (by rw [hstrict]; exact Bool.false_ne_true)]

/-- Instruction i comes in state s to a read of n bytes in state u. -/
theorem readsOn_of_readApart {α : Type} {units : List (List (Nat × α))} {base n : Nat} {place : Nat → α}
    (hunits : Units units base n place) {i : Instr} {s u : State} {before : List α → State → State}
    {get : State → α → Byte × Bool} {k : List (Byte × Bool) → State → Out} (hexec : exec i s = readApart units before get u k)
    {got : Nat → Byte × Bool → Prop}
    (hbefore : ∀ l, (∀ p ∈ l, ∃ j, j < n ∧ p = place j) → (∀ x ∈ (before l u).l1, x ∈ u.l1) ∧ before l u = { u with l1 := (before l u).l1 }
      ∧ ∀ j, j < n → got j (get (before l u) (place j)))
    (h : Unread base n u) : ReadsOn base n got i s u := by
  obtain ⟨ks, hks, ⟨j, hj, hnone⟩, hread⟩ := readApart_unread hunits h before get k
  obtain ⟨hl1, hsame, hgot⟩ := hbefore (ks.map place) fun p hp => by
    obtain ⟨j, hj, rfl⟩ := List.mem_map.mp hp
    exact ⟨j, hks j hj, rfl⟩
  refine ⟨_, hexec.trans hread, ks.map fun j => (base + j, get (before (ks.map place) u) (place j)),
    ⟨_, List.mem_map.mpr ⟨j, hj, rfl⟩, hnone⟩, ?_, hl1, ?_⟩
  · intro x hx
    obtain ⟨j, hj, rfl⟩ := List.mem_map.mp hx
    exact ⟨j, hks j hj, rfl, hgot j (hks j hj)⟩
  · rw [hsame]

theorem unread_of_bytesRead {base n : Nat} {bytes : List Byte} {s : State} (hlen : bytes.length = n)
    (h : BytesRead base bytes s) : ¬ Unread base n s := by
  rintro ⟨k, hk, hnone⟩
  rw [h k (by omega)] at hnone
  cases hnone

/-- Bytes that have all been read, none of them poisoned. -/
theorem consume_bytesRead {f : FaultInfo} {base n : Nat} {bytes : List Byte} {s : State} (u : State) (hlen : bytes.length = n)
    (h : BytesRead base bytes s) (k : List Byte → State → Out) :
    consume f ((List.range n).map fun j => (s.st.fetched.lookup (base + j)).getD (0#8, false)) u k = k bytes u := by
  have hread : ((List.range n).map fun j => (s.st.fetched.lookup (base + j)).getD (0#8, false))
      = (List.range n).map fun j => (nth 0#8 bytes j, false) := by
    apply List.map_congr_left
    intro j hj
    rw [h j (by rw [hlen]; exact List.mem_range.mp hj)]
    rfl
  rw [hread, consume_clean _ (by simp), List.map_map]
  congr 1
  subst hlen
  refine List.ext_getElem (by simp) fun j hj hj' => ?_
  rw [List.getElem_map, List.getElem_range]
  exact nth_eq_getElem 0#8 bytes j hj'

/-- Bytes that have all been read, one of them poisoned. -/
theorem consume_readPoison {f : FaultInfo} {base n : Nat} {s u : State} (h : ReadPoison base n s)
    (hstrict : u.grd.tolerant = false) (k : List Byte → State → Out) :
    consume f ((List.range n).map fun j => (s.st.fetched.lookup (base + j)).getD (0#8, false)) u k = deliver f u := by
  obtain ⟨-, j, x, hj, hx⟩ := h
  exact consume_poisoned k (List.mem_map.mpr ⟨j, List.mem_range.mpr hj, by rw [hx]; rfl⟩) hstrict

/-! ### The image in the scratchpad -/

theorem flatten_singletons {α : Type} (n : Nat) (f : Nat → α) : ((List.range n).map fun i => [f i]).flatten = (List.range n).map f := by
  rw [← List.flatMap_def, ← List.map_eq_flatMap]

/-- An instruction that reads its image. -/
theorem image_then {i : Instr} {a : Opnd} {s : State} {k : List Byte → State → Out} {P : List Byte → Prop}
    (hexec : exec i s = scratchRead (imageBase a s) 64 s k)
    (hgo : ∀ image, image.length = 64 → exec i s = k image s → P image) :
    (Unread 0 64 s →
      ReadsOn 0 64 (fun k x => x = (Memory.read s.blk.scratch (imageBase a s + k), s.blk.scratchPoison.contains (imageBase a s + k))) i s s)
    ∧ (ReadPoison 0 64 s → s.grd.tolerant = false → exec i s = deliver ⟨0x50, 0, BitVec.ofNat 64 (imageBase a s), 0, 0, 0⟩ s)
    ∧ ∀ image, image.length = 64 → BytesRead 0 image s → P image := by
  have hunits : Units ((List.range 64).map fun i => [(i, imageBase a s + i)]) 0 64 (imageBase a s + ·) := by
    rw [Units, flatten_singletons]
    simp only [Nat.zero_add]
  rw [scratchRead] at hexec
  refine ⟨readsOn_of_readApart hunits hexec fun l _ => ⟨fun _ h => h, rfl, fun _ _ => rfl⟩, fun hpoison hstrict => ?_, fun image hlen hread => ?_⟩
  · rw [hexec, readApart_read hunits hpoison.1, consume_readPoison hpoison hstrict]
    rfl
  · refine hgo image hlen ?_
    rw [hexec, readApart_read hunits (unread_of_bytesRead hlen hread), consume_bytesRead s hlen hread]

/-! ### CPOST -/

/-- CPOST and CPOST.nb, once they have their image. -/
def cpostGo (f : Form) (nb : Bool) (d : BitVec 7) (image : List Byte) (s : State) : Out :=
  let s := cometHeaderCheck s
  match cometHeader s s.wld s.st.cqsel.toNat with
  | none => cpostEnds f d.toNat (refusedWord 2) s
  | some (q, h) =>
    if h.full then
      if nb then cpostEnds f d.toNat 0xB0000000#32 s else .next (waitFor .queue s)
    else
      match postImage s.wld.key h image s with
      | none => cpostEnds f d.toNat (refusedWord 2) s
      | some s => finish f (owe d.toNat s.wld.key q.index h.write s)

/-- The two forms: the instruction, whether it waits for no one, and how it is written. -/
structure CpostForm (make : BitVec 7 → Opnd → Instr) (nb : Bool) (write : BitVec 7 → Opnd → Form) : Prop where
  formOf : ∀ d a, form (make d a) = some (write d a)
  execOf : ∀ d a s, exec (make d a) s = cpostAct (write d a) nb d a s

theorem cpost_form : CpostForm .cpost false fun d a => .ctl 0xC0 d a none :=
  ⟨fun _ _ => rfl, fun d a s => by rw [exec_cpost, execCpost]⟩

theorem cpostNb_form : CpostForm .cpostNb true fun d a => .ctl 0xC1 d a none :=
  ⟨fun _ _ => rfl, fun d a s => by rw [exec_cpostNb, execCpostNb]⟩

section

variable {make : BitVec 7 → Opnd → Instr} {nb : Bool} {write : BitVec 7 → Opnd → Form}

theorem CpostForm.runs (hf : CpostForm make nb write) {d : BitVec 7} {a : Opnd} {s : State} (h : NoReadError (make d a) s)
    (hout : s.prologue = false) :
    exec (make d a) s = withImage a s (cpostGo (write d a) nb d) := by
  rw [engineAct_runs h (hf.formOf d a) (by rw [hf.execOf, cpostAct]) hout]
  rfl

/-- An image outside the allotment. -/
theorem CpostForm.outside (hf : CpostForm make nb write) {d : BitVec 7} {a : Opnd} {s : State} (h : NoReadError (make d a) s)
    (hout : s.prologue = false) (himage : s.scratchLimit < imageBase a s + 64) :
    exec (make d a) s = deliver ⟨0x40, 0, BitVec.ofNat 64 (imageBase a s), 0, 0, 0⟩ s :=
  (hf.runs h hout).trans (if_pos himage)

theorem cometHeaderCheck_reported (s : State) : Reported s (cometHeaderCheck s) := by
  rw [cometHeaderCheck]
  split
  · exact headerCheck_reported _ _ s
  · exact .refl s

/-- CPOST ends at once. -/
theorem cpostEnds_completes {i : Instr} {f : Form} {s : State} (hform : form i = some f) {d : Nat} {x : Word}
    (hexec : exec i s = cpostEnds f d x (cometHeaderCheck s)) : Completes i s fun t =>
      WentOn (wordCount i) (cometHeaderCheck s) t ∧ t.st.sget d = x ∧ t.st.sget (d + 1) = s.clock.setWidth 32
        ∧ OnlyScalars [d, d + 1] (cometHeaderCheck s) t := by
  rw [cpostEnds, (cometHeaderCheck_reported s).clock] at hexec
  exact finish_pair hform d x _ hexec

/-- CPOST has posted its packet. -/
theorem owe_completes {i : Instr} {f : Form} {s v : State} (hform : form i = some f) {d key queue index : Nat}
    (hexec : exec i s = finish f (owe d key queue index v)) : Completes i s fun t =>
      WentOn (wordCount i) v t ∧ t.posts = v.posts ++ [⟨v.postCount, key, queue, index, v.st.ref, d⟩]
        ∧ t.st.owed = (v.st.owed.filter fun x => x.reg ≠ d) ++ [⟨d, v.postCount, false, false⟩]
        ∧ t.mem = v.mem ∧ t.st.s = v.st.s := by
  have hmoved := advance_onlyMoved (formSize f) (owe d key queue index v)
  refine ⟨_, hexec, ?_, ?_, ?_, ?_, ?_⟩
  · rw [wordCount_of_form hform]
    exact advance_wentOn _ rfl rfl
  all_goals
    rw [hmoved]
    rfl

theorem postImage_wld {key : Nat} {h : Header} {image : List Byte} {s v : State} (hpost : postImage key h image s = some v) :
    v.wld = s.wld := by
  obtain ⟨x, -, rfl⟩ := Option.map_eq_some_iff.mp hpost
  exact ((writePlaces_reported _ _ _ s).trans (writePlaces_reported _ _ _ _)).wld

theorem CpostForm.posts (hf : CpostForm make nb write) {d : BitVec 7} {a : Opnd} {s : State} (h : NoReadError (make d a) s)
    (hout : s.prologue = false) :
    let i := make d a
    let u := cometHeaderCheck s
    let ends := fun (x : Word) => Completes i s fun t =>
      WentOn (wordCount i) u t ∧ t.st.sget d.toNat = x ∧ t.st.sget (d.toNat + 1) = s.clock.setWidth 32
        ∧ OnlyScalars [d.toNat, d.toNat + 1] u t
    ImageThen i a s fun image =>
      (cometHeader u u.wld u.st.cqsel.toNat = none → ends 0x10020000)
      ∧ ∀ q h, cometHeader u u.wld u.st.cqsel.toNat = some (q, h) →
        (h.full = true → nb = false → exec i s = .next (waitFor .queue u))
        ∧ (h.full = true → nb = true → ends 0xB0000000)
        ∧ (h.full = false → postImage u.wld.key h image u = none → ends 0x10020000)
        ∧ ∀ v, h.full = false → postImage u.wld.key h image u = some v → Completes i s fun t =>
          WentOn (wordCount i) v t
            ∧ t.posts = v.posts ++ [⟨v.postCount, s.wld.key, q.index, h.write, v.st.ref, d.toNat⟩]
            ∧ t.st.owed = (v.st.owed.filter fun x => x.reg ≠ d.toNat) ++ [⟨d.toNat, v.postCount, false, false⟩]
            ∧ t.mem = v.mem ∧ t.st.s = v.st.s := by
  intro i u ends hinside
  have hread : exec i s = scratchRead (imageBase a s) 64 s (cpostGo (write d a) nb d) :=
    (hf.runs h hout).trans (if_neg (Nat.not_lt.mpr hinside))
  refine image_then hread fun image _ hgo => ?_
  have hends : ∀ x, exec i s = cpostEnds (write d a) d.toNat x u → ends x := fun x => cpostEnds_completes (hf.formOf d a)
  refine ⟨fun hnone => hends _ ?_, fun q h hsome => ⟨fun hfull hnb => ?_, fun hfull hnb => hends _ ?_, fun hfull hpost => hends _ ?_, fun v hfull hpost => ?_⟩⟩
  · rw [hgo, cpostGo]
    simp only [u] at hnone
    simp only [hnone]
    rfl
  all_goals
    have hgo : exec i s = if h.full then
        if nb then cpostEnds (write d a) d.toNat 0xB0000000#32 u else .next (waitFor .queue u)
      else
        match postImage u.wld.key h image u with
        | none => cpostEnds (write d a) d.toNat (refusedWord 2) u
        | some v => finish (write d a) (owe d.toNat v.wld.key q.index h.write v) := by
      rw [hgo, cpostGo]
      simp only [u] at hsome
      simp only [hsome]
      rfl
  · rw [hgo, if_pos hfull, if_neg (by rw [hnb]; exact Bool.false_ne_true)]
  · rw [hgo, if_pos hfull, if_pos hnb]
    rfl
  · rw [hgo, if_neg (by rw [hfull]; exact Bool.false_ne_true), hpost]
    rfl
  · rw [if_neg (by rw [hfull]; exact Bool.false_ne_true), hpost] at hgo
    have hkey : v.wld.key = s.wld.key := by
      rw [postImage_wld hpost, (cometHeaderCheck_reported s).wld]
    obtain ⟨t, hexec, hon, hposts, howed⟩ := owe_completes (hf.formOf d a) hgo
    exact ⟨t, hexec, hon, hkey ▸ hposts, howed⟩

end

/-! ### The slot that a post fills -/

/-- No host owns a place of the device. -/
theorem hostGone_low (s : State) {x : Nat} (h : x < Config.paSpace) : s.hostGone x = false := by
  simp only [State.hostGone, Bool.or_eq_false_iff, Bool.and_eq_false_iff, decide_eq_false_iff_not]
  omega

/-- A write of bytes to their places, none of which a host has lost, leaves them there and every other byte alone. -/
theorem writePlaces_bytes {key : Nat} {pas : List Nat} {bytes : List Byte} {s : State} (hlen : pas.length = bytes.length)
    (hnodup : pas.Nodup) (hthere : ∀ x ∈ pas, s.hostGone x = false) (hw : Memory.wf s.mem = true) :
    pas.map (Memory.read (writePlaces key false (pas.zip bytes) s).mem) = bytes
      ∧ SameBytes pas s (writePlaces key false (pas.zip bytes) s)
      ∧ Memory.wf (writePlaces key false (pas.zip bytes) s).mem = true := by
  have hkeys : (pas.zip bytes).map (·.1) = pas := List.map_fst_zip (Nat.le_of_eq hlen)
  have hgone : ∀ x ∈ pas.zip bytes, s.hostGone x.1 = false := by
    rintro ⟨x, b⟩ hx
    exact hthere x (List.of_mem_zip hx).1
  have hstored := (writePlaces_stored key false (pas.zip bytes) s).2 hw
  rw [hkeys] at hstored
  refine ⟨List.ext_getElem (by rw [List.length_map, hlen]) fun j hj hj' => ?_, hstored.2, hstored.1⟩
  rw [List.getElem_map]
  refine writePlaces_read key hgone hw (hkeys.symm ▸ hnodup) ?_
  have hj : j < (pas.zip bytes).length := by rw [List.length_zip]; simp at hj; omega
  have := List.getElem_mem hj
  rwa [List.getElem_zip] at this

theorem zip_take_right {α β : Type} (l : List α) (m : List β) : l.zip m = (l.take m.length).zip m := by
  rw [List.zip_eq_zip_take_min, List.zip_eq_zip_take_min (l₁ := l.take m.length)]
  simp [List.take_take, Nat.min_comm]

/-- Bytes that a write leaves alone. -/
theorem SameBytes.map {except pas : List Nat} {s t : State} (h : SameBytes except s t) (hdisjoint : ∀ x ∈ pas, x ∉ except) :
    pas.map (Memory.read t.mem) = pas.map (Memory.read s.mem) :=
  List.map_congr_left fun x hx => h x (hdisjoint x hx)

end Machine

open Machine

/-- Settles O27. -/
theorem cometPosts : Obligations.CometPosts := by
  refine ⟨fun e he d a s h hout => ?_, fun key pk h image s v pas hplaces hpost hlen himage hheader hnodup hlow hw => ?_⟩
  · simp only [List.mem_cons, List.not_mem_nil, or_false] at he
    obtain rfl | rfl := he
    · exact ⟨cpost_form.outside h hout, cpost_form.posts h hout⟩
    · exact ⟨cpostNb_form.outside h hout, cpostNb_form.posts h hout⟩
  · obtain ⟨x, hx, rfl⟩ := Option.map_eq_some_iff.mp hpost
    rw [hplaces] at hx
    cases hx
    obtain ⟨hheadN, hpasN, hapart⟩ := List.nodup_append'.mp hnodup
    have hput : h.put 0 8 (h.write + 1) s = writePlaces h.key false ((h.places.take 8).zip (leBytes 8 (h.write + 1))) s := by
      rw [Header.put, List.drop_zero, zip_take_right, length_leBytes]
    have htake : ∀ y ∈ h.places.take 8, y ∈ h.places := fun y hy => List.mem_of_mem_take hy
    obtain ⟨hhead, hheadSame, hwf⟩ := writePlaces_bytes (key := h.key) (bytes := leBytes 8 (h.write + 1))
      (by rw [length_leBytes, List.length_take]; omega) (hheadN.sublist (List.take_sublist 8 _))
      (fun y hy => hostGone_low s (hlow y (List.mem_append_left _ (htake y hy)))) hw
    rw [← hput] at hhead hheadSame hwf
    obtain ⟨hslot, hslotSame, -⟩ := writePlaces_bytes (key := pk) (bytes := h.valid h.write :: image.drop 1)
      (by rw [List.length_cons, List.length_drop]; omega) hpasN (fun y hy => hostGone_low _ (hlow y (List.mem_append_right _ hy))) hwf
    refine ⟨hslot, ?_, hheadSame.append hslotSame⟩
    rw [hslotSame.map fun y hy hy' => hapart (htake y hy) hy']
    exact hhead

end Sys2Proof

/-! ## PROMOTE (R215, R216, R238, R250, R294) -/

namespace Sys2Proof

namespace Machine

/-! ### Allocation -/

theorem roundUp_eq (n : Nat) : roundUp n 16 = (n + 15) / 16 * 16 := rfl

theorem roundUp_eq_zero {n : Nat} : roundUp n 16 = 0 ↔ n = 0 := by
  rw [roundUp_eq]
  omega

/-- The hand-over pool. -/
theorem allocate_pool (n : Nat) (s : State) :
    allocate 2 n s = if s.grd.poolSize = 0 ∨ (roundUp n 16 ≠ 0 ∧ s.grd.poolCursor + roundUp n 16 > s.grd.poolSize) then none
      else some (s.grd.poolBase + BitVec.ofNat 64 s.grd.poolCursor,
        { s with grd := { s.grd with poolCursor := s.grd.poolCursor + roundUp n 16 } }) := by
  rw [allocate]
  exact if_pos rfl

/-- The arena of the block or of the grid. -/
theorem allocate_arena {t cap : Nat} {base : DWord} (n : Nat) {s : State}
    (h : (t, base, cap) ∈ ([(0, s.blk.barena, s.grd.bcap), (1, s.grd.garena, s.grd.gcap)] : List (Nat × DWord × Nat))) :
    allocate t n s = if cap = 0 then none else
      match ptrSlot base with
      | none => none
      | some id =>
        let r := slotRec s id
        if roundUp n 16 ≠ 0 ∧ r.cursor + roundUp n 16 > r.cap then none
        else some (base + BitVec.ofNat 64 r.cursor, setSlotRec s { r with cursor := r.cursor + roundUp n 16 }) := by
  simp only [List.mem_cons, Prod.mk.injEq, List.not_mem_nil, or_false] at h
  obtain ⟨rfl, rfl, rfl⟩ | ⟨rfl, rfl, rfl⟩ := h <;> rw [allocate] <;> rfl

/-! ### The bytes of the source, one unit each -/

/-- Lengths that follow one another from `off` to n. -/
def Consecutive {α : Type} : Nat → List (Nat × α × Nat) → Nat → Prop
  | off, [], n => off = n
  | off, (o, _, len) :: l, n => o = off ∧ Consecutive (off + len) l n

/-- Three parts suffice for 64 KiB. -/
theorem partsOf_consecutive (p : DWord) {n : Nat} (h : n ≤ 65536) : Consecutive 0 (partsOf p n 3 0) n := by
  have hfield : ∀ q : DWord, field q 0 16 = q.toNat % 65536 := fun q => by simp [field]
  by_cases h0 : 0 < n
  · have hfirst : field (p + BitVec.ofNat 64 0) 0 16 = p.toNat % 65536 := by simp [hfield]
    rw [partsOf, if_pos h0]
    refine ⟨rfl, ?_⟩
    rw [hfirst, partsOf]
    by_cases h1 : 0 + min (n - 0) (65536 - p.toNat % 65536) < n
    · have hsecond : field (p + BitVec.ofNat 64 (0 + min (n - 0) (65536 - p.toNat % 65536))) 0 16 = 0 := by
        rw [hfield, BitVec.toNat_add, BitVec.toNat_ofNat]
        omega
      rw [if_pos h1]
      dsimp only
      rw [hsecond, partsOf, if_neg (by omega)]
      exact ⟨rfl, by show _ = n; omega⟩
    · rw [if_neg h1]
      show _ = n
      omega
  · rw [partsOf, if_neg h0]
    exact (Nat.eq_zero_of_not_pos h0).symm

/-- The bytes of an access's parts, each with its part. -/
def partBytes (parts : List (Nat × DWord × PagePart)) : List (PagePart × Nat) :=
  parts.flatMap fun x => x.2.2.pas.map fun a => (x.2.2, a)

theorem partBytes_places (parts : List (Nat × DWord × PagePart)) : (partBytes parts).map (·.2) = allPas parts := by
  simp [partBytes, allPas, List.map_flatMap, Function.comp_def]

/-- No part and no place. -/
def noPart : PagePart × Nat := (⟨[], 0, 0, false, 0, 0, 0⟩, 0)

theorem nth_map_default {α β : Type} (f : α → β) (d : α) (l : List α) (k : Nat) : nth (f d) (l.map f) k = f (nth d l k) := by
  induction l generalizing k with
  | nil => rfl
  | cons a l ih =>
    cases k with
    | zero => rfl
    | succ k => exact ih k

theorem nth_partBytes (parts : List (Nat × DWord × PagePart)) (k : Nat) :
    (nth noPart (partBytes parts) k).2 = nth 0 (allPas parts) k := by
  rw [← partBytes_places]
  exact (nth_map_default Prod.snd noPart _ k).symm

theorem partBytes_cons (x : Nat × DWord × PagePart) (l : List (Nat × DWord × PagePart)) :
    partBytes (x :: l) = x.2.2.pas.map (fun a => (x.2.2, a)) ++ partBytes l := rfl

theorem promoteUnits_from (parts : List (Nat × DWord × PagePart)) {off n : Nat}
    (h : Consecutive off (parts.map fun y => (y.1, y.2.1, y.2.2.pas.length)) n) :
    off + (partBytes parts).length = n
      ∧ (promoteUnits parts).flatten = ((partBytes parts).zipIdx off).map fun y => (y.2, y.1) := by
  induction parts generalizing off with
  | nil => exact ⟨h, rfl⟩
  | cons x l ih =>
    obtain ⟨rfl, h⟩ := h
    obtain ⟨hlen, hunits⟩ := ih h
    refine ⟨?_, ?_⟩
    · rw [← hlen, partBytes_cons, List.length_append, List.length_map, Nat.add_assoc]
    · have hcons : (promoteUnits (x :: l)).flatten
          = ((List.range x.2.2.pas.length).zip x.2.2.pas).map (fun y => (x.1 + y.1, x.2.2, y.2)) ++ (promoteUnits l).flatten := by
        rw [promoteUnits, List.flatMap_cons, List.flatten_append, ← List.flatMap_def, ← List.map_eq_flatMap]
        rfl
      rw [hcons, hunits, partBytes_cons, List.zipIdx_append, List.map_append, List.length_map]
      refine congrArg₂ (· ++ ·) ?_ rfl
      refine List.ext_getElem (by simp) fun j hj hj' => ?_
      simp

theorem promoteUnits_units {parts : List (Nat × DWord × PagePart)} {n : Nat}
    (h : Consecutive 0 (parts.map fun y => (y.1, y.2.1, y.2.2.pas.length)) n) :
    (partBytes parts).length = n ∧ Units (promoteUnits parts) 0 n (nth noPart (partBytes parts)) := by
  obtain ⟨hlen, hunits⟩ := promoteUnits_from parts h
  rw [Nat.zero_add] at hlen
  refine ⟨hlen, ?_⟩
  rw [Units, hunits]
  refine List.ext_getElem (by simp [hlen]) fun j hj hj' => ?_
  have hj : j < (partBytes parts).length := by simpa using hj
  simp [nth_eq_getElem noPart _ j hj]

theorem badLines_of_mem {s : State} {key a : Nat} {pas : List Nat} (h : badLines s key pas = []) (ha : a ∈ pas) :
    badLines s key [a] = [] := by
  rw [badLines, List.filter_eq_nil_iff] at h ⊢
  intro x hx
  refine h x ?_
  simp only [linesOf, List.mem_eraseDups, List.mem_map, List.mem_filter] at hx ⊢
  obtain ⟨b, ⟨hb, hlow⟩, rfl⟩ := hx
  rw [List.mem_singleton] at hb
  exact ⟨b, ⟨hb ▸ ha, hlow⟩, rfl⟩

/-- The reads of lines whose MACs are right only drop lines of the core's L1. -/
theorem relaxedReads_clean {l : List (PagePart × Nat)} {s : State} (h : ∀ x ∈ l, badLines s x.1.key [x.2] = []) :
    relaxedReads l s = { s with l1 := (relaxedReads l s).l1 } ∧ ∀ x ∈ (relaxedReads l s).l1, x ∈ s.l1 := by
  have hclean : ∀ m : List (PagePart × Nat), (∀ x ∈ m, badLines s x.1.key [x.2] = []) →
      m.foldl (fun s x => macCheck x.1.key [x.2] s) s = s := by
    intro m hm
    induction m with
    | nil => rfl
    | cons x m ih =>
      rw [List.foldl_cons, macCheck_clean (hm x List.mem_cons_self)]
      exact ih fun y hy => hm y (List.mem_cons_of_mem x hy)
  rw [relaxedReads]
  simp only [hclean l h]
  exact ⟨rfl, fun x hx => List.mem_of_mem_filter hx⟩

/-- What a relaxed load reads: the byte at its home, or one of a line of the core's L1. -/
theorem relaxedByte_from (s : State) (x : PagePart × Nat) :
    relaxedByte s x = (s.readByte x.2, s.badNow x.2)
      ∨ ∃ l ∈ s.l1, l.core = s.blk.core ∧ l.line = x.2 / 64
        ∧ relaxedByte s x = (nth 0 l.bytes (x.2 % 64), l.bad.contains (x.2 % 64)) := by
  rw [relaxedByte]
  split
  next l hl =>
    rw [l1Chosen] at hl
    split at hl
    · have hat := List.find?_some hl
      rw [Bool.and_eq_true, decide_eq_true_eq, decide_eq_true_eq] at hat
      exact .inr ⟨l, List.mem_of_find?_eq_some hl, hat.1, hat.2, rfl⟩
    · cases hl
  next => exact .inl rfl

/-! ### PROMOTE.a -/

/-- An operation is issued, whatever instruction issues it. -/
theorem advance_addOp (n : Nat) (o : Op) (s : State) :
    WentOn n s (advance n (addOp o s)) ∧ Issued o s s (advance n (addOp o s)) := by
  have hadd := addOp_eq o s
  have hmoved := advance_onlyMoved n (addOp o s)
  refine ⟨advance_wentOn _ (by rw [hadd]) (by rw [hadd]), ?_, ?_⟩
  · rw [advance_ops, hmoved, hadd]
    rfl
  · rw [advance_ops]
    exact addOp_joined o s

theorem promoteBare_completes {i : Instr} {f : Form} {q : BitVec 5} {p : DWord} {s u : State} (hform : form i = some f)
    (hexec : exec i s = promoteBare f q p u) : Completes i s fun v =>
      WentOn (wordCount i) u v ∧ Issued (opOf (promoteReq p q []) [promoteCarrier p] u) u u v := by
  rw [wordCount_of_form hform]
  exact ⟨_, hexec, advance_addOp _ _ u⟩

theorem exec_promoteA_runs {t : BitVec 2} {q : BitVec 5} {b : Opnd} {s : State} (h : NoReadError (.promoteA t q b) s)
    (hout : s.prologue = false) :
    exec (.promoteA t q b) s = match allocate t.toNat (s.arg b).toNat s with
      | none => deliver (faultAt codePoolEmpty 0) s
      | some (p, s) => promoteBare (.promote t q none b) q p s := by
  rw [engineAct_runs h rfl (by rw [exec_promoteA, execPromoteA]) hout] <;> rfl

theorem promoteA_allocates {t : BitVec 2} {q : BitVec 5} {b : Opnd} {s : State} (h : NoReadError (.promoteA t q b) s)
    (hout : s.prologue = false) :
    (∀ p u, allocate t.toNat (s.arg b).toNat s = some (p, u) → Completes (.promoteA t q b) s fun v =>
      WentOn (wordCount (.promoteA t q b)) u v ∧ Issued (opOf (promoteReq p q []) [promoteCarrier p] u) u u v)
    ∧ (allocate t.toNat (s.arg b).toNat s = none →
      exec (.promoteA t q b) s = deliver ⟨codePoolEmpty, 0, 0, 0, 0, 0⟩ s) := by
  have hexec := exec_promoteA_runs h hout
  refine ⟨fun p u hsome => ?_, fun hnone => ?_⟩
  · rw [hsome] at hexec
    exact promoteBare_completes rfl hexec
  · rw [hexec, hnone]
    rfl

/-! ### PROMOTE -/

theorem exec_promote_runs {t : BitVec 2} {q : BitVec 5} {a : BitVec 6} {b : Opnd} {s : State}
    (h : NoReadError (.promote t q a b) s) (hout : s.prologue = false) :
    exec (.promote t q a b) s = match s.st.promo with
      | some (p, bytes) => promoteWrites (.promote t q (some a) b) t.toNat q p bytes s
      | none =>
        if (s.arg b).toNat > 4096 then deliver (faultAt 0x02 0) s
        else
          match allocate t.toNat 0 s with
          | none => deliver (faultAt codePoolEmpty 0) s
          | some (p, _) =>
            if (s.arg b).toNat = 0 then promoteBare (.promote t q (some a) b) q p s
            else promoteCopy (.promote t q (some a) b) t.toNat q (s.st.sget64 a.toNat) (s.arg b).toNat s := by
  rw [engineAct_runs h rfl (by rw [exec_promote, execPromote]) hout] <;> rfl

/-- The copy of n bytes, whose source has passed its checks. -/
theorem promoteCopy_reads {f : Form} {t : Nat} {q : BitVec 5} {src : DWord} {n : Nat} {s v : State} {w : World}
    {parts : List (Nat × DWord × PagePart)}
    (hcheck : checkParts .strand (dieOf s.blk.core) (.load false) true 1 (partsOf src n 3 0) s s.wld = .ok parts v w) :
    promoteCopy f t q src n s =
      let r : State := { v with wld := w }
      if readHeld r (promoteSource src n) parts then .next (waitFor .order r)
      else
        readApart (promoteUnits parts) relaxedReads relaxedByte r fun l s' =>
          consume (faultAt 0x50 src) l (readOver (allPas parts) s') fun bytes s' =>
            match allocate t n s' with
            | none => deliver (faultAt codePoolEmpty 0) s'
            | some (p, s') => promoteWrites f t q p bytes s' := by
  rw [promoteCopy, hcheck] <;> rfl

theorem promoteCopy_bad {f : Form} {t : Nat} {q : BitVec 5} {src : DWord} {n : Nat} {s : State} {x : FaultInfo}
    (hcheck : checkParts .strand (dieOf s.blk.core) (.load false) true 1 (partsOf src n 3 0) s s.wld = .bad x) :
    promoteCopy f t q src n s = parkOrDeliver x 1 s := by
  rw [promoteCopy, hcheck]

/-- The source is read byte by byte, and then the allocation is made. -/
theorem promote_copies {i : Instr} {f : Form} {t : Nat} {q : BitVec 5} {src : DWord} {n : Nat} {s : State} (hn : n ≤ 65536)
    (hexec : exec i s = promoteCopy f t q src n s) :
    let checks := checkParts .strand (dieOf s.blk.core) (.load false) true 1 (partsOf src n 3 0) s s.wld
    (∀ x, checks = .bad x → exec i s = parkOrDeliver x 1 s)
    ∧ ∀ parts v w, checks = .ok parts v w →
      let r : State := { v with wld := w }
      let x := readOver (allPas parts) r
      (readHeld r (promoteSource src n) parts = true → exec i s = .next (waitFor .order r))
      ∧ (readHeld r (promoteSource src n) parts = false →
        (Unread 0 n r → (∀ x ∈ parts, badLines r x.2.2.key x.2.2.pas = []) →
          ReadsOn 0 n (fun k x => x = homeByte r (allPas parts) k ∨ ∃ l ∈ r.l1, l.core = r.blk.core
            ∧ l.line = nth 0 (allPas parts) k / 64
            ∧ x = (nth 0 l.bytes (nth 0 (allPas parts) k % 64),
                l.bad.contains (nth 0 (allPas parts) k % 64))) i s r)
        ∧ (ReadPoison 0 n r → r.grd.tolerant = false → exec i s = deliver ⟨0x50, 0, src, 0, 0, 0⟩ x)
        ∧ ∀ bytes, bytes.length = n → BytesRead 0 bytes r →
          (allocate t n x = none → exec i s = deliver ⟨codePoolEmpty, 0, 0, 0, 0, 0⟩ x)
          ∧ ∀ p u, allocate t n x = some (p, u) → exec i s = promoteWrites f t q p bytes u) := by
  intro checks
  refine ⟨fun x hbad => hexec.trans (promoteCopy_bad hbad), fun parts v w hok => ?_⟩
  intro r x
  have hexec := hexec.trans (promoteCopy_reads hok)
  obtain ⟨hlen, hunits⟩ := promoteUnits_units (parts := parts) (n := n)
    ((checkParts_passed _ hok).1.symm ▸ partsOf_consecutive src hn)
  refine ⟨fun hheld => hexec.trans (if_pos hheld), fun hheld => ?_⟩
  have hexec := hexec.trans (if_neg (by rw [hheld]; exact Bool.false_ne_true))
  refine ⟨fun hunread hclean => readsOn_of_readApart hunits hexec (fun l hl => ?_) hunread, fun hpoison hstrict => ?_, fun bytes hbytes hread => ?_⟩
  · have hmacs : ∀ y ∈ l, badLines r y.1.key [y.2] = [] := by
      intro y hy
      obtain ⟨j, hj, rfl⟩ := hl y hy
      rw [nth_eq_getElem noPart _ j (by rw [hlen]; exact hj)]
      obtain ⟨z, hz, hmem⟩ := List.mem_flatMap.mp (List.getElem_mem (l := partBytes parts) (by rw [hlen]; exact hj))
      obtain ⟨pa, hpa, he⟩ := List.mem_map.mp hmem
      rw [← he]
      exact badLines_of_mem (hclean z hz) hpa
    obtain ⟨hsame, hl1⟩ := relaxedReads_clean hmacs
    refine ⟨hl1, hsame, fun j _ => ?_⟩
    rw [homeByte, ← nth_partBytes]
    have hgot := relaxedByte_from (relaxedReads l r) (nth noPart (partBytes parts) j)
    rw [hsame] at hgot ⊢
    obtain hhome | ⟨y, hy, hcore, hline, hbyte⟩ := hgot
    · exact .inl hhome
    · exact .inr ⟨y, hl1 y hy, hcore, hline, hbyte⟩
  · rw [hexec, readApart_read hunits hpoison.1]
    exact consume_readPoison (u := x) hpoison hstrict _
  · rw [readApart_read hunits (unread_of_bytesRead hbytes hread), consume_bytesRead x hbytes hread] at hexec
    refine ⟨fun hnone => ?_, fun p u hsome => ?_⟩
    · rw [hexec, hnone]
      rfl
    · rw [hexec, hsome]

/-- Step 3 of R216. -/
theorem promoteWrites_checks (t : Nat) (q : BitVec 5) (f : Form) (s : State) (p : DWord) (bytes : List Byte) :
    let kept : State := { s with st := { s.st with promo := some (p, bytes) } }
    let escape := escapeFault s s.wld.key (some (targetUnit t s)) p bytes
    let checks := checkParts .strand (dieOf s.blk.core) .store true 1 (partsOf p bytes.length 3 0) kept s.wld
    (∀ x, escape = some x → promoteWrites f t q p bytes s = deliver x s)
    ∧ (∀ x, escape = none → checks = .bad x → promoteWrites f t q p bytes s = parkOrDeliver x 1 kept)
    ∧ ∀ parts u w, escape = none → checks = .ok parts u w →
      let v : State := { u with wld := w, st := { u.st with attempt := none } }
      let lanes := promoteCarrier p :: parts.flatMap (laneUnits (promoteReq p q bytes) 0)
      ∃ y, promoteWrites f t q p bytes s = .next y
        ∧ WentOn (formSize f) v y ∧ Issued (opOf (promoteReq p q bytes) lanes v) v v y := by
  intro kept escape checks
  refine ⟨fun x hx => ?_, fun x hnone hbad => ?_, fun parts u w hnone hok => ?_⟩
  · simp only [escape] at hx
    rw [promoteWrites, hx]
  · simp only [escape] at hnone
    simp only [checks, kept] at hbad
    rw [promoteWrites, hnone]
    simp only [hbad]
    rfl
  · intro v lanes
    refine ⟨_, ?_, advance_addOp (formSize f) _ v⟩
    simp only [escape] at hnone
    simp only [checks, kept] at hok
    rw [promoteWrites, hnone]
    simp only [hok]
    rfl

end Machine

open Machine

/-- Settles O29. -/
theorem promotions : Obligations.Promotions := by
  refine ⟨fun n s => ?_, fun t q b s h hout => promoteA_allocates h hout, fun t q a b s h hout => ?_,
    fun t q f s p bytes => promoteWrites_checks t.toNat q f s p bytes⟩
  · intro m size at_
    have hm : m = roundUp n 16 := rfl
    have hzero : m = 0 ↔ n = 0 := roundUp_eq_zero
    refine ⟨fun hsize hroom => (allocate_pool n s).trans (if_neg ?_),
      fun hnone => (allocate_pool n s).trans (if_pos ?_), fun t base cap harena => ?_⟩
    · rw [← hm, hzero.ne]
      rintro (h | ⟨h, h'⟩)
      · exact hsize h
      · omega
    · rw [← hm, hzero.ne]
      omega
    · have halloc := allocate_arena n harena
      refine ⟨fun hcap => halloc.trans (if_pos hcap), fun id hcap hid => ?_⟩
      intro r
      rw [if_neg hcap, hid] at halloc
      refine ⟨fun hroom => halloc.trans (if_neg ?_), fun hn hroom => halloc.trans (if_pos ⟨?_, hroom⟩)⟩
      · rw [← hm, hzero.ne]
        rintro ⟨h, h'⟩
        have h' : r.cap < r.cursor + m := h'
        omega
      · rw [← hm, hzero.ne]
        exact hn
  · intro i f src n
    have hexec := exec_promote_runs h hout
    refine ⟨fun p bytes hpromo => ?_, fun hpromo hn => ?_, fun hpromo hn halloc => ?_, fun y z hpromo hn halloc => ?_⟩
    · rw [hpromo] at hexec
      exact hexec
    all_goals rw [hpromo] at hexec
    · exact hexec.trans (if_pos hn)
    · refine hexec.trans ((if_neg (Nat.not_lt.mpr hn)).trans ?_)
      rw [halloc]
      rfl
    · have hexec := hexec.trans (if_neg (Nat.not_lt.mpr hn))
      rw [halloc] at hexec
      exact ⟨fun h0 => promoteBare_completes rfl (hexec.trans (if_pos h0)),
        fun h0 => promote_copies (by omega) (hexec.trans (if_neg h0))⟩

end Sys2Proof

/-! ## LAUNCH (R294, R318, R320, R341) -/

namespace Sys2Proof

namespace Machine

/-! ### Uniform reads of a strand -/

/-- Units of u bytes each cut their places into n bytes. -/
theorem units_chunks {α : Type} (base u m : Nat) {places : List α} (d : α) (h : u * m ≤ places.length) :
    Units ((List.range m).map fun i => ((List.range u).map (base + u * i + ·)).zip ((places.drop (u * i)).take u))
      base (u * m) (nth d places) := by
  induction m with
  | zero => rfl
  | succ m ih =>
    have hle : u * m + u ≤ places.length := by rwa [Nat.mul_succ] at h
    rw [Units] at ih ⊢
    rw [List.range_succ, List.map_append, List.flatten_append, ih (by omega), Nat.mul_succ, List.range_add, List.map_append]
    refine congrArg₂ (· ++ ·) rfl ?_
    rw [List.map_singleton, List.flatten_singleton, List.map_map]
    refine List.ext_getElem (by simp; omega) fun j hj hj' => ?_
    have hj : j < u := by simpa using hj'
    simp [nth_eq_getElem d places (u * m + j) (by omega), Nat.add_assoc]

/-- The places that a strand reads, each with its page's key id. -/
def keyedPlaces (parts : List (Nat × DWord × PagePart)) : List (Nat × Nat) :=
  parts.flatMap fun x => x.2.2.pas.map fun a => (x.2.2.key, a)

theorem keyedPlaces_places (parts : List (Nat × DWord × PagePart)) : (keyedPlaces parts).map (·.2) = allPas parts := by
  simp [keyedPlaces, allPas, List.map_flatMap, Function.comp_def]

theorem keyedPlaces_length {parts : List (Nat × DWord × PagePart)} {n : Nat}
    (h : Consecutive 0 (parts.map fun y => (y.1, y.2.1, y.2.2.pas.length)) n) : (keyedPlaces parts).length = n := by
  rw [← (promoteUnits_units h).1, ← List.length_map (as := keyedPlaces parts) (·.2), keyedPlaces_places, ← partBytes_places,
    List.length_map]

theorem foldl_macCheck_places {l : List (Nat × Nat)} {s : State} (h : ∀ x ∈ l, badLines s x.1 [x.2] = []) :
    l.foldl (fun s x => macCheck x.1 [x.2] s) s = s := by
  induction l with
  | nil => rfl
  | cons x l ih =>
    rw [List.foldl_cons, macCheck_clean (h x List.mem_cons_self)]
    exact ih fun y hy => h y (List.mem_cons_of_mem x hy)

/-- An instruction that comes to a uniform read of the strand. -/
theorem strandRead_then {i : Instr} {base n : Nat} {p : DWord} {s v : State} {k : List Byte → State → Out}
    {P : List Byte → State → Prop} (hn : n ≤ 65536) (h8 : n % 8 = 0) (hexec : exec i s = strandRead base p n 8 v k)
    (hgo : ∀ bytes u, exec i s = k bytes u → P bytes u) : ReadsThen i base p n s v P := by
  rw [strandRead] at hexec
  refine ⟨fun x hbad => ?_, fun parts y w hok => ?_⟩
  · rw [hexec, hbad]
  intro u z
  rw [hok] at hexec
  have hcover := (checkParts_passed _ hok).1.symm ▸ partsOf_consecutive p hn
  have hlen := keyedPlaces_length hcover
  generalize hsize : (if p.toNat % 8 = 0 then 8 else 1) = size at hexec
  have hwhole : size * (n / size) = n := by
    rw [← hsize]
    split <;> omega
  have hunits := units_chunks base size (n / size) (places := keyedPlaces parts) (0, 0) (by rw [hlen, hwhole])
  rw [hwhole] at hunits
  refine ⟨fun hunread hclean => readsOn_of_readApart hunits hexec (fun l hl => ?_) hunread, fun hpoison hstrict => ?_,
    fun bytes hbytes hread => hgo bytes z ?_⟩
  · have hmacs : ∀ q ∈ l, badLines u q.1 [q.2] = [] := by
      intro q hq
      obtain ⟨j, hj, rfl⟩ := hl q hq
      rw [nth_eq_getElem (0, 0) _ j (by rw [hlen]; exact hj)]
      obtain ⟨x, hx, hmem⟩ := List.mem_flatMap.mp (List.getElem_mem (l := keyedPlaces parts) (by rw [hlen]; exact hj))
      obtain ⟨pa, hpa, he⟩ := List.mem_map.mp hmem
      rw [← he]
      exact badLines_of_mem (hclean x hx) hpa
    rw [foldl_macCheck_places hmacs]
    refine ⟨fun _ h => h, rfl, fun j _ => ?_⟩
    rw [homeByte, ← keyedPlaces_places, nth_map_default (Prod.snd) ((0, 0) : Nat × Nat)]
  · rw [hexec]
    exact (readApart_read hunits hpoison.1 _ _ _).trans (consume_readPoison (u := z) hpoison hstrict _)
  · rw [hexec]
    exact (readApart_read hunits (unread_of_bytesRead hbytes hread) _ _ _).trans (consume_bytesRead z hbytes hread _)

/-! ### The ends of LAUNCH -/

theorem launchEnds_completes {d : BitVec 7} {a : Opnd} {x : Word} {s u : State}
    (hexec : exec (.launch d a) s = launchEnds (.ctl 0xC6 d a none) d x u) :
    Completes (.launch d a) s (LaunchEnds d a x u) := by
  have hmoved := advance_onlyMoved (formSize (.ctl 0xC6 d a none)) { u with st := u.st.sset d.toNat x }
  refine ⟨_, hexec, ?_, ?_, (Strand.sset_only d.toNat x u).moved hmoved⟩
  · exact advance_wentOn _ rfl rfl
  · rw [hmoved]
    exact (Strand.sget_sset _ _ _ _).trans (if_pos rfl)

/-- LAUNCH posts an image to queue n: its refusals for the queue, its wait, and the post, where `o` gives the
origins after it. -/
def PostsTo (d : BitVec 7) (a : Opnd) (s : State) (image : List Byte) (u : State) (n : Nat)
    (o : State → Nat → Header → List Origin) : Prop :=
  (u.queue n = none → Completes (.launch d a) s (LaunchEnds d a 0x10020000 u))
  ∧ ∀ q, u.queue n = some q →
    (q.bind.vmid ≠ u.wld.vmid → Completes (.launch d a) s (LaunchEnds d a 0x10020000 u))
    ∧ (q.bind.vmid = u.wld.vmid →
      let u := queueHeaderCheck q u
      (queueHeader u q = none → Completes (.launch d a) s (LaunchEnds d a 0x10020000 u))
      ∧ ∀ key h, queueHeader u q = some (key, h) →
        (h.full = true → exec (.launch d a) s = .next (waitFor .queue u))
        ∧ (h.full = false → postImage key h image u = none → Completes (.launch d a) s (LaunchEnds d a 0x10020000 u))
        ∧ ∀ v, h.full = false → postImage key h image u = some v →
          Completes (.launch d a) s (LaunchEnds d a 0 { v with origins := o v q.index h }))

/-- The origins after a post: those of a child that a grid launches. -/
def originsAfter (child : Option Nat) (v : State) (q : Nat) (h : Header) : List Origin :=
  match child with
  | some g => v.origins ++ [⟨q, h.write, none, g⟩]
  | none => v.origins

theorem launchTo_posts {d : BitVec 7} {a : Opnd} {s u : State} {image : List Byte} {n : Nat} {child : Option Nat}
    (hexec : exec (.launch d a) s = launchTo (.ctl 0xC6 d a none) d image n child u) :
    PostsTo d a s image u n (originsAfter child) := by
  rw [launchTo] at hexec
  refine ⟨fun hnone => ?_, fun q hq => ?_⟩
  · rw [hnone] at hexec
    exact launchEnds_completes hexec
  rw [hq] at hexec
  refine ⟨fun hvmid => launchEnds_completes (hexec.trans (if_pos hvmid)), fun hvmid => ?_⟩
  intro v
  have hexec := hexec.trans (if_neg (not_not.mpr hvmid))
  dsimp only at hexec
  refine ⟨fun hnone => ?_, fun key h hsome => ?_⟩
  · rw [show queueHeader (queueHeaderCheck q u) q = none from hnone] at hexec
    exact launchEnds_completes hexec
  rw [show queueHeader (queueHeaderCheck q u) q = some (key, h) from hsome] at hexec
  refine ⟨fun hfull => hexec.trans (if_pos hfull), fun hfull hpost => ?_, fun w hfull hpost => ?_⟩
  all_goals
    have hexec := hexec.trans (if_neg (by rw [hfull]; exact Bool.false_ne_true))
    rw [show postImage key h image (queueHeaderCheck q u) = _ from hpost] at hexec
  · exact launchEnds_completes hexec
  · refine launchEnds_completes (hexec.trans ?_)
    cases child <;> rfl

/-! ### The kinds of records -/

/-- LAUNCH of a GRID record whose argument block has been read. -/
def PostsGrid (d : BitVec 7) (a : Opnd) (s : State) (image block : List Byte) (rec : BitVec 512) (args : DWord) (u : State) : Prop :=
  (∀ x, launchEscape u (imageBase a s) args block = some x → exec (.launch d a) s = deliver x u)
  ∧ (launchEscape u (imageBase a s) args block = none →
    (gridMalformed u.accepted rec = true → Completes (.launch d a) s (LaunchEnds d a 0x10010000 u))
    ∧ (gridMalformed u.accepted rec = false → u.queue (field rec 16 10) = none →
        Completes (.launch d a) s (LaunchEnds d a 0x10020000 u))
    ∧ (gridMalformed u.accepted rec = false → ∀ q, u.queue (field rec 16 10) = some q →
      (q.bind.vmid ≠ u.wld.vmid → Completes (.launch d a) s (LaunchEnds d a 0x10020000 u))
      ∧ (q.bind.vmid = u.wld.vmid → field rec 32 16 ≠ 0 → field rec 32 16 ≠ u.wld.handle.toNat →
          Completes (.launch d a) s (LaunchEnds d a 0x10010000 u))
      ∧ (q.bind.vmid = u.wld.vmid → (field rec 32 16 = 0 ∨ field rec 32 16 = u.wld.handle.toNat) →
          15 ≤ u.grd.depth → Completes (.launch d a) s (LaunchEnds d a 0x10040000 u))
      ∧ ((field rec 32 16 = 0 ∨ field rec 32 16 = u.wld.handle.toNat) → u.grd.depth < 15 →
          PostsTo d a s image u (field rec 16 10) (originsAfter (some u.grd.id)))))

theorem launchPost_posts {d : BitVec 7} {a : Opnd} {s u : State} {image block : List Byte} {rec : BitVec 512} {args : DWord}
    (hexec : exec (.launch d a) s = match launchEscape u (imageBase a s) args block with
      | some x => deliver x u
      | none => launchPost (.ctl 0xC6 d a none) d image rec u) :
    PostsGrid d a s image block rec args u := by
  refine ⟨fun x hx => by rw [hexec, hx], fun hnone => ?_⟩
  rw [hnone] at hexec
  have hexec : exec (.launch d a) s = launchPost (.ctl 0xC6 d a none) d image rec u := hexec
  rw [launchPost] at hexec
  refine ⟨fun hbad => launchEnds_completes (hexec.trans (if_pos hbad)), fun hgood hq => ?_, fun hgood q hq => ?_⟩
  all_goals
    have hexec := hexec.trans (if_neg (by rw [hgood]; exact Bool.false_ne_true))
    rw [hq] at hexec
  · exact launchEnds_completes hexec
  · refine ⟨fun hvmid => launchEnds_completes (hexec.trans (if_pos hvmid)), fun hvmid hzero hother => ?_, fun hvmid hhandle hdeep => ?_,
      fun hhandle hshallow => ?_⟩
    · exact launchEnds_completes (hexec.trans ((if_neg (not_not.mpr hvmid)).trans (if_pos ⟨hzero, hother⟩)))
    · exact launchEnds_completes (hexec.trans ((if_neg (not_not.mpr hvmid)).trans
        ((if_neg fun h => hhandle.elim h.1 h.2).trans (if_pos (Nat.succ_le_succ hdeep)))))
    · by_cases hvmid : q.bind.vmid = u.wld.vmid
      · exact launchTo_posts (hexec.trans ((if_neg (not_not.mpr hvmid)).trans
          ((if_neg fun h => hhandle.elim h.1 h.2).trans (if_neg (by omega)))))
      · refine ⟨fun hnone => absurd (hq.symm.trans hnone) (Option.some_ne_none q), fun r hr => ?_⟩
        rw [hq] at hr
        cases hr
        exact ⟨fun _ => launchEnds_completes (hexec.trans (if_pos hvmid)), fun h => absurd h hvmid⟩

/-- LAUNCH of a GRID record, its own or that of its node's task control block. -/
theorem launchGrid_posts {d : BitVec 7} {a : Opnd} {s u : State} {image : List Byte} {rec : BitVec 512}
    (hexec : exec (.launch d a) s = launchGrid (.ctl 0xC6 d a none) d (imageBase a s) image rec u) :
    let args := BitVec.ofNat 64 (field rec 320 64)
    (args = 0 → PostsGrid d a s image [] rec args u)
    ∧ (args ≠ 0 → ReadsThen (.launch d a) 256 args 32 s u fun block v => PostsGrid d a s image block rec args v) := by
  intro args
  rw [launchGrid] at hexec
  refine ⟨fun h0 => launchPost_posts (hexec.trans (if_pos h0)), fun h0 => ?_⟩
  exact strandRead_then (by omega) rfl (hexec.trans (if_neg h0)) fun block v h => launchPost_posts h

theorem exec_launch_runs {d : BitVec 7} {a : Opnd} {s : State} (h : NoReadError (.launch d a) s) (hout : s.prologue = false) :
    exec (.launch d a) s =
      if imageBase a s + 64 > s.scratchLimit then deliver (faultAt 0x40 (BitVec.ofNat 64 (imageBase a s))) s
      else if accessesOut s then .next (waitFor .order s)
      else scratchRead (imageBase a s) 64 s fun image u =>
        launchRecord (.ctl 0xC6 d a none) d (imageBase a s) image (BitVec.ofNat 512 (leNat image)) u := by
  rw [engineAct_runs h rfl (by rw [exec_launch, execLaunch]) hout]
  rfl

end Machine

open Machine

/-- Settles O31. -/
theorem launches : Obligations.Launches := by
  intro d a s h hout at_ i posts posted grid
  have hexec := exec_launch_runs h hout
  refine ⟨fun hfar => hexec.trans (if_pos hfar), fun hnear hbusy => hexec.trans ((if_neg (Nat.not_lt.mpr hnear)).trans (if_pos hbusy)),
    fun hidle hnear => ?_⟩
  have hexec := hexec.trans ((if_neg (Nat.not_lt.mpr hnear)).trans (if_neg (by rw [hidle]; exact Bool.false_ne_true)))
  refine image_then hexec fun image _ hgo => ?_
  intro record kind
  have hgo : exec i s = launchRecord (.ctl 0xC6 d a none) d at_ image record s := hgo
  rw [launchRecord] at hgo
  have hto : ∀ v : State, exec i s = launchTo (.ctl 0xC6 d a none) d image v.grd.queue none v →
      PostsTo d a s image v v.grd.queue (originsAfter none) := fun _ => launchTo_posts
  refine ⟨fun hkind => ?_, fun hkind => ?_, fun hkind => ?_, fun hwait hkind hother => ?_⟩
  · exact launchGrid_posts (hgo.trans (if_pos hkind))
  · have hnode := hgo.trans ((if_neg (by rw [show field record 8 8 = 0x81 from hkind]; decide)).trans (if_pos hkind))
    rw [launchNode] at hnode
    refine ⟨fun hbad => launchEnds_completes (hnode.trans (if_pos hbad)), fun hgood => ?_⟩
    refine strandRead_then (by omega) rfl (hnode.trans (if_neg (by rw [hgood]; exact Bool.false_ne_true))) fun body v hbody => ?_
    intro tcb
    have hbody : exec i s = if tcbMalformed tcb then launchEnds (.ctl 0xC6 d a none) d (refusedWord 1) v
        else if field tcb 8 8 = 0x80 then launchGrid (.ctl 0xC6 d a none) d at_ image (tcbRecord tcb) v
        else launchTo (.ctl 0xC6 d a none) d image v.grd.queue none v := hbody
    refine ⟨fun hbad => launchEnds_completes (hbody.trans (if_pos hbad)), fun hgood hk => ?_, fun hgood hk => ?_⟩
    all_goals have hbody := hbody.trans (if_neg (by rw [hgood]; exact Bool.false_ne_true))
    · exact launchGrid_posts (hbody.trans (if_pos hk))
    · exact hto v (hbody.trans (if_neg hk))
  · have h80 : field record 8 8 ≠ 0x80 := by rintro h; omega
    have h81 : field record 8 8 ≠ 0x81 := by rintro h; omega
    refine hto s (hgo.trans ((if_neg h80).trans ((if_neg h81).trans ?_)))
    by_cases hplain : field record 8 8 ≤ 7 ∨ field record 8 8 = 0x82
    · exact if_pos hplain
    · have hval : field record 8 8 = 0x83 ∧ waitvalMalformed record = false := by
        obtain h | h | h := hkind
        · exact absurd (.inl h) hplain
        · exact absurd (.inr h) hplain
        · exact h
      exact (if_neg hplain).trans (if_pos ⟨hval.1, by rw [hval.2]; rfl⟩)
  · simp only [List.mem_cons, List.not_mem_nil, or_false, not_or] at hother
    obtain ⟨h80, h81, h82⟩ := hother
    refine launchEnds_completes (hgo.trans ((if_neg h80).trans ((if_neg h81).trans ((if_neg ?_).trans (if_neg ?_)))))
    · rintro (h | h)
      · exact absurd h (Nat.not_le.mpr hkind)
      · exact h82 h
    · rintro ⟨h, hgood⟩
      rw [hwait h] at hgood
      exact Bool.false_ne_true hgood

end Sys2Proof

/-! ## The delivery of a fault (R345 to R348, R375) -/

namespace Sys2Proof

namespace Machine

/-! ### Register-file errors -/

/-- An instruction a read of which finds a register-file error faults. -/
def FaultsOnError (i : Instr) (s : State) : Prop :=
  ∀ f lanes, form i = some f → errorsOf s f = some lanes → exec i s = deliver ⟨0x51, 0, 0, 0, 0, lanes⟩ s

theorem FaultsOnError.of_guarded {i : Instr} {f : Form} {s : State} {k : State → Out} (hform : form i = some f)
    (hexec : exec i s = guarded f s k) : FaultsOnError i s := by
  intro g lanes hg herr
  cases hform.symm.trans hg
  rw [hexec, guarded, herr]

/-- An instruction that reads no register finds none. -/
theorem FaultsOnError.of_silent {i : Instr} {f : Form} {s : State} (hform : form i = some f) (hreads : readsOf s f = []) :
    FaultsOnError i s := by
  intro g lanes hg herr
  cases hform.symm.trans hg
  rw [errorsOf, hreads] at herr
  split at herr <;> cases herr

theorem FaultsOnError.of_event {i : Instr} {s : State} (hform : form i = none) : FaultsOnError i s := by
  intro g lanes hg
  rw [hform] at hg
  cases hg

theorem exec_brsZ (c off s) : exec (.brsZ c off) s = execBrsZ c off s := rfl
theorem exec_brsNz (c off s) : exec (.brsNz c off) s = execBrsNz c off s := rfl
theorem exec_brmAny (m off s) : exec (.brmAny m off) s = execBrmAny m off s := rfl
theorem exec_brmAll (m off s) : exec (.brmAll m off) s = execBrmAll m off s := rfl
theorem exec_brmNone (m off s) : exec (.brmNone m off) s = execBrmNone m off s := rfl
theorem exec_jmpi (p s) : exec (.jmpi p) s = execJmpi p s := rfl
theorem exec_ret (p s) : exec (.ret p) s = execRet p s := rfl
theorem exec_barpAnd (d a s) : exec (.barpAnd d a) s = execBarpAnd d a s := rfl
theorem exec_barpOr (d a s) : exec (.barpOr d a) s = execBarpOr d a s := rfl
theorem exec_barpAdd (d a s) : exec (.barpAdd d a) s = execBarpAdd d a s := rfl
theorem exec_barpMin (d a s) : exec (.barpMin d a) s = execBarpMin d a s := rfl
theorem exec_barpMax (d a s) : exec (.barpMax d a) s = execBarpMax d a s := rfl
theorem exec_ld (f s) : exec (.ld f) s = execLd f s := rfl
theorem exec_ldU (f s) : exec (.ldU f) s = execLdU f s := rfl
theorem exec_st (f s) : exec (.st f) s = execSt f s := rfl
theorem exec_stU (f s) : exec (.stU f) s = execStU f s := rfl
theorem exec_stx (f s) : exec (.stx f) s = execStx f s := rfl
theorem exec_stxU (f s) : exec (.stxU f) s = execStxU f s := rfl
theorem exec_atom (f s) : exec (.atom f) s = execAtom f s := rfl
theorem exec_atomU (f s) : exec (.atomU f) s = execAtomU f s := rfl
theorem exec_tagld (f s) : exec (.tagld f) s = execTagld f s := rfl
theorem exec_tagldU (f s) : exec (.tagldU f) s = execTagldU f s := rfl
theorem exec_tagst (f s) : exec (.tagst f) s = execTagst f s := rfl
theorem exec_tagstU (f s) : exec (.tagstU f) s = execTagstU f s := rfl
theorem exec_lds (f s) : exec (.lds f) s = execLds f s := rfl
theorem exec_ldsU (f s) : exec (.ldsU f) s = execLdsU f s := rfl
theorem exec_sts (f s) : exec (.sts f) s = execSts f s := rfl
theorem exec_stsU (f s) : exec (.stsU f) s = execStsU f s := rfl
theorem exec_atoms (f s) : exec (.atoms f) s = execAtoms f s := rfl
theorem exec_atomsU (f s) : exec (.atomsU f) s = execAtomsU f s := rfl
theorem exec_gld (f s) : exec (.gld f) s = execGld f s := rfl
theorem exec_gldU (f s) : exec (.gldU f) s = execGldU f s := rfl
theorem exec_gst (f s) : exec (.gst f) s = execGst f s := rfl
theorem exec_gstU (f s) : exec (.gstU f) s = execGstU f s := rfl
theorem exec_gop (f s) : exec (.gop f) s = execGop f s := rfl
theorem exec_gopU (f s) : exec (.gopU f) s = execGopU f s := rfl

theorem faultsOnError (i : Instr) (s : State) : FaultsOnError i s := by
  cases i
  case nop | bra | call | exit | yield | trap | tret | bkpt | acquire | bar | smovi | sget | fence | mma | aclr
      | mwaitTok | mwaitAll =>
    exact .of_silent rfl rfl
  case clauseIssue | replayResolved | arenaPoolRefill | gridRecord | nodeRecord | signalRecord | waitvalRecord
      | waitvalSatisfied | copyRecord | readyPoolEntry | blockDispatch | grant | blockRetirement
      | gridRetirement | arenaDestruction | sliceUnit | drainExpiry | blockSave | blockRestore | mmaStart
      | mmaRetire | oldaComplete | oldwComplete | adrnComplete | orelComplete | ldaComplete | loadComplete
      | storeComplete | scratchpadAccessPerformed | qntMerge | rdupCollapse | waitvWake | sleepExpiry
      | waitpExpiry | queueRoom | copy1d | copy2d | fill | mcast | reduce | sealmove | ingest | signal
      | packetCompletion | mcastArrival | reduceCompletion | tlbinvComplete | leaseExpiry | scrubComplete
      | notifyInterrupt | tlbInvalidate | leaseRenew | leaseRelease | leasePeriod | scrubprogSelect | aggvecRead
      | feataccWrite | commit | registerWrite | register | deregister | giveMemory | roots | sealedEntry
      | ingestKey | cometQueue | bindQueue | bindStream | attest | macReread | keyGeneration | flitRetry
      | hostLinkDown | hostLinkUp | tdispStop | ideIntegrityFailure | hostAccess | peerAccess | perigeeTraining
      | powerOn | warmReset | programLoad | orreryAttach | orreryDetach | orreryRead | orreryWrite | orreryPost
      | orrerySetPlace | orreryContinue | powerLoss | clusterClockGating | softError | tdispLockInterface
      | tdispStartInterface =>
    exact .of_event rfl
  case brsZ => exact .of_guarded rfl (by rw [exec_brsZ, execBrsZ])
  case brsNz => exact .of_guarded rfl (by rw [exec_brsNz, execBrsNz])
  case brmAny => exact .of_guarded rfl (by rw [exec_brmAny, execBrmAny])
  case brmAll => exact .of_guarded rfl (by rw [exec_brmAll, execBrmAll])
  case brmNone => exact .of_guarded rfl (by rw [exec_brmNone, execBrmNone])
  case jmpi => exact .of_guarded rfl (by rw [exec_jmpi, execJmpi])
  case ret => exact .of_guarded rfl (by rw [exec_ret, execRet])
  case sleep => exact .of_guarded rfl (by rw [exec_sleep, execSleep])
  case waitv => exact .of_guarded rfl (by rw [exec_waitv, execWaitv])
  case barpAnd => exact .of_guarded rfl (by rw [exec_barpAnd, execBarpAnd, barp])
  case barpOr => exact .of_guarded rfl (by rw [exec_barpOr, execBarpOr, barp])
  case barpAdd => exact .of_guarded rfl (by rw [exec_barpAdd, execBarpAdd, barp])
  case barpMin => exact .of_guarded rfl (by rw [exec_barpMin, execBarpMin, barp])
  case barpMax => exact .of_guarded rfl (by rw [exec_barpMax, execBarpMax, barp])
  case waittag => exact .of_guarded rfl (by rw [exec_waittag, execWaittag])
  case waitp => exact .of_guarded rfl (by rw [exec_waitp]; unfold execWaitp; rfl)
  case bbwait => exact .of_guarded rfl (by rw [exec_bbwait, execBbwait])
  case sadd => exact .of_guarded rfl (by rw [exec_sadd, execSadd, scalarOp])
  case saddD => exact .of_guarded rfl (by rw [exec_saddD, execSaddD, scalarOp])
  case ssub => exact .of_guarded rfl (by rw [exec_ssub, execSsub, scalarOp])
  case ssubD => exact .of_guarded rfl (by rw [exec_ssubD, execSsubD, scalarOp])
  case smul => exact .of_guarded rfl (by rw [exec_smul, execSmul, scalarOp])
  case smulD => exact .of_guarded rfl (by rw [exec_smulD, execSmulD, scalarOp])
  case smulhS => exact .of_guarded rfl (by rw [exec_smulhS, execSmulhS, scalarOp])
  case smulhUi => exact .of_guarded rfl (by rw [exec_smulhUi, execSmulhUi, scalarOp])
  case sand => exact .of_guarded rfl (by rw [exec_sand, execSand, scalarOp])
  case sor => exact .of_guarded rfl (by rw [exec_sor, execSor, scalarOp])
  case sxor => exact .of_guarded rfl (by rw [exec_sxor, execSxor, scalarOp])
  case ssel => exact .of_guarded rfl (by rw [exec_ssel, execSsel, scalarOp])
  case sshl => exact .of_guarded rfl (by rw [exec_sshl, execSshl, scalarOp])
  case sshr => exact .of_guarded rfl (by rw [exec_sshr, execSshr, scalarOp])
  case ssra => exact .of_guarded rfl (by rw [exec_ssra, execSsra, scalarOp])
  case sshlD => exact .of_guarded rfl (by rw [exec_sshlD, execSshlD, scalarOp])
  case sshrD => exact .of_guarded rfl (by rw [exec_sshrD, execSshrD, scalarOp])
  case ssraD => exact .of_guarded rfl (by rw [exec_ssraD, execSsraD, scalarOp])
  case scmpEq => exact .of_guarded rfl (by rw [exec_scmpEq, execScmpEq, scalarOp])
  case scmpNe => exact .of_guarded rfl (by rw [exec_scmpNe, execScmpNe, scalarOp])
  case scmpLt => exact .of_guarded rfl (by rw [exec_scmpLt, execScmpLt, scalarOp])
  case scmpLe => exact .of_guarded rfl (by rw [exec_scmpLe, execScmpLe, scalarOp])
  case scmpLtu => exact .of_guarded rfl (by rw [exec_scmpLtu, execScmpLtu, scalarOp])
  case scmpLeu => exact .of_guarded rfl (by rw [exec_scmpLeu, execScmpLeu, scalarOp])
  case scmpEqD => exact .of_guarded rfl (by rw [exec_scmpEqD, execScmpEqD, scalarOp])
  case scmpNeD => exact .of_guarded rfl (by rw [exec_scmpNeD, execScmpNeD, scalarOp])
  case smov => exact .of_guarded rfl (by rw [exec_smov, execSmov])
  case smovD => exact .of_guarded rfl (by rw [exec_smovD, execSmovD])
  case smoviHi => exact .of_guarded rfl (by rw [exec_smoviHi, execSmoviHi])
  case sset => exact .of_guarded rfl (by rw [exec_sset, execSset])
  case vadd => exact .of_guarded rfl (by rw [exec_vadd, execVadd])
  case vaddD => exact .of_guarded rfl (by rw [exec_vaddD, execVaddD])
  case vsub => exact .of_guarded rfl (by rw [exec_vsub, execVsub])
  case vsubD => exact .of_guarded rfl (by rw [exec_vsubD, execVsubD])
  case vmul => exact .of_guarded rfl (by rw [exec_vmul, execVmul])
  case vmulhS => exact .of_guarded rfl (by rw [exec_vmulhS, execVmulhS])
  case vmulhUi => exact .of_guarded rfl (by rw [exec_vmulhUi, execVmulhUi])
  case vmad => exact .of_guarded rfl (by rw [exec_vmad, execVmad])
  case vdot4S8 => exact .of_guarded rfl (by rw [exec_vdot4S8, execVdot4S8])
  case vdot4Ui8 => exact .of_guarded rfl (by rw [exec_vdot4Ui8, execVdot4Ui8])
  case vdot4Mix => exact .of_guarded rfl (by rw [exec_vdot4Mix, execVdot4Mix])
  case vand => exact .of_guarded rfl (by rw [exec_vand, execVand])
  case vor => exact .of_guarded rfl (by rw [exec_vor, execVor])
  case vxor => exact .of_guarded rfl (by rw [exec_vxor, execVxor])
  case vshl => exact .of_guarded rfl (by rw [exec_vshl, execVshl])
  case vshr => exact .of_guarded rfl (by rw [exec_vshr, execVshr])
  case vsra => exact .of_guarded rfl (by rw [exec_vsra, execVsra])
  case vshlD => exact .of_guarded rfl (by rw [exec_vshlD, execVshlD])
  case vshrD => exact .of_guarded rfl (by rw [exec_vshrD, execVshrD])
  case vsraD => exact .of_guarded rfl (by rw [exec_vsraD, execVsraD])
  case vminS => exact .of_guarded rfl (by rw [exec_vminS, execVminS])
  case vminUi => exact .of_guarded rfl (by rw [exec_vminUi, execVminUi])
  case vmaxS => exact .of_guarded rfl (by rw [exec_vmaxS, execVmaxS])
  case vmaxUi => exact .of_guarded rfl (by rw [exec_vmaxUi, execVmaxUi])
  case vabs => exact .of_guarded rfl (by rw [exec_vabs, execVabs])
  case vcmpS32 => exact .of_guarded rfl (by rw [exec_vcmpS32, execVcmpS32])
  case vcmpUi32 => exact .of_guarded rfl (by rw [exec_vcmpUi32, execVcmpUi32])
  case vcmpS64 => exact .of_guarded rfl (by rw [exec_vcmpS64, execVcmpS64])
  case vcmpUi64 => exact .of_guarded rfl (by rw [exec_vcmpUi64, execVcmpUi64])
  case vsel => exact .of_guarded rfl (by rw [exec_vsel, execVsel])
  case vbfeS => exact .of_guarded rfl (by rw [exec_vbfeS, execVbfeS])
  case vbfeUi => exact .of_guarded rfl (by rw [exec_vbfeUi, execVbfeUi])
  case vpopc => exact .of_guarded rfl (by rw [exec_vpopc, execVpopc])
  case vclz => exact .of_guarded rfl (by rw [exec_vclz, execVclz])
  case vfadd => exact .of_guarded rfl (by rw [exec_vfadd, execVfadd])
  case vfsub => exact .of_guarded rfl (by rw [exec_vfsub, execVfsub])
  case vfmul => exact .of_guarded rfl (by rw [exec_vfmul, execVfmul])
  case vfma => exact .of_guarded rfl (by rw [exec_vfma, execVfma])
  case vhfmaBf16 => exact .of_guarded rfl (by rw [exec_vhfmaBf16, execVhfmaBf16])
  case vhfmaF16 => exact .of_guarded rfl (by rw [exec_vhfmaF16, execVhfmaF16])
  case vfmin => exact .of_guarded rfl (by rw [exec_vfmin, execVfmin])
  case vfmax => exact .of_guarded rfl (by rw [exec_vfmax, execVfmax])
  case vfcmp => exact .of_guarded rfl (by rw [exec_vfcmp, execVfcmp])
  case vfrcp => exact .of_guarded rfl (by rw [exec_vfrcp, execVfrcp])
  case vfrsq => exact .of_guarded rfl (by rw [exec_vfrsq, execVfrsq])
  case vexp2 => exact .of_guarded rfl (by rw [exec_vexp2, execVexp2])
  case vlog2 => exact .of_guarded rfl (by rw [exec_vlog2, execVlog2])
  case vfsin => exact .of_guarded rfl (by rw [exec_vfsin, execVfsin])
  case vfcos => exact .of_guarded rfl (by rw [exec_vfcos, execVfcos])
  case vfcvt => exact .of_guarded rfl (by rw [exec_vfcvt, execVfcvt])
  case vshufXor => exact .of_guarded rfl (by rw [exec_vshufXor, execVshufXor, shuffle])
  case vshufUp => exact .of_guarded rfl (by rw [exec_vshufUp, execVshufUp, shuffle])
  case vshufDown => exact .of_guarded rfl (by rw [exec_vshufDown, execVshufDown, shuffle])
  case vshufIdx => exact .of_guarded rfl (by rw [exec_vshufIdx, execVshufIdx, shuffle])
  case vbcast => exact .of_guarded rfl (by rw [exec_vbcast, execVbcast])
  case vred => exact .of_guarded rfl (by rw [exec_vred, execVred])
  case vscanIncl => exact .of_guarded rfl (by rw [exec_vscanIncl, execVscanIncl, scan])
  case vscanExcl => exact .of_guarded rfl (by rw [exec_vscanExcl, execVscanExcl, scan])
  case vbal => exact .of_guarded rfl (by rw [exec_vbal, execVbal])
  case vlid => exact .of_guarded rfl (by rw [exec_vlid, execVlid])
  case mand => exact .of_guarded rfl (by rw [exec_mand, execMand])
  case mor => exact .of_guarded rfl (by rw [exec_mor, execMor])
  case mxor => exact .of_guarded rfl (by rw [exec_mxor, execMxor])
  case mnot => exact .of_guarded rfl (by rw [exec_mnot, execMnot])
  case mmov => exact .of_guarded rfl (by rw [exec_mmov, execMmov])
  case mcnt => exact .of_guarded rfl (by rw [exec_mcnt, execMcnt])
  case msave => exact .of_guarded rfl (by rw [exec_msave, execMsave])
  case mload => exact .of_guarded rfl (by rw [exec_mload, execMload])
  case kclr => exact .of_guarded rfl (by rw [exec_kclr, execKclr])
  case kaddF32 => exact .of_guarded rfl (by rw [exec_kaddF32, execKaddF32, kadd])
  case kaddF16 => exact .of_guarded rfl (by rw [exec_kaddF16, execKaddF16, kadd])
  case kaddBf16 => exact .of_guarded rfl (by rw [exec_kaddBf16, execKaddBf16, kadd])
  case krnd => exact .of_guarded rfl (by rw [exec_krnd, execKrnd])
  case expr => exact .of_guarded rfl (by rw [exec_expr, execExpr])
  case qmm => exact .of_guarded rfl (by rw [exec_qmm, execQmm])
  case qntI8 => exact .of_guarded rfl (by rw [exec_qntI8, execQntI8, qnt])
  case qntI4 => exact .of_guarded rfl (by rw [exec_qntI4, execQntI4, qnt])
  case qntT3 => exact .of_guarded rfl (by rw [exec_qntT3, execQntT3])
  case dqntI8 => exact .of_guarded rfl (by rw [exec_dqntI8, execDqntI8, dqnt])
  case dqntI4 => exact .of_guarded rfl (by rw [exec_dqntI4, execDqntI4, dqnt])
  case pk3 => exact .of_guarded rfl (by rw [exec_pk3, execPk3])
  case upk3 => exact .of_guarded rfl (by rw [exec_upk3, execUpk3])
  case pk4 => exact .of_guarded rfl (by rw [exec_pk4, execPk4])
  case upk4 => exact .of_guarded rfl (by rw [exec_upk4, execUpk4])
  case ld => exact .of_guarded rfl (by rw [exec_ld, execLd, memRead])
  case ldU => exact .of_guarded rfl (by rw [exec_ldU, execLdU, memRead])
  case st => exact .of_guarded rfl (by rw [exec_st, execSt, memAct])
  case stU => exact .of_guarded rfl (by rw [exec_stU, execStU, memAct])
  case stx => exact .of_guarded rfl (by rw [exec_stx, execStx, memAct])
  case stxU => exact .of_guarded rfl (by rw [exec_stxU, execStxU, memAct])
  case atom => exact .of_guarded rfl (by rw [exec_atom, execAtom, memAct])
  case atomU => exact .of_guarded rfl (by rw [exec_atomU, execAtomU, memAct])
  case pref => exact .of_guarded rfl (by rw [exec_pref, execPref])
  case prefU => exact .of_guarded rfl (by rw [exec_prefU, execPrefU])
  case tagld => exact .of_guarded rfl (by rw [exec_tagld, execTagld, memRead])
  case tagldU => exact .of_guarded rfl (by rw [exec_tagldU, execTagldU, memRead])
  case tagst => exact .of_guarded rfl (by rw [exec_tagst, execTagst, memAct])
  case tagstU => exact .of_guarded rfl (by rw [exec_tagstU, execTagstU, memAct])
  case lda => exact .of_guarded rfl (by rw [exec_lda, execLda])
  case lds => exact .of_guarded rfl (by rw [exec_lds, execLds, localRead])
  case ldsU => exact .of_guarded rfl (by rw [exec_ldsU, execLdsU, localRead])
  case sts => exact .of_guarded rfl (by rw [exec_sts, execSts, localAct])
  case stsU => exact .of_guarded rfl (by rw [exec_stsU, execStsU, localAct])
  case atoms => exact .of_guarded rfl (by rw [exec_atoms, execAtoms, localAct])
  case atomsU => exact .of_guarded rfl (by rw [exec_atomsU, execAtomsU, localAct])
  case gld => exact .of_guarded rfl (by rw [exec_gld, execGld, localRead])
  case gldU => exact .of_guarded rfl (by rw [exec_gldU, execGldU, localRead])
  case gst => exact .of_guarded rfl (by rw [exec_gst, execGst, localAct])
  case gstU => exact .of_guarded rfl (by rw [exec_gstU, execGstU, localAct])
  case gop => exact .of_guarded rfl (by rw [exec_gop, execGop, localAct])
  case gopU => exact .of_guarded rfl (by rw [exec_gopU, execGopU, localAct])
  case cpost => exact .of_guarded rfl (by rw [exec_cpost, execCpost, cpostAct, engineAct])
  case cpostNb => exact .of_guarded rfl (by rw [exec_cpostNb, execCpostNb, cpostAct, engineAct])
  case bbinit => exact .of_guarded rfl (by rw [exec_bbinit, execBbinit, barrierAct, engineAct])
  case bbinv => exact .of_guarded rfl (by rw [exec_bbinv, execBbinv, barrierAct, engineAct])
  case promote => exact .of_guarded rfl (by rw [exec_promote, execPromote, engineAct])
  case promoteA => exact .of_guarded rfl (by rw [exec_promoteA, execPromoteA, engineAct])
  case arena => exact .of_guarded rfl (by rw [exec_arena, execArena, engineAct])
  case launch => exact .of_guarded rfl (by rw [exec_launch, execLaunch, engineAct])
  case tsig => exact .of_guarded rfl (by rw [exec_tsig, execTsig, engineAct])
  case oclaim => exact .of_guarded rfl (by rw [exec_oclaim, execOclaim])
  case orel => exact .of_guarded rfl (by rw [exec_orel, execOrel])
  case olda => exact .of_guarded rfl (by rw [exec_olda, execOlda])
  case oldw => exact .of_guarded rfl (by rw [exec_oldw, execOldw])
  case adrn => exact .of_guarded rfl (by rw [exec_adrn, execAdrn])
  case mtok => exact .of_guarded rfl (by rw [exec_mtok, execMtok])

/-! ### The record of a fault -/

theorem field_recordOf {f : FaultInfo} {s : State} (hcode : f.code < 256) (hdetail : f.detail < 4096) (hidx : s.st.idx < 16)
    (hblock : s.blk.id < 2 ^ 32) (hgrid : s.grd.id < 2 ^ 32) :
    let r := recordOf s f true
    [field r 0 8, field r 8 4, field r 12 1, field r 13 1, field r 16 4, field r 20 12, field r 32 32]
        = [f.code, 0, 1, 1, s.st.idx, f.detail, s.blk.id]
      ∧ [field r 64 64, field r 128 64, field r 192 64, field r 256 64, field r 320 32, field r 352 32,
          field r 384 64, field r 448 32]
        = [s.st.pc.toNat, f.addr.toNat, f.data.toNat, f.lanes.toNat, s.grd.id, s.place.toNat, s.clock.toNat,
            f.extra.toNat] := by
  intro r
  have hpc := s.st.pc.isLt
  have haddr := f.addr.isLt
  have hdata := f.data.isLt
  have hlanes := f.lanes.isLt
  have hplace := s.place.isLt
  have hclock := s.clock.isLt
  have hextra := f.extra.isLt
  simp only [r, recordOf, field, BitVec.toNat_ofNat, List.cons.injEq, and_true, if_true]
  generalize s.st.pc.toNat = pc at *
  generalize f.addr.toNat = addr at *
  generalize f.data.toNat = data at *
  generalize f.lanes.toNat = lanes at *
  generalize s.place.toNat = place at *
  generalize s.clock.toNat = clock at *
  generalize f.extra.toNat = extra at *
  generalize s.st.idx = idx at *
  generalize s.blk.id = block at *
  generalize s.grd.id = grid at *
  generalize f.code = code at *
  generalize f.detail = detail at *
  norm_num
  omega

end Machine

open Machine

end Sys2Proof

/-! ## The fault area (R345, R346) -/

namespace Sys2Proof

namespace Machine

/-! ### Fields of a header and their bytes -/

theorem field_eq_extract {w : Nat} (x : BitVec w) (lo n : Nat) : field x lo n = (x.extractLsb' lo n).toNat := by
  rw [field, BitVec.extractLsb'_toNat, Nat.shiftRight_eq_div_pow]

theorem getLsbD_setField {w : Nat} (x : BitVec w) (lo n v i : Nat) (h : lo + n ≤ w) :
    (setField x lo n v).getLsbD i = if lo ≤ i ∧ i < lo + n then v.testBit (i - lo) else x.getLsbD i := by
  rw [setField]
  by_cases hi : i < w
  · simp only [BitVec.getLsbD_or, BitVec.getLsbD_and, BitVec.getLsbD_not, BitVec.getLsbD_shiftLeft, BitVec.getLsbD_ofNat,
      Nat.testBit_two_pow_sub_one, Nat.testBit_mod_two_pow, hi, decide_true, Bool.true_and]
    by_cases hlo : lo ≤ i
    · by_cases hn : i < lo + n
      · have h1 : i - lo < n := by omega
        have h2 : i - lo < w := by omega
        have h3 : ¬ i < lo := by omega
        simp [hlo, hn, h1, h2, h3]
      · have h1 : ¬ i - lo < n := by omega
        simp [hn, h1]
    · have h3 : i < lo := by omega
      simp [hlo, h3]
  · rw [BitVec.getLsbD_of_ge _ _ (by omega), if_neg (by omega), BitVec.getLsbD_of_ge _ _ (by omega)]

/-- A field that is set reads as its value. -/
theorem field_setField_same {w : Nat} (x : BitVec w) {lo n : Nat} (v : Nat) (h : lo + n ≤ w) :
    field (setField x lo n v) lo n = v % 2 ^ n := by
  have hbits : (setField x lo n v).extractLsb' lo n = BitVec.ofNat n v := by
    apply BitVec.eq_of_getLsbD_eq
    intro i hi
    rw [BitVec.getLsbD_extractLsb', getLsbD_setField x lo n v _ h, if_pos ⟨by omega, by omega⟩, BitVec.getLsbD_ofNat,
      Nat.add_sub_cancel_left]
  rw [field_eq_extract, hbits, BitVec.toNat_ofNat]

/-- A field apart from it stays. -/
theorem field_setField_other {w : Nat} (x : BitVec w) {lo n lo' n' : Nat} (v : Nat) (h : lo + n ≤ w)
    (hapart : lo' + n' ≤ lo ∨ lo + n ≤ lo') : field (setField x lo n v) lo' n' = field x lo' n' := by
  have hbits : (setField x lo n v).extractLsb' lo' n' = x.extractLsb' lo' n' := by
    apply BitVec.eq_of_getLsbD_eq
    intro i hi
    rw [BitVec.getLsbD_extractLsb', BitVec.getLsbD_extractLsb', getLsbD_setField x lo n v _ h, if_neg (by omega)]
  rw [field_eq_extract, field_eq_extract, hbits]

theorem drop_leBytes (n k x : Nat) : (leBytes n x).drop k = leBytes (n - k) (x / 256 ^ k) := by
  induction k generalizing n x with
  | zero => simp
  | succ k ih =>
    cases n with
    | zero => simp [leBytes]
    | succ n => rw [leBytes, List.drop_succ_cons, ih, Nat.add_sub_add_right, Nat.div_div_eq_div_mul, Nat.pow_succ']

theorem take_leBytes (n k x : Nat) (h : k ≤ n) : (leBytes n x).take k = leBytes k x := by
  induction k generalizing n x with
  | zero => simp [leBytes]
  | succ k ih =>
    cases n with
    | zero => omega
    | succ n => rw [leBytes, List.take_succ_cons, ih n _ (by omega), leBytes]

/-- A run of the bytes of a number. -/
theorem leNat_leBytes_slice {n a b : Nat} (x : Nat) (h : a + b ≤ n) :
    leNat (((leBytes n x).drop a).take b) = x / 256 ^ a % 256 ^ b := by
  rw [drop_leBytes, take_leBytes _ _ _ (by omega), leNat_leBytes]

/-- A run of some bytes. -/
theorem leNat_slice (l : List Byte) {a b : Nat} (h : a + b ≤ l.length) :
    leNat ((l.drop a).take b) = leNat l / 256 ^ a % 256 ^ b := by
  conv_lhs => rw [← leBytes_leNat l]
  exact leNat_leBytes_slice _ h

theorem Reported.mixed {s t : State} (h : Reported s t) : t.mixed = s.mixed := by rw [h.1]

theorem Reported.hostGone {s t : State} (h : Reported s t) (a : Nat) : t.hostGone a = s.hostGone a := by
  rw [h.1]
  rfl

/-! ### The counts of a fault area's header -/

/-- The header as a rise of a count reads it. -/
def areaHeader (hp : List Nat) (s : State) : BitVec 512 := BitVec.ofNat 512 (leNat (hp.map s.readByte) % 2 ^ 128)

/-- The write of a header. -/
def putHeader (hk : Nat) (hp : List Nat) (h : BitVec 512) (s : State) : State :=
  writePlaces hk false (hp.zip (leBytes 64 h.toNat)) s

theorem areaCount_eq_field {hp : List Nat} {s : State} {k : Nat} (hlen : hp.length = 64) (hk : k < 4) :
    areaCount hp k s = field (areaHeader hp s) (32 * k) 32 := by
  rw [areaCount, leNat_slice _ (by rw [List.length_map, hlen]; omega), field, areaHeader, BitVec.toNat_ofNat]
  have : k = 0 ∨ k = 1 ∨ k = 2 ∨ k = 3 := by omega
  obtain rfl | rfl | rfl | rfl := this <;> norm_num <;> omega

/-- A header of which one count is set. -/
theorem putHeader_counts {hk : Nat} {hp : List Nat} {s u : State} {k v : Nat} (hlen : hp.length = 64) (hnodup : hp.Nodup)
    (hthere : ∀ a ∈ hp, u.hostGone a = false) (hfixed : ∀ a ∈ hp, u.mixed.contains (a / 2 ^ 29) = false)
    (hw : Memory.wf u.mem = true) (hk' : k < 4) (hv : v < 2 ^ 32) :
    let t := putHeader hk hp (setField (areaHeader hp s) (32 * k) 32 v) u
    (∀ j, j < 4 → areaCount hp j t = if j = k then v else areaCount hp j s) ∧ SameBytes hp u t
      ∧ Memory.wf t.mem = true := by
  intro t
  obtain ⟨hbytes, hsame, hwf⟩ := writePlaces_bytes (key := hk) (pas := hp) (s := u)
    (bytes := leBytes 64 (setField (areaHeader hp s) (32 * k) 32 v).toNat) (by rw [hlen, length_leBytes]) hnodup hthere hw
  refine ⟨fun j hj => ?_, hsame, hwf⟩
  have hmixed : t.mixed = u.mixed := (writePlaces_reported hk false _ u).mixed
  have hread : hp.map t.readByte = hp.map (Memory.read t.mem) :=
    List.map_congr_left fun a ha => by
      rw [State.readByte, hmixed, hfixed a ha, if_neg Bool.false_ne_true]
  have hfield : areaCount hp j t = field (setField (areaHeader hp s) (32 * k) 32 v) (32 * j) 32 := by
    rw [areaCount, hread, show hp.map (Memory.read t.mem) = _ from hbytes, leNat_leBytes_slice _ (by omega), field,
      Nat.pow_mul 256 4 j, Nat.pow_mul 2 32 j]
    norm_num
  rw [hfield]
  split
  next h => rw [h, field_setField_same _ _ (by omega), Nat.mod_eq_of_lt hv]
  next h => rw [field_setField_other _ _ (by omega) (by omega), areaCount_eq_field hlen hj]

/-- The write to a fault area whose header can be read. -/
theorem writeArea_at {s : State} {w : World} {a : DWord} {hp : List Nat} {hk : Nat} (hplace : areaPlace s w a 64 = .at_ hp hk)
    (hgood : ∀ x ∈ hp, s.badByte x = false) (hmac : badLines s hk hp = []) (what n : Nat) (rec : BitVec 512) :
    writeArea s w a what n rec =
      let h := areaHeader hp s
      if what = 1 then .done (putHeader hk hp (setField h 96 32 (satAdd32 (field h 96 32) n)) s)
      else if what = 2 then .done (putHeader hk hp (setField h 64 32 (satAdd32 (field h 64 32) n)) s)
      else if field h 0 32 < Config.faultRecords then
        match areaPlace s w (a + BitVec.ofNat 64 (64 + 64 * field h 0 32)) 64 with
        | .wait f => .wait f
        | .unreachable => .unreachable rec
        | .at_ rp rk =>
          .done (putHeader hk hp (setField h 0 32 (field h 0 32 + 1)) (writePlaces rk false (rp.zip (leBytes 64 rec.toNat)) s))
      else .done (putHeader hk hp (setField h 32 32 (satAdd32 (field h 32 32) 1)) s) := by
  have hany : ¬ (hp.any (fun x => s.badByte x) || !(badLines s hk hp).isEmpty) = true := by
    rw [hmac, Bool.or_eq_true, List.any_eq_true]
    rintro (⟨x, hx, h⟩ | h)
    · rw [hgood x hx] at h
      exact Bool.false_ne_true h
    · exact Bool.false_ne_true h
  rw [writeArea, hplace]
  exact if_neg hany

/-- The grid's fault area at places that can be read: a rise of one of its counts, or a record. -/
theorem recordOne_done {g what n : Nat} {rec : BitVec 512} {s t : State} {x : Grid} {w : World} (hg : s.grid g = some x)
    (hw : s.world x.key = some w) (h : writeArea s w x.faultArea what n rec = .done t) : recordOne g what n rec s = t := by
  rw [recordOne, hg]
  simp only [hw, h]

theorem satAdd32_eq (x n : Nat) : satAdd32 x n = min (x + n) (2 ^ 32 - 1) := rfl

section

variable {g : Nat} {hp : List Nat} {hk : Nat} {s : State}

/-- The header with one of its counts raised. -/
theorem AreaAt.rises (harea : AreaAt g hp hk s) (hw : Memory.wf s.mem = true) {k : Nat} (hk' : k < 4) (n : Nat) :
    CountRises hp k n [] s (putHeader hk hp (setField (areaHeader hp s) (32 * k) 32
      (satAdd32 (field (areaHeader hp s) (32 * k) 32) n)) s) := by
  obtain ⟨x, w, hgrid, hworld, hplace, hmac, hnodup, hlen, hgood⟩ := harea
  have hthere : ∀ a ∈ hp, s.hostGone a = false := fun a ha => (Bool.or_eq_false_iff.mp (hgood a ha).1).2
  obtain ⟨hcounts, hsame, -⟩ := putHeader_counts (s := s) (u := s) (hk := hk) (v := satAdd32 (field (areaHeader hp s) (32 * k) 32) n)
    hlen hnodup hthere (fun a ha => (hgood a ha).2) hw hk' (by rw [satAdd32_eq]; omega)
  refine ⟨fun j hj => (hcounts j hj).trans ?_, hsame⟩
  split
  next h => rw [satAdd32_eq, ← areaCount_eq_field hlen hk', h]
  next => rfl

/-- POISONED and TRITREPL rise. -/
theorem AreaAt.counted (harea : AreaAt g hp hk s) (hw : Memory.wf s.mem = true) (rec : BitVec 512) (n : Nat) :
    CountRises hp 3 n [] s (recordOne g 1 n rec s) ∧ CountRises hp 2 n [] s (recordOne g 2 n rec s) := by
  have h3 := harea.rises hw (k := 3) (by omega) n
  have h2 := harea.rises hw (k := 2) (by omega) n
  obtain ⟨x, w, hgrid, hworld, hplace, hmac, hnodup, hlen, hgood⟩ := harea
  have hwrite := fun what => writeArea_at hplace (fun a ha => (hgood a ha).1) hmac what n rec
  exact ⟨(recordOne_done hgrid hworld (hwrite 1)).symm ▸ h3, (recordOne_done hgrid hworld (hwrite 2)).symm ▸ h2⟩

/-- The write of a record for a grid is done at once and leaves state t. -/
def RecordDone (g : Nat) (rec : BitVec 512) (s t : State) : Prop :=
  ∃ x w, s.grid g = some x ∧ s.world x.key = some w ∧ writeArea s w x.faultArea 0 0 rec = .done t

theorem RecordDone.recordOne {rec : BitVec 512} {t : State} (h : RecordDone g rec s t) : recordOne g 0 0 rec s = t := by
  obtain ⟨x, w, hgrid, hworld, hdone⟩ := h
  exact recordOne_done hgrid hworld hdone

/-- A full fault area: LOST rises. -/
theorem AreaAt.lost (harea : AreaAt g hp hk s) (hw : Memory.wf s.mem = true) (rec : BitVec 512)
    (hfull : 63 ≤ areaCount hp 0 s) : ∃ t, RecordDone g rec s t ∧ CountRises hp 1 1 [] s t := by
  have h1 := harea.rises hw (k := 1) (by omega) 1
  obtain ⟨x, w, hgrid, hworld, hplace, hmac, hnodup, hlen, hgood⟩ := harea
  have hfield : ¬ field (areaHeader hp s) 0 32 < Config.faultRecords := by
    have := areaCount_eq_field (s := s) hlen (k := 0) (by omega)
    rw [Nat.mul_zero] at this
    rw [← this]
    exact Nat.not_lt.mpr hfull
  have hwrite := writeArea_at hplace (fun a ha => (hgood a ha).1) hmac 0 0 rec
  exact ⟨_, ⟨x, w, hgrid, hworld, hwrite.trans (if_neg hfield)⟩, h1⟩

/-- A record in the first free place. -/
theorem AreaAt.recorded (harea : AreaAt g hp hk s) (hw : Memory.wf s.mem = true) (rec : BitVec 512) {rp : List Nat} {rk : Nat}
    (hfree : areaCount hp 0 s < 63) (hroom : RecordRoom g (areaCount hp 0 s) rp rk s) (hapart : ∀ a ∈ rp, a ∉ hp) :
    ∃ t, RecordDone g rec s t ∧ Recorded hp rp rec s t := by
  obtain ⟨x, w, hgrid, hworld, hplace, hmac, hnodup, hlen, hgood⟩ := harea
  obtain ⟨x', w', hgrid', hworld', hplace', hnodup', hlen', hthere'⟩ := hroom
  cases hgrid.symm.trans hgrid'
  cases hworld.symm.trans hworld'
  have hcount : areaCount hp 0 s = field (areaHeader hp s) 0 32 := areaCount_eq_field hlen (k := 0) (by omega)
  rw [hcount] at hplace' hfree
  have hwrite := writeArea_at hplace (fun a ha => (hgood a ha).1) hmac 0 0 rec
  have hwrite := hwrite.trans ((if_neg (by decide)).trans ((if_neg (by decide)).trans (if_pos hfree)))
  rw [hplace'] at hwrite
  refine ⟨_, ⟨x, w, hgrid, hworld, hwrite⟩, ?_⟩
  have hreported := writePlaces_reported rk false (rp.zip (leBytes 64 rec.toNat)) s
  obtain ⟨hbytes, hsame, hwf⟩ := writePlaces_bytes (key := rk) (bytes := leBytes 64 rec.toNat)
    (by rw [hlen', length_leBytes]) hnodup' hthere' hw
  obtain ⟨hcounts, hheader, -⟩ := putHeader_counts (s := s) (u := writePlaces rk false (rp.zip (leBytes 64 rec.toNat)) s) (hk := hk)
    (k := 0) (v := field (areaHeader hp s) 0 32 + 1) hlen hnodup
    (fun a ha => by rw [hreported.hostGone]; exact (Bool.or_eq_false_iff.mp (hgood a ha).1).2)
    (fun a ha => by rw [hreported.mixed]; exact (hgood a ha).2) hwf (by omega)
    (by have : field (areaHeader hp s) 0 32 < 63 := hfree; omega)
  refine ⟨?_, fun j hj => (hcounts j hj).trans ?_, hsame.append hheader⟩
  · rw [SameBytes.map hheader fun a ha => hapart a ha, hbytes]
  · split
    next h =>
      have : field (areaHeader hp s) 0 32 < 63 := hfree
      rw [h, hcount]
      omega
    next => rfl

end

end Machine

open Machine

end Sys2Proof

/-! ## The delivery of a fault (R18, R345 to R348) -/

namespace Sys2Proof

namespace Machine

theorem Reported.st {s t : State} (h : Reported s t) : t.st = { s.st with status := t.st.status } := by rw [h.1]

theorem Reported.grd {s t : State} (h : Reported s t) : t.grd = { s.grd with ended := t.grd.ended } := by rw [h.1]

/-- The strand as a delivered fault leaves it. -/
def Strand.faulted (t : Strand) : Strand :=
  { t with status := .faulted, clause := none, attempt := none, promo := none, fetched := [] }

/-- The state of a fault whose record has been written, before the grid ends or the strand's arenas go. -/
def stoppedState (f : FaultInfo) (s : State) : State :=
  let s1 := recordFor s.grd.id 0 0 (recordOf s f true) s
  { s1 with st := s1.st.faulted }

/-- The end of the grid, or of the strand's thread arenas. -/
def stopEffects (f : FaultInfo) (s : State) : State :=
  if s.grd.continue_ then destroySlots (threadSlotOf s.st) s else endGrid s.grd.id f.code s

theorem delivered_eq (f : FaultInfo) (s : State) : delivered f s = afterStop (stopEffects f (stoppedState f s)) := rfl

theorem deliver_next {f : FaultInfo} {s : State} (h : f.code ≠ codeAbsent) : deliver f s = .next (delivered f s) := if_neg h

theorem stoppedState_reported (f : FaultInfo) (s : State) :
    Reported s (recordFor s.grd.id 0 0 (recordOf s f true) s) := recordFor_reported _ 0 0 _ s

theorem stopEffects_st {f : FaultInfo} {s : State} (h : s.st.status = .faulted) : (stopEffects f s).st = s.st := by
  rw [stopEffects]
  split
  · rfl
  · have hreported := endGrid_reported s.grd.id f.code s
    rw [hreported.st, hreported.2.2.1 h, ← h]

/-- The strand stops where it stands and keeps its registers. -/
theorem delivered_st (f : FaultInfo) (s : State) : (delivered f s).st = s.st.faulted := by
  have hst : (stopEffects f (stoppedState f s)).st = s.st.faulted := by
    rw [stopEffects_st rfl]
    show (recordFor s.grd.id 0 0 (recordOf s f true) s).st.faulted = s.st.faulted
    rw [(stoppedState_reported f s).st]
    rfl
  rw [delivered_eq, afterStop_st (by rw [hst]; exact fun w => Status.noConfusion), hst]

/-- The grid in focus is marked as ended. -/
theorem markEnded_focus {code : Nat} {s : State} (hlive : s.grd.live = true) :
    (markEnded s.grd.id code s).grd.ended.isSome = true := by
  have hgrid : s.grid s.grd.id = some s.grd := by
    rw [State.grid, State.allGrids, if_pos hlive, List.find?_cons, decide_eq_true rfl]
  rw [markEnded, hgrid]
  dsimp only
  split
  next h => exact h
  next =>
    rw [countFault_grd, stopStrands_grd]
    simp [State.setGrid, State.mapGrids, hlive]

theorem afterStop_grd (s : State) : (afterStop s).grd = s.grd := by rw [afterStop_settled s]

/-- With CONTINUE = 0 the grid ends. -/
theorem delivered_ends {f : FaultInfo} {s : State} (hlive : s.grd.live = true) (hcontinue : s.grd.continue_ = false) :
    (delivered f s).grd.ended.isSome = true := by
  have hgrd : (stoppedState f s).grd = _ := (stoppedState_reported f s).grd
  rw [delivered_eq, afterStop_grd, stopEffects, if_neg]
  · exact (endChildren_reported _ _ _).2.2.2 (markEnded_focus (by rw [hgrd]; exact hlive))
  · rw [hgrd]
    show ¬ s.grd.continue_ = true
    rw [hcontinue]
    exact Bool.false_ne_true

/-! ### The record of a delivered fault -/

theorem writePlaces_grids (key : Nat) (outside : Bool) (l : List (Nat × Byte)) (s : State) :
    (writePlaces key outside l s).grd = s.grd ∧ (writePlaces key outside l s).grids = s.grids := by
  rw [(writePlaces_stored key outside l s).1.1]
  exact ⟨rfl, rfl⟩

/-- A record that is written ends no grid. -/
theorem writeArea_grids {s t : State} {w : World} {a : DWord} {what n : Nat} {rec : BitVec 512}
    (h : writeArea s w a what n rec = .done t) : t.grd = s.grd ∧ t.grids = s.grids := by
  simp only [writeArea] at h
  repeat' split at h
  all_goals cases h
  all_goals simp only [writePlaces_grids, and_self]

theorem allGrids_congr {s t : State} (hgrd : t.grd = s.grd) (hgrids : t.grids = s.grids) : t.allGrids = s.allGrids := by
  rw [State.allGrids, State.allGrids, hgrd, hgrids]

theorem RecordDone.allGrids {g : Nat} {rec : BitVec 512} {s t : State} (h : RecordDone g rec s t) : t.allGrids = s.allGrids := by
  obtain ⟨x, w, -, -, hdone⟩ := h
  exact allGrids_congr (writeArea_grids hdone).1 (writeArea_grids hdone).2

/-- A header that can be read does not fail its MAC, and its grid does not end over it. -/
theorem AreaAt.recordFor {g : Nat} {hp : List Nat} {hk : Nat} {rec : BitVec 512} {s t : State} (harea : AreaAt g hp hk s)
    (hdone : RecordDone g rec s t) : recordFor g 0 0 rec s = t := by
  have hfails : areaFails g s = none := by
    obtain ⟨x, w, hgrid, hworld, hplace, hmac, -⟩ := harea
    rw [areaFails, hgrid]
    simp only [hworld, hplace, hmac]
    rfl
  rw [Machine.recordFor, hfails]
  dsimp only
  have hgrid : t.grid g = s.grid g := by rw [State.grid, State.grid, hdone.allGrids]
  simp only [recordAt, hdone.recordOne, hgrid]
  rw [if_neg]
  simp

theorem endChildren_nil (fuel : Nat) (s : State) : endChildren fuel [] s = s := by cases fuel <;> rfl

theorem childrenOf_eq_nil {g : Nat} {s : State} (h : ∀ x ∈ s.allGrids, x.parent ≠ some g) : childrenOf s g = [] := by
  rw [childrenOf, List.map_eq_nil_iff, List.filter_eq_nil_iff]
  intro x hx hparent
  exact h x hx (of_decide_eq_true hparent)

theorem mem_allGrids_mapGrids {f : Grid → Grid} {s : State} {y : Grid} (h : y ∈ (s.mapGrids f).allGrids) :
    ∃ x ∈ s.allGrids, y = f x := by
  by_cases hlive : s.grd.live = true
  · have hmap : y = f s.grd ∨ y ∈ s.grids.map f := by
      rw [State.allGrids] at h
      simp only [State.mapGrids, hlive, if_true] at h
      split at h
      · exact List.mem_cons.mp h
      · exact .inr h
    rw [State.allGrids, if_pos hlive]
    obtain rfl | h := hmap
    · exact ⟨_, List.mem_cons_self, rfl⟩
    · obtain ⟨x, hx, rfl⟩ := List.mem_map.mp h
      exact ⟨x, List.mem_cons_of_mem _ hx, rfl⟩
  · rw [State.allGrids] at h
    simp only [State.mapGrids, if_neg hlive] at h
    rw [State.allGrids, if_neg hlive]
    obtain ⟨x, hx, rfl⟩ := List.mem_map.mp h
    exact ⟨x, hx, rfl⟩

theorem mem_allGrids_of_grid {g : Nat} {x : Grid} {s : State} (h : s.grid g = some x) : x ∈ s.allGrids := by
  rw [State.grid] at h
  exact List.mem_of_find?_eq_some h

theorem markEnded_childless {g code k : Nat} {s : State} (h : ∀ x ∈ s.allGrids, x.parent ≠ some g) :
    ∀ x ∈ (markEnded k code s).allGrids, x.parent ≠ some g := by
  rw [markEnded]
  split
  · exact h
  next y hy =>
    split
    · exact h
    · intro x hx
      have hx : x ∈ (s.setGrid { y with ended := some code }).allGrids := hx
      obtain ⟨z, hz, rfl⟩ := mem_allGrids_mapGrids hx
      split
      · exact h y (mem_allGrids_of_grid hy)
      · exact h z hz

/-- A grid without children ends alone. -/
theorem endGrid_childless {g code : Nat} {s : State} (h : ∀ x ∈ s.allGrids, x.parent ≠ some g) :
    endGrid g code s = markEnded g code s := by
  rw [endGrid, endChildren, childrenOf_eq_nil (markEnded_childless h)]
  exact endChildren_nil _ _

theorem markEnded_mem (g code : Nat) (s : State) : (markEnded g code s).mem = s.mem := by
  rw [markEnded]
  split
  · rfl
  · split <;> rfl

/-- What a fault leaves of memory is what its record left. -/
theorem AreaAt.delivered {f : FaultInfo} {hp : List Nat} {hk : Nat} {s t : State} (harea : AreaAt s.grd.id hp hk s)
    (halone : s.grd.continue_ = true ∨ ∀ g ∈ s.allGrids, g.parent ≠ some s.grd.id)
    (hdone : RecordDone s.grd.id (recordOf s f true) s t) :
    (Machine.delivered f s).mem = t.mem ∧ (Machine.delivered f s).mixed = t.mixed ∧ (Machine.delivered f s).free = t.free := by
  have hstate : stoppedState f s = { t with st := t.st.faulted } := by
    rw [stoppedState, harea.recordFor hdone]
  have hgrd : t.grd = s.grd := by
    obtain ⟨x, w, -, -, hwrite⟩ := hdone
    exact (writeArea_grids hwrite).1
  have hstop : (stopEffects f (stoppedState f s)).mem = t.mem ∧ (stopEffects f (stoppedState f s)).mixed = t.mixed
      ∧ (stopEffects f (stoppedState f s)).free = t.free := by
    rw [hstate, stopEffects]
    split
    · exact ⟨rfl, rfl, rfl⟩
    next hends =>
      have hchildless : ∀ g ∈ s.allGrids, g.parent ≠ some s.grd.id := by
        refine halone.resolve_left fun h => hends ?_
        rw [← hgrd] at h
        exact h
      have hlone : ∀ g ∈ ({ t with st := t.st.faulted } : State).allGrids, g.parent ≠ some t.grd.id := by
        intro x hx
        have hx : x ∈ t.allGrids := hx
        rw [hdone.allGrids] at hx
        rw [hgrd]
        exact hchildless x hx
      rw [endGrid_childless hlone]
      have hreported := markEnded_reported t.grd.id f.code { t with st := t.st.faulted }
      refine ⟨markEnded_mem _ _ _, hreported.mixed, ?_⟩
      rw [hreported.1]
  rw [delivered_eq, afterStop_settled (stopEffects f (stoppedState f s))]
  exact hstop

theorem CountRises.of_mem {hp : List Nat} {k n : Nat} {also : List Nat} {s t u : State} (h : CountRises hp k n also s t)
    (hmem : u.mem = t.mem ∧ u.mixed = t.mixed ∧ u.free = t.free) : CountRises hp k n also s u := by
  obtain ⟨hmem, hmixed, hfree⟩ := hmem
  have hread : u.readByte = t.readByte := by
    funext a
    rw [State.readByte, State.readByte, hmem, hmixed, hfree]
  refine ⟨fun j hj => ?_, fun a ha => ?_⟩
  · rw [areaCount, hread]
    exact h.1 j hj
  · rw [hmem]
    exact h.2 a ha

theorem Recorded.of_mem {hp rp : List Nat} {rec : BitVec 512} {s t u : State} (h : Recorded hp rp rec s t)
    (hmem : u.mem = t.mem ∧ u.mixed = t.mixed ∧ u.free = t.free) : Recorded hp rp rec s u :=
  ⟨hmem.1 ▸ h.1, h.2.of_mem hmem⟩

end Machine

open Machine

/-- Settles O54. -/
theorem faultDelivery : Obligations.FaultDelivery := by
  refine ⟨fun f s hcode => ⟨_, deliver_next hcode, ?_⟩, fun f s => field_recordOf, fun g hp hk rec s harea hw =>
    ⟨fun rp rk hfree hroom hapart => ?_, fun hfull => ?_, harea.counted hw rec⟩,
    fun f hp hk s hcode harea hw halone => ⟨_, deliver_next hcode, fun rp rk hfree hroom hapart => ?_, fun hfull => ?_⟩,
    fun i f lanes s hform => faultsOnError i s f lanes hform⟩
  · rw [delivered_st]
    exact ⟨rfl, rfl, rfl, rfl, rfl, rfl, rfl, delivered_ends⟩
  · obtain ⟨t, hdone, hrecorded⟩ := harea.recorded hw rec hfree hroom hapart
    exact hdone.recordOne.symm ▸ hrecorded
  · obtain ⟨t, hdone, hrises⟩ := harea.lost hw rec hfull
    exact hdone.recordOne.symm ▸ hrises
  · obtain ⟨t, hdone, hrecorded⟩ := harea.recorded hw (recordOf s f true) hfree hroom hapart
    exact hrecorded.of_mem (harea.delivered halone hdone)
  · obtain ⟨t, hdone, hrises⟩ := harea.lost hw (recordOf s f true) hfull
    exact hrises.of_mem (harea.delivered halone hdone)

end Sys2Proof

/-! ## The records of work queues (R270, R315 to R323, R372) -/

namespace Sys2Proof

namespace Machine

theorem exec_gridRecord (q s) : exec (.gridRecord q) s = execGridRecord q s := rfl
theorem exec_nodeRecord (q s) : exec (.nodeRecord q) s = execNodeRecord q s := rfl
theorem exec_copyRecord (q s) : exec (.copyRecord q) s = execCopyRecord q s := rfl
theorem exec_signalRecord (q s) : exec (.signalRecord q) s = execSignalRecord q s := rfl
theorem exec_waitvalRecord (q s) : exec (.waitvalRecord q) s = execWaitvalRecord q s := rfl
theorem exec_waitvalSatisfied (q s) : exec (.waitvalSatisfied q) s = execWaitvalSatisfied q s := rfl
theorem exec_readyPoolEntry (s) : exec .readyPoolEntry s = execReadyPoolEntry s := rfl

/-! ### What a write to memory leaves -/

/-- Beside the standing of strands, a write changes nothing but memory and what is kept of its bytes. -/
theorem writePlaces_frame (key : Nat) (outside : Bool) (l : List (Nat × Byte)) (s : State) :
    let t := writePlaces key outside l s
    t.grd = s.grd ∧ t.grids = s.grids ∧ t.wld = s.wld ∧ t.worlds = s.worlds ∧ t.queues = s.queues ∧ t.origins = s.origins
      ∧ t.posted = s.posted ∧ t.handed = s.handed ∧ t.watches = s.watches ∧ t.refNs = s.refNs := by
  intro t
  have h := (writePlaces_stored key outside l s).1.1
  refine ⟨?_, ?_, ?_, ?_, ?_, ?_, ?_, ?_, ?_, ?_⟩ <;> simp only [t] <;> rw [h]

theorem putPlaces_mem (key : Nat) (outside : Bool) (l : List (Nat × Byte)) (s : State) :
    (putPlaces key outside l s).mem = Memory.writeAt s.mem l := rfl

/-- The bytes after a write depend on those before it and on the links of the hosts alone. -/
theorem writePlaces_mem_congr {s t : State} (key : Nat) (outside : Bool) (l : List (Nat × Byte)) (hmem : t.mem = s.mem)
    (hgone : t.hostGone = s.hostGone) : (writePlaces key outside l t).mem = (writePlaces key outside l s).mem := by
  simp only [writePlaces, hgone]
  split
  · rw [putPlaces_mem, putPlaces_mem, hmem]
  · rw [putPlaces_mem, putPlaces_mem, countDropped_mem, countDropped_mem, hmem]

/-! ### Queues -/

theorem queue_index {q : Nat} {x : Queue} {s : State} (h : s.queue q = some x) : x.index = q := by
  rw [State.queue] at h
  simpa using List.find?_some h

theorem queue_congr {s t : State} (h : t.queues = s.queues) (q : Nat) : t.queue q = s.queue q := by
  rw [State.queue, State.queue, h]

/-- A queue that is changed. -/
theorem queue_mapQueue (q : Nat) {f : Queue → Queue} (hf : ∀ x, (f x).index = x.index) (s : State) :
    (mapQueue q f s).queue q = (s.queue q).map f := by
  rw [State.queue, State.queue, mapQueue, update, List.find?_map]
  have hindex : ((fun x : Queue => decide (x.index = q)) ∘ fun x : Queue => if decide (x.index = q) = true then f x else x)
      = fun x : Queue => decide (x.index = q) := by
    funext x
    simp only [Function.comp_apply]
    split <;> simp [hf]
  rw [hindex]
  cases h : s.queues.find? fun x => decide (x.index = q) with
  | none => rfl
  | some x => simp only [Option.map_some, if_pos (List.find?_some h)]

theorem queue_mapQueue_some {q : Nat} {f : Queue → Queue} {x : Queue} {s t : State} (hf : ∀ x, (f x).index = x.index)
    (hqueues : t.queues = s.queues) (h : s.queue q = some x) : (mapQueue q f t).queue q = some (f x) := by
  rw [queue_mapQueue q hf, queue_congr hqueues, h]
  rfl

/-! ### The record at a queue's head -/

theorem moonRead_spec {s : State} {key n pk : Nat} {k : Access} {a : DWord} {pas : List Nat}
    (h : moonRead s key k a n = some (pas, pk)) :
    moonPlaces s key k a n = some (pas, pk) ∧ badLines s pk pas = [] ∧ ∀ x ∈ pas, s.badByte x = false := by
  rw [moonRead] at h
  split at h
  next l j hplaces =>
    split at h
    · cases h
    next hgood =>
      cases h
      rw [Bool.or_eq_true, not_or, List.any_eq_true, Bool.not_eq_true', Bool.not_eq_false, List.isEmpty_iff] at hgood
      exact ⟨hplaces, hgood.2, fun x hx => Bool.eq_false_iff.mpr fun hbad => hgood.1 ⟨x, hx, hbad⟩⟩
  · cases h

/-- Bytes that the moon cores can read do not fail their MACs. -/
theorem moonCheck_clean {s : State} {key n : Nat} {k : Access} {a : DWord} {x : List Nat × Nat}
    (h : moonRead s key k a n = some x) : moonCheck key k a n s = s := by
  obtain ⟨hplaces, hmac, -⟩ := moonRead_spec h
  rw [moonCheck, hplaces]
  exact macCheck_clean hmac

/-- What stands at a queue's head can be read, and its queue is open. -/
theorem headRecord_spec {s : State} {q : Nat} {x : Head} (h : headRecord s q = some x) :
    s.queue q = some x.q ∧ queueHeader s x.q = some (x.key, x.h) ∧ ∃ y, slotImage s x.key x.h x.h.read = some y := by
  rw [headRecord] at h
  split at h
  · cases h
  next y hy =>
    split at h
    · cases h
    next key hd hheader =>
      split at h
      · cases h
      next pas r himage =>
        split at h
        · cases h
          split at hy
          · exact ⟨hy, hheader, _, himage⟩
          · cases hy
        · cases h

theorem queueCheck_clean {s : State} {q : Nat} {x : Head} (h : headRecord s q = some x) : queueCheck x.q s = s := by
  obtain ⟨-, hheader, y, himage⟩ := headRecord_spec h
  rw [queueHeader] at hheader
  rw [queueCheck]
  split at hheader
  · cases hheader
  next key hkey =>
    rw [hkey]
    obtain ⟨hd, hread, heq⟩ := Option.map_eq_some_iff.mp hheader
    cases heq
    obtain ⟨z, hz, -⟩ := Option.map_eq_some_iff.mp hread
    obtain ⟨w, hw, -⟩ := Option.map_eq_some_iff.mp himage
    simp only [ringCheck, headerCheck, moonCheck_clean hz, hread, moonCheck_clean hw]

/-- A record that stands at a queue's head is taken by the event of its kind. -/
theorem withHead_stands {q : Nat} {x : Head} {s : State} {kind : Nat → Bool} {k : Head → State → State}
    (h : RecordStands q x s) (hkind : kind (field x.bits 8 8) = true) : withHead q kind s k = .next (k x s) := by
  obtain ⟨hhead, hgood⟩ := h
  obtain ⟨hqueue, -⟩ := headRecord_spec hhead
  rw [withHead, hqueue]
  simp only [queueCheck_clean hhead, hhead, hkind, hgood]
  rfl

theorem head_index {q : Nat} {x : Head} {s : State} (h : RecordStands q x s) : x.q.index = q :=
  queue_index (headRecord_spec h.1).1

/-! ### READ, LASTERR and ERRORS -/

theorem Header.put_eq (h : Header) (off n v : Nat) (s : State) :
    h.put off n v s = writePlaces h.key false (((h.places.drop off).take n).zip (leBytes n v)) s := by
  rw [Header.put, zip_take_right, length_leBytes]

/-- The places of n bytes of a header. -/
def Header.at_ (h : Header) (off n : Nat) : List Nat := (h.places.drop off).take n

/-- A header that lies at distinct places of device memory. -/
def Header.Sound (h : Header) : Prop := h.places.Nodup ∧ ∀ p ∈ h.places, p < Config.paSpace

theorem Header.mem_at {h : Header} {off n p : Nat} (hp : p ∈ h.at_ off n) : p ∈ h.places :=
  List.mem_of_mem_drop (List.mem_of_mem_take hp)

/-- A field of a header that is written. -/
theorem Header.put_bytes {h : Header} (hsound : h.Sound) {off n v : Nat} (hlen : off + n ≤ h.places.length) {s : State}
    (hw : Memory.wf s.mem = true) :
    (h.at_ off n).map (Memory.read (h.put off n v s).mem) = leBytes n v ∧ SameBytes (h.at_ off n) s (h.put off n v s)
      ∧ Memory.wf (h.put off n v s).mem = true := by
  rw [Header.put_eq]
  exact writePlaces_bytes (by rw [length_leBytes, List.length_take, List.length_drop]; omega)
    (hsound.1.sublist ((List.take_sublist _ _).trans (List.drop_sublist _ _)))
    (fun p hp => hostGone_low s (hsound.2 p (Header.mem_at hp))) hw

/-- Fields of a header that do not overlap share no place. -/
theorem Header.at_apart {h : Header} (hsound : h.Sound) {off n off' n' : Nat} (hle : off + n ≤ off') :
    ∀ p ∈ h.at_ off n, p ∉ h.at_ off' n' := by
  intro p hp hp'
  have hsplit : h.places = h.places.take off' ++ h.places.drop off' := (List.take_append_drop off' _).symm
  have hnodup := hsound.1
  rw [hsplit] at hnodup
  refine (List.nodup_append'.mp hnodup).2.2 ?_ (List.mem_of_mem_take hp')
  have : h.at_ off n = ((h.places.take off').drop off).take n := by
    rw [Header.at_, List.drop_take, List.take_take, Nat.min_eq_left (by omega)]
  rw [this] at hp
  exact List.mem_of_mem_drop (List.mem_of_mem_take hp)

theorem refuse_bytes {x : Head} {s : State} (d : Nat) (hlen : 36 ≤ x.h.places.length) (hsound : x.h.Sound)
    (hw : Memory.wf s.mem = true) :
    let t := x.refuse d s
    (x.h.at_ 8 8).map (Memory.read t.mem) = leBytes 8 (x.h.read + 1)
      ∧ (x.h.at_ 28 4).map (Memory.read t.mem) = leBytes 4 (min (field x.h.bits 224 32 + 1) 0xFFFFFFFF)
      ∧ (x.h.at_ 32 4).map (Memory.read t.mem) = leBytes 4 (refusedWord d).toNat
      ∧ SameBytes (x.h.at_ 8 8 ++ x.h.at_ 28 8) s t := by
  obtain ⟨hread, hreadSame, hw1⟩ := Header.put_bytes hsound (off := 8) (n := 8) (v := x.h.read + 1) (by omega) hw
  obtain ⟨herr, herrSame, hw2⟩ := Header.put_bytes hsound (off := 28) (n := 4)
    (v := satAdd32 (field x.h.bits 224 32) 1) (by omega) hw1
  obtain ⟨hlast, hlastSame, hw3⟩ := Header.put_bytes hsound (off := 32) (n := 4) (v := (refusedWord d).toNat) (by omega) hw2
  have happend : x.h.at_ 28 8 = x.h.at_ 28 4 ++ x.h.at_ 32 4 := by
    simp only [Header.at_]
    rw [show 8 = 4 + 4 from rfl, List.take_add, List.drop_drop]
  have hmem : (x.refuse d s).mem = (x.h.put 32 4 (refusedWord d).toNat (x.h.put 28 4 (satAdd32 (field x.h.bits 224 32) 1)
      (x.h.put 8 8 (x.h.read + 1) s))).mem := rfl
  intro t
  simp only [t]
  rw [hmem]
  refine ⟨?_, ?_, hlast, ?_⟩
  · rw [hlastSame.map (Header.at_apart hsound (by omega)), herrSame.map (Header.at_apart hsound (by omega)), hread]
  · rw [hlastSame.map (Header.at_apart hsound (by omega)), herr]
    rfl
  · rw [happend]
    have := (hreadSame.append herrSame).append hlastSame
    intro a ha
    rw [hmem]
    exact this a (by rwa [List.append_assoc])

/-- What taking or refusing a record leaves. -/
theorem Header.put_frame (h : Header) (off n v : Nat) (s : State) :
    let t := h.put off n v s
    t.grd = s.grd ∧ t.grids = s.grids ∧ t.wld = s.wld ∧ t.worlds = s.worlds ∧ t.queues = s.queues ∧ t.origins = s.origins
      ∧ t.posted = s.posted ∧ t.handed = s.handed ∧ t.watches = s.watches ∧ t.refNs = s.refNs :=
  writePlaces_frame _ _ _ s

theorem refuse_refusals {x : Head} {d : Nat} {s : State} {y : Queue} (h : s.queue x.q.index = some y) :
    ∃ z, (x.refuse d s).queue x.q.index = some z ∧ z.refusals = y.refusals + 1 := by
  have hqueues : ∀ h : Header, ∀ off n v : Nat, ∀ s : State, (h.put off n v s).queues = s.queues := fun h off n v s =>
    (h.put_frame off n v s).2.2.2.2.1
  refine ⟨_, queue_mapQueue_some (fun _ => rfl) ?_ h, rfl⟩
  show (x.h.put 32 4 _ (x.h.put 28 4 _ (x.h.put 8 8 _ s))).queues = s.queues
  rw [hqueues, hqueues, hqueues]

/-- The bytes that a consumed record leaves depend on those before it and on the links of the hosts alone. -/
theorem consume_mem_congr {s t : State} (x : Head) (hmem : t.mem = s.mem) (hgone : t.hostGone = s.hostGone) :
    (x.consume t).mem = (x.consume s).mem := writePlaces_mem_congr _ _ _ hmem hgone

theorem take_mem (x : Head) (grid : Bool) (s : State) : (x.take grid s).mem = (x.consume s).mem := rfl

theorem take_frame (x : Head) (grid : Bool) (s : State) :
    let t := x.take grid s
    t.grd = s.grd ∧ t.grids = s.grids ∧ t.wld = s.wld ∧ t.worlds = s.worlds ∧ t.origins = s.origins
      ∧ t.posted = s.posted ∧ t.handed = s.handed ∧ t.watches = s.watches := by
  obtain ⟨h1, h2, h3, h4, -, h5, h6, h7, h8, -⟩ := x.h.put_frame 8 8 (x.h.read + 1) s
  exact ⟨h1, h2, h3, h4, h5, h6, h7, h8⟩

theorem take_st (x : Head) (grid : Bool) (s : State) : (x.take grid s).st = { s.st with status := (x.take grid s).st.status } :=
  (writePlaces_reported _ _ _ s).st

/-! ### GRID records -/

/-- What is kept of the poster of a record is dropped. -/
def untracked (q index : Nat) (s : State) : State :=
  { s with
    origins := s.origins.filter fun o => !(o.queue = q && o.index = index)
    posted := s.posted.filter (· ≠ (q, index)) }

/-- A taken record leaves the registers of the strand, memory but for its READ, and the grids. -/
theorem take_untracked (x : Head) (q : Nat) (s : State) :
    let t := x.take true (untracked q x.h.read s)
    t.mem = (x.consume s).mem ∧ t.st.s = s.st.s ∧ t.grids = s.grids ∧ t.grd = s.grd := by
  intro t
  refine ⟨consume_mem_congr x rfl rfl, ?_, (take_frame x true _).2.1, (take_frame x true _).1⟩
  simp only [t]
  rw [take_st]
  rfl

/-- GRID_RECORD of a record that stands at the head and is of its kind. -/
theorem exec_gridRecord_stands {q : Nat} {x : Head} {s : State} (h : RecordStands q x s) (hkind : field x.bits 8 8 = 0x80) :
    exec (.gridRecord q) s = .next (
      if gridMalformed s.accepted x.bits then x.refuse 1 s
      else if field x.bits 16 10 ≠ q then x.refuse 2 s
      else
        match rootKey s x.bits with
        | none => x.refuse 1 s
        | some key => newGrid q x.order key ((originOf s q x.h.read).map (·.parent)) none (s.posted.contains (q, x.h.read)) x.bits
            (x.take true (untracked q x.h.read s))) := by
  rw [exec_gridRecord, execGridRecord, withHead_stands h (by rw [hkind]; rfl)]
  congr 1
  simp only [hkind]
  rfl

theorem newGrid_root {q order key : Nat} {parent : Option Nat} {debugged : Bool} {rec : BitVec 512} {node : Option NodeRef} {s : State}
    (h : parent = none) : newGrid q order key parent node debugged rec s =
      { s with
        grids := { Grid.blank with
          live := true, id := newGridId s, record := rec, queue := q, order := order, node := node, parent := none, debugged := debugged
          key := key, depth := 0 } :: s.grids
        gridCount := newGridId s } := by
  subst h
  rfl

theorem newGrid_child {q order key o : Nat} {debugged : Bool} {rec : BitVec 512} {node : Option NodeRef} {s : State} {p : Grid}
    (h : s.grid o = some p) (hended : p.ended = none) : newGrid q order key (some o) node debugged rec s =
      { s with
        grids := { Grid.blank with
          live := true, id := newGridId s, record := rec, queue := q, order := order, node := node, parent := some o
          debugged := debugged, key := p.key, depth := p.depth + 1 } :: s.grids
        gridCount := newGridId s } := by
  rw [newGrid]
  simp only [h, hended]
  rfl

theorem gridRecord_taken {q : Nat} {x : Head} {s : State} {key : Nat} (h : RecordStands q x s) (hkind : field x.bits 8 8 = 0x80)
    (hgood : gridMalformed s.accepted x.bits = false) (hqueue : field x.bits 16 10 = q) (hkey : rootKey s x.bits = some key) :
    exec (.gridRecord q) s = .next (newGrid q x.order key ((originOf s q x.h.read).map (·.parent)) none
      (s.posted.contains (q, x.h.read)) x.bits
      (x.take true (untracked q x.h.read s))) := by
  rw [exec_gridRecord_stands h hkind, if_neg (by rw [hgood]; exact Bool.false_ne_true), if_neg (not_not.mpr hqueue), hkey]

/-! ### Records of one engine or of the scheduler -/

/-- COPY_RECORD and SIGNAL_RECORD. -/
theorem handRecord_stands {i : Instr} {q : Nat} {x : Head} {s : State} {kind : Nat → Bool} (h : RecordStands q x s)
    (hkind : kind (field x.bits 8 8) = true) (hexec : exec i s = handRecord q kind s) :
    (x.q.bind.handle = 0 → exec i s = .next (x.refuse 2 s))
      ∧ (x.q.bind.handle ≠ 0 → x.first = false → Stutters i s)
      ∧ (x.q.bind.handle ≠ 0 → x.first = true → Completes i s fun t =>
          t.mem = (x.consume s).mem ∧ ∃ h, t.handed = s.handed ++ [h] ∧ h.key = x.key ∧ h.poster = .record q x.order
            ∧ h.hostPosted = x.host ∧ h.die = x.q.bind.die.toNat ∧ h.engine = x.q.bind.engine.toNat
            ∧ field h.image 8 8 = (if field x.bits 8 8 = 0x82 then 7 else field x.bits 8 8)
            ∧ field h.image 16 496 = field x.bits 16 496) := by
  have hexec : exec i s = .next (
      if x.q.bind.handle = 0 then x.refuse 2 s
      else if !x.first then s
      else hand x.key x.q (asSignal x.bits) x.host (.record q x.order) (x.take false s)) :=
    hexec.trans (by rw [handRecord, withHead_stands h hkind])
  refine ⟨fun h0 => hexec.trans (by rw [if_pos h0]), fun h0 hfirst => hexec.trans (by rw [if_neg h0, hfirst]; rfl),
    fun h0 hfirst => ⟨hand x.key x.q (asSignal x.bits) x.host (.record q x.order) (x.take false s),
      hexec.trans (by rw [if_neg h0, hfirst]; rfl), rfl,
      ⟨(x.take false s).packetCount, x.key, asSignal x.bits, x.host, .record q x.order, x.q.bind.die.toNat, x.q.bind.engine.toNat⟩,
      ?_, rfl, rfl, rfl, rfl, rfl, ?_, ?_⟩⟩
  · exact congrArg (· ++ [_]) (take_frame x false s).2.2.2.2.2.2.1
  · show field (asSignal x.bits) 8 8 = _
    rw [asSignal]
    split
    · rw [field_setField_same _ _ (by omega)]
      rfl
    · rfl
  · show field (asSignal x.bits) 16 496 = _
    rw [asSignal]
    split
    · rw [field_setField_other _ _ (by omega) (by omega)]
    · rfl

/-- The record at the head as one that waits (R322). -/
def Head.watch (x : Head) (q : Nat) : Watch :=
  ⟨q, x.order, x.key, BitVec.ofNat 64 (field x.bits 64 64), BitVec.ofNat 32 (field x.bits 128 32), field x.bits 160 8, none, false⟩

/-- WAITVAL_RECORD of a well-formed record. -/
theorem waitvalRecord_stands {q : Nat} {x : Head} {s : State} (h : RecordStands q x s) (hkind : field x.bits 8 8 = 0x83)
    (hfeature : s.accepted.getLsbD 13 = true) (hhandle : x.q.bind.handle ≠ 0) (hgood : waitvalMalformed x.bits = false) :
    exec (.waitvalRecord q) s = .next (
      if !x.first then s
      else { x.take false s with watches := (x.take false s).watches ++ [x.watch q] }) := by
  rw [exec_waitvalRecord, execWaitvalRecord, withHead_stands h (by rw [hkind]; rfl), hfeature, hgood, if_neg hhandle]
  rfl

/-! ### WAITVAL -/

theorem Reported.watches {s t : State} (h : Reported s t) : t.watches = s.watches := by rw [h.1]

theorem recordForWorld_reported (key : Nat) (rec : BitVec 512) (s : State) : Reported s (recordForWorld key rec s) := by
  rw [recordForWorld]
  split
  · split
    · exact recordFor_reported _ 0 0 rec s
    · exact tell_reported _ s
  · exact tell_reported _ s

theorem watch_queue {q : Nat} {x : Watch} {s : State} (h : (s.watches.find? fun y => y.queue = q) = some x) :
    x.queue = q ∧ x ∈ s.watches :=
  ⟨by simpa using List.find?_some h, List.mem_of_find?_eq_some h⟩

theorem watch_holds_iff (x : Watch) (w : Word) : x.holds w = true ↔
    ((x.cond = 0 ∧ w = x.value) ∨ (x.cond = 1 ∧ w ≠ x.value) ∨ (x.cond = 2 ∧ x.value.toNat ≤ w.toNat)
      ∨ (x.cond ≥ 3 ∧ w.toNat < x.value.toNat)) := by
  rw [Watch.holds]
  by_cases h0 : x.cond = 0
  · simp [h0]
  by_cases h1 : x.cond = 1
  · simp [h1]
  by_cases h2 : x.cond = 2
  · simp [h2, BitVec.ule]
  · have h3 : 3 ≤ x.cond := by omega
    simp [h0, h1, h2, h3, BitVec.ult]

theorem recordRetired_retires {q order : Nat} {s : State} : OneRetired q s (recordRetired q order s) := by
  intro x hx
  exact ⟨_, queue_mapQueue_some (fun _ => rfl) rfl hx, rfl⟩

/-- The scheduler's read of a word changes no waiting record. -/
theorem watchWord_watches {s u : State} {x : Watch} :
    (∀ w, watchWord s x = .word w u → u.watches = s.watches) ∧ ∀ f, watchWord s x = .bad f u → u.watches = s.watches := by
  have hchecked : ∀ {ps : List (Nat × DWord × PagePart)} {v : State} {w y : World},
      checkAccess s w .moon 0 .waitv true x.addr 4 = .ok ps v y →
      (ps.foldl (fun s p => macCheck p.2.2.key p.2.2.pas s) (v.setWorld y)).watches = s.watches := by
    intro ps v w y h
    rw [(foldl_reported (fun s (p : Nat × DWord × PagePart) => macCheck_reported p.2.2.key p.2.2.pas s) ps (v.setWorld y)).watches]
    show v.watches = s.watches
    rw [(checkAccess_only h).1.1]
  rw [watchWord]
  split
  · exact ⟨fun w h => (by cases h), fun f h => (by cases h; rfl)⟩
  · split
    · exact ⟨fun w h => (by cases h), fun f h => (by cases h; rfl)⟩
    next hok =>
      dsimp only
      split
      · exact ⟨fun w h => (by cases h), fun f h => (by cases h; exact hchecked hok)⟩
      · exact ⟨fun w h => (by cases h; exact hchecked hok), fun f h => (by cases h)⟩

theorem watchFault_watches {q : Nat} {x : Watch} {f : FaultInfo} {u : State} (hx : x ∈ u.watches) (hq : x.queue = q) :
    ∃ y ∈ (watchFault x f u).watches, y.queue = q ∧ y.order = x.order ∧ y.fault = some f := by
  rw [watchFault]
  split
  next h => exact ⟨x, hx, hq, rfl, h⟩
  next =>
    have hset : ({ x with fault := some f, declined := false } : Watch)
        ∈ (setWatch { x with fault := some f, declined := false } u).watches :=
      List.mem_map.mpr ⟨x, hx, if_pos (by simp)⟩
    refine ⟨{ x with fault := some f, declined := false }, ?_, hq, rfl, rfl⟩
    dsimp only
    split
    · rw [(reportStage2_reported _ _ _).watches]
      exact hset
    · rw [watchRecord, (recordForWorld_reported _ _ _).watches]
      exact hset

end Machine

open Machine

/-- Settles O41. -/
theorem queueRecords : Obligations.QueueRecords := by
  refine ⟨fun x d s hlen hnodup hlow hw => ?_, fun q x s h hkind => ?_, fun e he q x s h hkind => ?_,
    fun q x s h hkind hfeature hhandle h16 h168 h160 h64 => ?_, fun q x w s u hfind hword => ?_, fun q x f s u hfind hbad hcode => ?_⟩
  · have hsound : x.h.Sound := ⟨hnodup, hlow⟩
    obtain ⟨hread, hsame, -⟩ := Header.put_bytes hsound (off := 8) (n := 8) (v := x.h.read + 1) (by omega) hw
    obtain ⟨hrefused, herrors, hlast, hrest⟩ := refuse_bytes d hlen hsound hw
    exact ⟨⟨hread, hsame⟩, hrefused, herrors, hlast, hrest, fun y => refuse_refusals⟩
  · have hexec := exec_gridRecord_stands h hkind
    refine ⟨fun hbad => hexec.trans (by rw [if_pos hbad]), fun hgood hother => ?_, fun hgood hqueue key hkey horigin => ?_,
      fun hgood hqueue key o p hkey horigin hparent hended => ?_⟩
    · exact hexec.trans (by rw [if_neg (by rw [hgood]; exact Bool.false_ne_true), if_pos hother])
    · refine ⟨_, gridRecord_taken h hkind hgood hqueue hkey, ?_⟩
      rw [newGrid_root (by rw [horigin]; rfl)]
      obtain ⟨hmem, hregs, hgrids, -⟩ := take_untracked x q s
      refine ⟨hmem, hregs, _, congrArg (_ :: ·) hgrids, ?_⟩
      exact ⟨rfl, rfl, rfl, rfl, rfl, rfl, rfl, rfl, rfl, rfl⟩
    · refine ⟨_, gridRecord_taken h hkind hgood hqueue hkey, ?_⟩
      obtain ⟨hmem, hregs, hgrids, hgrd⟩ := take_untracked x q s
      rw [horigin, Option.map_some, newGrid_child (p := p) ?_ hended]
      · refine ⟨hmem, _, congrArg (_ :: ·) hgrids, ?_⟩
        exact ⟨rfl, rfl, rfl, rfl, rfl⟩
      · rw [← hparent, State.grid, State.grid, allGrids_congr hgrd hgrids]
  · simp only [List.mem_cons, List.not_mem_nil, or_false] at he
    obtain rfl | rfl := he
    · exact handRecord_stands h hkind (by rw [exec_copyRecord, execCopyRecord])
    · exact handRecord_stands h hkind (by rw [exec_signalRecord, execSignalRecord])
  · have hgood : waitvalMalformed x.bits = false := by
      simp [waitvalMalformed, h16, h168, h64, h160]
    have hexec := waitvalRecord_stands h hkind hfeature hhandle hgood
    refine ⟨fun hfirst => hexec.trans (by rw [hfirst]; rfl), fun hfirst => ⟨{ x.take false s with watches := (x.take false s).watches ++ [x.watch q] },
      hexec.trans (by rw [hfirst]; rfl), rfl, ?_⟩⟩
    exact congrArg (· ++ [x.watch q]) (take_frame x false s).2.2.2.2.2.2.2
  · obtain ⟨hq, -⟩ := watch_queue hfind
    have hexec : exec (.waitvalSatisfied q) s =
        if x.holds w then .next (recordRetired q x.order { u with
          watches := u.watches.filter fun y => !(y.queue = q && y.order = x.order) })
        else .next u := by
      rw [exec_waitvalSatisfied, execWaitvalSatisfied, hfind]
      simp only [hword]
    rw [← watch_holds_iff]
    refine ⟨fun hholds => ⟨_, hexec.trans (if_pos hholds), rfl, recordRetired_retires, ?_⟩, fun hholds => hexec.trans (if_neg hholds)⟩
    rintro y hy ⟨hyq, hyo⟩
    have hother := (List.mem_filter.mp hy).2
    simp [hyq, hyo] at hother
  · obtain ⟨hq, hx⟩ := watch_queue hfind
    have hexec : exec (.waitvalSatisfied q) s = .next (watchFault x f u) := by
      rw [exec_waitvalSatisfied, execWaitvalSatisfied, hfind]
      simp only [hbad]
      exact if_neg hcode
    refine ⟨_, hexec, watchFault_watches ?_ hq, fun hfault => ?_⟩
    · rw [watchWord_watches.2 f hbad]
      exact hx
    · rw [watchFault, if_pos hfault]
      exact ⟨rfl, rfl⟩

end Sys2Proof

/-! ## Task nodes (R321, R323, R324) -/

namespace Sys2Proof

namespace Machine

/-! ### What a write leaves of the scheduler's lists -/

theorem writePlaces_registered (key : Nat) (outside : Bool) (l : List (Nat × Byte)) (s : State) :
    (writePlaces key outside l s).registered = s.registered := by rw [(writePlaces_stored key outside l s).1.1]

theorem writePlaces_ready (key : Nat) (outside : Bool) (l : List (Nat × Byte)) (s : State) :
    (writePlaces key outside l s).readyPool = s.readyPool ∧ (writePlaces key outside l s).readyWait = s.readyWait := by
  rw [(writePlaces_stored key outside l s).1.1]
  exact ⟨rfl, rfl⟩

theorem writePlaces_queues (key : Nat) (outside : Bool) (l : List (Nat × Byte)) (s : State) :
    (writePlaces key outside l s).queues = s.queues := by rw [(writePlaces_stored key outside l s).1.1]

/-- A byte that is written reads as it was written. -/
theorem writePlaces_byte {key a : Nat} {b : Byte} {s : State} (hthere : s.hostGone a = false) (hw : Memory.wf s.mem = true) :
    Memory.read (writePlaces key false [(a, b)] s).mem a = b ∧ Memory.wf (writePlaces key false [(a, b)] s).mem = true
      ∧ (writePlaces key false [(a, b)] s).hostGone a = false := by
  refine ⟨writePlaces_read key (by simpa using hthere) hw (by simp) (List.mem_singleton.mpr rfl), ?_, ?_⟩
  · exact (writePlaces_reported key false _ s).2.1 hw
  · rw [(writePlaces_reported key false _ s).hostGone, hthere]

/-! ### A node becomes ready -/

theorem makeReady_spec (n : NodeRef) (s : State) :
    n ∈ (makeReady n s).readyPool ++ (makeReady n s).readyWait ∧ (makeReady n s).registered = s.registered
      ∧ (makeReady n s).queues = s.queues
      ∧ (makeReady n s).mem = (writePlaces (lineKey s (n.pa + 69) n.key) false [(n.pa + 69, 2#8)] s).mem := by
  rw [makeReady]
  split
  · refine ⟨?_, writePlaces_registered _ _ _ s, writePlaces_queues _ _ _ s, rfl⟩
    simp
  · refine ⟨?_, writePlaces_registered _ _ _ s, writePlaces_queues _ _ _ s, rfl⟩
    simp

/-- STATE of a node that is posted, and the lists that it enters. -/
theorem postNode_spec {n : NodeRef} {t : Tcb} {s : State} (hthere : s.hostGone (n.pa + 69) = false)
    (hw : Memory.wf s.mem = true) :
    let u := postNode n t s
    u.registered = s.registered ∧ u.queues = s.queues
      ∧ Memory.read u.mem (n.pa + 69) = (if field t 512 32 = 0 then 2 else 1)
      ∧ (field t 512 32 = 0 → n ∈ u.readyPool ++ u.readyWait)
      ∧ (field t 512 32 ≠ 0 → u.readyPool = s.readyPool ∧ u.readyWait = s.readyWait) := by
  intro u
  have hregistered := writePlaces_registered (lineKey s n.pa n.key) false [(n.pa + 69, 1#8)] s
  have hqueues := writePlaces_queues (lineKey s n.pa n.key) false [(n.pa + 69, 1#8)] s
  obtain ⟨hbyte, hwf, hgone⟩ := writePlaces_byte (key := lineKey s n.pa n.key) (b := 1#8) hthere hw
  simp only [u, postNode]
  by_cases h : field t 512 32 = 0
  · rw [if_pos h, if_pos h]
    obtain ⟨hmem, hreg, hq, hm⟩ := makeReady_spec n (writePlaces (lineKey s n.pa n.key) false [(n.pa + 69, 1#8)] s)
    refine ⟨hreg.trans hregistered, hq.trans hqueues, ?_, fun _ => hmem, fun h' => absurd h h'⟩
    rw [hm]
    exact (writePlaces_byte hgone hwf).1
  · rw [if_neg h, if_neg h]
    exact ⟨hregistered, hqueues, hbyte, fun h' => absurd h' h, fun _ => writePlaces_ready _ _ _ s⟩

/-! ### NODE_RECORD -/

theorem tcbAt_clean {s : State} {key : Nat} {a : DWord} {x : Nat × Tcb} (h : tcbAt s key a = some x) :
    moonCheck key .write a 128 s = s := by
  rw [tcbAt] at h
  split at h
  · cases h
  · split at h
    next hread => exact moonCheck_clean hread
    next => cases h

/-- A node's record that is taken: the node is registered. -/
def registerNode (q pa : Nat) (x : Head) (s : State) : State :=
  { s with
    registered := (pa, q) :: s.registered.filter (fun r => r.1 ≠ pa)
    origins := update (fun o => o.queue = q && o.index = x.h.read) (fun o => { o with node := some pa }) s.origins }

theorem nodeRecord_taken {q : Nat} {x : Head} {s : State} {pa : Nat} {t : Tcb} (h : RecordStands q x s)
    (hkind : field x.bits 8 8 = 0x81) (hgood : nodeMalformed x.bits = false) (hfeature : s.accepted.getLsbD 13 = true)
    (htcb : tcbAt s x.key (BitVec.ofNat 64 (field x.bits 64 64)) = some (pa, t)) (hsound : tcbMalformed t = false)
    (hhandle : field t 8 8 = 0x80 ∨ x.q.bind.handle ≠ 0) (hrefusal : nodeRefusal s (tcbRecord t) = none) :
    exec (.nodeRecord q) s = .next (recordRetired q x.order (postNode ⟨x.key, BitVec.ofNat 64 (field x.bits 64 64), pa⟩ t
      (x.take false (registerNode q pa x s)))) := by
  have hplain : ¬ (field t 8 8 ≠ 0x80 ∧ x.q.bind.handle = 0) := fun ⟨h1, h2⟩ => hhandle.elim h1 fun h => h h2
  rw [exec_nodeRecord, execNodeRecord, withHead_stands h (by rw [hkind]; rfl)]
  simp only [hgood, hfeature, tcbAt_clean htcb, htcb, hsound, if_neg hplain, hrefusal]
  rfl

theorem nodeRecord_refused {q : Nat} {x : Head} {s : State} (h : RecordStands q x s) (hkind : field x.bits 8 8 = 0x81)
    (hbad : nodeMalformed x.bits = true ∨ s.accepted.getLsbD 13 = false) :
    exec (.nodeRecord q) s = .next (x.refuse 1 s) := by
  rw [exec_nodeRecord, execNodeRecord, withHead_stands h (by rw [hkind]; rfl), if_pos]
  obtain h | h := hbad <;> rw [h]
  · rfl
  · rw [Bool.not_false, Bool.or_true]

theorem take_queue {q : Nat} {x : Head} {grid : Bool} {s : State} {y : Queue} (hq : x.q.index = q) (hy : s.queue q = some y) :
    ∃ z, (x.take grid s).queue q = some z ∧ z.retired = y.retired := by
  rw [Head.take, hq]
  exact ⟨_, queue_mapQueue_some (fun _ => rfl) (writePlaces_queues _ _ _ s) hy, rfl⟩

theorem nodeRecord_registers {q : Nat} {x : Head} {s : State} {pa : Nat} {t : Tcb} (hq : x.q.index = q)
    (hw : Memory.wf s.mem = true) (hthere : s.hostGone (pa + 69) = false) :
    let n : NodeRef := ⟨x.key, BitVec.ofNat 64 (field x.bits 64 64), pa⟩
    let u := recordRetired q x.order (postNode n t (x.take false (registerNode q pa x s)))
    u.registered = (pa, q) :: s.registered.filter (fun r => r.1 ≠ pa)
      ∧ Memory.read u.mem (pa + 69) = (if field t 512 32 = 0 then 2 else 1)
      ∧ (field t 512 32 = 0 → n ∈ u.readyPool ++ u.readyWait)
      ∧ (field t 512 32 ≠ 0 → u.readyPool = s.readyPool ∧ u.readyWait = s.readyWait) ∧ OneRetired q s u := by
  intro n u
  have hreported : Reported (registerNode q pa x s) (x.consume (registerNode q pa x s)) := writePlaces_reported _ _ _ _
  obtain ⟨hreg, hqueues, hbyte, hready, hwaits⟩ := postNode_spec (n := n) (t := t) (s := x.take false (registerNode q pa x s))
    ((hreported.hostGone (pa + 69)).trans hthere) (hreported.2.1 hw)
  have hpools := writePlaces_ready x.h.key false ((x.h.places.drop 8).zip (leBytes 8 (x.h.read + 1))) (registerNode q pa x s)
  refine ⟨hreg.trans (writePlaces_registered _ _ _ (registerNode q pa x s)), hbyte, hready,
    fun h => ⟨(hwaits h).1.trans hpools.1, (hwaits h).2.trans hpools.2⟩, fun y hy => ?_⟩
  obtain ⟨z, hz, hretired⟩ := take_queue (grid := false) (s := registerNode q pa x s) hq hy
  exact ⟨_, queue_mapQueue_some (fun _ => rfl) hqueues hz, congrArg (· + 1) hretired⟩

/-! ### READY_POOL_ENTRY -/

theorem mod_mod_div_pow {x m lo n : Nat} (h : lo + n ≤ m) : x % 2 ^ m / 2 ^ lo % 2 ^ n = x / 2 ^ lo % 2 ^ n := by
  apply Nat.eq_of_testBit_eq
  intro i
  rw [Nat.testBit_mod_two_pow, Nat.testBit_mod_two_pow, Nat.testBit_div_two_pow, Nat.testBit_div_two_pow,
    Nat.testBit_mod_two_pow]
  by_cases hi : i < n
  · rw [decide_eq_true (show i + lo < m by omega), Bool.true_and]
  · rw [decide_eq_false hi, Bool.false_and, Bool.false_and]

theorem field_tcbRecord (t : Tcb) {lo n : Nat} (h : lo + n ≤ 512) : field (tcbRecord t) lo n = field t lo n := by
  rw [field, field, tcbRecord, BitVec.toNat_setWidth]
  exact mod_mod_div_pow h

theorem refillPool_eq (s : State) : refillPool s = { s with readyPool := (refillPool s).readyPool, readyWait := (refillPool s).readyWait }
    ∧ (s.readyWait = [] → (refillPool s).readyPool = s.readyPool) := by
  rw [refillPool]
  split
  next h =>
    refine ⟨?_, fun h' => by rw [h] at h'; cases h'⟩
    split <;> rfl
  next => exact ⟨rfl, fun _ => rfl⟩

/-- A node whose work begins: STATE is 3, and what is kept of its poster is dropped. -/
def nodeStarted (n : NodeRef) (s : State) : State :=
  writePlaces (lineKey s n.pa n.key) false [(n.pa + 69, 3#8)] { s with origins := s.origins.filter fun o => o.node ≠ some n.pa }

/-- A record of a node is refused or not, whatever state is kept beside queues, worlds and features. -/
theorem nodeRefusal_congr {s t : State} (hworlds : t.allWorlds = s.allWorlds) (hqueues : t.queues = s.queues)
    (haccepted : t.accepted = s.accepted) (r : BitVec 512) : nodeRefusal t r = nodeRefusal s r := by
  have hroot : rootKey t r = rootKey s r := by rw [rootKey, rootKey, hworlds]
  rw [nodeRefusal, nodeRefusal, haccepted, hroot, queue_congr hqueues]

theorem nodeStarted_frame (n : NodeRef) (s : State) :
    let t := nodeStarted n s
    t.grids = s.grids ∧ t.handed = s.handed ∧ t.queues = s.queues ∧ t.accepted = s.accepted ∧ t.allWorlds = s.allWorlds
      ∧ t.readyPool = s.readyPool := by
  intro t
  simp only [t, nodeStarted]
  rw [(writePlaces_stored _ _ _ _).1.1]
  exact ⟨rfl, rfl, rfl, rfl, rfl, rfl⟩

theorem startNode_starts {n : NodeRef} {s : State} (hclean : moonCheck n.key .write n.addr 128 s = s) :
    let t : Tcb := BitVec.ofNat 1024 (leNat (s.readBytes n.pa 128))
    tcbMalformed t = false → nodeRefusal s (tcbRecord t) = none →
    startNode n s =
      if field t 8 8 = 0x80 then
        newGrid (field t 16 10) 0 ((rootKey (nodeStarted n s) (tcbRecord t)).getD 0) (nodeParent s n) (some n) false (tcbRecord t)
          (nodeStarted n s)
      else
        match (s.registered.lookup n.pa).bind s.queue with
        | some q =>
          if n.key = 0 then retireNode n true none (nodeStarted n s)
          else hand n.key q (asSignal (tcbRecord t)) false (.node n) (nodeStarted n s)
        | none => retireNode n true none (nodeStarted n s) := by
  intro t hsound hrefusal
  obtain ⟨-, -, hqueues, haccepted, hworlds, -⟩ := nodeStarted_frame n s
  have hrefusal : nodeRefusal (nodeStarted n s) (tcbRecord t) = none := by
    rw [nodeRefusal_congr hworlds hqueues haccepted, hrefusal]
  have hplain : ¬(tcbMalformed t || (nodeRefusal (nodeStarted n s) (tcbRecord t)).isSome) = true := by
    rw [hsound, hrefusal]
    exact Bool.false_ne_true
  rw [startNode, hclean]
  have hkind : field (tcbRecord t) 8 8 = field t 8 8 := field_tcbRecord t (by omega)
  have hqueue : field (tcbRecord t) 16 10 = field t 16 10 := field_tcbRecord t (by omega)
  rw [← hkind, ← hqueue]
  exact if_neg hplain

end Machine

open Machine

/-- Settles O42. -/
theorem taskNodes : Obligations.TaskNodes := by
  refine ⟨fun q x s pa t h hkind hgood hfeature htcb hsound hhandle hrefusal hw hthere =>
      ⟨_, nodeRecord_taken h hkind hgood hfeature htcb hsound hhandle hrefusal, nodeRecord_registers (head_index h) hw hthere⟩,
    fun q x s h hkind hbad => nodeRecord_refused h hkind hbad, fun n rest s hpool hw hthere => ?_⟩
  intro t hsound hrefusal hclean
  have hexec : exec .readyPoolEntry s = .next (startNode n (refillPool { s with readyPool := rest })) := by
    rw [exec_readyPoolEntry, execReadyPoolEntry, hpool]
  obtain ⟨hv, hrest⟩ := refillPool_eq { s with readyPool := rest }
  generalize refillPool { s with readyPool := rest } = v at hexec hv hrest hclean
  have hbytes : v.readBytes n.pa 128 = s.readBytes n.pa 128 := by rw [hv]; rfl
  have hcheck : moonCheck n.key .write n.addr 128 v = v := by
    rw [moonCheck]
    split
    next pas pk hp => exact macCheck_clean (hclean pas pk hp)
    next => rfl
  have hvworlds : v.allWorlds = s.allWorlds := by rw [hv]; rfl
  have hvqueues : v.queues = s.queues := by rw [hv]
  have hvaccepted : v.accepted = s.accepted := by rw [hv]
  have hstart := startNode_starts hcheck
  rw [hbytes] at hstart
  have hstart := hstart hsound (by rw [nodeRefusal_congr hvworlds hvqueues hvaccepted]; exact hrefusal)
  obtain ⟨hgrids, hhanded, -, -, -, hready⟩ := nodeStarted_frame n v
  have hmem : Memory.read (nodeStarted n v).mem (n.pa + 69) = 3 :=
    (writePlaces_byte (by rw [hv]; exact hthere) (by rw [hv]; exact hw)).1
  have hpool : s.readyWait = [] → (nodeStarted n v).readyPool = rest := fun h => hready.trans (hrest h)
  refine ⟨fun hkind hparent => ⟨_, hexec, ?_⟩, fun hkind hkey k q hk hq => ⟨_, hexec, ?_⟩⟩
  · have hparent : nodeParent v n = none := by rw [hv]; exact hparent
    rw [hstart, if_pos hkind, newGrid_root hparent]
    exact ⟨hmem, hpool, _, congrArg (_ :: ·) (hgrids.trans (by rw [hv])), rfl, rfl, rfl⟩
  · have hholder : (v.registered.lookup n.pa).bind v.queue = some q := by
      rw [show v.registered = s.registered by rw [hv], hk]
      exact (queue_congr hvqueues k).trans hq
    rw [hstart, if_neg hkind, hholder]
    simp only [if_neg hkey]
    exact ⟨hmem, hpool, _, congrArg (· ++ [_]) (hhanded.trans (by rw [hv])), rfl, rfl, rfl⟩

end Sys2Proof

/-! ## The host ports (R227, R364, R367 to R369, R372, R373) -/

namespace Sys2Proof

namespace Machine

/-! ### A port that is changed -/

@[simp] theorem port_mapPort_self (b : Bool) (f : Port → Port) (s : State) : (mapPort b f s).port b = f (s.port b) := by
  cases b <;> rfl

@[simp] theorem port_mapPort_other (b : Bool) (f : Port → Port) (s : State) : (mapPort b f s).port (!b) = s.port (!b) := by
  cases b <;> rfl

@[simp] theorem port_mapPort_not (b : Bool) (f : Port → Port) (s : State) : (mapPort (!b) f s).port b = s.port b := by
  cases b <;> rfl

/-- What a change of a port leaves: all but the two ports. -/
theorem mapPort_frame (b : Bool) (f : Port → Port) (s : State) :
    mapPort b f s = { s with portA := (mapPort b f s).portA, portB := (mapPort b f s).portB } := by
  cases b <;> rfl

theorem portIs_mapPort (b : Bool) (f : Port → Port) (s : State) : PortIs b (f (s.port b)) s (mapPort b f s) := by
  refine ⟨port_mapPort_self b f s, port_mapPort_other b f s, ?_⟩
  rw [mapPort_frame]
  exact ⟨rfl, rfl, rfl, rfl⟩

/-! ### What these events do -/

theorem exec_tlbInvalidate (port w s) : exec (.tlbInvalidate port w) s = execTlbInvalidate port w s := rfl

theorem exec_tlbinvComplete (port s) : exec (.tlbinvComplete port) s = execTlbinvComplete port s := rfl

theorem exec_leaseRenew (port s) : exec (.leaseRenew port) s = execLeaseRenew port s := rfl

theorem exec_leaseRelease (port s) : exec (.leaseRelease port) s = execLeaseRelease port s := rfl

theorem exec_leasePeriod (port ms s) : exec (.leasePeriod port ms) s = execLeasePeriod port ms s := rfl

theorem exec_leaseExpiry (s) : exec .leaseExpiry s = execLeaseExpiry s := rfl

theorem exec_scrubprogSelect (port key s) : exec (.scrubprogSelect port key) s = execScrubprogSelect port key s := rfl

theorem exec_aggvecRead (port k s) : exec (.aggvecRead port k) s = execAggvecRead port k s := rfl

theorem exec_feataccWrite (port k w s) : exec (.feataccWrite port k w) s = execFeataccWrite port k w s := rfl

theorem exec_commit (port s) : exec (.commit port) s = execCommit port s := rfl

theorem exec_registerWrite (port off w s) : exec (.registerWrite port off w) s = execRegisterWrite port off w s := rfl

theorem exec_notifyInterrupt (port s) : exec (.notifyInterrupt port) s = execNotifyInterrupt port s := rfl

/-! ### TLBINV -/

theorem tlbInvalidate_ignored {b : Bool} {w : BitVec 64} {s : State}
    (h : (s.port b).link = false ∨ (s.port b).tlbinv.getLsbD 63 = true ∨ 4 ≤ field w 60 3) :
    Stutters (.tlbInvalidate b w) s := by
  rw [Stutters, exec_tlbInvalidate, execTlbInvalidate, if_pos]
  simpa [or_assoc] using h

theorem tlbInvalidate_writes {b : Bool} {w : BitVec 64} {s : State} (hlink : (s.port b).link = true)
    (hidle : (s.port b).tlbinv.getLsbD 63 = false) (hscope : field w 60 3 < 4) :
    exec (.tlbInvalidate b w) s = .next (mapPort b (fun p => { p with tlbinv := w &&& 0xF3FFFFFFFFFFFFC0#64 }) s) := by
  rw [exec_tlbInvalidate, execTlbInvalidate, if_neg]
  rw [hlink, hidle, decide_eq_false (by omega)]
  exact Bool.false_ne_true

theorem tlbinvComplete_waits {b : Bool} {s : State}
    (h : (s.port b).tlbinv.getLsbD 63 = false ∨ tlbHeld s (s.port b).tlbinv = true) : Stutters (.tlbinvComplete b) s := by
  rw [Stutters, exec_tlbinvComplete, execTlbinvComplete]
  exact if_pos (by simpa using h)

theorem tlbinvComplete_completes {b : Bool} {s : State} (hbusy : (s.port b).tlbinv.getLsbD 63 = true)
    (hfree : tlbHeld s (s.port b).tlbinv = false) :
    exec (.tlbinvComplete b) s = .next (mapPort b (fun p => { p with tlbinv := p.tlbinv &&& 0x7FFFFFFFFFFFFFFF#64 })
      { s with tlb := s.tlb.filter fun t => !tlbNamed (s.port b).tlbinv t }) := by
  rw [exec_tlbinvComplete, execTlbinvComplete]
  exact if_neg (by simp [hbusy, hfree])

/-! ### The lease -/

theorem leaseHeld_iff (b : Bool) {s : State} (h : (s.port b).role ≠ 1) :
    leaseHeld s = decide ((s.port (!b)).role = 1) := by
  cases b <;> simp only [State.port, Bool.not_false, Bool.not_true, if_true, Bool.false_eq_true, if_false] at h ⊢ <;>
    simp [leaseHeld, h]

theorem takeLease_ports (b : Bool) (s : State) :
    (takeLease b s).port b = { s.port b with role := 1, period := (s.port b).newPeriod, remain := (s.port b).newPeriod }
      ∧ (takeLease b s).port (!b) = { s.port (!b) with
          role := if (s.port (!b)).link ∧ s.accepted.getLsbD 7 = true then 2 else 0, remain := 0 }
      ∧ (takeLease b s).leaseMs = s.leaseMs := by
  have haccepted : (mapPort b (fun p => { p with role := 1, period := p.newPeriod, remain := p.newPeriod }) s).accepted
      = s.accepted := by rw [mapPort_frame]
  refine ⟨?_, ?_, ?_⟩
  · rw [takeLease, port_mapPort_not, port_mapPort_self]
  · rw [takeLease, port_mapPort_self, port_mapPort_other, haccepted]
    simp only [Bool.and_eq_true]
  · rw [takeLease, mapPort_frame, mapPort_frame b]

/-- The lease passes to a standby port whose link is up. -/
theorem passLease_passes {b : Bool} {s : State} (hrole : (s.port (!b)).role = 2) (hlink : (s.port (!b)).link = true) :
    (passLease b s).port b = { s.port b with role := 0, remain := 0 }
      ∧ (passLease b s).port (!b) = { s.port (!b) with role := 1, remain := (s.port (!b)).period }
      ∧ (passLease b s).leaseEpoch = s.leaseEpoch + 1 ∧ (passLease b s).lapseMs = s.lapseMs ∧ (passLease b s).ms = s.ms
      ∧ ∀ q ∈ (passLease b s).queues, q.bind.port ≠ b := by
  rw [passLease]
  have hstandby : (s.port (!b)).role = 2 ∧ (s.port (!b)).link = true := ⟨hrole, hlink⟩
  simp only [if_pos hstandby]
  refine ⟨?_, ?_, ?_, ?_, ?_, fun q hq => ?_⟩
  · exact (port_mapPort_not b _ _).trans (port_mapPort_self b _ s)
  · exact (port_mapPort_self (!b) _ _).trans (by rw [port_mapPort_other])
  · rw [mapPort_frame, mapPort_frame b]
  · rw [mapPort_frame, mapPort_frame b]
  · rw [mapPort_frame, mapPort_frame b]
  · obtain ⟨x, -, rfl⟩ := List.mem_map.mp hq
    by_cases h : x.bind.port = b
    · simp [h]
    · simp [h]

/-- With no such port it lapses. -/
theorem passLease_lapses {b : Bool} {s : State} (h : (s.port (!b)).role ≠ 2 ∨ (s.port (!b)).link = false) :
    ((passLease b s).port b).role = 0 ∧ ((passLease b s).port (!b)).role = 0 ∧ (passLease b s).leaseEpoch = s.leaseEpoch
      ∧ (passLease b s).queues = s.queues ∧ (passLease b s).lapseMs = some s.ms ∧ (passLease b s).ms = s.ms := by
  have hnone : ¬ ((s.port (!b)).role = 2 ∧ (s.port (!b)).link = true) := by
    rintro ⟨h1, h2⟩
    obtain h | h := h
    · exact h h1
    · rw [h2] at h; cases h
  rw [passLease]
  simp only [if_neg hnone, port_mapPort_self, port_mapPort_not]
  refine ⟨trivial, trivial, ?_⟩
  rw [mapPort_frame, mapPort_frame b]
  exact ⟨rfl, rfl, rfl, rfl⟩

theorem leaseRenew_lapsed {b : Bool} {s : State} (h : s.lapseMs = some s.ms) : Stutters (.leaseRenew b) s := by
  rw [Stutters, exec_leaseRenew, execLeaseRenew, if_pos (by simp [h])]

theorem leaseRenew_renews {b : Bool} {s : State} (hlink : (s.port b).link = true) (hlocked : s.locked = true)
    (hrole : (s.port b).role = 1) (hms : s.lapseMs ≠ some s.ms) :
    exec (.leaseRenew b) s = .next (mapPort b (fun p => { p with period := p.newPeriod, remain := p.newPeriod }) s) := by
  rw [exec_leaseRenew, execLeaseRenew, if_neg (by simp [hlink, hlocked, hms]), if_pos hrole]

/-- May a port that is not active become so at its renewal? -/
def mayTake (b : Bool) (s : State) : Prop :=
  s.locked = true ∧ (b = false ∨ s.accepted.getLsbD 7 = true) ∧ s.lapseMs ≠ some s.ms
    ∧ ((s.port (!b)).role = 1 → b = false ∧ s.leaseMs = some s.ms)

theorem leaseRenew_takes {b : Bool} {s : State} (hlink : (s.port b).link = true) (hrole : (s.port b).role ≠ 1)
    (h : mayTake b s) :
    exec (.leaseRenew b) s = .next (takeLease b { s with leaseMs := if (s.port (!b)).role = 1 then none else some s.ms }) := by
  obtain ⟨hlocked, hallowed, hms, hheld⟩ := h
  rw [exec_leaseRenew, execLeaseRenew, if_neg (by simp [hlink, hlocked, hms]), if_neg hrole, if_neg, leaseHeld_iff b hrole]
  · by_cases ho : (s.port (!b)).role = 1
    · obtain ⟨rfl, hfirst⟩ := hheld ho
      rw [if_pos (decide_eq_true ho), if_pos (by simp [hfirst]), if_pos ho]
    · simp [ho]
  · obtain rfl | h7 := hallowed
    · simp
    · simp [h7]

theorem leaseRenew_ignored {b : Bool} {s : State} (hlink : (s.port b).link = true) (hrole : (s.port b).role ≠ 1)
    (h : ¬ mayTake b s) : Stutters (.leaseRenew b) s := by
  rw [Stutters, exec_leaseRenew, execLeaseRenew]
  split
  · rfl
  next hopen =>
    split
    · rfl
    next hallowed =>
      rw [leaseHeld_iff b hrole]
      have hopen : s.locked = true ∧ s.lapseMs ≠ some s.ms := by simpa [hlink] using hopen
      have hallowed : b = false ∨ s.accepted.getLsbD 7 = true := by
        cases b <;> simp_all
      have hheld : ¬ ((s.port (!b)).role = 1 → b = false ∧ s.leaseMs = some s.ms) :=
        fun h' => h ⟨hopen.1, hallowed, hopen.2, h'⟩
      obtain ⟨ho, hlate⟩ := Classical.not_imp.mp hheld
      rw [if_pos (decide_eq_true ho), if_neg]
      simpa using hlate

theorem leaseRelease_passes {b : Bool} {s : State} (hlink : (s.port b).link = true) (hrole : (s.port b).role = 1) :
    exec (.leaseRelease b) s = .next (passLease b s) := by
  rw [exec_leaseRelease, execLeaseRelease, if_pos (by simp [hlink, hrole])]

theorem leasePeriod_writes {b : Bool} {ms : BitVec 16} {s : State} (hlink : (s.port b).link = true)
    (hrole : (s.port b).role = 1) (hms : ms ≠ 0) :
    exec (.leasePeriod b ms) s = .next (mapPort b (fun p => { p with newPeriod := ms }) s) := by
  rw [exec_leasePeriod, execLeasePeriod, if_pos (by rw [hlink, decide_eq_true hrole, decide_eq_true hms]; rfl)]

theorem leasePeriod_ignored {b : Bool} {ms : BitVec 16} {s : State} (h : (s.port b).role ≠ 1 ∨ ms = 0) :
    Stutters (.leasePeriod b ms) s := by
  rw [Stutters, exec_leasePeriod, execLeasePeriod, if_neg]
  obtain h | h := h <;> simp [h]

/-! ### A step of the lease unit -/

/-- A step counts REMAIN down while something is left of it. -/
theorem leaseStep_counts {b : Bool} {s : State} (hrole : (s.port b).role = 1) (hleft : 1 < (s.port b).remain.toNat) :
    leaseStep b s = mapPort b (fun p => { p with remain := p.remain - 1 }) s := by
  have hne : (s.port b).remain - 1 ≠ 0 := by
    intro h
    have := congrArg BitVec.toNat h
    bv_omega
  rw [leaseStep, if_neg (by simpa using hrole)]
  simp only [port_mapPort_self]
  rw [if_neg hne]

theorem leaseStep_passes {b : Bool} {s : State} (hrole : (s.port b).role = 1) (hlast : (s.port b).remain.toNat = 1) :
    leaseStep b s = passLease b { mapPort b (fun p => { p with remain := p.remain - 1 }) s with lapseMs := some s.ms } := by
  have hzero : (s.port b).remain - 1 = 0 := by bv_omega
  rw [leaseStep, if_neg (by simpa using hrole)]
  simp only [port_mapPort_self]
  rw [if_pos hzero, show (mapPort b (fun p => { p with remain := p.remain - 1 }) s).ms = s.ms by rw [mapPort_frame]]

/-- The state in which the step of a millisecond is made. -/
def nextMs (s : State) : State := { s with ms := s.ms + 1 }

theorem leaseExpiry_steps {b : Bool} {s : State} (hdue : 1000000 * (s.ms + 1) ≤ s.refNs) (hrole : (s.port b).role = 1)
    (hfirst : b = true → s.portA.role ≠ 1) : exec .leaseExpiry s = .next (leaseStep b (nextMs s)) := by
  rw [exec_leaseExpiry, execLeaseExpiry, if_neg (by omega)]
  cases b with
  | false => exact congrArg Host.Outcome.next (if_pos hrole)
  | true => exact congrArg Host.Outcome.next (if_neg (hfirst rfl))

theorem leaseExpiry_early {s : State} (h : s.refNs < 1000000 * (s.ms + 1)) : Stutters .leaseExpiry s := by
  rw [Stutters, exec_leaseExpiry, execLeaseExpiry, if_pos h]

/-- A step of the lease unit for the active port. -/
theorem leaseExpiry_outcome {b : Bool} {s : State} (hdue : 1000000 * (s.ms + 1) ≤ s.refNs) (hrole : (s.port b).role = 1)
    (hfirst : b = true → s.portA.role ≠ 1) :
    let p := s.port b
    let o := s.port (!b)
    let passes := fun (q : State → Prop) => Completes .leaseExpiry s fun t => t.ms = s.ms + 1 ∧ q t
    (1 < p.remain.toNat → passes fun t => t.port (!b) = o ∧ t.port b = { p with remain := p.remain - 1 }
      ∧ t.leaseEpoch = s.leaseEpoch)
    ∧ (p.remain.toNat = 1 → o.role = 2 → o.link = true → passes fun t => (t.port b).role = 0
      ∧ t.port (!b) = { o with role := 1, remain := o.period } ∧ t.leaseEpoch = s.leaseEpoch + 1 ∧ t.lapseMs = some t.ms)
    ∧ (p.remain.toNat = 1 → (o.role ≠ 2 ∨ o.link = false) → passes fun t => (t.port b).role = 0
      ∧ (t.port (!b)).role = 0 ∧ t.lapseMs = some t.ms ∧ t.leaseEpoch = s.leaseEpoch) := by
  intro p o passes
  have hexec := leaseExpiry_steps hdue hrole hfirst
  have hport : ∀ c, (nextMs s).port c = s.port c := fun c => by cases c <;> rfl
  have hrole' : ((nextMs s).port b).role = 1 := by rw [hport]; exact hrole
  refine ⟨fun hleft => ⟨_, hexec, ?_⟩, fun hlast h2 hl => ⟨_, hexec, ?_⟩, fun hlast h => ⟨_, hexec, ?_⟩⟩
  · dsimp only
    rw [leaseStep_counts hrole' (by rw [hport]; exact hleft), port_mapPort_self, port_mapPort_other, hport, hport, mapPort_frame]
    exact ⟨rfl, rfl, rfl, rfl⟩
  all_goals
    rw [leaseStep_passes hrole' (by rw [hport]; exact hlast)]
    generalize hv : ({ mapPort b (fun p => { p with remain := p.remain - 1 }) (nextMs s) with lapseMs := some (nextMs s).ms }
      : State) = v
    have hv' : v.port b = { p with remain := p.remain - 1 } ∧ v.port (!b) = o ∧ v.leaseEpoch = s.leaseEpoch
        ∧ v.ms = s.ms + 1 ∧ v.lapseMs = some (s.ms + 1) := by
      subst hv
      refine ⟨(port_mapPort_self b _ (nextMs s)).trans (by rw [hport]), (port_mapPort_other b _ (nextMs s)).trans (hport _), ?_⟩
      rw [mapPort_frame]
      exact ⟨rfl, rfl, rfl⟩
    obtain ⟨hself, hother, hepoch, hms, hlapse⟩ := hv'
  · obtain ⟨h1, h3, h4, h5, h6, -⟩ := passLease_passes (b := b) (s := v) (by rw [hother]; exact h2) (by rw [hother]; exact hl)
    refine ⟨h6.trans hms, by rw [h1], by rw [h3, hother], by rw [h4, hepoch], ?_⟩
    rw [h5, h6, hlapse, hms]
  · obtain ⟨h1, h3, h4, -, h5, h6⟩ := passLease_lapses (b := b) (s := v) (by rw [hother]; exact h)
    exact ⟨h6.trans hms, h1, h3, by rw [h5, h6], h4.trans hepoch⟩

/-! ### SCRUBPROG, AGGVEC, features, registers, interrupt -/

theorem scrubprogSelect_selects {b : Bool} {s : State} (hlink : (s.port b).link = true) (k : BitVec 10) :
    exec (.scrubprogSelect b k) s =
      .next (mapPort false (fun p => { p with scrubKey := k }) (mapPort true (fun p => { p with scrubKey := k }) s)) := by
  rw [exec_scrubprogSelect, execScrubprogSelect, if_pos hlink]

/-- A change made to both ports. -/
theorem port_mapPort_both (f : Port → Port) (s : State) (b : Bool) :
    (mapPort false f (mapPort true f s)).port b = f (s.port b) := by cases b <;> rfl

theorem aggvecRead_clears {b : Bool} {s : State} (hlink : (s.port b).link = true) (k : BitVec 4) :
    exec (.aggvecRead b k) s = .next (mapPort b (fun p => { p with
      lastRead := nth 0 p.aggvec k.toNat, aggvec := put 0 p.aggvec k.toNat 0 }) s) := by
  rw [exec_aggvecRead, execAggvecRead, if_pos hlink]

theorem feataccWrite_stages {b : Bool} {s : State} (hlink : (s.port b).link = true) (hopen : s.locked = false) (k : BitVec 3)
    (w : BitVec 32) : exec (.feataccWrite b k w) s = .next (mapPort b (fun p => { p with
      featacc := setField p.featacc (32 * k.toNat) 32 w.toNat, refused := false }) s) := by
  rw [exec_feataccWrite, execFeataccWrite, if_neg (by simp [hopen, hlink])]

theorem feataccWrite_locked {b : Bool} {s : State} (h : s.locked = true) (k : BitVec 3) (w : BitVec 32) :
    Stutters (.feataccWrite b k w) s := by
  rw [Stutters, exec_feataccWrite, execFeataccWrite, if_pos (by simp [h])]

theorem commit_locked {b : Bool} {s : State} (h : s.locked = true) : Stutters (.commit b) s := by
  rw [Stutters, exec_commit, execCommit, if_pos (by simp [h])]

/-- A bit that the device never advertises is not advertised now. -/
theorem unadvertised {s : State} {f : BitVec 256} (h : f &&& ~~~0x3FFF#256 ≠ 0) : f &&& ~~~advertisedNow s ≠ 0 := by
  rw [advertisedNow]
  split
  · exact h
  · intro hnone
    refine h (BitVec.eq_of_getLsbD_eq fun i hi => ?_)
    have hbit := congrArg (fun x => BitVec.getLsbD x i) hnone
    simp only [BitVec.getLsbD_and, BitVec.getLsbD_not, Config.advertised, hi, decide_true, Bool.true_and,
      Bool.not_and] at hbit ⊢
    generalize f.getLsbD i = x at hbit ⊢
    generalize (0x3FFF#256).getLsbD i = y at hbit ⊢
    cases x <;> cases y <;> simp_all

theorem commit_refused {b : Bool} {s : State} (hlink : (s.port b).link = true) (hopen : s.locked = false) (hstage : 5 ≤ s.stage)
    (h : (s.port b).featacc &&& ~~~advertisedNow s ≠ 0) :
    exec (.commit b) s = .next (mapPort b (fun p => { p with refused := true, featacc := 0 }) s) := by
  rw [exec_commit, execCommit, if_neg (by simp [hopen, hlink, hstage])]
  exact if_pos h

/-- The features that port b has staged are accepted. -/
def acceptFeatures (b : Bool) (s : State) : State :=
  let f := (s.port b).featacc
  mapPort b (fun p => { p with refused := false }) (mapPort false (fun p => { p with featacc := f })
    (mapPort true (fun p => { p with featacc := f }) { s with accepted := f, locked := true, stage := 7 }))

theorem commit_accepts {b : Bool} {s : State} (hlink : (s.port b).link = true) (hopen : s.locked = false) (hstage : 5 ≤ s.stage)
    (h : (s.port b).featacc &&& ~~~advertisedNow s = 0) : exec (.commit b) s = .next (acceptFeatures b s) := by
  rw [exec_commit, execCommit, if_neg (by simp [hopen, hlink, hstage])]
  exact if_neg (by simpa using h)

theorem acceptFeatures_ports (b : Bool) (s : State) :
    (acceptFeatures b s).locked = true ∧ (acceptFeatures b s).accepted = (s.port b).featacc
      ∧ (acceptFeatures b s).port b = { s.port b with refused := false }
      ∧ (acceptFeatures b s).port (!b) = { s.port (!b) with featacc := (s.port b).featacc } := by
  cases b <;> exact ⟨rfl, rfl, rfl, rfl⟩

/-- The register of a port that an offset names, where it is written through. -/
def registerAt (off : BitVec 16) (w : BitVec 64) : Option (Port → Port) :=
  if off = 0x0020 then some fun p => { p with notifyBase := w &&& 0xFFFFFFFFFFFFF001#64 }
  else if off = 0x0028 then some fun p => { p with moderate := w &&& 0xFFFFFFFF#64 }
  else if off = 0x0200 then some fun p => { p with adminBase := w }
  else if off = 0x0208 then some fun p => { p with adminSize := w }
  else if off = 0x0210 then some fun p => { p with adminWrite := w }
  else if off = 0x0218 then some fun p => { p with adminRead := w }
  else none

theorem registerWrite_writes {b : Bool} {off : BitVec 16} {w : BitVec 64} {s : State} (hlink : (s.port b).link = true) :
    exec (.registerWrite b off w) s = .next (match registerAt off w with | some f => mapPort b f s | none => s) := by
  rw [exec_registerWrite, execRegisterWrite, if_neg (by simp [hlink]), registerAt]
  repeat' split
  all_goals simp_all

theorem registerWrite_register {b : Bool} {off : BitVec 16} {w : BitVec 64} {s : State} (hlink : (s.port b).link = true)
    {f : Port → Port} (h : registerAt off w = some f) : Completes (.registerWrite b off w) s (PortIs b (f (s.port b)) s) := by
  refine ⟨_, registerWrite_writes hlink, ?_⟩
  rw [h]
  exact portIs_mapPort b f s

theorem registerWrite_ignored {b : Bool} {off : BitVec 16} {w : BitVec 64} {s : State} (hlink : (s.port b).link = true)
    (h : off ∉ ([0x0020, 0x0028, 0x0200, 0x0208, 0x0210, 0x0218] : List (BitVec 16))) : Stutters (.registerWrite b off w) s := by
  simp only [List.mem_cons, List.not_mem_nil, or_false, not_or] at h
  obtain ⟨h1, h2, h3, h4, h5, h6⟩ := h
  rw [Stutters, registerWrite_writes hlink, registerAt, if_neg h1, if_neg h2, if_neg h3, if_neg h4, if_neg h5, if_neg h6]

/-- Is the interrupt of a port due: COUNT events or TIMER µs (R372)? -/
def interruptDue (p : Port) (s : State) : Prop :=
  field p.moderate 0 16 = 0 ∨ field p.moderate 16 16 = 0 ∨ field p.moderate 0 16 ≤ p.unsignalled
    ∨ p.sinceNs + 1000 * field p.moderate 16 16 ≤ s.refNs

theorem notifyInterrupt_sends {b : Bool} {s : State} (hevents : (s.port b).unsignalled ≠ 0) (hcan : canNotify s b = true)
    (hdue : interruptDue (s.port b) s) :
    exec (.notifyInterrupt b) s = .next (mapPort b (fun p => { p with interrupts := p.interrupts + 1, unsignalled := 0 }) s) := by
  rw [exec_notifyInterrupt, execNotifyInterrupt]
  exact if_pos (by simpa [hevents, hcan, interruptDue, or_assoc] using hdue)

theorem notifyInterrupt_quiet {b : Bool} {s : State}
    (h : (s.port b).unsignalled = 0 ∨ canNotify s b = false ∨ ¬ interruptDue (s.port b) s) : Stutters (.notifyInterrupt b) s := by
  rw [Stutters, exec_notifyInterrupt, execNotifyInterrupt]
  refine if_neg fun hsend => ?_
  simp only [Bool.and_eq_true, Bool.or_eq_true, decide_eq_true_eq, or_assoc] at hsend
  obtain ⟨⟨hevents, hcan⟩, hdue⟩ := hsend
  obtain h | h | h := h
  · exact hevents h
  · rw [hcan] at h; cases h
  · exact h hdue

end Machine

open Machine

/-- Settles O49. -/
theorem hostPorts : Obligations.HostPorts := by
  refine ⟨fun b w s => ⟨tlbInvalidate_ignored, fun hlink hidle hscope => ⟨_, tlbInvalidate_writes hlink hidle hscope, ?_⟩,
      tlbinvComplete_waits, fun hbusy hfree => ⟨_, tlbinvComplete_completes hbusy hfree, ?_⟩⟩,
    fun b s hlink => ⟨leaseRenew_lapsed, fun hlocked hrole hms => ⟨_, leaseRenew_renews hlink hlocked hrole hms, portIs_mapPort b _ s⟩,
      fun hrole => ⟨fun hmay => ⟨_, leaseRenew_takes hlink hrole hmay, ?_⟩, leaseRenew_ignored hlink hrole⟩,
      fun hrole h2 hl => ⟨_, leaseRelease_passes hlink hrole, ?_⟩, fun hrole h => ⟨_, leaseRelease_passes hlink hrole, ?_⟩,
      fun ms hrole hms => ⟨_, leasePeriod_writes hlink hrole hms, portIs_mapPort b _ s⟩, fun ms => leasePeriod_ignored,
      fun k => ⟨_, scrubprogSelect_selects hlink k, port_mapPort_both _ s b, port_mapPort_both _ s (!b)⟩,
      fun k => ⟨_, aggvecRead_clears hlink k, ?_⟩, fun k w hopen => ⟨_, feataccWrite_stages hlink hopen k w, ?_⟩,
      fun hlocked => ⟨feataccWrite_locked hlocked, commit_locked hlocked⟩,
      fun hopen hstage h => ⟨_, commit_refused hlink hopen hstage (unadvertised h), portIs_mapPort b _ s⟩,
      fun hopen hstage honline h => ⟨_, commit_accepts hlink hopen hstage ?_, acceptFeatures_ports b s⟩,
      fun w => registerWrite_register (f := fun p => { p with notifyBase := w &&& 0xFFFFFFFFFFFFF001#64 }) hlink rfl,
      fun w => registerWrite_register (f := fun p => { p with moderate := w &&& 0xFFFFFFFF#64 }) hlink rfl,
      fun w => ⟨registerWrite_register (f := fun p => { p with adminBase := w }) hlink rfl,
        registerWrite_register (f := fun p => { p with adminSize := w }) hlink rfl,
        registerWrite_register (f := fun p => { p with adminWrite := w }) hlink rfl,
        registerWrite_register (f := fun p => { p with adminRead := w }) hlink rfl⟩,
      fun off w => registerWrite_ignored hlink,
      fun hevents hcan hdue => ⟨_, notifyInterrupt_sends hevents hcan hdue, portIs_mapPort b _ s⟩, notifyInterrupt_quiet⟩,
    fun s => ⟨leaseExpiry_early, fun b hdue hrole hfirst => leaseExpiry_outcome hdue hrole hfirst⟩⟩
  · refine ⟨portIs_mapPort b _ s, ?_⟩
    rw [mapPort_frame]
  · refine ⟨?_, fun x hx => ?_⟩
    · have h := portIs_mapPort b (fun p => { p with tlbinv := p.tlbinv &&& 0x7FFFFFFFFFFFFFFF#64 })
        { s with tlb := s.tlb.filter fun t => !tlbNamed (s.port b).tlbinv t }
      cases b <;> exact h
    · rw [mapPort_frame] at hx
      simpa using List.mem_filter.mp hx
  · have h := takeLease_ports b { s with leaseMs := if (s.port (!b)).role = 1 then none else some s.ms }
    obtain ⟨hself, hother, hms⟩ := h
    refine ⟨?_, ?_, fun ho => ?_⟩
    · cases b <;> exact hself
    · cases b <;> exact hother
    · rw [hms]
      exact if_neg ho
  · obtain ⟨hself, hother, hepoch, -, -, hqueues⟩ := passLease_passes h2 hl
    exact ⟨hself, hother, hepoch, hqueues⟩
  · obtain ⟨hself, hother, hepoch, hqueues, hlapse, -⟩ := passLease_lapses h
    exact ⟨hself, hother, hepoch, hqueues, hlapse⟩
  · dsimp only
    rw [port_mapPort_self]
    exact ⟨rfl, nth_put_same _ _ _ _, fun j hj => nth_put_other _ _ _ _ _ hj⟩
  · have hk := k.isLt
    dsimp only
    rw [port_mapPort_self, port_mapPort_other]
    refine ⟨rfl, rfl, ?_, fun j hj hne => field_setField_other _ _ (by omega) (by omega)⟩
    dsimp only
    rw [field_setField_same _ _ (by omega), Nat.mod_eq_of_lt w.isLt]
  · rw [advertisedNow, if_pos honline]
    exact h

end Sys2Proof

/-! ## The requests on the ADMIN ring (R181, R269, R315, R352, R355 to R357, R363, R366, R371) -/

namespace Sys2Proof

namespace Machine

/-! ### What the requests do -/

theorem exec_register (h sealing auth s) : exec (.register h sealing auth) s = execRegister h sealing auth s := rfl

theorem exec_deregister (h s) : exec (.deregister h) s = execDeregister h s := rfl

theorem exec_giveMemory (h vmid save base len s) : exec (.giveMemory h vmid save base len) s = execGiveMemory h vmid save base len s := rfl

theorem exec_roots (h stage2 root s) : exec (.roots h stage2 root) s = execRoots h stage2 root s := rfl

theorem exec_sealedEntry (h k e s) : exec (.sealedEntry h k e) s = execSealedEntry h k e s := rfl

theorem exec_ingestKey (h k long key auth s) : exec (.ingestKey h k long key auth) s = execIngestKey h k long key auth s := rfl

theorem exec_cometQueue (h k hdr s) : exec (.cometQueue h k hdr) s = execCometQueue h k hdr s := rfl

theorem exec_bindQueue (q f s) : exec (.bindQueue q f) s = execBindQueue q f s := rfl

theorem exec_bindStream (h port k s) : exec (.bindStream h port k) s = execBindStream h port k s := rfl

theorem exec_attest (h nonce s) : exec (.attest h nonce) s = execAttest h nonce s := rfl

/-! ### A request that runs -/

theorem request_runs {s : State} (hopen : adminOpen s = true) (k : Out) : request s k = k := if_pos hopen

theorem handleWorld_ne_zero {s : State} {h : BitVec 16} {w : World} (hw : handleWorld s h = some w) : h ≠ 0 := by
  rintro rfl
  cases hw

theorem forHandle_runs {s : State} {h : BitVec 16} {w : World} (hopen : adminOpen s = true) (hw : handleWorld s h = some w)
    (what : Nat) (k : World → Out) : forHandle h what s k = k w := by
  rw [forHandle, request_runs hopen, hw]

/-- A world's entry is replaced. -/
theorem worldIs_setWorld {s : State} {w x : World} (h : s.world w.key = some x) : WorldIs w s (s.setWorld w) :=
  ⟨world_setWorld_self h, fun _ hk => world_setWorld_other hk⟩

/-! ### REGISTER and DEREGISTER -/

/-- The entry of a handle that is registered. -/
def registered (k : Nat) (h : BitVec 16) (sealing : BitVec 256) (s : State) : World :=
  { World.blank with
    key := k, handle := h, sealing := some sealing
    memKey := Config.freeKey s.free (2 * k), macKey := Config.freeKey s.free (2 * k + 1) }

theorem register_registers {s : State} {h : BitVec 16} {k : Nat} (hopen : adminOpen s = true) (hk : freeKeyId s = some k)
    (hne : h ≠ 0) (hnew : handleWorld s h = none) (sealing : BitVec 256) :
    exec (.register h sealing true) s = .next { s with worlds := registered k h sealing s :: s.worlds } := by
  rw [exec_register, execRegister, request_runs hopen, hk]
  refine if_neg ?_
  rw [hnew, decide_eq_false hne]
  exact Bool.false_ne_true

/-- A handle that is registered already, and a sealing key that does not unwrap, are refused. -/
theorem register_refused {s : State} {h : BitVec 16} {auth : Bool} (hopen : adminOpen s = true)
    (hbad : auth = false ∨ (handleWorld s h).isSome = true) (sealing : BitVec 256) :
    exec (.register h sealing auth) s = .next (tell (.refused 0) s) := by
  rw [exec_register, execRegister, request_runs hopen]
  cases freeKeyId s with
  | none => rfl
  | some k =>
    refine if_pos ?_
    obtain h | h := hbad <;> simp [h]

theorem endSlots_none {s : State} {key : Nat} (h : ∀ r ∈ s.slots, r.world = key → r.state ≠ 1 ∧ r.state ≠ 3) :
    endSlots key s = s := by
  have hnone : s.slots.filter (fun r => (r.state = 1 || r.state = 3) && r.world = key) = [] := by
    refine List.filter_eq_nil_iff.mpr fun r hr hpick => ?_
    simp only [Bool.and_eq_true, Bool.or_eq_true, decide_eq_true_eq] at hpick
    obtain ⟨h1, h3⟩ := h r hr hpick.2
    exact hpick.1.elim h1 h3
  rw [endSlots, hnone]
  rfl

/-- What stays when a world's entry goes: its scrub is begun, and memory is as it was. -/
theorem forgetWorld_leaves (key : Nat) (l : List Range) (s : State) :
    (forgetWorld key (scrubRanges key l s)).world key = none
      ∧ (forgetWorld key (scrubRanges key l s)).mem = s.mem
      ∧ (forgetWorld key (scrubRanges key l s)).scrub = s.scrub ++ l.map fun r => ⟨key, r.base, r.len, 0⟩ := by
  refine ⟨?_, rfl, rfl⟩
  rw [State.world]
  refine List.find?_eq_none.mpr fun w hw hkey => ?_
  have hmem := (List.mem_filter.mp (show w ∈ List.filter (fun x => decide (x.key ≠ key)) _ from hw)).2
  simp only [decide_eq_true_eq] at hmem hkey
  exact hmem hkey

theorem deregister_refused {s : State} {h : BitVec 16} {w : World} (hopen : adminOpen s = true) (hw : handleWorld s h = some w)
    (hlive : w.live = true) : exec (.deregister h) s = .next (tell (.refused 1) s) := by
  rw [exec_deregister, execDeregister, forHandle_runs hopen hw, if_pos hlive]
  rfl

theorem deregister_forgets {s : State} {h : BitVec 16} {w : World} (hopen : adminOpen s = true) (hw : handleWorld s h = some w)
    (hdead : w.live = false) (hslots : ∀ r ∈ s.slots, r.world = w.key → r.state ≠ 1 ∧ r.state ≠ 3) :
    Completes (.deregister h) s fun t =>
      t.world w.key = none ∧ t.mem = s.mem ∧ (∀ r ∈ s.scrub, r ∈ t.scrub)
        ∧ ∀ line, (line, w.key) ∈ s.lineKeys → ⟨w.key, 64 * line, 64, 0⟩ ∈ t.scrub := by
  have hlive : ¬ w.live = true := by rw [hdead]; exact Bool.false_ne_true
  refine ⟨forgetWorld w.key (scrubRanges w.key (linesOfKey s w.key) (dropCopies w.key s)), ?_, ?_⟩
  · rw [exec_deregister, execDeregister, forHandle_runs hopen hw, if_neg hlive, endSlots_none hslots]
  · obtain ⟨hgone, hmem, hscrub⟩ := forgetWorld_leaves w.key (linesOfKey s w.key) (dropCopies w.key s)
    refine ⟨hgone, hmem, fun r hr => ?_, fun line hline => ?_⟩
    · rw [hscrub]
      exact List.mem_append_left _ hr
    · rw [hscrub]
      refine List.mem_append_right _ (List.mem_map.mpr ⟨⟨64 * line, 64⟩, ?_, rfl⟩)
      exact List.mem_map.mpr ⟨(line, w.key), List.mem_filter.mpr ⟨hline, by simp⟩, rfl⟩

/-! ### Memory, tables and keys of a handle -/

section
variable {s : State} {h : BitVec 16} {w : World} (hopen : adminOpen s = true) (hw : handleWorld s h = some w)
  (hworld : s.world w.key = some w)
include hopen hw

theorem giveMemory_refused {base len : Nat} (hbad : 824633720832 < base + len) (vmid : BitVec 16) (save : Bool) :
    exec (.giveMemory h vmid save base len) s = .next (tell (.refused 2) s) := by
  rw [exec_giveMemory, execGiveMemory, if_neg (handleWorld_ne_zero hw), forHandle_runs hopen hw]
  exact if_pos hbad

omit hw in
theorem roots_refused (hfeature : s.accepted.getLsbD 8 = false) (root : Nat) :
    exec (.roots h true root) s = .next (tell (.refused 3) s) := by
  rw [exec_roots, execRoots, if_pos (by rw [hfeature]; rfl), request_runs hopen]
  rfl

theorem sealedEntry_refused {e : BitVec 128} (hbad : s.accepted.getLsbD 0 = false ∨ sealedEntryBad e = true) (k : BitVec 8) :
    exec (.sealedEntry h k e) s = .next (tell (.refused 4) s) := by
  rw [exec_sealedEntry, execSealedEntry, forHandle_runs hopen hw]
  refine if_pos ?_
  obtain hb | hb := hbad <;> rw [hb]
  · rfl
  · exact Bool.or_true _

theorem ingestKey_refused (k : BitVec 8) (long : Bool) (key : BitVec 256) :
    exec (.ingestKey h k long key false) s = .next (tell (.refused 5) s) := by
  rw [exec_ingestKey, execIngestKey, forHandle_runs hopen hw]
  rfl

theorem ingestKey_busy {k : BitVec 8} (hbusy : ingestBusy s w.key k.toNat = true) (long : Bool) (key : BitVec 256) :
    Stutters (.ingestKey h k long key true) s := by
  rw [Stutters, exec_ingestKey, execIngestKey, forHandle_runs hopen hw]
  exact if_pos hbusy

theorem attest_reports (nonce : BitVec 256) : Completes (.attest h nonce) s fun t =>
    ∃ l, t = { s with notices := s.notices ++ [.report l (sign l)] } ∧ l.take 32 = leBytes 32 nonce.toNat := by
  refine ⟨_, ?_, reportBytes s w nonce, rfl, ?_⟩
  · rw [exec_attest, execAttest, forHandle_runs hopen hw]
    rfl
  · rw [reportBytes, List.append_assoc, List.append_assoc, List.append_assoc, List.append_assoc, List.append_assoc,
      List.append_assoc, List.append_assoc]
    exact List.take_left' (length_leBytes 32 _)

include hworld

theorem giveMemory_gives {base len : Nat} (hgood : base + len ≤ 824633720832) (vmid : BitVec 16) (save : Bool) :
    Completes (.giveMemory h vmid save base len) s (WorldIs
      (if save then { w with save := w.save ++ [⟨base, len⟩] } else { w with given := w.given ++ [⟨base, len⟩] }) s) := by
  refine ⟨_, ?_, worldIs_setWorld (x := w) ?_⟩
  · rw [exec_giveMemory, execGiveMemory, if_neg (handleWorld_ne_zero hw), forHandle_runs hopen hw]
    exact if_neg (by rw [Config.deviceBytes]; omega)
  · cases save <;> exact hworld

theorem roots_sets {stage2 : Bool} (hallowed : stage2 = false ∨ s.accepted.getLsbD 8 = true) (root : Nat) :
    Completes (.roots h stage2 root) s
      (WorldIs (if stage2 then { w with s2root := some root } else { w with s1root := root }) s) := by
  refine ⟨_, ?_, worldIs_setWorld (x := w) ?_⟩
  · rw [exec_roots, execRoots, if_neg, if_neg (handleWorld_ne_zero hw), forHandle_runs hopen hw]
    obtain rfl | ha := hallowed
    · exact Bool.false_ne_true
    · rw [ha, Bool.not_true, Bool.and_false]
      exact Bool.false_ne_true
  · cases stage2 <;> exact hworld

theorem sealedEntry_sets {e : BitVec 128} (hfeature : s.accepted.getLsbD 0 = true) (hgood : sealedEntryBad e = false)
    (k : BitVec 8) : Completes (.sealedEntry h k e) s fun t =>
      ∃ l, WorldIs { w with sealedTable := l } s t ∧ nth 0 l k.toNat = e ∧ ∀ j, j ≠ k.toNat → nth 0 l j = nth 0 w.sealedTable j := by
  refine ⟨_, ?_, put 0 w.sealedTable k.toNat e, worldIs_setWorld (x := w) hworld, nth_put_same _ _ _ _,
    fun j hj => nth_put_other _ _ _ _ _ hj⟩
  rw [exec_sealedEntry, execSealedEntry, forHandle_runs hopen hw]
  refine if_neg ?_
  rw [hfeature, hgood]
  exact Bool.false_ne_true

theorem ingestKey_installs {k : BitVec 8} (hidle : ingestBusy s w.key k.toNat = false) (long : Bool) (key : BitVec 256) :
    Completes (.ingestKey h k long key true) s fun t => ∃ l, WorldIs { w with ingest := l } s t
      ∧ nth ⟨false, false, false, 0, 0, 0⟩ l k.toNat = ⟨true, long, false, w.key, 0, key⟩ := by
  refine ⟨_, ?_, put ⟨false, false, false, 0, 0, 0⟩ w.ingest k.toNat ⟨true, long, false, w.key, 0, key⟩,
    worldIs_setWorld (x := w) hworld, nth_put_same _ _ _ _⟩
  have hfree : ¬ ingestBusy s w.key k.toNat = true := by rw [hidle]; exact Bool.false_ne_true
  rw [exec_ingestKey, execIngestKey, forHandle_runs hopen hw]
  exact if_neg hfree

theorem bindStream_binds (port : Bool) (k : BitVec 3) :
    Completes (.bindStream h port k) s (WorldIs { w with stream := some (port, k.toNat) } s) := by
  refine ⟨_, ?_, worldIs_setWorld (x := w) hworld⟩
  rw [exec_bindStream, execBindStream, forHandle_runs hopen hw]

/-! ### Queues -/

theorem cometQueue_removes (k : BitVec 8) :
    Completes (.cometQueue h k none) s (WorldIs { w with comet := w.comet.filter fun q => q.index ≠ k.toNat } s) := by
  refine ⟨_, ?_, worldIs_setWorld (x := w) hworld⟩
  rw [exec_cometQueue, execCometQueue, forHandle_runs hopen hw]

omit hworld in
/-- A comet queue whose header can be read is registered, or refused where the header is malformed. -/
theorem cometQueue_reads {k : BitVec 8} {a : DWord} {hd : Header} (halign : a.toNat % 64 = 0)
    (hread : readHeader s w.key a = some hd) :
    exec (.cometQueue h k (some a)) s =
      if cometHeaderBad w.key hd then .next (tell (.refused 6) s)
      else .next (s.setWorld { w with
        comet := w.comet.filter (fun q => q.index ≠ k.toNat) ++ [⟨k.toNat, a, field hd.bits 208 2, field hd.bits 200 3⟩] }) := by
  have hclean : headerCheck w.key a s = s := by
    rw [readHeader] at hread
    obtain ⟨x, hx, -⟩ := Option.map_eq_some_iff.mp hread
    exact moonCheck_clean hx
  rw [exec_cometQueue, execCometQueue, forHandle_runs hopen hw]
  simp only [hclean, if_pos halign, hread]
  rfl

theorem cometQueue_registers {k : BitVec 8} {a : DWord} {hd : Header} (halign : a.toNat % 64 = 0)
    (hread : readHeader s w.key a = some hd) (hgood : cometHeaderBad w.key hd = false) :
    Completes (.cometQueue h k (some a)) s fun t => ∃ l q, WorldIs { w with comet := l } s t ∧ q ∈ l ∧ q.index = k.toNat
      ∧ q.header = a ∧ q.die = field hd.bits 208 2 ∧ q.engine = field hd.bits 200 3 := by
  have hbad : ¬ cometHeaderBad w.key hd = true := by rw [hgood]; exact Bool.false_ne_true
  exact ⟨_, (cometQueue_reads hopen hw halign hread).trans (if_neg hbad), _, ⟨k.toNat, a, _, _⟩,
    worldIs_setWorld (x := w) hworld, List.mem_append_right _ (List.mem_singleton.mpr rfl), rfl, rfl, rfl, rfl⟩

end

theorem queue_mapQueue_other {q k : Nat} (hk : k ≠ q) {f : Queue → Queue} (hf : ∀ x, (f x).index = x.index) (s : State) :
    (mapQueue q f s).queue k = s.queue k := by
  rw [State.queue, State.queue, mapQueue, update, List.find?_map]
  have hindex : ((fun x : Queue => decide (x.index = k)) ∘ fun x : Queue => if decide (x.index = q) = true then f x else x)
      = fun x : Queue => decide (x.index = k) := by
    funext x
    simp only [Function.comp_apply]
    split <;> simp [hf]
  rw [hindex]
  cases hx : s.queues.find? (fun x => decide (x.index = k)) with
  | none => rfl
  | some x =>
    have : x.index = k := by simpa using List.find?_some hx
    rw [Option.map_some, if_neg (by simp [this, hk])]

/-- The parameters of a binding that are out of their ranges. -/
theorem bindQueue_refused {s : State} {q : Nat} {f : QueueBinding} (hopen : adminOpen s = true)
    (hbad : 1024 ≤ q ∨ f.weight = 0 ∨ f.bound.toNat < 10 ∨ f.header.toNat % 64 ≠ 0) :
    exec (.bindQueue q f) s = .next (tell (.refused 7) s) := by
  rw [exec_bindQueue, execBindQueue, request_runs hopen]
  refine if_pos ?_
  simp only [Bool.or_eq_true, decide_eq_true_eq]
  tauto

theorem bindQueue_binds {s : State} {q : Nat} {f : QueueBinding} (hopen : adminOpen s = true) (hq : q < 1024)
    (hweight : f.weight ≠ 0) (hbound : 10 ≤ f.bound.toNat) (halign : f.header.toNat % 64 = 0) (hplain : ptrSpace f.header = 0)
    (howner : (ownerKey s f.handle).isSome = true) : Completes (.bindQueue q f) s fun t =>
      (∃ x, t.queue q = some x ∧ x.bind = f) ∧ t.mem = s.mem ∧ ∀ k, k ≠ q → t.queue k = s.queue k := by
  have hgood : ¬ (q ≥ 1024 || f.weight = 0 || f.bound.toNat < 10 || f.header.toNat % 64 ≠ 0 || ptrSpace f.header ≠ 0
      || (ownerKey s f.handle).isNone) = true := by
    rw [decide_eq_false (by omega), decide_eq_false hweight, decide_eq_false (by omega), decide_eq_false (by omega),
      decide_eq_false (by rw [hplain]; omega), ← Option.not_isSome, howner]
    exact Bool.false_ne_true
  rw [Completes, exec_bindQueue, execBindQueue, request_runs hopen, if_neg hgood]
  cases hx : s.queue q with
  | some x =>
    exact ⟨_, rfl, ⟨_, queue_mapQueue_some (fun _ => rfl) rfl hx, rfl⟩, rfl,
      fun k hk => queue_mapQueue_other hk (f := fun x => { x with bind := f, deficit := 0 }) (fun _ => rfl) s⟩
  | none =>
    refine ⟨_, rfl, ⟨⟨q, f, 0, 0, 0, [], [], 0, 0, 0, 0, 0⟩, ?_, rfl⟩, rfl, fun k hk => ?_⟩
    · rw [State.queue] at hx ⊢
      rw [List.find?_append, hx]
      simp
    · rw [State.queue, State.queue, List.find?_append]
      have hne : q ≠ k := fun h => hk h.symm
      simp [hne]

end Machine

open Machine

/-- Settles O50. -/
theorem trustRequests : Obligations.TrustRequests := by
  refine fun s hopen => ⟨fun h sealing => ⟨fun k hk hne hnew => ⟨_, register_registers hopen hk hne hnew sealing, ?_⟩,
      register_refused hopen (.inl rfl) sealing, fun hold => register_refused hopen (.inr hold) sealing⟩,
    fun h w hw hworld hkey => ⟨deregister_refused hopen hw, deregister_forgets hopen hw,
      fun vmid save base len => ⟨fun hbad => giveMemory_refused hopen hw hbad vmid save,
        fun hgood => giveMemory_gives hopen hw hworld hgood vmid save⟩,
      fun root => roots_sets hopen hw hworld (.inl rfl) root,
      fun root => ⟨fun hfeature => roots_sets hopen hw hworld (.inr hfeature) root,
        fun hfeature => roots_refused hopen hfeature root⟩,
      fun k e => ⟨fun hbad => sealedEntry_refused hopen hw hbad k,
        fun hfeature hgood => sealedEntry_sets hopen hw hworld hfeature hgood k⟩,
      fun k long key => ⟨ingestKey_refused hopen hw k long key, fun hbusy => ingestKey_busy hopen hw hbusy long key,
        fun hidle => ingestKey_installs hopen hw hworld hidle long key⟩,
      cometQueue_removes hopen hw hworld,
      fun k a hd halign hread => ⟨fun hbad => (cometQueue_reads hopen hw halign hread).trans (if_pos hbad),
        cometQueue_registers hopen hw hworld halign hread⟩,
      bindStream_binds hopen hw hworld, attest_reports hopen hw⟩,
    fun q f => ⟨bindQueue_refused hopen, bindQueue_binds hopen⟩⟩
  exact ⟨registered k h sealing s, rfl, rfl, rfl, rfl, rfl, rfl, rfl, rfl⟩

end Sys2Proof

/-! ## What orrery does (R118, R187, R189, R195, R313) -/

namespace Sys2Proof

namespace Machine

/-! ### Writes of an engine -/

theorem badLines_of_each {s : State} {key : Nat} {pas : List Nat} (h : ∀ a ∈ pas, badLines s key [a] = []) :
    badLines s key pas = [] := by
  rw [badLines, List.filter_eq_nil_iff]
  intro line hline hbad
  simp only [linesOf, List.mem_eraseDups, List.mem_map, List.mem_filter] at hline
  obtain ⟨a, ⟨ha, hlow⟩, rfl⟩ := hline
  have hone := h a ha
  rw [badLines, List.filter_eq_nil_iff] at hone
  refine hone (a / 64) ?_ hbad
  simp only [linesOf, List.mem_eraseDups, List.mem_map, List.mem_filter]
  exact ⟨a, ⟨List.mem_singleton.mpr rfl, hlow⟩, rfl⟩

theorem badLines_subset {s : State} {key : Nat} {pas l : List Nat} (h : badLines s key pas = []) (hsub : ∀ a ∈ l, a ∈ pas) :
    badLines s key l = [] :=
  badLines_of_each fun a ha => badLines_of_mem h (hsub a ha)

theorem performEWrites_reported (whole : List Nat) (l : List EWrite) (s : State) :
    Reported s (performEWrites whole l s) := by
  rw [performEWrites]
  refine Reported.trans (foldl_reported (fun (t : State) (k : Nat) => ?_) _ s) ⟨rfl, id, id, id⟩
  exact (macCheck_reported _ _ _).trans (writePlaces_reported _ _ _ _)

/-- What is written of a list, with the key id at each place. -/
def writtenOut (l : List EWrite) (s : State) : List (Nat × Byte) := l.map fun x => (x.pa, (x.data.value s).1)

theorem writtenOut_places (l : List EWrite) (s : State) : (writtenOut l s).map (·.1) = l.map (·.pa) := by
  rw [writtenOut, List.map_map]
  rfl

theorem eraseDups_const {α : Type} [DecidableEq α] {l : List α} {k : α} (h : ∀ x ∈ l, x = k) : l = [] ∨ l.eraseDups = [k] := by
  cases l with
  | nil => exact .inl rfl
  | cons x t =>
    refine .inr ?_
    obtain rfl := h x List.mem_cons_self
    have hnone : t.filter (fun b => !b == x) = [] :=
      List.filter_eq_nil_iff.mpr fun y hy => by simp [h y (List.mem_cons_of_mem _ hy)]
    rw [List.eraseDups_cons, hnone, List.eraseDups_nil]

/-- Writes under one key id that meet no bad MAC are one write to memory, with the poison that they carry. -/
theorem performEWrites_one {l : List EWrite} {s : State} (h : CleanWrites l s) (hne : l ≠ []) (whole : List Nat) :
    ∃ k m, performEWrites whole l s = { writePlaces k false (writtenOut l s) s with poison := m } := by
  obtain ⟨-, k, hk⟩ := h
  obtain hnil | hone := eraseDups_const (l := l.map (·.key)) (k := k) fun x hx => by
    obtain ⟨y, hy, rfl⟩ := List.mem_map.mp hx
    exact (hk y hy).1
  · exact absurd (List.map_eq_nil_iff.mp hnil) hne
  · have hmine : ((l.map fun x => (x.key, x.pa, (x.data.value s).1)).filter fun x => x.1 = k).map (·.2) = writtenOut l s := by
      rw [List.filter_eq_self.mpr, List.map_map]
      · rfl
      · intro x hx
        obtain ⟨y, hy, rfl⟩ := List.mem_map.mp hx
        exact decide_eq_true (hk y hy).1
    have hclean : ∀ p : Nat → Bool, macCheck k (((writtenOut l s).map (·.1)).filter p) s = s := fun p => by
      refine macCheck_clean (badLines_of_each fun a ha => ?_)
      rw [writtenOut_places] at ha
      obtain ⟨y, hy, rfl⟩ := List.mem_map.mp (List.mem_filter.mp ha).1
      exact (hk y hy).2.2.1
    refine ⟨k, ((l.filter fun x => (x.data.value s).2).map (·.pa)).foldl (fun m a => insertNew a m)
      (writePlaces k false (writtenOut l s) s).poison, ?_⟩
    rw [performEWrites]
    simp only [hone, List.foldl_cons, List.foldl_nil, hmine, hclean]

theorem performEWrites_clean {l : List EWrite} {s : State} (h : CleanWrites l s) (whole : List Nat) :
    ∃ k, (performEWrites whole l s).mem = (writePlaces k false (writtenOut l s) s).mem := by
  rcases eq_or_ne l [] with rfl | hne
  · exact ⟨0, rfl⟩
  · obtain ⟨k, m, heq⟩ := performEWrites_one h hne whole
    exact ⟨k, by rw [heq]⟩

theorem performEWrites_written {l : List EWrite} {s : State} (h : CleanWrites l s) (hw : Memory.wf s.mem = true)
    (whole : List Nat) : WrittenOut l s (performEWrites whole l s) := by
  obtain ⟨k, hmem⟩ := performEWrites_clean h whole
  obtain ⟨hnodup, _, hk⟩ := h
  refine ⟨fun a ha => ?_, fun x hx => ?_⟩
  · rw [hmem]
    exact ((writePlaces_stored k false (writtenOut l s) s).2 hw).2 a (by rw [writtenOut_places]; exact ha)
  · rw [hmem]
    refine writePlaces_read k (fun y hy => ?_) hw (by rw [writtenOut_places]; exact hnodup) (List.mem_map.mpr ⟨x, hx, rfl⟩)
    obtain ⟨z, hz, rfl⟩ := List.mem_map.mp hy
    exact (hk z hz).2.1

/-! ### Attaching and detaching -/

theorem exec_orreryAttach (key s) : exec (.orreryAttach key) s = execOrreryAttach key s := rfl

theorem exec_orreryDetach (key s) : exec (.orreryDetach key) s = execOrreryDetach key s := rfl

theorem exec_orrerySetPlace (key core s) : exec (.orrerySetPlace key core) s = execOrrerySetPlace key core s := rfl

theorem exec_orreryContinue (r s) : exec (.orreryContinue r) s = execOrreryContinue r s := rfl

theorem exec_orreryPost (x va s) : exec (.orreryPost x va) s = execOrreryPost x va s := rfl

theorem exec_orreryRead (t len s) : exec (.orreryRead t len) s = execOrreryRead t len s := rfl

theorem exec_orreryWrite (t bytes s) : exec (.orreryWrite t bytes) s = execOrreryWrite t bytes s := rfl

theorem worldIs_mapWorlds {s : State} {f : World → World} {w : World} (hf : ∀ x, (f x).key = x.key)
    (hother : ∀ x, x.key ≠ w.key → f x = x) (hw : s.world w.key = some w) : WorldIs (f w) s (s.mapWorlds f) := by
  refine ⟨?_, fun k hk => ?_⟩
  · rw [world_mapWorlds hf, hf, hw, Option.map_some]
  · rw [world_mapWorlds hf]
    cases hx : s.world k with
    | none => rfl
    | some x =>
      rw [Option.map_some, hother x]
      rw [world_key hx, ← hf w]
      exact hk

theorem attach_attaches {s : State} {w : World} (hw : s.world w.key = some w) (hlive : w.live = true) :
    Completes (.orreryAttach w.key) s (WorldIs { w with attached := true } s) := by
  let f : World → World := fun x => if x.key = w.key && x.live then { x with attached := true } else x
  have hf : ∀ x, (f x).key = x.key := fun x => by simp only [f]; split <;> rfl
  have hother : ∀ x, x.key ≠ w.key → f x = x := fun x hx => by simp [f, hx]
  have hself : f w = { w with attached := true } := by simp [f, hlive]
  refine ⟨s.mapWorlds f, by rw [exec_orreryAttach, execOrreryAttach], ?_⟩
  rw [← hself]
  exact worldIs_mapWorlds hf hother hw

/-- A strand in focus whose grid is of the world runs on. -/
theorem resumeStopped_st {key : Nat} {s : State} {g : Grid} (hg : s.grid s.st.grid = some g) (hkey : g.key = key)
    (hhere : s.st.here = true) : (resumeStopped key s).st = s.st.unstopped := by
  have hany : ((s.grid s.st.grid).any fun g => g.key = key) = true := by rw [hg]; exact decide_eq_true hkey
  show (if s.st.here then _ else s.st) = _
  rw [if_pos hhere, if_pos hany]

theorem unstopped_runs (t : Strand) : t.unstopped.status ≠ .stopped ∧ t.unstopped.bkpt = false := by
  refine ⟨?_, rfl⟩
  rw [Strand.unstopped]
  dsimp only
  split <;> simp_all

theorem detach_detaches {s : State} {w : World} (hw : s.world w.key = some w) :
    Completes (.orreryDetach w.key) s fun t => WorldIs { w with attached := false } s t ∧ t.mem = s.mem
      ∧ ∀ g, s.grid s.st.grid = some g → g.key = w.key → s.st.here = true → t.st.status ≠ .stopped ∧ t.st.bkpt = false := by
  let f : World → World := fun x => if x.key = w.key then { x with attached := false } else x
  have hf : ∀ x, (f x).key = x.key := fun x => by simp only [f]; split <;> rfl
  have hother : ∀ x, x.key ≠ w.key → f x = x := fun x hx => by simp [f, hx]
  have hself : f w = { w with attached := false } := by simp [f]
  refine ⟨resumeStopped w.key (s.mapWorlds f), by rw [exec_orreryDetach, execOrreryDetach], ?_, rfl, fun g hg hkey hhere => ?_⟩
  · rw [← hself]
    exact worldIs_mapWorlds hf hother hw
  · rw [resumeStopped_st (s := s.mapWorlds f) hg hkey hhere]
    exact unstopped_runs s.st

/-! ### The place setting -/

theorem lookup_filter_self {α : Type} (k : Nat) (l : List (Nat × α)) : (l.filter fun x => x.1 ≠ k).lookup k = none := by
  refine List.lookup_eq_none_iff.mpr fun x hx => ?_
  have := (List.mem_filter.mp hx).2
  simp only [decide_eq_true_eq] at this
  exact bne_iff_ne.mpr fun h => this h.symm

theorem lookup_filter_other {α : Type} {j k : Nat} (h : j ≠ k) (l : List (Nat × α)) :
    (l.filter fun x => x.1 ≠ k).lookup j = l.lookup j := by
  induction l with
  | nil => rfl
  | cons x t ih =>
    obtain ⟨i, y⟩ := x
    by_cases hi : i = k
    · subst hi
      rw [List.filter_cons_of_neg (by simp), ih, List.lookup_cons, beq_false_of_ne h]
    · rw [List.filter_cons_of_pos (by simpa using hi), List.lookup_cons, List.lookup_cons, ih]

theorem setPlace_places (key : Nat) (c : Option Nat) (s : State) : Completes (.orrerySetPlace key c) s fun t =>
    t = { s with placed := t.placed } ∧ t.placed.lookup key = c ∧ ∀ k, k ≠ key → t.placed.lookup k = s.placed.lookup k := by
  refine ⟨_, exec_orrerySetPlace key c s, rfl, ?_, fun k hk => ?_⟩
  · cases c with
    | none => exact lookup_filter_self key s.placed
    | some c => exact List.lookup_cons_self
  · cases c with
    | none => exact lookup_filter_other hk s.placed
    | some c =>
      show List.lookup k ((key, c) :: _) = _
      rw [List.lookup_cons, beq_false_of_ne hk]
      exact lookup_filter_other hk s.placed

theorem placeSetting_set {s : State} {g : Grid} {c : Nat} (hset : s.placed.lookup g.key = some c) (hroot : g.parent = none)
    (hheld : g.debugged = true ∨ ∃ w, s.world g.key = some w ∧ w.attached = true) : placeSetting s g = some c := by
  rw [placeSetting, hroot, if_neg (by exact Bool.false_ne_true), hset]
  split
  · rfl
  next hd =>
    obtain h | ⟨w, hw, hattached⟩ := hheld
    · exact absurd h hd
    · exact if_pos (by rw [hw]; exact hattached)

/-- No other grid is confined. -/
theorem placeSetting_none {s : State} {g : Grid}
    (h : g.parent ≠ none ∨ g.debugged = false ∧ ∀ w, s.world g.key = some w → w.attached = false) : placeSetting s g = none := by
  rw [placeSetting]
  obtain h | ⟨hd, hw⟩ := h
  · exact if_pos (Option.isSome_iff_ne_none.mpr h)
  · split
    · rfl
    · rw [if_neg (by rw [hd]; exact Bool.false_ne_true)]
      cases hx : s.world g.key with
      | none => rfl
      | some w =>
        refine if_neg ?_
        rw [Option.any_some, hw w hx]
        exact Bool.false_ne_true

theorem coreAllowed_confined {s : State} {q : Queue} {g : Grid} {c k : Nat} (h : placeSetting s g = some c)
    (hk : coreAllowed s q g k = true) : k = c := by
  rw [coreAllowed, h] at hk
  exact (of_decide_eq_true (Bool.and_eq_true_iff.mp hk).2).symm

/-! ### A strand that is continued, shown or written -/

theorem mapStrandRef_st {r : StrandRef} {s : State} (hfocus : InFocus r s) (f : Nat → Strand → Strand) (g : Strand → Strand) :
    (mapStrandRef r f g s).st = (if s.st.gone then s.st else f s.blk.core s.st) ∧ (mapStrandRef r f g s).mem = s.mem := by
  refine ⟨?_, rfl⟩
  obtain ⟨hhere, href⟩ := hfocus
  show (if s.st.here then (if s.st.ref = r && !s.st.gone then f s.blk.core s.st else s.st) else s.st) = _
  rw [if_pos hhere, decide_eq_true href]
  cases s.st.gone <;> rfl

theorem continue_runs {r : StrandRef} {s : State} (hfocus : InFocus r s) (hstopped : s.st.status = .stopped) :
    Completes (.orreryContinue r) s fun t => t.st = { s.st with status := .ready } ∧ t.mem = s.mem := by
  refine ⟨_, by rw [exec_orreryContinue, execOrreryContinue], ?_⟩
  obtain ⟨hst, hmem⟩ := mapStrandRef_st hfocus
    (fun _ t => if t.status = .stopped then { t with status := .ready } else t)
    (fun t => if t.status = .stopped then { t with status := .ready } else t)
  refine ⟨?_, hmem⟩
  rw [hst, if_pos hstopped, if_neg]
  simp [Strand.gone, hstopped]

theorem showStrand_focus {r : StrandRef} {s : State} (hfocus : InFocus r s) (f : State → List Byte) :
    showStrand r s f = .next { s with orrery := f s } := by
  rw [showStrand, focus_self hfocus]
  rfl

theorem read_sreg {r : StrandRef} {s : State} (hfocus : InFocus r s) (n : BitVec 6) (len : Nat) :
    exec (.orreryRead (.sreg r n) len) s = .next { s with orrery := leBytes 4 (s.st.sget n.toNat).toNat } := by
  rw [exec_orreryRead, execOrreryRead, showStrand_focus hfocus, wordBytes, List.flatMap_singleton]

theorem read_vreg {r : StrandRef} {s : State} (hfocus : InFocus r s) (n : BitVec 7) (len : Nat) :
    Completes (.orreryRead (.vreg r n) len) s fun t => t = { s with orrery := t.orrery }
      ∧ t.orrery = (List.range 64).flatMap fun i => leBytes 4 (s.st.vget n.toNat i).toNat := by
  refine ⟨_, by rw [exec_orreryRead, execOrreryRead, showStrand_focus hfocus], rfl, ?_⟩
  rw [wordBytes, List.flatMap_map]
  rfl

theorem read_mreg {r : StrandRef} {s : State} (hfocus : InFocus r s) (n : BitVec 4) (len : Nat) :
    exec (.orreryRead (.mreg r n) len) s = .next { s with orrery := leBytes 8 (s.st.mget n.toNat).toNat } := by
  rw [exec_orreryRead, execOrreryRead, showStrand_focus hfocus]

theorem write_sreg {r : StrandRef} {s : State} (hfocus : InFocus r s) (hthere : s.st.gone = false) (n : BitVec 6)
    (a b c d : Byte) : Completes (.orreryWrite (.sreg r n) [a, b, c, d]) s fun t =>
      t.st.sget n.toNat = BitVec.ofNat 32 (leNat [a, b, c, d]) ∧ (∀ k, k ≠ n.toNat → t.st.sget k = s.st.sget k)
        ∧ t.st.v = s.st.v ∧ t.st.m = s.st.m ∧ t.mem = s.mem := by
  have hwords : wordList [a, b, c, d] = [BitVec.ofNat 32 (leNat [a, b, c, d])] := rfl
  refine ⟨_, by rw [exec_orreryWrite, execOrreryWrite, pokeInto, hwords], ?_⟩
  obtain ⟨hst, hmem⟩ := mapStrandRef_st hfocus (fun _ t => t.sset n.toNat (BitVec.ofNat 32 (leNat [a, b, c, d])))
    (fun t => t.sset n.toNat (BitVec.ofNat 32 (leNat [a, b, c, d])))
  rw [if_neg (by rw [hthere]; exact Bool.false_ne_true)] at hst
  dsimp only
  rw [hst, hmem]
  refine ⟨by simp, fun k hk => by simp [hk], rfl, rfl, rfl⟩

/-! ### Memory -/

theorem read_memory {key n : Nat} {va : DWord} {l : List Byte} {s : State} :
    (orreryRange key va n s = some (l, false) → exec (.orreryRead (.memory key va) n) s = .next { s with orrery := l })
    ∧ (orreryRange key va n s = some (l, true) → Completes (.orreryRead (.memory key va) n) s fun t =>
        t.orrery = List.replicate l.length 0) := by
  refine ⟨fun h => ?_, fun h => ⟨{ debugRecord key va n s with orrery := List.replicate l.length 0 }, ?_, rfl⟩⟩ <;>
  · rw [exec_orreryRead, execOrreryRead]
    simp only [h]
    rfl

theorem write_memory_sealed {key : Nat} {va : DWord} {bytes : List Byte} {parts : List (Nat × DWord × PagePart)} {s u : State}
    (hdraw : orreryDraw key va bytes.length (bytes.length / 65536 + 4) s = some (parts, u))
    (hsealed : ∃ x ∈ parts, x.2.2.mtype = 1) :
    exec (.orreryWrite (.memory key va) bytes) s = .next (debugRecord key va bytes.length s) := by
  obtain ⟨x, hx, htype⟩ := hsealed
  rw [exec_orreryWrite, execOrreryWrite]
  simp only [hdraw]
  exact if_pos (List.any_eq_true.mpr ⟨x, hx, decide_eq_true htype⟩)

theorem write_memory {key : Nat} {va : DWord} {bytes : List Byte} {parts : List (Nat × DWord × PagePart)} {s u : State}
    (hdraw : orreryDraw key va bytes.length (bytes.length / 65536 + 4) s = some (parts, u))
    (hplain : ∀ x ∈ parts, x.2.2.mtype ≠ 1) (hclean : CleanWrites (writesTo parts (plainData bytes)) u)
    (hw : Memory.wf u.mem = true) :
    Completes (.orreryWrite (.memory key va) bytes) s (WrittenOut (writesTo parts (plainData bytes)) u) := by
  refine ⟨performEWrites (allPas parts) (writesTo parts (plainData bytes)) u, ?_, performEWrites_written hclean hw _⟩
  rw [exec_orreryWrite, execOrreryWrite]
  simp only [hdraw]
  refine if_neg fun h => ?_
  obtain ⟨x, hx, htype⟩ := List.any_eq_true.mp h
  exact hplain x hx (of_decide_eq_true htype)

/-! ### A record that orrery posts -/

theorem mem_foldl_insertNew {α : Type} [DecidableEq α] (l m : List α) :
    (∀ a ∈ l, a ∈ l.foldl (fun m a => insertNew a m) m) ∧ ∀ a ∈ m, a ∈ l.foldl (fun m a => insertNew a m) m := by
  induction l generalizing m with
  | nil => exact ⟨fun a h => absurd h List.not_mem_nil, fun a h => h⟩
  | cons x t ih =>
    obtain ⟨hnew, hold⟩ := ih (insertNew x m)
    have hx : x ∈ insertNew x m := by rw [insertNew]; split <;> simp_all
    have hm : ∀ a ∈ m, a ∈ insertNew x m := fun a ha => by rw [insertNew]; split <;> simp_all
    refine ⟨fun a ha => ?_, fun a ha => hold a (hm a ha)⟩
    obtain rfl | ha := List.mem_cons.mp ha
    · exact hold a hx
    · exact hnew a ha

/-- A record that orrery has posted at slot n of a queue. -/
def postedBy (run : Bool) (q n : Nat) (x : List Nat) (u : State) : State :=
  { u with
    hostSlots := x.foldl (fun l a => insertNew a l) u.hostSlots
    posted := if run then (q, n) :: u.posted else u.posted }

theorem queueHeaderCheck_clean {s : State} {q : Queue} {k : Nat} {h : Header} (hh : queueHeader s q = some (k, h)) :
    queueHeaderCheck q s = s := by
  rw [queueHeader] at hh
  rw [queueHeaderCheck]
  split at hh
  · cases hh
  next key hkey =>
    obtain ⟨x, hx, -⟩ := Option.map_eq_some_iff.mp hh
    obtain ⟨y, hy, -⟩ := Option.map_eq_some_iff.mp hx
    rw [hkey]
    exact moonCheck_clean hy

theorem orreryPost_reaches {key : Nat} {run : Bool} {va : DWord} {pas : List Nat} {k0 k : Nat} {q : Queue} {h : Header} {s : State}
    (hread : moonRead s key .read va 64 = some (pas, k0))
    (hq : s.queue (field (BitVec.ofNat 512 (leNat (pas.map s.readByte))) 16 10) = some q) (hh : queueHeader s q = some (k, h)) :
    exec (.orreryPost ⟨key, run⟩ va) s =
      if h.full then .next s
      else
        match postImage k h (pas.map s.readByte) s, moonPlaces s k .write (h.slot h.write) 1 with
        | some s, some (p, _) => .next (postedBy run q.index h.write p s)
        | _, _ => .next s := by
  rw [exec_orreryPost, execOrreryPost]
  simp only [moonCheck_clean hread, hread, hq, queueHeaderCheck_clean hh, hh]
  rfl

end Machine

open Machine

/-- Settles O53. -/
theorem orrery : Obligations.Orrery := by
  refine ⟨fun key w s hw hkey hne => ?_, setPlace_places, fun s g q c => ⟨fun hset hroot hheld k hk =>
      coreAllowed_confined (placeSetting_set hset hroot hheld) hk, fun h k => ?_⟩,
    fun r s hfocus => ⟨continue_runs hfocus, read_sreg hfocus, read_vreg hfocus, read_mreg hfocus,
      fun n a b c d hthere => write_sreg hfocus hthere n a b c d⟩,
    fun key va n l s => read_memory,
    fun key va bytes parts s u hdraw => ⟨write_memory_sealed hdraw, fun hplain hclean hw => write_memory hdraw hplain hclean hw⟩,
    fun key run va pas k0 k k1 q h x s u hread hq hh => ⟨fun hfull => ?_, fun hfull hpost hslot => ⟨postedBy run q.index h.write x u, ?_, ?_⟩⟩⟩
  · subst hkey
    exact ⟨attach_attaches hw, detach_detaches hw⟩
  · have hleft : placeSetting s g = none := placeSetting_none h
    have hright : placeSetting { s with placed := [] } g = none := placeSetting_none h
    rw [coreAllowed, coreAllowed, hleft, hright]
  · exact (orreryPost_reaches hread hq hh).trans (if_pos hfull)
  · rw [orreryPost_reaches hread hq hh, if_neg (by rw [hfull]; exact Bool.false_ne_true), hpost, hslot]
  · obtain ⟨hnew, hold⟩ := mem_foldl_insertNew x u.hostSlots
    exact ⟨rfl, hnew, hold, rfl⟩

end Sys2Proof

/-! ## Dispatch and grant (R24, R29 to R31, R326 to R328) -/

namespace Sys2Proof

namespace Machine

theorem exec_blockDispatch (g s) : exec (.blockDispatch g) s = execBlockDispatch g s := rfl

theorem exec_grant (b s) : exec (.grant b) s = execGrant b s := rfl

/-! ### A block in focus, and grids that are changed -/

theorem focusWorld_here {s : State} {key : Nat} (h : s.wld.key = key) : s.focusWorld key = s := if_pos h

theorem focusGrid_here {s : State} {id : Nat} (hlive : s.grd.live = true) (hid : s.grd.id = id) (hkey : s.wld.key = s.grd.key) :
    s.focusGrid id = some s := by
  rw [State.focusGrid, if_pos ⟨hlive, hid⟩, focusWorld_here hkey]

theorem focusBlock_here {r : BlockRef} {s : State} (h : BlockIn r s) : s.focusBlock r = some s := by
  obtain ⟨hlive, hgrid, hid, hglive, hgid, hkey⟩ := h
  rw [State.focusBlock, if_pos ⟨hlive, hgrid, hid⟩, focusGrid_here hglive hgid hkey]

theorem withBlock_here {r : BlockRef} {s : State} (h : BlockIn r s) (k : State → Out) : withBlock r s k = k s := by
  rw [withBlock, focusBlock_here h]
  exact if_pos h.1

theorem grid_congr {s t : State} (hgrd : t.grd = s.grd) (hgrids : t.grids = s.grids) (id : Nat) : t.grid id = s.grid id := by
  rw [State.grid, State.grid, allGrids_congr hgrd hgrids]

theorem grid_mapGrids {f : Grid → Grid} (hf : ∀ x, (f x).id = x.id) (hlive : ∀ x, (f x).live = x.live) (s : State) (id : Nat) :
    (s.mapGrids f).grid id = (s.grid id).map f := by
  have hall : (s.mapGrids f).allGrids = s.allGrids.map f := by
    simp only [State.allGrids, State.mapGrids]
    by_cases h : s.grd.live = true
    · simp [h, hlive]
    · simp [h]
  rw [State.grid, hall, List.find?_map, State.grid]
  simp only [Function.comp_def, hf]

theorem grid_mapGrid {f : Grid → Grid} (hf : ∀ x, (f x).id = x.id) (hlive : ∀ x, (f x).live = x.live) (s : State) (id : Nat) :
    (mapGrid id f s).grid id = (s.grid id).map f := by
  rw [mapGrid, grid_mapGrids (fun x => by split <;> simp [hf]) (fun x => by split <;> simp [hlive])]
  cases h : s.grid id with
  | none => rfl
  | some x => rw [Option.map_some, if_pos (grid_id h), Option.map_some]

/-! ### The best core -/

theorem bestCore_mem {s : State} {l : List Nat} {core : Nat} (h : bestCore s l = some core) : core ∈ l := by
  have hkept : ∀ (t : List Nat) (m : Option Nat), (∀ c, m = some c → c ∈ l) → (∀ c ∈ t, c ∈ l) →
      ∀ c, t.foldl (fun m c =>
        match m with
        | none => some c
        | some d => if (slotsHeld (residents s (fun _ => false) c)).length
            < (slotsHeld (residents s (fun _ => false) d)).length then some c else m) m = some c → c ∈ l := by
    intro t
    induction t with
    | nil => exact fun m hm _ => hm
    | cons x t ih =>
      intro m hm ht
      refine ih _ (fun c hc => ?_) fun c hc => ht c (List.mem_cons_of_mem _ hc)
      have hx := ht x List.mem_cons_self
      cases m with
      | none => cases hc; exact hx
      | some d =>
        dsimp only at hc
        split at hc
        · cases hc; exact hx
        · exact hm c hc
  exact hkept l none (fun _ hc => by cases hc) (fun _ hc => hc) core h

/-- A core that takes the next new block of a grid has its strand slots. -/
theorem chooseSlots_of_best {s : State} {q : Queue} {g : Grid} {core : Nat} {saved : Bool}
    (h : bestCore s (coresFor s q g saved) = some core) :
    ∃ slots, chooseSlots s g (!saved) (fun _ => false) core = some slots ∧ slots.length = g.nstrands := by
  have hfits := (List.mem_filter.mp (bestCore_mem h)).2
  simp only [Bool.and_eq_true, fitsOn, roomOn] at hfits
  obtain ⟨-, ⟨⟨⟨-, hslots⟩, -⟩, -⟩, -⟩ := hfits
  obtain ⟨slots, hslots⟩ := Option.isSome_iff_exists.mp hslots
  refine ⟨slots, hslots, ?_⟩
  rw [chooseSlots] at hslots
  split at hslots
  next hroom =>
    cases hslots
    exact List.length_take_of_le hroom
  next => cases hslots

/-! ### A block is placed -/

/-- Nothing changes but the slot records. -/
def ArenasMade (s t : State) : Prop := t = { s with slots := t.slots }

theorem ArenasMade.refl (s : State) : ArenasMade s s := rfl

theorem ArenasMade.trans {s t u : State} (h : ArenasMade s t) (k : ArenasMade t u) : ArenasMade s u := by
  rw [ArenasMade] at h k ⊢
  rw [k, h]

theorem createArena_made (id : SlotId) (cls cap key : Nat) (owner : Owner) (s : State) :
    ArenasMade s (createArena id cls cap key owner s) := rfl

theorem threadArenas_made (g : Grid) (block core : Nat) (s : State) (t : Strand) :
    ArenasMade s (threadArenas g block core s t) := by
  rw [threadArenas]
  split
  · rfl
  · split
    · rfl
    · exact foldl_related ArenasMade.refl ArenasMade.trans (fun s _ => createArena_made _ _ _ _ _ s) _ s

theorem ranOn_worlds (key core : Nat) (s : State) :
    ranOn key core s = { s with wld := (ranOn key core s).wld, worlds := (ranOn key core s).worlds } := by
  rw [ranOn]
  split <;> rfl

/-- The strands of block i of a grid as they are dispatched. -/
def newStrands (g : Grid) (args : List Word) (i core : Nat) (slots : List Nat) (s : State) : List Strand :=
  slots.zipIdx.map fun x => newStrand g args i x.2 x.1 (s.clockOf core).toNat

/-- Block i of a grid as it is dispatched. -/
def newBlock (g : Grid) (args : List Word) (i core : Nat) (slots : List Nat) (s : State) : Block :=
  { Block.blank with
    live := true, grid := g.id, id := i, core := core, seq := s.blockCount + 1, nstrands := g.nstrands
    strands := newStrands g args i core slots s, token := if g.twin then some 0 else none
    barena := match (if g.bcap = 0 then none else freeBlockSlot s (dieOf core)) with
      | some id => slotPointer id (slotRec s id).gen
      | none => 0 }

/-- Block i of a grid has been dispatched. -/
def Grid.dispatched (i : Nat) (g : Grid) : Grid :=
  { g with nextBlock := if i = g.nextBlock then i + 1 else g.nextBlock, flushed := g.flushed.filter (· ≠ i) }

/-- The arenas of block i and of its threads are made. -/
def makeArenas (g : Grid) (args : List Word) (i core : Nat) (slots : List Nat) (s : State) : State :=
  (newStrands g args i core slots s).foldl (threadArenas g i core)
    (match (if g.bcap = 0 then none else freeBlockSlot s (dieOf core)) with
      | some id => createArena id 2 g.bcap g.key (.block g.id i) s
      | none => s)

theorem makeArenas_made (g : Grid) (args : List Word) (i core : Nat) (slots : List Nat) (s : State) :
    ArenasMade s (makeArenas g args i core slots s) := by
  refine ArenasMade.trans ?_ (foldl_related ArenasMade.refl ArenasMade.trans (fun s t => threadArenas_made g i core s t) _ _)
  split
  · exact createArena_made _ _ _ _ _ s
  · rfl

theorem placeBlock_eq {g : Grid} {args : List Word} {i core : Nat} {slots : List Nat} {s : State} (hargs : g.args = some args)
    (hslots : chooseSlots s g true (fun _ => false) core = some slots) :
    placeBlock g i core s =
      let v := mapGrid g.id (Grid.dispatched i) (makeArenas g args i core slots s)
      l1Clear core (ranOn g.key core { v with
        blocks := newBlock g args i core slots s :: v.blocks, blockCount := v.blockCount + 1
        kept := v.kept.filter fun k => k.2 ≠ g.id }) := by
  simp only [placeBlock, hargs, hslots]
  rfl

theorem placeBlock_places {g : Grid} {args : List Word} {i core : Nat} {slots : List Nat} {s : State} (hargs : g.args = some args)
    (hslots : chooseSlots s g true (fun _ => false) core = some slots) :
    let t := placeBlock g i core s
    t.mem = s.mem ∧ t.blocks = newBlock g args i core slots s :: s.blocks ∧ t.grid g.id = (s.grid g.id).map (Grid.dispatched i) := by
  intro t
  have hmade := makeArenas_made g args i core slots s
  simp only [t, placeBlock_eq hargs hslots]
  generalize makeArenas g args i core slots s = v at hmade ⊢
  have hgrid : v.grid g.id = s.grid g.id := grid_congr (by rw [hmade]) (by rw [hmade]) g.id
  rw [l1Clear, ranOn_worlds]
  refine ⟨?_, ?_, (grid_congr (s := mapGrid g.id (Grid.dispatched i) v) rfl rfl g.id).trans ?_⟩
  · show v.mem = s.mem
    rw [hmade]
  · show _ :: v.blocks = _
    rw [hmade]
  · rw [grid_mapGrid (f := Grid.dispatched i) (fun _ => rfl) (fun _ => rfl), hgrid]

theorem newStrands_idx (g : Grid) (args : List Word) (i core : Nat) (slots : List Nat) (s : State) :
    (newStrands g args i core slots s).map (·.idx) = List.range slots.length := by
  rw [newStrands, List.map_map]
  show slots.zipIdx.map (fun x => x.2) = _
  rw [← List.unzip_snd, List.unzip_zipIdx_eq_prod]
  exact (List.range_eq_range' ..).symm

theorem nth_replicate_append (args : List Word) (n k : Nat) : nth 0 (List.replicate n 0 ++ args) (n + k) = nth 0 args k := by
  induction n with
  | zero => rw [Nat.zero_add, List.replicate_zero, List.nil_append]
  | succ n ih => rw [Nat.succ_add, List.replicate_succ, List.cons_append, nth, ih]

theorem nth_replicate_low (args : List Word) {n k : Nat} (h : k < n) : nth 0 (List.replicate n 0 ++ args) k = 0 := by
  induction n generalizing k with
  | zero => cases h
  | succ n ih =>
    rw [List.replicate_succ, List.cons_append]
    cases k with
    | zero => rfl
    | succ k => exact ih (by omega)

theorem newStrand_fresh (g : Grid) (args : List Word) (i n k age : Nat) : Fresh g args (newStrand g args i n k age) := by
  refine ⟨rfl, rfl, rfl, fun r lane => rfl, fun r hr => nth_replicate_low args hr, fun k => nth_replicate_append args 56 k,
    rfl, fun r hr => ?_, fun l hl => ?_⟩
  · obtain ⟨r, rfl⟩ := Nat.exists_eq_succ_of_ne_zero hr
    rfl
  · show laneOn (presentLanes g n) l = decide (64 * n + l < g.threads)
    rw [presentLanes, laneOn_maskOf _ _ hl, Bool.eq_iff_iff]
    simp [laneIds, Config.gwidth, hl]

/-! ### BLOCK_DISPATCH -/

section
variable {id : Nat} {s : State} {g : Grid} {q : Queue} {i core : Nat} (hg : s.grid id = some g) (hid : g.id = id)
  (hq : s.queue g.queue = some q) (hunit : nextUnit g = some (i, false)) (hwork : dispatchable s q g = true)
  (hcore : bestCore s (coresFor s q g false) = some core)
include hg hid hq hunit hwork hcore

omit hid in
/-- The next block of a grid that a core can take goes to it when it is its queue's turn. -/
theorem blockDispatch_turn : exec (.blockDispatch id) s = if itsTurn s q then dispatchOn g q i core s else .next s := by
  have hidle : ¬ (!dispatchable s q g) = true := by rw [hwork]; exact Bool.false_ne_true
  rw [exec_blockDispatch, execBlockDispatch]
  simp only [hg, hq, hunit, if_neg hidle, hcore]

omit hg hid hq hunit hcore in
theorem dispatchable_open : g.ended = none := by
  simp only [dispatchable, Bool.and_eq_true] at hwork
  obtain ⟨⟨⟨⟨hended, -⟩, -⟩, -⟩, -⟩ := hwork
  exact Option.isNone_iff_eq_none.mp hended

theorem dispatchOn_started {args : List Word} (hturn : itsTurn s q = true) (hstarted : g.started = true)
    (harena : g.gcap = 0 ∨ g.garena ≠ 0) (hargs : g.args = some args) :
    exec (.blockDispatch id) s = .next (visit q (placeBlock g i core s)) := by
  subst hid
  rw [blockDispatch_turn hg hq hunit hwork hcore, if_pos hturn, dispatchOn]
  have hstart : startGrid g q s = s := if_pos hstarted
  have hgarena : gridArena g s = s := if_pos harena
  have hready : ¬ (g.gcap ≠ 0 ∧ g.garena = 0) := fun ⟨h1, h2⟩ => harena.elim h1 fun h => h h2
  have hread : readArgs g s = .next s := by
    rw [readArgs]
    exact if_pos (by rw [hargs]; rfl)
  have hgo : (g.args.isSome && g.ended.isNone) = true := by
    rw [hargs, dispatchable_open hwork]
    rfl
  simp only [hstart, hg, hgarena, if_neg hready, hread, Out.andThen, if_pos hgo]

/-- A child of a grid as its first block is dispatched. -/
def Grid.begun (code : Memory) (g : Grid) : Grid := { g with started := true, code := code, args := some (List.replicate 8 0) }

theorem dispatchOn_first (hturn : itsTurn s q = true) (hstarted : g.started = false) (hchild : g.parent.isSome = true)
    (hcap : g.gcap = 0) (hargs : g.args = none) (haddr : g.rf 320 64 = 0) :
    ∃ u : State, u.mem = s.mem ∧ u.blocks = s.blocks ∧ u.grid id = some (g.begun s.mem)
      ∧ chooseSlots u (g.begun s.mem) true (fun _ => false) core = chooseSlots s g true (fun _ => false) core
      ∧ exec (.blockDispatch id) s = .next (visit q (placeBlock (g.begun s.mem) i core u)) := by
  subst hid
  let g1 : Grid := { g with started := true, code := s.mem }
  let s1 : State := mapGrid g.id (fun x => { x with started := true, code := s.mem }) s
  let s2 : State := mapGrid g.id (fun x => { x with args := some (wordList (List.replicate 32 0)) }) s1
  have hs1 : s1.grid g.id = some g1 := by
    refine (grid_mapGrid (f := fun x => { x with started := true, code := s.mem }) (fun _ => rfl) (fun _ => rfl) s g.id).trans ?_
    rw [hg]
    rfl
  have hs2 : s2.grid g.id = some (g.begun s.mem) := by
    refine (grid_mapGrid (f := fun x => { x with args := some (wordList (List.replicate 32 0)) }) (fun _ => rfl)
      (fun _ => rfl) s1 g.id).trans ?_
    rw [hs1]
    rfl
  refine ⟨s2, rfl, rfl, hs2, rfl, ?_⟩
  have hstart : startGrid g q s = s1 := by
    rw [startGrid, if_neg (by rw [hstarted]; exact Bool.false_ne_true), startWorld, if_pos hchild]
  have hgarena : gridArena g1 s1 = s1 := if_pos (.inl hcap)
  have hready : ¬ (g1.gcap ≠ 0 ∧ g1.garena = 0) := fun h => h.1 hcap
  have hread : readArgs g1 s1 = .next s2 := by
    rw [readArgs]
    refine (if_neg ?_).trans (if_pos ?_)
    · show ¬ g.args.isSome = true
      rw [hargs]
      exact Bool.false_ne_true
    · show BitVec.ofNat 64 (g.rf 320 64) = 0
      rw [haddr]
      rfl
  have hgo : ((g.begun s.mem).args.isSome && (g.begun s.mem).ended.isNone) = true := by
    show (true && g.ended.isNone) = true
    rw [dispatchable_open hwork]
    rfl
  rw [blockDispatch_turn hg hq hunit hwork hcore, if_pos hturn, dispatchOn]
  simp only [hstart, hs1, hgarena, if_neg hready, hread, Out.andThen, hs2, if_pos hgo]

end

/-! ### GRANT -/

section
variable {r : BlockRef} {s : State} {age : Nat} (hblk : BlockIn r s) (hrequest : s.blk.request = some age)
include hblk hrequest

/-- The blocks on the core of the one in focus, but for it. -/
def grantOthers (r : BlockRef) (s : State) : List Block :=
  residents s (fun b => b.grid = r.grid && b.id = r.block) s.blk.core

/-- Has the core room for the full allotment of the block in focus, with what it keeps for others left (R32)? -/
def grantRoom (r : BlockRef) (s : State) : Prop :=
  scratchHeld s (grantOthers r s) + s.grd.scratchBytes true ≤ 262144 ∧ (keptFor s 0 s.blk.core = [] ∨
    scratchHeld s ((grantOthers r s).filter fun b => !leaving b) + s.grd.scratchBytes true
      + sumBy nextScratch (keptFor s 0 s.blk.core) ≤ 262144)

/-- The request of the block in focus is met. -/
def granted (r : BlockRef) (s : State) : State :=
  poke (fun t w => t.grid = r.grid && t.block = r.block && w = .acquire)
    { s with blk := { s.blk with granted := true, request := none } }

theorem grant_waits (h : oldestRequest s age = false) : Stutters (.grant r) s := by
  rw [Stutters, exec_grant, execGrant, withBlock_here hblk]
  simp only [hrequest, h, Bool.not_false, if_true]

theorem grant_meets (h : oldestRequest s age = true) (hroom : grantRoom r s) : exec (.grant r) s = .next (granted r s) := by
  rw [exec_grant, execGrant, withBlock_here hblk]
  simp only [hrequest, h, Bool.not_true, Bool.false_eq_true, if_false]
  exact if_pos hroom

theorem grant_flushes (h : oldestRequest s age = true) (hroom : ¬ grantRoom r s) :
    exec (.grant r) s =
      match youngest ((grantOthers r s).filter fun b => inPrologue s b) with
      | some b => .next (flushBlock b s)
      | none => .next s := by
  rw [exec_grant, execGrant, withBlock_here hblk]
  simp only [hrequest, h, Bool.not_true, Bool.false_eq_true, if_false]
  exact if_neg hroom

end

theorem granted_st {r : BlockRef} {s : State} (hhere : s.st.here = true) (hgrid : s.st.grid = r.grid) (hblock : s.st.block = r.block)
    (hwait : s.st.status = .waiting .acquire) : (granted r s).st = { s.st with status := .ready } := by
  rw [granted, poke, State.mapStrands]
  simp [hhere, hgrid, hblock, hwait]

end Machine

open Machine

/-- Settles O43. -/
theorem dispatchAndGrant : Obligations.DispatchAndGrant := by
  refine ⟨fun id s g q i core args hg hid hq hunit hwork hcore => ⟨fun hturn => ?_, fun hturn hstarted harena hargs =>
      ⟨_, dispatchOn_started hg hid hq hunit hwork hcore hturn hstarted harena hargs, ?_⟩,
      fun hturn hstarted hchild hcap hargs haddr => ?_⟩,
    fun r s age hblk hrequest => ⟨grant_waits hblk hrequest, fun hold => ⟨fun hroom => ⟨granted r s,
      grant_meets hblk hrequest hold hroom, rfl, rfl, rfl, rfl, granted_st⟩, fun hroom => ⟨fun b hb => ?_, fun hnone => ?_⟩⟩⟩⟩
  · rw [Stutters, blockDispatch_turn hg hq hunit hwork hcore, if_neg (by rw [hturn]; exact Bool.false_ne_true)]
  · obtain ⟨slots, hslots, hlen⟩ := chooseSlots_of_best hcore
    obtain ⟨hmem, hblocks, -⟩ := placeBlock_places (i := i) hargs hslots
    refine ⟨hmem, newBlock g args i core slots s, ?_, rfl, hid, rfl, rfl, rfl, rfl, rfl, rfl, rfl, ?_, fun t ht => ?_⟩
    · show _ ∈ (placeBlock g i core s).blocks
      rw [hblocks]
      exact List.mem_cons_self
    · exact (newStrands_idx g args i core slots s).trans (by rw [hlen])
    · obtain ⟨x, -, rfl⟩ := List.mem_map.mp ht
      exact newStrand_fresh g args i _ _ _
  · obtain ⟨u, humem, hublocks, hugrid, huslots, hexec⟩ := dispatchOn_first hg hid hq hunit hwork hcore hturn hstarted hchild
      hcap hargs haddr
    obtain ⟨slots, hslots, -⟩ := chooseSlots_of_best hcore
    obtain ⟨hmem, hblocks, hgrid⟩ := placeBlock_places (g := g.begun s.mem) (i := i) rfl (huslots.trans hslots)
    refine ⟨_, hexec, hmem.trans humem, ⟨Grid.dispatched i (g.begun s.mem), ?_, rfl, rfl, rfl⟩,
      newBlock (g.begun s.mem) (List.replicate 8 0) i core slots u, ?_, hid, rfl, rfl⟩
    · show (placeBlock (g.begun s.mem) i core u).grid id = _
      have hid' : (g.begun s.mem).id = id := hid
      rw [hid', hugrid] at hgrid
      exact hgrid
    · show _ ∈ (placeBlock (g.begun s.mem) i core u).blocks
      rw [hblocks]
      exact List.mem_cons_self
  · refine (grant_flushes hblk hrequest hold hroom).trans ?_
    rw [show youngest ((grantOthers r s).filter fun b => inPrologue s b) = some b from hb]
  · refine (grant_flushes hblk hrequest hold hroom).trans ?_
    rw [show youngest ((grantOthers r s).filter fun b => inPrologue s b) = none from hnone]

end Sys2Proof

/-! ## Retirement (R204, R206) -/

namespace Sys2Proof

namespace Machine

/-! ### Two entries of one key id

Nothing in a `State` keeps two worlds from having one key id. A page that goes back to the pools of such a key id
writes the first world's entry over the second's, so a world that lives is gone before its slot's quarantine is
decided. -/

/-- An entry of key id 5 that does not live, and one that does. -/
def twoWorlds : List World := [{ World.blank with key := 5 }, { World.blank with key := 5, live := true }]

/-- Grid slot 0, with one page, is to be destroyed at GEN 1,023. -/
def lastGen : SlotRec := { SlotRec.fresh (.grid 0) with state := 3, gen := 1023, world := 5, pages := [(0, 0)] }

/-- The device with these. -/
def twoWorldsState : State := { State.reset with worlds := twoWorlds, slots := [lastGen] }

theorem twoWorlds_slot : slotRec twoWorldsState (.grid 0) = lastGen := rfl

theorem twoWorlds_idle : slotBusy twoWorldsState lastGen = false := rfl

/-- The destruction frees the slot at once. -/
theorem twoWorlds_frees : (slotRec (finishSlot lastGen twoWorldsState) (.grid 0)).state = 0 := rfl

end Machine

open Machine

/-- Refutes O44: where two entries have one key id, of which the second lives, the destruction of a slot of that key
id at GEN 1,023 returns its page to the first entry, which takes the place of both. The slot is then free although a
world lives that lived at the wrap, which the quarantine clause denies. -/
theorem not_retirement : ¬ Obligations.Retirement := by
  rintro ⟨-, -, -, hdestroy, -⟩
  obtain ⟨-, -, hwrap⟩ := hdestroy (.grid 0) twoWorldsState
  rw [twoWorlds_slot] at hwrap
  obtain ⟨t, hexec, -, -, hheld, -⟩ := hwrap rfl twoWorlds_idle rfl rfl (fun q hq => absurd hq List.not_mem_nil)
  have hdone : exec (.arenaDestruction (.grid 0)) twoWorldsState = .next (finishSlot lastGen twoWorldsState) := rfl
  obtain rfl : finishSlot lastGen twoWorldsState = t := by
    rw [hdone] at hexec
    injection hexec
  obtain ⟨hstate, -⟩ := hheld ⟨_, List.mem_cons_of_mem _ (List.mem_singleton.mpr rfl), rfl, Nat.le_refl _⟩
  rw [twoWorlds_frees] at hstate
  cases hstate

end Sys2Proof

/-! ## Pre-emption (R328, R331, R333 to R336) -/

namespace Sys2Proof

namespace Machine

theorem exec_sliceUnit (s) : exec .sliceUnit s = execSliceUnit s := rfl

theorem exec_drainExpiry (b s) : exec (.drainExpiry b) s = execDrainExpiry b s := rfl

theorem exec_blockSave (b s) : exec (.blockSave b) s = execBlockSave b s := rfl

theorem exec_blockRestore (b s) : exec (.blockRestore b) s = execBlockRestore b s := rfl

/-! ### What keeps the form of memory and the count of slice units -/

/-- Memory keeps its canonical form, and no slice unit passes. -/
def KeepsForm (s t : State) : Prop := (Memory.wf s.mem = true → Memory.wf t.mem = true) ∧ t.slice = s.slice

theorem KeepsForm.refl (s : State) : KeepsForm s s := ⟨id, rfl⟩

theorem KeepsForm.trans {s t u : State} (h : KeepsForm s t) (k : KeepsForm t u) : KeepsForm s u :=
  ⟨fun hw => k.1 (h.1 hw), k.2.trans h.2⟩

/-- What leaves memory and the count of slice units as they are. -/
theorem KeepsForm.of_same {s t : State} (hmem : t.mem = s.mem) (hslice : t.slice = s.slice) : KeepsForm s t :=
  ⟨fun hw => by rw [hmem]; exact hw, hslice⟩

/-- A change of something else comes before. -/
theorem KeepsForm.after {s u t : State} (h : KeepsForm u t) (hmem : u.mem = s.mem) (hslice : u.slice = s.slice) :
    KeepsForm s t :=
  (KeepsForm.of_same hmem hslice).trans h

/-- A change of something else comes afterwards. -/
theorem KeepsForm.before {s u t : State} (h : KeepsForm s u) (hmem : t.mem = u.mem) (hslice : t.slice = u.slice) :
    KeepsForm s t :=
  h.trans (KeepsForm.of_same hmem hslice)

theorem foldl_keepsForm {α : Type} {f : State → α → State} (h : ∀ s x, KeepsForm s (f s x)) (l : List α) (s : State) :
    KeepsForm s (l.foldl f s) :=
  foldl_related KeepsForm.refl KeepsForm.trans h l s

theorem Reported.keepsForm {s t : State} (h : Reported s t) : KeepsForm s t := ⟨h.2.1, by rw [h.1]⟩

theorem OnlySettled.keepsForm {s t : State} (h : OnlySettled s t) : KeepsForm s t := .of_same (by rw [h]) (by rw [h])

theorem Freed.keepsForm {s t : State} (h : Freed s t) : KeepsForm s t := ⟨h.2.2.2, by rw [h.1]⟩

/-! ### Focus -/

/-- What bringing something into focus leaves: all but the focus and the lists that it is put back into. -/
def OnlyFocus (s t : State) : Prop :=
  t = { s with
    st := t.st, blk := t.blk, blocks := t.blocks, grd := t.grd, grids := t.grids, wld := t.wld, worlds := t.worlds }

theorem OnlyFocus.refl (s : State) : OnlyFocus s s := rfl

theorem OnlyFocus.trans {s t u : State} (h : OnlyFocus s t) (k : OnlyFocus t u) : OnlyFocus s u := by
  rw [OnlyFocus] at h k ⊢
  rw [k, h]

theorem OnlyFocus.keepsForm {s t : State} (h : OnlyFocus s t) : KeepsForm s t := .of_same (by rw [h]) (by rw [h])

theorem dropBlock_only (s : State) : OnlyFocus s s.dropBlock := rfl

theorem focusWorld_only (key : Nat) (s : State) : OnlyFocus s (s.focusWorld key) := by
  simp only [State.focusWorld]
  split
  · rfl
  · split <;> rfl

theorem focusGrid_only {id : Nat} {s t : State} (h : s.focusGrid id = some t) : OnlyFocus s t := by
  simp only [State.focusGrid] at h
  split at h
  · cases h
    exact focusWorld_only _ s
  · split at h
    · cases h
      refine OnlyFocus.trans ?_ (focusWorld_only _ _)
      rfl
    · cases h

theorem focusBlock_only {b : BlockRef} {s t : State} (h : s.focusBlock b = some t) : OnlyFocus s t := by
  simp only [State.focusBlock] at h
  split at h
  · exact focusGrid_only h
  · split at h
    · split at h
      next u hu =>
        cases h
        exact ((dropBlock_only s).trans (focusGrid_only hu)).trans rfl
      · cases h
    · cases h

theorem focus_only {r : StrandRef} {s t : State} (h : s.focus r = some t) : OnlyFocus s t := by
  simp only [State.focus] at h
  split at h
  · cases h
    rfl
  · split at h
    · cases h
    next u hu =>
      have hblock := focusBlock_only hu
      split at h
      · cases h
        exact hblock
      · split at h
        · cases h
          exact hblock.trans rfl
        · cases h

/-! ### Deferred atomics and slots that end -/

theorem stopEffects_keepsForm (f : FaultInfo) (s : State) : KeepsForm s (stopEffects f s) := by
  rw [stopEffects]
  split
  · exact .of_same rfl rfl
  · exact (endGrid_reported _ _ s).keepsForm

theorem delivered_keepsForm (f : FaultInfo) (s : State) : KeepsForm s (delivered f s) := by
  rw [delivered_eq]
  exact (stoppedState_reported f s).keepsForm.trans
    (((stopEffects_keepsForm f _).trans (afterStop_settled _).keepsForm).after rfl rfl)

theorem deferredPoison_stopped_keepsForm (q : QntAtom) (f : FaultInfo) (s : State) :
    KeepsForm s (deferredPoison.stopped q f s) := by
  simp only [deferredPoison.stopped]
  split
  · exact (recordFor_reported _ _ _ _ s).keepsForm
  · exact (recordFor_reported _ _ _ _ s).keepsForm.trans (endGrid_reported _ _ _).keepsForm

theorem deferredPoison_keepsForm (q : QntAtom) (s : State) : KeepsForm s (deferredPoison q s) := by
  simp only [deferredPoison]
  split
  next u hu =>
    split
    · exact deferredPoison_stopped_keepsForm q _ s
    · exact (focus_only hu).keepsForm.trans ((delivered_keepsForm _ _).after rfl rfl)
  · exact deferredPoison_stopped_keepsForm q _ s

theorem applyQnt_keepsForm (q : QntAtom) (s : State) : KeepsForm s (applyQnt q s) := by
  simp only [applyQnt]
  have hmac := (macCheck_reported q.key q.pas s).keepsForm
  split
  · exact hmac.trans (deferredPoison_keepsForm q _)
  · refine hmac.trans (KeepsForm.before (KeepsForm.trans ?_ (writePlaces_reported _ _ _ _).keepsForm) rfl rfl)
    split
    · exact (recordFor_reported _ _ _ _ _).keepsForm
    · exact .refl _

theorem poke_keepsForm (p : Strand → Wait → Bool) (s : State) : KeepsForm s (poke p s) := .of_same rfl rfl

theorem applyDeferred_keepsForm (p : QntAtom → Bool) (s : State) : KeepsForm s (applyDeferred p s) := by
  rw [applyDeferred]
  refine KeepsForm.trans ?_ (foldl_keepsForm (fun (s : State) (q : QntAtom) => poke_keepsForm _ s) _ _)
  exact (foldl_keepsForm (fun (s : State) (q : QntAtom) => applyQnt_keepsForm q s) _ _).after rfl rfl

theorem finishSlot_keepsForm (r : SlotRec) (s : State) : KeepsForm s (finishSlot r s) := by
  have hpages := foldl_keepsForm (fun (s : State) (p : Nat × Nat) => (returnPage_freed r p s).keepsForm) r.pages (flushQnt r s)
  simp only [finishSlot]
  refine KeepsForm.trans ((applyDeferred_keepsForm _ s).trans hpages) ?_
  split <;> exact .of_same rfl rfl

theorem dropSlots_keepsForm (p : SlotRec → Bool) (s : State) : KeepsForm s (dropSlots p s) := by
  refine foldl_keepsForm (fun (s : State) (r : SlotRec) => ?_) _ s
  split
  · exact .of_same rfl rfl
  · exact finishSlot_keepsForm r s

/-! ### Room that is taken -/

theorem flushBlock_keepsForm (b : Block) (s : State) : KeepsForm s (flushBlock b s) :=
  (KeepsForm.of_same (s := s) (t := removeBlock b.grid b.id s) rfl rfl).trans
    ((dropSlots_keepsForm _ _).trans (.of_same rfl rfl))

theorem mapBlock_keepsForm (b : BlockRef) (f : Block → Block) (s : State) : KeepsForm s (s.mapBlock b f) := by
  rw [State.mapBlock]
  split <;> exact .of_same rfl rfl

theorem yield_keepsForm (bound : Nat) (s : State) (b : Block) : KeepsForm s (yield_ bound s b) := by
  rw [yield_]
  split
  · exact flushBlock_keepsForm b s
  · exact mapBlock_keepsForm _ _ s
  · exact mapBlock_keepsForm _ _ s

theorem takeRoom_keepsForm (g : Grid) (q : Queue) (saved : Bool) (allowed : Queue → Bool) (s : State) :
    KeepsForm s (takeRoom g q saved allowed s) := by
  simp only [takeRoom]
  split
  · exact .refl s
  · split
    · exact .refl s
    · exact (foldl_keepsForm (fun (s : State) (b : Block) => yield_keepsForm _ s b) _ _).after rfl rfl

theorem sliceTake_keepsForm (q : Queue) (s : State) : KeepsForm s (sliceTake q s) := by
  rw [sliceTake]
  split
  · exact .refl s
  · split
    · exact .refl s
    · split
      · exact takeRoom_keepsForm _ _ _ _ s
      · exact .refl s

/-! ### SLICE_UNIT -/

/-- The device as a slice unit begins: room that is kept no longer is released, deficits are cleared. -/
def sliceBegun (s : State) : State := clearDeficits (releaseKept { s with slice := s.slice + 1 })

theorem sliceUnit_runs {s : State} (h : 10000 * (s.slice + 1) ≤ s.refNs) :
    exec .sliceUnit s =
      .next ((topUp (sliceBegun s)).queues.foldl (fun s q => sliceTake q s) (topUp (sliceBegun s))) := by
  rw [exec_sliceUnit, execSliceUnit, if_neg (by omega)]
  rfl

theorem sliceUnit_early {s : State} (h : s.refNs < 10000 * (s.slice + 1)) : Stutters .sliceUnit s := by
  rw [Stutters, exec_sliceUnit, execSliceUnit, if_pos h]

theorem sliceUnit_counts {s : State} (h : 10000 * (s.slice + 1) ≤ s.refNs) :
    Completes .sliceUnit s fun t => t.slice = s.slice + 1 :=
  ⟨_, sliceUnit_runs h, (foldl_keepsForm (fun (s : State) (q : Queue) => sliceTake_keepsForm q s) _ _).2⟩

/-- A queue whose next blocks all fit takes no room. -/
theorem sliceTake_none {q : Queue} {s : State} (h : ∀ g ∈ gridsOf s q, dispatchable s q g = true → servable s q g = true) :
    sliceTake q s = s := by
  have hnone : (gridsOf s q).find? (fun g => dispatchable s q g && !servable s q g) = none := by
    refine List.find?_eq_none.mpr fun g hg hpick => ?_
    obtain ⟨hwork, hfit⟩ := Bool.and_eq_true_iff.mp hpick
    rw [h g hg hwork] at hfit
    cases hfit
  rw [sliceTake, hnone]
  split <;> rfl

theorem foldl_sliceTake_none {s : State} (l : List Queue)
    (h : ∀ q ∈ l, ∀ g ∈ gridsOf s q, dispatchable s q g = true → servable s q g = true) :
    l.foldl (fun s q => sliceTake q s) s = s := by
  induction l with
  | nil => rfl
  | cons q l ih =>
    rw [List.foldl_cons, sliceTake_none (h q List.mem_cons_self)]
    exact ih fun x hx => h x (List.mem_cons_of_mem _ hx)

theorem sliceUnit_tops {s : State} (hdue : 10000 * (s.slice + 1) ≤ s.refNs)
    (h : ∀ q ∈ (topUp (sliceBegun s)).queues, ∀ g ∈ gridsOf (topUp (sliceBegun s)) q,
      dispatchable (topUp (sliceBegun s)) q g = true → servable (topUp (sliceBegun s)) q g = true) :
    exec .sliceUnit s = .next (topUp (sliceBegun s)) := by
  rw [sliceUnit_runs hdue, foldl_sliceTake_none _ h]

/-! ### DRAIN_EXPIRY -/

section
variable {r : BlockRef} {s : State} (hblk : BlockIn r s)
include hblk

theorem drainExpiry_none (h : s.blk.draining = none) : Stutters (.drainExpiry r) s := by
  rw [Stutters, exec_drainExpiry, execDrainExpiry, withBlock_here hblk, h]

theorem drainExpiry_some {t : Nat} (h : s.blk.draining = some t) :
    exec (.drainExpiry r) s =
      if t ≤ s.refNs then .next { s with blk := { s.blk with draining := none, saving := true } } else .next s := by
  rw [exec_drainExpiry, execDrainExpiry, withBlock_here hblk, h]

/-! ### BLOCK_SAVE -/

theorem blockSave_waits (h : s.blk.saving = false ∨ s.strands.all atSavePoint = false ∨ quietForSave s = false) :
    Stutters (.blockSave r) s := by
  rw [Stutters, exec_blockSave, execBlockSave, withBlock_here hblk]
  refine if_neg ?_
  simp only [Bool.and_eq_true]
  rintro ⟨⟨h1, h2⟩, h3⟩
  obtain h | h | h := h
  · rw [h1] at h; cases h
  · rw [h2] at h; cases h
  · rw [h3] at h; cases h

theorem blockSave_saves (hsaving : s.blk.saving = true) (hpoint : s.strands.all atSavePoint = true)
    (hquiet : quietForSave s = true) : exec (.blockSave r) s = .next (saveFocus s) := by
  rw [exec_blockSave, execBlockSave, withBlock_here hblk]
  exact if_pos (by rw [hsaving, hpoint, hquiet]; rfl)

end

theorem takeSave_worlds {s u : State} {w : World} {size : Nat} {x : Range} (h : takeSave s w size = some (x, u)) :
    u = { s with reserves := u.reserves, wld := u.wld, worlds := u.worlds } := by
  simp only [takeSave] at h
  split at h
  · obtain ⟨y, hy, hu⟩ := Option.map_eq_some_iff.mp h
    have hbefore : y.2 = { s with reserves := y.2.reserves } := by
      obtain hc | ⟨-, hr⟩ := Option.or_eq_some_iff.mp hy
      · obtain ⟨z, -, rfl⟩ := Option.map_eq_some_iff.mp hc
        rfl
      · rw [takeReserve] at hr
        split at hr
        · cases hr
        · obtain ⟨z, -, rfl⟩ := Option.map_eq_some_iff.mp hr
          rfl
    cases hu
    rw [hbefore]
    rfl
  · obtain ⟨y, hy, hu⟩ := Option.map_eq_some_iff.mp h
    obtain ⟨z, -, rfl⟩ := Option.map_eq_some_iff.mp hy
    cases hu
    rfl

/-- No section of a save area lies in its header. -/
theorem sectionOffsets_ge (at_ : Nat) (l : List Nat) : ∀ x ∈ sectionOffsets at_ l, at_ ≤ x := by
  induction l generalizing at_ with
  | nil => intro x hx; cases hx
  | cons n t ih =>
    intro x hx
    obtain rfl | hx := List.mem_cons.mp hx
    · exact Nat.le_refl _
    · have hround : at_ ≤ roundUp (at_ + n) 64 := by
        rw [roundUp, ceilDiv]
        omega
      exact hround.trans (ih _ x hx)

theorem saveSections_outside {s : State} {g : Grid} {b : Block} {size : Nat} :
    ∀ x ∈ saveSections s g b size, 256 ≤ x.1 := by
  intro x hx
  rw [saveSections] at hx
  obtain ⟨⟨⟨⟨o, n⟩, next⟩, k⟩, hk, hx⟩ := List.mem_flatMap.mp hx
  have ho : 256 ≤ o := by
    have hzip := (List.mem_zipIdx hk).2.2
    have hmem : ((o, n), next) ∈ ((sectionOffsets 256 (sectionSizes g b)).zip (sectionSizes g b)).zip
        ((sectionOffsets 256 (sectionSizes g b)).drop 1 ++ [size]) := by
      rw [hzip]
      exact List.getElem_mem _
    exact sectionOffsets_ge 256 _ o (List.of_mem_zip (List.of_mem_zip hmem).1).1
  obtain hx | hx := List.mem_append.mp hx
  · obtain ⟨⟨y, i⟩, -, rfl⟩ := List.mem_map.mp hx
    exact Nat.le_add_right_of_le ho
  · obtain ⟨i, -, rfl⟩ := List.mem_map.mp hx
    exact Nat.le_add_right_of_le (Nat.le_add_right_of_le ho)

/-- The places of the header. -/
def headPlaces (r : Range) : List Nat := (List.range 256).map (r.base + ·)

/-- The bytes of a save area's header at their places. -/
def headWrites (g : Grid) (b : Block) (r : Range) (s : State) : List (Nat × Byte) :=
  (headPlaces r).zip (leBytes 256 (saveHeader s g b).toNat)

theorem headPlaces_length (g : Grid) (b : Block) (r : Range) (s : State) :
    (headPlaces r).length = (leBytes 256 (saveHeader s g b).toNat).length := by
  rw [headPlaces, List.length_map, List.length_range, length_leBytes]

theorem writeSave_mem (g : Grid) (b : Block) (r : Range) (s : State) :
    (writeSave g b r s).mem = Memory.writeAt (Memory.writeAt s.mem (headWrites g b r s))
      ((saveSections s g b r.len).map fun x => (r.base + x.1, x.2)) := by
  rw [headWrites, headPlaces, writeSave, putPlaces_mem]
  dsimp only
  rw [putPlaces_mem]

/-- The header of a save area stands at its base. -/
theorem writeSave_header {g : Grid} {b : Block} {r : Range} {s : State} (hw : Memory.wf s.mem = true) :
    Memory.readBytes (writeSave g b r s).mem r.base 256 = leBytes 256 (saveHeader s g b).toNat := by
  have hlen := headPlaces_length g b r s
  have hkeys : (headWrites g b r s).map (·.1) = headPlaces r := List.map_fst_zip (Nat.le_of_eq hlen)
  have hnodup : ((headWrites g b r s).map (·.1)).Nodup := by
    rw [hkeys]
    exact List.nodup_range.map fun i j h => Nat.add_left_cancel h
  have hsections : ∀ i, i < 256 → r.base + i ∉ ((saveSections s g b r.len).map fun x => (r.base + x.1, x.2)).map (·.1) := by
    intro i hi hmem
    rw [List.map_map] at hmem
    obtain ⟨x, hx, hxi⟩ := List.mem_map.mp hmem
    have := saveSections_outside x hx
    have hxi : r.base + x.1 = r.base + i := hxi
    omega
  have hread : ∀ i (h : i < 256), Memory.read (writeSave g b r s).mem (r.base + i)
      = (leBytes 256 (saveHeader s g b).toNat)[i]'(by rw [length_leBytes]; exact h) := by
    intro i h
    rw [writeSave_mem, Memory.read_writeAt_other _ _ _ (Memory.wf_writeAt _ _ hw) (hsections i h)]
    refine Memory.read_writeAt_mem _ _ _ _ hw hnodup (List.mem_iff_getElem.mpr ⟨i, ?_, ?_⟩)
    · rw [headWrites, List.length_zip, hlen, Nat.min_self, length_leBytes]
      exact h
    · simp only [headWrites, List.getElem_zip, headPlaces, List.getElem_map, List.getElem_range]
  rw [readBytes_eq_map]
  refine List.ext_getElem (by rw [List.length_map, List.length_range, length_leBytes]) fun i h1 h2 => ?_
  rw [List.length_map, List.length_range] at h1
  rw [List.getElem_map, List.getElem_range, hread i h1]

end Machine

end Sys2Proof

/-! ## A block is saved and restored (R333 to R336) -/

namespace Sys2Proof

namespace Machine

/-! ### BLOCK_SAVE -/

/-- The grid of a block that is saved keeps the save. -/
def keepSave (id : Nat) (v : SavedBlock) (x : Grid) : Grid := if x.id = id then { x with saved := x.saved ++ [v] } else x

theorem saveFocus_eq {s u : State} {x : Range} (h : takeSave s s.wld (saveTotal (sectionSizes s.grd s.wholeBlock)) = some (x, u)) :
    saveFocus s = (removeBlock s.grd.id s.blk.id (writeSave s.grd s.wholeBlock x u)).mapGrids
      (keepSave s.grd.id ⟨savedBlock u.clock s.wholeBlock, x.base, saveTotal (sectionSizes s.grd s.wholeBlock), s.blk.core, u.clock⟩) := by
  rw [saveFocus]
  simp only [h]
  rfl

theorem removeBlock_gone (g b : Nat) (s : State) : BlockGone ⟨g, b⟩ (removeBlock g b s) := by
  intro x hx hsame
  have hx : x ∈ s.dropBlock.blocks.filter fun x => !(x.grid = g && x.id = b) := hx
  have hout := (List.mem_filter.mp hx).2
  simp only [hsame.1, hsame.2, decide_true, Bool.and_self, Bool.not_true] at hout
  cases hout

theorem removeBlock_grd (g b : Nat) (s : State) : (removeBlock g b s).grd = s.grd := rfl

theorem writeSave_grd (g : Grid) (b : Block) (r : Range) (s : State) : (writeSave g b r s).grd = s.grd := by
  rw [writeSave, putPlaces_grd]
  dsimp only
  rw [putPlaces_grd]

theorem saveFocus_saves {r : BlockRef} {s u : State} {x : Range} (hblk : BlockIn r s)
    (h : takeSave s s.wld (saveTotal (sectionSizes s.grd s.wholeBlock)) = some (x, u)) (hw : Memory.wf s.mem = true) :
    BlockGone r (saveFocus s)
      ∧ Memory.readBytes (saveFocus s).mem x.base 256 = leBytes 256 (saveHeader u s.grd s.wholeBlock).toNat
      ∧ ∃ g, (saveFocus s).grid r.grid = some g ∧ ∃ v ∈ g.saved, v.block.id = r.block ∧ v.area = x.base
        ∧ v.size = saveTotal (sectionSizes s.grd s.wholeBlock) := by
  obtain ⟨-, hgrid, hid, hlive, hgid, -⟩ := hblk
  obtain ⟨rg, rb⟩ := r
  have hu := takeSave_worlds h
  rw [saveFocus_eq h]
  refine ⟨?_, ?_, keepSave s.grd.id ⟨savedBlock u.clock s.wholeBlock, x.base, saveTotal (sectionSizes s.grd s.wholeBlock),
    s.blk.core, u.clock⟩ s.grd, ?_, ⟨savedBlock u.clock s.wholeBlock, x.base, saveTotal (sectionSizes s.grd s.wholeBlock),
    s.blk.core, u.clock⟩, ?_, ?_, rfl, rfl⟩
  · have hgone := removeBlock_gone s.grd.id s.blk.id (writeSave s.grd s.wholeBlock x u)
    rw [hgid, hid] at hgone ⊢
    exact hgone
  · exact writeSave_header (by rw [hu]; exact hw)
  · rw [grid_mapGrids (fun y => by rw [keepSave]; split <;> rfl) (fun y => by rw [keepSave]; split <;> rfl)]
    have hfocus : (removeBlock s.grd.id s.blk.id (writeSave s.grd s.wholeBlock x u)).grid rg = some s.grd := by
      have hgrd : (removeBlock s.grd.id s.blk.id (writeSave s.grd s.wholeBlock x u)).grd = s.grd := by
        rw [removeBlock_grd, writeSave_grd, hu]
      rw [State.grid, State.allGrids, hgrd, if_pos hlive, List.find?_cons, decide_eq_true hgid]
    rw [hfocus, Option.map_some]
  · rw [keepSave, if_pos rfl]
    exact List.mem_append_right _ (List.mem_singleton.mpr rfl)
  · exact hid

/-! ### A strand goes on from its save -/

theorem nth_marked {marks : BitVec 64} (f : Word → Word) (l : List Word) {n k : Nat} (h : marks.getLsbD (n + k) = false) :
    nth 0 ((l.zipIdx n).map fun (x, j) => if marks.getLsbD j then f x else x) k = nth 0 l k := by
  induction l generalizing n k with
  | nil => rfl
  | cons x l ih =>
    rw [List.zipIdx_cons, List.map_cons]
    cases k with
    | zero =>
      show (if marks.getLsbD n then f x else x) = x
      exact if_neg (by rw [Nat.add_zero] at h; rw [h]; exact Bool.false_ne_true)
    | succ k => exact ih (n := n + 1) (k := k) (by rw [← h]; congr 1; omega)

/-- A strand at its slot, before its wait is looked at. -/
def resumedStrand (clock : DWord) (slot : Nat) (t : Strand) : Strand :=
  { mapMarked (fun d => clock.setWidth 32 + d) t with
    slot := slot, resumes := t.resumes + 1, age := clock.toNat, fetched := [] }

theorem resumedStrand_resumes (clock : DWord) (slot : Nat) (t : Strand) : Resumed t (resumedStrand clock slot t) := by
  refine ⟨rfl, rfl, rfl, rfl, rfl, fun k hk => ?_⟩
  exact nth_marked (n := 0) _ t.s (by rw [Nat.zero_add]; exact hk)

/-- How a strand stands, and over which lanes its instruction runs again, is no part of what is resumed. -/
theorem Resumed.stands {t x : Strand} (h : Resumed t x) (status : Status) (attempt : Option (BitVec 64)) :
    Resumed t { x with status := status, attempt := attempt } := h

theorem restoredStrand_resumes (clock : DWord) (slot : Nat) (t : Strand) : Resumed t (restoredStrand clock slot t) := by
  have h := resumedStrand_resumes clock slot t
  have heq : restoredStrand clock slot t =
      match (resumedStrand clock slot t).status with
      | .waiting (.sleep d) => { resumedStrand clock slot t with status := .waiting (.sleep (clock + d)) }
      | .waiting .bar => resumedStrand clock slot t
      | .waiting (.barp _ _ _) => resumedStrand clock slot t
      | .waiting .acquire => resumedStrand clock slot t
      | .waiting _ => { resumedStrand clock slot t with status := .ready }
      | .parked _ left => { resumedStrand clock slot t with status := .ready, attempt := some left }
      | _ => resumedStrand clock slot t := rfl
  rw [heq]
  generalize resumedStrand clock slot t = u at h ⊢
  cases u.status with
  | waiting w =>
    cases w with
    | sleep d => exact h.stands _ _
    | bar => exact h
    | barp op x d => exact h
    | acquire => exact h
    | _ => exact h.stands _ _
  | parked f left => exact h.stands _ _
  | _ => exact h

/-! ### BLOCK_RESTORE -/

theorem focusWorld_frame (key : Nat) (s : State) :
    s.focusWorld key = { s with wld := (s.focusWorld key).wld, worlds := (s.focusWorld key).worlds } := by
  simp only [State.focusWorld]
  split
  · rfl
  · split <;> rfl

/-- A grid that there is comes into focus, and no strand does. -/
theorem focusGrid_some {id : Nat} {s : State} (hst : s.st = .blank) (h : (s.grid id).isSome = true) :
    ∃ t, s.focusGrid id = some t ∧ t.st = .blank := by
  simp only [State.focusGrid]
  split
  · exact ⟨_, rfl, by rw [focusWorld_frame]; exact hst⟩
  · obtain ⟨g, hg⟩ := Option.isSome_iff_exists.mp h
    have hfind : s.dropBlock.dropGrid.grids.find? (fun g => g.id = id) = some g := hg
    rw [hfind]
    exact ⟨_, rfl, by rw [focusWorld_frame]; rfl⟩

theorem BlockGone.focus {r : BlockRef} {s : State} (h : BlockGone r s) :
    ¬ (s.blk.live = true ∧ s.blk.grid = r.grid ∧ s.blk.id = r.block) := by
  rintro ⟨hlive, hsame⟩
  refine h s.wholeBlock ?_ hsame
  rw [State.allBlocks, if_pos hlive]
  exact List.mem_cons_self

/-- A block that stands first among those that are not in focus comes into focus, and no strand does. -/
theorem focusBlock_first {r : BlockRef} {s : State} {b : Block} {rest : List Block}
    (hnot : ¬ (s.blk.live = true ∧ s.blk.grid = r.grid ∧ s.blk.id = r.block)) (hblocks : s.blocks = b :: rest) (hb : b.grid = r.grid ∧ b.id = r.block) (hgrid : (s.grid r.grid).isSome = true) :
    ∃ t, s.focusBlock r = some t ∧ t.blk = b ∧ t.st = .blank := by
  have hfind : s.dropBlock.blocks.find? (fun x => x.grid = r.grid && x.id = r.block) = some b := by
    have hpick : (fun x : Block => decide (x.grid = r.grid) && decide (x.id = r.block)) b = true := by
      dsimp only
      rw [decide_eq_true hb.1, decide_eq_true hb.2]
      rfl
    show List.find? _ (if s.blk.live then s.wholeBlock :: s.blocks else s.blocks) = some b
    rw [hblocks]
    split
    next hlive =>
      refine (List.find?_cons_of_neg (p := fun x : Block => decide (x.grid = r.grid) && decide (x.id = r.block)) fun h => ?_).trans (List.find?_cons_of_pos (p := fun x : Block => decide (x.grid = r.grid) && decide (x.id = r.block)) hpick)
      obtain ⟨h1, h2⟩ := Bool.and_eq_true_iff.mp h
      exact hnot ⟨hlive, of_decide_eq_true h1, of_decide_eq_true h2⟩
    next => exact List.find?_cons_of_pos (p := fun x : Block => decide (x.grid = r.grid) && decide (x.id = r.block)) hpick
  obtain ⟨t, ht, hst⟩ := focusGrid_some (s := s.dropBlock) (id := r.grid) rfl hgrid
  rw [State.focusBlock, if_neg hnot]
  simp only [hfind, ht]
  exact ⟨_, rfl, rfl, hst⟩

/-- A saved block as it returns to a core. -/
def restoredBlock (clock : DWord) (core : Nat) (slots : List Nat) (b : Block) : Block :=
  { b with core := core, strands := b.strands.map fun t => restoredStrand clock (nth 0 slots t.idx) t }

/-- A grid from which a save is gone. -/
def dropSave (id n : Nat) (x : Grid) : Grid :=
  if x.id = id then { x with saved := x.saved.filter fun y => y.block.id ≠ n } else x

/-- The device with the block among those that are not in focus. -/
def blockBack (g : Grid) (b : Block) (core : Nat) (s : State) : State :=
  (ranOn g.key core { s with blocks := b :: s.blocks, kept := s.kept.filter fun k => k.2 ≠ g.id }).mapGrids (dropSave g.id b.id)

theorem blockBack_frame (g : Grid) (b : Block) (core : Nat) (s : State) :
    let t := blockBack g b core s
    t.blocks = b :: s.blocks ∧ t.blk = s.blk ∧ t.st = s.st ∧ t.mem = s.mem ∧ ∀ id, t.grid id = (s.grid id).map (dropSave g.id b.id) := by
  intro t
  have hran := ranOn_worlds g.key core { s with blocks := b :: s.blocks, kept := s.kept.filter fun k => k.2 ≠ g.id }
  simp only [t, blockBack]
  refine ⟨?_, ?_, ?_, ?_, fun id => ?_⟩
  · show (ranOn _ _ _).blocks = _
    rw [hran]
  · show (ranOn _ _ _).blk = _
    rw [hran]
  · show (ranOn _ _ _).st = _
    rw [hran]
  · show (ranOn _ _ _).mem = _
    rw [hran]
  · rw [grid_mapGrids (fun y => by rw [dropSave]; split <;> rfl) (fun y => by rw [dropSave]; split <;> rfl)]
    exact congrArg _ (grid_congr (by rw [hran]) (by rw [hran]) id)

theorem refetchFaults_nil (s : State) : refetchFaults [] s = s := by
  rw [refetchFaults]
  split <;> rfl

theorem returnSave_worlds (key : Nat) (r : Range) (s : State) :
    returnSave key r s = { s with wld := (returnSave key r s).wld, worlds := (returnSave key r s).worlds } := by
  rw [returnSave]
  split <;> rfl

/-- A block without sealed slots is back on its core, in focus, with no strand in focus. -/
theorem restoreOn_back {r : BlockRef} {g : Grid} {v : SavedBlock} {core : Nat} {slots : List Nat} {s : State}
    (hgone : BlockGone r s) (hg : s.grid r.grid = some g) (hid : v.block.id = r.block) (hgrid : v.block.grid = r.grid)
    (hopen : sealedSlots v.block = []) : ∃ t, restoreOn false g v core slots s = .next t ∧ t.mem = s.mem ∧ t.st = .blank
      ∧ t.blk = restoredBlock (s.clockOf core) core slots v.block := by
  obtain ⟨hblocks, hblk, hst, hmem, hgrids⟩ := blockBack_frame g (restoredBlock (s.clockOf core) core slots v.block) core s
  have hnot := hgone.focus
  rw [← hblk] at hnot
  obtain ⟨u, hu, hublk, hust⟩ := focusBlock_first hnot hblocks ⟨hgrid, hid⟩ (by rw [hgrids, hg]; rfl)
  have hrefetch : refetchAll false (sealedSlots (restoredBlock (s.clockOf core) core slots v.block)) u = .ok ([], u) := by
    rw [show sealedSlots (restoredBlock (s.clockOf core) core slots v.block) = [] from hopen]
    rfl
  have hkey : (⟨g.id, (restoredBlock (s.clockOf core) core slots v.block).id⟩ : BlockRef) = r := by
    rw [grid_id hg, show (restoredBlock (s.clockOf core) core slots v.block).id = r.block from hid]
  have hfocus : (blockBack g (restoredBlock (s.clockOf core) core slots v.block) core s).focusBlock
      ⟨g.id, (restoredBlock (s.clockOf core) core slots v.block).id⟩ = some u := by
    rw [hkey]
    exact hu
  refine ⟨l1Clear core (returnSave g.key ⟨v.area, v.size⟩ u), ?_, ?_, ?_, ?_⟩
  · have hexec : restoreOn false g v core slots s =
        match (blockBack g (restoredBlock (s.clockOf core) core slots v.block) core s).focusBlock
          ⟨g.id, (restoredBlock (s.clockOf core) core slots v.block).id⟩ with
        | none => .next s
        | some s2 =>
          match refetchAll false (sealedSlots (restoredBlock (s.clockOf core) core slots v.block)) s2 with
          | .error f => .next (reportStage2 g.key f s)
          | .ok (l, s3) =>
            match l.find? fun x => x.2.code = codeAbsent with
            | some (_, f) => .fault (.noSuchAddress f.addr.toNat)
            | none => .next (refetchFaults l (l1Clear core (returnSave g.key ⟨v.area, v.size⟩ s3))) := rfl
    rw [hexec, hfocus]
    simp only [hrefetch, List.find?_nil, refetchFaults_nil]
  · show (returnSave g.key ⟨v.area, v.size⟩ u).mem = s.mem
    rw [returnSave_worlds, focusBlock_only hu, hmem]
  · show (returnSave g.key ⟨v.area, v.size⟩ u).st = .blank
    rw [returnSave_worlds, hust]
  · show (returnSave g.key ⟨v.area, v.size⟩ u).blk = _
    rw [returnSave_worlds, hublk]

end Machine



open Machine

/-- Settles O45. -/
theorem preemption : Obligations.Preemption := by
  refine ⟨fun s => ⟨sliceUnit_early, fun hdue => ⟨sliceUnit_counts hdue, fun h => ⟨_, sliceUnit_tops hdue h, rfl, rfl, rfl, ?_⟩⟩⟩,
    fun r s hblk => ⟨drainExpiry_none hblk, fun t ht => ⟨fun hdue => (drainExpiry_some hblk ht).trans (if_pos hdue),
      fun hearly => (drainExpiry_some hblk ht).trans (if_neg (Nat.not_le.mpr hearly))⟩⟩,
    fun r s hblk => ⟨blockSave_waits hblk, fun hsaving hpoint hquiet x u => ?_⟩,
    fun r s g q v core slots hg hid hq hunit hv hwork hturn hcore hintact hslots hlive hgrid hgone hopen => ?_⟩
  · refine List.map_congr_left fun q hq => ?_
    by_cases h : q.raised ≤ s.slice + 1 ∧ queueHasWork (sliceBegun s) q = true
    · exact (if_pos (by rw [Bool.and_eq_true]; exact ⟨decide_eq_true h.1, h.2⟩)).trans (if_pos h).symm
    · refine (if_neg fun h' => h ?_).trans (if_neg h).symm
      rw [Bool.and_eq_true] at h'
      exact ⟨of_decide_eq_true h'.1, h'.2⟩
  · intro size hsave hw hfits
    exact ⟨_, blockSave_saves hblk hsaving hpoint hquiet, saveFocus_saves hblk hsave hw⟩
  · have hvid : v.block.id = r.block := by simpa using List.find?_some hv
    obtain ⟨t, hback, hmem, hst, hblk⟩ := restoreOn_back (s := visit q s) (core := core) (slots := slots) hgone hg hvid hgrid hopen
    refine ⟨t, ?_, hmem, t.wholeBlock, ?_, ?_⟩
    · rw [exec_blockRestore, execBlockRestore, restore]
      have hopen : ¬ ((r.block ≠ r.block || !dispatchable s q g) = true) := by simp [hwork]
      simp only [hg, hq, hunit, hv, if_neg hopen, hcore, hturn, hintact, hslots, hback, Bool.not_true, Bool.false_eq_true, if_false]
    · rw [State.allBlocks, if_pos (by rw [hblk]; exact hlive)]
      exact List.mem_cons_self
    · have hwhole : t.wholeBlock = restoredBlock ((visit q s).clockOf core) core slots v.block := by
        rw [State.wholeBlock, State.strands, hst, hblk]
        rfl
      rw [hwhole]
      refine ⟨hgrid, hvid, rfl, rfl, rfl, rfl, rfl, List.length_map _, fun x hx => ?_⟩
      obtain ⟨y, hy, rfl⟩ := List.mem_map.mp hx
      exact ⟨y, hy, restoredStrand_resumes _ _ y⟩

end Sys2Proof

/-! ## The completions of the matrix engine (R159, R162 to R169, R173, R192) -/

namespace Sys2Proof

namespace Machine

theorem exec_mmaStart (b s) : exec (.mmaStart b) s = execMmaStart b s := rfl

theorem exec_mmaRetire (b s) : exec (.mmaRetire b) s = execMmaRetire b s := rfl

theorem exec_oldaComplete (b x s) : exec (.oldaComplete b x) s = execOldaComplete b x s := rfl

theorem exec_oldwComplete (b x s) : exec (.oldwComplete b x) s = execOldwComplete b x s := rfl

theorem exec_adrnComplete (b x s) : exec (.adrnComplete b x) s = execAdrnComplete b x s := rfl

theorem exec_orelComplete (b n s) : exec (.orelComplete b n) s = execOrelComplete b n s := rfl

/-! ### An operation that ends -/

/-- What stays of the block when an operation leaves block issue order. -/
theorem dropMOp_frame (m : MOp) (s : State) :
    (dropMOp m s).blk.mops = s.blk.mops.filter (fun x => x.seq ≠ m.seq) ∧ (dropMOp m s).blk.slots = s.blk.slots
      ∧ (dropMOp m s).blk.tiles = s.blk.tiles ∧ (dropMOp m s).blk.scratch = s.blk.scratch ∧ (dropMOp m s).mem = s.mem :=
  ⟨rfl, rfl, rfl, rfl, rfl⟩

theorem dropMOp_gone (m : MOp) (s : State) : ∀ e ∈ (dropMOp m s).blk.mops, e.seq ≠ m.seq := fun e he => by
  rw [(dropMOp_frame m s).1] at he
  simpa using (List.mem_filter.mp he).2

theorem mop_seq {b : Block} {n : Nat} {m : MOp} (h : b.mop n = some m) : m.seq = n := by
  rw [Block.mop] at h
  simpa using List.find?_some h

theorem mop_mem {b : Block} {n : Nat} {m : MOp} (h : b.mop n = some m) : m ∈ b.mops := List.mem_of_find?_eq_some h

/-! ### MMA -/

theorem firstMma_mem {b : Block} {p : MOp → Bool} {m : MOp} (h : firstMma b p = some m) : m ∈ b.mops :=
  List.mem_of_find?_eq_some h

section
variable {r : BlockRef} {s : State} (hblk : BlockIn r s)
include hblk

theorem mmaStart_first {m : MOp} {zc na nb : Bool} {d a w fmt ks : Nat} (hm : firstMma s.blk (fun m => !m.started) = some m)
    (hwhat : m.what = .mma zc na nb d a w fmt ks) :
    exec (.mmaStart r) s =
      if mmaHeld s.blk m d || !s.blk.mmaEnd.ule s.clock then .next s
      else
        let ends := s.clock + BitVec.ofNat 64 (if m.dead then 0 else (mmaIn s.blk a w fmt ks).cycles)
        .next { s with blk := { s.blk.setMOp { m with started := true, ends := ends } with mmaEnd := ends } } := by
  rw [exec_mmaStart, execMmaStart, withBlock_here hblk, hm]
  simp only [hwhat]

/-- What an MMA that retires does to its tile and the block's operations. -/
def retired (m : MOp) (zc na nb : Bool) (d a w fmt ks : Nat) (s : State) : State :=
  dropMOp m { s with blk := retireTile s.free m d ((mmaIn s.blk a w fmt ks).tile zc (na != nb)) s.blk }

theorem mmaRetire_waits {m : MOp} (hm : firstMma s.blk (fun m => m.started) = some m) (h : s.clock.toNat < m.ends.toNat) :
    Stutters (.mmaRetire r) s := by
  rw [Stutters, exec_mmaRetire, execMmaRetire, withBlock_here hblk, hm]
  refine if_pos ?_
  rw [Bool.not_eq_true', BitVec.ule]
  exact decide_eq_false (by omega)

theorem mmaRetire_first {m : MOp} {zc na nb : Bool} {d a w fmt ks : Nat} (hm : firstMma s.blk (fun m => m.started) = some m)
    (hwhat : m.what = .mma zc na nb d a w fmt ks) (hends : m.ends.toNat ≤ s.clock.toNat) :
    (m.dead = true → exec (.mmaRetire r) s = .next (dropMOp m s))
    ∧ (m.dead = false → (mmaIn s.blk a w fmt ks).poisoned zc (s.blk.tile d) = 0 →
        exec (.mmaRetire r) s = .next (retired m zc na nb d a w fmt ks s)) := by
  have hdue : ¬ (!m.ends.ule s.clock) = true := by
    rw [Bool.not_eq_true', BitVec.ule]
    simpa using hends
  have hexec : exec (.mmaRetire r) s = if m.dead then .next (dropMOp m s) else
      if (mmaIn s.blk a w fmt ks).poisoned zc (s.blk.tile d) ≠ 0 ∧ s.grd.tolerant = false then
        mopFault m (faultAt 0x50 0) (dropMOp m s)
      else .next (dropMOp m (countPoison ((mmaIn s.blk a w fmt ks).poisoned zc (s.blk.tile d))
        { s with blk := retireTile s.free m d ((mmaIn s.blk a w fmt ks).tile zc (na != nb)) s.blk })) := by
    rw [exec_mmaRetire, execMmaRetire, withBlock_here hblk, hm]
    refine (if_neg hdue).trans ?_
    simp only [hwhat]
  refine ⟨fun hdead => hexec.trans (if_pos hdead), fun hdead hclean => ?_⟩
  rw [hexec, if_neg (by rw [hdead]; exact Bool.false_ne_true), if_neg (fun h => h.1 hclean), hclean]
  rfl

end

/-- An element of a tile that is made of its elements. -/
theorem tile_at {f : Nat → Nat → Word} {p : List Nat} {i j : Nat} (hi : i < 32) (hj : j < 128) :
    Tile.at_ ⟨(List.range 32).map fun i => (List.range 128).map fun j => f i j, p⟩ i j = f i j := by
  rw [Tile.at_]
  dsimp only
  rw [nth_map 0 [] (fun i => (List.range 128).map fun j => f i j) (List.range 32) i (by rw [List.length_range]; exact hi),
    nth_map 0 0#32 _ (List.range 128) j (by rw [List.length_range]; exact hj), nth_eq_getElem _ _ _ (by rw [List.length_range]; exact hi),
    nth_eq_getElem _ _ _ (by rw [List.length_range]; exact hj), List.getElem_range, List.getElem_range]

/-- Element (i, j) that an MMA writes over a tile (R100). -/
def mmaValue (x : MmaIn) (zc na nb : Bool) (c : Tile) (i j : Nat) : Word :=
  BitVec.ofNat 32 (fpFma fp32 0 false (x.scale i j) (intToFp fp32 0 (if na = nb then x.dot i j else - x.dot i j))
    (if zc ∨ c.poison.contains (128 * i + j) = true then 0 else (c.at_ i j).toNat))

theorem result_eq (x : MmaIn) (zc na nb : Bool) (c : Tile) (i j : Nat) :
    x.result zc (na != nb) c i j = mmaValue x zc na nb c i j := by
  have hflip : (if (na != nb) = true then - x.dot i j else x.dot i j) = if na = nb then x.dot i j else - x.dot i j := by
    cases na <;> cases nb <;> rfl
  have hold : (if (zc || c.poison.contains (128 * i + j)) = true then 0 else (c.at_ i j).toNat)
      = if zc ∨ c.poison.contains (128 * i + j) = true then 0 else (c.at_ i j).toNat := by
    simp only [Bool.or_eq_true]
  rw [MmaIn.result, mmaValue, hold]
  simp only [hflip]

theorem mixedTile_at (free : Nat) (c u : Tile) {i j : Nat} (hi : i < 32) (hj : j < 128) :
    (mixedTile free c u).at_ i j = 0 ∨ (mixedTile free c u).at_ i j = c.at_ i j ∨ (mixedTile free c u).at_ i j = u.at_ i j := by
  rw [mixedTile, tile_at hi hj]
  dsimp only
  split
  · exact .inl rfl
  · split
    · exact .inr (.inl rfl)
    · exact .inr (.inr rfl)

/-- The tile of a retired MMA, and the block's other tiles. -/
theorem retireTile_tiles (free : Nat) (m : MOp) (d : Nat) (f : Tile → Tile) (b : Block) :
    (retireTile free m d f b).tile d
        = (match m.under with | none => f (b.tile d) | some u => mixedTile free (f (b.tile d)) (f u))
      ∧ ∀ k, k ≠ d → (retireTile free m d f b).tile k = b.tile k := by
  rw [retireTile]
  cases m.under with
  | none =>
    refine ⟨by rw [tile_setTile, if_pos rfl], fun k hk => by rw [tile_setTile, if_neg hk]⟩
  | some u =>
    refine ⟨by rw [tile_setTile, if_pos rfl], fun k hk => ?_⟩
    rw [tile_setTile, if_neg hk]
    rfl

theorem retired_tiles (m : MOp) (zc na nb : Bool) (d a w fmt ks : Nat) (s : State) :
    let x := mmaIn s.blk a w fmt ks
    let c := s.blk.tile d
    (∀ i j, i < 32 → j < 128 → let y := ((retired m zc na nb d a w fmt ks s).blk.tile d).at_ i j
        (m.under = none → y = mmaValue x zc na nb c i j)
          ∧ ∀ u, m.under = some u → y = 0 ∨ y = mmaValue x zc na nb c i j ∨ y = mmaValue x zc na nb u i j)
      ∧ ∀ k, k ≠ d → (retired m zc na nb d a w fmt ks s).blk.tile k = s.blk.tile k := by
  intro x c
  obtain ⟨hself, hother⟩ := retireTile_tiles s.free m d (x.tile zc (na != nb)) s.blk
  have hdrop : ∀ k, (retired m zc na nb d a w fmt ks s).blk.tile k
      = (retireTile s.free m d (x.tile zc (na != nb)) s.blk).tile k := fun k => rfl
  refine ⟨fun i j hi hj => ⟨fun hunder => ?_, fun u hunder => ?_⟩, fun k hk => (hdrop k).trans (hother k hk)⟩
  · rw [hdrop, hself, hunder, MmaIn.tile, tile_at hi hj, result_eq]
  · rw [hdrop, hself, hunder]
    have hmixed := mixedTile_at s.free (x.tile zc (na != nb) c) (x.tile zc (na != nb) u) hi hj
    have hvalue : ∀ c : Tile, (x.tile zc (na != nb) c).at_ i j = mmaValue x zc na nb c i j := fun c => by
      rw [MmaIn.tile, tile_at hi hj, result_eq]
    rw [hvalue, hvalue] at hmixed
    exact hmixed

/-! ### What an operation has read -/

/-- Value k of what an operation reads: what it had read, or what stands at the place now. -/
def MOp.valueAt (m : MOp) (now : Nat → Word × Bool) (place : Nat → Nat) (k : Nat) : Word × Bool :=
  (m.got.lookup k).getD (now (place k))

theorem range_zip (l : List Nat) : (List.range l.length).zip l = (List.range l.length).map fun k => (k, nth 0 l k) := by
  refine List.ext_getElem (by simp) fun i h1 h2 => ?_
  have hi : i < l.length := by simpa using h1
  rw [List.getElem_zip, List.getElem_map, List.getElem_range, nth_eq_getElem _ _ _ hi]

/-- The reading of one place. -/
def MOp.readOne (m : MOp) (pick : Nat → Bool) (now : Nat → Word × Bool) (place : Nat → Nat) (k : Nat) :
    Option (Nat × Word × Bool) :=
  match m.got.lookup k with
  | some v => some (k, v)
  | none => if pick (place k) then some (k, now (place k)) else none

theorem reading_eq (m : MOp) (l : List Nat) (pick : Nat → Bool) (now : Nat → Word × Bool) :
    m.reading l pick now = (List.range l.length).filterMap (m.readOne pick now fun k => nth 0 l k) := by
  rw [MOp.reading, range_zip, List.filterMap_map]
  rfl

theorem readOne_some {m : MOp} {pick : Nat → Bool} {now : Nat → Word × Bool} {place : Nat → Nat} {k : Nat}
    {y : Nat × Word × Bool} (h : m.readOne pick now place k = some y) :
    y = (k, m.valueAt now place k) ∧ (m.got.lookup k = none → pick (place k) = true) := by
  rw [MOp.readOne] at h
  rw [MOp.valueAt]
  split at h
  next v hv =>
    cases h
    exact ⟨by rw [hv]; rfl, fun hn => by rw [hv] at hn; cases hn⟩
  next hv =>
    split at h
    next hp =>
      cases h
      exact ⟨by rw [hv]; rfl, fun _ => hp⟩
    next => cases h

/-- What is left to be read of a place. -/
theorem readOne_none {m : MOp} {pick : Nat → Bool} {now : Nat → Word × Bool} {place : Nat → Nat} {k : Nat} :
    m.readOne pick now place k = none ↔ m.got.lookup k = none ∧ pick (place k) = false := by
  rw [MOp.readOne]
  cases m.got.lookup k with
  | none => cases h : pick (place k) <;> simp
  | some v => simp

theorem mem_reading {m : MOp} {l : List Nat} {pick : Nat → Bool} {now : Nat → Word × Bool} {y : Nat × Word × Bool}
    (h : y ∈ m.reading l pick now) :
    y.1 < l.length ∧ y.2 = m.valueAt now (nth 0 l) y.1 ∧ (m.got.lookup y.1 = none → pick (nth 0 l y.1) = true) := by
  rw [reading_eq] at h
  obtain ⟨k, hk, hy⟩ := List.mem_filterMap.mp h
  obtain ⟨rfl, hpick⟩ := readOne_some hy
  exact ⟨List.mem_range.mp hk, rfl, hpick⟩

theorem reading_short {m : MOp} {l : List Nat} {pick : Nat → Bool} {now : Nat → Word × Bool} :
    (m.reading l pick now).length < l.length ↔ ∃ k, k < l.length ∧ m.got.lookup k = none ∧ pick (nth 0 l k) = false := by
  rw [reading_eq]
  conv_lhs => rhs; rw [← List.length_range (n := l.length)]
  rw [List.length_filterMap_lt_length_iff_exists]
  simp only [List.mem_range, readOne_none, exists_prop]

theorem reading_all {m : MOp} {l : List Nat} {pick : Nat → Bool} {now : Nat → Word × Bool}
    (h : ∀ k, ¬ (k < l.length ∧ m.got.lookup k = none ∧ pick (nth 0 l k) = false)) :
    m.reading l pick now = (List.range l.length).map fun k => (k, m.valueAt now (nth 0 l) k) := by
  rw [reading_eq]
  refine (List.filterMap_congr fun k hk => ?_).trans (congrFun List.filterMap_eq_map _)
  have hk := List.mem_range.mp hk
  cases hone : m.readOne pick now (fun k => nth 0 l k) k with
  | none => exact absurd ⟨hk, readOne_none.mp hone⟩ (h k)
  | some y => rw [(readOne_some hone).1]; rfl

end Machine

end Sys2Proof

/-! ## Loads, drains and releases complete (R162 to R165, R169, R192, R294) -/

namespace Sys2Proof

namespace Machine

/-! ### A slot that is filled -/

theorem fillSlot_frame (m : MOp) (n : Nat) (l : List Byte) (p : List Nat) (b : Block) :
    ((fillSlot m n l p b).slot n).bytes = l ∧ (∀ k, k ≠ n → (fillSlot m n l p b).slot k = b.slot k)
      ∧ (fillSlot m n l p b).mops = b.mops ∧ (fillSlot m n l p b).scratch = b.scratch := by
  refine ⟨?_, fun k hk => ?_, rfl, rfl⟩
  · rw [fillSlot, slot_setSlot, if_pos rfl]
  · rw [fillSlot, slot_setSlot, if_neg hk]

/-- A claimed slot that no later load fills holds contents. -/
theorem fillSlot_loaded {m : MOp} {n : Nat} {l : List Byte} {p : List Nat} {b : Block} (hstate : (b.slot n).state = 2)
    (hlast : ∀ e ∈ b.mops, e.seq ≤ m.seq) : ((fillSlot m n l p b).slot n).state = 3 := by
  have hlater : (b.mops.any fun e => e.seq > m.seq && e.what.loads.contains n) = false := by
    refine List.any_eq_false.mpr fun e he => ?_
    rw [decide_eq_false (Nat.not_lt.mpr (hlast e he))]
    exact Bool.false_ne_true
  rw [fillSlot, slot_setSlot, if_pos rfl, hlater, hstate]
  rfl

theorem gotBytes_map (n : Nat) (v : Nat → Word × Bool) :
    gotBytes ((List.range n).map fun k => (k, v k)) = (List.range n).map fun k => ((v k).1.setWidth 8, (v k).2) := by
  rw [gotBytes, List.map_map]
  rfl

/-! ### OLDA -/

/-- A byte of the scratchpad of the block in focus, with its poison, as a load keeps it. -/
def scratchByte (s : State) (p : Nat) : Word × Bool :=
  keptByte (Memory.read s.blk.scratch p) (s.blk.scratchPoison.contains p)

/-- The places of a tile in the scratchpad. -/
def tilePlaces (base n : Nat) : List Nat := (List.range n).map (base + ·)

theorem countPoison_zero (s : State) : countPoison 0 s = s := if_pos rfl

theorem nth_tilePlaces {base n k : Nat} (h : k < n) : nth 0 (tilePlaces base n) k = base + k := by
  rw [tilePlaces, nth_map 0 0 _ (List.range n) k (by rw [List.length_range]; exact h),
    nth_eq_getElem _ _ _ (by rw [List.length_range]; exact h), List.getElem_range]

theorem length_tilePlaces (base n : Nat) : (tilePlaces base n).length = n := by
  rw [tilePlaces, List.length_map, List.length_range]

/-- The block whose slots an OLDA has filled with the bytes that it has read. -/
def oldaFilled (m : MOp) (slot : Nat) (l : List (Byte × Bool)) (b : Block) : Block :=
  let fill := fun (k : Nat) (l : List (Byte × Bool)) => fillSlot m k (l.map (·.1)) (poisonPlaces l)
  if m.what.loads.length = 2 then fill (slot + 1) (l.drop 4096) (fill slot (l.take 4096) b) else fill slot (l.take 4096) b

section
variable {r : BlockRef} {s : State} (hblk : BlockIn r s) {n : Nat} {m : MOp} (hm : s.blk.mop n = some m)
include hblk hm

theorem oldaComplete_reads {slot base : Nat} {x : BitVec 8} (hwhat : m.what = .olda slot x base)
    (hheld : loadHeld s.blk m = false) (u : Sys2Proof.Units) :
    exec (.oldaComplete r ⟨n, u⟩) s =
      let got := m.reading (tilePlaces base (actExtent x)) (readsAt u 0) (scratchByte s)
      if got.length < actExtent x then .next { s with blk := s.blk.setMOp { m with got := got } }
      else .next (dropMOp m { s with blk := oldaFilled m slot (gotBytes got) s.blk }) := by
  rw [exec_oldaComplete, execOldaComplete, withBlock_here hblk]
  have hfree : ¬ loadHeld s.blk m = true := by rw [hheld]; exact Bool.false_ne_true
  simp only [hm, hwhat, if_neg hfree]
  rw [show ((List.range (actExtent x)).map (base + ·)).length = actExtent x from length_tilePlaces base _]
  have hloads : oldaFilled m slot = fun l b => oldaFilled m slot l b := rfl
  rw [hloads]
  simp only [oldaFilled, hwhat]
  rfl

end

/-- What an OLDA that has read all its bytes leaves in the slots. -/
theorem oldaFilled_slots {m : MOp} {slot base n : Nat} {x : BitVec 8} {b : Block} (hwhat : m.what = .olda slot x base)
    (v : Nat → Word × Bool) :
    let l := gotBytes ((List.range n).map fun k => (k, v k))
    let all := (List.range n).map fun k => (v k).1.setWidth 8
    let t := oldaFilled m slot l b
    (t.slot slot).bytes = all.take 4096 ∧ (x = 2 → (t.slot (slot + 1)).bytes = all.drop 4096)
      ∧ ((b.slot slot).state = 2 → (∀ e ∈ b.mops, e.seq ≤ m.seq) → (t.slot slot).state = 3)
      ∧ (∀ k, k ∉ m.what.loads → t.slot k = b.slot k) ∧ t.scratch = b.scratch ∧ t.mops = b.mops := by
  intro l all t
  have hall : l.map (·.1) = all := by
    rw [show l = _ from gotBytes_map n v, List.map_map]
    rfl
  have htake : (l.take 4096).map (·.1) = all.take 4096 := by rw [List.map_take, hall]
  have hdrop : (l.drop 4096).map (·.1) = all.drop 4096 := by rw [List.map_drop, hall]
  obtain ⟨hbytes, hother, hmops, hscratch⟩ := fillSlot_frame m slot ((l.take 4096).map (·.1)) (poisonPlaces (l.take 4096)) b
  by_cases hx : x = 2
  · have hloads : m.what.loads = [slot, slot + 1] := by rw [hwhat, MWhat.loads, if_pos hx]
    have ht : t = fillSlot m (slot + 1) ((l.drop 4096).map (·.1)) (poisonPlaces (l.drop 4096))
        (fillSlot m slot ((l.take 4096).map (·.1)) (poisonPlaces (l.take 4096)) b) :=
      if_pos (by rw [hloads]; rfl)
    obtain ⟨hbytes2, hother2, hmops2, hscratch2⟩ := fillSlot_frame m (slot + 1) ((l.drop 4096).map (·.1))
      (poisonPlaces (l.drop 4096)) (fillSlot m slot ((l.take 4096).map (·.1)) (poisonPlaces (l.take 4096)) b)
    have hne : slot ≠ slot + 1 := by omega
    rw [ht, hloads]
    refine ⟨?_, fun _ => hbytes2.trans hdrop, fun hstate hlast => ?_, fun k hk => ?_, hscratch2.trans hscratch,
      hmops2.trans hmops⟩
    · rw [hother2 _ hne, hbytes, htake]
    · rw [hother2 _ hne]
      exact fillSlot_loaded hstate hlast
    · simp only [List.mem_cons, List.not_mem_nil, or_false, not_or] at hk
      rw [hother2 k hk.2, hother k hk.1]
  · have hloads : m.what.loads = [slot] := by rw [hwhat, MWhat.loads, if_neg hx]
    have ht : t = fillSlot m slot ((l.take 4096).map (·.1)) (poisonPlaces (l.take 4096)) b :=
      if_neg (by rw [hloads]; exact fun h => by cases h)
    rw [ht, hloads]
    refine ⟨hbytes.trans htake, fun h => absurd h hx, fillSlot_loaded, fun k hk => ?_, hscratch, hmops⟩
    exact hother k (by simpa using hk)

/-! ### OLDW -/

section
variable {r : BlockRef} {s : State} (hblk : BlockIn r s) {n : Nat} {m : MOp} (hm : s.blk.mop n = some m)
include hblk hm

/-- A byte at its home L2, with its poison, as a load keeps it. -/
def homeKept (s : State) (p : Nat) : Word × Bool := keptByte (s.readByte p) (s.badByte p)

omit hblk hm in
theorem partsCheck_clean {parts : List LaneAcc} (hclean : ∀ a ∈ parts, badLines s a.key a.pas = []) (pick : Nat → Bool) :
    parts.foldl (fun s a => macCheck a.key (a.pas.filter pick) s) s = s := by
  induction parts with
  | nil => rfl
  | cons a l ih =>
    rw [List.foldl_cons, macCheck_clean (badLines_subset (hclean a List.mem_cons_self) fun x hx => (List.mem_filter.mp hx).1)]
    exact ih fun x hx => hclean x (List.mem_cons_of_mem _ hx)

theorem oldwComplete_reads {slot : Nat} {x : BitVec 8} {va : DWord} (hwhat : m.what = .oldw slot x va) (hparked : m.parked = false)
    (hheld : loadHeld s.blk m = false) (hclean : ∀ a ∈ m.parts, badLines s a.key a.pas = []) (u : Sys2Proof.Units) :
    exec (.oldwComplete r ⟨n, u⟩) s =
      let got := m.reading m.places (readsAt u 0) (homeKept s)
      if got.length < m.places.length then .next { s with blk := s.blk.setMOp { m with got := got } }
      else oldwEnds m slot x va (gotBytes got) s := by
  rw [exec_oldwComplete, execOldwComplete, withBlock_here hblk]
  have hfree : ¬ (m.parked || loadHeld s.blk m) = true := by rw [hparked, hheld]; exact Bool.false_ne_true
  simp only [hm, hwhat, if_neg hfree, partsCheck_clean hclean]
  rfl

end

/-- The block whose slot an OLDW has filled with a tile. -/
def oldwFilled (m : MOp) (slot : Nat) (t : List (Byte × Bool)) (s : State) : State :=
  { s with blk := fillSlot m slot (t.map (·.1)) (poisonPlaces t) s.blk }

theorem oldwEnds_clean {m : MOp} {slot : Nat} {x : BitVec 8} {va : DWord} {l : List (Byte × Bool)} {s : State}
    (h : (oldwTile x (openParts s.wld m.parts l)).1 = 0) :
    oldwEnds m slot x va l s = .next (dropMOp m (oldwFilled m slot (oldwTile x (openParts s.wld m.parts l)).2 s)) := by
  rw [oldwEnds]
  generalize oldwTile x (openParts s.wld m.parts l) = y at h
  obtain ⟨illegal, t⟩ := y
  obtain rfl : illegal = 0 := h
  exact if_neg fun h => h.1 rfl

theorem oldwEnds_faults {m : MOp} {slot : Nat} {x : BitVec 8} {va : DWord} {l : List (Byte × Bool)} {s : State}
    (h : (oldwTile x (openParts s.wld m.parts l)).1 ≠ 0) (hstrict : s.grd.tolerant = false) :
    oldwEnds m slot x va l s = mopFault m ⟨0x35, 0, va, 0, 0, 0⟩ (loadFails m.seq slot s) := by
  rw [oldwEnds]
  generalize oldwTile x (openParts s.wld m.parts l) = y at h
  obtain ⟨illegal, t⟩ := y
  exact if_pos ⟨h, hstrict⟩

/-! ### ADRN -/

/-- Element e of the tile as it stands, with its poison. -/
def tileElem (c : Tile) : Nat → Word × Bool := fun e => (c.at_ (e / 128) (e % 128), c.poison.contains e)

/-- What an ADRN has read after an event. -/
def drained (m : MOp) (u : Sys2Proof.Units) (c : Tile) : List (Nat × Word × Bool) :=
  m.reading (List.range 4096) (readsAt u 0) (tileElem c)

/-- How many poisoned elements an event of an ADRN reads. -/
def drainedBad (m : MOp) (u : Sys2Proof.Units) (c : Tile) : Nat :=
  ((drained m u c).filter fun y => y.2.2 && (m.got.lookup y.1).isNone).length

/-- The bytes that an event of an ADRN writes, by their offsets. -/
def drainWrites (m : MOp) (u : Sys2Proof.Units) (c : Tile) (base : Nat) (s : State) : List (Nat × Byte) :=
  if drainReady s m (drained m u c) then
    (drainBytes (drained m u c)).filter fun z => !m.put.contains z.1 && writesAt u 0 (base + z.1) else []

/-- The state after the bytes are written. -/
def drainStored (base : Nat) (l : List (Nat × Byte)) (s : State) : State :=
  chipWrite false (l.map fun z => (base + z.1, z.2)) s

theorem drained_elem {m : MOp} {u : Sys2Proof.Units} {c : Tile} {y : Nat × Word × Bool} (h : y ∈ drained m u c) :
    y.1 < 4096 ∧ y.2 = m.valueAt (tileElem c) id y.1 := by
  obtain ⟨hlt, hval, -⟩ := mem_reading h
  rw [List.length_range] at hlt
  refine ⟨hlt, ?_⟩
  rw [hval, MOp.valueAt, MOp.valueAt, nth_range _ _ hlt]
  rfl

section
variable {r : BlockRef} {s : State} (hblk : BlockIn r s) {n : Nat} {m : MOp} (hm : s.blk.mop n = some m) {d base : Nat}
  (hwhat : m.what = .adrn d base)
include hblk hm hwhat

theorem adrnComplete_faults {u : Sys2Proof.Units} {e : Nat} (he : e < 4096) (hnew : m.got.lookup e = none) (hpick : readsAt u 0 e = true)
    (hbad : e ∈ (s.blk.tile d).poison) (hstrict : s.grd.tolerant = false) :
    exec (.adrnComplete r ⟨n, u⟩) s = mopFault m ⟨0x50, 0, 0, 0, 0, 0⟩ (dropMOp m s) := by
  have hmem : (e, tileElem (s.blk.tile d) e) ∈ drained m u (s.blk.tile d) := by
    rw [drained, reading_eq, List.length_range]
    refine List.mem_filterMap.mpr ⟨e, List.mem_range.mpr he, ?_⟩
    rw [MOp.readOne]
    simp only [hnew, nth_range _ _ he, hpick, if_true]
  have hcount : drainedBad m u (s.blk.tile d) ≠ 0 := by
    rw [drainedBad]
    refine Nat.ne_of_gt (List.length_pos_of_mem (List.mem_filter.mpr ⟨hmem, ?_⟩))
    show ((s.blk.tile d).poison.contains e && _) = true
    rw [List.contains_iff_mem.mpr hbad, hnew]
    rfl
  rw [exec_adrnComplete, execAdrnComplete, withBlock_here hblk]
  simp only [hm, hwhat]
  exact if_pos ⟨hcount, hstrict⟩

/-- An ADRN that is not over keeps what it has read and which bytes it has written. -/
def drainGoesOn (m : MOp) (got : List (Nat × Word × Bool)) (put : List Nat) (s : State) : State :=
  { s with blk := s.blk.setMOp { m with got := got, put := put } }

theorem adrnComplete_writes {u : Sys2Proof.Units} (hclean : ∀ e, e < 4096 → (m.valueAt (tileElem (s.blk.tile d)) id e).2 = false) :
    exec (.adrnComplete r ⟨n, u⟩) s =
      let l := drainWrites m u (s.blk.tile d) base s
      if (m.put ++ l.map (·.1)).length = 16384 then .next (dropMOp m (drainStored base l s))
      else .next (drainGoesOn m (drained m u (s.blk.tile d)) (m.put ++ l.map (·.1)) (drainStored base l s)) := by
  have hnone : drainedBad m u (s.blk.tile d) = 0 := by
    rw [drainedBad, List.length_eq_zero_iff, List.filter_eq_nil_iff]
    intro y hy hbad
    obtain ⟨hlt, hval⟩ := drained_elem hy
    rw [hval, hclean _ hlt] at hbad
    cases hbad
  obtain ⟨seq, strand, pc, what, started, ends, dead, parked, parts, under, got, put⟩ := m
  obtain rfl : what = .adrn d base := hwhat
  rw [exec_adrnComplete, execAdrnComplete, withBlock_here hblk]
  simp only [hm]
  refine (if_neg fun h => h.1 hnone).trans ?_
  have hcount : ∀ v : State, countPoison (drainedBad ⟨seq, strand, pc, .adrn d base, started, ends, dead, parked, parts,
      under, got, put⟩ u (s.blk.tile d)) v = v := fun v => by rw [hnone, countPoison_zero]
  have hstored := hcount (drainStored base (drainWrites ⟨seq, strand, pc, .adrn d base, started, ends, dead, parked, parts,
    under, got, put⟩ u (s.blk.tile d) base s) s)
  rw [← hstored]
  rfl

end

/-! ### What a drain leaves in the scratchpad -/

/-- A write of bytes: each place reads as before, or as some entry of the list says. -/
theorem read_writeAt_some (l : List (Nat × Byte)) {m : Memory} (hw : Memory.wf m = true) (a : Nat) :
    (a ∉ l.map (·.1) ∧ Memory.read (Memory.writeAt m l) a = Memory.read m a) ∨ (a, Memory.read (Memory.writeAt m l) a) ∈ l := by
  induction l generalizing m with
  | nil => exact .inl ⟨List.not_mem_nil, rfl⟩
  | cons x t ih =>
    obtain ⟨k, b⟩ := x
    obtain ⟨hout, hread⟩ | hin := ih (Memory.wf_write m k b hw)
    · rw [show Memory.writeAt m ((k, b) :: t) = Memory.writeAt (Memory.write m k b) t from rfl, hread, Memory.read_write m k a b hw]
      by_cases hak : a = k
      · subst hak
        rw [if_pos rfl]
        exact .inr List.mem_cons_self
      · rw [if_neg hak]
        refine .inl ⟨?_, rfl⟩
        rw [List.map_cons, List.mem_cons, not_or]
        exact ⟨hak, hout⟩
    · exact .inr (List.mem_cons_of_mem _ hin)

/-- Byte k of the elements of a tile. -/
def drainByte (v : Nat → Word × Bool) (k : Nat) : Byte := nth 0 (leBytes 4 (v (k / 4)).1.toNat) (k % 4)

/-- What is drained of elements without poison: the bytes of each, by their offsets. -/
theorem mem_drainBytes {got : List (Nat × Word × Bool)} {v : Nat → Word × Bool} (hgot : ∀ y ∈ got, y.2 = v y.1 ∧ y.2.2 = false)
    {k : Nat} {b : Byte} : (k, b) ∈ drainBytes got ↔ k / 4 ∈ got.map (·.1) ∧ b = drainByte v k := by
  have helem : ∀ y ∈ got, ((k, b) ∈ ((List.range 4).map (4 * y.1 + ·)).zip (leBytes 4 (if y.2.2 then 0 else y.2.1.toNat))
      ↔ k / 4 = y.1 ∧ b = drainByte v k) := by
    intro y hy
    obtain ⟨hval, hclean⟩ := hgot y hy
    rw [hclean, if_neg Bool.false_ne_true]
    have hzip : ((List.range 4).map (4 * y.1 + ·)).zip (leBytes 4 y.2.1.toNat)
        = (List.range 4).map fun i => (4 * y.1 + i, nth 0 (leBytes 4 y.2.1.toNat) i) := rfl
    rw [hzip, List.mem_map]
    constructor
    · rintro ⟨i, hi, heq⟩
      obtain ⟨rfl, rfl⟩ := Prod.mk.inj heq
      have hi := List.mem_range.mp hi
      have hdiv : (4 * y.1 + i) / 4 = y.1 := by omega
      have hmod : (4 * y.1 + i) % 4 = i := by omega
      exact ⟨hdiv, by rw [drainByte, hdiv, hmod, hval]⟩
    · rintro ⟨hk, rfl⟩
      refine ⟨k % 4, List.mem_range.mpr (Nat.mod_lt _ (by omega)), ?_⟩
      rw [drainByte, hk, hval, ← hk, Nat.div_add_mod]
  rw [drainBytes, List.mem_flatMap]
  constructor
  · rintro ⟨y, hy, hmem⟩
    obtain ⟨hk, hb⟩ := (helem y hy).mp hmem
    exact ⟨List.mem_map.mpr ⟨y, hy, hk.symm⟩, hb⟩
  · rintro ⟨hk, hb⟩
    obtain ⟨y, hy, hyk⟩ := List.mem_map.mp hk
    exact ⟨y, hy, (helem y hy).mpr ⟨hyk.symm, hb⟩⟩

theorem length_drainBytes (got : List (Nat × Word × Bool)) : (drainBytes got).length = 4 * got.length := by
  induction got with
  | nil => rfl
  | cons y t ih =>
    rw [drainBytes, List.flatMap_cons, List.length_append, List.length_cons, List.length_zip, length_leBytes, List.length_map,
      List.length_range, show (List.flatMap _ t).length = (drainBytes t).length from rfl, ih]
    omega

section
variable {m : MOp} {u : Sys2Proof.Units} {c : Tile} {base : Nat} {s : State}
  (hclean : ∀ e, e < 4096 → (m.valueAt (tileElem c) id e).2 = false)
include hclean

theorem mem_drainWrites {k : Nat} {b : Byte} (h : (k, b) ∈ drainWrites m u c base s) :
    k < 16384 ∧ b = drainByte (m.valueAt (tileElem c) id) k := by
  have hmem : (k, b) ∈ drainBytes (drained m u c) := by
    rw [drainWrites] at h
    split at h
    · exact (List.mem_filter.mp h).1
    · cases h
  have hgot : ∀ y ∈ drained m u c, y.2 = m.valueAt (tileElem c) id y.1 ∧ y.2.2 = false := fun y hy => by
    obtain ⟨hlt, hval⟩ := drained_elem hy
    exact ⟨hval, by rw [hval]; exact hclean _ hlt⟩
  obtain ⟨hk, hb⟩ := (mem_drainBytes hgot).mp hmem
  obtain ⟨y, hy, hyk⟩ := List.mem_map.mp hk
  have := (drained_elem hy).1
  exact ⟨by omega, hb⟩

/-- Where a drain writes, the byte is that of the tile; everywhere else the scratchpad stays. -/
theorem drainStored_bytes (hw : Memory.wf s.blk.scratch = true) :
    let t := (drainStored base (drainWrites m u c base s) s).blk
    (∀ k, k < 16384 → t.scratchAt (base + k) = s.blk.scratchAt (base + k)
        ∨ t.scratchAt (base + k) = drainByte (m.valueAt (tileElem c) id) k)
      ∧ ∀ a, (a < base ∨ base + 16384 ≤ a) → t.scratchAt a = s.blk.scratchAt a := by
  intro t
  have hread : ∀ a, t.scratchAt a = s.blk.scratchAt a
      ∨ ∃ k, a = base + k ∧ k < 16384 ∧ t.scratchAt a = drainByte (m.valueAt (tileElem c) id) k := by
    intro a
    obtain ⟨-, hsame⟩ | hin := read_writeAt_some ((drainWrites m u c base s).map fun z => (base + z.1, z.2)) hw a
    · exact .inl hsame
    · obtain ⟨⟨k, b⟩, hk, heq⟩ := List.mem_map.mp hin
      obtain ⟨hlt, hb⟩ := mem_drainWrites hclean hk
      obtain ⟨ha, hbyte⟩ := Prod.mk.inj heq
      exact .inr ⟨k, ha.symm, hlt, hbyte.symm.trans hb⟩
  refine ⟨fun k hk => ?_, fun a ha => ?_⟩
  · obtain hsame | ⟨j, hj, -, hbyte⟩ := hread (base + k)
    · exact .inl hsame
    · obtain rfl : k = j := by omega
      exact .inr hbyte
  · obtain hsame | ⟨j, rfl, hj, -⟩ := hread a
    · exact hsame
    · omega

/-- A drain that reads and writes all at once. -/
theorem drainStored_all (hw : Memory.wf s.blk.scratch = true) (hput : m.put = []) (hends : m.ends.toNat ≤ s.clock.toNat)
    (hfirst : ∀ e ∈ s.blk.mops, e.seq < m.seq → ∀ x y, e.what ≠ .adrn x y) :
    (m.put ++ (drainWrites m .all c base s).map (·.1)).length = 16384
      ∧ ∀ k, k < 16384 → (drainStored base (drainWrites m .all c base s) s).blk.scratchAt (base + k)
        = drainByte (m.valueAt (tileElem c) id) k := by
  have hgot : drained m .all c = (List.range 4096).map fun k => (k, m.valueAt (tileElem c) (nth 0 (List.range 4096)) k) := by
    have h := reading_all (m := m) (l := List.range 4096) (pick := readsAt .all 0) (now := tileElem c)
      fun k hk => absurd hk.2.2 Bool.noConfusion
    rw [List.length_range] at h
    exact h
  have hlen : (drained m .all c).length = 4096 := by rw [hgot, List.length_map, List.length_range]
  have hready : drainReady s m (drained m .all c) = true := by
    have hnone : (s.blk.mops.any fun e => decide (e.seq < m.seq) && e.what matches .adrn _ _) = false := by
      refine List.any_eq_false.mpr fun e he h => ?_
      obtain ⟨hlt, hwhat⟩ := Bool.and_eq_true_iff.mp h
      split at hwhat
      next x y hxy => exact hfirst e he (of_decide_eq_true hlt) x y hxy
      next => cases hwhat
    rw [drainReady, hlen, BitVec.ule, decide_eq_true hends, Bool.true_and]
    refine Bool.and_eq_true_iff.mpr ⟨?_, rfl⟩
    rw [Bool.not_eq_true']
    exact hnone
  have hwrites : drainWrites m .all c base s = drainBytes (drained m .all c) := by
    rw [drainWrites, if_pos hready, hput]
    exact List.filter_eq_self.mpr fun _ _ => rfl
  refine ⟨?_, fun k hk => ?_⟩
  · rw [hput, List.nil_append, List.length_map, hwrites, length_drainBytes, hlen]
  · obtain ⟨hout, -⟩ | hin := read_writeAt_some ((drainWrites m .all c base s).map fun z => (base + z.1, z.2)) hw (base + k)
    · refine absurd ?_ hout
      have hclean' : ∀ y ∈ drained m .all c, y.2 = m.valueAt (tileElem c) id y.1 ∧ y.2.2 = false := fun y hy => by
        obtain ⟨hlt, hval⟩ := drained_elem hy
        exact ⟨hval, by rw [hval]; exact hclean _ hlt⟩
      have hmem : (k, drainByte (m.valueAt (tileElem c) id) k) ∈ drainWrites m .all c base s := by
        rw [hwrites]
        refine (mem_drainBytes hclean').mpr ⟨?_, rfl⟩
        rw [hgot, List.map_map]
        exact List.mem_map.mpr ⟨k / 4, List.mem_range.mpr (by omega), rfl⟩
      rw [List.map_map]
      exact List.mem_map.mpr ⟨_, hmem, rfl⟩
    · obtain ⟨⟨j, b⟩, hj, heq⟩ := List.mem_map.mp hin
      obtain ⟨-, hb⟩ := mem_drainWrites hclean hj
      obtain ⟨ha, hbyte⟩ := Prod.mk.inj heq
      obtain rfl : j = k := Nat.add_left_cancel ha
      exact hbyte.symm.trans hb

end

/-! ### OREL -/

section
variable {r : BlockRef} {s : State} (hblk : BlockIn r s) {n slot : Nat} {m : MOp} (hm : s.blk.mop n = some m)
  (hwhat : m.what = .orel slot)
include hblk hm hwhat

theorem orelComplete_runs : exec (.orelComplete r n) s =
    if s.blk.mops.any (fun e => e.seq < n && (e.what.reads.contains slot || e.what.loads.contains slot)) then .next s
    else .next (dropMOp m { s with blk := s.blk.setSlot slot .unclaimed }) := by
  rw [exec_orelComplete, execOrelComplete, withBlock_here hblk]
  simp only [hm, hwhat]

end

end Machine

open Machine

/-- Settles O46. -/
theorem matrixEvents : Obligations.MatrixEvents := by
  refine fun r s hblk => ⟨fun m zc na nb d a w fmt ks hm hwhat => ⟨fun hheld => ?_, fun hheld hidle => ?_⟩,
    fun m zc na nb d a w fmt ks hm hwhat => ⟨mmaRetire_waits hblk hm, fun hends hdead =>
        ⟨_, (mmaRetire_first hblk hm hwhat hends).1 hdead, rfl, dropMOp_gone m s⟩, fun hends hdead hclean =>
        ⟨_, (mmaRetire_first hblk hm hwhat hends).2 hdead hclean, ?_⟩⟩,
    fun n u m slot x base hm hwhat hheld => ⟨fun hleft => ?_, fun hall => ?_⟩,
    fun n u m slot x va hm hwhat hparked hheld hclean => ⟨fun hleft => ?_, fun hall hsound => ?_, fun hall hbad hstrict => ?_⟩,
    fun n u m d base hm hwhat => ⟨fun hbad hstrict => ?_, fun hclean hw => ⟨?_, fun hu hput hends hfirst => ?_⟩⟩,
    fun n m slot hm hwhat => ⟨fun hbefore => ?_, fun hbefore => ?_⟩⟩
  · refine (mmaStart_first hblk hm hwhat).trans (if_pos ?_)
    obtain h | h := hheld
    · rw [h]
      rfl
    · rw [BitVec.ule, decide_eq_false (Nat.not_le.mpr h)]
      exact Bool.or_true _
  · refine ⟨_, (mmaStart_first hblk hm hwhat).trans (if_neg ?_), rfl, ?_, rfl, rfl⟩
    · rw [hheld, BitVec.ule, decide_eq_true hidle]
      exact Bool.false_ne_true
    · exact mem_setMOp ⟨m, firstMma_mem hm, rfl⟩
  · obtain ⟨hself, hother⟩ := retired_tiles m zc na nb d a w fmt ks s
    exact ⟨hself, hother, dropMOp_gone m _, rfl⟩
  · have hshort := (reading_short (m := m) (l := tilePlaces base (actExtent x)) (pick := readsAt u 0) (now := scratchByte s)).mpr
      (by
        obtain ⟨k, hk, hnew, hpick⟩ := hleft
        rw [length_tilePlaces]
        exact ⟨k, hk, hnew, by rw [nth_tilePlaces hk]; exact hpick⟩)
    rw [length_tilePlaces] at hshort
    refine ⟨_, (oldaComplete_reads hblk hm hwhat hheld u).trans (if_pos hshort), rfl, rfl, rfl, _,
      mem_setMOp ⟨m, mop_mem hm, rfl⟩, (mop_seq hm : m.seq = n), rfl, fun y hy => ?_⟩
    obtain ⟨hlt, hval, -⟩ := mem_reading hy
    rw [length_tilePlaces] at hlt
    rw [hval, MOp.valueAt, nth_tilePlaces hlt]
    rfl
  · have hread : m.reading (tilePlaces base (actExtent x)) (readsAt u 0) (scratchByte s)
        = (List.range (actExtent x)).map fun k => (k, m.valueAt (scratchByte s) (base + ·) k) := by
      rw [reading_all, length_tilePlaces]
      · refine List.map_congr_left fun k hk => ?_
        rw [MOp.valueAt, MOp.valueAt, nth_tilePlaces (List.mem_range.mp hk)]
      · rintro k ⟨hk, hnew, hpick⟩
        rw [length_tilePlaces] at hk
        exact hall k ⟨hk, hnew, by rw [nth_tilePlaces hk] at hpick; exact hpick⟩
    have hexec := oldaComplete_reads hblk hm hwhat hheld u
    rw [hread] at hexec
    refine ⟨_, hexec.trans (if_neg ?_), ?_⟩
    · rw [List.length_map, List.length_range]
      exact Nat.lt_irrefl _
    · obtain ⟨hfirst, hsecond, hstate, hother, hscratch, -⟩ :=
        oldaFilled_slots (n := actExtent x) (b := s.blk) hwhat (m.valueAt (scratchByte s) (base + ·))
      exact ⟨hfirst, hsecond, hstate, hother, hscratch, rfl, dropMOp_gone m _⟩
  · have hshort := (reading_short (m := m) (l := m.places) (pick := readsAt u 0) (now := homeKept s)).mpr hleft
    refine ⟨_, (oldwComplete_reads hblk hm hwhat hparked hheld hclean u).trans (if_pos hshort), rfl, rfl, _,
      mem_setMOp ⟨m, mop_mem hm, rfl⟩, (mop_seq hm : m.seq = n), rfl, fun y hy => ?_⟩
    exact (mem_reading hy).2.1
  · have hexec := oldwComplete_reads hblk hm hwhat hparked hheld hclean u
    rw [reading_all hall] at hexec
    refine ⟨_, (hexec.trans (if_neg ?_)).trans (oldwEnds_clean hsound), ?_⟩
    · rw [List.length_map, List.length_range]
      exact Nat.lt_irrefl _
    · obtain ⟨hbytes, hother, -⟩ := fillSlot_frame m slot ((oldwTile x (openParts s.wld m.parts (gotBytes
        ((List.range m.places.length).map fun k => (k, m.valueAt (homeKept s) (nth 0 m.places) k))))).2.map (·.1))
        (poisonPlaces (oldwTile x (openParts s.wld m.parts (gotBytes
        ((List.range m.places.length).map fun k => (k, m.valueAt (homeKept s) (nth 0 m.places) k))))).2) s.blk
      exact ⟨hbytes, rfl, hother, dropMOp_gone m _⟩
  · have hexec := oldwComplete_reads hblk hm hwhat hparked hheld hclean u
    rw [reading_all hall] at hexec
    refine (hexec.trans (if_neg ?_)).trans (oldwEnds_faults hbad hstrict)
    rw [List.length_map, List.length_range]
    exact Nat.lt_irrefl _
  · obtain ⟨e, he, hnew, hpick, hpoison⟩ := hbad
    exact adrnComplete_faults hblk hm hwhat he hnew hpick hpoison hstrict
  · obtain ⟨hself, hother⟩ := drainStored_bytes (m := m) (u := u) (base := base) hclean hw
    have hexec := adrnComplete_writes hblk hm hwhat (u := u) hclean
    by_cases hdone : (m.put ++ (drainWrites m u (s.blk.tile d) base s).map (·.1)).length = 16384
    · exact ⟨_, hexec.trans (if_pos hdone), hself, hother, rfl⟩
    · exact ⟨_, hexec.trans (if_neg hdone), hself, hother, rfl⟩
  · subst hu
    rw [← mop_seq hm] at hfirst
    obtain ⟨hlen, hbytes⟩ := drainStored_all (base := base) hclean hw hput hends hfirst
    exact ⟨_, (adrnComplete_writes hblk hm hwhat hclean).trans (if_pos hlen), hbytes, dropMOp_gone m _⟩
  · obtain ⟨e, he, hlt, huses⟩ := hbefore
    refine (orelComplete_runs hblk hm hwhat).trans (if_pos (List.any_eq_true.mpr ⟨e, he, ?_⟩))
    rw [decide_eq_true hlt, Bool.true_and, Bool.or_eq_true, List.contains_iff_mem, List.contains_iff_mem]
    exact huses
  · refine ⟨_, (orelComplete_runs hblk hm hwhat).trans (if_neg fun hany => ?_), ?_, fun k hk => ?_, rfl⟩
    · obtain ⟨e, he, huses⟩ := List.any_eq_true.mp hany
      rw [Bool.and_eq_true, Bool.or_eq_true, List.contains_iff_mem, List.contains_iff_mem] at huses
      exact hbefore e he ⟨of_decide_eq_true huses.1, huses.2⟩
    · exact (slot_setSlot s.blk slot slot .unclaimed).trans (if_pos rfl)
    · exact (slot_setSlot s.blk slot k .unclaimed).trans (if_neg hk)

end Sys2Proof

/-! ## Comet packets start (R271, R272, R279, R288) -/

namespace Sys2Proof

namespace Machine

/-! ### The events that start a packet -/

/-- An event that starts packets takes those of its own kind, and of the kinds that exist no other. -/
theorem startsFrom_of_mem {e : (PacketSource → Instr) × Nat} (he : e ∈ packetKinds) :
    ∃ kinds : Nat → Bool, (∀ p s, exec (e.1 p) s = startFrom p kinds s) ∧ kinds e.2 = true
      ∧ ∀ k, k ≠ e.2 → k ≤ 7 → kinds k = false := by
  simp only [packetKinds, List.mem_cons, List.not_mem_nil, or_false] at he
  rcases he with rfl | rfl | rfl | rfl | rfl | rfl | rfl | rfl
  · exact ⟨_, fun _ _ => rfl, rfl, fun k hk h7 => by simp only [Bool.or_eq_false_iff, decide_eq_false_iff_not]; omega⟩
  all_goals exact ⟨_, fun _ _ => rfl, rfl, fun k hk _ => decide_eq_false hk⟩

/-! ### What a packet decides at once (R274) -/

theorem early_malformed {feats : BitVec 256} {p : Packet} (hkind : p.kind ≤ 7) (h : packetMalformed feats p = true) :
    early feats p = some 0x10010000 := by
  rw [early]
  split
  · rfl
  · have hknown : ¬ p.kind ≥ 8 := by omega
    rw [if_neg hknown]
    rfl

theorem startPacket_early {p : Packet} {s : State} {w : Word} (h : early s.accepted p = some w) :
    startPacket p s = { s with packets := s.packets ++ [{ p with result := some w, begun := true }] } := by
  rw [startPacket, h]

theorem startPacket_on {p : Packet} {s : State} (h : early s.accepted p = none) :
    startPacket p s = { s with packets := s.packets ++ [sampleTargets p s] } := by
  rw [startPacket, h]

theorem sampleTargets_other {p : Packet} (h : p.kind ≠ 3) (s : State) : sampleTargets p s = p := if_pos h

/-! ### The targets of an MCAST (R288) -/

/-- The grid that an MCAST names lives. -/
def McastNames (p : Packet) (g : Grid) : Prop :=
  g.id % 2 ^ 32 = mcastGrid p % 2 ^ 32 ∧ g.key = p.key ∧ mcastGrid p ≠ 0

theorem sampleTargets_none {p : Packet} {s : State} (hkind : p.kind = 3) (h : ∀ g ∈ s.allGrids, ¬ McastNames p g) :
    sampleTargets p s = { p with result := some 0x10010000, begun := true } := by
  have hnone : (s.allGrids.find? fun g => g.id % 2 ^ 32 = mcastGrid p % 2 ^ 32 && g.key = p.key && mcastGrid p ≠ 0)
      = none := by
    refine List.find?_eq_none.mpr fun g hg hnames => h g hg ?_
    simpa [McastNames, and_assoc] using hnames
  rw [sampleTargets, if_neg (by simp [hkind]), hnone]
  rfl

theorem sampleTargets_some {p : Packet} {s : State} {g : Grid} (hkind : p.kind = 3)
    (h : (s.allGrids.find? fun g => g.id % 2 ^ 32 = mcastGrid p % 2 ^ 32 && g.key = p.key && mcastGrid p ≠ 0) = some g) :
    sampleTargets p s = { p with grid := g.id, targets := (mcastTargets p g s).1, refused := (mcastTargets p g s).2 } := by
  rw [sampleTargets, if_neg (by simp [hkind]), h]

theorem getLsbD_foldl_bits (l : List Nat) (a : BitVec 16) (k : Nat) (hk : k < 16) :
    (l.foldl (fun m n => m ||| (1#16 <<< n)) a).getLsbD k = (a.getLsbD k || decide (k ∈ l)) := by
  induction l generalizing a with
  | nil => simp
  | cons n l ih =>
    rw [List.foldl_cons, ih]
    have hbit : (1#16 <<< n).getLsbD k = decide (k = n) := by
      rw [BitVec.getLsbD_shiftLeft, decide_eq_true hk, BitVec.getLsbD_one]
      simp only [Bool.true_and, show (0 < 16) = True by simp, decide_true]
      rw [← decide_not, ← Bool.decide_and]
      exact decide_eq_decide.mpr (by omega)
    rw [BitVec.getLsbD_or, hbit, Bool.or_assoc, ← Bool.decide_or]
    simp only [List.mem_cons]

/-- The blocks that an MCAST's mask names. -/
def mcastNamed (p : Packet) : List Nat := (List.range 16).filter fun n => p.image.getLsbD (288 + n)

theorem mem_mcastNamed {p : Packet} {k : Nat} (hk : k < 16) : k ∈ mcastNamed p ↔ p.image.getLsbD (288 + k) = true := by
  rw [mcastNamed, List.mem_filter, List.mem_range]
  exact and_iff_right hk

/-- The ARMID that block k of the targets of an MCAST gives. -/
def mcastArmOf (p : Packet) (g : Grid) (s : State) (k : Nat) : Option (BitVec 16) :=
  mcastArm s g (p.f 320 32 + k) (p.f 192 32) (p.f 224 32) p.len

/-- A target that is named and takes the tile is one of the packet's. -/
theorem mem_mcastTargets {p : Packet} {g : Grid} {s : State} {k : Nat} (hk : k < 16) (x : Target) :
    x ∈ (mcastTargets p g s).1 ∧ x.n = k ↔ p.image.getLsbD (288 + k) = true ∧ ∃ id, mcastArmOf p g s k = some id
      ∧ x = ⟨k, p.f 320 32 + k, id, List.range ((p.len + 255) / 256), false⟩ := by
  have hmem : x ∈ (mcastTargets p g s).1 ↔ ∃ n ∈ mcastNamed p, ∃ id, mcastArmOf p g s n = some id
      ∧ (⟨n, p.f 320 32 + n, id, List.range ((p.len + 255) / 256), false⟩ : Target) = x := by
    refine List.mem_filterMap.trans ?_
    simp only [Option.map_eq_some_iff]
    exact Iff.rfl
  rw [hmem]
  constructor
  · rintro ⟨⟨n, hn, id, hid, rfl⟩, rfl⟩
    exact ⟨(mem_mcastNamed hk).mp hn, id, hid, rfl⟩
  · rintro ⟨hnamed, id, hid, rfl⟩
    exact ⟨⟨k, (mem_mcastNamed hk).mpr hnamed, id, hid, rfl⟩, rfl⟩

/-- A target that is named and does not take the tile is refused. -/
theorem mcastTargets_refused {p : Packet} {g : Grid} {s : State} {k : Nat} (hk : k < 16) :
    (mcastTargets p g s).2.getLsbD k = true ↔ p.image.getLsbD (288 + k) = true ∧ mcastArmOf p g s k = none := by
  have h : (mcastTargets p g s).2.getLsbD k
      = decide (k ∈ (mcastNamed p).filter fun n => (mcastArmOf p g s n).isNone) := by
    refine (getLsbD_foldl_bits _ _ _ hk).trans ?_
    rw [show BitVec.getLsbD 0 k = false from BitVec.getLsbD_zero, Bool.false_or]
    rfl
  rw [h, decide_eq_true_eq, List.mem_filter, mem_mcastNamed hk, Option.isNone_iff_eq_none]

/-! ### A packet that the scheduler has handed over -/

/-- The packet that a record becomes. -/
def handedPacket (h : Handed) (s : State) : Packet :=
  newPacket (s.packetCount + 1) h.key none h.image h.poster h.hostPosted h.die

/-- The state once the scheduler has handed a record over. -/
def handedOver (n : Nat) (s : State) : State :=
  { s with handed := s.handed.filter (fun x => x.num ≠ n), packetCount := s.packetCount + 1 }

theorem startHanded_runs {n : Nat} {kind : Nat → Bool} {s : State} {h : Handed}
    (hh : s.handed.find? (fun x => x.num = n) = some h) (hkind : kind (field h.image 8 8) = true)
    (hon : s.offline.contains h.die = false) :
    startFrom (.handed n) kind s = .next (startPacket (handedPacket h s) (handedOver n s)) := by
  rw [startFrom, startHanded, hh]
  simp only [hkind, hon]
  rfl

theorem startHanded_stutters {n : Nat} {kind : Nat → Bool} {s : State} {h : Handed}
    (hh : s.handed.find? (fun x => x.num = n) = some h)
    (hoff : s.offline.contains h.die = true ∨ kind (field h.image 8 8) = false) :
    startFrom (.handed n) kind s = .next s := by
  rw [startFrom, startHanded, hh]
  dsimp only
  rw [if_pos]
  rcases hoff with hoff | hkind
  · rw [hoff, Bool.or_true]
  · rw [hkind]
    rfl

/-! ### The packet at the head of a comet ring -/

/-- Where a comet queue's header and the slot at READ can be read, their check changes nothing. -/
theorem cometCheck_clean {s : State} {key index : Nat} {w : World} {q : CometQueue} {h : Header}
    {x : List Nat × BitVec 512} (hw : s.world key = some w) (hq : cometHeader s w index = some (q, h))
    (hslot : slotImage s key h h.read = some x) : cometCheck key index s = s := by
  rw [cometHeader] at hq
  split at hq
  · cases hq
  next q' hfind =>
    obtain ⟨h', hread, heq⟩ := Option.map_eq_some_iff.mp hq
    cases heq
    rw [world_key hw] at hread
    obtain ⟨y, hy, -⟩ := Option.map_eq_some_iff.mp hread
    obtain ⟨z, hz, -⟩ := Option.map_eq_some_iff.mp hslot
    rw [cometCheck, hw, Option.bind_some, hfind]
    show ringCheck key q.header s = s
    rw [ringCheck, headerCheck, moonCheck_clean hy, hread]
    exact moonCheck_clean hz

/-- The head of a comet ring, whose packet is there. -/
theorem ringHead_eq {s : State} {key index : Nat} {w : World} {q : CometQueue} {h : Header} {pas : List Nat}
    {x : BitVec 512} (hlocked : s.locked = true) (hw : s.world key = some w) (hq : cometHeader s w index = some (q, h))
    (hslot : slotImage s key h h.read = some (pas, x)) (hvalid : field x 0 8 = (h.valid h.read).toNat) :
    ringHead s key index = if s.offline.contains q.die then none
      else if packetAcq x && !earlierDone s key index then none else some ⟨q, h, pas, x⟩ := by
  rw [ringHead, if_pos hlocked, hw]
  simp only [hq, hslot, hvalid, ne_eq, not_true_eq_false, decide_false, Bool.false_or]

/-- What a ring's packet becomes when it starts: who posted it goes by the CPOST that claimed its slot. -/
def ringPacket (key index : Nat) (r : Ready) (s : State) : Packet :=
  newPacket (s.packetCount + 1) key (some index) r.image
    (ringPoster s (s.posts.find? fun y => y.key = key && y.queue = index && y.index = r.header.read) r.pas)
    (s.hostSlots.contains (r.pas.head?.getD 0)) r.entry.die

/-- The engine has taken the packet: it is counted, and the round of the engine's queues goes on from here. -/
def ringTaken (key index : Nat) (r : Ready) (s : State) : State :=
  { s with
    packetCount := s.packetCount + 1
    turns := ⟨r.entry.die, r.entry.engine, key, index⟩
      :: s.turns.filter fun t => !(t.die = r.entry.die && t.engine = r.entry.engine)
    ringWrites := s.ringWrites.filter fun x => some x.1 ≠ r.pas.head? }

/-- READ has risen, and the CPOST that posted the packet has its promise. -/
def ringAccepted (key index : Nat) (r : Ready) (s : State) : State :=
  match s.posts.find? fun y => y.key = key && y.queue = index && y.index = r.header.read with
  | some y => accept y (r.header.put 8 8 (r.header.read + 1) (ringTaken key index r s))
  | none => r.header.put 8 8 (r.header.read + 1) (ringTaken key index r s)

theorem writePlaces_stored_only (key : Nat) (outside : Bool) (l : List (Nat × Byte)) (s : State) :
    let t := writePlaces key outside l s
    t.packetCount = s.packetCount ∧ t.packets = s.packets ∧ t.posts = s.posts ∧ Woken s.st t.st := by
  intro t
  have h := (writePlaces_stored key outside l s).1
  refine ⟨?_, ?_, ?_, h.2.1⟩ <;> simp only [t] <;> rw [h.1]

theorem accept_frame (x : PostRef) (s : State) :
    (accept x s).mem = s.mem ∧ (accept x s).packetCount = s.packetCount
      ∧ (accept x s).posts = s.posts.filter fun y => y.num ≠ x.num := ⟨rfl, rfl, rfl⟩

/-- The odd register of a CPOST's pair becomes a promise register (R279). -/
theorem accept_marks {x : PostRef} {s : State} (hfocus : InFocus x.strand s) (hthere : s.st.gone = false)
    (hreg : x.reg + 1 < 64) : (accept x s).st.marks.getLsbD (x.reg + 1) = true := by
  rw [accept]
  rw [(pokeStrand_wakes x.strand _).2.1.1]
  dsimp only
  rw [(mapStrandRef_st (s := { s with posts := s.posts.filter fun y => y.num ≠ x.num }) hfocus _ _).1,
    if_neg (by rw [hthere]; exact Bool.false_ne_true)]
  simp [hreg]

theorem ringAccepted_count (key index : Nat) (r : Ready) (s : State) :
    (ringAccepted key index r s).packetCount = s.packetCount + 1 := by
  have h := (writePlaces_stored_only r.header.key false
    ((r.header.places.drop 8).zip (leBytes 8 (r.header.read + 1))) (ringTaken key index r s)).1
  rw [ringAccepted]
  split
  · exact h
  · exact h

theorem ringAccepted_mem (key index : Nat) (r : Ready) (s : State) :
    (ringAccepted key index r s).mem = (r.header.put 8 8 (r.header.read + 1) s).mem := by
  have h : (r.header.put 8 8 (r.header.read + 1) (ringTaken key index r s)).mem
      = (r.header.put 8 8 (r.header.read + 1) s).mem := writePlaces_mem_congr _ _ _ rfl rfl
  rw [ringAccepted]
  split
  · exact h
  · exact h

theorem ringAccepted_posted {key index : Nat} {r : Ready} {s : State} {y : PostRef}
    (hy : (s.posts.find? fun y => y.key = key && y.queue = index && y.index = r.header.read) = some y) :
    (∀ z ∈ (ringAccepted key index r s).posts, z.num ≠ y.num)
      ∧ (InFocus y.strand s → s.st.gone = false → y.reg + 1 < 64 →
          (ringAccepted key index r s).st.marks.getLsbD (y.reg + 1) = true) := by
  have hwoken : Woken s.st (r.header.put 8 8 (r.header.read + 1) (ringTaken key index r s)).st :=
    (writePlaces_stored_only _ _ _ _).2.2.2
  rw [ringAccepted, hy]
  refine ⟨fun z hz => ?_, fun hfocus hthere hreg => accept_marks ?_ (hwoken.gone.trans hthere) hreg⟩
  · rw [(accept_frame _ _).2.2] at hz
    simpa using (List.mem_filter.mp hz).2
  · exact ⟨hwoken.here.trans hfocus.1, hwoken.ref.trans hfocus.2⟩

/-- A ready packet of the event's kind starts when its queue's turn comes, and not before. -/
theorem startRing_ready {key index : Nat} {kind : Nat → Bool} {s : State} {r : Ready}
    (hclean : cometCheck key index s = s) (hhead : ringHead s key index = some r)
    (hkind : kind (field r.image 8 8) = true) :
    startFrom (.ring key index) kind s = if ringTurn s r.entry key then
      .next (startPacket { ringPacket key index r s with num := (ringAccepted key index r s).packetCount }
        (ringAccepted key index r s)) else .next s := by
  have hs : (if s.locked then cometCheck key index s else s) = s := by rw [hclean]; exact ite_self s
  rw [startFrom, startRing]
  simp only [hs, hhead, hkind, Bool.not_true, Bool.false_or]
  cases ringTurn s r.entry key
  · rfl
  · rfl

theorem startRing_held {key index : Nat} {kind : Nat → Bool} {s : State}
    (hclean : cometCheck key index s = s) (hhead : ringHead s key index = none) :
    startFrom (.ring key index) kind s = .next s := by
  have hs : (if s.locked then cometCheck key index s else s) = s := by rw [hclean]; exact ite_self s
  rw [startFrom, startRing]
  simp only [hs, hhead]

/-- Whatever a packet decides when it starts, it stands among the packets with its fields. -/
theorem startPacket_stands (p : Packet) (s : State) :
    let t := startPacket p s
    t.mem = s.mem ∧ t.packetCount = s.packetCount ∧ t.posts = s.posts ∧ t.st = s.st
      ∧ PacketIs p.num (fun q => q.image = p.image ∧ q.key = p.key ∧ q.queue = p.queue ∧ q.die = p.die
          ∧ q.poster = p.poster) t := by
  refine ⟨rfl, rfl, rfl, rfl, _, List.mem_append_right _ (List.mem_singleton_self _), ?_⟩
  cases early s.accepted p with
  | some w => exact ⟨rfl, rfl, rfl, rfl, rfl, rfl⟩
  | none =>
    dsimp only
    rw [sampleTargets]
    split
    · exact ⟨rfl, rfl, rfl, rfl, rfl, rfl⟩
    · split
      · exact ⟨rfl, rfl, rfl, rfl, rfl, rfl⟩
      · exact ⟨rfl, rfl, rfl, rfl, rfl, rfl⟩

end Machine

open Machine

/-- Settles O47. -/
theorem packetsStart : Obligations.PacketsStart := by
  refine ⟨fun e he n h s hh hkind hon => ?_, fun e he n h s hh hoff => ?_,
    fun e he key index w q h pas x s hlocked hw hq hslot hvalid hkind => ?_⟩
  · obtain ⟨kinds, hexec, htakes, -⟩ := startsFrom_of_mem he
    have hruns := (hexec (.handed n) s).trans (startHanded_runs hh (hkind ▸ htakes) hon)
    have hk : (handedPacket h s).kind = e.2 := hkind
    have hlow : e.2 ≤ 7 := by
      simp only [packetKinds, List.mem_cons, List.not_mem_nil, or_false] at he
      rcases he with rfl | rfl | rfl | rfl | rfl | rfl | rfl | rfl <;> decide
    refine ⟨fun w hw => hruns.trans (congrArg _ (startPacket_early (p := handedPacket h s) (s := handedOver n s) hw)),
      fun hbad => early_malformed (hkind.trans_le hlow) hbad, fun hnone hne => ?_, fun hnone heq => ⟨fun hno => ?_, fun g hg => ?_⟩⟩
    · rw [hruns, startPacket_on (p := handedPacket h s) (s := handedOver n s) hnone, sampleTargets_other (p := handedPacket h s) (hk ▸ hne)]
      rfl
    · rw [hruns, startPacket_on (p := handedPacket h s) (s := handedOver n s) hnone, sampleTargets_none (p := handedPacket h s) (s := handedOver n s) (hk.trans heq) hno]
      rfl
    · have hfind : ((handedOver n s).allGrids.find? fun g => g.id % 2 ^ 32 = mcastGrid (handedPacket h s) % 2 ^ 32
          && g.key = (handedPacket h s).key && mcastGrid (handedPacket h s) ≠ 0) = some g := by
        rw [← hg]
        exact congrArg (List.find? · s.allGrids) (funext fun g => by simp [Bool.decide_and, Bool.and_assoc]; rfl)
      refine ⟨_, hruns.trans (congrArg Host.Outcome.next ((startPacket_on (p := handedPacket h s) (s := handedOver n s) hnone).trans
        (congrArg (fun q => { handedOver n s with packets := s.packets ++ [q] })
          (sampleTargets_some (p := handedPacket h s) (hk.trans heq) hfind)))), rfl, fun k hk => ?_⟩
      exact ⟨mcastTargets_refused hk, mem_mcastTargets hk⟩
  · obtain ⟨kinds, hexec, -, hother⟩ := startsFrom_of_mem he
    exact (hexec _ s).trans (startHanded_stutters hh (hoff.imp_right fun ⟨hne, hlow⟩ => hother _ hne.symm hlow))
  · obtain ⟨kinds, hexec, htakes, -⟩ := startsFrom_of_mem he
    have hclean := cometCheck_clean hw hq hslot
    have hhead := ringHead_eq hlocked hw hq hslot hvalid
    refine ⟨fun hheld => ?_, fun hfree => ?_⟩
    · by_cases hoff : s.offline.contains q.die = true
      · rw [if_pos hoff] at hhead
        exact (hexec _ s).trans (startRing_held hclean hhead)
      rw [if_neg hoff] at hhead
      split at hhead
      · exact (hexec _ s).trans (startRing_held hclean hhead)
      next hacq =>
        refine (hexec _ s).trans ((startRing_ready hclean hhead (hkind ▸ htakes)).trans (if_neg ?_))
        rcases hheld with ⟨ha, hd⟩ | hd | hturn
        · exact absurd (by rw [ha, hd]; rfl) hacq
        · exact absurd hd hoff
        · rw [hturn]
          exact Bool.false_ne_true
    · rw [not_or, not_or] at hfree
      obtain ⟨hacq, hoff, hturn⟩ := hfree
      rw [if_neg hoff, if_neg (by simpa using hacq)] at hhead
      refine ⟨_, (hexec _ s).trans ((startRing_ready hclean hhead (hkind ▸ htakes)).trans
        (if_pos (by simpa using hturn))), ?_⟩
      obtain ⟨hmem, hcount, hposts, hst, stands⟩ := startPacket_stands
        { ringPacket key index ⟨q, h, pas, x⟩ s with num := (ringAccepted key index ⟨q, h, pas, x⟩ s).packetCount }
        (ringAccepted key index ⟨q, h, pas, x⟩ s)
      rw [ringAccepted_count] at hcount
      refine ⟨hmem.trans (ringAccepted_mem _ _ _ _), hcount, ?_, fun y hy => ?_⟩
      · obtain ⟨p, hp, hnum, himage, hkey, hqueue, hdie, hposter⟩ := stands
        refine ⟨p, hp, hnum.trans (ringAccepted_count _ _ _ _), himage, hkey, hqueue, hdie,
          fun hnone => hposter.trans ?_, fun y hy => hposter.trans ?_⟩
        · show ringPoster s (s.posts.find? _) pas = _
          rw [hnone]
          rfl
        · show ringPoster s (s.posts.find? _) pas = _
          rw [hy]
          rfl
      · rw [hposts, hst]
        exact ringAccepted_posted (r := ⟨q, h, pas, x⟩) hy

end Sys2Proof

/-! ## Comet packets: how they begin and what their effects are (R274, R275, R277, R288 to R290) -/

namespace Sys2Proof

namespace Machine

/-! ### A packet among the packets -/

theorem packetIs_setPacket {n : Nat} {p q : Packet} {s u : State} {P : Packet → Prop}
    (hp : s.packets.find? (fun x => x.num = n) = some p) (hu : u.packets = s.packets) (hq : q.num = p.num) (hP : P q) :
    PacketIs n P (setPacket q u) := by
  have hnum : p.num = n := by simpa using List.find?_some hp
  refine ⟨q, ?_, hq.trans hnum, hP⟩
  refine List.mem_map.mpr ⟨p, hu ▸ List.mem_of_find?_eq_some hp, ?_⟩
  exact if_pos (decide_eq_true hq.symm)

theorem dropPacket_gone (n : Nat) (s : State) : ∀ x ∈ (dropPacket n s).packets, x.num ≠ n := fun x hx => by
  simpa using (List.mem_filter.mp hx).2

/-- The checks of an engine's access leave packets, grids and queues. -/
theorem engineCheck_frame {p : Packet} {k : Access} {a : DWord} {n : Nat} {s u : State}
    {parts : List (Nat × DWord × PagePart)} (h : engineCheck p k a n s = .ok parts u) :
    u.packets = s.packets ∧ u.queues = s.queues := by
  rw [engineCheck] at h
  split at h
  · cases h
  next w _ =>
    generalize (if p.hostPosted = true then plainBytes a n else n) = m at h
    dsimp only at h
    split at h
    · cases h
    next ps v x hcheck =>
      split at h
      · cases h
      · cases h
        have hv := (checkAccess_only hcheck).1.1
        exact ⟨by rw [State.setWorld]; show v.packets = _; rw [hv], by rw [State.setWorld]; show v.queues = _; rw [hv]⟩

theorem length_placesOf (parts : List (Nat × DWord × PagePart)) :
    (placesOf parts).map (·.2) = allPas parts := by
  rw [placesOf, allPas, List.map_flatMap]
  refine List.flatMap_congr fun x _ => ?_
  rw [List.map_map]
  exact List.map_id' _

theorem writesTo_places {parts : List (Nat × DWord × PagePart)} {l : List EData} (h : l.length = (allPas parts).length) :
    (writesTo parts l).map (·.pa) = allPas parts ∧ (writesTo parts l).map (·.data) = l := by
  have hlen : (placesOf parts).length = l.length := by rw [h, ← length_placesOf, List.length_map]
  constructor
  · rw [writesTo, List.map_map, ← length_placesOf]
    calc _ = ((placesOf parts).zip l).map ((·.2) ∘ Prod.fst) := rfl
      _ = _ := by rw [← List.map_map, List.map_fst_zip hlen.le]
  · rw [writesTo, List.map_map]
    calc _ = ((placesOf parts).zip l).map Prod.snd := rfl
      _ = l := List.map_snd_zip hlen.ge

/-! ### The course of a packet that is not decided -/

theorem completion_stalled {n : Nat} {p : Packet} {s : State} (hp : s.packets.find? (fun x => x.num = n) = some p)
    (h : p.stalled ≠ none) (u : Sys2Proof.Units) (e : Bool) : exec (.packetCompletion ⟨n, u⟩ e) s = .next s := by
  show execPacketCompletion ⟨n, u⟩ e s = .next s
  rw [execPacketCompletion, hp]
  exact if_pos (Option.isSome_iff_ne_none.mpr h)

/-- The whole of a packet's next step. -/
theorem completion_whole {n : Nat} {p : Packet} {s : State} (hp : s.packets.find? (fun x => x.num = n) = some p)
    (h : p.stalled = none) (e : Bool) : exec (.packetCompletion ⟨n, .all⟩ e) s = match p.result with
      | some w => if e then completeEarly p w s else complete p w s
      | none => if e then .next s else proceed p s := by
  show execPacketCompletion ⟨n, .all⟩ e s = _
  rw [execPacketCompletion, hp]
  simp only [h, Option.isSome_none, Bool.false_eq_true, if_false]
  cases p.result <;> rfl

theorem completion_proceeds {n : Nat} {p : Packet} {s : State} (hp : s.packets.find? (fun x => x.num = n) = some p)
    (h : p.stalled = none) (hr : p.result = none) : exec (.packetCompletion ⟨n, .all⟩ false) s = proceed p s := by
  rw [completion_whole hp h, hr]
  rfl

section
variable {p : Packet} {s : State} (hbegun : p.begun = false)
include hbegun

theorem proceed_waits (hw : acquireWaits p s = true) : proceed p s = .next s := by
  rw [proceed, hbegun, hw]
  rfl

variable (hw : acquireWaits p s = false)
include hw

theorem proceed_begins (hk : p.kind = 3 ∨ p.kind = 4 ∨ p.kind = 6) : proceed p s = beginPacket p s := by
  simp only [proceed, hbegun, hw, Bool.and_false, Bool.false_eq_true, and_false, if_false]
  exact if_pos hk

theorem proceed_decides (hk : ¬ (p.kind = 3 ∨ p.kind = 4 ∨ p.kind = 6)) {w : Word} {l : List EWrite} {u : State}
    (he : effectOf p s = .done w l u) :
    proceed p s = if p.kind = 7 then
        complete { p with result := some w, pending := l, declined := false } w
          (setPacket { p with result := some w, pending := l, declined := false } u)
      else .next (setPacket { p with result := some w, pending := l, declined := false } u) := by
  simp only [proceed, hbegun, hw, Bool.and_false, Bool.false_eq_true, and_false, if_false]
  rw [if_neg hk, he]
  rfl

end

/-! ### COPY1D and COPY2D (R274) -/

theorem copyRows_copied {p : Packet} (rows : List (DWord × DWord × Nat)) : ∀ {s z : State} {l : List EWrite}
    (out : List EWrite), RowsCopied p rows s l z → copyRows p rows out false s = .done 0 (out ++ l) z := by
  induction rows with
  | nil =>
    rintro s z l out ⟨rfl, rfl⟩
    rw [copyRows, List.append_nil]
    rfl
  | cons row rows ih =>
    obtain ⟨a, b, n⟩ := row
    rintro s z l out ⟨src, u, x, v, dst, y, m, hsrc, hdst, hafter, hgone, hgone', rfl, hrest⟩
    rw [copyRows]
    simp only [hsrc, hdst, hafter, hgone, hgone', Bool.or_false]
    rw [ih _ hrest, List.append_assoc]

theorem blurOverlap_apart {src : List Nat} {s : State} {l : List EWrite} (h : ∀ x ∈ l, x.pa ∉ src) :
    blurOverlap src s l = l := by
  rw [blurOverlap]
  refine (List.map_congr_left fun x hx => ?_).trans (List.map_id' _)
  rw [if_neg]
  simpa using h x hx

theorem copyEffect_copied {p : Packet} {s z : State} {l : List EWrite} (hk : p.kind ≤ 1)
    (h : RowsCopied p (copiedRows p) s l z) (hapart : ∀ x ∈ l, x.pa ∉ sourcePlaces p s) :
    effectOf p s = .done 0 l z := by
  rw [effectOf, if_pos hk, copyEffect]
  have hrows : rowsOf p = copiedRows p := rfl
  rw [hrows, copyRows_copied _ _ h, List.nil_append, Effect.blurred, blurOverlap_apart hapart]

/-- The effect of a packet that is neither a SIGNAL nor one that begins stands with it. -/
theorem decides_stands {n : Nat} {p : Packet} {s u : State} {w : Word} {l : List EWrite} {P : Packet → Prop}
    (hp : s.packets.find? (fun x => x.num = n) = some p) (hstalled : p.stalled = none) (hresult : p.result = none)
    (hbegun : p.begun = false) (hw : acquireWaits p s = false) (hk : ¬ (p.kind = 3 ∨ p.kind = 4 ∨ p.kind = 6))
    (h7 : p.kind ≠ 7) (he : effectOf p s = .done w l u) (hu : u.packets = s.packets)
    (hP : P { p with result := some w, pending := l, declined := false }) :
    Completes (.packetCompletion ⟨n, .all⟩ false) s fun t => t.mem = u.mem ∧ PacketIs n P t :=
  ⟨_, (completion_proceeds hp hstalled hresult).trans ((proceed_decides hbegun hw hk he).trans (if_neg h7)), rfl,
    packetIs_setPacket hp hu rfl hP⟩

theorem rowsCopied_packets {p : Packet} (rows : List (DWord × DWord × Nat)) : ∀ {s z : State} {l : List EWrite},
    RowsCopied p rows s l z → z.packets = s.packets := by
  induction rows with
  | nil => rintro s z l ⟨-, rfl⟩; rfl
  | cons row rows ih =>
    rintro s z l ⟨src, u, x, v, dst, y, m, hsrc, -, hafter, -, -, -, hrest⟩
    rw [ih hrest, (engineCheck_frame hafter).1, (engineCheck_frame hsrc).1]

/-! ### FILL and SEALMOVE -/

/-- The bytes of a FILL: its value, over and over. -/
def fillBytes (p : Packet) (n : Nat) : List EData :=
  plainData ((List.range n).map fun i => nth 0 (leBytes 8 (p.f 128 64)) (i % 8))

theorem fillEffect_filled {p : Packet} {s u : State} {dst : List (Nat × DWord × PagePart)} (hk : p.kind = 2)
    (h : engineCheck p .copyWrite (p.a 192) p.len s = .ok dst u) (hgone : linkGone u dst = false) :
    effectOf p s = .done 0 (writesTo dst (fillBytes p p.len)) u := by
  rw [effectOf, if_neg (by omega), if_pos hk, fillEffect]
  simp only [h, hgone]
  rfl

theorem fillBytes_at (p : Packet) {n i : Nat} (hi : i < n) :
    (fillBytes p n)[i]? = some (.known (nth 0 (leBytes 8 (p.f 128 64)) (i % 8)) false) := by
  rw [fillBytes, plainData, List.getElem?_map, List.getElem?_map, List.getElem?_range hi]
  rfl

section
variable {p : Packet} {s u v : State} {src dst : List (Nat × DWord × PagePart)} {w : World}
  {a b : List (BitVec 32 × Nat × Int)}
  (hk : p.kind = 5) (hsrc : engineCheck p .read (p.a 128) p.len s = .ok src u)
  (hdst : engineCheck p .write (p.a 192) p.len u = .ok dst v) (hw : v.world p.key = some w)
  (ha : sealedPlaces w src = some a) (hb : sealedPlaces w dst = some b)
include hk hsrc hdst hw ha hb

theorem sealmoveEffect_runs : effectOf p s = if a = b then .done 0 (blurOverlap (allPas src) v (writesTo dst (unread src))) v
    else .done (statusWord 5 0) [] v := by
  rw [effectOf, if_neg (by omega), if_neg (by omega), if_pos hk, sealmoveEffect]
  simp only [hsrc, hdst, hw, ha, hb]

end

theorem writesTo_pa {parts : List (Nat × DWord × PagePart)} {l : List EData} {x : EWrite} (h : x ∈ writesTo parts l) :
    x.pa ∈ allPas parts := by
  rw [writesTo, List.mem_map] at h
  obtain ⟨y, hy, rfl⟩ := h
  rw [← length_placesOf]
  exact List.mem_map_of_mem (List.of_mem_zip (a := y.1) (b := y.2) hy).1

/-! ### Packets that begin (R184, R277, R288 to R290) -/

theorem beginPacket_on {p q : Packet} {s u : State}
    (h : (if p.kind = 3 then beginMcast p s else if p.kind = 4 then beginReduce p s else beginIngest p s) = .on q u) :
    beginPacket p s = .next (setPacket { q with declined := false } u) := by
  rw [beginPacket, h]

theorem beginPacket_ends {p : Packet} {s : State} {e : Effect}
    (h : (if p.kind = 3 then beginMcast p s else if p.kind = 4 then beginReduce p s else beginIngest p s) = .ends e) :
    beginPacket p s = settle p e := by
  rw [beginPacket, h]

/-- An MCAST, a REDUCE or an INGEST whose checks pass begins. -/
theorem begins_stands {n : Nat} {p q : Packet} {s u : State} {P : Packet → Prop}
    (hp : s.packets.find? (fun x => x.num = n) = some p) (hstalled : p.stalled = none) (hresult : p.result = none)
    (hbegun : p.begun = false) (hw : acquireWaits p s = false) (hk : p.kind = 3 ∨ p.kind = 4 ∨ p.kind = 6)
    (h : (if p.kind = 3 then beginMcast p s else if p.kind = 4 then beginReduce p s else beginIngest p s) = .on q u)
    (hu : u.packets = s.packets) (hq : q.num = p.num) (hP : P { q with declined := false }) :
    Completes (.packetCompletion ⟨n, .all⟩ false) s fun t => t.mem = u.mem ∧ PacketIs n P t :=
  ⟨_, (completion_proceeds hp hstalled hresult).trans ((proceed_begins hbegun hw hk).trans (beginPacket_on h)), rfl,
    packetIs_setPacket (q := { q with declined := false }) hp hu hq hP⟩

/-- A packet as its decided effect leaves it. -/
def decided (p : Packet) (w : Word) (l : List EWrite) : Packet :=
  { p with
    result := some w, pending := l, begun := true, targets := [], data := [], declined := false
    wrote := p.wrote || (p.kind = 6 && w = 0 && p.pending.any fun x => decide (x.pa < Config.paSpace)) }

/-- One that ends at its beginning has its status at once. -/
theorem begins_ends {n : Nat} {p : Packet} {s u : State} {w : Word} {l : List EWrite} {P : Packet → Prop}
    (hp : s.packets.find? (fun x => x.num = n) = some p) (hstalled : p.stalled = none) (hresult : p.result = none)
    (hbegun : p.begun = false) (hw : acquireWaits p s = false) (hk : p.kind = 3 ∨ p.kind = 4 ∨ p.kind = 6)
    (h : (if p.kind = 3 then beginMcast p s else if p.kind = 4 then beginReduce p s else beginIngest p s)
      = .ends (.done w l u))
    (hu : u.packets = s.packets) (hP : P (decided p w l)) :
    Completes (.packetCompletion ⟨n, .all⟩ false) s fun t => t.mem = u.mem ∧ PacketIs n P t :=
  ⟨_, (completion_proceeds hp hstalled hresult).trans ((proceed_begins hbegun hw hk).trans (beginPacket_ends h)), rfl,
    packetIs_setPacket (q := decided p w l) hp hu rfl hP⟩

theorem beginMcast_on {p : Packet} {s u : State} {src : List (Nat × DWord × PagePart)}
    (h : engineCheck p .copyRead (p.a 128) p.len s = .ok src u) :
    beginMcast p s = .on { p with begun := true, data := unread src } u := by
  rw [beginMcast, h]

/-- A REDUCE onto a sealed page reads nothing (R184). -/
theorem beginReduce_sealed {p : Packet} {s u : State} {src : List (Nat × DWord × PagePart)} {g : FaultInfo} {k : Nat}
    (hsrc : engineCheck p .copyRead (p.a 128) p.len s = .ok src u)
    (hdst : engineCheck p .copyWrite (p.a 192) p.len s = .bad g k) (hsealed : sealedFault g = true)
    (hcode : g.code ≠ codeAbsent) :
    beginReduce p s = .ends (.done (statusWord 5 0) [] (sealedTold p g u)) := by
  have htarget : reduceTarget p s = some g := by rw [reduceTarget, hdst]
  rw [beginReduce]
  simp only [hsrc, htarget, Option.any_some, hsealed, if_true]
  rw [Option.getD_some, faultEnds, if_neg hcode, if_pos hsealed]

theorem sealedTold_packets (p : Packet) (f : FaultInfo) (s : State) : (sealedTold p f s).packets = s.packets := by
  have h := (recordForWorld_reported (pageKey p f.addr s) (plainRecord s.free codeSealedCopy 2 0 f.addr 0 0 0) s).1
  rw [sealedTold, h]

/-- A REDUCE whose contribution can be read goes on when its port has a key (R289). -/
theorem beginReduce_checked {p : Packet} {s u : State} {src : List (Nat × DWord × PagePart)}
    (hsrc : engineCheck p .copyRead (p.a 128) p.len s = .ok src u) (hgone : linkGone u src = false)
    (hdst : ∀ g k, engineCheck p .copyWrite (p.a 192) p.len s = .bad g k → sealedFault g = false) :
    beginReduce p s = if (nth Perigee.reset u.peri (Config.groupPort (p.f 288 16) % 16)).keyed = false then
        .ends (.done (statusWord 10 (16 + Config.groupPort (p.f 288 16) % 16)) [] u)
      else .on { p with begun := true, data := unread src } u := by
  have htarget : (reduceTarget p s).any sealedFault = false := by
    rw [reduceTarget]
    split
    next g k h => exact hdst g k h
    · rfl
  rw [beginReduce]
  simp only [hsrc, htarget, hgone, Bool.false_eq_true, if_false]

theorem beginIngest_on {p : Packet} {s u : State} {src dst : List (Nat × DWord × PagePart)}
    (h : ingestChecks p s = .on src dst u) :
    beginIngest p s = .on { p with begun := true, data := unread src, pending := writesTo dst (plainData (List.replicate p.len 0)) } u := by
  rw [beginIngest, h]

theorem ingestChecks_packets {p : Packet} {s u : State} {src dst : List (Nat × DWord × PagePart)}
    (h : ingestChecks p s = .on src dst u) : u.packets = s.packets := by
  rw [ingestChecks] at h
  dsimp only at h
  split at h
  · cases h
  next hsrc =>
    split at h
    · cases h
    split at h
    · cases h
    split at h
    · cases h
    split at h
    · cases h
    split at h
    · cases h
    next hdst =>
      split at h
      · cases h
      split at h
      · cases h
      · cases h
        rw [(engineCheck_frame hdst).1, (engineCheck_frame hsrc).1]

end Machine

end Sys2Proof

/-! ## Comet packets: what they read and write, and how their status is delivered (R274 to R279, R294) -/

namespace Sys2Proof

namespace Machine

/-! ### Units of what a packet reads -/

/-- Each place of the range that is asked for is in its unit. -/
theorem mem_engineUnits {range l : List Nat} {a : Nat} (hr : a ∈ range) (hl : a ∈ l) : a ∈ engineUnits range l := by
  refine List.mem_flatMap.mpr ⟨a, List.mem_filter.mpr ⟨hl, by simpa using hr⟩, ?_⟩
  rw [engineUnit]
  split
  · exact List.mem_map.mpr ⟨a % 8, List.mem_range.mpr (Nat.mod_lt _ (by decide)), by omega⟩
  · exact List.mem_singleton_self a

theorem value_readAt (u : List Nat) (s : State) (d : EData) : (d.readAt u s).value s = d.value s := by
  cases d with
  | known b bad => rfl
  | at_ k pa =>
    rw [EData.readAt]
    split <;> rfl

theorem readAt_nil (s : State) (d : EData) : d.readAt [] s = d := by cases d <;> rfl

theorem touches_nil (p : Packet) (s : State) : p.touches [] s = p := rfl

/-- What a packet has still to read meets no bad MAC. -/
def CleanSources (p : Packet) (s : State) : Prop :=
  ∀ j a, .at_ j a ∈ p.data ++ p.pending.map (·.data) → badLines s j [a] = []

theorem sourcesOf_clean {p : Packet} {s : State} (h : CleanSources p s) (u : List Nat) (k : Nat) :
    macCheck k (p.sourcesOf u k) s = s := by
  refine macCheck_clean (badLines_of_each fun a ha => ?_)
  obtain ⟨d, hd, hsome⟩ := List.mem_filterMap.mp ha
  cases d with
  | known b bad => cases hsome
  | at_ j pa =>
    dsimp only at hsome
    split at hsome
    next hkey =>
      cases hsome
      simp only [Bool.and_eq_true, decide_eq_true_eq] at hkey
      exact hkey.1 ▸ h j a hd
    · cases hsome

/-- A packet some of whose bytes have been read, as memory stands. -/
def Packet.readOff (p : Packet) (u : List Nat) (s : State) : Packet :=
  { p with data := p.data.map (EData.readAt u s), pending := p.pending.map fun x => { x with data := x.data.readAt u s } }

theorem readOff_nil (p : Packet) (s : State) : p.readOff [] s = p := by
  have hdata : p.data.map (EData.readAt [] s) = p.data := (List.map_congr_left fun d _ => readAt_nil s d).trans (List.map_id' _)
  have hpending : (p.pending.map fun x => { x with data := x.data.readAt [] s }) = p.pending :=
    (List.map_congr_left fun x _ => by rw [readAt_nil]).trans (List.map_id' _)
  rw [Packet.readOff, hdata, hpending]

theorem read_clean {p : Packet} {s : State} (h : CleanSources p s) (l : List Nat) :
    p.read l s = ((p.readOff (engineUnits p.sources l) s).touches (engineUnits p.sources l) s, s) := by
  have hfold : ∀ keys : List Nat,
      keys.foldl (fun s k => macCheck k (p.sourcesOf (engineUnits p.sources l) k) s) s = s := fun keys => by
    induction keys with
    | nil => rfl
    | cons k keys ih => rw [List.foldl_cons, sourcesOf_clean h, ih]
  rw [Packet.read]
  simp only [hfold]
  rfl

/-- Where nothing is still to be read of what is asked for, nothing is read. -/
theorem read_nothing {p : Packet} {l : List Nat} (h : engineUnits p.sources l = []) (s : State) : p.read l s = (p, s) := by
  have hnone : ∀ k, p.sourcesOf [] k = [] := fun k => by
    refine List.filterMap_eq_nil_iff.mpr fun d _ => ?_
    cases d with
    | known b bad => rfl
    | at_ j pa => simp
  have hfold : ∀ keys : List Nat, keys.foldl (fun s k => macCheck k (p.sourcesOf [] k) s) s = s := fun keys => by
    induction keys with
    | nil => rfl
    | cons k keys ih => rw [List.foldl_cons, hnone, macCheck_clean rfl, ih]
  rw [Packet.read]
  simp only [h, hfold]
  show ((p.readOff [] s).touches [] s, s) = _
  rw [readOff_nil, touches_nil]

theorem engineUnits_none {range l : List Nat} (h : ∀ a ∈ l, a ∉ range) : engineUnits range l = [] := by
  rw [engineUnits, List.filter_eq_nil_iff.mpr fun a ha => by simpa using h a ha, List.flatMap_nil]

/-! ### Units of what a packet writes -/

theorem performEWrites_nil (whole : List Nat) (s : State) : performEWrites whole [] s = s := rfl

theorem write_nothing {p : Packet} (h : p.pending = []) (s : State) : p.write [] s = (p, s) := by
  have hread : p.read (([] : List Nat) ++ p.sources.filter ([] : List Nat).contains) s = (p, s) := by
    refine read_nothing ?_ s
    rw [List.filter_eq_nil_iff.mpr fun a _ => by simp]
    rfl
  rw [Packet.write]
  simp only [h, List.map_nil, List.filter_nil, List.filterMap_nil, show engineUnits [] [] = [] from rfl, hread,
    performEWrites_nil, touches_nil]
  obtain ⟨⟩ := p
  obtain rfl := h
  simp

/-- What a packet is stays when units of what it writes are performed. -/
theorem write_frame (p : Packet) (l : List Nat) (s : State) :
    (p.write l s).1.num = p.num ∧ (p.write l s).1.poster = p.poster ∧ (p.write l s).1.image = p.image := by
  have htouch : ∀ (q : Packet) (u : List Nat) (s : State),
      (q.touches u s).num = q.num ∧ (q.touches u s).poster = q.poster ∧ (q.touches u s).image = q.image := fun q u s => by
    rw [Packet.touches]
    split <;> exact ⟨rfl, rfl, rfl⟩
  have hread : ∀ l s, (p.read l s).1.num = p.num ∧ (p.read l s).1.poster = p.poster ∧ (p.read l s).1.image = p.image :=
    fun l s => htouch _ _ _
  refine ⟨(htouch _ _ _).1.trans (hread _ _).1, (htouch _ _ _).2.1.trans (hread _ _).2.1, (htouch _ _ _).2.2.trans (hread _ _).2.2⟩

/-- Writes that carry other bytes to the same places under the same key ids are as clean, when what they have
still to read is. -/
theorem CleanWrites.carry {l m : List EWrite} {s : State} (h : CleanWrites l s)
    (hplaces : m.map (·.pa) = l.map (·.pa)) (hkeys : m.map (·.key) = l.map (·.key))
    (hread : ∀ x ∈ m, ∀ j a, x.data = .at_ j a → badLines s j [a] = []) : CleanWrites m s := by
  obtain ⟨hnodup, k, hk⟩ := h
  refine ⟨hplaces ▸ hnodup, k, fun x hx => ?_⟩
  have hpairs : m.map (fun x => (x.pa, x.key)) = l.map (fun x => (x.pa, x.key)) := by
    rw [← List.zip_map', ← List.zip_map', hplaces, hkeys]
  obtain ⟨y, hy, heq⟩ := List.mem_map.mp (hpairs ▸ List.mem_map_of_mem (f := fun x : EWrite => (x.pa, x.key)) hx)
  obtain ⟨hpa, hkey⟩ := Prod.mk.inj heq
  obtain ⟨h1, h2, h3, -⟩ := hk y hy
  exact ⟨hkey ▸ h1, hpa ▸ h2, hpa ▸ h3, hread x hx⟩

/-- A packet that holds no bytes beside its writes performs them all. -/
theorem write_written {p : Packet} {s : State} (hdata : p.data = []) (h : CleanWrites p.pending s)
    (hw : Memory.wf s.mem = true) : WrittenOut p.pending s (p.write (p.pending.map (·.pa)) s).2 := by
  obtain ⟨hnodup, key, hk⟩ := id h
  have hsources : CleanSources p s := fun j a ha => by
    rw [hdata, List.nil_append] at ha
    obtain ⟨x, hx, hat⟩ := List.mem_map.mp ha
    exact (hk x hx).2.2.2 j a hat
  have hall : ∀ x ∈ p.pending, (engineUnits (p.pending.map (·.pa)) (p.pending.map (·.pa))).contains x.pa = true := fun x hx => by
    have hmem : x.pa ∈ p.pending.map (·.pa) := List.mem_map_of_mem hx
    simpa using mem_engineUnits hmem hmem
  generalize hcarried : ((p.pending.filter fun x =>
      (engineUnits (p.pending.map (·.pa)) (p.pending.map (·.pa))).contains x.pa).filterMap fun x => x.data.place)
    ++ p.sources.filter (engineUnits (p.pending.map (·.pa)) (p.pending.map (·.pa))).contains = carried
  have hread := read_clean hsources carried
  generalize hu : engineUnits p.sources carried = u at hread
  have hpending : (p.read carried s).1.pending = p.pending.map fun x => { x with data := x.data.readAt u s } := by
    rw [hread, Packet.touches]
    split <;> rfl
  have hwhole : ((p.read carried s).1.pending.filter fun x =>
      (engineUnits (p.pending.map (·.pa)) (p.pending.map (·.pa))).contains x.pa) = (p.read carried s).1.pending := by
    refine List.filter_eq_self.mpr fun x hx => ?_
    rw [hpending] at hx
    obtain ⟨y, hy, rfl⟩ := List.mem_map.mp hx
    exact hall y hy
  have hstate : (p.write (p.pending.map (·.pa)) s).2
      = performEWrites (p.pending.map (·.pa)) (p.pending.map fun x => { x with data := x.data.readAt u s }) s := by
    rw [← hpending, ← hwhole, Packet.write]
    simp only [hcarried]
    rw [hread]
  have hclean : CleanWrites (p.pending.map fun x => { x with data := x.data.readAt u s }) s := by
    refine h.carry (by rw [List.map_map]; rfl) (by rw [List.map_map]; rfl) fun x hx j a hat => ?_
    obtain ⟨y, hy, rfl⟩ := List.mem_map.mp hx
    cases hd : y.data with
    | known b bad => rw [hd] at hat; cases hat
    | at_ i pa =>
      rw [hd, EData.readAt] at hat
      split at hat
      · cases hat
      · exact (hk y hy).2.2.2 j a (hd.trans hat)
  rw [hstate]
  obtain ⟨hsame, hbytes⟩ := performEWrites_written hclean hw (p.pending.map (·.pa))
  refine ⟨?_, fun x hx => ?_⟩
  · rw [List.map_map] at hsame
    exact hsame
  · exact (hbytes _ (List.mem_map_of_mem hx)).trans (congrArg Prod.fst (value_readAt u s x.data))

/-- Whether writes stand is a matter of memory alone. -/
theorem WrittenOut.of_mem {l : List EWrite} {s t u : State} (h : WrittenOut l s t) (hmem : u.mem = t.mem) : WrittenOut l s u := by
  obtain ⟨hsame, hbytes⟩ := h
  exact ⟨fun a ha => by rw [hmem]; exact hsame a ha, fun x hx => by rw [hmem]; exact hbytes x hx⟩

/-! ### Status (R276, R277, R279) -/

/-- A packet that no strand posted and that names no STATUS address completes when its writes are performed. -/
theorem complete_silent {p : Packet} {g : Option Nat} (hposter : p.poster = .memory g) (ha : p.a 64 = 0) (w : Word) (s : State) :
    ∃ t, complete p w s = .next t ∧ t.mem = (p.write (p.pending.map (·.pa)) s).2.mem ∧ ∀ x ∈ t.packets, x.num ≠ p.num := by
  obtain ⟨hnum, hp, himage⟩ := write_frame p (p.pending.map (·.pa)) s
  rw [complete]
  generalize p.write (p.pending.map (·.pa)) s = x at hnum hp himage ⊢
  obtain ⟨q, u⟩ := x
  dsimp only at hnum hp himage ⊢
  have hqa : q.a 64 = 0 := by rw [Packet.a, Packet.f, himage]; exact ha
  have hafter : ∀ s, afterStatus q s = s := fun s => by rw [afterStatus, hp, hposter]
  refine ⟨dropPacket q.num (setPacket q u), ?_, rfl, hnum ▸ dropPacket_gone _ _⟩
  rw [hafter, deliverStatus, hp, hposter]
  simp only [statusToMemory, hqa, if_true, performEWrites_nil, hafter]
  exact ite_self _

end Machine

end Sys2Proof

/-! ## Comet packets: status, SIGNAL, INGEST (R275 to R279, R290, R352, R353) -/

namespace Sys2Proof

namespace Machine

/-! ### A status that reaches its strand or its address -/

theorem afterStatus_strand {p : Packet} {r : StrandRef} {post : Nat} (h : p.poster = .strand r post) (s : State) :
    afterStatus p s = s := by rw [afterStatus, h]

theorem afterStatus_memory {p : Packet} {g : Option Nat} (h : p.poster = .memory g) (s : State) : afterStatus p s = s := by
  rw [afterStatus, h]

/-- A packet without writes delivers its status. -/
theorem complete_status {p : Packet} (hearly : p.early = false) (hpending : p.pending = []) (hlost : p.lost = 0) (w : Word)
    (s : State) : complete p w s = deliverStatus p w (setPacket p s) fun s => afterStatus p (dropPacket p.num s) := by
  have hword : finalWord p w = w := if_neg (by simp [hlost])
  rw [complete, hpending, List.map_nil, write_nothing hpending]
  dsimp only
  rw [hearly, hword]
  rfl

/-- The strand takes the status into the register that it was owed in. -/
def statusTaken (post : Nat) (w : Word) (t : Strand) : Strand :=
  match t.owed.find? fun o => o.post = post with
  | none => t
  | some o =>
    let t := t.sset o.reg w
    { t with owed := update (fun x => x.post = post) (fun x => { x with arrived := true }) t.owed }

theorem statusToStrand_eq (p : Packet) (r : StrandRef) (post : Nat) (w : Word) (s : State) :
    ∃ l, statusToStrand p r post w s
      = pokeStrand r (mapStrandRef r (fun _ t => statusTaken post w t) (statusTaken post w) { s with l1 := l }) := by
  rw [statusToStrand]
  cases coreOf s r with
  | none => exact ⟨s.l1, rfl⟩
  | some c =>
    dsimp only
    split
    · exact ⟨_, rfl⟩
    · exact ⟨s.l1, rfl⟩

theorem statusToStrand_taken {p : Packet} {r : StrandRef} {post : Nat} {w : Word} {s : State} {o : Owed}
    (hfocus : InFocus r s) (hthere : s.st.gone = false) (ho : s.st.owed.find? (fun x => x.post = post) = some o) :
    let t := statusToStrand p r post w s
    t.st.sget o.reg = w ∧ (∀ k, k ≠ o.reg → t.st.sget k = s.st.sget k) ∧ t.mem = s.mem := by
  intro t
  obtain ⟨l, heq⟩ := statusToStrand_eq p r post w s
  have hwakes := pokeStrand_wakes r (mapStrandRef r (fun _ t => statusTaken post w t) (statusTaken post w) { s with l1 := l })
  rw [← heq] at hwakes
  obtain ⟨hst, hmem⟩ := mapStrandRef_st (s := { s with l1 := l }) hfocus (fun _ t => statusTaken post w t) (statusTaken post w)
  rw [if_neg (by rw [hthere]; exact Bool.false_ne_true)] at hst
  have hregs : ∀ k, t.st.sget k = (statusTaken post w s.st).sget k := fun k => by
    rw [hwakes.2.1.1, hst]
    rfl
  have htaken : ∀ k, (statusTaken post w s.st).sget k = (s.st.sset o.reg w).sget k := fun k => by
    rw [statusTaken, ho]
    rfl
  refine ⟨by rw [hregs, htaken]; simp, fun k hk => by rw [hregs, htaken]; simp [hk], hwakes.mem.trans hmem⟩

/-- The status of a packet that a strand posted. -/
theorem complete_owed {p : Packet} {r : StrandRef} {post : Nat} {w : Word} {s : State} {o : Owed} (hearly : p.early = false)
    (hposter : p.poster = .strand r post) (hpending : p.pending = []) (hlost : p.lost = 0) (hfocus : InFocus r s)
    (hthere : s.st.gone = false) (ho : s.st.owed.find? (fun x => x.post = post) = some o) :
    ∃ t, complete p w s = .next t ∧ t.st.sget o.reg = w ∧ (∀ k, k ≠ o.reg → t.st.sget k = s.st.sget k) ∧ t.mem = s.mem
      ∧ ∀ x ∈ t.packets, x.num ≠ p.num := by
  obtain ⟨hreg, hother, hmem⟩ := statusToStrand_taken (p := p) (w := w) (s := setPacket p s) hfocus hthere ho
  refine ⟨dropPacket p.num (statusToStrand p r post w (setPacket p s)), ?_, hreg, hother, hmem, dropPacket_gone _ _⟩
  rw [complete_status hearly hpending hlost, deliverStatus, hposter]
  dsimp only
  rw [afterStatus_strand hposter]

/-- A record's packet that completes retires its record; the rest of a status stays. -/
theorem afterStatus_frame {p : Packet} (hposter : (∃ g, p.poster = .memory g) ∨ ∃ q order, p.poster = .record q order)
    (s : State) : (afterStatus p s).mem = s.mem ∧ (afterStatus p s).packets = s.packets
      ∧ ∀ q order, p.poster = .record q order → OneRetired q s (afterStatus p s) := by
  rcases hposter with ⟨g, hg⟩ | ⟨q, order, hq⟩
  · rw [afterStatus_memory hg]
    exact ⟨rfl, rfl, fun q order h => by rw [hg] at h; cases h⟩
  · have hafter : afterStatus p s = recordRetired q order s := by rw [afterStatus, hq]
    rw [hafter]
    refine ⟨rfl, rfl, fun q' order' h => ?_⟩
    rw [hq] at h
    cases h
    exact recordRetired_retires

theorem performEWrites_frame {l : List EWrite} {s : State} (h : CleanWrites l s) (whole : List Nat) :
    (performEWrites whole l s).queues = s.queues ∧ (performEWrites whole l s).worlds = s.worlds
      ∧ (performEWrites whole l s).wld = s.wld ∧ (performEWrites whole l s).packets = s.packets := by
  rcases eq_or_ne l [] with rfl | hne
  · exact ⟨rfl, rfl, rfl, rfl⟩
  · obtain ⟨k, m, heq⟩ := performEWrites_one h hne whole
    obtain ⟨-, -, hwld, hworlds, hqueues, -⟩ := writePlaces_frame k false (writtenOut l s) s
    rw [heq]
    exact ⟨hqueues, hworlds, hwld, (writePlaces_stored_only k false (writtenOut l s) s).2.1⟩

/-- Bytes that an engine carries go to their places, in their order. -/
theorem written_bytes {parts : List (Nat × DWord × PagePart)} {l : List (Byte × Bool)} {s t : State}
    (hlen : l.length = (allPas parts).length)
    (h : WrittenOut (writesTo parts (l.map fun x => .known x.1 x.2)) s t) :
    (allPas parts).map (Memory.read t.mem) = l.map (·.1) ∧ SameBytes (allPas parts) s t := by
  obtain ⟨hplaces, hdata⟩ := writesTo_places (parts := parts) (l := l.map fun x => EData.known x.1 x.2) (by simpa using hlen)
  obtain ⟨hsame, hbytes⟩ := h
  refine ⟨?_, by rw [hplaces] at hsame; exact hsame⟩
  rw [← hplaces, List.map_map]
  calc (writesTo parts (l.map fun x => .known x.1 x.2)).map (Memory.read t.mem ∘ (·.pa))
      = (writesTo parts (l.map fun x => .known x.1 x.2)).map (fun x => (x.data.value s).1) :=
        List.map_congr_left hbytes
    _ = ((writesTo parts (l.map fun x => .known x.1 x.2)).map (·.data)).map (fun d => (d.value s).1) := by
        rw [List.map_map]; rfl
    _ = l.map (·.1) := by rw [hdata, List.map_map]; rfl

theorem writesTo_keys {parts : List (Nat × DWord × PagePart)} {l m : List EData} (h : l.length = m.length) :
    (writesTo parts l).map (·.key) = (writesTo parts m).map (·.key) ∧ (writesTo parts l).map (·.pa) = (writesTo parts m).map (·.pa) := by
  have hall : ∀ (x : List (Nat × Nat)) (l m : List EData), l.length = m.length →
      ((x.zip l).map fun (x, b) => (⟨x.1, x.2, b⟩ : EWrite)).map (·.key) = ((x.zip m).map fun (x, b) => (⟨x.1, x.2, b⟩ : EWrite)).map (·.key)
      ∧ ((x.zip l).map fun (x, b) => (⟨x.1, x.2, b⟩ : EWrite)).map (·.pa) = ((x.zip m).map fun (x, b) => (⟨x.1, x.2, b⟩ : EWrite)).map (·.pa) := by
    intro x
    induction x with
    | nil => exact fun _ _ _ => ⟨rfl, rfl⟩
    | cons y x ih =>
      intro l m h
      match l, m with
      | [], [] => exact ⟨rfl, rfl⟩
      | a :: l, b :: m =>
        obtain ⟨hk, hp⟩ := ih l m (by simpa using h)
        exact ⟨congrArg (y.1 :: ·) hk, congrArg (y.2 :: ·) hp⟩
  exact hall _ _ _ h

/-- Writes of known bytes are clean when writes of other known bytes to the same places are. -/
theorem CleanWrites.known {parts : List (Nat × DWord × PagePart)} {l m : List EData} {s : State}
    (h : CleanWrites (writesTo parts l) s) (hlen : m.length = l.length) (hm : ∀ d ∈ m, d.place = none) :
    CleanWrites (writesTo parts m) s := by
  obtain ⟨hk, hp⟩ := writesTo_keys (parts := parts) hlen
  refine h.carry hp hk fun x hx j a hat => ?_
  rw [writesTo, List.mem_map] at hx
  obtain ⟨y, hy, rfl⟩ := hx
  have hd : y.2 = .at_ j a := hat
  have hnone := hm _ (List.of_mem_zip (a := y.1) (b := y.2) hy).2
  rw [hd] at hnone
  cases hnone

/-- The status of a packet that a ring or a record posted goes to its STATUS address. -/
theorem complete_stored {p : Packet} {w : Word} {s u : State} {parts : List (Nat × DWord × PagePart)}
    (hearly : p.early = false) (hposter : (∃ g, p.poster = .memory g) ∨ ∃ q order, p.poster = .record q order)
    (ha : p.a 64 ≠ 0) (hpending : p.pending = []) (hlost : p.lost = 0)
    (hcheck : engineCheck p .copyWrite (p.a 64) 4 (setPacket p s) = .ok parts u) (hlen : (allPas parts).length = 4)
    (hclean : CleanWrites (writesTo parts (plainData (leBytes 4 0))) u) (hw : Memory.wf u.mem = true) :
    ∃ t, complete p w s = .next t ∧ (allPas parts).map (Memory.read t.mem) = leBytes 4 w.toNat ∧ SameBytes (allPas parts) u t
      ∧ (∀ x ∈ t.packets, x.num ≠ p.num) ∧ ∀ q order, p.poster = .record q order → OneRetired q u t := by
  have hclean' : CleanWrites (writesTo parts (plainData (leBytes 4 w.toNat))) u :=
    hclean.known (by rw [plainData, plainData, List.length_map, List.length_map, length_leBytes, length_leBytes]) fun d hd => by
      obtain ⟨b, -, rfl⟩ := List.mem_map.mp hd
      rfl
  have hwritten := performEWrites_written hclean' hw []
  have hqueues := (performEWrites_frame hclean' []).1
  have hdata : plainData (leBytes 4 w.toNat) = ((leBytes 4 w.toNat).map fun b => (b, false)).map fun x => EData.known x.1 x.2 := by
    rw [List.map_map]; rfl
  generalize hv : performEWrites [] (writesTo parts (plainData (leBytes 4 w.toNat))) u = v at hwritten hqueues
  rw [hdata] at hwritten
  obtain ⟨hbytes, hsame⟩ := written_bytes (by rw [List.length_map, length_leBytes, hlen]) hwritten
  obtain ⟨hmem, hpackets, hretired⟩ := afterStatus_frame hposter (dropPacket p.num v)
  refine ⟨afterStatus p (dropPacket p.num v), ?_, ?_, ?_, ?_, fun q order h x hx => ?_⟩
  · rw [complete_status hearly hpending hlost]
    have hmemory : deliverStatus p w (setPacket p s) (fun s => afterStatus p (dropPacket p.num s))
        = match statusToMemory p w (setPacket p s) with
          | .done _ l s => .next (afterStatus p (dropPacket p.num (performEWrites [] l s)))
          | .stall f role s => .next (stallPacket p f role s)
          | .absent a => .fault (.noSuchAddress a) := by
      rcases hposter with ⟨g, hg⟩ | ⟨q, order, hq⟩
      · rw [deliverStatus, hg] <;> rfl
      · rw [deliverStatus, hq] <;> rfl
    rw [hmemory, statusToMemory]
    simp only [ha, if_false, hcheck, hv]
  · rw [hmem]
    show (allPas parts).map (Memory.read v.mem) = _
    rw [hbytes, List.map_map]
    exact List.map_id' _
  · intro a hna
    rw [hmem]
    exact hsame a hna
  · rw [hpackets]
    exact dropPacket_gone _ _
  · exact hretired q order h x ((queue_congr (t := dropPacket p.num v) hqueues q).trans hx)

/-! ### A status before the writes (R275) -/

theorem early_released {p : Packet} (h : packetRel p.image = true) (w : Word) (s : State) : completeEarly p w s = .next s := by
  rw [completeEarly, h]
  rfl

theorem early_told {p : Packet} {g : Option Nat} {w : Word} {s : State} (hposter : p.poster = .memory g) (ha : p.a 64 = 0)
    (hrel : packetRel p.image = false) (hearly : p.early = false) (hpending : p.pending ≠ []) (h7 : p.kind ≠ 7) :
    completeEarly p w s = .next (setPacket { p with early := true } s) := by
  have hfree : ¬ (packetRel p.image || p.early || p.pending.isEmpty || decide (p.kind = 7)) = true := by
    simp [hrel, hearly, hpending, h7]
  rw [completeEarly, if_neg hfree, deliverStatus, hposter]
  simp only [statusToMemory, ha, if_true, performEWrites_nil]

/-! ### SIGNAL (R274) -/

/-- How many bytes a SIGNAL writes, and what for. -/
def signalSize (p : Packet) : Nat := if p.f 256 1 = 1 then 8 else 4

/-- What a SIGNAL leaves: its value, or the sum with what stood there. -/
def signalValue (p : Packet) (u : State) (pas : List Nat) : Nat :=
  p.f 128 64 + if 2 ≤ p.f 256 8 then leNat (pas.map u.readByte) else 0

theorem signalEffect_done {p : Packet} {s u : State} {parts : List (Nat × DWord × PagePart)} (hk : p.kind = 7)
    (hcheck : engineCheck p (if 2 ≤ p.f 256 8 then .atomic 0 else .copyWrite) (p.a 192) (signalSize p) s = .ok parts u)
    (hgone : linkGone u parts = false) (hmac : ∀ x ∈ parts, badLines u x.2.2.key x.2.2.pas = []) :
    ∃ bad, effectOf p s = .done 0 (writesTo parts
      ((leBytes (signalSize p) (signalValue p u (allPas parts))).map fun b => .known b bad)) u := by
  rw [effectOf, if_neg (by omega), if_neg (by omega), if_neg (by omega), signalEffect]
  by_cases hadds : 2 ≤ p.f 256 8
  · rw [if_pos hadds] at hcheck
    refine ⟨poisoned u (allPas parts), ?_⟩
    have hnot : ¬ p.f 256 8 < 2 := by omega
    rw [signalValue, if_pos hadds, Nat.add_comm]
    rw [signalSize] at hcheck
    simp only [hnot, if_false, hcheck, hgone, foldl_macCheck_clean hmac, Bool.false_eq_true]
    rfl
  · rw [if_neg hadds] at hcheck
    refine ⟨false, ?_⟩
    have hlow : p.f 256 8 < 2 := by omega
    rw [signalValue, if_neg hadds, Nat.add_zero]
    rw [signalSize] at hcheck
    simp only [hlow, if_true, hcheck, hgone, Bool.false_eq_true, if_false]
    rfl

/-- Writes to parts that meet no bad MAC: neither do the parts. -/
theorem CleanWrites.parts {parts : List (Nat × DWord × PagePart)} {l : List EData} {s : State}
    (h : CleanWrites (writesTo parts l) s) (hlen : l.length = (allPas parts).length) :
    ∀ x ∈ parts, badLines s x.2.2.key x.2.2.pas = [] := by
  obtain ⟨-, k, hk⟩ := h
  intro x hx
  refine badLines_of_each fun a ha => ?_
  have hplace : (x.2.2.key, a) ∈ placesOf parts := List.mem_flatMap.mpr ⟨x, hx, List.mem_map_of_mem ha⟩
  have hlen' : (placesOf parts).length = l.length := by rw [hlen, ← length_placesOf, List.length_map]
  rw [← List.map_fst_zip hlen'.le] at hplace
  obtain ⟨y, hy, heq⟩ := List.mem_map.mp hplace
  obtain ⟨hkey, -, hbad, -⟩ := hk ⟨y.1.1, y.1.2, y.2⟩ (List.mem_map.mpr ⟨y, hy, rfl⟩)
  rw [heq] at hkey hbad
  have hkey : x.2.2.key = k := hkey
  rw [hkey]
  exact hbad

theorem signal_performs {n : Nat} {p : Packet} {s u : State} {g : Option Nat} {parts : List (Nat × DWord × PagePart)}
    (hp : s.packets.find? (fun x => x.num = n) = some p) (hstalled : p.stalled = none) (hresult : p.result = none)
    (hbegun : p.begun = false) (hwait : acquireWaits p s = false) (hk : p.kind = 7) (hposter : p.poster = .memory g)
    (ha : p.a 64 = 0) (hdata : p.data = [])
    (hcheck : engineCheck p (if 2 ≤ p.f 256 8 then .atomic 0 else .copyWrite) (p.a 192) (signalSize p) s = .ok parts u)
    (hgone : linkGone u parts = false) (hclean : CleanWrites (writesTo parts (plainData (leBytes (signalSize p) 0))) u)
    (hlen : (allPas parts).length = signalSize p) (hw : Memory.wf u.mem = true) :
    Completes (.packetCompletion ⟨n, .all⟩ false) s fun t => SameBytes (allPas parts) u t ∧ (∀ x ∈ t.packets, x.num ≠ n)
      ∧ (allPas parts).map (Memory.read t.mem) = leBytes (signalSize p) (signalValue p u (allPas parts)) := by
  have hmac := hclean.parts (by rw [plainData, List.length_map, length_leBytes, hlen])
  obtain ⟨bad, heffect⟩ := signalEffect_done hk hcheck hgone hmac
  have hdecides := (completion_proceeds hp hstalled hresult).trans (proceed_decides hbegun hwait (by omega) heffect)
  rw [if_pos hk] at hdecides
  generalize hl : writesTo parts ((leBytes (signalSize p) (signalValue p u (allPas parts))).map fun b => .known b bad) = l at hdecides
  have hlclean : CleanWrites l u := hl ▸ hclean.known
    (by rw [plainData, List.length_map, List.length_map, length_leBytes, length_leBytes]) fun d hd => by
      obtain ⟨b, -, rfl⟩ := List.mem_map.mp hd
      rfl
  obtain ⟨t, hcomplete, hmem, hnums⟩ := complete_silent (p := { p with result := some 0, pending := l, declined := false }) hposter ha 0
    (setPacket { p with result := some 0, pending := l, declined := false } u)
  have hwritten := write_written (p := { p with result := some 0, pending := l, declined := false })
    (s := setPacket { p with result := some 0, pending := l, declined := false } u) hdata hlclean hw
  replace hwritten := hwritten.of_mem hmem
  have hnum : p.num = n := by simpa using List.find?_some hp
  rw [← hl] at hwritten
  have hbytes := written_bytes (l := (leBytes (signalSize p) (signalValue p u (allPas parts))).map fun b => (b, bad))
    (by rw [List.length_map, length_leBytes, hlen]) (by rw [List.map_map]; exact hwritten)
  rw [hl] at hbytes
  refine ⟨t, hdecides.trans hcomplete, hbytes.2, fun x hx => hnum ▸ hnums x hx, hbytes.1.trans ?_⟩
  rw [List.map_map]
  exact List.map_id' _

end Machine

end Sys2Proof

/-! ## Comet packets: INGEST, arrivals and reductions (R283, R288 to R290, R352, R353) -/

namespace Sys2Proof

namespace Machine

/-! ### INGEST (R290, R352, R353) -/

/-- An INGEST that holds its whole ciphertext tests its tag. -/
theorem ingestOpen_commits {p : Packet} {bytes : List Byte} {s u : State} {src : List (Nat × DWord × PagePart)}
    (hdata : p.data = plainData bytes) (hbytes : bytes.length = p.len + 16) (hpending : ∀ x ∈ p.pending, x.data.place = none)
    (hcheck : engineCheck p .copyRead (p.a 128) (p.len + 16) s = .ok src u) (hlen : (allPas src).length = p.len + 16)
    (hgone : linkGone u src = false) : ingestOpen p s = ingestCommit p bytes u := by
  have hkept : ((p.data.zip (unread src)).map fun (d, x) => if d.place.isSome then x else d) = p.data := by
    have hunread : (unread src).length = p.data.length := by
      rw [unread, List.length_map, hdata, plainData, List.length_map, hbytes, ← hlen, ← length_placesOf, List.length_map]
    calc _ = (p.data.zip (unread src)).map Prod.fst := List.map_congr_left fun y hy => by
            obtain ⟨d, x⟩ := y
            have hd := (List.of_mem_zip hy).1
            rw [hdata] at hd
            obtain ⟨b, -, rfl⟩ := List.mem_map.mp hd
            rfl
      _ = p.data := List.map_fst_zip hunread.ge
  have hsources : p.sources = [] := by
    refine List.filterMap_eq_nil_iff.mpr fun d hd => ?_
    rcases List.mem_append.mp hd with hd | hd
    · rw [hdata] at hd
      obtain ⟨b, -, rfl⟩ := List.mem_map.mp hd
      rfl
    · obtain ⟨x, hx, rfl⟩ := List.mem_map.mp hd
      exact hpending x hx
  have hread : p.read (allPas src) u = (p, u) := by
    refine read_nothing (engineUnits_none fun a _ => ?_) u
    rw [hsources]
    exact List.not_mem_nil
  have hwhole : { p with data := p.data } = p := rfl
  have hvalues : p.data.map (EData.value u) = bytes.map fun b => (b, false) := by
    rw [hdata, plainData, List.map_map]
    rfl
  have hgood : (bytes.map fun b => (b, false)).any (·.2) = false := by simp
  rw [ingestOpen, hcheck]
  simp only [hgone, Bool.false_eq_true, if_false, hkept, hread, hvalues, hgood, List.map_map]
  exact congrArg (ingestCommit p · u) (List.map_id' bytes)

theorem proceed_opens {p : Packet} {s : State} (hbegun : p.begun = true) (hk : p.kind = 6) :
    proceed p s = settle p (ingestOpen p s) := by
  simp [proceed, hbegun, hk]

section
variable {p : Packet} {s : State} {bytes : List Byte} {w : World} (hw : s.world p.key = some w)
include hw

/-- The key slot of an INGEST, and what opens under it. -/
def ingestOpened (p : Packet) (w : World) (bytes : List Byte) : List Byte × List Byte :=
  let k := keySlotOf w (p.f 288 8)
  gcmOpen (beBytes (if k.long then 32 else 16) k.key.toNat) (beBytes 4 (p.f 320 32) ++ beBytes 8 (p.f 352 64)) []
    (bytes.take p.len)

/-- The counter of an INGEST is not above the last one that was accepted. -/
def ingestStale (p : Packet) (w : World) : Prop :=
  (keySlotOf w (p.f 288 8)).accepted = true ∧ (p.a 352).toNat ≤ (keySlotOf w (p.f 288 8)).last.toNat

/-- Bytes for the places that an INGEST is to write. -/
def ingestWrites (p : Packet) (l : List Byte) : List EWrite :=
  (p.pending.zip l).map fun (x, b) => { x with data := .known b false }

theorem ingestCommit_forged (h : (ingestOpened p w bytes).2 ≠ bytes.drop p.len) :
    ingestCommit p bytes s = .done (statusWord 2 0) (ingestWrites p (List.replicate p.len 0#8)) s := by
  rw [ingestCommit, hw]
  exact if_pos h

theorem ingestCommit_stale (h : (ingestOpened p w bytes).2 = bytes.drop p.len) (hs : ingestStale p w) :
    ingestCommit p bytes s = .done (statusWord 3 0) [] s := by
  rw [ingestCommit, hw]
  exact (if_neg (not_not.mpr h)).trans (if_pos hs)

theorem ingestCommit_commits (h : (ingestOpened p w bytes).2 = bytes.drop p.len) (hs : ¬ ingestStale p w) :
    ingestCommit p bytes s = .done 0 [] (performEWrites (p.pending.map (·.pa)) (ingestWrites p (ingestOpened p w bytes).1)
      (commitSlot w (p.f 288 8) (p.a 352) s)) := by
  rw [ingestCommit, hw]
  exact (if_neg (not_not.mpr h)).trans (if_neg hs)

end

theorem ingestWrites_places {p : Packet} {l : List Byte} (h : l.length = p.pending.length) :
    (ingestWrites p l).map (·.pa) = p.pending.map (·.pa) ∧ (ingestWrites p l).map (·.key) = p.pending.map (·.key)
      ∧ (ingestWrites p l).map (·.data) = l.map fun b => .known b false := by
  simp only [ingestWrites, List.map_map]
  refine ⟨?_, ?_, ?_⟩
  · calc _ = ((p.pending.zip l).map Prod.fst).map (·.pa) := by rw [List.map_map]; rfl
      _ = _ := by rw [List.map_fst_zip h.ge]
  · calc _ = ((p.pending.zip l).map Prod.fst).map (·.key) := by rw [List.map_map]; rfl
      _ = _ := by rw [List.map_fst_zip h.ge]
  · calc _ = ((p.pending.zip l).map Prod.snd).map (fun b => EData.known b false) := by rw [List.map_map]; rfl
      _ = _ := by rw [List.map_snd_zip h.le]

theorem ingestWrites_known {p : Packet} {l : List Byte} {x : EWrite} (hx : x ∈ ingestWrites p l) :
    ∃ b ∈ l, x.data = .known b false := by
  obtain ⟨y, hy, rfl⟩ := List.mem_map.mp hx
  exact ⟨y.2, (List.of_mem_zip (a := y.1) (b := y.2) hy).2, rfl⟩

/-- The commit step leaves the plaintext at its places, and the counter in its slot (R353). -/
theorem ingest_committed {p : Packet} {w : World} {plain : List Byte} {u : State} (hw : u.world p.key = some w)
    (hclean : CleanWrites p.pending u) (hlen : plain.length = p.pending.length) (hwf : Memory.wf u.mem = true) :
    let v := performEWrites (p.pending.map (·.pa)) (ingestWrites p plain) (commitSlot w (p.f 288 8) (p.a 352) u)
    SameBytes (p.pending.map (·.pa)) u v ∧ p.pending.map (fun x => Memory.read v.mem x.pa) = plain ∧ v.packets = u.packets
      ∧ ∃ x, v.world p.key = some x
        ∧ keySlotOf x (p.f 288 8) = { keySlotOf w (p.f 288 8) with accepted := true, last := p.a 352 } := by
  intro v
  obtain ⟨hplaces, hkeys, hdata⟩ := ingestWrites_places hlen
  have hclean' : CleanWrites (ingestWrites p plain) (commitSlot w (p.f 288 8) (p.a 352) u) := by
    have h : CleanWrites p.pending (commitSlot w (p.f 288 8) (p.a 352) u) := hclean
    refine h.carry hplaces hkeys fun x hx j a hat => ?_
    obtain ⟨b, -, hb⟩ := ingestWrites_known hx
    rw [hb] at hat
    cases hat
  obtain ⟨hsame, hbytes⟩ := performEWrites_written hclean' hwf (p.pending.map (·.pa))
  obtain ⟨-, hworlds, hwld, hpackets⟩ := performEWrites_frame hclean' (p.pending.map (·.pa))
  rw [hplaces] at hsame
  refine ⟨hsame, ?_, hpackets, ?_⟩
  · calc p.pending.map (fun x => Memory.read v.mem x.pa)
        = (p.pending.map (·.pa)).map (Memory.read v.mem) := by rw [List.map_map]; rfl
      _ = (ingestWrites p plain).map (fun x => Memory.read v.mem x.pa) := by rw [← hplaces, List.map_map]; rfl
      _ = (ingestWrites p plain).map fun x => (x.data.value (commitSlot w (p.f 288 8) (p.a 352) u)).1 :=
          List.map_congr_left hbytes
      _ = ((ingestWrites p plain).map (·.data)).map fun d => (d.value (commitSlot w (p.f 288 8) (p.a 352) u)).1 := by
          rw [List.map_map]; rfl
      _ = plain := by rw [hdata, List.map_map]; exact List.map_id' plain
  · have hkey := world_key hw
    have hworld : v.world p.key = (commitSlot w (p.f 288 8) (p.a 352) u).world p.key := by
      rw [State.world, State.world, State.allWorlds, State.allWorlds, hworlds, hwld]
    rw [hworld, commitSlot]
    rw [← hkey] at hw ⊢
    refine ⟨_, world_setWorld_self (w := { w with ingest := _ }) hw, ?_⟩
    exact nth_put_same _ _ _ _

/-! ### The arrival of a chunk (R283, R288) -/

section
variable {b : Block} (hw : Memory.wf b.scratch = true)
include hw

theorem scratchNat_put_other {a x n : Nat} {l : List Byte} (h : x + n ≤ a ∨ a + l.length ≤ x) :
    (b.scratchPut a l).scratchNat x n = b.scratchNat x n := by
  rw [Block.scratchNat, Block.scratchNat, readBytes_eq_map, readBytes_eq_map]
  refine congrArg leNat (List.map_congr_left fun i hi => ?_)
  rw [List.mem_range] at hi
  rw [Block.scratchPut, read_writeBytes l hw, if_neg (by omega)]

theorem readBytes_put_same (a : Nat) (l : List Byte) : Memory.readBytes (b.scratchPut a l).scratch a l.length = l := by
  have h := readBytes_writeBytes l hw a 0 l.length (by omega)
  rw [List.drop_zero, List.take_length] at h
  exact h

theorem readBytes_put_other {a x n : Nat} {l : List Byte} (h : x + n ≤ a ∨ a + l.length ≤ x) :
    Memory.readBytes (b.scratchPut a l).scratch x n = Memory.readBytes b.scratch x n := by
  rw [readBytes_eq_map, readBytes_eq_map]
  refine List.map_congr_left fun i hi => ?_
  rw [List.mem_range] at hi
  rw [Block.scratchPut, read_writeBytes l hw, if_neg (by omega)]

theorem scratchPut_wf (a : Nat) (l : List Byte) : Memory.wf (b.scratchPut a l).scratch = true :=
  Memory.wf_writeBytes l _ _ hw

theorem scratchNat_put_same (a n v : Nat) : (b.scratchPut a (leBytes n v)).scratchNat a n = v % 256 ^ n := by
  have h := readBytes_put_same hw a (leBytes n v)
  rw [length_leBytes] at h
  rw [Block.scratchNat, h, leNat_leBytes]

end

/-- A chunk's bytes stand in the block's scratchpad, poison with them. -/
def chunkPut (at_ : Nat) (l : List (Byte × Bool)) (b : Block) : Block :=
  let bad := (l.zipIdx.filter fun x => x.1.2).map fun x => at_ + x.2
  let b := b.scratchPut at_ (l.map (·.1))
  { b with scratchPoison := bad.foldl (fun m a => insertNew a m) b.scratchPoison }

/-- ARRIVED has risen by the chunk's bytes. -/
def chunkCounted (bar at_ : Nat) (l : List (Byte × Bool)) (b : Block) : Block :=
  (chunkPut at_ l b).scratchPut (bar + 4) (leBytes 4 ((chunkPut at_ l b).scratchNat (bar + 4) 4 + l.length))

/-- PHASE has risen, and the barrier is COMPLETE. -/
def phaseRaised (bar : Nat) (b : Block) : Block :=
  (b.scratchPut (bar + 8) (leBytes 4 (b.scratchNat (bar + 8) 4 + 1))).scratchPut (bar + 14) [2#8]

/-- The row of R283 for the arrival of a chunk. -/
def chunkRow (bar at_ : Nat) (l : List (Byte × Bool)) (b : Block) : Block :=
  if (chunkPut at_ l b).scratchNat (bar + 4) 4 + l.length ≥ (chunkCounted bar at_ l b).scratchNat bar 4 then
    phaseRaised bar (chunkCounted bar at_ l b)
  else chunkCounted bar at_ l b

theorem arriveFocus_taken {p : Packet} {t : Target} {c : Nat} {s : State}
    (h : s.blk.barrierState (p.f 224 32) = 1 ∧ BitVec.ofNat 16 (s.blk.scratchNat (p.f 224 32 + 12) 2) = t.armid) :
    arriveFocus p t c s = pokeBlock ⟨s.blk.grid, s.blk.id⟩ (markChunk p t c false { s with
      blk := chunkRow (p.f 224 32) (p.f 192 32 + 256 * c) (((p.data.drop (256 * c)).take 256).map (EData.value s)) s.blk }) := by
  rw [arriveFocus]
  exact if_pos h

theorem arriveFocus_dropped {p : Packet} {t : Target} {c : Nat} {s : State}
    (h : ¬ (s.blk.barrierState (p.f 224 32) = 1 ∧ BitVec.ofNat 16 (s.blk.scratchNat (p.f 224 32 + 12) 2) = t.armid)) :
    arriveFocus p t c s = dropChunk p t c { s with
      blk := { s.blk with bbdrops := BitVec.ofNat 32 (satAdd32 s.blk.bbdrops.toNat 1) } } := by
  rw [arriveFocus]
  exact if_neg h

theorem barrierState_open {b : Block} {bar : Nat} (h : b.barrierState bar = 1) :
    b.armed.contains (bar / 16) = true ∧ b.scratchNat (bar + 14) 1 = 1 := by
  rw [Block.barrierState] at h
  split at h
  next hc => exact ⟨(Bool.and_eq_true_iff.mp hc).1, h⟩
  · cases h

theorem barrierState_armed {b : Block} {bar x : Nat} (harmed : b.armed.contains (bar / 16) = true)
    (hx : b.scratchNat (bar + 14) 1 = x) (h : x = 1 ∨ x = 2) : b.barrierState bar = x := by
  rw [Block.barrierState]
  rw [if_pos, hx]
  rw [harmed, hx]
  simpa using h

section
variable {b : Block} {bar at_ : Nat} {l : List (Byte × Bool)} (hw : Memory.wf b.scratch = true)
  (hl : l.length ≤ 256) (hapart : at_ + 256 ≤ bar ∨ bar + 16 ≤ at_)
include hw hl hapart

/-- The barrier's fields stay when the chunk's bytes are written. -/
theorem chunkPut_fields {k n : Nat} (h : k + n ≤ 16) : (chunkPut at_ l b).scratchNat (bar + k) n = b.scratchNat (bar + k) n := by
  show (b.scratchPut at_ (l.map (·.1))).scratchNat (bar + k) n = _
  exact scratchNat_put_other hw (by rw [List.length_map]; omega)

theorem chunkCounted_fields : (chunkCounted bar at_ l b).scratchNat bar 4 = b.scratchNat bar 4
      ∧ (chunkCounted bar at_ l b).scratchNat (bar + 4) 4 = (b.scratchNat (bar + 4) 4 + l.length) % 2 ^ 32
      ∧ (chunkCounted bar at_ l b).scratchNat (bar + 8) 4 = b.scratchNat (bar + 8) 4
      ∧ (chunkCounted bar at_ l b).scratchNat (bar + 14) 1 = b.scratchNat (bar + 14) 1 := by
  have hput : Memory.wf (chunkPut at_ l b).scratch = true := scratchPut_wf hw _ _
  have hother : ∀ {k n : Nat}, k + n ≤ 16 → (k + n ≤ 4 ∨ 8 ≤ k) →
      (chunkCounted bar at_ l b).scratchNat (bar + k) n = b.scratchNat (bar + k) n := fun h hk => by
    rw [chunkCounted, scratchNat_put_other hput (by rw [length_leBytes]; omega), chunkPut_fields hw hl hapart h]
  refine ⟨hother (k := 0) (by decide) (by decide), ?_, hother (by decide) (by decide), hother (by decide) (by decide)⟩
  rw [chunkCounted, scratchNat_put_same hput, chunkPut_fields hw hl hapart (by decide)]
  rfl

theorem chunkCounted_bytes : Memory.readBytes (chunkCounted bar at_ l b).scratch at_ l.length = l.map (·.1) := by
  have hput : Memory.wf (chunkPut at_ l b).scratch = true := scratchPut_wf hw _ _
  rw [chunkCounted, readBytes_put_other hput (by rw [length_leBytes]; omega)]
  have h := readBytes_put_same hw at_ (l.map (·.1))
  rw [List.length_map] at h
  exact h

/-- What the row of R283 leaves in the scratchpad. -/
theorem chunkRow_fields (hopen : b.barrierState bar = 1) (hcount : b.scratchNat (bar + 4) 4 + l.length < 2 ^ 32) :
    let c := chunkRow bar at_ l b
    let full := b.scratchNat bar 4 ≤ b.scratchNat (bar + 4) 4 + l.length
    Memory.readBytes c.scratch at_ l.length = l.map (·.1)
      ∧ c.scratchNat (bar + 4) 4 = b.scratchNat (bar + 4) 4 + l.length
      ∧ c.barrierState bar = (if full then 2 else 1)
      ∧ c.scratchNat (bar + 8) 4 = (b.scratchNat (bar + 8) 4 + if full then 1 else 0) % 2 ^ 32
      ∧ c.bbdrops = b.bbdrops := by
  intro c full
  obtain ⟨harmed, hstate⟩ := barrierState_open hopen
  obtain ⟨hexpected, harrived, hphase, hbyte⟩ := chunkCounted_fields hw hl hapart
  have hbytes := chunkCounted_bytes hw hl hapart
  have hwc : Memory.wf (chunkCounted bar at_ l b).scratch = true := scratchPut_wf (scratchPut_wf hw _ _) _ _
  have hfull : ((chunkPut at_ l b).scratchNat (bar + 4) 4 + l.length ≥ (chunkCounted bar at_ l b).scratchNat bar 4) = full := by
    rw [chunkPut_fields hw hl hapart (by decide), hexpected]
  have hc : c = if full then phaseRaised bar (chunkCounted bar at_ l b) else chunkCounted bar at_ l b := by
    simp only [c, chunkRow, hfull]
  by_cases h : full
  · rw [if_pos h] at hc
    have hraised : Memory.wf ((chunkCounted bar at_ l b).scratchPut (bar + 8)
        (leBytes 4 ((chunkCounted bar at_ l b).scratchNat (bar + 8) 4 + 1))).scratch = true := scratchPut_wf hwc _ _
    have hother : ∀ x n, x + n ≤ bar + 8 ∨ bar + 15 ≤ x →
        Memory.readBytes (phaseRaised bar (chunkCounted bar at_ l b)).scratch x n
          = Memory.readBytes (chunkCounted bar at_ l b).scratch x n := fun x n hx => by
      rw [phaseRaised, readBytes_put_other hraised (by simp only [List.length_singleton]; omega),
        readBytes_put_other hwc (by rw [length_leBytes]; omega)]
    rw [hc, if_pos h, if_pos h]
    refine ⟨(hother _ _ (by omega)).trans hbytes, ?_, ?_, ?_, rfl⟩
    · rw [Block.scratchNat, hother _ _ (by omega)]
      exact harrived.trans (Nat.mod_eq_of_lt hcount)
    · refine barrierState_armed harmed ?_ (.inr rfl)
      rw [phaseRaised, Block.scratchNat]
      exact congrArg leNat (readBytes_put_same hraised (bar + 14) [2#8])
    · rw [phaseRaised, scratchNat_put_other hraised (by simp only [List.length_singleton]; omega),
        scratchNat_put_same hwc, hphase]
      rfl
  · rw [if_neg h] at hc
    rw [hc, if_neg h, if_neg h]
    refine ⟨hbytes, harrived.trans (Nat.mod_eq_of_lt hcount), barrierState_armed harmed (hbyte.trans hstate) (.inl rfl), ?_, rfl⟩
    rw [hphase, Nat.add_zero]
    refine (Nat.mod_eq_of_lt ?_).symm
    have hlow := leNat_lt (Memory.readBytes b.scratch (bar + 8) 4)
    rw [readBytes_eq_map, List.length_map, List.length_range, ← readBytes_eq_map] at hlow
    exact hlow

end

theorem read_image (p : Packet) (l : List Nat) (s : State) : (p.read l s).1.image = p.image := by
  rw [Packet.read, Packet.touches]
  split <;> rfl

/-- A chunk arrives at the block in focus, its bytes as they stand. -/
theorem mcastArrival_arrives {n target chunk : Nat} {p : Packet} {x : Target} {s : State}
    (hp : s.packets.find? (fun x => x.num = n) = some p)
    (hx : p.targets.find? (fun t => t.n = target && t.chunks.contains chunk) = some x) (hin : BlockIn ⟨p.grid, x.block⟩ s)
    (hbegun : p.begun = true) (hclean : CleanSources p s) :
    ∃ q, exec (.mcastArrival n target chunk) s = .next (arriveFocus q x chunk s) ∧ q.image = p.image
      ∧ ((q.data.drop (256 * chunk)).take 256).map (EData.value s) = ((p.data.drop (256 * chunk)).take 256).map (EData.value s) := by
  have hread := read_clean hclean (chunkPlaces p chunk)
  refine ⟨(p.read (chunkPlaces p chunk) s).1, ?_, read_image _ _ _, ?_⟩
  · have hgrid : (p.read (chunkPlaces p chunk) s).1.grid = p.grid := by
      rw [Packet.read, Packet.touches]
      split <;> rfl
    show execMcastArrival n target chunk s = _
    rw [execMcastArrival, hp]
    simp only [hx, hbegun, Bool.not_true, Bool.false_eq_true, if_false]
    rw [hread] at hgrid ⊢
    dsimp only at hgrid ⊢
    rw [hgrid, focusBlock_here hin]
    exact if_pos hin.1
  · have hdata : (p.read (chunkPlaces p chunk) s).1.data
        = p.data.map (EData.readAt (engineUnits p.sources (chunkPlaces p chunk)) s) := by
      rw [hread, Packet.touches]
      split <;> rfl
    rw [hdata, ← List.map_drop, ← List.map_take, List.map_map]
    exact List.map_congr_left fun d _ => value_readAt _ s d

/-! ### Reductions (R108, R245, R289) -/

theorem insertAt_perm {α : Type} (x : α) (l : List α) (n : Nat) : (insertAt x l n).Perm (x :: l) := by
  induction l generalizing n with
  | nil => cases n <;> exact List.Perm.refl _
  | cons y t ih =>
    cases n with
    | zero => exact List.Perm.refl _
    | succ n => exact ((ih n).cons y).trans (List.Perm.swap x y t)

theorem anyOrder_perm {α : Type} (free : Nat) (l : List α) : (anyOrder free l).Perm l := by
  induction l with
  | nil => exact List.Perm.refl _
  | cons x t ih => exact (insertAt_perm x _ _).trans (ih.cons x)

theorem length_reduceBytes (op w k : Nat) (x y : List Byte) : (reduceBytes op w k x y).length = k * w := by
  induction k generalizing x y with
  | zero => rw [reduceBytes, List.length_nil, Nat.zero_mul]
  | succ k ih => rw [reduceBytes, List.length_append, length_leBytes, ih, Nat.succ_mul, Nat.add_comm]

theorem wordAt_drop (w : Nat) (l : List Byte) (i : Nat) : wordAt w (l.drop w) i = wordAt w l (i + 1) := by
  rw [wordAt, wordAt, List.drop_drop, Nat.mul_succ, Nat.add_comm]

theorem wordAt_lt (w : Nat) (l : List Byte) (i : Nat) : wordAt w l i < 256 ^ w :=
  lt_of_lt_of_le (leNat_lt _) (Nat.pow_le_pow_right (by decide) (List.length_take_le _ _))

theorem wordAt_reduceBytes (op w : Nat) {k i : Nat} (hi : i < k) (x y : List Byte) :
    wordAt w (reduceBytes op w k x y) i = reduceWord op (8 * w) (wordAt w x i) (wordAt w y i) % 256 ^ w := by
  induction k generalizing x y i with
  | zero => omega
  | succ k ih =>
    rw [reduceBytes]
    cases i with
    | zero =>
      rw [wordAt, Nat.mul_zero, List.drop_zero, List.take_left' (length_leBytes _ _), leNat_leBytes]
      rfl
    | succ i =>
      rw [← wordAt_drop, List.drop_left' (length_leBytes _ _), ih (by omega), wordAt_drop, wordAt_drop]

theorem bf16_signed_lt {neg : Bool} {x : Nat} (h : x ≤ bf16.inf) : bf16.signed neg x < 2 ^ 16 := by
  have hinf : bf16.inf = 32640 := by decide
  have hsign : bf16.signBit = 32768 := by decide
  rw [Fmt.signed]
  split <;> omega

theorem bf16_capped_le (bits : Nat) (neg : Bool) :
    (if bits ≥ bf16.inf then overflow bf16 0 false neg else bits) ≤ bf16.inf := by
  split
  · exact le_rfl
  · omega

theorem fpAdd_bf16_lt (x y : Nat) : fpAdd bf16 0 false x y < 2 ^ 16 := by
  rw [fpAdd, fpBin]
  generalize addVal 0 (flushIn bf16 false (unpack bf16 x)) (flushIn bf16 false (unpack bf16 y)) = v
  cases v with
  | nan => decide
  | inf neg => exact bf16_signed_lt le_rfl
  | fin neg m e =>
    rw [pack, roundTo]
    split
    · exact bf16_signed_lt (Nat.zero_le _)
    · refine bf16_signed_lt ?_
      simp only [Bool.false_and, Bool.false_eq_true, if_false]
      exact bf16_capped_le _ neg

/-- The width of a REDUCE's words. -/
def reduceWidth (op : Nat) : Nat := if op = 2 then 2 else 4

/-- A combination of two words is a word. -/
theorem reduceWord_combines {op x y : Nat} (hx : x < 256 ^ reduceWidth op) (hy : y < 256 ^ reduceWidth op) :
    reduceWord op (8 * reduceWidth op) x y % 256 ^ reduceWidth op = combineWord op x y := by
  match op with
  | 0 => exact Nat.mod_eq_of_lt (Nat.mod_lt _ (by decide))
  | 1 => exact Nat.mod_eq_of_lt (BitVec.isLt _)
  | 2 => exact Nat.mod_eq_of_lt (fpAdd_bf16_lt x y)
  | op + 3 =>
    have hwidth : reduceWidth (op + 3) = 4 := if_neg (by omega)
    rw [hwidth] at hx hy ⊢
    rw [reduceWord, if_neg (by omega), if_neg (by omega), if_neg (by omega), combineWord]
    simp only [BitVec.sle_eq_decide, decide_eq_true_eq]
    split
    · exact Nat.mod_eq_of_lt hy
    · exact Nat.mod_eq_of_lt hx
    all_goals omega

theorem wordAt_foldl (op : Nat) {n i : Nat} (hi : i < n) (t : List (List Byte)) (x : List Byte) :
    wordAt (reduceWidth op) (t.foldl (fun a b => reduceBytes op (reduceWidth op) n a b) x) i
      = t.foldl (fun a c => combineWord op a (wordAt (reduceWidth op) c i)) (wordAt (reduceWidth op) x i) := by
  induction t generalizing x with
  | nil => rfl
  | cons y t ih =>
    rw [List.foldl_cons, List.foldl_cons, ih, wordAt_reduceBytes op _ hi, reduceWord_combines (wordAt_lt _ _ _) (wordAt_lt _ _ _)]

theorem length_foldl_reduceBytes (op w n : Nat) (t : List (List Byte)) (x : List Byte) (hx : x.length = n * w) :
    (t.foldl (fun a b => reduceBytes op w n a b) x).length = n * w := by
  induction t generalizing x with
  | nil => exact hx
  | cons y t ih => exact ih _ (length_reduceBytes _ _ _ _ _)

/-- The contributions of a group are combined word by word, in some order (R108, R289). -/
theorem reduction_combined {free op n : Nat} {own : List Byte} {others : List (List Byte)} (hown : own.length = n)
    (hothers : ∀ l ∈ others, l.length = n) (hn : n % 4 = 0) :
    (reduction free op n own others).length = n ∧ Combined op (own :: others) (reduction free op n own others) := by
  have hwhole : n / reduceWidth op * reduceWidth op = n := by
    refine Nat.div_mul_cancel (dvd_trans ?_ (Nat.dvd_of_mod_eq_zero hn))
    rw [reduceWidth]
    split <;> decide
  have hperm := anyOrder_perm free (own :: others)
  cases horder : anyOrder free (own :: others) with
  | nil =>
    rw [horder] at hperm
    exact absurd hperm.length_eq (by simp)
  | cons x t =>
    rw [horder] at hperm
    have hred : reduction free op n own others
        = t.foldl (fun a b => reduceBytes op (reduceWidth op) (n / reduceWidth op) a b) x := by
      rw [reduction, horder]
      rfl
    have hx : x.length = n := by
      rcases List.mem_cons.mp (hperm.subset List.mem_cons_self) with rfl | hmem
      · exact hown
      · exact hothers x hmem
    have hlen : (reduction free op n own others).length = n := by
      rw [hred, length_foldl_reduceBytes _ _ _ _ _ (hx.trans hwhole.symm), hwhole]
    refine ⟨hlen, x, t, hperm, fun i hi => ?_⟩
    have hi : i < n / reduceWidth op := hlen ▸ hi
    rw [hred]
    exact wordAt_foldl op hi t x

/-- The network's answer reaches a packet that has left and is not decided. -/
theorem reduceCompletion_runs {n : Nat} {p : Packet} {s : State} (hp : s.packets.find? (fun x => x.num = n) = some p)
    (hleft : p.left = true) (hresult : p.result = none) (hstalled : p.stalled = none) (net : NetResult) :
    exec (.reduceCompletion n net) s = match net with
      | .stale k =>
        settle p (.done (statusWord 6 (min k 0xFFF)) [] (countOn p.die (fun c => { c with stale := c.stale + k }) s))
      | .lost k => settle p (.done (statusWord 7 (min k 0xFFF)) [] s)
      | .combined others =>
        if others.any fun l => l.length ≠ p.len then .next s
        else if p.lost ≠ 0 then settle p (.done (statusWord 7 (min p.lost 0xFFF)) [] s)
        else reduceResult p (reduction s.free (p.f 304 8) p.len (p.data.map fun d => (d.value s).1) others) s := by
  show execReduceCompletion n net s = _
  rw [execReduceCompletion, hp]
  have hfree : ¬ (!p.left || p.result.isSome || p.stalled.isSome) = true := by simp [hleft, hresult, hstalled]
  exact if_neg hfree

theorem reduceCompletion_held {n : Nat} {p : Packet} {s : State} (hp : s.packets.find? (fun x => x.num = n) = some p)
    (h : p.left = false ∨ p.result ≠ none ∨ p.stalled ≠ none) (net : NetResult) :
    exec (.reduceCompletion n net) s = .next s := by
  show execReduceCompletion n net s = _
  rw [execReduceCompletion, hp]
  refine if_pos ?_
  rcases h with h | h | h
  · simp [h]
  · simp [Option.isSome_iff_ne_none.mpr h]
  · simp [Option.isSome_iff_ne_none.mpr h]

end Machine

end Sys2Proof

/-! ## Comet packets complete (R274 to R290) -/

namespace Sys2Proof

namespace Machine

section
variable {n : Nat} {p : Packet} {s : State} (hp : s.packets.find? (fun p => p.num = n) = some p) (hstalled : p.stalled = none)
include hp hstalled

section
variable (hresult : p.result = none) (hbegun : p.begun = false) (hwait : acquireWaits p s = false)
include hresult hbegun hwait

theorem packet_copies (hk : p.kind ≤ 1) {l : List EWrite} {z : State} (h : RowsCopied p (copiedRows p) s l z)
    (hapart : ∀ x ∈ l, x.pa ∉ sourcePlaces p s) : Completes (.packetCompletion ⟨n, .all⟩ false) s fun t =>
      t.mem = z.mem ∧ PacketIs n (fun q => q.result = some 0 ∧ q.pending = l) t :=
  decides_stands hp hstalled hresult hbegun hwait (by omega) (by omega) (copyEffect_copied hk h hapart)
    (rowsCopied_packets _ h) ⟨rfl, rfl⟩

theorem packet_fills (hk : p.kind = 2) {dst : List (Nat × DWord × PagePart)} {u : State}
    (h : engineCheck p .copyWrite (p.a 192) p.len s = .ok dst u) (hgone : linkGone u dst = false)
    (hlen : (allPas dst).length = p.len) : Completes (.packetCompletion ⟨n, .all⟩ false) s fun t => t.mem = u.mem
      ∧ PacketIs n (fun q => q.result = some 0 ∧ q.pending.map (·.pa) = allPas dst ∧ ∀ i, i < p.len →
          (q.pending.map (·.data))[i]? = some (.known (nth 0 (leBytes 8 (p.f 128 64)) (i % 8)) false)) t := by
  obtain ⟨hplaces, hdata⟩ := writesTo_places (parts := dst) (l := fillBytes p p.len)
    (by rw [fillBytes, plainData, List.length_map, List.length_map, List.length_range, hlen])
  refine decides_stands hp hstalled hresult hbegun hwait (by omega) (by omega) (fillEffect_filled hk h hgone)
    (engineCheck_frame h).1 ⟨rfl, hplaces, fun i hi => ?_⟩
  show ((writesTo dst (fillBytes p p.len)).map (·.data))[i]? = _
  rw [hdata]
  exact fillBytes_at p hi

theorem packet_multicasts (hk : p.kind = 3) {src : List (Nat × DWord × PagePart)} {u : State}
    (h : engineCheck p .copyRead (p.a 128) p.len s = .ok src u) : Completes (.packetCompletion ⟨n, .all⟩ false) s fun t =>
      t.mem = u.mem ∧ PacketIs n (fun q => q.begun = true ∧ q.result = none ∧ q.data = unread src
        ∧ q.targets = p.targets) t :=
  begins_stands hp hstalled hresult hbegun hwait (.inl hk) ((if_pos hk).trans (beginMcast_on h))
    (engineCheck_frame h).1 rfl ⟨rfl, hresult, rfl, rfl⟩

theorem packet_sealed (hk : p.kind = 4) {src : List (Nat × DWord × PagePart)} {u : State} {g : FaultInfo} {k : Nat}
    (hsrc : engineCheck p .copyRead (p.a 128) p.len s = .ok src u)
    (hdst : engineCheck p .copyWrite (p.a 192) p.len s = .bad g k) (hsealed : sealedFault g = true)
    (hcode : g.code ≠ codeAbsent) : Completes (.packetCompletion ⟨n, .all⟩ false) s
      (PacketIs n fun q => q.result = some 0x50000000 ∧ q.data = [] ∧ q.pending = []) := by
  obtain ⟨t, ht, -, h⟩ := begins_ends hp hstalled hresult hbegun hwait (.inr (.inl hk))
    (by rw [if_neg (by omega), if_pos hk]; exact beginReduce_sealed hsrc hdst hsealed hcode)
    (P := fun q => q.result = some 0x50000000 ∧ q.data = [] ∧ q.pending = [])
    ((sealedTold_packets _ _ _).trans (engineCheck_frame hsrc).1) ⟨rfl, rfl, rfl⟩
  exact ⟨t, ht, h⟩

theorem packet_reduces (hk : p.kind = 4) {src : List (Nat × DWord × PagePart)} {u : State}
    (hsrc : engineCheck p .copyRead (p.a 128) p.len s = .ok src u) (hgone : linkGone u src = false)
    (hdst : ∀ g k, engineCheck p .copyWrite (p.a 192) p.len s = .bad g k → sealedFault g = false) :
    let port := Config.groupPort (p.f 288 16) % 16
    Completes (.packetCompletion ⟨n, .all⟩ false) s fun t => t.mem = u.mem ∧ PacketIs n (fun q => q.begun = true
      ∧ if (nth Perigee.reset u.peri port).keyed then q.result = none ∧ q.data = unread src
        else q.result = some (statusWord 10 (16 + port))) t := by
  intro port
  have hbegins := beginReduce_checked hsrc hgone hdst
  cases hkeyed : (nth Perigee.reset u.peri port).keyed with
  | true =>
    rw [if_neg (by simp [port] at hkeyed; simp [hkeyed])] at hbegins
    exact begins_stands hp hstalled hresult hbegun hwait (.inr (.inl hk))
      (((if_neg (by omega)).trans (if_pos hk)).trans hbegins) (engineCheck_frame hsrc).1 rfl ⟨rfl, hresult, rfl⟩
  | false =>
    rw [if_pos hkeyed] at hbegins
    exact begins_ends hp hstalled hresult hbegun hwait (.inr (.inl hk))
      (((if_neg (by omega)).trans (if_pos hk)).trans hbegins) (engineCheck_frame hsrc).1 ⟨rfl, rfl⟩

theorem packet_movesSealed (hk : p.kind = 5) {src dst : List (Nat × DWord × PagePart)} {u v : State} {w : World}
    {a b : List (BitVec 32 × Nat × Int)} (hsrc : engineCheck p .read (p.a 128) p.len s = .ok src u)
    (hdst : engineCheck p .write (p.a 192) p.len u = .ok dst v) (hw : v.world p.key = some w)
    (ha : sealedPlaces w src = some a) (hb : sealedPlaces w dst = some b) :
    (a = b → (∀ x ∈ allPas dst, x ∉ allPas src) → Completes (.packetCompletion ⟨n, .all⟩ false) s fun t =>
      t.mem = v.mem ∧ PacketIs n (fun q => q.result = some 0 ∧ q.pending = writesTo dst (unread src)) t)
    ∧ (a ≠ b → Completes (.packetCompletion ⟨n, .all⟩ false) s fun t =>
      t.mem = v.mem ∧ PacketIs n (fun q => q.result = some 0x50000000 ∧ q.pending = []) t) := by
  have hruns := sealmoveEffect_runs hk hsrc hdst hw ha hb
  have hpackets : v.packets = s.packets := (engineCheck_frame hdst).1.trans (engineCheck_frame hsrc).1
  refine ⟨fun heq hapart => ?_, fun hne => ?_⟩
  · rw [if_pos heq, blurOverlap_apart fun x hx => hapart _ (writesTo_pa hx)] at hruns
    exact decides_stands hp hstalled hresult hbegun hwait (by omega) (by omega) hruns hpackets ⟨rfl, rfl⟩
  · rw [if_neg hne] at hruns
    exact decides_stands hp hstalled hresult hbegun hwait (by omega) (by omega) hruns hpackets ⟨rfl, rfl⟩

theorem packet_ingests (hk : p.kind = 6) {src dst : List (Nat × DWord × PagePart)} {u : State}
    (h : ingestChecks p s = .on src dst u) : Completes (.packetCompletion ⟨n, .all⟩ false) s fun t => t.mem = u.mem
      ∧ PacketIs n (fun q => q.begun = true ∧ q.result = none ∧ q.data = unread src
        ∧ q.pending.map (·.pa) = (placesOf dst |>.take p.len).map (·.2)) t := by
  refine begins_stands hp hstalled hresult hbegun hwait (.inr (.inr hk))
    (((if_neg (by omega)).trans (if_neg (by omega))).trans (beginIngest_on h)) (ingestChecks_packets h) rfl ⟨rfl, hresult, rfl, ?_⟩
  show (writesTo dst (plainData (List.replicate p.len 0))).map (·.pa) = _
  rw [writesTo, List.map_map, zip_take_right]
  have hlen : (plainData (List.replicate p.len 0)).length = p.len := by
    rw [plainData, List.length_map, List.length_replicate]
  rw [hlen]
  calc _ = (((placesOf dst).take p.len).zip (plainData (List.replicate p.len 0))).map ((·.2) ∘ Prod.fst) := rfl
    _ = _ := by rw [← List.map_map, List.map_fst_zip (by rw [hlen]; exact List.length_take_le _ _)]

end

/-- An INGEST whose whole ciphertext has been read: its tag fails, its counter is stale, or it commits (R353). -/
theorem packet_opens (hresult : p.result = none) (hbegun : p.begun = true) (hk : p.kind = 6) {bytes : List Byte}
    {src : List (Nat × DWord × PagePart)} {u : State} {w : World} (hdata : p.data = plainData bytes)
    (hbytes : bytes.length = p.len + 16) (hpending : ∀ x ∈ p.pending, x.data.place = none)
    (hcheck : engineCheck p .copyRead (p.a 128) (p.len + 16) s = .ok src u) (hlen : (allPas src).length = p.len + 16)
    (hgone : linkGone u src = false) (hw : u.world p.key = some w) :
    ((ingestOpened p w bytes).2 ≠ bytes.drop p.len → Completes (.packetCompletion ⟨n, .all⟩ false) s fun t =>
      t.mem = u.mem ∧ t.world p.key = some w
        ∧ PacketIs n (fun q => q.result = some 0x20000000 ∧ ∀ x ∈ q.pending, x.data = .known 0 false) t)
    ∧ ((ingestOpened p w bytes).2 = bytes.drop p.len → ingestStale p w →
      Completes (.packetCompletion ⟨n, .all⟩ false) s fun t => t.mem = u.mem ∧ t.world p.key = some w
        ∧ PacketIs n (fun q => q.result = some 0x30000000 ∧ q.pending = []) t)
    ∧ ((ingestOpened p w bytes).2 = bytes.drop p.len → ¬ ingestStale p w → CleanWrites p.pending u →
      (ingestOpened p w bytes).1.length = p.pending.length → Memory.wf u.mem = true →
      Completes (.packetCompletion ⟨n, .all⟩ false) s fun t =>
        SameBytes (p.pending.map (·.pa)) u t ∧ p.pending.map (fun x => Memory.read t.mem x.pa) = (ingestOpened p w bytes).1
          ∧ PacketIs n (fun q => q.result = some 0 ∧ q.pending = []) t
          ∧ ∃ v, t.world p.key = some v
            ∧ keySlotOf v (p.f 288 8) = { keySlotOf w (p.f 288 8) with accepted := true, last := p.a 352 }) := by
  have hpackets := (engineCheck_frame hcheck).1
  have hruns : exec (.packetCompletion ⟨n, .all⟩ false) s = settle p (ingestCommit p bytes u) := by
    rw [completion_proceeds hp hstalled hresult, proceed_opens hbegun hk,
      ingestOpen_commits hdata hbytes hpending hcheck hlen hgone]
  refine ⟨fun h => ?_, fun h hs => ?_, fun h hs hclean hplain hwf => ?_⟩
  · refine ⟨_, hruns.trans (congrArg (settle p) (ingestCommit_forged hw h)), rfl, hw,
      packetIs_setPacket (q := decided p _ _) hp hpackets rfl ⟨rfl, fun x hx => ?_⟩⟩
    obtain ⟨b, hb, hx⟩ := ingestWrites_known hx
    rw [hx, List.eq_of_mem_replicate hb]
    rfl
  · exact ⟨_, hruns.trans (congrArg (settle p) (ingestCommit_stale hw h hs)), rfl, hw,
      packetIs_setPacket (q := decided p _ _) hp hpackets rfl ⟨rfl, rfl⟩⟩
  · obtain ⟨hsame, hread, hkept, hslot⟩ := ingest_committed hw hclean hplain hwf
    exact ⟨_, hruns.trans (congrArg (settle p) (ingestCommit_commits hw h hs)), hsame, hread,
      packetIs_setPacket (q := decided p _ _) hp (hkept.trans hpackets) rfl ⟨rfl, rfl⟩, hslot⟩

/-- A decided packet that no strand posted and that names no STATUS address. -/
theorem packet_silent {w : Word} {g : Option Nat} (hresult : p.result = some w) (hposter : p.poster = .memory g) (ha : p.a 64 = 0) :
    Completes (.packetCompletion ⟨n, .all⟩ false) s fun t =>
      t.mem = (p.write (p.pending.map (·.pa)) s).2.mem ∧ (∀ x ∈ t.packets, x.num ≠ n)
        ∧ (p.data = [] → CleanWrites p.pending s → Memory.wf s.mem = true → WrittenOut p.pending s t) := by
  have hnum : p.num = n := by simpa using List.find?_some hp
  obtain ⟨t, hcomplete, hmem, hnums⟩ := complete_silent hposter ha w s
  have hruns : exec (.packetCompletion ⟨n, .all⟩ false) s = complete p w s := by
    rw [completion_whole hp hstalled false, hresult]
    rfl
  exact ⟨t, hruns.trans hcomplete, hmem, fun x hx => hnum ▸ hnums x hx,
    fun hdata hclean hw => (write_written hdata hclean hw).of_mem hmem⟩

theorem packet_early {w : Word} {g : Option Nat} (hresult : p.result = some w) (hearly : p.early = false)
    (hposter : p.poster = .memory g) (ha : p.a 64 = 0) :
    (packetRel p.image = true → Stutters (.packetCompletion ⟨n, .all⟩ true) s)
    ∧ (packetRel p.image = false → p.pending ≠ [] → p.kind ≠ 7 → Completes (.packetCompletion ⟨n, .all⟩ true) s fun t =>
        t.mem = s.mem ∧ PacketIs n (fun q => q.early = true ∧ q.pending = p.pending) t) := by
  have hruns : exec (.packetCompletion ⟨n, .all⟩ true) s = completeEarly p w s := by
    rw [completion_whole hp hstalled true, hresult]
    rfl
  exact ⟨fun hrel => hruns.trans (early_released hrel w s), fun hrel hpending h7 =>
    ⟨_, hruns.trans (early_told hposter ha hrel hearly hpending h7), rfl,
      packetIs_setPacket (q := { p with early := true }) hp rfl rfl ⟨rfl, rfl⟩⟩⟩

end

/-- A chunk is counted at its barrier, or dropped (R283). -/
theorem chunk_arrives {n target chunk : Nat} {p : Packet} {x : Target} {s : State}
    (hp : s.packets.find? (fun p => p.num = n) = some p)
    (hx : p.targets.find? (fun t => t.n = target && t.chunks.contains chunk) = some x) (hin : BlockIn ⟨p.grid, x.block⟩ s)
    (hbegun : p.begun = true) (hpending : p.pending = []) (hmac : ∀ j a, .at_ j a ∈ p.data → badLines s j [a] = []) :
    let bar := p.f 224 32
    let at_ := p.f 192 32 + 256 * chunk
    let l := ((p.data.drop (256 * chunk)).take 256).map (EData.value s)
    let taken := s.blk.barrierState bar = 1 ∧ BitVec.ofNat 16 (s.blk.scratchNat (bar + 12) 2) = x.armid
    (¬ taken → Completes (.mcastArrival n target chunk) s fun t => t.blk.scratch = s.blk.scratch ∧ t.mem = s.mem
        ∧ t.blk.bbdrops.toNat = min (s.blk.bbdrops.toNat + 1) 0xFFFFFFFF)
    ∧ (taken → Memory.wf s.blk.scratch = true → (at_ + 256 ≤ bar ∨ bar + 16 ≤ at_) →
        s.blk.scratchNat (bar + 4) 4 + l.length < 2 ^ 32 → Completes (.mcastArrival n target chunk) s fun t =>
          Memory.readBytes t.blk.scratch at_ l.length = l.map (·.1)
            ∧ t.blk.scratchNat (bar + 4) 4 = s.blk.scratchNat (bar + 4) 4 + l.length
            ∧ (let full := s.blk.scratchNat bar 4 ≤ s.blk.scratchNat (bar + 4) 4 + l.length
              t.blk.barrierState bar = (if full then 2 else 1)
                ∧ t.blk.scratchNat (bar + 8) 4 = (s.blk.scratchNat (bar + 8) 4 + if full then 1 else 0) % 2 ^ 32)
            ∧ t.mem = s.mem ∧ t.blk.bbdrops = s.blk.bbdrops) := by
  intro bar at_ l taken
  obtain ⟨q, hruns, himage, hchunk⟩ := mcastArrival_arrives hp hx hin hbegun fun j a h => by
    rw [hpending, List.map_nil, List.append_nil] at h
    exact hmac j a h
  have hf : ∀ lo k, q.f lo k = p.f lo k := fun lo k => by rw [Packet.f, Packet.f, himage]
  refine ⟨fun hno => ?_, fun ht hw hapart hcount => ?_⟩
  · rw [arriveFocus_dropped (by rw [hf]; exact hno)] at hruns
    refine ⟨_, hruns, rfl, rfl, ?_⟩
    show (BitVec.ofNat 32 (satAdd32 s.blk.bbdrops.toNat 1)).toNat = _
    rw [BitVec.toNat_ofNat, satAdd32]
    exact Nat.mod_eq_of_lt (by omega)
  · rw [arriveFocus_taken (by rw [hf]; exact ht), hf, hf, hchunk] at hruns
    have hl : l.length ≤ 256 := by
      rw [List.length_map]
      exact List.length_take_le _ _
    obtain ⟨hbytes, harrived, hstate, hphase, hdrops⟩ := chunkRow_fields hw hl hapart ht.1 hcount
    generalize chunkRow bar at_ l s.blk = c at hbytes harrived hstate hphase hdrops hruns
    have hwakes := pokeBlock_wakes ⟨s.blk.grid, s.blk.id⟩ (markChunk q x chunk false { s with blk := c })
    generalize pokeBlock ⟨s.blk.grid, s.blk.id⟩ (markChunk q x chunk false { s with blk := c }) = t at hwakes hruns
    have hblk : t.blk = { c with strands := t.blk.strands } := hwakes.2.2.1.1
    refine ⟨t, hruns, ?_⟩
    dsimp only
    rw [hblk]
    exact ⟨hbytes, harrived, ⟨hstate, hphase⟩, hwakes.mem, hdrops⟩

/-- The network's answer to a REDUCE (R289, R362). -/
theorem reduction_completes {n : Nat} {p : Packet} {s : State} (hp : s.packets.find? (fun p => p.num = n) = some p)
    (hleft : p.left = true) (hresult : p.result = none) (hstalled : p.stalled = none) :
    (∀ k, Completes (.reduceCompletion n (.stale k)) s fun t =>
      t.mem = s.mem ∧ PacketIs n (fun q => q.result = some (statusWord 6 (min k 0xFFF)) ∧ q.pending = []) t
        ∧ (nth Counters.zero t.counts p.die).stale = (nth Counters.zero s.counts p.die).stale + k)
    ∧ (∀ k, Completes (.reduceCompletion n (.lost k)) s fun t =>
      t.mem = s.mem ∧ PacketIs n (fun q => q.result = some (statusWord 7 (min k 0xFFF)) ∧ q.pending = []) t)
    ∧ ∀ others dst u, (∀ l ∈ others, l.length = p.len) → p.lost = 0 → p.data.length = p.len → p.len % 4 = 0 →
      engineCheck p .copyWrite (p.a 192) p.len s = .ok dst u → linkGone u dst = false → (allPas dst).length = p.len →
      Completes (.reduceCompletion n (.combined others)) s fun t => t.mem = u.mem
        ∧ ∃ l, PacketIs n (fun q => q.result = some 0 ∧ q.pending = writesTo dst (plainData l)) t ∧ l.length = p.len
          ∧ Combined (p.f 304 8) (p.data.map (fun d => (d.value s).1) :: others) l := by
  have hruns := reduceCompletion_runs hp hleft hresult hstalled
  refine ⟨fun k => ⟨_, hruns (.stale k), rfl, packetIs_setPacket (q := decided p _ _) hp rfl rfl ⟨rfl, rfl⟩, ?_⟩,
    fun k => ⟨_, hruns (.lost k), rfl, packetIs_setPacket (q := decided p _ _) hp rfl rfl ⟨rfl, rfl⟩⟩,
    fun others dst u hlens hlost hdata hfour hcheck hgone _ => ?_⟩
  · show (nth Counters.zero (put Counters.zero s.counts p.die _) p.die).stale = _
    rw [nth_put_same]
  · obtain ⟨hlen, hcombined⟩ := reduction_combined (free := s.free) (op := p.f 304 8)
      (own := p.data.map fun d => (d.value s).1) (by rw [List.length_map, hdata]) hlens hfour
    have hall : ¬ (others.any fun l => l.length ≠ p.len) = true := by simpa using hlens
    have hresult' : reduceResult p (reduction s.free (p.f 304 8) p.len (p.data.map fun d => (d.value s).1) others) s
        = settle p (.done 0 (writesTo dst (plainData
            (reduction s.free (p.f 304 8) p.len (p.data.map fun d => (d.value s).1) others))) u) := by
      rw [reduceResult, hcheck]
      simp only [hgone, Bool.false_eq_true, if_false]
    exact ⟨_, (hruns (.combined others)).trans ((if_neg hall).trans ((if_neg (not_not.mpr hlost)).trans hresult')), rfl, _,
      packetIs_setPacket (q := decided p _ _) hp (engineCheck_frame hcheck).1 rfl ⟨rfl, rfl⟩, hlen, hcombined⟩

end Machine

open Machine

/-- Settles O48. -/
theorem packetsComplete : Obligations.PacketsComplete := by
  refine ⟨fun n p s hp => ⟨fun hstalled e u => completion_stalled hp hstalled u e, fun hstalled hresult hbegun =>
      ⟨fun hwait => ?_, fun hwait => ⟨fun hk l z h hapart => ?_, fun hk dst u h hgone hlen => ?_, fun hk src u h => ?_,
        fun hk src u g k hsrc hdst hsealed hcode => ?_, fun hk src u hsrc hgone hdst => ?_,
        fun hk src u dst v w a b hsrc hdst hw ha hb => ?_, fun hk src dst u h => ?_,
        fun hk parts u g hposter ha hdata _ => ?_⟩⟩,
      fun hstalled hresult hbegun hk bytes src u w hdata hbytes hpending hcheck hlen hgone hw => ?_,
      fun hstalled w hresult hearly => ⟨fun g hposter ha => packet_silent hp hstalled hresult hposter ha,
        fun r post o hposter hpending hlost hfocus hthere ho => ?_, ?_, fun g hposter ha =>
        packet_early hp hstalled hresult hearly hposter ha⟩⟩,
    fun n target chunk p x s hp hx hin hbegun hpending hmac => chunk_arrives hp hx hin hbegun hpending hmac,
    fun n target chunk p s hp hbegun => ?_, fun n p s hp => ⟨fun h net => reduceCompletion_held hp h net,
      reduction_completes hp⟩⟩
  · exact (completion_proceeds hp hstalled hresult).trans (proceed_waits hbegun hwait)
  · exact packet_copies hp hstalled hresult hbegun hwait hk h hapart
  · exact packet_fills hp hstalled hresult hbegun hwait hk h hgone hlen
  · exact packet_multicasts hp hstalled hresult hbegun hwait hk h
  · exact packet_sealed hp hstalled hresult hbegun hwait hk hsrc hdst hsealed hcode
  · exact packet_reduces hp hstalled hresult hbegun hwait hk hsrc hgone hdst
  · exact packet_movesSealed hp hstalled hresult hbegun hwait hk hsrc hdst hw ha hb
  · exact packet_ingests hp hstalled hresult hbegun hwait hk h
  · intro size adds hcheck hgone hclean hlen hw
    exact signal_performs hp hstalled hresult hbegun hwait hk hposter ha hdata hcheck hgone hclean hlen hw
  · obtain ⟨hforged, hstale, hcommits⟩ := packet_opens hp hstalled hresult hbegun hk hdata hbytes hpending hcheck hlen hgone hw
    exact ⟨hforged, hstale, fun h hs hclean hplain hwf _ => hcommits h hs hclean hplain hwf⟩
  · obtain ⟨t, hruns, hreg, hother, hmem, hnums⟩ := complete_owed (w := w) hearly hposter hpending hlost hfocus hthere ho
    have hnum : p.num = n := by simpa using List.find?_some hp
    refine ⟨t, (completion_whole hp hstalled false).trans ?_, hreg, hother, hmem, fun x hx => hnum ▸ hnums x hx⟩
    rw [hresult]
    exact hruns
  · intro a parts u hposter ha hpending hlost hcheck hlen hclean hw
    obtain ⟨t, hruns, hread, hsame, hnums, hretired⟩ :=
      complete_stored (w := w) hearly hposter ha hpending hlost hcheck hlen hclean hw
    have hnum : p.num = n := by simpa using List.find?_some hp
    refine ⟨t, (completion_whole hp hstalled false).trans ?_, hread, hsame, fun x hx => hnum ▸ hnums x hx, hretired⟩
    rw [hresult]
    exact hruns
  · show execMcastArrival n target chunk s = .next s
    rw [execMcastArrival, hp]
    dsimp only
    split
    · rfl
    · rw [hbegun]
      rfl

end Sys2Proof

/-! ## Links, accesses from outside, soft errors (R42, R184, R311, R359 to R362, R370, R371, R374 to R376) -/

namespace Sys2Proof

namespace Machine

/-! ### What has been told stays told -/

/-- No notice is taken back. -/
def KeepsNotices (s t : State) : Prop := ∀ x ∈ s.notices, x ∈ t.notices

theorem KeepsNotices.refl (s : State) : KeepsNotices s s := fun _ h => h

theorem KeepsNotices.trans {s t u : State} (h : KeepsNotices s t) (k : KeepsNotices t u) : KeepsNotices s u :=
  fun x hx => k x (h x hx)

theorem KeepsNotices.of_eq {s t : State} (h : t.notices = s.notices) : KeepsNotices s t := fun _ hx => h ▸ hx

theorem foldl_keepsNotices {α : Type} {f : State → α → State} (h : ∀ s x, KeepsNotices s (f s x)) (l : List α) (s : State) :
    KeepsNotices s (l.foldl f s) :=
  foldl_related KeepsNotices.refl KeepsNotices.trans h l s

theorem tell_keepsNotices (n : Notice) (s : State) : KeepsNotices s (tell n s) := fun _ hx => List.mem_append_left _ hx

theorem mem_tell (n : Notice) (s : State) : n ∈ (tell n s).notices := List.mem_append_right _ (List.mem_singleton_self n)

theorem markEnded_keepsNotices (g code : Nat) (s : State) : KeepsNotices s (markEnded g code s) := by
  rw [markEnded]
  split
  · exact .refl s
  · split
    · exact .refl s
    · exact .of_eq rfl

theorem writePlaces_notices (key : Nat) (outside : Bool) (l : List (Nat × Byte)) (s : State) :
    (writePlaces key outside l s).notices = s.notices := by
  rw [(writePlaces_stored key outside l s).1.1]

theorem writeArea_notices {s t : State} {w : World} {a : DWord} {what n : Nat} {rec : BitVec 512}
    (h : writeArea s w a what n rec = .done t) : t.notices = s.notices := by
  simp only [writeArea] at h
  split at h
  · cases h
  · cases h
  · split at h
    · cases h
    · split at h
      · cases h
        exact writePlaces_notices _ _ _ s
      · split at h
        · cases h
          exact writePlaces_notices _ _ _ s
        · split at h
          · split at h <;> cases h
            exact (writePlaces_notices _ _ _ _).trans (writePlaces_notices _ _ _ s)
          · cases h
            exact writePlaces_notices _ _ _ s

theorem recordOne_keepsNotices (g what n : Nat) (rec : BitVec 512) (s : State) :
    KeepsNotices s (recordOne g what n rec s) := by
  rw [recordOne]
  split
  · exact .refl s
  · split
    · exact .refl s
    · split
      next h => exact .of_eq (writeArea_notices h)
      next f _ =>
        rw [reportStage2]
        split
        · exact tell_keepsNotices _ s
        · exact .of_eq rfl
      next => exact (tell_keepsNotices _ s).trans (markEnded_keepsNotices g 0 _)

theorem endChildren_keepsNotices (fuel : Nat) (gs : List Nat) (s : State) : KeepsNotices s (endChildren fuel gs s) := by
  induction fuel generalizing gs s with
  | zero => exact .refl s
  | succ fuel ih =>
    cases gs with
    | nil => exact .refl s
    | cons g gs =>
      rw [endChildren]
      exact (foldl_keepsNotices (fun s k => (recordOne_keepsNotices k 0 0 _ s).trans (markEnded_keepsNotices k 0x72 _)) _ s).trans
        (ih _ _)

theorem endGrid_keepsNotices (g code : Nat) (s : State) : KeepsNotices s (endGrid g code s) :=
  (markEnded_keepsNotices g code s).trans (endChildren_keepsNotices _ _ _)

theorem recordAt_keepsNotices (g what n : Nat) (rec : BitVec 512) (s : State) : KeepsNotices s (recordAt g what n rec s) := by
  rw [recordAt]
  split
  · exact (recordOne_keepsNotices g what n rec s).trans (endChildren_keepsNotices _ _ _)
  · exact recordOne_keepsNotices g what n rec s

theorem poisonPlacesAt_mem (l : List Nat) (s : State) :
    (∀ a ∈ l, a ∈ (poisonPlacesAt l s).poison) ∧ ∀ a ∈ s.poison, a ∈ (poisonPlacesAt l s).poison :=
  mem_foldl_insertNew l s.poison

theorem lineFails_keepsNotices (key line : Nat) (s : State) : KeepsNotices s (lineFails key line s) := by
  rw [lineFails]
  generalize linePlaces line = l
  split
  · exact .of_eq rfl
  · exact tell_keepsNotices _ _

theorem recordFor_keepsNotices (g what n : Nat) (rec : BitVec 512) (s : State) : KeepsNotices s (recordFor g what n rec s) := by
  rw [recordFor]
  split
  · exact recordAt_keepsNotices g what n rec s
  next key line _ =>
    refine KeepsNotices.trans ?_
      (foldl_keepsNotices (fun (s : State) (x : Grid) => (recordAt_keepsNotices x.id 0 0 _ s).trans (endGrid_keepsNotices x.id 0x50 _)) _ _)
    refine KeepsNotices.trans ?_ (recordAt_keepsNotices g what n rec _)
    exact KeepsNotices.trans (.of_eq rfl) (lineFails_keepsNotices key line
      (countOn (homeDie s (64 * line)) (fun c => { c with macRetries := c.macRetries + 1 }) s))

theorem endWorld_keepsNotices (key code : Nat) (rec : Nat → BitVec 512) (s : State) : KeepsNotices s (endWorld key code rec s) := by
  rw [endWorld]
  exact foldl_keepsNotices (fun (s : State) (g : Grid) =>
    (recordFor_keepsNotices g.id 0 0 (rec g.id) s).trans (endGrid_keepsNotices g.id code _)) _ s

/-! ### Failed MACs and flits (R359, R374) -/

theorem mem_linePlaces (line : Nat) {i : Nat} (hi : i < 64) : 64 * line + i ∈ linePlaces line :=
  List.mem_map_of_mem (List.mem_range.mpr hi)

/-- A line that is poisoned: its 64 bytes are, and what was stays. -/
theorem poisonPlacesAt_line (line : Nat) (s : State) :
    (∀ i, i < 64 → 64 * line + i ∈ (poisonPlacesAt (linePlaces line) s).poison)
      ∧ ∀ a ∈ s.poison, a ∈ (poisonPlacesAt (linePlaces line) s).poison := by
  obtain ⟨hnew, hold⟩ := poisonPlacesAt_mem (linePlaces line) s
  exact ⟨fun i hi => hnew _ (mem_linePlaces line hi), hold⟩

/-- The counts of a MAC re-read. -/
def rereadCounted (line : Nat) (pass : Bool) (s : State) : State :=
  countOn (homeDie s (64 * line)) (fun c => { c with
    macRetries := c.macRetries + 1, transient := c.transient + (if pass then 1 else 0) }) s

theorem macReread_runs {line : Nat} (h : 64 * line < 824633720832) (pass : Bool) (s : State) :
    exec (.macReread line pass) s = .next (if pass then rereadCounted line pass s
      else failLine (lineOwner s line) line (rereadCounted line pass s)) := by
  show execMacReread line pass s = _
  rw [execMacReread]
  exact if_neg (Nat.not_le.mpr h)

theorem macReread_moon {line : Nat} (h : 64 * line < 824633720832) {s : State} (howner : lineOwner s line = 0) :
    Completes (.macReread line false) s fun t => t.mem = s.mem ∧ SameStrands s t ∧ t.halted = true
      ∧ (∀ i, i < 64 → 64 * line + i ∈ t.poison) ∧ ∀ a ∈ s.poison, a ∈ t.poison := by
  refine ⟨_, macReread_runs h false s, ?_⟩
  obtain ⟨hnew, hold⟩ := poisonPlacesAt_line line (rereadCounted line false s)
  rw [if_neg Bool.false_ne_true, howner, failLine, if_pos rfl, lineFails, if_pos rfl]
  generalize linePlaces line = l at hnew hold ⊢
  exact ⟨rfl, ⟨rfl, rfl, rfl⟩, rfl, hnew, hold⟩

theorem macReread_world {line key : Nat} (h : 64 * line < 824633720832) {s : State} (howner : lineOwner s line = key)
    (hkey : key ≠ 0) : Completes (.macReread line false) s fun t =>
      ∃ signature, .security key (64 * line) s.refNs signature ∈ t.notices := by
  refine ⟨_, macReread_runs h false s, sign (leBytes 8 key ++ leBytes 8 (64 * line) ++ leBytes 8 s.refNs), ?_⟩
  rw [if_neg Bool.false_ne_true, howner, failLine]
  simp only [hkey, if_false]
  refine endWorld_keepsNotices _ _ _ _ _ ?_
  rw [lineFails]
  simp only [hkey, if_false]
  generalize linePlaces line = l
  exact mem_tell _ _

/-- The count of a flit that is sent again. -/
def flitCounted (l : LinkRef) (s : State) : State :=
  countOn (linkDie l) (fun c => { c with linkRetries := c.linkRetries + 1 }) s

theorem flitRetry_writes {line : Nat} (h : 64 * line < 824633720832) (die : Nat) (s : State) :
    exec (.flitRetry (.stack die) (.write line) false) s
      = .next (poisonPlacesAt (linePlaces line) (flitCounted (.stack die) s)) :=
  congrArg Host.Outcome.next (if_pos h)

theorem flitRetry_fetches {line die : Nat} (h : 64 * line < 824633720832) {s : State} (hon : onStack s die [64 * line] = true) :
    exec (.flitRetry (.stack die) (.fetch line) false) s
      = .next { flitCounted (.stack die) s with failing := .line line :: s.failing } := by
  refine congrArg Host.Outcome.next (if_pos ?_)
  rw [Bool.and_eq_true]
  exact ⟨decide_eq_true h, hon⟩

/-! ### Key generations (R360 to R362) -/

theorem any_contains_iff {α : Type} [BEq α] [LawfulBEq α] (l m : List α) : (l.any fun x => m.contains x) = true ↔ ∃ x ∈ l, x ∈ m := by
  simp

theorem rekeyStack_waits {n : Nat} {s : State}
    (h : (∃ x ∈ (nth Link.reset s.links n).outstanding, x ∈ linkUsers s n)
      ∨ ∃ x ∈ (nth Link.reset s.links n).packets, x ∈ linkPackets s n) : rekeyStack n s = s := by
  rw [rekeyStack]
  refine if_pos ?_
  rw [Bool.or_eq_true, any_contains_iff, any_contains_iff]
  exact h

theorem rekeyStack_goes {n : Nat} {s : State}
    (h : ¬ ((∃ x ∈ (nth Link.reset s.links n).outstanding, x ∈ linkUsers s n)
      ∨ ∃ x ∈ (nth Link.reset s.links n).packets, x ∈ linkPackets s n)) :
    rekeyStack n s = { s with links := put .reset s.links n ⟨((nth Link.reset s.links n).gen + 1) % 16,
      Config.freeKey s.free (2048 + n), (nth Link.reset s.links n).key, linkUsers s n, linkPackets s n, 0⟩ } := by
  rw [rekeyStack]
  refine if_neg ?_
  rw [Bool.or_eq_true, any_contains_iff, any_contains_iff]
  exact h

theorem rekeyPerigee_waits {n : Nat} {s : State}
    (h : (nth Perigee.reset s.peri n).keyed = false ∨ ∃ x ∈ (nth Perigee.reset s.peri n).outstanding, x ∈ reductionsOn s n) :
    rekeyPerigee n s = s := by
  rw [rekeyPerigee]
  refine if_pos ?_
  rw [Bool.or_eq_true, any_contains_iff, Bool.not_eq_true']
  exact h

theorem rekeyPerigee_goes {n : Nat} {s : State}
    (h : ¬ ((nth Perigee.reset s.peri n).keyed = false
      ∨ ∃ x ∈ (nth Perigee.reset s.peri n).outstanding, x ∈ reductionsOn s n)) :
    rekeyPerigee n s = { s with peri := put .reset s.peri n { nth Perigee.reset s.peri n with
      gen := ((nth Perigee.reset s.peri n).gen + 1) % 16, key := Config.freeKey s.free n
      oldKey := (nth Perigee.reset s.peri n).key, outstanding := reductionsOn s n, flits := 0 } } := by
  rw [rekeyPerigee]
  refine if_neg ?_
  rw [Bool.or_eq_true, any_contains_iff, Bool.not_eq_true']
  exact h

/-! ### The host links and TDISP (R370, R371) -/

theorem mapPort_strands (b : Bool) (f : Port → Port) (s : State) :
    SameStrands s (mapPort b f s) ∧ (mapPort b f s).queues = s.queues ∧ (mapPort b f s).mem = s.mem := by
  rw [mapPort_frame]
  exact ⟨⟨rfl, rfl, rfl⟩, rfl, rfl⟩

theorem leaveRun_leaves (free k : Nat) (t : Tdisp) :
    (leaveRun free k t = .unlocked ∨ leaveRun free k t = .error) ∧ (t = .unlocked → leaveRun free k t = .unlocked) := by
  rw [leaveRun]
  split
  next h => exact ⟨.inl rfl, fun _ => rfl⟩
  next h =>
    split
    · exact ⟨.inr rfl, fun ht => absurd ht h⟩
    · exact ⟨.inl rfl, fun _ => rfl⟩

/-- The state of an interface of a port after a change of it. -/
theorem mapStream_state (b : Bool) (k : Nat) (f : Tdisp → Tdisp) (s : State) :
    nth Tdisp.unlocked ((mapStream b k f s).port b).streams k = f (nth .unlocked (s.port b).streams k) := by
  rw [mapStream, port_mapPort_self]
  exact nth_put_same _ _ _ _

/-! ### Accesses of hosts and peers (R311) -/

theorem hostKey_inj (b : Bool) {x y : Nat} (h : hostKey b x = hostKey b y) : x = y := Nat.add_left_cancel h

theorem hostAccess_own {b : Bool} {a : Nat} {bytes : List Byte} {s : State} (h : a + bytes.length ≤ Config.paSpace)
    (hw : Memory.wf s.mem = true) : Completes (.hostAccess b (.own a bytes)) s fun t =>
      (∀ i, i < bytes.length → Memory.read t.mem (hostKey b (a + i)) = nth 0 bytes i)
        ∧ SameBytes ((List.range bytes.length).map fun i => hostKey b (a + i)) s t := by
  have hplaces : (((List.range bytes.length).map fun i => hostKey b (a + i)).zip bytes).map (·.1)
      = (List.range bytes.length).map fun i => hostKey b (a + i) :=
    List.map_fst_zip (by rw [List.length_map, List.length_range])
  have hnodup : ((List.range bytes.length).map fun i => hostKey b (a + i)).Nodup :=
    List.nodup_range.map fun x y hxy => Nat.add_left_cancel (hostKey_inj b hxy)
  refine ⟨putPlaces 0 true (((List.range bytes.length).map fun i => hostKey b (a + i)).zip bytes) s, ?_, fun i hi => ?_, ?_⟩
  · exact if_pos h
  · refine putPlaces_read 0 true hw (by rw [hplaces]; exact hnodup) ?_
    refine List.mem_iff_getElem.mpr ⟨i, by simpa using hi, ?_⟩
    rw [List.getElem_zip, List.getElem_map, List.getElem_range, nth_eq_getElem _ _ _ hi]
  · have h := ((putPlaces_stored 0 true (((List.range bytes.length).map fun i => hostKey b (a + i)).zip bytes) s).2 hw).2
    rw [hplaces] at h
    exact h

theorem map_fst_zip_prefix {α β : Type} (l : List α) (m : List β) : (l.zip m).map (·.1) <+: l := by
  induction l generalizing m with
  | nil => exact List.nil_prefix
  | cons a l ih =>
    cases m with
    | nil => exact List.nil_prefix
    | cons b m => exact List.cons_prefix_cons.mpr ⟨rfl, ih m⟩

/-- A write from outside under one key id that meets no bad MAC is one write to memory. -/
theorem outerWrite_clean {parts : List (Nat × DWord × PagePart)} {k : Nat} {s : State}
    (hclean : ∀ x ∈ parts, x.2.2.key = k ∧ badLines s k x.2.2.pas = []) (bytes : List Byte) :
    (outerWrite parts bytes s).mem = (writePlaces k true ((allPas parts).zip bytes) s).mem := by
  have hkeys : ∀ y ∈ placesOf parts, y.1 = k := fun y hy => by
    obtain ⟨x, hx, ha⟩ := List.mem_flatMap.mp hy
    obtain ⟨a, -, rfl⟩ := List.mem_map.mp ha
    exact (hclean x hx).1
  have hall : ∀ a ∈ allPas parts, badLines s k [a] = [] := fun a ha => by
    obtain ⟨x, hx, ha⟩ := List.mem_flatMap.mp ha
    exact badLines_subset (hclean x hx).2 fun b hb => List.mem_singleton.mp hb ▸ ha
  have hzip : ((placesOf parts).zip bytes).map (fun x => (x.1.2, x.2)) = (allPas parts).zip bytes := by
    rw [← length_placesOf]
    exact (List.zip_map_left ..).symm
  have hone : ∀ x ∈ ((placesOf parts).zip bytes).map (fun x => x.1.1), x = k := fun x hx => by
    obtain ⟨y, hy, rfl⟩ := List.mem_map.mp hx
    exact hkeys _ (List.of_mem_zip (a := y.1) (b := y.2) hy).1
  rw [outerWrite]
  obtain hnil | hkey := eraseDups_const hone
  · have hempty : (placesOf parts).zip bytes = [] := List.map_eq_nil_iff.mp hnil
    simp only [hempty, List.map_nil] at hzip ⊢
    rw [← hzip]
    rfl
  · have hmine : ((placesOf parts).zip bytes).filter (fun x => x.1.1 = k) = (placesOf parts).zip bytes :=
      List.filter_eq_self.mpr fun y hy => decide_eq_true (hkeys _ (List.of_mem_zip (a := y.1) (b := y.2) hy).1)
    have hmac : macCheck k (partialPlaces (((allPas parts).zip bytes).map (·.1))) s = s := by
      refine macCheck_clean (badLines_of_each fun a ha => hall a ?_)
      obtain ⟨y, hy, rfl⟩ := List.mem_map.mp (List.mem_filter.mp ha).1
      exact (List.of_mem_zip (a := y.1) (b := y.2) hy).1
    simp only [hkey, List.foldl_cons, List.foldl_nil, hmine, hzip, hmac]

theorem outerWrite_writes {parts : List (Nat × DWord × PagePart)} {k : Nat} {s : State}
    (hclean : ∀ x ∈ parts, x.2.2.key = k ∧ badLines s k x.2.2.pas = []) (hnodup : (allPas parts).Nodup)
    (hw : Memory.wf s.mem = true) (bytes : List Byte) :
    SameBytes (allPas parts) s (outerWrite parts bytes s)
      ∧ ∀ y ∈ (allPas parts).zip bytes, Memory.read (outerWrite parts bytes s).mem y.1 = y.2 := by
  have hmem := outerWrite_clean hclean bytes
  have hput : writePlaces k true ((allPas parts).zip bytes) s = putPlaces k true ((allPas parts).zip bytes) s := by
    rw [writePlaces]
    exact if_pos rfl
  rw [hput] at hmem
  have hsub : ((allPas parts).zip bytes).map (·.1) <+: allPas parts := map_fst_zip_prefix _ _
  refine ⟨fun a ha => ?_, fun y hy => ?_⟩
  · rw [hmem]
    exact ((putPlaces_stored k true _ s).2 hw).2 a fun hin => ha (hsub.subset hin)
  · rw [hmem]
    exact putPlaces_read k true hw (hnodup.sublist hsub.sublist) hy

end Machine

end Sys2Proof

/-! ## Links and errors: the statement (R42, R184, R192, R311, R359 to R362, R370, R371, R374 to R376) -/

namespace Sys2Proof

namespace Machine

theorem macReread_passes {line : Nat} (h : 64 * line < 824633720832) (s : State) :
    Completes (.macReread line true) s fun t => t.mem = s.mem ∧ t.poison = s.poison ∧ SameStrands s t :=
  ⟨_, macReread_runs h true s, rfl, rfl, rfl, rfl, rfl⟩

theorem flitRetry_poisons {line : Nat} (h : 64 * line < 824633720832) (die : Nat) (s : State) :
    Completes (.flitRetry (.stack die) (.write line) false) s fun t => t.mem = s.mem ∧ SameStrands s t
      ∧ ∀ i, i < 64 → 64 * line + i ∈ t.poison := by
  obtain ⟨hnew, -⟩ := poisonPlacesAt_line line (flitCounted (.stack die) s)
  refine ⟨_, flitRetry_writes h die s, ?_⟩
  generalize linePlaces line = l at hnew ⊢
  exact ⟨rfl, ⟨rfl, rfl, rfl⟩, hnew⟩

/-- The next read of a line whose fetch failed is poisoned. -/
theorem badNow_of_failing {line : Nat} {s : State} (h : .line line ∈ s.failing) {a : Nat} (ha : a / 64 = line) :
    s.badNow a = true := by
  rw [State.badNow, Bool.or_eq_true]
  exact .inr (List.any_eq_true.mpr ⟨_, h, decide_eq_true ha⟩)

theorem keyGeneration_stack {n : Nat} {s : State} (hn : n < 12) :
    let waits := (∃ x ∈ (nth Link.reset s.links n).outstanding, x ∈ linkUsers s n)
      ∨ ∃ x ∈ (nth Link.reset s.links n).packets, x ∈ linkPackets s n
    (waits → Stutters (.keyGeneration (.stack n)) s)
    ∧ (¬ waits → Completes (.keyGeneration (.stack n)) s fun t =>
        (∃ key, nth Link.reset t.links n = ⟨((nth Link.reset s.links n).gen + 1) % 16, key, (nth Link.reset s.links n).key,
          linkUsers s n, linkPackets s n, 0⟩)
          ∧ ∀ j, j ≠ n → nth Link.reset t.links j = nth Link.reset s.links j) := by
  have hruns : exec (.keyGeneration (.stack n)) s = .next (rekeyStack n s) := if_neg (Nat.not_le.mpr hn)
  refine ⟨fun h => hruns.trans (congrArg _ (rekeyStack_waits h)), fun h => ⟨_, hruns, ?_⟩⟩
  rw [rekeyStack_goes h]
  exact ⟨⟨_, nth_put_same _ _ _ _⟩, fun j hj => nth_put_other _ _ _ _ _ hj⟩

theorem keyGeneration_perigee {n : Nat} {s : State} (hn : n < 16) :
    let p := nth Perigee.reset s.peri n
    let waits := p.keyed = false ∨ ∃ x ∈ p.outstanding, x ∈ reductionsOn s n
    (waits → Stutters (.keyGeneration (.perigee n)) s)
    ∧ (¬ waits → Completes (.keyGeneration (.perigee n)) s fun t =>
        (∃ key, nth Perigee.reset t.peri n = { p with
          gen := (p.gen + 1) % 16, key := key, oldKey := p.key, outstanding := reductionsOn s n, flits := 0 })
          ∧ ∀ j, j ≠ n → nth Perigee.reset t.peri j = nth Perigee.reset s.peri j) := by
  have hruns : exec (.keyGeneration (.perigee n)) s = .next (rekeyPerigee n s) := if_neg (Nat.not_le.mpr hn)
  refine ⟨fun h => hruns.trans (congrArg _ (rekeyPerigee_waits h)), fun h => ⟨_, hruns, ?_⟩⟩
  rw [rekeyPerigee_goes h]
  exact ⟨⟨_, nth_put_same _ _ _ _⟩, fun j hj => nth_put_other _ _ _ _ _ hj⟩

/-- A port whose link goes down runs no interface (R370, R371). -/
theorem hostLinkDown_downs (b : Bool) (s : State) : Completes (.hostLinkDown b) s fun t =>
    (t.port b).link = false ∧ t.port (!b) = s.port (!b) ∧ SameStrands s t ∧ t.queues = s.queues
      ∧ ∀ x ∈ (t.port b).streams, x ≠ .run := by
  refine ⟨_, rfl, ?_⟩
  obtain ⟨hstrands, hqueues, -⟩ := mapPort_strands b (fun p => { p with
    link := false, role := if p.role = 2 then 0 else p.role
    streams := p.streams.zipIdx.map fun (t, k) => leaveRun s.free k t }) s
  refine ⟨?_, port_mapPort_other _ _ _, hstrands, hqueues, fun x hx => ?_⟩
  · rw [port_mapPort_self]
  · rw [port_mapPort_self] at hx
    obtain ⟨y, -, rfl⟩ := List.mem_map.mp hx
    obtain h | h := (leaveRun_leaves s.free y.2 y.1).1
    · exact fun heq => nomatch heq.symm.trans h
    · exact fun heq => nomatch heq.symm.trans h

theorem hostLinkUp_ups {b : Bool} {s : State} (h : 4 ≤ s.stage) : Completes (.hostLinkUp b) s fun t =>
    (t.port b).link = true ∧ t.port (!b) = s.port (!b) ∧ SameStrands s t := by
  refine ⟨_, if_neg (Nat.not_lt.mpr h), ?_, port_mapPort_other _ _ _, (mapPort_strands _ _ _).1⟩
  rw [port_mapPort_self]

/-- What happens to an interface of a port (R371). -/
theorem tdisp_events (b : Bool) (k : BitVec 3) (s : State) :
    let st := fun (t : State) => nth Tdisp.unlocked (t.port b).streams k.toNat
    Completes (.ideIntegrityFailure b k) s (fun t => (st t = .unlocked ∨ st t = .error) ∧ (st s = .unlocked → st t = .unlocked))
    ∧ ((s.port b).link = true →
      Completes (.tdispStop b k) s (fun t => (st t = .unlocked ∨ st t = .error) ∧ (st s = .unlocked → st t = .unlocked))
      ∧ Completes (.tdispLockInterface b k) s (fun t => st t = if st s = .unlocked then .locked else st s)
      ∧ Completes (.tdispStartInterface b k) s (fun t => st t = if st s = .locked then .run else st s)) := by
  intro st
  have hleaves : (st (mapStream b k.toNat (leaveRun s.free k.toNat) s) = .unlocked
      ∨ st (mapStream b k.toNat (leaveRun s.free k.toNat) s) = .error)
      ∧ (st s = .unlocked → st (mapStream b k.toNat (leaveRun s.free k.toNat) s) = .unlocked) := by
    simp only [st, mapStream_state]
    exact leaveRun_leaves _ _ _
  exact ⟨⟨_, rfl, hleaves⟩, fun hlink => ⟨⟨_, if_pos hlink, hleaves⟩, ⟨_, if_pos hlink, mapStream_state _ _ _ _⟩,
    ⟨_, if_pos hlink, mapStream_state _ _ _ _⟩⟩⟩

section
variable {shown : Nat → State → State} {key : Nat} {va : DWord} {parts : List (Nat × DWord × PagePart)} {s : State}

theorem outerAccess_write {bytes : List Byte} (h : outerRange key .write va bytes.length s = some (parts, false)) :
    outerAccess (.write key va bytes) shown s = .next (outerWrite parts bytes s) := by
  rw [outerAccess, h]

theorem outerAccess_read {n : Nat} (h : outerRange key .read va n s = some (parts, false))
    (hclean : ∀ x ∈ parts, badLines s x.2.2.key x.2.2.pas = []) :
    outerAccess (.read key va n) shown s = .next (shown (leNat (((allPas parts).map s.readByte).take 8)) s) := by
  rw [outerAccess, h]
  simp only [outerRead, foldl_macCheck_clean hclean]

end

theorem hostAccess_down {b : Bool} {x : OuterAccess} {s : State} (h : (s.port b).link = false)
    (hx : ∀ a bytes, x ≠ .own a bytes) : exec (.hostAccess b x) s = .next s := by
  have hdown : ¬ (s.port b).link = true := by rw [h]; exact Bool.false_ne_true
  cases x with
  | own a bytes => exact absurd rfl (hx a bytes)
  | read key va n => exact if_neg hdown
  | write key va bytes => exact if_neg hdown
  | atomic key va op wide a c => exact if_neg hdown

theorem hostAccess_write {b : Bool} {key k : Nat} {va : DWord} {bytes : List Byte} {parts : List (Nat × DWord × PagePart)}
    {s : State} (hlink : (s.port b).link = true) (h : outerRange key .write va bytes.length s = some (parts, false))
    (hclean : ∀ x ∈ parts, x.2.2.key = k ∧ badLines s k x.2.2.pas = []) (hnodup : (allPas parts).Nodup)
    (hw : Memory.wf s.mem = true) : Completes (.hostAccess b (.write key va bytes)) s fun t =>
      SameBytes (allPas parts) s t ∧ ∀ y ∈ (allPas parts).zip bytes, Memory.read t.mem y.1 = y.2 :=
  ⟨_, (if_pos hlink).trans (outerAccess_write h), outerWrite_writes hclean hnodup hw bytes⟩

theorem hostAccess_read {b : Bool} {key n : Nat} {va : DWord} {parts : List (Nat × DWord × PagePart)} {s : State}
    (hlink : (s.port b).link = true) (h : outerRange key .read va n s = some (parts, false))
    (hclean : ∀ x ∈ parts, badLines s x.2.2.key x.2.2.pas = []) (hlen : (allPas parts).length ≤ 8) :
    Completes (.hostAccess b (.read key va n)) s fun t =>
      t.mem = s.mem ∧ (t.port b).lastRead.toNat = leNat ((allPas parts).map s.readByte) := by
  refine ⟨_, (if_pos hlink).trans (outerAccess_read h hclean), (mapPort_strands _ _ _).2.2, ?_⟩
  rw [port_mapPort_self, List.take_of_length_le (by rw [List.length_map]; exact hlen)]
  refine (BitVec.toNat_ofNat _ _).trans (Nat.mod_eq_of_lt (lt_of_lt_of_le (leNat_lt _) ?_))
  rw [List.length_map]
  exact (Nat.pow_le_pow_right (by decide) hlen).trans (by decide)

theorem peerAccess_write {port : BitVec 4} {key k : Nat} {va : DWord} {bytes : List Byte}
    {parts : List (Nat × DWord × PagePart)} {s : State} (hup : (nth Perigee.reset s.peri port.toNat).up = true)
    (h : outerRange key .write va bytes.length s = some (parts, false))
    (hclean : ∀ x ∈ parts, x.2.2.key = k ∧ badLines s k x.2.2.pas = []) (hnodup : (allPas parts).Nodup)
    (hw : Memory.wf s.mem = true) : Completes (.peerAccess port (.write key va bytes)) s fun t =>
      SameBytes (allPas parts) s t ∧ ∀ y ∈ (allPas parts).zip bytes, Memory.read t.mem y.1 = y.2 :=
  ⟨_, (if_pos hup).trans (outerAccess_write h), outerWrite_writes hclean hnodup hw bytes⟩

theorem perigee_trains {port : BitVec 4} {t : Training} {s : State} (hstage : 4 ≤ s.stage)
    (hon : s.offline.contains (port.toNat / 4) = false) : Completes (.perigeeTraining port t) s fun u =>
      let p := nth Perigee.reset u.peri port.toNat
      p.up = (t.deskew && (t.long || t.short)) ∧ p.keyed = (t.deskew && (t.long || t.short) && t.exchange)
        ∧ p.longFec = t.long ∧ p.gen = 0 ∧ u.mem = s.mem
        ∧ ∀ j, j ≠ port.toNat → nth Perigee.reset u.peri j = nth Perigee.reset s.peri j := by
  have hfree : ¬ (decide (s.stage < 4) || s.offline.contains (port.toNat / 4)) = true := by
    rw [hon, Bool.or_false, decide_eq_true_eq]
    omega
  refine ⟨_, if_neg hfree, ?_⟩
  dsimp only
  rw [nth_put_same]
  exact ⟨rfl, rfl, rfl, rfl, rfl, fun j hj => nth_put_other _ _ _ _ _ hj⟩

/-! ### Soft errors (R374, R375) -/

/-- The count of an error that is not corrected. -/
def errorCounted (e : ErrorSite) (s : State) : State :=
  countOn (errorDie s e) (fun c => { c with uncorrected := c.uncorrected + 1 }) s

theorem softError_line {a : Nat} (h : 64 * a < 824633720832) (s : State) :
    Completes (.softError (.line a) false) s fun t => t.mem = s.mem ∧ SameStrands s t ∧ ∀ i, i < 64 → 64 * a + i ∈ t.poison := by
  obtain ⟨hnew, -⟩ := poisonPlacesAt_line a (errorCounted (.line a) s)
  have hruns : exec (.softError (.line a) false) s = .next (poisonPlacesAt (linePlaces a) (errorCounted (.line a) s)) :=
    congrArg Host.Outcome.next (if_pos h)
  refine ⟨_, hruns, ?_⟩
  generalize linePlaces a = l at hnew ⊢
  exact ⟨rfl, ⟨rfl, rfl, rfl⟩, hnew⟩

theorem softError_l1 (core line : Nat) (s : State) : Completes (.softError (.l1 core line) false) s fun t => t.mem = s.mem
    ∧ SameStrands s t ∧ ∀ x ∈ t.l1, x.core = core → x.line = line → x.bad = List.range 64 := by
  refine ⟨_, rfl, rfl, ⟨rfl, rfl, rfl⟩, fun x hx hcore hline => ?_⟩
  obtain ⟨y, -, rfl⟩ := List.mem_map.mp hx
  revert hcore hline
  split
  · exact fun _ _ => rfl
  next hno => exact fun hcore hline => absurd (by simp [hcore, hline]) hno

theorem softError_vreg {r : StrandRef} {s : State} (hfocus : InFocus r s) (n : BitVec 7) (lane : BitVec 6) (bits : BitVec 32) :
    Completes (.softError (.vreg r n lane bits) false) s fun t => t.mem = s.mem
      ∧ ⟨0, n.toNat, lane.toNat, bits⟩ ∈ t.st.rfErr ∧ t.st.v = s.st.v ∧ t.st.s = s.st.s ∧ t.st.m = s.st.m := by
  have hself : (errorCounted (.vreg r n lane bits) s).focus r = some (errorCounted (.vreg r n lane bits) s) :=
    focus_self (s := errorCounted (.vreg r n lane bits) s) hfocus
  refine ⟨rfError r ⟨0, n.toNat, lane.toNat, bits⟩ (errorCounted (.vreg r n lane bits) s), rfl, ?_⟩
  rw [rfError, hself]
  exact ⟨rfl, List.mem_cons_self, rfl, rfl, rfl⟩

theorem clockGating_gates (c : Nat) (m : ClockMode) (s : State) : Completes (.clusterClockGating c m) s fun t =>
    (c ∈ t.gated ↔ m = .gated) ∧ (∀ k, k ≠ c → (k ∈ t.gated ↔ k ∈ s.gated)) ∧ t = { s with gated := t.gated } := by
  refine ⟨_, rfl, ?_, fun k hk => ?_, rfl⟩
  · dsimp only
    split
    next h => simp [h]
    next h => simp [h]
  · dsimp only
    split <;> simp [hk]

end Machine

open Machine

/-- Settles O51. -/
theorem linksAndErrors : Obligations.LinksAndErrors := by
  refine ⟨fun line s h => ⟨macReread_passes h s, macReread_moon h, fun key howner hkey => macReread_world h howner hkey,
      fun die => ⟨flitRetry_poisons h die s, fun hon => ⟨_, flitRetry_fetches h hon, rfl,
        fun a ha => badNow_of_failing List.mem_cons_self ha⟩⟩⟩,
    fun l f s => ⟨flitCounted l s, rfl, rfl, rfl, ⟨rfl, rfl, rfl⟩, ?_⟩,
    fun n s k hn hk => ?_, fun n s p hn hp => ?_,
    fun b s => ⟨hostLinkDown_downs b s, hostLinkUp_ups, fun k => tdisp_events b k s⟩,
    fun b s => ⟨fun a bytes h hw => hostAccess_own h hw, fun x h hx => hostAccess_down h hx,
      fun key va bytes parts k hlink h hclean hnodup hw => hostAccess_write hlink h hclean hnodup hw,
      fun key va n parts hlink h _ hclean hlen => hostAccess_read hlink h hclean hlen⟩,
    fun port s => ⟨fun x hdown => if_neg (by rw [hdown]; exact Bool.false_ne_true),
      fun key va bytes parts k hup h hclean hnodup hw => peerAccess_write hup h hclean hnodup hw,
      fun t hstage hon => perigee_trains hstage hon⟩,
    fun e s => ⟨_, rfl, rfl, rfl, rfl, rfl, rfl⟩, fun a s h => softError_line h s, softError_l1,
    fun r n lane bits s hfocus => softError_vreg hfocus n lane bits, clockGating_gates⟩
  · rw [flitCounted, countOn, nth_put_same]
  · subst hk
    exact keyGeneration_stack hn
  · subst hp
    exact keyGeneration_perigee hn

end Sys2Proof

/-! ## Bring-up, resets and the loader (R10, R350, R365, R366, R377) -/

namespace Sys2Proof

namespace Machine

/-! ### Bring-up (R366, R377) -/

theorem powerOn_runs {s : State} (h : s.halted = false) (b : BringUp) : exec (.powerOn b) s = .next (bringUp b s) :=
  if_neg (by rw [h]; exact Bool.false_ne_true)

theorem versionsOk_iff {s : State} {v : List Nat} : versionsOk s v = true ↔ ∀ k, k < 12 → nth 0 s.fused k ≤ nth 0 v k := by
  rw [versionsOk, List.all_eq_true]
  simp only [List.mem_range, decide_eq_true_eq]

theorem bringUp_firmware {digests : List (List Byte)} {v : List Nat} {s : State} (hstage : s.stage = 0)
    (hv : ∀ k, k < 12 → nth 0 s.fused k ≤ nth 0 v k) :
    let t := bringUp (.firmware true digests v) s
    t.stage = 1 ∧ t.versions = v ∧ t.fused = s.fused ∧ t.mem = s.mem ∧ t.measured.length = s.measured.length
      ∧ ∀ k, k < s.measured.length →
        nth 0 t.measured k = shake256 (leBytes 64 (nth 0 s.measured k).toNat ++ nth [] digests k) := by
  intro t
  have ht : t = { s with
      stage := 1, measured := s.measured.zipIdx.map fun (m, k) => measure m (nth [] digests k), versions := v
      kem := (List.range 1568).map fun i => Config.freeByte s.free (2 ^ 40 + i) } := by
    refine (if_neg (not_not.mpr hstage)).trans (if_pos ?_)
    rw [Bool.true_and]
    exact versionsOk_iff.mpr hv
  have hmeasured : t.measured = s.measured.zipIdx.map fun (m, k) => measure m (nth [] digests k) := by rw [ht]
  have hlen : t.measured.length = s.measured.length := by rw [hmeasured, List.length_map, List.length_zipIdx]
  refine ⟨by rw [ht], by rw [ht], by rw [ht], by rw [ht], hlen, fun k hk => ?_⟩
  rw [nth_eq_getElem _ _ _ (hlen ▸ hk), nth_eq_getElem _ _ _ hk]
  simp only [hmeasured, List.getElem_map, List.getElem_zipIdx, Nat.zero_add]
  rfl

theorem bringUp_refuses {ok : Bool} {digests : List (List Byte)} {v : List Nat} {s : State} (hstage : s.stage = 0)
    (h : ok = false ∨ ∃ k, k < 12 ∧ nth 0 v k < nth 0 s.fused k) : bringUp (.firmware ok digests v) s = tell .notReady s := by
  refine (if_neg (not_not.mpr hstage)).trans (if_neg fun hgood => ?_)
  obtain ⟨hok, hv⟩ := Bool.and_eq_true_iff.mp hgood
  rcases h with h | ⟨k, hk, hlt⟩
  · exact Bool.false_ne_true (h.symm.trans hok)
  · exact absurd (versionsOk_iff.mp hv k hk) (Nat.not_le.mpr hlt)

theorem bringUp_fabric {l : List Nat} {s : State} (hstage : s.stage = 2) :
    let t := bringUp (.fabric l) s
    t.stage = 3 ∧ t.offline = (s.offline ++ l).eraseDups ∧ t = { s with stage := 3, offline := t.offline, links := t.links }
      ∧ ∀ n, n < s.links.length → n / 3 ∉ t.offline → ∃ key, nth Link.reset t.links n = { Link.reset with key := key } := by
  intro t
  have ht : t = { s with
      stage := 3, offline := (s.offline ++ l).eraseDups
      links := s.links.zipIdx.map fun (k, n) => if (s.offline ++ l).eraseDups.contains (n / 3) then k
        else { Link.reset with key := Config.freeKey s.free (2048 + n) } } := if_pos hstage
  have hlinks : t.links = s.links.zipIdx.map fun (k, n) => if (s.offline ++ l).eraseDups.contains (n / 3) then k
      else { Link.reset with key := Config.freeKey s.free (2048 + n) } := by rw [ht]
  have hoffline : t.offline = (s.offline ++ l).eraseDups := by rw [ht]
  refine ⟨by rw [ht], hoffline, by rw [ht], fun n hn hon => ⟨Config.freeKey s.free (2048 + n), ?_⟩⟩
  rw [nth_eq_getElem _ _ _ (by rw [hlinks, List.length_map, List.length_zipIdx]; exact hn)]
  simp only [hlinks, List.getElem_map, List.getElem_zipIdx, Nat.zero_add]
  rw [hoffline] at hon
  exact if_neg (by simpa using hon)

/-! ### Resets (R365, R377) -/

theorem warmReset_dead {s : State} (h : ∀ w ∈ s.allWorlds, w.live = false) : Completes .warmReset s fun t =>
    t.mem = s.mem ∧ t.poison = s.poison ∧ t.lineKeys = s.lineKeys ∧ t.scrub = s.scrub ∧ t.slots = s.slots ∧ t.fused = s.fused
      ∧ t.worlds = s.allWorlds ∧ t.blocks = [] ∧ t.grids = [] ∧ t.packets = [] ∧ t.queues = [] ∧ t.locked = false
      ∧ t.accepted = 0 ∧ t.stage = 0 ∧ t.portA = .reset ∧ t.portB = .reset ∧ t.st.here = false := by
  have hnone : s.allWorlds.filter (·.live) = [] := List.filter_eq_nil_iff.mpr fun w hw => by rw [h w hw]; exact Bool.false_ne_true
  refine ⟨_, rfl, ?_⟩
  have hworlds : s.dropBlock.dropGrid.dropWorld.worlds = s.allWorlds := rfl
  dsimp only
  rw [hworlds, hnone, List.foldl_nil]
  exact ⟨rfl, rfl, rfl, rfl, rfl, rfl, rfl, rfl, rfl, rfl, rfl, rfl, rfl, rfl, rfl, rfl, rfl⟩

/-- A byte of memory of which some addresses have been taken out. -/
theorem read_filter_above (q : Nat → Bool) : ∀ (m : Memory) (lo a : Nat), Memory.above m lo = true →
    Memory.read (m.filter fun x => q x.1) a = if q a then Memory.read m a else 0#8
  | [], _, a, _ => by rw [List.filter_nil]; exact (ite_self _).symm
  | (k, b) :: t, lo, a, h => by
    rw [Memory.above, Bool.and_eq_true, Bool.and_eq_true] at h
    obtain ⟨-, habove⟩ := h
    have ih := read_filter_above q t (k + 1) a habove
    have hbelow : a < k → Memory.read t a = 0#8 := fun hlt => Memory.read_below t (k + 1) a habove (by omega)
    rw [List.filter_cons]
    rcases Nat.lt_trichotomy a k with hlt | rfl | hgt
    · have hhead : Memory.read ((k, b) :: t) a = 0#8 := by rw [Memory.read, if_neg (by omega), if_pos hlt]
      rw [hbelow hlt, ite_self] at ih
      rw [hhead, ite_self]
      split
      · rw [Memory.read, if_neg (by omega), if_pos hlt]
      · exact ih
    · have hhead : Memory.read ((a, b) :: t) a = b := by rw [Memory.read, if_pos rfl]
      rw [hhead]
      split
      next hq => rw [Memory.read, if_pos rfl]
      next hq =>
        rw [ih, if_neg hq]
    · have hhead : Memory.read ((k, b) :: t) a = Memory.read t a := by rw [Memory.read, if_neg (by omega), if_neg (by omega)]
      rw [hhead]
      split
      · rw [Memory.read, if_neg (by omega), if_neg (by omega), ih]
      · exact ih

theorem powerLoss_forgets {s : State} (hw : Memory.wf s.mem = true) : Completes .powerLoss s fun t =>
    (∀ a, a < Config.paSpace → Memory.read t.mem a = 0) ∧ (∀ a, Config.paSpace ≤ a → Memory.read t.mem a = Memory.read s.mem a)
      ∧ t.worlds = [] ∧ t.blocks = [] ∧ t.slots = [] ∧ t.scrub = [] ∧ t.stage = 0 ∧ t.fused = s.fused := by
  have hread := fun a => read_filter_above (fun x => decide (Config.paSpace ≤ x)) s.mem 0 a hw
  refine ⟨_, rfl, fun a ha => ?_, fun a ha => ?_, rfl, rfl, rfl, rfl, rfl, rfl⟩
  · refine (hread a).trans (if_neg ?_)
    rw [decide_eq_true_eq]
    exact Nat.not_le.mpr ha
  · exact (hread a).trans (if_pos (decide_eq_true ha))

/-! ### The loader (R10, R350, R351) -/

theorem programLoad_early {p : Loaded} {s : State} (h : s.stage < 5) : exec (.programLoad p) s = .next s := if_pos h

section
variable {p : Loaded} {s : State} (hstage : 5 ≤ s.stage)
include hstage

theorem programLoad_noWorld (h : loadWorld s p.handle = none) : exec (.programLoad p) s = .next (tell (.refused 10) s) := by
  show execProgramLoad p s = _
  rw [execProgramLoad, if_neg (Nat.not_lt.mpr hstage), h]
  rfl

variable {w : LoadWorld} (hw : loadWorld s p.handle = some w)
include hw

theorem programLoad_refuses (h : loadSections p w p.sections p.entry.toNat p.tables (beginProgram p s) = none) :
    exec (.programLoad p) s = .next (tell (.refused 10) s) := by
  show execProgramLoad p s = _
  rw [execProgramLoad, if_neg (Nat.not_lt.mpr hstage), hw]
  simp only [h]
  rfl

/-- A program whose sections load, and that is anonymous or has no host section. -/
theorem programLoad_loads {u : State} (h : loadSections p w p.sections p.entry.toNat p.tables (beginProgram p s) = some u)
    (hqueue : hostSection p = none ∨ p.handle = 0) :
    exec (.programLoad p) s = .next (if (hostSection p).isSome then tell (.refused 6) u else u) := by
  show execProgramLoad p s = _
  rw [execProgramLoad, if_neg (Nat.not_lt.mpr hstage), hw]
  simp only [h]
  cases hhost : hostSection p with
  | none => rfl
  | some b =>
    rw [hhost] at hqueue
    have hzero : p.handle = 0 := hqueue.resolve_left nofun
    simp only [hzero, if_true]
    rfl

end

/-- A section whose bytes stand in memory as they are loaded: not sealed and not under another world's key. -/
def PlainSection (x : Section) : Prop := x.kind = .code ∨ x.kind = .data ∨ ∃ b, x.kind = .host b

theorem PlainSection.facts {x : Section} (h : PlainSection x) (s t : State) (p : Loaded) (w : LoadWorld) (entry : Nat) :
    sectionOk t p w x = sectionOk s p w x ∧ tableFull x entry = false ∧ sectionKey s w x = w.key ∧ sectionBytes w x = x.bytes := by
  obtain ⟨kind, va, pa, bytes⟩ := x
  rcases h with rfl | rfl | ⟨b, rfl⟩
  · exact ⟨rfl, rfl, rfl, rfl⟩
  · exact ⟨rfl, rfl, rfl, rfl⟩
  · exact ⟨rfl, rfl, rfl, rfl⟩

/-- A plain section goes to its places (R10). -/
theorem loadSection_plain {p : Loaded} {w : LoadWorld} {x : Section} {entry : Nat} {frames fr : List Nat} {s u : State}
    {pas : List Nat} (hplain : PlainSection x) (hok : sectionOk s p w x = true)
    (hmap : mapPages w entry x (ceilDiv x.bytes.length 65536) frames s = some (fr, u)) (hplaces : sectionPlaces u w x = some pas) :
    ∃ v, loadSection p w x entry frames s = some (entry, fr, v) ∧ v.mem = (putPlaces w.key true (pas.zip x.bytes) u).mem := by
  obtain ⟨-, hfull, -, hbytes⟩ := hplain.facts s s p w entry
  have hkey := (hplain.facts u u p w entry).2.2.1
  have hfree : ¬ (!sectionOk s p w x || tableFull x entry) = true := by rw [hok, hfull]; exact Bool.false_ne_true
  have hmem : ∀ (f : AnonProgram → AnonProgram) (t : State), (mapProgram f t).mem = t.mem := fun f t => by
    rw [mapProgram]
    split <;> rfl
  have hruns : loadSection p w x entry frames s = some (entry, fr, if w.key = 0 then
      mapProgram (fun p => { p with pages := pas.foldl (fun l a => insertNew (a / 65536) l) p.pages })
        (putPlaces w.key true (pas.zip x.bytes) u) else putPlaces w.key true (pas.zip x.bytes) u) := by
    rw [loadSection, if_neg hfree, hmap]
    simp only [hplaces, hkey, hbytes]
    rcases hplain with h | h | ⟨b, h⟩ <;> simp only [h]
  refine ⟨_, hruns, ?_⟩
  split
  · exact hmem _ _
  · rfl

/-- Loading a program of one plain section (R10, R350). -/
theorem programLoad_one {p : Loaded} {s : State} {w : LoadWorld} {x : Section} {fr : List Nat} {u : State} {pas : List Nat}
    (hstage : 5 ≤ s.stage) (hw : loadWorld s p.handle = some w) (hone : p.sections = [x])
    (hkind : x.kind = .code ∨ x.kind = .data ∨ p.handle = 0 ∧ ∃ b, x.kind = .host b) (hok : sectionOk s p w x = true)
    (hmap : mapPages w p.entry.toNat x (ceilDiv x.bytes.length 65536) p.tables (beginProgram p s) = some (fr, u))
    (hplaces : sectionPlaces u w x = some pas) (hnodup : pas.Nodup) (hwf : Memory.wf u.mem = true) :
    Completes (.programLoad p) s fun t => (∀ y ∈ pas.zip x.bytes, Memory.read t.mem y.1 = y.2) ∧ SameBytes pas u t
      ∧ ((∃ b, x.kind = .host b) → .refused 6 ∈ t.notices) := by
  have hplain : PlainSection x := hkind.imp_right (Or.imp_right And.right)
  have hhost : hostSection p = match x.kind with | .host b => some b | _ => none := by
    rw [hostSection, hone, List.findSome?_cons]
    split <;> rename_i h
    · exact h.symm
    · exact h.symm
  have hqueue : hostSection p = none ∨ p.handle = 0 := by
    rcases hkind with h | h | ⟨h, -⟩
    · exact .inl (by rw [hhost, h])
    · exact .inl (by rw [hhost, h])
    · exact .inr h
  have hok' : sectionOk (beginProgram p s) p w x = true := ((hplain.facts s (beginProgram p s) p w 0).1).trans hok
  obtain ⟨v, hload, hmem⟩ := loadSection_plain hplain hok' hmap hplaces
  have hsections : loadSections p w p.sections p.entry.toNat p.tables (beginProgram p s) = some v := by
    rw [hone, loadSections, hload]
    rfl
  have hprefix := map_fst_zip_prefix pas x.bytes
  have hkept : ∀ n : Notice, (tell n v).mem = v.mem := fun _ => rfl
  refine ⟨_, programLoad_loads hstage hw hsections hqueue, fun y hy => ?_, fun a ha => ?_, fun hb => ?_⟩
  · rw [apply_ite State.mem, hkept, ite_self, hmem]
    exact putPlaces_read _ _ hwf (hnodup.sublist hprefix.sublist) hy
  · rw [apply_ite State.mem, hkept, ite_self, hmem]
    exact ((putPlaces_stored _ _ _ u).2 hwf).2 a fun hin => ha (hprefix.subset hin)
  · obtain ⟨b, hb⟩ := hb
    rw [hhost, hb]
    exact mem_tell _ v

end Machine

open Machine

/-- Settles O52. -/
theorem powerAndLoad : Obligations.PowerAndLoad := by
  refine ⟨fun s hrun => ⟨fun digests v hstage hv => ⟨_, powerOn_runs hrun _, bringUp_firmware hstage hv⟩,
      fun ok digests v hstage h => (powerOn_runs hrun _).trans (congrArg _ (bringUp_refuses hstage h)),
      fun ok digests v hstage => (powerOn_runs hrun _).trans (congrArg _ (if_pos hstage)),
      fun l hstage => (powerOn_runs hrun _).trans (congrArg _ (if_pos hstage)),
      fun l hstage => ⟨_, powerOn_runs hrun _, bringUp_fabric hstage⟩, fun a b hstage => ⟨_, powerOn_runs hrun _, ?_⟩,
      fun hstage => (powerOn_runs hrun _).trans (congrArg _ (if_pos hstage))⟩,
    fun s h => warmReset_dead h, fun s hw => powerLoss_forgets hw,
    fun p s => ⟨programLoad_early, programLoad_noWorld, fun hstage w hw => ⟨programLoad_refuses hstage hw,
      fun x fr u pas hone hkind hok hmap hplaces hnodup hwf =>
        programLoad_one hstage hw hone hkind hok hmap hplaces hnodup hwf⟩⟩⟩
  have hpcie : bringUp (.pcie a b) s = mapPort false (fun p => { p with link := a })
      (mapPort true (fun p => { p with link := b }) { s with stage := 4 }) := if_pos hstage
  rw [hpcie]
  exact ⟨rfl, rfl, rfl⟩

end Sys2Proof

/-! ## Outstanding operations: what remains of one, and the registers that it writes (R37, R230, R237) -/

namespace Sys2Proof

namespace Machine

/-! ### Units that have been performed -/

theorem opAt_serial {t : Strand} {n : Nat} {o : Op} (h : opAt t n = some o) : o.serial = n := by
  simpa [opAt] using List.find?_some h

/-- Performing units of an operation leaves it with the others. -/
theorem undone_map {lanes l : List LaneAcc} {f : LaneAcc → LaneAcc} (hin : ∀ a ∈ l, (f a).done = true)
    (hout : ∀ a, a ∉ l → f a = a) :
    (lanes.map f).filter (fun a => !a.done) = (lanes.filter fun a => !a.done).filter fun a => !l.contains a := by
  induction lanes with
  | nil => rfl
  | cons a lanes ih =>
    rw [List.map_cons, List.filter_cons, List.filter_cons, ih]
    by_cases ha : a ∈ l
    · have hc : l.contains a = true := by simpa using ha
      rw [hin a ha]
      split
      · rename_i hd
        exact absurd hd (by decide)
      · split
        · rw [List.filter_cons, hc]
          rfl
        · rfl
    · have hc : l.contains a = false := by simpa using ha
      rw [hout a ha]
      split
      · rw [List.filter_cons, hc]
        rfl
      · rfl

theorem mark_undone (o : Op) (l : List LaneAcc) : (o.mark l).undone = o.undone.filter fun a => !l.contains a := by
  refine undone_map (fun a ha => ?_) fun a ha => ?_
  · rw [if_pos (by simpa using ha)]
  · rw [if_neg (by simpa using ha)]

theorem take_undone (o : Op) (l : List LaneAcc) (read : LaneAcc → List Byte) (bad : LaneAcc → Bool) :
    (o.take l read bad).undone = o.undone.filter fun a => !l.contains a := by
  refine undone_map (fun a ha => ?_) fun a ha => ?_
  · rw [if_pos (by simpa using ha)]
  · rw [if_neg (by simpa using ha)]

theorem complete_iff {o : Op} : o.complete = true ↔ o.undone = [] := by
  rw [Op.complete, List.all_eq_true, Op.undone, List.filter_eq_nil_iff]
  simp

/-! ### What leaves registers as they are -/

/-- A strand's registers and place are another's. -/
def SameRegs (a b : Strand) : Prop := b.v = a.v ∧ b.s = a.s ∧ b.m = a.m ∧ b.pc = a.pc

theorem SameRegs.refl (a : Strand) : SameRegs a a := ⟨rfl, rfl, rfl, rfl⟩

theorem SameRegs.trans {a b c : Strand} (h : SameRegs a b) (k : SameRegs b c) : SameRegs a c :=
  ⟨k.1.trans h.1, k.2.1.trans h.2.1, k.2.2.1.trans h.2.2.1, k.2.2.2.trans h.2.2.2⟩

theorem Woken.sameRegs {a b : Strand} (h : Woken a b) : SameRegs a b := by
  rw [h.1]
  exact ⟨rfl, rfl, rfl, rfl⟩

theorem Woken.ops {a b : Strand} (h : Woken a b) : b.ops = a.ops := by rw [h.1]

/-- Beside the operations and the status of the strand in focus, an L1 and what has been woken, nothing has
changed. -/
def OnlyOps (s t : State) : Prop :=
  SameRegs s.st t.st ∧ t.mem = s.mem ∧ t.memTags = s.memTags ∧ t.qnt = s.qnt ∧ t.dups = s.dups ∧ t.grd = s.grd
    ∧ t.blk.scratch = s.blk.scratch ∧ t.readyPool = s.readyPool ∧ t.readyWait = s.readyWait ∧ t.blk.bbdrops = s.blk.bbdrops

theorem OnlyOps.refl (s : State) : OnlyOps s s := ⟨.refl _, rfl, rfl, rfl, rfl, rfl, rfl, rfl, rfl, rfl⟩

theorem OnlyOps.trans {s t u : State} (h : OnlyOps s t) (k : OnlyOps t u) : OnlyOps s u := by
  obtain ⟨h1, h2, h3, h4, h5, h6, h7, h8, h9, h10⟩ := h
  obtain ⟨k1, k2, k3, k4, k5, k6, k7, k8, k9, k10⟩ := k
  exact ⟨h1.trans k1, k2.trans h2, k3.trans h3, k4.trans h4, k5.trans h5, k6.trans h6, k7.trans h7, k8.trans h8, k9.trans h9,
    k10.trans h10⟩

theorem Wakes.onlyOps {s t : State} (h : Wakes s t) : OnlyOps s t := by
  obtain ⟨hframe, hst, hblk, -⟩ := h
  have hscratch : t.blk.scratch = s.blk.scratch ∧ t.blk.bbdrops = s.blk.bbdrops := by
    rw [hblk.1]
    exact ⟨rfl, rfl⟩
  refine ⟨hst.sameRegs, ?_, ?_, ?_, ?_, ?_, hscratch.1, ?_, ?_, hscratch.2⟩ <;> rw [hframe]

/-- An operation that has completed stands no more. -/
theorem opDone_spec (n : Nat) (s : State) : OnlyOps s (opDone n s) ∧ opAt (opDone n s).st n = none := by
  have hwakes := (pokeStrand_wakes s.st.ref (dropOp n s)).trans
    (pokeBlock_wakes ⟨s.st.grid, s.st.block⟩ (pokeStrand s.st.ref (dropOp n s)))
  have hdrop : OnlyOps s (dropOp n s) := ⟨⟨rfl, rfl, rfl, rfl⟩, rfl, rfl, rfl, rfl, rfl, rfl, rfl, rfl, rfl⟩
  refine ⟨hdrop.trans hwakes.onlyOps, ?_⟩
  have hops : (opDone n s).st.ops = s.st.ops.filter fun x => x.serial ≠ n := hwakes.2.1.ops
  rw [opAt, hops]
  refine List.find?_eq_none.mpr fun x hx => ?_
  have h := (List.mem_filter.mp hx).2
  simpa using h

theorem setOp_spec {n : Nat} {o x : Op} {s : State} (h : opAt s.st n = some x) (hserial : o.serial = n) :
    OnlyOps s (setOp o s) ∧ opAt (setOp o s).st n = some o := by
  refine ⟨⟨⟨rfl, rfl, rfl, rfl⟩, rfl, rfl, rfl, rfl, rfl, rfl, rfl, rfl, rfl⟩, ?_⟩
  subst hserial
  have hserials : ((fun y : Op => decide (y.serial = o.serial)) ∘ fun y => if decide (y.serial = o.serial) = true then o else y)
      = fun y => decide (y.serial = o.serial) := by
    funext y
    by_cases hy : y.serial = o.serial
    · simp [hy]
    · simp [hy]
  rw [opAt, setOp]
  dsimp only
  rw [update, List.find?_map, hserials]
  rw [opAt] at h
  rw [h, Option.map_some, if_pos (by simpa using List.find?_some h)]

theorem acquireDone_onlyOps (ord scope : Nat) (s : State) : OnlyOps s (acquireDone ord scope s) := by
  rw [acquireDone]
  split
  · exact ⟨.refl _, rfl, rfl, rfl, rfl, rfl, rfl, rfl, rfl, rfl⟩
  · exact .refl s

/-- An operation goes on with the units that are left. -/
theorem opGoesOn_spec {n : Nat} {o x : Op} {s : State} (h : opAt s.st n = some x) (hserial : o.serial = n) :
    OnlyOps s (opGoesOn o s) ∧ LeftWith n o.undone (opGoesOn o s) := by
  rw [opGoesOn]
  by_cases hc : o.complete = true
  · rw [if_pos hc]
    obtain ⟨hframe, hnone⟩ := opDone_spec o.serial (acquireDone o.ord o.scope s)
    refine ⟨(acquireDone_onlyOps _ _ s).trans hframe, ?_⟩
    rw [LeftWith, if_pos (complete_iff.mp hc), ← hserial]
    exact hnone
  · rw [if_neg hc]
    obtain ⟨hframe, hat⟩ := setOp_spec h hserial
    refine ⟨hframe, ?_⟩
    rw [LeftWith, if_neg (mt complete_iff.mpr hc)]
    exact ⟨o, hat, rfl⟩

/-! ### The words of a destination (R230, R237) -/

section
variable (t : Strand) (uni : Bool)

theorem setWords_m (r lane : Nat) (l : List Word) : (t.setWords uni r lane l).m = t.m ∧ (t.setWords uni r lane l).pc = t.pc
    ∧ (t.setWords uni r lane l).ops = t.ops ∧ (t.setWords uni r lane l).status = t.status := by
  induction l generalizing t r with
  | nil => exact ⟨rfl, rfl, rfl, rfl⟩
  | cons w l ih =>
    cases uni
    · exact ih (t.vsetLane r lane w) (r + 1)
    · exact ih (t.sset r w) (r + 1)

theorem vget_vsetLane (r lane k i : Nat) (w : Word) :
    (t.vsetLane r lane w).vget k i = if k = r ∧ i = lane then w else t.vget k i := by
  rw [Strand.vget, Strand.vsetLane, Strand.vget]
  dsimp only
  by_cases hk : k = r
  · subst hk
    rw [nth_put_same]
    by_cases hi : i = lane
    · subst hi
      rw [nth_put_same, if_pos ⟨rfl, rfl⟩]
    · rw [nth_put_other _ _ _ _ _ hi, if_neg (fun h => hi h.2)]
  · rw [nth_put_other _ _ _ _ _ hk, if_neg (fun h => hk h.1)]

/-- The register of a destination that a word goes to: a scalar one, or a lane of a vector register. -/
def Strand.dstGet (t : Strand) (uni : Bool) (k lane : Nat) : Word := if uni then t.sget k else t.vget k lane

theorem setWords_before (r lane k i : Nat) (l : List Word) (h : k < r ∨ (uni = false ∧ i ≠ lane)) :
    (t.setWords uni r lane l).dstGet uni k i = t.dstGet uni k i := by
  induction l generalizing t r with
  | nil => rfl
  | cons w l ih =>
    rw [Strand.setWords, ih _ _ (h.imp_left (by omega))]
    cases uni
    · refine (vget_vsetLane t r lane k i w).trans (if_neg fun hki => ?_)
      rcases h with h | ⟨-, h⟩
      · omega
      · exact h hki.2
    · have hk : k ≠ r := by
        rcases h with h | ⟨h, -⟩
        · omega
        · cases h
      show (t.sset r w).sget k = t.sget k
      simp [hk]

theorem setWords_holds (r lane k : Nat) (l : List Word) (w : Word) (h : l[k]? = some w) :
    (t.setWords uni r lane l).dstGet uni (r + k) lane = w := by
  induction l generalizing t r k with
  | nil => cases h
  | cons x l ih =>
    cases k with
    | zero =>
      cases h
      rw [Strand.setWords, setWords_before _ _ _ _ _ _ _ (.inl (by omega))]
      cases uni
      · exact (vget_vsetLane t r lane r lane w).trans (if_pos ⟨rfl, rfl⟩)
      · show (t.sset r w).sget r = w
        simp
    | succ k =>
      rw [Strand.setWords, show r + (k + 1) = r + 1 + k from by omega]
      exact ih _ _ _ h

end

theorem holds_iff {o : Op} {lane : Nat} {l : List Word} {t : State} :
    Holds o lane l t ↔ ∀ k w, l[k]? = some w → t.st.dstGet o.uni (o.dst + k) lane = w := Iff.rfl

/-- Registers that stand in another state hold the same words. -/
theorem Holds.of_regs {o : Op} {lane : Nat} {l : List Word} {t u : State} (h : Holds o lane l t) (hregs : SameRegs t.st u.st) :
    Holds o lane l u := by
  intro k w hk
  have h := h k w hk
  obtain ⟨hv, hs, -⟩ := hregs
  rw [Strand.sget, Strand.vget, hv, hs]
  exact h

end Machine

end Sys2Proof

/-! ## LOAD_COMPLETE: what a load's units read, and the destination that a lane then holds (R230, R237) -/

namespace Sys2Proof

namespace Machine

/-! ### Operations of the strand in focus -/

theorem withOp_here {r : StrandRef} {n : Nat} {o : Op} {s : State} (hfocus : InFocus r s) (hop : opAt s.st n = some o)
    (k : Op → State → Out) : withOp r n s k = k o s := by
  simp only [withOp, focus_self hfocus, hop]

theorem foldl_macCheck_units {l : List LaneAcc} {s : State} (h : ∀ a ∈ l, badLines s a.key a.pas = []) :
    l.foldl (fun s a => macCheck a.key a.pas s) s = s := by
  induction l with
  | nil => rfl
  | cons a l ih =>
    rw [List.foldl_cons, macCheck_clean (h a List.mem_cons_self)]
    exact ih fun b hb => h b (List.mem_cons_of_mem a hb)

theorem mem_picked {o : Op} {u : Sys2Proof.Units} {a : LaneAcc} (h : a ∈ o.picked u) : a ∈ o.lanes ∧ a.done = false := by
  have h := List.mem_filter.mp (List.mem_filter.mp h).1
  exact ⟨h.1, by simpa using h.2⟩

/-! ### The caches on the way of a load -/

/-- Beside the L1s and the copies of RDUP lines, nothing has changed. -/
def OnlyCopies (s t : State) : Prop := t = { s with l1 := t.l1, dups := t.dups }

theorem OnlyCopies.trans {s t u : State} (h : OnlyCopies s t) (k : OnlyCopies t u) : OnlyCopies s u := by
  rw [OnlyCopies] at *
  rw [k, h]

theorem l1Put_copies (core line : Nat) (bytes : List Byte) (bad : List Nat) (s : State) :
    OnlyCopies s (l1Put core line bytes bad s) := rfl

theorem l1Take_copies (src : ServeFrom) (o : Op) (a : LaneAcc) (s : State) : OnlyCopies s (l1Take src o a s) := by
  rw [l1Take]
  split
  · exact rfl
  · split
    · exact rfl
    · exact foldl_related (r := OnlyCopies) (fun _ => rfl) (fun h k => h.trans k) (fun (t : State) (line : Nat) => l1Put_copies _ line _ _ t) _ s

theorem dupTake_copies (a : LaneAcc) (s : State) : OnlyCopies s (dupTake a s) := by
  rw [dupTake]
  split
  · refine foldl_related (r := OnlyCopies) (fun _ => rfl) (fun h k => h.trans k) (fun (t : State) (line : Nat) => ?_) _ s
    split <;> exact rfl
  · exact rfl

/-! ### The destinations -/

theorem setWords_frame (t : Strand) (uni : Bool) (r lane : Nat) (l : List Word) :
    (t.setWords uni r lane l).m = t.m ∧ (t.setWords uni r lane l).pc = t.pc ∧ (t.setWords uni r lane l).ops = t.ops :=
  have h := setWords_m t uni r lane l
  ⟨h.1, h.2.1, h.2.2.1⟩

section
variable (o : Op) (words : Nat → List Word)

/-- Writing the destinations of lanes, one after another. -/
def setLanes (lanes : List Nat) (t : Strand) : Strand := lanes.foldl (fun t i => t.setWords o.uni o.dst i (words i)) t

theorem setLanes_frame (lanes : List Nat) (t : Strand) :
    (setLanes o words lanes t).m = t.m ∧ (setLanes o words lanes t).pc = t.pc ∧ (setLanes o words lanes t).ops = t.ops := by
  induction lanes generalizing t with
  | nil => exact ⟨rfl, rfl, rfl⟩
  | cons i lanes ih =>
    obtain ⟨hm, hpc, hops⟩ := setWords_frame t o.uni o.dst i (words i)
    obtain ⟨km, kpc, kops⟩ := ih (t.setWords o.uni o.dst i (words i))
    exact ⟨km.trans hm, kpc.trans hpc, kops.trans hops⟩

/-- Each lane holds its words, where lanes do not share the one destination of a uniform access. -/
theorem setLanes_holds {lanes : List Nat} {i : Nat} (hi : i ∈ lanes) (hone : o.uni = true → ∀ j ∈ lanes, j = i) (t : Strand)
    {k : Nat} {w : Word} (hw : (words i)[k]? = some w) : (setLanes o words lanes t).dstGet o.uni (o.dst + k) i = w := by
  have keep : ∀ (lanes : List Nat) (t : Strand), (o.uni = true → ∀ j ∈ lanes, j = i) →
      t.dstGet o.uni (o.dst + k) i = w → (setLanes o words lanes t).dstGet o.uni (o.dst + k) i = w := by
    intro lanes
    induction lanes with
    | nil => exact fun t _ h => h
    | cons j lanes ih =>
      intro t hone h
      refine ih _ (fun hu x hx => hone hu x (List.mem_cons_of_mem j hx)) ?_
      by_cases hj : j = i
      · subst hj
        exact setWords_holds _ _ _ _ _ _ _ hw
      · have hu : o.uni = false := Bool.eq_false_iff.mpr fun hu => hj (hone hu j List.mem_cons_self)
        rw [setWords_before _ _ _ _ _ _ _ (.inr ⟨hu, Ne.symm hj⟩)]
        exact h
  induction lanes generalizing t with
  | nil => cases hi
  | cons j lanes ih =>
    by_cases hj : j = i
    · subst hj
      exact keep lanes _ (fun hu x hx => hone hu x (List.mem_cons_of_mem j hx)) (setWords_holds _ _ _ _ _ _ _ hw)
    · exact ih ((List.mem_cons.mp hi).resolve_left (Ne.symm hj)) (fun hu x hx => hone hu x (List.mem_cons_of_mem j hx)) _

end

/-! ### What the lanes of a load have read -/

section
variable {o : Op} {l : List LaneAcc} {read : LaneAcc → List Byte} {bad : LaneAcc → Bool}

theorem take_parts (i : Nat) : lanePartsOf (o.take l read bad).lanes i = (lanePartsOf o.lanes i).map fun a =>
    if l.contains a then { a with data := read a, bad := bad a, done := true } else a := by
  have hlane : ∀ a : LaneAcc, (if l.contains a then { a with data := read a, bad := bad a, done := true } else a).lane = a.lane := by
    intro a
    split <;> rfl
  rw [lanePartsOf, Op.take, List.filter_map, lanePartsOf]
  refine congrArg (List.map _) (List.filter_congr fun a _ => ?_)
  rw [Function.comp_apply, hlane]

theorem mem_take_parts {i : Nat} {b : LaneAcc} (h : b ∈ lanePartsOf (o.take l read bad).lanes i) :
    (∃ a ∈ lanePartsOf o.lanes i, a ∈ l ∧ b = { a with data := read a, bad := bad a, done := true })
      ∨ (b ∈ lanePartsOf o.lanes i ∧ b ∉ l) := by
  rw [take_parts] at h
  obtain ⟨a, ha, rfl⟩ := List.mem_map.mp h
  by_cases hl : a ∈ l
  · rw [if_pos (by simpa using hl)]
    exact .inl ⟨a, ha, hl, rfl⟩
  · rw [if_neg (by simpa using hl)]
    exact .inr ⟨ha, hl⟩

variable {i : Nat} (hall : ∀ a ∈ lanePartsOf o.lanes i, a.done = true ∨ a ∈ l)
include hall

theorem take_whole (hi : i ∈ l.map (·.lane)) : i ∈ (o.take l read bad).whole l := by
  rw [Op.whole, List.mem_filter, List.mem_eraseDups, List.all_eq_true]
  refine ⟨hi, fun b hb => ?_⟩
  obtain ⟨a, -, -, rfl⟩ | ⟨hb, hnot⟩ := mem_take_parts hb
  · rfl
  · exact (hall b hb).resolve_right hnot

theorem take_laneBytes (hnew : ∀ a ∈ l, a.done = false) (hclean : ∀ a ∈ l, bad a = false)
    (hold : ∀ a ∈ lanePartsOf o.lanes i, a.done = true → a.bad = false) :
    (o.take l read bad).laneBytes i = laneRead o i read := by
  have hbad : (lanePartsOf (o.take l read bad).lanes i).any (·.bad) = false := by
    rw [List.any_eq_false]
    intro b hb
    obtain ⟨a, -, ha, rfl⟩ | ⟨hb, hnot⟩ := mem_take_parts hb
    · simp [hclean a ha]
    · simp [hold b hb ((hall b hb).resolve_right hnot)]
  rw [Op.laneBytes, if_neg (by rw [hbad]; exact Bool.false_ne_true), laneRead, take_parts, List.map_map]
  refine congrArg (joinParts o.size) (List.map_congr_left fun a ha => ?_)
  rw [Function.comp_apply]
  by_cases hl : a ∈ l
  · rw [if_pos (by simpa using hl), hnew a hl]
    rfl
  · rw [if_neg (by simpa using hl), if_pos ((hall a ha).resolve_right hl)]

end

theorem mem_whole {o : Op} {l : List LaneAcc} {i : Nat} (h : i ∈ o.whole l) :
    i ∈ l.map (·.lane) ∧ ∀ a ∈ lanePartsOf o.lanes i, a.done = true := by
  rw [Op.whole, List.mem_filter, List.mem_eraseDups, List.all_eq_true] at h
  exact h

end Machine

end Sys2Proof

/-! ## The bytes that a store writes (R235, R237) -/

namespace Sys2Proof

namespace Machine

/-! ### The bytes of a store where lanes overlap (R235) -/

theorem winner_mem (free unit w : Nat) (l : List Nat) : winner free unit l w ∈ w :: l := by
  induction l generalizing w with
  | nil => exact List.mem_singleton.mpr rfl
  | cons i t ih =>
    rw [winner]
    obtain h | h := List.mem_cons.mp (ih (if Config.freeLane free unit i then i else w))
    · rw [h]
      split
      · exact List.mem_cons_of_mem w List.mem_cons_self
      · exact List.mem_cons_self
    · exact List.mem_cons_of_mem w (List.mem_cons_of_mem i h)

section
variable {free size : Nat} {l : List LaneAcc}

/-- What a store writes is what its lanes carry. -/
theorem storeWrites_carried {x : Nat × Byte} (h : x ∈ storeWrites free size l) : ∃ a ∈ l, x ∈ a.pas.zip a.data := by
  obtain ⟨a, ha, hx⟩ := List.mem_flatMap.mp h
  exact ⟨a, ha, (List.mem_filter.mp hx).1⟩

theorem place_of_zip {a : LaneAcc} {x : Nat × Byte} (h : x ∈ a.pas.zip a.data) : x.1 ∈ a.pas := (List.of_mem_zip h).1

theorem mem_zip_of_place {a : LaneAcc} (hlen : a.data.length = a.pas.length) {p : Nat} (hp : p ∈ a.pas) :
    ∃ b, (p, b) ∈ a.pas.zip a.data := by
  obtain ⟨i, hi, rfl⟩ := List.getElem_of_mem hp
  have hz : i < (a.pas.zip a.data).length := by rw [List.length_zip, hlen, Nat.min_self]; exact hi
  have h := List.getElem_mem hz
  rw [List.getElem_zip] at h
  exact ⟨_, h⟩

/-- Every place of a store's units is written, with the value of one lane. -/
theorem storeWrites_places (hlen : ∀ a ∈ l, a.data.length = a.pas.length) {p : Nat} (hp : p ∈ l.flatMap (·.pas)) :
    p ∈ (storeWrites free size l).map (·.1) := by
  have hpick : ∃ b ∈ l, p ∈ b.pas ∧ (match (l.filter fun b => b.pas.contains p).map (·.lane) with
      | [] => true
      | i :: t => decide (winner free (p / min 8 size) t i = b.lane)) = true := by
    obtain ⟨a, ha, hpa⟩ := List.mem_flatMap.mp hp
    cases hcov : (l.filter fun b => b.pas.contains p).map (·.lane) with
    | nil => exact ⟨a, ha, hpa, rfl⟩
    | cons i t =>
      have hwin := winner_mem free (p / min 8 size) i t
      rw [← hcov] at hwin
      obtain ⟨b, hb, hlane⟩ := List.mem_map.mp hwin
      obtain ⟨hb, hcontains⟩ := List.mem_filter.mp hb
      exact ⟨b, hb, by simpa using hcontains, decide_eq_true hlane.symm⟩
  obtain ⟨b, hb, hpb, hwins⟩ := hpick
  obtain ⟨c, hc⟩ := mem_zip_of_place (hlen b hb) hpb
  exact List.mem_map.mpr ⟨(p, c), List.mem_flatMap.mpr ⟨b, hb, List.mem_filter.mpr ⟨hc, hwins⟩⟩, rfl⟩

end

/-! ### The writes of a strand's units -/

theorem writePlaces_low (key : Nat) (l : List (Nat × Byte)) {s : State} (hlow : ∀ x ∈ l, x.1 < Config.paSpace) :
    writePlaces key false l s = putPlaces key false l s := by
  have hnone : ((l.map (·.1)).filter s.hostGone).isEmpty = true := by
    rw [List.isEmpty_iff, List.filter_eq_nil_iff]
    intro a ha
    obtain ⟨x, hx, rfl⟩ := List.mem_map.mp ha
    rw [hostGone_low s (hlow x hx)]
    exact Bool.false_ne_true
  rw [writePlaces, hnone, Bool.or_true, if_pos rfl]

end Machine

end Sys2Proof

/-! ## SCRATCHPAD_ACCESS_PERFORMED (R254, R255, R258) -/

namespace Sys2Proof

namespace Machine

/-! ### The checks of an on-chip access -/

/-- The units of an operation that meet an armed barrier (R283). -/
def armedUnits (o : Op) (s : State) : List LaneAcc :=
  o.undone.filter fun a => touchesArmed s.blk a.va.toNat a.pas.length

section
variable {r : StrandRef} {n : Nat} {u : Sys2Proof.Units} {o : Op} {s : State} (hfocus : InFocus r s) (hop : opAt s.st n = some o)
  (hheld : releaseHeld s o = false) (hchip : o.what.onChip = true)
include hfocus hop hheld hchip

/-- An access that meets no armed barrier and no poison performs its units. -/
theorem chipPerformed_runs (harmed : (o.what = .sts ∨ o.what = .atoms) → armedUnits o s = [])
    (hclean : ¬(o.what = .sts ∨ o.what = .gst) → ∀ a ∈ o.picked u, ∀ p ∈ a.pas, p ∉ chipPoison o.what.onSbm s) :
    exec (.scratchpadAccessPerformed r ⟨n, u⟩) s
      = .next (opGoesOn (chipEffect o (o.picked u) s).1 (chipEffect o (o.picked u) s).2) := by
  have hmeets : (if o.what = .sts ∨ o.what = .atoms then armedUnits o s else []) = [] := by
    split
    · rename_i h
      exact harmed h
    · rfl
  have hbad : (if o.what = .sts ∨ o.what = .gst then []
      else (o.picked u).filter (fun a => a.pas.any fun p => (chipMem s o.what.onSbm).2.contains p)) = [] := by
    split
    · rfl
    · rename_i h
      rw [List.filter_eq_nil_iff]
      intro a ha hany
      obtain ⟨p, hp, hin⟩ := List.any_eq_true.mp hany
      refine hclean h a ha p hp ?_
      rw [chipPoison]
      rw [chipMem] at hin
      split <;> rename_i hsbm <;> simpa [hsbm] using hin
  have hexec : exec (.scratchpadAccessPerformed r ⟨n, u⟩) s = execScratchpadAccessPerformed r ⟨n, u⟩ s := rfl
  rw [armedUnits] at hmeets
  rw [hexec, execScratchpadAccessPerformed, withOp_here hfocus hop, hchip, hheld]
  simp only [Bool.not_true, Bool.or_false, Bool.false_eq_true, if_false, hmeets, hbad]

/-- A write that meets a barrier armed since it issued faults at its instruction, and is over. -/
theorem chipPerformed_faults (hwhat : o.what = .sts ∨ o.what = .atoms) {a : LaneAcc} {q : List LaneAcc}
    (harmed : armedUnits o s = a :: q) :
    exec (.scratchpadAccessPerformed r ⟨n, u⟩) s = deliverAt o.pc
      ⟨0x41, 0, a.va, 0, 0, if o.uni then 0 else maskOf ((a :: q).map (·.lane))⟩ (opDone n s) := by
  have hexec : exec (.scratchpadAccessPerformed r ⟨n, u⟩) s = execScratchpadAccessPerformed r ⟨n, u⟩ s := rfl
  rw [armedUnits] at harmed
  rw [hexec, execScratchpadAccessPerformed, withOp_here hfocus hop, hchip, hheld]
  simp only [Bool.not_true, Bool.or_false, Bool.false_eq_true, if_false, hwhat, if_true, harmed]
  rfl

end

/-! ### The bytes on chip -/

theorem chipMem_eq (s : State) (sbm : Bool) : chipMem s sbm = (onChip sbm s, chipPoison sbm s) := by
  cases sbm <;> rfl

theorem chipBytes_eq {s : State} {sbm : Bool} {a : LaneAcc} (h : ∀ p ∈ a.pas, p ∉ chipPoison sbm s) :
    chipBytes s sbm a = a.pas.map (Memory.read (onChip sbm s)) := by
  rw [chipBytes, chipMem_eq]
  refine if_neg fun hany => ?_
  obtain ⟨p, hp, hin⟩ := List.any_eq_true.mp hany
  exact h p hp (by simpa using hin)

/-- What a write on chip leaves. -/
theorem chipWrite_spec (sbm : Bool) (l : List (Nat × Byte)) (s : State) :
    let t := chipWrite sbm l s
    onChip sbm t = Memory.writeAt (onChip sbm s) l ∧ onChip (!sbm) t = onChip (!sbm) s ∧ t.mem = s.mem ∧ t.st = s.st
      ∧ (∀ p ∈ chipPoison sbm t, p ∈ chipPoison sbm s) := by
  cases sbm
  · exact ⟨rfl, rfl, rfl, rfl, fun p hp => (List.mem_filter.mp hp).1⟩
  · exact ⟨rfl, rfl, rfl, rfl, fun p hp => (List.mem_filter.mp hp).1⟩

theorem OnlyOps.onChip {s t : State} (h : OnlyOps s t) (sbm : Bool) : onChip sbm t = onChip sbm s := by
  obtain ⟨-, -, -, -, -, hgrd, hscratch, -⟩ := h
  cases sbm
  · exact hscratch
  · exact congrArg (·.sbm) hgrd

/-! ### Loads -/

theorem chipEffect_load {o : Op} (hwhat : o.what = .lds ∨ o.what = .gld) (l : List LaneAcc) (s : State) :
    chipEffect o l s = chipLoad o l s := if_pos hwhat

/-- The lanes of an on-chip load that have all their bytes write their destinations. -/
theorem chipLoad_spec {n : Nat} {o : Op} {l : List LaneAcc} {s : State} (hop : opAt s.st n = some o)
    (hnew : ∀ a ∈ l, a.done = false) (hclean : ∀ a ∈ l, ∀ p ∈ a.pas, p ∉ chipPoison o.what.onSbm s) :
    let t := opGoesOn (chipLoad o l s).1 (chipLoad o l s).2
    t.mem = s.mem ∧ t.st.m = s.st.m ∧ LeftWith n (o.undone.filter fun a => !l.contains a) t
      ∧ onChip o.what.onSbm t = onChip o.what.onSbm s
      ∧ ∀ i ∈ l.map (·.lane), (∀ a ∈ lanePartsOf o.lanes i, a.bad = false ∧ (a.done = true ∨ a ∈ l)) →
        (o.uni = true → l.all (·.lane = i) = true) →
        Holds o i (loadedWords o.size o.sx (laneRead o i fun a => a.pas.map (Memory.read (onChip o.what.onSbm s)))) t := by
  let bad := fun (a : LaneAcc) => a.pas.any fun p => (chipMem s o.what.onSbm).2.contains p
  let o' := o.take l (chipBytes s o.what.onSbm) bad
  let words := fun i => loadedWords o'.size o'.sx (o'.laneBytes i)
  let w : State := { s with st := setLanes o' words (o'.whole l) s.st }
  intro t
  have ht : t = opGoesOn o' w := rfl
  obtain ⟨hm, -, hops⟩ := setLanes_frame o' words (o'.whole l) s.st
  have hat : opAt w.st n = some o := by
    rw [opAt, show w.st.ops = s.st.ops from hops]
    exact hop
  obtain ⟨honly, hleft⟩ := opGoesOn_spec hat (show o'.serial = n from show o.serial = n from opAt_serial hop)
  have hregs := honly.1
  rw [take_undone] at hleft
  rw [ht]
  refine ⟨honly.2.1, hregs.2.2.1.trans hm, hleft, (honly.onChip _).trans ?_, fun i hi hall huni => ?_⟩
  · cases o.what.onSbm <;> rfl
  · refine Holds.of_regs (t := w) ?_ hregs
    rw [holds_iff]
    intro k x hx
    have hparts : ∀ a ∈ lanePartsOf o.lanes i, a.done = true ∨ a ∈ l := fun a ha => (hall a ha).2
    refine setLanes_holds o' words (take_whole hparts hi) (fun hu j hj => ?_) s.st ?_
    · obtain ⟨a, ha, rfl⟩ := List.mem_map.mp (mem_whole hj).1
      simpa using List.all_eq_true.mp (huni hu) a ha
    · have hread : laneRead o i (chipBytes s o.what.onSbm)
          = laneRead o i fun a => a.pas.map (Memory.read (onChip o.what.onSbm s)) := by
        rw [laneRead, laneRead]
        refine congrArg (joinParts o.size) (List.map_congr_left fun a ha => ?_)
        obtain ⟨-, hd | hl⟩ := hall a ha
        · rw [if_pos hd, if_pos hd]
        · rw [chipBytes_eq (hclean a hl)]
      have hunbad : ∀ a ∈ l, bad a = false := by
        intro a ha
        refine Bool.eq_false_iff.mpr fun hb => ?_
        obtain ⟨p, hp, hin⟩ := List.any_eq_true.mp hb
        rw [chipMem_eq] at hin
        exact hclean a ha p hp (by simpa using hin)
      show (loadedWords o.size o.sx (o'.laneBytes i))[k]? = some x
      rw [take_laneBytes hparts hnew hunbad fun a ha _ => (hall a ha).1, hread]
      exact hx

/-! ### Stores -/

theorem chipEffect_store {o : Op} (hwhat : o.what = .sts ∨ o.what = .gst) (l : List LaneAcc) (s : State) :
    chipEffect o l s = (o.mark l, chipWrite o.what.onSbm (storeWrites s.free o.size l) s) := by
  rw [chipEffect, if_neg (by rcases hwhat with h | h <;> rw [h] <;> decide), if_pos hwhat]

/-- An on-chip store writes what its lanes carry, and no other byte. -/
theorem chipStore_spec {n : Nat} {o : Op} {l : List LaneAcc} {s : State} (hop : opAt s.st n = some o)
    (hlen : ∀ a ∈ l, a.data.length = a.pas.length) (hw : Memory.wf (onChip o.what.onSbm s) = true) :
    let t := opGoesOn (o.mark l) (chipWrite o.what.onSbm (storeWrites s.free o.size l) s)
    (t.mem = s.mem ∧ t.st.m = s.st.m ∧ LeftWith n (o.undone.filter fun a => !l.contains a) t) ∧ t.st.v = s.st.v
      ∧ t.st.s = s.st.s
      ∧ (∀ p ∈ l.flatMap (·.pas), ∃ a ∈ l, (p, Memory.read (onChip o.what.onSbm t) p) ∈ a.pas.zip a.data)
      ∧ (∀ x, x ∉ l.flatMap (·.pas) → Memory.read (onChip o.what.onSbm t) x = Memory.read (onChip o.what.onSbm s) x)
      ∧ onChip (!o.what.onSbm) t = onChip (!o.what.onSbm) s := by
  obtain ⟨hbytes, hrest, hmem, hst, -⟩ := chipWrite_spec o.what.onSbm (storeWrites s.free o.size l) s
  have hcarried : ∀ x ∈ storeWrites s.free o.size l, ∃ a ∈ l, x ∈ a.pas.zip a.data := fun x hx => storeWrites_carried hx
  have hplaces : ∀ p ∈ l.flatMap (·.pas), p ∈ (storeWrites s.free o.size l).map (·.1) := fun p hp => storeWrites_places hlen hp
  generalize storeWrites s.free o.size l = all at *
  generalize chipWrite o.what.onSbm all s = w at hbytes hrest hmem hst
  obtain ⟨honly, hleft⟩ := opGoesOn_spec (o := o.mark l) (s := w) (by rw [hst]; exact hop) (show o.serial = n from opAt_serial hop)
  rw [mark_undone] at hleft
  obtain ⟨hv, hs, hm, -⟩ := honly.1
  rw [hst] at hv hs hm
  intro t
  have hread : onChip o.what.onSbm t = Memory.writeAt (onChip o.what.onSbm s) all := (honly.onChip _).trans hbytes
  refine ⟨⟨honly.2.1.trans hmem, hm, hleft⟩, hv, hs, fun p hp => ?_, fun x hx => ?_, (honly.onChip _).trans hrest⟩
  · rw [hread]
    obtain ⟨hout, -⟩ | hin := read_writeAt_some all hw p
    · exact absurd (hplaces p hp) hout
    · exact hcarried _ hin
  · rw [hread]
    refine Memory.read_writeAt_other all _ x hw fun hin => hx ?_
    obtain ⟨y, hy, rfl⟩ := List.mem_map.mp hin
    obtain ⟨a, ha, hz⟩ := hcarried y hy
    exact List.mem_flatMap.mpr ⟨a, ha, place_of_zip hz⟩

end Machine

end Sys2Proof

/-! ## Atomics on chip: the lanes of one word, one after another (R240, R255) -/

namespace Sys2Proof

namespace Machine

/-! ### The value that an atomic leaves -/

theorem atomWord_eq (aop : Nat) (x y c : Word) : atomWord aop x y c = atomNew32 aop x y c := by
  by_cases hint : aop < 10
  · rw [atomNew32, if_pos hint]
    interval_cases aop <;> simp [atomWord, atomInt, BitVec.sle, BitVec.ule]
  · have hne : ∀ k, k < 10 → aop ≠ k := fun k hk h => hint (h ▸ hk)
    rw [atomNew32, if_neg hint, atomWord, if_neg (hne 0 (by decide)), if_neg (hne 1 (by decide)), if_neg (hne 2 (by decide)),
      if_neg (hne 3 (by decide)), if_neg (hne 4 (by decide)), if_neg (hne 5 (by decide)), if_neg (hne 6 (by decide)),
      if_neg (hne 7 (by decide)), if_neg (hne 8 (by decide)), if_neg (hne 9 (by decide))]
    rfl

theorem atomDWord_eq (aop : Nat) (x y c : DWord) : atomDWord aop x y c = atomNew64 aop x y c := by
  by_cases hint : aop < 10
  · rw [atomNew64, if_pos hint]
    interval_cases aop <;> simp [atomDWord, atomInt, BitVec.sle, BitVec.ule]
  · have hne : ∀ k, k < 10 → aop ≠ k := fun k hk h => hint (h ▸ hk)
    rw [atomNew64, if_neg hint, atomDWord, if_neg (hne 0 (by decide)), if_neg (hne 1 (by decide)), if_neg (hne 2 (by decide)),
      if_neg (hne 3 (by decide)), if_neg (hne 4 (by decide)), if_neg (hne 5 (by decide)), if_neg (hne 6 (by decide)),
      if_neg (hne 7 (by decide)), if_neg (hne 8 (by decide)), if_neg (hne 9 (by decide))]
    rfl

theorem atomBytes_eq (aop size : Nat) (old data : List Byte) (c : DWord) :
    atomBytes aop size old data c = atomAfter aop size old data c := by
  have hlow : ∀ n : Nat, (BitVec.ofNat 64 n).setWidth 32 = BitVec.ofNat 32 n := fun n => (ofNat_halves n).1
  rw [atomBytes, atomAfter]
  split
  · rename_i hsize
    rw [hlow, hlow, atomWord_eq, hsize]
  · rw [atomDWord_eq]

theorem length_atomAfter (aop size : Nat) (old data : List Byte) (c : DWord) :
    (atomAfter aop size old data c).length = size := by
  rw [atomAfter]
  split
  · rename_i h
    rw [length_leBytes, h]
  · exact length_leBytes ..

/-- Bytes written at places that are all different are read there. -/
theorem map_read_written {m : Memory} (hw : Memory.wf m = true) {pas : List Nat} {bytes : List Byte} (hnodup : pas.Nodup)
    (hlen : pas.length = bytes.length) : pas.map (Memory.read (Memory.writeAt m (pas.zip bytes))) = bytes := by
  have hkeys : (pas.zip bytes).map (·.1) = pas := List.map_fst_zip (Nat.le_of_eq hlen)
  refine List.ext_getElem (by rw [List.length_map, hlen]) fun j hj hj' => ?_
  rw [List.getElem_map]
  refine Memory.read_writeAt_mem _ m _ _ hw (hkeys.symm ▸ hnodup) ?_
  have hz : j < (pas.zip bytes).length := by rw [List.length_zip, hlen, Nat.min_self]; exact hj'
  have h := List.getElem_mem hz
  rw [List.getElem_zip] at h
  exact h

/-! ### One lane after another -/

section
variable (o : Op) (s : State)

/-- The bytes of a unit's word. -/
def chipWord (a : LaneAcc) (t : State) : List Byte := a.pas.map (Memory.read (onChip o.what.onSbm t))

/-- What lanes that name the word of `a` leave there. -/
def wordAfter (l : List LaneAcc) (a : LaneAcc) : List Byte :=
  (l.filter fun b => b.pas = a.pas).foldl (fun x b => atomAfter o.aop o.size x b.data b.cmp) (chipWord o a s)

theorem wordAfter_same (l : List LaneAcc) {a b : LaneAcc} (h : b.pas = a.pas) :
    wordAfter o s (l ++ [b]) a = atomAfter o.aop o.size (wordAfter o s l b) b.data b.cmp := by
  have hb : [b].filter (fun c => decide (c.pas = a.pas)) = [b] := List.filter_eq_self.mpr fun c hc => by
    rw [List.mem_singleton.mp hc]
    exact decide_eq_true h
  rw [wordAfter, List.filter_append, hb, List.foldl_append, wordAfter, chipWord, chipWord, h]
  rfl

theorem wordAfter_other (l : List LaneAcc) {a b : LaneAcc} (h : b.pas ≠ a.pas) :
    wordAfter o s (l ++ [b]) a = wordAfter o s l a := by
  have hb : [b].filter (fun c => decide (c.pas = a.pas)) = [] := List.filter_eq_nil_iff.mpr fun c hc => by
    rw [List.mem_singleton.mp hc]
    simpa using h
  rw [wordAfter, List.filter_append, hb, List.append_nil, wordAfter]

/-- What lanes of an atomic have done: their words, the other bytes, and their destinations. -/
def AtomsDone (l : List LaneAcc) (t : State) : Prop :=
  (t.mem = s.mem ∧ t.st.m = s.st.m ∧ t.st.ops = s.st.ops ∧ onChip (!o.what.onSbm) t = onChip (!o.what.onSbm) s
      ∧ (∀ p ∈ chipPoison o.what.onSbm t, p ∈ chipPoison o.what.onSbm s) ∧ Memory.wf (onChip o.what.onSbm t) = true)
    ∧ (∀ x, x ∉ l.flatMap (·.pas) → Memory.read (onChip o.what.onSbm t) x = Memory.read (onChip o.what.onSbm s) x)
    ∧ (o.nr = false → ∀ a ∈ l, Holds o a.lane (loadedWords o.size false (wordAfter o s (l.filter (·.lane < a.lane)) a)) t)
    ∧ (o.nr = true → t.st.v = s.st.v ∧ t.st.s = s.st.s)

end

section
variable {o : Op} {s : State}

theorem chipAtomLane_eq {a : LaneAcc} {t : State} (hclean : ∀ p ∈ a.pas, p ∉ chipPoison o.what.onSbm t) :
    chipAtomLane o a t
      = if o.nr then chipWrite o.what.onSbm (a.pas.zip (atomAfter o.aop o.size (chipWord o a t) a.data a.cmp)) t
        else { chipWrite o.what.onSbm (a.pas.zip (atomAfter o.aop o.size (chipWord o a t) a.data a.cmp)) t with
          st := (chipWrite o.what.onSbm (a.pas.zip (atomAfter o.aop o.size (chipWord o a t) a.data a.cmp)) t).st.setWords
            o.uni o.dst a.lane (loadedWords o.size false (chipWord o a t)) } := by
  rw [chipAtomLane, chipBytes_eq hclean, atomBytes_eq]
  rfl

/-- What one lane of an atomic does. -/
theorem chipAtomLane_spec {a : LaneAcc} {t : State} (hclean : ∀ p ∈ a.pas, p ∉ chipPoison o.what.onSbm t) :
    let new := atomAfter o.aop o.size (chipWord o a t) a.data a.cmp
    let u := chipAtomLane o a t
    (onChip o.what.onSbm u = Memory.writeAt (onChip o.what.onSbm t) (a.pas.zip new)
      ∧ onChip (!o.what.onSbm) u = onChip (!o.what.onSbm) t ∧ u.mem = t.mem
      ∧ ∀ p ∈ chipPoison o.what.onSbm u, p ∈ chipPoison o.what.onSbm t)
      ∧ u.st = if o.nr then t.st else t.st.setWords o.uni o.dst a.lane (loadedWords o.size false (chipWord o a t)) := by
  intro new u
  have hu : u = if o.nr then chipWrite o.what.onSbm (a.pas.zip new) t
      else { chipWrite o.what.onSbm (a.pas.zip new) t with
        st := (chipWrite o.what.onSbm (a.pas.zip new) t).st.setWords o.uni o.dst a.lane
          (loadedWords o.size false (chipWord o a t)) } := chipAtomLane_eq hclean
  obtain ⟨hbytes, hrest, hmem, hst, hpoison⟩ := chipWrite_spec o.what.onSbm (a.pas.zip new) t
  rw [hu]
  generalize chipWrite o.what.onSbm (a.pas.zip new) t = w at hbytes hrest hmem hst hpoison
  cases hnr : o.nr
  · refine ⟨⟨?_, ?_, hmem, ?_⟩, by rw [← hst]; rfl⟩
    · rw [← hbytes]; cases o.what.onSbm <;> rfl
    · rw [← hrest]; cases o.what.onSbm <;> rfl
    · intro p hp
      refine hpoison p ?_
      revert hp
      cases o.what.onSbm <;> exact id
  · exact ⟨⟨hbytes, hrest, hmem, hpoison⟩, hst⟩

variable {units : List LaneAcc}
  (hunits : ∀ a ∈ units, (∀ p ∈ a.pas, p ∉ chipPoison o.what.onSbm s) ∧ a.pas.Nodup ∧ a.pas.length = o.size)
  (happart : ∀ a ∈ units, ∀ b ∈ units, a.pas = b.pas ∨ ∀ p ∈ a.pas, p ∉ b.pas)
  (hw : Memory.wf (onChip o.what.onSbm s) = true)
include hunits happart hw

/-- Lanes of an atomic, in ascending order: a word holds what the lanes that name it leave one after another, and
each lane's destination what the lanes before it left. -/
theorem chipAtoms_done {l : List LaneAcc} (hl : ∀ a ∈ l, a ∈ units) (hlanes : (l.map (·.lane)).Pairwise (· < ·))
    (huni : o.uni = true → l.length ≤ 1) :
    let t := l.foldl (fun s a => chipAtomLane o a s) s
    AtomsDone o s l t ∧ ∀ a ∈ units, chipWord o a t = wordAfter o s l a := by
  induction l using List.reverseRecOn with
  | nil => exact ⟨⟨⟨rfl, rfl, rfl, rfl, fun _ h => h, hw⟩, fun _ _ => rfl, fun _ => nofun, fun _ => ⟨rfl, rfl⟩⟩, fun _ _ => rfl⟩
  | append_singleton l b ih =>
    have hpre := List.pairwise_append.mp (List.map_append ▸ hlanes)
    have hbefore : ∀ a ∈ l, a.lane < b.lane := fun a ha =>
      hpre.2.2 a.lane (List.mem_map.mpr ⟨a, ha, rfl⟩) b.lane (List.mem_map.mpr ⟨b, List.mem_singleton.mpr rfl, rfl⟩)
    obtain ⟨⟨⟨hmem, hm, hops, hother, hpoison, hwf⟩, hframe, hholds, hnone⟩, hwords⟩ := ih
      (fun a ha => hl a (List.mem_append_left _ ha)) hpre.1 fun hu => by
        have := huni hu
        rw [List.length_append, List.length_singleton] at this
        omega
    have hb : b ∈ units := hl b (List.mem_append_right _ (List.mem_singleton.mpr rfl))
    rw [List.foldl_append]
    generalize l.foldl (fun s a => chipAtomLane o a s) s = t at hmem hm hops hother hpoison hwf hframe hholds hnone hwords
    obtain ⟨⟨kbytes, kother, kmem, kpoison⟩, kst⟩ := chipAtomLane_spec (o := o) (a := b) (t := t)
      fun p hp hin => (hunits b hb).1 p hp (hpoison p hin)
    show AtomsDone o s (l ++ [b]) (chipAtomLane o b t) ∧ ∀ a ∈ units, chipWord o a (chipAtomLane o b t) = _
    generalize chipAtomLane o b t = u at kbytes kother kmem kpoison kst
    rw [hwords b hb] at kbytes kst
    have hlen : b.pas.length = (atomAfter o.aop o.size (wordAfter o s l b) b.data b.cmp).length :=
      (hunits b hb).2.2.trans (length_atomAfter _ _ _ _ _).symm
    have hkeys : (b.pas.zip (atomAfter o.aop o.size (wordAfter o s l b) b.data b.cmp)).map (·.1) = b.pas :=
      List.map_fst_zip (Nat.le_of_eq hlen)
    have kframe : ∀ x, x ∉ b.pas → Memory.read (onChip o.what.onSbm u) x = Memory.read (onChip o.what.onSbm t) x := by
      intro x hx
      rw [kbytes]
      exact Memory.read_writeAt_other _ _ x hwf (hkeys.symm ▸ hx)
    have hset := setWords_frame t.st o.uni o.dst b.lane (loadedWords o.size false (wordAfter o s l b))
    have hregs : u.st.m = t.st.m ∧ u.st.ops = t.st.ops := by
      rw [kst]
      split
      · exact ⟨rfl, rfl⟩
      · exact ⟨hset.1, hset.2.2⟩
    refine ⟨⟨⟨kmem.trans hmem, hregs.1.trans hm, hregs.2.trans hops, kother.trans hother, fun p hp => hpoison p (kpoison p hp),
      by rw [kbytes]; exact Memory.wf_writeAt _ _ hwf⟩, fun x hx => ?_, fun hnr a ha => ?_, fun hnr => ?_⟩, fun a ha => ?_⟩
    · rw [List.flatMap_append, List.mem_append, not_or] at hx
      exact (kframe x (fun h => hx.2 (List.mem_flatMap.mpr ⟨b, List.mem_singleton.mpr rfl, h⟩))).trans (hframe x hx.1)
    · rw [hnr, if_neg Bool.false_ne_true] at kst
      rw [holds_iff]
      intro k w hw
      rw [kst]
      obtain ha | ha := List.mem_append.mp ha
      · have hlast : [b].filter (fun c => decide (c.lane < a.lane)) = [] := List.filter_eq_nil_iff.mpr fun c hc => by
          rw [List.mem_singleton.mp hc]
          simpa using Nat.le_of_lt (hbefore a ha)
        have hu : o.uni = false := Bool.eq_false_iff.mpr fun hu => by
          have := huni hu
          rw [List.length_append, List.length_singleton] at this
          exact absurd (List.length_pos_of_mem ha) (by omega)
        rw [setWords_before _ _ _ _ _ _ _ (.inr ⟨hu, Nat.ne_of_lt (hbefore a ha)⟩)]
        rw [List.filter_append, hlast, List.append_nil] at hw
        exact hholds hnr a ha k w hw
      · obtain rfl := List.mem_singleton.mp ha
        have hself : (l ++ [a]).filter (fun c => decide (c.lane < a.lane)) = l := by
          rw [List.filter_append, List.filter_eq_self.mpr fun c hc => decide_eq_true (hbefore c hc),
            List.filter_eq_nil_iff.mpr fun c hc => by rw [List.mem_singleton.mp hc]; simp, List.append_nil]
        rw [hself] at hw
        exact setWords_holds _ _ _ _ _ _ _ hw
    · rw [hnr, if_pos rfl] at kst
      rw [kst]
      exact hnone hnr
    · by_cases hsame : b.pas = a.pas
      · rw [wordAfter_same o s l hsame, chipWord, kbytes, ← hsame]
        exact map_read_written hwf (hunits b hb).2.1 hlen
      · have hdisjoint := (happart a ha b hb).resolve_left (Ne.symm hsame)
        rw [wordAfter_other o s l hsame, ← hwords a ha, chipWord, chipWord]
        exact List.map_congr_left fun p hp => kframe p (hdisjoint p hp)

end

theorem chipEffect_atom {o : Op} (hwhat : o.what = .atoms ∨ o.what = .gop) (l : List LaneAcc) (s : State) :
    chipEffect o l s = (o.mark l, l.foldl (fun s a => chipAtomLane o a s) s) := by
  rw [chipEffect, if_neg (by rcases hwhat with h | h <;> rw [h] <;> decide),
    if_neg (by rcases hwhat with h | h <;> rw [h] <;> decide)]

end Machine

end Sys2Proof

/-! ## LDA_COMPLETE: the copies of an LDA's lanes (R260, R261, R281) -/

namespace Sys2Proof

namespace Machine

/-! ### Units of a lane -/

theorem unitBytes_divides (n : Nat) (a : DWord) : 0 < unitBytes n a ∧ unitBytes n a ∣ n := by
  rw [unitBytes]
  split
  · rename_i h
    rw [h.2]
    decide
  · split
    · rename_i h
      exact ⟨by omega, Nat.dvd_refl n⟩
    · exact ⟨Nat.one_pos, Nat.one_dvd n⟩

theorem mem_unitOffsets {n u k : Nat} (hpos : 0 < u) (hdvd : u ∣ n) :
    k ∈ ((List.range (n / u)).map fun j => (List.range u).map (u * j + ·)).flatten ↔ k < n := by
  obtain ⟨q, rfl⟩ := hdvd
  rw [Nat.mul_div_cancel_left q hpos]
  simp only [List.mem_flatten, List.mem_map, List.mem_range]
  constructor
  · rintro ⟨_, ⟨j, hj, rfl⟩, hk⟩
    obtain ⟨i, hi, rfl⟩ := List.mem_map.mp hk
    calc u * j + i < u * (j + 1) := by rw [Nat.mul_succ]; exact Nat.add_lt_add_left (List.mem_range.mp hi) _
      _ ≤ u * q := Nat.mul_le_mul_left u hj
  · intro hk
    refine ⟨_, ⟨k / u, Nat.div_lt_of_lt_mul hk, rfl⟩, List.mem_map.mpr ⟨k % u, List.mem_range.mpr (Nat.mod_lt k hpos), ?_⟩⟩
    exact Nat.div_add_mod k u

/-- The units of a lane whose source bytes have all been read and of which none is written are all of its bytes. -/
theorem mem_ldaReady {o : Op} {i : Nat} (hdone : ∀ a ∈ o.lanes, a.done = true) (hnew : ∀ k, (i, k) ∉ o.wrote) (p : Nat → Bool)
    (hp : ∀ k, p k = true) (k : Nat) : k ∈ ((ldaReady o i).filter fun l => l.any p).flatten ↔ k < o.size := by
  obtain ⟨hpos, hdvd⟩ := unitBytes_divides o.size (BitVec.ofNat 64 (o.target i))
  have hall : (ldaReady o i).filter (fun l => l.any p)
      = (List.range (o.size / unitBytes o.size (BitVec.ofNat 64 (o.target i)))).map fun j =>
        (List.range (unitBytes o.size (BitVec.ofNat 64 (o.target i)))).map
          (unitBytes o.size (BitVec.ofNat 64 (o.target i)) * j + ·) := by
    rw [ldaReady, List.filter_filter]
    refine List.filter_eq_self.mpr fun l hl => ?_
    obtain ⟨j, -, rfl⟩ := List.mem_map.mp hl
    rw [Bool.and_eq_true, List.any_eq_true, List.all_eq_true]
    refine ⟨⟨_, List.mem_map.mpr ⟨0, List.mem_range.mpr hpos, rfl⟩, hp _⟩, fun k _ => ?_⟩
    rw [Bool.and_eq_true, List.all_eq_true]
    refine ⟨by simpa using hnew k, fun a ha => ?_⟩
    rw [hdone a (List.mem_filter.mp ha).1, Bool.true_or]
  rw [hall]
  exact mem_unitOffsets hpos hdvd

/-! ### The lanes, one after another -/

/-- The bytes that a lane of an LDA copies, with zero past the valid ones. -/
def copyBytes (o : Op) (i : Nat) : List Byte := joinParts o.size ((lanePartsOf o.lanes i).map fun a => (a.off, a.data))

/-- What the writes of some lanes have done: every byte of theirs that no armed barrier holds, and no other. -/
def LanesCopied (o : Op) (s : State) (l : List Nat) (x : Op × State) : Prop :=
  (x.1 = { o with wrote := x.1.wrote } ∧ ∀ i k, (i, k) ∈ x.1.wrote ↔ i ∈ l ∧ k < o.size)
    ∧ (x.2.mem = s.mem ∧ x.2.st = s.st ∧ x.2.blk.armed = s.blk.armed ∧ Memory.wf x.2.blk.scratch = true)
    ∧ (∀ i ∈ l, ∀ k, k < o.size → (o.target i + k) / 16 ∉ s.blk.armed →
        x.2.blk.scratchAt (o.target i + k) = nth 0 (copyBytes o i) k)
    ∧ ∀ y, ((∀ i ∈ l, y < o.target i ∨ o.target i + o.size ≤ y) ∨ y / 16 ∈ s.blk.armed) →
        x.2.blk.scratchAt y = s.blk.scratchAt y

theorem LanesCopied.none {o : Op} {s : State} (hw : Memory.wf s.blk.scratch = true) (hwrote : o.wrote = []) :
    LanesCopied o s [] (o, s) :=
  ⟨⟨rfl, fun i k => by rw [hwrote]; simp⟩, ⟨rfl, rfl, rfl, hw⟩, nofun, fun _ _ => rfl⟩

/-- The bytes that a lane's units write: those that no armed barrier holds. -/
def laneWrites (o : Op) (i : Nat) (offs : List Nat) (s : State) : List (Nat × Byte) :=
  (offs.map fun k => (o.target i + k, nth 0 (copyBytes o i) k)).filter fun x =>
    !(s.blk.armed.filter fun g => offs.any fun k => (o.target i + k) / 16 = g).contains (x.1 / 16)

theorem ldaWrite_spec (o : Op) (i : Nat) (units : List (List Nat)) (s : State) :
    let y := ldaWrite o i units s
    y.1 = { o with wrote := o.wrote ++ units.flatten.map fun k => (i, k) }
      ∧ y.2.mem = s.mem ∧ y.2.st = s.st ∧ y.2.blk.armed = s.blk.armed
      ∧ y.2.blk.scratch = Memory.writeAt s.blk.scratch (laneWrites o i units.flatten s) := ⟨rfl, rfl, rfl, rfl, rfl⟩

theorem mem_laneWrites {o : Op} {i : Nat} {offs : List Nat} {s : State} {x : Nat × Byte} :
    x ∈ laneWrites o i offs s ↔ ∃ k ∈ offs, x = (o.target i + k, nth 0 (copyBytes o i) k) ∧ x.1 / 16 ∉ s.blk.armed := by
  rw [laneWrites, List.mem_filter, List.mem_map]
  constructor
  · rintro ⟨⟨k, hk, rfl⟩, hfree⟩
    refine ⟨k, hk, rfl, fun harmed => ?_⟩
    have hhit : (o.target i + k) / 16 ∈ s.blk.armed.filter fun g => offs.any fun k => (o.target i + k) / 16 = g :=
      List.mem_filter.mpr ⟨harmed, List.any_eq_true.mpr ⟨k, hk, decide_eq_true rfl⟩⟩
    rw [List.contains_iff_mem.mpr hhit] at hfree
    cases hfree
  · rintro ⟨k, hk, rfl, hfree⟩
    refine ⟨⟨k, hk, rfl⟩, ?_⟩
    rw [Bool.not_eq_true', Bool.eq_false_iff]
    exact fun h => hfree (List.mem_filter.mp (List.contains_iff_mem.mp h)).1

theorem LanesCopied.write {o : Op} {s : State} {l : List Nat} {x : Op × State} (h : LanesCopied o s l x)
    (hdone : ∀ a ∈ o.lanes, a.done = true) {i : Nat} (hi : i ∉ l)
    (hapart : ∀ j ∈ l, o.target i + o.size ≤ o.target j ∨ o.target j + o.size ≤ o.target i) (p : Nat → Bool)
    (hp : ∀ k, p k = true) :
    LanesCopied o s (l ++ [i]) (ldaWrite x.1 i ((ldaReady x.1 i).filter fun l => l.any p) x.2) := by
  obtain ⟨w, t⟩ := x
  obtain ⟨⟨hop, hwrote⟩, ⟨hmem, hst, harmed, hw⟩, hcopied, hkept⟩ := h
  dsimp only at hop hwrote hmem hst harmed hw hcopied hkept
  have hlanes : w.lanes = o.lanes := by rw [hop]
  have hsize : w.size = o.size := by rw [hop]
  have hoffs : ∀ k, k ∈ ((ldaReady w i).filter fun l => l.any p).flatten ↔ k < o.size := by
    intro k
    rw [← hsize]
    exact mem_ldaReady (hlanes ▸ hdone) (fun k hk => hi ((hwrote i k).mp hk).1) p hp k
  obtain ⟨kop, kmem, kst, karmed, kscratch⟩ := ldaWrite_spec w i ((ldaReady w i).filter fun l => l.any p) t
  have htarget : w.target i = o.target i := by rw [Op.target, hlanes, Op.target]
  have hbytes : copyBytes w i = copyBytes o i := by rw [copyBytes, hlanes, hsize, copyBytes]
  show LanesCopied o s (l ++ [i]) (ldaWrite w i ((ldaReady w i).filter fun l => l.any p) t)
  generalize ldaWrite w i ((ldaReady w i).filter fun l => l.any p) t = y at kop kmem kst karmed kscratch
  generalize ((ldaReady w i).filter fun l => l.any p).flatten = offs at hoffs kop kscratch
  have hmine : ∀ z ∈ laneWrites w i offs t, ∃ k, k < o.size ∧ z = (o.target i + k, nth 0 (copyBytes o i) k)
      ∧ z.1 / 16 ∉ s.blk.armed := by
    intro z hz
    obtain ⟨k, hk, hzk, hfree⟩ := mem_laneWrites.mp hz
    rw [htarget, hbytes] at hzk
    exact ⟨k, (hoffs k).mp hk, hzk, harmed ▸ hfree⟩
  have hread : ∀ a, (∀ k, k < o.size → a = o.target i + k → a / 16 ∈ s.blk.armed) → y.2.blk.scratchAt a = t.blk.scratchAt a := by
    intro a ha
    rw [Block.scratchAt, kscratch]
    refine Memory.read_writeAt_other _ _ a hw fun hin => ?_
    obtain ⟨z, hz, rfl⟩ := List.mem_map.mp hin
    obtain ⟨k, hk, hzk, hfree⟩ := hmine z hz
    exact hfree (ha k hk (congrArg Prod.fst hzk))
  refine ⟨⟨?_, fun j k => ?_⟩, ⟨kmem.trans hmem, kst.trans hst, karmed.trans harmed, ?_⟩, fun j hj k hk hfree => ?_, fun a ha => ?_⟩
  · rw [kop, hop]
  · rw [kop]
    simp only [List.mem_append, List.mem_map, List.mem_singleton, Prod.mk.injEq, hwrote, hoffs]
    constructor
    · rintro (⟨hj, hk⟩ | ⟨_, hk, rfl, rfl⟩)
      · exact ⟨.inl hj, hk⟩
      · exact ⟨.inr rfl, hk⟩
    · rintro ⟨hj | rfl, hk⟩
      · exact .inl ⟨hj, hk⟩
      · exact .inr ⟨k, hk, rfl, rfl⟩
  · rw [kscratch]
    exact Memory.wf_writeAt _ _ hw
  · obtain hj | hj := List.mem_append.mp hj
    · rw [hread _ fun m hm hsame => ?_]
      · exact hcopied j hj k hk hfree
      · have := hapart j hj
        omega
    · obtain rfl := List.mem_singleton.mp hj
      rw [Block.scratchAt, kscratch]
      obtain ⟨hout, -⟩ | hin := read_writeAt_some (laneWrites w j offs t) hw (o.target j + k)
      · refine absurd (List.mem_map.mpr ⟨(o.target j + k, nth 0 (copyBytes o j) k), ?_, rfl⟩) hout
        exact mem_laneWrites.mpr ⟨k, (hoffs k).mpr hk, by rw [htarget, hbytes], by rw [harmed]; exact hfree⟩
      · obtain ⟨m, -, hz, -⟩ := hmine _ hin
        obtain ⟨hplace, hval⟩ := Prod.mk.injEq .. ▸ hz
        rw [hval, show m = k from by omega]
  · rw [hread a fun k hk hak => ?_]
    · exact hkept a (ha.imp_left fun h j hj => h j (List.mem_append_left _ hj))
    · refine ha.resolve_left fun h => ?_
      have := h i (List.mem_append_right _ (List.mem_singleton.mpr rfl))
      omega

/-- All lanes of an LDA whose source bytes have been read are copied, in whichever order. -/
theorem ldaWrites_copied {o : Op} {s : State} (hdone : ∀ a ∈ o.lanes, a.done = true) (hwrote : o.wrote = [])
    (hw : Memory.wf s.blk.scratch = true)
    (hapart : ∀ i ∈ o.laneList, ∀ j ∈ o.laneList, i ≠ j →
      o.target i + o.size ≤ o.target j ∨ o.target j + o.size ≤ o.target i) :
    LanesCopied o s (anyOrder s.free o.laneList) (ldaWrites (fun _ => true) o s) := by
  have hperm := anyOrder_perm s.free o.laneList
  have hnodup : (anyOrder s.free o.laneList).Nodup := hperm.nodup_iff.mpr (List.nodup_range.filter _)
  have hmem : ∀ i ∈ anyOrder s.free o.laneList, i ∈ o.laneList := fun i hi => hperm.mem_iff.mp hi
  rw [ldaWrites]
  generalize anyOrder s.free o.laneList = l at hnodup hmem
  induction l using List.reverseRecOn with
  | nil => exact .none hw hwrote
  | append_singleton l i ih =>
    obtain ⟨hl, -, hcross⟩ := List.nodup_append.mp hnodup
    have hi : i ∉ l := fun h => hcross i h i (List.mem_singleton.mpr rfl) rfl
    rw [List.foldl_append]
    exact (ih hl fun j hj => hmem j (List.mem_append_left _ hj)).write hdone hi
      (fun j hj => hapart i (hmem i (List.mem_append_right _ (List.mem_singleton.mpr rfl))) j (hmem j (List.mem_append_left _ hj))
        fun h => hi (h ▸ hj)) _ fun _ => rfl

end Machine

end Sys2Proof

/-! ## LDA_COMPLETE and QNT_MERGE, and the on-chip accesses as a whole (R240, R241, R253 to R261) -/

namespace Sys2Proof

namespace Machine

/-! ### LDA_COMPLETE -/

section
variable {o : Op} {s : State}

/-- The read of all of an LDA's source units. -/
def ldaTaken (o : Op) (s : State) : Op :=
  o.take o.lanes (fun a => a.pas.map fun x => if s.badByte x then 0#8 else s.readByte x) fun a => poisoned s a.pas

theorem ldaRead_clean (hclean : CleanUnits o.lanes s) : ldaRead o o.lanes s = (ldaTaken o s, s) := by
  have hhit : o.lanes.filter (fun a => poisoned s a.pas) = [] := by
    rw [List.filter_eq_nil_iff]
    intro a ha
    rw [(hclean a ha).2]
    exact Bool.false_ne_true
  rw [ldaRead, foldl_macCheck_units fun a ha => (hclean a ha).1, hhit]
  exact congrArg (Prod.mk _) (countPoison_zero s)

theorem mem_ldaTaken {a : LaneAcc} (h : a ∈ (ldaTaken o s).lanes) : ∃ b ∈ o.lanes, a = { b with
    data := b.pas.map fun x => if s.badByte x then 0#8 else s.readByte x, bad := poisoned s b.pas, done := true } := by
  obtain ⟨b, hb, rfl⟩ := List.mem_map.mp h
  rw [if_pos (List.contains_iff_mem.mpr hb)]
  exact ⟨b, hb, rfl⟩

theorem ldaTaken_parts (i : Nat) : lanePartsOf (ldaTaken o s).lanes i = (lanePartsOf o.lanes i).map fun b => { b with
    data := b.pas.map fun x => if s.badByte x then 0#8 else s.readByte x, bad := poisoned s b.pas, done := true } := by
  rw [ldaTaken, take_parts]
  exact List.map_congr_left fun b hb => if_pos (List.contains_iff_mem.mpr (List.mem_filter.mp hb).1)

theorem ldaTaken_target (i : Nat) : (ldaTaken o s).target i = o.target i := by
  rw [Op.target, ldaTaken_parts, List.head?_map, Option.map_map, Op.target]
  rfl

theorem ldaTaken_laneList : (ldaTaken o s).laneList = o.laneList := by
  rw [Op.laneList, Op.laneList]
  refine List.filter_congr fun i _ => ?_
  rw [Bool.eq_iff_iff, List.any_eq_true, List.any_eq_true]
  constructor
  · rintro ⟨a, ha, hi⟩
    obtain ⟨b, hb, rfl⟩ := mem_ldaTaken ha
    exact ⟨b, hb, hi⟩
  · rintro ⟨b, hb, hi⟩
    refine ⟨_, List.mem_map.mpr ⟨b, hb, rfl⟩, ?_⟩
    rw [if_pos (List.contains_iff_mem.mpr hb)]
    exact hi

theorem ldaTaken_bytes (hnew : ∀ a ∈ o.lanes, a.done = false) (hclean : CleanUnits o.lanes s) (i : Nat) :
    copyBytes (ldaTaken o s) i = laneRead o i fun a => a.pas.map s.readByte := by
  rw [copyBytes, ldaTaken_parts, List.map_map, laneRead]
  refine congrArg (joinParts o.size) (List.map_congr_left fun a ha => ?_)
  have ha := (List.mem_filter.mp ha).1
  have hbytes : (a.pas.map fun x => if s.badByte x then 0#8 else s.readByte x) = a.pas.map s.readByte := by
    refine List.map_congr_left fun x hx => if_neg fun hbad => ?_
    have hpoison : poisoned s a.pas = true := List.any_eq_true.mpr ⟨x, hx, hbad⟩
    rw [(hclean a ha).2] at hpoison
    cases hpoison
  rw [hnew a ha, if_neg Bool.false_ne_true, ← hbytes]
  rfl

theorem picked_all (hnew : ∀ a ∈ o.lanes, a.done = false) : o.picked .all = o.lanes := by
  rw [Op.picked, Op.undone, List.filter_filter]
  refine List.filter_eq_self.mpr fun a ha => ?_
  rw [hnew a ha]
  rfl

/-- An LDA of which nothing is done copies all its lanes and is over. -/
theorem ldaComplete_completes {r : StrandRef} {n : Nat} (hfocus : InFocus r s) (hop : opAt s.st n = some o)
    (hwhat : o.what = .lda) (hcollapsed : o.collapsed = true) (hwrote : o.wrote = [])
    (hnew : ∀ a ∈ o.lanes, a.done = false) (hclean : CleanUnits o.lanes s) (hw : Memory.wf s.blk.scratch = true)
    (hapart : ∀ i ∈ o.laneList, ∀ j ∈ o.laneList, i ≠ j →
      o.target i + o.size ≤ o.target j ∨ o.target j + o.size ≤ o.target i) :
    Completes (.ldaComplete r ⟨n, .all⟩) s fun t =>
      t.mem = s.mem ∧ opAt t.st n = none ∧ t.st.v = s.st.v ∧ t.st.s = s.st.s ∧ t.st.m = s.st.m
        ∧ (∀ i ∈ o.laneList, ∀ k, k < o.size → (o.target i + k) / 16 ∉ s.blk.armed →
            t.blk.scratchAt (o.target i + k) = nth 0 (laneRead o i fun a => a.pas.map s.readByte) k)
        ∧ ∀ x, ((∀ i ∈ o.laneList, x < o.target i ∨ o.target i + o.size ≤ x) ∨ x / 16 ∈ s.blk.armed) →
            t.blk.scratchAt x = s.blk.scratchAt x := by
  have hall : LanesCopied (ldaTaken o s) s (anyOrder s.free o.laneList) (ldaWrites (fun _ => true) (ldaTaken o s) s) := by
    rw [← ldaTaken_laneList (o := o) (s := s)]
    refine ldaWrites_copied (fun a ha => ?_) hwrote hw fun i hi j hj hij => ?_
    · obtain ⟨b, -, rfl⟩ := mem_ldaTaken ha
      rfl
    · rw [ldaTaken_laneList] at hi hj
      rw [ldaTaken_target, ldaTaken_target]
      exact hapart i hi j hj hij
  have hexec : exec (.ldaComplete r ⟨n, .all⟩) s = .next
      (let y := ldaWrites (fun _ => true) (ldaTaken o s) s
       if (y.1.collapsed || s.st.gone) && ldaWritten y.1 then ldaDone y.1 y.2 else setOp y.1 y.2) := by
    have hrun : exec (.ldaComplete r ⟨n, .all⟩) s = execLdaComplete r ⟨n, .all⟩ s := rfl
    rw [hrun, execLdaComplete, withOp_here hfocus hop, if_neg (fun h => h hwhat)]
    dsimp only
    rw [picked_all hnew, ldaRead_clean hclean]
  generalize ldaWrites (fun _ => true) (ldaTaken o s) s = y at hall hexec
  obtain ⟨w, v⟩ := y
  obtain ⟨⟨hw1, hwritten⟩, ⟨hmem, hst, -, -⟩, hcopied, hkept⟩ := hall
  dsimp only at hw1 hwritten hmem hst hcopied hkept hexec
  have hlanes : w.lanes = (ldaTaken o s).lanes := by rw [hw1]
  have hsize : w.size = o.size := by rw [hw1]; rfl
  have hserial : w.serial = n := by rw [hw1]; exact show o.serial = n from opAt_serial hop
  have hover : ((w.collapsed || s.st.gone) && ldaWritten w) = true := by
    have hcol : w.collapsed = true := by rw [hw1]; exact hcollapsed
    have hlist : w.laneList = o.laneList := by rw [Op.laneList, hlanes, ← Op.laneList, ldaTaken_laneList]
    rw [hcol, Bool.true_or, Bool.true_and, ldaWritten, hlist, hsize, List.all_eq_true]
    refine fun i hi => List.all_eq_true.mpr fun k hk => List.contains_iff_mem.mpr ((hwritten i k).mpr ⟨?_, List.mem_range.mp hk⟩)
    exact (anyOrder_perm s.free o.laneList).mem_iff.mpr hi
  have hgood : w.lanes.any (·.bad) = false := by
    rw [hlanes, List.any_eq_false]
    intro a ha
    obtain ⟨b, hb, rfl⟩ := mem_ldaTaken ha
    show ¬ poisoned s b.pas = true
    rw [(hclean b hb).2]
    exact Bool.false_ne_true
  have hdone : ldaDone w v = opDone n v := by
    rw [ldaDone, hgood, Bool.false_and, if_neg Bool.false_ne_true, hserial]
  obtain ⟨⟨hregs, kmem, -, -, -, -, kscratch, -⟩, hnone⟩ := opDone_spec n v
  rw [if_pos hover, hdone] at hexec
  rw [hst] at hregs
  refine ⟨_, hexec, kmem.trans hmem, hnone, hregs.1, hregs.2.1, hregs.2.2.1, fun i hi k hk hfree => ?_, fun x hx => ?_⟩
  · have h := hcopied i ((anyOrder_perm s.free o.laneList).mem_iff.mpr hi) k hk (by rw [ldaTaken_target]; exact hfree)
    rw [ldaTaken_target, ldaTaken_bytes hnew hclean] at h
    rw [Block.scratchAt, kscratch]
    exact h
  · rw [Block.scratchAt, kscratch]
    refine hkept x (hx.imp_left fun h i hi => ?_)
    rw [ldaTaken_target]
    exact h i ((anyOrder_perm s.free o.laneList).mem_iff.mp hi)

end

theorem ldaComplete_next (r : StrandRef) (n : Nat) (u : Sys2Proof.Units) (s : State) :
    ∃ t, exec (.ldaComplete r ⟨n, u⟩) s = .next t := by
  have hexec : exec (.ldaComplete r ⟨n, u⟩) s = execLdaComplete r ⟨n, u⟩ s := rfl
  rw [hexec, execLdaComplete, withOp]
  split
  · exact ⟨_, rfl⟩
  · split
    · exact ⟨_, rfl⟩
    · split <;> exact ⟨_, rfl⟩

/-! ### QNT_MERGE -/

theorem qntMerge_next (n : Nat) (s : State) : ∃ t, exec (.qntMerge n) s = .next t := by
  have hexec : exec (.qntMerge n) s = execQntMerge n s := rfl
  rw [hexec, execQntMerge]
  split <;> exact ⟨_, rfl⟩

/-- A deferred atomic on a clean word is applied there. -/
theorem applyQnt_clean {q : QntAtom} {s : State} (hclean : badLines s q.key q.pas = []) (hpoison : poisoned s q.pas = false) :
    applyQnt q s = l1Drop q.core (linesOf q.pas) (writePlaces q.key false
      (q.pas.zip (atomAfter q.aop q.size (q.pas.map s.readByte) (leBytes 8 q.data.toNat) q.cmp)) s) := by
  rw [applyQnt, macCheck_clean hclean, hpoison]
  simp only [Bool.false_and, Bool.false_eq_true, if_false, atomBytes_eq]

/-- The one deferred atomic on a word is applied to it, and is deferred no more. -/
theorem qntMerge_completes {n : Nat} {q : QntAtom} {s : State} (hfind : s.qnt.find? (fun x => x.num = n) = some q)
    (hone : (s.qnt.filter fun x => x.pas = q.pas) = [q]) (hclean : badLines s q.key q.pas = [])
    (hpoison : poisoned s q.pas = false) (hw : Memory.wf s.mem = true) (hlow : ∀ p ∈ q.pas, p < Config.paSpace)
    (hnodup : q.pas.Nodup) (hlen : q.pas.length = q.size) :
    Completes (.qntMerge n) s fun t =>
      t.qnt = s.qnt.filter (fun x => x.pas ≠ q.pas) ∧ SameBytes q.pas s t
        ∧ ∀ x ∈ q.pas.zip (atomAfter q.aop q.size (q.pas.map s.readByte) (leBytes 8 q.data.toNat) q.cmp),
            Memory.read t.mem x.1 = x.2 := by
  let rest : State := { s with qnt := s.qnt.filter fun x => !decide (x.pas = q.pas) }
  let new := atomAfter q.aop q.size (q.pas.map s.readByte) (leBytes 8 q.data.toNat) q.cmp
  have hexec : exec (.qntMerge n) s = .next (pokeStrand q.strand (l1Drop q.core (linesOf q.pas)
      (writePlaces q.key false (q.pas.zip new) rest))) := by
    have hrun : exec (.qntMerge n) s = .next (applyDeferred (fun x => x.pas = q.pas) s) := by
      show execQntMerge n s = _
      simp only [execQntMerge, hfind]
    rw [hrun, applyDeferred, hone]
    exact congrArg (fun x => Host.Outcome.next (pokeStrand q.strand x)) (applyQnt_clean (s := rest) hclean hpoison)
  have hplen : q.pas.length = new.length := hlen.trans (length_atomAfter _ _ _ _ _).symm
  have hstored := (writePlaces_stored q.key false (q.pas.zip new) rest)
  have hwritten := writePlaces_low q.key (q.pas.zip new) (s := rest) fun x hx => hlow x.1 (List.of_mem_zip hx).1
  have hkeys : (q.pas.zip new).map (·.1) = q.pas := List.map_fst_zip (Nat.le_of_eq hplen)
  have hqnt : (writePlaces q.key false (q.pas.zip new) rest).qnt = rest.qnt := by rw [hstored.1.1]
  have hbytes := hstored.2 hw
  rw [hkeys] at hbytes
  have honly := (pokeStrand_wakes q.strand (l1Drop q.core (linesOf q.pas)
    (writePlaces q.key false (q.pas.zip new) rest))).onlyOps
  refine ⟨_, hexec, ?_, fun a ha => ?_, fun x hx => ?_⟩
  · refine honly.2.2.2.1.trans (hqnt.trans (List.filter_congr fun x _ => ?_))
    rw [decide_not]
  · rw [honly.2.1]
    exact hbytes.2 a ha
  · rw [honly.2.1]
    show Memory.read (writePlaces q.key false (q.pas.zip new) rest).mem x.1 = x.2
    rw [hwritten]
    exact putPlaces_read q.key false hw (hkeys.symm ▸ hnodup) hx

/-! ### The atomics on chip -/

/-- Lanes of an on-chip atomic, and the operation with the units that are left. -/
theorem chipAtoms_spec {n : Nat} {o : Op} {l : List LaneAcc} {s : State} (hop : opAt s.st n = some o)
    (hunits : ∀ a ∈ l, (∀ p ∈ a.pas, p ∉ chipPoison o.what.onSbm s) ∧ a.pas.Nodup ∧ a.pas.length = o.size)
    (happart : ∀ a ∈ l, ∀ b ∈ l, a.pas = b.pas ∨ ∀ p ∈ a.pas, p ∉ b.pas) (hlanes : (l.map (·.lane)).Pairwise (· < ·))
    (huni : o.uni = true → l.length ≤ 1) (hw : Memory.wf (onChip o.what.onSbm s) = true) :
    let t := opGoesOn (o.mark l) (l.foldl (fun s a => chipAtomLane o a s) s)
    (t.mem = s.mem ∧ t.st.m = s.st.m ∧ LeftWith n (o.undone.filter fun a => !l.contains a) t)
      ∧ (∀ a ∈ l, chipWord o a t = wordAfter o s l a)
      ∧ (∀ x, x ∉ l.flatMap (·.pas) → Memory.read (onChip o.what.onSbm t) x = Memory.read (onChip o.what.onSbm s) x)
      ∧ onChip (!o.what.onSbm) t = onChip (!o.what.onSbm) s
      ∧ (o.nr = false → ∀ a ∈ l, Holds o a.lane (loadedWords o.size false (wordAfter o s (l.filter (·.lane < a.lane)) a)) t)
      ∧ (o.nr = true → t.st.v = s.st.v ∧ t.st.s = s.st.s) := by
  obtain ⟨⟨⟨hmem, hm, hops, hrest, -, -⟩, hframe, hholds, hnone⟩, hwords⟩ :=
    chipAtoms_done hunits happart hw (fun a ha => ha) hlanes huni
  generalize l.foldl (fun s a => chipAtomLane o a s) s = w at hmem hm hops hrest hframe hholds hnone hwords
  obtain ⟨honly, hleft⟩ := opGoesOn_spec (o := o.mark l) (s := w) (by rw [opAt, hops]; exact hop)
    (show o.serial = n from opAt_serial hop)
  rw [mark_undone] at hleft
  obtain ⟨kv, ks, km, -⟩ := honly.1
  intro t
  refine ⟨⟨honly.2.1.trans hmem, km.trans hm, hleft⟩, fun a ha => ?_, fun x hx => ?_, (honly.onChip _).trans hrest,
    fun hnr a ha => (hholds hnr a ha).of_regs honly.1, fun hnr => ⟨kv.trans (hnone hnr).1, ks.trans (hnone hnr).2⟩⟩
  · rw [chipWord, honly.onChip]
    exact hwords a ha
  · rw [honly.onChip]
    exact hframe x hx

end Machine

open Machine

/-- Settles O40: by what each kind of on-chip operation does with the units that are performed, the lanes of an atomic
one after another, an LDA's lanes in whichever order, and a deferred atomic on its word. -/
theorem chipAccessesPerform : Obligations.ChipAccessesPerform := by
  unfold Obligations.ChipAccessesPerform
  refine ⟨fun r n u o s hfocus hop hheld hchip hu => ?_, fun r n o s hfocus hop hwhat hcol hwrote hnew hclean hw hapart =>
    ldaComplete_completes hfocus hop hwhat hcol hwrote (fun a ha => (hnew a ha).1) hclean hw hapart, ldaComplete_next,
    qntMerge_next, fun n q s hfind hone hclean hpoison hw hlow hnodup hlen _ =>
      qntMerge_completes hfind hone hclean hpoison hw hlow hnodup hlen⟩
  have hnew : ∀ a ∈ o.picked u, a.done = false := fun a ha => (mem_picked ha).2
  refine ⟨fun hwhat hclean => ?_, fun hwhat harmed hlen _ hw => ?_, fun hwhat harmed hunits hsize happart hlanes huni hw => ?_,
    fun hwhat a q harmed => chipPerformed_faults hfocus hop hheld hchip hwhat harmed⟩
  · have hexec := chipPerformed_runs (u := u) hfocus hop hheld hchip
      (fun h => by rcases hwhat with k | k <;> rw [k] at h <;> exact absurd h (by decide)) fun _ => hclean
    rw [chipEffect_load hwhat] at hexec
    obtain ⟨hmem, hm, hleft, hbytes, hholds⟩ := chipLoad_spec hop hnew hclean
    exact ⟨_, hexec, ⟨hmem, hm, hleft⟩, hbytes, hholds⟩
  · have hexec := chipPerformed_runs (u := u) hfocus hop hheld hchip
      (fun h => List.filter_eq_nil_iff.mpr fun a ha => by
        have hsts : o.what = .sts := hwhat.resolve_right fun k => by rw [k] at h; exact absurd h (by decide)
        simpa using harmed hsts a ha) fun h => absurd hwhat h
    rw [chipEffect_store hwhat] at hexec
    exact ⟨_, hexec, chipStore_spec hop hlen hw⟩
  · have hexec := chipPerformed_runs (u := u) hfocus hop hheld hchip
      (fun h => List.filter_eq_nil_iff.mpr fun a ha => by
        have hatoms : o.what = .atoms := hwhat.resolve_right fun k => by rw [k] at h; exact absurd h (by decide)
        simpa using harmed hatoms a ha) fun _ a ha => (hunits a ha).1
    rw [chipEffect_atom hwhat] at hexec
    obtain ⟨hhere, hwords, hframe, hrest, hholds, hnone⟩ :=
      chipAtoms_spec hop (fun a ha => hunits a ha) happart hlanes huni hw
    refine ⟨_, hexec, hhere, fun a ha => ?_, hframe, hrest, fun hnr a ha => ?_, hnone⟩
    · simp only [Bool.and_true]
      exact hwords a ha
    · have h := hholds hnr a ha
      rw [wordAfter, List.filter_filter] at h
      exact h

end Sys2Proof

/-! ## The canonical form of memory: what it means of each kind of result that an operation answers with it

The only operations that write the device's memory are `putPlaces`, `zeroPage` and the two resets. Everything else
either leaves memory as it is or goes through these, so a state keeps the form through whatever calls them. -/

namespace Sys2Proof

namespace Machine

/-- Memory stands in its canonical form. -/
def Wf (s : State) : Prop := Memory.wf s.mem = true

/-- An outcome's next state is canonical. -/
def OutWf : Out → Prop
  | .next s => Wf s
  | _ => True

/-- A state that may not be there is canonical where it is. -/
def OptWf : Option State → Prop
  | some s => Wf s
  | none => True

def SndWf {α : Type} (x : α × State) : Prop := Wf x.2

def FstWf {α : Type} (x : State × α) : Prop := Wf x.1

def ThirdWf {α β : Type} (x : α × β × State) : Prop := Wf x.2.2

def OptSndWf {α : Type} : Option (α × State) → Prop
  | some x => Wf x.2
  | none => True

def OptThirdWf {α β : Type} : Option (α × β × State) → Prop
  | some x => Wf x.2.2
  | none => True

def ExceptWf {α ε : Type} : Except ε (α × State) → Prop
  | .ok x => Wf x.2
  | .error _ => True

def CheckedWf : Checked → Prop
  | .ok _ s _ => Wf s
  | .bad _ => True

def CheckedAllWf : CheckedAll → Prop
  | .ok _ s _ => Wf s
  | .bad _ => True

def WroteWf : Wrote → Prop
  | .done s => Wf s
  | _ => True

def EffectWf : Effect → Prop
  | .done _ _ s => Wf s
  | .stall _ _ s => Wf s
  | .absent _ => True

def RangedWf : Ranged → Prop
  | .ok _ s => Wf s
  | .bad _ _ => True

def BegunWf : Begun → Prop
  | .on _ s => Wf s
  | .ends e => EffectWf e

def IngestedWf : Ingested → Prop
  | .on _ _ s => Wf s
  | .ends e => EffectWf e

def ArgReadWf : ArgRead → Prop
  | .ok _ s => Wf s
  | .bad _ s => Wf s

def WatchedWf : Watched → Prop
  | .word _ s => Wf s
  | .bad _ s => Wf s

/-! ### Taking a result apart -/

theorem OptWf.of_eq {x : Option State} {t : State} (h : OptWf x) (he : x = some t) : Wf t := by rw [he] at h; exact h

theorem SndWf.of_eq {α : Type} {x : α × State} {a : α} {t : State} (h : SndWf x) (he : x = (a, t)) : Wf t := by
  rw [he] at h; exact h

theorem FstWf.of_eq {α : Type} {x : State × α} {a : α} {t : State} (h : FstWf x) (he : x = (t, a)) : Wf t := by
  rw [he] at h; exact h

theorem ThirdWf.of_eq {α β : Type} {x : α × β × State} {a : α} {b : β} {t : State} (h : ThirdWf x) (he : x = (a, b, t)) :
    Wf t := by rw [he] at h; exact h

theorem OptSndWf.of_eq {α : Type} {x : Option (α × State)} {a : α} {t : State} (h : OptSndWf x) (he : x = some (a, t)) :
    Wf t := by rw [he] at h; exact h

theorem OptThirdWf.of_eq {α β : Type} {x : Option (α × β × State)} {a : α} {b : β} {t : State} (h : OptThirdWf x)
    (he : x = some (a, b, t)) : Wf t := by rw [he] at h; exact h

theorem ExceptWf.of_eq {α ε : Type} {x : Except ε (α × State)} {a : α} {t : State} (h : ExceptWf x) (he : x = .ok (a, t)) :
    Wf t := by rw [he] at h; exact h

theorem CheckedWf.of_eq {x : Checked} {p : PagePart} {t : State} {w : World} (h : CheckedWf x) (he : x = .ok p t w) : Wf t := by
  rw [he] at h; exact h

theorem CheckedAllWf.of_eq {x : CheckedAll} {l : List (Nat × DWord × PagePart)} {t : State} {w : World} (h : CheckedAllWf x)
    (he : x = .ok l t w) : Wf t := by rw [he] at h; exact h

theorem WroteWf.of_eq {x : Wrote} {t : State} (h : WroteWf x) (he : x = .done t) : Wf t := by rw [he] at h; exact h

theorem EffectWf.of_done {x : Effect} {w : Word} {l : List EWrite} {t : State} (h : EffectWf x) (he : x = .done w l t) :
    Wf t := by rw [he] at h; exact h

theorem EffectWf.of_stall {x : Effect} {f : FaultInfo} {n : Nat} {t : State} (h : EffectWf x) (he : x = .stall f n t) :
    Wf t := by rw [he] at h; exact h

theorem RangedWf.of_eq {x : Ranged} {l : List (Nat × DWord × PagePart)} {t : State} (h : RangedWf x) (he : x = .ok l t) :
    Wf t := by rw [he] at h; exact h

theorem BegunWf.of_on {x : Begun} {p : Packet} {t : State} (h : BegunWf x) (he : x = .on p t) : Wf t := by
  rw [he] at h; exact h

theorem BegunWf.of_ends {x : Begun} {e : Effect} (h : BegunWf x) (he : x = .ends e) : EffectWf e := by
  rw [he] at h; exact h

theorem IngestedWf.of_on {x : Ingested} {l m : List (Nat × DWord × PagePart)} {t : State} (h : IngestedWf x)
    (he : x = .on l m t) : Wf t := by rw [he] at h; exact h

theorem IngestedWf.of_ends {x : Ingested} {e : Effect} (h : IngestedWf x) (he : x = .ends e) : EffectWf e := by
  rw [he] at h; exact h

theorem ArgReadWf.of_ok {x : ArgRead} {l : List Byte} {t : State} (h : ArgReadWf x) (he : x = .ok l t) : Wf t := by
  rw [he] at h; exact h

theorem ArgReadWf.of_bad {x : ArgRead} {f : FaultInfo} {t : State} (h : ArgReadWf x) (he : x = .bad f t) : Wf t := by
  rw [he] at h; exact h

theorem WatchedWf.of_word {x : Watched} {w : Word} {t : State} (h : WatchedWf x) (he : x = .word w t) : Wf t := by
  rw [he] at h; exact h

theorem WatchedWf.of_bad {x : Watched} {f : FaultInfo} {t : State} (h : WatchedWf x) (he : x = .bad f t) : Wf t := by
  rw [he] at h; exact h

/-! ### What keeps it -/

theorem Wf.of_mem {s t : State} (h : Wf s) (hmem : t.mem = s.mem) : Wf t := by
  rw [Wf, hmem]
  exact h

theorem Wf.reported {s t : State} (h : Wf s) (hr : Reported s t) : Wf t := hr.2.1 h

theorem Wf.translated {s t : State} (h : Wf s) (ht : Translated s t) : Wf t := by
  obtain ⟨u, x, hu, -, rfl⟩ := ht
  exact hu.2 h

theorem Wf.focused {s t : State} (h : Wf s) (hf : OnlyFocus s t) : Wf t := h.of_mem (by rw [hf])

theorem Wf.freed {s t : State} (h : Wf s) (hf : Freed s t) : Wf t := hf.2.2.2 h

theorem Wf.kept {s t : State} (h : Wf s) (hk : KeepsForm s t) : Wf t := hk.1 h

theorem Wf.stored {l : List Nat} {s t : State} (h : Wf s) (hs : Stored l s t) : Wf t := (hs.2 h).1

theorem Wf.woken {s t : State} (h : Wf s) (hw : Wakes s t) : Wf t := h.of_mem hw.mem

theorem Wf.ops {s t : State} (h : Wf s) (ho : OnlyOps s t) : Wf t := h.of_mem ho.2.1

theorem Wf.settled {s t : State} (h : Wf s) (hs : OnlySettled s t) : Wf t := h.kept hs.keepsForm

theorem Wf.checked {s t : State} (h : Wf s) (hc : OnlyChecked s t) : Wf t := hc.2 h

theorem Wf.copies {s t : State} (h : Wf s) (hc : OnlyCopies s t) : Wf t := h.of_mem (by rw [hc])

theorem Wf.links {s t : State} (h : Wf s) (hl : OnlyLinks s t) : Wf t := h.of_mem (by rw [hl])

theorem Wf.ite {c : Prop} [Decidable c] {s t : State} (hs : Wf s) (ht : Wf t) : Wf (if c then s else t) := by
  split
  · exact hs
  · exact ht

theorem foldl_wf {α : Type} {f : State → α → State} (hstep : ∀ s x, Wf s → Wf (f s x)) {l : List α} {s : State} (h : Wf s) :
    Wf (l.foldl f s) := by
  induction l generalizing s with
  | nil => exact h
  | cons x l ih => exact ih (hstep s x h)

end Machine

end Sys2Proof

/-! ## The canonical form of memory through checks, allocations and refetches -/

namespace Sys2Proof

namespace Machine

theorem OutWf.of_eq {x : Out} {t : State} (h : OutWf x) (he : x = .next t) : Wf t := by rw [he] at h; exact h

theorem Out.andThen_wf {o : Out} {f : State → Out} (h : OutWf o) (k : ∀ s, Wf s → OutWf (f s)) : OutWf (o.andThen f) := by
  cases o with
  | next s => exact k s h
  | fault r => exact trivial
  | refused r => exact trivial

/-! ### Checks (R229) -/

theorem checkParts_wf {party : Party} {die : Nat} {k : Access} {draw : Bool} {size : Nat} {l : List (Nat × DWord × Nat)}
    {s : State} {w : World} (h : Wf s) : CheckedAllWf (checkParts party die k draw size l s w) := by
  cases hcheck : checkParts party die k draw size l s w with
  | ok parts t x => exact h.checked (checkParts_only l hcheck).1
  | bad f => exact trivial

theorem checkAccess_wf {s : State} {w : World} {party : Party} {die : Nat} {k : Access} {draw : Bool} {p : DWord} {n : Nat}
    (h : Wf s) : CheckedAllWf (checkAccess s w party die k draw p n) := by
  cases hcheck : checkAccess s w party die k draw p n with
  | ok parts t x => exact h.checked (checkAccess_only hcheck).1
  | bad f => exact trivial

theorem checkLane_wf {r : MemReq} {lane : Nat} {s : State} (h : Wf s) : CheckedAllWf (checkLane r lane s) := by
  cases hcheck : checkLane r lane s with
  | ok parts t x => exact (h.translated (checkLane_translated hcheck) : Wf { t with wld := x })
  | bad f => exact trivial

theorem checkRuns_wf {p : DWord} {l : List (Nat × Nat)} {at_ : Nat} {s : State} {w : World} (h : Wf s) :
    CheckedAllWf (checkRuns p l at_ s w) := by
  induction l generalizing at_ s w with
  | nil => exact h
  | cons x t ih =>
    rw [checkRuns]
    split
    · exact trivial
    · next hcheck =>
      split
      · exact trivial
      · next hrest => exact (ih (checkAccess_wf h |>.of_eq hcheck)).of_eq hrest

/-! ### Allocations (R203, R216, R335) -/

theorem allocate_wf {t n : Nat} {s : State} (h : Wf s) : OptSndWf (allocate t n s) := by
  rw [allocate]
  generalize (if t = 0 then s.grd.bcap else s.grd.gcap) = cap
  generalize (if t = 0 then s.blk.barena else s.grd.garena) = base
  dsimp only
  split
  · split
    · exact trivial
    · exact h
  · split
    · exact trivial
    · split
      · exact trivial
      · split
        · exact trivial
        · exact h.checked (setSlotRec_only _ _)

/-- A range that is taken leaves memory as it is, however the state marks it. -/
theorem OptSndWf.map {α β : Type} {x : Option α} {f : α → β × State} (hf : ∀ a, x = some a → Wf (f a).2) : OptSndWf (x.map f) := by
  cases x with
  | none => exact trivial
  | some a => exact hf a rfl

theorem OptSndWf.mem {α : Type} {x : Option (α × State)} (h : OptSndWf x) {y : α × State} (hy : x = some y) : Wf y.2 := by
  rw [hy] at h
  exact h

theorem takeReserve_wf {s : State} {w : World} {save : Bool} {size align : Nat} (h : Wf s) :
    OptSndWf (takeReserve s w save size align) := by
  rw [takeReserve]
  split
  · exact trivial
  · exact .map fun _ _ => h

theorem takePoolMemory_wf {s : State} {w : World} {size align : Nat} (h : Wf s) : OptSndWf (takePoolMemory s w size align) := by
  rw [takePoolMemory]
  split
  · exact .map fun x hx => ((takeReserve_wf h).mem hx).freed (setWorld_freed _)
  · rw [Option.map_map]
    exact .map fun _ _ => h.freed (setWorld_freed _)

theorem takeSave_wf {s : State} {w : World} {size : Nat} (h : Wf s) : OptSndWf (takeSave s w size) := by
  rw [takeSave]
  split
  · refine .map fun x hx => Wf.freed ?_ (setWorld_freed _)
    obtain hr | ⟨-, hr⟩ := Option.or_eq_some_iff.mp hx
    · obtain ⟨r, -, rfl⟩ := Option.map_eq_some_iff.mp hr
      exact h
    · exact (takeReserve_wf h).mem hr
  · rw [Option.map_map]
    exact .map fun _ _ => h.freed (setWorld_freed _)

theorem refill_wf {key die : Nat} {big : Bool} {n : Nat} {s : State} (h : Wf s) : Wf (refill key die big n s) := by
  induction n generalizing s with
  | zero => exact h
  | succ n ih =>
    rw [refill]
    split
    · exact h
    · split
      · exact h
      · next htake =>
        have ht := (takePoolMemory_wf h).of_eq htake
        split
        · exact ht
        · exact ih (ht.freed (setWorld_freed _))

/-! ### Refetches of sealed slots (R186, R188) -/

theorem oldwFetched_wf {lanes : List LaneAcc} {s : State} (h : Wf s) :
    Wf (lanes.foldl (fun s a => macCheck a.key a.pas s) s) :=
  foldl_wf (fun _ _ ht => ht.reported (macCheck_reported _ _ _)) h

theorem refetchSlot_wf {k : Nat} {s : State} (h : Wf s) : FstWf (refetchSlot k s) := by
  rw [refetchSlot]
  dsimp only
  split
  · exact h
  · next hcheck =>
    have ht := (checkRuns_wf h).of_eq hcheck
    split
    · exact ht
    · split
      · exact oldwFetched_wf ht
      · show Wf _
        dsimp only
        split
        · exact oldwFetched_wf ht
        · refine Wf.reported ?_ (recordFor_reported _ _ _ _ _)
          exact oldwFetched_wf ht

theorem refetchAll_wf {declined : Bool} {l : List Nat} {s : State} (h : Wf s) : ExceptWf (refetchAll declined l s) := by
  induction l generalizing s with
  | nil => exact h
  | cons k t ih =>
    rw [refetchAll]
    split
    · next hslot => exact ih ((refetchSlot_wf h).of_eq hslot)
    · next hslot =>
      have ht := (refetchSlot_wf h).of_eq hslot
      split
      · exact trivial
      · cases hrest : refetchAll declined t _ with
        | error e => exact trivial
        | ok x => exact (ih ht).of_eq hrest

theorem writeSave_wf {g : Grid} {b : Block} {r : Range} {s : State} (h : Wf s) : Wf (writeSave g b r s) := by
  rw [writeSave]
  generalize (List.range 256).map (r.base + ·) = head
  generalize saveHeader s g b = header
  generalize (saveSections s g b r.len).map (fun x => (r.base + x.1, x.2)) = rest
  have hfirst : Wf (putPlaces 0 false (head.zip (leBytes 256 header.toNat)) s) := h.stored (putPlaces_stored _ _ _ _)
  refine Wf.stored ?_ (putPlaces_stored _ _ _ _)
  exact hfirst

end Machine

end Sys2Proof

/-! ## The canonical form of memory through focus, faults and memory accesses -/

namespace Sys2Proof

namespace Machine

/-! ### Focus -/

theorem readOver_wf {l : List Nat} {s : State} (h : Wf s) : Wf (readOver l s) := h

theorem checkArena_wf {s : State} {w : World} {die : Nat} {k : Access} {draw : Bool} {p : DWord} {n : Nat} (h : Wf s) :
    CheckedWf (checkArena s w die k draw p n) := by
  unfold checkArena
  dsimp only
  split
  · exact trivial
  · split
    · exact trivial
    · split
      · exact trivial
      · split
        · exact trivial
        · split
          · exact h
          · split
            · split
              · exact trivial
              · exact (h.checked (zeroPage_only _ _ _)).freed (setSlotRec_freed _ _)
            · exact trivial

theorem State.dropStrand_wf {s : State} (h : Wf s) : Wf s.dropStrand := h

theorem State.dropGrid_wf {s : State} (h : Wf s) : Wf s.dropGrid := h

theorem State.dropWorld_wf {s : State} (h : Wf s) : Wf s.dropWorld := h

theorem State.focusGrid_wf {s : State} {id : Nat} (h : Wf s) : OptWf (s.focusGrid id) := by
  unfold State.focusGrid
  split
  · exact h.focused (focusWorld_only _ _)
  · dsimp only
    split
    · refine Wf.focused ?_ (focusWorld_only _ _)
      dsimp only [Wf]
      exact State.dropGrid_wf (h.focused (dropBlock_only _))
    · exact trivial

theorem State.focusBlock_wf {s : State} {b : BlockRef} (h : Wf s) : OptWf (s.focusBlock b) := by
  unfold State.focusBlock
  split
  · exact State.focusGrid_wf h
  · dsimp only
    split
    · split
      · next he =>
          dsimp only [OptWf, Wf]
          exact (State.focusGrid_wf (h.focused (dropBlock_only _))).of_eq he
      · exact trivial
    · exact trivial

theorem State.focus_wf {s : State} {r : StrandRef} (h : Wf s) : OptWf (s.focus r) := by
  unfold State.focus
  split
  · exact h
  · split
    · exact trivial
    · next he =>
        split
        · exact (State.focusBlock_wf h).of_eq he
        · dsimp only
          split
          · dsimp only [OptWf, Wf]
            exact State.dropStrand_wf ((State.focusBlock_wf h).of_eq he)
          · exact trivial

theorem State.setGrid_wf {s : State} {g : Grid} (h : Wf s) : Wf (s.setGrid g) := h.of_mem (State.mapGrids_mem _ _)

/-! ### Fault records and faults -/

theorem writeArea_wf {s : State} {w : World} {a : DWord} {what n : Nat} {rec : BitVec 512} (h : Wf s) :
    WroteWf (writeArea s w a what n rec) := by
  unfold writeArea
  dsimp only
  split
  · exact trivial
  · exact trivial
  · split
    · exact trivial
    · split
      · exact h.stored (writePlaces_stored _ _ _ _)
      · split
        · exact h.stored (writePlaces_stored _ _ _ _)
        · split
          · split
            · exact trivial
            · exact trivial
            · exact (h.stored (writePlaces_stored _ _ _ _)).stored (writePlaces_stored _ _ _ _)
          · exact h.stored (writePlaces_stored _ _ _ _)

theorem endGrids_wf {key code : Nat} {s : State} (h : Wf s) : Wf (endGrids key code s) :=
  foldl_wf (fun _ _ h1 => h1.reported (endGrid_reported _ _ _)) h

theorem outerDeclined_wf {source g key : Nat} {p : DWord} {s : State} (h : Wf s) :
    Wf (outerDeclined source g key p s) := endGrids_wf (h.reported (recordFor_reported _ _ _ _ _))

/-! ### Delivery, traps and parking -/

theorem destroySlots_wf {p : SlotRec → Bool} {s : State} (h : Wf s) : Wf (destroySlots p s) := h

theorem deliver_wf {f : FaultInfo} {s : State} (h : Wf s) : OutWf (deliver f s) := by
  unfold deliver
  split
  · exact trivial
  · exact h.kept (delivered_keepsForm _ _)

theorem parkOrDeliver_wf {f : FaultInfo} {left : BitVec 64} {s : State} (h : Wf s) :
    OutWf (parkOrDeliver f left s) := by
  unfold parkOrDeliver
  split
  · exact h.of_mem (park_mem _ _ _)
  · exact deliver_wf h

theorem userTrap_wf {code detail : Nat} {resume : DWord} {s : State} (h : Wf s) :
    OutWf (userTrap code detail resume s) := by
  unfold userTrap
  split
  · exact deliver_wf h
  · refine Wf.of_mem ?_ (endClause_mem _ _ _)
    exact h

theorem trapReturn_wf {s : State} (h : Wf s) : OutWf (trapReturn s) := by
  unfold trapReturn
  split
  · refine Wf.of_mem ?_ (endClause_mem _ _ _)
    exact h
  · exact deliver_wf h

/-! ### Operands and results -/

theorem guarded_wf {f : Form} {s : State} {k : State → Out} (h : Wf s) (hk : ∀ (a : State), Wf a → OutWf (k a)) :
    OutWf (guarded f s k) := by
  unfold guarded
  split
  · exact hk _ h
  · exact deliver_wf h

theorem finish_wf {f : Form} {s : State} (h : Wf s) : OutWf (finish f s) := h.of_mem (advance_mem _ _)

theorem vecResult_wf {f : Form} {p : Option AluPre} {n : Bool} {d : BitVec 7} {g : Nat → Word} {s : State} (h : Wf s) :
    OutWf (vecResult f p n d g s) := by
  unfold vecResult
  refine finish_wf ?_
  refine Wf.of_mem ?_ (pushLatch_mem _ _)
  exact h

theorem vecResult64_wf {f : Form} {p : Option AluPre} {n : Bool} {d : BitVec 7} {g : Nat → DWord} {s : State}
    (h : Wf s) : OutWf (vecResult64 f p n d g s) := by
  unfold vecResult64
  refine finish_wf ?_
  refine Wf.of_mem ?_ (pushLatch_mem _ _)
  exact h

theorem cmpResult_wf {f : Form} {p : Option AluPre} {n : Bool} {d : BitVec 7} {g : Nat → Bool} {s : State} (h : Wf s) :
    OutWf (cmpResult f p n d g s) := by
  unfold cmpResult
  dsimp only
  split
  · exact finish_wf (h.of_mem (pushLatch_mem _ _))
  · refine finish_wf ?_
    refine Wf.of_mem ?_ (pushLatch_mem _ _)
    exact h

theorem uniResult_wf {f : Form} {n : Bool} {d : BitVec 7} {x : Word} {s : State} (h : Wf s) :
    OutWf (uniResult f n d x s) := by
  unfold uniResult
  refine finish_wf ?_
  refine Wf.of_mem ?_ (pushLatch_mem _ _)
  split <;> exact h

theorem uniResult64_wf {f : Form} {n : Bool} {d : BitVec 7} {x : DWord} {s : State} (h : Wf s) :
    OutWf (uniResult64 f n d x s) := by
  unfold uniResult64
  refine finish_wf ?_
  refine Wf.of_mem ?_ (pushLatch_mem _ _)
  split <;> exact h

theorem maskResult_wf {f : Form} {n : Bool} {d : BitVec 4} {x : BitVec 64} {s : State} (h : Wf s) :
    OutWf (maskResult f n d x s) := by
  unfold maskResult
  refine finish_wf ?_
  refine Wf.of_mem ?_ (pushLatch_mem _ _)
  split <;> exact h

theorem zeroResult_wf {f : Form} {s : State} (h : Wf s) : OutWf (zeroResult f s) :=
  finish_wf (h.of_mem (pushLatch_mem _ _))

/-! ### Memory accesses -/

theorem addOp_wf {o : Op} {s : State} (h : Wf s) : Wf (addOp o s) := h

theorem afterAttempt_wf {f : Form} {uni : Bool} {faults : List (Nat × FaultInfo)} {s : State} (h : Wf s) :
    OutWf (afterAttempt f uni faults s) := by
  unfold afterAttempt
  split
  · exact finish_wf h
  · exact h.of_mem (park_mem _ _ _)

theorem memIssue_wf {f : Form} {r : MemReq} {s : State} (h : Wf s) : OutWf (memIssue f r s) := by
  unfold memIssue
  dsimp only
  split
  · exact deliver_wf h
  · split
    · exact h.of_mem (waitFor_mem _ _)
    · exact afterAttempt_wf (addOp_wf (h.translated (checkLanes_translated _ _ _)))

theorem memAct_wf {f : Form} {r : State → MemReq} {s : State} (h : Wf s) : OutWf (memAct f r s) := by
  unfold memAct
  refine guarded_wf h ?_
  intro _ h1
  split
  · exact deliver_wf h1
  · exact memIssue_wf h1

theorem memRead_wf {f : Form} {r : State → MemReq} {s : State} (h : Wf s) : OutWf (memRead f r s) :=
  guarded_wf h (fun _ h1 => memIssue_wf h1)

theorem localIssue_wf {f : Form} {sbm stores : Bool} {r : MemReq} {s : State} (h : Wf s) :
    OutWf (localIssue f sbm stores r s) := by
  unfold localIssue
  dsimp only
  split
  · exact deliver_wf h
  · split
    · exact deliver_wf h
    · split
      · exact deliver_wf h
      · exact finish_wf (addOp_wf h)

theorem localAct_wf {f : Form} {sbm stores : Bool} {r : State → MemReq} {s : State} (h : Wf s) :
    OutWf (localAct f sbm stores r s) := by
  unfold localAct
  refine guarded_wf h ?_
  intro _ h1
  split
  · exact deliver_wf h1
  · exact localIssue_wf h1

theorem localRead_wf {f : Form} {sbm : Bool} {r : State → MemReq} {s : State} (h : Wf s) :
    OutWf (localRead f sbm r s) := guarded_wf h (fun _ h1 => localIssue_wf h1)

theorem l1Fill_wf {core line : Nat} {s : State} (h : Wf s) : Wf (l1Fill core line s) :=
  h.copies (l1Put_copies _ _ _ _ _)

theorem l1Drop_wf {core : Nat} {lines : List Nat} {s : State} (h : Wf s) : Wf (l1Drop core lines s) := h

theorem l1Clear_wf {core : Nat} {s : State} (h : Wf s) : Wf (l1Clear core s) := h

theorem l1Write_wf {core : Nat} {l : List (Nat × Byte)} {s : State} (h : Wf s) : Wf (l1Write core l s) := h

theorem noteRing_wf {l : List (Nat × Byte)} {s : State} (h : Wf s) : Wf (noteRing l s) := h

theorem performWrites_wf {l : List (Nat × Byte)} {key : Nat} {s : State} (h : Wf s) : Wf (performWrites l key s) :=
  noteRing_wf (l1Write_wf ((h.reported (macCheck_reported _ _ _)).stored (writePlaces_stored _ _ _ _)))

theorem performStore_wf {size : Nat} {lanes : List LaneAcc} {s : State} (h : Wf s) :
    Wf (performStore size lanes s) := foldl_wf (fun _ _ h1 => performWrites_wf h1) h

theorem performAtomLane_wf {o : Op} {a : LaneAcc} {s : State} (h : Wf s) : Wf (performAtomLane o a s) := by
  have hread : Wf (countPoison (if atomBad o (macCheck a.key a.pas s) a then 1 else 0) (macCheck a.key a.pas s)) :=
    (h.reported (macCheck_reported _ _ _)).reported (countPoison_reported _ _)
  unfold performAtomLane
  dsimp only
  split <;> exact Wf.of_mem (Wf.ite (performWrites_wf hread) hread) rfl

theorem setOp_wf {o : Op} {s : State} (h : Wf s) : Wf (setOp o s) := h

theorem opDone_wf {serial : Nat} {s : State} (h : Wf s) : Wf (opDone serial s) := h.ops (opDone_spec _ _).1

theorem deliverAt_wf {pc : DWord} {f : FaultInfo} {s : State} (h : Wf s) : OutWf (deliverAt pc f s) := by
  unfold deliverAt
  refine deliver_wf ?_
  exact h

/-! ### Headers of queues and rings -/

theorem Header.put_wf {h : Header} {off n v : Nat} {s : State} (hs : Wf s) : Wf (h.put off n v s) :=
  hs.stored (writePlaces_stored _ _ _ _)

theorem postImage_wf {key : Nat} {h : Header} {image : List Byte} {s : State} (hs : Wf s) :
    OptWf (postImage key h image s) := by
  simp only [postImage, Option.map]
  split
  · exact (Header.put_wf hs).stored (writePlaces_stored _ _ _ _)
  · exact trivial

theorem ringCheck_wf {key : Nat} {a : DWord} {s : State} (h : Wf s) : Wf (ringCheck key a s) := by
  unfold ringCheck
  dsimp only
  split
  · exact (h.reported (headerCheck_reported _ _ _)).reported (moonCheck_reported _ _ _ _ _)
  · exact h.reported (headerCheck_reported _ _ _)

theorem queueHeaderCheck_wf {q : Queue} {s : State} (h : Wf s) : Wf (queueHeaderCheck q s) := by
  unfold queueHeaderCheck
  split
  · exact h.reported (headerCheck_reported _ _ _)
  · exact h

theorem queueCheck_wf {q : Queue} {s : State} (h : Wf s) : Wf (queueCheck q s) := by
  unfold queueCheck
  split
  · exact ringCheck_wf h
  · exact h

theorem makeReady_wf {n : NodeRef} {s : State} (h : Wf s) : Wf (makeReady n s) := by
  unfold makeReady
  dsimp only
  split
  · dsimp only [Wf]
    exact h.stored (writePlaces_stored _ _ _ _)
  · dsimp only [Wf]
    exact h.stored (writePlaces_stored _ _ _ _)

theorem decrement_wf {n : NodeRef} {k : Nat} {s : State} (h : Wf s) : Wf (decrement n k s) := by
  unfold decrement
  dsimp only
  split
  · exact makeReady_wf (h.stored (writePlaces_stored _ _ _ _))
  · exact h.stored (writePlaces_stored _ _ _ _)

end Machine

end Sys2Proof

/-! ## The canonical form of memory through the operations of strands -/

namespace Sys2Proof

namespace Machine

/-! ### The events that perform outstanding operations -/

theorem withOp_wf {r : StrandRef} {n : Nat} {s : State} {k : Op → State → Out} (h : Wf s)
    (hk : ∀ (a : Op) (a_1 : State), Wf a_1 → OutWf (k a a_1)) : OutWf (withOp r n s k) := by
  unfold withOp
  split
  · exact h
  · next he =>
      split
      · exact h
      · exact hk _ _ ((State.focus_wf h).of_eq he)

theorem opGoesOn_wf {o : Op} {s : State} (h : Wf s) : Wf (opGoesOn o s) := by
  unfold opGoesOn
  split
  · exact opDone_wf (h.ops (acquireDone_onlyOps _ _ _))
  · exact setOp_wf h

theorem performLoad_wf {o : Op} {src : ServeFrom} {l : List LaneAcc} {s : State} (h : Wf s) :
    OutWf (performLoad o src l s) := by
  unfold performLoad
  dsimp only
  split
  · exact deliverAt_wf (opDone_wf (foldl_wf (fun _ _ h1 => h1.reported (macCheck_reported _ _ _)) h))
  · refine opGoesOn_wf ?_
    refine Wf.reported ?_ (countPoison_reported _ _)
    dsimp only [Wf]
    exact foldl_wf (fun _ _ h1 => (h1.copies (l1Take_copies _ _ _ _)).copies (dupTake_copies _ _))
      (foldl_wf (fun _ _ h1 => h1.reported (macCheck_reported _ _ _)) h)

theorem performTagld_wf {o : Op} {l : List LaneAcc} {s : State} (h : Wf s) : OutWf (performTagld o l s) := by
  unfold performTagld
  refine opGoesOn_wf ?_
  exact h

theorem performAtoms_wf {o : Op} {l : List LaneAcc} {s : State} {k : State → Out} (h : Wf s)
    (hk : ∀ (a : State), Wf a → OutWf (k a)) : OutWf (performAtoms o l s k) := by
  unfold performAtoms
  dsimp only
  split
  · exact deliverAt_wf (opDone_wf (foldl_wf (fun _ _ h1 => h1.reported (macCheck_reported _ _ _)) h))
  · exact hk _
      (foldl_wf (fun _ _ h1 => performAtomLane_wf h1) (foldl_wf (fun _ _ h1 => h1.reported (macCheck_reported _ _ _)) h))

theorem performAtom_wf {o : Op} {l : List LaneAcc} {s : State} (h : Wf s) : OutWf (performAtom o l s) :=
  performAtoms_wf h (fun _ h1 => opGoesOn_wf h1)

theorem execLoadComplete_wf {r : StrandRef} {x : PartOf} {src : ServeFrom} {s : State} (h : Wf s) :
    OutWf (execLoadComplete r x src s) := by
  unfold execLoadComplete
  refine withOp_wf h ?_
  intro _ _ h1
  dsimp only
  split
  · exact h
  · split
    · exact performLoad_wf h1
    · split
      · exact performTagld_wf h1
      · split
        · exact performAtom_wf h1
        · exact h

theorem deferAtom_wf {o : Op} {a : LaneAcc} {s : State} (h : Wf s) : Wf (deferAtom o a s) := h

theorem acceptAtom_wf {o : Op} {u : Sys2Proof.Units} {l : List LaneAcc} {s : State} (h : Wf s) :
    OutWf (acceptAtom o u l s) := performAtom_wf (foldl_wf (fun _ _ h1 => deferAtom_wf h1) h)

theorem setTag_wf {a : LaneAcc} {s : State} (h : Wf s) : Wf (setTag a s) := h

theorem promoteResult_wf {o : Op} {s : State} (h : Wf s) : Wf (promoteResult o s) := by
  unfold promoteResult
  split <;> exact h

theorem tsigResult_wf {o : Op} {s : State} (h : Wf s) : Wf (tsigResult o s) := by
  unfold tsigResult
  split
  · exact l1Drop_wf (decrement_wf h)
  · exact h

theorem storesOn_wf {o : Op} {l : List LaneAcc} {s : State} (h : Wf s) : Wf (storesOn o l s) := by
  unfold storesOn
  dsimp only
  split
  · refine opDone_wf ?_
    split
    · exact promoteResult_wf h
    · exact h
  · exact setOp_wf h

theorem execStoreComplete_wf {r : StrandRef} {x : PartOf} {s : State} (h : Wf s) :
    OutWf (execStoreComplete r x s) := by
  unfold execStoreComplete
  refine withOp_wf h ?_
  intro _ _ h1
  dsimp only
  split
  · split
    · exact h
    · split
      · exact storesOn_wf (performStore_wf h1)
      · split
        · exact storesOn_wf (foldl_wf (fun _ _ h2 => setTag_wf h2) h1)
        · split
          · exact storesOn_wf (performStore_wf h1)
          · split
            · exact opDone_wf (tsigResult_wf h1)
            · split
              · exact acceptAtom_wf h1
              · exact h
  · split
    · exact h
    · split
      · exact storesOn_wf (performStore_wf h1)
      · split
        · exact storesOn_wf (foldl_wf (fun _ _ h2 => setTag_wf h2) h1)
        · split
          · exact storesOn_wf (performStore_wf h1)
          · split
            · exact opDone_wf (tsigResult_wf h1)
            · split
              · exact acceptAtom_wf h1
              · exact h

theorem execRdupCollapse_wf {r : StrandRef} {x : PartOf} {s : State} (h : Wf s) : OutWf (execRdupCollapse r x s) := by
  unfold execRdupCollapse
  refine withOp_wf h ?_
  intro _ _ h1
  dsimp only
  split
  · exact h
  · split
    · exact performAtoms_wf h1 (fun _ h2 => setOp_wf h2)
    · exact setOp_wf (performStore_wf h1)

theorem execQntMerge_wf {n : Nat} {s : State} (h : Wf s) : OutWf (execQntMerge n s) := by
  unfold execQntMerge
  split
  · exact h
  · exact h.kept (applyDeferred_keepsForm _ _)

theorem chipWrite_wf {sbm : Bool} {l : List (Nat × Byte)} {s : State} (h : Wf s) : Wf (chipWrite sbm l s) := by
  unfold chipWrite
  dsimp only
  split <;> exact h

theorem chipAtomLane_wf {o : Op} {a : LaneAcc} {s : State} (h : Wf s) : Wf (chipAtomLane o a s) := by
  unfold chipAtomLane
  dsimp only
  split
  · exact chipWrite_wf h
  · dsimp only [Wf]
    exact chipWrite_wf h

theorem chipLoad_wf {o : Op} {l : List LaneAcc} {s : State} (h : Wf s) : SndWf (chipLoad o l s) := h

theorem chipEffect_wf {o : Op} {l : List LaneAcc} {s : State} (h : Wf s) : SndWf (chipEffect o l s) := by
  unfold chipEffect
  dsimp only
  split
  · exact chipLoad_wf h
  · split
    · exact chipWrite_wf h
    · exact foldl_wf (fun _ _ h1 => chipAtomLane_wf h1) h

theorem execScratchpadAccessPerformed_wf {r : StrandRef} {x : PartOf} {s : State} (h : Wf s) :
    OutWf (execScratchpadAccessPerformed r x s) := by
  unfold execScratchpadAccessPerformed
  refine withOp_wf h fun o s' h1 => ?_
  have heffect := chipEffect_wf (o := o) (l := o.picked x.units) h1
  split
  · exact h
  · dsimp only
    split
    · exact deliverAt_wf (opDone_wf h1)
    · exact opGoesOn_wf heffect
    · split
      · exact Wf.reported heffect (countPoison_reported _ _) |> opGoesOn_wf
      · exact deliverAt_wf (opDone_wf h1)

theorem ldaRead_wf {o : Op} {l : List LaneAcc} {s : State} (h : Wf s) : SndWf (ldaRead o l s) :=
  (foldl_wf (fun _ _ h1 => h1.reported (macCheck_reported _ _ _)) h).reported (countPoison_reported _ _)

theorem ldaWrite_wf {o : Op} {i : Nat} {units : List (List Nat)} {s : State} (h : Wf s) :
    SndWf (ldaWrite o i units s) := by
  unfold ldaWrite
  dsimp only [SndWf, Wf]
  exact chipWrite_wf h

/-- The lanes of an LDA write the scratchpad alone. -/
theorem ldaWrites_wf {p : Nat × Nat → Bool} {o : Op} {s : State} (h : Wf s) : SndWf (ldaWrites p o s) := by
  rw [ldaWrites]
  have hfold : ∀ (l : List Nat) (x : Op × State), Wf x.2 → Wf (l.foldl (fun x i =>
      ldaWrite x.1 i ((ldaReady x.1 i).filter fun l => l.any fun k => p (i, x.1.target i + k)) x.2) x).2 := by
    intro l
    induction l with
    | nil => exact fun _ hx => hx
    | cons i l ih => exact fun x hx => ih _ (ldaWrite_wf hx)
  exact hfold _ (o, s) h

theorem ldaDone_wf {o : Op} {s : State} (h : Wf s) : Wf (ldaDone o s) := by
  unfold ldaDone
  refine opDone_wf ?_
  split <;> exact h

theorem execLdaComplete_wf {r : StrandRef} {x : PartOf} {s : State} (h : Wf s) : OutWf (execLdaComplete r x s) := by
  unfold execLdaComplete
  refine withOp_wf h ?_
  intro _ _ h1
  split
  · exact h
  · dsimp only
    split
    · split
      · exact ldaDone_wf (ldaWrites_wf (ldaRead_wf h1))
      · exact setOp_wf (ldaWrites_wf (ldaRead_wf h1))
    · split
      · exact ldaDone_wf (ldaRead_wf h1)
      · exact setOp_wf (ldaRead_wf h1)
    · split
      · exact ldaDone_wf (ldaWrites_wf h1)
      · exact setOp_wf (ldaWrites_wf h1)
    · split
      · exact ldaDone_wf h1
      · exact setOp_wf h1

/-! ### Special registers -/

theorem execSget_wf {f : AluSget} {s : State} (h : Wf s) : OutWf (execSget f s) := by
  unfold execSget
  dsimp only
  split
  · exact uniResult64_wf h
  · exact uniResult_wf h

theorem execSset_wf {f : AluX} {s : State} (h : Wf s) : OutWf (execSset f s) := by
  unfold execSset
  refine guarded_wf h ?_
  intro _ h1
  refine zeroResult_wf ?_
  exact h1

/-! ### Arenas -/

theorem mapReserve_wf {vmid : BitVec 16} {f : Reserve → Reserve} {s : State} (h : Wf s) :
    Wf (mapReserve vmid f s) := h

theorem returnSave_wf {key : Nat} {r : Range} {s : State} (h : Wf s) : Wf (returnSave key r s) := by
  unfold returnSave
  split
  · exact h
  · exact h.freed (setWorld_freed _)

theorem createArena_wf {id : SlotId} {cls cap key : Nat} {owner : Owner} {s : State} (h : Wf s) :
    Wf (createArena id cls cap key owner s) := h.freed (setSlotRec_freed _ _)

theorem execArenaDestruction_wf {id : SlotId} {s : State} (h : Wf s) : OutWf (execArenaDestruction id s) := by
  unfold execArenaDestruction
  dsimp only
  split
  · exact h
  · exact h.kept (finishSlot_keepsForm _ _)

/-! ### Control -/

theorem jump_wf {target : DWord} {s : State} (h : Wf s) : OutWf (jump target s) := h.of_mem (endClause_mem _ _ _)

theorem branchIf_wf {f : Form} {taken : Bool} {off : BitVec 16} {s : State} (h : Wf s) :
    OutWf (branchIf f taken off s) := by
  unfold branchIf
  split
  · exact jump_wf h
  · exact finish_wf h

theorem execCall_wf {c : BitVec 6} {off : BitVec 16} {s : State} (h : Wf s) : OutWf (execCall c off s) := by
  unfold execCall
  refine jump_wf ?_
  exact h

theorem execExit_wf {s : State} (h : Wf s) : OutWf (execExit s) := by
  unfold execExit
  split
  · exact h.of_mem (waitFor_mem _ _)
  · split
    · exact deliver_wf h
    · refine Wf.settled ?_ (afterStop_settled _)
      refine destroySlots_wf ?_
      exact h

theorem execYield_wf {s : State} (h : Wf s) : OutWf (execYield s) := by
  unfold execYield
  refine finish_wf ?_
  exact h

theorem execSleep_wf {a : Opnd} {s : State} (h : Wf s) : OutWf (execSleep a s) := by
  unfold execSleep
  refine guarded_wf h ?_
  intro _ h1
  split
  · exact finish_wf h1
  · exact h1.of_mem (waitFor_mem _ _)

theorem waitvRead_wf {f : Form} {b : Opnd} {part : PagePart} {s : State} (h : Wf s) :
    OutWf (waitvRead f b part s) := by
  unfold waitvRead
  dsimp only
  split
  · exact deliver_wf (readOver_wf (h.reported (macCheck_reported _ _ _)))
  · split
    · split
      · exact finish_wf
          ((l1Drop_wf ((readOver_wf (h.reported (macCheck_reported _ _ _))).reported (countPoison_reported _ _))).ops (acquireDone_onlyOps _ _ _))
      · refine Wf.of_mem ?_ (waitFor_mem _ _)
        dsimp only [Wf]
        exact l1Drop_wf ((readOver_wf (h.reported (macCheck_reported _ _ _))).reported (countPoison_reported _ _))
    · split
      · exact finish_wf
          ((l1Drop_wf ((readOver_wf (h.reported (macCheck_reported _ _ _))).reported (countPoison_reported _ _))).ops (acquireDone_onlyOps _ _ _))
      · refine Wf.of_mem ?_ (waitFor_mem _ _)
        dsimp only [Wf]
        exact l1Drop_wf ((readOver_wf (h.reported (macCheck_reported _ _ _))).reported (countPoison_reported _ _))

theorem execWaitv_wf {p : BitVec 6} {b : Opnd} {s : State} (h : Wf s) : OutWf (execWaitv p b s) := by
  unfold execWaitv
  refine guarded_wf h ?_
  intro _ h1
  dsimp only
  split
  · exact parkOrDeliver_wf h1
  · next he =>
      split
      · refine Wf.of_mem ?_ (waitFor_mem _ _)
        dsimp only [Wf]
        exact (checkLane_wf h1).of_eq he
      · split
        · refine waitvRead_wf ?_
          dsimp only [Wf]
          exact (checkLane_wf h1).of_eq he
        · refine finish_wf ?_
          dsimp only [Wf]
          exact (checkLane_wf h1).of_eq he

theorem execBkpt_wf {s : State} (h : Wf s) : OutWf (execBkpt s) := by
  unfold execBkpt
  refine finish_wf ?_
  exact h

theorem execAcquire_wf {s : State} (h : Wf s) : OutWf (execAcquire s) := by
  unfold execAcquire
  split
  · exact finish_wf h
  · refine Wf.of_mem ?_ (waitFor_mem _ _)
    exact h

theorem arrive_wf {f : Form} {w : Wait} {s : State} (h : Wf s) : OutWf (arrive f w s) := by
  unfold arrive
  split
  · exact finish_wf h
  · split
    · exact h.of_mem (waitFor_mem _ _)
    · exact (h.of_mem (waitFor_mem _ _)).settled (completeBarrier_settled _)

theorem barp_wf {op : BitVec 8} {d : BitVec 7} {a : Opnd} {s : State} (h : Wf s) : OutWf (barp op d a s) :=
  guarded_wf h (fun _ h1 => arrive_wf h1)

theorem execWaittag_wf {a b : Opnd} {s : State} (h : Wf s) : OutWf (execWaittag a b s) := by
  unfold execWaittag
  refine guarded_wf h ?_
  intro _ h1
  dsimp only
  split
  · exact finish_wf h1
  · split
    · exact h1.of_mem (waitFor_mem _ _)
    · split
      · exact deliver_wf h1
      · exact finish_wf h1

theorem execWaitp_wf {a : Opnd} {s : State} (h : Wf s) : OutWf (execWaitp a s) := by
  unfold execWaitp
  refine guarded_wf h ?_
  intro _ h1
  dsimp only
  split
  · exact h1.of_mem (waitFor_mem _ _)
  · split
    · exact finish_wf h1
    · split
      · refine Wf.of_mem ?_ (waitFor_mem _ _)
        exact h1
      · exact userTrap_wf h1

theorem execBbwait_wf {a : Opnd} {s : State} (h : Wf s) : OutWf (execBbwait a s) := by
  unfold execBbwait
  refine guarded_wf h ?_
  intro _ h1
  dsimp only
  split
  · exact deliver_wf h1
  · split
    · exact h1.of_mem (waitFor_mem _ _)
    · exact finish_wf h1

/-! ### Cross-lane instructions -/

theorem shuffle_wf {op : BitVec 8} {f : Alu2} {s : State} (h : Wf s) : OutWf (shuffle op f s) :=
  guarded_wf h (fun _ h1 => vecResult_wf h1)

theorem execVred_wf {f : AluX} {s : State} (h : Wf s) : OutWf (execVred f s) := by
  unfold execVred
  refine guarded_wf h ?_
  intro _ h1
  dsimp only
  split
  · exact uniResult64_wf h1
  · exact uniResult_wf h1

theorem scan_wf {op : BitVec 8} {k : Nat} {f : AluX} {s : State} (h : Wf s) : OutWf (scan op k f s) := by
  unfold scan
  refine guarded_wf h ?_
  intro _ h1
  split
  · exact vecResult64_wf h1
  · exact vecResult_wf h1

/-! ### Engine instructions -/

theorem engineAct_wf {f : Form} {s : State} {k : State → Out} (h : Wf s) (hk : ∀ (a : State), Wf a → OutWf (k a)) :
    OutWf (engineAct f s k) := by
  unfold engineAct
  refine guarded_wf h ?_
  intro _ h1
  split
  · exact deliver_wf h1
  · exact hk _ h1

theorem readApart_wf {α : Type} {units : List (List (Nat × α))} {before : List α → State → State}
    {get : State → α → Byte × Bool} {s : State} {k : List (Byte × Bool) → State → Out}
    (h : ∀ (a : List α) (a_1 : State), Wf a_1 → Wf (before a a_1)) (hk : Wf s)
    (hk2 : ∀ (a : List (Byte × Bool)) (a_1 : State), Wf a_1 → OutWf (k a a_1)) :
    OutWf (readApart units before get s k) := by
  unfold readApart
  dsimp only
  split
  · exact hk2 _ _ hk
  · dsimp only [OutWf, Wf]
    exact h _ _ hk

theorem consume_wf {f : FaultInfo} {l : List (Byte × Bool)} {s : State} {k : List Byte → State → Out} (h : Wf s)
    (hk : ∀ (a : List Byte) (a_1 : State), Wf a_1 → OutWf (k a a_1)) : OutWf (consume f l s k) := by
  unfold consume
  split
  · split
    · refine hk _ _ ?_
      refine Wf.reported ?_ (countPoison_reported _ _)
      exact h
    · exact deliver_wf h
  · exact hk _ _ h

theorem scratchRead_wf {a n : Nat} {s : State} {k : List Byte → State → Out} (h : Wf s)
    (hk : ∀ (a : List Byte) (a_1 : State), Wf a_1 → OutWf (k a a_1)) : OutWf (scratchRead a n s k) :=
  readApart_wf (fun _ _ h1 => h1) h (fun _ _ h1 => consume_wf h1 (fun _ _ h2 => hk _ _ h2))

theorem withImage_wf {a : Opnd} {s : State} {k : List Byte → State → Out} (h : Wf s)
    (hk : ∀ (a : List Byte) (a_1 : State), Wf a_1 → OutWf (k a a_1)) : OutWf (withImage a s k) := by
  unfold withImage
  dsimp only
  split
  · exact deliver_wf h
  · exact scratchRead_wf h (fun _ _ h1 => hk _ _ h1)

theorem cpostEnds_wf {f : Form} {d : Nat} {w : Word} {s : State} (h : Wf s) : OutWf (cpostEnds f d w s) := by
  unfold cpostEnds
  refine finish_wf ?_
  exact h

theorem cometHeaderCheck_wf {s : State} (h : Wf s) : Wf (cometHeaderCheck s) := by
  unfold cometHeaderCheck
  split
  · exact h.reported (headerCheck_reported _ _ _)
  · exact h

theorem owe_wf {d key queue index : Nat} {s : State} (h : Wf s) : Wf (owe d key queue index s) := h

theorem cpostAct_wf {f : Form} {nb : Bool} {d : BitVec 7} {a : Opnd} {s : State} (h : Wf s) :
    OutWf (cpostAct f nb d a s) := by
  unfold cpostAct
  refine engineAct_wf h ?_
  intro _ h1
  refine withImage_wf h1 ?_
  intro _ _ h2
  dsimp only
  split
  · exact cpostEnds_wf (cometHeaderCheck_wf h2)
  · split
    · split
      · exact cpostEnds_wf (cometHeaderCheck_wf h2)
      · exact (cometHeaderCheck_wf h2).of_mem (waitFor_mem _ _)
    · split
      · exact cpostEnds_wf (cometHeaderCheck_wf h2)
      · next he => exact finish_wf (owe_wf ((postImage_wf (cometHeaderCheck_wf h2)).of_eq he))

theorem barrierAct_wf {f : Form} {a : Opnd} {row : Nat → Block → Block} {s : State} (h : Wf s) :
    OutWf (barrierAct f a row s) := by
  unfold barrierAct
  refine engineAct_wf h ?_
  intro _ h1
  dsimp only
  split
  · exact deliver_wf h1
  · split
    · exact h1.of_mem (waitFor_mem _ _)
    · refine finish_wf ?_
      refine Wf.woken ?_ (pokeBlock_wakes _ _)
      exact h1

theorem promoteWrites_wf {f : Form} {t : Nat} {q : BitVec 5} {p : DWord} {bytes : List Byte} {s : State} (h : Wf s) :
    OutWf (promoteWrites f t q p bytes s) := by
  unfold promoteWrites
  split
  · exact deliver_wf h
  · dsimp only
    split
    · refine parkOrDeliver_wf ?_
      exact h
    · next he =>
        refine finish_wf ?_
        refine addOp_wf ?_
        dsimp only [Wf]
        refine CheckedAllWf.of_eq ?_ he
        refine checkParts_wf ?_
        exact h

theorem relaxedReads_wf {l : List (PagePart × Nat)} {s : State} (h : Wf s) : Wf (relaxedReads l s) :=
  l1Drop_wf (foldl_wf (fun _ _ h1 => h1.reported (macCheck_reported _ _ _)) h)

theorem promoteCopy_wf {f : Form} {t : Nat} {q : BitVec 5} {src : DWord} {n : Nat} {s : State} (h : Wf s) :
    OutWf (promoteCopy f t q src n s) := by
  unfold promoteCopy
  split
  · exact parkOrDeliver_wf h
  · next he =>
      dsimp only
      split
      · refine Wf.of_mem ?_ (waitFor_mem _ _)
        dsimp only [Wf]
        exact (checkParts_wf h).of_eq he
      · refine readApart_wf (fun _ _ h1 => relaxedReads_wf h1) ?_ ?_
        · dsimp only [Wf]
          exact (checkParts_wf h).of_eq he
        · intro _ _ h1
          refine consume_wf (readOver_wf h1) ?_
          intro _ _ h2
          split
          · exact deliver_wf h2
          · next he1 => exact promoteWrites_wf ((allocate_wf h2).of_eq he1)

theorem promoteBare_wf {f : Form} {q : BitVec 5} {p : DWord} {s : State} (h : Wf s) :
    OutWf (promoteBare f q p s) := finish_wf (addOp_wf h)

theorem execPromote_wf {t : BitVec 2} {q : BitVec 5} {a : BitVec 6} {b : Opnd} {s : State} (h : Wf s) :
    OutWf (execPromote t q a b s) := by
  unfold execPromote
  refine engineAct_wf h ?_
  intro _ h1
  split
  · exact promoteWrites_wf h1
  · dsimp only
    split
    · exact deliver_wf h1
    · split
      · exact deliver_wf h1
      · split
        · exact promoteBare_wf h1
        · exact promoteCopy_wf h1

theorem execPromoteA_wf {t : BitVec 2} {q : BitVec 5} {b : Opnd} {s : State} (h : Wf s) :
    OutWf (execPromoteA t q b s) := by
  unfold execPromoteA
  refine engineAct_wf h ?_
  intro _ h1
  split
  · exact deliver_wf h1
  · next he => exact promoteBare_wf ((allocate_wf h1).of_eq he)

theorem arenaTouch_wf {f : Form} {d : BitVec 7} {p : DWord} {s : State} (h : Wf s) : OutWf (arenaTouch f d p s) := by
  unfold arenaTouch
  split
  · refine finish_wf ?_
    exact h
  · dsimp only
    split
    · exact parkOrDeliver_wf h
    · next he =>
        refine finish_wf ?_
        dsimp only [Wf]
        exact (checkArena_wf h).of_eq he

theorem execArena_wf {d : BitVec 7} {a : Opnd} {x : BitVec 8} {s : State} (h : Wf s) : OutWf (execArena d a x s) := by
  unfold execArena
  refine engineAct_wf h ?_
  intro _ h1
  dsimp only
  split
  · exact arenaTouch_wf h1
  · refine finish_wf ?_
    exact h1

theorem strandRead_wf {base : Nat} {p : DWord} {n size : Nat} {s : State} {k : List Byte → State → Out} (h : Wf s)
    (hk : ∀ (a : List Byte) (a_1 : State), Wf a_1 → OutWf (k a a_1)) : OutWf (strandRead base p n size s k) := by
  unfold strandRead
  split
  · exact parkOrDeliver_wf h
  · next he =>
      refine readApart_wf (fun _ _ h1 => foldl_wf (fun _ _ h2 => h2.reported (macCheck_reported _ _ _)) h1) ?_
        (fun _ _ h1 => consume_wf (l1Drop_wf (readOver_wf h1)) (fun _ _ h2 => hk _ _ h2))
      dsimp only [Wf]
      exact (checkParts_wf h).of_eq he

theorem launchEnds_wf {f : Form} {d : BitVec 7} {w : Word} {s : State} (h : Wf s) : OutWf (launchEnds f d w s) := by
  unfold launchEnds
  refine finish_wf ?_
  exact h

theorem launchTo_wf {f : Form} {d : BitVec 7} {image : List Byte} {queue : Nat} {child : Option Nat} {s : State}
    (h : Wf s) : OutWf (launchTo f d image queue child s) := by
  unfold launchTo
  split
  · exact launchEnds_wf h
  · split
    · exact launchEnds_wf h
    · dsimp only
      split
      · exact launchEnds_wf (queueHeaderCheck_wf h)
      · split
        · exact (queueHeaderCheck_wf h).of_mem (waitFor_mem _ _)
        · split
          · exact launchEnds_wf (queueHeaderCheck_wf h)
          · next he =>
              refine launchEnds_wf ?_
              split
              · dsimp only [Wf]
                exact (postImage_wf (queueHeaderCheck_wf h)).of_eq he
              · exact (postImage_wf (queueHeaderCheck_wf h)).of_eq he

theorem launchPost_wf {f : Form} {d : BitVec 7} {image : List Byte} {rec : BitVec 512} {s : State} (h : Wf s) :
    OutWf (launchPost f d image rec s) := by
  unfold launchPost
  split
  · exact launchEnds_wf h
  · split
    · exact launchEnds_wf h
    · split
      · exact launchEnds_wf h
      · split
        · exact launchEnds_wf h
        · split
          · exact launchEnds_wf h
          · exact launchTo_wf h

theorem launchGrid_wf {f : Form} {d : BitVec 7} {at_ : Nat} {image : List Byte} {rec : BitVec 512} {s : State}
    (h : Wf s) : OutWf (launchGrid f d at_ image rec s) := by
  unfold launchGrid
  dsimp only
  split
  · split
    · exact deliver_wf h
    · exact launchPost_wf h
  · refine strandRead_wf h ?_
    intro _ _ h1
    split
    · exact deliver_wf h1
    · exact launchPost_wf h1

theorem launchNode_wf {f : Form} {d : BitVec 7} {at_ : Nat} {image : List Byte} {node : BitVec 512} {s : State}
    (h : Wf s) : OutWf (launchNode f d at_ image node s) := by
  unfold launchNode
  split
  · exact launchEnds_wf h
  · refine strandRead_wf h ?_
    intro _ _ h1
    dsimp only
    split
    · exact launchEnds_wf h1
    · split
      · exact launchGrid_wf h1
      · exact launchTo_wf h1

theorem launchRecord_wf {f : Form} {d : BitVec 7} {at_ : Nat} {image : List Byte} {rec : BitVec 512} {s : State}
    (h : Wf s) : OutWf (launchRecord f d at_ image rec s) := by
  unfold launchRecord
  dsimp only
  split
  · exact launchGrid_wf h
  · split
    · exact launchNode_wf h
    · split
      · exact launchTo_wf h
      · split
        · exact launchTo_wf h
        · exact launchEnds_wf h

theorem execLaunch_wf {d : BitVec 7} {a : Opnd} {s : State} (h : Wf s) : OutWf (execLaunch d a s) := by
  unfold execLaunch
  refine engineAct_wf h ?_
  intro _ h1
  dsimp only
  split
  · exact deliver_wf h1
  · split
    · exact h1.of_mem (waitFor_mem _ _)
    · exact scratchRead_wf h1 (fun _ _ h2 => launchRecord_wf h2)

theorem execTsig_wf {p : BitVec 6} {b : Opnd} {s : State} (h : Wf s) : OutWf (execTsig p b s) := by
  unfold execTsig
  refine engineAct_wf h ?_
  intro _ h1
  dsimp only
  split
  · exact deliver_wf h1
  · split
    · split
      · exact parkOrDeliver_wf h1
      · exact deliver_wf h1
    · next he =>
        split
        · refine finish_wf ?_
          dsimp only [Wf]
          exact (checkLane_wf h1).of_eq he
        · split
          · refine Wf.of_mem ?_ (waitFor_mem _ _)
            dsimp only [Wf]
            exact (checkLane_wf h1).of_eq he
          · refine finish_wf ?_
            refine addOp_wf ?_
            dsimp only [Wf]
            exact (checkLane_wf h1).of_eq he

/-! ### Links and notices -/

theorem mapPort_wf {b : Bool} {f : Port → Port} {s : State} (h : Wf s) : Wf (mapPort b f s) := by
  unfold mapPort
  split <;> exact h

theorem notifyQueue_wf {q : Queue} {s : State} (h : Wf s) : Wf (notifyQueue q s) := by
  unfold notifyQueue
  dsimp only
  split
  · dsimp only [Wf]
    exact mapPort_wf (h.stored (writePlaces_stored _ _ _ _))
  · exact h

theorem flushNotify_wf {s : State} (h : Wf s) : Wf (flushNotify s) := by
  unfold flushNotify
  split
  · exact foldl_wf (fun _ _ h1 => notifyQueue_wf h1) h
  · exact h

/-! ### Programs for anonymous worlds -/

theorem rekeyOutstanding_wf {f : Nat → Nat → Nat} {s : State} (h : Wf s) : Wf (rekeyOutstanding f s) := by
  unfold rekeyOutstanding
  dsimp only [Wf]
  exact h.of_mem (State.mapStrands_mem _ _)

theorem rekeyLeaf_wf {a b : Nat} {s : State} {at_ : Nat} (h : Wf s) : Wf (rekeyLeaf a b s at_) := by
  unfold rekeyLeaf
  dsimp only
  split
  · exact h.stored (writePlaces_stored _ _ _ _)
  · exact h

theorem keyProgram_wf {p : AnonProgram} {b : Nat} {s : State} (h : Wf s) : Wf (keyProgram p b s) := by
  unfold keyProgram
  dsimp only [Wf]
  exact foldl_wf (fun _ _ h1 => rekeyLeaf_wf h1) (rekeyOutstanding_wf h)

theorem joinProgram_wf {entry : DWord} {key : Nat} {s : State} (h : Wf s) : Wf (joinProgram entry key s) := by
  unfold joinProgram
  split
  · exact h
  · dsimp only
    split
    · refine keyProgram_wf ?_
      exact h
    · exact h

theorem leavePrograms_wf {key : Nat} {s : State} (h : Wf s) : Wf (leavePrograms key s) := by
  unfold leavePrograms
  refine foldl_wf (fun _ _ h1 => keyProgram_wf h1) ?_
  exact h

/-! ### Matrix instructions -/

theorem addMOp_wf {what : MWhat} {ends : DWord} {s : State} (h : Wf s) : Wf (addMOp what ends s) := h

theorem execOclaim_wf {o : BitVec 6} {a : Opnd} {s : State} (h : Wf s) : OutWf (execOclaim o a s) := by
  unfold execOclaim
  refine guarded_wf h ?_
  intro _ h1
  dsimp only
  split
  · exact deliver_wf h1
  · split
    · exact finish_wf h1
    · split
      · exact deliver_wf h1
      · split
        · exact deliver_wf h1
        · split
          · exact h1.of_mem (waitFor_mem _ _)
          · refine finish_wf ?_
            exact h1

theorem releaseSlot_wf {n : Nat} {s : State} (h : Wf s) : Wf (releaseSlot n s) := by
  unfold releaseSlot
  refine addMOp_wf ?_
  exact h

theorem execOrel_wf {o : BitVec 6} {a : Opnd} {s : State} (h : Wf s) : OutWf (execOrel o a s) := by
  unfold execOrel
  refine guarded_wf h ?_
  intro _ h1
  dsimp only
  split
  · exact deliver_wf h1
  · split
    · exact finish_wf h1
    · split
      · exact deliver_wf h1
      · split
        · exact deliver_wf h1
        · exact finish_wf (foldl_wf (fun _ _ h2 => releaseSlot_wf h2) h1)

theorem execOlda_wf {o : BitVec 6} {a : Opnd} {x : BitVec 8} {s : State} (h : Wf s) : OutWf (execOlda o a x s) := by
  unfold execOlda
  refine guarded_wf h ?_
  intro _ h1
  dsimp only
  split
  · exact deliver_wf h1
  · split
    · exact deliver_wf h1
    · refine finish_wf ?_
      refine addMOp_wf ?_
      exact h1

theorem loadFails_wf {seq slot : Nat} {s : State} (h : Wf s) : Wf (loadFails seq slot s) := by
  unfold loadFails
  refine Wf.woken ?_ (pokeBlock_wakes _ _)
  exact h

theorem oldwFault_wf {m : MOp} {slot : Nat} {x : FaultInfo} {s : State} (h : Wf s) :
    OutWf (oldwFault m slot x s) := deliver_wf (loadFails_wf h)

theorem oldwChecks_wf {f : Form} {m : MOp} {slot : Nat} {x : BitVec 8} {p : DWord} {s : State} (h : Wf s) :
    OutWf (oldwChecks f m slot x p s) := by
  unfold oldwChecks
  split
  · split
    · refine Wf.of_mem ?_ (park_mem _ _ _)
      exact h
    · exact oldwFault_wf h
  · next he =>
      dsimp only
      split
      · refine oldwFault_wf ?_
        dsimp only [Wf]
        exact (checkRuns_wf h).of_eq he
      · split
        · refine Wf.of_mem ?_ (waitFor_mem _ _)
          dsimp only [Wf]
          exact (checkRuns_wf h).of_eq he
        · refine finish_wf ?_
          dsimp only [Wf]
          exact (checkRuns_wf h).of_eq he

theorem execOldw_wf {o p : BitVec 6} {x : BitVec 8} {s : State} (h : Wf s) : OutWf (execOldw o p x s) := by
  unfold execOldw
  refine guarded_wf h ?_
  intro _ h1
  dsimp only
  split
  · split
    · exact oldwFault_wf h1
    · exact oldwChecks_wf h1
  · split
    · exact deliver_wf h1
    · split
      · refine oldwChecks_wf ?_
        refine addMOp_wf ?_
        exact h1
      · refine finish_wf ?_
        refine addMOp_wf ?_
        exact h1

theorem execMma_wf {f : MmaF} {s : State} (h : Wf s) : OutWf (execMma f s) := by
  unfold execMma
  dsimp only
  split
  · exact deliver_wf h
  · split
    · exact deliver_wf h
    · split
      · exact deliver_wf h
      · split
        · exact deliver_wf h
        · split
          · exact deliver_wf h
          · split
            · exact deliver_wf h
            · exact finish_wf (addMOp_wf h)

theorem execAclr_wf {t : BitVec 4} {s : State} (h : Wf s) : OutWf (execAclr t s) := by
  unfold execAclr
  split
  · exact deliver_wf h
  · refine finish_wf ?_
    exact h

theorem execAdrn_wf {t : BitVec 4} {a : Opnd} {s : State} (h : Wf s) : OutWf (execAdrn t a s) := by
  unfold execAdrn
  refine guarded_wf h ?_
  intro _ h1
  dsimp only
  split
  · exact deliver_wf h1
  · split
    · exact deliver_wf h1
    · refine finish_wf ?_
      dsimp only [Wf]
      exact addMOp_wf h1

theorem execMtok_wf {a : Opnd} {s : State} (h : Wf s) : OutWf (execMtok a s) := by
  unfold execMtok
  refine guarded_wf h ?_
  intro _ h1
  dsimp only
  split
  · exact deliver_wf h1
  · split
    · exact finish_wf h1
    · refine finish_wf ?_
      refine Wf.woken ?_ (pokeBlock_wakes _ _)
      refine Wf.settled ?_ (passToken_settled _)
      exact h1

theorem execMwaitTok_wf {s : State} (h : Wf s) : OutWf (execMwaitTok s) := by
  unfold execMwaitTok
  split
  · exact deliver_wf h
  · split
    · exact finish_wf h
    · exact h.of_mem (waitFor_mem _ _)

theorem execMwaitAll_wf {s : State} (h : Wf s) : OutWf (execMwaitAll s) := by
  unfold execMwaitAll
  dsimp only
  split
  · refine Wf.of_mem ?_ (waitFor_mem _ _)
    exact h
  · exact finish_wf h

end Machine

end Sys2Proof

/-! ## The canonical form of memory through blocks, grids and queues -/

namespace Sys2Proof

namespace Machine

/-! ### Clause issue -/

theorem fetch_wf {s : State} {old : Bool} {n : Nat} {k : List Byte → State → Out} (h : Wf s)
    (hk : ∀ (a : List Byte) (a_1 : State), Wf a_1 → OutWf (k a a_1)) : OutWf (fetch s old n k) := by
  unfold fetch
  split
  · exact parkOrDeliver_wf h
  · next he =>
      dsimp only
      split
      · split
        · refine hk _ _ ?_
          refine Wf.reported ?_ (countPoison_reported _ _)
          refine readOver_wf ?_
          refine foldl_wf (fun _ _ h1 => h1.reported (macCheck_reported _ _ _)) ?_
          dsimp only [Wf]
          exact (checkAccess_wf h).of_eq he
        · refine deliver_wf ?_
          refine readOver_wf ?_
          refine foldl_wf (fun _ _ h1 => h1.reported (macCheck_reported _ _ _)) ?_
          dsimp only [Wf]
          exact (checkAccess_wf h).of_eq he
      · refine hk _ _ ?_
        refine readOver_wf ?_
        refine foldl_wf (fun _ _ h1 => h1.reported (macCheck_reported _ _ _)) ?_
        dsimp only [Wf]
        exact (checkAccess_wf h).of_eq he

theorem openClause_wf {h : Word} {words : List Word} {s : State} (hs : Wf s) : OutWf (openClause h words s) := by
  unfold openClause
  split
  · exact hs
  · dsimp only
    split
    · exact deliverAt_wf hs
    · split <;> exact hs

theorem yieldTo_wf {s : State} (h : Wf s) : Wf (yieldTo s) := by
  unfold yieldTo
  split <;> exact h

theorem execClauseIssue_wf {r : StrandRef} {old : Bool} {s : State} (h : Wf s) : OutWf (execClauseIssue r old s) := by
  unfold execClauseIssue
  split
  · exact h
  · next he =>
      split
      · exact (State.focus_wf h).of_eq he
      · split
        · split
          · exact yieldTo_wf ((State.focus_wf h).of_eq he)
          · exact h
        · split
          · exact deliver_wf ((State.focus_wf h).of_eq he)
          · refine fetch_wf ((State.focus_wf h).of_eq he) ?_
            intro _ _ h1
            dsimp only
            split
            · exact deliver_wf h1
            · exact fetch_wf ((State.focus_wf h).of_eq he) (fun _ _ h2 => openClause_wf h2)

/-! ### The events of the twin -/

theorem withBlock_wf {b : BlockRef} {s : State} {k : State → Out} (h : Wf s) (hk : ∀ (a : State), Wf a → OutWf (k a)) :
    OutWf (withBlock b s k) := by
  unfold withBlock
  split
  · exact h
  · next he =>
      split
      · exact hk _ ((State.focusBlock_wf h).of_eq he)
      · exact h

theorem dropMOp_wf {m : MOp} {s : State} (h : Wf s) : Wf (dropMOp m s) := by
  unfold dropMOp
  refine Wf.woken ?_ (pokeBlock_wakes _ _)
  exact h

theorem mopFault_wf {m : MOp} {x : FaultInfo} {s : State} (h : Wf s) : OutWf (mopFault m x s) := by
  unfold mopFault
  split
  · exact h
  · next he => exact deliverAt_wf ((State.focus_wf h).of_eq he)

theorem execMmaStart_wf {r : BlockRef} {s : State} (h : Wf s) : OutWf (execMmaStart r s) := by
  unfold execMmaStart
  refine withBlock_wf h ?_
  intro _ h1
  split
  · exact h
  · split
    · split
      · exact h
      · exact h1
    · exact h

theorem execMmaRetire_wf {r : BlockRef} {s : State} (h : Wf s) : OutWf (execMmaRetire r s) := by
  unfold execMmaRetire
  refine withBlock_wf h ?_
  intro _ h1
  split
  · exact h
  · split
    · exact h
    · split
      · split
        · exact dropMOp_wf h1
        · dsimp only
          split
          · exact mopFault_wf (dropMOp_wf h1)
          · refine dropMOp_wf ?_
            refine Wf.reported ?_ (countPoison_reported _ _)
            exact h1
      · exact h

theorem execOldaComplete_wf {r : BlockRef} {x : PartOf} {s : State} (h : Wf s) : OutWf (execOldaComplete r x s) := by
  unfold execOldaComplete
  refine withBlock_wf h ?_
  intro _ h1
  split
  · exact h
  · split
    · split
      · exact h
      · dsimp only
        split
        · exact h1
        · refine dropMOp_wf ?_
          exact h1
    · exact h

theorem oldwEnds_wf {m : MOp} {slot : Nat} {form : BitVec 8} {va : DWord} {l : List (Byte × Bool)} {s : State}
    (h : Wf s) : OutWf (oldwEnds m slot form va l s) := by
  unfold oldwEnds
  dsimp only
  split
  · exact mopFault_wf (loadFails_wf h)
  · refine dropMOp_wf ?_
    split
    · exact h
    · refine Wf.reported ?_ (recordFor_reported _ _ _ _ _)
      exact h

theorem execOldwComplete_wf {r : BlockRef} {x : PartOf} {s : State} (h : Wf s) : OutWf (execOldwComplete r x s) := by
  unfold execOldwComplete
  refine withBlock_wf h ?_
  intro _ h1
  split
  · exact h
  · split
    · split
      · exact h
      · dsimp only
        split
        · dsimp only [OutWf, Wf]
          exact foldl_wf (fun _ _ h2 => h2.reported (macCheck_reported _ _ _)) h1
        · exact oldwEnds_wf (foldl_wf (fun _ _ h2 => h2.reported (macCheck_reported _ _ _)) h1)
    · exact h

/-- An element that is drained goes to the scratchpad. -/
theorem execAdrnComplete_wf {r : BlockRef} {x : PartOf} {s : State} (h : Wf s) : OutWf (execAdrnComplete r x s) := by
  unfold execAdrnComplete
  refine withBlock_wf h fun s' h1 => ?_
  split
  · exact h
  · split
    · generalize List.range 4096 = elements
      dsimp only
      split
      · exact mopFault_wf (dropMOp_wf h1)
      · have hstored : ∀ n l, Wf (countPoison n (chipWrite false l s')) := fun _ _ =>
          (chipWrite_wf h1).reported (countPoison_reported _ _)
        split <;> split
        · exact dropMOp_wf (hstored _ _)
        · exact hstored _ _
        · exact dropMOp_wf (hstored _ _)
        · exact hstored _ _
    · exact h

theorem execOrelComplete_wf {r : BlockRef} {n : Nat} {s : State} (h : Wf s) : OutWf (execOrelComplete r n s) := by
  unfold execOrelComplete
  refine withBlock_wf h ?_
  intro _ h1
  split
  · exact h
  · split
    · split
      · exact h
      · refine dropMOp_wf ?_
        exact h1
    · exact h

/-! ### Work queues -/

theorem mapQueue_wf {q : Nat} {f : Queue → Queue} {s : State} (h : Wf s) : Wf (mapQueue q f s) := h

theorem Head.consume_wf {x : Head} {s : State} (h : Wf s) : Wf (x.consume s) := Header.put_wf h

theorem Head.refuse_wf {x : Head} {detail : Nat} {s : State} (h : Wf s) : Wf (x.refuse detail s) := by
  unfold Head.refuse
  refine mapQueue_wf ?_
  dsimp only [Wf]
  exact Header.put_wf (Header.put_wf (Head.consume_wf h))

theorem recordRetired_wf {q order : Nat} {s : State} (h : Wf s) : Wf (recordRetired q order s) := mapQueue_wf h

theorem withHead_wf {q : Nat} {kind : Nat → Bool} {s0 : State} {k : Head → State → State} (h : Wf s0)
    (hk : ∀ (a : Head) (a_1 : State), Wf a_1 → Wf (k a a_1)) : OutWf (withHead q kind s0 k) := by
  unfold withHead
  dsimp only
  split
  · split
    · exact queueCheck_wf h
    · exact h
  · split
    · split
      · exact queueCheck_wf h
      · exact h
    · split
      · refine Head.refuse_wf ?_
        split
        · exact queueCheck_wf h
        · exact h
      · refine hk _ _ ?_
        split
        · exact queueCheck_wf h
        · exact h

theorem newGrid_wf {q order key : Nat} {parent : Option Nat} {node : Option NodeRef} {debugged : Bool}
    {rec : BitVec 512} {s : State} (h : Wf s) : Wf (newGrid q order key parent node debugged rec s) := by
  unfold newGrid
  dsimp only
  split
  · split
    · refine Wf.of_mem ?_ (markEnded_mem _ _ _)
      refine Wf.reported ?_ (recordFor_reported _ _ _ _ _)
      exact h
    · exact h
  · exact h

theorem execGridRecord_wf {q : Nat} {s : State} (h : Wf s) : OutWf (execGridRecord q s) := by
  unfold execGridRecord
  refine withHead_wf h ?_
  intro _ _ h1
  split
  · exact Head.refuse_wf h1
  · split
    · exact Head.refuse_wf h1
    · split
      · exact Head.refuse_wf h1
      · refine newGrid_wf ?_
        refine Wf.of_mem ?_ (take_mem _ _ _)
        refine Head.consume_wf ?_
        exact h1

theorem postNode_wf {n : NodeRef} {t : Tcb} {s : State} (h : Wf s) : Wf (postNode n t s) := by
  unfold postNode
  dsimp only
  split
  · exact makeReady_wf (h.stored (writePlaces_stored _ _ _ _))
  · exact h.stored (writePlaces_stored _ _ _ _)

theorem execNodeRecord_wf {q : Nat} {s : State} (h : Wf s) : OutWf (execNodeRecord q s) := by
  unfold execNodeRecord
  refine withHead_wf h ?_
  intro _ _ h1
  split
  · exact Head.refuse_wf h1
  · dsimp only
    split
    · exact Head.refuse_wf (h1.reported (moonCheck_reported _ _ _ _ _))
    · split
      · exact Head.refuse_wf (h1.reported (moonCheck_reported _ _ _ _ _))
      · split
        · exact Head.refuse_wf (h1.reported (moonCheck_reported _ _ _ _ _))
        · split
          · exact Head.refuse_wf (h1.reported (moonCheck_reported _ _ _ _ _))
          · refine recordRetired_wf ?_
            refine postNode_wf ?_
            refine Wf.of_mem ?_ (take_mem _ _ _)
            refine Head.consume_wf ?_
            dsimp only [Wf]
            exact h1.reported (moonCheck_reported _ _ _ _ _)

theorem succeed_wf {n : NodeRef} {g : Option Nat} {a : DWord} {s : State} (h : Wf s) : Wf (succeed n g a s) := by
  unfold succeed
  dsimp only
  split
  · split
    · exact (h.reported (moonCheck_reported _ _ _ _ _)).reported (recordFor_reported _ _ _ _ _)
    · exact (h.reported (moonCheck_reported _ _ _ _ _)).reported (recordForWorld_reported _ _ _)
  · split
    · split
      · exact (h.reported (moonCheck_reported _ _ _ _ _)).reported (recordFor_reported _ _ _ _ _)
      · exact (h.reported (moonCheck_reported _ _ _ _ _)).reported (recordForWorld_reported _ _ _)
    · exact decrement_wf (h.reported (moonCheck_reported _ _ _ _ _))

theorem nodeCheck_wf {n : NodeRef} {s : State} (h : Wf s) : Wf (nodeCheck n s) := by
  unfold nodeCheck
  dsimp only
  split
  · exact h.reported (moonCheck_reported _ _ _ _ _)
  · exact foldl_wf (fun _ _ h1 => h1.reported (moonCheck_reported _ _ _ _ _))
      (h.reported (moonCheck_reported _ _ _ _ _))

theorem releaseWork_wf {n : NodeRef} {g : Option Nat} {s : State} (h : Wf s) : Wf (releaseWork n g s) :=
  h.kept (applyDeferred_keepsForm _ _)

theorem retireNode_wf {n : NodeRef} {ended : Bool} {g : Option Nat} {s : State} (h : Wf s) :
    Wf (retireNode n ended g s) := by
  unfold retireNode
  refine foldl_wf (fun _ _ h1 => succeed_wf h1) ?_
  dsimp only [Wf]
  exact (nodeCheck_wf (releaseWork_wf h)).stored (writePlaces_stored _ _ _ _)

theorem hand_wf {key : Nat} {q : Queue} {image : BitVec 512} {host : Bool} {poster : Poster} {s : State} (h : Wf s) :
    Wf (hand key q image host poster s) := h

theorem handRecord_wf {q : Nat} {kind : Nat → Bool} {s : State} (h : Wf s) : OutWf (handRecord q kind s) := by
  unfold handRecord
  refine withHead_wf h ?_
  intro _ _ h1
  split
  · exact Head.refuse_wf h1
  · split
    · exact h1
    · exact hand_wf ((Head.consume_wf h1).of_mem (take_mem _ _ _))

theorem execWaitvalRecord_wf {q : Nat} {s : State} (h : Wf s) : OutWf (execWaitvalRecord q s) := by
  unfold execWaitvalRecord
  refine withHead_wf h ?_
  intro _ _ h1
  split
  · exact Head.refuse_wf h1
  · split
    · exact Head.refuse_wf h1
    · split
      · exact Head.refuse_wf h1
      · split
        · exact h1
        · dsimp only [Wf]
          exact (Head.consume_wf h1).of_mem (take_mem _ _ _)

theorem watchWord_wf {s : State} {x : Watch} (h : Wf s) : WatchedWf (watchWord s x) := by
  unfold watchWord
  split
  · exact h
  · split
    · exact h
    · next he =>
        dsimp only
        split <;> exact readOver_wf
          (foldl_wf (fun _ _ h1 => h1.reported (macCheck_reported _ _ _)) (((checkAccess_wf h).of_eq he).freed (setWorld_freed _)))

theorem setWatch_wf {x : Watch} {s : State} (h : Wf s) : Wf (setWatch x s) := h

theorem watchRecord_wf {x : Watch} {f : FaultInfo} {s : State} (h : Wf s) : Wf (watchRecord x f s) :=
  h.reported (recordForWorld_reported _ _ _)

theorem watchFault_wf {x : Watch} {f : FaultInfo} {s : State} (h : Wf s) : Wf (watchFault x f s) := by
  unfold watchFault
  split
  · exact h
  · dsimp only
    split
    · exact (setWatch_wf h).reported (reportStage2_reported _ _ _)
    · exact watchRecord_wf (setWatch_wf h)

theorem execWaitvalSatisfied_wf {q : Nat} {s : State} (h : Wf s) : OutWf (execWaitvalSatisfied q s) := by
  unfold execWaitvalSatisfied
  split
  · exact h
  · split
    · next he =>
        split
        · exact trivial
        · exact watchFault_wf ((watchWord_wf h).of_bad he)
    · next he1 =>
        dsimp only
        split
        · refine recordRetired_wf ?_
          dsimp only [Wf]
          exact (watchWord_wf h).of_word he1
        · exact (watchWord_wf h).of_word he1

theorem refillPool_wf {s : State} (h : Wf s) : Wf (refillPool s) := by
  unfold refillPool
  split
  · split <;> exact h
  · exact h

theorem startNode_wf {n : NodeRef} {s0 : State} (h : Wf s0) : Wf (startNode n s0) := by
  unfold startNode
  dsimp only
  split
  · refine retireNode_wf ?_
    refine Wf.stored ?_ (writePlaces_stored _ _ _ _)
    dsimp only [Wf]
    exact h.reported (moonCheck_reported _ _ _ _ _)
  · split
    · refine newGrid_wf ?_
      refine Wf.stored ?_ (writePlaces_stored _ _ _ _)
      dsimp only [Wf]
      exact h.reported (moonCheck_reported _ _ _ _ _)
    · split
      · split
        · refine retireNode_wf ?_
          refine Wf.stored ?_ (writePlaces_stored _ _ _ _)
          dsimp only [Wf]
          exact h.reported (moonCheck_reported _ _ _ _ _)
        · refine hand_wf ?_
          refine Wf.stored ?_ (writePlaces_stored _ _ _ _)
          dsimp only [Wf]
          exact h.reported (moonCheck_reported _ _ _ _ _)
      · refine retireNode_wf ?_
        refine Wf.stored ?_ (writePlaces_stored _ _ _ _)
        dsimp only [Wf]
        exact h.reported (moonCheck_reported _ _ _ _ _)

theorem execReadyPoolEntry_wf {s : State} (h : Wf s) : OutWf (execReadyPoolEntry s) := by
  unfold execReadyPoolEntry
  split
  · exact h
  · refine startNode_wf ?_
    refine refillPool_wf ?_
    exact h

/-! ### Room and turns -/

theorem visit_wf {q : Queue} {s : State} (h : Wf s) : Wf (visit q s) := h

theorem endPass_wf {band : BitVec 2} {s : State} (h : Wf s) : Wf (endPass band s) := by
  unfold endPass
  split <;> exact h

theorem clearDeficits_wf {s : State} (h : Wf s) : Wf (clearDeficits s) := h

/-! ### Flushes and pre-emption -/

theorem removeBlock_wf {g b : Nat} {s : State} (h : Wf s) : Wf (removeBlock g b s) := by
  unfold removeBlock
  dsimp only [Wf]
  exact h.focused (dropBlock_only _)

/-! ### Dispatch -/

theorem startWorld_wf {g : Grid} {q : Queue} {s : State} (h : Wf s) : Wf (startWorld g q s) := by
  unfold startWorld
  split
  · exact h
  · split
    · split
      · dsimp only [Wf]
        exact h.freed (setWorld_freed _)
      · exact h
    · split
      · exact h
      · dsimp only [Wf]
        exact joinProgram_wf (State.setGrid_wf h)

theorem mapGrid_wf {id : Nat} {f : Grid → Grid} {s : State} (h : Wf s) : Wf (mapGrid id f s) :=
  h.of_mem (State.mapGrids_mem _ _)

theorem startGrid_wf {g : Grid} {q : Queue} {s : State} (h : Wf s) : Wf (startGrid g q s) := by
  unfold startGrid
  split
  · exact h
  · exact mapGrid_wf (startWorld_wf h)

theorem tellQuarantine_wf {g : Grid} {unit : Nat × Nat} {s : State} (h : Wf s) : Wf (tellQuarantine g unit s) := by
  unfold tellQuarantine
  split
  · exact h
  · exact (mapGrid_wf h).reported (recordFor_reported _ _ _ _ _)

theorem gridArena_wf {g : Grid} {s : State} (h : Wf s) : Wf (gridArena g s) := by
  unfold gridArena
  split
  · exact h
  · split
    · split
      · exact tellQuarantine_wf h
      · exact h
    · exact createArena_wf (mapGrid_wf h)

theorem argsEnd_wf {g : Grid} {f : FaultInfo} {s : State} (h : Wf s) : Wf (argsEnd g f s) :=
  (h.reported (recordFor_reported _ _ _ _ _)).reported (endGrid_reported _ _ _)

theorem readArg_wf {g : Grid} {a : DWord} {s : State} (h : Wf s) : ArgReadWf (readArg g a s) := by
  unfold readArg
  split
  · exact h
  · split
    · exact h
    · next he =>
        dsimp only
        split
        · exact readOver_wf
            (foldl_wf (fun _ _ h1 => h1.reported (macCheck_reported _ _ _)) (((checkAccess_wf h).of_eq he).freed (setWorld_freed _)))
        · split
          · exact
              (readOver_wf (foldl_wf (fun _ _ h1 => h1.reported (macCheck_reported _ _ _)) (((checkAccess_wf h).of_eq he).freed (setWorld_freed _)))).reported
              (recordFor_reported _ _ _ _ _)
          · exact readOver_wf
              (foldl_wf (fun _ _ h1 => h1.reported (macCheck_reported _ _ _)) (((checkAccess_wf h).of_eq he).freed (setWorld_freed _)))

theorem readArgWords_wf {g : Grid} {l : List DWord} {s : State} (h : Wf s) : ArgReadWf (readArgWords g l s) := by
  induction l generalizing s with
  | nil => exact h
  | cons a t ih =>
    rw [readArgWords]
    split
    · next hread => exact (readArg_wf h).of_bad hread
    · next hread =>
      have hrest := ih ((readArg_wf h).of_ok hread)
      split
      · next hwords => exact hrest.of_ok hwords
      · exact hrest

theorem readArgs_wf {g : Grid} {s : State} (h : Wf s) : OutWf (readArgs g s) := by
  unfold readArgs
  dsimp only
  split
  · exact h
  · split
    · exact mapGrid_wf h
    · split
      · next he => exact mapGrid_wf ((readArgWords_wf h).of_ok he)
      · next he1 =>
          split
          · exact trivial
          · split
            · exact (mapGrid_wf ((readArgWords_wf h).of_bad he1)).reported (reportStage2_reported _ _ _)
            · exact argsEnd_wf ((readArgWords_wf h).of_bad he1)

theorem threadArenas_wf {g : Grid} {block core : Nat} {s : State} {t : Strand} (h : Wf s) :
    Wf (threadArenas g block core s t) := by
  unfold threadArenas
  split
  · exact h
  · split
    · exact h
    · exact foldl_wf (fun _ _ h1 => createArena_wf h1) h

theorem ranOn_wf {key core : Nat} {s : State} (h : Wf s) : Wf (ranOn key core s) := by
  unfold ranOn
  split
  · exact h.freed (setWorld_freed _)
  · exact h

theorem placeBlock_wf {g : Grid} {i core : Nat} {s : State} (h : Wf s) : Wf (placeBlock g i core s) := by
  unfold placeBlock
  split
  · refine l1Clear_wf ?_
    refine ranOn_wf ?_
    dsimp only [Wf]
    refine mapGrid_wf ?_
    refine foldl_wf (fun _ _ h1 => threadArenas_wf h1) ?_
    split
    · exact createArena_wf h
    · exact h
  · exact h

theorem dispatchOn_wf {g : Grid} {q : Queue} {i core : Nat} {s : State} (h : Wf s) :
    OutWf (dispatchOn g q i core s) := by
  unfold dispatchOn
  dsimp only
  split
  · exact startGrid_wf h
  · split
    · exact gridArena_wf (startGrid_wf h)
    · split
      · exact gridArena_wf (startGrid_wf h)
      · refine Out.andThen_wf (readArgs_wf (gridArena_wf (startGrid_wf h))) ?_
        intro _ h1
        split
        · split
          · exact visit_wf (placeBlock_wf h1)
          · exact h1
        · exact h1

theorem topUp_wf {s : State} (h : Wf s) : Wf (topUp s) := h

theorem execBlockDispatch_wf {id : Nat} {s : State} (h : Wf s) : OutWf (execBlockDispatch id s) := by
  unfold execBlockDispatch
  split
  · exact h
  · split
    · split
      · exact endPass_wf h
      · split
        · split
          · exact dispatchOn_wf h
          · exact h
        · split
          · exact endPass_wf (tellQuarantine_wf h)
          · split
            · exact h.kept (takeRoom_keepsForm _ _ _ _ _)
            · exact endPass_wf h
    · exact h

theorem execGrant_wf {r : BlockRef} {s : State} (h : Wf s) : OutWf (execGrant r s) := by
  unfold execGrant
  refine withBlock_wf h ?_
  intro _ h1
  split
  · exact h
  · split
    · exact h
    · dsimp only
      split
      · refine Wf.kept ?_ (poke_keepsForm _ _)
        exact h1
      · split
        · exact h1.kept (flushBlock_keepsForm _ _)
        · exact h

theorem releaseKept_wf {s : State} (h : Wf s) : Wf (releaseKept s) := h

theorem execSliceUnit_wf {s : State} (h : Wf s) : OutWf (execSliceUnit s) := by
  unfold execSliceUnit
  split
  · exact h
  · refine foldl_wf (fun _ _ h1 => h1.kept (sliceTake_keepsForm _ _)) ?_
    refine topUp_wf ?_
    refine clearDeficits_wf ?_
    refine releaseKept_wf ?_
    exact h

/-! ### Save and restore -/

theorem saveFocus_wf {s : State} (h : Wf s) : Wf (saveFocus s) := by
  unfold saveFocus
  dsimp only
  split
  · exact h
  · next he => exact (removeBlock_wf (writeSave_wf ((takeSave_wf h).of_eq he))).of_mem (State.mapGrids_mem _ _)

theorem execBlockSave_wf {r : BlockRef} {s : State} (h : Wf s) : OutWf (execBlockSave r s) := by
  unfold execBlockSave
  refine withBlock_wf h ?_
  intro _ h1
  split
  · exact saveFocus_wf h1
  · exact h

theorem execDrainExpiry_wf {r : BlockRef} {s : State} (h : Wf s) : OutWf (execDrainExpiry r s) := by
  unfold execDrainExpiry
  refine withBlock_wf h ?_
  intro _ h1
  split
  · split
    · exact h1
    · exact h
  · exact h

theorem refetchFault_wf {s : State} {x : Nat × FaultInfo} (h : Wf s) : Wf (refetchFault s x) := by
  unfold refetchFault
  split
  · exact outerDeclined_wf h
  · exact h.kept (delivered_keepsForm _ _)

theorem refetchFaults_wf {l : List (Nat × FaultInfo)} {s : State} (h : Wf s) : Wf (refetchFaults l s) := by
  unfold refetchFaults
  split
  · exact h
  · refine foldl_wf ?_ h
    intro _ _ h1
    split
    · next he => exact refetchFault_wf ((State.focus_wf h1).of_eq he)
    · exact h1

theorem restoreOn_wf {declined : Bool} {g : Grid} {v : SavedBlock} {core : Nat} {slots : List Nat} {s : State}
    (h : Wf s) : OutWf (restoreOn declined g v core slots s) := by
  unfold restoreOn
  dsimp only
  split
  · exact h
  · next he =>
      split
      · exact h.reported (reportStage2_reported _ _ _)
      · next he1 =>
          split
          · exact trivial
          · refine refetchFaults_wf ?_
            refine l1Clear_wf ?_
            refine returnSave_wf ?_
            refine ExceptWf.of_eq ?_ he1
            refine refetchAll_wf ?_
            refine OptWf.of_eq ?_ he
            refine State.focusBlock_wf ?_
            refine Wf.of_mem ?_ (State.mapGrids_mem _ _)
            refine ranOn_wf ?_
            exact h

theorem restore_wf {declined : Bool} {r : BlockRef} {s : State} (h : Wf s) : OutWf (restore declined r s) := by
  unfold restore
  split
  · exact h
  · split
    · split
      · exact h
      · split
        · split
          · exact h.kept (takeRoom_keepsForm _ _ _ _ _)
          · exact endPass_wf h
        · split
          · exact h
          · split
            · exact (h.reported (recordFor_reported _ _ _ _ _)).reported (endGrid_reported _ _ _)
            · split
              · exact restoreOn_wf (visit_wf h)
              · exact h
    · exact h

/-! ### Retirement -/

theorem retireFocus_wf {s : State} (h : Wf s) : Wf (retireFocus s) :=
  mapGrid_wf ((removeBlock_wf (h.reported (countOn_reported _ _ _))).kept (dropSlots_keepsForm _ _))

theorem execBlockRetirement_wf {r : BlockRef} {s : State} (h : Wf s) : OutWf (execBlockRetirement r s) := by
  unfold execBlockRetirement
  refine withBlock_wf h ?_
  intro _ h1
  split
  · exact loadFails_wf h1
  · split
    · exact retireFocus_wf h1
    · exact h

theorem flushWorldQnt_wf {key : Nat} {s : State} (h : Wf s) : Wf (flushWorldQnt key s) :=
  h.kept (applyDeferred_keepsForm _ _)

theorem endSlots_wf {key : Nat} {s : State} (h : Wf s) : Wf (endSlots key s) :=
  foldl_wf (fun _ _ h1 => h1.kept (finishSlot_keepsForm _ _)) h

theorem scrubRanges_wf {key : Nat} {l : List Range} {s : State} (h : Wf s) : Wf (scrubRanges key l s) := h

theorem dropCopies_wf {key : Nat} {s : State} (h : Wf s) : Wf (dropCopies key s) := h

theorem forgetWorld_wf {key : Nat} {s : State} (h : Wf s) : Wf (forgetWorld key s) := by
  unfold forgetWorld
  dsimp only [Wf]
  exact State.dropWorld_wf (State.dropGrid_wf (h.focused (dropBlock_only _)))

theorem zeroiseLines_wf {key : Nat} {s : State} (h : Wf s) : Wf (zeroiseLines key s) := h

theorem retireWorld_wf {key : Nat} {s : State} (h : Wf s) : Wf (retireWorld key s) := by
  unfold retireWorld
  dsimp only
  split
  · exact dropCopies_wf (endSlots_wf (flushWorldQnt_wf h))
  · refine Wf.freed ?_ (leaveQuarantine_freed _)
    split
    · refine forgetWorld_wf ?_
      split
      · exact zeroiseLines_wf
          (leavePrograms_wf (scrubRanges_wf ((dropCopies_wf (endSlots_wf (flushWorldQnt_wf h))).freed (setWorld_freed _))))
      · exact scrubRanges_wf ((dropCopies_wf (endSlots_wf (flushWorldQnt_wf h))).freed (setWorld_freed _))
    · split
      · exact zeroiseLines_wf
          (leavePrograms_wf (scrubRanges_wf ((dropCopies_wf (endSlots_wf (flushWorldQnt_wf h))).freed (setWorld_freed _))))
      · exact scrubRanges_wf ((dropCopies_wf (endSlots_wf (flushWorldQnt_wf h))).freed (setWorld_freed _))

theorem execScrubComplete_wf {key : Nat} {s : State} (h : Wf s) : OutWf (execScrubComplete key s) := by
  unfold execScrubComplete
  split
  · exact h
  · dsimp only
    split
    · dsimp only [OutWf, Wf]
      exact foldl_wf (fun _ _ h1 => h1.checked (zeroPage_only _ _ _)) h
    · split
      · refine forgetWorld_wf ?_
        refine mapReserve_wf ?_
        dsimp only [Wf]
        exact foldl_wf (fun _ _ h1 => h1.checked (zeroPage_only _ _ _)) h
      · refine Wf.freed ?_ (setWorld_freed _)
        dsimp only [Wf]
        exact foldl_wf (fun _ _ h1 => h1.checked (zeroPage_only _ _ _)) h

theorem dropSaved_wf {g : Grid} {s : State} (h : Wf s) : Wf (dropSaved g s) :=
  foldl_wf (fun _ _ h1 => (returnSave_wf h1).kept (dropSlots_keepsForm _ _)) h

theorem retireRecord_wf {g : Grid} {s : State} (h : Wf s) : Wf (retireRecord g s) := by
  unfold retireRecord
  split
  · exact retireNode_wf h
  · exact recordRetired_wf h

theorem removeGrid_wf {id : Nat} {s : State} (h : Wf s) : Wf (removeGrid id s) := by
  unfold removeGrid
  dsimp only [Wf]
  exact State.dropGrid_wf (h.focused (dropBlock_only _))

theorem execGridRetirement_wf {id : Nat} {s : State} (h : Wf s) : OutWf (execGridRetirement id s) := by
  unfold execGridRetirement
  split
  · exact h
  · split
    · exact h
    · dsimp only
      split
      · exact retireWorld_wf (removeGrid_wf (retireRecord_wf ((dropSaved_wf h).kept (dropSlots_keepsForm _ _))))
      · exact removeGrid_wf (retireRecord_wf ((dropSaved_wf h).kept (dropSlots_keepsForm _ _)))

end Machine

end Sys2Proof

/-! ## The canonical form of memory through packets, ports and the host -/

namespace Sys2Proof

namespace Machine

/-! ### Packets -/

theorem mapStrandRef_wf {r : StrandRef} {f : Nat → Strand → Strand} {g : Strand → Strand} {s : State} (h : Wf s) :
    Wf (mapStrandRef r f g s) := by
  unfold mapStrandRef
  refine Wf.of_mem ?_ (State.mapGrids_mem _ _)
  exact h

theorem engineCheck_wf {p : Packet} {k : Access} {a : DWord} {n : Nat} {s : State} (h : Wf s) :
    RangedWf (engineCheck p k a n s) := by
  unfold engineCheck
  split
  · exact trivial
  · dsimp only
    split
    · exact trivial
    · next he =>
        split
        · split
          · exact trivial
          · exact ((checkAccess_wf h).of_eq he).freed (setWorld_freed _)
        · split
          · exact trivial
          · exact ((checkAccess_wf h).of_eq he).freed (setWorld_freed _)

theorem Packet.read_wf {p : Packet} {l : List Nat} {s : State} (h : Wf s) : SndWf (p.read l s) :=
  foldl_wf (fun _ _ h1 => h1.reported (macCheck_reported _ _ _)) h

theorem sealedTold_wf {p : Packet} {f : FaultInfo} {s : State} (h : Wf s) : Wf (sealedTold p f s) :=
  h.reported (recordForWorld_reported _ _ _)

theorem faultEnds_wf {p : Packet} {f : FaultInfo} {role : Nat} {writes : List EWrite} {s : State} (h : Wf s) :
    EffectWf (faultEnds p f role writes s) := by
  unfold faultEnds
  split
  · exact trivial
  · split
    · exact sealedTold_wf h
    · split <;> exact h

/-- A copy's rows are checked one after another; a row that fails ends them. -/
theorem copyRows_wf {p : Packet} {rows : List (DWord × DWord × Nat)} {out : List EWrite} {gone : Bool} {s : State} (h : Wf s) :
    EffectWf (copyRows p rows out gone s) := by
  induction rows generalizing out gone s with
  | nil => exact h
  | cons x t ih =>
    obtain ⟨a, b, n⟩ := x
    have hcut : ∀ (f : FaultInfo) (role k : Nat), EffectWf (match engineCheck p .copyRead a k s with
        | .bad _ _ => faultEnds p f role out s
        | .ok src s1 =>
          match engineCheck p .copyWrite b k s1 with
          | .bad _ _ => faultEnds p f role out s
          | .ok dst s2 => faultEnds p f role (out ++ writesTo dst (unread src)) s2) := by
      intro f role k
      split
      · exact faultEnds_wf h
      · next hsrc =>
        split
        · exact faultEnds_wf h
        · next hdst => exact faultEnds_wf ((engineCheck_wf ((engineCheck_wf h).of_eq hsrc)).of_eq hdst)
    rw [copyRows]
    split
    · split
      · exact hcut _ _ _
      · exact hcut _ _ _
    · exact hcut _ _ _
    · exact hcut _ _ _
    · next hsrc _ =>
      split
      · exact hcut _ _ _
      · next hdst => exact ih ((engineCheck_wf ((engineCheck_wf h).of_eq hsrc)).of_eq hdst)

theorem Effect.blurred_wf {p : Packet} {s : State} {e : Effect} (h : EffectWf e) : EffectWf (Effect.blurred p s e) := by
  unfold Effect.blurred
  split <;> exact h

theorem copyEffect_wf {p : Packet} {s : State} (h : Wf s) : EffectWf (copyEffect p s) :=
  Effect.blurred_wf (copyRows_wf h)

theorem fillEffect_wf {p : Packet} {s : State} (h : Wf s) : EffectWf (fillEffect p s) := by
  unfold fillEffect
  dsimp only
  split
  · next he => exact (engineCheck_wf h).of_eq he
  · split
    · next he1 => exact faultEnds_wf ((engineCheck_wf h).of_eq he1)
    · exact faultEnds_wf h

theorem sealmoveEffect_wf {p : Packet} {s : State} (h : Wf s) : EffectWf (sealmoveEffect p s) := by
  unfold sealmoveEffect
  split
  · exact faultEnds_wf h
  · next he =>
      split
      · exact faultEnds_wf ((engineCheck_wf h).of_eq he)
      · next he1 =>
          split
          · exact (engineCheck_wf ((engineCheck_wf h).of_eq he)).of_eq he1
          · split
            · split <;> exact (engineCheck_wf ((engineCheck_wf h).of_eq he)).of_eq he1
            · exact (engineCheck_wf ((engineCheck_wf h).of_eq he)).of_eq he1

theorem signalEffect_wf {p : Packet} {s : State} (h : Wf s) : EffectWf (signalEffect p s) := by
  unfold signalEffect
  dsimp only
  split
  · exact faultEnds_wf h
  · next he =>
      split
      · exact (engineCheck_wf h).of_eq he
      · exact foldl_wf (fun _ _ h1 => h1.reported (macCheck_reported _ _ _)) ((engineCheck_wf h).of_eq he)

theorem commitSlot_wf {w : World} {n : Nat} {counter : DWord} {s : State} (h : Wf s) :
    Wf (commitSlot w n counter s) := h.freed (setWorld_freed _)

theorem ingestChecks_wf {p : Packet} {s : State} (h : Wf s) : IngestedWf (ingestChecks p s) := by
  unfold ingestChecks
  dsimp only
  split
  · split
    · exact sealedTold_wf h
    · exact faultEnds_wf h
  · next he =>
      split
      · exact (engineCheck_wf h).of_eq he
      · split
        · exact (engineCheck_wf h).of_eq he
        · split
          · exact (engineCheck_wf h).of_eq he
          · split
            · exact (engineCheck_wf h).of_eq he
            · split
              · exact faultEnds_wf ((engineCheck_wf h).of_eq he)
              · next he1 =>
                  split
                  · exact (engineCheck_wf ((engineCheck_wf h).of_eq he)).of_eq he1
                  · split <;> exact (engineCheck_wf ((engineCheck_wf h).of_eq he)).of_eq he1

theorem ingestCommit_wf {p : Packet} {bytes : List Byte} {s : State} (h : Wf s) :
    EffectWf (ingestCommit p bytes s) := by
  unfold ingestCommit
  split
  · exact h
  · dsimp only
    split
    · split
      · exact h
      · split
        · exact h
        · exact (commitSlot_wf h).reported (performEWrites_reported _ _ _)
    · split
      · exact h
      · split
        · exact h
        · exact (commitSlot_wf h).reported (performEWrites_reported _ _ _)

theorem ingestOpen_wf {p : Packet} {s : State} (h : Wf s) : EffectWf (ingestOpen p s) := by
  unfold ingestOpen
  split
  · exact faultEnds_wf h
  · next he =>
      split
      · exact (engineCheck_wf h).of_eq he
      · dsimp only
        split
        · exact foldl_wf (fun _ _ h1 => h1.reported (macCheck_reported _ _ _)) ((engineCheck_wf h).of_eq he)
        · exact ingestCommit_wf
            (foldl_wf (fun _ _ h1 => h1.reported (macCheck_reported _ _ _)) ((engineCheck_wf h).of_eq he))

theorem beginMcast_wf {p : Packet} {s : State} (h : Wf s) : BegunWf (beginMcast p s) := by
  unfold beginMcast
  split
  · split
    · next he => exact (faultEnds_wf h).of_done he
    · exact faultEnds_wf h
  · next he1 => exact (engineCheck_wf h).of_eq he1

theorem beginReduce_wf {p : Packet} {s : State} (h : Wf s) : BegunWf (beginReduce p s) := by
  unfold beginReduce
  dsimp only
  split
  · split <;> exact faultEnds_wf h
  · exact faultEnds_wf h
  · next he =>
      split
      · exact faultEnds_wf ((engineCheck_wf h).of_eq he)
      · split
        · exact (engineCheck_wf h).of_eq he
        · split <;> exact (engineCheck_wf h).of_eq he

theorem beginIngest_wf {p : Packet} {s : State} (h : Wf s) : BegunWf (beginIngest p s) := by
  unfold beginIngest
  split
  · next he => exact (ingestChecks_wf h).of_ends he
  · next he1 => exact (ingestChecks_wf h).of_on he1

theorem setPacket_wf {p : Packet} {s : State} (h : Wf s) : Wf (setPacket p s) := h

theorem dropPacket_wf {n : Nat} {s : State} (h : Wf s) : Wf (dropPacket n s) := h

theorem stallPacket_wf {p : Packet} {f : FaultInfo} {role : Nat} {s : State} (h : Wf s) :
    Wf (stallPacket p f role s) := (setPacket_wf h).reported (reportStage2_reported _ _ _)

theorem settle_wf {p : Packet} {e : Effect} (h : EffectWf e) : OutWf (settle p e) := by
  unfold settle
  split
  · exact setPacket_wf h
  · exact stallPacket_wf h
  · exact trivial

theorem beginPacket_wf {p : Packet} {s : State} (h : Wf s) : OutWf (beginPacket p s) := by
  unfold beginPacket
  split
  · next he =>
      refine setPacket_wf ?_
      refine BegunWf.of_on ?_ he
      split
      · exact beginMcast_wf h
      · split
        · exact beginReduce_wf h
        · exact beginIngest_wf h
  · next he1 =>
      refine settle_wf ?_
      refine BegunWf.of_ends ?_ he1
      split
      · exact beginMcast_wf h
      · split
        · exact beginReduce_wf h
        · exact beginIngest_wf h

theorem effectOf_wf {p : Packet} {s : State} (h : Wf s) : EffectWf (effectOf p s) := by
  unfold effectOf
  split
  · exact copyEffect_wf h
  · split
    · exact fillEffect_wf h
    · split
      · exact sealmoveEffect_wf h
      · exact signalEffect_wf h

theorem accept_wf {x : PostRef} {s : State} (h : Wf s) : Wf (accept x s) := by
  unfold accept
  refine Wf.woken ?_ (pokeStrand_wakes _ _)
  refine mapStrandRef_wf ?_
  exact h

theorem startPacket_wf {p : Packet} {s : State} (h : Wf s) : Wf (startPacket p s) := h

theorem cometCheck_wf {key index : Nat} {s : State} (h : Wf s) : Wf (cometCheck key index s) := by
  unfold cometCheck
  split
  · exact ringCheck_wf h
  · exact h

theorem startRing_wf {key index : Nat} {kind : Nat → Bool} {s0 : State} (h : Wf s0) :
    OutWf (startRing key index kind s0) := by
  unfold startRing
  dsimp only
  split
  · split
    · exact cometCheck_wf h
    · exact h
  · split
    · split
      · exact cometCheck_wf h
      · refine startPacket_wf ?_
        split
        · refine accept_wf ?_
          refine Header.put_wf ?_
          dsimp only [Wf]
          exact cometCheck_wf h
        · refine Header.put_wf ?_
          dsimp only [Wf]
          exact cometCheck_wf h
    · split
      · exact h
      · refine startPacket_wf ?_
        split
        · refine accept_wf ?_
          refine Header.put_wf ?_
          exact h
        · refine Header.put_wf ?_
          exact h

theorem startHanded_wf {n : Nat} {kind : Nat → Bool} {s : State} (h : Wf s) : OutWf (startHanded n kind s) := by
  unfold startHanded
  split
  · exact h
  · split
    · exact h
    · refine startPacket_wf ?_
      exact h

theorem startFrom_wf {p : PacketSource} {kind : Nat → Bool} {s : State} (h : Wf s) : OutWf (startFrom p kind s) := by
  unfold startFrom
  split
  · exact startRing_wf h
  · exact startHanded_wf h

theorem statusToStrand_wf {p : Packet} {r : StrandRef} {post : Nat} {w : Word} {s : State} (h : Wf s) :
    Wf (statusToStrand p r post w s) := by
  unfold statusToStrand
  refine Wf.woken ?_ (pokeStrand_wakes _ _)
  refine mapStrandRef_wf ?_
  split
  · split
    · exact l1Clear_wf h
    · exact h
  · exact h

theorem statusToMemory_wf {p : Packet} {w : Word} {s : State} (h : Wf s) : EffectWf (statusToMemory p w s) := by
  unfold statusToMemory
  dsimp only
  split
  · exact h
  · split
    · next he => exact (engineCheck_wf h).of_eq he
    · split
      · exact trivial
      · split
        · exact h
        · exact h.reported (recordForWorld_reported _ _ _)

theorem afterStatus_wf {p : Packet} {s : State} (h : Wf s) : Wf (afterStatus p s) := by
  unfold afterStatus
  split
  · exact recordRetired_wf h
  · exact retireNode_wf h
  · exact h

theorem deliverStatus_wf {p : Packet} {w : Word} {s : State} {k : State → State} (h : Wf s)
    (hk : ∀ (a : State), Wf a → Wf (k a)) : OutWf (deliverStatus p w s k) := by
  unfold deliverStatus
  split
  · exact hk _ (statusToStrand_wf h)
  · split
    · next he => exact hk _ (((statusToMemory_wf h).of_done he).reported (performEWrites_reported _ _ _))
    · next he1 => exact stallPacket_wf ((statusToMemory_wf h).of_stall he1)
    · exact trivial

theorem complete_wf {p : Packet} {w : Word} {s : State} (h : Wf s) : OutWf (complete p w s) := by
  unfold complete
  dsimp only
  split
  · exact afterStatus_wf
      (dropPacket_wf (setPacket_wf ((foldl_wf (fun _ _ h1 => h1.reported (macCheck_reported _ _ _)) h).reported (performEWrites_reported _ _ _))))
  · exact deliverStatus_wf
      (setPacket_wf ((foldl_wf (fun _ _ h1 => h1.reported (macCheck_reported _ _ _)) h).reported (performEWrites_reported _ _ _)))
      (fun _ h1 => afterStatus_wf (dropPacket_wf h1))

theorem completeEarly_wf {p : Packet} {w : Word} {s : State} (h : Wf s) : OutWf (completeEarly p w s) := by
  unfold completeEarly
  split
  · exact h
  · exact deliverStatus_wf h (fun _ h1 => setPacket_wf h1)

theorem leave_wf {p : Packet} {s : State} (h : Wf s) : OutWf (leave p s) := by
  unfold leave
  dsimp only
  split
  · exact setPacket_wf (foldl_wf (fun _ _ h1 => h1.reported (macCheck_reported _ _ _)) h)
  · exact settle_wf (foldl_wf (fun _ _ h1 => h1.reported (macCheck_reported _ _ _)) h)

theorem proceed_wf {p : Packet} {s : State} (h : Wf s) : OutWf (proceed p s) := by
  unfold proceed
  split
  · exact h
  · split
    · split
      · exact complete_wf h
      · exact h
    · split
      · exact leave_wf h
      · split
        · exact settle_wf (ingestOpen_wf h)
        · split
          · exact beginPacket_wf h
          · split
            · next he =>
                dsimp only
                split
                · exact complete_wf (setPacket_wf ((effectOf_wf h).of_done he))
                · exact setPacket_wf ((effectOf_wf h).of_done he)
            · exact settle_wf (effectOf_wf h)

theorem execPacketCompletion_wf {x : PartOf} {early : Bool} {s : State} (h : Wf s) :
    OutWf (execPacketCompletion x early s) := by
  unfold execPacketCompletion
  split
  · exact h
  · split
    · exact h
    · split
      · exact h
      · exact setPacket_wf (foldl_wf (fun _ _ h1 => h1.reported (macCheck_reported _ _ _)) h)
      · exact setPacket_wf
          ((foldl_wf (fun _ _ h1 => h1.reported (macCheck_reported _ _ _)) h).reported (performEWrites_reported _ _ _))
      · exact h
      · split
        · exact completeEarly_wf h
        · exact complete_wf h
      · split
        · exact h
        · exact proceed_wf h

theorem arriveFocus_wf {p : Packet} {t : Target} {c : Nat} {s : State} (h : Wf s) : Wf (arriveFocus p t c s) := by
  unfold arriveFocus
  dsimp only
  split
  · exact (Wf.of_mem h rfl : Wf (markChunk p t c false { s with blk := _ })).woken (pokeBlock_wakes _ _)
  · exact h

theorem execMcastArrival_wf {n target chunk : Nat} {s : State} (h : Wf s) : OutWf (execMcastArrival n target chunk s) := by
  have hread : ∀ p : Packet, SndWf (p.read (chunkPlaces p chunk) s) := fun p => Packet.read_wf h
  unfold execMcastArrival
  split
  · exact h
  · split
    · exact h
    · split
      · exact h
      · dsimp only
        split
        · split
          · next he _ => exact arriveFocus_wf ((State.focusBlock_wf (hread _)).of_eq he)
          · exact hread _
        · exact hread _

theorem reduceResult_wf {p : Packet} {l : List Byte} {s : State} (h : Wf s) : OutWf (reduceResult p l s) := by
  unfold reduceResult
  split
  · next he => exact settle_wf ((engineCheck_wf h).of_eq he)
  · split
    · next he1 => exact settle_wf (faultEnds_wf ((engineCheck_wf h).of_eq he1))
    · exact settle_wf (faultEnds_wf h)

theorem execReduceCompletion_wf {n : Nat} {net : NetResult} {s : State} (h : Wf s) :
    OutWf (execReduceCompletion n net s) := by
  unfold execReduceCompletion
  split
  · exact h
  · split
    · exact h
    · split
      · exact settle_wf (h.reported (countOn_reported _ _ _))
      · exact settle_wf h
      · split
        · exact h
        · split
          · exact settle_wf h
          · exact reduceResult_wf h

/-! ### Host ports -/

theorem execTlbInvalidate_wf {port : Bool} {w : BitVec 64} {s : State} (h : Wf s) :
    OutWf (execTlbInvalidate port w s) := by
  unfold execTlbInvalidate
  split
  · exact h
  · exact mapPort_wf h

theorem execTlbinvComplete_wf {port : Bool} {s : State} (h : Wf s) : OutWf (execTlbinvComplete port s) := by
  unfold execTlbinvComplete
  dsimp only
  split
  · exact h
  · refine mapPort_wf ?_
    exact h

theorem takeLease_wf {b : Bool} {s : State} (h : Wf s) : Wf (takeLease b s) := mapPort_wf (mapPort_wf h)

theorem execLeaseRenew_wf {b : Bool} {s : State} (h : Wf s) : OutWf (execLeaseRenew b s) := by
  unfold execLeaseRenew
  split
  · exact h
  · split
    · exact mapPort_wf h
    · split
      · exact h
      · split
        · split
          · refine takeLease_wf ?_
            exact h
          · exact h
        · refine takeLease_wf ?_
          exact h

theorem passLease_wf {b : Bool} {s : State} (h : Wf s) : Wf (passLease b s) := by
  unfold passLease
  dsimp only
  split
  · dsimp only [Wf]
    exact mapPort_wf (mapPort_wf h)
  · refine mapPort_wf ?_
    refine mapPort_wf ?_
    exact h

theorem execLeaseRelease_wf {b : Bool} {s : State} (h : Wf s) : OutWf (execLeaseRelease b s) := by
  unfold execLeaseRelease
  split
  · exact passLease_wf h
  · exact h

theorem execLeasePeriod_wf {b : Bool} {ms : BitVec 16} {s : State} (h : Wf s) : OutWf (execLeasePeriod b ms s) := by
  unfold execLeasePeriod
  split
  · exact mapPort_wf h
  · exact h

theorem leaseStep_wf {b : Bool} {s : State} (h : Wf s) : Wf (leaseStep b s) := by
  unfold leaseStep
  split
  · exact h
  · dsimp only
    split
    · refine passLease_wf ?_
      dsimp only [Wf]
      exact mapPort_wf h
    · exact mapPort_wf h

theorem execLeaseExpiry_wf {s : State} (h : Wf s) : OutWf (execLeaseExpiry s) := by
  unfold execLeaseExpiry
  split
  · exact h
  · dsimp only
    split
    · refine leaseStep_wf ?_
      exact h
    · refine leaseStep_wf ?_
      exact h

theorem execScrubprogSelect_wf {port : Bool} {key : BitVec 10} {s : State} (h : Wf s) :
    OutWf (execScrubprogSelect port key s) := by
  unfold execScrubprogSelect
  split
  · exact mapPort_wf (mapPort_wf h)
  · exact h

theorem execAggvecRead_wf {port : Bool} {k : BitVec 4} {s : State} (h : Wf s) : OutWf (execAggvecRead port k s) := by
  unfold execAggvecRead
  split
  · exact mapPort_wf h
  · exact h

theorem execFeataccWrite_wf {port : Bool} {k : BitVec 3} {w : BitVec 32} {s : State} (h : Wf s) :
    OutWf (execFeataccWrite port k w s) := by
  unfold execFeataccWrite
  split
  · exact h
  · exact mapPort_wf h

theorem execCommit_wf {port : Bool} {s : State} (h : Wf s) : OutWf (execCommit port s) := by
  unfold execCommit
  split
  · exact h
  · dsimp only
    split
    · exact mapPort_wf h
    · refine mapPort_wf ?_
      refine mapPort_wf ?_
      refine mapPort_wf ?_
      exact h

theorem execRegisterWrite_wf {port : Bool} {off : BitVec 16} {w : BitVec 64} {s : State} (h : Wf s) :
    OutWf (execRegisterWrite port off w s) := by
  unfold execRegisterWrite
  split
  · exact h
  · split
    · exact mapPort_wf h
    · split
      · exact mapPort_wf h
      · split
        · exact mapPort_wf h
        · split
          · exact mapPort_wf h
          · split
            · exact mapPort_wf h
            · split
              · exact mapPort_wf h
              · exact h

theorem execNotifyInterrupt_wf {port : Bool} {s : State} (h : Wf s) : OutWf (execNotifyInterrupt port s) := by
  unfold execNotifyInterrupt
  dsimp only
  split
  · exact mapPort_wf h
  · exact h

theorem mapStream_wf {port : Bool} {k : Nat} {f : Tdisp → Tdisp} {s : State} (h : Wf s) :
    Wf (mapStream port k f s) := mapPort_wf h

theorem execHostLinkUp_wf {port : Bool} {s : State} (h : Wf s) : OutWf (execHostLinkUp port s) := by
  unfold execHostLinkUp
  split
  · exact h
  · exact mapPort_wf h

theorem execTdispStop_wf {port : Bool} {k : BitVec 3} {s : State} (h : Wf s) : OutWf (execTdispStop port k s) := by
  unfold execTdispStop
  split
  · exact mapStream_wf h
  · exact h

theorem execTdispLockInterface_wf {port : Bool} {k : BitVec 3} {s : State} (h : Wf s) :
    OutWf (execTdispLockInterface port k s) := by
  unfold execTdispLockInterface
  split
  · exact mapStream_wf h
  · exact h

theorem execTdispStartInterface_wf {port : Bool} {k : BitVec 3} {s : State} (h : Wf s) :
    OutWf (execTdispStartInterface port k s) := by
  unfold execTdispStartInterface
  split
  · exact mapStream_wf h
  · exact h

/-! ### Requests of world owners -/

theorem refuseRequest_wf {what : Nat} {s : State} (h : Wf s) : OutWf (refuseRequest what s) := h.of_mem (tell_mem _ _)

theorem request_wf {s : State} {k : Out} (h : Wf s) (hk : OutWf k) : OutWf (request s k) := by
  unfold request
  split
  · exact hk
  · exact h

theorem forHandle_wf {h : BitVec 16} {what : Nat} {s : State} {k : World → Out} (hs : Wf s)
    (hk : ∀ (a : World), OutWf (k a)) : OutWf (forHandle h what s k) := by
  unfold forHandle
  refine request_wf hs ?_
  split
  · exact refuseRequest_wf hs
  · exact hk _

theorem execRegister_wf {h : BitVec 16} {sealing : BitVec 256} {auth : Bool} {s : State} (hs : Wf s) :
    OutWf (execRegister h sealing auth s) := by
  unfold execRegister
  refine request_wf hs ?_
  split
  · exact refuseRequest_wf hs
  · split
    · exact refuseRequest_wf hs
    · exact hs

theorem execDeregister_wf {h : BitVec 16} {s : State} (hs : Wf s) : OutWf (execDeregister h s) := by
  unfold execDeregister
  refine forHandle_wf hs ?_
  intro _
  split
  · exact refuseRequest_wf hs
  · exact forgetWorld_wf (scrubRanges_wf (dropCopies_wf (endSlots_wf hs)))

theorem execGiveMemory_wf {h vmid : BitVec 16} {save : Bool} {base len : Nat} {s : State} (hs : Wf s) :
    OutWf (execGiveMemory h vmid save base len s) := by
  unfold execGiveMemory
  dsimp only
  split
  · refine request_wf hs ?_
    split
    · exact refuseRequest_wf hs
    · refine mapReserve_wf ?_
      split <;> exact hs
  · refine forHandle_wf hs ?_
    intro _
    split
    · exact refuseRequest_wf hs
    · exact hs.freed (setWorld_freed _)

theorem execRoots_wf {h : BitVec 16} {stage2 : Bool} {root : Nat} {s : State} (hs : Wf s) :
    OutWf (execRoots h stage2 root s) := by
  unfold execRoots
  split
  · exact request_wf hs (refuseRequest_wf hs)
  · split
    · refine request_wf hs ?_
      split <;> exact hs
    · exact forHandle_wf hs (fun _ => hs.freed (setWorld_freed _))

theorem execSealedEntry_wf {h : BitVec 16} {k : BitVec 8} {e : BitVec 128} {s : State} (hs : Wf s) :
    OutWf (execSealedEntry h k e s) := by
  unfold execSealedEntry
  refine forHandle_wf hs ?_
  intro _
  split
  · exact refuseRequest_wf hs
  · exact hs.freed (setWorld_freed _)

theorem execIngestKey_wf {h : BitVec 16} {k : BitVec 8} {long : Bool} {key : BitVec 256} {auth : Bool} {s : State}
    (hs : Wf s) : OutWf (execIngestKey h k long key auth s) := by
  unfold execIngestKey
  refine forHandle_wf hs ?_
  intro _
  split
  · exact refuseRequest_wf hs
  · split
    · exact hs
    · exact hs.freed (setWorld_freed _)

theorem execCometQueue_wf {h : BitVec 16} {k : BitVec 8} {hdr : Option DWord} {s : State} (hs : Wf s) :
    OutWf (execCometQueue h k hdr s) := by
  unfold execCometQueue
  refine forHandle_wf hs ?_
  intro _
  dsimp only
  split
  · exact hs.freed (setWorld_freed _)
  · split
    · exact refuseRequest_wf (hs.reported (headerCheck_reported _ _ _))
    · split
      · exact refuseRequest_wf (hs.reported (headerCheck_reported _ _ _))
      · exact (hs.reported (headerCheck_reported _ _ _)).freed (setWorld_freed _)

theorem execBindQueue_wf {q : Nat} {f : QueueBinding} {s : State} (h : Wf s) : OutWf (execBindQueue q f s) := by
  unfold execBindQueue
  refine request_wf h ?_
  split
  · exact refuseRequest_wf h
  · split
    · exact mapQueue_wf h
    · exact h

/-! ### Events from outside -/

theorem execMacReread_wf {line : Nat} {pass : Bool} {s : State} (h : Wf s) : OutWf (execMacReread line pass s) := by
  unfold execMacReread
  split
  · exact h
  · dsimp only
    split
    · exact h.reported (countOn_reported _ _ _)
    · exact (h.reported (countOn_reported _ _ _)).reported (failLine_reported _ _ _)

theorem withPoison_wf {l : List Nat} {s : State} {k : State → Out} (h : Wf s) (hk : ∀ (a : State), Wf a → OutWf (k a)) :
    OutWf (withPoison l s k) := by
  unfold withPoison
  refine Out.andThen_wf (hk _ (h.reported (poisonPlacesAt_reported _ _))) ?_
  intro _ h1
  exact h1

theorem readPoisoned_wf {r : StrandRef} {n : Nat} {s : State} (h : Wf s) : OutWf (readPoisoned r n s) := by
  unfold readPoisoned
  split
  · split
    · exact h
    · split
      · exact h
      · exact withPoison_wf h (fun _ h1 => execOldwComplete_wf h1)
  · refine withOp_wf h ?_
    intro _ _ h1
    refine withPoison_wf h1 ?_
    intro _ h2
    split
    · exact execLdaComplete_wf h2
    · exact execLoadComplete_wf h2

theorem spoilPacket_wf {q : Nat → Bool} {n : Nat} {s : State} (h : Wf s) : Wf (spoilPacket q n s) := by
  unfold spoilPacket
  split
  · exact h
  · dsimp only
    split
    · exact h
    · exact setPacket_wf h

theorem execFlitRetry_wf {l : LinkRef} {f : FlitKind} {pass : Bool} {s : State} (h : Wf s) :
    OutWf (execFlitRetry l f pass s) := by
  have hcounted : Wf (countOn (linkDie l) (fun c => { c with linkRetries := c.linkRetries + 1 }) s) :=
    h.reported (countOn_reported _ _ _)
  unfold execFlitRetry
  generalize countOn (linkDie l) (fun c => { c with linkRetries := c.linkRetries + 1 }) s = s1 at hcounted ⊢
  dsimp only
  split
  · exact hcounted
  · split
    · exact readPoisoned_wf hcounted
    · exact spoilPacket_wf hcounted
    · split
      · exact hcounted.reported (poisonPlacesAt_reported _ _)
      · exact hcounted
    · split <;> exact hcounted
    · dsimp only [OutWf, Wf]
      exact hcounted.reported (countOn_reported _ _ _)
    · exact hcounted

theorem execKeyGeneration_wf {l : LinkRef} {s : State} (h : Wf s) : OutWf (execKeyGeneration l s) := by
  unfold execKeyGeneration
  split
  · split
    · exact h
    · exact h.links (rekeyStack_only _ _)
  · split
    · exact h
    · exact h.links (rekeyPerigee_only _ _)

theorem outerSealed_wf {parts : List (Nat × DWord × PagePart)} {va : DWord} {s : State} (h : Wf s) :
    Wf (outerSealed parts va s) := h.reported (recordForWorld_reported _ _ _)

theorem outerWrite_wf {parts : List (Nat × DWord × PagePart)} {l : List Byte} {s : State} (h : Wf s) :
    Wf (outerWrite parts l s) :=
  foldl_wf (fun _ _ h1 => (h1.reported (macCheck_reported _ _ _)).stored (writePlaces_stored _ _ _ _)) h

theorem outerAccess_wf {x : OuterAccess} {shown : Nat → State → State} {s : State}
    (h : ∀ (a : Nat) (a_1 : State), Wf a_1 → Wf (shown a a_1)) (hk : Wf s) : OutWf (outerAccess x shown s) := by
  unfold outerAccess
  split
  · split
    · exact h _ _ hk
    · exact h _ _ (outerSealed_wf hk)
    · exact h _ _ (foldl_wf (fun _ _ h1 => h1.reported (macCheck_reported _ _ _)) hk)
  · split
    · exact hk
    · exact outerSealed_wf hk
    · exact outerWrite_wf hk
  · dsimp only
    split
    · exact hk
    · split
      · exact h _ _ (outerWrite_wf (foldl_wf (fun _ _ h1 => h1.reported (macCheck_reported _ _ _)) hk))
      · exact h _ _ (outerSealed_wf hk)
      · exact h _ _ hk
  · exact hk

theorem execHostAccess_wf {port : Bool} {x : OuterAccess} {s : State} (h : Wf s) :
    OutWf (execHostAccess port x s) := by
  unfold execHostAccess
  split
  · split
    · exact h.stored (putPlaces_stored _ _ _ _)
    · exact h
  · split
    · exact outerAccess_wf (fun _ _ h1 => mapPort_wf h1) h
    · exact h

theorem execPeerAccess_wf {port : BitVec 4} {x : OuterAccess} {s : State} (h : Wf s) :
    OutWf (execPeerAccess port x s) := by
  unfold execPeerAccess
  split
  · exact outerAccess_wf (fun _ _ h1 => h1) h
  · exact h

theorem execPerigeeTraining_wf {port : BitVec 4} {t : Training} {s : State} (h : Wf s) :
    OutWf (execPerigeeTraining port t s) := by
  unfold execPerigeeTraining
  split <;> exact h

theorem bringUp_wf {b : BringUp} {s : State} (h : Wf s) : Wf (bringUp b s) := by
  unfold bringUp
  split
  · split
    · exact h
    · split
      · exact h
      · exact h.of_mem (tell_mem _ _)
  · split <;> exact h
  · split <;> exact h
  · split
    · refine mapPort_wf ?_
      refine mapPort_wf ?_
      exact h
    · exact h
  · split <;> exact h

theorem execPowerOn_wf {b : BringUp} {s : State} (h : Wf s) : OutWf (execPowerOn b s) := by
  unfold execPowerOn
  split
  · exact h
  · exact bringUp_wf h

theorem execWarmReset_wf {s : State} (h : Wf s) : OutWf (execWarmReset s) := by
  unfold execWarmReset
  dsimp only [OutWf, Wf]
  refine foldl_wf (fun _ _ h1 => retireWorld_wf h1) ?_
  dsimp only [Wf]
  exact State.dropWorld_wf (State.dropGrid_wf (h.focused (dropBlock_only _)))

/-- After a loss of power the bytes of the hosts' own memory alone are left. -/
theorem execPowerLoss_wf {s : State} (h : Wf s) : OutWf (execPowerLoss s) := Memory.wf_filter _ _ h

theorem rfError_wf {r : StrandRef} {e : RfError} {s : State} (h : Wf s) : Wf (rfError r e s) := by
  unfold rfError
  split
  · next he =>
      dsimp only [Wf]
      exact (State.focus_wf h).of_eq he
  · exact h

theorem strike_wf {t : ErrorSite} {s : State} (h : Wf s) : OutWf (strike t s) := by
  unfold strike
  dsimp only
  split
  · split
    · exact h.reported (poisonPlacesAt_reported _ _)
    · exact h
  · exact h
  · split
    · next he =>
        dsimp only [OutWf, Wf]
        exact (State.focusBlock_wf h).of_eq he
    · exact h
  · exact mapGrid_wf h
  · split
    · next he1 =>
        dsimp only [OutWf, Wf]
        exact (State.focusBlock_wf h).of_eq he1
    · exact h
  · split
    · next he2 =>
        dsimp only [OutWf, Wf]
        exact (State.focusBlock_wf h).of_eq he2
    · exact h
  · exact rfError_wf h
  · exact rfError_wf h
  · exact rfError_wf h
  · split
    · exact readPoisoned_wf h
    · exact spoilPacket_wf h
    · exact h

theorem execSoftError_wf {t : ErrorSite} {fixable : Bool} {s : State} (h : Wf s) :
    OutWf (execSoftError t fixable s) := by
  unfold execSoftError
  dsimp only
  split
  · exact h.reported (countOn_reported _ _ _)
  · exact strike_wf (h.reported (countOn_reported _ _ _))

/-! ### The exact accumulator and EXPR -/

theorem execKclr_wf {f : AluD} {s : State} (h : Wf s) : OutWf (execKclr f s) := by
  unfold execKclr
  refine guarded_wf h ?_
  intro _ h1
  refine zeroResult_wf ?_
  exact h1

theorem kadd_wf {op : BitVec 8} {f : Alu1} {p : Pos} {vals : Word → List Val} {s : State} (h : Wf s) :
    OutWf (kadd op f p vals s) := by
  unfold kadd
  refine guarded_wf h ?_
  intro _ h1
  refine zeroResult_wf ?_
  exact h1

/-! ### Program load -/

theorem writeEntry_wf {a : Nat} {e : BitVec 128} {s : State} (h : Wf s) : Wf (writeEntry a e s) :=
  h.stored (putPlaces_stored _ _ _ _)

theorem mapProgram_wf {f : AnonProgram → AnonProgram} {s : State} (h : Wf s) : Wf (mapProgram f s) := by
  unfold mapProgram
  split <;> exact h

theorem installLeaf_wf {root2 : Option Nat} {va : Nat} {leaf : BitVec 128} {n table lvl : Nat} {frames : List Nat} {s : State}
    (h : Wf s) : OptSndWf (installLeaf root2 va leaf n table lvl frames s) := by
  induction n generalizing table lvl frames s with
  | zero => exact trivial
  | succ n ih =>
    rw [installLeaf]
    split
    · exact trivial
    · split
      · show Wf _
        dsimp only
        split
        · exact mapProgram_wf (writeEntry_wf h)
        · exact writeEntry_wf h
      · dsimp only
        split
        · split
          · exact trivial
          · exact ih h
        · split
          · exact trivial
          · split
            · exact trivial
            · exact ih (writeEntry_wf (h.checked (zeroPage_only _ _ _)))

theorem mapPages_wf {w : LoadWorld} {entry : Nat} {x : Section} {k : Nat} {frames : List Nat} {s : State} (h : Wf s) :
    OptSndWf (mapPages w entry x k frames s) := by
  induction k generalizing frames s with
  | zero => exact h
  | succ k ih =>
    rw [mapPages]
    split
    · exact trivial
    · next hpages => exact installLeaf_wf ((ih h).of_eq hpages)

theorem loadSection_wf {p : Loaded} {w : LoadWorld} {x : Section} {entry : Nat} {frames : List Nat} {s : State}
    (h : Wf s) : OptThirdWf (loadSection p w x entry frames s) := by
  unfold loadSection
  split
  · exact trivial
  · split
    · exact trivial
    · next he =>
        split
        · exact trivial
        · dsimp only
          split
          · refine Wf.of_mem ?_ (State.mapWorlds_mem _ _)
            split
            · exact mapProgram_wf (((mapPages_wf h).of_eq he).stored (putPlaces_stored _ _ _ _))
            · exact ((mapPages_wf h).of_eq he).stored (putPlaces_stored _ _ _ _)
          · split
            · exact mapProgram_wf (((mapPages_wf h).of_eq he).stored (putPlaces_stored _ _ _ _))
            · exact ((mapPages_wf h).of_eq he).stored (putPlaces_stored _ _ _ _)

theorem loadSections_wf {p : Loaded} {w : LoadWorld} {l : List Section} {entry : Nat} {frames : List Nat} {s : State}
    (h : Wf s) : OptWf (loadSections p w l entry frames s) := by
  induction l generalizing entry frames s with
  | nil => exact h
  | cons x t ih =>
    rw [loadSections]
    split
    · exact trivial
    · next hsection => exact ih ((loadSection_wf h).of_eq hsection)

theorem loadQueue_wf {p : Loaded} {w : LoadWorld} {b : Bool} {s : State} (h : Wf s) : OptWf (loadQueue p w b s) := by
  unfold loadQueue
  extract_lets die ring hdr
  clear_value ring hdr
  split
  · exact trivial
  · split
    · exact ((h.stored (putPlaces_stored _ _ _ _)).stored (putPlaces_stored _ _ _ _)).freed (setWorld_freed _)
    · exact trivial

theorem beginProgram_wf {p : Loaded} {s : State} (h : Wf s) : Wf (beginProgram p s) := by
  unfold beginProgram
  dsimp only
  split <;> exact h

theorem execProgramLoad_wf {p : Loaded} {s : State} (h : Wf s) : OutWf (execProgramLoad p s) := by
  unfold execProgramLoad
  split
  · exact h
  · split
    · exact refuseRequest_wf h
    · split
      · exact refuseRequest_wf h
      · next he =>
          split
          · exact (loadSections_wf (beginProgram_wf h)).of_eq he
          · split
            · exact refuseRequest_wf ((loadSections_wf (beginProgram_wf h)).of_eq he)
            · split
              · next he1 => exact (loadQueue_wf ((loadSections_wf (beginProgram_wf h)).of_eq he)).of_eq he1
              · exact refuseRequest_wf h

/-! ### Device memory -/

theorem execFence_wf {f : FenceF} {s : State} (h : Wf s) : OutWf (execFence f s) := by
  unfold execFence
  dsimp only
  split
  · exact h.of_mem (waitFor_mem _ _)
  · exact finish_wf (h.ops (acquireDone_onlyOps _ _ _))

theorem prefLane_wf {l1 : Bool} {p : DWord} {s : State} (h : Wf s) : Wf (prefLane l1 p s) := by
  unfold prefLane
  split
  · next he =>
      split
      · exact foldl_wf (fun _ _ h1 => l1Fill_wf h1) ((checkAccess_wf h).of_eq he)
      · exact (checkAccess_wf h).of_eq he
  · exact h

theorem prefetch_wf {f : Form} {uni l1 : Bool} {lanes : List Nat} {addr : Nat → DWord} {s : State} (h : Wf s) :
    OutWf (prefetch f uni l1 lanes addr s) := by
  unfold prefetch
  split
  · exact deliver_wf h
  · exact finish_wf (foldl_wf (fun _ _ h1 => prefLane_wf h1) h)

theorem execLda_wf {f : LdaF} {s : State} (h : Wf s) : OutWf (execLda f s) := by
  unfold execLda
  refine guarded_wf h ?_
  intro _ h1
  split
  · exact deliver_wf h1
  · dsimp only
    split
    · exact deliver_wf h1
    · split
      · exact deliver_wf h1
      · split
        · exact h1.of_mem (waitFor_mem _ _)
        · exact afterAttempt_wf (addOp_wf (h1.translated (ldaLanes_translated _ _ _ _)))

/-! ### Narrow formats -/

theorem qnt_wf {op : BitVec 8} {qmin qmax : ℤ} {f : Alu2} {s : State} (h : Wf s) : OutWf (qnt op qmin qmax f s) := by
  unfold qnt
  refine guarded_wf h ?_
  intro _ h1
  refine vecResult_wf ?_
  exact h1

theorem execQntT3_wf {f : Alu2} {s : State} (h : Wf s) : OutWf (execQntT3 f s) := by
  unfold execQntT3
  refine guarded_wf h ?_
  intro _ h1
  refine vecResult_wf ?_
  exact h1

theorem dqnt_wf {op : BitVec 8} {w : Nat} {f : Alu2} {s : State} (h : Wf s) : OutWf (dqnt op w f s) :=
  guarded_wf h (fun _ h1 => vecResult_wf h1)

theorem execUpk3_wf {f : Alu2} {s : State} (h : Wf s) : OutWf (execUpk3 f s) := by
  unfold execUpk3
  refine guarded_wf h ?_
  intro _ h1
  dsimp only
  split
  · exact deliver_wf h1
  · refine vecResult_wf ?_
    split
    · exact h1
    · exact h1.reported (recordFor_reported _ _ _ _ _)

/-! ### Orrery -/

theorem resumeStopped_wf {key : Nat} {s : State} (h : Wf s) : Wf (resumeStopped key s) :=
  (h.of_mem (State.mapStrands_mem _ _)).of_mem (State.mapGrids_mem _ _)

theorem execOrreryPost_wf {x : PostAs} {va : DWord} {s0 : State} (h : Wf s0) : OutWf (execOrreryPost x va s0) := by
  unfold execOrreryPost
  dsimp only
  split
  · exact h.reported (moonCheck_reported _ _ _ _ _)
  · split
    · exact h.reported (moonCheck_reported _ _ _ _ _)
    · split
      · exact queueHeaderCheck_wf (h.reported (moonCheck_reported _ _ _ _ _))
      · split
        · exact queueHeaderCheck_wf (h.reported (moonCheck_reported _ _ _ _ _))
        · split
          · next he _ =>
              dsimp only [OutWf, Wf]
              exact (postImage_wf (queueHeaderCheck_wf (h.reported (moonCheck_reported _ _ _ _ _)))).of_eq he
          · exact queueHeaderCheck_wf (h.reported (moonCheck_reported _ _ _ _ _))

theorem debugRecord_wf {key : Nat} {addr : DWord} {extra : Nat} {s : State} (h : Wf s) :
    Wf (debugRecord key addr extra s) := h.reported (recordForWorld_reported _ _ _)

theorem orreryDraw_wf {key : Nat} {va : DWord} {n k : Nat} {s : State} (h : Wf s) : OptSndWf (orreryDraw key va n k s) := by
  induction k generalizing s with
  | zero => exact trivial
  | succ k ih =>
    rw [orreryDraw]
    split
    · exact trivial
    · split
      · next hcheck => exact ((checkAccess_wf h).of_eq hcheck).freed (setWorld_freed _)
      · split
        · split
          · exact ih (refill_wf h)
          · exact trivial
        · exact trivial

theorem shown_wf {l : List Byte} {s : State} (h : Wf s) : OutWf (shown l s) := h

theorem showStrand_wf {r : StrandRef} {s : State} {f : State → List Byte} (h : Wf s) : OutWf (showStrand r s f) := by
  unfold showStrand
  split
  · exact shown_wf h
  · exact h

theorem showBlock_wf {b : BlockRef} {s : State} {f : State → List Byte} (h : Wf s) : OutWf (showBlock b s f) := by
  unfold showBlock
  split
  · exact shown_wf h
  · exact h

theorem execOrreryRead_wf {t : OrreryTarget} {len : Nat} {s : State} (h : Wf s) : OutWf (execOrreryRead t len s) := by
  unfold execOrreryRead
  split
  · split
    · exact h
    · exact shown_wf (debugRecord_wf h)
    · exact shown_wf h
  · exact showStrand_wf h
  · exact showStrand_wf h
  · exact showStrand_wf h
  · exact showStrand_wf h
  · exact showStrand_wf h
  · exact showBlock_wf h
  · split
    · exact shown_wf h
    · exact h
  · split
    · exact shown_wf (debugRecord_wf h)
    · exact h
  · exact showBlock_wf h
  · exact showBlock_wf h
  · exact showBlock_wf h
  · exact shown_wf h
  · split
    · exact shown_wf h
    · exact h

theorem pokeInto_wf {r : StrandRef} {f : Strand → Strand} {s : State} (h : Wf s) : OutWf (pokeInto r f s) :=
  mapStrandRef_wf h

theorem execOrreryWrite_wf {t : OrreryTarget} {bytes : List Byte} {s : State} (h : Wf s) :
    OutWf (execOrreryWrite t bytes s) := by
  unfold execOrreryWrite
  dsimp only
  split
  · split
    · exact h
    · next he =>
        split
        · exact debugRecord_wf h
        · exact ((orreryDraw_wf h).of_eq he).reported (performEWrites_reported _ _ _)
  · exact pokeInto_wf h
  · exact pokeInto_wf h
  · exact pokeInto_wf h
  · split
    · next he1 =>
        split
        · exact chipWrite_wf ((State.focusBlock_wf h).of_eq he1)
        · exact h
    · exact h
  · split
    · next he2 =>
        split
        · exact chipWrite_wf ((State.focusGrid_wf h).of_eq he2)
        · exact h
    · exact h
  · split
    · exact debugRecord_wf h
    · exact h
  · exact h

/-! ### Replays -/

theorem dropParkedLoad_wf {s : State} (h : Wf s) : Wf (dropParkedLoad s) := by
  unfold dropParkedLoad
  split
  · exact loadFails_wf h
  · exact h

theorem replayStrand_wf {r : StrandRef} {ok : Bool} {s : State} (h : Wf s) : OutWf (replayStrand r ok s) := by
  unfold replayStrand
  split
  · exact h
  · next he =>
      split
      · split
        · dsimp only [OutWf, Wf]
          exact (State.focus_wf h).of_eq he
        · split
          · exact outerDeclined_wf (dropParkedLoad_wf ((State.focus_wf h).of_eq he))
          · exact deliver_wf (dropParkedLoad_wf ((State.focus_wf h).of_eq he))
      · exact h

theorem replayPacket_wf {n : Nat} {ok : Bool} {s : State} (h : Wf s) : OutWf (replayPacket n ok s) := by
  unfold replayPacket
  split
  · exact h
  · split
    · exact h
    · dsimp only
      split
      · exact outerDeclined_wf (setPacket_wf h)
      · exact setPacket_wf h

theorem replayArgs_wf {g : Nat} {ok : Bool} {s : State} (h : Wf s) : OutWf (replayArgs g ok s) := by
  unfold replayArgs
  split
  · exact h
  · split
    · exact h
    · dsimp only
      split
      · exact mapGrid_wf h
      · split
        · exact outerDeclined_wf (mapGrid_wf h)
        · exact argsEnd_wf (mapGrid_wf h)

theorem replayRecord_wf {n : Nat} {ok : Bool} {s : State} (h : Wf s) : OutWf (replayRecord n ok s) := by
  unfold replayRecord
  split
  · exact h
  · dsimp only
    split
    · refine Wf.reported ?_ (endGrid_reported _ _ _)
      refine Wf.of_mem ?_ (tell_mem _ _)
      exact h
    · split
      · next he =>
          refine WroteWf.of_eq ?_ he
          refine writeArea_wf ?_
          exact h
      · split
        · exact h
        · refine Wf.reported ?_ (endGrid_reported _ _ _)
          refine Wf.of_mem ?_ (tell_mem _ _)
          exact h
      · refine Wf.reported ?_ (endGrid_reported _ _ _)
        refine Wf.of_mem ?_ (tell_mem _ _)
        exact h

theorem replayWatch_wf {q order : Nat} {ok : Bool} {s : State} (h : Wf s) : OutWf (replayWatch q order ok s) := by
  unfold replayWatch
  split
  · exact h
  · split
    · exact h
    · split
      · exact h
      · split
        · exact setWatch_wf h
        · dsimp only
          split
          · exact endGrids_wf ((setWatch_wf h).reported (recordForWorld_reported _ _ _))
          · exact watchRecord_wf (setWatch_wf h)

theorem execReplayResolved_wf {w : ReplayTarget} {ok : Bool} {s : State} (h : Wf s) :
    OutWf (execReplayResolved w ok s) := by
  unfold execReplayResolved
  split
  · exact replayStrand_wf h
  · exact replayPacket_wf h
  · exact replayArgs_wf h
  · exact restore_wf h
  · exact replayRecord_wf h
  · exact replayWatch_wf h

/-! ### Scalar and vector instructions -/

theorem scalarOp_wf {op : BitVec 8} {f : Alu2} {s : State} {k : State → Out} (h : Wf s)
    (hk : ∀ (a : State), Wf a → OutWf (k a)) : OutWf (scalarOp op f s k) := guarded_wf h (fun _ h1 => hk _ h1)

/-! ### The ends of waits -/

theorem withWait_wf {r : StrandRef} {s : State} {k : Wait → State → Out} (h : Wf s)
    (hk : ∀ (a : Wait) (a_1 : State), Wf a_1 → OutWf (k a a_1)) : OutWf (withWait r s k) := by
  unfold withWait
  split
  · exact h
  · next he =>
      split
      · exact hk _ _ ((State.focus_wf h).of_eq he)
      · exact h

theorem wake_wf {s : State} (h : Wf s) : Wf (wake s) := h

theorem execWaitvWake_wf {r : StrandRef} {s : State} (h : Wf s) : OutWf (execWaitvWake r s) := by
  unfold execWaitvWake
  refine withWait_wf h ?_
  intro _ _ h1
  split
  · split
    · exact wake_wf h1
    · exact h
  · exact h

theorem execSleepExpiry_wf {r : StrandRef} {s : State} (h : Wf s) : OutWf (execSleepExpiry r s) := by
  unfold execSleepExpiry
  refine withWait_wf h ?_
  intro _ _ h1
  split
  · split
    · dsimp only [OutWf, Wf]
      exact wake_wf h1
    · exact h
  · exact h

theorem execWaitpExpiry_wf {r : StrandRef} {s : State} (h : Wf s) : OutWf (execWaitpExpiry r s) := by
  unfold execWaitpExpiry
  refine withWait_wf h ?_
  intro _ _ h1
  split
  · split
    · exact wake_wf h1
    · exact h
  · exact h

theorem execQueueRoom_wf {r : StrandRef} {s : State} (h : Wf s) : OutWf (execQueueRoom r s) := by
  unfold execQueueRoom
  refine withWait_wf h ?_
  intro _ _ h1
  split
  · exact wake_wf h1
  · exact h

/-! ### The step -/

theorem passNs_wf {ns : Nat} {s : State} (h : Wf s) : Wf (passNs ns s) := h

theorem mergeOld_wf {s : State} (h : Wf s) : Wf (mergeOld s) := by
  unfold mergeOld
  refine foldl_wf ?_ h
  intro _ _ h1
  split
  · next he => exact (execQntMerge_wf h1).of_eq he
  · exact h1

theorem advanceScrub_wf {s : State} (h : Wf s) : Wf (advanceScrub s) := by
  unfold advanceScrub
  split
  · exact h
  · split
    · dsimp only [Wf]
      exact h.checked (zeroPage_only _ _ _)
    · exact h

theorem tick_wf {s : State} (h : Wf s) : Wf (tick s) := by
  unfold tick
  refine flushNotify_wf ?_
  refine mergeOld_wf ?_
  refine advanceScrub_wf ?_
  refine Wf.links ?_ (passFlits_only _)
  refine clearDeficits_wf ?_
  refine passNs_wf ?_
  exact h

theorem byItself_wf {s : State} {run : Instr → State → Out} (h : Wf s)
    (hk : ∀ (a : Instr) (a_1 : State), Wf a_1 → OutWf (run a a_1)) : OutWf (byItself s run) := by
  unfold byItself
  split
  · exact hk _ _ h
  · exact h

end Machine

end Sys2Proof

/-! ## The canonical form of memory through a step -/

namespace Sys2Proof

namespace Machine

/-- Every instruction and every event keeps memory's canonical form. -/
theorem exec_wf {i : Instr} {s : State} (h : Wf s) : OutWf (exec i s) := by
  cases i with
  | nop => exact (finish_wf h : OutWf (execNop s))
  | bra off => exact (jump_wf h : OutWf (execBra off s))
  | brsZ c off => exact (guarded_wf h fun _ h1 => branchIf_wf h1 : OutWf (execBrsZ c off s))
  | brsNz c off => exact (guarded_wf h fun _ h1 => branchIf_wf h1 : OutWf (execBrsNz c off s))
  | brmAny m off => exact (guarded_wf h fun _ h1 => branchIf_wf h1 : OutWf (execBrmAny m off s))
  | brmAll m off => exact (guarded_wf h fun _ h1 => branchIf_wf h1 : OutWf (execBrmAll m off s))
  | brmNone m off => exact (guarded_wf h fun _ h1 => branchIf_wf h1 : OutWf (execBrmNone m off s))
  | jmpi p => exact (guarded_wf h fun _ h1 => jump_wf h1 : OutWf (execJmpi p s))
  | call _ _ => exact execCall_wf h
  | ret p => exact (guarded_wf h fun _ h1 => jump_wf h1 : OutWf (execRet p s))
  | exit => exact execExit_wf h
  | yield => exact execYield_wf h
  | sleep _ => exact execSleep_wf h
  | waitv _ _ => exact execWaitv_wf h
  | trap x => exact (userTrap_wf h : OutWf (execTrap x s))
  | tret => exact (trapReturn_wf h : OutWf (execTret s))
  | bkpt => exact execBkpt_wf h
  | acquire => exact execAcquire_wf h
  | bar => exact (arrive_wf h : OutWf (execBar s))
  | barpAnd d a => exact (barp_wf h : OutWf (execBarpAnd d a s))
  | barpOr d a => exact (barp_wf h : OutWf (execBarpOr d a s))
  | barpAdd d a => exact (barp_wf h : OutWf (execBarpAdd d a s))
  | barpMin d a => exact (barp_wf h : OutWf (execBarpMin d a s))
  | barpMax d a => exact (barp_wf h : OutWf (execBarpMax d a s))
  | waittag _ _ => exact execWaittag_wf h
  | waitp _ => exact execWaitp_wf h
  | bbwait _ => exact execBbwait_wf h
  | sadd f => exact (scalarOp_wf h fun _ h1 => uniResult_wf h1 : OutWf (execSadd f s))
  | saddD f => exact (scalarOp_wf h fun _ h1 => uniResult64_wf h1 : OutWf (execSaddD f s))
  | ssub f => exact (scalarOp_wf h fun _ h1 => uniResult_wf h1 : OutWf (execSsub f s))
  | ssubD f => exact (scalarOp_wf h fun _ h1 => uniResult64_wf h1 : OutWf (execSsubD f s))
  | smul f => exact (scalarOp_wf h fun _ h1 => uniResult_wf h1 : OutWf (execSmul f s))
  | smulD f => exact (scalarOp_wf h fun _ h1 => uniResult64_wf h1 : OutWf (execSmulD f s))
  | smulhS f => exact (scalarOp_wf h fun _ h1 => uniResult_wf h1 : OutWf (execSmulhS f s))
  | smulhUi f => exact (scalarOp_wf h fun _ h1 => uniResult_wf h1 : OutWf (execSmulhUi f s))
  | sand f => exact (scalarOp_wf h fun _ h1 => uniResult_wf h1 : OutWf (execSand f s))
  | sor f => exact (scalarOp_wf h fun _ h1 => uniResult_wf h1 : OutWf (execSor f s))
  | sxor f => exact (scalarOp_wf h fun _ h1 => uniResult_wf h1 : OutWf (execSxor f s))
  | ssel f => exact (scalarOp_wf h fun _ h1 => uniResult_wf h1 : OutWf (execSsel f s))
  | sshl f => exact (scalarOp_wf h fun _ h1 => uniResult_wf h1 : OutWf (execSshl f s))
  | sshr f => exact (scalarOp_wf h fun _ h1 => uniResult_wf h1 : OutWf (execSshr f s))
  | ssra f => exact (scalarOp_wf h fun _ h1 => uniResult_wf h1 : OutWf (execSsra f s))
  | sshlD f => exact (scalarOp_wf h fun _ h1 => uniResult64_wf h1 : OutWf (execSshlD f s))
  | sshrD f => exact (scalarOp_wf h fun _ h1 => uniResult64_wf h1 : OutWf (execSshrD f s))
  | ssraD f => exact (scalarOp_wf h fun _ h1 => uniResult64_wf h1 : OutWf (execSsraD f s))
  | scmpEq f => exact (scalarOp_wf h fun _ h1 => uniResult_wf h1 : OutWf (execScmpEq f s))
  | scmpNe f => exact (scalarOp_wf h fun _ h1 => uniResult_wf h1 : OutWf (execScmpNe f s))
  | scmpLt f => exact (scalarOp_wf h fun _ h1 => uniResult_wf h1 : OutWf (execScmpLt f s))
  | scmpLe f => exact (scalarOp_wf h fun _ h1 => uniResult_wf h1 : OutWf (execScmpLe f s))
  | scmpLtu f => exact (scalarOp_wf h fun _ h1 => uniResult_wf h1 : OutWf (execScmpLtu f s))
  | scmpLeu f => exact (scalarOp_wf h fun _ h1 => uniResult_wf h1 : OutWf (execScmpLeu f s))
  | scmpEqD f => exact (scalarOp_wf h fun _ h1 => uniResult_wf h1 : OutWf (execScmpEqD f s))
  | scmpNeD f => exact (scalarOp_wf h fun _ h1 => uniResult_wf h1 : OutWf (execScmpNeD f s))
  | smov f => exact (guarded_wf h fun _ h1 => uniResult_wf h1 : OutWf (execSmov f s))
  | smovD f => exact (guarded_wf h fun _ h1 => uniResult64_wf h1 : OutWf (execSmovD f s))
  | smovi f => exact (uniResult_wf h : OutWf (execSmovi f s))
  | smoviHi f => exact (guarded_wf h fun _ h1 => uniResult_wf h1 : OutWf (execSmoviHi f s))
  | sget _ => exact execSget_wf h
  | sset _ => exact execSset_wf h
  | vadd f => exact (guarded_wf h fun _ h1 => vecResult_wf h1 : OutWf (execVadd f s))
  | vaddD f => exact (guarded_wf h fun _ h1 => vecResult64_wf h1 : OutWf (execVaddD f s))
  | vsub f => exact (guarded_wf h fun _ h1 => vecResult_wf h1 : OutWf (execVsub f s))
  | vsubD f => exact (guarded_wf h fun _ h1 => vecResult64_wf h1 : OutWf (execVsubD f s))
  | vmul f => exact (guarded_wf h fun _ h1 => vecResult_wf h1 : OutWf (execVmul f s))
  | vmulhS f => exact (guarded_wf h fun _ h1 => vecResult_wf h1 : OutWf (execVmulhS f s))
  | vmulhUi f => exact (guarded_wf h fun _ h1 => vecResult_wf h1 : OutWf (execVmulhUi f s))
  | vmad f => exact (guarded_wf h fun _ h1 => vecResult_wf h1 : OutWf (execVmad f s))
  | vdot4S8 f => exact (guarded_wf h fun _ h1 => vecResult_wf h1 : OutWf (execVdot4S8 f s))
  | vdot4Ui8 f => exact (guarded_wf h fun _ h1 => vecResult_wf h1 : OutWf (execVdot4Ui8 f s))
  | vdot4Mix f => exact (guarded_wf h fun _ h1 => vecResult_wf h1 : OutWf (execVdot4Mix f s))
  | vand f => exact (guarded_wf h fun _ h1 => vecResult_wf h1 : OutWf (execVand f s))
  | vor f => exact (guarded_wf h fun _ h1 => vecResult_wf h1 : OutWf (execVor f s))
  | vxor f => exact (guarded_wf h fun _ h1 => vecResult_wf h1 : OutWf (execVxor f s))
  | vshl f => exact (guarded_wf h fun _ h1 => vecResult_wf h1 : OutWf (execVshl f s))
  | vshr f => exact (guarded_wf h fun _ h1 => vecResult_wf h1 : OutWf (execVshr f s))
  | vsra f => exact (guarded_wf h fun _ h1 => vecResult_wf h1 : OutWf (execVsra f s))
  | vshlD f => exact (guarded_wf h fun _ h1 => vecResult64_wf h1 : OutWf (execVshlD f s))
  | vshrD f => exact (guarded_wf h fun _ h1 => vecResult64_wf h1 : OutWf (execVshrD f s))
  | vsraD f => exact (guarded_wf h fun _ h1 => vecResult64_wf h1 : OutWf (execVsraD f s))
  | vminS f => exact (guarded_wf h fun _ h1 => vecResult_wf h1 : OutWf (execVminS f s))
  | vminUi f => exact (guarded_wf h fun _ h1 => vecResult_wf h1 : OutWf (execVminUi f s))
  | vmaxS f => exact (guarded_wf h fun _ h1 => vecResult_wf h1 : OutWf (execVmaxS f s))
  | vmaxUi f => exact (guarded_wf h fun _ h1 => vecResult_wf h1 : OutWf (execVmaxUi f s))
  | vabs f => exact (guarded_wf h fun _ h1 => vecResult_wf h1 : OutWf (execVabs f s))
  | vcmpS32 f => exact (guarded_wf h fun _ h1 => cmpResult_wf h1 : OutWf (execVcmpS32 f s))
  | vcmpUi32 f => exact (guarded_wf h fun _ h1 => cmpResult_wf h1 : OutWf (execVcmpUi32 f s))
  | vcmpS64 f => exact (guarded_wf h fun _ h1 => cmpResult_wf h1 : OutWf (execVcmpS64 f s))
  | vcmpUi64 f => exact (guarded_wf h fun _ h1 => cmpResult_wf h1 : OutWf (execVcmpUi64 f s))
  | vsel f => exact (guarded_wf h fun _ h1 => vecResult_wf h1 : OutWf (execVsel f s))
  | vbfeS f => exact (guarded_wf h fun _ h1 => vecResult_wf h1 : OutWf (execVbfeS f s))
  | vbfeUi f => exact (guarded_wf h fun _ h1 => vecResult_wf h1 : OutWf (execVbfeUi f s))
  | vpopc f => exact (guarded_wf h fun _ h1 => vecResult_wf h1 : OutWf (execVpopc f s))
  | vclz f => exact (guarded_wf h fun _ h1 => vecResult_wf h1 : OutWf (execVclz f s))
  | vfadd f => exact (guarded_wf h fun _ h1 => vecResult_wf h1 : OutWf (execVfadd f s))
  | vfsub f => exact (guarded_wf h fun _ h1 => vecResult_wf h1 : OutWf (execVfsub f s))
  | vfmul f => exact (guarded_wf h fun _ h1 => vecResult_wf h1 : OutWf (execVfmul f s))
  | vfma f => exact (guarded_wf h fun _ h1 => vecResult_wf h1 : OutWf (execVfma f s))
  | vhfmaBf16 f => exact (guarded_wf h fun _ h1 => vecResult_wf h1 : OutWf (execVhfmaBf16 f s))
  | vhfmaF16 f => exact (guarded_wf h fun _ h1 => vecResult_wf h1 : OutWf (execVhfmaF16 f s))
  | vfmin f => exact (guarded_wf h fun _ h1 => vecResult_wf h1 : OutWf (execVfmin f s))
  | vfmax f => exact (guarded_wf h fun _ h1 => vecResult_wf h1 : OutWf (execVfmax f s))
  | vfcmp f => exact (guarded_wf h fun _ h1 => cmpResult_wf h1 : OutWf (execVfcmp f s))
  | vfrcp f => exact (guarded_wf h fun _ h1 => vecResult_wf h1 : OutWf (execVfrcp f s))
  | vfrsq f => exact (guarded_wf h fun _ h1 => vecResult_wf h1 : OutWf (execVfrsq f s))
  | vexp2 f => exact (guarded_wf h fun _ h1 => vecResult_wf h1 : OutWf (execVexp2 f s))
  | vlog2 f => exact (guarded_wf h fun _ h1 => vecResult_wf h1 : OutWf (execVlog2 f s))
  | vfsin f => exact (guarded_wf h fun _ h1 => vecResult_wf h1 : OutWf (execVfsin f s))
  | vfcos f => exact (guarded_wf h fun _ h1 => vecResult_wf h1 : OutWf (execVfcos f s))
  | vfcvt f => exact (guarded_wf h fun _ h1 => vecResult_wf h1 : OutWf (execVfcvt f s))
  | vshufXor f => exact (shuffle_wf h : OutWf (execVshufXor f s))
  | vshufUp f => exact (shuffle_wf h : OutWf (execVshufUp f s))
  | vshufDown f => exact (shuffle_wf h : OutWf (execVshufDown f s))
  | vshufIdx f => exact (shuffle_wf h : OutWf (execVshufIdx f s))
  | vbcast f => exact (guarded_wf h fun _ h1 => vecResult_wf h1 : OutWf (execVbcast f s))
  | vred _ => exact execVred_wf h
  | vscanIncl f => exact (scan_wf h : OutWf (execVscanIncl f s))
  | vscanExcl f => exact (scan_wf h : OutWf (execVscanExcl f s))
  | vbal f => exact (guarded_wf h fun _ h1 => uniResult64_wf h1 : OutWf (execVbal f s))
  | vlid f => exact (guarded_wf h fun _ h1 => vecResult_wf h1 : OutWf (execVlid f s))
  | mand f => exact (guarded_wf h fun _ h1 => maskResult_wf h1 : OutWf (execMand f s))
  | mor f => exact (guarded_wf h fun _ h1 => maskResult_wf h1 : OutWf (execMor f s))
  | mxor f => exact (guarded_wf h fun _ h1 => maskResult_wf h1 : OutWf (execMxor f s))
  | mnot f => exact (guarded_wf h fun _ h1 => maskResult_wf h1 : OutWf (execMnot f s))
  | mmov f => exact (guarded_wf h fun _ h1 => maskResult_wf h1 : OutWf (execMmov f s))
  | mcnt f => exact (guarded_wf h fun _ h1 => uniResult_wf h1 : OutWf (execMcnt f s))
  | msave f => exact (guarded_wf h fun _ h1 => uniResult64_wf h1 : OutWf (execMsave f s))
  | mload f => exact (guarded_wf h fun _ h1 => maskResult_wf h1 : OutWf (execMload f s))
  | kclr _ => exact execKclr_wf h
  | kaddF32 f => exact (kadd_wf h : OutWf (execKaddF32 f s))
  | kaddF16 f => exact (kadd_wf h : OutWf (execKaddF16 f s))
  | kaddBf16 f => exact (kadd_wf h : OutWf (execKaddBf16 f s))
  | krnd f => exact (guarded_wf h fun _ h1 => uniResult_wf h1 : OutWf (execKrnd f s))
  | expr f => exact (guarded_wf h fun _ h1 => vecResult_wf h1 : OutWf (execExpr f s))
  | qmm f => exact (guarded_wf h fun _ h1 => uniResult64_wf h1 : OutWf (execQmm f s))
  | qntI8 f => exact (qnt_wf h : OutWf (execQntI8 f s))
  | qntI4 f => exact (qnt_wf h : OutWf (execQntI4 f s))
  | qntT3 _ => exact execQntT3_wf h
  | dqntI8 f => exact (dqnt_wf h : OutWf (execDqntI8 f s))
  | dqntI4 f => exact (dqnt_wf h : OutWf (execDqntI4 f s))
  | pk3 f => exact (guarded_wf h fun _ h1 => vecResult_wf h1 : OutWf (execPk3 f s))
  | upk3 _ => exact execUpk3_wf h
  | pk4 f => exact (guarded_wf h fun _ h1 => vecResult_wf h1 : OutWf (execPk4 f s))
  | upk4 f => exact (guarded_wf h fun _ h1 => vecResult_wf h1 : OutWf (execUpk4 f s))
  | ld f => exact (memRead_wf h : OutWf (execLd f s))
  | ldU f => exact (memRead_wf h : OutWf (execLdU f s))
  | st f => exact (memAct_wf h : OutWf (execSt f s))
  | stU f => exact (memAct_wf h : OutWf (execStU f s))
  | stx f => exact (memAct_wf h : OutWf (execStx f s))
  | stxU f => exact (memAct_wf h : OutWf (execStxU f s))
  | atom f => exact (memAct_wf h : OutWf (execAtom f s))
  | atomU f => exact (memAct_wf h : OutWf (execAtomU f s))
  | fence _ => exact execFence_wf h
  | pref f => exact (guarded_wf h fun _ h1 => prefetch_wf h1 : OutWf (execPref f s))
  | prefU f => exact (guarded_wf h fun _ h1 => prefetch_wf h1 : OutWf (execPrefU f s))
  | tagld f => exact (memRead_wf h : OutWf (execTagld f s))
  | tagldU f => exact (memRead_wf h : OutWf (execTagldU f s))
  | tagst f => exact (memAct_wf h : OutWf (execTagst f s))
  | tagstU f => exact (memAct_wf h : OutWf (execTagstU f s))
  | lda _ => exact execLda_wf h
  | lds f => exact (localRead_wf h : OutWf (execLds f s))
  | ldsU f => exact (localRead_wf h : OutWf (execLdsU f s))
  | sts f => exact (localAct_wf h : OutWf (execSts f s))
  | stsU f => exact (localAct_wf h : OutWf (execStsU f s))
  | atoms f => exact (localAct_wf h : OutWf (execAtoms f s))
  | atomsU f => exact (localAct_wf h : OutWf (execAtomsU f s))
  | gld f => exact (localRead_wf h : OutWf (execGld f s))
  | gldU f => exact (localRead_wf h : OutWf (execGldU f s))
  | gst f => exact (localAct_wf h : OutWf (execGst f s))
  | gstU f => exact (localAct_wf h : OutWf (execGstU f s))
  | gop f => exact (localAct_wf h : OutWf (execGop f s))
  | gopU f => exact (localAct_wf h : OutWf (execGopU f s))
  | cpost d a => exact (cpostAct_wf h : OutWf (execCpost d a s))
  | cpostNb d a => exact (cpostAct_wf h : OutWf (execCpostNb d a s))
  | bbinit a b => exact (barrierAct_wf h : OutWf (execBbinit a b s))
  | bbinv a => exact (barrierAct_wf h : OutWf (execBbinv a s))
  | promote _ _ _ _ => exact execPromote_wf h
  | promoteA _ _ _ => exact execPromoteA_wf h
  | arena _ _ _ => exact execArena_wf h
  | launch _ _ => exact execLaunch_wf h
  | tsig _ _ => exact execTsig_wf h
  | oclaim _ _ => exact execOclaim_wf h
  | orel _ _ => exact execOrel_wf h
  | olda _ _ _ => exact execOlda_wf h
  | oldw _ _ _ => exact execOldw_wf h
  | mma _ => exact execMma_wf h
  | aclr _ => exact execAclr_wf h
  | adrn _ _ => exact execAdrn_wf h
  | mtok _ => exact execMtok_wf h
  | mwaitTok => exact execMwaitTok_wf h
  | mwaitAll => exact execMwaitAll_wf h
  | clauseIssue _ _ => exact execClauseIssue_wf h
  | replayResolved _ _ => exact execReplayResolved_wf h
  | arenaPoolRefill key die big n => exact (refill_wf h : OutWf (execArenaPoolRefill key die big n s))
  | gridRecord _ => exact execGridRecord_wf h
  | nodeRecord _ => exact execNodeRecord_wf h
  | signalRecord q => exact (handRecord_wf h : OutWf (execSignalRecord q s))
  | waitvalRecord _ => exact execWaitvalRecord_wf h
  | waitvalSatisfied _ => exact execWaitvalSatisfied_wf h
  | copyRecord q => exact (handRecord_wf h : OutWf (execCopyRecord q s))
  | readyPoolEntry => exact execReadyPoolEntry_wf h
  | blockDispatch _ => exact execBlockDispatch_wf h
  | grant _ => exact execGrant_wf h
  | blockRetirement _ => exact execBlockRetirement_wf h
  | gridRetirement _ => exact execGridRetirement_wf h
  | arenaDestruction _ => exact execArenaDestruction_wf h
  | sliceUnit => exact execSliceUnit_wf h
  | drainExpiry _ => exact execDrainExpiry_wf h
  | blockSave _ => exact execBlockSave_wf h
  | blockRestore b => exact (restore_wf h : OutWf (execBlockRestore b s))
  | mmaStart _ => exact execMmaStart_wf h
  | mmaRetire _ => exact execMmaRetire_wf h
  | oldaComplete _ _ => exact execOldaComplete_wf h
  | oldwComplete _ _ => exact execOldwComplete_wf h
  | adrnComplete _ _ => exact execAdrnComplete_wf h
  | orelComplete _ _ => exact execOrelComplete_wf h
  | ldaComplete _ _ => exact execLdaComplete_wf h
  | loadComplete _ _ _ => exact execLoadComplete_wf h
  | storeComplete _ _ => exact execStoreComplete_wf h
  | scratchpadAccessPerformed _ _ => exact execScratchpadAccessPerformed_wf h
  | qntMerge _ => exact execQntMerge_wf h
  | rdupCollapse _ _ => exact execRdupCollapse_wf h
  | waitvWake _ => exact execWaitvWake_wf h
  | sleepExpiry _ => exact execSleepExpiry_wf h
  | waitpExpiry _ => exact execWaitpExpiry_wf h
  | queueRoom _ => exact execQueueRoom_wf h
  | copy1d p => exact (startFrom_wf h : OutWf (execCopy1d p s))
  | copy2d p => exact (startFrom_wf h : OutWf (execCopy2d p s))
  | fill p => exact (startFrom_wf h : OutWf (execFill p s))
  | mcast p => exact (startFrom_wf h : OutWf (execMcast p s))
  | reduce p => exact (startFrom_wf h : OutWf (execReduce p s))
  | sealmove p => exact (startFrom_wf h : OutWf (execSealmove p s))
  | ingest p => exact (startFrom_wf h : OutWf (execIngest p s))
  | signal p => exact (startFrom_wf h : OutWf (execSignal p s))
  | packetCompletion _ _ => exact execPacketCompletion_wf h
  | mcastArrival _ _ _ => exact execMcastArrival_wf h
  | reduceCompletion _ _ => exact execReduceCompletion_wf h
  | tlbinvComplete _ => exact execTlbinvComplete_wf h
  | leaseExpiry => exact execLeaseExpiry_wf h
  | scrubComplete _ => exact execScrubComplete_wf h
  | notifyInterrupt _ => exact execNotifyInterrupt_wf h
  | tlbInvalidate _ _ => exact execTlbInvalidate_wf h
  | leaseRenew _ => exact execLeaseRenew_wf h
  | leaseRelease _ => exact execLeaseRelease_wf h
  | leasePeriod _ _ => exact execLeasePeriod_wf h
  | scrubprogSelect _ _ => exact execScrubprogSelect_wf h
  | aggvecRead _ _ => exact execAggvecRead_wf h
  | feataccWrite _ _ _ => exact execFeataccWrite_wf h
  | commit _ => exact execCommit_wf h
  | registerWrite _ _ _ => exact execRegisterWrite_wf h
  | register _ _ _ => exact execRegister_wf h
  | deregister _ => exact execDeregister_wf h
  | giveMemory _ _ _ _ _ => exact execGiveMemory_wf h
  | roots _ _ _ => exact execRoots_wf h
  | sealedEntry _ _ _ => exact execSealedEntry_wf h
  | ingestKey _ _ _ _ _ => exact execIngestKey_wf h
  | cometQueue _ _ _ => exact execCometQueue_wf h
  | bindQueue _ _ => exact execBindQueue_wf h
  | bindStream w port k =>
    exact (forHandle_wf h fun _ => h.freed (setWorld_freed _) : OutWf (execBindStream w port k s))
  | attest w nonce => exact (forHandle_wf h fun _ => h.of_mem (tell_mem _ _) : OutWf (execAttest w nonce s))
  | macReread _ _ => exact execMacReread_wf h
  | keyGeneration _ => exact execKeyGeneration_wf h
  | flitRetry _ _ _ => exact execFlitRetry_wf h
  | hostLinkDown port => exact (mapPort_wf h : OutWf (execHostLinkDown port s))
  | hostLinkUp _ => exact execHostLinkUp_wf h
  | tdispStop _ _ => exact execTdispStop_wf h
  | ideIntegrityFailure port k => exact (mapStream_wf h : OutWf (execIdeIntegrityFailure port k s))
  | hostAccess _ _ => exact execHostAccess_wf h
  | peerAccess _ _ => exact execPeerAccess_wf h
  | perigeeTraining _ _ => exact execPerigeeTraining_wf h
  | powerOn _ => exact execPowerOn_wf h
  | warmReset => exact execWarmReset_wf h
  | programLoad _ => exact execProgramLoad_wf h
  | orreryAttach key => exact (h.of_mem (State.mapWorlds_mem _ _) : OutWf (execOrreryAttach key s))
  | orreryDetach key => exact (resumeStopped_wf (h.of_mem (State.mapWorlds_mem _ _)) : OutWf (execOrreryDetach key s))
  | orreryRead _ _ => exact execOrreryRead_wf h
  | orreryWrite _ _ => exact execOrreryWrite_wf h
  | orreryPost _ _ => exact execOrreryPost_wf h
  | orrerySetPlace _ _ => exact h
  | orreryContinue r => exact (mapStrandRef_wf h : OutWf (execOrreryContinue r s))
  | powerLoss => exact execPowerLoss_wf h
  | clusterClockGating _ _ => exact h
  | softError _ _ => exact execSoftError_wf h
  | tdispLockInterface _ _ => exact execTdispLockInterface_wf h
  | tdispStartInterface _ _ => exact execTdispStartInterface_wf h

theorem turn_wf {s : State} (h : Wf s) : OutWf (turn s) := by
  unfold turn
  split
  · exact deliver_wf h
  · split
    · exact byItself_wf h fun _ _ h1 => exec_wf h1
    · exact exec_wf h
  · exact byItself_wf h fun _ _ h1 => exec_wf h1

theorem step_wf {s : State} (h : Wf s) : OutWf (step s) := by
  have htick : Wf (tick s) := tick_wf h
  unfold step
  generalize tick s = t at htick ⊢
  dsimp only
  split
  · split
    · exact exec_wf htick
    · exact htick
  · split
    · exact htick
    · exact turn_wf htick

end Machine

open Machine

/-- Settles O57: every operation answers a canonical state when it is given one, since the bytes of memory are
written by `putPlaces` and `zeroPage` alone, apart from the resets. -/
theorem memoryStaysCanonical : Obligations.MemoryStaysCanonical := by
  unfold Obligations.MemoryStaysCanonical
  exact fun _ _ h hstep => (step_wf h).of_eq hstep

end Sys2Proof
